-- ==== Sys2Proof/Word.lean ====
section
/-! DEFINITION. The words of the FX-128 (Keiruz 1): bytes, 32-bit and 64-bit words, vector registers and accumulators. -/

namespace Sys2Proof

/-- A byte. -/
abbrev Byte := BitVec 8

/-- A 32-bit word. -/
abbrev W32 := BitVec 32

/-- A 64-bit word. -/
abbrev W64 := BitVec 64

/-- A vector register: 1,024 bits (R90). -/
abbrev VReg := BitVec 1024

/-- An accumulator: 64 rows of 64 elements of 32 bits; element (i, j) is bits [32j+31 : 32j] of row i (R93). -/
abbrev Acc := Vector (BitVec 2048) 64

end Sys2Proof
end

