-- ==== Sys2Proof/Syntax.lean ====
section
/-! DEFINITION. The operations and events of spec/opcode_table.json, one constructor of `Instr` per row, with their operands. -/

namespace Sys2Proof

/-- Which vector slot and file an operation of the shared vector map uses (R131, R135). -/
inductive VFile where | a | b
  deriving DecidableEq, Repr

/-- Operand b of a K operation: a register, or imm16 (R127, R160). -/
inductive KOpd where
  | reg (r : Fin 16)
  | imm (i : BitVec 16)
  deriving DecidableEq, Repr

/-- Operand b of an S operation: a register, or imm16 (R127, R161). -/
inductive SOpd where
  | reg (r : Fin 32)
  | imm (i : BitVec 16)
  deriving DecidableEq, Repr

/-- Operand b of a vector operation: a register, or imm16 (R173). -/
inductive VOpd where
  | reg (r : Fin 32)
  | imm (i : BitVec 16)
  deriving DecidableEq, Repr

/-- Operand b of a mask operation: a mask, or imm16 (R195). -/
inductive MOpd where
  | reg (r : Fin 8)
  | imm (i : BitVec 16)
  deriving DecidableEq, Repr

/-- Index of `vbcast`: field b, or imm16 (R191). -/
inductive VIndex where
  | field (r : Fin 32)
  | imm (i : BitVec 16)
  deriving DecidableEq, Repr

/-- Scales of `vscale`: bytes of a register, or one byte of imm16 (R187). -/
inductive VScale where
  | reg (r : Fin 32)
  | imm (e : BitVec 8)
  deriving DecidableEq, Repr

/-- Class of the register that `chkp` names (R154). -/
inductive PoisonClass where | s | va | vb | t | z
  deriving DecidableEq, Repr

/-- TY: an integer lane type (R171). -/
inductive ITy where | i8 | n8 | i16 | n16 | i32 | n32
  deriving DecidableEq, Repr

/-- FT: a floating-point lane type (R171). -/
inductive FTy where | fp32 | fp16 | bf16
  deriving DecidableEq, Repr

/-- W: a lane width (R171). -/
inductive Width where | w8 | w16 | w32
  deriving DecidableEq, Repr

/-- RM: a rounding mode (R65). -/
inductive RMode where | rne | rtz | rdn | rup
  deriving DecidableEq, Repr

/-- SG: operand signedness of `vdot4` (R177). -/
inductive Signs where | ii | ni | nn
  deriving DecidableEq, Repr

/-- A format that `vcvt` converts (R184): codes 0x2 to 0xC of R58. -/
inductive CFmt where | i8 | n8 | i16 | n16 | i32 | n32 | fp16 | bf16 | fp32 | e4m3 | e5m2
  deriving DecidableEq, Repr

/-- A target of `zoutv` (R213). -/
inductive VFmt where | i4 | i8 | e4m3 | e5m2 | fp16 | bf16
  deriving DecidableEq, Repr

/-- E: an element format of a block (R186). -/
inductive BElem where | e4m3 | e5m2 | i4
  deriving DecidableEq, Repr

/-- DK: data kind of a format-A access (R221). -/
inductive DKind where | n8 | i8 | n16 | i16 | n32 | i32 | i64 | va | vb
  deriving DecidableEq, Repr

/-- DK2: data kind of a landing form (R221). -/
inductive DKind2 where | i64 | n32 | va | vb
  deriving DecidableEq, Repr

/-- SCOPE (R223). -/
inductive Scope where | panel | bolt | dev | sys
  deriving DecidableEq, Repr

/-- HINT (R116, R223). -/
inductive Hint where | normal | na | byp | ef
  deriving DecidableEq, Repr

/-- Strength, scope and hint of `ldg` (R226). -/
inductive LdQual where
  | weak (h : Hint)
  | strong (s : Scope)
  | acq (s : Scope)
  deriving DecidableEq, Repr

/-- Strength, scope and hint of `stg` (R227). -/
inductive StQual where
  | weak (h : Hint)
  | strong (s : Scope)
  | rel (s : Scope)
  deriving DecidableEq, Repr

/-- ORD of `ldv` and `stv`: weak, strong, or acquire (release for a store) (R228). -/
inductive VOrd where | weak | strong | order
  deriving DecidableEq, Repr

/-- ORD and SCOPE of `cas` (R232). -/
inductive CasQual where
  | none
  | acq (s : Scope)
  | rel (s : Scope)
  | ar (s : Scope)
  deriving DecidableEq, Repr

/-- The eight atomics of `amo`, and the compare-and-swap (R231, R232). -/
inductive AmoOp where | add | and | or | xor | max | min | maxn | swap | cas
  deriving DecidableEq, Repr

/-- Landing parameters of a format-L operation, from imm16 (R128). -/
structure Landing where
  /-- POL: true for PSN. -/
  psn : Bool
  /-- DUE, 1 to 4,095. -/
  due : BitVec 12
  deriving DecidableEq, Repr

/-- Source of a send, or destination of a receive (R243, R244). -/
inductive XSrc where
  | s (r : Fin 32)
  | v (f : VFile) (r : Fin 32)
  | tsp (bank : Fin 16) (off : BitVec 16)
  deriving DecidableEq, Repr

/-- Source of `sndr` (R247). -/
inductive RSrc where
  | v (f : VFile) (r : Fin 32)
  | tsp (r : Fin 32)
  deriving DecidableEq, Repr

/-- Where an engine command finds its record (R255). -/
inductive RecSrc where
  | low
  | high
  | tsp (r : Fin 32)
  deriving DecidableEq, Repr

/-- The optional steps of a readout (R86, R211); OUT is the presence of an outlier accumulator. -/
structure Steps where
  /-- RS: row scale. -/
  rs : Bool
  /-- CS: channel scale. -/
  cs : Bool
  /-- BIAS. -/
  bias : Bool
  deriving DecidableEq, Repr

/-- Who gives a placer or MC command: a service core, with the register that receives the result, or a host through a port
(R365, R403, R441, R442). -/
inductive Caller where
  | svc (q : Fin 32) (d : Fin 32)
  | host (port : Fin 2)
  deriving DecidableEq, Repr

/-- Registers a host writes that have no behaviour of their own (R355, R403, R441), and the WRITE-only command words. -/
inductive HostReg where
  | eqHead (v : Nat)
  | eqCtl (v : Nat)
  | ctlBuf (word : Fin 8)
  | ctlCmd
  | mailArg
  | mailFn
  | mailBuf (word : Fin 504)
  | mailRes
  | mailStat
  | other (off : Nat)
  deriving DecidableEq, Repr

/-- The BAR through which a host reaches a vdev's register page (R399): BAR1 of PF0, or BAR0 of the VF that the vdev is bound to, with the stream of the
request's T bit (R413). -/
inductive PageBar where
  | pf
  | vf (tbit : Option Nat)
  deriving DecidableEq, Repr

/-- Where a write to a register page comes in: the host port, and the BAR. -/
structure PageReq where
  port : Fin 2
  bar : PageBar
  deriving DecidableEq, Repr

/-- A Translation Completion (R393): the host's answer with its host address, size in pages (log2) and permissions, or a refusal
(Unsupported Request or Completer Abort). -/
inductive AtsAnswer where
  | grant (host log2 : Nat) (r w : Bool)
  | refuse
  deriving DecidableEq, Repr

/-- A PRG Response (R395). -/
inductive PrgCode where | success | invalidRequest | responseFailure
  deriving DecidableEq, Repr

/-- The port and the session of a secured request (R411). -/
structure SecReq where
  port : Fin 2
  session : Nat
  deriving DecidableEq, Repr

/-- A GET_MEASUREMENTS (R410): its port, whether a signature is asked for, and the measurement block. -/
structure MeasReq where
  port : Fin 2
  signed : Bool
  block : Nat
  deriving DecidableEq, Repr

/-- A voter, with the DCC of its suspicion (R424). -/
structure Voter where
  tile : Fin 128
  since : Nat
  deriving DecidableEq, Repr

/-- What an SPDM requester offers, item by item: whether its offer holds the part's selection (R409). -/
structure SpdmOffer where
  hash : Bool
  baseAsym : Bool
  extAsym : Bool
  dhe : Bool
  aead : Bool
  keySchedule : Bool
  deriving DecidableEq, Repr

/-- A flit as it arrives: its 176 bytes, byte 0 lowest, and whether its MAC verifies under the link key (R417). -/
structure FlitIn where
  raw : BitVec 1408
  macOk : Bool
  deriving DecidableEq, Repr

/-- A tack: its 16 bytes, byte 0 lowest (R420). -/
abbrev TackIn : Type := BitVec 128

/-- What a router sees on the link from a neighbour, which may count toward babbling suspicion (R422): a span of 64 cycles with so many
background beats of the neighbour's own, a malformed flit, or a panel flit of the neighbour's with its destination. -/
inductive Babble where
  | span (beats : Nat)
  | malformed
  | panelFlit (dest : Fin 128)
  deriving DecidableEq, Repr


/-- Every operation and event of the opcode table, one constructor per row. The guard and the slot of an operation belong to its
bundle (R118, R123); imm16 and the landing parameters are resolved when the bundle is decoded (R127, R128). -/
inductive Instr where
  /-- IDLE_BUNDLE (R120): An idle bundle issues nothing for imm16 + 1 PSC cycles; due results and landing slots are still processed on those cycles. -/
  | idleBundle (n : BitVec 16)
  /-- BARRIER_ONLY_BUNDLE (R119): A 4-byte bundle that issues no operation and takes part in the barrier that SYNC names. -/
  | barrierOnlyBundle (g : BitVec 3)
  /-- BR (R149): Transfers control to the header address plus 4 × i22, popping loop entries whose range excludes the target. -/
  | br (off : BitVec 22)
  /-- JR (R149): Transfers control to k[a] plus an optional sign-extended imm16 offset. -/
  | jr (a : Fin 16) (off : Option (BitVec 16))
  /-- CALL (R149): Branches as br does and writes the return address into k15. -/
  | call (off : BitVec 22)
  /-- RET (R149): Transfers control to the address in k15 without popping the loop stack. -/
  | ret
  /-- LOOP (R150): Pushes a loop entry whose count is taken from a k register, or skips the body when the count is zero. -/
  | loop (a : Fin 16) (off : BitVec 12)
  /-- LOOPI (R150): Pushes a loop entry with an immediate count and an imm16 end offset, or skips the body when the count is zero. -/
  | loopi (count : BitVec 17) (off : BitVec 16)
  /-- LBRK (R150): Pops the top loop entry and continues at the bundle after its end. -/
  | lbrk
  /-- LNEXT (R150): Acts as if the end bundle of the top loop entry had just issued. -/
  | lnext
  /-- SWAPB (R151): Exchanges the ISP halves when the fenced flag is set, clears the flag and branches into the new half. -/
  | swapb (off : BitVec 22)
  /-- IFENCE (R151): Completes the earlier sti writes of the tile and sets the fenced flag of the idle half three cycles later. -/
  | ifence
  /-- STITCH (R152): Marks a stitch point with a live mask and a live-bank mask; it takes effect only when it is panel-wide. -/
  | stitch (live : BitVec 21) (banks : BitVec 16)
  /-- CHKP (R154): Branches when the poison bit of the named register is set. -/
  | chkp (c : PoisonClass) (r : Fin 32) (off : BitVec 12)
  /-- TKW (R155): Freezes the panel while the named token is PENDING, and then issues. -/
  | tkw (k : Fin 32)
  /-- TKP_PEND (R155): Sets a predicate when the named token is PENDING. -/
  | tkpPend (p : Fin 8) (k : Fin 32)
  /-- TKP_DONE (R155): Sets a predicate when the named token is DONE; observing DONE acts as an acquire. -/
  | tkpDone (p : Fin 8) (k : Fin 32)
  /-- TKP_PART (R155): Sets a predicate when the named token is PARTIAL. -/
  | tkpPart (p : Fin 8) (k : Fin 32)
  /-- TKP_FAIL (R155): Sets a predicate when the named token is FAILED. -/
  | tkpFail (p : Fin 8) (k : Fin 32)
  /-- TKP_FREE (R155): Sets a predicate when the named token is FREE. -/
  | tkpFree (p : Fin 8) (k : Fin 32)
  /-- TKP_RES (R155): Sets a predicate when the named token is resolved (DONE, PARTIAL or FAILED). -/
  | tkpRes (p : Fin 8) (k : Fin 32)
  /-- VCLUST (R156): Gates or wakes VA and VB vector clusters according to enable masks. -/
  | vclust (vb va : BitVec 4)
  /-- HALT (R159): Ends the tile program; on a service core it waits for an event instead. -/
  | halt
  /-- TRAP (R159): Issues the whole bundle and then raises the user-trap cause with a 17-bit code. -/
  | trap (code : BitVec 17)
  /-- BRK (R159): Issues the whole bundle and then raises the breakpoint cause with a 17-bit code. -/
  | brk (code : BitVec 17)
  /-- KADD (R160): Writes the wrapped 32-bit sum of two k operands into k[d]. -/
  | kadd (d a : Fin 16) (o : KOpd)
  /-- KLI (R160): Loads a sign-extended 17-bit immediate into a k register. -/
  | kli (d : Fin 16) (i : BitVec 17)
  /-- KMOV (R160): Copies the low 32 bits of an s register into a k register. -/
  | kmov (d : Fin 16) (a : Fin 32)
  /-- KMOV_HI (R160): Copies the high 32 bits of an s register into a k register. -/
  | kmovHi (d : Fin 16) (a : Fin 32)
  /-- PSET_AND (R160): Writes the AND of two predicates into a predicate. -/
  | psetAnd (d a b : Fin 8)
  /-- PSET_OR (R160): Writes the OR of two predicates into a predicate. -/
  | psetOr (d a b : Fin 8)
  /-- PSET_XOR (R160): Writes the XOR of two predicates into a predicate. -/
  | psetXor (d a b : Fin 8)
  /-- PSET_ANDN (R160): Writes p[a] AND NOT p[b] into a predicate. -/
  | psetAndn (d a b : Fin 8)
  /-- PSET_ORN (R160): Writes p[a] OR NOT p[b] into a predicate. -/
  | psetOrn (d a b : Fin 8)
  /-- PSET_EQ (R160): Sets a predicate when k[a] equals the second operand. -/
  | psetEq (d : Fin 8) (a : Fin 16) (o : KOpd)
  /-- PSET_NE (R160): Sets a predicate when k[a] differs from the second operand. -/
  | psetNe (d : Fin 8) (a : Fin 16) (o : KOpd)
  /-- PSET_LT (R160): Sets a predicate when k[a] is less than the second operand, compared signed. -/
  | psetLt (d : Fin 8) (a : Fin 16) (o : KOpd)
  /-- PSET_LTN (R160): Sets a predicate when k[a] is less than the second operand, compared unsigned. -/
  | psetLtn (d : Fin 8) (a : Fin 16) (o : KOpd)
  /-- PSET_NZ (R160): Sets a predicate when k[a] is nonzero. -/
  | psetNz (d : Fin 8) (a : Fin 16)
  /-- RDSC (R160): Reads PSC[31:0] into a k register. -/
  | rdsc (d : Fin 16)
  /-- RDSC_HI (R160): Reads PSC[63:32] into a k register. -/
  | rdscHi (d : Fin 16)
  /-- RDDCC (R160): Reads DCC[31:0] into a k register and latches DCC[63:32]. -/
  | rddcc (d : Fin 16)
  /-- RDDCC_HI (R160): Reads the latched upper half of DCC into a k register. -/
  | rddccHi (d : Fin 16)
  /-- ADD (R161): Writes the wrapped 64-bit sum into s[d]. -/
  | add (d a : Fin 32) (o : SOpd)
  /-- SUB (R161): Writes the wrapped 64-bit difference into s[d]. -/
  | sub (d a : Fin 32) (o : SOpd)
  /-- MUL (R161): Writes the low 64 bits of the product into s[d]. -/
  | mul (d a : Fin 32) (o : SOpd)
  /-- MULH (R161): Writes the high 64 bits of the signed product into s[d]. -/
  | mulh (d a : Fin 32) (o : SOpd)
  /-- MULHN (R161): Writes the high 64 bits of the unsigned product into s[d]. -/
  | mulhn (d a : Fin 32) (o : SOpd)
  /-- DIV (R161): Writes the signed quotient, rounded toward zero, into s[d]; it never traps. -/
  | div (d a : Fin 32) (o : SOpd)
  /-- DIVN (R161): Writes the unsigned quotient into s[d]; it never traps. -/
  | divn (d a : Fin 32) (o : SOpd)
  /-- REM (R161): Writes the signed remainder, with the sign of s[a], into s[d]. -/
  | rem (d a : Fin 32) (o : SOpd)
  /-- REMN (R161): Writes the unsigned remainder into s[d]. -/
  | remn (d a : Fin 32) (o : SOpd)
  /-- AND (R161): Writes the bitwise AND into s[d]. -/
  | and (d a : Fin 32) (o : SOpd)
  /-- OR (R161): Writes the bitwise OR into s[d]. -/
  | or (d a : Fin 32) (o : SOpd)
  /-- XOR (R161): Writes the bitwise XOR into s[d]. -/
  | xor (d a : Fin 32) (o : SOpd)
  /-- ANDN (R161): Writes s[a] AND NOT opb into s[d]. -/
  | andn (d a : Fin 32) (o : SOpd)
  /-- SHL (R161): Shifts left by opb[5:0] and writes the result into s[d]. -/
  | shl (d a : Fin 32) (o : SOpd)
  /-- SHR (R161): Shifts right logically by opb[5:0] and writes the result into s[d]. -/
  | shr (d a : Fin 32) (o : SOpd)
  /-- SRA (R161): Shifts right arithmetically by opb[5:0] and writes the result into s[d]. -/
  | sra (d a : Fin 32) (o : SOpd)
  /-- ROT (R161): Rotates left by opb[5:0] and writes the result into s[d]. -/
  | rot (d a : Fin 32) (o : SOpd)
  /-- CLZ (R162): Writes the count of leading zeros of s[a] into s[d]. -/
  | clz (d a : Fin 32)
  /-- CTZ (R162): Writes the count of trailing zeros of s[a] into s[d]. -/
  | ctz (d a : Fin 32)
  /-- POPC (R162): Writes the count of set bits of s[a] into s[d]. -/
  | popc (d a : Fin 32)
  /-- MIN (R161): Writes the signed minimum into s[d]. -/
  | min (d a : Fin 32) (o : SOpd)
  /-- MAX (R161): Writes the signed maximum into s[d]. -/
  | max (d a : Fin 32) (o : SOpd)
  /-- MINN (R161): Writes the unsigned minimum into s[d]. -/
  | minn (d a : Fin 32) (o : SOpd)
  /-- MAXN (R161): Writes the unsigned maximum into s[d]. -/
  | maxn (d a : Fin 32) (o : SOpd)
  /-- CMP_EQ (R163): Sets a predicate when s[a] equals opb. -/
  | cmpEq (d : Fin 8) (a : Fin 32) (o : SOpd)
  /-- CMP_NE (R163): Sets a predicate when s[a] differs from opb. -/
  | cmpNe (d : Fin 8) (a : Fin 32) (o : SOpd)
  /-- CMP_LT (R163): Sets a predicate when s[a] is less than opb, compared signed. -/
  | cmpLt (d : Fin 8) (a : Fin 32) (o : SOpd)
  /-- CMP_GE (R163): Sets a predicate when s[a] is at least opb, compared signed. -/
  | cmpGe (d : Fin 8) (a : Fin 32) (o : SOpd)
  /-- CMP_LTN (R163): Sets a predicate when s[a] is less than opb, compared unsigned. -/
  | cmpLtn (d : Fin 8) (a : Fin 32) (o : SOpd)
  /-- CMP_GEN (R163): Sets a predicate when s[a] is at least opb, compared unsigned. -/
  | cmpGen (d : Fin 8) (a : Fin 32) (o : SOpd)
  /-- CMP_TST (R163): Sets a predicate when s[a] AND opb is nonzero. -/
  | cmpTst (d : Fin 8) (a : Fin 32) (o : SOpd)
  /-- SEL (R164): Writes s[a] or opb into s[d] according to a predicate. -/
  | sel (d : Fin 32) (p : Fin 8) (a : Fin 32) (o : SOpd)
  /-- LI (R165): Loads a sign-extended 17-bit immediate into s[d], unpoisoned. -/
  | li (d : Fin 32) (i : BitVec 17)
  /-- LIH (R165): Shifts s[d] left by 16 bits and inserts a 16-bit immediate. -/
  | lih (d : Fin 32) (i : BitVec 16)
  /-- BFX (R166): Extracts a bit field and zero-extends it into s[d]. -/
  | bfx (d a : Fin 32) (o : SOpd)
  /-- BFX_S (R166): Extracts a bit field and sign-extends it into s[d]. -/
  | bfxS (d a : Fin 32) (o : SOpd)
  /-- BFI (R166): Inserts the low bits of s[a] into a bit field of s[d]. -/
  | bfi (d a : Fin 32) (o : SOpd)
  /-- SEXT_B (R166): Sign-extends s[a] from 8 bits. -/
  | sextB (d a : Fin 32)
  /-- SEXT_H (R166): Sign-extends s[a] from 16 bits. -/
  | sextH (d a : Fin 32)
  /-- SEXT_W (R166): Sign-extends s[a] from 32 bits. -/
  | sextW (d a : Fin 32)
  /-- SEXT_BN (R166): Zero-extends s[a] from 8 bits. -/
  | sextBn (d a : Fin 32)
  /-- SEXT_HN (R166): Zero-extends s[a] from 16 bits. -/
  | sextHn (d a : Fin 32)
  /-- SEXT_WN (R166): Zero-extends s[a] from 32 bits. -/
  | sextWn (d a : Fin 32)
  /-- WIDF_FIELD (R167): Reads field k (0 to 5) of the work identifier into s[d]. -/
  | widfField (d : Fin 32) (f : Fin 6)
  /-- WIDF_GANG (R167): Reads the gang index into s[d]. -/
  | widfGang (d : Fin 32)
  /-- WIDF_CUT (R167): Reads the cut index into s[d]. -/
  | widfCut (d : Fin 32)
  /-- SMOV_K (R168): Copies a k register into s[d]. -/
  | smovK (d : Fin 32) (a : Fin 16)
  /-- SMOV_VA (R168): Copies a 64-bit chunk of a va register into s[d]. -/
  | smovVa (d a : Fin 32) (c : Fin 16)
  /-- SMOV_VB (R168): Copies a 64-bit chunk of a vb register into s[d]. -/
  | smovVb (d a : Fin 32) (c : Fin 16)
  /-- SMOV_PRED (R168): Copies the predicates p7 to p0 into s[d]. -/
  | smovPred (d : Fin 32)
  /-- SMOV_MA (R168): Copies a VA mask register into s[d]. -/
  | smovMa (d : Fin 32) (a : Fin 8)
  /-- SMOV_MB (R168): Copies a VB mask register into s[d]. -/
  | smovMb (d : Fin 32) (a : Fin 8)
  /-- MVST (R170): Writes a state register from s[a] on its due cycle, with the behaviour of that register. -/
  | mvst (n : BitVec 10) (a : Fin 32)
  /-- MVFS (R169): Reads a state register into s[d]. -/
  | mvfs (d : Fin 32) (n : BitVec 10)
  /-- DSET (R169): Writes a whole staging register from s[a]. -/
  | dset (d : Fin 16) (a : Fin 32)
  /-- DSET_LO (R169): Writes the low half of a staging register from s[a][31:0]. -/
  | dsetLo (d : Fin 16) (a : Fin 32)
  /-- DSET_HI (R169): Writes the high half of a staging register from s[a][31:0]. -/
  | dsetHi (d : Fin 16) (a : Fin 32)
  /-- VADD (R176): Adds integer lanes with wrap-around. -/
  | vadd (f : VFile) (d a : Fin 32) (o : VOpd) (ty : ITy) (m : Fin 8)
  /-- VSUB (R176): Subtracts integer lanes with wrap-around. -/
  | vsub (f : VFile) (d a : Fin 32) (o : VOpd) (ty : ITy) (m : Fin 8)
  /-- VMUL (R176): Multiplies integer lanes and keeps the low half. -/
  | vmul (f : VFile) (d a : Fin 32) (o : VOpd) (ty : ITy) (m : Fin 8)
  /-- VMULH (R176): Multiplies integer lanes and keeps the high half. -/
  | vmulh (f : VFile) (d a : Fin 32) (o : VOpd) (ty : ITy) (m : Fin 8)
  /-- VMIN (R176): Writes the lanewise integer minimum. -/
  | vmin (f : VFile) (d a : Fin 32) (o : VOpd) (ty : ITy) (m : Fin 8)
  /-- VMAX (R176): Writes the lanewise integer maximum. -/
  | vmax (f : VFile) (d a : Fin 32) (o : VOpd) (ty : ITy) (m : Fin 8)
  /-- VABS (R176): Writes the lanewise absolute value of signed lanes. -/
  | vabs (f : VFile) (d a : Fin 32) (ty : ITy) (m : Fin 8)
  /-- VNEG (R176): Writes the lanewise negation. -/
  | vneg (f : VFile) (d a : Fin 32) (ty : ITy) (m : Fin 8)
  /-- VAND (R176): Writes the bitwise AND of two vectors. -/
  | vand (f : VFile) (d a : Fin 32) (o : VOpd) (m : Fin 8)
  /-- VOR (R176): Writes the bitwise OR of two vectors. -/
  | vor (f : VFile) (d a : Fin 32) (o : VOpd) (m : Fin 8)
  /-- VXOR (R176): Writes the bitwise XOR of two vectors. -/
  | vxor (f : VFile) (d a : Fin 32) (o : VOpd) (m : Fin 8)
  /-- VNOT (R176): Writes the bitwise NOT of a vector. -/
  | vnot (f : VFile) (d a : Fin 32) (m : Fin 8)
  /-- VSHL (R176): Shifts lanes left. -/
  | vshl (f : VFile) (d a : Fin 32) (o : VOpd) (ty : ITy) (m : Fin 8)
  /-- VSHR (R176): Shifts lanes right logically. -/
  | vshr (f : VFile) (d a : Fin 32) (o : VOpd) (ty : ITy) (m : Fin 8)
  /-- VSRA (R176): Shifts lanes right arithmetically. -/
  | vsra (f : VFile) (d a : Fin 32) (o : VOpd) (ty : ITy) (m : Fin 8)
  /-- VADDS (R176): Adds integer lanes with saturation and raises SAT when a lane changes. -/
  | vadds (f : VFile) (d a : Fin 32) (o : VOpd) (ty : ITy) (m : Fin 8)
  /-- VSUBS (R176): Subtracts integer lanes with saturation and raises SAT when a lane changes. -/
  | vsubs (f : VFile) (d a : Fin 32) (o : VOpd) (ty : ITy) (m : Fin 8)
  /-- VDOT4 (R177): Accumulates 8-bit dot products into 32-bit lanes. -/
  | vdot4 (f : VFile) (d a b : Fin 32) (sg : Signs) (sat : Bool) (m : Fin 8)
  /-- VDOT8 (R177): Accumulates i4 dot products into 32-bit lanes. -/
  | vdot8 (f : VFile) (d a b : Fin 32) (sat : Bool) (m : Fin 8)
  /-- VCMP_EQ (R178): Writes a mask of lanes whose integers are equal. -/
  | vcmpEq (f : VFile) (d : Fin 8) (a : Fin 32) (o : VOpd) (ty : ITy)
  /-- VCMP_NE (R178): Writes a mask of lanes whose integers differ. -/
  | vcmpNe (f : VFile) (d : Fin 8) (a : Fin 32) (o : VOpd) (ty : ITy)
  /-- VCMP_LT (R178): Writes a mask of lanes where the first integer is less than the second. -/
  | vcmpLt (f : VFile) (d : Fin 8) (a : Fin 32) (o : VOpd) (ty : ITy)
  /-- VCMP_LE (R178): Writes a mask of lanes where the first integer is less than or equal to the second. -/
  | vcmpLe (f : VFile) (d : Fin 8) (a : Fin 32) (o : VOpd) (ty : ITy)
  /-- VCMP_GT (R178): Writes a mask of lanes where the first integer is greater than the second. -/
  | vcmpGt (f : VFile) (d : Fin 8) (a : Fin 32) (o : VOpd) (ty : ITy)
  /-- VCMP_GE (R178): Writes a mask of lanes where the first integer is greater than or equal to the second. -/
  | vcmpGe (f : VFile) (d : Fin 8) (a : Fin 32) (o : VOpd) (ty : ITy)
  /-- VSEL (R179): Selects 32-bit lanes from two sources by mask. -/
  | vsel (f : VFile) (d a : Fin 32) (o : VOpd) (m : Fin 8)
  /-- VFADD (R180): Adds floating-point lanes with one rounding. -/
  | vfadd (f : VFile) (d a : Fin 32) (o : VOpd) (ft : FTy) (rm : RMode) (m : Fin 4)
  /-- VFSUB (R180): Subtracts floating-point lanes with one rounding. -/
  | vfsub (f : VFile) (d a : Fin 32) (o : VOpd) (ft : FTy) (rm : RMode) (m : Fin 4)
  /-- VFMUL (R180): Multiplies floating-point lanes with one rounding. -/
  | vfmul (f : VFile) (d a : Fin 32) (o : VOpd) (ft : FTy) (rm : RMode) (m : Fin 4)
  /-- VFFMA (R180): Computes x × y + c in floating point with one rounding. -/
  | vffma (f : VFile) (d a : Fin 32) (o : VOpd) (ft : FTy) (rm : RMode) (m : Fin 4)
  /-- VFMIN (R180): Writes the lanewise floating-point minimum. -/
  | vfmin (f : VFile) (d a : Fin 32) (o : VOpd) (ft : FTy) (m : Fin 4)
  /-- VFMAX (R180): Writes the lanewise floating-point maximum. -/
  | vfmax (f : VFile) (d a : Fin 32) (o : VOpd) (ft : FTy) (m : Fin 4)
  /-- VFSGN_J (R181): Gives the result the magnitude of x and the sign of y. -/
  | vfsgnJ (f : VFile) (d a : Fin 32) (o : VOpd) (ft : FTy) (m : Fin 4)
  /-- VFSGN_JN (R181): Gives the result the magnitude of x and the inverted sign of y. -/
  | vfsgnJn (f : VFile) (d a : Fin 32) (o : VOpd) (ft : FTy) (m : Fin 4)
  /-- VFSGN_JX (R181): Gives the result the magnitude of x and the XOR of the two signs. -/
  | vfsgnJx (f : VFile) (d a : Fin 32) (o : VOpd) (ft : FTy) (m : Fin 4)
  /-- VFCMP_EQ (R178): Writes a mask of lanes whose floating-point values are equal. -/
  | vfcmpEq (f : VFile) (d : Fin 8) (a : Fin 32) (o : VOpd) (ft : FTy)
  /-- VFCMP_NE (R178): Writes a mask of lanes whose floating-point values are not equal. -/
  | vfcmpNe (f : VFile) (d : Fin 8) (a : Fin 32) (o : VOpd) (ft : FTy)
  /-- VFCMP_LT (R178): Writes a mask of lanes where the first floating-point value is less than the second. -/
  | vfcmpLt (f : VFile) (d : Fin 8) (a : Fin 32) (o : VOpd) (ft : FTy)
  /-- VFCMP_LE (R178): Writes a mask of lanes where the first floating-point value is less than or equal to the second. -/
  | vfcmpLe (f : VFile) (d : Fin 8) (a : Fin 32) (o : VOpd) (ft : FTy)
  /-- VFCMP_UN (R178): Writes a mask of lanes in which either value is NaN. -/
  | vfcmpUn (f : VFile) (d : Fin 8) (a : Fin 32) (o : VOpd) (ft : FTy)
  /-- VFCMP_ORD (R178): Writes a mask of lanes in which neither value is NaN. -/
  | vfcmpOrd (f : VFile) (d : Fin 8) (a : Fin 32) (o : VOpd) (ft : FTy)
  /-- VFCLASS (R182): Writes a one-hot class word for each floating-point lane. -/
  | vfclass (f : VFile) (d a : Fin 32) (ft : FTy) (m : Fin 4)
  /-- VEXP2 (R183): Computes the faithful 2^x of each fp32 lane. -/
  | vexp2 (f : VFile) (d a : Fin 32) (m : Fin 4)
  /-- VLOG2 (R183): Computes the faithful log2 of each fp32 lane. -/
  | vlog2 (f : VFile) (d a : Fin 32) (m : Fin 4)
  /-- VRCP (R183): Computes the faithful reciprocal of each fp32 lane. -/
  | vrcp (f : VFile) (d a : Fin 32) (m : Fin 4)
  /-- VRSQRT (R183): Computes the faithful reciprocal square root of each fp32 lane. -/
  | vrsqrt (f : VFile) (d a : Fin 32) (m : Fin 4)
  /-- VCVT (R184): Converts lanes from one format to another, taking part P of the wider side. -/
  | vcvt (f : VFile) (d a : Fin 32) (dt st : CFmt) (rm : RMode) (sat : Bool) (part : Option (BitVec 2))
  /-- VPACK (R185): Narrows the lanes of two registers into one register. -/
  | vpack (f : VFile) (d a b : Fin 32) (kind : Fin 7) (sat : Bool)
  /-- VUNPACK (R185): Widens one half of a register. -/
  | vunpack (f : VFile) (d a : Fin 32) (kind : Fin 6) (hi : Bool)
  /-- VQUANT (R186): Encodes 32 fp32 lanes as one MX block and writes its elements. -/
  | vquant (f : VFile) (d a : Fin 32) (e : BElem) (n : Fin 32)
  /-- VQUANT_SCALE (R186): Encodes 32 fp32 lanes as one MX block and writes its scale byte. -/
  | vquantScale (f : VFile) (d a : Fin 32) (e : BElem) (n : Fin 32)
  /-- VSCALE (R187): Multiplies fp32 lanes by e8m0 scales. -/
  | vscale (f : VFile) (d a : Fin 32) (o : VScale) (rm : RMode) (m : Fin 4)
  /-- VFXD (R188): Writes digit j of the fixed-point form of each fp32 lane. -/
  | vfxd (f : VFile) (d a : Fin 32) (j : Fin 9) (m : Fin 8)
  /-- VREDSUM (R189): Writes the exact 64-bit sum of the enabled integer lanes. -/
  | vredsum (f : VFile) (d a : Fin 32) (ty : ITy) (m : Fin 8)
  /-- VREDMAX (R189): Writes the largest enabled integer lane. -/
  | vredmax (f : VFile) (d a : Fin 32) (ty : ITy) (m : Fin 8)
  /-- VREDMIN (R189): Writes the smallest enabled integer lane. -/
  | vredmin (f : VFile) (d a : Fin 32) (ty : ITy) (m : Fin 8)
  /-- VFREDSUM (R190): Sums the enabled floating-point lanes by the fixed tree into fp32. -/
  | vfredsum (f : VFile) (d a : Fin 32) (ft : FTy) (rm : RMode) (m : Fin 4)
  /-- VFREDMAX (R189): Writes the fp32 maximum of the enabled lanes. -/
  | vfredmax (f : VFile) (d a : Fin 32) (ft : FTy) (m : Fin 4)
  /-- VPERM (R191): Permutes lanes by an index register. -/
  | vperm (f : VFile) (d a b : Fin 32) (w : Width) (m : Fin 8)
  /-- VBCAST (R191): Broadcasts one lane to every lane. -/
  | vbcast (f : VFile) (d a : Fin 32) (k : VIndex) (w : Width) (m : Fin 8)
  /-- VSLIDE (R191): Slides the concatenation of two registers down by n lanes. -/
  | vslide (f : VFile) (d a b : Fin 32) (n : BitVec 8) (w : Width) (m : Fin 8)
  /-- VZIP (R191): Interleaves half of the lanes of two registers. -/
  | vzip (f : VFile) (d a b : Fin 32) (hi : Bool) (w : Width)
  /-- VUNZIP (R191): Takes the even or odd lanes of two concatenated registers. -/
  | vunzip (f : VFile) (d a b : Fin 32) (hi : Bool) (w : Width)
  /-- VMOV (R193): Copies a register of the same vector file. -/
  | vmov (f : VFile) (d a : Fin 32)
  /-- VMOV_CROSS (R193): Copies a register from the other vector file. -/
  | vmovCross (f : VFile) (d a : Fin 32)
  /-- VMOV_SPLAT (R193): Broadcasts the low bits of an s register into every lane of a chosen width. -/
  | vmovSplat (f : VFile) (d a : Fin 32) (w : Fin 4)
  /-- VMOV_CHUNK (R193): Writes an s register into one 64-bit chunk of a vector register. -/
  | vmovChunk (f : VFile) (d a : Fin 32) (c : Fin 16)
  /-- VLI_W (R194): Sets every 32-bit lane to the sign-extended imm16. -/
  | vliW (f : VFile) (d : Fin 32) (i : BitVec 16)
  /-- VLI_F (R194): Sets every 32-bit lane to the fp32 value of a bf16 pattern. -/
  | vliF (f : VFile) (d : Fin 32) (i : BitVec 16)
  /-- VLI_H (R194): Sets every 16-bit lane to imm16. -/
  | vliH (f : VFile) (d : Fin 32) (i : BitVec 16)
  /-- VLI_B (R194): Sets every 8-bit lane to imm16[7:0]. -/
  | vliB (f : VFile) (d : Fin 32) (i : BitVec 8)
  /-- VIDX (R192): Writes base + j into each lane j. -/
  | vidx (f : VFile) (d : Fin 32) (base : Option (BitVec 16)) (w : Width) (m : Fin 8)
  /-- VCRC (R196): Advances a CRC-32C over n bytes of a register. -/
  | vcrc (f : VFile) (d a b : Fin 32) (n : Fin 64)
  /-- MLOG_AND (R195): Writes the AND of two masks. -/
  | mlogAnd (f : VFile) (d a : Fin 8) (o : MOpd)
  /-- MLOG_OR (R195): Writes the OR of two masks. -/
  | mlogOr (f : VFile) (d a : Fin 8) (o : MOpd)
  /-- MLOG_XOR (R195): Writes the XOR of two masks. -/
  | mlogXor (f : VFile) (d a : Fin 8) (o : MOpd)
  /-- MLOG_ANDN (R195): Writes a AND NOT b of two masks. -/
  | mlogAndn (f : VFile) (d a : Fin 8) (o : MOpd)
  /-- MLOG_ORN (R195): Writes a OR NOT b of two masks. -/
  | mlogOrn (f : VFile) (d a : Fin 8) (o : MOpd)
  /-- MPOP (R195): Writes the number of set bits of a mask into lane 0. -/
  | mpop (f : VFile) (d : Fin 32) (a : Fin 8)
  /-- MPOP_FIRST (R195): Writes the index of the lowest set bit of a mask into lane 0. -/
  | mpopFirst (f : VFile) (d : Fin 32) (a : Fin 8)
  /-- MLD (R202): Loads a tile register line by line from a TSP bank, converting by the bank format. -/
  | mld (t : Fin 8) (bank : Fin 16) (off : BitVec 16) (raw : Option (BitVec 4))
  /-- MLDT (R203): Loads the transpose of a row-major matrix into a tile register. -/
  | mldt (t : Fin 8) (bank : Fin 16) (off : BitVec 16) (raw : Option (BitVec 4))
  /-- MLDS (R204): Loads the 256-byte scale side of a tile register. -/
  | mlds (t : Fin 8) (bank : Fin 16) (off : BitVec 16)
  /-- MST (R205): Stores a tile register into a TSP bank. -/
  | mst (t : Fin 8) (bank : Fin 16) (off : BitVec 16) (raw : Bool)
  /-- MZERO (R206): Clears the named tile registers and accumulators. -/
  | mzero (ts : BitVec 8) (zs : BitVec 4)
  /-- MMA (R208): Starts a matrix multiply-accumulate into an accumulator, due 144 cycles later. -/
  | mma (z : Fin 4) (a b : Fin 8)
  /-- MMO (R209): Starts a bf16 outlier matrix multiply-accumulate into an fp32 accumulator. -/
  | mmo (z : Fin 4) (a b : Fin 8)
  /-- MMA_RESULT_DUE (R208): On the due cycle, every accumulator element is updated by the single-rounding MMA arithmetic and the flags are ORed into zs. -/
  | mmaResultDue (n : Fin 128)
  /-- ZOUT (R214): Reads out an accumulator through the readout steps into a TSP bank. -/
  | zout (z : Fin 4) (zo : Option (Fin 4)) (tt : Option (Fin 8)) (bank : Fin 16) (off : BitVec 16) (st : Steps) (rm : RMode) (sat : Bool)
  /-- ZOUTV (R215): Reads out an accumulator into a tile register. -/
  | zoutv (z : Fin 4) (zo : Option (Fin 4)) (tt : Option (Fin 8)) (td : Fin 8) (hi : Bool) (st : Steps) (rm : RMode) (sat : Bool) (fmt : VFmt)
  /-- ZLD (R216): Restores the raw image of an accumulator from the TSP. -/
  | zld (z : Fin 4) (bank : Fin 16) (off : BitVec 16) (ty : Fin 3)
  /-- ZST (R216): Saves the raw image of an accumulator to the TSP. -/
  | zst (z : Fin 4) (bank : Fin 16) (off : BitVec 16)
  /-- ZSTAT (R217): Writes ZS0 to ZS3 to the TSP. -/
  | zstat (bank : Fin 16) (off : BitVec 16)
  /-- ZCLR (R218): Clears the zs flags of the named accumulators and optionally sets their type. -/
  | zclr (zs : BitVec 4) (ty : BitVec 2)
  /-- LDL (R225): Loads from the TSP or the own-vault program area at fixed cycles. -/
  | ldl (d a : Fin 32) (off : Option (BitVec 16)) (dk : DKind)
  /-- STL (R225): Stores to the TSP or the own-vault program area at fixed cycles. -/
  | stl (d a : Fin 32) (off : Option (BitVec 16)) (dk : DKind)
  /-- LDG (R226): Sends a global load whose data land in a landing slot. -/
  | ldg (d a : Fin 32) (ls : Fin 64) (l : Landing) (dk : DKind2) (q : LdQual)
  /-- STG (R227): Sends a global store through an outbound write entry. -/
  | stg (d a : Fin 32) (off : Option (BitVec 16)) (dk : DKind) (q : StQual)
  /-- LDV (R228): Loads from a tile-local space, either timed or laterally through a landing slot. -/
  | ldv (d a : Fin 32) (ls : Fin 64) (l : Landing) (dk : DKind2) (q : VOrd)
  /-- STV (R228): Stores to a tile-local space, either timed or laterally through an outbound entry. -/
  | stv (d a : Fin 32) (off : Option (BitVec 16)) (dk : DKind) (q : VOrd)
  /-- AMO_ADD (R231): Atomically adds to a 64-bit word and returns the old value. -/
  | amoAdd (d a : Fin 32) (ls : Fin 64) (l : Landing) (q : Option Scope)
  /-- AMO_AND (R231): Atomically ANDs into a 64-bit word and returns the old value. -/
  | amoAnd (d a : Fin 32) (ls : Fin 64) (l : Landing) (q : Option Scope)
  /-- AMO_OR (R231): Atomically ORs into a 64-bit word and returns the old value. -/
  | amoOr (d a : Fin 32) (ls : Fin 64) (l : Landing) (q : Option Scope)
  /-- AMO_XOR (R231): Atomically XORs into a 64-bit word and returns the old value. -/
  | amoXor (d a : Fin 32) (ls : Fin 64) (l : Landing) (q : Option Scope)
  /-- AMO_MAX (R231): Atomically stores the signed maximum and returns the old value. -/
  | amoMax (d a : Fin 32) (ls : Fin 64) (l : Landing) (q : Option Scope)
  /-- AMO_MIN (R231): Atomically stores the signed minimum and returns the old value. -/
  | amoMin (d a : Fin 32) (ls : Fin 64) (l : Landing) (q : Option Scope)
  /-- AMO_MAXN (R231): Atomically stores the unsigned maximum and returns the old value. -/
  | amoMaxn (d a : Fin 32) (ls : Fin 64) (l : Landing) (q : Option Scope)
  /-- AMO_SWAP (R231): Atomically swaps a 64-bit word and returns the old value. -/
  | amoSwap (d a : Fin 32) (ls : Fin 64) (l : Landing) (q : Option Scope)
  /-- CAS (R232): Compares and swaps a 64-bit word using a register pair. -/
  | cas (d a : Fin 32) (ls : Fin 64) (l : Landing) (q : CasQual)
  /-- FENCE_ACQ (R233): Holds later operations until earlier loads and atomics have returned their values. -/
  | fenceAcq (s : Fin 5)
  /-- FENCE_REL (R233): Holds later operations until earlier accesses have been performed at the scope. -/
  | fenceRel (s : Fin 5)
  /-- FENCE_AR (R233): A full fence: acts as both fence.acq and fence.rel. -/
  | fenceAr (s : Fin 5)
  /-- STI (R237): Writes 8 or 128 bytes into the idle ISP half and clears the fenced flag. -/
  | sti (d a : Fin 32) (off : Option (BitVec 16)) (dk : DKind)
  /-- LGET (R235): Takes late data from a READY or FAILED landing slot and reports the result in a predicate. -/
  | lget (ls : Fin 64) (p : Fin 8)
  /-- LWAIT (R236): Takes late data, turning a LATE slot into an FRZ wait due on the next cycle. -/
  | lwait (ls : Fin 64)
  /-- ZLINE (R238): Writes a 128-byte zero line to global memory. -/
  | zline (a : Fin 32) (off : Option (BitVec 16))
  /-- PREF (R239): Asks the SLC slice to allocate a line. -/
  | pref (a : Fin 32) (off : Option (BitVec 16)) (ef : Bool)
  /-- LAUNCH (R240): Acts as a release at .dev and submits a launch record to a spool of the vdev. -/
  | launch (a : Fin 32) (o : SOpd)
  /-- EVPOST (R241): Acts as a release and posts an event to the vdev's event queue. -/
  | evpost (a : Fin 32) (code : Option (BitVec 16))
  /-- SND (R243): Sends one timed beat from a register or the TSP to a panel rank. -/
  | snd (src : XSrc) (dst : Fin 128)
  /-- RCV (R244): Claims the beat that arrives on its issue cycle and writes it to a register or the TSP. -/
  | rcv (dst : XSrc) (src : Fin 128)
  /-- BCST (R245): Broadcasts one beat along the sender's row or column. -/
  | bcst (src : XSrc) (col : Bool)
  /-- SNDR (R247): Sends 128 bytes that the target adds into its TSP, followed by a semaphore signal. -/
  | sndr (src : RSrc) (ta : Fin 32) (dst : Fin 128) (rty : Fin 4) (isMax : Bool) (sem : Fin 16)
  /-- SEMW (R249): Takes N from a semaphore if its count is at least N, as an acquire, and sets a predicate. -/
  | semw (p : Fin 8) (sem : Fin 16) (n : BitVec 8)
  /-- SEMP (R249): Reads a semaphore count into s[d]. -/
  | semp (d : Fin 32) (sem : Fin 16)
  /-- SEMI (R249): Sets a semaphore count from s[a]. -/
  | semi (sem : Fin 16) (a : Fin 32)
  /-- SEMV (R249): Acts as a release and adds N to a semaphore at a panel rank as background traffic. -/
  | semv (sem : Fin 16) (dst : Fin 128) (n : BitVec 8)
  /-- XFAR (R252): Sends a far message through a seam port to a tile named by a far address. -/
  | xfar (k : Fin 3) (r fa : Fin 32) (sem : Fin 16)
  /-- XRCVF (R253): Sets up the receipt of a far message through a landing slot, waiting on a semaphore. -/
  | xrcvf (d a : Fin 32) (ls : Fin 64) (l : Landing) (dk : DKind2) (sem : Fin 16)
  /-- CE_GO (R262): Starts a copy with format conversion and produces a token. -/
  | ceGo (tp : Fin 32) (rs : RecSrc)
  /-- CE_GOR (R263): Starts a per-row quantising copy that also writes row scales. -/
  | ceGor (tp : Fin 32) (rs : RecSrc)
  /-- CE_GAT (R264): Starts a gather of rows through an index array. -/
  | ceGat (tp : Fin 32) (rs : RecSrc)
  /-- CE_SCA (R264): Starts a scatter of rows through an index array. -/
  | ceSca (tp : Fin 32) (rs : RecSrc)
  /-- CE_FILL (R265): Starts a fill of the destination with a value. -/
  | ceFill (tp : Fin 32) (rs : RecSrc)
  /-- CE_RED (R266): Starts a reduce-copy that combines the source into the destination. -/
  | ceRed (tp : Fin 32) (rs : RecSrc)
  /-- CE_ISP (R267): Starts a load into the idle ISP half, with optional pattern expansion. -/
  | ceIsp (tp : Fin 32) (rs : RecSrc)
  /-- CE_REP (R272): Re-runs the missing chunks of a PARTIAL token as a new transfer. -/
  | ceRep (tp ts : Fin 32)
  /-- CE_CAN (R273): Cancels a pending or partial transfer. -/
  | ceCan (k : Fin 32)
  /-- CE_STAT_ST (R274): Reads a token's state, status and replay count into s[d]. -/
  | ceStatSt (d k : Fin 32)
  /-- CE_STAT_BYTES (R274): Reads a token's byte count into s[d]. -/
  | ceStatBytes (d k : Fin 32)
  /-- CE_STAT_EV (R274): Reads a token's NANBLK and SATCNT counts into s[d]. -/
  | ceStatEv (d k : Fin 32)
  /-- CE_STAT_CRC (R274): Reads the ISP-load CRC of a token into s[d]. -/
  | ceStatCrc (d k : Fin 32)
  /-- CE_STAT_TAG (R274): Reads the record TAG of a token into s[d]. -/
  | ceStatTag (d k : Fin 32)
  /-- TRANSFER_START (R257): Once every consumed token is satisfied, a transfer samples its bank formats, checks its record and ranges, and begins moving data. -/
  | transferStart (n : Fin 128) (k : Fin 32)
  /-- CHUNK_COMPLETE (R270): A chunk of a transfer ends as performed, faulted, failed or aborted, with its effect on bytes, replay entries and status. -/
  | chunkComplete (n : Fin 128) (k : Fin 32)
  /-- DUE_RESULT_WRITE (R15): A fixed-latency result is written into its register on its due cycle; collisions are settled by issue order and slot order. -/
  | dueResultWrite (n : Fin 128)
  /-- TIMED_ACCESS_PERFORM (R224): A timed TSP, vault or ISP access performs on its fixed cycle. -/
  | timedAccessPerform (n : Fin 128)
  /-- LANDING_DUE (R38): On its due cycle, a landing slot writes its data, writes poison, becomes LATE, or freezes the panel. -/
  | landingDue (n : Fin 128) (ls : Fin 64)
  /-- LANDING_ARRIVAL (R38): Data or a failure arrives for a landing slot and moves it to HELD, READY or FAILED, which may end a freeze. -/
  | landingArrival (n : Fin 128) (ls : Fin 64)
  /-- BEAT_ARRIVAL (R246): A timed beat arrives at its target; if no rcv claims it, the illegal-operand trap is raised. -/
  | beatArrival (h : Nat)
  /-- BARRIER_ARRIVAL (R45): A tile reaches a sync bundle, checks its mask and is held. -/
  | barrierArrival (n : Fin 128) (g : Fin 8)
  /-- BARRIER_RELEASE (R45): Four cycles after the last arrival, every tile named in the mask issues its sync bundle. -/
  | barrierRelease (h : Nat) (g : Fin 8)
  /-- TIMING_FAULT (R43): A stall budget, hold limit or stitch interval is exceeded, and the timing fault is raised in the chosen tile. -/
  | timingFault (h : Nat) (sub : BitVec 4)
  /-- GLOBAL_ACCESS_PERFORM (R116): A global access is performed at its line's SLC slice under its allocation hint. -/
  | globalAccessPerform (n : Fin 128) (i : Nat)
  /-- LATERAL_ACCESS_PERFORM (R228): A lateral access is performed at the target vault on its background port. -/
  | lateralAccessPerform (n : Fin 128) (i : Nat)
  /-- OUTBOUND_ACCEPT (R234): A target accepts an outbound operation and its outbound write entry is freed. -/
  | outboundAccept (n : Fin 128) (i : Nat)
  /-- SNDR_ADDITION (R248): At the target, the incoming data are combined into the TSP and then the semaphore is incremented. -/
  | sndrAddition (n : Fin 128) (i : Nat)
  /-- SEMV_INCREMENT (R249): A semv increment is performed at the target semaphore. -/
  | semvIncrement (n : Fin 128) (i : Nat)
  /-- XFAR_DELIVERY (R252): A far message is written at the target tile and its semaphore is incremented, or the message is dropped and counted. -/
  | xfarDelivery (i : Nat)
  /-- XRCVF_TAKE (R253): Once the semaphore count is at least 1, an xrcvf takes 1 from it and reads the bytes into its landing slot. -/
  | xrcvfTake (n : Fin 128) (i : Nat)
  /-- CUT_START (R55): The tiles of a placed panel are initialised from the image and issue their first bundle together. -/
  | cutStart (h : Nat)
  /-- CUT_COMPLETE (R56): When all its tiles have halted and nothing is outstanding, a cut completes with an ORed status. -/
  | cutComplete (h : Nat)
  /-- SERVICE_CORE_EVENT_ENTRY (R321): A service core enters its handler on its own trap or on a pending event cause while IE is set. -/
  | serviceCoreEventEntry (q : Fin 32)
  /-- TSR (R330): Reads one 8-byte word of frozen tile state. -/
  | tsr (d a : Fin 32)
  /-- TSR_P (R330): Reads the poison bit of a tile-state word. -/
  | tsrP (d a : Fin 32)
  /-- TSW (R330): Writes one 8-byte word of frozen tile state. -/
  | tsw (a b : Fin 32)
  /-- TSW_P (R330): Writes only the poison bit of a tile-state word. -/
  | tswP (a b : Fin 32)
  /-- TRES_RUN (R333): Resumes a panel from a trap freeze or debug halt and clears ELOCK. -/
  | tresRun (a : Fin 32)
  /-- TRES_STEP (R335): Runs a frozen panel for exactly one PSC cycle. -/
  | tresStep (a : Fin 32)
  /-- TRES_HALT (R334): Freezes a running panel as a debug halt. -/
  | tresHalt (a : Fin 32)
  /-- TRES_LOCK (R334): Freezes a running panel as a debug halt and sets the engine lock. -/
  | tresLock (a : Fin 32)
  /-- TABT (R336): Aborts a frozen panel, which then completes failed. -/
  | tabt (a : Fin 32)
  /-- TABT_REPLAY (R336): Aborts a frozen panel for replay under the replay rules. -/
  | tabtReplay (a : Fin 32)
  /-- TSNAP_DESC (R328): Reads the descriptor of a snapshot entry. -/
  | tsnapDesc (d a b : Fin 32)
  /-- TSNAP_ADDR (R330): Reads the address word of a snapshot entry. -/
  | tsnapAddr (d a b : Fin 32)
  /-- TSNAP_VAL (R330): Reads a value word of a snapshot entry. -/
  | tsnapVal (d a b : Fin 32)
  /-- TSNAP_DROP (R330): Empties a snapshot entry. -/
  | tsnapDrop (a b : Fin 32)
  /-- SELW (R352): Writes SVPANEL or SVRATE of a tile of the bolt. -/
  | selw (a b : Fin 32)
  /-- TLBI_PAGE (R391): Starts an invalidation of a page range, optionally closing faults. -/
  | tlbiPage (a : Fin 32)
  /-- TLBI_PASID (R391): Starts an invalidation of a whole address space. -/
  | tlbiPasid (a : Fin 32)
  /-- TLBI_BOLT (R391): Starts an invalidation of every address space of the bolt. -/
  | tlbiBolt (a : Fin 32)
  /-- TLBS (R392): Waits until this core's invalidations have completed and returns their count. -/
  | tlbs (d : Fin 32)
  /-- CTXS (R346): Writes the full context image of a frozen tile to a DVA. -/
  | ctxs (d a b : Fin 32)
  /-- CTXL (R346): Loads a full context image into a tile of a frozen panel. -/
  | ctxl (d a b : Fin 32)
  /-- TRPRET (R330): Sets IE and returns to SEPC. -/
  | trpret
  /-- FQPOP_TRAP (R330): Moves the oldest panel-trap record to local memory. -/
  | fqpopTrap (d a : Fin 32)
  /-- FQPOP_FAULT (R390): Moves the oldest current fault record to local memory, discarding stale records. -/
  | fqpopFault (d a : Fin 32)
  /-- FQPOP_PLC (R330): Moves the oldest placer event record to local memory. -/
  | fqpopPlc (d a : Fin 32)
  /-- PLC_VCREATE (R353): Creates a vdev from a descriptor and advances its generation. -/
  | plcVcreate (c : Caller) (arg : BitVec 64)
  /-- PLC_VDESTROY (R365): Destroys a vdev with no placed cut and completes its accepted launches with RESET. -/
  | plcVdestroy (c : Caller) (arg : BitVec 64)
  /-- PLC_SPOOLSET (R356): Configures a spool and resets its HEAD and TAIL. -/
  | plcSpoolset (c : Caller) (arg : BitVec 64)
  /-- PLC_RADMIT (R366): Runs the admission test for a reservation and admits or refuses it. -/
  | plcRadmit (c : Caller) (arg : BitVec 64)
  /-- PLC_RREMOVE (R365): Removes a reservation and makes its spool best-effort. -/
  | plcRremove (c : Caller) (arg : BitVec 64)
  /-- PLC_EVICT (R365): Orders eviction of a panel's gang at its next stitch point. -/
  | plcEvict (c : Caller) (arg : BitVec 64)
  /-- PLC_AGE (R365): Sets the bolt's age limit AGEMAX. -/
  | plcAge (c : Caller) (arg : BitVec 64)
  /-- MC_READ (R442): Returns the value of an MC register. -/
  | mcRead (c : Caller) (arg : BitVec 64)
  /-- MC_WRITE (R442): Writes an RW MC register. -/
  | mcWrite (c : Caller) (arg : BitVec 64)
  /-- MC_CLEAR (R442): Zeroes a bolt's error counters. -/
  | mcClear (c : Caller) (arg : BitVec 64)
  /-- MC_FENCE (R442): Fences a tile as a vote would. -/
  | mcFence (c : Caller) (arg : BitVec 64)
  /-- MC_LOGREAD (R442): Returns an event-log record into the buffer. -/
  | mcLogread (c : Caller) (arg : BitVec 64)
  /-- MC_LOG (R442): Appends a firmware record to the event log. -/
  | mcLog (c : Caller) (arg : BitVec 64)
  /-- MC_BOLTSET (R349): Writes a bolt descriptor, or refuses the write. -/
  | mcBoltset (c : Caller) (arg : BitVec 64)
  /-- MC_COLLAPSE (R432): Collapses a vdev, evicting its placed cuts at their stitch points. -/
  | mcCollapse (c : Caller) (arg : BitVec 64)
  /-- MC_APPEAL (R429): Starts the appeal of a fenced, unretired tile. -/
  | mcAppeal (c : Caller) (arg : BitVec 64)
  /-- MC_UPDSTAGE (R442): Appends data to the update staging area. -/
  | mcUpdstage (c : Caller) (arg : BitVec 64)
  /-- MC_UPDCOMMIT (R443): Verifies a staged update image and writes it to the inactive slot. -/
  | mcUpdcommit (c : Caller) (arg : BitVec 64)
  /-- PLACER_TICK (R368): Once every 1,024 cycles, the placer returns tiles, processes releases, starts preloaded gangs and places gangs. -/
  | placerTick (b : Fin 32)
  /-- LAUNCH_RELEASE (R362): The oldest accepted launch of a spool is released once its tokens, not-before time and period allow. -/
  | launchRelease (v : Nat) (sp : Fin 16)
  /-- GANG_PLACE (R369): A gang receives panels by first fit, all or nothing, including reserved jobs and backfill. -/
  | gangPlace (b : Fin 32)
  /-- CLEARANCE (R373): A blocked head gang reaches AGEMAX and the best-effort gangs in its shadow are ordered evicted. -/
  | clearance (b : Fin 32)
  /-- BACKFILL_WCRT_EXPIRY (R372): A gang placed by WCRT backfill that is still running at placement plus WCRT is ordered evicted. -/
  | backfillWcrtExpiry (v l : Nat)
  /-- BUDGET_OVERRUN (R367): A reserved job's budget count reaches C; the job is ordered evicted, OVERRUN is set and an event is posted. -/
  | budgetOverrun (r : Nat)
  /-- DEADLINE_MISS (R367): A reserved job is still running at its deadline; DEADMISS is set and an event is posted. -/
  | deadlineMiss (r : Nat)
  /-- PRELOAD_START (R375): When the running gang completes, the preloaded gang starts on its panels. -/
  | preloadStart (h : Nat)
  /-- EVICTION_AT_STITCH (R338): A panel with an eviction pending reaches a panel-wide stitch point, freezes and begins to quiesce. -/
  | evictionAtStitch (h : Nat)
  /-- QUIESCE_END (R338): Quiescence ends when nothing is outstanding, or after PSTALL cycles with requests withdrawn, and the save begins. -/
  | quiesceEnd (h : Nat)
  /-- CONTEXT_SAVE_COMPLETE (R338): Once the context image is in the save window, the tiles are scrubbed and released. -/
  | contextSaveComplete (h : Nat)
  /-- WINDOW_DRAIN_COMPLETE (R338): The save window has drained to the context area in LPDDR 6. -/
  | windowDrainComplete (n : Fin 128)
  /-- CONTEXT_RESTORE (R344): An evicted cut's images are checked and restored onto a region of its shape, and the cut resumes. -/
  | contextRestore (h : Nat)
  /-- PERIODIC_STITCH_SAVE (R374): A periodic save writes the image at a stitch point and resumes the cut in place. -/
  | periodicStitchSave (h : Nat)
  /-- SPTAIL_WRITE (R357): A host writes a spool tail; the write announces records, or is refused. -/
  | sptailWrite (req : PageReq) (v : Nat) (sp : Fin 16) (x : BitVec 32)
  /-- LAUNCH_SUBMISSION (R357): The placer copies a submitted launch record into the spool ring and advances TAIL, or refuses it. -/
  | launchSubmission (n : Fin 128) (i : Nat)
  /-- RECORD_ACCEPT (R361): The placer accepts a ring record, checks it, samples its wait tokens and sets its completion token PENDING. -/
  | recordAccept (v : Nat) (sp : Fin 16)
  /-- EVPOST_DELIVER (R364): After its release, an event record is written to the event queue, optionally with MSI-X. -/
  | evpostDeliver (n : Fin 128) (i : Nat)
  /-- COMPLETION_RECORD_WRITE (R405): The placer writes a completion record once the slot is free, then sends MSI-X. -/
  | completionRecordWrite (v : Nat)
  /-- WAKE_WRITE (R433): A write to WAKE or to a spool tail wakes a collapsed vdev. -/
  | wakeWrite (req : PageReq) (v : Nat) (x : BitVec 32)
  /-- VSTAT_WRITE (R355): A write of 1 to a VSTAT status bit clears that bit. -/
  | vstatWrite (req : PageReq) (v : Nat) (x : BitVec 32)
  /-- LTFREE_WRITE (R355): Returns a resolved launch token to FREE. -/
  | ltfreeWrite (req : PageReq) (v : Nat) (x : BitVec 32)
  /-- REGISTER_WRITE (R6): A write to a register that has no behaviour of its own stores the RW fields and ignores the reserved ones. -/
  | registerWrite (req : PageReq) (r : HostReg) (x : BitVec 64)
  /-- FBIND_WRITE (R400): Binds a vdev to a function, or leaves the binding unchanged. -/
  | fbindWrite (port : Fin 2) (f : Fin 249) (x : BitVec 32)
  /-- WINDOW_DESCRIPTOR_WRITE (R401): Writes a BAR2 window descriptor, whose VALID bit is cleared if the window is invalid. -/
  | windowDescriptorWrite (port : Fin 2) (w : Fin 996) (lo hi : BitVec 64)
  /-- LEASEX_WRITE (R407): The active port writes the lease expiry. -/
  | leasexWrite (port : Fin 2) (x : BitVec 64)
  /-- LEASECTL_WRITE (R407): The standby port arms a takeover, or software clears TAKEN. -/
  | leasectlWrite (port : Fin 2) (x : BitVec 32)
  /-- LEASE_TAKEOVER (R408): When DCC reaches LEASEX with ARM set, the active port switches and vdevs are rebound. -/
  | leaseTakeover
  /-- HOST_WINDOW_READ (R402): A host read of BAR2 is decoded through a window to bolt memory. -/
  | hostWindowRead (port : Fin 2) (f : Fin 249) (x n : Nat) (tbit : Option Nat)
  /-- HOST_WINDOW_WRITE (R402): A host write to BAR2 is decoded through a window, or is dropped and counted. -/
  | hostWindowWrite (port : Fin 2) (f : Fin 249) (x : Nat) (data : List (BitVec 8)) (tbit : Option Nat)
  /-- CXL_MEM_ACCESS (R402): A CXL.mem access through PF0's HDM decoders reaches a device physical address through its slice. -/
  | cxlMemAccess (port : Fin 2) (hpa n : Nat) (data : Option (List (BitVec 8)))
  /-- FUNCTION_LEVEL_RESET (R345): A reset of a function aborts or discards its vdev's work at every stage and completes its launches with RESET. -/
  | functionLevelReset (port : Fin 2) (f : Fin 249)
  /-- FAULT_RETRY (R386): At each placer tick, an access waiting for a fault place translates again and may open its fault. -/
  | faultRetry (b : Fin 32)
  /-- FAULT_TIMEOUT (R386): A fault open for 100 ms, or a wait for 100 ms, ends as a failure close. -/
  | faultTimeout (b : Fin 32) (id : Nat)
  /-- INVALIDATION_COMPLETE (R392): An invalidation completes, which closes the faults it names and the MIGRATE faults of its range. -/
  | invalidationComplete (q : Fin 32) (i : Nat)
  /-- ATS_TRANSLATION_COMPLETION (R393): A Translation Completion installs an ATC entry or opens a HOSTPRQ fault or HOSTFAIL. -/
  | atsTranslationCompletion (port : Fin 2) (i : Nat) (ans : AtsAnswer)
  /-- PAGE_REQUEST_SEND (R395): A HOSTPRQ fault sends a Page Request once the host's allocation allows. -/
  | pageRequestSend (port : Fin 2) (prgi : Nat)
  /-- PRG_RESPONSE (R395): A PRG Response closes its fault, or is dropped as stale. -/
  | prgResponse (port : Fin 2) (prgi : Nat) (code : PrgCode)
  /-- ATS_INVALIDATION_REQUEST (R394): A host ATS Invalidation Request removes the matching ATC entries. -/
  | atsInvalidationRequest (port : Fin 2) (pasid upage n : Nat)
  /-- ATS_INVALIDATION_COMPLETE (R394): Once the accesses through removed entries are performed, the port sends the Invalidation Completion. -/
  | atsInvalidationComplete (port : Fin 2) (i : Nat)
  /-- SPDM_NEGOTIATE_ALGORITHMS (R409): The MC negotiates the SPDM algorithm set, or answers InvalidRequest. -/
  | spdmNegotiateAlgorithms (port : Fin 2) (offers : SpdmOffer)
  /-- SPDM_CHALLENGE (R410): The MC answers CHALLENGE_AUTH with an XMSS signature that uses one leaf. -/
  | spdmChallenge (port : Fin 2)
  /-- SPDM_GET_MEASUREMENTS (R410): The MC returns signed measurement blocks. -/
  | spdmGetMeasurements (req : MeasReq)
  /-- SPDM_KEY_EXCHANGE (R410): The MC establishes a secure session with a signed KEY_EXCHANGE_RSP. -/
  | spdmKeyExchange (port : Fin 2)
  /-- SPDM_HEARTBEAT (R411): A secured heartbeat keeps a session alive. -/
  | spdmHeartbeat (port : Fin 2) (id : Nat)
  /-- SPDM_KEY_UPDATE (R411): Updates a session's keys. -/
  | spdmKeyUpdate (port : Fin 2) (id : Nat)
  /-- SPDM_END_SESSION (R411): Ends a session in order, acting on its TDIs. -/
  | spdmEndSession (port : Fin 2) (id : Nat)
  /-- SESSION_EXPIRY (R411): A session expires after two silent heartbeat periods or 2^32 records without key update. -/
  | sessionExpiry (port : Fin 2) (id : Nat)
  /-- IDE_KM_KEY_PROG (R412): Programs IDE stream keys. -/
  | ideKmKeyProg (port : Fin 2) (id stream : Nat) (tx : Bool)
  /-- IDE_KM_K_SET_GO (R412): Activates a stream key set, refused after deletion until new keys are programmed. -/
  | ideKmKSetGo (port : Fin 2) (id stream : Nat)
  /-- IDE_INTEGRITY_FAILURE (R412): A TLP failing its integrity check makes the stream insecure and puts its TDIs into ERROR. -/
  | ideIntegrityFailure (port : Fin 2) (stream : Nat)
  /-- LOCK_INTERFACE (R413): Freezes the VF's binding, windows and descriptors and moves the TDI to CONFIG_LOCKED. -/
  | lockInterface (via : SecReq) (stream : Nat) (f : Fin 249)
  /-- START_INTERFACE (R413): Moves a locked TDI to RUN over a keyed selective stream. -/
  | startInterface (port : Fin 2) (id stream : Nat) (f : Fin 249)
  /-- STOP_INTERFACE (R413): Moves the TDI to CONFIG_UNLOCKED. -/
  | stopInterface (via : SecReq) (f : Fin 249)
  /-- SEAM_FLIT_RECEIVE (R418): A received data flit is checked by CRC, MAC and SEQ and accepted, or NAKed. -/
  | seamFlitReceive (p : Fin 8) (fl : FlitIn)
  /-- SEAM_ACK_RECEIVE (R418): An ACK frees acknowledged flits from the replay buffer. -/
  | seamAckReceive (p : Fin 8) (seq : Nat)
  /-- SEAM_NAK_RECEIVE (R418): A NAK makes the sender replay from the expected SEQ. -/
  | seamNakReceive (p : Fin 8) (seq : Nat)
  /-- SEAM_ACK_TIMEOUT (R418): A 10 µs period passes without an acknowledgement. -/
  | seamAckTimeout (p : Fin 8)
  /-- LINK_RETRAIN (R418): After 16 NAKs of one SEQ or 16 silent periods, the link retrains. -/
  | linkRetrain (p : Fin 8)
  /-- RETRAIN_END (R418): Retraining ends; on failure the port goes down and its flits are dropped. -/
  | retrainEnd (p : Fin 8) (ok : Bool)
  /-- TACK_SEND (R420): Every 1,024 ns a router sends a tack, and any votes, on each seam. -/
  | tackSend (n : Fin 128)
  /-- TACK_RECEIVE (R423): A valid tack is received, which counts toward ending a suspicion or toward reinstatement. -/
  | tackReceive (n : Fin 128) (d : Fin 4) (tk : TackIn)
  /-- TACK_MISS (R421): A tack deadline passes; the third consecutive miss raises silent suspicion. -/
  | tackMiss (n : Fin 128) (d : Fin 4)
  /-- BABBLING_SUSPICION (R422): A babbling count reaches its threshold within a window and suspicion is raised. -/
  | babblingSuspicion (n : Fin 128) (d : Fin 4) (c : Babble)
  /-- VOTE_FLIT_RECEIVE (R424): A vote or withdrawal is received, relayed once, and recorded. -/
  | voteFlitReceive (n suspect : Fin 128) (voter : Voter) (relay withdraw reinst : Bool)
  /-- VOTE_EXPIRY (R424): A vote expires 16,384 ns after it was last received. -/
  | voteExpiry (n : Fin 128) (suspect voter : Fin 128)
  /-- FENCE_FLIT_RECEIVE (R425): A flooded fence flit is recorded in the fence map and forwarded once. -/
  | fenceFlitReceive (n : Fin 128) (suspect : Fin 128)
  /-- SELFTEST_COMPLETE (R429): A fenced tile's self-test ends; the tile is retired or enters probation. -/
  | selftestComplete (n : Fin 128) (pass : Bool)
  /-- REINSTATEMENT_VOTE (R429): After 64 valid probation tacks, a neighbour casts a reinstatement vote. -/
  | reinstatementVote (n : Fin 128) (d : Fin 4)
  /-- UNFENCE_FLIT_RECEIVE (R429): An unfence flit removes the tile from the fence map, and the tile is scrubbed and returned. -/
  | unfenceFlitReceive (n : Fin 128) (suspect : Fin 128)
  /-- PATROL_SCRUB (R430): The MC patrol scrubs every array once every 24 hours. -/
  | patrolScrub
  /-- PFAIL_ASSERT (R436): A recognised PFAIL starts the checkpoint: evictions, write-back and self-refresh. -/
  | pfailAssert
  /-- CHECKPOINT_SAVE_DEADLINE (R436): Panels that have not begun their save 1.0 ms after PFAIL are aborted with CTXLOST. -/
  | checkpointSaveDeadline
  /-- CHECKPOINT_COMPLETE (R436): The checkpoint ends with LPDDR 6 in self-refresh and a valid marker in flash. -/
  | checkpointComplete
  /-- PFAIL_DEASSERT (R435): PFAIL has been high for 1 ms, which counts as deasserted. -/
  | pfailDeassert
  /-- RETOK_LOW (R435): Loss of the retention rail during retention forces a cold start. -/
  | retokLow
  /-- POWER_RETURN_RESUME (R437): Power returns; the part repeats bring-up steps 5 to 7, restores saved cuts and runs. -/
  | powerReturnResume
  /-- DORMANT_ENTRY (R434): After 100 ms with every vdev collapsed in class W2, the part becomes dormant. -/
  | dormantEntry
  /-- DORMANT_WAKE (R434): A wake, tail write or mailbox command returns the part to running. -/
  | dormantWake
  /-- COLLAPSE_DELAY_EXPIRY (R432): A vdev idle for its bolt's collapse delay begins to collapse. -/
  | collapseDelayExpiry (v : Nat)
  /-- COLLAPSE_COMPLETE (R432): A collapsing vdev becomes collapsed. -/
  | collapseComplete (v : Nat)
  /-- WAKE_COMPLETE (R433): A waking vdev's next cut issues; WAKELATE counts a wake that exceeded its bound. -/
  | wakeComplete (v : Nat)
  /-- THERMAL_THRESHOLD (R439): A quad temperature crossing 105 °C logs an event; crossing 115 °C starts a checkpoint. -/
  | thermalThreshold (q : Fin 32)
  /-- THERMAL_RESUME (R439): Once every quad is below 95 °C, the part resumes from retention. -/
  | thermalResume
  /-- PTP_MESSAGE (R438): A PTP or 1PPS input measures the offset and the DCC is slewed or stepped. -/
  | ptpMessage (port : Fin 3) (off : Int) (ppb : Int)
  /-- POWER_ON_RESET (R446): Power-on or device reset runs the bring-up steps up to running. -/
  | powerOnReset
  /-- DCC_HOLDOVER_ENTRY (R438): When no time source is available, the DCC runs in holdover on its last frequency correction and TSYNC reads holdover. -/
  | dccHoldoverEntry
  /-- PRI_ENABLE (R395): The host enables PRI for a function again, so that its page requests, which a Response Failure stopped, resume. -/
  | priEnable (port : Fin 2) (f : Fin 249)
  /-- MSIX_VECTOR_UNMASK (R406): The host unmasks an MSI-X vector, and the message held pending on that vector is sent. -/
  | msixVectorUnmask (port : Fin 2) (f : Fin 249) (vec : Nat)
  /-- CXL_CACHE_SNOOP (R296): On a CXL port, a host coherence request reaches the slice that holds a host-memory line, and the slice keeps the line coherent with the host. -/
  | cxlCacheSnoop (port : Fin 2) (addr : Nat) (inv : Bool)
  deriving DecidableEq, Repr

/-- What a slot word decodes to: an operation of the table, or `mcall` and `plc`, whose function stands in a register and which
therefore become one of the table's rows only when they issue (R330, R365, R442). -/
inductive SlotOp where
  | ins (i : Instr)
  | mcall (d a b : Fin 32)
  | plc (d a b : Fin 32)
  deriving DecidableEq, Repr

/-- One operation of a bundle: its slot 0–7 (K, S, VA, VB, M, L, D, X), its guard and what it does (R118, R123). -/
structure Op where
  slot : Fin 8
  gn : Bool
  gp : Fin 8
  op : SlotOp
  deriving DecidableEq, Repr

/-- A legal bundle (R119). -/
inductive Bundle where
  | idle (n : BitVec 16)
  | barrier (g : BitVec 3)
  | ops (sync : Fin 8) (l : List Op)
  deriving DecidableEq, Repr

/-- What the bytes at a fetch address are: a line pad, a legal bundle with its length in bytes, or an illegal bundle with the place
that R129 reports (0–7 slot, 8 header, 9 line). -/
inductive Decoded where
  | pad
  | bundle (len : Nat) (b : Bundle)
  | illegal (place : Nat)
  deriving DecidableEq, Repr

end Sys2Proof
end

