-- ==== Sys2Proof/Decode.lean ====
section
/-! DEFINITION. The decoder of bundles and slot words (R117–R131 and the encoding tables of the instruction chapters), total on any
words, and the encoder written from the same tables. -/

namespace Sys2Proof

/-! Fields -/

/-- Widths of the fields that follow. -/
def widthSum : List Nat → Nat
  | [] => 0
  | w :: r => w + widthSum r

/-- Cuts a word into fields, the first at the top (R125). -/
def unpack : List Nat → Nat → List Nat
  | [], _ => []
  | w :: r, v => v / 2 ^ widthSum r % 2 ^ w :: unpack r v

/-- Puts fields (width, value) together, the first at the top. -/
def pack : List (Nat × Nat) → Nat
  | [] => 0
  | (w, v) :: r => v % 2 ^ w * 2 ^ widthSum (r.map Prod.fst) + pack r

/-- A register or other number below `n` (R126). -/
def fin? (n v : Nat) : Option (Fin n) := if h : v < n then some ⟨v, h⟩ else none

/-- A one-bit field. -/
def flag (v : Nat) : Bool := v == 1

/-- A flag as a field. -/
def unflag (b : Bool) : Nat := if b then 1 else 0

/-- Widths of format A: d, a, b, IX, sub-function. -/
def fmtA : List Nat := [5, 5, 5, 1, 6]
/-- Widths of format B: d, a, i12. -/
def fmtB : List Nat := [5, 5, 12]
/-- Widths of format C: d, i17. -/
def fmtC : List Nat := [5, 17]

/-- Packs format A. -/
def packA (d a b ix sub : Nat) : Nat := pack [(5, d), (5, a), (5, b), (1, ix), (6, sub)]
/-- Packs format B. -/
def packB (d a i : Nat) : Nat := pack [(5, d), (5, a), (12, i)]
/-- Packs format C. -/
def packC (d i : Nat) : Nat := pack [(5, d), (17, i)]

/-- IX and operand b of a K operation (R127). -/
def kOpd? (ext : Option (BitVec 16)) (ix b : Nat) : Option KOpd :=
  if ix = 0 then (fin? 16 b).map .reg else if b = 0 then ext.map .imm else none

/-- IX and operand b of an S operation. -/
def sOpd? (ext : Option (BitVec 16)) (ix b : Nat) : Option SOpd :=
  if ix = 0 then (fin? 32 b).map .reg else if b = 0 then ext.map .imm else none

/-- IX and operand b of a vector operation (R173). -/
def vOpd? (ext : Option (BitVec 16)) (ix b : Nat) : Option VOpd :=
  if ix = 0 then (fin? 32 b).map .reg else if b = 0 then ext.map .imm else none

/-- IX and operand b of a mask operation (R195). -/
def mOpd? (ext : Option (BitVec 16)) (ix b : Nat) : Option MOpd :=
  if ix = 0 then (fin? 8 b).map .reg else if b = 0 then ext.map .imm else none

/-- IX of an optional 16-bit offset or base: imm16 when IX = 1 (R220). -/
def off? (ext : Option (BitVec 16)) (ix : Nat) : Option (Option (BitVec 16)) :=
  if ix = 0 then some none else ext.map some

/-- Field b of an operand. -/
def KOpd.b : KOpd → Nat
  | .reg r => r.val
  | .imm _ => 0
/-- Field b of an operand. -/
def SOpd.b : SOpd → Nat
  | .reg r => r.val
  | .imm _ => 0
/-- Field b of an operand. -/
def VOpd.b : VOpd → Nat
  | .reg r => r.val
  | .imm _ => 0
/-- Field b of an operand. -/
def MOpd.b : MOpd → Nat
  | .reg r => r.val
  | .imm _ => 0
/-- The imm16 that an operand needs. -/
def KOpd.ext : KOpd → Option (BitVec 16)
  | .reg _ => none
  | .imm i => some i
/-- The imm16 that an operand needs. -/
def SOpd.ext : SOpd → Option (BitVec 16)
  | .reg _ => none
  | .imm i => some i
/-- The imm16 that an operand needs. -/
def VOpd.ext : VOpd → Option (BitVec 16)
  | .reg _ => none
  | .imm i => some i
/-- The imm16 that an operand needs. -/
def MOpd.ext : MOpd → Option (BitVec 16)
  | .reg _ => none
  | .imm i => some i
/-- IX of an operand. -/
def ixOf (e : Option (BitVec 16)) : Nat := if e.isSome then 1 else 0

/-- Landing parameters from imm16 (R128). -/
def landing? (ext : Option (BitVec 16)) : Option Landing :=
  match ext with
  | none => none
  | some i =>
    if i.toNat / 2 ^ 13 = 0 && i.toNat % 2 ^ 12 != 0 then
      some { psn := flag (i.toNat / 2 ^ 12 % 2), due := BitVec.ofNat 12 i.toNat }
    else none

/-- The imm16 of landing parameters. -/
def Landing.ext (l : Landing) : BitVec 16 := BitVec.ofNat 16 (unflag l.psn * 2 ^ 12 + l.due.toNat)

/-! Codes -/

/-- TY (R171). -/
def ity? : Nat → Option ITy
  | 0 => some .i8 | 1 => some .n8 | 2 => some .i16 | 3 => some .n16 | 4 => some .i32 | 5 => some .n32 | _ => none
/-- Code of TY. -/
def ITy.code : ITy → Nat
  | .i8 => 0 | .n8 => 1 | .i16 => 2 | .n16 => 3 | .i32 => 4 | .n32 => 5
/-- FT (R171). -/
def fty? : Nat → Option FTy
  | 0 => some .fp32 | 1 => some .fp16 | 2 => some .bf16 | _ => none
/-- Code of FT. -/
def FTy.code : FTy → Nat
  | .fp32 => 0 | .fp16 => 1 | .bf16 => 2
/-- W (R171). -/
def width? : Nat → Option Width
  | 0 => some .w8 | 1 => some .w16 | 2 => some .w32 | _ => none
/-- Code of W. -/
def Width.code : Width → Nat
  | .w8 => 0 | .w16 => 1 | .w32 => 2
/-- Lanes of a width. -/
def Width.lanes : Width → Nat
  | .w8 => 128 | .w16 => 64 | .w32 => 32
/-- RM (R65). -/
def rmode? : Nat → Option RMode
  | 0 => some .rne | 1 => some .rtz | 2 => some .rdn | 3 => some .rup | _ => none
/-- Code of RM. -/
def RMode.code : RMode → Nat
  | .rne => 0 | .rtz => 1 | .rdn => 2 | .rup => 3
/-- SG of `vdot4` (R177). -/
def signs? : Nat → Option Signs
  | 0 => some .ii | 1 => some .ni | 2 => some .nn | _ => none
/-- Code of SG. -/
def Signs.code : Signs → Nat
  | .ii => 0 | .ni => 1 | .nn => 2
/-- ST and DT of `vcvt`: codes 0x2 to 0xC of R58 (R184). -/
def cfmt? : Nat → Option CFmt
  | 2 => some .i8 | 3 => some .n8 | 4 => some .i16 | 5 => some .n16 | 6 => some .i32 | 7 => some .n32 | 8 => some .fp16
  | 9 => some .bf16 | 10 => some .fp32 | 11 => some .e4m3 | 12 => some .e5m2 | _ => none
/-- Code of a format. -/
def CFmt.code : CFmt → Nat
  | .i8 => 2 | .n8 => 3 | .i16 => 4 | .n16 => 5 | .i32 => 6 | .n32 => 7 | .fp16 => 8 | .bf16 => 9 | .fp32 => 10 | .e4m3 => 11
  | .e5m2 => 12
/-- Bits per element of a format. -/
def CFmt.bits : CFmt → Nat
  | .i8 | .n8 | .e4m3 | .e5m2 => 8
  | .i16 | .n16 | .fp16 | .bf16 => 16
  | .i32 | .n32 | .fp32 => 32
/-- Whether a format is an integer format. -/
def CFmt.isInt : CFmt → Bool
  | .i8 | .n8 | .i16 | .n16 | .i32 | .n32 => true
  | _ => false
/-- FMT of `zoutv` (R213). -/
def vfmt? : Nat → Option VFmt
  | 1 => some .i4 | 2 => some .i8 | 8 => some .fp16 | 9 => some .bf16 | 11 => some .e4m3 | 12 => some .e5m2 | _ => none
/-- Code of a format. -/
def VFmt.code : VFmt → Nat
  | .i4 => 1 | .i8 => 2 | .fp16 => 8 | .bf16 => 9 | .e4m3 => 11 | .e5m2 => 12
/-- Whether a format has 16 bits. -/
def VFmt.half : VFmt → Bool
  | .fp16 | .bf16 => true
  | _ => false
/-- E of `vquant` (R186). -/
def belem? : Nat → Option BElem
  | 0 => some .e4m3 | 1 => some .e5m2 | 2 => some .i4 | _ => none
/-- Code of E. -/
def BElem.code : BElem → Nat
  | .e4m3 => 0 | .e5m2 => 1 | .i4 => 2
/-- DK (R221). -/
def dkind? : Nat → Option DKind
  | 0 => some .n8 | 1 => some .i8 | 2 => some .n16 | 3 => some .i16 | 4 => some .n32 | 5 => some .i32 | 6 => some .i64
  | 8 => some .va | 9 => some .vb | _ => none
/-- Code of DK. -/
def DKind.code : DKind → Nat
  | .n8 => 0 | .i8 => 1 | .n16 => 2 | .i16 => 3 | .n32 => 4 | .i32 => 5 | .i64 => 6 | .va => 8 | .vb => 9
/-- Whether a data kind may stand in a store (R221). -/
def DKind.storable : DKind → Bool
  | .i8 | .i16 | .i32 => false
  | _ => true
/-- Whether a data kind may stand in `sti` (R237). -/
def DKind.isp : DKind → Bool
  | .i64 | .va | .vb => true
  | _ => false
/-- Whether a data kind names an s register. -/
def DKind.scalar : DKind → Bool
  | .va | .vb => false
  | _ => true
/-- DK2 (R221). -/
def dkind2? : Nat → Option DKind2
  | 0 => some .i64 | 1 => some .n32 | 2 => some .va | 3 => some .vb | _ => none
/-- Code of DK2. -/
def DKind2.code : DKind2 → Nat
  | .i64 => 0 | .n32 => 1 | .va => 2 | .vb => 3
/-- SCOPE (R223). -/
def scope? : Nat → Option Scope
  | 0 => some .panel | 1 => some .bolt | 2 => some .dev | 3 => some .sys | _ => none
/-- Code of SCOPE. -/
def Scope.code : Scope → Nat
  | .panel => 0 | .bolt => 1 | .dev => 2 | .sys => 3
/-- HINT (R223). -/
def hint? : Nat → Option Hint
  | 0 => some .normal | 1 => some .na | 2 => some .byp | 3 => some .ef | _ => none
/-- Code of HINT. -/
def Hint.code : Hint → Nat
  | .normal => 0 | .na => 1 | .byp => 2 | .ef => 3
/-- ORD, and HINT or SCOPE, of `ldg` (R226). -/
def ldQual? (ord x : Nat) : Option LdQual :=
  match ord with
  | 0 => (hint? x).map .weak | 1 => (scope? x).map .strong | 2 => (scope? x).map .acq | _ => none
/-- ORD of `ldg`. -/
def LdQual.ord : LdQual → Nat
  | .weak _ => 0 | .strong _ => 1 | .acq _ => 2
/-- HINT or SCOPE of `ldg`. -/
def LdQual.sub : LdQual → Nat
  | .weak h => h.code | .strong s => s.code | .acq s => s.code
/-- ORD, SCOPE and HINT of `stg` (R227). -/
def stQual? (ord sc h : Nat) : Option StQual :=
  match ord with
  | 0 => if sc = 0 then (hint? h).map .weak else none
  | 1 => if h = 0 then (scope? sc).map .strong else none
  | 2 => if h = 0 then (scope? sc).map .rel else none
  | _ => none
/-- ORD of `stg`. -/
def StQual.ord : StQual → Nat
  | .weak _ => 0 | .strong _ => 1 | .rel _ => 2
/-- SCOPE of `stg`. -/
def StQual.scope : StQual → Nat
  | .weak _ => 0 | .strong s => s.code | .rel s => s.code
/-- HINT of `stg`. -/
def StQual.hint : StQual → Nat
  | .weak h => h.code | .strong _ => 0 | .rel _ => 0
/-- ORD of `ldv` and `stv` (R228). -/
def vord? : Nat → Option VOrd
  | 0 => some .weak | 1 => some .strong | 2 => some .order | _ => none
/-- Code of ORD. -/
def VOrd.code : VOrd → Nat
  | .weak => 0 | .strong => 1 | .order => 2
/-- AR and SCOPE of `amo` (R231). -/
def amoQual? (ar sc : Nat) : Option (Option Scope) :=
  if ar = 0 then (if sc = 0 then some none else none) else (scope? sc).map some
/-- ORD and SCOPE of `cas` (R232). -/
def casQual? (ord sc : Nat) : Option CasQual :=
  match ord with
  | 0 => if sc = 0 then some .none else none
  | 1 => (scope? sc).map .acq | 2 => (scope? sc).map .rel | 3 => (scope? sc).map .ar | _ => none
/-- ORD of `cas`. -/
def CasQual.ord : CasQual → Nat
  | .none => 0 | .acq _ => 1 | .rel _ => 2 | .ar _ => 3
/-- SCOPE of `cas`. -/
def CasQual.scope : CasQual → Nat
  | .none => 0 | .acq s => s.code | .rel s => s.code | .ar s => s.code
/-- SCOPE of an optional `.ar`. -/
def arScope : Option Scope → Nat
  | none => 0
  | some s => s.code
/-- The slot, and so the file, of a vector word: VA is slot 2, VB slot 3 (R118). -/
def VFile.slot : VFile → Nat
  | .a => 2 | .b => 3
/-- Class of `chkp` (R154), with its register. -/
def chkp? (c r : Nat) : Option (PoisonClass × Fin 32) :=
  match c, fin? 32 r with
  | 0, some r => some (.s, r) | 1, some r => some (.va, r) | 2, some r => some (.vb, r)
  | 3, some r => if r.val < 8 then some (.t, r) else none
  | 4, some r => if r.val < 4 then some (.z, r) else none
  | _, _ => none
/-- Code of a class. -/
def PoisonClass.code : PoisonClass → Nat
  | .s => 0 | .va => 1 | .vb => 2 | .t => 3 | .z => 4
/-- How many registers a class has. -/
def PoisonClass.size : PoisonClass → Nat
  | .s | .va | .vb => 32
  | .t => 8
  | .z => 4
/-- SK or DK with REG of `snd`, `rcv` and `bcst` (R243–R245); a TSP endpoint takes imm16. -/
def xsrc? (ext : Option (BitVec 16)) (k r : Nat) : Option XSrc :=
  match k with
  | 0 => (fin? 32 r).map .s
  | 1 => (fin? 32 r).map (.v .a)
  | 2 => (fin? 32 r).map (.v .b)
  | _ => match fin? 16 r, ext with
    | some b, some o => some (.tsp b o)
    | _, _ => none
/-- SK of an endpoint. -/
def XSrc.kind : XSrc → Nat
  | .s _ => 0 | .v .a _ => 1 | .v .b _ => 2 | .tsp _ _ => 3
/-- REG of an endpoint. -/
def XSrc.reg : XSrc → Nat
  | .s r => r.val | .v _ r => r.val | .tsp b _ => b.val
/-- imm16 of an endpoint. -/
def XSrc.ext : XSrc → Option (BitVec 16)
  | .tsp _ o => some o
  | _ => none
/-- SK and REG of `sndr` (R247). -/
def rsrc? (k r : Nat) : Option RSrc :=
  match k with
  | 0 => (fin? 32 r).map (.v .a)
  | 1 => (fin? 32 r).map (.v .b)
  | 2 => (fin? 32 r).map .tsp
  | _ => none
/-- SK of `sndr`. -/
def RSrc.kind : RSrc → Nat
  | .v .a _ => 0 | .v .b _ => 1 | .tsp _ => 2
/-- REG of `sndr`. -/
def RSrc.reg : RSrc → Nat
  | .v _ r => r.val | .tsp r => r.val
/-- RS and A of an engine command (R255). -/
def recSrc? (rs a : Nat) : Option RecSrc :=
  match rs with
  | 0 => if a = 0 then some .low else none
  | 1 => if a = 0 then some .high else none
  | 2 => (fin? 32 a).map .tsp
  | _ => none
/-- RS. -/
def RecSrc.code : RecSrc → Nat
  | .low => 0 | .high => 1 | .tsp _ => 2
/-- A. -/
def RecSrc.reg : RecSrc → Nat
  | .tsp r => r.val
  | _ => 0
/-- Flags of a readout with the presence of ZO and TT (R211, R213). -/
def readout? (z zo tt rs cs out bias : Nat) : Option (Option (Fin 4) × Option (Fin 8) × Steps) :=
  let st : Steps := { rs := flag rs, cs := flag cs, bias := flag bias }
  let table := st.rs || st.cs || st.bias
  if (out = 0 && zo != 0) || (out = 1 && zo == z) || (!table && tt != 0) then none
  else match fin? 4 zo, fin? 8 tt with
    | some zo, some tt => some (if out = 1 then some zo else none, if table then some tt else none, st)
    | _, _ => none
/-- A number of an optional register, 0 for none. -/
def optNat {n : Nat} : Option (Fin n) → Nat
  | none => 0
  | some r => r.val

/-! Slot words (R131). Each decoder takes imm16 if the bundle has EXT, the opcode and the 22 operand bits. -/

/-- K slot (R149–R160); `len` is the bundle's length, which the end offset of a loop must reach (R150). -/
def decodeK (ext : Option (BitVec 16)) (len opc w : Nat) : Option Instr :=
  match opc with
  | 0x01 => some (.br (BitVec.ofNat 22 w))
  | 0x02 => match unpack fmtA w with
    | [0, a, 0, ix, 0] => (fin? 16 a).bind fun a => (off? ext ix).map fun o => .jr a o
    | _ => none
  | 0x03 => some (.call (BitVec.ofNat 22 w))
  | 0x04 => if w = 0 then some .ret else none
  | 0x05 => match unpack fmtB w with
    | [0, a, i] => if i < 2 ^ 11 && decide (len ≤ 4 * i) then (fin? 16 a).map fun a => .loop a (BitVec.ofNat 12 i) else none
    | _ => none
  | 0x06 => match unpack fmtC w, ext with
    | [0, c], some o => if len ≤ 4 * o.toNat then some (.loopi (BitVec.ofNat 17 c) o) else none
    | _, _ => none
  | 0x07 => if w = 0 then some .lbrk else none
  | 0x08 => if w = 0 then some .lnext else none
  | 0x09 => some (.swapb (BitVec.ofNat 22 w))
  | 0x0A => if w = 0 then some .ifence else none
  | 0x0B => match unpack [1, 21] w with
    | [0, m] => some (.stitch (BitVec.ofNat 21 m) (ext.getD 0#16))
    | _ => none
  | 0x0C => match unpack fmtB w with
    | [c, r, i] => (chkp? c r).map fun x => .chkp x.1 x.2 (BitVec.ofNat 12 i)
    | _ => none
  | 0x0D => match unpack [17, 5] w with
    | [0, k] => (fin? 32 k).map .tkw
    | _ => none
  | 0x0E => match unpack [3, 11, 3, 5] w with
    | [p, 0, c, k] => (fin? 8 p).bind fun p => (fin? 32 k).bind fun k =>
      match c with
      | 0 => some (.tkpPend p k) | 1 => some (.tkpDone p k) | 2 => some (.tkpPart p k) | 3 => some (.tkpFail p k)
      | 4 => some (.tkpFree p k) | 5 => some (.tkpRes p k) | _ => none
    | _ => none
  | 0x0F => match unpack [14, 4, 4] w with
    | [0, vb, va] => some (.vclust (BitVec.ofNat 4 vb) (BitVec.ofNat 4 va))
    | _ => none
  | 0x10 => if w = 0 then some .halt else none
  | 0x11 => match unpack fmtC w with
    | [0, c] => some (.trap (BitVec.ofNat 17 c))
    | _ => none
  | 0x12 => match unpack fmtC w with
    | [0, c] => some (.brk (BitVec.ofNat 17 c))
    | _ => none
  | 0x13 => match unpack fmtA w with
    | [d, a, b, ix, 0] => (fin? 16 d).bind fun d => (fin? 16 a).bind fun a => (kOpd? ext ix b).map fun o => .kadd d a o
    | _ => none
  | 0x14 => match unpack fmtC w with
    | [d, i] => (fin? 16 d).map fun d => .kli d (BitVec.ofNat 17 i)
    | _ => none
  | 0x15 => match unpack fmtA w with
    | [d, a, 0, 0, sub] => (fin? 16 d).bind fun d => (fin? 32 a).bind fun a =>
      match sub with
      | 0 => some (.kmov d a) | 1 => some (.kmovHi d a) | _ => none
    | _ => none
  | 0x16 => match unpack fmtA w with
    | [d, a, b, ix, sub] => (fin? 8 d).bind fun d =>
      if sub < 0x10 then
        if ix = 0 then (fin? 8 a).bind fun a => (fin? 8 b).bind fun b =>
          match sub with
          | 0 => some (.psetAnd d a b) | 1 => some (.psetOr d a b) | 2 => some (.psetXor d a b) | 3 => some (.psetAndn d a b)
          | 4 => some (.psetOrn d a b) | _ => none
        else none
      else if sub = 0x14 then
        if ix = 0 && b == 0 then (fin? 16 a).map fun a => .psetNz d a else none
      else (fin? 16 a).bind fun a => (kOpd? ext ix b).bind fun o =>
        match sub with
        | 0x10 => some (.psetEq d a o) | 0x11 => some (.psetNe d a o) | 0x12 => some (.psetLt d a o) | 0x13 => some (.psetLtn d a o)
        | _ => none
    | _ => none
  | 0x17 => match unpack fmtA w with
    | [d, 0, 0, 0, sub] => (fin? 16 d).bind fun d =>
      match sub with
      | 0 => some (.rdsc d) | 1 => some (.rdscHi d) | _ => none
    | _ => none
  | 0x18 => match unpack fmtA w with
    | [d, 0, 0, 0, sub] => (fin? 16 d).bind fun d =>
      match sub with
      | 0 => some (.rddcc d) | 1 => some (.rddccHi d) | _ => none
    | _ => none
  | _ => none

/-- An S operation of three operands with sub-function 0 (R161). -/
def sThree (ext : Option (BitVec 16)) (w : Nat) (f : Fin 32 → Fin 32 → SOpd → Instr) : Option Instr :=
  match unpack fmtA w with
  | [d, a, b, ix, 0] => (fin? 32 d).bind fun d => (fin? 32 a).bind fun a => (sOpd? ext ix b).map fun o => f d a o
  | _ => none

/-- An S operation of two operands with sub-function 0 (R162). -/
def sTwo (w : Nat) (f : Fin 32 → Fin 32 → Instr) : Option Instr :=
  match unpack fmtA w with
  | [d, a, 0, 0, 0] => (fin? 32 d).bind fun d => (fin? 32 a).map fun a => f d a
  | _ => none

/-- The unprivileged operations of the S slot (R161–R169). -/
def decodeS (ext : Option (BitVec 16)) (opc w : Nat) : Option Instr :=
  match opc with
  | 0x01 => sThree ext w .add | 0x02 => sThree ext w .sub | 0x03 => sThree ext w .mul | 0x04 => sThree ext w .mulh
  | 0x05 => sThree ext w .mulhn | 0x06 => sThree ext w .div | 0x07 => sThree ext w .divn | 0x08 => sThree ext w .rem
  | 0x09 => sThree ext w .remn | 0x0A => sThree ext w .and | 0x0B => sThree ext w .or | 0x0C => sThree ext w .xor
  | 0x0D => sThree ext w .andn | 0x0E => sThree ext w .shl | 0x0F => sThree ext w .shr | 0x10 => sThree ext w .sra
  | 0x11 => sThree ext w .rot | 0x12 => sTwo w .clz | 0x13 => sTwo w .ctz | 0x14 => sTwo w .popc
  | 0x15 => sThree ext w .min | 0x16 => sThree ext w .max | 0x17 => sThree ext w .minn | 0x18 => sThree ext w .maxn
  | 0x19 => match unpack fmtA w with
    | [d, a, b, ix, sub] => (fin? 8 d).bind fun d => (fin? 32 a).bind fun a => (sOpd? ext ix b).bind fun o =>
      match sub with
      | 0 => some (.cmpEq d a o) | 1 => some (.cmpNe d a o) | 2 => some (.cmpLt d a o) | 3 => some (.cmpGe d a o)
      | 4 => some (.cmpLtn d a o) | 5 => some (.cmpGen d a o) | 6 => some (.cmpTst d a o) | _ => none
    | _ => none
  | 0x1A => match unpack [5, 5, 5, 1, 3, 3] w with
    | [d, a, b, ix, 0, p] => (fin? 32 d).bind fun d => (fin? 8 p).bind fun p => (fin? 32 a).bind fun a =>
      (sOpd? ext ix b).map fun o => .sel d p a o
    | _ => none
  | 0x1B => match unpack fmtC w with
    | [d, i] => (fin? 32 d).map fun d => .li d (BitVec.ofNat 17 i)
    | _ => none
  | 0x1C => match unpack [5, 1, 16] w with
    | [d, 0, i] => (fin? 32 d).map fun d => .lih d (BitVec.ofNat 16 i)
    | _ => none
  | 0x1D => match unpack fmtA w with
    | [d, a, b, ix, sub] => (fin? 32 d).bind fun d => (fin? 32 a).bind fun a => (sOpd? ext ix b).bind fun o =>
      match sub with
      | 0 => some (.bfx d a o) | 1 => some (.bfxS d a o) | _ => none
    | _ => none
  | 0x1E => sThree ext w .bfi
  | 0x1F => match unpack fmtA w with
    | [d, a, 0, 0, sub] => (fin? 32 d).bind fun d => (fin? 32 a).bind fun a =>
      match sub with
      | 0 => some (.sextB d a) | 1 => some (.sextH d a) | 2 => some (.sextW d a)
      | 3 => some (.sextBn d a) | 4 => some (.sextHn d a) | 5 => some (.sextWn d a) | _ => none
    | _ => none
  | 0x20 => match unpack fmtA w with
    | [d, 0, 0, 0, sub] => (fin? 32 d).bind fun d =>
      match sub with
      | 6 => some (.widfGang d) | 7 => some (.widfCut d)
      | k => (fin? 6 k).map fun k => .widfField d k
    | _ => none
  | 0x21 => match unpack fmtA w with
    | [d, a, b, 0, sub] => (fin? 32 d).bind fun d =>
      match sub with
      | 0 => if b = 0 then (fin? 16 a).map fun a => .smovK d a else none
      | 1 => (fin? 32 a).bind fun a => (fin? 16 b).map fun c => .smovVa d a c
      | 2 => (fin? 32 a).bind fun a => (fin? 16 b).map fun c => .smovVb d a c
      | 3 => if a = 0 && b == 0 then some (.smovPred d) else none
      | 4 => if b = 0 then (fin? 8 a).map fun a => .smovMa d a else none
      | 5 => if b = 0 then (fin? 8 a).map fun a => .smovMb d a else none
      | _ => none
    | _ => none
  | 0x22 => match unpack [5, 5, 2, 10] w with
    | [0, a, 0, n] => (fin? 32 a).map fun a => .mvst (BitVec.ofNat 10 n) a
    | _ => none
  | 0x23 => match unpack [5, 5, 2, 10] w with
    | [d, 0, 0, n] => (fin? 32 d).map fun d => .mvfs d (BitVec.ofNat 10 n)
    | _ => none
  | 0x24 => match unpack [5, 5, 10, 2] w with
    | [d, a, 0, h] => (fin? 16 d).bind fun d => (fin? 32 a).bind fun a =>
      match h with
      | 0 => some (.dset d a) | 1 => some (.dsetLo d a) | 2 => some (.dsetHi d a) | _ => none
    | _ => none
  | _ => none

/-- The privileged operations of the S slot (R329, R330). -/
noncomputable def decodePriv (opc w : Nat) : Option SlotOp :=
  match unpack [5, 5, 5, 7] w with
  | [d, a, b, sub] =>
    (fin? 32 d).bind fun d => (fin? 32 a).bind fun a => (fin? 32 b).bind fun b =>
    match opc, sub with
    | 0x30, 0 => if b = 0 then some (.ins (.tsr d a)) else none
    | 0x30, 1 => if b = 0 then some (.ins (.tsrP d a)) else none
    | 0x31, 0 => if d = 0 then some (.ins (.tsw a b)) else none
    | 0x31, 1 => if d = 0 then some (.ins (.tswP a b)) else none
    | 0x32, 0 => if d = 0 ∧ b = 0 then some (.ins (.tresRun a)) else none
    | 0x32, 1 => if d = 0 ∧ b = 0 then some (.ins (.tresStep a)) else none
    | 0x32, 2 => if d = 0 ∧ b = 0 then some (.ins (.tresHalt a)) else none
    | 0x32, 3 => if d = 0 ∧ b = 0 then some (.ins (.tresLock a)) else none
    | 0x33, 0 => if d = 0 ∧ b = 0 then some (.ins (.tabt a)) else none
    | 0x33, 1 => if d = 0 ∧ b = 0 then some (.ins (.tabtReplay a)) else none
    | 0x34, 0 => some (.ins (.tsnapDesc d a b))
    | 0x34, 1 => some (.ins (.tsnapAddr d a b))
    | 0x34, 2 => some (.ins (.tsnapVal d a b))
    | 0x34, 3 => if d = 0 then some (.ins (.tsnapDrop a b)) else none
    | 0x35, 0 => if d = 0 then some (.ins (.selw a b)) else none
    | 0x36, 0 => if d = 0 ∧ b = 0 then some (.ins (.tlbiPage a)) else none
    | 0x36, 1 => if d = 0 ∧ b = 0 then some (.ins (.tlbiPasid a)) else none
    | 0x36, 2 => if d = 0 ∧ b = 0 then some (.ins (.tlbiBolt a)) else none
    | 0x37, 0 => if a = 0 ∧ b = 0 then some (.ins (.tlbs d)) else none
    | 0x38, 0 => some (.ins (.ctxs d a b))
    | 0x39, 0 => some (.ins (.ctxl d a b))
    | 0x3A, 0 => if d = 0 ∧ a = 0 ∧ b = 0 then some (.ins .trpret) else none
    | 0x3B, 0 => some (.mcall d a b)
    | 0x3C, 0 => some (.plc d a b)
    | 0x3D, 0 => if b = 0 then some (.ins (.fqpopTrap d a)) else none
    | 0x3D, 1 => if b = 0 then some (.ins (.fqpopFault d a)) else none
    | 0x3D, 2 => if b = 0 then some (.ins (.fqpopPlc d a)) else none
    | _, _ => none
  | _ => none

/-- Layout I with opb (R171, R176). -/
def vInt (ext : Option (BitVec 16)) (w : Nat) (f : Fin 32 → Fin 32 → VOpd → ITy → Fin 8 → Instr) : Option Instr :=
  match unpack [5, 5, 5, 1, 3, 3] w with
  | [d, a, b, ix, m, ty] => (fin? 32 d).bind fun d => (fin? 32 a).bind fun a => (vOpd? ext ix b).bind fun o =>
    (ity? ty).bind fun ty => (fin? 8 m).map fun m => f d a o ty m
  | _ => none

/-- Layout I without opb. -/
def vIntOne (w : Nat) (f : Fin 32 → Fin 32 → ITy → Fin 8 → Instr) : Option Instr :=
  match unpack [5, 5, 5, 1, 3, 3] w with
  | [d, a, 0, 0, m, ty] => (fin? 32 d).bind fun d => (fin? 32 a).bind fun a =>
    (ity? ty).bind fun ty => (fin? 8 m).map fun m => f d a ty m
  | _ => none

/-- Layout B with opb. -/
def vBits (ext : Option (BitVec 16)) (w : Nat) (f : Fin 32 → Fin 32 → VOpd → Fin 8 → Instr) : Option Instr :=
  match unpack [5, 5, 5, 1, 3, 3] w with
  | [d, a, b, ix, m, 0] => (fin? 32 d).bind fun d => (fin? 32 a).bind fun a => (vOpd? ext ix b).bind fun o =>
    (fin? 8 m).map fun m => f d a o m
  | _ => none

/-- Layout F with opb and RM (R180). -/
def vFlt (ext : Option (BitVec 16)) (w : Nat) (f : Fin 32 → Fin 32 → VOpd → FTy → RMode → Fin 4 → Instr) : Option Instr :=
  match unpack [5, 5, 5, 1, 2, 2, 2] w with
  | [d, a, b, ix, rm, ft, m] => (fin? 32 d).bind fun d => (fin? 32 a).bind fun a => (vOpd? ext ix b).bind fun o =>
    (fty? ft).bind fun ft => (rmode? rm).bind fun rm => (fin? 4 m).map fun m => f d a o ft rm m
  | _ => none

/-- Layout F with opb, where [5:4] must hold `op` (R180, R181). -/
def vFltOp (ext : Option (BitVec 16)) (op w : Nat) (f : Fin 32 → Fin 32 → VOpd → FTy → Fin 4 → Instr) : Option Instr :=
  match unpack [5, 5, 5, 1, 2, 2, 2] w with
  | [d, a, b, ix, rm, ft, m] => if rm = op then (fin? 32 d).bind fun d => (fin? 32 a).bind fun a => (vOpd? ext ix b).bind fun o =>
    (fty? ft).bind fun ft => (fin? 4 m).map fun m => f d a o ft m else none
  | _ => none

/-- Layout F without opb and RM. -/
def vFltOne (w : Nat) (f : Fin 32 → Fin 32 → FTy → Fin 4 → Instr) : Option Instr :=
  match unpack [5, 5, 5, 1, 2, 2, 2] w with
  | [d, a, 0, 0, 0, ft, m] => (fin? 32 d).bind fun d => (fin? 32 a).bind fun a =>
    (fty? ft).bind fun ft => (fin? 4 m).map fun m => f d a ft m
  | _ => none

/-- Layout F of the special functions: RM = FT = 0 (R183). -/
def vSfu (w : Nat) (f : Fin 32 → Fin 32 → Fin 4 → Instr) : Option Instr :=
  match unpack [5, 5, 5, 1, 2, 2, 2] w with
  | [d, a, 0, 0, 0, 0, m] => (fin? 32 d).bind fun d => (fin? 32 a).bind fun a => (fin? 4 m).map fun m => f d a m
  | _ => none

/-- The vector slots VA and VB (R171–R196). -/
def decodeV (v : VFile) (ext : Option (BitVec 16)) (opc w : Nat) : Option Instr :=
  match opc with
  | 0x01 => vInt ext w (.vadd v) | 0x02 => vInt ext w (.vsub v) | 0x03 => vInt ext w (.vmul v) | 0x04 => vInt ext w (.vmulh v)
  | 0x05 => vInt ext w (.vmin v) | 0x06 => vInt ext w (.vmax v)
  | 0x07 => match unpack [5, 5, 5, 1, 3, 3] w with
    | [d, a, 0, 0, m, ty] => (fin? 32 d).bind fun d => (fin? 32 a).bind fun a =>
      (ity? ty).bind fun ty => if ty.code % 2 = 0 then (fin? 8 m).map fun m => .vabs v d a ty m else none
    | _ => none
  | 0x08 => vIntOne w (.vneg v)
  | 0x09 => vBits ext w (.vand v) | 0x0A => vBits ext w (.vor v) | 0x0B => vBits ext w (.vxor v)
  | 0x0C => match unpack [5, 5, 5, 1, 3, 3] w with
    | [d, a, 0, 0, m, 0] => (fin? 32 d).bind fun d => (fin? 32 a).bind fun a => (fin? 8 m).map fun m => .vnot v d a m
    | _ => none
  | 0x0D => vInt ext w (.vshl v) | 0x0E => vInt ext w (.vshr v) | 0x0F => vInt ext w (.vsra v)
  | 0x10 => match unpack [5, 5, 5, 1, 3, 3] w with
    | [d, a, b, ix, c, ty] => (fin? 8 d).bind fun d => (fin? 32 a).bind fun a => (vOpd? ext ix b).bind fun o => (ity? ty).bind fun ty =>
      match c with
      | 0 => some (.vcmpEq v d a o ty) | 1 => some (.vcmpNe v d a o ty) | 2 => some (.vcmpLt v d a o ty)
      | 3 => some (.vcmpLe v d a o ty) | 4 => some (.vcmpGt v d a o ty) | 5 => some (.vcmpGe v d a o ty) | _ => none
    | _ => none
  | 0x11 => vBits ext w (.vsel v)
  | 0x12 => vInt ext w (.vadds v) | 0x13 => vInt ext w (.vsubs v)
  | 0x14 => match unpack [5, 5, 5, 1, 3, 1, 2] w with
    | [d, a, b, 0, m, s, sg] => (fin? 32 d).bind fun d => (fin? 32 a).bind fun a => (fin? 32 b).bind fun b => (signs? sg).bind fun sg =>
      (fin? 8 m).map fun m => .vdot4 v d a b sg (flag s) m
    | _ => none
  | 0x15 => match unpack [5, 5, 5, 1, 3, 1, 2] w with
    | [d, a, b, 0, m, s, 0] => (fin? 32 d).bind fun d => (fin? 32 a).bind fun a => (fin? 32 b).bind fun b =>
      (fin? 8 m).map fun m => .vdot8 v d a b (flag s) m
    | _ => none
  | 0x16 => vFlt ext w (.vfadd v) | 0x17 => vFlt ext w (.vfsub v) | 0x18 => vFlt ext w (.vfmul v) | 0x19 => vFlt ext w (.vffma v)
  | 0x1A => vFltOp ext 0 w (.vfmin v) | 0x1B => vFltOp ext 0 w (.vfmax v)
  | 0x1C =>
    (vFltOp ext 0 w (.vfsgnJ v)).or ((vFltOp ext 1 w (.vfsgnJn v)).or (vFltOp ext 2 w (.vfsgnJx v)))
  | 0x1D => match unpack [5, 5, 5, 1, 3, 2, 1] w with
    | [d, a, b, ix, c, ft, 0] => (fin? 8 d).bind fun d => (fin? 32 a).bind fun a => (vOpd? ext ix b).bind fun o => (fty? ft).bind fun ft =>
      match c with
      | 0 => some (.vfcmpEq v d a o ft) | 1 => some (.vfcmpNe v d a o ft) | 2 => some (.vfcmpLt v d a o ft)
      | 3 => some (.vfcmpLe v d a o ft) | 4 => some (.vfcmpUn v d a o ft) | 5 => some (.vfcmpOrd v d a o ft) | _ => none
    | _ => none
  | 0x1E => vFltOne w (.vfclass v)
  | 0x1F => vSfu w (.vexp2 v) | 0x20 => vSfu w (.vlog2 v) | 0x21 => vSfu w (.vrcp v) | 0x22 => vSfu w (.vrsqrt v)
  | 0x23 => match unpack [5, 5, 1, 4, 1, 2, 4] w with
    | [d, a, s, st, ix, rm, dt] => (fin? 32 d).bind fun d => (fin? 32 a).bind fun a => (cfmt? dt).bind fun dt => (cfmt? st).bind fun st =>
      (rmode? rm).bind fun rm => (off? ext ix).bind fun p =>
      let x := (p.getD 0#16).toNat
      let lo := Nat.min dt.bits st.bits
      if (s = 1 && dt.isInt) || decide (Nat.max dt.bits st.bits / lo ≤ x) then none
      else some (.vcvt v d a dt st rm (flag s) (p.map fun i => BitVec.ofNat 2 i.toNat))
    | _ => none
  | 0x24 => match unpack [5, 5, 5, 1, 2, 1, 3] w with
    | [d, a, b, 0, 0, s, k] => (fin? 32 d).bind fun d => (fin? 32 a).bind fun a => (fin? 32 b).bind fun b =>
      (fin? 7 k).map fun k => .vpack v d a b k (flag s)
    | _ => none
  | 0x25 => match unpack [5, 5, 5, 1, 2, 1, 3] w with
    | [d, a, 0, 0, 0, h, k] => (fin? 32 d).bind fun d => (fin? 32 a).bind fun a => (fin? 6 k).map fun k => .vunpack v d a k (flag h)
    | _ => none
  | 0x26 => match unpack [5, 5, 5, 1, 1, 3, 2] w with
    | [d, a, n, 0, fm, 0, e] => (fin? 32 d).bind fun d => (fin? 32 a).bind fun a => (belem? e).bind fun e => (fin? 32 n).bind fun n =>
      if fm = 1 then some (.vquantScale v d a e n)
      else if n.val < (if e = .i4 then 8 else 4) then some (.vquant v d a e n) else none
    | _ => none
  | 0x27 => match unpack [5, 5, 5, 1, 2, 2, 2] w with
    | [d, a, b, ix, rm, 0, m] => (fin? 32 d).bind fun d => (fin? 32 a).bind fun a => (rmode? rm).bind fun rm => (fin? 4 m).bind fun m =>
      if ix = 0 then (fin? 32 b).map fun b => .vscale v d a (.reg b) rm m
      else match b, ext with
        | 0, some i => if i.toNat < 256 then some (.vscale v d a (.imm (BitVec.ofNat 8 i.toNat)) rm m) else none
        | _, _ => none
    | _ => none
  | 0x28 => match unpack [5, 5, 5, 1, 3, 3] w with
    | [d, a, j, 0, m, 0] => (fin? 32 d).bind fun d => (fin? 32 a).bind fun a => (fin? 9 j).bind fun j =>
      (fin? 8 m).map fun m => .vfxd v d a j m
    | _ => none
  | 0x29 => vIntOne w (.vredsum v)
  | 0x2A => match unpack [5, 5, 5, 1, 2, 2, 2] w with
    | [d, a, 0, 0, rm, ft, m] => (fin? 32 d).bind fun d => (fin? 32 a).bind fun a => (fty? ft).bind fun ft => (rmode? rm).bind fun rm =>
      (fin? 4 m).map fun m => .vfredsum v d a ft rm m
    | _ => none
  | 0x2B => vIntOne w (.vredmax v) | 0x2C => vIntOne w (.vredmin v)
  | 0x2D => vFltOne w (.vfredmax v)
  | 0x2E => match unpack [5, 5, 5, 1, 3, 1, 2] w with
    | [d, a, b, 0, m, 0, x] => (fin? 32 d).bind fun d => (fin? 32 a).bind fun a => (fin? 32 b).bind fun b => (width? x).bind fun x =>
      (fin? 8 m).map fun m => .vperm v d a b x m
    | _ => none
  | 0x2F => match unpack [5, 5, 5, 1, 3, 1, 2] w with
    | [d, a, b, ix, m, 0, x] => (fin? 32 d).bind fun d => (fin? 32 a).bind fun a => (width? x).bind fun x => (fin? 8 m).bind fun m =>
      if ix = 0 then (fin? 32 b).bind fun k => if k.val < x.lanes then some (.vbcast v d a (.field k) x m) else none
      else match b, ext with
        | 0, some i => if i.toNat < x.lanes then some (.vbcast v d a (.imm i) x m) else none
        | _, _ => none
    | _ => none
  | 0x30 => match unpack [5, 5, 5, 1, 3, 1, 2] w, ext with
    | [d, a, b, 0, m, 0, x], some i => (fin? 32 d).bind fun d => (fin? 32 a).bind fun a => (fin? 32 b).bind fun b =>
      (width? x).bind fun x => (fin? 8 m).bind fun m =>
      if i.toNat ≤ x.lanes then some (.vslide v d a b (BitVec.ofNat 8 i.toNat) x m) else none
    | _, _ => none
  | 0x31 => match unpack [5, 5, 5, 1, 3, 1, 2] w with
    | [d, a, b, 0, 0, h, x] => (fin? 32 d).bind fun d => (fin? 32 a).bind fun a => (fin? 32 b).bind fun b =>
      (width? x).map fun x => .vzip v d a b (flag h) x
    | _ => none
  | 0x32 => match unpack [5, 5, 5, 1, 3, 1, 2] w with
    | [d, a, b, 0, 0, h, x] => (fin? 32 d).bind fun d => (fin? 32 a).bind fun a => (fin? 32 b).bind fun b =>
      (width? x).map fun x => .vunzip v d a b (flag h) x
    | _ => none
  | 0x33 => match unpack [5, 5, 5, 1, 3, 1, 2] w with
    | [d, a, b, 0, k, 0, x] => (fin? 32 d).bind fun d => (fin? 32 a).bind fun a =>
      match k with
      | 0 => if b = 0 && x == 0 then some (.vmov v d a) else none
      | 1 => if b = 0 && x == 0 then some (.vmovCross v d a) else none
      | 2 => if b = 0 then (fin? 4 x).map fun x => .vmovSplat v d a x else none
      | 3 => if x = 0 then (fin? 16 b).map fun c => .vmovChunk v d a c else none
      | _ => none
    | _ => none
  | 0x34 => match unpack [5, 15, 2] w, ext with
    | [d, 0, k], some i => (fin? 32 d).bind fun d =>
      match k with
      | 0 => some (.vliW v d i) | 1 => some (.vliF v d i) | 2 => some (.vliH v d i)
      | _ => if i.toNat < 256 then some (.vliB v d (BitVec.ofNat 8 i.toNat)) else none
    | _, _ => none
  | 0x35 => match unpack [5, 5, 5, 1, 3, 1, 2] w with
    | [d, 0, 0, ix, m, 0, x] => (fin? 32 d).bind fun d => (off? ext ix).bind fun o => (width? x).bind fun x =>
      (fin? 8 m).map fun m => .vidx v d o x m
    | _ => none
  | 0x36 => match unpack fmtA w with
    | [d, a, b, 0, n] => (fin? 32 d).bind fun d => (fin? 32 a).bind fun a => (fin? 32 b).bind fun b =>
      (fin? 64 n).map fun n => .vcrc v d a b n
    | _ => none
  | 0x37 => match unpack [5, 5, 5, 1, 3, 3] w with
    | [d, a, b, ix, 0, op] => (fin? 8 d).bind fun d => (fin? 8 a).bind fun a => (mOpd? ext ix b).bind fun o =>
      match op with
      | 0 => some (.mlogAnd v d a o) | 1 => some (.mlogOr v d a o) | 2 => some (.mlogXor v d a o)
      | 3 => some (.mlogAndn v d a o) | 4 => some (.mlogOrn v d a o) | _ => none
    | _ => none
  | 0x38 => match unpack [5, 5, 5, 1, 5, 1] w with
    | [d, a, 0, 0, 0, x] => (fin? 32 d).bind fun d => (fin? 8 a).map fun a => if x = 0 then .mpop v d a else .mpopFirst v d a
    | _ => none
  | _ => none

/-- M slot (R201–R218). -/
def decodeM (ext : Option (BitVec 16)) (opc w : Nat) : Option Instr :=
  match opc with
  | 0x01 => match unpack [3, 4, 1, 4, 10] w, ext with
    | [t, b, r, ty, 0], some o => (fin? 8 t).bind fun t => (fin? 16 b).bind fun b =>
      if r = 1 then some (.mld t b o (some (BitVec.ofNat 4 ty))) else if ty = 0 then some (.mld t b o none) else none
    | _, _ => none
  | 0x02 => match unpack [3, 4, 1, 4, 10] w, ext with
    | [t, b, r, ty, 0], some o => (fin? 8 t).bind fun t => (fin? 16 b).bind fun b =>
      if r = 1 then (if ty < 13 then some (.mldt t b o (some (BitVec.ofNat 4 ty))) else none)
      else if ty = 0 then some (.mldt t b o none) else none
    | _, _ => none
  | 0x03 => match unpack [3, 4, 15] w, ext with
    | [t, b, 0], some o => (fin? 8 t).bind fun t => (fin? 16 b).map fun b => .mlds t b o
    | _, _ => none
  | 0x04 => match unpack [3, 4, 1, 14] w, ext with
    | [t, b, r, 0], some o => (fin? 8 t).bind fun t => (fin? 16 b).map fun b => .mst t b o (flag r)
    | _, _ => none
  | 0x05 => match unpack [8, 4, 10] w with
    | [t, z, 0] => if t = 0 && z == 0 then none else some (.mzero (BitVec.ofNat 8 t) (BitVec.ofNat 4 z))
    | _ => none
  | 0x06 => match unpack [2, 3, 3, 14] w with
    | [z, a, b, 0] => (fin? 4 z).bind fun z => (fin? 8 a).bind fun a => (fin? 8 b).map fun b => .mma z a b
    | _ => none
  | 0x07 => match unpack [2, 3, 3, 14] w with
    | [z, a, b, 0] => (fin? 4 z).bind fun z => (fin? 8 a).bind fun a => (fin? 8 b).map fun b => .mmo z a b
    | _ => none
  | 0x08 => match unpack [2, 2, 3, 4, 1, 1, 1, 1, 2, 1, 4] w, ext with
    | [z, zo, tt, bk, rs, cs, out, bias, rm, sat, 0], some o =>
      (readout? z zo tt rs cs out bias).bind fun x => (fin? 4 z).bind fun z => (fin? 16 bk).bind fun bk =>
      (rmode? rm).map fun rm => .zout z x.1 x.2.1 bk o x.2.2 rm (flag sat)
    | _, _ => none
  | 0x09 => match unpack [2, 2, 3, 3, 1, 1, 1, 1, 1, 2, 1, 4] w with
    | [z, zo, tt, td, h, rs, cs, out, bias, rm, sat, fm] =>
      (readout? z zo tt rs cs out bias).bind fun x => (fin? 4 z).bind fun z => (fin? 8 td).bind fun td =>
      (rmode? rm).bind fun rm => (vfmt? fm).bind fun fm =>
      if h = 1 && !fm.half then none else some (.zoutv z x.1 x.2.1 td (flag h) x.2.2 rm (flag sat) fm)
    | _ => none
  | 0x0A => match unpack [2, 4, 2, 14] w, ext with
    | [z, b, ty, 0], some o => (fin? 4 z).bind fun z => (fin? 16 b).bind fun b => (fin? 3 ty).map fun ty => .zld z b o ty
    | _, _ => none
  | 0x0B => match unpack [2, 4, 16] w, ext with
    | [z, b, 0], some o => (fin? 4 z).bind fun z => (fin? 16 b).map fun b => .zst z b o
    | _, _ => none
  | 0x0C => match unpack [4, 18] w, ext with
    | [b, 0], some o => (fin? 16 b).map fun b => .zstat b o
    | _, _ => none
  | 0x0D => match unpack [4, 2, 16] w with
    | [z, ty, 0] => if z = 0 then none else some (.zclr (BitVec.ofNat 4 z) (BitVec.ofNat 2 ty))
    | _ => none
  | _ => none

/-- A landing atomic (R231). -/
def amoOp (op : Nat) (d a : Fin 32) (ls : Fin 64) (l : Landing) (q : Option Scope) : Option Instr :=
  match op with
  | 0 => some (.amoAdd d a ls l q) | 1 => some (.amoAnd d a ls l q) | 2 => some (.amoOr d a ls l q) | 3 => some (.amoXor d a ls l q)
  | 4 => some (.amoMax d a ls l q) | 5 => some (.amoMin d a ls l q) | 6 => some (.amoMaxn d a ls l q) | 7 => some (.amoSwap d a ls l q)
  | _ => none

/-- L slot (R225–R241). -/
def decodeL (ext : Option (BitVec 16)) (opc w : Nat) : Option Instr :=
  match opc with
  | 0x01 => match unpack [5, 5, 5, 1, 4, 2] w with
    | [d, a, 0, ix, dk, 0] => (fin? 32 d).bind fun d => (fin? 32 a).bind fun a => (off? ext ix).bind fun o =>
      (dkind? dk).map fun dk => .ldl d a o dk
    | _ => none
  | 0x02 => match unpack [5, 5, 5, 1, 4, 2] w with
    | [d, a, 0, ix, dk, 0] => (fin? 32 d).bind fun d => (fin? 32 a).bind fun a => (off? ext ix).bind fun o =>
      (dkind? dk).bind fun dk => if dk.storable then some (.stl d a o dk) else none
    | _ => none
  | 0x03 => match unpack [5, 5, 6, 2, 2, 2] w with
    | [d, a, ls, dk, ord, x] => (fin? 32 d).bind fun d => (fin? 32 a).bind fun a => (fin? 64 ls).bind fun ls => (landing? ext).bind fun l =>
      (dkind2? dk).bind fun dk => (ldQual? ord x).map fun q => .ldg d a ls l dk q
    | _ => none
  | 0x04 => match unpack [5, 5, 2, 2, 1, 1, 4, 2] w with
    | [d, a, ord, sc, 0, ix, dk, h] => (fin? 32 d).bind fun d => (fin? 32 a).bind fun a => (off? ext ix).bind fun o =>
      (dkind? dk).bind fun dk => (stQual? ord sc h).bind fun q => if dk.storable then some (.stg d a o dk q) else none
    | _ => none
  | 0x05 => match unpack [5, 5, 6, 2, 2, 2] w with
    | [d, a, ls, dk, ord, 0] => (fin? 32 d).bind fun d => (fin? 32 a).bind fun a => (fin? 64 ls).bind fun ls => (landing? ext).bind fun l =>
      (dkind2? dk).bind fun dk => (vord? ord).map fun q => .ldv d a ls l dk q
    | _ => none
  | 0x06 => match unpack [5, 5, 2, 3, 1, 4, 2] w with
    | [d, a, ord, 0, ix, dk, 0] => (fin? 32 d).bind fun d => (fin? 32 a).bind fun a => (off? ext ix).bind fun o =>
      (dkind? dk).bind fun dk => (vord? ord).bind fun q => if dk.storable then some (.stv d a o dk q) else none
    | _ => none
  | 0x07 => match unpack [5, 5, 6, 3, 1, 2] w with
    | [d, a, ls, op, ar, sc] => (fin? 32 d).bind fun d => (fin? 32 a).bind fun a => (fin? 64 ls).bind fun ls => (landing? ext).bind fun l =>
      (amoQual? ar sc).bind fun q => amoOp op d a ls l q
    | _ => none
  | 0x08 => match unpack [5, 5, 6, 2, 2, 2] w with
    | [d, a, ls, ord, sc, 0] => (fin? 32 d).bind fun d => (fin? 32 a).bind fun a => (fin? 64 ls).bind fun ls => (landing? ext).bind fun l =>
      (casQual? ord sc).bind fun q => if d.val % 2 = 0 then some (.cas d a ls l q) else none
    | _ => none
  | 0x09 => match unpack [2, 3, 17] w with
    | [k, sc, 0] => (fin? 5 sc).bind fun sc =>
      match k with
      | 0 => some (.fenceAcq sc) | 1 => some (.fenceRel sc) | 2 => some (.fenceAr sc) | _ => none
    | _ => none
  | 0x0A => match unpack [5, 5, 5, 1, 4, 2] w with
    | [d, a, 0, ix, dk, 0] => (fin? 32 d).bind fun d => (fin? 32 a).bind fun a => (off? ext ix).bind fun o =>
      (dkind? dk).bind fun dk => if dk.isp then some (.sti d a o dk) else none
    | _ => none
  | 0x0B => match unpack [6, 3, 13] w with
    | [ls, p, 0] => (fin? 64 ls).bind fun ls => (fin? 8 p).map fun p => .lget ls p
    | _ => none
  | 0x0C => match unpack [6, 16] w with
    | [ls, 0] => (fin? 64 ls).map .lwait
    | _ => none
  | 0x0D => match unpack [5, 5, 5, 1, 6] w with
    | [0, a, 0, ix, 0] => (fin? 32 a).bind fun a => (off? ext ix).map fun o => .zline a o
    | _ => none
  | 0x0E => match unpack [5, 5, 5, 1, 4, 2] w with
    | [0, a, 0, ix, 0, h] => (fin? 32 a).bind fun a => (off? ext ix).bind fun o =>
      match h with
      | 0 => some (.pref a o false) | 3 => some (.pref a o true) | _ => none
    | _ => none
  | 0x0F => match unpack fmtA w with
    | [0, a, b, ix, 0] => (fin? 32 a).bind fun a => (sOpd? ext ix b).map fun o => .launch a o
    | _ => none
  | 0x10 => match unpack fmtA w with
    | [0, a, 0, ix, 0] => (fin? 32 a).bind fun a => (off? ext ix).map fun o => .evpost a o
    | _ => none
  | _ => none

/-- A command with a transfer record (R255). -/
def ceRec (w : Nat) (f : Fin 32 → RecSrc → Instr) : Option Instr :=
  match unpack [5, 2, 5, 10] w with
  | [tp, rs, a, 0] => (fin? 32 tp).bind fun tp => (recSrc? rs a).map fun r => f tp r
  | _ => none

/-- D slot (R255, R272–R274). -/
def decodeD (opc w : Nat) : Option Instr :=
  match opc with
  | 0x01 => ceRec w .ceGo | 0x02 => ceRec w .ceGor | 0x05 => ceRec w .ceIsp | 0x06 => ceRec w .ceFill
  | 0x07 => ceRec w .ceGat | 0x08 => ceRec w .ceSca | 0x09 => ceRec w .ceRed
  | 0x03 => match unpack [5, 5, 12] w with
    | [tp, ts, 0] => (fin? 32 tp).bind fun tp => (fin? 32 ts).map fun ts => .ceRep tp ts
    | _ => none
  | 0x04 => match unpack [5, 17] w with
    | [k, 0] => (fin? 32 k).map .ceCan
    | _ => none
  | 0x0A => match unpack [5, 5, 3, 9] w with
    | [d, k, s, 0] => (fin? 32 d).bind fun d => (fin? 32 k).bind fun k =>
      match s with
      | 0 => some (.ceStatSt d k) | 1 => some (.ceStatBytes d k) | 2 => some (.ceStatEv d k) | 3 => some (.ceStatCrc d k)
      | 4 => some (.ceStatTag d k) | _ => none
    | _ => none
  | _ => none

/-- X slot (R243–R253). -/
def decodeX (ext : Option (BitVec 16)) (opc w : Nat) : Option Instr :=
  match opc with
  | 0x01 => match unpack [2, 5, 7, 8] w with
    | [k, r, n, 0] => (xsrc? ext k r).bind fun x => (fin? 128 n).map fun n => .snd x n
    | _ => none
  | 0x02 => match unpack [2, 5, 7, 8] w with
    | [k, r, n, 0] => (xsrc? ext k r).bind fun x => (fin? 128 n).map fun n => .rcv x n
    | _ => none
  | 0x03 => match unpack [2, 5, 5, 7, 2, 1] w, ext with
    | [k, r, ta, n, ty, op], some i => (rsrc? k r).bind fun x => (fin? 32 ta).bind fun ta => (fin? 128 n).bind fun n =>
      (fin? 4 ty).bind fun ty => (fin? 16 i.toNat).bind fun sem =>
      if ty.val = 3 && k != 2 then none else some (.sndr x ta n ty (flag op) sem)
    | _, _ => none
  | 0x04 => match unpack [3, 4, 8, 7] w with
    | [p, s, n, 0] => (fin? 8 p).bind fun p => (fin? 16 s).bind fun s => if n = 0 then none else some (.semw p s (BitVec.ofNat 8 n))
    | _ => none
  | 0x05 => match unpack [5, 4, 13] w with
    | [d, s, 0] => (fin? 32 d).bind fun d => (fin? 16 s).map fun s => .semp d s
    | _ => none
  | 0x06 => match unpack [4, 5, 13] w with
    | [s, a, 0] => (fin? 16 s).bind fun s => (fin? 32 a).map fun a => .semi s a
    | _ => none
  | 0x07 => match unpack [4, 7, 8, 3] w with
    | [s, r, n, 0] => (fin? 16 s).bind fun s => (fin? 128 r).bind fun r =>
      if n = 0 then none else some (.semv s r (BitVec.ofNat 8 n))
    | _ => none
  | 0x08 => match unpack [2, 5, 1, 14] w with
    | [k, r, x, 0] => (xsrc? ext k r).map fun s => .bcst s (flag x)
    | _ => none
  | 0x09 => match unpack [2, 5, 5, 4, 6] w with
    | [k, r, fa, s, 0] => (fin? 3 k).bind fun k => (fin? 32 r).bind fun r => (fin? 32 fa).bind fun fa => (fin? 16 s).map fun s => .xfar k r fa s
    | _ => none
  | 0x0A => match unpack [5, 5, 6, 2, 4] w with
    | [d, a, ls, dk, s] => (fin? 32 d).bind fun d => (fin? 32 a).bind fun a => (fin? 64 ls).bind fun ls => (landing? ext).bind fun l =>
      (dkind2? dk).bind fun dk => (fin? 16 s).map fun s => .xrcvf d a ls l dk s
    | _ => none
  | _ => none

/-- What a service core lacks: an operation of the K, S or L slot that needs vector files, a scratchpad, an ISP half, tokens,
landing slots, a work identifier or a panel raises the illegal-bundle trap on it (R319, R321; for the forms that R319 does not name,
by analogy: DEDUCED, log entry 14). -/
def svcAllowed : Instr → Bool
  | .swapb _ | .ifence | .stitch _ _ | .tkw _ | .tkpPend _ _ | .tkpDone _ _ | .tkpPart _ _ | .tkpFail _ _ | .tkpFree _ _ | .tkpRes _ _
  | .vclust _ _ | .rdsc _ | .rdscHi _ | .widfField _ _ | .widfGang _ | .widfCut _ | .smovVa _ _ _ | .smovVb _ _ _ | .smovMa _ _
  | .smovMb _ _ | .dset _ _ | .dsetLo _ _ | .dsetHi _ _ | .ldv _ _ _ _ _ _ | .stv _ _ _ _ _ | .sti _ _ _ _ | .lget _ _ | .lwait _
  | .launch _ _ | .evpost _ _ => false
  | .chkp c _ _ => c = .s
  | .ldl _ _ _ k | .stl _ _ _ k | .stg _ _ _ k _ => k.scalar
  | .ldg _ _ _ _ k _ => match k with
    | .i64 | .n32 => true
    | _ => false
  | _ => true

/-- One slot word (R123, R129–R131): slot 0–7 and the word, for a tile or a service core. -/
noncomputable def decodeSlot (svc : Bool) (ext : Option (BitVec 16)) (len : Nat) (slot : Fin 8) (w : Nat) : Option Op :=
  match unpack [6, 1, 3, 22] w with
  | [opc, gn, gp, x] =>
    if gn = 1 && gp == 0 then none
    else
      let op : Option SlotOp :=
        match slot.val with
        | 0 => (decodeK ext len opc x).map .ins
        | 1 => if 0x30 ≤ opc && decide (opc ≤ 0x3D) then (if svc then decodePriv opc x else none) else (decodeS ext opc x).map .ins
        | 2 => (decodeV .a ext opc x).map .ins
        | 3 => (decodeV .b ext opc x).map .ins
        | 4 => (decodeM ext opc x).map .ins
        | 5 => (decodeL ext opc x).map .ins
        | 6 => (decodeD opc x).map .ins
        | _ => (decodeX ext opc x).map .ins
      (fin? 8 gp).bind fun gp => op.bind fun op =>
        match svc, op with
        | true, .ins i => if svcAllowed i then some { slot := slot, gn := flag gn, gp := gp, op := op } else none
        | _, _ => some { slot := slot, gn := flag gn, gp := gp, op := op }
  | _ => none

/-- Set bits of a number below 256. -/
def popCount8 (v : Nat) : Nat := sumListN ((List.range 8).map fun i => v / 2 ^ i % 2)
where
  /-- Sum of a list. -/
  sumListN : List Nat → Nat
    | [] => 0
    | x :: r => x + sumListN r

/-- The slots present in a bundle, lowest first (R118). -/
def presentSlots (pres : Nat) : List (Fin 8) := (List.finRange 8).filter fun s => pres / 2 ^ s.val % 2 == 1

/-- Length of a bundle in bytes, from its header word (R118). -/
def bundleLen (h : Nat) : Nat := 4 + 4 * popCount8 (h % 256)

/-- Decodes slot words in presence order; the first illegal one is reported (R129). -/
noncomputable def decodeSlots (svc : Bool) (ext : Option (BitVec 16)) (len : Nat) : List (Fin 8) → List Nat → List Op → (List Op) ⊕ Nat
  | s :: ss, w :: ws, acc =>
    match decodeSlot svc ext len s w with
    | some o => decodeSlots svc ext len ss ws (acc ++ [o])
    | none => .inr s.val
  | _, _, acc => .inl acc

/-- Decodes what stands at the first of `words`, the words from a fetch address to the end of its 64-byte line (R119–R121, R129,
R130). -/
noncomputable def decodeBundle (svc : Bool) (words : List Nat) : Decoded :=
  match words with
  | [] => .illegal 9
  | h :: rest =>
    if h = 0 then .pad
    else
      let pres := h % 256
      let sync := h / 2 ^ 8 % 8
      let ext := h / 2 ^ 11 % 2
      let nopn := h / 2 ^ 12 % 2
      let res := h / 2 ^ 13 % 8
      let imm := h / 2 ^ 16 % 2 ^ 16
      let slots := presentSlots pres
      if rest.length < slots.length then .illegal 9
      else if res != 0 then .illegal 8
      else if nopn = 1 then
        if pres = 0 && sync == 0 && ext == 0 then .bundle 4 (.idle (BitVec.ofNat 16 imm)) else .illegal 8
      else if ext = 0 && imm != 0 then .illegal 8
      else if svc && (sync != 0 || decide (1 < slots.length) || !slots.all fun s => s = 0 || s = 1 || s = 5) then .illegal 8
      else if pres = 0 then
        if ext = 0 then .bundle 4 (.barrier (BitVec.ofNat 3 sync)) else .illegal 8
      else
        let x := if ext = 1 then some (BitVec.ofNat 16 imm) else none
        match decodeSlots svc x (4 + 4 * slots.length) slots rest [] with
        | .inl ops => .bundle (4 + 4 * slots.length) (.ops (Fin.ofNat 8 sync) ops)
        | .inr s => .illegal s

/-! The encoder, from the same tables -/

/-- The parts of a slot word: slot, opcode, operand bits and the imm16 that it needs. -/
structure SlotWord where
  slot : Nat
  opc : Nat
  bits : Nat
  ext : Option (BitVec 16)
  deriving DecidableEq, Repr

/-- The slot word of an operation, unguarded; none for what is no slot word (bundle forms and events, and `mcall` and `plc`, whose
function stands in a register). -/
def encodeSlot : Instr → Option SlotWord
  | .br off => some ⟨0, 1, off.toNat, none⟩
  | .jr a o => some ⟨0, 2, packA 0 a.val 0 (ixOf o) 0, o⟩
  | .call off => some ⟨0, 3, off.toNat, none⟩
  | .ret => some ⟨0, 4, 0, none⟩
  | .loop a i => some ⟨0, 5, packB 0 a.val i.toNat, none⟩
  | .loopi c o => some ⟨0, 6, packC 0 c.toNat, some o⟩
  | .lbrk => some ⟨0, 7, 0, none⟩
  | .lnext => some ⟨0, 8, 0, none⟩
  | .swapb off => some ⟨0, 9, off.toNat, none⟩
  | .ifence => some ⟨0, 10, 0, none⟩
  | .stitch m b => some ⟨0, 11, pack [(1, 0), (21, m.toNat)], some b⟩
  | .chkp c r i => some ⟨0, 12, packB c.code r.val i.toNat, none⟩
  | .tkw k => some ⟨0, 13, pack [(17, 0), (5, k.val)], none⟩
  | .tkpPend p k => some ⟨0, 14, pack [(3, p.val), (11, 0), (3, 0), (5, k.val)], none⟩
  | .tkpDone p k => some ⟨0, 14, pack [(3, p.val), (11, 0), (3, 1), (5, k.val)], none⟩
  | .tkpPart p k => some ⟨0, 14, pack [(3, p.val), (11, 0), (3, 2), (5, k.val)], none⟩
  | .tkpFail p k => some ⟨0, 14, pack [(3, p.val), (11, 0), (3, 3), (5, k.val)], none⟩
  | .tkpFree p k => some ⟨0, 14, pack [(3, p.val), (11, 0), (3, 4), (5, k.val)], none⟩
  | .tkpRes p k => some ⟨0, 14, pack [(3, p.val), (11, 0), (3, 5), (5, k.val)], none⟩
  | .vclust vb va => some ⟨0, 15, pack [(14, 0), (4, vb.toNat), (4, va.toNat)], none⟩
  | .halt => some ⟨0, 16, 0, none⟩
  | .trap c => some ⟨0, 17, packC 0 c.toNat, none⟩
  | .brk c => some ⟨0, 18, packC 0 c.toNat, none⟩
  | .kadd d a o => some ⟨0, 19, packA d.val a.val o.b (ixOf o.ext) 0, o.ext⟩
  | .kli d i => some ⟨0, 20, packC d.val i.toNat, none⟩
  | .kmov d a => some ⟨0, 21, packA d.val a.val 0 0 0, none⟩
  | .kmovHi d a => some ⟨0, 21, packA d.val a.val 0 0 1, none⟩
  | .psetAnd d a b => some ⟨0, 22, packA d.val a.val b.val 0 0, none⟩
  | .psetOr d a b => some ⟨0, 22, packA d.val a.val b.val 0 1, none⟩
  | .psetXor d a b => some ⟨0, 22, packA d.val a.val b.val 0 2, none⟩
  | .psetAndn d a b => some ⟨0, 22, packA d.val a.val b.val 0 3, none⟩
  | .psetOrn d a b => some ⟨0, 22, packA d.val a.val b.val 0 4, none⟩
  | .psetEq d a o => some ⟨0, 22, packA d.val a.val o.b (ixOf o.ext) 16, o.ext⟩
  | .psetNe d a o => some ⟨0, 22, packA d.val a.val o.b (ixOf o.ext) 17, o.ext⟩
  | .psetLt d a o => some ⟨0, 22, packA d.val a.val o.b (ixOf o.ext) 18, o.ext⟩
  | .psetLtn d a o => some ⟨0, 22, packA d.val a.val o.b (ixOf o.ext) 19, o.ext⟩
  | .psetNz d a => some ⟨0, 22, packA d.val a.val 0 0 20, none⟩
  | .rdsc d => some ⟨0, 23, packA d.val 0 0 0 0, none⟩
  | .rdscHi d => some ⟨0, 23, packA d.val 0 0 0 1, none⟩
  | .rddcc d => some ⟨0, 24, packA d.val 0 0 0 0, none⟩
  | .rddccHi d => some ⟨0, 24, packA d.val 0 0 0 1, none⟩
  | .add d a o => some ⟨1, 1, packA d.val a.val o.b (ixOf o.ext) 0, o.ext⟩
  | .sub d a o => some ⟨1, 2, packA d.val a.val o.b (ixOf o.ext) 0, o.ext⟩
  | .mul d a o => some ⟨1, 3, packA d.val a.val o.b (ixOf o.ext) 0, o.ext⟩
  | .mulh d a o => some ⟨1, 4, packA d.val a.val o.b (ixOf o.ext) 0, o.ext⟩
  | .mulhn d a o => some ⟨1, 5, packA d.val a.val o.b (ixOf o.ext) 0, o.ext⟩
  | .div d a o => some ⟨1, 6, packA d.val a.val o.b (ixOf o.ext) 0, o.ext⟩
  | .divn d a o => some ⟨1, 7, packA d.val a.val o.b (ixOf o.ext) 0, o.ext⟩
  | .rem d a o => some ⟨1, 8, packA d.val a.val o.b (ixOf o.ext) 0, o.ext⟩
  | .remn d a o => some ⟨1, 9, packA d.val a.val o.b (ixOf o.ext) 0, o.ext⟩
  | .and d a o => some ⟨1, 10, packA d.val a.val o.b (ixOf o.ext) 0, o.ext⟩
  | .or d a o => some ⟨1, 11, packA d.val a.val o.b (ixOf o.ext) 0, o.ext⟩
  | .xor d a o => some ⟨1, 12, packA d.val a.val o.b (ixOf o.ext) 0, o.ext⟩
  | .andn d a o => some ⟨1, 13, packA d.val a.val o.b (ixOf o.ext) 0, o.ext⟩
  | .shl d a o => some ⟨1, 14, packA d.val a.val o.b (ixOf o.ext) 0, o.ext⟩
  | .shr d a o => some ⟨1, 15, packA d.val a.val o.b (ixOf o.ext) 0, o.ext⟩
  | .sra d a o => some ⟨1, 16, packA d.val a.val o.b (ixOf o.ext) 0, o.ext⟩
  | .rot d a o => some ⟨1, 17, packA d.val a.val o.b (ixOf o.ext) 0, o.ext⟩
  | .clz d a => some ⟨1, 18, packA d.val a.val 0 0 0, none⟩
  | .ctz d a => some ⟨1, 19, packA d.val a.val 0 0 0, none⟩
  | .popc d a => some ⟨1, 20, packA d.val a.val 0 0 0, none⟩
  | .min d a o => some ⟨1, 21, packA d.val a.val o.b (ixOf o.ext) 0, o.ext⟩
  | .max d a o => some ⟨1, 22, packA d.val a.val o.b (ixOf o.ext) 0, o.ext⟩
  | .minn d a o => some ⟨1, 23, packA d.val a.val o.b (ixOf o.ext) 0, o.ext⟩
  | .maxn d a o => some ⟨1, 24, packA d.val a.val o.b (ixOf o.ext) 0, o.ext⟩
  | .cmpEq d a o => some ⟨1, 25, packA d.val a.val o.b (ixOf o.ext) 0, o.ext⟩
  | .cmpNe d a o => some ⟨1, 25, packA d.val a.val o.b (ixOf o.ext) 1, o.ext⟩
  | .cmpLt d a o => some ⟨1, 25, packA d.val a.val o.b (ixOf o.ext) 2, o.ext⟩
  | .cmpGe d a o => some ⟨1, 25, packA d.val a.val o.b (ixOf o.ext) 3, o.ext⟩
  | .cmpLtn d a o => some ⟨1, 25, packA d.val a.val o.b (ixOf o.ext) 4, o.ext⟩
  | .cmpGen d a o => some ⟨1, 25, packA d.val a.val o.b (ixOf o.ext) 5, o.ext⟩
  | .cmpTst d a o => some ⟨1, 25, packA d.val a.val o.b (ixOf o.ext) 6, o.ext⟩
  | .sel d p a o => some ⟨1, 26, pack [(5, d.val), (5, a.val), (5, o.b), (1, ixOf o.ext), (3, 0), (3, p.val)], o.ext⟩
  | .li d i => some ⟨1, 27, packC d.val i.toNat, none⟩
  | .lih d i => some ⟨1, 28, pack [(5, d.val), (1, 0), (16, i.toNat)], none⟩
  | .bfx d a o => some ⟨1, 29, packA d.val a.val o.b (ixOf o.ext) 0, o.ext⟩
  | .bfxS d a o => some ⟨1, 29, packA d.val a.val o.b (ixOf o.ext) 1, o.ext⟩
  | .bfi d a o => some ⟨1, 30, packA d.val a.val o.b (ixOf o.ext) 0, o.ext⟩
  | .sextB d a => some ⟨1, 31, packA d.val a.val 0 0 0, none⟩
  | .sextH d a => some ⟨1, 31, packA d.val a.val 0 0 1, none⟩
  | .sextW d a => some ⟨1, 31, packA d.val a.val 0 0 2, none⟩
  | .sextBn d a => some ⟨1, 31, packA d.val a.val 0 0 3, none⟩
  | .sextHn d a => some ⟨1, 31, packA d.val a.val 0 0 4, none⟩
  | .sextWn d a => some ⟨1, 31, packA d.val a.val 0 0 5, none⟩
  | .widfField d k => some ⟨1, 32, packA d.val 0 0 0 k.val, none⟩
  | .widfGang d => some ⟨1, 32, packA d.val 0 0 0 6, none⟩
  | .widfCut d => some ⟨1, 32, packA d.val 0 0 0 7, none⟩
  | .smovK d a => some ⟨1, 33, packA d.val a.val 0 0 0, none⟩
  | .smovVa d a c => some ⟨1, 33, packA d.val a.val c.val 0 1, none⟩
  | .smovVb d a c => some ⟨1, 33, packA d.val a.val c.val 0 2, none⟩
  | .smovPred d => some ⟨1, 33, packA d.val 0 0 0 3, none⟩
  | .smovMa d a => some ⟨1, 33, packA d.val a.val 0 0 4, none⟩
  | .smovMb d a => some ⟨1, 33, packA d.val a.val 0 0 5, none⟩
  | .mvst n a => some ⟨1, 34, pack [(5, 0), (5, a.val), (2, 0), (10, n.toNat)], none⟩
  | .mvfs d n => some ⟨1, 35, pack [(5, d.val), (5, 0), (2, 0), (10, n.toNat)], none⟩
  | .dset d a => some ⟨1, 36, pack [(5, d.val), (5, a.val), (10, 0), (2, 0)], none⟩
  | .dsetLo d a => some ⟨1, 36, pack [(5, d.val), (5, a.val), (10, 0), (2, 1)], none⟩
  | .dsetHi d a => some ⟨1, 36, pack [(5, d.val), (5, a.val), (10, 0), (2, 2)], none⟩
  | .vadd v d a o ty m => some ⟨v.slot, 1, pack [(5, d.val), (5, a.val), (5, o.b), (1, ixOf o.ext), (3, m.val), (3, ty.code)], o.ext⟩
  | .vsub v d a o ty m => some ⟨v.slot, 2, pack [(5, d.val), (5, a.val), (5, o.b), (1, ixOf o.ext), (3, m.val), (3, ty.code)], o.ext⟩
  | .vmul v d a o ty m => some ⟨v.slot, 3, pack [(5, d.val), (5, a.val), (5, o.b), (1, ixOf o.ext), (3, m.val), (3, ty.code)], o.ext⟩
  | .vmulh v d a o ty m => some ⟨v.slot, 4, pack [(5, d.val), (5, a.val), (5, o.b), (1, ixOf o.ext), (3, m.val), (3, ty.code)], o.ext⟩
  | .vmin v d a o ty m => some ⟨v.slot, 5, pack [(5, d.val), (5, a.val), (5, o.b), (1, ixOf o.ext), (3, m.val), (3, ty.code)], o.ext⟩
  | .vmax v d a o ty m => some ⟨v.slot, 6, pack [(5, d.val), (5, a.val), (5, o.b), (1, ixOf o.ext), (3, m.val), (3, ty.code)], o.ext⟩
  | .vshl v d a o ty m => some ⟨v.slot, 13, pack [(5, d.val), (5, a.val), (5, o.b), (1, ixOf o.ext), (3, m.val), (3, ty.code)], o.ext⟩
  | .vshr v d a o ty m => some ⟨v.slot, 14, pack [(5, d.val), (5, a.val), (5, o.b), (1, ixOf o.ext), (3, m.val), (3, ty.code)], o.ext⟩
  | .vsra v d a o ty m => some ⟨v.slot, 15, pack [(5, d.val), (5, a.val), (5, o.b), (1, ixOf o.ext), (3, m.val), (3, ty.code)], o.ext⟩
  | .vadds v d a o ty m => some ⟨v.slot, 18, pack [(5, d.val), (5, a.val), (5, o.b), (1, ixOf o.ext), (3, m.val), (3, ty.code)], o.ext⟩
  | .vsubs v d a o ty m => some ⟨v.slot, 19, pack [(5, d.val), (5, a.val), (5, o.b), (1, ixOf o.ext), (3, m.val), (3, ty.code)], o.ext⟩
  | .vabs v d a ty m => some ⟨v.slot, 7, pack [(5, d.val), (5, a.val), (5, 0), (1, 0), (3, m.val), (3, ty.code)], none⟩
  | .vneg v d a ty m => some ⟨v.slot, 8, pack [(5, d.val), (5, a.val), (5, 0), (1, 0), (3, m.val), (3, ty.code)], none⟩
  | .vredsum v d a ty m => some ⟨v.slot, 41, pack [(5, d.val), (5, a.val), (5, 0), (1, 0), (3, m.val), (3, ty.code)], none⟩
  | .vredmax v d a ty m => some ⟨v.slot, 43, pack [(5, d.val), (5, a.val), (5, 0), (1, 0), (3, m.val), (3, ty.code)], none⟩
  | .vredmin v d a ty m => some ⟨v.slot, 44, pack [(5, d.val), (5, a.val), (5, 0), (1, 0), (3, m.val), (3, ty.code)], none⟩
  | .vand v d a o m => some ⟨v.slot, 9, pack [(5, d.val), (5, a.val), (5, o.b), (1, ixOf o.ext), (3, m.val), (3, 0)], o.ext⟩
  | .vor v d a o m => some ⟨v.slot, 10, pack [(5, d.val), (5, a.val), (5, o.b), (1, ixOf o.ext), (3, m.val), (3, 0)], o.ext⟩
  | .vxor v d a o m => some ⟨v.slot, 11, pack [(5, d.val), (5, a.val), (5, o.b), (1, ixOf o.ext), (3, m.val), (3, 0)], o.ext⟩
  | .vsel v d a o m => some ⟨v.slot, 17, pack [(5, d.val), (5, a.val), (5, o.b), (1, ixOf o.ext), (3, m.val), (3, 0)], o.ext⟩
  | .vnot v d a m => some ⟨v.slot, 12, pack [(5, d.val), (5, a.val), (5, 0), (1, 0), (3, m.val), (3, 0)], none⟩
  | .vcmpEq v d a o ty => some ⟨v.slot, 16, pack [(5, d.val), (5, a.val), (5, o.b), (1, ixOf o.ext), (3, 0), (3, ty.code)], o.ext⟩
  | .vcmpNe v d a o ty => some ⟨v.slot, 16, pack [(5, d.val), (5, a.val), (5, o.b), (1, ixOf o.ext), (3, 1), (3, ty.code)], o.ext⟩
  | .vcmpLt v d a o ty => some ⟨v.slot, 16, pack [(5, d.val), (5, a.val), (5, o.b), (1, ixOf o.ext), (3, 2), (3, ty.code)], o.ext⟩
  | .vcmpLe v d a o ty => some ⟨v.slot, 16, pack [(5, d.val), (5, a.val), (5, o.b), (1, ixOf o.ext), (3, 3), (3, ty.code)], o.ext⟩
  | .vcmpGt v d a o ty => some ⟨v.slot, 16, pack [(5, d.val), (5, a.val), (5, o.b), (1, ixOf o.ext), (3, 4), (3, ty.code)], o.ext⟩
  | .vcmpGe v d a o ty => some ⟨v.slot, 16, pack [(5, d.val), (5, a.val), (5, o.b), (1, ixOf o.ext), (3, 5), (3, ty.code)], o.ext⟩
  | .vdot4 v d a b sg s m => some ⟨v.slot, 20, pack [(5, d.val), (5, a.val), (5, b.val), (1, 0), (3, m.val), (1, unflag s), (2, sg.code)], none⟩
  | .vdot8 v d a b s m => some ⟨v.slot, 21, pack [(5, d.val), (5, a.val), (5, b.val), (1, 0), (3, m.val), (1, unflag s), (2, 0)], none⟩
  | .vfadd v d a o ft rm m => some ⟨v.slot, 22, pack [(5, d.val), (5, a.val), (5, o.b), (1, ixOf o.ext), (2, rm.code), (2, ft.code), (2, m.val)], o.ext⟩
  | .vfsub v d a o ft rm m => some ⟨v.slot, 23, pack [(5, d.val), (5, a.val), (5, o.b), (1, ixOf o.ext), (2, rm.code), (2, ft.code), (2, m.val)], o.ext⟩
  | .vfmul v d a o ft rm m => some ⟨v.slot, 24, pack [(5, d.val), (5, a.val), (5, o.b), (1, ixOf o.ext), (2, rm.code), (2, ft.code), (2, m.val)], o.ext⟩
  | .vffma v d a o ft rm m => some ⟨v.slot, 25, pack [(5, d.val), (5, a.val), (5, o.b), (1, ixOf o.ext), (2, rm.code), (2, ft.code), (2, m.val)], o.ext⟩
  | .vfmin v d a o ft m => some ⟨v.slot, 26, pack [(5, d.val), (5, a.val), (5, o.b), (1, ixOf o.ext), (2, 0), (2, ft.code), (2, m.val)], o.ext⟩
  | .vfmax v d a o ft m => some ⟨v.slot, 27, pack [(5, d.val), (5, a.val), (5, o.b), (1, ixOf o.ext), (2, 0), (2, ft.code), (2, m.val)], o.ext⟩
  | .vfsgnJ v d a o ft m => some ⟨v.slot, 28, pack [(5, d.val), (5, a.val), (5, o.b), (1, ixOf o.ext), (2, 0), (2, ft.code), (2, m.val)], o.ext⟩
  | .vfsgnJn v d a o ft m => some ⟨v.slot, 28, pack [(5, d.val), (5, a.val), (5, o.b), (1, ixOf o.ext), (2, 1), (2, ft.code), (2, m.val)], o.ext⟩
  | .vfsgnJx v d a o ft m => some ⟨v.slot, 28, pack [(5, d.val), (5, a.val), (5, o.b), (1, ixOf o.ext), (2, 2), (2, ft.code), (2, m.val)], o.ext⟩
  | .vfcmpEq v d a o ft => some ⟨v.slot, 29, pack [(5, d.val), (5, a.val), (5, o.b), (1, ixOf o.ext), (3, 0), (2, ft.code), (1, 0)], o.ext⟩
  | .vfcmpNe v d a o ft => some ⟨v.slot, 29, pack [(5, d.val), (5, a.val), (5, o.b), (1, ixOf o.ext), (3, 1), (2, ft.code), (1, 0)], o.ext⟩
  | .vfcmpLt v d a o ft => some ⟨v.slot, 29, pack [(5, d.val), (5, a.val), (5, o.b), (1, ixOf o.ext), (3, 2), (2, ft.code), (1, 0)], o.ext⟩
  | .vfcmpLe v d a o ft => some ⟨v.slot, 29, pack [(5, d.val), (5, a.val), (5, o.b), (1, ixOf o.ext), (3, 3), (2, ft.code), (1, 0)], o.ext⟩
  | .vfcmpUn v d a o ft => some ⟨v.slot, 29, pack [(5, d.val), (5, a.val), (5, o.b), (1, ixOf o.ext), (3, 4), (2, ft.code), (1, 0)], o.ext⟩
  | .vfcmpOrd v d a o ft => some ⟨v.slot, 29, pack [(5, d.val), (5, a.val), (5, o.b), (1, ixOf o.ext), (3, 5), (2, ft.code), (1, 0)], o.ext⟩
  | .vfclass v d a ft m => some ⟨v.slot, 30, pack [(5, d.val), (5, a.val), (5, 0), (1, 0), (2, 0), (2, ft.code), (2, m.val)], none⟩
  | .vfredmax v d a ft m => some ⟨v.slot, 45, pack [(5, d.val), (5, a.val), (5, 0), (1, 0), (2, 0), (2, ft.code), (2, m.val)], none⟩
  | .vfredsum v d a ft rm m => some ⟨v.slot, 42, pack [(5, d.val), (5, a.val), (5, 0), (1, 0), (2, rm.code), (2, ft.code), (2, m.val)], none⟩
  | .vexp2 v d a m => some ⟨v.slot, 31, pack [(5, d.val), (5, a.val), (5, 0), (1, 0), (2, 0), (2, 0), (2, m.val)], none⟩
  | .vlog2 v d a m => some ⟨v.slot, 32, pack [(5, d.val), (5, a.val), (5, 0), (1, 0), (2, 0), (2, 0), (2, m.val)], none⟩
  | .vrcp v d a m => some ⟨v.slot, 33, pack [(5, d.val), (5, a.val), (5, 0), (1, 0), (2, 0), (2, 0), (2, m.val)], none⟩
  | .vrsqrt v d a m => some ⟨v.slot, 34, pack [(5, d.val), (5, a.val), (5, 0), (1, 0), (2, 0), (2, 0), (2, m.val)], none⟩
  | .vcvt v d a dt st rm s p => some ⟨v.slot, 35, pack [(5, d.val), (5, a.val), (1, unflag s), (4, st.code), (1, if p.isSome then 1 else 0), (2, rm.code), (4, dt.code)], p.map (fun x => x.setWidth 16)⟩
  | .vpack v d a b k s => some ⟨v.slot, 36, pack [(5, d.val), (5, a.val), (5, b.val), (1, 0), (2, 0), (1, unflag s), (3, k.val)], none⟩
  | .vunpack v d a k h => some ⟨v.slot, 37, pack [(5, d.val), (5, a.val), (5, 0), (1, 0), (2, 0), (1, unflag h), (3, k.val)], none⟩
  | .vquant v d a e n => some ⟨v.slot, 38, pack [(5, d.val), (5, a.val), (5, n.val), (1, 0), (1, 0), (3, 0), (2, e.code)], none⟩
  | .vquantScale v d a e n => some ⟨v.slot, 38, pack [(5, d.val), (5, a.val), (5, n.val), (1, 0), (1, 1), (3, 0), (2, e.code)], none⟩
  | .vscale v d a (.reg b) rm m => some ⟨v.slot, 39, pack [(5, d.val), (5, a.val), (5, b.val), (1, 0), (2, rm.code), (2, 0), (2, m.val)], none⟩
  | .vscale v d a (.imm e) rm m => some ⟨v.slot, 39, pack [(5, d.val), (5, a.val), (5, 0), (1, 1), (2, rm.code), (2, 0), (2, m.val)], some (e.setWidth 16)⟩
  | .vfxd v d a j m => some ⟨v.slot, 40, pack [(5, d.val), (5, a.val), (5, j.val), (1, 0), (3, m.val), (3, 0)], none⟩
  | .vperm v d a b x m => some ⟨v.slot, 46, pack [(5, d.val), (5, a.val), (5, b.val), (1, 0), (3, m.val), (1, 0), (2, x.code)], none⟩
  | .vbcast v d a (.field k) x m => some ⟨v.slot, 47, pack [(5, d.val), (5, a.val), (5, k.val), (1, 0), (3, m.val), (1, 0), (2, x.code)], none⟩
  | .vbcast v d a (.imm i) x m => some ⟨v.slot, 47, pack [(5, d.val), (5, a.val), (5, 0), (1, 1), (3, m.val), (1, 0), (2, x.code)], some i⟩
  | .vslide v d a b n x m => some ⟨v.slot, 48, pack [(5, d.val), (5, a.val), (5, b.val), (1, 0), (3, m.val), (1, 0), (2, x.code)], some (n.setWidth 16)⟩
  | .vzip v d a b h x => some ⟨v.slot, 49, pack [(5, d.val), (5, a.val), (5, b.val), (1, 0), (3, 0), (1, unflag h), (2, x.code)], none⟩
  | .vunzip v d a b h x => some ⟨v.slot, 50, pack [(5, d.val), (5, a.val), (5, b.val), (1, 0), (3, 0), (1, unflag h), (2, x.code)], none⟩
  | .vmov v d a => some ⟨v.slot, 51, pack [(5, d.val), (5, a.val), (5, 0), (1, 0), (3, 0), (1, 0), (2, 0)], none⟩
  | .vmovCross v d a => some ⟨v.slot, 51, pack [(5, d.val), (5, a.val), (5, 0), (1, 0), (3, 1), (1, 0), (2, 0)], none⟩
  | .vmovSplat v d a x => some ⟨v.slot, 51, pack [(5, d.val), (5, a.val), (5, 0), (1, 0), (3, 2), (1, 0), (2, x.val)], none⟩
  | .vmovChunk v d a c => some ⟨v.slot, 51, pack [(5, d.val), (5, a.val), (5, c.val), (1, 0), (3, 3), (1, 0), (2, 0)], none⟩
  | .vliW v d i => some ⟨v.slot, 52, pack [(5, d.val), (15, 0), (2, 0)], some i⟩
  | .vliF v d i => some ⟨v.slot, 52, pack [(5, d.val), (15, 0), (2, 1)], some i⟩
  | .vliH v d i => some ⟨v.slot, 52, pack [(5, d.val), (15, 0), (2, 2)], some i⟩
  | .vliB v d i => some ⟨v.slot, 52, pack [(5, d.val), (15, 0), (2, 3)], some (i.setWidth 16)⟩
  | .vidx v d o x m => some ⟨v.slot, 53, pack [(5, d.val), (5, 0), (5, 0), (1, ixOf o), (3, m.val), (1, 0), (2, x.code)], o⟩
  | .vcrc v d a b n => some ⟨v.slot, 54, packA d.val a.val b.val 0 n.val, none⟩
  | .mlogAnd v d a o => some ⟨v.slot, 55, pack [(5, d.val), (5, a.val), (5, o.b), (1, ixOf o.ext), (3, 0), (3, 0)], o.ext⟩
  | .mlogOr v d a o => some ⟨v.slot, 55, pack [(5, d.val), (5, a.val), (5, o.b), (1, ixOf o.ext), (3, 0), (3, 1)], o.ext⟩
  | .mlogXor v d a o => some ⟨v.slot, 55, pack [(5, d.val), (5, a.val), (5, o.b), (1, ixOf o.ext), (3, 0), (3, 2)], o.ext⟩
  | .mlogAndn v d a o => some ⟨v.slot, 55, pack [(5, d.val), (5, a.val), (5, o.b), (1, ixOf o.ext), (3, 0), (3, 3)], o.ext⟩
  | .mlogOrn v d a o => some ⟨v.slot, 55, pack [(5, d.val), (5, a.val), (5, o.b), (1, ixOf o.ext), (3, 0), (3, 4)], o.ext⟩
  | .mpop v d a => some ⟨v.slot, 56, pack [(5, d.val), (5, a.val), (5, 0), (1, 0), (5, 0), (1, 0)], none⟩
  | .mpopFirst v d a => some ⟨v.slot, 56, pack [(5, d.val), (5, a.val), (5, 0), (1, 0), (5, 0), (1, 1)], none⟩
  | .mld t b o r => some ⟨4, 1, pack [(3, t.val), (4, b.val), (1, if r.isSome then 1 else 0), (4, (r.getD 0#4).toNat), (10, 0)], some o⟩
  | .mldt t b o r => some ⟨4, 2, pack [(3, t.val), (4, b.val), (1, if r.isSome then 1 else 0), (4, (r.getD 0#4).toNat), (10, 0)], some o⟩
  | .mlds t b o => some ⟨4, 3, pack [(3, t.val), (4, b.val), (15, 0)], some o⟩
  | .mst t b o r => some ⟨4, 4, pack [(3, t.val), (4, b.val), (1, unflag r), (14, 0)], some o⟩
  | .mzero t z => some ⟨4, 5, pack [(8, t.toNat), (4, z.toNat), (10, 0)], none⟩
  | .mma z a b => some ⟨4, 6, pack [(2, z.val), (3, a.val), (3, b.val), (14, 0)], none⟩
  | .mmo z a b => some ⟨4, 7, pack [(2, z.val), (3, a.val), (3, b.val), (14, 0)], none⟩
  | .zout z zo tt bk o st rm s => some ⟨4, 8, pack [(2, z.val), (2, optNat zo), (3, optNat tt), (4, bk.val), (1, unflag st.rs), (1, unflag st.cs), (1, unflag zo.isSome), (1, unflag st.bias), (2, rm.code), (1, unflag s), (4, 0)], some o⟩
  | .zoutv z zo tt td h st rm s fm => some ⟨4, 9, pack [(2, z.val), (2, optNat zo), (3, optNat tt), (3, td.val), (1, unflag h), (1, unflag st.rs), (1, unflag st.cs), (1, unflag zo.isSome), (1, unflag st.bias), (2, rm.code), (1, unflag s), (4, fm.code)], none⟩
  | .zld z b o ty => some ⟨4, 10, pack [(2, z.val), (4, b.val), (2, ty.val), (14, 0)], some o⟩
  | .zst z b o => some ⟨4, 11, pack [(2, z.val), (4, b.val), (16, 0)], some o⟩
  | .zstat b o => some ⟨4, 12, pack [(4, b.val), (18, 0)], some o⟩
  | .zclr z ty => some ⟨4, 13, pack [(4, z.toNat), (2, ty.toNat), (16, 0)], none⟩
  | .ldl d a o dk => some ⟨5, 1, pack [(5, d.val), (5, a.val), (5, 0), (1, ixOf o), (4, dk.code), (2, 0)], o⟩
  | .stl d a o dk => some ⟨5, 2, pack [(5, d.val), (5, a.val), (5, 0), (1, ixOf o), (4, dk.code), (2, 0)], o⟩
  | .sti d a o dk => some ⟨5, 10, pack [(5, d.val), (5, a.val), (5, 0), (1, ixOf o), (4, dk.code), (2, 0)], o⟩
  | .ldg d a ls l dk q => some ⟨5, 3, pack [(5, d.val), (5, a.val), (6, ls.val), (2, dk.code), (2, q.ord), (2, q.sub)], some l.ext⟩
  | .stg d a o dk q => some ⟨5, 4, pack [(5, d.val), (5, a.val), (2, q.ord), (2, q.scope), (1, 0), (1, ixOf o), (4, dk.code), (2, q.hint)], o⟩
  | .ldv d a ls l dk q => some ⟨5, 5, pack [(5, d.val), (5, a.val), (6, ls.val), (2, dk.code), (2, q.code), (2, 0)], some l.ext⟩
  | .stv d a o dk q => some ⟨5, 6, pack [(5, d.val), (5, a.val), (2, q.code), (3, 0), (1, ixOf o), (4, dk.code), (2, 0)], o⟩
  | .amoAdd d a ls l q => some ⟨5, 7, pack [(5, d.val), (5, a.val), (6, ls.val), (3, 0), (1, if q.isSome then 1 else 0), (2, arScope q)], some l.ext⟩
  | .amoAnd d a ls l q => some ⟨5, 7, pack [(5, d.val), (5, a.val), (6, ls.val), (3, 1), (1, if q.isSome then 1 else 0), (2, arScope q)], some l.ext⟩
  | .amoOr d a ls l q => some ⟨5, 7, pack [(5, d.val), (5, a.val), (6, ls.val), (3, 2), (1, if q.isSome then 1 else 0), (2, arScope q)], some l.ext⟩
  | .amoXor d a ls l q => some ⟨5, 7, pack [(5, d.val), (5, a.val), (6, ls.val), (3, 3), (1, if q.isSome then 1 else 0), (2, arScope q)], some l.ext⟩
  | .amoMax d a ls l q => some ⟨5, 7, pack [(5, d.val), (5, a.val), (6, ls.val), (3, 4), (1, if q.isSome then 1 else 0), (2, arScope q)], some l.ext⟩
  | .amoMin d a ls l q => some ⟨5, 7, pack [(5, d.val), (5, a.val), (6, ls.val), (3, 5), (1, if q.isSome then 1 else 0), (2, arScope q)], some l.ext⟩
  | .amoMaxn d a ls l q => some ⟨5, 7, pack [(5, d.val), (5, a.val), (6, ls.val), (3, 6), (1, if q.isSome then 1 else 0), (2, arScope q)], some l.ext⟩
  | .amoSwap d a ls l q => some ⟨5, 7, pack [(5, d.val), (5, a.val), (6, ls.val), (3, 7), (1, if q.isSome then 1 else 0), (2, arScope q)], some l.ext⟩
  | .cas d a ls l q => some ⟨5, 8, pack [(5, d.val), (5, a.val), (6, ls.val), (2, q.ord), (2, q.scope), (2, 0)], some l.ext⟩
  | .fenceAcq s => some ⟨5, 9, pack [(2, 0), (3, s.val), (17, 0)], none⟩
  | .fenceRel s => some ⟨5, 9, pack [(2, 1), (3, s.val), (17, 0)], none⟩
  | .fenceAr s => some ⟨5, 9, pack [(2, 2), (3, s.val), (17, 0)], none⟩
  | .lget ls p => some ⟨5, 11, pack [(6, ls.val), (3, p.val), (13, 0)], none⟩
  | .lwait ls => some ⟨5, 12, pack [(6, ls.val), (16, 0)], none⟩
  | .zline a o => some ⟨5, 13, packA 0 a.val 0 (ixOf o) 0, o⟩
  | .pref a o e => some ⟨5, 14, pack [(5, 0), (5, a.val), (5, 0), (1, ixOf o), (4, 0), (2, if e then 3 else 0)], o⟩
  | .launch a o => some ⟨5, 15, packA 0 a.val o.b (ixOf o.ext) 0, o.ext⟩
  | .evpost a o => some ⟨5, 16, packA 0 a.val 0 (ixOf o) 0, o⟩
  | .ceGo tp r => some ⟨6, 1, pack [(5, tp.val), (2, r.code), (5, r.reg), (10, 0)], none⟩
  | .ceGor tp r => some ⟨6, 2, pack [(5, tp.val), (2, r.code), (5, r.reg), (10, 0)], none⟩
  | .ceIsp tp r => some ⟨6, 5, pack [(5, tp.val), (2, r.code), (5, r.reg), (10, 0)], none⟩
  | .ceFill tp r => some ⟨6, 6, pack [(5, tp.val), (2, r.code), (5, r.reg), (10, 0)], none⟩
  | .ceGat tp r => some ⟨6, 7, pack [(5, tp.val), (2, r.code), (5, r.reg), (10, 0)], none⟩
  | .ceSca tp r => some ⟨6, 8, pack [(5, tp.val), (2, r.code), (5, r.reg), (10, 0)], none⟩
  | .ceRed tp r => some ⟨6, 9, pack [(5, tp.val), (2, r.code), (5, r.reg), (10, 0)], none⟩
  | .ceRep tp ts => some ⟨6, 3, pack [(5, tp.val), (5, ts.val), (12, 0)], none⟩
  | .ceCan k => some ⟨6, 4, pack [(5, k.val), (17, 0)], none⟩
  | .ceStatSt d k => some ⟨6, 10, pack [(5, d.val), (5, k.val), (3, 0), (9, 0)], none⟩
  | .ceStatBytes d k => some ⟨6, 10, pack [(5, d.val), (5, k.val), (3, 1), (9, 0)], none⟩
  | .ceStatEv d k => some ⟨6, 10, pack [(5, d.val), (5, k.val), (3, 2), (9, 0)], none⟩
  | .ceStatCrc d k => some ⟨6, 10, pack [(5, d.val), (5, k.val), (3, 3), (9, 0)], none⟩
  | .ceStatTag d k => some ⟨6, 10, pack [(5, d.val), (5, k.val), (3, 4), (9, 0)], none⟩
  | .snd x n => some ⟨7, 1, pack [(2, x.kind), (5, x.reg), (7, n.val), (8, 0)], x.ext⟩
  | .rcv x n => some ⟨7, 2, pack [(2, x.kind), (5, x.reg), (7, n.val), (8, 0)], x.ext⟩
  | .sndr x ta n ty op s => some ⟨7, 3, pack [(2, x.kind), (5, x.reg), (5, ta.val), (7, n.val), (2, ty.val), (1, unflag op)], some (BitVec.ofNat 16 s.val)⟩
  | .semw p s n => some ⟨7, 4, pack [(3, p.val), (4, s.val), (8, n.toNat), (7, 0)], none⟩
  | .semp d s => some ⟨7, 5, pack [(5, d.val), (4, s.val), (13, 0)], none⟩
  | .semi s a => some ⟨7, 6, pack [(4, s.val), (5, a.val), (13, 0)], none⟩
  | .semv s r n => some ⟨7, 7, pack [(4, s.val), (7, r.val), (8, n.toNat), (3, 0)], none⟩
  | .bcst x c => some ⟨7, 8, pack [(2, x.kind), (5, x.reg), (1, unflag c), (14, 0)], x.ext⟩
  | .xfar k r fa s => some ⟨7, 9, pack [(2, k.val), (5, r.val), (5, fa.val), (4, s.val), (6, 0)], none⟩
  | .xrcvf d a ls l dk s => some ⟨7, 10, pack [(5, d.val), (5, a.val), (6, ls.val), (2, dk.code), (4, s.val)], some l.ext⟩
  | .tsr d a => some ⟨1, 48, pack [(5, d.val), (5, a.val), (5, 0), (7, 0)], none⟩
  | .tsrP d a => some ⟨1, 48, pack [(5, d.val), (5, a.val), (5, 0), (7, 1)], none⟩
  | .tsw a b => some ⟨1, 49, pack [(5, 0), (5, a.val), (5, b.val), (7, 0)], none⟩
  | .tswP a b => some ⟨1, 49, pack [(5, 0), (5, a.val), (5, b.val), (7, 1)], none⟩
  | .tresRun a => some ⟨1, 50, pack [(5, 0), (5, a.val), (5, 0), (7, 0)], none⟩
  | .tresStep a => some ⟨1, 50, pack [(5, 0), (5, a.val), (5, 0), (7, 1)], none⟩
  | .tresHalt a => some ⟨1, 50, pack [(5, 0), (5, a.val), (5, 0), (7, 2)], none⟩
  | .tresLock a => some ⟨1, 50, pack [(5, 0), (5, a.val), (5, 0), (7, 3)], none⟩
  | .tabt a => some ⟨1, 51, pack [(5, 0), (5, a.val), (5, 0), (7, 0)], none⟩
  | .tabtReplay a => some ⟨1, 51, pack [(5, 0), (5, a.val), (5, 0), (7, 1)], none⟩
  | .tsnapDesc d a b => some ⟨1, 52, pack [(5, d.val), (5, a.val), (5, b.val), (7, 0)], none⟩
  | .tsnapAddr d a b => some ⟨1, 52, pack [(5, d.val), (5, a.val), (5, b.val), (7, 1)], none⟩
  | .tsnapVal d a b => some ⟨1, 52, pack [(5, d.val), (5, a.val), (5, b.val), (7, 2)], none⟩
  | .tsnapDrop a b => some ⟨1, 52, pack [(5, 0), (5, a.val), (5, b.val), (7, 3)], none⟩
  | .selw a b => some ⟨1, 53, pack [(5, 0), (5, a.val), (5, b.val), (7, 0)], none⟩
  | .tlbiPage a => some ⟨1, 54, pack [(5, 0), (5, a.val), (5, 0), (7, 0)], none⟩
  | .tlbiPasid a => some ⟨1, 54, pack [(5, 0), (5, a.val), (5, 0), (7, 1)], none⟩
  | .tlbiBolt a => some ⟨1, 54, pack [(5, 0), (5, a.val), (5, 0), (7, 2)], none⟩
  | .tlbs d => some ⟨1, 55, pack [(5, d.val), (5, 0), (5, 0), (7, 0)], none⟩
  | .ctxs d a b => some ⟨1, 56, pack [(5, d.val), (5, a.val), (5, b.val), (7, 0)], none⟩
  | .ctxl d a b => some ⟨1, 57, pack [(5, d.val), (5, a.val), (5, b.val), (7, 0)], none⟩
  | .trpret => some ⟨1, 58, pack [(5, 0), (5, 0), (5, 0), (7, 0)], none⟩
  | .fqpopTrap d a => some ⟨1, 61, pack [(5, d.val), (5, a.val), (5, 0), (7, 0)], none⟩
  | .fqpopFault d a => some ⟨1, 61, pack [(5, d.val), (5, a.val), (5, 0), (7, 1)], none⟩
  | .fqpopPlc d a => some ⟨1, 61, pack [(5, d.val), (5, a.val), (5, 0), (7, 2)], none⟩
  | .idleBundle _ => none
  | .barrierOnlyBundle _ => none
  | .mmaResultDue _ => none
  | .transferStart _ _ => none
  | .chunkComplete _ _ => none
  | .dueResultWrite _ => none
  | .timedAccessPerform _ => none
  | .landingDue _ _ => none
  | .landingArrival _ _ => none
  | .beatArrival _ => none
  | .barrierArrival _ _ => none
  | .barrierRelease _ _ => none
  | .timingFault _ _ => none
  | .globalAccessPerform _ _ => none
  | .lateralAccessPerform _ _ => none
  | .outboundAccept _ _ => none
  | .sndrAddition _ _ => none
  | .semvIncrement _ _ => none
  | .xfarDelivery _ => none
  | .xrcvfTake _ _ => none
  | .cutStart _ => none
  | .cutComplete _ => none
  | .serviceCoreEventEntry _ => none
  | .plcVcreate _ _ => none
  | .plcVdestroy _ _ => none
  | .plcSpoolset _ _ => none
  | .plcRadmit _ _ => none
  | .plcRremove _ _ => none
  | .plcEvict _ _ => none
  | .plcAge _ _ => none
  | .mcRead _ _ => none
  | .mcWrite _ _ => none
  | .mcClear _ _ => none
  | .mcFence _ _ => none
  | .mcLogread _ _ => none
  | .mcLog _ _ => none
  | .mcBoltset _ _ => none
  | .mcCollapse _ _ => none
  | .mcAppeal _ _ => none
  | .mcUpdstage _ _ => none
  | .mcUpdcommit _ _ => none
  | .placerTick _ => none
  | .launchRelease _ _ => none
  | .gangPlace _ => none
  | .clearance _ => none
  | .backfillWcrtExpiry _ _ => none
  | .budgetOverrun _ => none
  | .deadlineMiss _ => none
  | .preloadStart _ => none
  | .evictionAtStitch _ => none
  | .quiesceEnd _ => none
  | .contextSaveComplete _ => none
  | .windowDrainComplete _ => none
  | .contextRestore _ => none
  | .periodicStitchSave _ => none
  | .sptailWrite _ _ _ _ => none
  | .launchSubmission _ _ => none
  | .recordAccept _ _ => none
  | .evpostDeliver _ _ => none
  | .completionRecordWrite _ => none
  | .wakeWrite _ _ _ => none
  | .vstatWrite _ _ _ => none
  | .ltfreeWrite _ _ _ => none
  | .registerWrite _ _ _ => none
  | .fbindWrite _ _ _ => none
  | .windowDescriptorWrite _ _ _ _ => none
  | .leasexWrite _ _ => none
  | .leasectlWrite _ _ => none
  | .leaseTakeover => none
  | .hostWindowRead _ _ _ _ _ => none
  | .hostWindowWrite _ _ _ _ _ => none
  | .cxlMemAccess _ _ _ _ => none
  | .functionLevelReset _ _ => none
  | .faultRetry _ => none
  | .faultTimeout _ _ => none
  | .invalidationComplete _ _ => none
  | .atsTranslationCompletion _ _ _ => none
  | .pageRequestSend _ _ => none
  | .prgResponse _ _ _ => none
  | .atsInvalidationRequest _ _ _ _ => none
  | .atsInvalidationComplete _ _ => none
  | .spdmNegotiateAlgorithms _ _ => none
  | .spdmChallenge _ => none
  | .spdmGetMeasurements _ => none
  | .spdmKeyExchange _ => none
  | .spdmHeartbeat _ _ => none
  | .spdmKeyUpdate _ _ => none
  | .spdmEndSession _ _ => none
  | .sessionExpiry _ _ => none
  | .ideKmKeyProg _ _ _ _ => none
  | .ideKmKSetGo _ _ _ => none
  | .ideIntegrityFailure _ _ => none
  | .lockInterface _ _ _ => none
  | .startInterface _ _ _ _ => none
  | .stopInterface _ _ => none
  | .seamFlitReceive _ _ => none
  | .seamAckReceive _ _ => none
  | .seamNakReceive _ _ => none
  | .seamAckTimeout _ => none
  | .linkRetrain _ => none
  | .retrainEnd _ _ => none
  | .tackSend _ => none
  | .tackReceive _ _ _ => none
  | .tackMiss _ _ => none
  | .babblingSuspicion _ _ _ => none
  | .voteFlitReceive _ _ _ _ _ _ => none
  | .voteExpiry _ _ _ => none
  | .fenceFlitReceive _ _ => none
  | .selftestComplete _ _ => none
  | .reinstatementVote _ _ => none
  | .unfenceFlitReceive _ _ => none
  | .patrolScrub => none
  | .pfailAssert => none
  | .checkpointSaveDeadline => none
  | .checkpointComplete => none
  | .pfailDeassert => none
  | .retokLow => none
  | .powerReturnResume => none
  | .dormantEntry => none
  | .dormantWake => none
  | .collapseDelayExpiry _ => none
  | .collapseComplete _ => none
  | .wakeComplete _ => none
  | .thermalThreshold _ => none
  | .thermalResume => none
  | .ptpMessage _ _ _ => none
  | .powerOnReset => none
  | .dccHoldoverEntry => none
  | .priEnable _ _ => none
  | .msixVectorUnmask _ _ _ => none
  | .cxlCacheSnoop _ _ _ => none

/-- The words of a one-operation bundle (R117, R123), or of an idle or barrier-only bundle (R119). -/
def encode (i : Instr) : Option (List Nat) :=
  match i with
  | .idleBundle n => some [pack [(16, n.toNat), (3, 0), (1, 1), (1, 0), (3, 0), (8, 0)]]
  | .barrierOnlyBundle g => if g = 0#3 then none else some [pack [(16, 0), (3, 0), (1, 0), (1, 0), (3, g.toNat), (8, 0)]]
  | i =>
    (encodeSlot i).map fun e =>
      [pack [(16, (e.ext.getD 0#16).toNat), (3, 0), (1, 0), (1, if e.ext.isSome then 1 else 0), (3, 0), (8, 2 ^ e.slot)],
       pack [(6, e.opc), (1, 0), (3, 0), (22, e.bits)]]

/-- The operations of the S slot that only a service core has (R329, R330). -/
def Instr.privileged (i : Instr) : Bool := (encodeSlot i).any fun e => e.slot == 1 && decide (0x30 ≤ e.opc)

/-- The one instruction of the words of a bundle: an idle or barrier-only bundle, or an ordinary bundle of one unguarded operation;
privileged operations decode as on a service core (R130). -/
noncomputable def decodeWords (svc : Bool) (ws : List Nat) : Option Instr :=
  match decodeBundle svc ws with
  | .bundle _ (.idle n) => some (.idleBundle n)
  | .bundle _ (.barrier g) => some (.barrierOnlyBundle g)
  | .bundle _ (.ops 0 [{ slot := _, gn := false, gp := 0, op := .ins i }]) => some i
  | _ => none

/-- The instruction that the decoder reads from words numbered as spec/opcode_table.json numbers them: bit 0 is the least
significant bit of the first word. -/
noncomputable def decodeTableWord (nbits w : Nat) : Option Instr :=
  let v := w % 2 ^ nbits
  decodeWords false [v % 2 ^ 32, v / 2 ^ 32 % 2 ^ 32]

end Sys2Proof
end

