-- ==== Sys2Proof/Config.lean ====
section
/-! DEFINITION. What an implementation of the FX-128 fixes and the spec leaves open: free values, each an opaque constant that
no proof can see through, and the shape of the signed configuration record. -/

namespace Sys2Proof

/-- The signed configuration record in force (R444). The spec names what it holds and gives no byte layout. -/
structure ConfigRec where
  /-- Host-port modes: true for CXL 3.1, false for PCIe 6.0 (R398). -/
  cxl : Vector Bool 2
  /-- The initial ACTIVE port (R407). -/
  active : Fin 2
  /-- BDESC0–BDESC31 (R348). -/
  bdesc : Vector W32 32
  /-- SVRATE defaults, one per tile (R350). -/
  svrate : Vector Byte 128
  /-- SPDEV, the device's own number (R416). -/
  spdev : Nat
  /-- SPROUTE: a port or none for each DEV (R416). -/
  sproute : Vector (Option (Fin 8)) 256
  /-- SPACL: per local bolt the valid entries (DEV, bolt mask), at most 16 (R416). -/
  spacl : Vector (List (Nat × W32)) 32
  /-- TSRC (R438). -/
  tsrc : W32
  /-- CDLY0–CDLY31 (R445). -/
  cdly : Vector W32 32
  /-- APPCTL (R445). -/
  appctl : W32
  /-- The record's SVN (R443). -/
  svn : W32
  /-- A new configuration key that the record installs, by the name of its hash (R443). -/
  newKey : Option (BitVec 64)
  deriving DecidableEq, Repr

/-- The record with no valid bolt. DESIGN CHOICE, unsafe: log entry 5. -/
def ConfigRec.reset : ConfigRec where
  cxl := Vector.replicate 2 false
  active := 0
  bdesc := Vector.replicate 32 0#32
  svrate := Vector.replicate 128 64#8
  spdev := 0
  sproute := Vector.replicate 256 none
  spacl := Vector.replicate 32 []
  tsrc := 0#32
  cdly := Vector.replicate 32 0#32
  appctl := 0#32
  svn := 0#32
  newKey := none

namespace Config

/-- Which of the enabled variable-latency steps comes next (R34, R254, R280): the spec promises no order. Applied to
`Dev.fresh`. Log entry 7. -/
opaque pick : Nat → Nat

/-- Whether a special function (0 exp2, 1 log2, 2 reciprocal, 3 reciprocal root) returns the upper of the two neighbours of an
inexact result (R88). Log entry 8. -/
opaque sfuUp : Fin 4 → W32 → Bool

/-- KARCH.STEP, the silicon stepping (R96). Log entry 9. -/
opaque stepping : BitVec 16

/-- MCID, the version of an MC firmware image, empty for the one that the part was made with (R445). Log entry 9. -/
opaque mcid : List Byte → W32

/-- The fixed hash that chooses the quad, counted within the bolt, whose slice caches a host line (R114). Log entry 10. -/
opaque hostSlice : Nat → Nat

/-- Whether a firmware image verifies under the update key in the boot ROM (R443). Log entry 11. -/
opaque signatureValid : Fin 3 → List Byte → Bool

/-- Whether a configuration record verifies under the configuration key that the secure flash names (R443). Log entry 11. -/
opaque configSigned : BitVec 64 → List Byte → Bool

/-- The MAC of a flit under a seam port's link key, over its bytes 0x00–0x97 (R417). Log entry 74. -/
opaque linkMac : Fin 8 → BitVec 1216 → BitVec 128

/-- KIND, SVN and LENGTH of an update image's header, whose layout the spec does not give (R443). Log entry 11. -/
opaque updateHeader : List Byte → Option (Fin 3 × W32 × Nat)

/-- The configuration record held in a verified image (R444). Log entry 11. -/
opaque configOf : List Byte → Option ConfigRec

/-- Whether a step of bring-up succeeds on its hardware (training, self-test of the arrays), by step number (R446). Applied to
`Dev.fresh`. Log entry 12. -/
opaque bringUpOk : Nat → Nat → Bool

/-- Whether a tile fails its self-test at bring-up (R446 step 5). Applied to `Dev.fresh`. Log entry 12. -/
opaque tileFails : Nat → Fin 128 → Bool

/-- Whether an answer of the outside to a device-issued untranslated host access is a refusal (Unsupported Request or Completer
Abort, R393), by port, function, PASID, address and T bit (R413). Log entry 13. -/
opaque hostRefuses : Fin 2 → Nat → Nat → Nat → Bool → Bool

/-- A field of an event-log record whose value the spec does not state (R440: SEV, DATA, and BOLT and TILE of a kind that concerns no
one bolt or tile), by kind and field number. Applied to `Dev.fresh`. Log entry 16. -/
opaque logField : Nat → Nat → Nat → BitVec 128

/-- The value beneath the poison of a register that a timed load or atomic with a poisoned operand writes: R41 and R231 give the poison
and no value. Applied to `Dev.fresh`. Log entry 4. -/
opaque poisonData : Nat → BitVec 1024

/-- The SPOOL byte of the completion record of a refused launch whose spool number is above 255 (R404). Log entry 31. -/
opaque spoolByte : Nat → Byte

/-- The value of an uncorrectable error's data where a consumer without poison still sees a value. Log entry 15. -/
opaque badByte : Nat → Byte

end Config

end Sys2Proof
end

