-- ==== Sys2Proof/Machine/State.lean ====
section
/-! DEFINITION. The state of the FX-128 (Keiruz 1): everything the spec gives the device, as plain data, its value right after
power-on reset, and the reasons a step can stop. Each field names its width, the file and rule of spec/ that gives it, and its
reset value. -/

namespace Sys2Proof

/-- An accumulator after reset. -/
def Acc.reset : Acc := Vector.replicate 64 0#2048

namespace Machine

/-- Why the machine stops with a fault. The spec gives the device no stop of its own (every trap, failure and loss is a next
state), so the one reason is a guard of the model. -/
inductive Fault where
  /-- An event names an agent that is not there in any state of the spec: raised by no meaning of a table row. Safe: the machine
  stops where the spec describes nothing. -/
  | noSuchAgent
  deriving DecidableEq, Repr

/-- Why an instruction has no meaning. -/
inductive Refusal where
  /-- The instruction is not modelled yet: raised by its arm in Dispatch.lean only. Safe: nothing can be proved of its effect. -/
  | notModelled (mnemonic : String)
  deriving DecidableEq, Repr

/-- One entry of a loop stack (R49). -/
structure LoopEnt where
  /-- 32 bits; 02_execution.md R49; reset: none: part of an entry, 0. -/
  start : W32
  /-- 32 bits; 02_execution.md R49; reset: 0. -/
  stop : W32
  /-- 32 bits; 02_execution.md R49; reset: 0. -/
  count : Nat
  deriving DecidableEq, Repr

/-- A tile register: 64 rows of 64 bytes and the 256-byte scale side (R92). -/
structure TReg where
  /-- 64 rows of 64 bytes; 04_registers_memory.md R92; reset: 0 (R90). -/
  rows : Vector (BitVec 512) 64
  /-- 256 bytes; 04_registers_memory.md R92; reset: 0 (R90). -/
  scale : BitVec 2048
  deriving DecidableEq, Repr

/-- `TReg` after reset. -/
def TReg.reset : TReg where
  rows := Vector.replicate 64 0#512
  scale := 0#2048

/-- The register files of one tile (R13, R90). -/
structure TileRegs where
  /-- k0–k15, 32 bits each; k0 reads 0; 04_registers_memory.md R90; reset: 0 (R90 scrub, R55). -/
  k : Vector W32 16
  /-- s0–s31, 64 bits each; s0 reads 0; 04_registers_memory.md R90; reset: 0 (R90). -/
  s : Vector W64 32
  /-- one poison bit per s register; 02_execution.md R40; reset: 0 (R90). -/
  sPoison : BitVec 32
  /-- va0–va31, 1024 bits each; 04_registers_memory.md R90; reset: 0 (R90). -/
  va : Vector VReg 32
  /-- vb0–vb31, 1024 bits each; 04_registers_memory.md R90; reset: 0 (R90). -/
  vb : Vector VReg 32
  /-- one poison bit per va register; 02_execution.md R40; reset: 0 (R90). -/
  vaPoison : BitVec 32
  /-- one poison bit per vb register; 02_execution.md R40; reset: 0 (R90). -/
  vbPoison : BitVec 32
  /-- ma0–ma7, 32 bits each; 04_registers_memory.md R90; reset: 0 (R90); all ones at a cut's start (R55). -/
  ma : Vector W32 8
  /-- mb0–mb7, 32 bits each; 04_registers_memory.md R90; reset: 0 (R90); all ones at a cut's start (R55). -/
  mb : Vector W32 8
  /-- p0–p7, 1 bit each; p0 reads true; 04_registers_memory.md R90; reset: 0 with p0 = 1 (R90). -/
  p : BitVec 8
  /-- t0–t7, 64 rows of 64 bytes and a 256-byte scale side each; 04_registers_memory.md R90, R92; reset: 0 (R90). -/
  t : Vector TReg 8
  /-- one poison bit per tile register; 02_execution.md R40; reset: 0 (R90). -/
  tPoison : BitVec 8
  /-- z0–z3, 64 × 64 elements of 32 bits each; 04_registers_memory.md R93; reset: 0 (R90). -/
  z : Vector Acc 4
  /-- one poison bit per accumulator; 02_execution.md R40; reset: 0 (R90). -/
  zPoison : BitVec 4
  /-- staging registers d0–d15, 64 bits each; 04_registers_memory.md R90; reset: 0 (R95). -/
  d : Vector W64 16
  deriving DecidableEq, Repr

/-- `TileRegs` after reset. -/
def TileRegs.reset : TileRegs where
  k := Vector.replicate 16 0#32
  s := Vector.replicate 32 0#64
  sPoison := 0#32
  va := Vector.replicate 32 0#1024
  vb := Vector.replicate 32 0#1024
  vaPoison := 0#32
  vbPoison := 0#32
  ma := Vector.replicate 8 0#32
  mb := Vector.replicate 8 0#32
  p := 1#8
  t := Vector.replicate 8 TReg.reset
  tPoison := 0#8
  z := Vector.replicate 4 Acc.reset
  zPoison := 0#4
  d := Vector.replicate 16 0#64

/-- The state registers of one tile (R95), but for those of the panel. -/
structure TileSr where
  /-- 64 bits, WID; 04_registers_memory.md R95; reset: written at a cut's start; DESIGN CHOICE 0 before the first (log entry 3). -/
  wid : W64
  /-- W0–W5, 0 to 32 each, which `widf` needs to cut WID; 02_execution.md R30; reset: taken at a cut's start; DESIGN CHOICE 0 before (log entry 3). -/
  widths : Vector Nat 6
  /-- the gang boundary g of R31, which `widf.gang` needs; 02_execution.md R31; reset: taken at a cut's start; DESIGN CHOICE 2 before (log entry 3). -/
  gangField : Nat
  /-- 64 bits, ISPID; 04_registers_memory.md R106; reset: 0 (R106). -/
  ispid : W64
  /-- 32 bits, TSTAT; 04_registers_memory.md R98; reset: 0 (R95). -/
  tstat : W32
  /-- 32 bits, PDCNT; 04_registers_memory.md R95; reset: 0 (R95). -/
  pdcnt : W32
  /-- 32 bits, XRNCNT; 04_registers_memory.md R95; reset: 0 (R95). -/
  xrncnt : W32
  /-- 32 bits, XRSCNT; 04_registers_memory.md R95; reset: 0 (R95). -/
  xrscnt : W32
  /-- 32 bits, FSTA; 03_numbers.md R69; reset: 0 (R69). -/
  fsta : W32
  /-- 32 bits, FSTB; 03_numbers.md R69; reset: 0 (R69). -/
  fstb : W32
  /-- VCLA[3:0]; 04_registers_memory.md R95; reset: 0xF (R95). -/
  awakeA : BitVec 4
  /-- VCLB[3:0]; 04_registers_memory.md R95; reset: 0xF (R95). -/
  awakeB : BitVec 4
  /-- the PSC at which a cluster's wake window ends (VA 0–3, VB 0–3; 0 when not waking): VCLA/VCLB[7:4]; 06_isa_control_scalar.md R156; reset: 0 (R95). -/
  wakeEnd : Vector Nat 8
  /-- 32 bits, ZCTL; 04_registers_memory.md R95; reset: 0 (R95). -/
  zctl : W32
  /-- the PSC at which the latest MMA issued, from which MSTEP's STEP and BUSY follow; none: no MMA yet; 04_registers_memory.md R100; reset: MSTEP reads 0 (R100). -/
  mIssue : Option Nat
  /-- MSTEP.OUTL; 04_registers_memory.md R100; reset: 0 (R100). -/
  mOutl : Bool
  /-- MSTEP.ZDST; 04_registers_memory.md R100; reset: 0 (R100). -/
  mZdst : Fin 4
  /-- BOWN; 04_registers_memory.md R95; reset: 0 (R95). -/
  bown : BitVec 16
  /-- BFMT0–BFMT15, 32 bits each; 04_registers_memory.md R109; reset: from the image at a cut's start; 0x0003_0000 before (R109: an undescribed bank). -/
  bfmt : Vector W32 16
  /-- TGEOM0–TGEOM7, 32 bits each, with TAG; 04_registers_memory.md R99; reset: from the image at a cut's start; 0x0000_3F3F before (R141 default). -/
  tgeom : Vector W32 8
  /-- ZS0–ZS3, 32 bits each; 04_registers_memory.md R99; reset: 0 (R95). -/
  zs : Vector W32 4
  /-- gm1–gm7, 128 bits each; 02_execution.md R45; reset: 0 (R95). -/
  gm : Vector (BitVec 128) 7
  /-- SEM0–SEM15, 32 bits each; 04_registers_memory.md R95; reset: 0 (R95). -/
  sem : Vector W32 16
  /-- the DCC half latched by `rddcc` sub 0; 06_isa_control_scalar.md R160; reset: 0 (R160). -/
  latch : W32
  deriving DecidableEq, Repr

/-- `TileSr` after reset. -/
def TileSr.reset : TileSr where
  wid := 0#64
  widths := Vector.replicate 6 0
  gangField := 2
  ispid := 0#64
  tstat := 0#32
  pdcnt := 0#32
  xrncnt := 0#32
  xrscnt := 0#32
  fsta := 0#32
  fstb := 0#32
  awakeA := 15#4
  awakeB := 15#4
  wakeEnd := Vector.replicate 8 0
  zctl := 0#32
  mIssue := none
  mOutl := false
  mZdst := 0
  bown := 0#16
  bfmt := Vector.replicate 16 0x00030000#32
  tgeom := Vector.replicate 8 0x00003f3f#32
  zs := Vector.replicate 4 0#32
  gm := Vector.replicate 7 0#128
  sem := Vector.replicate 16 0#32
  latch := 0#32

/-- A tile held at a barrier (R45, R46). -/
structure Hold where
  /-- the group 1–7; 02_execution.md R45. -/
  group : Fin 8
  /-- the mask it arrived with; 06_isa_control_scalar.md R170. -/
  mask : BitVec 128
  /-- hold cycles counted against PSTALL; 02_execution.md R43. -/
  cycles : Nat
  /-- the PSC of the release once the last tile has arrived; 02_execution.md R45. -/
  release : Option Nat
  deriving DecidableEq, Repr

/-- Where one ISP half's code comes from (R341, R343). -/
structure IspSrc where
  /-- 0 zeros, 1 the image's start section, 2 the shadow; 14_privilege_traps_context.md R341; reset: 0 (zeros). -/
  src : Fin 3
  /-- bytes held by the source; 14_privilege_traps_context.md R341; reset: 0. -/
  extent : Nat
  /-- DVA of the half's shadow; 14_privilege_traps_context.md R341, 15_bolts_scheduling.md R354; reset: 0. -/
  shadow : W64
  deriving DecidableEq, Repr

/-- `IspSrc` after reset. -/
def IspSrc.reset : IspSrc where
  src := 0
  extent := 0
  shadow := 0#64

/-- The sequencing state and the privileged registers of one tile. -/
structure TileCtl where
  /-- fetch address of the next bundle (RPC); 14_privilege_traps_context.md R331; reset: the entry at a cut's start; DESIGN CHOICE 0 before (log entry 3). -/
  pc : W32
  /-- RIDLE: idle cycles still to run; 14_privilege_traps_context.md R331; reset: 0 (R331). -/
  idle : Nat
  /-- the loop stack, top first, at most 4 entries; 02_execution.md R49; reset: empty (R55). -/
  loops : List LoopEnt
  /-- TFLAGS.HALTED; 14_privilege_traps_context.md R331; reset: 0 (R331). -/
  halted : Bool
  /-- TFLAGS.HELD, with the hold of R45; 14_privilege_traps_context.md R331; reset: 0 (R331). -/
  held : Option Hold
  /-- the barrier of the bundle at pc has been released, so that the bundle issues; 02_execution.md R45; reset: false. -/
  passed : Bool
  /-- TFLAGS.FENCED, the fenced flag of the idle half; 06_isa_control_scalar.md R151; reset: 0 (R151). -/
  fenced : Bool
  /-- the PSCs at which each `ifence` in flight sets the flag; 06_isa_control_scalar.md R151; reset: none. -/
  fenceAt : List Nat
  /-- a `fence.acq` or `fence.ar` at `.dev` or `.sys` has been issued in this cut; 11_consistency.md R296; reset: false. -/
  acqFence : Bool
  /-- the live mask and bank mask of the stitch issued in this cycle; 02_execution.md R52; reset: none. -/
  stitch : Option (BitVec 21 × BitVec 16)
  /-- the source of half A; 14_privilege_traps_context.md R341; reset: zeros. -/
  ispA : IspSrc
  /-- the source of half B; 14_privilege_traps_context.md R341; reset: zeros. -/
  ispB : IspSrc
  /-- the placer holds the idle half for a preload; 15_bolts_scheduling.md R375; reset: false. -/
  idleHeld : Bool
  /-- under ELOCK, a step has given the copy engine one cycle; 14_privilege_traps_context.md R335; reset: false. -/
  engineGo : Bool
  /-- 64 bits, WLO; 14_privilege_traps_context.md R331; reset: 0 (R331). -/
  wlo : W64
  /-- 64 bits, WHI; 14_privilege_traps_context.md R331; reset: 0 (R331). -/
  whi : W64
  /-- 32 bits, WCTL; 14_privilege_traps_context.md R331; reset: 0 (R331). -/
  wctl : W32
  /-- 32 bits, DBGCTL; 14_privilege_traps_context.md R331; reset: 0 (R331). -/
  dbgctl : W32
  deriving DecidableEq, Repr

/-- `TileCtl` after reset. -/
def TileCtl.reset : TileCtl where
  pc := 0#32
  idle := 0
  loops := []
  halted := false
  held := none
  passed := false
  fenced := false
  fenceAt := []
  acqFence := false
  stitch := none
  ispA := IspSrc.reset
  ispB := IspSrc.reset
  idleHeld := false
  engineGo := false
  wlo := 0#64
  whi := 0#64
  wctl := 0#32
  dbgctl := 0#32

/-- The memories a timed access reaches (R224): the TSP (physical offsets by R110 at the perform cycle), the own vault, the idle ISP half. -/
inductive Space where
  | tsp
  | vault
  | isp
  deriving DecidableEq, Repr

/-- Where a result goes: the register of R328's FILE and REG, or the beat that a TSP source of a send fills. -/
inductive Dest where
  | none
  | s (r : Fin 32)
  | k (r : Fin 16)
  | p (r : Fin 8)
  | v (f : VFile) (r : Fin 32)
  | m (f : VFile) (r : Fin 8)
  | d (r : Fin 16)
  | sr (n : BitVec 10)
  | beat (id : Nat)
  deriving DecidableEq, Repr

/-- The order of an atomic (R231, R232): acquire, release, and the scope at which it is performed (R223). -/
structure AmoOrd where
  /-- acquire; 11_consistency.md R288. -/
  acq : Bool
  /-- release; 11_consistency.md R287. -/
  rel : Bool
  /-- scope after demotion; 09_isa_memory_exchange.md R223. -/
  scope : Nat
  deriving DecidableEq, Repr

/-- The memory side of an entry in flight (R224, R327): a read that has not performed, a write that has not performed, an
atomic (its read performs on `perf`, its write one cycle later), an atomic whose read has performed, or none. -/
inductive Act where
  | none
  | read (perf : Nat) (sp : Space) (addr : Nat) (dk : BitVec 4)
  | write (perf : Nat) (sp : Space) (addr size : Nat) (data : VReg)
  | amo (perf : Nat) (sp : Space) (addr : Nat) (op : AmoOp) (v c : W64) (ord : AmoOrd)
  | rmw (perf : Nat) (sp : Space) (addr : Nat) (op : AmoOp) (v c : W64) (ord : AmoOrd)
  deriving DecidableEq, Repr

/-- One entry of fixed-latency work in flight (R327): a register result with its due cycle, an access still to perform, or both. -/
structure Flight where
  /-- PSC of issue (64 bits); 14_privilege_traps_context.md R327. -/
  issue : Nat
  /-- slot 0–7 of the issuing operation, for R15; 01_machine.md R15. -/
  slot : Nat
  /-- PSC on which the register result is due; 01_machine.md R15. -/
  due : Nat
  /-- destination register; 14_privilege_traps_context.md R328. -/
  dest : Dest
  /-- the value, low bits for narrow registers; 14_privilege_traps_context.md R327. -/
  value : VReg
  /-- the bits of the destination that are replaced (R172); 07_isa_vector.md R172. -/
  mask : VReg
  /-- poison of the result; 02_execution.md R40. -/
  poison : Bool
  /-- the destination's old poison is ORed in (partial write); 02_execution.md R40. -/
  keepOld : Bool
  /-- flags to OR into FSTA or FSTB on the due cycle; 03_numbers.md R70. -/
  flags : BitVec 6
  /-- the write is a zero for a poisoned source, so TSTAT.PZERO is set; 02_execution.md R41. -/
  pzero : Bool
  /-- a poisoned write counted when the access would perform (R244); 02_execution.md R41. -/
  pdrop : Bool
  /-- the access still to perform; 14_privilege_traps_context.md R327. -/
  act : Act
  /-- the address word of the location that a load or atomic has read, 0 for none; 14_privilege_traps_context.md R328. -/
  loc : Nat
  deriving DecidableEq, Repr

/-- The operations of the tile path and the accumulator path (R197), and `zstat` and `mzero`, which use no path. -/
inductive PathKind where
  | mld
  | mldt
  | mlds
  | mst
  | zout
  | zoutv
  | zld
  | zst
  | zstat
  | mzero
  deriving DecidableEq, Repr

/-- An M-slot operation in progress (R198, R347). -/
structure PathOp where
  /-- the operation; 14_privilege_traps_context.md R347. -/
  kind : PathKind
  /-- its slot word; 14_privilege_traps_context.md R347. -/
  word : W32
  /-- imm16 of its bundle; 14_privilege_traps_context.md R347. -/
  imm : BitVec 16
  /-- PSC of issue; 14_privilege_traps_context.md R347. -/
  issue : Nat
  /-- access count n; 08_isa_matrix.md R198. -/
  cnt : Nat
  /-- bank; 08_isa_matrix.md R198. -/
  bank : Fin 16
  /-- logical offset o; 08_isa_matrix.md R198. -/
  off : Nat
  /-- BFMT sampled at issue; 08_isa_matrix.md R199. -/
  bfmt : W32
  /-- TGEOM sampled at issue; 14_privilege_traps_context.md R347. -/
  tgeom : W32
  /-- tile register or accumulator; 08_isa_matrix.md R201, R211, R216. -/
  reg : Nat
  /-- RAW; 08_isa_matrix.md R201. -/
  raw : Bool
  /-- the tag written, or the format encoded; 08_isa_matrix.md R202. -/
  tag : BitVec 4
  /-- the source format of a load; 08_isa_matrix.md R202. -/
  src : BitVec 4
  /-- accesses performed; 14_privilege_traps_context.md R347. -/
  done : Nat
  /-- its writes are dropped by R41; 14_privilege_traps_context.md R347. -/
  drop : Bool
  /-- poison of a register result; 08_isa_matrix.md R215. -/
  poison : Bool
  /-- zs flags still to be ORed on issue + 7; 08_isa_matrix.md R213. -/
  zflags : BitVec 6
  /-- the outlier accumulator that takes the flags too; 08_isa_matrix.md R213. -/
  zo : Option (Fin 4)
  /-- the data read so far, or to be written, one 128-byte unit per access; 14_privilege_traps_context.md R347. -/
  lines : List VReg
  /-- the scale bytes read or to be written with each access; 08_isa_matrix.md R202, R214. -/
  scales : List W32
  /-- of a readout, the lines as ZCTL.SAT would have them; 06_isa_control_scalar.md R170; reset: empty. -/
  satLines : List VReg
  /-- of a readout, the zs flags as ZCTL.SAT would have them; 06_isa_control_scalar.md R170; reset: clear. -/
  satFlags : BitVec 6
  deriving DecidableEq, Repr

/-- An MMA in flight (R327): a copy of both operands. -/
structure UnitRec where
  /-- the slot word (OPWORD); 14_privilege_traps_context.md R341. -/
  word : W32
  /-- PSC of issue; 14_privilege_traps_context.md R341. -/
  issue : Nat
  /-- the operation is `mmo`; 08_isa_matrix.md R209. -/
  outl : Bool
  /-- destination accumulator; 08_isa_matrix.md R207. -/
  zd : Fin 4
  /-- operand A; 08_isa_matrix.md R208. -/
  a : TReg
  /-- operand B; 08_isa_matrix.md R208. -/
  b : TReg
  /-- TGEOM of A, with its tag; 08_isa_matrix.md R208. -/
  ga : W32
  /-- TGEOM of B, with its tag; 08_isa_matrix.md R208. -/
  gb : W32
  /-- OR of the operands' poison at issue; 08_isa_matrix.md R208. -/
  poison : Bool
  /-- of an MMA whose accumulator an image did not name, the accumulator that it goes on from: its result is discarded, and only its flags are still to come (R102, R338); 14_privilege_traps_context.md R338; reset: none. -/
  alone : Option Acc
  deriving DecidableEq, Repr

/-- Landing-slot states (R36). -/
inductive LandSt where
  | free
  | wait
  | held
  | late
  | ready
  | failed
  deriving DecidableEq, Repr

/-- A landing slot (R36–R39). -/
structure Land where
  /-- state; 02_execution.md R36; reset: FREE (R37). -/
  st : LandSt
  /-- destination register; 02_execution.md R39; reset: none. -/
  dest : Dest
  /-- due cycle in PSC terms; 02_execution.md R36; reset: 0. -/
  due : Nat
  /-- late policy: PSN when true, FRZ otherwise; 02_execution.md R36; reset: FRZ. -/
  psn : Bool
  /-- held data, up to 1024 bits; 02_execution.md R36; reset: 0. -/
  data : VReg
  /-- poison of the held data; 02_execution.md R36; reset: clear. -/
  poison : Bool
  /-- PSC that counts as the issue for R15; 09_isa_memory_exchange.md R235; reset: 0. -/
  issue : Nat
  /-- slot that counts as the issuer for R15: 5 L, 7 X; 01_machine.md R15; reset: 0. -/
  slot : Nat
  deriving DecidableEq, Repr

/-- `Land` after reset. -/
def Land.reset : Land where
  st := .free
  dest := .none
  due := 0
  psn := false
  data := 0#1024
  poison := false
  issue := 0
  slot := 0

/-- Token states (R47). -/
inductive TokSt where
  | free
  | pending
  | done
  | part
  | failed
  deriving DecidableEq, Repr

/-- The engine commands that own a transfer (R254). -/
inductive XCmd where
  | go
  | gor
  | gat
  | sca
  | fill
  | red
  | isp
  deriving DecidableEq, Repr

/-- A run of a transfer that waits for replay (R271). -/
structure Piece where
  /-- row; 10_isa_copy.md R271. -/
  row : Nat
  /-- first element (for a packed `ce.isp`, the output position); 10_isa_copy.md R271. -/
  first : Nat
  /-- element count; 10_isa_copy.md R271. -/
  count : Nat
  deriving DecidableEq, Repr

/-- An entry of the replay table (R271). -/
structure RepEnt where
  /-- the token of its transfer; 10_isa_copy.md R271. -/
  tok : Fin 32
  /-- the failed chunk; 10_isa_copy.md R271. -/
  piece : Piece
  deriving DecidableEq, Repr

/-- Why a request, a chunk or an object of the placer waits (R386, R388, R393, R405): on an open fault, for a free fault place since a
DCC time, for an ATS completion of a space that grants `need`, for a place among a port's outstanding requests (`busy`, R398), for the next placer tick; `retry`
translates again after a wait for a place, `again` after its fault has closed with success or its completion granted it, `denied` after a
Translation Completion that did not grant it or refused, and `failed` takes the outcome of a failure close. `since` is the time since which it has waited for a place. -/
inductive Wait where
  | no
  | fault (id : Nat)
  | place (since : Nat)
  | retry (since : Nat)
  | again
  | ats (port : Fin 2) (u space : Nat) (need : BitVec 2) (since : Option Nat)
  | denied (port : Fin 2) (u : Nat) (refused : Bool) (since : Option Nat)
  | busy (since : Option Nat)
  | tick
  | failed
  deriving DecidableEq, Repr

/-- A transfer: the cursor of R278 and R341. -/
structure Xfer where
  /-- command; 10_isa_copy.md R255. -/
  cmd : XCmd
  /-- record copy, 64 bytes; 10_isa_copy.md R256. -/
  record : BitVec 512
  /-- STARTED; 10_isa_copy.md R257. -/
  started : Bool
  /-- bound consumed productions: token and production number; 10_isa_copy.md R257. -/
  waits : List (Fin 32 × Nat)
  /-- a token sampled PARTIAL or FAILED; 10_isa_copy.md R257. -/
  bad : Bool
  /-- BFMTs sampled at start; 10_isa_copy.md R257, R260. -/
  banks : Vector W32 16
  /-- cursor: row; 14_privilege_traps_context.md R341. -/
  row : Nat
  /-- cursor: element; 14_privilege_traps_context.md R341. -/
  elem : Nat
  /-- cursor of a packed `ce.isp`: input position; 10_isa_copy.md R269. -/
  inPos : Nat
  /-- bytes of a packed `ce.isp`'s item in hand that have been written; 10_isa_copy.md R269. -/
  part : Nat
  /-- a row of `ce.gat` or `ce.sca` that has been reached: the row, its index and the format of the bank that it names; 10_isa_copy.md R264. -/
  rowAt : Option (Nat × Nat × W32)
  /-- a transfer of `ce.rep`; 10_isa_copy.md R272. -/
  replay : Bool
  /-- the pieces a replay still has to run; 10_isa_copy.md R272. -/
  todo : List Piece
  /-- the tail entry; 10_isa_copy.md R271. -/
  tail : Option Piece
  /-- no further chunk starts (full table, failure); 10_isa_copy.md R270, R271. -/
  noMore : Bool
  /-- first failure's status; 10_isa_copy.md R270. -/
  fail : Option Byte
  /-- what the chunk in progress waits on; 16_translation_faults.md R387. -/
  wait : Wait
  /-- PSC of issue; 10_isa_copy.md R256. -/
  issue : Nat
  deriving DecidableEq, Repr

/-- A token of the tile (R47) with what `ce.stat` reads (R274). -/
structure Token where
  /-- state; 02_execution.md R47; reset: FREE (R55). -/
  st : TokSt
  /-- STATUS, 8 bits; 10_isa_copy.md R275; reset: 0. -/
  status : Byte
  /-- BYTES, 64 bits; 10_isa_copy.md R269; reset: 0. -/
  bytes : Nat
  /-- NANBLK, 32 bits, saturating; 10_isa_copy.md R262; reset: 0. -/
  nanblk : Nat
  /-- SATCNT, 32 bits, saturating; 10_isa_copy.md R262; reset: 0. -/
  satcnt : Nat
  /-- CRC register of R268; 10_isa_copy.md R268; reset: 0. -/
  crc : W32
  /-- TAG; 10_isa_copy.md R274; reset: 0. -/
  tag : W64
  /-- number of productions so far (R257 binds to one); 10_isa_copy.md R257; reset: 0. -/
  prod : Nat
  /-- the transfer that a PENDING or PARTIAL token owns; 10_isa_copy.md R254; reset: none. -/
  xfer : Option Xfer
  deriving DecidableEq, Repr

/-- `Token` after reset. -/
def Token.reset : Token where
  st := .free
  status := 0#8
  bytes := 0
  nanblk := 0
  satcnt := 0
  crc := 0#32
  tag := 0#64
  prod := 0
  xfer := none

/-- The variable-latency operations of the L and X slots. -/
inductive MKind where
  | ldg
  | stg
  | ldv
  | stv
  | amoG
  | amoV
  | zline
  | launch
  | evpost
  | sndr
  | semv
  | xfar
  | xrcvf
  | fence
  | pref
  deriving DecidableEq, Repr

/-- How far an operation has come: issued, accepted at its target (its outbound entry is free), performed with its answer still to arrive. -/
inductive MStage where
  | issued
  | accepted
  | performed
  deriving DecidableEq, Repr

/-- A variable-latency operation of the L or X slot, from issue until it has been performed and its answer has arrived (R226–R253). -/
structure MemOp where
  /-- the operation; 09_isa_memory_exchange.md R226–R253. -/
  kind : MKind
  /-- PSC of issue; 11_consistency.md R283. -/
  issue : Nat
  /-- how far it has come; 09_isa_memory_exchange.md R234. -/
  stage : MStage
  /-- it holds an outbound write entry; 09_isa_memory_exchange.md R234. -/
  entry : Bool
  /-- landing slot; 09_isa_memory_exchange.md R226. -/
  ls : Option (Fin 64)
  /-- address: DVA, tile-local address or far address word; 09_isa_memory_exchange.md R226. -/
  addr : W64
  /-- bytes; 09_isa_memory_exchange.md R221. -/
  size : Nat
  /-- data to write, or read; 09_isa_memory_exchange.md R227. -/
  data : VReg
  /-- the compare value of `cas`, the WID of `evpost`, the TSP source address of `sndr`; 09_isa_memory_exchange.md R232. -/
  data2 : W64
  /-- scale bytes of an MXFP8 `sndr`; 09_isa_memory_exchange.md R247. -/
  scales : W32
  /-- the atomic; 09_isa_memory_exchange.md R231. -/
  amo : AmoOp
  /-- acquire; 11_consistency.md R288. -/
  acq : Bool
  /-- release; 11_consistency.md R287. -/
  rel : Bool
  /-- strong access; 09_isa_memory_exchange.md R223. -/
  strong : Bool
  /-- scope after demotion: 0 `.tile` 1 `.panel` 2 `.bolt` 3 `.dev` 4 `.sys`; 09_isa_memory_exchange.md R223. -/
  scope : Nat
  /-- allocation hint; 04_registers_memory.md R116. -/
  hint : BitVec 2
  /-- target rank of `sndr` and `semv`, and of an `xfar` that stays in its panel (128 otherwise), spool index of `launch`, code of `evpost`; 09_isa_memory_exchange.md R247. -/
  dst : Nat
  /-- semaphore; 09_isa_memory_exchange.md R247. -/
  sem : Fin 16
  /-- increment of `semv`; issue DCC of `evpost`; the tile that sent an accepted `xfar`; 09_isa_memory_exchange.md R249. -/
  n : Nat
  /-- RTY; 09_isa_memory_exchange.md R247. -/
  rty : BitVec 2
  /-- OP of `sndr`; 09_isa_memory_exchange.md R247. -/
  isMax : Bool
  /-- element format of an MXFP8 source; 09_isa_memory_exchange.md R247. -/
  srcFmt : BitVec 4
  /-- poison of the data; 02_execution.md R41. -/
  poison : Bool
  /-- it ended without data; 02_execution.md R36. -/
  failed : Bool
  /-- PSC of the timed TSP read that still fills `data`; 09_isa_memory_exchange.md R247. -/
  tspRead : Option Nat
  /-- it was issued after a `fence.acq` or `fence.ar` at `.dev` or `.sys`, so that as a load it uses no held copy of an unsnooped host line; 11_consistency.md R296. -/
  past : Bool
  /-- what it waits on; 16_translation_faults.md R387. -/
  wait : Wait
  deriving DecidableEq, Repr

/-- A cached translation (R383). -/
structure TlbEnt where
  /-- space 0–1,024; 16_translation_faults.md R383. -/
  space : Nat
  /-- generation; 16_translation_faults.md R383. -/
  gen : W32
  /-- page number at the leaf's size; 16_translation_faults.md R383. -/
  page : Nat
  /-- level of the leaf; 16_translation_faults.md R383. -/
  level : Nat
  /-- the leaf, with R, W, MIG and LOC; 16_translation_faults.md R383. -/
  pte : W64
  deriving DecidableEq, Repr

/-- Who holds a tile: its bolt, a panel, a collapsed W0 vdev (R433), or nobody because it is being scrubbed. -/
inductive Owner where
  | free
  | panel (h : Nat)
  | vdev (v : Nat)
  deriving DecidableEq, Repr

/-- One tile (R13, R90–R95). -/
structure Tile where
  /-- the register files; 01_machine.md R13; reset: see TileRegs. -/
  r : TileRegs
  /-- the state registers; 04_registers_memory.md R95; reset: see TileSr. -/
  sr : TileSr
  /-- sequencing and privileged registers; 14_privilege_traps_context.md R331; reset: see TileCtl. -/
  c : TileCtl
  /-- the snapshot buffer's entries, in issue and slot order, at most 128; 14_privilege_traps_context.md R327; reset: empty. -/
  flight : List Flight
  /-- at most two MMAs in flight, older first; 14_privilege_traps_context.md R327; reset: empty. -/
  units : List UnitRec
  /-- tile-path operations in progress (and `zstat`); 08_isa_matrix.md R197; reset: empty. -/
  tpath : List PathOp
  /-- accumulator-path operations in progress; 08_isa_matrix.md R197; reset: empty. -/
  apath : List PathOp
  /-- tk0–tk31; 02_execution.md R47; reset: FREE (R55). -/
  toks : Vector Token 32
  /-- the replay table, at most 64 entries; 10_isa_copy.md R271; reset: empty. -/
  rep : List RepEnt
  /-- ls0–ls63; 02_execution.md R36; reset: FREE (R37). -/
  lands : Vector Land 64
  /-- variable-latency operations in issue order; those with `entry` hold the 64 outbound write entries; 09_isa_memory_exchange.md R234; reset: empty. -/
  ops : List MemOp
  /-- the tile TLB, at most 64 entries; 16_translation_faults.md R383; reset: empty. -/
  tlb : List TlbEnt
  /-- who holds the tile; 15_bolts_scheduling.md R368; reset: free. -/
  owner : Owner
  /-- panel-relative rank while a panel holds it; 02_execution.md R25; reset: 0. -/
  rank : Nat
  /-- the vdev and context slot to which its save window still drains; 14_privilege_traps_context.md R338; reset: none. -/
  drain : Option (Nat × Nat)
  /-- what that drain waits on; 15_bolts_scheduling.md R447; reset: none. -/
  drainWait : Wait
  /-- pieces of an ISP half still to be written to its shadow: half, offset, bytes; 15_bolts_scheduling.md R447; reset: empty. -/
  shadowDue : List (Nat × Nat × Nat)
  deriving DecidableEq, Repr

/-- `Tile` after reset. -/
def Tile.reset : Tile where
  r := TileRegs.reset
  sr := TileSr.reset
  c := TileCtl.reset
  flight := []
  units := []
  tpath := []
  apath := []
  toks := Vector.replicate 32 Token.reset
  rep := []
  lands := Vector.replicate 64 Land.reset
  ops := []
  tlb := []
  owner := .free
  rank := 0
  drain := none
  drainWait := .no
  shadowDue := []

/-- A timed beat in flight (R242), or one arm of a broadcast (R245). -/
structure Beat where
  /-- number within the panel; 14_privilege_traps_context.md R327. -/
  id : Nat
  /-- sender rank; 09_isa_memory_exchange.md R242. -/
  src : Nat
  /-- ranks visited after the sender, in order; 01_machine.md R11. -/
  route : List Nat
  /-- delivered at every rank of the route (broadcast); 09_isa_memory_exchange.md R245. -/
  each : Bool
  /-- launch cycle T; 09_isa_memory_exchange.md R242. -/
  launch : Nat
  /-- PSC of the send; 09_isa_memory_exchange.md R242. -/
  issue : Nat
  /-- fetch address of the send's bundle; 14_privilege_traps_context.md R322. -/
  faddr : W32
  /-- 128 bytes; 09_isa_memory_exchange.md R242. -/
  data : VReg
  /-- poison mark; 02_execution.md R41. -/
  poison : Bool
  /-- ranks that have claimed it (a broadcast has several receivers); 09_isa_memory_exchange.md R245. -/
  taken : List Nat
  /-- ranks at which other beats of the same arrival cycle were discarded (EXTRA, R328); 14_privilege_traps_context.md R327. -/
  extra : List Nat
  deriving DecidableEq, Repr

/-- Why an eviction was ordered (R338, R376). -/
inductive Why where
  | order
  | overrun
  | collapse
  | pfail
  | clock
  | fence
  deriving DecidableEq, Repr

/-- Where a panel stands: placed and loading until its start (R363), running, frozen for a trap or as a debug halt (R334),
quiescing, saving its image (to be released, or in place), or restoring (R338, R344); or, its cut over, kept for the gang that is
preloaded onto it (R375). -/
inductive Phase where
  | loading
  | running
  | trap
  | debug
  | quiesce (since : Nat)
  | saving
  | restoring
  | over
  deriving DecidableEq, Repr

/-- A gang bound to a running gang's panel (R375). -/
structure Preload where
  /-- launch number of the bound gang N; 15_bolts_scheduling.md R375. -/
  launch : Nat
  /-- cut index bound to this panel; 15_bolts_scheduling.md R375. -/
  cut : Nat
  /-- N's start section was loaded into the idle half; 15_bolts_scheduling.md R375. -/
  isp : Bool
  /-- banks preloaded; 15_bolts_scheduling.md R375. -/
  banks : BitVec 16
  deriving DecidableEq, Repr

/-- A placed panel (R25, R32). -/
structure Panel where
  /-- panel handle, 16 bits; 15_bolts_scheduling.md R365. -/
  handle : Nat
  /-- its bolt; 15_bolts_scheduling.md R348. -/
  bolt : Fin 32
  /-- device column of rank 0; 01_machine.md R9. -/
  x0 : Nat
  /-- device row of rank 0; 01_machine.md R9. -/
  y0 : Nat
  /-- width 1–16; 02_execution.md R25. -/
  w : Nat
  /-- height 1–8; 02_execution.md R25. -/
  h : Nat
  /-- PSC, 64 bits; 02_execution.md R32; reset: 0 at a cut's start (R32). -/
  psc : Nat
  /-- PSTALL, 0 to 8,192; 02_execution.md R43; reset: from the image. -/
  pstall : Nat
  /-- PSTITCH, 1 to 16,384; 04_registers_memory.md R95; reset: from the image. -/
  pstitch : Nat
  /-- running, frozen or in context handling; 02_execution.md R34. -/
  phase : Phase
  /-- frozen cycles of the present freeze that count against the budget; 02_execution.md R43; reset: 0. -/
  frozen : Nat
  /-- PSC from which the stitch interval counts; 02_execution.md R43; reset: 0. -/
  lastStitch : Nat
  /-- timed beats in flight; 14_privilege_traps_context.md R327; reset: empty. -/
  beats : List Beat
  /-- number of the next beat; 14_privilege_traps_context.md R327; reset: 0. -/
  nextBeat : Nat
  /-- vdev number; 15_bolts_scheduling.md R353. -/
  vdev : Nat
  /-- launch number; 15_bolts_scheduling.md R362. -/
  launch : Nat
  /-- cut index; 02_execution.md R25. -/
  cut : Nat
  /-- DVA of the loaded image; 14_privilege_traps_context.md R342. -/
  image : W64
  /-- context slots by rank; 15_bolts_scheduling.md R354. -/
  slots : List Nat
  /-- eviction pending (PSTATE[2]); 14_privilege_traps_context.md R338; reset: none. -/
  evict : Option Why
  /-- periodic stitch save ordered; 15_bolts_scheduling.md R374; reset: false. -/
  save : Bool
  /-- DCC of the next periodic save order, 0 for none; 15_bolts_scheduling.md R374; reset: 0. -/
  saveAt : Nat
  /-- DCC before which the first bundle does not issue; 15_bolts_scheduling.md R363; reset: 0. -/
  startAt : Nat
  /-- one debug step has been ordered; 14_privilege_traps_context.md R335; reset: false. -/
  stepping : Bool
  /-- a debug halt has been ordered; 14_privilege_traps_context.md R334; reset: false. -/
  haltReq : Bool
  /-- the trap freeze is for TIMING, so that the counts start afresh at the resumption; 02_execution.md R43; reset: false. -/
  timing : Bool
  /-- gang preloaded onto this panel; 15_bolts_scheduling.md R375; reset: none. -/
  pre : Option Preload
  /-- what the placer's read of its image or contexts waits on; 15_bolts_scheduling.md R447; reset: none. -/
  wait : Wait
  deriving DecidableEq, Repr

/-- An invalidation in progress (R391). -/
structure Inval where
  /-- page, PASID or bolt; 16_translation_faults.md R391. -/
  sub : Fin 3
  /-- VDEV field; 16_translation_faults.md R391. -/
  space : Nat
  /-- LOG2N; 16_translation_faults.md R391. -/
  log2n : Nat
  /-- CLOSE; 16_translation_faults.md R391. -/
  close : Bool
  /-- FAIL; 16_translation_faults.md R391. -/
  fail : Bool
  /-- GEN; 16_translation_faults.md R391. -/
  gen : W32
  /-- first DVA; 16_translation_faults.md R391. -/
  dva : W64
  deriving DecidableEq, Repr

/-- What a service core does: issue bundles, wait in `halt` for an event, stand halted for good (R321), or wait in a privileged
operation (R319) that runs again once the wait is over. -/
inductive SvcRun where
  | off
  | run
  | wait
  | dead
  deriving DecidableEq, Repr

/-- One service core (R319, R320). -/
structure Svc where
  /-- s0–s31, 64 bits each; 14_privilege_traps_context.md R319; reset: 0 (R319). -/
  s : Vector W64 32
  /-- one poison bit per s register; 14_privilege_traps_context.md R319; reset: 0 (R319). -/
  sPoison : BitVec 32
  /-- k0–k15, 32 bits each; 14_privilege_traps_context.md R319; reset: 0 (R319). -/
  k : Vector W32 16
  /-- p0–p7; 14_privilege_traps_context.md R319; reset: 0 with p0 = 1 (R319, R90). -/
  p : BitVec 8
  /-- fetch address in local memory; 14_privilege_traps_context.md R319; reset: 0 (R319). -/
  pc : W32
  /-- idle cycles still to run; 05_encoding.md R120; reset: 0. -/
  idle : Nat
  /-- loop stack; 05_encoding.md R130; reset: empty; DESIGN CHOICE that the core has one (log entry 14). -/
  loops : List LoopEnt
  /-- the DCC half latched by `rddcc`; 06_isa_control_scalar.md R160; reset: 0. -/
  latch : W32
  /-- a `fence.acq` or `fence.ar` at `.dev` or `.sys` has been issued; 11_consistency.md R296; reset: false. -/
  acqFence : Bool
  /-- 32 bits, SVEC; 14_privilege_traps_context.md R320; reset: 0 (R320). -/
  svec : W32
  /-- 32 bits, SEPC; 14_privilege_traps_context.md R320; reset: 0 (R320). -/
  sepc : W32
  /-- 32 bits, SCAUSE; 14_privilege_traps_context.md R320; reset: 0 (R320). -/
  scause : W32
  /-- 32 bits, SSTAT; 14_privilege_traps_context.md R320; reset: 0 (R320). -/
  sstat : W32
  /-- whether it issues; 14_privilege_traps_context.md R321; reset: off until R446 step 6. -/
  run : SvcRun
  /-- panel-trap queue, at most 512 records; 14_privilege_traps_context.md R326; reset: empty. -/
  trapq : List (BitVec 512)
  /-- an MC message is pending (cause 0x13); 14_privilege_traps_context.md R320; reset: false. -/
  mcmsg : Bool
  /-- what the memory access of its `plc` command waits on; 15_bolts_scheduling.md R365, R447; reset: none. -/
  plcWait : Wait
  /-- invalidations in progress, at most 16; 16_translation_faults.md R391; reset: empty. -/
  invals : List Inval
  /-- invalidations completed since the last `tlbs`; 16_translation_faults.md R392; reset: 0. -/
  invDone : Nat
  deriving DecidableEq, Repr

/-- `Svc` after reset. -/
def Svc.reset : Svc where
  s := Vector.replicate 32 0#64
  sPoison := 0#32
  k := Vector.replicate 16 0#32
  p := 1#8
  pc := 0#32
  idle := 0
  loops := []
  latch := 0#32
  acqFence := false
  svec := 0#32
  sepc := 0#32
  scause := 0#32
  sstat := 0#32
  run := .off
  trapq := []
  mcmsg := false
  plcWait := .no
  invals := []
  invDone := 0

/-- Fault kinds (R382). -/
inductive FKindT where
  | notPresent
  | perm
  | malformed
  | hostPrq
  | hostFail
  | space
  | migrate
  deriving DecidableEq, Repr

/-- An open fault (R386). -/
structure OpenFault where
  /-- identity of the place; 16_translation_faults.md R386. -/
  id : Nat
  /-- space; 16_translation_faults.md R386. -/
  space : Nat
  /-- generation; 16_translation_faults.md R386. -/
  gen : W32
  /-- kind; 16_translation_faults.md R386. -/
  kind : FKindT
  /-- 4 KiB page number of the DVA; 16_translation_faults.md R386. -/
  page : Nat
  /-- DCC of opening; 16_translation_faults.md R386. -/
  opened : Nat
  deriving DecidableEq, Repr

/-- A line held in an SLC slice (R114–R116). -/
structure SlcLine where
  /-- line address (memory key div 128); 04_registers_memory.md R114. -/
  key : Nat
  /-- dirty; 04_registers_memory.md R116. -/
  dirty : Bool
  /-- zero line; 04_registers_memory.md R115. -/
  zero : Bool
  /-- next victim of its set; 04_registers_memory.md R116. -/
  victim : Bool
  /-- the copy of a host line on a PCIe port (R296); memory itself holds every other line; 11_consistency.md R296. -/
  copy : Option VReg
  /-- the bytes of a host copy not yet written to host memory; 11_consistency.md R296. -/
  written : BitVec 128
  /-- the vdev that wrote a host copy's unwritten bytes last; 17_host_security_links.md R414. -/
  space : Option Nat
  deriving DecidableEq, Repr

/-- A walk-cache entry (R383). -/
structure WalkEnt where
  /-- space; 16_translation_faults.md R383. -/
  space : Nat
  /-- generation; 16_translation_faults.md R383. -/
  gen : W32
  /-- level of the entry; 16_translation_faults.md R383. -/
  level : Nat
  /-- DVA bits above the level; 16_translation_faults.md R383. -/
  tag : Nat
  /-- the entry; 16_translation_faults.md R383. -/
  pte : W64
  deriving DecidableEq, Repr

/-- What a quad owns beside its tiles and service core (R9). -/
structure Quad where
  /-- SLC slice, most recent first, 1,024 sets of 16 ways; 04_registers_memory.md R114; reset: empty. -/
  slc : List SlcLine
  /-- quad TLB, at most 4,096 entries; 16_translation_faults.md R383; reset: empty. -/
  tlb : List TlbEnt
  /-- walk cache, at most 256 entries; 16_translation_faults.md R383; reset: empty. -/
  walk : List WalkEnt
  /-- die temperature, signed, 0.125 °C units (TQq); 18_resilience_power_management.md R445; reset: DESIGN CHOICE 0 (log entry 5). -/
  temp : W32
  deriving DecidableEq, Repr

/-- `Quad` after reset. -/
def Quad.reset : Quad where
  slc := []
  tlb := []
  walk := []
  temp := 0#32

/-- An admitted reservation (R366, R367). -/
structure Resv where
  /-- reservation number 0–63; 15_bolts_scheduling.md R365. -/
  num : Nat
  /-- bolt; 15_bolts_scheduling.md R366. -/
  bolt : Fin 32
  /-- VDEV; 15_bolts_scheduling.md R366. -/
  vdev : Nat
  /-- SPOOL; 15_bolts_scheduling.md R366. -/
  spool : Fin 16
  /-- AREA a; 15_bolts_scheduling.md R366. -/
  area : Nat
  /-- PERIOD T in ns; 15_bolts_scheduling.md R366. -/
  period : Nat
  /-- BUDGET C in ns; 15_bolts_scheduling.md R366. -/
  budget : Nat
  /-- ANCHOR; 15_bolts_scheduling.md R366. -/
  anchor : Nat
  /-- IMAGE; 15_bolts_scheduling.md R366. -/
  image : W64
  /-- EPS of its image, in cycles, from which ε follows at the bolt's clock; 15_bolts_scheduling.md R366. -/
  eps : Nat
  /-- launch number of the job in progress; 15_bolts_scheduling.md R367; reset: none. -/
  job : Option Nat
  /-- the job's deadline D; 15_bolts_scheduling.md R367; reset: 0. -/
  deadline : Nat
  /-- DCC ns counted against the budget; 15_bolts_scheduling.md R367; reset: 0. -/
  used : Nat
  /-- first period start at which the next job may be released; 15_bolts_scheduling.md R367; reset: ANCHOR. -/
  next : Nat
  /-- the job has overrun and waits for its next period; 15_bolts_scheduling.md R367; reset: false. -/
  overrun : Bool
  /-- the deadline miss has been reported; 15_bolts_scheduling.md R367; reset: false. -/
  missed : Bool
  /-- claimed panel positions (bolt coordinates); 15_bolts_scheduling.md R370; reset: empty. -/
  claim : List (Nat × Nat)
  deriving DecidableEq, Repr

/-- The run-time state of a bolt (R348, R365, R368). -/
structure Bolt where
  /-- clock step 0–4 in force; 15_bolts_scheduling.md R348; reset: 0. -/
  clk : Nat
  /-- time of the next clock edge, in 1/168 ns; 01_machine.md R12; reset: 0. -/
  edge : Nat
  /-- cycles since the last placer tick; 15_bolts_scheduling.md R368; reset: 0. -/
  cyc : Nat
  /-- AGEMAX, 1–255; 15_bolts_scheduling.md R365; reset: 64 (R365). -/
  agemax : Nat
  /-- pointed spool of the ring, 16 × vdev + spool; 15_bolts_scheduling.md R371; reset: 0. -/
  ptr : Nat
  /-- credit; 15_bolts_scheduling.md R371; reset: 0. -/
  credit : Nat
  /-- the error counters of R431, 32 bits each; 18_resilience_power_management.md R431; reset: 0 (R445). -/
  counters : Vector Nat 14
  /-- fault queue, at most 1,024 records; 16_translation_faults.md R390; reset: empty. -/
  faultq : List (BitVec 512)
  /-- open faults, at most 256; 16_translation_faults.md R386; reset: empty. -/
  faults : List OpenFault
  /-- identity of the next open fault; 16_translation_faults.md R386; reset: 0. -/
  nextFault : Nat
  /-- placer event queue; 14_privilege_traps_context.md R320, R330; reset: empty. -/
  plcq : List (BitVec 512)
  /-- panel handles given out; 15_bolts_scheduling.md R365; reset: 0. -/
  handles : Nat
  deriving DecidableEq, Repr

/-- `Bolt` after reset. -/
def Bolt.reset : Bolt where
  clk := 0
  edge := 0
  cyc := 0
  agemax := 64
  ptr := 0
  credit := 0
  counters := Vector.replicate 14 0
  faultq := []
  faults := []
  nextFault := 0
  plcq := []
  handles := 0

/-- A launch token (R361). -/
structure LTok where
  /-- state; PARTIAL never occurs; 15_bolts_scheduling.md R361; reset: FREE (R355). -/
  st : TokSt
  /-- completion status; 15_bolts_scheduling.md R360; reset: 0 (R355). -/
  status : W32
  /-- productions so far; 15_bolts_scheduling.md R361; reset: 0. -/
  prod : Nat
  deriving DecidableEq, Repr

/-- `LTok` after reset. -/
def LTok.reset : LTok where
  st := .free
  status := 0#32
  prod := 0

/-- KIND of a spool (R356). -/
inductive SpKind where
  | off
  | best
  | reserved
  deriving DecidableEq, Repr

/-- A spool (R356, R357). -/
structure Spool where
  /-- KIND; 15_bolts_scheduling.md R356; reset: off. -/
  kind : SpKind
  /-- WEIGHT; 15_bolts_scheduling.md R356; reset: 0. -/
  weight : Nat
  /-- FEED: fed by device `launch`; 15_bolts_scheduling.md R356; reset: false. -/
  feed : Bool
  /-- BASE; 15_bolts_scheduling.md R356; reset: 0. -/
  base : W64
  /-- LOG2SIZE; 15_bolts_scheduling.md R356; reset: 0. -/
  log2 : Nat
  /-- SPHEAD, 32 bits; 15_bolts_scheduling.md R355; reset: 0 (R355). -/
  head : W32
  /-- SPTAIL, 32 bits; 15_bolts_scheduling.md R355; reset: 0 (R355). -/
  tail : W32
  /-- the reservation it holds; 15_bolts_scheduling.md R366; reset: none. -/
  resv : Option Nat
  /-- what the placer's access for it waits on; 15_bolts_scheduling.md R447; reset: none. -/
  wait : Wait
  deriving DecidableEq, Repr

/-- `Spool` after reset. -/
def Spool.reset : Spool where
  kind := .off
  weight := 0
  feed := false
  base := 0#64
  log2 := 0
  head := 0#32
  tail := 0#32
  resv := none
  wait := .no

/-- Where a cut of an offered gang stands (R26, R344, R428). -/
inductive CutSt where
  | fresh
  | placed (h : Nat)
  | evicted
  | done
  deriving DecidableEq, Repr

/-- The context image of one tile: the fixed part, the named state and, for a full image, the path part, as data (R340–R347). Its bytes stand in the context area as well. -/
structure SavedTile where
  /-- context slot; 15_bolts_scheduling.md R354. -/
  slot : Nat
  /-- the tile's saved state; 14_privilege_traps_context.md R341. -/
  tile : Tile
  /-- LMASK; 14_privilege_traps_context.md R342. -/
  lmask : BitVec 21
  /-- BMASK; 14_privilege_traps_context.md R342. -/
  bmask : BitVec 16
  /-- FLAGS.PATHS; 14_privilege_traps_context.md R342. -/
  full : Bool
  /-- the bytes written to the context area; 14_privilege_traps_context.md R340. -/
  image : List Byte
  deriving DecidableEq, Repr

/-- An accepted `launch` or `evpost` that the placer still has to perform (R234, R240, R241). -/
structure Posted where
  /-- the tile that issued it; 09_isa_memory_exchange.md R234. -/
  tile : Fin 128
  /-- its bolt; 09_isa_memory_exchange.md R240. -/
  bolt : Fin 32
  /-- its vdev; 09_isa_memory_exchange.md R240. -/
  vdev : Nat
  /-- launch number of its cut; 02_execution.md R56. -/
  launch : Nat
  /-- cut index of its cut; 02_execution.md R56. -/
  cut : Nat
  /-- the operation; 09_isa_memory_exchange.md R234. -/
  op : MemOp
  deriving DecidableEq, Repr

/-- A tile as `ctxs` wrote it: the bytes, and the state that they were written from (R346; log entry 24). -/
structure KeptCtx where
  /-- handle of its panel; 14_privilege_traps_context.md R346. -/
  handle : Nat
  /-- the tile's number; 14_privilege_traps_context.md R346. -/
  num : Fin 128
  /-- the tile's state; 14_privilege_traps_context.md R341. -/
  tile : Tile
  /-- the beats in flight to it; 14_privilege_traps_context.md R327. -/
  beats : List Beat
  /-- the bytes written; 14_privilege_traps_context.md R346. -/
  image : List Byte
  deriving DecidableEq, Repr

/-- A saved cut (R338, R374). -/
structure SavedCut where
  /-- pending PSC; 14_privilege_traps_context.md R342. -/
  psc : Nat
  /-- PSTALL; 14_privilege_traps_context.md R341. -/
  pstall : Nat
  /-- PSTITCH; 14_privilege_traps_context.md R341. -/
  pstitch : Nat
  /-- PSC from which the stitch interval counts; 02_execution.md R43. -/
  lastStitch : Nat
  /-- beats in flight; 14_privilege_traps_context.md R338. -/
  beats : List Beat
  /-- number of the next beat; 14_privilege_traps_context.md R338. -/
  nextBeat : Nat
  /-- ns of running time until the next periodic save; 15_bolts_scheduling.md R374. -/
  saveIn : Nat
  /-- one per rank; 14_privilege_traps_context.md R344. -/
  tiles : List SavedTile
  deriving DecidableEq, Repr

/-- A cut of an offered gang. -/
structure CutRec where
  /-- cut index; 02_execution.md R25. -/
  cut : Nat
  /-- where it stands; 02_execution.md R26. -/
  st : CutSt
  /-- the image of its eviction; 14_privilege_traps_context.md R338; reset: none. -/
  saved : Option SavedCut
  /-- its last periodic stitch save; 15_bolts_scheduling.md R374; reset: none. -/
  psave : Option SavedCut
  /-- replays so far, at most 3; 18_resilience_power_management.md R428; reset: 0. -/
  replays : Nat
  /-- its context slots by rank; 15_bolts_scheduling.md R354. -/
  slots : List Nat
  deriving DecidableEq, Repr

/-- An offered gang that has not finished (R31, R362). -/
structure Gang where
  /-- gang index; 02_execution.md R31. -/
  idx : Nat
  /-- its cuts; 02_execution.md R26. -/
  cuts : List CutRec
  /-- DCC of its last placement while it is placed; 15_bolts_scheduling.md R372; reset: none. -/
  placedAt : Option Nat
  /-- placed under (b) of R372; 15_bolts_scheduling.md R372; reset: false. -/
  backfill : Bool
  /-- ticks for which it has been blocked; 15_bolts_scheduling.md R373; reset: 0. -/
  age : Nat
  /-- in clearance; 15_bolts_scheduling.md R373; reset: false. -/
  clearing : Bool
  deriving DecidableEq, Repr

/-- An accepted launch that has not completed (R358–R362). -/
structure Launch where
  /-- number within the device; 15_bolts_scheduling.md R361. -/
  num : Nat
  /-- vdev; 15_bolts_scheduling.md R361. -/
  vdev : Nat
  /-- spool; 15_bolts_scheduling.md R361. -/
  spool : Fin 16
  /-- SPOOL of its completion record; 17_host_security_links.md R404. -/
  spoolByte : Byte
  /-- the record's copy, 128 bytes; 15_bolts_scheduling.md R358. -/
  record : BitVec 1024
  /-- wait tokens sampled PENDING, with their productions; 15_bolts_scheduling.md R361. -/
  waits : List (Fin 256 × Nat)
  /-- a wait token sampled FAILED; 15_bolts_scheduling.md R361. -/
  depFail : Bool
  /-- it has been released; 15_bolts_scheduling.md R362. -/
  released : Bool
  /-- first gang not yet offered; 02_execution.md R27. -/
  nextGang : Nat
  /-- gangs offered and unfinished; 15_bolts_scheduling.md R362. -/
  gangs : List Gang
  /-- completion status so far; 15_bolts_scheduling.md R360. -/
  status : W32
  /-- completed, but its completion record is still to be written; 17_host_security_links.md R405. -/
  done : Bool
  /-- DCC when it completed; 17_host_security_links.md R404. -/
  doneDcc : Nat
  /-- what the placer's access for it waits on; 15_bolts_scheduling.md R447. -/
  wait : Wait
  deriving DecidableEq, Repr

/-- VSTAT.STATE (R355). -/
inductive VState where
  | active
  | collapsing
  | collapsed
  | waking
  deriving DecidableEq, Repr

/-- A virtual device (R353, R355). -/
structure Vdev where
  /-- vdev number 0–1,023; 15_bolts_scheduling.md R353. -/
  num : Nat
  /-- its descriptor, 64 bytes; 15_bolts_scheduling.md R353. -/
  desc : BitVec 512
  /-- BOLT; 15_bolts_scheduling.md R353. -/
  bolt : Fin 32
  /-- its spools; 15_bolts_scheduling.md R356; reset: off. -/
  spools : Vector Spool 16
  /-- lk0–lk255; 15_bolts_scheduling.md R361; reset: FREE. -/
  ltoks : Vector LTok 256
  /-- accepted launches, in acceptance order; 15_bolts_scheduling.md R361; reset: empty. -/
  launches : List Launch
  /-- context slots in use; 15_bolts_scheduling.md R354; reset: empty. -/
  slots : List Nat
  /-- VSTAT.STATE; 15_bolts_scheduling.md R355; reset: active. -/
  state : VState
  /-- VSTAT[5:2]; 15_bolts_scheduling.md R355; reset: 0 (R355). -/
  vstat : BitVec 4
  /-- DEMCNT, 32 bits; 15_bolts_scheduling.md R355; reset: 0 (R355). -/
  demcnt : Nat
  /-- MISSCNT, 32 bits; 15_bolts_scheduling.md R355; reset: 0 (R355). -/
  misscnt : Nat
  /-- OVRCNT, 32 bits; 15_bolts_scheduling.md R355; reset: 0 (R355). -/
  ovrcnt : Nat
  /-- TAILCNT, 32 bits; 15_bolts_scheduling.md R355; reset: 0 (R355). -/
  tailcnt : Nat
  /-- EQHEAD; 15_bolts_scheduling.md R355; reset: 0 (R355). -/
  eqhead : W32
  /-- EQTAIL; 15_bolts_scheduling.md R355; reset: 0 (R355). -/
  eqtail : W32
  /-- EQCTL; 15_bolts_scheduling.md R355; reset: 0 (R355). -/
  eqctl : W32
  /-- EQDROP, 32 bits; 15_bolts_scheduling.md R355; reset: 0 (R355). -/
  eqdrop : Nat
  /-- event records still to be written (R447 holds them on a recoverable fault); 15_bolts_scheduling.md R364; reset: empty. -/
  events : List (BitVec 256)
  /-- completion ring write index; 17_host_security_links.md R405; reset: 0. -/
  cridx : W32
  /-- SEQ of the next completion record; 17_host_security_links.md R404; reset: 0 (R404). -/
  crseq : W32
  /-- DCC since which it is idle; 18_resilience_power_management.md R432. -/
  idleSince : Nat
  /-- DCC of the wake write whose bound runs; 18_resilience_power_management.md R433; reset: none. -/
  wakeAt : Option Nat
  /-- DCC ns counted toward the wake bound; 18_resilience_power_management.md R433; reset: 0. -/
  wakeCounted : Nat
  /-- acceptance stopped by R414; 17_host_security_links.md R414; reset: false. -/
  stopped : Bool
  /-- tokens of the launches that R414 completed with SECURITY at `securedAt`; 17_host_security_links.md R415; reset: empty. -/
  secured : List (Fin 256)
  /-- DCC of the latest event of R414; 17_host_security_links.md R415; reset: 0. -/
  securedAt : Nat
  /-- what the event queue's write waits on; 15_bolts_scheduling.md R447; reset: none. -/
  waitEq : Wait
  /-- what the completion ring's access waits on; 15_bolts_scheduling.md R447; reset: none. -/
  waitCr : Wait
  /-- a takeover collapsed it until it is bound; 17_host_security_links.md R408; reset: false. -/
  parked : Bool
  /-- FirstFit found no placement for its next cut on the latest tick; 18_resilience_power_management.md R433; reset: false. -/
  noRoom : Bool
  deriving DecidableEq, Repr

/-- TDI states (R413). -/
inductive TdiSt where
  | unlocked
  | locked
  | run
  | error
  deriving DecidableEq, Repr

/-- A TDI and its binding to a stream (R413). -/
structure Tdi where
  /-- state; 17_host_security_links.md R413; reset: CONFIG_UNLOCKED (R413). -/
  st : TdiSt
  /-- port of its session and stream; 17_host_security_links.md R413; reset: 0; meaningless while unlocked. -/
  port : Fin 2
  /-- session that locked it; 17_host_security_links.md R414; reset: 0; meaningless while unlocked. -/
  session : Nat
  /-- selective stream; 17_host_security_links.md R413; reset: 0; meaningless while unlocked. -/
  stream : Nat
  deriving DecidableEq, Repr

/-- `Tdi` after reset. -/
def Tdi.reset : Tdi where
  st := .unlocked
  port := 0
  session := 0
  stream := 0

/-- A window descriptor (R401). -/
structure Window where
  /-- BAROFF; 17_host_security_links.md R401; reset: DESIGN CHOICE 0, VALID clear (log entry 5). -/
  baroff : W64
  /-- BPA2M, SIZE2M and BOLT; 17_host_security_links.md R401; reset: DESIGN CHOICE 0 (log entry 5). -/
  attr : W64
  deriving DecidableEq, Repr

/-- `Window` after reset. -/
def Window.reset : Window where
  baroff := 0#64
  attr := 0#64

/-- An SPDM session (R411). -/
structure Session where
  /-- session number; 17_host_security_links.md R411. -/
  id : Nat
  /-- DCC of the last valid secured message; 17_host_security_links.md R411. -/
  last : Nat
  /-- records protected by each direction's key; 17_host_security_links.md R411. -/
  recs : Vector Nat 2
  /-- key generation; 17_host_security_links.md R411. -/
  keys : Nat
  deriving DecidableEq, Repr

/-- An IDE stream (R412). -/
structure Stream where
  /-- stream number; 0 is the link stream; 17_host_security_links.md R412. -/
  id : Nat
  /-- directions programmed by KEY_PROG; 17_host_security_links.md R412. -/
  prog : BitVec 2
  /-- K_SET_GO has activated a key set; 17_host_security_links.md R412. -/
  active : Bool
  /-- secure state; false after an integrity failure; 17_host_security_links.md R412. -/
  secure : Bool
  deriving DecidableEq, Repr

/-- An ATC entry (R383, R394). -/
structure AtcEnt where
  /-- function; 16_translation_faults.md R383. -/
  fn : Nat
  /-- PASID; 16_translation_faults.md R383. -/
  pasid : Nat
  /-- generation of the space; 16_translation_faults.md R396. -/
  gen : W32
  /-- space; 16_translation_faults.md R383. -/
  space : Nat
  /-- untranslated page number; 16_translation_faults.md R383. -/
  upage : Nat
  /-- log2 of the entry's size in 4 KiB pages; 16_translation_faults.md R393. -/
  log2 : Nat
  /-- host address of the page; 16_translation_faults.md R383. -/
  host : Nat
  /-- R, W; 16_translation_faults.md R383. -/
  perm : BitVec 2
  deriving DecidableEq, Repr

/-- A Translation Request in progress (R393). -/
structure AtsReq where
  /-- space; 16_translation_faults.md R396. -/
  space : Nat
  /-- generation; 16_translation_faults.md R396. -/
  gen : W32
  /-- DVA page of the access that missed; 16_translation_faults.md R393. -/
  dva : Nat
  /-- untranslated page number; 16_translation_faults.md R393. -/
  upage : Nat
  /-- write permission needed; 16_translation_faults.md R393. -/
  write : Bool
  /-- read permission needed; 16_translation_faults.md R393. -/
  read : Bool
  /-- the leaf; 16_translation_faults.md R389. -/
  pte : W64
  deriving DecidableEq, Repr

/-- A page-request entry (R395). -/
structure PrgEnt where
  /-- PRGI 0–511; 16_translation_faults.md R395. -/
  prgi : Nat
  /-- space; 16_translation_faults.md R395. -/
  space : Nat
  /-- generation; 16_translation_faults.md R395. -/
  gen : W32
  /-- bolt of the fault; 16_translation_faults.md R395. -/
  bolt : Fin 32
  /-- open fault; 16_translation_faults.md R395. -/
  fault : Nat
  /-- function; 16_translation_faults.md R395. -/
  fn : Nat
  /-- untranslated page; 16_translation_faults.md R395. -/
  upage : Nat
  /-- the Page Request has been sent; 16_translation_faults.md R395. -/
  sent : Bool
  /-- DCC of opening, for the 100 ms limit; 16_translation_faults.md R395. -/
  opened : Nat
  /-- the read (bit 0) and write (bit 1) need; 16_translation_faults.md R395. -/
  need : BitVec 2
  deriving DecidableEq, Repr

/-- An HDM decoder: the host range and the device physical address of its first byte (R402). PRESUMED: CXL 3.1, log entry 5. -/
structure Hdm where
  /-- first host address; 17_host_security_links.md R402; reset: DESIGN CHOICE 0 (log entry 5). -/
  base : W64
  /-- bytes; 17_host_security_links.md R402; reset: DESIGN CHOICE 0 (log entry 5). -/
  size : W64
  /-- device physical address; 17_host_security_links.md R402; reset: DESIGN CHOICE 0 (log entry 5). -/
  dpa : W64
  deriving DecidableEq, Repr

/-- `Hdm` after reset. -/
def Hdm.reset : Hdm where
  base := 0#64
  size := 0#64
  dpa := 0#64

/-- A host port (R398). -/
structure HostPort where
  /-- trained as CXL 3.1; 17_host_security_links.md R398; reset: config; PCIe before bring-up (log entry 5). -/
  cxl : Bool
  /-- number of enabled VFs (SR-IOV); 17_host_security_links.md R398; reset: DESIGN CHOICE 248 (log entry 5). -/
  enabled : Nat
  /-- ATC, at most 8,192 entries; 16_translation_faults.md R383; reset: empty. -/
  atc : List AtcEnt
  /-- Translation Requests in progress; 16_translation_faults.md R393; reset: empty. -/
  ats : List AtsReq
  /-- page-request table, 512 entries; 16_translation_faults.md R395; reset: empty. -/
  prg : List PrgEnt
  /-- outstanding page-request allocation that the host grants to each function; 16_translation_faults.md R395; reset: DESIGN CHOICE 512 (log entry 5). -/
  prAlloc : Vector Nat 249
  /-- functions whose PRI is not enabled or was stopped; 16_translation_faults.md R395; reset: DESIGN CHOICE empty (log entry 5). -/
  priOff : List Nat
  /-- host invalidations in progress: PASID, first page, page count; at most 32; 16_translation_faults.md R394; reset: empty. -/
  hinv : List (Nat × Nat × Nat)
  /-- masked MSI-X vectors: function, vector; 17_host_security_links.md R406; reset: DESIGN CHOICE empty (log entry 5). -/
  masked : List (Nat × Nat)
  /-- pending bits of masked vectors; 17_host_security_links.md R406; reset: empty. -/
  pend : List (Nat × Nat)
  /-- SPDM algorithms negotiated; 17_host_security_links.md R409; reset: false. -/
  negotiated : Bool
  /-- at most four sessions; 17_host_security_links.md R411; reset: empty. -/
  sessions : List Session
  /-- number of the next session; 17_host_security_links.md R411; reset: 0. -/
  nextSession : Nat
  /-- the link stream and up to 64 selective streams; 17_host_security_links.md R398; reset: empty. -/
  streams : List Stream
  /-- HDM decoders of PF0 (CXL); 17_host_security_links.md R398, R402; reset: see Hdm. -/
  hdm : Vector Hdm 2
  /-- the link is trained; 18_resilience_power_management.md R446; reset: false until bring-up step 7. -/
  up : Bool
  /-- lines of device memory that the host has read through CXL.mem and may hold, by key div 128; 17_host_security_links.md R398; reset: empty. -/
  held : List Nat
  deriving DecidableEq, Repr

/-- `HostPort` after reset. -/
def HostPort.reset : HostPort where
  cxl := false
  enabled := 248
  atc := []
  ats := []
  prg := []
  prAlloc := Vector.replicate 249 512
  priOff := []
  hinv := []
  masked := []
  pend := []
  negotiated := false
  sessions := []
  nextSession := 0
  streams := []
  hdm := Vector.replicate 2 Hdm.reset
  up := false
  held := []

/-- A far message as a data flit (R417). -/
structure SeamFlit where
  /-- SEQ, 12 bits; 17_host_security_links.md R417. -/
  seq : Nat
  /-- SDEV; 17_host_security_links.md R417. -/
  sdev : Nat
  /-- SBOLT; 17_host_security_links.md R417. -/
  sbolt : Nat
  /-- STILE; 17_host_security_links.md R417. -/
  stile : Nat
  /-- MCTL.SEM; 17_host_security_links.md R417. -/
  sem : Fin 16
  /-- MCTL.SIZE; 17_host_security_links.md R417. -/
  big : Bool
  /-- FAR; 17_host_security_links.md R417. -/
  far : W64
  /-- DATA; 17_host_security_links.md R417. -/
  data : VReg
  deriving DecidableEq, Repr

/-- A seam port (R416–R418). -/
structure SeamPort where
  /-- the port is up; 17_host_security_links.md R418; reset: false until bring-up step 7. -/
  up : Bool
  /-- next SEQ to send, 12 bits; 17_host_security_links.md R417; reset: 0. -/
  txSeq : Nat
  /-- unacknowledged data flits, at most 256; 17_host_security_links.md R418; reset: empty. -/
  replay : List SeamFlit
  /-- next SEQ expected, 12 bits; 17_host_security_links.md R418; reset: 0. -/
  rxSeq : Nat
  /-- receive buffer, at most 512 flits; 17_host_security_links.md R418; reset: empty. -/
  rx : List SeamFlit
  /-- NAKs of one SEQ in a row; 17_host_security_links.md R418; reset: 0. -/
  naks : Nat
  /-- the SEQ they name; 17_host_security_links.md R418; reset: 0. -/
  nakSeq : Nat
  /-- 10 µs periods without an acknowledgement; 17_host_security_links.md R418; reset: 0. -/
  silent : Nat
  /-- DCC of the next ACK timeout; 17_host_security_links.md R418; reset: 0. -/
  timer : Nat
  /-- DCC by which retraining ends; 17_host_security_links.md R418; reset: none. -/
  retrain : Option Nat
  deriving DecidableEq, Repr

/-- `SeamPort` after reset. -/
def SeamPort.reset : SeamPort where
  up := false
  txSeq := 0
  replay := []
  rxSeq := 0
  rx := []
  naks := 0
  nakSeq := 0
  silent := 0
  timer := 0
  retrain := none

/-- What a router knows of one neighbour (R421–R426). -/
structure Nbr where
  /-- SEQ of the last valid tack; 18_resilience_power_management.md R421; reset: 0. -/
  seq : Nat
  /-- DCC at which the next tack counts as missed; 18_resilience_power_management.md R421; reset: 0. -/
  deadline : Nat
  /-- consecutive misses; 18_resilience_power_management.md R421; reset: 0. -/
  misses : Nat
  /-- suspicion held; 18_resilience_power_management.md R426; reset: 0. -/
  susp : Bool
  /-- CAUSE; 18_resilience_power_management.md R426; reset: 0. -/
  cause : BitVec 2
  /-- DCC of the suspicion; 18_resilience_power_management.md R424; reset: 0. -/
  since : Nat
  /-- consecutive valid tacks without a babbling event; 18_resilience_power_management.md R423; reset: 0. -/
  good : Nat
  /-- announced RATE; 18_resilience_power_management.md R420; reset: 64. -/
  rate : Nat
  /-- announced PANEL; 18_resilience_power_management.md R420; reset: 0. -/
  panel : BitVec 15
  /-- DCC of spans over the rate in the window; 18_resilience_power_management.md R422; reset: empty. -/
  overRate : List Nat
  /-- DCC of malformed flits in the window; 18_resilience_power_management.md R422; reset: empty. -/
  malformed : List Nat
  /-- DCC of out-of-panel flits in the window; 18_resilience_power_management.md R422; reset: empty. -/
  outside : List Nat
  /-- consecutive valid probation tacks; 18_resilience_power_management.md R429; reset: 0. -/
  probation : Nat
  deriving DecidableEq, Repr

/-- `Nbr` after reset. -/
def Nbr.reset : Nbr where
  seq := 0
  deadline := 0
  misses := 0
  susp := false
  cause := 0#2
  since := 0
  good := 0
  rate := 64
  panel := 0#15
  overRate := []
  malformed := []
  outside := []
  probation := 0

/-- A vote held by a router (R424). -/
structure Vote where
  /-- the suspect; 18_resilience_power_management.md R424. -/
  suspect : Fin 128
  /-- the voter; 18_resilience_power_management.md R424. -/
  voter : Fin 128
  /-- DCC at which it expires; 18_resilience_power_management.md R424. -/
  expiry : Nat
  /-- DCC of the suspicion; 18_resilience_power_management.md R424. -/
  since : Nat
  /-- a reinstatement vote (R429); 18_resilience_power_management.md R429. -/
  reinst : Bool
  deriving DecidableEq, Repr

/-- The router of one tile (R350, R420–R427). -/
structure Router where
  /-- SVBOLT; 15_bolts_scheduling.md R350; reset: 0 (R350). -/
  svbolt : W64
  /-- SVPANEL; 15_bolts_scheduling.md R350; reset: 0 (R350). -/
  svpanel : W64
  /-- SVRATE; 15_bolts_scheduling.md R350; reset: 64 (R350). -/
  svrate : Byte
  /-- SEQ of its next tack, 16 bits; 18_resilience_power_management.md R420; reset: 0. -/
  txSeq : Nat
  /-- DCC of its next tack; 18_resilience_power_management.md R420; reset: 0. -/
  nextTack : Nat
  /-- the result of its crossbar self-check, zero on a pass; 18_resilience_power_management.md R420; reset: DESIGN CHOICE 0, a pass (log entry 5). -/
  selfCheck : W32
  /-- its neighbours E, S, W, N; 18_resilience_power_management.md R424; reset: see Nbr. -/
  nbr : Vector Nbr 4
  /-- unexpired votes; 18_resilience_power_management.md R424; reset: empty. -/
  votes : List Vote
  /-- fence map; 18_resilience_power_management.md R425; reset: 0. -/
  fmap : BitVec 128
  /-- TFENCE[1:0]: in service, fenced, probation, retired; 18_resilience_power_management.md R445; reset: 0 (R445). -/
  fence : Fin 4
  /-- DCC of its fences within 24 h (TFENCE[3:2]); 18_resilience_power_management.md R445; reset: 0 (R445). -/
  fences : List Nat
  /-- DCC of its appeals within 24 h; 18_resilience_power_management.md R429; reset: empty. -/
  appeals : List Nat
  /-- DCC at which its self-test ends; 18_resilience_power_management.md R429; reset: none. -/
  testing : Option Nat
  /-- its appeal waits for one of the four self-tests; 18_resilience_power_management.md R429; reset: false. -/
  queued : Bool
  deriving DecidableEq, Repr

/-- `Router` after reset. -/
def Router.reset : Router where
  svbolt := 0#64
  svpanel := 0#64
  svrate := 64#8
  txSeq := 0
  nextTack := 0
  selfCheck := 0#32
  nbr := Vector.replicate 4 Nbr.reset
  votes := []
  fmap := 0#128
  fence := 0
  fences := []
  appeals := []
  testing := none
  queued := false

/-- MCSTATE.STATE (R445). -/
inductive McSt where
  | bringup
  | running
  | dormant
  | checkpoint
  | retention
  | resuming
  deriving DecidableEq, Repr

/-- The management controller (R438–R446). -/
structure Mc where
  /-- MCSTATE.STATE; 18_resilience_power_management.md R445; reset: bring-up, 0 (R445). -/
  st : McSt
  /-- MCSTATE.BFAIL; 18_resilience_power_management.md R445; reset: 0 (R445). -/
  bfail : Bool
  /-- MCSTATE.BSTEP, 4 bits; 18_resilience_power_management.md R445; reset: 0 (R445). -/
  bstep : Nat
  /-- MCSTATE.CKLOST; 18_resilience_power_management.md R445; reset: 0 (R445). -/
  cklost : Bool
  /-- TSYNC; 18_resilience_power_management.md R445; reset: 0 (R445). -/
  tsync : W32
  /-- TOFFS; 18_resilience_power_management.md R445; reset: 0 (R445). -/
  toffs : W64
  /-- TSRC; 18_resilience_power_management.md R445; reset: config; 0 before bring-up (log entry 5). -/
  tsrc : W32
  /-- BDESC0–31; 15_bolts_scheduling.md R348; reset: config; 0 before bring-up (log entry 5). -/
  bdesc : Vector W32 32
  /-- XMSSREM: identity signatures remaining; 18_resilience_power_management.md R445, 17_host_security_links.md R410; reset: DESIGN CHOICE 2^20 (log entry 5). -/
  xmssrem : Nat
  /-- SVN0–SVN2; 18_resilience_power_management.md R445; reset: flash; DESIGN CHOICE 0 (log entry 5). -/
  svn : Vector W32 3
  /-- PWR; 18_resilience_power_management.md R445; reset: DESIGN CHOICE 0 (log entry 5). -/
  pwr : W32
  /-- LOGHEAD; 18_resilience_power_management.md R445; reset: flash; DESIGN CHOICE 0 (log entry 5). -/
  loghead : W32
  /-- LOGTAIL; 18_resilience_power_management.md R445; reset: flash; DESIGN CHOICE 0 (log entry 5). -/
  logtail : W32
  /-- event log: slot and record, ring of 4,096 records of 32 bytes; 18_resilience_power_management.md R440; reset: flash; DESIGN CHOICE empty (log entry 5). -/
  log : List (Nat × BitVec 256)
  /-- APPCTL; 18_resilience_power_management.md R445; reset: config; 0 before bring-up (log entry 5). -/
  appctl : W32
  /-- CDLY0–31; 18_resilience_power_management.md R445; reset: config; 0 before bring-up (log entry 5). -/
  cdly : Vector W32 32
  /-- HWDROP, 32 bits; 18_resilience_power_management.md R445; reset: 0 (R445). -/
  hwdrop : Nat
  /-- SPDROP, 32 bits; 18_resilience_power_management.md R445; reset: 0 (R445). -/
  spdrop : Nat
  /-- HOSTDROP, 32 bits; 18_resilience_power_management.md R445; reset: 0 (R445). -/
  hostdrop : Nat
  /-- update staging area; 18_resilience_power_management.md R442; reset: DESIGN CHOICE empty (log entry 5). -/
  stage : List Byte
  /-- image in the inactive slot of each kind, to take effect at the next bring-up; 18_resilience_power_management.md R443; reset: flash; none (log entry 5). -/
  slots : Vector (Option (List Byte)) 3
  /-- failed boots of the new slot; 18_resilience_power_management.md R443; reset: 0. -/
  boots : Vector Nat 3
  /-- the signed configuration record in force; 18_resilience_power_management.md R444; reset: flash; DESIGN CHOICE the record with no valid bolt (log entry 5). -/
  config : ConfigRec
  /-- the service-core firmware image in force; 18_resilience_power_management.md R446; reset: flash; DESIGN CHOICE empty (log entry 5). -/
  firmware : List Byte
  /-- the record of the old slot while a new one is tried; 18_resilience_power_management.md R443; reset: flash; none (log entry 5). -/
  oldConfig : Option ConfigRec
  /-- the firmware of the old slot while a new one is tried; 18_resilience_power_management.md R443; reset: flash; none (log entry 5). -/
  oldFirmware : Option (List Byte)
  /-- the MC firmware image in force; 18_resilience_power_management.md R443, R445; reset: flash; DESIGN CHOICE empty (log entry 5). -/
  mcfw : List Byte
  /-- the MC firmware of the old slot while a new one is tried; 18_resilience_power_management.md R443; reset: flash; none (log entry 5). -/
  oldMcfw : Option (List Byte)
  /-- names the configuration key whose hash the secure flash holds; 18_resilience_power_management.md R443; reset: flash; DESIGN CHOICE 0 (log entry 5). -/
  ckey : W64
  /-- valid checkpoint marker in flash; 18_resilience_power_management.md R436, R446; reset: flash; DESIGN CHOICE false (log entry 5). -/
  marker : Bool
  /-- the retention rail has held since the checkpoint; 18_resilience_power_management.md R435; reset: true. -/
  retok : Bool
  /-- PFAIL is recognised as asserted; 18_resilience_power_management.md R435; reset: false. -/
  pfail : Bool
  /-- the PFAIL input is low; 18_resilience_power_management.md R435; reset: false: the pull-up. -/
  pfailLow : Bool
  /-- DCC since which the PFAIL input has its level; 18_resilience_power_management.md R435; reset: 0. -/
  pfailSince : Nat
  /-- DCC of the recognition; 18_resilience_power_management.md R436; reset: 0. -/
  pfailAt : Nat
  /-- the checkpoint was taken for temperature; 18_resilience_power_management.md R439; reset: false. -/
  thermal : Bool
  /-- DCC since which every vdev is collapsed in class W2; 18_resilience_power_management.md R434; reset: none. -/
  dormantAt : Option Nat
  /-- DCC of the next patrol scrub; 18_resilience_power_management.md R430; reset: 0. -/
  scrubAt : Nat
  /-- last frequency correction, ppb; 18_resilience_power_management.md R438; reset: 0. -/
  holdover : Int
  /-- DCC offset still to be slewed, ns; 18_resilience_power_management.md R438; reset: 0. -/
  slew : Int
  /-- which time sources are available: port 0, port 1, 1PPS; 18_resilience_power_management.md R438; reset: DESIGN CHOICE none (log entry 5). -/
  avail : Vector Bool 3
  deriving DecidableEq, Repr

/-- `Mc` after reset. -/
def Mc.reset : Mc where
  st := .bringup
  bfail := false
  bstep := 0
  cklost := false
  tsync := 0#32
  toffs := 0#64
  tsrc := 0#32
  bdesc := Vector.replicate 32 0#32
  xmssrem := 1048576
  svn := Vector.replicate 3 0#32
  pwr := 0#32
  loghead := 0#32
  logtail := 0#32
  log := []
  appctl := 0#32
  cdly := Vector.replicate 32 0#32
  hwdrop := 0
  spdrop := 0
  hostdrop := 0
  stage := []
  slots := Vector.replicate 3 none
  boots := Vector.replicate 3 0
  config := ConfigRec.reset
  firmware := []
  oldConfig := none
  oldFirmware := none
  mcfw := []
  oldMcfw := none
  ckey := 0#64
  marker := false
  retok := true
  pfail := false
  pfailLow := false
  pfailSince := 0
  pfailAt := 0
  thermal := false
  dormantAt := none
  scrubAt := 0
  holdover := 0
  slew := 0
  avail := Vector.replicate 3 false

/-- The PF0 registers both ports present (R399). -/
structure Pf where
  /-- FBIND of functions 0–248; 17_host_security_links.md R400; reset: 0 (R400). -/
  fbind : Vector W32 249
  /-- window descriptor w of function f at 4f + w; 17_host_security_links.md R401; reset: see Window. -/
  windows : Vector Window 996
  /-- LEASEX; 17_host_security_links.md R407; reset: 0xFFFF_FFFF_FFFF_FFFF (R407). -/
  leasex : W64
  /-- LEASECTL.ACTIVE; 17_host_security_links.md R407; reset: config; 0 before bring-up (log entry 5). -/
  active : Fin 2
  /-- LEASECTL.ARM; 17_host_security_links.md R407; reset: 0 (R407). -/
  arm : Bool
  /-- LEASECTL.TAKEN; 17_host_security_links.md R407; reset: 0 (R407). -/
  taken : Bool
  /-- control-path buffer; 17_host_security_links.md R403; reset: DESIGN CHOICE 0 (log entry 5). -/
  cbuf : BitVec 512
  /-- control-path STAT; 17_host_security_links.md R403; reset: DESIGN CHOICE 0 (log entry 5). -/
  cstat : W32
  /-- control-path CMDW, last written; 17_host_security_links.md R403; reset: DESIGN CHOICE 0 (log entry 5). -/
  cmdw : W32
  /-- what the control path's command waits on; 15_bolts_scheduling.md R447; reset: none. -/
  cwait : Wait
  /-- mailbox FN; 18_resilience_power_management.md R441; reset: DESIGN CHOICE 0 (log entry 5). -/
  mfn : W64
  /-- mailbox ARG; 18_resilience_power_management.md R441; reset: DESIGN CHOICE 0 (log entry 5). -/
  marg : W64
  /-- mailbox RESULT; 18_resilience_power_management.md R441; reset: DESIGN CHOICE 0 (log entry 5). -/
  mres : W64
  /-- mailbox STAT; 18_resilience_power_management.md R441; reset: DESIGN CHOICE 0 (log entry 5). -/
  mstat : W32
  /-- mailbox buffer, 4,032 bytes; unlisted bytes are 0; 18_resilience_power_management.md R441; reset: DESIGN CHOICE 0 (log entry 5). -/
  mbuf : List (Nat × Byte)
  /-- the TDI of each VF (entry 0 unused); 17_host_security_links.md R413; reset: see Tdi. -/
  tdis : Vector Tdi 249
  deriving DecidableEq, Repr

/-- `Pf` after reset. -/
def Pf.reset : Pf where
  fbind := Vector.replicate 249 0#32
  windows := Vector.replicate 996 Window.reset
  leasex := 0xffffffffffffffff#64
  active := 0
  arm := false
  taken := false
  cbuf := 0#512
  cstat := 0#32
  cmdw := 0#32
  cwait := .no
  mfn := 0#64
  marg := 0#64
  mres := 0#64
  mstat := 0#32
  mbuf := []
  tdis := Vector.replicate 249 Tdi.reset

/-- A trap cause raised in the current cycle (R322–R324). -/
structure Raise where
  /-- tile; 14_privilege_traps_context.md R326. -/
  tile : Fin 128
  /-- CAUSE; 14_privilege_traps_context.md R322. -/
  cause : Nat
  /-- DETAIL; 14_privilege_traps_context.md R324. -/
  detail : Nat
  /-- slot in presence order; 14_privilege_traps_context.md R324. -/
  slot : Nat
  /-- FADDR; 14_privilege_traps_context.md R326. -/
  faddr : W32
  /-- CODE; 14_privilege_traps_context.md R326. -/
  code : BitVec 17
  /-- EA; 14_privilege_traps_context.md R326. -/
  ea : W64
  /-- SPSC; 14_privilege_traps_context.md R326. -/
  spsc : Nat
  /-- end class (R323); 14_privilege_traps_context.md R323. -/
  late : Bool
  deriving DecidableEq, Repr

/-- The bundle being issued: the model's own issue context. -/
structure Iss where
  /-- address of the bundle; 06_isa_control_scalar.md R147; reset: 0 (log entry 1). -/
  addr : W32
  /-- its length in bytes; 05_encoding.md R118; reset: 0 (log entry 1). -/
  len : Nat
  /-- slot 0–7 of the operation in hand; 05_encoding.md R118; reset: 0 (log entry 1). -/
  slot : Nat
  /-- address of the next bundle, so far; 06_isa_control_scalar.md R147; reset: 0 (log entry 1). -/
  next : W32
  /-- `lnext` replaced the end check; 06_isa_control_scalar.md R147; reset: false (log entry 1). -/
  taken : Bool
  /-- idle cycles the bundle leaves to run; 05_encoding.md R120; reset: 0 (log entry 1). -/
  idle : Nat
  deriving DecidableEq, Repr

/-- `Iss` after reset. -/
def Iss.reset : Iss where
  addr := 0#32
  len := 0
  slot := 0
  next := 0#32
  taken := false
  idle := 0

/-- What the device sends to the outside (R406, R420, R417). -/
inductive Out where
  | msix (port : Fin 2) (fn vec : Nat)
  | ats (port : Fin 2) (fn upage pasid : Nat) (tbit : Bool)
  | pageReq (port : Fin 2) (fn prgi upage pasid : Nat) (need : BitVec 2)
  | invDone (port : Fin 2)
  | flit (port : Fin 8) (raw : BitVec 1408)
  | read (port : Fin 2) (value : Option (List Byte))
  | spdm (port : Fin 2) (code : Nat)
  | report (port : Fin 2) (block : Nat) (ranges : List (W64 × W64))
  | backInv (port : Fin 2) (line : Nat)
  deriving DecidableEq, Repr

/-- A flit of the service channels (R420, R424, R425, R429). -/
inductive SvcBody where
  | tack (tk : TackIn)
  | vote (suspect voter : Fin 128) (since : Nat) (relay withdraw reinst : Bool)
  | fence (suspect : Fin 128)
  | unfence (suspect : Fin 128)
  deriving DecidableEq, Repr

/-- Such a flit on its way to a router, with the seam on which it arrives there. -/
structure SvcFlit where
  /-- the receiving router; 18_resilience_power_management.md R420. -/
  dest : Fin 128
  /-- its seam: E, S, W, N; 18_resilience_power_management.md R420. -/
  seam : Fin 4
  /-- what it carries; 18_resilience_power_management.md R420. -/
  body : SvcBody
  deriving DecidableEq, Repr

/-- The device: everything the spec gives the machine. -/
structure Dev where
  /-- every memory of the device and of its hosts, in canonical form, by the keys of Ops (R17, R107, R319, R378); 01_machine.md R17; reset: no byte listed; an unlisted byte reads 0 (log entry 2). -/
  mem : List Host.Cell
  /-- 8-byte words (key div 8) that hold an uncorrectable error; 18_resilience_power_management.md R430; reset: empty. -/
  badWords : List Nat
  /-- 8-byte words that hold a correctable error; 18_resilience_power_management.md R430; reset: empty. -/
  softWords : List Nat
  /-- the tiles n = 16y + x; 01_machine.md R9; reset: see Tile. -/
  tiles : Vector Tile 128
  /-- the service cores; 14_privilege_traps_context.md R319; reset: see Svc. -/
  svcs : Vector Svc 32
  /-- the quads; 01_machine.md R9; reset: see Quad. -/
  quads : Vector Quad 32
  /-- the routers; 15_bolts_scheduling.md R350; reset: see Router. -/
  routers : Vector Router 128
  /-- placed panels; 02_execution.md R25; reset: empty. -/
  panels : List Panel
  /-- the bolts' run-time state; 15_bolts_scheduling.md R348; reset: see Bolt. -/
  bolts : Vector Bolt 32
  /-- the vdevs, at most 1,024; 15_bolts_scheduling.md R353; reset: empty. -/
  vdevs : List Vdev
  /-- the generation of every vdev number; 15_bolts_scheduling.md R353; reset: DESIGN CHOICE 0 (log entry 3). -/
  gens : Vector W32 1024
  /-- admitted reservations, at most 64; 15_bolts_scheduling.md R366; reset: empty. -/
  resvs : List Resv
  /-- number of the next accepted launch; 15_bolts_scheduling.md R361; reset: 0. -/
  nextLaunch : Nat
  /-- the host ports; 17_host_security_links.md R398; reset: see HostPort. -/
  ports : Vector HostPort 2
  /-- the PF0 registers; 17_host_security_links.md R399; reset: see Pf. -/
  pf : Pf
  /-- the seam ports; 17_host_security_links.md R416; reset: see SeamPort. -/
  seams : Vector SeamPort 8
  /-- far messages on their way inside the device (those of the seam ports wait in their receive buffers); 09_isa_memory_exchange.md R252; reset: empty. -/
  far : List SeamFlit
  /-- `launch` and `evpost` operations that the placers have accepted and still have to perform, oldest first; 09_isa_memory_exchange.md R234; reset: empty. -/
  posted : List Posted
  /-- tiles whose bytes `ctxs` has written; 14_privilege_traps_context.md R346; reset: empty. -/
  ctxs : List KeptCtx
  /-- tacks, vote flits, fence flits and unfence flits on their way on the service channels, oldest first; 18_resilience_power_management.md R420; reset: empty. -/
  flits : List SvcFlit
  /-- the management controller; 18_resilience_power_management.md R438; reset: see Mc. -/
  mc : Mc
  /-- real time since power-on, in 1/168 ns (the model's own; every clock step divides it); 01_machine.md R12; reset: 0 (log entry 1). -/
  now : Nat
  /-- DCC in ns, 64 bits; 18_resilience_power_management.md R438; reset: DESIGN CHOICE 0 (log entry 3). -/
  dcc : Nat
  /-- trap causes raised in the current cycle; 14_privilege_traps_context.md R323; reset: empty. -/
  raised : List Raise
  /-- what has been sent outside, newest first; 17_host_security_links.md R406; reset: empty. -/
  outs : List Out
  /-- the model's own counter, to which free values are applied; none: the model's own (log entry 7); reset: DESIGN CHOICE 0 (log entry 7). -/
  fresh : Nat
  deriving DecidableEq, Repr

/-- `Dev` after reset. -/
def Dev.reset : Dev where
  mem := []
  badWords := []
  softWords := []
  tiles := Vector.replicate 128 Tile.reset
  svcs := Vector.replicate 32 Svc.reset
  quads := Vector.replicate 32 Quad.reset
  routers := Vector.replicate 128 Router.reset
  panels := []
  bolts := Vector.replicate 32 Bolt.reset
  vdevs := []
  gens := Vector.replicate 1024 0#32
  resvs := []
  nextLaunch := 0
  ports := Vector.replicate 2 HostPort.reset
  pf := Pf.reset
  seams := Vector.replicate 8 SeamPort.reset
  far := []
  posted := []
  ctxs := []
  flits := []
  mc := Mc.reset
  now := 0
  dcc := 0
  raised := []
  outs := []
  fresh := 0

/-- Who issues an operation: a tile or a service core. -/
inductive Agent where
  | tile (n : Fin 128)
  | svc (q : Fin 32)
  deriving DecidableEq, Repr

/-- What comes from outside the device (R318, R398, R430, R435, R438, R439): an event of the table that an outside agent causes,
a byte that a host writes into its own memory, what a host writes into configuration space (enabled VFs, a masked vector, its
page-request allocation, an HDM decoder), a host's read of registers (BAR0 of a function, BAR1 of PF0), an error that strikes a word, a
temperature or power reading. -/
inductive Input where
  | event (i : Instr)
  | hostByte (port : Fin 2) (addr : Nat) (b : Byte)
  | vfs (port : Fin 2) (n : Nat)
  | mask (port : Fin 2) (f : Fin 249) (vec : Nat)
  | pageAlloc (port : Fin 2) (f : Fin 249) (n : Nat)
  | hdm (port : Fin 2) (i : Fin 2) (base size dpa : W64)
  | barRead (port : Fin 2) (bar : Fin 2) (f : Fin 249) (off n : Nat) (tbit : Option Nat)
  | strike (word : Nat) (correctable : Bool)
  | temp (q : Fin 32) (t : W32)
  | power (mw : W32)
  | selfCheck (t : Fin 128) (result : W32)
  | mcMessage (q : Fin 32)
  | pfail (low : Bool)
  | timeSource (k : Fin 3) (up : Bool)
  | vfBars (port : Fin 2) (f : Fin 249)
  | regStrike (t : Fin 128) (c : PoisonClass) (r : Fin 32) (correctable : Bool)
  deriving DecidableEq, Repr

/-- One item of the work a clock cycle or a tick consists of. `cycle` plans the next tile cycle of a panel and `svc` the next
bundle of a service core; `op` runs one operation of a bundle (its address, length, slot,
and whether it is the first of its bundle); `ev` runs an event of the table; `tick` plans the steps of a placer's tick (R368); the others
close a bundle, the issue of a panel's cycle and a panel's cycle. -/
inductive Micro where
  | cycle (h : Nat)
  | svc (q : Fin 32)
  | op (a : Agent) (addr : W32) (len slot : Nat) (first : Bool) (i : Instr)
  | ev (i : Instr)
  | endBundle (a : Agent) (addr : W32) (len : Nat) (first : Bool)
  | endIssue (h : Nat)
  | endCycle (h : Nat)
  | tick (b : Fin 32) (stage : Fin 4)
  deriving DecidableEq, Repr

/-- The machine: the device, and the model's own place inside a cycle. -/
structure State where
  /-- the device; 01_machine.md R9; reset: see Dev. -/
  dev : Dev
  /-- the device as it stood at the start of the cycle in hand, to which an issue-class trap returns (R323); none: the model's own (log entry 1); reset: none (log entry 1). -/
  saved : Option Dev
  /-- what is left of the cycle or tick in hand; none: the model's own (log entry 1); reset: DESIGN CHOICE empty (log entry 1). -/
  agenda : List Micro
  /-- what has come from outside and has not been acted on; 17_host_security_links.md R398; reset: empty (log entry 6). -/
  inbox : List Input
  /-- who issues the operation in hand; none: the model's own (log entry 1); reset: DESIGN CHOICE tile 0 (log entry 1). -/
  cur : Agent
  /-- the bundle in hand; none: the model's own (log entry 1); reset: see Iss. -/
  iss : Iss
  deriving DecidableEq, Repr

/-- `State` after reset. -/
def State.reset : State where
  dev := Dev.reset
  saved := none
  agenda := []
  inbox := []
  cur := .tile 0
  iss := Iss.reset

end Machine

end Sys2Proof
end

