-- ==== Sys2Proof/Machine/Bits.lean ====
section
/-! DEFINITION. Bit, byte and list helpers that the operations share: fields of words, little-endian bytes (R4, R59), sorting and
the CRC-32C of R196 and R268. -/

namespace Sys2Proof.Machine

/-- Bits [lo + n − 1 : lo] of a natural number. -/
def field (v lo n : Nat) : Nat := v / 2 ^ lo % 2 ^ n

/-- One bit of a natural number. -/
def bit (v i : Nat) : Bool := v / 2 ^ i % 2 == 1

/-- 1 for true, 0 for false. -/
def b2n (b : Bool) : Nat := if b then 1 else 0

/-- The low `n` bits of an integer, in two's complement: Wrap (R3). -/
def wrap (n : Nat) (x : Int) : BitVec n := BitVec.ofInt n x

/-- Bit vectors: `new` where `mask` is set, `old` elsewhere. -/
def blend {n : Nat} (mask new old : BitVec n) : BitVec n := (new &&& mask) ||| (old &&& ~~~mask)

/-- Sets or clears one bit. -/
def setBit {n : Nat} (v : BitVec n) (i : Nat) (b : Bool) : BitVec n :=
  let m := BitVec.ofNat n (2 ^ i)
  if b then v ||| m else v &&& ~~~m

/-- Replaces bits [lo + w − 1 : lo] by the low `w` bits of `x`. -/
def putField {n : Nat} (v : BitVec n) (lo w x : Nat) : BitVec n :=
  let m := BitVec.ofNat n ((2 ^ w - 1) * 2 ^ lo)
  blend m (BitVec.ofNat n (x % 2 ^ w * 2 ^ lo)) v

/-- Little-endian bytes (R4): byte 0 is the least significant. -/
def leNat : List Byte → Nat
  | [] => 0
  | b :: r => b.toNat + 256 * leNat r

/-- The `n` little-endian bytes of a value. -/
def leBytes : Nat → Nat → List Byte
  | 0, _ => []
  | n + 1, v => BitVec.ofNat 8 v :: leBytes n (v / 256)

/-- Sign extension of an `n`-bit value, as an integer. -/
def signed (n v : Nat) : Int := if 2 ^ (n - 1) ≤ v % 2 ^ n then (v % 2 ^ n : Int) - 2 ^ n else (v % 2 ^ n : Int)

/-- ⌈log2 n⌉. -/
def clog2 (n : Nat) : Nat := if n ≤ 1 then 0 else Nat.log2 (n - 1) + 1

/-- Sum of a list. -/
def sumList (l : List Nat) : Nat := l.foldr (· + ·) 0

/-- Inserts into a list sorted by a key, after entries of the same key. -/
def insertBy {α : Type} (k : α → Nat) (x : α) : List α → List α
  | [] => [x]
  | y :: r => if k y ≤ k x then y :: insertBy k x r else x :: y :: r

/-- Stable insertion sort by a key. -/
def sortBy {α : Type} (k : α → Nat) (l : List α) : List α := l.foldl (fun acc x => insertBy k x acc) []

/-- The entry with the least key, the first of equals. -/
def minBy {α : Type} (k : α → Nat) : List α → Option α
  | [] => none
  | x :: r =>
    match minBy k r with
    | none => some x
    | some y => if k x ≤ k y then some x else some y

/-- Removes the `i`-th entry. -/
def dropAt {α : Type} (l : List α) (i : Nat) : List α := l.take i ++ l.drop (i + 1)

/-- One bit of the reflected CRC-32C (polynomial 0x1EDC6F41, R196). -/
def crcBit (c : Nat) : Nat := if c % 2 = 1 then (c / 2) ^^^ 0x82f63b78 else c / 2

/-- One byte of the CRC-32C register, without the initial and final inversions. -/
def crcByte (c : Nat) (b : Byte) : Nat := (List.range 8).foldl (fun x _ => crcBit x) (c ^^^ b.toNat)

/-- The CRC-32C register advanced over bytes. -/
def crcRun (c : Nat) (bs : List Byte) : Nat := bs.foldl crcByte c

/-- The CRC-32C of bytes, with the initial and final inversions (R7, R141). -/
def crc32c (bs : List Byte) : W32 := BitVec.ofNat 32 (crcRun 0xffffffff bs ^^^ 0xffffffff)

end Sys2Proof.Machine
end

