-- ==== Sys2Proof/Machine/Ops.lean ====
section
/-! DEFINITION. The named operations over memory, registers, timed results and traps that every meaning uses: the device's memories,
the parts of the device, reading and writing registers, queueing a result for its due cycle (R15), raising a trap, entering and
leaving the frozen state of a panel (R322–R326, R333) and entering and leaving the handler of a service core (R321, R330). -/

namespace Sys2Proof.Machine

/-! Memory -/

/-- Memory holds no byte equal to 0 and lists its addresses rising: its one canonical form. -/
def memWf : List Host.Cell → Bool
  | [] => true
  | [(_, b)] => b != 0
  | (a, b) :: (c, e) :: r => b != 0 && decide (a < c) && memWf ((c, e) :: r)

/-- The byte at an address. DESIGN CHOICE, unsafe (log entry 2): a byte that nothing has written reads 0. -/
def memRead : List Host.Cell → Nat → Byte
  | [], _ => 0#8
  | (a, b) :: r, k => if k = a then b else if k < a then 0#8 else memRead r k

/-- Writes one byte and keeps the canonical form. -/
def memWrite : List Host.Cell → Nat → Byte → List Host.Cell
  | [], k, v => if v = 0#8 then [] else [(k, v)]
  | (a, b) :: r, k, v =>
    if a < k then (a, b) :: memWrite r k v
    else
      let tail := if a = k then r else (a, b) :: r
      if v = 0#8 then tail else (k, v) :: tail

/-- Writes consecutive bytes. -/
def memWriteList (m : List Host.Cell) : Nat → List Byte → List Host.Cell
  | _, [] => m
  | k, b :: r => memWriteList (memWrite m k b) (k + 1) r

/-- Zeroes `n` bytes. -/
def memClear (m : List Host.Cell) (lo n : Nat) : List Host.Cell := m.filter fun c => decide (c.1 < lo) || decide (lo + n ≤ c.1)

/-- Copies the `n` bytes at `src` over the `n` bytes at `dst`. -/
def memCopy (m : List Host.Cell) (src dst n : Nat) : List Host.Cell :=
  let moved := (m.filter fun c => decide (src ≤ c.1) && decide (c.1 < src + n))
  moved.foldl (fun acc c => memWrite acc (dst + (c.1 - src)) c.2) (memClear m dst n)

/-! Where each memory lies in the model's one list of bytes -/

/-- TSP of a tile, physical offset (R17, R107). -/
def tspKey (n : Fin 128) (o : Nat) : Nat := n.val * 2 ^ 20 + o

/-- Vault of a tile; the save window begins at offset 0x18_0000 (R107). -/
def vaultKey (n : Fin 128) (o : Nat) : Nat := 2 ^ 28 + n.val * 2 ^ 21 + o

/-- ISP of a tile: half A at 0, half B at 2^17, the resident region at 2^18 (R17, R103). -/
def ispKey (n : Fin 128) (o : Nat) : Nat := 2 ^ 30 + n.val * 2 ^ 19 + o

/-- Local memory of a service core (R319). -/
def svcKey (q : Fin 32) (o : Nat) : Nat := 2 ^ 31 + q.val * 2 ^ 18 + o

/-- LPDDR 6 channel of a quad (R17, R18). -/
def dramKey (q : Fin 32) (o : Nat) : Nat := 2 ^ 40 + q.val * 2 ^ 33 + o

/-- Memory of the host on a port (R17, R113). -/
def hostKey (p : Fin 2) (a : Nat) : Nat := 2 ^ 64 * (1 + p.val) + a

/-- The byte at an address of the device; a byte of a word with an uncorrectable error is a free value (log entry 15). -/
def Dev.byte (d : Dev) (k : Nat) : Byte := if d.badWords.contains (k / 8) then Config.badByte k else memRead d.mem k

/-- `n` consecutive bytes. -/
def Dev.bytes (d : Dev) (k n : Nat) : List Byte := (List.range n).map fun i => d.byte (k + i)

/-- The 32-bit word at an address (R4). -/
def Dev.word (d : Dev) (k : Nat) : W32 := BitVec.ofNat 32 (leNat (d.bytes k 4))

/-- The 64-bit word at an address. -/
def Dev.dword (d : Dev) (k : Nat) : W64 := BitVec.ofNat 64 (leNat (d.bytes k 8))

/-- Whether one of `n` bytes lies in a word with an uncorrectable error (R430). -/
def Dev.bad (d : Dev) (k n : Nat) : Bool := d.badWords.any fun w => decide (w * 8 < k + n) && decide (k < w * 8 + 8)

/-- Writes consecutive bytes; a word that is written whole holds no error any more (R430). -/
def Dev.write (d : Dev) (k : Nat) (bs : List Byte) : Dev :=
  let fixed := fun w => decide (k ≤ w * 8) && decide (w * 8 + 8 ≤ k + bs.length)
  { d with mem := memWriteList d.mem k bs
           badWords := d.badWords.filter fun w => !fixed w
           softWords := d.softWords.filter fun w => !fixed w }

/-- Zeroes `n` bytes. -/
def Dev.clear (d : Dev) (k n : Nat) : Dev :=
  let fixed := fun w => decide (k ≤ w * 8) && decide (w * 8 + 8 ≤ k + n)
  { d with mem := memClear d.mem k n
           badWords := d.badWords.filter fun w => !fixed w
           softWords := d.softWords.filter fun w => !fixed w }

/-- Copies `n` bytes. -/
def Dev.copy (d : Dev) (src dst n : Nat) : Dev := { d with mem := memCopy d.mem src dst n }

/-! The parts of the device -/

/-- Changes one tile. -/
def Dev.onTile (d : Dev) (n : Fin 128) (f : Tile → Tile) : Dev := { d with tiles := d.tiles.set n (f d.tiles[n]) }

/-- Changes one service core. -/
def Dev.onSvc (d : Dev) (q : Fin 32) (f : Svc → Svc) : Dev := { d with svcs := d.svcs.set q (f d.svcs[q]) }

/-- Changes one quad. -/
def Dev.onQuad (d : Dev) (q : Fin 32) (f : Quad → Quad) : Dev := { d with quads := d.quads.set q (f d.quads[q]) }

/-- Changes one router. -/
def Dev.onRouter (d : Dev) (n : Fin 128) (f : Router → Router) : Dev := { d with routers := d.routers.set n (f d.routers[n]) }

/-- Changes one bolt. -/
def Dev.onBolt (d : Dev) (b : Fin 32) (f : Bolt → Bolt) : Dev := { d with bolts := d.bolts.set b (f d.bolts[b]) }

/-- Changes one host port. -/
def Dev.onPort (d : Dev) (p : Fin 2) (f : HostPort → HostPort) : Dev := { d with ports := d.ports.set p (f d.ports[p]) }

/-- Changes one seam port. -/
def Dev.onSeam (d : Dev) (p : Fin 8) (f : SeamPort → SeamPort) : Dev := { d with seams := d.seams.set p (f d.seams[p]) }

/-- Changes one panel. -/
def Dev.onPanel (d : Dev) (h : Nat) (f : Panel → Panel) : Dev :=
  { d with panels := d.panels.map fun p => if p.handle = h then f p else p }

/-- Changes one vdev. -/
def Dev.onVdev (d : Dev) (v : Nat) (f : Vdev → Vdev) : Dev :=
  { d with vdevs := d.vdevs.map fun x => if x.num = v then f x else x }

/-- Changes one reservation. -/
def Dev.onResv (d : Dev) (r : Nat) (f : Resv → Resv) : Dev :=
  { d with resvs := d.resvs.map fun x => if x.num = r then f x else x }

/-- Changes the management controller. -/
def Dev.onMc (d : Dev) (f : Mc → Mc) : Dev := { d with mc := f d.mc }

/-- A placed panel. -/
def Dev.panel (d : Dev) (h : Nat) : Option Panel := d.panels.find? fun p => p.handle = h

/-- A vdev. -/
def Dev.vdev (d : Dev) (v : Nat) : Option Vdev := d.vdevs.find? fun x => x.num = v

/-- A reservation. -/
def Dev.resv (d : Dev) (r : Nat) : Option Resv := d.resvs.find? fun x => x.num = r

/-- A number of 0 to n − 1 as an index, modulo n. -/
def idx (n : Nat) [NeZero n] (x : Nat) : Fin n := Fin.ofNat n x

/-- The tile at device coordinates (R9). -/
def tileAt (x y : Nat) : Fin 128 := idx 128 (16 * (y % 8) + x % 16)

/-- The quad of a tile (R9). -/
def quadOf (n : Fin 128) : Fin 32 := idx 32 (8 * (n.val / 16 / 2) + n.val % 16 / 2)

/-- The tile of a panel's rank (R25). -/
def Panel.tile (p : Panel) (r : Nat) : Fin 128 := tileAt (p.x0 + r % p.w) (p.y0 + r / p.w)

/-- How many tiles a panel has. -/
def Panel.size (p : Panel) : Nat := p.w * p.h

/-- The tiles of a panel in rank order. -/
def Panel.tiles (p : Panel) : List (Fin 128) := (List.range p.size).map p.tile

/-- The panel that holds a tile. -/
def Dev.panelOf (d : Dev) (n : Fin 128) : Option Panel :=
  match d.tiles[n].owner with
  | .panel h => d.panel h
  | _ => none

/-- The PSC of the panel that holds a tile (R32). -/
def Dev.psc (d : Dev) (n : Fin 128) : Nat :=
  match d.panelOf n with
  | some p => p.psc
  | none => 0

/-- A bit vector's field as a number. -/
def fieldOf {n : Nat} (v : BitVec n) (lo w : Nat) : Nat := field v.toNat lo w

/-! Bolts (R348) -/

/-- BDESC.VALID of a bolt. -/
def Dev.boltValid (d : Dev) (b : Fin 32) : Bool := d.mc.bdesc[b].getLsbD 31

/-- X0, in quads, of a bolt (R348). -/
def Dev.boltX (d : Dev) (b : Fin 32) : Nat := fieldOf d.mc.bdesc[b] 0 3

/-- Y0, in quads, of a bolt (R348). -/
def Dev.boltY (d : Dev) (b : Fin 32) : Nat := fieldOf d.mc.bdesc[b] 3 2

/-- Width of a bolt in quads. -/
def Dev.boltW (d : Dev) (b : Fin 32) : Nat := fieldOf d.mc.bdesc[b] 5 3 + 1

/-- Height of a bolt in quads. -/
def Dev.boltH (d : Dev) (b : Fin 32) : Nat := fieldOf d.mc.bdesc[b] 8 2 + 1

/-- Whether a quad belongs to a bolt. -/
def Dev.boltHasQuad (d : Dev) (b : Fin 32) (q : Fin 32) : Bool :=
  let x := q.val % 8
  let y := q.val / 8
  d.boltValid b && decide (d.boltX b ≤ x) && decide (x < d.boltX b + d.boltW b)
    && decide (d.boltY b ≤ y) && decide (y < d.boltY b + d.boltH b)

/-- The bolt of a quad, if any. -/
def Dev.boltOfQuad (d : Dev) (q : Fin 32) : Option (Fin 32) := (List.finRange 32).find? fun b => d.boltHasQuad b q

/-- The bolt of a tile, if any. -/
def Dev.boltOf (d : Dev) (n : Fin 128) : Option (Fin 32) := d.boltOfQuad (quadOf n)

/-- The quads of a bolt in ascending order. -/
def Dev.boltQuads (d : Dev) (b : Fin 32) : List (Fin 32) := (List.finRange 32).filter (d.boltHasQuad b)

/-- The tiles of a bolt in ascending order. -/
def Dev.boltTiles (d : Dev) (b : Fin 32) : List (Fin 128) := (List.finRange 128).filter fun n => d.boltHasQuad b (quadOf n)

/-! Counters and the event log -/

/-- A 32-bit counter that saturates (R42, R431). -/
def satAdd (x k : Nat) : Nat := Nat.min (x + k) 0xffffffff

/-- Adds to error counter `k` of a bolt (R431). -/
def Dev.count (d : Dev) (b : Fin 32) (k : Fin 14) (n : Nat) : Dev :=
  d.onBolt b fun x => { x with counters := x.counters.set k (satAdd x.counters[k] n) }

/-- Adds to an error counter of the bolt of a tile. -/
def Dev.countTile (d : Dev) (t : Fin 128) (k : Fin 14) (n : Nat) : Dev :=
  match d.boltOf t with
  | some b => d.count b k n
  | none => d

/-- A record as bits: (offset in bytes, size in bytes, value) (R4). -/
def packFields (n : Nat) (l : List (Nat × Nat × Nat)) : BitVec n :=
  BitVec.ofNat n (sumList (l.map fun f => f.2.2 % 256 ^ f.2.1 * 256 ^ f.1))

/-- A field of a record: `size` bytes at byte `off`. -/
def recField {n : Nat} (r : BitVec n) (off size : Nat) : Nat := field r.toNat (8 * off) (8 * size)

/-- Appends a record to the event log (R440); the fields that the spec leaves unstated are free values (log entry 16). -/
def Dev.logEvent (d : Dev) (kind : Nat) (bolt tile : Option Nat) (data : Option Nat) : Dev :=
  let free := fun i => (Config.logField kind i d.fresh).toNat
  let r : BitVec 256 := packFields 256
    [(0, 1, kind), (1, 1, free 0), (2, 1, bolt.getD (free 1)), (3, 1, tile.getD (free 2)), (8, 8, d.dcc),
     (16, 16, data.getD (free 3))]
  let slot := d.mc.logtail.toNat % 4096
  let full := decide (4096 ≤ (d.mc.logtail - d.mc.loghead).toNat)
  { d with mc := { d.mc with log := (slot, r) :: d.mc.log.filter (fun x => x.1 != slot)
                             logtail := d.mc.logtail + 1#32
                             loghead := if full then d.mc.loghead + 1#32 else d.mc.loghead }
           fresh := d.fresh + 1 }

/-- The tile whose memories hold a key. -/
def tileOfKey (k : Nat) : Option (Fin 128) :=
  if k < 2 ^ 27 then some (idx 128 (k / 2 ^ 20))
  else if 2 ^ 28 ≤ k ∧ k < 2 ^ 28 + 2 ^ 28 then some (idx 128 ((k - 2 ^ 28) / 2 ^ 21))
  else if 2 ^ 30 ≤ k ∧ k < 2 ^ 30 + 2 ^ 26 then some (idx 128 ((k - 2 ^ 30) / 2 ^ 19))
  else none

/-- Accounts for the memory errors that an access to `n` bytes meets: corrected words are repaired and counted, uncorrectable ones
counted and logged (R430, R440). -/
def Dev.ecc (d : Dev) (b : Option (Fin 32)) (k n : Nat) : Dev :=
  let hit := fun w => decide (w * 8 < k + n) && decide (k < w * 8 + 8)
  let soft := (d.softWords.filter hit).length
  let bad := (d.badWords.filter hit).length
  let log := fun (d : Dev) (_ : Nat) => d.logEvent 0x04 (b.map Fin.val) ((tileOfKey k).map Fin.val) none
  let d1 := (List.range bad).foldl log { d with softWords := d.softWords.filter fun w => !hit w }
  b.elim d1 fun b => (d1.count b 6 soft).count b 7 bad

/-! Who issues, and the registers it reads -/

/-- The tile that issues, or tile 0 for a service core. -/
def State.tileNo (s : State) : Fin 128 :=
  match s.cur with
  | .tile n => n
  | .svc _ => 0

/-- The issuing tile. -/
def State.tile (s : State) : Tile := s.dev.tiles[s.tileNo]

/-- The PSC of the issuing tile. -/
def State.psc (s : State) : Nat := s.dev.psc s.tileNo

/-- Whether a service core issues. -/
def State.isSvc (s : State) : Bool :=
  match s.cur with
  | .tile _ => false
  | .svc _ => true

/-- Changes the device. -/
def State.onDev (s : State) (f : Dev → Dev) : State := { s with dev := f s.dev }

/-- Changes the issuing tile. -/
def State.onTile (s : State) (f : Tile → Tile) : State := s.onDev fun d => d.onTile s.tileNo f

/-- Changes the issue context. -/
def State.onIss (s : State) (f : Iss → Iss) : State := { s with iss := f s.iss }

/-- The device as it stood at the start of the cycle (R94). -/
def State.start (s : State) : Dev := s.saved.getD s.dev

/-- k[r]; k0 reads 0 (R90). -/
def State.readK (s : State) (r : Fin 16) : W32 :=
  if r = 0 then 0#32
  else match s.cur with
    | .tile n => s.dev.tiles[n].r.k[r]
    | .svc q => s.dev.svcs[q].k[r]

/-- s[r]; s0 reads 0 (R90). -/
def State.readS (s : State) (r : Fin 32) : W64 :=
  if r = 0 then 0#64
  else match s.cur with
    | .tile n => s.dev.tiles[n].r.s[r]
    | .svc q => s.dev.svcs[q].s[r]

/-- The poison bit of s[r]; s0 is unpoisoned (R40, R90). -/
def State.poisonS (s : State) (r : Fin 32) : Bool :=
  if r = 0 then false
  else match s.cur with
    | .tile n => s.dev.tiles[n].r.sPoison.getLsbD r.val
    | .svc q => s.dev.svcs[q].sPoison.getLsbD r.val

/-- p[r]; p0 reads true (R90). -/
def State.readP (s : State) (r : Fin 8) : Bool :=
  if r = 0 then true
  else match s.cur with
    | .tile n => s.dev.tiles[n].r.p.getLsbD r.val
    | .svc q => s.dev.svcs[q].p.getLsbD r.val

/-- A vector register of a tile. -/
def Tile.vec (t : Tile) (f : VFile) (r : Fin 32) : VReg :=
  match f with
  | .a => t.r.va[r]
  | .b => t.r.vb[r]

/-- The poison bit of a vector register. -/
def Tile.vecPoison (t : Tile) (f : VFile) (r : Fin 32) : Bool :=
  match f with
  | .a => t.r.vaPoison.getLsbD r.val
  | .b => t.r.vbPoison.getLsbD r.val

/-- A mask register of a tile. -/
def Tile.mask (t : Tile) (f : VFile) (r : Fin 8) : W32 :=
  match f with
  | .a => t.r.ma[r]
  | .b => t.r.mb[r]

/-- A vector register of the issuing tile. -/
def State.readV (s : State) (f : VFile) (r : Fin 32) : VReg := s.tile.vec f r

/-- The poison bit of a vector register of the issuing tile. -/
def State.poisonV (s : State) (f : VFile) (r : Fin 32) : Bool := s.tile.vecPoison f r

/-- A mask register of the issuing tile. -/
def State.readM (s : State) (f : VFile) (r : Fin 8) : W32 := s.tile.mask f r

/-- Whether the cluster of a vector register is gated, or awake but still in its wake window at `psc` (R156, R157). -/
def Tile.clusterOff (t : Tile) (f : VFile) (r : Fin 32) (psc : Nat) : Bool :=
  let c := r.val / 8
  match f with
  | .a => !t.sr.awakeA.getLsbD c || decide (psc < t.sr.wakeEnd[idx 8 c])
  | .b => !t.sr.awakeB.getLsbD c || decide (psc < t.sr.wakeEnd[idx 8 (4 + c)])

/-! Status registers of a tile -/

/-- Sets bit `i` of TSTAT (R98). -/
def Tile.setTstat (t : Tile) (i : Nat) : Tile := { t with sr := { t.sr with tstat := setBit t.sr.tstat i true } }

/-- Counts a dropped poisoned write (R41, R42). -/
def Tile.dropPoisoned (t : Tile) : Tile :=
  { t with sr := { t.sr with pdcnt := BitVec.ofNat 32 (satAdd t.sr.pdcnt.toNat 1), tstat := setBit t.sr.tstat 0 true } }

/-- ORs flags into FSTA or FSTB (R70). -/
def Tile.orFlags (t : Tile) (f : VFile) (fl : BitVec 6) : Tile :=
  match f with
  | .a => { t with sr := { t.sr with fsta := t.sr.fsta ||| fl.setWidth 32 } }
  | .b => { t with sr := { t.sr with fstb := t.sr.fstb ||| fl.setWidth 32 } }

/-! Writing registers -/

/-- Writes an s register with its poison bit; s0 discards the write (R90). -/
def Tile.writeS (t : Tile) (r : Fin 32) (v : W64) (poison : Bool) : Tile :=
  if r = 0 then t
  else { t with r := { t.r with s := t.r.s.set r v, sPoison := setBit t.r.sPoison r.val poison } }

/-- Writes a k register; k0 discards the write. -/
def Tile.writeK (t : Tile) (r : Fin 16) (v : W32) : Tile :=
  if r = 0 then t else { t with r := { t.r with k := t.r.k.set r v } }

/-- Writes a predicate; p0 discards the write. -/
def Tile.writeP (t : Tile) (r : Fin 8) (v : Bool) : Tile :=
  if r = 0 then t else { t with r := { t.r with p := setBit t.r.p r.val v } }

/-- Writes a vector register with its poison bit. -/
def Tile.writeV (t : Tile) (f : VFile) (r : Fin 32) (v : VReg) (poison : Bool) : Tile :=
  match f with
  | .a => { t with r := { t.r with va := t.r.va.set r v, vaPoison := setBit t.r.vaPoison r.val poison } }
  | .b => { t with r := { t.r with vb := t.r.vb.set r v, vbPoison := setBit t.r.vbPoison r.val poison } }

/-- Writes a mask register. -/
def Tile.writeM (t : Tile) (f : VFile) (r : Fin 8) (v : W32) : Tile :=
  match f with
  | .a => { t with r := { t.r with ma := t.r.ma.set r v } }
  | .b => { t with r := { t.r with mb := t.r.mb.set r v } }

/-- Writes a tile register with its poison bit. -/
def Tile.writeT (t : Tile) (r : Fin 8) (v : TReg) (poison : Bool) : Tile :=
  { t with r := { t.r with t := t.r.t.set r v, tPoison := setBit t.r.tPoison r.val poison } }

/-- Writes an accumulator with its poison bit. -/
def Tile.writeZ (t : Tile) (r : Fin 4) (v : Acc) (poison : Bool) : Tile :=
  { t with r := { t.r with z := t.r.z.set r v, zPoison := setBit t.r.zPoison r.val poison } }

/-- Adds an entry to the fixed-latency work in flight (R327). -/
def Tile.push (t : Tile) (f : Flight) : Tile := { t with flight := t.flight ++ [f] }

/-- All ones: the whole register is replaced. -/
def fullMask : VReg := BitVec.allOnes 1024

/-- A register result without a memory access. -/
def Flight.result (issue slot due : Nat) (dest : Dest) (value : VReg) (poison : Bool) : Flight where
  issue := issue
  slot := slot
  due := due
  dest := dest
  value := value
  mask := fullMask
  poison := poison
  keepOld := false
  flags := 0#6
  pzero := false
  pdrop := false
  act := .none
  loc := 0

/-- Writes the s, k or predicate result of a service core at once (R319). -/
def Svc.writeDest (c : Svc) (dest : Dest) (value : VReg) (poison : Bool) : Svc :=
  match dest with
  | .s r => if r = 0 then c else { c with s := c.s.set r (value.setWidth 64), sPoison := setBit c.sPoison r.val poison }
  | .k r => if r = 0 then c else { c with k := c.k.set r (value.setWidth 32) }
  | .p r => if r = 0 then c else { c with p := setBit c.p r.val (value.getLsbD 0) }
  | _ => c

/-- Queues a result of latency `lat`: due on cycle i + lat − 1 (R146); on a service core it is written at once (R319). `upd` completes
the entry. -/
def State.put (s : State) (lat : Nat) (dest : Dest) (value : VReg) (poison : Bool) (upd : Flight → Flight := id) : State :=
  match s.cur with
  | .tile n => s.onDev fun d => d.onTile n fun t => t.push (upd (.result (s.dev.psc n) s.iss.slot (s.dev.psc n + lat - 1) dest value poison))
  | .svc q => s.onDev fun d => d.onSvc q fun c => c.writeDest dest value poison

/-- Queues an s-register result. -/
def State.putS (s : State) (lat : Nat) (r : Fin 32) (v : W64) (poison : Bool) : State := s.put lat (.s r) (v.setWidth 1024) poison

/-- Queues a k-register result. -/
def State.putK (s : State) (lat : Nat) (r : Fin 16) (v : W32) : State := s.put lat (.k r) (v.setWidth 1024) false

/-- Queues a predicate result. -/
def State.putP (s : State) (lat : Nat) (r : Fin 8) (v : Bool) : State := s.put lat (.p r) (if v then 1#1024 else 0#1024) false

/-- Queues the result of a copy or compare into state without poison: 0 with TSTAT.PZERO when a source is poisoned (R41). -/
def State.putPZ (s : State) (lat : Nat) (dest : Dest) (v : VReg) (poison : Bool) : State :=
  s.put lat dest (if poison then 0#1024 else v) false fun f => { f with pzero := poison }

/-! Trap causes (R322) -/

/-- ILLB. -/
def causeIllb : Nat := 1
/-- ILLOP. -/
def causeIllop : Nat := 2
/-- TIMING. -/
def causeTiming : Nat := 3
/-- BOUNDS. -/
def causeBounds : Nat := 4
/-- USER. -/
def causeUser : Nat := 5
/-- BREAK. -/
def causeBreak : Nat := 6
/-- WATCH. -/
def causeWatch : Nat := 7

/-- Transfers a service core to its handler (R321): SEPC, SCAUSE, IE cleared, pc at SVEC; with IE clear, a trap of its own halts it for
good and the MC logs it. -/
def Dev.svcEnter (d : Dev) (q : Fin 32) (cause code : Nat) (epc : W32) : Dev :=
  let c := d.svcs[q]
  if c.sstat.getLsbD 0 then
    d.onSvc q fun c =>
      { c with sepc := epc, scause := BitVec.ofNat 32 (cause + 256 * code), sstat := setBit c.sstat 0 false, pc := c.svec,
               idle := 0, run := .run }
  else
    (d.onSvc q fun c => { c with run := .dead }).logEvent 0x0b ((d.boltOfQuad q).map Fin.val) none none

/-- Returns a service core from its handler: SSTAT.IE := 1 and a transfer to SEPC (R330, `trpret`). -/
def Svc.leave (c : Svc) : Svc := { c with sstat := setBit c.sstat 0 true, pc := c.sepc, idle := 0 }

/-- A service core enters its own trap from the operation in hand; its bundle has no further effect. -/
def State.svcTrap (s : State) (q : Fin 32) (cause code : Nat) (epc : W32) : State :=
  let d := s.dev.svcEnter q cause code epc
  { s with dev := d, iss := { s.iss with next := d.svcs[q].pc, taken := true, idle := 0 } }

/-- The trap cause as a service core reports it (R320). -/
def svcCause (cause : Nat) : Nat := if cause = causeBounds then 3 else cause

/-- Raises an issue-class trap cause of the operation in hand (R323). -/
def State.raiseAt (s : State) (cause detail slot : Nat) (ea : W64) : State :=
  match s.cur with
  | .tile n => s.onDev fun d =>
      { d with raised := d.raised ++ [{ tile := n, cause := cause, detail := detail, slot := slot, faddr := s.iss.addr,
                                         code := 0#17, ea := ea, spsc := 0, late := false }] }
  | .svc q => s.svcTrap q (svcCause cause) 0 s.iss.addr

/-- ILLOP with a detail code of R324. -/
def State.illop (s : State) (detail : Nat) : State := s.raiseAt causeIllop detail s.iss.slot 0#64

/-- ILLOP for a misaligned address, which is reported (R326). -/
def State.misaligned (s : State) (ea : W64) : State := s.raiseAt causeIllop 8 s.iss.slot ea

/-- BOUNDS with the faulting address. -/
def State.bounds (s : State) (ea : W64) : State := s.raiseAt causeBounds 0 s.iss.slot ea

/-- Raises `detail` of ILLOP when a check fails. -/
def State.checkOp (s : State) (bad : Bool) (detail : Nat) : State := if bad then s.illop detail else s

/-- Checks the cluster of a vector register that an operation names (R157). -/
def State.checkV (s : State) (f : VFile) (r : Fin 32) : State := s.checkOp (s.tile.clusterOff f r s.psc) 6

/-- Whether the operation in hand has raised a trap cause. -/
def State.trapped (s : State) : Bool := s.dev.raised.any fun r => r.tile = s.tileNo && r.slot = s.iss.slot && !r.late

/-! Taking a trap: a panel freezes and its records are queued (R322–R326) -/

/-- Rank of a cause in R324: ILLB, ILLOP, BOUNDS, WATCH, then USER and BREAK; TIMING after the issue-class causes (log entry 17). -/
def causeRank (c : Nat) : Nat :=
  if c = causeIllb then 0 else if c = causeIllop then 1 else if c = causeBounds then 2 else if c = causeWatch then 3
  else if c = causeTiming then 4 else 5

/-- The one cause that a tile reports (R324): by precedence, then the lowest slot, then the lowest detail; a TIMING record carries
the mask of all its subcauses (R44). -/
def reported (l : List Raise) : Option Raise :=
  match minBy (fun r => causeRank r.cause * 65536 + r.slot * 256 + r.detail) l with
  | none => none
  | some r =>
    if r.cause = causeTiming then
      some { r with detail := (l.filter fun x => x.cause = causeTiming).foldl (fun m x => m ||| x.detail) 0 }
    else some r

/-- The 64-byte trap record (R326). -/
def trapRecord (p : Panel) (d : Dev) (r : Raise) (rank : Nat) (raddr : W32) (psc : Nat) (multi : Bool) : BitVec 512 :=
  packFields 512
    [(0x00, 1, r.cause), (0x01, 1, r.detail), (0x02, 1, b2n r.late + 2 * b2n multi), (0x03, 1, r.tile.val), (0x04, 1, rank),
     (0x06, 2, p.handle), (0x08, 8, psc), (0x10, 4, r.faddr.toNat), (0x14, 4, raddr.toNat), (0x18, 4, r.code.toNat),
     (0x20, 8, r.ea.toNat), (0x28, 8, d.dcc), (0x30, 8, r.spsc), (0x38, 2, p.vdev)]

/-- The service core whose quad holds a panel's rank-0 tile (R324). -/
def Panel.svc (p : Panel) : Fin 32 := quadOf (p.tile 0)

/-- Queues a panel-trap record; the 513th is dropped and counted (R326). -/
def Dev.pushTrap (d : Dev) (p : Panel) (r : BitVec 512) : Dev :=
  if d.svcs[p.svc].trapq.length < 512 then d.onSvc p.svc fun c => { c with trapq := c.trapq ++ [r] }
  else d.count p.bolt 9 1

/-- Ends a debug step of a panel, if it is one (R335): the panel returns to debug halt, and its engines to the lock. -/
def Dev.endStep (d : Dev) (p : Panel) : Dev :=
  if p.stepping then
    (p.tiles.foldl (fun d n => d.onTile n fun t => { t with c := { t.c with engineGo := false } }) d).onPanel p.handle fun p =>
      { p with phase := .debug, stepping := false }
  else d

/-- Takes the traps that `raised` holds: the panel freezes, and each reporting tile writes one record. `psc` is the cycle that raised
them. -/
def Dev.takeTraps (d : Dev) (h : Nat) (raised : List Raise) (psc : Nat) : Dev :=
  match d.panel h with
  | none => { d with raised := [] }
  | some p =>
    let recs := (List.range p.size).filterMap fun k =>
      (reported (raised.filter fun r => r.tile = p.tile k)).map fun r => (k, r)
    let d1 := recs.foldl (fun d kr =>
      let t := d.tiles[p.tile kr.1]
      let raddr := if kr.2.late || kr.2.cause = causeTiming then t.c.pc else kr.2.faddr
      d.pushTrap p (trapRecord p d kr.2 kr.1 raddr psc (decide (1 < recs.length)))) d
    { (d1.endStep p).onPanel h fun p =>
        { p with phase := .trap, timing := raised.any fun r => r.cause = causeTiming } with raised := [] }

/-- Sets or clears DBGCTL.ELOCK of every tile of a panel (R334). -/
def Dev.setElock (d : Dev) (p : Panel) (b : Bool) : Dev :=
  p.tiles.foldl (fun d n => d.onTile n fun t => { t with c := { t.c with dbgctl := setBit t.c.dbgctl 0 b } }) d

/-- The counts of R43 start afresh at the resumption from a TIMING trap. -/
def Dev.freshCounts (d : Dev) (p : Panel) : Dev :=
  p.tiles.foldl (fun d n => d.onTile n fun t =>
    { t with c := { t.c with held := t.c.held.map fun x => { x with cycles := 0 } } })
    (d.onPanel p.handle fun p => { p with frozen := 0, lastStitch := p.psc })

/-- Releases a panel from a trap freeze or debug halt (R332, R333): the return from a tile trap. The counts of R43 go on, but start afresh after a
TIMING trap. -/
def Dev.resumePanel (d : Dev) (p : Panel) : Dev :=
  let d1 := if p.timing then d.freshCounts p else d
  d1.onPanel p.handle fun p => { p with phase := .running, timing := false }

end Sys2Proof.Machine
end

