-- ==== Sys2Proof/Machine/Fetch.lean ====
section
/-! DEFINITION. Fetching: where a fetch address lies in the ISP (R103) or in a service core's local memory (R319), the line rule
(R121), and the loop stack's step (R50, R147). -/

namespace Sys2Proof.Machine

/-- What fetch finds: an unmapped address, an illegal bundle with its place, or a bundle with its address and length. -/
inductive Fetched where
  | unmapped (a : W32)
  | illegal (a : W32) (place : Nat)
  | bundle (a : W32) (len : Nat) (b : Bundle)
  deriving DecidableEq, Repr

/-- The active half: 0 A, 1 B (R106). -/
def Tile.activeHalf (t : Tile) : Nat := t.sr.ispid.toNat % 2

/-- Offset in the ISP of a half's first byte. -/
def halfBase (h : Nat) : Nat := h * 2 ^ 17

/-- Bytes of a half that are mapped (R103, R104). -/
def halfSize : Nat := 0x1e000

/-- Where a tile's fetch address lies, if it is mapped (R103). -/
def ispAddr (n : Fin 128) (t : Tile) (pc : Nat) : Option Nat :=
  if pc < halfSize then some (ispKey n (halfBase t.activeHalf + pc))
  else if 0x20000 ≤ pc ∧ pc < 0x24000 then some (ispKey n (2 ^ 18 + (pc - 0x20000)))
  else none

/-- Where a service core's fetch address lies (R319). -/
def localAddr (q : Fin 32) (pc : Nat) : Option Nat := if pc < 2 ^ 18 then some (svcKey q pc) else none

/-- Follows the line rule from a fetch address: pads are skipped to the next line (R121). -/
noncomputable def fetchLoop (d : Dev) (svc : Bool) (key : Nat → Option Nat) : Nat → Nat → Fetched
  | 0, pc => .unmapped (BitVec.ofNat 32 pc)
  | fuel + 1, pc =>
    if pc % 4 != 0 then .illegal (BitVec.ofNat 32 pc) 9
    else match key pc with
      | none => .unmapped (BitVec.ofNat 32 pc)
      | some k =>
        match decodeBundle svc ((List.range (Nat.min 9 ((64 - pc % 64) / 4))).map fun i => (d.word (k + 4 * i)).toNat) with
        | .pad => fetchLoop d svc key fuel (pc / 64 * 64 + 64)
        | .illegal p => .illegal (BitVec.ofNat 32 pc) p
        | .bundle len b => .bundle (BitVec.ofNat 32 pc) len b

/-- Lines of the longest run of pads. -/
def fetchFuel : Nat := 4100

/-- The bundle at a tile's pc. -/
noncomputable def Dev.fetch (d : Dev) (n : Fin 128) : Fetched := fetchLoop d false (ispAddr n d.tiles[n]) fetchFuel d.tiles[n].c.pc.toNat

/-- The bundle at a service core's pc. -/
noncomputable def Dev.fetchSvc (d : Dev) (q : Fin 32) : Fetched := fetchLoop d true (localAddr q) fetchFuel d.svcs[q].pc.toNat

/-- LoopStep of R147: on the end address of the top entry, loop back or pop; `dflt` is where the bundle would go otherwise. -/
def loopStep : List LoopEnt → W32 → W32 → List LoopEnt × W32
  | [], _, dflt => ([], dflt)
  | e :: r, a, dflt =>
    if e.stop = a then
      if 1 < e.count then ({ e with count := e.count - 1 } :: r, e.start) else loopStep r a dflt
    else (e :: r, dflt)

/-- Pops the entries whose range excludes a branch target (R51). -/
def popOutside : List LoopEnt → W32 → List LoopEnt
  | [], _ => []
  | e :: r, a => if e.start.toNat ≤ a.toNat ∧ a.toNat ≤ e.stop.toNat then e :: r else popOutside r a

/-- Length of the bundle whose header stands at an address of the issuing agent; an unmapped header counts as 4 bytes. -/
def State.lengthAt (s : State) (a : W32) : Nat :=
  let k := match s.cur with
    | .tile n => ispAddr n s.dev.tiles[n] a.toNat
    | .svc q => localAddr q a.toNat
  match k with
  | some k => bundleLen (s.dev.word k).toNat
  | none => 4

/-- AfterEnd of R147: the address after the bundle at `a`. -/
def State.afterEnd (s : State) (a : W32) : W32 := a + BitVec.ofNat 32 (s.lengthAt a)

/-- The loop stack of the issuing agent. -/
def State.loops (s : State) : List LoopEnt :=
  match s.cur with
  | .tile n => s.dev.tiles[n].c.loops
  | .svc q => s.dev.svcs[q].loops

/-- Replaces the loop stack of the issuing agent. -/
def State.setLoops (s : State) (l : List LoopEnt) : State :=
  match s.cur with
  | .tile n => s.onDev fun d => d.onTile n fun t => { t with c := { t.c with loops := l } }
  | .svc q => s.onDev fun d => d.onSvc q fun c => { c with loops := l }

/-- Sends the issuing bundle to `a` (R147). -/
def State.goto (s : State) (a : W32) : State := s.onIss fun x => { x with next := a }

/-- A taken transfer that pops the entries excluding its target (R51). -/
def State.branch (s : State) (a : W32) : State := (s.setLoops (popOutside s.loops a)).goto a

/-- A J-format target: header + 4 × i22 (R148). -/
def State.target (s : State) (off : BitVec 22) : W32 := s.iss.addr + (off.signExtend 32) * 4#32

/-- The issue context of a bundle. -/
def Iss.start (addr : W32) (len : Nat) : Iss where
  addr := addr
  len := len
  slot := 0
  next := addr + BitVec.ofNat 32 len
  taken := false
  idle := 0

/-- NextAddress of R147 with the loop stack that it leaves, for the bundle in hand. -/
def State.nextAddress (s : State) : List LoopEnt × W32 :=
  if s.iss.taken then (s.loops, s.iss.next) else loopStep s.loops s.iss.addr s.iss.next

/-- Where an idle bundle at `pc` goes once its cycles are over: LoopStep ran on its first cycle (R120), so a top entry that still ends
here has looped back. -/
def afterIdle (loops : List LoopEnt) (pc : W32) : W32 :=
  match loops with
  | e :: _ => if e.stop = pc then e.start else pc + 4#32
  | [] => pc + 4#32

/-- Closes a bundle: its loop step, the next address, and the idle cycles it leaves (R120, R147). -/
def State.endBundle (s : State) : State :=
  let nx := s.nextAddress
  let s1 := s.setLoops nx.1
  let pc := if s.iss.idle = 0 then nx.2 else s.iss.addr
  match s.cur with
  | .tile n => s1.onDev fun d => d.onTile n fun t => { t with c := { t.c with pc := pc, idle := s.iss.idle, passed := false } }
  | .svc q => s1.onDev fun d => d.onSvc q fun c => { c with pc := pc, idle := s.iss.idle }

end Sys2Proof.Machine
end

