-- ==== Sys2Proof/Machine/StateRegs.lean ====
section
/-! DEFINITION. The state registers of R95 and R320: what a number reads, which numbers may be written, what a write stores (R94,
R170), and the write of a fixed-latency result on its due cycle (R15, R40, R41, R157). -/

namespace Sys2Proof.Machine

/-- Code of a token state (R101). -/
def TokSt.code : TokSt → Nat
  | .free => 0
  | .pending => 1
  | .done => 2
  | .part => 3
  | .failed => 4

/-- Code of a landing-slot state (R101). -/
def LandSt.code : LandSt → Nat
  | .free => 0
  | .wait => 1
  | .held => 2
  | .late => 3
  | .ready => 4
  | .failed => 5

/-- Sixteen 4-bit codes in a word (R101). -/
def nibbles (f : Nat → Nat) : Nat := sumList ((List.range 16).map fun i => f i % 16 * 16 ^ i)

/-- MSTEP (R100), in PSC terms. -/
def Tile.mstep (t : Tile) (psc : Nat) : Nat :=
  match t.sr.mIssue with
  | none => 0
  | some i =>
    Nat.min 8 ((psc - i) / 16) + 16 * b2n (decide (psc < i + 128)) + 64 * t.sr.mZdst.val + 256 * b2n t.sr.mOutl

/-- VCLA or VCLB (R95): AWAKE in [3:0], WAKING in [7:4]. -/
def Tile.vcl (t : Tile) (f : VFile) (psc : Nat) : Nat :=
  let waking := fun c => b2n (decide (psc < t.sr.wakeEnd[idx 8 c]))
  match f with
  | .a => t.sr.awakeA.toNat + 16 * (waking 0 + 2 * waking 1 + 4 * waking 2 + 8 * waking 3)
  | .b => t.sr.awakeB.toNat + 16 * (waking 4 + 2 * waking 5 + 4 * waking 6 + 8 * waking 7)

/-- KARCH (R96). -/
def karch : Nat := 0x01010000 + Config.stepping.toNat

/-- What a state-register number of a tile reads; none for an absent number (R94, R95). -/
def Dev.readSr (d : Dev) (n : Fin 128) (num : Nat) : Option Nat :=
  let t := d.tiles[n]
  let psc := d.psc n
  let panel := fun (f : Panel → Nat) => match d.panelOf n with
    | some p => f p
    | none => 0
  if num = 0x000 then some karch
  else if 0x001 ≤ num ∧ num ≤ 0x004 then some 0
  else if num = 0x008 then some t.sr.wid.toNat
  else if num = 0x009 then some psc
  else if num = 0x00A then some d.dcc
  else if num = 0x00B then some (panel fun p => p.pstall)
  else if num = 0x00C then some (panel fun p => p.pstitch)
  else if num = 0x00D then some t.c.loops.length
  else if num = 0x00E then some (setBit t.r.p 0 true).toNat
  else if num = 0x00F then some t.sr.ispid.toNat
  else if num = 0x010 then some t.sr.tstat.toNat
  else if num = 0x011 then some t.sr.pdcnt.toNat
  else if num = 0x012 then some t.sr.xrncnt.toNat
  else if num = 0x013 then some t.sr.xrscnt.toNat
  else if num = 0x014 then some t.sr.fsta.toNat
  else if num = 0x015 then some t.sr.fstb.toNat
  else if num = 0x016 then some (t.vcl .a psc)
  else if num = 0x017 then some (t.vcl .b psc)
  else if num = 0x018 then some t.sr.zctl.toNat
  else if num = 0x019 then some (t.mstep psc)
  else if num = 0x01A then some t.sr.bown.toNat
  else if 0x01C ≤ num ∧ num ≤ 0x01D then some (nibbles fun i => (t.toks[idx 32 (16 * (num - 0x01C) + i)]).st.code)
  else if 0x020 ≤ num ∧ num ≤ 0x023 then some (nibbles fun i => (t.lands[idx 64 (16 * (num - 0x020) + i)]).st.code)
  else if 0x030 ≤ num ∧ num ≤ 0x03F then some (t.sr.bfmt[idx 16 (num - 0x030)]).toNat
  else if 0x040 ≤ num ∧ num ≤ 0x047 then some (t.sr.tgeom[idx 8 (num - 0x040)]).toNat
  else if 0x048 ≤ num ∧ num ≤ 0x04B then some (t.sr.zs[idx 4 (num - 0x048)]).toNat
  else if 0x050 ≤ num ∧ num ≤ 0x05D then
    some (field (t.sr.gm[idx 7 ((num - 0x050) / 2)]).toNat (64 * ((num - 0x050) % 2)) 64)
  else if 0x060 ≤ num ∧ num ≤ 0x06F then some (t.r.d[idx 16 (num - 0x060)]).toNat
  else if 0x070 ≤ num ∧ num ≤ 0x07F then some (t.sr.sem[idx 16 (num - 0x070)]).toNat
  else none

/-- Whether R95 lets `mvst` write a number. -/
def srWritable (num : Nat) : Bool :=
  num == 0x00B || num == 0x00F || num == 0x014 || num == 0x015 || num == 0x018 || (decide (0x030 ≤ num) && decide (num ≤ 0x03F))
    || (decide (0x040 ≤ num) && decide (num ≤ 0x047)) || (decide (0x050 ≤ num) && decide (num ≤ 0x05D))
    || (decide (0x060 ≤ num) && decide (num ≤ 0x06F))

/-- Row pitch of a BFMT value in bytes (R109). -/
def bfmtPitch (v : W32) : Nat := (fieldOf v 16 12 + 1) * 16

/-- Swizzle span of a BFMT value in bytes (R109). -/
def bfmtSpan (v : W32) : Nat := 16 * 2 ^ fieldOf v 8 3

/-- FMT of a BFMT value (R109). -/
def bfmtFmt (v : W32) : Nat := fieldOf v 0 4

/-- The RW bits of BFMT. -/
def bfmtMask : W32 := 0x0fff070f#32

/-- Stores a value into a state register of a tile: RO and reserved bits keep what they hold (R6, R94, R170). -/
def Dev.writeSr (d : Dev) (n : Fin 128) (num : Nat) (v : W64) : Dev :=
  let w : W32 := v.setWidth 32
  if num = 0x00B then
    match d.panelOf n with
    | some p => d.onPanel p.handle fun p => { p with pstall := Nat.min v.toNat 8192 }
    | none => d
  else d.onTile n fun t =>
    if num = 0x00F then { t with sr := { t.sr with ispid := blend 0xffffffff00000000#64 v t.sr.ispid } }
    else if num = 0x014 then { t with sr := { t.sr with fsta := blend 0x23f#32 w t.sr.fsta } }
    else if num = 0x015 then { t with sr := { t.sr with fstb := blend 0x23f#32 w t.sr.fstb } }
    else if num = 0x018 then { t with sr := { t.sr with zctl := blend 1#32 w t.sr.zctl } }
    else if 0x030 ≤ num ∧ num ≤ 0x03F then
      let i := idx 16 (num - 0x030)
      { t with sr := { t.sr with bfmt := t.sr.bfmt.set i (blend bfmtMask w t.sr.bfmt[i]) } }
    else if 0x040 ≤ num ∧ num ≤ 0x047 then
      let i := idx 8 (num - 0x040)
      { t with sr := { t.sr with tgeom := t.sr.tgeom.set i (blend 0x7f3f#32 w t.sr.tgeom[i]) } }
    else if 0x050 ≤ num ∧ num ≤ 0x05D then
      let i := idx 7 ((num - 0x050) / 2)
      { t with sr := { t.sr with gm := t.sr.gm.set i (putField t.sr.gm[i] (64 * ((num - 0x050) % 2)) 64 v.toNat) } }
    else if 0x060 ≤ num ∧ num ≤ 0x06F then { t with r := { t.r with d := t.r.d.set (idx 16 (num - 0x060)) v } }
    else t

/-- What a state-register number of a service core reads (R320). -/
def Dev.readSvcSr (d : Dev) (q : Fin 32) (num : Nat) : Option Nat :=
  let c := d.svcs[q]
  if num = 0x000 then some karch
  else if 0x001 ≤ num ∧ num ≤ 0x004 then some 0
  else if num = 0x00A then some d.dcc
  else if num = 0x100 then some c.svec.toNat
  else if num = 0x101 then some c.sepc.toNat
  else if num = 0x102 then some c.scause.toNat
  else if num = 0x103 then some c.sstat.toNat
  else if num = 0x104 then some q.val
  else if num = 0x105 then some ((d.boltOfQuad q).elim 0 Fin.val)
  else none

/-- Whether a service core may write a number. -/
def svcSrWritable (num : Nat) : Bool := num == 0x100 || num == 0x101 || num == 0x103

/-- Stores a value into a state register of a service core. -/
def Svc.writeSr (c : Svc) (num : Nat) (v : W64) : Svc :=
  let w : W32 := v.setWidth 32
  if num = 0x100 then { c with svec := w }
  else if num = 0x101 then { c with sepc := w }
  else if num = 0x103 then { c with sstat := w &&& 1#32 }
  else c

/-- Writes a due result into its register (R15); a gated or waking cluster discards it (R157). -/
def Dev.writeDue (d : Dev) (n : Fin 128) (f : Flight) : Dev :=
  let psc := d.psc n
  match f.dest with
  | .none => d
  | .beat _ => d
  | .s r => d.onTile n fun t => t.writeS r (f.value.setWidth 64) (f.poison || (f.keepOld && t.r.sPoison.getLsbD r.val))
  | .k r => d.onTile n fun t => t.writeK r (f.value.setWidth 32)
  | .p r => d.onTile n fun t => t.writeP r (f.value.getLsbD 0)
  | .v x r => d.onTile n fun t =>
      if t.clusterOff x r psc then t
      else t.writeV x r (blend f.mask f.value (t.vec x r)) (f.poison || (f.keepOld && t.vecPoison x r))
  | .m x r => d.onTile n fun t => t.writeM x r (f.value.setWidth 32)
  | .d r => d.onTile n fun t =>
      { t with r := { t.r with d := t.r.d.set r (blend (f.mask.setWidth 64) (f.value.setWidth 64) t.r.d[r]) } }
  | .sr num => d.writeSr n num.toNat (f.value.setWidth 64)

/-- The file whose FSTA or FSTB takes the flags of a result. -/
def Dest.file : Dest → Option VFile
  | .v f _ => some f
  | .m f _ => some f
  | _ => Option.none

/-- The status that a due result leaves beside its register: sticky flags (R70), TSTAT.PZERO (R41). -/
def Tile.dueStatus (t : Tile) (f : Flight) : Tile :=
  let t1 := match f.dest.file with
    | some x => t.orFlags x f.flags
    | none => t
  if f.pzero then t1.setTstat 1 else t1

/-- Order of results that fall due together: by issue cycle, then by slot (R15). -/
def Flight.order (f : Flight) : Nat := f.issue * 8 + f.slot

end Sys2Proof.Machine
end

