-- ==== Sys2Proof/Machine/Operands.lean ====
section
/-! DEFINITION. Operand forms and issue checks that the meanings share: immediates and registers of the K, S, V and mask
operations (R127, R160, R161, R173, R195), the checks that an operation makes at issue with their trap causes (R324), and the busy
windows of the matrix paths (R197, R337). -/

namespace Sys2Proof.Machine

/-- The outcome of a meaning. -/
abbrev Result := Host.Outcome State Fault Refusal

/-- One check at issue: whether it fails, and the cause, detail and address that it raises (R322, R324). -/
structure Chk where
  /-- The check fails. -/
  bad : Bool
  /-- CAUSE. -/
  cause : Nat
  /-- DETAIL. -/
  detail : Nat
  /-- EA. -/
  ea : W64
  /-- Slot of the operation that is blamed, when it is not the one in hand (R16, R324). -/
  slot : Option Nat
  deriving DecidableEq, Repr

/-- An illegal-operand check with its detail. -/
def chkOp (bad : Bool) (detail : Nat) : Chk := { bad := bad, cause := causeIllop, detail := detail, ea := 0#64, slot := none }

/-- An alignment check; the address is reported (R326). -/
def chkAlign (bad : Bool) (ea : W64) : Chk := { bad := bad, cause := causeIllop, detail := 8, ea := ea, slot := none }

/-- A bounds check. -/
def chkBounds (bad : Bool) (ea : W64) : Chk := { bad := bad, cause := causeBounds, detail := 0, ea := ea, slot := none }

/-- A watch check (R325). -/
def chkWatch (bad : Bool) (ea : W64) : Chk := { bad := bad, cause := causeWatch, detail := 0, ea := ea, slot := none }

/-- Raises the causes of the failed checks; a service core takes the first of them by precedence at once (R321, R324). -/
def State.raiseAll (s : State) (l : List Chk) : State :=
  match s.cur with
  | .tile _ => l.foldl (fun s c => s.raiseAt c.cause c.detail (c.slot.getD s.iss.slot) c.ea) s
  | .svc _ =>
    match minBy (fun c => causeRank c.cause * 256 + c.detail) l with
    | some c => s.raiseAt c.cause c.detail (c.slot.getD s.iss.slot) c.ea
    | none => s

/-- Issues an operation: with a failed check it raises the causes and has no effect; otherwise it has its effect. -/
def State.attempt (s : State) (l : List Chk) (go : State → State) : Result :=
  let bad := l.filter Chk.bad
  if bad.isEmpty then .next (go s) else .next (s.raiseAll bad)

/-- The check of R157 for a vector register of the issuing tile. -/
def State.chkV (s : State) (f : VFile) (r : Fin 32) : Chk := chkOp (s.tile.clusterOff f r s.psc) 6

/-- Raises an end-class cause of the operation in hand with a code (R322, R323). -/
def State.raiseLate (s : State) (cause : Nat) (code : BitVec 17) : State :=
  s.onDev fun d =>
    { d with raised := d.raised ++ [{ tile := s.tileNo, cause := cause, detail := 0, slot := s.iss.slot, faddr := s.iss.addr,
                                      code := code, ea := 0#64, spsc := 0, late := true }] }

/-- imm16 sign-extended (`sgn`) or zero-extended to n bits. -/
def immExt (n : Nat) (i : BitVec 16) (sgn : Bool) : BitVec n := if sgn then i.signExtend n else i.setWidth n

/-- Operand b of a K operation (R160). -/
def State.kopd (s : State) (o : KOpd) (sgn : Bool) : W32 :=
  match o with
  | .reg r => s.readK r
  | .imm i => immExt 32 i sgn

/-- Operand b of an S operation (R161). -/
def State.sopd (s : State) (o : SOpd) (sgn : Bool) : W64 :=
  match o with
  | .reg r => s.readS r
  | .imm i => immExt 64 i sgn

/-- Poison of operand b of an S operation; immediates carry none (R40). -/
def State.sopdPoison (s : State) (o : SOpd) : Bool :=
  match o with
  | .reg r => s.poisonS r
  | .imm _ => false

/-- Operand b of a vector operation with w-bit lanes: a register, or imm16 copied to every lane (R173). -/
def splatImm (w : Nat) (i : BitVec 16) (sgn : Bool) : VReg :=
  let lane := (immExt w i sgn).toNat
  BitVec.ofNat 1024 (sumList ((List.range (1024 / w)).map fun k => lane * 2 ^ (w * k)))

/-- An S operation that computes s[d] from s[a] and operand b (R161). -/
def State.sOp (s : State) (lat : Nat) (d a : Fin 32) (o : SOpd) (sgn : Bool) (f : W64 → W64 → W64) : Result :=
  .next (s.putS lat d (f (s.readS a) (s.sopd o sgn)) (s.poisonS a || s.sopdPoison o))

/-- An S operation that computes s[d] from s[a] alone (R162). -/
def State.sUn (s : State) (d a : Fin 32) (f : W64 → W64) : Result := .next (s.putS 1 d (f (s.readS a)) (s.poisonS a))

/-- A compare of s[a] with operand b into a predicate (R163, R41). -/
def State.sCmp (s : State) (d : Fin 8) (a : Fin 32) (o : SOpd) (sgn : Bool) (f : W64 → W64 → Bool) : Result :=
  .next (s.putPZ 1 (.p d) (if f (s.readS a) (s.sopd o sgn) then 1#1024 else 0#1024) (s.poisonS a || s.sopdPoison o))

/-- A K operation that computes a predicate from predicates (R160). -/
def State.pOp (s : State) (d a b : Fin 8) (f : Bool → Bool → Bool) : Result := .next (s.putP 1 d (f (s.readP a) (s.readP b)))

/-- A K operation that compares k[a] with operand b into a predicate (R160). -/
def State.kCmp (s : State) (d : Fin 8) (a : Fin 16) (o : KOpd) (sgn : Bool) (f : W32 → W32 → Bool) : Result :=
  .next (s.putP 1 d (f (s.readK a) (s.kopd o sgn)))

/-! The matrix paths -/

/-- A path operation's result falls due in a tile or accumulator register on this cycle (R197). -/
def PathOp.due (o : PathOp) : Option Nat :=
  match o.kind with
  | .mld | .mldt | .mlds => some (o.issue + 4 + o.cnt)
  | .zoutv => some (o.issue + 11)
  | .zld => some (o.issue + 132)
  | .mzero => some o.issue
  | .mst | .zout | .zst | .zstat => Option.none

/-- First cycle on which a path operation performs an access, and whether it writes (R198, R214). -/
def PathOp.first (o : PathOp) : Nat :=
  match o.kind with
  | .mld | .mldt | .mlds | .zld => o.issue + 2
  | .zout => o.issue + 8
  | .mst | .zst | .zstat => o.issue + 3
  | .zoutv | .mzero => o.issue

/-- Whether a path operation performs accesses, and so has a perform cycle for each of `cnt`. -/
def PathOp.accesses (o : PathOp) : Bool :=
  match o.kind with
  | .zoutv | .mzero => false
  | _ => true

/-- The last cycle on which a path operation keeps its path busy, or none when it uses no path (R197). -/
def PathOp.busyTo (o : PathOp) : Option Nat :=
  match o.kind with
  | .mld | .mldt | .mlds | .mst | .zout => some (o.issue + o.cnt - 1)
  | .zoutv => some (o.issue + 3)
  | .zld | .zst => some (o.issue + 127)
  | .zstat | .mzero => none

/-- The last cycle on which a path operation writes a register or the TSP (R197, R337). -/
def PathOp.lastWrite (o : PathOp) : Nat :=
  match o.kind with
  | .mld | .mldt | .mlds => o.issue + 4 + o.cnt
  | .mst => o.issue + 3 + o.cnt - 1
  | .zout => o.issue + 8 + o.cnt - 1
  | .zoutv => o.issue + 11
  | .zld => o.issue + 132
  | .zst => o.issue + 130
  | .zstat => o.issue + 3
  | .mzero => o.issue

/-- Whether a list of path operations keeps its path busy on a cycle. -/
def pathBusy (l : List PathOp) (psc : Nat) : Bool := l.any fun o => o.busyTo.any fun c => decide (psc ≤ c)

/-- Whether a path operation still keeps a stitch back (R337); `zstat` uses no path. -/
def pathPending (l : List PathOp) (psc : Nat) : Bool :=
  l.any fun o => (o.kind != .zstat && decide (psc ≤ o.lastWrite)) || o.busyTo.any fun c => decide (psc ≤ c)

end Sys2Proof.Machine
end

