-- ==== Sys2Proof/Machine/Flags.lean ====
section
/-! DEFINITION. The flags of FSTA, FSTB and the zs registers (R69, R70, R99) and the flush-to-zero control (R71). -/

namespace Sys2Proof.Machine

/-- Sticky flags, in the bit order of R69: NV, DZ, OF, UF, NX, SAT. -/
abbrev Flags := BitVec 6

/-- No flag. -/
def flNone : Flags := 0#6
/-- NV. -/
def flNV : Flags := 1#6
/-- DZ. -/
def flDZ : Flags := 2#6
/-- OF. -/
def flOF : Flags := 4#6
/-- UF. -/
def flUF : Flags := 8#6
/-- NX. -/
def flNX : Flags := 16#6
/-- SAT. -/
def flSAT : Flags := 32#6

/-- A flag that is raised when a condition holds. -/
def flIf (b : Bool) (f : Flags) : Flags := if b then f else 0#6

/-- FSTA.FTZ or FSTB.FTZ of the issuing tile, read at issue (R69, R71). -/
def State.ftz (s : State) (f : VFile) : Bool :=
  match f with
  | .a => s.tile.sr.fsta.getLsbD 9
  | .b => s.tile.sr.fstb.getLsbD 9

/-- ORs flags into ZSn (R82, R86, R99); ZS has no DZ. -/
def Tile.orZs (t : Tile) (z : Fin 4) (fl : Flags) : Tile :=
  { t with sr := { t.sr with zs := t.sr.zs.set z (t.sr.zs[z] ||| (fl &&& 0x3d#6).setWidth 32) } }

end Sys2Proof.Machine
end

