-- ==== Sys2Proof/Machine/Numbers.lean ====
section
/-! DEFINITION. Number formats and their arithmetic on exact values (R58–R89): decoding, rounding, conversion, block and row scales,
fixed-point digits, and the special functions. A finite value is (−1)^neg × num / den × 2^e. -/

namespace Sys2Proof.Machine

/-- A floating-point format (R61). -/
inductive FFmt where | fp32 | fp16 | bf16 | e4m3 | e5m2
  deriving DecidableEq, Repr

/-- Bits of the fraction field (R61). -/
def FFmt.man : FFmt → Nat
  | .fp32 => 23
  | .fp16 => 10
  | .bf16 => 7
  | .e4m3 => 3
  | .e5m2 => 2

/-- Bits of the exponent field (R61). -/
def FFmt.ebits : FFmt → Nat
  | .fp32 => 8
  | .fp16 => 5
  | .bf16 => 8
  | .e4m3 => 4
  | .e5m2 => 5

/-- Width in bits. -/
def FFmt.width (f : FFmt) : Nat := 1 + f.ebits + f.man

/-- Bias (R61). -/
def FFmt.bias (f : FFmt) : Int := 2 ^ (f.ebits - 1) - 1

/-- Emin: the exponent of the least normal value (R61). -/
def FFmt.emin (f : FFmt) : Int := 1 - f.bias

/-- Whether the format has infinities (R61). -/
def FFmt.hasInf (f : FFmt) : Bool := f != .e4m3

/-- The pattern of the largest finite value (R61). -/
def FFmt.maxPat (f : FFmt) : Nat := if f = .e4m3 then 0x7e else (2 ^ f.ebits - 1) * 2 ^ f.man - 1

/-- The pattern of +Inf where there is one (R61). -/
def FFmt.infPat (f : FFmt) : Nat := (2 ^ f.ebits - 1) * 2 ^ f.man

/-- The positive canonical NaN (R61, R63). -/
def FFmt.nan (f : FFmt) : Nat :=
  match f with
  | .fp32 => 0x7fc00000
  | .fp16 => 0x7e00
  | .bf16 => 0x7fc0
  | .e4m3 => 0x7f
  | .e5m2 => 0x7e

/-- An exact value: NaN (signalling or not), an infinity, or (−1)^neg × num / den × 2^e, where a zero keeps its sign. -/
inductive Val where
  | nan (sig : Bool)
  | inf (neg : Bool)
  | fin (neg : Bool) (num den : Nat) (e : Int)
  deriving DecidableEq, Repr

/-- An integer as a value. -/
def Val.ofInt (x : Int) : Val := .fin (decide (x < 0)) x.natAbs 1 0

/-- Positive zero. -/
def Val.zero : Val := .fin false 0 1 0

/-- Whether a value is a NaN. -/
def Val.isNan : Val → Bool
  | .nan _ => true
  | _ => false

/-- Whether a value is a signalling NaN. -/
def Val.isSig : Val → Bool
  | .nan b => b
  | _ => false

/-- Whether a value is infinite. -/
def Val.isInf : Val → Bool
  | .inf _ => true
  | _ => false

/-- Whether a value is a zero. -/
def Val.isZero : Val → Bool
  | .fin _ n _ _ => n == 0
  | _ => false

/-- Sign bit of a value; a NaN counts as positive. -/
def Val.neg : Val → Bool
  | .nan _ => false
  | .inf s => s
  | .fin s _ _ _ => s

/-- The value with another sign. -/
def Val.withSign (v : Val) (neg : Bool) : Val :=
  match v with
  | .nan b => .nan b
  | .inf _ => .inf neg
  | .fin _ n d e => .fin neg n d e

/-- Decode of R62. -/
def decodeF (f : FFmt) (bits : Nat) : Val :=
  let neg := bit bits (f.width - 1)
  let e := field bits f.man f.ebits
  let m := field bits 0 f.man
  if e = 0 then .fin neg m 1 (1 - f.bias - f.man)
  else if f.hasInf && e == 2 ^ f.ebits - 1 then (if m = 0 then .inf neg else .nan (!bit m (f.man - 1)))
  else if f = .e4m3 ∧ e = 15 ∧ m = 7 then .nan false
  else .fin neg (2 ^ f.man + m) 1 (e - f.bias - f.man)

/-- floor(log2 (num / den × 2^e)) for a positive value. -/
def floorLog2 (num den : Nat) (e : Int) : Int :=
  let k : Int := (Nat.log2 num : Int) - Nat.log2 den
  let le := if 0 ≤ k then decide (den * 2 ^ k.toNat ≤ num) else decide (den ≤ num * 2 ^ (-k).toNat)
  (if le then k else k - 1) + e

/-- num / den × 2^e as a fraction of two naturals. -/
def ratio (num den : Nat) (e : Int) : Nat × Nat := if 0 ≤ e then (num * 2 ^ e.toNat, den) else (num, den * 2 ^ (-e).toNat)

/-- RoundInt of R65 on (−1)^neg × n / d: the rounded magnitude, and whether it is inexact. -/
def roundMag (rm : RMode) (neg : Bool) (n d : Nat) : Nat × Bool :=
  let q := n / d
  let r := n % d
  let up := match rm with
    | .rne => decide (d < 2 * r) || (decide (2 * r = d) && q % 2 == 1)
    | .rtz => false
    | .rdn => neg && r != 0
    | .rup => !neg && r != 0
  (if up then q + 1 else q, r != 0)

/-- RoundInt of R65 on a finite value: an integer, and whether it differs. -/
def roundInt (rm : RMode) (neg : Bool) (num den : Nat) (e : Int) : Int × Bool :=
  let nd := ratio num den e
  let r := roundMag rm neg nd.1 nd.2
  (if neg then -(r.1 : Int) else r.1, r.2)

/-- A pattern with its sign bit. -/
def FFmt.signed (f : FFmt) (neg : Bool) (mag : Nat) : Nat := mag + b2n neg * 2 ^ (f.width - 1)

/-- Overflow of R67. -/
def overflowF (f : FFmt) (neg : Bool) (rm : RMode) (sat : Bool) : Nat :=
  let inf := match rm with
    | .rne => true
    | .rtz => false
    | .rdn => neg
    | .rup => !neg
  if sat || !inf then f.signed neg f.maxPat
  else if f.hasInf then f.signed neg f.infPat else f.nan

/-- RoundTo of R66: the pattern and the flags. -/
def roundTo (f : FFmt) (rm : RMode) (sat : Bool) (v : Val) : Nat × Flags :=
  match v with
  | .nan _ => (f.nan, 0#6)
  | .inf neg =>
    if f.hasInf then (f.signed neg f.infPat, 0#6)
    else if sat then (f.signed neg f.maxPat, flNV) else (f.nan, flNV)
  | .fin neg num den e =>
    if num = 0 then (f.signed neg 0, 0#6)
    else
      let k := floorLog2 num den e
      let q := max k f.emin - f.man
      let nd := ratio num den (e - q)
      let r := roundMag rm neg nd.1 nd.2
      let mag := (q - (f.emin - f.man)).toNat * 2 ^ f.man + r.1
      let fl := flIf r.2 flNX ||| flIf (r.2 && decide (k < f.emin)) flUF
      if f.maxPat < mag then (overflowF f neg rm sat, fl ||| flOF ||| flNX) else (f.signed neg mag, fl)

/-- An input read under FTZ: a subnormal of the format becomes the zero of its sign (R71). -/
def ftzIn (ftz : Bool) (f : FFmt) (v : Val) : Val :=
  match v with
  | .fin neg num den e => if ftz && num != 0 && decide (floorLog2 num den e < f.emin) then .fin neg 0 1 0 else v
  | _ => v

/-- A result rounded under FTZ: an exact value below 2^Emin becomes zero with UF and NX (R71). -/
def roundFtz (ftz : Bool) (f : FFmt) (rm : RMode) (sat : Bool) (v : Val) : Nat × Flags :=
  match v with
  | .fin neg num den e =>
    if ftz && num != 0 && decide (floorLog2 num den e < f.emin) then (f.signed neg 0, flUF ||| flNX) else roundTo f rm sat v
  | _ => roundTo f rm sat v

/-! Exact arithmetic (R68, R180); the divisors are positive -/

/-- Compares two finite magnitudes with signs: x < y. -/
def finLt (x y : Bool × Nat × Nat × Int) : Bool :=
  let e := min x.2.2.2 y.2.2.2
  let v := fun (z : Bool × Nat × Nat × Int) (d : Nat) =>
    let m : Int := z.2.1 * d * 2 ^ (z.2.2.2 - e).toNat
    if z.1 then -m else m
  decide (v x y.2.2.1 < v y x.2.2.1)

/-- x < y on values that are no NaN; −0 equals +0. -/
def Val.lt (x y : Val) : Bool :=
  match x, y with
  | .nan _, _ => false
  | _, .nan _ => false
  | .inf a, .inf b => a && !b
  | .inf a, .fin _ _ _ _ => a
  | .fin _ _ _ _, .inf b => !b
  | .fin a n d e, .fin b m c g => finLt (a, n, d, e) (b, m, c, g)

/-- x = y on values that are no NaN. -/
def Val.eq (x y : Val) : Bool := !x.isNan && !y.isNan && !x.lt y && !y.lt x

/-- The exact sum of two finite values, with the sign of a zero sum by R68; zeros of both signs add up as nonzero terms do. DESIGN CHOICE:
log entry 22. -/
def addFin (rm : RMode) (a b : Bool) (n m d c : Nat) (e g : Int) : Val :=
  if n = 0 ∧ m = 0 then .fin (if a = b then a else rm == .rdn) 0 1 0
  else
    let q := min e g
    let x : Int := n * c * 2 ^ (e - q).toNat
    let y : Int := m * d * 2 ^ (g - q).toNat
    let s := (if a then -x else x) + (if b then -y else y)
    if s = 0 then .fin (rm == .rdn) 0 1 0 else .fin (decide (s < 0)) s.natAbs (d * c) q

/-- x + y, exact, with NV where it is raised (R63, R180). -/
def addVal (rm : RMode) (x y : Val) : Val × Flags :=
  let sig := flIf (x.isSig || y.isSig) flNV
  match x, y with
  | .nan _, _ => (.nan false, sig)
  | _, .nan _ => (.nan false, sig)
  | .inf a, .inf b => if a = b then (.inf a, 0#6) else (.nan false, flNV)
  | .inf a, .fin _ _ _ _ => (.inf a, 0#6)
  | .fin _ _ _ _, .inf b => (.inf b, 0#6)
  | .fin a n d e, .fin b m c g => (addFin rm a b n m d c e g, 0#6)

/-- x × y, exact. -/
def mulVal (x y : Val) : Val × Flags :=
  let sig := flIf (x.isSig || y.isSig) flNV
  let neg := x.neg != y.neg
  match x, y with
  | .nan _, _ => (.nan false, sig)
  | _, .nan _ => (.nan false, sig)
  | .inf _, .inf _ => (.inf neg, 0#6)
  | .inf _, .fin _ m _ _ => if m = 0 then (.nan false, flNV) else (.inf neg, 0#6)
  | .fin _ n _ _, .inf _ => if n = 0 then (.nan false, flNV) else (.inf neg, 0#6)
  | .fin _ n d e, .fin _ m c g => (.fin neg (n * m) (d * c) (e + g), 0#6)

/-- x × y + c with one rounding (R180): NV also when c is signalling or the product is invalid, whatever c holds. -/
def fmaVal (rm : RMode) (x y c : Val) : Val × Flags :=
  let p := mulVal x y
  let r := addVal rm p.1 c
  (r.1, p.2 ||| r.2)

/-- −x. -/
def Val.negate (x : Val) : Val := x.withSign (!x.neg)

/-- The larger value: −0 below +0, NaN if either is NaN with NV only for a signalling one (R180). -/
def maxVal (x y : Val) : Val × Flags :=
  if x.isNan || y.isNan then (.nan false, flIf (x.isSig || y.isSig) flNV)
  else if x.lt y then (y, 0#6) else if y.lt x then (x, 0#6) else (if x.neg then y else x, 0#6)

/-- The smaller value. -/
def minVal (x y : Val) : Val × Flags :=
  if x.isNan || y.isNan then (.nan false, flIf (x.isSig || y.isSig) flNV)
  else if x.lt y then (x, 0#6) else if y.lt x then (y, 0#6) else (if x.neg then x else y, 0#6)

/-- x × 2^k. -/
def Val.scale (x : Val) (k : Int) : Val :=
  match x with
  | .fin s n d e => .fin s n d (e + k)
  | _ => x

/-! Element formats and conversion (R58, R72, R73) -/

/-- An element that is converted: an integer or a float. -/
inductive ElF where
  | int (sgn : Bool) (w : Nat)
  | flt (f : FFmt)
  deriving DecidableEq, Repr

/-- Width in bits of an element. -/
def ElF.width : ElF → Nat
  | .int _ w => w
  | .flt f => f.width

/-- The element format of a code 0x1–0xC (R58). -/
def elFmt (code : Nat) : Option ElF :=
  match code with
  | 0x1 => some (.int true 4)
  | 0x2 => some (.int true 8)
  | 0x3 => some (.int false 8)
  | 0x4 => some (.int true 16)
  | 0x5 => some (.int false 16)
  | 0x6 => some (.int true 32)
  | 0x7 => some (.int false 32)
  | 0x8 => some (.flt .fp16)
  | 0x9 => some (.flt .bf16)
  | 0xA => some (.flt .fp32)
  | 0xB => some (.flt .e4m3)
  | 0xC => some (.flt .e5m2)
  | _ => none

/-- Reads an integer pattern. -/
def intVal (sgn : Bool) (w v : Nat) : Int := if sgn then Machine.signed w v else (v % 2 ^ w : Nat)

/-- Decodes an element exactly (R59, R62). -/
def ElF.decode (f : ElF) (v : Nat) : Val :=
  match f with
  | .int sgn w => .ofInt (intVal sgn w v)
  | .flt f => decodeF f v

/-- SatSigned and SatUnsigned of R60. -/
def satInt (sgn : Bool) (w : Nat) (x : Int) : Int :=
  if sgn then min (max x (-(2 ^ (w - 1)))) (2 ^ (w - 1) - 1) else min (max x 0) (2 ^ w - 1)

/-- An integer as a w-bit pattern (R60). -/
def wrapNat (w : Nat) (x : Int) : Nat := (x % 2 ^ w).toNat

/-- Conversion of a value to an integer format (R72). -/
def toIntFmt (sgn : Bool) (w : Nat) (rm : RMode) (v : Val) : Nat × Flags :=
  match v with
  | .nan _ => (0, flNV)
  | .inf neg => (wrapNat w (satInt sgn w (if neg then -(2 ^ 64) else 2 ^ 64)), flNV)
  | .fin neg num den e =>
    let r := roundInt rm neg num den e
    let y := satInt sgn w r.1
    (wrapNat w y, flIf r.2 flNX ||| flIf (y != r.1) flNV)

/-- Convert of R72, with FTZ where a vector slot converts (R71, R184). -/
def convert (ftz : Bool) (src dst : ElF) (rm : RMode) (sat : Bool) (v : Nat) : Nat × Flags :=
  match src, dst with
  | .int ss ws, .int sd wd =>
    let x := intVal ss ws v
    let y := satInt sd wd x
    (wrapNat wd y, flIf (y != x) flSAT)
  | .int ss ws, .flt f => roundFtz ftz f rm sat (.ofInt (intVal ss ws v))
  | .flt f, .int sd wd => toIntFmt sd wd rm (ftzIn ftz f (decodeF f v))
  | .flt f, .flt g =>
    let x := ftzIn ftz f (decodeF f v)
    let r := roundFtz ftz g rm sat x
    (r.1, r.2 ||| flIf x.isSig flNV)

/-- The fp32 pattern of a value, by RNE without saturation. -/
def toFp32 (v : Val) : Nat × Flags := roundTo .fp32 .rne false v

/-- Decodes an fp32 pattern. -/
def fp32 (v : Nat) : Val := decodeF .fp32 v

/-- The value of an e8m0 byte, none for NaN (R64). -/
def scaleExp (b : Nat) : Option Int := if b % 256 = 255 then none else some ((b % 256 : Nat) - 127 : Int)

/-- Conversion of fp32 to e8m0 (R64). -/
def toE8m0 (rm : RMode) (v : Val) : Nat × Flags :=
  match v with
  | .nan _ => (0xff, flNV)
  | .inf neg => if neg then (0xff, flNV) else (0xfe, flOF)
  | .fin neg num den e =>
    if neg || num == 0 then (0xff, flNV)
    else
      let k := floorLog2 num den e
      let nd := ratio num den (e - k)
      let exact := decide (nd.1 = nd.2)
      let up := match rm with
        | .rne => decide (3 * nd.2 ≤ 2 * nd.1)
        | .rtz | .rdn => false
        | .rup => !exact
      let j := if up then k + 1 else k
      if 127 < j then (0xfe, flOF ||| flNX)
      else if j < -127 then (0, flUF ||| flNX)
      else ((j + 127).toNat, flIf (!exact) flNX)

/-! Block and row scales (R75, R76) -/

/-- Emax of a block element (R75). -/
def blockEmax : BElem → Int
  | .e4m3 => 8
  | .e5m2 => 15
  | .i4 => 2

/-- The element format of a block. -/
def blockFmt : BElem → ElF
  | .e4m3 => .flt .e4m3
  | .e5m2 => .flt .e5m2
  | .i4 => .int true 4

/-- What EncodeBlock gives (R75). -/
structure Block where
  /-- The e8m0 scale byte. -/
  scale : Nat
  /-- The element patterns. -/
  els : List Nat
  /-- Event NaNBlock. -/
  nan : Bool
  /-- Saturated events. -/
  sat : Nat
  /-- An element differs from x / 2^k. -/
  inexact : Bool
  deriving DecidableEq, Repr

/-- The largest of finite magnitudes, as a positive value. -/
def maxMag (l : List Val) : Val :=
  l.foldl (fun m x => let a := x.withSign false; if m.lt a then a else m) Val.zero

/-- floor(log2) of a finite value's magnitude. -/
def Val.log2 (v : Val) : Int :=
  match v with
  | .fin _ n d e => floorLog2 n d e
  | _ => 0

/-- One element of a block, with a Saturated event and inexactness (R75). -/
def encodeEl (el : BElem) (v : Val) : Nat × Bool × Bool :=
  match el with
  | .i4 =>
    match v with
    | .fin neg num den e =>
      let r := roundInt .rne neg num den e
      let y := satInt true 4 r.1
      (wrapNat 4 y, y != r.1, r.2 || y != r.1)
    | _ => (0, false, false)
  | .e4m3 => let r := roundTo .e4m3 .rne true v; (r.1, r.2.getLsbD 2, r.2.getLsbD 4)
  | .e5m2 => let r := roundTo .e5m2 .rne true v; (r.1, r.2.getLsbD 2, r.2.getLsbD 4)

/-- EncodeBlock of R75. -/
def encodeBlock (l : List Val) (el : BElem) : Block :=
  if l.any fun x => x.isNan || x.isInf then { scale := 0xff, els := l.map fun _ => 0, nan := true, sat := 0, inexact := false }
  else
    let m := maxMag l
    if m.isZero then { scale := 0, els := l.map fun _ => 0, nan := false, sat := 0, inexact := false }
    else
      let k := min (max (m.log2 - blockEmax el) (-127)) 127
      let r := l.map fun x => encodeEl el (x.scale (-k))
      { scale := (k + 127).toNat, els := r.map fun x => x.1, nan := false, sat := (r.filter fun x => x.2.1).length,
        inexact := r.any fun x => x.2.2 }

/-- The value of an element of a block under its scale byte: NaN under 0xFF (R74). -/
def blockVal (el : BElem) (scale v : Nat) : Val :=
  match scaleExp scale with
  | none => .nan false
  | some k => ((blockFmt el).decode v).scale k

/-- Division of finite values, the divisor positive. -/
def Val.div (x y : Val) : Val :=
  match x, y with
  | .fin s n d e, .fin _ m c g => .fin s (n * c) (d * m) (e - g)
  | _, _ => x

/-- Per-row scales (R76): the fp32 scale, the targets, whether the row is not finite, and how many targets saturated. -/
def rowQuant (l : List Val) (dst : ElF) : Nat × List Nat × Bool × Nat :=
  if l.any fun x => x.isNan || x.isInf then (FFmt.nan .fp32, l.map fun _ => 0, true, 0)
  else
    let m := maxMag l
    if m.isZero then (0, l.map fun _ => 0, false, 0)
    else
      let qmax := match dst with
        | .int _ w => Val.ofInt (2 ^ (w - 1) - 1)
        | .flt f => decodeF f f.maxPat
      let s := Nat.max (toFp32 (m.div qmax)).1 1
      let q := l.map fun x =>
        let y := x.div (fp32 s)
        match dst, y with
        | .int sgn w, .fin neg num den e =>
          let r := roundInt .rne neg num den e
          let z := satInt sgn w r.1
          (wrapNat w z, z != r.1)
        | .int _ _, _ => (0, false)
        | .flt f, _ => let r := roundTo f .rne true y; (r.1, r.2.getLsbD 2)
      (s, q.map fun x => x.1, false, (q.filter fun x => x.2).length)

/-! Wide fixed-point digits (R77) -/

/-- FxdDigit of R77 on an fp32 value. -/
def fxdDigit (v : Val) (j : Nat) : Int :=
  match v with
  | .fin neg num _ e =>
    let n := num * 2 ^ (e + 149).toNat
    let d : Int := (n / 2 ^ (31 * j) % 2 ^ 31 : Nat)
    if neg then -d else d
  | _ => 0

/-! The special functions (R88, R89) -/

/-- floor of the square root, found bit by bit below 2^b. -/
def isqrt : Nat → Nat → Nat → Nat
  | 0, _, r => r
  | b + 1, n, r => let c := r + 2 ^ b; isqrt b n (if c * c ≤ n then c else r)

/-- Bits of working precision for exp2 and log2. -/
def sfuBits : Nat := 256

/-- 2^f for a fraction f = n / 2^b, as a lower bound in units of 2^−256: the product of the roots 2^(2^−k) over the bits of f. -/
def exp2Frac : Nat → Nat → Nat → Nat → Nat
  | 0, _, _, acc => acc
  | b + 1, n, root, acc =>
    let root' := isqrt (sfuBits + 1) (root * 2 ^ sfuBits) 0
    exp2Frac b (n % 2 ^ b) root' (if bit n b then acc * root' / 2 ^ sfuBits else acc)

/-- The first `k` bits of log2 m for m in [1, 2), given in units of 2^−256. -/
def log2Frac : Nat → Nat → Nat → Nat
  | 0, _, acc => acc
  | k + 1, m, acc =>
    let q := m * m / 2 ^ sfuBits
    if 2 ^ (sfuBits + 1) ≤ q then log2Frac k (q / 2) (2 * acc + 1) else log2Frac k q (2 * acc)

/-- The faithful result of a special function: `v` is the exact value when `exact`, otherwise a value between the same two fp32
neighbours as the exact one; the neighbour is the implementation's, but the nearer one where `vexp2` is subnormal, as the bound of R306 needs
(log entry 8). -/
def faithful (fn : Fin 4) (x : Nat) (ftz exact : Bool) (v : Val) : Nat × Flags :=
  match v with
  | .fin neg num den e =>
    let tiny := num != 0 && decide (floorLog2 num den e < FFmt.emin .fp32)
    if ftz && tiny then (FFmt.signed .fp32 neg 0, flUF ||| flNX)
    else
      let lo := (roundTo .fp32 .rtz false v).1
      if exact && !(roundTo .fp32 .rtz false v).2.getLsbD 4 then (lo, 0#6)
      else if tiny && fn == 0 then ((roundTo .fp32 .rne false v).1, flNX ||| flUF)
      else (if Config.sfuUp fn (BitVec.ofNat 32 x) then lo + 1 else lo, flNX ||| flIf tiny flUF)
  | _ => roundTo .fp32 .rne false v

/-- `vexp2` of an fp32 pattern (R89). -/
def sfuExp2 (ftz : Bool) (x : Nat) : Nat × Flags :=
  match ftzIn ftz .fp32 (fp32 x) with
  | .nan sig => (FFmt.nan .fp32, flIf sig flNV)
  | .inf neg => (if neg then 0 else FFmt.infPat .fp32, 0#6)
  | .fin neg num _ e =>
    if num = 0 then (0x3f800000, 0#6)
    else if 7 ≤ floorLog2 num 1 e ∧ neg = false then (FFmt.infPat .fp32, flOF ||| flNX)
    else if 8 ≤ floorLog2 num 1 e then faithful 0 x ftz true (.fin false 1 1 (-400))
    else
      let b := (-e).toNat
      let n : Int := if neg then -(num * 2 ^ e.toNat : Nat) else (num * 2 ^ e.toNat : Nat)
      let i := n / 2 ^ b
      let f := (n % 2 ^ b).toNat
      if f = 0 then faithful 0 x ftz true (.fin false 1 1 i)
      else faithful 0 x ftz false (.fin false (2 * exp2Frac b f (2 ^ (sfuBits + 1)) (2 ^ sfuBits) + 1) 1 (i - sfuBits - 1))

/-- `vlog2` of an fp32 pattern (R89). -/
def sfuLog2 (ftz : Bool) (x : Nat) : Nat × Flags :=
  match ftzIn ftz .fp32 (fp32 x) with
  | .nan sig => (FFmt.nan .fp32, flIf sig flNV)
  | .inf neg => if neg then (FFmt.nan .fp32, flNV) else (FFmt.infPat .fp32, 0#6)
  | .fin neg num _ e =>
    if num = 0 then (FFmt.signed .fp32 true (FFmt.infPat .fp32), flDZ)
    else if neg then (FFmt.nan .fp32, flNV)
    else
      let k := floorLog2 num 1 e
      let m := num * 2 ^ (sfuBits - Nat.log2 num)
      if m = 2 ^ sfuBits then faithful 1 x ftz true (.ofInt k)
      else
        let v : Int := 2 * (k * 2 ^ 120 + log2Frac 120 m 0) + 1
        faithful 1 x ftz false (.fin (decide (v < 0)) v.natAbs 1 (-121))

/-- `vrcp` of an fp32 pattern (R89). -/
def sfuRcp (ftz : Bool) (x : Nat) : Nat × Flags :=
  match ftzIn ftz .fp32 (fp32 x) with
  | .nan sig => (FFmt.nan .fp32, flIf sig flNV)
  | .inf neg => (FFmt.signed .fp32 neg 0, 0#6)
  | .fin neg num _ e =>
    if num = 0 then (FFmt.signed .fp32 neg (FFmt.infPat .fp32), flDZ)
    else if floorLog2 num 1 e < -128 ∨ (floorLog2 num 1 e = -128 ∧ num = 2 ^ Nat.log2 num) then
      (FFmt.signed .fp32 neg (FFmt.infPat .fp32), flOF ||| flNX)
    else faithful 2 x ftz true (.fin neg 1 num (-e))

/-- `vrsqrt` of an fp32 pattern (R89). -/
def sfuRsqrt (ftz : Bool) (x : Nat) : Nat × Flags :=
  match ftzIn ftz .fp32 (fp32 x) with
  | .nan sig => (FFmt.nan .fp32, flIf sig flNV)
  | .inf neg => if neg then (FFmt.nan .fp32, flNV) else (0, 0#6)
  | .fin neg num _ e =>
    if num = 0 then (FFmt.signed .fp32 neg (FFmt.infPat .fp32), flDZ)
    else if neg then (FFmt.nan .fp32, flNV)
    else
      let n := if e % 2 = 0 then num else 2 * num
      let g := if e % 2 = 0 then e / 2 else (e - 1) / 2
      let r := isqrt 120 (2 ^ 200 / n) 0
      if r * r * n = 2 ^ 200 then faithful 3 x ftz true (.fin false r 1 (-100 - g))
      else faithful 3 x ftz false (.fin false (2 * r + 1) 1 (-101 - g))

end Sys2Proof.Machine
end

