-- ==== Sys2Proof/Machine/Lanes.lean ====
section
/-! DEFINITION. Lanes of vector registers, operation masks and the write of a vector result (R59, R91, R171–R175). -/

namespace Sys2Proof.Machine

/-- Lane j of width w (R59). -/
def lane (w : Nat) (v : VReg) (j : Nat) : Nat := field v.toNat (w * j) w

/-- Lanes as one number, lane 0 lowest. -/
def joinLanes (w : Nat) : List Nat → Nat
  | [] => 0
  | x :: r => x % 2 ^ w + 2 ^ w * joinLanes w r

/-- A register from its lanes of width w. -/
def ofLanes (w : Nat) (l : List Nat) : VReg := BitVec.ofNat 1024 (joinLanes w l)

/-- How many lanes of width w a register has. -/
def laneCount (w : Nat) : Nat := 1024 / w

/-- A register whose lane j is `f j`. -/
def mapLanes (w : Nat) (f : Nat → Nat) : VReg := ofLanes w ((List.range (laneCount w)).map f)

/-- The bits of the lanes that a mask register enables: mask bit i governs bits [32i+31 : 32i] (R91). -/
def maskBits (m : W32) : VReg := ofLanes 32 ((List.range 32).map fun i => if m.getLsbD i then 2 ^ 32 - 1 else 0)

/-- The mask that an MSK or FM field names: none for 0 (R171, R172). -/
def State.opMask (s : State) (x : VFile) (m : Nat) : Option W32 := if m = 0 then none else some (s.readM x (idx 8 m))

/-- Whether lane j of width w is enabled (R91, R172). -/
def enabled (mk : Option W32) (w j : Nat) : Bool :=
  match mk with
  | none => true
  | some m => m.getLsbD (w * j / 32)

/-- The enabled lanes of width w. -/
def enabledLanes (mk : Option W32) (w : Nat) : List Nat := (List.range (laneCount w)).filter (enabled mk w)

/-- Queues a vector result: `part` gives the bits that are written when the write is partial (R172, R174, R175). -/
def State.putV (s : State) (lat : Nat) (x : VFile) (d : Fin 32) (value : VReg) (part : Option VReg) (poison : Bool)
    (fl : Flags) : State :=
  s.put lat (.v x d) value poison fun e => { e with mask := part.getD fullMask, keepOld := part.isSome, flags := fl }

/-- Width of an integer lane type (R171). -/
def ityWidth : ITy → Nat
  | .i8 | .n8 => 8
  | .i16 | .n16 => 16
  | .i32 | .n32 => 32

/-- Whether an integer lane type is signed. -/
def itySigned : ITy → Bool
  | .i8 | .i16 | .i32 => true
  | .n8 | .n16 | .n32 => false

/-- The format of a floating-point lane type (R171). -/
def ftyFmt : FTy → FFmt
  | .fp32 => .fp32
  | .fp16 => .fp16
  | .bf16 => .bf16

/-- Width of W (R171). -/
def widthBits : Width → Nat
  | .w8 => 8
  | .w16 => 16
  | .w32 => 32

/-- Operand b of a vector operation with integer lanes (R173). -/
def State.vopd (s : State) (x : VFile) (o : VOpd) (w : Nat) (sgn : Bool) : VReg :=
  match o with
  | .reg r => s.readV x r
  | .imm i => splatImm w i sgn

/-- Operand b of a vector operation with floating-point lanes: a bf16 pattern widened, or an fp16 pattern (R173). -/
def State.vopdF (s : State) (x : VFile) (o : VOpd) (f : FFmt) : VReg :=
  match o with
  | .reg r => s.readV x r
  | .imm i => if f = .fp32 then splatImm 32 i false <<< 16 else splatImm 16 i false

/-- Poison of operand b. -/
def State.vopdPoison (s : State) (x : VFile) (o : VOpd) : Bool :=
  match o with
  | .reg r => s.poisonV x r
  | .imm _ => false

/-- The register that operand b names. -/
def vopdNames : VOpd → List (Fin 32)
  | .reg r => [r]
  | .imm _ => []

/-- The cluster checks of the vector registers that an operation names (R157). -/
def State.chkVs (s : State) (x : VFile) (l : List (Fin 32)) : List Chk := l.map (s.chkV x)

/-- Issues a vector operation over lanes of width w, whose lane function gives a pattern and flags: `srcs` are the registers read beside
d, `poison` that of the sources, `mk` the operation mask (R172, R174, R175). -/
def State.laneOp (s : State) (x : VFile) (lat : Nat) (d : Fin 32) (srcs : List (Fin 32)) (poison : Bool) (mk : Option W32) (w : Nat)
    (f : Nat → Nat × Flags) : Result :=
  s.attempt (s.chkVs x (d :: srcs)) fun s =>
    let r := (List.range (laneCount w)).map fun j => if enabled mk w j then f j else (0, 0#6)
    s.putV lat x d (ofLanes w (r.map Prod.fst)) (mk.map maskBits) poison (r.foldl (fun a y => a ||| y.2) 0#6)

/-- An integer operation on lanes x and y of a type (R176). -/
def State.vInt (s : State) (x : VFile) (lat : Nat) (d a : Fin 32) (o : VOpd) (ty : ITy) (m : Fin 8)
    (f : Int → Int → Int × Flags) : Result :=
  let w := ityWidth ty
  let va := s.readV x a
  let vb := s.vopd x o w (itySigned ty)
  s.laneOp x lat d (a :: vopdNames o) (s.poisonV x a || s.vopdPoison x o) (s.opMask x m.val) w fun j =>
    let r := f (intVal (itySigned ty) w (lane w va j)) (intVal (itySigned ty) w (lane w vb j))
    (wrapNat w r.1, r.2)

/-- An operation on lane patterns with a zero-extended operand b: the bitwise operations and the shifts (R176). -/
def State.vBits (s : State) (x : VFile) (d a : Fin 32) (o : VOpd) (w : Nat) (m : Fin 8) (f : Nat → Nat → Nat) : Result :=
  let va := s.readV x a
  let vb := s.vopd x o w false
  s.laneOp x 2 d (a :: vopdNames o) (s.poisonV x a || s.vopdPoison x o) (s.opMask x m.val) w fun j =>
    (f (lane w va j) (lane w vb j), 0#6)

/-- A floating-point operation on lanes x, y and the old lane c of d, each decoded after FTZ; the result is a pattern (R180). -/
def State.vFlt (s : State) (x : VFile) (d a : Fin 32) (o : VOpd) (ft : FTy) (m : Fin 4) (readsD : Bool)
    (f : Bool → Val → Val → Val → Nat × Flags) : Result :=
  let ff := ftyFmt ft
  let w := ff.width
  let z := s.ftz x
  let va := s.readV x a
  let vb := s.vopdF x o ff
  let vd := s.readV x d
  let dec := fun (v : VReg) (j : Nat) => ftzIn z ff (decodeF ff (lane w v j))
  s.laneOp x 4 d (a :: vopdNames o) (s.poisonV x a || s.vopdPoison x o || (readsD && s.poisonV x d)) (s.opMask x m.val) w fun j =>
    f z (dec va j) (dec vb j) (dec vd j)

/-- A compare: mask bit j is the AND of the condition over the lanes in bits [32j+31 : 32j] (R178); poisoned sources write 0 (R41). -/
def State.vCmp (s : State) (x : VFile) (lat : Nat) (d : Fin 8) (srcs : List (Fin 32)) (poison : Bool) (w : Nat)
    (f : Nat → Bool × Flags) : Result :=
  s.attempt (s.chkVs x srcs) fun s =>
    let r := (List.range (laneCount w)).map f
    let bits := sumList ((List.range 32).map fun i =>
      if (List.range (laneCount w)).all fun j => w * j / 32 != i || (r.getD j (false, 0#6)).1 then 2 ^ i else 0)
    s.put lat (.m x d) (if poison then 0#1024 else BitVec.ofNat 1024 bits) false fun e =>
      { e with pzero := poison, flags := r.foldl (fun a y => a ||| y.2) 0#6 }

end Sys2Proof.Machine
end

