-- ==== Sys2Proof/Machine/Cycle.lean ====
section
/-! DEFINITION. One tile cycle of a panel (R32–R35, R43–R46, R323): which tiles issue what, the freezes, the close of the issue, with
the trap that it may take, and the close of the cycle. The parts of a cycle that are events of the opcode table stand on the agenda
as those events. -/

namespace Sys2Proof.Machine

/-- Whether a guard lets an operation run (R123, R124). -/
def Tile.guard (t : Tile) (o : Op) : Bool := (o.gp == 0 || t.r.p.getLsbD o.gp.val) != o.gn

/-- The micro-steps of a bundle that issues: its operations whose guards are true, in presence order, and its close. -/
def bundleMicros (a : Agent) (addr : W32) (len : Nat) (ops : List (Nat × Instr)) : List Micro :=
  (ops.zipIdx.map fun x => Micro.op a addr len x.1.1 (x.2 == 0) x.1.2) ++ [.endBundle a addr len ops.isEmpty]

/-- The operations of a bundle that run on a tile. -/
noncomputable def Tile.runs (t : Tile) (b : Bundle) : List (Nat × Instr) :=
  match b with
  | .idle n => [(0, .idleBundle n)]
  | .barrier g => [(0, .barrierOnlyBundle g)]
  | .ops _ l => l.filterMap fun o =>
    match o.op with
    | .ins i => if t.guard o then some (o.slot.val, i) else none
    | _ => none

/-- SYNC of a bundle (R117). -/
def bundleSync : Bundle → Fin 8
  | .idle _ => 0
  | .barrier g => Fin.ofNat 8 g.toNat
  | .ops g _ => g

/-- The token on which a `tkw` of a bundle freezes the panel, if it is PENDING (R155). -/
def Tile.waitsOn (t : Tile) (ops : List (Nat × Instr)) : Bool :=
  ops.any fun x => match x.2 with
    | .tkw k => t.toks[k].st == .pending
    | _ => false

/-- Whether a tile issues a bundle on the next cycle: it has not halted, runs no idle bundle and is not held at a barrier. -/
def Tile.ready (t : Tile) : Bool := !t.c.halted && t.c.idle == 0 && t.c.held.isNone

/-- Whether the `tkw` cause of R34 holds in a tile. -/
noncomputable def Dev.tokenFreeze (d : Dev) (n : Fin 128) : Bool :=
  let t := d.tiles[n]
  t.ready && t.toks.any (fun k => k.st == .pending) && match d.fetch n with
    | .bundle _ _ b => ((bundleSync b) == 0 || t.c.passed) && t.waitsOn (t.runs b)
    | _ => false

/-- Whether the landing cause of R34 holds in a tile: an FRZ slot due now has no data (R38). -/
def Tile.landFreeze (t : Tile) (psc : Nat) : Bool := t.lands.any fun l => l.st == .wait && !l.psn && l.due == psc

/-- What a tile does on a cycle that is not frozen, as micro-steps; the device already has its idle and hold cycles counted. -/
noncomputable def Dev.tileMicros (d : Dev) (n : Fin 128) : List Micro :=
  let t := d.tiles[n]
  if t.ready then
    match d.fetch n with
    | .bundle a len b =>
      if (bundleSync b) != 0 && !t.c.passed then [.ev (.barrierArrival n (bundleSync b))] else bundleMicros (.tile n) a len (t.runs b)
    | _ => []
  else []

/-- The trap that fetch raises in a tile: illegal bundle (R129) or bounds (R103). -/
noncomputable def Dev.fetchRaise (d : Dev) (n : Fin 128) : Option Raise :=
  if d.tiles[n].ready then
    match d.fetch n with
    | .unmapped a => some { tile := n, cause := causeBounds, detail := 0, slot := 0, faddr := a, code := 0#17, ea := a.setWidth 64,
                            spsc := 0, late := false }
    | .illegal a p => some { tile := n, cause := causeIllb, detail := p, slot := 0, faddr := a, code := 0#17, ea := 0#64, spsc := 0,
                             late := false }
    | .bundle _ _ _ => none
  else none

/-- Counts an idle or a hold cycle of a tile that does not issue (R43, R120); the stitch point of an earlier cycle is over (R53). -/
def Tile.passCycle (x : Tile) : Tile :=
  let t := { x with c := { x.c with stitch := none } }
  if t.c.halted then t
  else if 0 < t.c.idle then
    { t with c := { t.c with idle := t.c.idle - 1, pc := if t.c.idle = 1 then afterIdle t.c.loops t.c.pc else t.c.pc } }
  else { t with c := { t.c with held := t.c.held.map fun x => { x with cycles := x.cycles + 1 } } }

/-- The groups whose barrier a panel releases on this cycle (R45). -/
def Dev.releases (d : Dev) (p : Panel) : List (Fin 8) :=
  (List.finRange 8).filter fun g => p.tiles.any fun n =>
    match d.tiles[n].c.held with
    | some x => x.group == g && x.release == some p.psc
    | none => false

/-- Plans the next tile cycle of a panel (R32, R34, R35). -/
noncomputable def State.planCycle (s : State) (h : Nat) : State :=
  let d := s.dev
  match d.panel h with
  | none => s
  | some p =>
    if p.phase != .running then s
    else if p.haltReq then
      s.onDev fun d => d.onPanel h fun p => { p with phase := .debug, haltReq := false }
    else
      let rel := d.releases p
      if !rel.isEmpty then
        { s with agenda := (rel.map fun g => Micro.ev (.barrierRelease h g)) ++ [.cycle h] ++ s.agenda }
      else
        let land := p.tiles.any fun n => d.tiles[n].landFreeze p.psc
        let tok := p.tiles.any fun n => d.tokenFreeze n
        if land || tok then
          if p.pstall ≤ p.frozen then
            { s with saved := some d
                     agenda := [.ev (.timingFault h (BitVec.ofNat 4 (b2n land + 2 * b2n tok))), .endIssue h] ++ s.agenda }
          else
            s.onDev fun d => (d.onPanel h fun p => { p with frozen := p.frozen + 1 }).endStep p
        else
          let raised := p.tiles.filterMap fun n => d.fetchRaise n
          let d1 := p.tiles.foldl (fun d n => d.onTile n Tile.passCycle) d
          { s with saved := some d
                   dev := { d1 with raised := raised }
                   agenda := (p.tiles.flatMap fun n => d.tileMicros n) ++ [.endIssue h] ++ s.agenda }

/-- Whether every rank of a mask has arrived on a group: held there, or halted (R45, R46). -/
def Dev.allArrived (d : Dev) (p : Panel) (g : Fin 8) (mask : BitVec 128) : Bool :=
  (List.range p.size).all fun k => !mask.getLsbD k || d.tiles[p.tile k].c.halted ||
    match d.tiles[p.tile k].c.held with
    | some x => x.group == g && x.release.isNone
    | none => false

/-- Marks the release of every barrier whose last tile has arrived (R45). -/
def Dev.completeBarriers (d : Dev) (p : Panel) : Dev :=
  p.tiles.foldl (fun e n => e.onTile n fun t =>
    match t.c.held with
    | some x => if x.release.isNone && d.allArrived p x.group x.mask
                then { t with c := { t.c with held := some { x with release := some (p.psc + 4) } } } else t
    | none => t) d

/-- Subcauses HOLD (bit 2) and STITCH (bit 3) of R43 on this cycle. -/
def Dev.timingMask (d : Dev) (p : Panel) : Nat :=
  let hold := p.tiles.any fun n => match d.tiles[n].c.held with
    | some x => decide (p.pstall < x.cycles)
    | none => false
  4 * b2n hold + 8 * b2n (decide (p.pstitch < p.psc - p.lastStitch))

/-- Whether a cycle is a panel-wide stitch point: every tile issues a `stitch` or has halted (R53, R56). -/
def Dev.panelStitch (d : Dev) (p : Panel) : Bool := p.tiles.all fun n => d.tiles[n].c.halted || d.tiles[n].c.stitch.isSome

/-- Whether a tile has a timed access on this cycle. -/
def Tile.accessNow (t : Tile) (psc : Nat) : Bool :=
  t.flight.any (fun f => match f.act with
    | .none => false
    | .read p _ _ _ => p == psc
    | .write p _ _ _ _ => p == psc
    | .amo p _ _ _ _ _ _ => p == psc
    | .rmw p _ _ _ _ _ _ => p + 1 == psc)
  || t.ops.any (fun o => o.tspRead == some psc)
  || (t.tpath ++ t.apath).any fun o => o.accesses && decide (o.first ≤ psc) && decide (psc < o.first + o.cnt)

/-- Whether a tile has a register result due on this cycle. -/
def Tile.resultNow (t : Tile) (psc : Nat) : Bool :=
  t.flight.any (fun f => f.due == psc) ||
    (t.tpath ++ t.apath).any fun o => o.due == some psc || (decide (o.zflags ||| o.satFlags ≠ 0#6) && o.issue + 7 == psc)

/-- Whether a landing slot is processed on this cycle (R38). -/
def Land.dueNow (l : Land) (psc : Nat) : Bool := l.due == psc && (l.st == .held || l.st == .failed || (l.st == .wait && l.psn))

/-- The events that make up the end of a cycle of a tile: MMA results, which read accumulators before the writes of the cycle (R208),
landing slots (R38), due results (R15), timed accesses (R224). -/
noncomputable def Dev.tileEvents (d : Dev) (n : Fin 128) (psc : Nat) : List Micro :=
  let t := d.tiles[n]
  let lands := (List.finRange 64).filter fun j => t.lands[j].dueNow psc
  (if t.units.any fun u => u.issue + 144 == psc then [.ev (.mmaResultDue n)] else [])
    ++ lands.map (fun j => .ev (.landingDue n j))
    ++ (if !lands.isEmpty || t.resultNow psc then [.ev (.dueResultWrite n)] else [])
    ++ (if t.accessNow psc then [.ev (.timedAccessPerform n)] else [])

/-- Sets the fenced flag that an `ifence` of three cycles ago promised (R151). DESIGN CHOICE, unsafe (log entry 70): it is set for the half that is
idle then, a `swapb` in between or on this cycle notwithstanding. -/
def Tile.setFence (t : Tile) (psc : Nat) : Tile :=
  if t.c.fenceAt.contains psc then { t with c := { t.c with fenced := true, fenceAt := t.c.fenceAt.filter (· != psc) } } else t

/-- Closes the issue of a cycle: an issue-class trap takes the panel back to the start of the cycle and freezes it (R323); otherwise
the end of the cycle is planned. Landing slots are processed there, after the issue, so that a slot that R38 frees on a cycle is not FREE for an
operation that names it on that cycle (R37). DESIGN CHOICE: log entry 97. -/
noncomputable def State.endIssue (s : State) (h : Nat) : State :=
  match s.dev.panel h with
  | none => s
  | some p =>
    let timed := s.dev.raised.any fun r => r.cause == causeTiming
    let mask := s.dev.timingMask p
    if !timed && mask != 0 then
      { s with agenda := [.ev (.timingFault h (BitVec.ofNat 4 mask)), .endIssue h] ++ s.agenda }
    else
      let now := s.dev.raised.filter fun r => !r.late
      if now.isEmpty then
        let d := (p.tiles.foldl (fun d n => d.onTile n fun t => t.setFence p.psc) s.dev).completeBarriers p
        { s with dev := d
                 agenda := (if p.beats.isEmpty then [] else [.ev (.beatArrival h)])
                   ++ (p.tiles.flatMap fun n => d.tileEvents n p.psc) ++ [.endCycle h] ++ s.agenda }
      else { s with dev := s.start.takeTraps h now p.psc, saved := none }

/-- Whether some tile of a panel issues a `stitch` on a cycle. -/
def Dev.issuesStitch (d : Dev) (p : Panel) : Bool := p.tiles.any fun n => d.tiles[n].c.stitch.isSome

/-- Closes a cycle: the PSC advances, the end-class traps are taken (R323), a panel-wide stitch point is acted on (R53, R338, R374), a
debug step ends (R335). A cycle on which every tile has halted is no point for an eviction or a save, as R312 says of such a cut. DEDUCED: log
entry 103. -/
noncomputable def State.endCycle (s : State) (h : Nat) : State :=
  match s.dev.panel h with
  | none => { s with saved := none }
  | some p =>
    let stitched := s.dev.panelStitch p
    let acts := stitched && s.dev.issuesStitch p
    let d1 := p.tiles.foldl (fun d n => d.onTile n fun t => { t with c := { t.c with stitch := if stitched then t.c.stitch else none } })
      s.dev
    let d2 := (d1.onPanel h fun p =>
      { p with psc := p.psc + 1, frozen := 0, lastStitch := if stitched then p.psc else p.lastStitch }).endStep p
    let d3 := if d2.raised.isEmpty then d2 else d2.takeTraps h d2.raised p.psc
    let after : List Micro :=
      if acts && d3.raised.isEmpty && (d3.panel h).elim false (fun q => q.phase == .running) then
        if p.evict.isSome then [.ev (.evictionAtStitch h)]
        else if p.save || (decide (0 < p.saveAt) && decide (p.saveAt ≤ s.dev.dcc)) then [.ev (.periodicStitchSave h)] else []
      else []
    { s with dev := d3, saved := none, agenda := after ++ s.agenda }

end Sys2Proof.Machine
end

