-- ==== Sys2Proof/Machine/Global.lean ====
section
/-! DEFINITION. Global memory: bolt memory (R378), the address-space table and the page walk (R379–R382) with its caches (R383, R384),
open faults and their records (R386, R387, R389), host memory through a port (R393, R395), and the access to a line at its slice under
its allocation hint (R114–R116, R285, R296). -/

namespace Sys2Proof.Machine

/-! Spaces and bolt memory -/

/-- A field of a vdev's descriptor (R353). -/
def Vdev.fld (v : Vdev) (off size : Nat) : Nat := recField v.desc off size

/-- The generation of a space; the bolt supervisor's never changes (R353, R377). -/
def Dev.genOf (d : Dev) (space : Nat) : W32 := if h : space < 1024 then d.gens[space] else 0#32

/-- The PASID of a space (R353, R377). DESIGN CHOICE: R377 names no PASID for space 1,024, which uses PASID 0 (log entry 94). -/
def Dev.pasidOf (d : Dev) (space : Nat) : Nat := (d.vdev space).elim 0 fun v => v.fld 8 4 % 2 ^ 20

/-- The function that a vdev is bound to, or PF0 (R400). DESIGN CHOICE: R377 names no function for space 1,024, which uses PF0 (log entry 94). -/
def Dev.functionOf (d : Dev) (space : Nat) : Nat :=
  ((List.finRange 249).find? fun f => d.pf.fbind[f].getLsbD 31 && fieldOf d.pf.fbind[f] 0 10 == space).elim 0 Fin.val

/-- The memory key of a bolt physical address, if the bolt has it (R378). -/
def Dev.bpaKey (d : Dev) (b : Fin 32) (a : Nat) : Option Nat :=
  let qs := d.boltQuads b
  let g := a / 4096
  if a < qs.length * 2 ^ 33 then
    (qs[g % qs.length]?).map fun q => dramKey q (g / qs.length * 4096 + a % 4096)
  else none

/-- The 8 bytes at a bolt physical address; none outside the bolt's memory, or in a word with an uncorrectable error. -/
def Dev.bpaRead8 (d : Dev) (b : Fin 32) (a : Nat) : Option W64 :=
  match d.bpaKey b a with
  | some k => if d.bad k 8 then none else some (d.dword k)
  | none => none

/-- FLAGS of an address-space entry: bit 0 ATS, bit 1 PRI (R379). DESIGN CHOICE: FLAGS in a word with an uncorrectable error read as 0 (log
entry 95). -/
def Dev.asFlags (d : Dev) (b : Fin 32) (space : Nat) : W64 := (d.bpaRead8 b (32 * space + 8)).getD 0#64

/-- A write of a line of device memory that a host may hold through CXL.mem takes the line back from it (HDM-DB, R398). -/
def Dev.backInvalidate (d : Dev) (line : Nat) : Dev :=
  (List.finRange 2).foldl (fun d p =>
    if (d.ports[p]).held.contains line then
      { d.onPort p fun x => { x with held := x.held.filter (· != line) } with outs := .backInv p line :: d.outs }
    else d) d

/-- A write of a range of device memory takes the lines of it that a host may hold back (R398). -/
def Dev.backRange (d : Dev) (k n : Nat) : Dev :=
  (List.finRange 2).foldl (fun d p =>
    ((d.ports[p]).held.filter fun l => decide (k < l * 128 + 128) && decide (l * 128 < k + n)).foldl Dev.backInvalidate d) d

/-- The placer writes GEN of an address-space entry (R379). -/
def Dev.writeGen (d : Dev) (b : Fin 32) (space : Nat) : Dev :=
  match d.bpaKey b (32 * space + 12) with
  | some k => (d.backRange k 4).write k (leBytes 4 (d.genOf space).toNat)
  | none => d

/-! The walk -/

/-- The kinds of access that a translation distinguishes (R382). -/
inductive AccKind where
  | read
  | write
  | atomic
  deriving DecidableEq, Repr

/-- log2 of the bytes that an entry of a level maps. -/
def levelShift (lvl : Nat) : Nat := 12 + 9 * lvl

/-- Index of a DVA at a level (R380). -/
def levelIndex (dva lvl : Nat) : Nat := dva / 2 ^ levelShift lvl % (if lvl = 4 then 256 else 512)

/-- The address that an entry names (R381). -/
def pteAddr (pte : W64) : Nat := fieldOf pte 12 40 * 4096

/-- LOC of a leaf. -/
def pteLoc (pte : W64) : Nat := fieldOf pte 6 2

/-- Malformed entries (R381). -/
def Dev.malformed (d : Dev) (b : Fin 32) (pte : W64) (lvl : Nat) : Bool :=
  let leaf := pte.getLsbD 1
  fieldOf pte 52 12 != 0 || pte.getLsbD 8 || fieldOf pte 4 2 != 0 || (leaf && decide (3 ≤ lvl)) || (!leaf && lvl == 0)
    || (!leaf && fieldOf pte 2 8 != 0) || (leaf && pteLoc pte == 3) || (leaf && lvl != 0 && fieldOf pte 12 (9 * lvl) != 0)
    || ((!leaf || pteLoc pte == 0) && decide ((d.boltQuads b).length * 2 ^ 33 ≤ pteAddr pte))

/-- What a walk ends with. -/
inductive Walked where
  | leaf (lvl : Nat) (pte : W64)
  | fault (k : FKindT) (lvl : Nat) (pte : W64)
  deriving DecidableEq, Repr

/-- The walk of R382 from a table at level `n − 1`, with the non-leaf entries that it read. DESIGN CHOICE: the record of an entry with an
uncorrectable error holds 0 for PTE (log entry 95). -/
def Dev.walkFrom (d : Dev) (b : Fin 32) (dva : Nat) : Nat → Nat → Walked × List (Nat × W64)
  | 0, _ => (.fault .malformed 0 0#64, [])
  | n + 1, tbl =>
    match d.bpaRead8 b (tbl + 8 * levelIndex dva n) with
    | none => (.fault .malformed n 0#64, [])
    | some pte =>
      if !pte.getLsbD 0 then (.fault .notPresent n pte, [])
      else if d.malformed b pte n then (.fault .malformed n pte, [])
      else if pte.getLsbD 1 then (.leaf n pte, [])
      else
        let r := d.walkFrom b dva n (pteAddr pte)
        (r.1, (n, pte) :: r.2)

/-- A fresh walk of a space (R382). An uncorrectable error in the address-space entry ends it as MALFORMED, as R430 ends a walk, at no level and
with PTE 0. DESIGN CHOICE: log entry 95. -/
def Dev.walkFresh (d : Dev) (b : Fin 32) (space dva : Nat) : Walked × List (Nat × W64) :=
  match d.bpaRead8 b (32 * space) with
  | some root =>
    if root.getLsbD 0 then d.walkFrom b dva 5 (fieldOf root 12 26 * 4096) else (.fault .space 0xff 0#64, [])
  | none => (.fault .malformed 0xff 0#64, [])

/-- The permission check of a leaf (R382). -/
def leafFault (acc : AccKind) (pte : W64) : Option FKindT :=
  if (acc != .write && !pte.getLsbD 2) || (acc != .read && !pte.getLsbD 3) then some .perm
  else if acc != .read && pte.getLsbD 9 then some .migrate
  else none

/-! Translation caches (R383) -/

/-- A cached leaf that matches. -/
def tlbFind (l : List TlbEnt) (space : Nat) (gen : W32) (dva : Nat) : Option TlbEnt :=
  l.find? fun e => e.space == space && e.gen == gen && e.page == dva / 2 ^ levelShift e.level

/-- Adds an entry; the oldest leaves a full cache. -/
def cacheAdd {α : Type} (cap : Nat) (l : List α) (x : α) : List α := (x :: l).take cap

/-- Adds a leaf to the TLBs of a requester. -/
def Dev.tlbFill (d : Dev) (n : Option (Fin 128)) (q : Fin 32) (e : TlbEnt) : Dev :=
  let d1 := d.onQuad q fun x => { x with tlb := cacheAdd 4096 x.tlb e }
  match n with
  | some n => d1.onTile n fun t => { t with tlb := cacheAdd 64 t.tlb e }
  | none => d1

/-- Adds the non-leaf entries of a walk to the walk cache. -/
def Dev.walkFill (d : Dev) (q : Fin 32) (space : Nat) (gen : W32) (dva : Nat) (l : List (Nat × W64)) : Dev :=
  d.onQuad q fun x => { x with walk := l.foldl (fun w e =>
    cacheAdd 256 w { space := space, gen := gen, level := e.1, tag := dva / 2 ^ levelShift e.1, pte := e.2 }) x.walk }

/-- A walk that begins at the lowest cached entry. -/
def Dev.walkCached (d : Dev) (b : Fin 32) (q : Fin 32) (space : Nat) (gen : W32) (dva : Nat) : Walked × List (Nat × W64) :=
  let hit := d.quads[q].walk.filter fun e => e.space == space && e.gen == gen && e.tag == dva / 2 ^ levelShift e.level
  match minBy (fun (e : WalkEnt) => e.level) hit with
  | some e => d.walkFrom b dva e.level (pteAddr e.pte)
  | none => d.walkFresh b space dva

/-- The leaf that a DVA translates to, or its fault: through the caches, and afresh before a fault (R383, R384). -/
def Dev.translate (d : Dev) (b : Fin 32) (n : Option (Fin 128)) (q : Fin 32) (space dva : Nat) (acc : AccKind) : Dev × Walked :=
  let gen := d.genOf space
  let tlb := match n with
    | some n => tlbFind d.tiles[n].tlb space gen dva
    | none => none
  let hit := match tlb with
    | some e => some e
    | none => tlbFind d.quads[q].tlb space gen dva
  let good := fun (w : Walked) => match w with
    | .leaf _ pte => (leafFault acc pte).isNone
    | .fault _ _ _ => false
  let cached := match hit with
    | some e => (Walked.leaf e.level e.pte, [])
    | none => d.walkCached b q space gen dva
  let r := if good cached.1 then cached else d.walkFresh b space dva
  match r.1 with
  | .leaf lvl pte =>
    match leafFault acc pte with
    | some k => (d, .fault k lvl pte)
    | none =>
      let d1 := d.walkFill q space gen dva r.2
      (d1.tlbFill n q { space := space, gen := gen, page := dva / 2 ^ levelShift lvl, level := lvl, pte := pte }, r.1)
  | .fault _ _ _ => (d, r.1)

/-! Faults -/

/-- Who makes an access, as a fault record names it (R389). -/
structure Asker where
  /-- Space. -/
  space : Nat
  /-- Tile, none for a service core and the placer. -/
  tile : Option (Fin 128)
  /-- Quad whose walker and TLB serve it. -/
  quad : Fin 32
  /-- It is a copy engine. -/
  engine : Bool
  /-- It is the placer. -/
  placer : Bool
  /-- TAG. -/
  tag : W64
  /-- TOKEN. -/
  token : Nat
  /-- SLOT. -/
  slot : Nat
  /-- What it has waited on. -/
  held : Wait := .no
  deriving DecidableEq, Repr

/-- A tile as asker. -/
def Dev.tileAsker (d : Dev) (n : Fin 128) : Asker where
  space := (d.panelOf n).elim 0 Panel.vdev
  tile := some n
  quad := quadOf n
  engine := false
  placer := false
  tag := 0#64
  token := 0xff
  slot := 0xff

/-- The placer of a bolt as asker for a vdev: its walks are made by the first quad of the bolt. -/
def Dev.placerAsker (d : Dev) (b : Fin 32) (v : Nat) (tag : W64) (held : Wait := .no) : Asker where
  space := v
  tile := none
  quad := ((d.boltQuads b).head?).getD 0
  engine := false
  placer := true
  tag := tag
  token := 0xff
  slot := 0xff
  held := held

/-- KIND of a fault record (R382). -/
def FKindT.code : FKindT → Nat
  | .notPresent => 1
  | .perm => 2
  | .malformed => 3
  | .hostPrq => 4
  | .hostFail => 5
  | .space => 6
  | .migrate => 7

/-- Recoverable kinds (R382). -/
def FKindT.recoverable : FKindT → Bool
  | .notPresent | .perm | .hostPrq | .migrate => true
  | .malformed | .hostFail | .space => false

/-- Host kinds, whose records carry PORT and U. -/
def FKindT.host : FKindT → Bool
  | .hostPrq | .hostFail => true
  | _ => false

/-- A 64-byte fault record (R389). -/
def Dev.faultRecord (d : Dev) (a : Asker) (acc : AccKind) (k : FKindT) (lvl : Nat) (pte : W64) (dva prgi port u : Nat) : BitVec 512 :=
  let access := match acc with
    | .read => 0
    | .write => 1
    | .atomic => 2
  packFields 512
    [(0x00, 1, k.code), (0x01, 1, access + 4 * b2n a.engine + 8 * b2n a.placer), (0x02, 1, if k.host || k == .space then 0xff else lvl),
     (0x03, 1, b2n k.recoverable), (0x04, 4, (d.genOf a.space).toNat), (0x08, 8, dva), (0x10, 8, if k == .space then 0 else pte.toNat),
     (0x18, 8, a.tag.toNat), (0x20, 2, a.space), (0x22, 2, prgi), (0x24, 4, d.pasidOf a.space),
     (0x28, 1, a.tile.elim 0xff Fin.val), (0x29, 1, a.tile.elim 0xff fun n => d.tiles[n].rank), (0x2a, 1, a.token), (0x2b, 1, a.slot),
     (0x2c, 2, a.tile.elim 0xffff fun n => (d.panelOf n).elim 0xffff Panel.handle), (0x2e, 1, if k.host then port else 0xff),
     (0x30, 8, d.dcc), (0x38, 8, if k.host then u else 0)]

/-- A free PRGI of a port (R395). -/
def HostPort.freePrgi (p : HostPort) : Option Nat := (List.range 512).find? fun i => !p.prg.any fun e => e.prgi == i

/-- The open fault of a page that an access joins (R386). -/
def Dev.openOn (d : Dev) (b : Fin 32) (space : Nat) (gen : W32) (page : Nat) (acc : AccKind) : Option OpenFault :=
  d.bolts[b].faults.find? fun f =>
    f.space == space && f.gen == gen && f.page == page && (f.kind != .migrate || acc != .read)

/-- What becomes of an access that meets a fault: it waits, or it ends. -/
inductive Meet where
  | wait (w : Wait)
  | fail
  deriving DecidableEq, Repr

/-- Since when an object has waited for a fault place. -/
def Wait.since (w : Wait) : Option Nat :=
  match w with
  | .place s | .retry s => some s
  | .ats _ _ _ _ s | .denied _ _ _ s | .busy s => s
  | _ => none

/-- Permissions that an access needs: R, W. -/
def accNeeds (acc : AccKind) : BitVec 2 :=
  match acc with
  | .read => 1#2
  | .write => 2#2
  | .atomic => 3#2

/-- A fault met by an access (R386, R395): it is joined or opened with its record, or waits for a place; an unrecoverable one only
writes its record. Service cores leave no record (R387). -/
def Dev.meetFault (d : Dev) (b : Fin 32) (a : Asker) (acc : AccKind) (k : FKindT) (lvl : Nat) (pte : W64) (dva : Nat) (port : Fin 2)
    (u : Nat) : Dev × Meet :=
  let gen := d.genOf a.space
  let room := decide (d.bolts[b].faultq.length < 1024)
  let queue := fun (d : Dev) (prgi : Nat) =>
    d.onBolt b fun x => { x with faultq := x.faultq ++ [d.faultRecord a acc k lvl pte dva prgi port.val u] }
  if !k.recoverable then
    if room then (queue d 0xffff, .fail) else (d.count b 13 1, .fail)
  else match d.openOn b a.space gen (dva / 4096) acc with
    | some f => (d, .wait (.fault f.id))
    | none =>
      let prgi := if k == .hostPrq then d.ports[port].freePrgi else some 0xffff
      match prgi with
      | none => (d, .wait (.place (a.held.since.getD d.dcc)))
      | some prgi =>
        if 256 ≤ d.bolts[b].faults.length || (k != .migrate && !room) then (d, .wait (.place (a.held.since.getD d.dcc)))
        else
          let id := d.bolts[b].nextFault
          let d1 := d.onBolt b fun x =>
            { x with faults := x.faults ++ [{ id := id, space := a.space, gen := gen, kind := k, page := dva / 4096, opened := d.dcc }]
                     nextFault := id + 1 }
          let d2 := if k == .migrate then d1 else queue d1 prgi
          let e : PrgEnt :=
            { prgi := prgi, space := a.space, gen := gen, bolt := b, fault := id, fn := d.functionOf a.space, upage := u / 4096,
              sent := false, opened := d.dcc, need := accNeeds acc }
          let d3 := if k == .hostPrq then d2.onPort port fun p => { p with prg := p.prg ++ [e] } else d2
          (d3, .wait (.fault id))

/-! Host memory (R393) -/

/-- What an access to an untranslated host address meets at its port. -/
inductive HostAns where
  | go (addr : Nat)
  | wait (w : Wait)
  | fault (k : FKindT)
  deriving DecidableEq, Repr

/-- HOSTPRQ or HOSTFAIL after an insufficient completion (R393). -/
def Dev.hostFaultKind (d : Dev) (b : Fin 32) (port : Fin 2) (space : Nat) : FKindT :=
  if (d.asFlags b space).getLsbD 1 && !d.ports[port].priOff.contains (d.functionOf space) then .hostPrq else .hostFail

/-- Whether the host accesses of a space are sent with the T bit: those of a vdev whose VF's TDI is in RUN (R413). -/
def Dev.sendsT (d : Dev) (space : Nat) : Bool := (d.pf.tdis[idx 249 (d.functionOf space)]).st == .run

/-- Non-posted requests that a port may have outstanding (R398). -/
def nonPosted : Nat := 768

/-- An access to U through a port (R393): untranslated, or through the ATC with a Translation Request on a miss, which the port's limit of outstanding
requests may keep back; an access whose own request was answered with a refusal, or without a permission that it needs, meets its fault. -/
def Dev.hostPath (d : Dev) (b : Fin 32) (port : Fin 2) (space : Nat) (u dva : Nat) (acc : AccKind) (pte : W64) (held : Wait) : Dev × HostAns :=
  let fn := d.functionOf space
  let gen := d.genOf space
  let need := accNeeds acc
  if !(d.asFlags b space).getLsbD 0 then
    if Config.hostRefuses port fn (d.pasidOf space) u (d.sendsT space) then (d, .fault .hostFail) else (d, .go u)
  else
    let hit := d.ports[port].atc.find? fun e =>
      e.fn == fn && e.pasid == d.pasidOf space && e.gen == gen && e.space == space && e.upage == u / 4096 / 2 ^ e.log2 * 2 ^ e.log2
        && (e.perm &&& need) == need
    match hit with
    | some e => (d, .go (e.host * 4096 + u % (4096 * 2 ^ e.log2)))
    | none =>
      let asked := match held with
        | .denied p x refused _ => if p == port && x == u / 4096 then some refused else none
        | _ => none
      match asked with
      | some refused => (d, .fault (if refused then .hostFail else d.hostFaultKind b port space))
      | none =>
        let same := fun (r : AtsReq) => r.space == space && r.gen == gen && r.upage == u / 4096
        if !d.ports[port].ats.any same && decide (nonPosted ≤ d.ports[port].ats.length) then (d, .wait (.busy held.since))
        else
        let d1 : Dev :=
          if d.ports[port].ats.any same then
            let grow := fun (r : AtsReq) =>
              if same r then { r with write := r.write || need.getLsbD 1, read := r.read || need.getLsbD 0 } else r
            d.onPort port fun p => { p with ats := p.ats.map grow }
          else
            let r : AtsReq := { space := space, gen := gen, dva := dva, upage := u / 4096, write := need.getLsbD 1,
                                read := need.getLsbD 0, pte := pte }
            { d.onPort port fun p => { p with ats := p.ats ++ [r] } with
              outs := .ats port fn (u / 4096) (d.pasidOf space) (d.sendsT space) :: d.outs }
        (d1, .wait (.ats port (u / 4096) space need held.since))

/-! The whole way of a DVA -/

/-- Where an access is performed, what it waits on, or that it ends. -/
inductive Reach where
  | point (key : Nat)
  | wait (w : Wait)
  | fail
  deriving DecidableEq, Repr

/-- Resolves a DVA for an access: an open fault of its page is joined (R386), then the page is translated and a host page resolved
(R382, R393). `record` is false for a service core (R387). -/
def Dev.reach (d : Dev) (b : Fin 32) (a : Asker) (dva : Nat) (acc : AccKind) (record : Bool := true) : Dev × Reach :=
  let fault := fun (d : Dev) (k : FKindT) (lvl : Nat) (pte : W64) (port : Fin 2) (u : Nat) =>
    if !record then (d, Reach.fail)
    else match d.meetFault b a acc k lvl pte dva port u with
      | (d, .wait w) => (d, Reach.wait w)
      | (d, .fail) => (d, Reach.fail)
  match d.openOn b a.space (d.genOf a.space) (dva / 4096) acc with
  | some f => if record then (d, .wait (.fault f.id)) else (d, .fail)
  | none =>
    match d.translate b a.tile a.quad a.space dva acc with
    | (d, .fault k lvl pte) => fault d k lvl pte 0 0
    | (d, .leaf lvl pte) =>
      let off := pteAddr pte + dva % 2 ^ levelShift lvl
      if pteLoc pte = 0 then
        match d.bpaKey b off with
        | some k => (d, .point k)
        | none => fault d .malformed lvl pte 0 0
      else
        let port : Fin 2 := if pteLoc pte = 1 then 0 else 1
        match d.hostPath b port a.space off dva acc pte a.held with
        | (d, .go x) => (d, .point (hostKey port x))
        | (d, .wait w) => (d, .wait w)
        | (d, .fault k) => fault d k 0xff pte port (off / 4096 * 4096)

/-! A line at its slice (R114–R116) -/

/-- Whether a key lies in host memory. -/
def isHost (k : Nat) : Bool := decide (2 ^ 64 ≤ k)

/-- The port of a host key. -/
def hostPortOf (k : Nat) : Fin 2 := if k < 2 ^ 65 then 0 else 1

/-- The quad of an LPDDR key. -/
def dramQuad (k : Nat) : Fin 32 := idx 32 ((k - 2 ^ 40) / 2 ^ 33)

/-- The slice that serves a line for a bolt (R114). -/
def Dev.sliceOf (d : Dev) (b : Fin 32) (k : Nat) : Fin 32 :=
  if isHost k then
    let qs := d.boltQuads b
    (qs[Config.hostSlice (k / 128) % qs.length]?).getD 0
  else dramQuad k

/-- Whether a line is held as a copy that the host does not snoop (R296). -/
def Dev.unsnooped (d : Dev) (k : Nat) : Bool := isHost k && !d.ports[hostPortOf k].cxl

/-- Writes the unwritten bytes of a held copy back to host memory. -/
def Dev.writeBack (d : Dev) (l : SlcLine) : Dev :=
  match l.copy with
  | some c => (List.range 128).foldl (fun d i =>
      if l.written.getLsbD i then d.write (l.key * 128 + i) [BitVec.ofNat 8 (fieldOf c (8 * i) 8)] else d) d
  | none => d

/-- The line of a slice. -/
def Quad.line (q : Quad) (line : Nat) : Option SlcLine := q.slc.find? fun l => l.key == line

/-- Removes a line from a slice, written back. -/
def Dev.slcDrop (d : Dev) (q : Fin 32) (line : Nat) : Dev :=
  match d.quads[q].line line with
  | some l => (d.writeBack l).onQuad q fun x => { x with slc := x.slc.filter fun l => l.key != line }
  | none => d

/-- The line that leaves a full set: the next victim, or the least recent (R116). -/
def slcVictim (l : List SlcLine) (line : Nat) : Option SlcLine :=
  let set := l.filter fun x => x.key % 1024 == line % 1024 && x.key != line
  if 16 ≤ set.length then (match set.find? SlcLine.victim with
    | some x => some x
    | none => set.getLast?) else none

/-- Puts a line at the head of its slice; a full set gives up a line (R114). -/
def Dev.slcPut (d : Dev) (q : Fin 32) (l : SlcLine) : Dev :=
  let d1 := match slcVictim d.quads[q].slc l.key with
    | some v => d.slcDrop q v.key
    | none => d
  d1.onQuad q fun x => { x with slc := l :: x.slc.filter fun y => y.key != l.key }

/-- The 128 bytes of a line in memory. -/
def Dev.lineBits (d : Dev) (line : Nat) : VReg := BitVec.ofNat 1024 (leNat (d.bytes (line * 128) 128))

/-- A line newly held. -/
def Dev.newLine (d : Dev) (line : Nat) (victim : Bool) : SlcLine where
  key := line
  dirty := false
  zero := false
  victim := victim
  copy := if d.unsnooped (line * 128) then some (d.lineBits line) else none
  written := 0#128
  space := none

/-- The slice's part of a load under its hint (R116). -/
def Dev.slcLoad (d : Dev) (q : Fin 32) (line : Nat) (hint : BitVec 2) : Dev :=
  match d.quads[q].line line, hint.toNat with
  | some l, 0 => d.slcPut q l
  | some _, 1 => d
  | some l, 2 => if l.dirty then d else d.slcDrop q line
  | some l, _ => d.slcPut q { l with victim := true }
  | none, 0 => d.slcPut q (d.newLine line false)
  | none, 3 => d.slcPut q (d.newLine line true)
  | none, _ => d

/-- Replaces bytes of a line's copy. -/
def mergeLine (l : SlcLine) (off : Nat) (bs : List Byte) : SlcLine :=
  match l.copy with
  | none => l
  | some c => { l with copy := some (putField c (8 * off) (8 * bs.length) (leNat bs))
                       written := l.written ||| BitVec.ofNat 128 ((2 ^ bs.length - 1) * 2 ^ off) }

/-- Reads bytes within one line at their point of performance. `strong`: at `.dev` or `.sys`, which uses no copy of an unsnooped host
line (R296). -/
def Dev.pointRead (d : Dev) (b : Fin 32) (k n : Nat) (hint : BitVec 2) (strong : Bool) : Dev × List Byte :=
  let q := d.sliceOf b k
  let line := k / 128
  let d0 := d.ecc (some b) k n
  if d.unsnooped k && (strong || hint == 2#2) then
    let d1 := d0.slcDrop q line
    (d1, d1.bytes k n)
  else
    let d1 := d0.slcLoad q line hint
    match (d0.quads[q].line line).bind SlcLine.copy with
    | some c => (d1, (leBytes 128 c.toNat).drop (k % 128) |>.take n)
    | none => (d1, d0.bytes k n)

/-- Names the vdev whose bytes a held copy of a host line has last taken. -/
def Dev.ownLine (d : Dev) (b : Fin 32) (k space : Nat) : Dev :=
  let mark := fun (l : SlcLine) => if l.key = k / 128 ∧ l.copy.isSome then { l with space := some space } else l
  if d.unsnooped k then d.onQuad (d.sliceOf b k) fun x => { x with slc := x.slc.map mark } else d

/-- Writes bytes within one line at their point of performance. `through`: at `.dev` or `.sys`, to host memory itself (R285). -/
def Dev.pointWrite (d : Dev) (b : Fin 32) (k : Nat) (bs : List Byte) (hint : BitVec 2) (through : Bool) : Dev :=
  let q := d.sliceOf b k
  let line := k / 128
  let alloc := (hint == 0#2 || hint == 3#2) && !(through && d.unsnooped k)
  let old := (d.quads[q].line line).getD (d.newLine line false)
  let whole := k % 128 == 0 && bs.length == 128
  let zero := whole && bs.all (· == 0#8)
  let d := d.backInvalidate line
  let l := { mergeLine old (k % 128) bs with dirty := true, zero := zero, victim := hint == 3#2 }
  if alloc then
    let d1 := d.slcPut q l
    if d.unsnooped k then d1 else d1.write k bs
  else (d.slcDrop q line).write k bs

/-- Writes back and gives up every unsnooped host line of a bolt's slices: a release, or the acquire of a fence, at `.dev` or `.sys`
(R296). -/
def Dev.flushHost (d : Dev) (b : Fin 32) : Dev :=
  (d.boltQuads b).foldl (fun d q =>
    (d.quads[q].slc.filter fun l => l.copy.isSome).foldl (fun d l => d.slcDrop q l.key) d) d

end Sys2Proof.Machine
end

