-- ==== Sys2Proof/Machine/Tsp.lean ====
section
/-! DEFINITION. The scratchpad as its timed accesses see it: the swizzle (R110), reading and writing bytes of a bank, the schedule of
the timed ports (R16), the accesses of the matrix paths (R198, R202–R217), and element codes (R58, R200). -/

namespace Sys2Proof.Machine

/-! Element codes -/

/-- Bits of an element of a format code (R58). -/
def codeBits (c : Nat) : Nat :=
  match c with
  | 0x1 | 0xF => 4
  | 0x4 | 0x5 | 0x8 | 0x9 => 16
  | 0x6 | 0x7 | 0xA => 32
  | _ => 8

/-- Cap of a tag: elements that a tile line can hold (R200). -/
def codeCap (c : Nat) : Nat := 512 / codeBits c

/-- Whether a code names a block format (R58). -/
def codeBlock (c : Nat) : Bool := c == 0xD || c == 0xE || c == 0xF

/-- LineBytes (R200). -/
def lineBytes (c n : Nat) : Nat := (n * codeBits c + 7) / 8

/-- Data bytes per block scale (R74). -/
def blockBytes (c : Nat) : Nat := if c = 0xF then 16 else 32

/-- The element format of a block code. -/
def blockEl (c : Nat) : BElem := if c = 0xD then .e4m3 else if c = 0xE then .e5m2 else .i4

/-- The offset of the scale byte of the block whose data begin at an offset (R74). -/
def scaleOff (c o : Nat) : Nat := 0xF000 + o / blockBytes c

/-- The value of an element of a code that is no block and not raw; a raw byte counts as its number. -/
def codeVal (c v : Nat) : Val :=
  match elFmt c with
  | some f => f.decode v
  | none => .ofInt v

/-- An element converted from one code to another as a tile load or store does: equal codes copy, and fp32 and bf16 convert (R79). -/
def tileConv (src dst v : Nat) : Nat :=
  if src = 0xA ∧ dst = 9 then (roundTo .bf16 .rne false (fp32 v)).1
  else if src = 9 ∧ dst = 0xA then (toFp32 (decodeF .bf16 v)).1
  else v

/-! Placement of bytes in a bank -/

/-- PhysOffset of R110. -/
def physOffset (bfmt : W32) (o : Nat) : Nat :=
  if codeBlock (bfmtFmt bfmt) && decide (0xF000 ≤ o) then o
  else
    let p := bfmtPitch bfmt
    let sp := bfmtSpan bfmt
    let row := o / p
    let col := o % p
    let g := (col % sp) / 16
    let g2 := g ^^^ (row % (sp / 16))
    row * p + (col - col % sp) + g2 * 16 + o % 16

/-- The key of a bank's logical offset. -/
def bankKey (n : Fin 128) (bfmt : W32) (bank o : Nat) : Nat := tspKey n (bank * 65536 + physOffset bfmt o)

/-- The tile-local address of an offset in a bank (R198). -/
def bankAddr (bank : Fin 16) (o : Nat) : W64 := BitVec.ofNat 64 (bank.val * 65536 + o)

/-- Bytes of a bank from a logical offset. -/
def Dev.bankBytes (d : Dev) (n : Fin 128) (bfmt : W32) (bank o len : Nat) : List Byte :=
  (List.range len).map fun i => d.byte (bankKey n bfmt bank (o + i))

/-- Whether some of these bytes lie in a word with an uncorrectable error. -/
def Dev.bankBad (d : Dev) (n : Fin 128) (bfmt : W32) (bank o len : Nat) : Bool :=
  (List.range len).any fun i => d.bad (bankKey n bfmt bank (o + i)) 1

/-- Counts the errors that an access to these bytes meets (R430). -/
def Dev.bankEcc (d : Dev) (n : Fin 128) (bfmt : W32) (bank o len : Nat) : Dev :=
  if d.badWords.isEmpty && d.softWords.isEmpty then d
  else (List.range ((o % 8 + len + 7) / 8)).foldl (fun d i => d.ecc (d.boltOf n) (bankKey n bfmt bank ((o / 8 + i) * 8)) 8) d

/-- Writes bytes granule by granule (R110); `fuel` bounds the granules. -/
def writeBank (n : Fin 128) (bfmt : W32) (bank : Nat) : Nat → Nat → List Byte → Dev → Dev
  | 0, _, _, d => d
  | fuel + 1, o, bs, d =>
    if bs.isEmpty then d
    else
      let k := 16 - o % 16
      writeBank n bfmt bank fuel (o + k) (bs.drop k) (d.write (bankKey n bfmt bank o) (bs.take k))

/-- Writes bytes of a bank from a logical offset. -/
def Dev.bankWrite (d : Dev) (n : Fin 128) (bfmt : W32) (bank o : Nat) (bs : List Byte) : Dev :=
  writeBank n bfmt bank (bs.length / 16 + 2) o bs d

/-! The matrix paths' accesses -/

/-- Columns of TGEOM (R99). -/
def geomCols (g : W32) : Nat := fieldOf g 8 7 + 1

/-- Rows of TGEOM. -/
def geomRows (g : W32) : Nat := fieldOf g 0 6 + 1

/-- TAG of TGEOM. -/
def geomTag (g : W32) : Nat := fieldOf g 16 4

/-- Accesses that a source row of `mldt` takes (R203). -/
def mldtPer (o : PathOp) : Nat := (lineBytes o.src.toNat (geomRows o.tgeom) + 127) / 128

/-- Access m of a path operation: its logical offset and its size. -/
def PathOp.access (o : PathOp) (m : Nat) : Nat × Nat :=
  let p := bfmtPitch o.bfmt
  match o.kind with
  | .mld => (o.off + m * p, lineBytes o.src.toNat (geomCols o.tgeom))
  | .mldt =>
    let lb := lineBytes o.src.toNat (geomRows o.tgeom)
    (o.off + m / mldtPer o * p + 128 * (m % mldtPer o), Nat.min 128 (lb - 128 * (m % mldtPer o)))
  | .mst => (o.off + m * p, lineBytes o.tag.toNat (geomCols o.tgeom))
  | .zout => if o.cnt = 128 then (o.off + m / 2 * p + 128 * (m % 2), 128) else (o.off + m * p, 8 * codeBits o.tag.toNat)
  | .mlds | .zld | .zst => (o.off + 128 * m, 128)
  | .zstat => (o.off, 16)
  | .zoutv | .mzero => (0, 0)

/-- Blocks whose scales go with each access of a path operation: none when no scale is moved. -/
def PathOp.blocks (o : PathOp) : Nat :=
  match o.kind with
  | .mld | .mst => if codeBlock o.tag.toNat && !o.raw then (geomCols o.tgeom + 31) / 32 else 0
  | .zout => if codeBlock o.tag.toNat then 2 else 0
  | _ => 0

/-- Whether the accesses of a path operation read. -/
def PathOp.reads (o : PathOp) : Bool :=
  match o.kind with
  | .mld | .mldt | .mlds | .zld => true
  | _ => false

/-- The scale bytes of an access, from the block formats' scale area (R74, R202). -/
def Dev.readScales (d : Dev) (n : Fin 128) (o : PathOp) (at_ : Nat) : W32 :=
  BitVec.ofNat 32 (sumList ((List.range o.blocks).map fun b =>
    (d.byte (bankKey n o.bfmt o.bank.val (scaleOff o.tag.toNat (at_ + b * blockBytes o.tag.toNat)))).toNat * 256 ^ b))

/-- Whether a scale byte of an access lies in a bad word. -/
def Dev.badScales (d : Dev) (n : Fin 128) (o : PathOp) (at_ : Nat) : Bool :=
  (List.range o.blocks).any fun b => d.bad (bankKey n o.bfmt o.bank.val (scaleOff o.tag.toNat (at_ + b * blockBytes o.tag.toNat))) 1

/-- Writes the scale bytes of an access. -/
def Dev.writeScales (d : Dev) (n : Fin 128) (o : PathOp) (at_ : Nat) (sc : W32) : Dev :=
  (List.range o.blocks).foldl (fun d b =>
    d.write (bankKey n o.bfmt o.bank.val (scaleOff o.tag.toNat (at_ + b * blockBytes o.tag.toNat)))
      [BitVec.ofNat 8 (fieldOf sc (8 * b) 8)]) d

/-- What access m of a storing operation writes. `mst` keeps the lines of its register as they stood at issue (R347): it copies their bytes (RAW or a
raw side), or their first c elements, converted to the bank's format. DESIGN CHOICE (log entry 71): bits above the last element are 0. -/
def PathOp.out (o : PathOp) (m : Nat) : VReg :=
  let l := o.lines.getD m 0#1024
  if o.kind == .mst && !o.raw then
    let src := o.src.toNat
    let dst := o.tag.toNat
    BitVec.ofNat 1024 ((List.range (geomCols o.tgeom)).foldr (fun j acc =>
      tileConv src dst (field l.toNat (codeBits src * j) (codeBits src)) % 2 ^ codeBits dst + 2 ^ codeBits dst * acc) 0)
  else l

/-- A path operation as it writes while ZCTL.SAT is `sat`: a readout has lines and flags for either value (R170). -/
def PathOp.underSat (o : PathOp) (sat : Bool) : PathOp :=
  if sat && (o.kind == .zout || o.kind == .zoutv) then { o with lines := o.satLines, zflags := o.satFlags } else o

/-- Performs access m of a path operation of a tile: a read extends its lines, a write stores its line, that of a readout under ZCTL.SAT `sat`
(R198, R214, R170). -/
def Dev.performPath (d : Dev) (n : Fin 128) (o : PathOp) (m : Nat) (sat : Bool) : Dev × PathOp :=
  let a := o.access m
  let d1 := d.bankEcc n o.bfmt o.bank.val a.1 a.2
  let o1 := { o with done := m + 1 }
  if o.reads then
    (d1, { o1 with lines := o.lines ++ [BitVec.ofNat 1024 (leNat (d.bankBytes n o.bfmt o.bank.val a.1 a.2))]
                   scales := o.scales ++ [d.readScales n o a.1]
                   poison := o.poison || d.bankBad n o.bfmt o.bank.val a.1 a.2 || d.badScales n o a.1 })
  else if o.drop then (d, o1)
  else
    let d2 := d.bankWrite n o.bfmt o.bank.val a.1 (leBytes a.2 ((o.underSat sat).out m).toNat)
    (d2.writeScales n o a.1 (o.scales.getD m 0#32), o1)

/-! The timed ports -/

/-- A timed access to a bank: its cycle, its bank, and the issue cycle and slot of its operation (R16). -/
structure PortUse where
  /-- Cycle on which it performs. -/
  cycle : Nat
  /-- Bank. -/
  bank : Nat
  /-- Issue cycle. -/
  issue : Nat
  /-- Slot. -/
  slot : Nat
  deriving DecidableEq, Repr

/-- The timed TSP accesses that a tile has scheduled (R16). -/
def Tile.portUses (t : Tile) : List PortUse :=
  (t.flight.flatMap fun f =>
    let at_ := fun (c a : Nat) => ({ cycle := c, bank := a / 65536, issue := f.issue, slot := f.slot } : PortUse)
    match f.act with
    | .read p .tsp a _ => [at_ p a]
    | .write p .tsp a _ _ => [at_ p a]
    | .amo p .tsp a _ _ _ _ => [at_ p a, at_ (p + 1) a]
    | .rmw p .tsp a _ _ _ _ => [at_ (p + 1) a]
    | _ => [])
  ++ (t.ops.filterMap fun o =>
    o.tspRead.map fun p => ({ cycle := p, bank := o.data2.toNat / 65536, issue := o.issue, slot := 7 } : PortUse))
  ++ ((t.tpath ++ t.apath).flatMap fun o =>
    if o.accesses then
      (List.range (o.cnt - o.done)).map fun i =>
        ({ cycle := o.first + o.done + i, bank := o.bank.val, issue := o.issue, slot := 4 } : PortUse)
    else [])

/-- The port check of R16 for new accesses (cycle, bank): the lower slot is blamed when both operations stand in one bundle. DEDUCED:
log entry 21. -/
def State.chkPort (s : State) (l : List (Nat × Nat)) : Chk :=
  let hit := s.tile.portUses.filter fun u => l.any fun x => x.1 == u.cycle && x.2 == u.bank
  let slot := hit.foldl (fun m u => if u.issue = s.psc then Nat.min m u.slot else m) s.iss.slot
  { bad := !hit.isEmpty, cause := causeIllop, detail := 5, ea := 0#64, slot := some slot }

/-- A bank that a preload owns (R105). -/
def Tile.owned (t : Tile) (bank : Nat) : Bool := t.sr.bown.getLsbD bank

/-- The word of the operation in hand, from its bundle in the ISP, and imm16 of its header (R117, R118). -/
def State.slotWord (s : State) : W32 × BitVec 16 :=
  let t := s.tile
  match ispAddr s.tileNo t s.iss.addr.toNat with
  | some k =>
    let h := s.dev.word k
    let below := sumList ((List.range s.iss.slot).map fun i => b2n (h.getLsbD i))
    (s.dev.word (k + 4 + 4 * below), BitVec.ofNat 16 (fieldOf h 16 16))
  | none => (0#32, 0#16)

end Sys2Proof.Machine
end

