-- ==== Sys2Proof/Machine/Order.lean ====
section
/-! DEFINITION. Tile-local addresses (R107, R108) and the order of a tile's variable-latency operations: which operation may be
performed now (R229, R233, R284, R287, R288, R388), and the scopes and their ceiling (R223, R295). -/

namespace Sys2Proof.Machine

/-! Tile-local addresses -/

/-- Whether an object that waits may be tried now. -/
def Wait.free (w : Wait) : Bool :=
  match w with
  | .no | .retry _ | .again | .denied _ _ _ _ | .busy _ | .failed => true
  | _ => false

/-- What a tile-local address reaches (R107). -/
inductive Loc where
  | tsp (bank off : Nat)
  | vault (off : Nat)
  | lateral (rank off : Nat)
  deriving DecidableEq, Repr

/-- Bytes of a vault's program area (R107). -/
def programArea : Nat := 0x180000

/-- The tile-local address of `n` bytes in a panel of `size` tiles, if every one of them may be addressed (R107, R108). -/
def locate (size a n : Nat) : Option Loc :=
  if a < 0x100000 then (if a % 0x10000 + n ≤ 0x10000 then some (.tsp (a / 0x10000) (a % 0x10000)) else none)
  else if 0x1000000 ≤ a ∧ a + n ≤ 0x1000000 + programArea then some (.vault (a - 0x1000000))
  else if 0x40000000 ≤ a ∧ a < 0x50000000 then
    let rank := field a 21 7
    let off := field a 0 21
    if rank < size ∧ off + n ≤ programArea then some (.lateral rank off) else none
  else none

/-- The size of the panel that holds a tile. -/
def Dev.panelSize (d : Dev) (n : Fin 128) : Nat := (d.panelOf n).elim 0 Panel.size

/-- The tile at a rank of the panel that holds a tile. -/
def Dev.rankTile (d : Dev) (n : Fin 128) (r : Nat) : Fin 128 := (d.panelOf n).elim n fun p => p.tile r

/-- The memory key of a tile-local place of a tile, at the bank formats in force (R110). -/
def Dev.locKey (d : Dev) (n : Fin 128) (l : Loc) : Nat :=
  match l with
  | .tsp b o => bankKey n (d.tiles[n].sr.bfmt[idx 16 b]) b o
  | .vault o => vaultKey n o
  | .lateral r o => vaultKey (d.rankTile n r) o

/-- Reads bytes at a tile-local place, placed by R110 in a bank. -/
def Dev.locBytes (d : Dev) (n : Fin 128) (l : Loc) (len : Nat) : List Byte :=
  match l with
  | .tsp b o => d.bankBytes n (d.tiles[n].sr.bfmt[idx 16 b]) b o len
  | _ => d.bytes (d.locKey n l) len

/-- Whether bytes at a tile-local place hold an uncorrectable error. -/
def Dev.locBad (d : Dev) (n : Fin 128) (l : Loc) (len : Nat) : Bool :=
  match l with
  | .tsp b o => d.bankBad n (d.tiles[n].sr.bfmt[idx 16 b]) b o len
  | _ => d.bad (d.locKey n l) len

/-- Counts the errors that an access to a tile-local place meets (R430). -/
def Dev.locEcc (d : Dev) (n : Fin 128) (l : Loc) (len : Nat) : Dev :=
  match l with
  | .tsp b o => d.bankEcc n (d.tiles[n].sr.bfmt[idx 16 b]) b o len
  | _ => d.ecc (d.boltOf n) (d.locKey n l) len

/-- Writes bytes at a tile-local place. -/
def Dev.locWrite (d : Dev) (n : Fin 128) (l : Loc) (bs : List Byte) : Dev :=
  match l with
  | .tsp b o => d.bankWrite n (d.tiles[n].sr.bfmt[idx 16 b]) b o bs
  | _ => d.write (d.locKey n l) bs

/-! Far addresses (R251) -/

/-- DEV of a far address word (R251). -/
def farDev (f : W64) : Nat := fieldOf f 52 8

/-- BOLT of a far address word. -/
def farBolt (f : W64) : Fin 32 := idx 32 (fieldOf f 47 5)

/-- TILE of a far address word. -/
def farTile (f : W64) : Fin 128 := idx 128 (fieldOf f 40 7)

/-- The rank of the tile that a far address word names, when that tile lies in the panel that holds tile `n`; 128 otherwise. -/
def Dev.farRank (d : Dev) (n : Fin 128) (f : W64) : Nat :=
  match d.panelOf n with
  | some p =>
    let m := farTile f
    if farDev f = d.mc.config.spdev ∧ farBolt f = p.bolt ∧ d.tiles[m].owner = .panel p.handle then d.tiles[m].rank else 128
  | none => 128

/-- Whether a flit is the message of an operation that tile `o.n` of this device has sent. -/
def SeamFlit.isOf (f : SeamFlit) (o : MemOp) : Bool :=
  o.kind == .xfar && o.stage == .accepted && o.n == f.stile && o.addr == f.far && o.sem == f.sem && o.data == f.data

/-- Whether an accepted far message is still on its way inside the device, or unacknowledged at a seam port. -/
def Dev.underWay (d : Dev) (o : MemOp) : Bool :=
  (d.far ++ d.seams.toList.flatMap SeamPort.replay).any fun f => f.sdev == d.mc.config.spdev && f.isOf o

/-- A tile that is reinstated: far messages that have arrived since have ended, and of the others it is noted where their targets lie now (R284,
R298). -/
def Dev.placeFars (d : Dev) (n : Fin 128) : Dev :=
  let live := fun (o : MemOp) => o.kind != .xfar || o.stage != .accepted || d.underWay o
  let place := fun (o : MemOp) => if o.kind = .xfar then { o with dst := d.farRank n o.addr } else o
  d.onTile n fun t => { t with ops := (t.ops.filter live).map place }

/-! Scopes -/

/-- The scope ceiling of a tile's vdev, as a scope of MemOp (R223, R353). -/
def Dev.ceiling (d : Dev) (n : Fin 128) : Nat :=
  match (d.panelOf n).bind fun p => d.vdev p.vdev with
  | some v => v.fld 3 1 + 1
  | none => 4

/-- A named scope after demotion, and whether it was demoted (R223, R295). -/
def Dev.demote (d : Dev) (n : Fin 128) (scope : Nat) : Nat × Bool :=
  let c := d.ceiling n
  if c < scope then (c, true) else (scope, false)

/-- Records a demotion: TSTAT.DEMOTE, DEMCNT and VSTAT.DEMOTE (R223, R355). -/
def Dev.noteDemote (d : Dev) (n : Fin 128) (yes : Bool) : Dev :=
  if yes then
    let d1 := d.onTile n fun t => t.setTstat 4
    match d.panelOf n with
    | some p => d1.onVdev p.vdev fun v => { v with demcnt := satAdd v.demcnt 1, vstat := setBit v.vstat 0 true }
    | none => d1
  else d

/-- The number of a scope. -/
def scopeNum : Scope → Nat
  | .panel => 1
  | .bolt => 2
  | .dev => 3
  | .sys => 4

/-! Which operation may be performed now -/

/-- Bytes of a data kind given by its code (R221). -/
def codeBytes (c : BitVec 4) : Nat :=
  if c = 0#4 ∨ c = 1#4 then 1 else if c = 2#4 ∨ c = 3#4 then 2 else if c = 4#4 ∨ c = 5#4 then 4 else if c = 6#4 then 8 else 128

/-- Reads and atomics, which fences `.acq` wait for and which return a value. -/
def MKind.reads : MKind → Bool
  | .ldg | .ldv | .amoG | .amoV | .xrcvf => true
  | _ => false

/-- Writes and atomics, which a fence `.rel` holds back (R284). -/
def MKind.writes : MKind → Bool
  | .ldg | .ldv | .xrcvf | .pref | .fence => false
  | _ => true

/-- Accesses to global memory. -/
def MKind.isGlobal : MKind → Bool
  | .ldg | .stg | .amoG | .zline => true
  | _ => false

/-- The bytes that an operation touches: a class of locations, the first byte and the count. Those of a far message within its panel are at its
target (R284); of one to another panel or device, nothing of this tile can reach them otherwise. -/
def MemOp.range (o : MemOp) (t : Tile) : Option (Nat × Nat × Nat) :=
  match o.kind with
  | .ldg | .stg | .amoG | .zline => some (0, o.addr.toNat, o.size)
  | .launch => if o.n = 1 then none else some (0, o.addr.toNat, 128)
  | .ldv | .stv | .amoV => some (1, o.addr.toNat, o.size)
  | .sndr => some (2 + o.dst, o.addr.toNat, o.size)
  | .xfar =>
    let a := fieldOf o.addr 0 32
    if 128 ≤ o.dst then none
    else if a < 0x100000 then some (2 + o.dst, a, o.size)
    else some (1, 0x40000000 + o.dst * 2 ^ 21 + (a - 0x1000000), o.size)
  | .xrcvf =>
    if o.addr.toNat < 0x100000 then some (2 + t.rank, o.addr.toNat, o.size)
    else some (1, 0x40000000 + t.rank * 2 ^ 21 + (o.addr.toNat - 0x1000000), o.size)
  | _ => none

/-- The bytes that the access of an entry in flight touches, as `MemOp.range` gives them. -/
def Act.range (a : Act) (t : Tile) : Option (Nat × Nat × Nat) :=
  let at_ := fun (sp : Space) (x n : Nat) => match sp with
    | .tsp => some (2 + t.rank, x, n)
    | .vault => some (1, 0x40000000 + t.rank * 2 ^ 21 + x, n)
    | .isp => Option.none
  match a with
  | .none => Option.none
  | .read _ sp x dk => at_ sp x (codeBytes dk)
  | .write _ sp x n _ => at_ sp x n
  | .amo _ sp x _ _ _ _ | .rmw _ sp x _ _ _ _ => at_ sp x 8

/-- The order of a timed atomic that has not ended. -/
def Act.ord (a : Act) : Option AmoOrd :=
  match a with
  | .amo _ _ _ _ _ _ o | .rmw _ _ _ _ _ _ o => some o
  | _ => Option.none

/-- Whether an entry's read is still to perform, or its atomic to end. -/
def Act.loads (a : Act) : Bool :=
  match a with
  | .read _ _ _ _ | .amo _ _ _ _ _ _ _ | .rmw _ _ _ _ _ _ _ => true
  | _ => false

/-- Whether an entry's access stores. -/
def Act.stores (a : Act) : Bool :=
  match a with
  | .write _ _ _ _ _ | .amo _ _ _ _ _ _ _ | .rmw _ _ _ _ _ _ _ => true
  | _ => false

/-- The cycle on which an entry's access performs first. -/
def Act.perf (a : Act) : Option Nat :=
  match a with
  | .none => Option.none
  | .read p _ _ _ | .write p _ _ _ _ | .amo p _ _ _ _ _ _ | .rmw p _ _ _ _ _ _ => some p

/-- Whether two ranges share a byte. -/
def rangesMeet (a b : Option (Nat × Nat × Nat)) : Bool :=
  match a, b with
  | some x, some y => x.1 == y.1 && decide (x.2.1 < y.2.1 + y.2.2) && decide (y.2.1 < x.2.1 + x.2.2)
  | _, _ => false

/-- The bytes of the accesses that a path operation has still to perform. -/
def PathOp.ranges (o : PathOp) (t : Tile) : List (Option (Nat × Nat × Nat)) :=
  if o.accesses then (List.range (o.cnt - o.done)).map fun i =>
    let a := o.access (o.done + i)
    some (2 + t.rank, o.bank.val * 65536 + a.1, a.2)
  else []

/-- Whether a timed access issued before `o` keeps it back: it touches the same bytes, or it is an acquire, and it has not performed (R229,
R280, R284, R288). -/
def Tile.timedHolds (t : Tile) (o : MemOp) : Bool :=
  t.flight.any (fun f => decide (f.issue < o.issue) && (rangesMeet (f.act.range t) (o.range t) || f.act.ord.any AmoOrd.acq))
    || (o.range t).isSome && ((t.tpath ++ t.apath).any (fun p => decide (p.issue < o.issue) && (p.ranges t).any fun r => rangesMeet r (o.range t))
      || t.ops.any fun e => e.tspRead.isSome && decide (e.issue < o.issue) && rangesMeet (some (2 + t.rank, e.data2.toNat, 128)) (o.range t))

/-- Whether a timed load or atomic issued before cycle c is still to perform. -/
def Tile.loadsPending (t : Tile) (c : Nat) : Bool :=
  t.flight.any (fun f => f.act.loads && decide (f.issue < c))
    || (t.tpath ++ t.apath).any fun o => o.accesses && o.reads && decide (o.done < o.cnt) && decide (o.issue < c)

/-- Whether a timed access of an operation issued before cycle c is still to perform. -/
def Tile.timedPending (t : Tile) (c : Nat) : Bool :=
  t.flight.any (fun f => f.act != .none && decide (f.issue < c))
    || (t.tpath ++ t.apath).any (fun o => o.accesses && decide (o.done < o.cnt) && decide (o.issue < c))
    || t.ops.any fun o => o.tspRead.isSome && decide (o.issue < c)

/-- Whether a fence still has something to wait for: `.acq` for earlier loads and atomics to return, `.rel` for every earlier access to
be performed (R233). -/
def Tile.fenceWaits (t : Tile) (f : MemOp) : Bool × Bool :=
  let before := t.ops.filter fun e => e.kind != .fence && decide (e.issue < f.issue)
  (f.acq && ((before.any fun e => e.kind.reads) || t.loadsPending f.issue),
   f.rel && ((before.any fun e => e.stage != .performed) || t.timedPending f.issue))

/-- Whether two operations touch one location. -/
def MemOp.meets (t : Tile) (a b : MemOp) : Bool := rangesMeet (a.range t) (b.range t)

/-- Whether an earlier operation or fence `e` keeps `o` from being performed. -/
def Tile.holds (t : Tile) (e o : MemOp) : Bool :=
  decide (e.issue < o.issue) &&
    if e.kind == .fence then
      let w := t.fenceWaits e
      w.1 || (w.2 && (e.acq || o.kind.writes))
    else e.stage != .performed &&
      (MemOp.meets t e o || (e.acq && e.kind.reads) || o.rel
        || (e.wait != .no && e.kind.writes && e.kind.isGlobal && o.kind.isGlobal && e.addr.toNat / 4096 == o.addr.toNat / 4096))

/-- Whether an operation of a tile may be performed now: no earlier one holds it, no timed access does, and for a release every timed access
issued earlier has performed (R284, R287). -/
def Tile.mayPerform (t : Tile) (o : MemOp) : Bool :=
  o.stage != .performed && o.tspRead.isNone && o.kind != .fence && !t.ops.any (fun e => t.holds e o)
    && !t.timedHolds o && !(o.rel && t.timedPending o.issue)

/-- Whether a fence issued after `o` and before cycle `c` orders `o` before an access issued on `c`, which writes or not (R233, R284). -/
def Tile.fencesOff (t : Tile) (o : MemOp) (c : Nat) (writes : Bool) : Bool :=
  t.ops.any fun f => f.kind == .fence && decide (o.issue < f.issue) && decide (f.issue < c)
    && ((f.acq && o.kind.reads) || (f.rel && (f.acq || writes)))

/-- A timed access that a tile performs on a cycle: its issue, its bytes, whether it writes, and whether it is a release. -/
structure TimedNow where
  /-- PSC of issue. -/
  issue : Nat
  /-- The bytes. -/
  range : Option (Nat × Nat × Nat)
  /-- It writes. -/
  writes : Bool
  /-- It is a release. -/
  rel : Bool
  deriving DecidableEq, Repr

/-- The timed accesses that a tile performs on a cycle. -/
def Tile.timedNow (t : Tile) (psc : Nat) : List TimedNow :=
  (t.flight.filter fun f => f.act.perf == some psc).map (fun f =>
      { issue := f.issue, range := f.act.range t, writes := f.act.stores, rel := f.act.ord.any AmoOrd.rel })
    ++ ((t.tpath ++ t.apath).filter fun p => p.accesses && decide (p.first ≤ psc) && decide (psc < p.first + p.cnt)).map (fun p =>
      let a := p.access (psc - p.first)
      { issue := p.issue, range := some (2 + t.rank, p.bank.val * 65536 + a.1, a.2), writes := !p.reads, rel := false })
    ++ (t.ops.filter fun e => e.tspRead == some psc).map (fun e =>
      { issue := e.issue, range := some (2 + t.rank, e.data2.toNat, 128), writes := false, rel := false })

/-- Whether operation `o`, still to perform, must come before a timed access of its tile on cycle `psc`: both touch one location (R229), the access
is a release (R287), or a fence lies between them (R284). -/
def Tile.mustPrecede (t : Tile) (psc : Nat) (o : MemOp) : Bool :=
  o.stage != .performed && o.kind != .fence && (t.timedNow psc).any fun f =>
    decide (o.issue < f.issue) && (f.rel || rangesMeet f.range (o.range t) || t.fencesOff o f.issue f.writes)

/-- Whether an earlier operation comes before a later one (R284). -/
def Tile.precedes (t : Tile) (e o : MemOp) : Bool :=
  e.kind != .fence && e.stage != .performed && (t.holds e o || t.fencesOff e o.issue o.kind.writes)

/-- The operations that come, by a chain of R284, before the timed accesses of cycle `psc`. -/
def Tile.forced (t : Tile) (psc : Nat) : List MemOp :=
  t.ops.foldr (fun o l => if t.mustPrecede psc o || l.any (fun e => t.precedes o e) then o :: l else l) []

/-- An accepted `launch` or `evpost` of the tile's cut that is still to be performed for it (R240, R241). -/
def Dev.postedBy (d : Dev) (n : Fin 128) : List Posted :=
  d.posted.filter fun x => x.tile == n && (d.panelOf n).any fun p => x.vdev == p.vdev && x.launch == p.launch && x.cut == p.cut

/-- Whether an accepted `launch` or `evpost` keeps an operation back: a release waits for it, a fence lies between them, or the operation touches the
launch record that the placer is still to copy (R229, R240, R287). -/
def Dev.postedHolds (d : Dev) (n : Fin 128) (o : MemOp) : Bool :=
  (d.postedBy n).any fun x => decide (x.op.issue < o.issue)
    && (o.rel || (d.tiles[n]).fencesOff x.op o.issue o.kind.writes || MemOp.meets d.tiles[n] x.op o)

/-- Removes fences that hold nothing any more; one at `.dev` or `.sys` gives up the unsnooped host lines of the bolt (R296). -/
def Dev.settleFences (d : Dev) (n : Fin 128) : Dev :=
  let t := d.tiles[n]
  let posted := fun (o : MemOp) => o.rel && (d.postedBy n).any fun x => decide (x.op.issue < o.issue)
  let done := fun (o : MemOp) => o.kind == .fence && !(t.fenceWaits o).1 && !(t.fenceWaits o).2 && !posted o
  let flush := t.ops.any fun o => done o && decide (3 ≤ o.scope)
  let d1 := d.onTile n fun t => { t with ops := t.ops.filter fun o => !done o }
  match d.boltOf n with
  | some b => if flush then d1.flushHost b else d1
  | none => d1

/-- Replaces operation `i` of a tile. -/
def Dev.setOp (d : Dev) (n : Fin 128) (i : Nat) (o : MemOp) : Dev := d.onTile n fun t => { t with ops := t.ops.set i o }

/-- Removes operation `i` of a tile, with the fences that waited for it alone. -/
def Dev.dropOp (d : Dev) (n : Fin 128) (i : Nat) : Dev :=
  (d.onTile n fun t => { t with ops := dropAt t.ops i }).settleFences n

end Sys2Proof.Machine
end

