-- ==== Sys2Proof/Machine/Memory.lean ====
section
/-! DEFINITION. The L slot at issue: timed loads and stores, landing loads, outbound stores, atomics, fences, writes to the idle
instruction half, late data, zero lines, prefetch, launches and events (R220–R241), and the same forms on a service core (R319). -/

namespace Sys2Proof.Machine

/-! Data kinds, addresses and checks -/

/-- Code of a data kind (R221). -/
def dkCode : DKind → BitVec 4
  | .n8 => 0#4
  | .i8 => 1#4
  | .n16 => 2#4
  | .i16 => 3#4
  | .n32 => 4#4
  | .i32 => 5#4
  | .i64 => 6#4
  | .va => 8#4
  | .vb => 9#4

/-- The data kind that DK2 stands for (R221). -/
def dk2Kind : DKind2 → DKind
  | .i64 => .i64
  | .n32 => .n32
  | .va => .va
  | .vb => .vb

/-- Bytes of a data kind (R221). -/
def dkBytes : DKind → Nat
  | .n8 | .i8 => 1
  | .n16 | .i16 => 2
  | .n32 | .i32 => 4
  | .i64 => 8
  | .va | .vb => 128

/-- The value that a load of a data kind writes (R221). -/
def extend (c : BitVec 4) (bs : List Byte) : VReg :=
  let v := leNat bs
  if c = 1#4 ∨ c = 3#4 ∨ c = 5#4 then (wrap 64 (signed (8 * bs.length) v)).setWidth 1024 else BitVec.ofNat 1024 v

/-- The register that a data kind and field d name. -/
def dkDest (k : DKind) (d : Fin 32) : Dest :=
  match k with
  | .va => .v .a d
  | .vb => .v .b d
  | _ => .s d

/-- The value of the register that a store reads, and its poison. -/
def State.storeData (s : State) (k : DKind) (d : Fin 32) : VReg × Bool :=
  match k with
  | .va => (s.readV .a d, s.poisonV .a d)
  | .vb => (s.readV .b d, s.poisonV .b d)
  | _ => ((s.readS d).setWidth 1024, s.poisonS d)

/-- The cluster check of the register that a data kind names (R157). -/
def State.chkDk (s : State) (k : DKind) (d : Fin 32) : List Chk :=
  match k with
  | .va => [s.chkV .a d]
  | .vb => [s.chkV .b d]
  | _ => []

/-- The effective address (R220). -/
def State.ea (s : State) (a : Fin 32) (off : Option (BitVec 16)) : W64 := s.readS a + off.elim 0#64 fun i => i.signExtend 64

/-- Checks that apply on a tile only. -/
def State.onlyTile (s : State) (l : List Chk) : List Chk := if s.isSvc then [] else l

/-- The watch check of an L-slot access (R325); `rep` is the EA that is reported. -/
def State.chkWatchAt (s : State) (ea : W64) (n : Nat) (store dva : Bool) (rep : W64 := ea) : Chk :=
  let c := s.tile.c
  chkWatch (c.wctl.getLsbD (if store then 1 else 0) && c.wctl.getLsbD 2 == dva && decide (ea.toNat ≤ c.whi.toNat)
    && decide (c.wlo.toNat ≤ ea.toNat + n - 1)) rep

/-- The check of R37 and R128 for the landing slot of an L operation. -/
def State.chkSlot (s : State) (ls : Fin 64) : Chk := chkOp (s.tile.lands[ls].st != .free) 2

/-- The check for a free outbound write entry (R234). -/
def State.chkOut (s : State) : Chk := chkOp (decide (64 ≤ (s.tile.ops.filter fun o => o.entry).length)) 7

/-- The place of a tile-local access. -/
def State.place (s : State) (ea : W64) (n : Nat) : Option Loc := locate (s.dev.panelSize s.tileNo) ea.toNat n

/-- Whether a place is timed: the TSP or the own vault (R224). -/
def timedLoc : Option Loc → Bool
  | some (.tsp _ _) | some (.vault _) => true
  | _ => false

/-- The checks of a timed access with perform offsets `at_` (R16, R105, R108, R222, R325); `rep` is the EA that is reported. -/
def State.chkTimed (s : State) (ea : W64) (n : Nat) (store : Bool) (at_ : List Nat) (rep : W64 := ea) : List Chk :=
  let l := s.place ea n
  let bank := ea.toNat / 65536
  let tsp := match l with
    | some (.tsp _ _) => true
    | _ => false
  [chkAlign (ea.toNat % Nat.min n 16 != 0) rep, chkBounds (!timedLoc l) rep]
    ++ (if tsp then [chkBounds (s.tile.owned bank) rep, s.chkPort (at_.map fun k => (s.psc + k, bank))] else [])
    ++ (if timedLoc l then [s.chkWatchAt ea n store false rep] else [])

/-- The space of a timed address: the vault when it lies there, else the TSP. -/
def spaceOf (a : Nat) : Space := if a < 0x1000000 then .tsp else .vault

/-- The address within its space. -/
def spaceAddr (a : Nat) : Nat := if a < 0x1000000 then a else a - 0x1000000

/-- Cycles from issue to the read of a timed access (R224). -/
def readAfter (a : Nat) : Nat := if a < 0x1000000 then 2 else 6

/-- The latency of a timed load or atomic (R224). DESIGN CHOICE: with a poisoned address, which lies in no space that R41 states, it is that of the
space in which the value beneath the poison lies, and `amo` and `cas` take by that value their timed or their landing form (log entry 96). -/
def loadLatency (a : Nat) : Nat := if a < 0x1000000 then 6 else 12

/-- A value beneath poison that the spec does not state (log entry 4). -/
def State.unstated (s : State) : VReg × State := (Config.poisonData s.dev.fresh, s.onDev fun d => { d with fresh := d.fresh + 1 })

/-- Queues a poisoned result of a timed load or atomic (R41, R231). -/
def State.putPoisoned (s : State) (lat : Nat) (dest : Dest) : State :=
  let u := s.unstated
  u.2.put lat dest u.1 true

/-- Queues a timed load (R224). -/
def State.timedLoad (s : State) (ea : W64) (dest : Dest) (code : BitVec 4) : State :=
  let a := ea.toNat
  s.put (loadLatency a) dest 0#1024 false fun f => { f with act := .read (s.psc + readAfter a) (spaceOf a) (spaceAddr a) code }

/-- Queues a timed write of `n` bytes, none for a dropped one, which still uses its cycle (R225). -/
def State.timedWrite (s : State) (perf : Nat) (sp : Space) (a n : Nat) (v : VReg) : State :=
  s.onTile fun t => t.push
    { Flight.result s.psc s.iss.slot perf .none 0#1024 false with act := .write perf sp a n v }

/-- Drops a poisoned write: it is counted at issue (R41). -/
def State.countDrop (s : State) : State := s.onTile Tile.dropPoisoned

/-! A service core's accesses (R319) -/

/-- The bundle in hand issues again on the next cycle. -/
def State.svcRetry (s : State) : State := s.onIss fun x => { x with next := x.addr, taken := true }

/-- A service core as asker: the bolt supervisor's space (R377). -/
def svcAsker (q : Fin 32) : Asker where
  space := 1024
  tile := none
  quad := q
  engine := false
  placer := false
  tag := 0#64
  token := 0xff
  slot := 0xff

/-- What the memory access of a service core waits on. -/
def Dev.setSvcWait (d : Dev) (q : Fin 32) (w : Wait) : Dev := d.onSvc q fun c => { c with plcWait := w }

/-- A global access of a service core: it is performed at once, waits for a host translation, or raises the bounds trap (R319, R387). -/
def State.svcReach (s : State) (q : Fin 32) (dva : W64) (acc : AccKind) (go : Fin 32 → Nat → State → State) : State :=
  let s0 := s.onDev fun d => d.setSvcWait q .no
  match s.dev.boltOfQuad q with
  | none => s.svcTrap q 3 0 s.iss.addr
  | some b =>
    match s0.dev.reach b { svcAsker q with held := (s.dev.svcs[q]).plcWait } dva.toNat acc false with
    | (d, .point k) => go b k { s with dev := d }
    | (d, .wait w) => { s with dev := d.setSvcWait q w }.svcRetry
    | (d, .fail) => { s with dev := d }.svcTrap q 3 0 s.iss.addr

/-- A load of a service core from global memory; `acquire`: an acquire at `.dev` or `.sys`. -/
def State.svcLoad (s : State) (q : Fin 32) (dva : W64) (k : DKind) (dest : Dest) (poison : Bool) (hint : BitVec 2)
    (strong acquire : Bool) : State :=
  if poison then s.putPoisoned 1 dest
  else s.svcReach q dva .read fun b key s =>
    let r := (if acquire then s.dev.flushHost b else s.dev).pointRead b key (dkBytes k) hint strong
    ({ s with dev := r.1 }).put 1 dest (extend (dkCode k) r.2) (s.dev.bad key (dkBytes k))

/-- A store of a service core to global memory. -/
def State.svcStore (s : State) (q : Fin 32) (dva : W64) (bs : List Byte) (poison : Bool) (hint : BitVec 2) (through release : Bool) :
    State :=
  if poison then s
  else s.svcReach q dva .write fun b key s =>
    s.onDev fun d => (if release && through then d.flushHost b else d).pointWrite b key bs hint through

/-! Landing slots and outbound entries -/

/-- A landing slot goes to WAIT, or to FAILED when no request is sent (R226, R41). -/
def State.openSlot (s : State) (ls : Fin 64) (l : Landing) (dest : Dest) (failed : Bool) : State :=
  s.onTile fun t =>
    { t with lands := t.lands.set ls { st := if failed then .failed else .wait, dest := dest, due := s.psc + l.due.toNat, psn := l.psn,
                                       data := 0#1024, poison := false, issue := s.psc, slot := s.iss.slot } }

/-- A variable-latency operation as it is issued. -/
def State.memOp (s : State) (kind : MKind) (addr : W64) (size : Nat) : MemOp where
  kind := kind
  issue := s.psc
  stage := .issued
  entry := false
  ls := none
  addr := addr
  size := size
  data := 0#1024
  data2 := 0#64
  scales := 0#32
  amo := .add
  acq := false
  rel := false
  strong := false
  scope := 0
  hint := 0#2
  dst := 0
  sem := 0
  n := 0
  rty := 0#2
  isMax := false
  srcFmt := 0#4
  poison := false
  failed := false
  tspRead := none
  past := s.tile.c.acqFence
  wait := .no

/-- Adds an operation to the issue order of the tile. -/
def State.sendOp (s : State) (o : MemOp) : State := s.onTile fun t => { t with ops := t.ops ++ [o] }

/-- Records the demotion of a named scope (R223). -/
def State.demoted (s : State) (scope : Nat) : State :=
  s.onDev fun d => d.noteDemote s.tileNo (d.demote s.tileNo scope).2

/-- The scope at which a named scope is performed. -/
def State.atScope (s : State) (scope : Nat) : Nat := (s.dev.demote s.tileNo scope).1

/-! Loads and stores -/

/-- `ldl` (R225); on a service core it reads local memory (R319). -/
def execLdl (d a : Fin 32) (off : Option (BitVec 16)) (dk : DKind) (s : State) : Result :=
  let ea := s.ea a off
  let n := dkBytes dk
  let pa := s.poisonS a
  match s.cur with
  | .tile _ =>
    s.attempt (s.chkDk dk d ++ if pa then [] else s.chkTimed ea n false [2]) fun s =>
      if pa then s.putPoisoned (loadLatency ea.toNat) (dkDest dk d) else s.timedLoad ea (dkDest dk d) (dkCode dk)
  | .svc q =>
    s.attempt (if pa then [] else [chkAlign (ea.toNat % n != 0) ea, chkBounds (decide (2 ^ 18 < ea.toNat + n)) ea]) fun s =>
      if pa then s.putPoisoned 1 (dkDest dk d)
      else
        let k := svcKey q ea.toNat
        (s.onDev fun d => d.ecc (d.boltOfQuad q) k n).put 1 (dkDest dk d) (extend (dkCode dk) (s.dev.bytes k n)) (s.dev.bad k n)

/-- `stl` (R225); on a service core it writes local memory (R319). -/
def execStl (d a : Fin 32) (off : Option (BitVec 16)) (dk : DKind) (s : State) : Result :=
  let ea := s.ea a off
  let n := dkBytes dk
  let v := s.storeData dk d
  let pa := s.poisonS a
  match s.cur with
  | .tile _ =>
    s.attempt (s.chkDk dk d ++ if pa then [] else s.chkTimed ea n true [3]) fun s =>
      let perf := s.psc + readAfter ea.toNat + 1
      if pa then s.countDrop
      else if v.2 then (s.timedWrite perf (spaceOf ea.toNat) (spaceAddr ea.toNat) 0 0#1024).countDrop
      else s.timedWrite perf (spaceOf ea.toNat) (spaceAddr ea.toNat) n v.1
  | .svc q =>
    s.attempt (if pa then [] else [chkAlign (ea.toNat % n != 0) ea, chkBounds (decide (2 ^ 18 < ea.toNat + n)) ea]) fun s =>
      if pa || v.2 then s else s.onDev fun d => d.write (svcKey q ea.toNat) (leBytes n v.1.toNat)

/-- Hint, acquire, scope and strength of a load's qualifiers (R223, R226). -/
def ldQual : LdQual → BitVec 2 × Bool × Nat × Bool
  | .weak .normal => (0#2, false, 0, false)
  | .weak .na => (1#2, false, 0, false)
  | .weak .byp => (2#2, false, 0, false)
  | .weak .ef => (3#2, false, 0, false)
  | .strong s => (0#2, false, scopeNum s, true)
  | .acq s => (0#2, true, scopeNum s, true)

/-- Hint, release, scope and strength of a store's qualifiers (R223, R227). -/
def stQual : StQual → BitVec 2 × Bool × Nat × Bool
  | .weak .normal => (0#2, false, 0, false)
  | .weak .na => (1#2, false, 0, false)
  | .weak .byp => (2#2, false, 0, false)
  | .weak .ef => (3#2, false, 0, false)
  | .strong s => (0#2, false, scopeNum s, true)
  | .rel s => (0#2, true, scopeNum s, true)

/-- The checks of a DVA: alignment to `n`, the upper byte (R113, R222), the watch range. -/
def State.chkDva (s : State) (ea : W64) (n : Nat) (store : Bool) : List Chk :=
  [chkAlign (ea.toNat % n != 0) ea, chkBounds (decide (2 ^ 56 ≤ ea.toNat)) ea] ++ s.onlyTile [s.chkWatchAt ea n store true]

/-- `ldg` (R226). -/
def execLdg (d a : Fin 32) (ls : Fin 64) (l : Landing) (dk : DKind2) (q : LdQual) (s : State) : Result :=
  let k := dk2Kind dk
  let ea := s.readS a
  let pa := s.poisonS a
  let h := ldQual q
  let dest := dkDest k d
  s.attempt (s.onlyTile (s.chkDk k d ++ [s.chkSlot ls]) ++ if pa then [] else s.chkDva ea (dkBytes k) false) fun s =>
    match s.cur with
    | .svc c => s.svcLoad c ea k dest pa h.1 (decide (3 ≤ h.2.2.1) || (s.dev.svcs[c]).acqFence) (h.2.1 && decide (3 ≤ h.2.2.1))
    | .tile _ =>
      if pa then s.openSlot ls l dest true
      else
        let o := { s.memOp .ldg ea (dkBytes k) with
          ls := some ls, hint := h.1, acq := h.2.1, scope := s.atScope h.2.2.1, strong := h.2.2.2 }
        ((s.openSlot ls l dest false).sendOp o).demoted h.2.2.1

/-- `stg` (R227). One that is dropped for poison needs a free outbound entry all the same, and so do `zline`, `launch`, `evpost` and `xfar`.
DESIGN CHOICE: log entry 88. -/
def execStg (d a : Fin 32) (off : Option (BitVec 16)) (dk : DKind) (q : StQual) (s : State) : Result :=
  let ea := s.ea a off
  let n := dkBytes dk
  let v := s.storeData dk d
  let pa := s.poisonS a
  let h := stQual q
  s.attempt (s.onlyTile (s.chkDk dk d ++ [s.chkOut]) ++ if pa then [] else s.chkDva ea n true) fun s =>
    match s.cur with
    | .svc c => s.svcStore c ea (leBytes n v.1.toNat) (pa || v.2) h.1 (decide (3 ≤ h.2.2.1)) h.2.1
    | .tile _ =>
      if pa || v.2 then s.countDrop
      else
        let o := { s.memOp .stg ea n with
          entry := true, data := v.1, hint := h.1, rel := h.2.1, scope := s.atScope h.2.2.1, strong := h.2.2.2 }
        (s.sendOp o).demoted h.2.2.1

/-- Whether an address selects a lateral window (R107). -/
def lateralWindow (ea : W64) : Bool := decide (0x40000000 ≤ ea.toNat) && decide (ea.toNat < 0x50000000)

/-- Whether a place lies in a lateral window. -/
def lateralLoc : Option Loc → Bool
  | some (.lateral _ _) => true
  | _ => false

/-- The checks of an access to a lateral window: alignment to its size (R222), the window's own limits (R108), the watch range (R325); `rep`
is the EA that is reported. -/
def State.chkLateral (s : State) (ea : W64) (n : Nat) (store : Bool) (rep : W64 := ea) : List Chk :=
  let ok := lateralLoc (s.place ea n)
  [chkAlign (ea.toNat % n != 0) rep, chkBounds (!ok) rep] ++ if ok then [s.chkWatchAt ea n store false rep] else []

/-- `ldv` (R228): timed in the TSP and the own vault, through its landing slot in a lateral window. -/
def execLdv (d a : Fin 32) (ls : Fin 64) (l : Landing) (dk : DKind2) (q : VOrd) (s : State) : Result :=
  let k := dk2Kind dk
  let n := dkBytes k
  let ea := s.readS a
  let pa := s.poisonS a
  let dest := dkDest k d
  if lateralWindow ea then
    s.attempt (s.chkDk k d ++ [s.chkSlot ls] ++ if pa then [] else s.chkLateral ea n false) fun s =>
      if pa then s.openSlot ls l dest true
      else (s.openSlot ls l dest false).sendOp
        { s.memOp .ldv ea n with ls := some ls, acq := q == .order, strong := q != .weak, scope := 1 }
  else
    s.attempt (s.chkDk k d ++ if pa then [] else s.chkTimed ea n false [2]) fun s =>
      if pa then s.putPoisoned (loadLatency ea.toNat) dest else s.timedLoad ea dest (dkCode k)

/-- `stv` (R228). -/
def execStv (d a : Fin 32) (off : Option (BitVec 16)) (dk : DKind) (q : VOrd) (s : State) : Result :=
  let ea := s.ea a off
  let n := dkBytes dk
  let v := s.storeData dk d
  let pa := s.poisonS a
  if lateralWindow ea then
    s.attempt (s.chkDk dk d ++ [s.chkOut] ++ if pa then [] else s.chkLateral ea n true) fun s =>
      if pa || v.2 then s.countDrop
      else s.sendOp { s.memOp .stv ea n with entry := true, data := v.1, rel := q == .order, strong := q != .weak, scope := 1 }
  else
    s.attempt (s.chkDk dk d ++ if pa then [] else s.chkTimed ea n true [3]) fun s =>
      let perf := s.psc + readAfter ea.toNat + 1
      if pa then s.countDrop
      else if v.2 then (s.timedWrite perf (spaceOf ea.toNat) (spaceAddr ea.toNat) 0 0#1024).countDrop
      else s.timedWrite perf (spaceOf ea.toNat) (spaceAddr ea.toNat) n v.1

/-! Atomics -/

/-- The new word of an atomic; `c` is the compare value of `cas` (R231, R232). -/
def amoNew (op : AmoOp) (old v c : W64) : W64 :=
  match op with
  | .add => old + v
  | .and => old &&& v
  | .or => old ||| v
  | .xor => old ^^^ v
  | .max => if old.slt v then v else old
  | .min => if old.slt v then old else v
  | .maxn => if old.ult v then v else old
  | .swap => v
  | .cas => if old = c then v else old

/-- Whether an atomic stores its new word: `cas` only on an equal compare (R232). -/
def amoStores (op : AmoOp) (old c : W64) : Bool := op != .cas || old == c

/-- Queues a timed atomic (R224, R230). -/
def State.timedAmo (s : State) (ea : W64) (d : Fin 32) (op : AmoOp) (v c : W64) (ord : AmoOrd) : State :=
  let a := ea.toNat
  s.put (loadLatency a) (.s d) 0#1024 false fun f => { f with act := .amo (s.psc + readAfter a) (spaceOf a) (spaceAddr a) op v c ord }

/-- `amo` and `cas` (R230–R232): `poison` is that of the operands. -/
def State.atomic (s : State) (op : AmoOp) (d a : Fin 32) (ls : Fin 64) (l : Landing) (v c : W64) (poison acq rel : Bool)
    (scope : Nat) : Result :=
  let ea := s.readS a
  let pa := s.poisonS a
  let loc : W64 := ea &&& 0xffffffff#64
  let isLocal := ea.getLsbD 63
  let align := chkAlign (ea.toNat % 8 != 0) ea
  let drop := fun (s : State) => (s.openSlot ls l (.s d) true).countDrop
  let opOf := fun (s : State) (kind : MKind) (x : W64) =>
    { s.memOp kind x 8 with ls := some ls, amo := op, data := v.setWidth 1024, data2 := c, acq := acq, rel := rel,
                            strong := acq || rel, scope := s.atScope scope }
  match s.cur with
  | .svc q =>
    s.attempt (if pa then [] else [align, chkBounds (decide (2 ^ 56 ≤ ea.toNat)) ea]) fun s =>
      if pa || poison then s.putPoisoned 1 (.s d)
      else s.svcReach q ea .atomic fun b key s =>
        let wide := decide (3 ≤ scope)
        let d0 := if (rel || acq) && wide then s.dev.flushHost b else s.dev
        let r := d0.pointRead b key 8 0#2 wide
        let old := BitVec.ofNat 64 (leNat r.2)
        let x := if amoStores op old c then r.1.pointWrite b key (leBytes 8 (amoNew op old v c).toNat) 0#2 wide else r.1
        ({ s with dev := x }).put 1 (.s d) (old.setWidth 1024) (s.dev.bad key 8)
  | .tile _ =>
    if isLocal && !(fieldOf ea 32 31 == 0 && lateralWindow loc) then
      s.attempt (if pa then [] else
          if fieldOf ea 32 31 = 0 then s.chkTimed loc 8 true [2, 3] ea else [align, chkBounds true ea]) fun s =>
        if pa || poison then
          let s1 := if pa then s else
            (s.timedWrite (s.psc + readAfter loc.toNat) (spaceOf loc.toNat) (spaceAddr loc.toNat) 0 0#1024).timedWrite
              (s.psc + readAfter loc.toNat + 1) (spaceOf loc.toNat) (spaceAddr loc.toNat) 0 0#1024
          (s1.putPoisoned (loadLatency loc.toNat) (.s d)).countDrop
        else (s.timedAmo loc d op v c { acq := acq, rel := rel, scope := s.atScope scope }).demoted scope
    else if isLocal then
      s.attempt (s.chkSlot ls :: if pa then [] else s.chkLateral loc 8 true ea) fun s =>
        if pa || poison then drop s
        else ((s.openSlot ls l (.s d) false).sendOp (opOf s .amoV loc)).demoted scope
    else
      s.attempt (s.chkSlot ls :: if pa then [] else s.chkDva ea 8 true) fun s =>
        if pa || poison then drop s
        else ((s.openSlot ls l (.s d) false).sendOp (opOf s .amoG ea)).demoted scope

/-- `amo` with its operation (R231). -/
def State.amo (s : State) (op : AmoOp) (d a : Fin 32) (ls : Fin 64) (l : Landing) (q : Option Scope) : Result :=
  s.atomic op d a ls l (s.readS d) 0#64 (s.poisonS d) q.isSome q.isSome (q.elim 0 scopeNum)

/-- `amo.add` (R231). -/
def execAmoAdd (d a : Fin 32) (ls : Fin 64) (l : Landing) (q : Option Scope) (s : State) : Result := s.amo .add d a ls l q
/-- `amo.and`. -/
def execAmoAnd (d a : Fin 32) (ls : Fin 64) (l : Landing) (q : Option Scope) (s : State) : Result := s.amo .and d a ls l q
/-- `amo.or`. -/
def execAmoOr (d a : Fin 32) (ls : Fin 64) (l : Landing) (q : Option Scope) (s : State) : Result := s.amo .or d a ls l q
/-- `amo.xor`. -/
def execAmoXor (d a : Fin 32) (ls : Fin 64) (l : Landing) (q : Option Scope) (s : State) : Result := s.amo .xor d a ls l q
/-- `amo.max`. -/
def execAmoMax (d a : Fin 32) (ls : Fin 64) (l : Landing) (q : Option Scope) (s : State) : Result := s.amo .max d a ls l q
/-- `amo.min`. -/
def execAmoMin (d a : Fin 32) (ls : Fin 64) (l : Landing) (q : Option Scope) (s : State) : Result := s.amo .min d a ls l q
/-- `amo.maxn`. -/
def execAmoMaxn (d a : Fin 32) (ls : Fin 64) (l : Landing) (q : Option Scope) (s : State) : Result := s.amo .maxn d a ls l q
/-- `amo.swap`. -/
def execAmoSwap (d a : Fin 32) (ls : Fin 64) (l : Landing) (q : Option Scope) (s : State) : Result := s.amo .swap d a ls l q

/-- `cas` (R232): s[d] is compared, s[d + 1] is stored. -/
def execCas (d a : Fin 32) (ls : Fin 64) (l : Landing) (q : CasQual) (s : State) : Result :=
  let e : Fin 32 := d + 1
  let f := match q with
    | .none => (false, false, 0)
    | .acq x => (true, false, scopeNum x)
    | .rel x => (false, true, scopeNum x)
    | .ar x => (true, true, scopeNum x)
  s.atomic .cas d a ls l (s.readS e) (s.readS d) (s.poisonS d || s.poisonS e) f.1 f.2.1 f.2.2

/-! Fences -/

/-- `fence` (R233): on a tile it takes its place in the issue order of the variable-latency operations; a service core has performed
every earlier access already (R319). -/
def State.fence (s : State) (acq rel : Bool) (scope : Nat) : Result :=
  match s.cur with
  | .svc q => .next (s.onDev fun d =>
      let e := if acq && decide (3 ≤ scope) then d.onSvc q fun c => { c with acqFence := true } else d
      match e.boltOfQuad q with
      | some b => if 3 ≤ scope then e.flushHost b else e
      | none => e)
  | .tile n =>
    let at_ := s.atScope scope
    let mark := fun (t : Tile) => if acq && decide (3 ≤ at_) then { t with c := { t.c with acqFence := true } } else t
    .next ((((s.sendOp { s.memOp .fence 0#64 0 with acq := acq, rel := rel, scope := at_ }).demoted scope).onTile mark).onDev
      fun d => d.settleFences n)

/-- `fence.acq` (R233). -/
def execFenceAcq (x : Fin 5) (s : State) : Result := s.fence true false x.val
/-- `fence.rel`. -/
def execFenceRel (x : Fin 5) (s : State) : Result := s.fence false true x.val
/-- `fence.ar`. -/
def execFenceAr (x : Fin 5) (s : State) : Result := s.fence true true x.val

/-! The idle half, late data, zero lines, prefetch -/

/-- `sti` (R237, R104). -/
def execSti (d a : Fin 32) (off : Option (BitVec 16)) (dk : DKind) (s : State) : Result :=
  let ea := s.ea a off
  let n := dkBytes dk
  let v := s.storeData dk d
  let pa := s.poisonS a
  s.attempt (s.chkDk dk d ++ if pa then [] else
      [chkAlign (ea.toNat % n != 0) ea, chkBounds (decide (halfSize < ea.toNat + n) || s.tile.c.idleHeld) ea]) fun s =>
    if pa || v.2 then s.countDrop else s.timedWrite (s.psc + 3) .isp ea.toNat n v.1

/-- `lget` and `lwait` on a slot with data or a failure: the landing write counts as issued now (R235, R236). -/
def State.takeLate (s : State) (ls : Fin 64) : State :=
  s.onTile fun t =>
    let x := t.lands[ls]
    let y := { x with due := s.psc + 1, issue := s.psc, slot := 5 }
    { t with lands := t.lands.set ls (match x.st with
        | .ready => { y with st := .held }
        | .late => { y with st := .wait, psn := false }
        | _ => y) }

/-- Whether `lget` and `lwait` may name a slot. -/
def lateState (st : LandSt) : Bool := st == .ready || st == .failed || st == .late

/-- `lget` (R235). -/
def execLget (ls : Fin 64) (p : Fin 8) (s : State) : Result :=
  let st := s.tile.lands[ls].st
  s.attempt [chkOp (!lateState st) 2] fun s => (if st == .late then s else s.takeLate ls).putP 1 p (st == .ready)

/-- `lwait` (R236). -/
def execLwait (ls : Fin 64) (s : State) : Result :=
  s.attempt [chkOp (!lateState s.tile.lands[ls].st) 2] fun s => s.takeLate ls

/-- `zline` (R238). -/
def execZline (a : Fin 32) (off : Option (BitVec 16)) (s : State) : Result :=
  let ea := s.ea a off
  let pa := s.poisonS a
  s.attempt (s.onlyTile [s.chkOut] ++ if pa then [] else s.chkDva ea 128 true) fun s =>
    match s.cur with
    | .svc q => s.svcStore q ea (leBytes 128 0) pa 0#2 false false
    | .tile _ => if pa then s.countDrop else s.sendOp { s.memOp .zline ea 128 with entry := true }

/-- `pref` (R239): a poisoned address asks for nothing (R41). -/
def execPref (a : Fin 32) (off : Option (BitVec 16)) (ef : Bool) (s : State) : Result :=
  let ea := s.ea a off
  let pa := s.poisonS a
  s.attempt (if pa then [] else [chkBounds (decide (2 ^ 56 ≤ ea.toNat)) ea]) fun s =>
    match s.cur with
    | .svc q => s.onDev fun d => match d.boltOfQuad q with
        | some b => match d.reach b (svcAsker q) ea.toNat .read false with
          | (d, .point k) => d.slcLoad (d.sliceOf b k) (k / 128) (if ef then 3#2 else 0#2)
          | (_, _) => d
        | none => d
    | .tile _ => if pa then s else s.sendOp { s.memOp .pref ea 1 with hint := if ef then 3#2 else 0#2 }

/-! Launches and events -/

/-- `launch` (R240): a release at `.dev`, to which no ceiling applies (R294). -/
def execLaunch (a : Fin 32) (o : SOpd) (s : State) : Result :=
  let ea := s.readS a
  let pa := s.poisonS a
  let spool := match o with
    | .reg r => (s.readS r).toNat
    | .imm i => i.toNat
  s.attempt (s.chkOut :: if pa then [] else [chkAlign (ea.toNat % 128 != 0) ea, chkBounds (decide (2 ^ 56 ≤ ea.toNat)) ea]) fun s =>
    if pa || s.sopdPoison o then s.countDrop
    else s.sendOp { s.memOp .launch ea 128 with entry := true, dst := spool, rel := true, scope := 3 }

/-- `evpost` (R241): a release at `.sys` or the ceiling. -/
def execEvpost (a : Fin 32) (code : Option (BitVec 16)) (s : State) : Result :=
  s.attempt [s.chkOut] fun s =>
    if s.poisonS a then s.countDrop
    else (s.sendOp { s.memOp .evpost 0#64 0 with
      entry := true, data := (s.readS a).setWidth 1024, data2 := s.tile.sr.wid, dst := code.elim 0 BitVec.toNat, n := s.dev.dcc,
      rel := true, scope := s.atScope 4 }).demoted 4

end Sys2Proof.Machine
end

