-- ==== Sys2Proof/Machine/Exchange.lean ====
section
/-! DEFINITION. The X slot at issue: timed exchange, reduce-at-receive, semaphores and far traffic (R242–R253, R11). -/

namespace Sys2Proof.Machine

/-! Routes -/

/-- The positions visited from `a` to `b` in one dimension of length `n` (R11): inside the rectangle, or the shorter way round a full
ring, east or south when both are equal. -/
def ringRoute (a b n : Nat) (full : Bool) : List Nat :=
  if full then
    let d := (b + n - a) % n
    if d ≤ n - d then (List.range d).map fun k => (a + k + 1) % n else (List.range (n - d)).map fun k => (a + n - k - 1) % n
  else if a ≤ b then (List.range (b - a)).map fun k => a + k + 1
  else (List.range (a - b)).map fun k => a - k - 1

/-- The ranks visited after `a` on the route to `b`: X first, then Y (R11). -/
def Panel.route (p : Panel) (a b : Nat) : List Nat :=
  (ringRoute (a % p.w) (b % p.w) p.w (p.w == 16)).map (fun x => a / p.w * p.w + x)
    ++ (ringRoute (a / p.w) (b / p.w) p.h (p.h == 8)).map fun y => y * p.w + b % p.w

/-- The arms of a broadcast along a row or column: the ranks in each direction, in order (R245). -/
def Panel.arms (p : Panel) (a : Nat) (col : Bool) : List (List Nat) :=
  let n := if col then p.h else p.w
  let pos := if col then a / p.w else a % p.w
  let full := if col then p.h == 8 else p.w == 16
  let rank := fun i => if col then i * p.w + a % p.w else a / p.w * p.w + i
  let up := if full then (List.range (n / 2)).map fun k => (pos + k + 1) % n else (List.range (n - 1 - pos)).map fun k => pos + k + 1
  let down := if full then (List.range (n - 1 - n / 2)).map fun k => (pos + n - k - 1) % n else (List.range pos).map fun k => pos - k - 1
  ([up, down].filter fun l => !l.isEmpty).map fun l => l.map rank

/-- Whether a beat arrives at a rank on a cycle (R242, R245). -/
def Beat.arrives (b : Beat) (rank psc : Nat) : Bool :=
  if b.each then b.route.zipIdx.any fun x => x.1 == rank && b.launch + 2 * (x.2 + 1) == psc
  else (b.route.getLast?).getD b.src == rank && b.launch + 2 * b.route.length == psc

/-- The last cycle on which a beat arrives anywhere. -/
def Beat.last (b : Beat) : Nat := b.launch + 2 * b.route.length

/-- The link that a beat uses on a cycle, as (from, to) (R242). -/
def Beat.link (b : Beat) (psc : Nat) : Option (Nat × Nat) :=
  if b.launch ≤ psc ∧ (psc - b.launch) % 2 = 0 then
    let k := (psc - b.launch) / 2
    (b.route[k]?).map fun r => (if k = 0 then b.src else b.route.getD (k - 1) b.src, r)
  else none

/-! Sends and receives -/

/-- Data and poison of a register source of a send (R242). -/
def State.sendData (s : State) (x : XSrc) : VReg × Bool :=
  match x with
  | .s r => ((s.readS r).setWidth 1024, s.poisonS r)
  | .v f r => (s.readV f r, s.poisonV f r)
  | .tsp _ _ => (0#1024, false)

/-- The checks of a timed exchange operand; a TSP operand is accessed `k` cycles after issue (R16, R105, R108, R157, R243, R244). -/
def State.chkX (s : State) (x : XSrc) (k : Nat) : List Chk :=
  match x with
  | .s _ => []
  | .v f r => [s.chkV f r]
  | .tsp bank off =>
    [chkAlign (off.toNat % 16 != 0) (bankAddr bank off.toNat), s.chkPort [(s.psc + k, bank.val)],
     chkBounds (s.tile.owned bank.val || decide (0x10000 < off.toNat + 128)) (bankAddr bank off.toNat)]

/-- Sends beats along routes (R242, R243, R245): a TSP source is read on i + 2 and launches on i + 4. A `bcst` without an arm reads no bank. DESIGN
CHOICE: log entry 90. -/
def State.sendBeats (s : State) (x : XSrc) (routes : List (List Nat)) (each : Bool) : State :=
  match s.dev.panelOf s.tileNo with
  | none => s
  | some p =>
    let tsp := match x with
      | .tsp _ _ => true
      | _ => false
    let v := s.sendData x
    let beats := routes.zipIdx.map fun r =>
      ({ id := p.nextBeat + r.2, src := s.tile.rank, route := r.1, each := each, launch := s.psc + if tsp then 4 else 2, issue := s.psc,
         faddr := s.iss.addr, data := v.1, poison := v.2, taken := [], extra := [] } : Beat)
    let s1 := s.onDev fun d => d.onPanel p.handle fun q => { q with beats := q.beats ++ beats, nextBeat := q.nextBeat + beats.length }
    match x with
    | .tsp bank off =>
      if beats.isEmpty then s1
      else s1.onTile fun t => t.push
        { Flight.result s.psc s.iss.slot (s.psc + 2) (.beat p.nextBeat) 0#1024 false with
          act := .read (s.psc + 2) .tsp (bank.val * 65536 + off.toNat) 8#4 }
    | _ => s1

/-- `snd` (R243). -/
def execSnd (src : XSrc) (dst : Fin 128) (s : State) : Result :=
  s.attempt (chkOp (decide (s.dev.panelSize s.tileNo ≤ dst.val)) 0x0f :: s.chkX src 2) fun s =>
    s.sendBeats src (((s.dev.panelOf s.tileNo).map fun p => p.route s.tile.rank dst.val).toList) false

/-- `bcst` (R245). -/
def execBcst (src : XSrc) (col : Bool) (s : State) : Result :=
  s.attempt (s.chkX src 2) fun s => s.sendBeats src ((s.dev.panelOf s.tileNo).elim [] fun p => p.arms s.tile.rank col) true

/-- The beat from a sender that arrives at the issuing tile on this cycle (R244). -/
def State.arriving (s : State) (src : Nat) : Option Beat :=
  match s.dev.panelOf s.tileNo with
  | none => none
  | some p => p.beats.find? fun b => b.src == src && b.arrives s.tile.rank p.psc && !b.taken.contains s.tile.rank

/-- `rcv` (R244, R246). -/
def execRcv (dst : XSrc) (src : Fin 128) (s : State) : Result :=
  let b := s.arriving src.val
  s.attempt (chkOp b.isNone 9 :: s.chkX dst 3) fun s =>
    match b, s.dev.panelOf s.tileNo with
    | some b, some p =>
      let rank := s.tile.rank
      let s1 := s.onDev fun d => d.onPanel p.handle fun q =>
        { q with beats := q.beats.map fun x => if x.id == b.id then { x with taken := rank :: x.taken } else x }
      match dst with
      | .s r => s1.put 2 (.s r) (b.data.setWidth 64 |>.setWidth 1024) b.poison
      | .v f r => s1.put 2 (.v f r) b.data b.poison
      | .tsp bank off =>
        s1.onTile fun t => t.push
          { Flight.result s.psc s.iss.slot (s.psc + 3) (.beat src.val) 0#1024 false with
            act := .write (s.psc + 3) .tsp (bank.val * 65536 + off.toNat) 128 b.data, pdrop := b.poison }
    | _, _ => s

/-! Reduce-at-receive -/

/-- The checks of a TSP address of `sndr` (R247). -/
def chkReduce (a : W64) (mx : Bool) : List Chk :=
  [chkAlign (a.toNat % 128 != 0) a,
   chkBounds (decide (2 ^ 20 ≤ a.toNat) || (mx && decide (0xef80 < a.toNat % 65536))) a]

/-- `sndr` (R247, R41). -/
def execSndr (src : RSrc) (ta : Fin 32) (dst : Fin 128) (rty : Fin 4) (isMax : Bool) (sem : Fin 16) (s : State) : Result :=
  let t := s.readS ta
  let pt := s.poisonS ta
  let mx := rty = 3
  let o := { s.memOp .sndr t 128 with
    entry := true, rel := true, scope := 1, dst := dst.val, sem := sem, rty := BitVec.ofNat 2 rty.val, isMax := isMax }
  let base := [chkOp (decide (s.dev.panelSize s.tileNo ≤ dst.val)) 0x0f, s.chkOut] ++ if pt then [] else chkReduce t mx
  match src with
  | .v f r => s.attempt (s.chkV f r :: base) fun s => s.sendOp { o with data := s.readV f r, poison := pt || s.poisonV f r }
  | .tsp r =>
    let a := s.readS r
    let pa := s.poisonS r
    let bank := idx 16 (a.toNat / 65536)
    let fmt := bfmtFmt (s.tile.sr.bfmt[bank])
    s.attempt (base ++ if pa then [] else
        [chkOp (mx && fmt != 0xd && fmt != 0xe) 0x0c, chkBounds (s.tile.owned bank.val) a]
          ++ (if a.toNat < 2 ^ 20 then [s.chkPort [(s.psc + 2, bank.val)]] else []) ++ chkReduce a mx) fun s =>
      s.sendOp { o with data2 := a, tspRead := if pa then none else some (s.psc + 2), poison := pt || pa }

/-! Semaphores -/

/-- Whether a pending `xrcvf` of the tile waits on a semaphore (R250). -/
def Tile.semAwaited (t : Tile) (sem : Fin 16) : Bool := t.ops.any fun o => o.kind == .xrcvf && o.stage == .issued && o.sem == sem

/-- Sets a semaphore. -/
def Tile.setSem (t : Tile) (sem : Fin 16) (v : W32) : Tile := { t with sr := { t.sr with sem := t.sr.sem.set sem v } }

/-- Adds to a semaphore, saturating (R250). -/
def Tile.addSem (t : Tile) (sem : Fin 16) (n : Nat) : Tile := t.setSem sem (BitVec.ofNat 32 (satAdd t.sr.sem[sem].toNat n))

/-- `semw` (R249). -/
def execSemw (p : Fin 8) (sem : Fin 16) (n : BitVec 8) (s : State) : Result :=
  s.attempt [chkOp (s.tile.semAwaited sem) 0x0f] fun s =>
    let v := s.tile.sr.sem[sem]
    let ok := decide (n.toNat ≤ v.toNat)
    (if ok then s.onTile fun t => t.setSem sem (v - n.setWidth 32) else s).putP 1 p ok

/-- `semp` (R249). -/
def execSemp (d : Fin 32) (sem : Fin 16) (s : State) : Result :=
  s.attempt [chkOp (s.tile.semAwaited sem) 0x0f] fun s => s.putS 2 d (s.tile.sr.sem[sem].setWidth 64) false

/-- `semi` (R249, R41). -/
def execSemi (sem : Fin 16) (a : Fin 32) (s : State) : Result :=
  s.attempt [chkOp (s.tile.semAwaited sem) 0x0f] fun s =>
    if s.poisonS a then s.onTile fun t => (t.setSem sem 0#32).setTstat 1
    else s.onTile fun t => t.setSem sem ((s.readS a).setWidth 32)

/-- `semv` (R249). -/
def execSemv (sem : Fin 16) (dst : Fin 128) (n : BitVec 8) (s : State) : Result :=
  s.attempt [chkOp (decide (s.dev.panelSize s.tileNo ≤ dst.val)) 0x0f, s.chkOut] fun s =>
    s.sendOp { s.memOp .semv 0#64 0 with entry := true, rel := true, scope := 1, dst := dst.val, sem := sem, n := n.toNat }

/-! Far traffic -/

/-- `xfar` (R251, R252): k is 0 for s, 1 for va, 2 for vb. -/
def execXfar (k : Fin 3) (r fa : Fin 32) (sem : Fin 16) (s : State) : Result :=
  let f := s.readS fa
  let pf := s.poisonS fa
  let dk : DKind := if k = 0 then .i64 else if k = 1 then .va else .vb
  let n := dkBytes dk
  let v := s.storeData dk r
  s.attempt (s.chkDk dk r ++ [s.chkOut] ++ if pf then [] else
      [chkAlign (fieldOf f 0 32 % n != 0) f, chkBounds (fieldOf f 60 4 != 0 || fieldOf f 32 8 != 0) f]) fun s =>
    if pf || v.2 then s.countDrop else s.sendOp { s.memOp .xfar f n with entry := true, data := v.1, sem := sem, dst := s.dev.farRank s.tileNo f }

/-- Whether the bundle in hand holds a format-L operation in its L slot that runs and names a landing slot (R128). The bundle is read as it was
fetched, from the half that was active when the cycle began. -/
def State.lslotNames (s : State) (ls : Fin 64) : Bool :=
  let d := s.start
  let t := d.tiles[s.tileNo]
  match ispAddr s.tileNo t s.iss.addr.toNat with
  | none => false
  | some k =>
    let h := d.word k
    let w := d.word (k + 4 + 4 * sumList ((List.range 5).map fun i => b2n (h.getLsbD i)))
    let opc := fieldOf w 26 6
    h.getLsbD 5 && (opc == 3 || opc == 5 || opc == 7 || opc == 8) && fieldOf w 6 6 == ls.val
      && ((fieldOf w 22 3 == 0 || t.r.p.getLsbD (fieldOf w 22 3)) != w.getLsbD 25)

/-- `xrcvf` (R253): its acquire at `.dev` is demoted under a lower ceiling, as that of `evpost` is (R291, R295). DEDUCED: log entry 69. -/
def execXrcvf (d a : Fin 32) (ls : Fin 64) (l : Landing) (dk : DKind2) (sem : Fin 16) (s : State) : Result :=
  let k := dk2Kind dk
  let n := dkBytes k
  let ea := s.readS a
  let pa := s.poisonS a
  let loc := s.place ea n
  let both := s.lslotNames ls
  s.attempt (s.chkDk k d ++ [{ chkOp both 2 with slot := some 5 }, chkOp (!both && s.tile.lands[ls].st != .free) 2]
      ++ if pa then [] else [chkAlign (ea.toNat % Nat.min n 16 != 0) ea,
        chkBounds (!timedLoc loc || (decide (ea.toNat < 2 ^ 20) && s.tile.owned (ea.toNat / 65536))) ea]) fun s =>
    if pa then s.openSlot ls l (dkDest k d) true
    else ((s.openSlot ls l (dkDest k d) false).sendOp
      { s.memOp .xrcvf ea n with ls := some ls, sem := sem, acq := true, scope := s.atScope 3 }).demoted 3

end Sys2Proof.Machine
end

