-- ==== Sys2Proof/Machine/Matrix.lean ====
section
/-! DEFINITION. The M slot: tile loads and stores, clears, MMAs and their results, readouts, raw save and restore, and status
(R197–R219, R81–R86). -/

namespace Sys2Proof.Machine

/-! Bits of tile registers -/

/-- Element j of a tile line, by the width of its code (R59). -/
def lineEl (c : Nat) (row : BitVec 512) (j : Nat) : Nat := field row.toNat (codeBits c * j) (codeBits c)

/-- A tile line from the elements of a code. -/
def lineOf (c : Nat) (l : List Nat) : BitVec 512 :=
  let w := codeBits c
  BitVec.ofNat 512 (l.foldr (fun x acc => x % 2 ^ w + 2 ^ w * acc) 0)

/-- Byte k of the scale side of a tile register (R92). -/
def TReg.scaleByte (t : TReg) (k : Nat) : Nat := fieldOf t.scale (8 * k) 8

/-- Byte offset o of a tile register's lines as an fp32 pattern (R212). -/
def TReg.word (t : TReg) (o : Nat) : Nat := fieldOf (t.rows[idx 64 (o / 64)]) (8 * (o % 64)) 32

/-- Element (i, j) of an accumulator (R93). -/
def accEl (z : Acc) (i j : Nat) : Nat := fieldOf (z[idx 64 i]) (32 * j) 32

/-- Sets the tag of a tile register's TGEOM. -/
def Tile.setTag (t : Tile) (r : Fin 8) (tag : Nat) : Tile :=
  { t with sr := { t.sr with tgeom := t.sr.tgeom.set r (putField t.sr.tgeom[r] 16 4 tag) } }

/-! Issuing an operation on a path -/

/-- BFMT of a bank as an M operation samples it: with the write due on its issue cycle (R199). -/
def State.sampleBfmt (s : State) (bank : Fin 16) : W32 :=
  let t := s.tile
  let now := t.flight.filter fun f => f.due == s.psc && f.dest == .sr (BitVec.ofNat 10 (0x030 + bank.val))
  match now.getLast? with
  | some f => blend bfmtMask (f.value.setWidth 32) t.sr.bfmt[bank]
  | none => t.sr.bfmt[bank]

/-- Whether an `mvst` to a bank's BFMT falls due after the issue cycle and by the cycle `last` (R199). -/
def State.bfmtClash (s : State) (bank : Fin 16) (last : Nat) : Bool :=
  s.tile.flight.any fun f => f.dest == .sr (BitVec.ofNat 10 (0x030 + bank.val)) && decide (s.psc < f.due) && decide (f.due ≤ last)

/-- A path operation that has just been issued, with what every kind sets. -/
def State.pathOp (s : State) (kind : PathKind) (cnt : Nat) (bank : Fin 16) (off : Nat) (reg : Nat) : PathOp where
  kind := kind
  word := s.slotWord.1
  imm := s.slotWord.2
  issue := s.psc
  cnt := cnt
  bank := bank
  off := off
  bfmt := s.sampleBfmt bank
  tgeom := s.tile.sr.tgeom[idx 8 reg]
  reg := reg
  raw := false
  tag := 0#4
  src := 0#4
  done := 0
  drop := false
  poison := false
  zflags := 0#6
  zo := none
  lines := []
  scales := []
  satLines := []
  satFlags := 0#6

/-- The checks of an M operation's accesses (R16, R105, R108, R198, R199): `limit` is the end of the bank, or of its element area. -/
def State.chkPath (s : State) (o : PathOp) (limit : Nat) : List Chk :=
  let out := ((List.range o.cnt).map o.access).find? fun a => decide (limit < a.1 + a.2)
  [s.chkPort ((List.range o.cnt).map fun m => (o.first + m, o.bank.val)),
   chkOp (s.bfmtClash o.bank (o.first + o.cnt - 1)) 0x0f,
   chkBounds (s.tile.owned o.bank.val) (bankAddr o.bank o.off),
   chkBounds out.isSome (bankAddr o.bank (out.elim 0 Prod.fst))]

/-- The alignment check of a bank offset; in a block-format bank the pitch counts as well (R202, R214). -/
def chkPathAlign (o : PathOp) (block : Bool) : Chk :=
  let b := blockBytes (bfmtFmt o.bfmt)
  chkAlign (o.off % 16 != 0 || (block && (o.off % b != 0 || bfmtPitch o.bfmt % b != 0))) (bankAddr o.bank o.off)

/-- The end of the area that an operation's element bytes may use. -/
def areaEnd (block : Bool) : Nat := if block then 0xF000 else 0x10000

/-- Adds an operation to the tile path. -/
def State.onTpath (s : State) (o : PathOp) : State := s.onTile fun t => { t with tpath := t.tpath ++ [o] }

/-- Adds an operation to the accumulator path. -/
def State.onApath (s : State) (o : PathOp) : State := s.onTile fun t => { t with apath := t.apath ++ [o] }

/-- The check of R197 that the tile path is free. -/
def State.chkTpath (s : State) : Chk := chkOp (pathBusy s.tile.tpath s.psc) 1

/-- The check of R197 that the accumulator path is free. -/
def State.chkApath (s : State) : Chk := chkOp (pathBusy s.tile.apath s.psc) 1

/-! Loads and the store -/

/-- Tag and source format of a load from a bank format (R79, R202); none is the illegal-operand trap. -/
def loadFmt (raw : Option (BitVec 4)) (fmt : Nat) (transpose : Bool) : Option (Nat × Nat) :=
  match raw with
  | some ty => some (ty.toNat, ty.toNat)
  | none =>
    if fmt = 0xA then some (9, 0xA)
    else if codeBlock fmt then (if transpose then none else some (fmt, fmt))
    else if fmt = 0 ∨ fmt = 1 ∨ fmt = 2 ∨ fmt = 8 ∨ fmt = 9 ∨ fmt = 0xB ∨ fmt = 0xC then some (fmt, fmt)
    else none

/-- `mld` and `mldt` (R202, R203). -/
def State.tileLoad (s : State) (kind : PathKind) (t : Fin 8) (bank : Fin 16) (off : BitVec 16) (raw : Option (BitVec 4)) : Result :=
  let fmt := bfmtFmt (s.sampleBfmt bank)
  let g := s.tile.sr.tgeom[t]
  let lf := loadFmt raw fmt (kind == .mldt)
  let tag := lf.elim 0 Prod.fst
  let src := lf.elim 0 Prod.snd
  let cnt := match kind with
    | .mldt => geomCols g * ((lineBytes src (geomRows g) + 127) / 128)
    | _ => geomRows g
  let o : PathOp := { s.pathOp kind cnt bank off.toNat t.val with
    raw := raw.isSome, tag := BitVec.ofNat 4 tag, src := BitVec.ofNat 4 src }
  let block := codeBlock fmt && raw.isNone
  s.attempt ([s.chkTpath, chkOp lf.isNone 0x0c, chkOp (lf.isSome && decide (codeCap tag < geomCols g)) 0x0c, chkPathAlign o block]
    ++ s.chkPath o (areaEnd block)) fun s => s.onTpath o

/-- `mld` (R202). -/
def execMld (t : Fin 8) (bank : Fin 16) (off : BitVec 16) (raw : Option (BitVec 4)) (s : State) : Result :=
  s.tileLoad .mld t bank off raw

/-- `mldt` (R203). -/
def execMldt (t : Fin 8) (bank : Fin 16) (off : BitVec 16) (raw : Option (BitVec 4)) (s : State) : Result :=
  s.tileLoad .mldt t bank off raw

/-- `mlds` (R204). -/
def execMlds (t : Fin 8) (bank : Fin 16) (off : BitVec 16) (s : State) : Result :=
  let o := s.pathOp .mlds 2 bank off.toNat t.val
  s.attempt ([s.chkTpath, chkPathAlign o false] ++ s.chkPath o 0x10000) fun s => s.onTpath o

/-- The tile register that a finished `mld` writes (R202). -/
def PathOp.mldResult (o : PathOp) (old : TReg) : TReg :=
  let c := geomCols o.tgeom
  let src := o.src.toNat
  let tag := o.tag.toNat
  let rows := Vector.ofFn fun (m : Fin 64) => match o.lines[m.val]? with
    | some l => lineOf tag ((List.range c).map fun j => tileConv src tag (field l.toNat (codeBits src * j) (codeBits src)))
    | none => 0#512
  let sc := fun k => match o.scales[k / 4]? with
    | some w => if k % 4 < o.blocks then fieldOf w (8 * (k % 4)) 8 else 0x7f
    | none => 0x7f
  let scale := if codeBlock tag && !o.raw then BitVec.ofNat 2048 ((List.range 256).foldr (fun k acc => sc k + 256 * acc) 0)
    else old.scale
  { rows := rows, scale := scale }

/-- Source row k of a transposing load, as one number. -/
def PathOp.sourceRow (o : PathOp) (k : Nat) : Nat :=
  let per := mldtPer o
  sumList ((List.range per).map fun i => (o.lines.getD (k * per + i) 0#1024).toNat * 2 ^ (1024 * i))

/-- The tile register that a finished `mldt` writes (R203). -/
def PathOp.mldtResult (o : PathOp) (old : TReg) : TReg :=
  let c := geomCols o.tgeom
  let src := o.src.toNat
  let tag := o.tag.toNat
  let rows := Vector.ofFn fun (j : Fin 64) =>
    if j.val < geomRows o.tgeom then
      lineOf tag ((List.range c).map fun k => tileConv src tag (field (o.sourceRow k) (codeBits src * j.val) (codeBits src)))
    else 0#512
  { rows := rows, scale := old.scale }

/-- The tile register that a finished `mlds` writes (R204). -/
def PathOp.mldsResult (o : PathOp) (old : TReg) : TReg :=
  { old with scale := BitVec.ofNat 2048 ((o.lines.getD 0 0#1024).toNat + 2 ^ 1024 * (o.lines.getD 1 0#1024).toNat) }

/-- Counts a dropped poisoned write when an operation is dropped at issue (R41, R205, R214, R216). -/
def State.dropIf (s : State) (poison : Bool) : State := if poison then s.onTile Tile.dropPoisoned else s

/-- `mst` (R205): the register's lines and scale side are kept as they stand at issue, and `PathOp.out` gives what is written. -/
def execMst (t : Fin 8) (bank : Fin 16) (off : BitVec 16) (raw : Bool) (s : State) : Result :=
  let fmt := bfmtFmt (s.sampleBfmt bank)
  let g := s.tile.sr.tgeom[t]
  let tag := geomTag g
  let r := s.tile.r.t[t]
  let poison := s.tile.r.tPoison.getLsbD t.val
  let copy := raw || fmt == 0 || tag == 0
  let bad := !copy && tag != fmt && !(tag == 9 && fmt == 0xA)
  let dst := if !copy && tag == 9 && fmt == 0xA then 0xA else tag
  let nl := geomRows g
  let o : PathOp := { s.pathOp .mst nl bank off.toNat t.val with
    raw := copy, tag := BitVec.ofNat 4 dst, src := BitVec.ofNat 4 tag, drop := poison
    lines := r.rows.toList.map fun x => x.setWidth 1024
    scales := (List.range 64).map fun m => BitVec.ofNat 32 (fieldOf r.scale (32 * m) 32) }
  s.attempt ([s.chkTpath, chkOp bad 0x0c, chkOp (decide (codeCap tag < geomCols g)) 0x0c, chkPathAlign o (codeBlock fmt)]
    ++ s.chkPath o (areaEnd (codeBlock fmt && !raw)))
    fun s => (s.onTpath o).dropIf poison

/-- `mzero` (R206): the clears are due on the issue cycle; `reg` holds the two masks. -/
def execMzero (ts : BitVec 8) (zs : BitVec 4) (s : State) : Result :=
  .next (s.onTpath { s.pathOp .mzero 0 0 0 0 with reg := ts.toNat + 256 * zs.toNat })

/-! The MMA -/

/-- K and the accumulator type (1 i32, 2 fp32) of a pair of tags, if R81 admits it. -/
def mmaType (a b : Nat) : Option (Nat × Nat) :=
  if a = 1 ∧ b = 1 then some (128, 1)
  else if a = 2 ∧ b = 2 then some (64, 1)
  else if (a = 0xB ∨ a = 0xC) ∧ (b = 0xB ∨ b = 0xC) then some (64, 2)
  else if (a = 8 ∧ b = 8) ∨ (a = 9 ∧ b = 9) then some (32, 2)
  else if (a = 0xD ∨ a = 0xE) ∧ (b = 0xD ∨ b = 0xE) then some (64, 2)
  else if a = 0xF ∧ b = 0xF then some (128, 2)
  else none

/-- TYPE of a zs register (R99). -/
def zsType (v : W32) : Nat := fieldOf v 8 2

/-- Sets TYPE of a zs register. -/
def Tile.setZsType (t : Tile) (z : Fin 4) (ty : Nat) : Tile :=
  { t with sr := { t.sr with zs := t.sr.zs.set z (putField t.sr.zs[z] 8 2 ty) } }

/-- Whether an MMA result into an accumulator is still due. -/
def Tile.mmaDue (t : Tile) (z : Fin 4) : Bool := t.units.any fun u => u.zd == z

/-- `mma` and `mmo` (R207–R209). -/
def State.startMma (s : State) (outl : Bool) (z : Fin 4) (a b : Fin 8) : Result :=
  let t := s.tile
  let ga := t.sr.tgeom[a]
  let gb := t.sr.tgeom[b]
  let ty := if outl && !(geomTag ga == 9 && geomTag gb == 9) then none else mmaType (geomTag ga) (geomTag gb)
  let acc := ty.elim 0 Prod.snd
  let k := ty.elim 0 Prod.fst
  let busy := t.units.any fun u => decide (s.psc < u.issue + 128)
  s.attempt [chkOp busy 1, chkOp ty.isNone 0x0c,
      chkOp (ty.isSome && (geomCols ga != geomCols gb || decide (k < geomCols ga))) 0x0c,
      chkOp (ty.isSome && zsType t.sr.zs[z] != 0 && zsType t.sr.zs[z] != acc) 0x0c] fun s =>
    s.onTile fun t =>
      let u : UnitRec := { word := s.slotWord.1, issue := s.psc, outl := outl, zd := z, a := t.r.t[a], b := t.r.t[b], ga := ga, gb := gb,
                           poison := t.r.tPoison.getLsbD a.val || t.r.tPoison.getLsbD b.val, alone := none }
      let t1 := if zsType t.sr.zs[z] = 0 then t.setZsType z acc else t
      { t1 with units := t1.units ++ [u], sr := { t1.sr with mIssue := some s.psc, mOutl := outl, mZdst := z } }

/-- `mma`. -/
def execMma (z : Fin 4) (a b : Fin 8) (s : State) : Result := s.startMma false z a b

/-- `mmo`. -/
def execMmo (z : Fin 4) (a b : Fin 8) (s : State) : Result := s.startMma true z a b

/-- The first c elements of line m of an operand, decoded exactly with their block scales (R82). -/
def operandLine (r : TReg) (tag c m : Nat) : List Val :=
  (List.range c).map fun k =>
    let v := lineEl tag (r.rows[idx 64 m]) k
    if codeBlock tag then blockVal (blockEl tag) (r.scaleByte (4 * m + k / 32)) v else codeVal tag v

/-- What the products of one element add up to (R82): NaN, infinities, and the exact sum, which starts from the old element. DEDUCED
(log entry 22): a zero sum takes its sign from all addends by R68. -/
def productSum : List Val → List Val → Bool × Bool × Bool × Val → Bool × Bool × Bool × Val
  | a :: as, b :: bs, acc =>
    let p := (mulVal a b).1
    productSum as bs (match p with
      | .nan _ => (true, acc.2.1, acc.2.2.1, acc.2.2.2)
      | .inf false => (acc.1, true, acc.2.2.1, acc.2.2.2)
      | .inf true => (acc.1, acc.2.1, true, acc.2.2.2)
      | .fin _ _ _ _ => (acc.1, acc.2.1, acc.2.2.1, (addVal .rne acc.2.2.2 p).1))
  | _, _, acc => acc

/-- MmaElement of R82 with an fp32 accumulator. -/
def mmaFloat (old : Nat) (a b : List Val) (sat : Bool) : Nat × Flags :=
  let o := fp32 old
  let r := productSum a b (false, false, false, match o with
    | .fin _ _ _ _ => o
    | _ => Val.zero)
  let nan := r.1
  let pinf := r.2.1
  let ninf := r.2.2.1
  if nan || (pinf && ninf) || (o.isInf && (pinf || ninf) && o.neg != ninf) then (FFmt.nan .fp32, flIf (!o.isNan) flNV)
  else if o.isNan then (old, 0#6)
  else if pinf then (FFmt.infPat .fp32, 0#6)
  else if ninf then (FFmt.signed .fp32 true (FFmt.infPat .fp32), 0#6)
  else if o.isInf then (old, 0#6)
  else
    let y := roundTo .fp32 .rne sat r.2.2.2
    (y.1, y.2 ||| flIf (sat && y.2.getLsbD 2) flSAT)

/-- The sum of integer products. -/
def dotInt : List Val → List Val → Int → Int
  | .fin s n _ _ :: as, .fin t m _ _ :: bs, acc => dotInt as bs (acc + (if s = t then (n * m : Int) else -(n * m : Int)))
  | _, _, acc => acc

/-- MmaElement of R82 with an i32 accumulator. -/
def mmaInt (old : Nat) (a b : List Val) (sat : Bool) : Nat × Flags :=
  let v := intVal true 32 old + dotInt a b 0
  let y := satInt true 32 v
  if y = v then (wrapNat 32 v, 0#6)
  else if sat then (wrapNat 32 y, flOF ||| flSAT) else (wrapNat 32 v, flOF)

/-- The accumulator that an MMA leaves, with its flags (R82, R208). -/
def UnitRec.result (u : UnitRec) (old : Acc) (sat : Bool) : Acc × Flags :=
  let ta := geomTag u.ga
  let tb := geomTag u.gb
  let c := geomCols u.ga
  let as := (List.range (geomRows u.ga)).map fun i => operandLine u.a ta c i
  let bs := (List.range (geomRows u.gb)).map fun j => operandLine u.b tb c j
  let isInt := ta == 1 || ta == 2
  let rows := (List.range 64).map fun i => match as[i]? with
    | none => ((List.range 64).map fun j => (accEl old i j, (0#6 : Flags)))
    | some a => (List.range 64).map fun j => match bs[j]? with
      | none => (accEl old i j, 0#6)
      | some b => if isInt then mmaInt (accEl old i j) a b sat else mmaFloat (accEl old i j) a b sat
  (Vector.ofFn fun (i : Fin 64) => BitVec.ofNat 2048 (((rows.getD i.val []).map Prod.fst).foldr (fun x acc => x + 2 ^ 32 * acc) 0),
   rows.foldl (fun fl r => r.foldl (fun fl x => fl ||| x.2) fl) 0#6)

/-- MMA_RESULT_DUE (R208, R210): the oldest MMA in flight whose result is due on this cycle updates its accumulator, before the other
writes of the cycle. Of an MMA whose accumulator an image did not name, only the flags come (R102, R338). -/
def execMmaResultDue (n : Fin 128) (s : State) : Result :=
  let psc := s.dev.psc n
  .next (s.onDev fun d => d.onTile n fun t =>
    match t.units.find? fun u => u.issue + 144 == psc with
    | none => t
    | some u =>
      let rest := t.units.filter fun x => x.issue + 144 != psc
      match u.alone with
      | some z =>
        let r := u.result z (t.sr.zctl.getLsbD 0)
        let goOn := fun (x : UnitRec) => if x.zd = u.zd then { x with alone := x.alone.map fun _ => r.1 } else x
        { (t.orZs u.zd r.2) with units := rest.map goOn }
      | none =>
        let r := u.result t.r.z[u.zd] (t.sr.zctl.getLsbD 0)
        let poison := u.poison || t.r.zPoison.getLsbD u.zd.val
        { ((t.writeZ u.zd r.1 poison).orZs u.zd r.2) with units := rest })

/-! Readout -/

/-- The inputs of a readout (R86, R211, R212). -/
structure Readout where
  /-- The accumulator is i32. -/
  isInt : Bool
  /-- The accumulator. -/
  z : Acc
  /-- The outlier accumulator. -/
  zo : Option Acc
  /-- The scale table. -/
  table : TReg
  /-- The steps selected. -/
  st : Steps

/-- One rounding step of R86. -/
def fpStep (v : Val × Flags) : Val × Flags :=
  let r := toFp32 v.1
  (fp32 r.1, v.2 ||| r.2)

/-- ReadOut of R86 for element (i, j), before step 5. -/
def Readout.value (r : Readout) (i j : Nat) : Val × Flags :=
  let z := accEl r.z i j
  let v0 : Val × Flags := if r.isInt then fpStep (.ofInt (intVal true 32 z), 0#6) else (fp32 z, 0#6)
  let step := fun (on : Bool) (f : Val → Val × Flags) (v : Val × Flags) =>
    if on then
      let x := f v.1
      fpStep (x.1, v.2 ||| x.2)
    else v
  let v1 := step r.st.rs (fun v => mulVal v (fp32 (r.table.word (4 * i)))) v0
  let v2 := step r.st.cs (fun v => mulVal v (fp32 (r.table.word (0x100 + 4 * j)))) v1
  let v3 := match r.zo with
    | some zo => step true (fun v => addVal .rne v (fp32 (accEl zo i j))) v2
    | none => v2
  step r.st.bias (fun v => addVal .rne v (fp32 (r.table.word (0x200 + 4 * j)))) v3

/-- Step 5 of R86 for a target that is no block: an integer target that saturates raises SAT beside NV. -/
def readoutConv (code : Nat) (rm : RMode) (sat : Bool) (v : Val × Flags) : Nat × Flags :=
  match elFmt code with
  | some (.int sg w) =>
    let r := toIntFmt sg w rm v.1
    (r.1, v.2 ||| r.2 ||| flIf (r.2.getLsbD 0 && !v.1.isNan) flSAT)
  | some (.flt f) =>
    let r := roundTo f rm sat v.1
    (r.1, v.2 ||| r.2 ||| flIf v.1.isSig flNV)
  | none => (0, v.2)

/-- Row i of a readout as elements of a code, with the scale bytes of a block target (R86, R75, R214). -/
def Readout.row (r : Readout) (code : Nat) (rm : RMode) (sat : Bool) (i first n : Nat) : List Nat × W32 × Flags :=
  let vals := (List.range n).map fun k => r.value i (first + k)
  if codeBlock code then
    let fl := vals.foldl (fun a v => a ||| v.2) (0#6 : Flags)
    let blk := fun b => encodeBlock ((vals.drop (32 * b)).take 32 |>.map Prod.fst) (blockEl code)
    let b0 := blk 0
    let b1 := blk 1
    (b0.els ++ b1.els, BitVec.ofNat 32 (b0.scale + 256 * b1.scale),
     fl ||| flIf (b0.nan || b1.nan) flNV ||| flIf (decide (0 < b0.sat + b1.sat)) flSAT)
  else
    let l := vals.map (readoutConv code rm sat)
    (l.map Prod.fst, 0#32, l.foldl (fun a v => a ||| v.2) 0#6)

/-- The readout that a `zout` or `zoutv` reads at issue. -/
def State.readout (s : State) (z : Fin 4) (zo : Option (Fin 4)) (tt : Option (Fin 8)) (st : Steps) : Readout :=
  let t := s.tile
  { isInt := zsType t.sr.zs[z] == 1, z := t.r.z[z], zo := zo.map fun o => t.r.z[o]
    table := match tt with
      | some r => t.r.t[r]
      | none => TReg.reset
    st := st }

/-- Poison of a readout's sources: the table counts when it is used (R214). -/
def State.readoutPoison (s : State) (z : Fin 4) (zo : Option (Fin 4)) (tt : Option (Fin 8)) (st : Steps) : Bool :=
  let t := s.tile
  t.r.zPoison.getLsbD z.val || zo.any (fun o => t.r.zPoison.getLsbD o.val)
    || ((st.rs || st.cs || st.bias) && tt.any fun r => t.r.tPoison.getLsbD r.val)

/-- The checks of R213 that both readouts share. -/
def State.chkReadout (s : State) (z : Fin 4) (zo : Option (Fin 4)) : List Chk :=
  let zs := s.tile.sr.zs
  [s.chkApath, chkOp (zsType zs[z] == 0) 0x0c, chkOp (zo.any fun o => zsType zs[o] != 2) 0x0c]

/-! Step 5 of a readout saturates by the operation's SAT, or by ZCTL.SAT on the cycle of the write (R86, R95, R170): an operation holds its lines
and flags for both values of ZCTL.SAT. DEDUCED: log entry 72. -/

/-- `zout` (R211–R214). -/
def execZout (z : Fin 4) (zo : Option (Fin 4)) (tt : Option (Fin 8)) (bank : Fin 16) (off : BitVec 16) (st : Steps) (rm : RMode)
    (sat : Bool) (s : State) : Result :=
  let fmt := bfmtFmt (s.sampleBfmt bank)
  let wide := codeBits fmt == 32
  let cnt := if wide then 128 else 64
  let poison := s.readoutPoison z zo tt st
  let o0 : PathOp := { s.pathOp .zout cnt bank off.toNat z.val with tag := BitVec.ofNat 4 fmt, drop := poison, zo := zo }
  let block := codeBlock fmt
  s.attempt (s.chkReadout z zo ++ [chkOp (fmt == 0) 0x0c, chkPathAlign o0 block] ++ s.chkPath o0 (areaEnd block)) fun s =>
    let ro := s.readout z zo tt st
    let rows := fun (sat : Bool) => (List.range 64).map fun i => ro.row fmt rm sat i 0 64
    let line := fun (l : List Nat) => BitVec.ofNat 1024 (l.foldr (fun x acc => x % 2 ^ codeBits fmt + 2 ^ codeBits fmt * acc) 0)
    let lines := fun (l : List (List Nat × W32 × Flags)) =>
      if wide then l.flatMap fun r => [line (r.1.take 32), line (r.1.drop 32)] else l.map fun r => line r.1
    let flags := fun (l : List (List Nat × W32 × Flags)) => l.foldl (fun a r => a ||| r.2.2) (0#6 : Flags)
    let o : PathOp := { o0 with
      lines := lines (rows sat), satLines := lines (rows true), scales := (rows sat).map fun r => r.2.1
      zflags := flags (rows sat), satFlags := flags (rows true) }
    (s.onApath o).dropIf poison

/-- The code of a `zoutv` target (R58, R213). -/
def vfmtCode : VFmt → Nat
  | .i4 => 1
  | .i8 => 2
  | .e4m3 => 0xB
  | .e5m2 => 0xC
  | .fp16 => 8
  | .bf16 => 9

/-- `zoutv` (R211–R213, R215): the lines are computed at issue and written on cycle i + 11; the flags are those of every element of the
accumulator. -/
def execZoutv (z : Fin 4) (zo : Option (Fin 4)) (tt : Option (Fin 8)) (td : Fin 8) (hi : Bool) (st : Steps) (rm : RMode) (sat : Bool)
    (fmt : VFmt) (s : State) : Result :=
  let code := vfmtCode fmt
  let w := if codeBits code = 16 then 32 else 64
  s.attempt (s.chkReadout z zo) fun s =>
    let ro := s.readout z zo tt st
    let lines := fun (sat : Bool) => (List.range 64).map fun i => (lineOf code (ro.row code rm sat i (b2n hi * 32) w).1).setWidth 1024
    let flags := fun (sat : Bool) => ((List.range 64).map fun i => (ro.row code rm sat i 0 64).2.2).foldl (· ||| ·) (0#6 : Flags)
    let o : PathOp := { s.pathOp .zoutv 0 0 0 td.val with
      tag := BitVec.ofNat 4 code, zo := zo, poison := s.readoutPoison z zo tt st, src := BitVec.ofNat 4 z.val
      lines := lines sat, satLines := lines true, zflags := flags sat, satFlags := flags true }
    s.onApath o

/-- The tile register that a finished `zoutv` writes: the scale side is unchanged (R215). -/
def PathOp.zoutvResult (o : PathOp) (old : TReg) : TReg :=
  { old with rows := Vector.ofFn fun (i : Fin 64) => (o.lines.getD i.val 0#1024).setWidth 512 }

/-- The accumulator whose zs takes the flags of a readout (R213). -/
def PathOp.flagsTo (o : PathOp) : Fin 4 :=
  match o.kind with
  | .zoutv => idx 4 o.src.toNat
  | _ => idx 4 o.reg

/-! Raw save and restore, status -/

/-- The alignment check of `zld` and `zst` (R216). -/
def chkRaw (o : PathOp) : Chk := chkAlign (o.off % 128 != 0) (bankAddr o.bank o.off)

/-- `zld` (R216): TYPE is set at issue. -/
def execZld (z : Fin 4) (bank : Fin 16) (off : BitVec 16) (ty : Fin 3) (s : State) : Result :=
  let o := s.pathOp .zld 128 bank off.toNat z.val
  let change := ty.val != 0 && zsType s.tile.sr.zs[z] != ty.val
  s.attempt ([s.chkApath, chkRaw o, chkOp (change && s.tile.mmaDue z) 0x0c] ++ s.chkPath o 0x10000) fun s =>
    let s1 := s.onApath o
    if ty.val = 0 then s1 else s1.onTile fun t => t.setZsType z ty.val

/-- The accumulator that a finished `zld` writes (R93, R216). -/
def PathOp.zldResult (o : PathOp) : Acc :=
  Vector.ofFn fun (i : Fin 64) =>
    BitVec.ofNat 2048 ((o.lines.getD (2 * i.val) 0#1024).toNat + 2 ^ 1024 * (o.lines.getD (2 * i.val + 1) 0#1024).toNat)

/-- `zst` (R216). -/
def execZst (z : Fin 4) (bank : Fin 16) (off : BitVec 16) (s : State) : Result :=
  let poison := s.tile.r.zPoison.getLsbD z.val
  let acc := s.tile.r.z[z]
  let o : PathOp := { s.pathOp .zst 128 bank off.toNat z.val with
    drop := poison
    lines := (List.range 128).map fun m => (acc[idx 64 (m / 2)] >>> (1024 * (m % 2))).setWidth 1024 }
  s.attempt ([s.chkApath, chkRaw o] ++ s.chkPath o 0x10000) fun s => (s.onApath o).dropIf poison

/-- `zstat` (R217): it uses no path and writes once, on cycle i + 3. -/
def execZstat (bank : Fin 16) (off : BitVec 16) (s : State) : Result :=
  let zs := s.tile.sr.zs
  let o : PathOp := { s.pathOp .zstat 1 bank off.toNat 0 with
    lines := [BitVec.ofNat 1024 ((List.range 4).foldr (fun i acc => (zs[idx 4 i]).toNat + 2 ^ 32 * acc) 0)] }
  s.attempt (chkPathAlign o false :: s.chkPath o 0x10000) fun s => s.onTpath o

/-- `zclr` (R218): TY 0 keeps TYPE, 1 i32, 2 fp32, 3 untyped. -/
def execZclr (zs : BitVec 4) (ty : BitVec 2) (s : State) : Result :=
  let named := (List.finRange 4).filter fun z => zs.getLsbD z.val
  s.attempt [chkOp (ty != 0#2 && named.any s.tile.mmaDue) 0x0c] fun s =>
    s.onTile fun t => named.foldl (fun t z =>
      let t1 := { t with sr := { t.sr with zs := t.sr.zs.set z (putField t.sr.zs[z] 0 6 0) } }
      if ty = 0#2 then t1 else t1.setZsType z (if ty = 3#2 then 0 else ty.toNat)) t

end Sys2Proof.Machine
end

