-- ==== Sys2Proof/Machine/Space.lean ====
section
/-! DEFINITION. Whole ranges of global memory as the placer, the copy engine and the context handling reach them: the memory keys of a
DVA range (R377, R382, R447), reads, writes and copies of such a range, and the shadows of the instruction halves (R343, R354). -/

namespace Sys2Proof.Machine

/-- Cuts a range at the boundaries of 4 KiB pages; `fuel` bounds the pieces. -/
def pagePieces : Nat → Nat → Nat → List (Nat × Nat)
  | 0, _, _ => []
  | fuel + 1, a, n =>
    if n = 0 then []
    else
      let k := Nat.min n (4096 - a % 4096)
      (a, k) :: pagePieces fuel (a + k) (n - k)

/-- The pieces of a range. -/
def pieces (a n : Nat) : List (Nat × Nat) := pagePieces (n / 4096 + 2) a n

/-- Where a DVA range lies: (key, bytes) for each piece, or what the access waits on, or that it ends. -/
inductive Keys where
  | keys (l : List (Nat × Nat))
  | wait (w : Wait)
  | fail
  deriving DecidableEq, Repr

/-- Resolves the pieces of a range, in order. -/
def Dev.pieceKeys (b : Fin 32) (a : Asker) (acc : AccKind) (record : Bool) : List (Nat × Nat) → Dev → Dev × Keys
  | [], d => (d, .keys [])
  | p :: r, d =>
    match d.reach b a p.1 acc record with
    | (d1, .wait w) => (d1, .wait w)
    | (d1, .fail) => (d1, .fail)
    | (d1, .point k) =>
      match Dev.pieceKeys b a acc record r d1 with
      | (d2, .keys l) => (d2, .keys ((k, p.2) :: l))
      | (d2, x) => (d2, x)

/-- Resolves a DVA range; `record` is false for a service core (R387). No access reaches beyond 56 bits (R113). -/
def Dev.rangeKeys (d : Dev) (b : Fin 32) (a : Asker) (acc : AccKind) (dva n : Nat) (record : Bool := true) : Dev × Keys :=
  if 2 ^ 56 < dva + n then (d, .fail) else Dev.pieceKeys b a acc record (pieces dva n) d

/-- Gives up the host lines that a bolt's slices hold within a range of keys (R296). -/
def Dev.dropLines (d : Dev) (b : Fin 32) (k n : Nat) : Dev :=
  (d.boltQuads b).foldl (fun d q =>
    (d.quads[q].slc.filter fun l => decide (l.key * 128 < k + n) && decide (k < l.key * 128 + 128)).foldl
      (fun d l => d.slcDrop q l.key) d) d

/-- What a read of a range gives. -/
inductive Got where
  | bytes (l : List Byte) (bad : Bool)
  | wait (w : Wait)
  | fail
  deriving DecidableEq, Repr

/-- Reads the bytes at resolved keys; `bad` when some lie in a word with an uncorrectable error (R430). -/
def Dev.readKeys (b : Fin 32) : List (Nat × Nat) → Dev → Dev × List Byte × Bool
  | [], d => (d, [], false)
  | p :: r, d =>
    let d1 := (d.dropLines b p.1 p.2).ecc (some b) p.1 p.2
    let x := Dev.readKeys b r d1
    (x.1, d1.bytes p.1 p.2 ++ x.2.1, d1.bad p.1 p.2 || x.2.2)

/-- Reads a DVA range. -/
def Dev.vRead (d : Dev) (b : Fin 32) (a : Asker) (dva n : Nat) (record : Bool := true) : Dev × Got :=
  match d.rangeKeys b a .read dva n record with
  | (d1, .keys l) =>
    let x := Dev.readKeys b l d1
    (x.1, .bytes x.2.1 x.2.2)
  | (d1, .wait w) => (d1, .wait w)
  | (d1, .fail) => (d1, .fail)

/-- Writes bytes at resolved keys. -/
def Dev.writeKeys (b : Fin 32) : List (Nat × Nat) → List Byte → Dev → Dev
  | [], _, d => d
  | p :: r, bs, d => Dev.writeKeys b r (bs.drop p.2) (((d.dropLines b p.1 p.2).backRange p.1 p.2).write p.1 (bs.take p.2))

/-- What a write of a range comes to. -/
inductive Put where
  | done
  | wait (w : Wait)
  | fail
  deriving DecidableEq, Repr

/-- Writes a DVA range, or nothing of it. -/
def Dev.vWrite (d : Dev) (b : Fin 32) (a : Asker) (dva : Nat) (bs : List Byte) (record : Bool := true) : Dev × Put :=
  match d.rangeKeys b a .write dva bs.length record with
  | (d1, .keys l) => (Dev.writeKeys b l bs d1, .done)
  | (d1, .wait w) => (d1, .wait w)
  | (d1, .fail) => (d1, .fail)

/-- Copies device memory at `src` over resolved keys. -/
def Dev.copyToKeys (b : Fin 32) : List (Nat × Nat) → Nat → Dev → Dev
  | [], _, d => d
  | p :: r, src, d => Dev.copyToKeys b r (src + p.2) (((d.dropLines b p.1 p.2).backRange p.1 p.2).copy src p.1 p.2)

/-- Copies resolved keys over device memory at `dst`. -/
def Dev.copyFromKeys (b : Fin 32) : List (Nat × Nat) → Nat → Dev → Dev
  | [], _, d => d
  | p :: r, dst, d =>
    let d1 := (d.dropLines b p.1 p.2).ecc (some b) p.1 p.2
    Dev.copyFromKeys b r (dst + p.2) (d1.copy p.1 dst p.2)

/-- Whether some bytes at resolved keys hold an uncorrectable error. -/
def Dev.badKeys (d : Dev) (l : List (Nat × Nat)) : Bool := l.any fun p => d.bad p.1 p.2

/-! Context slots and the shadows of the instruction halves -/

/-- CTXBASE of a vdev (R353). -/
def Vdev.ctxBase (v : Vdev) : Nat := v.fld 0x10 8

/-- DVA of a context slot (R354). -/
def Vdev.slotDva (v : Vdev) (slot : Nat) : Nat := v.ctxBase + slot * 2 ^ 21

/-- DVA of the shadow of half `h` in the slot of a tile, when its cut has one (R354). -/
def Dev.shadowDva (d : Dev) (n : Fin 128) (h : Nat) : Option Nat :=
  match d.panelOf n with
  | none => none
  | some p =>
    match d.vdev p.vdev, p.slots[d.tiles[n].rank]? with
    | some v, some k => some (v.slotDva k + 0x140000 + h * 0x20000)
    | _, _ => none

/-- TAG of a launch (R358), 0 for none. -/
def Dev.launchTag (d : Dev) (v l : Nat) : W64 :=
  ((d.vdev v).bind fun x => x.launches.find? fun y => y.num == l).elim 0#64 fun y => BitVec.ofNat 64 (recField y.record 0x38 8)

/-- TAG of the launch whose cut holds a context slot of a vdev, 0 for none. -/
def Dev.slotTag (d : Dev) (v slot : Nat) : W64 :=
  let holds := fun (y : Launch) => y.gangs.any fun g => g.cuts.any fun c => c.slots.contains slot
  ((d.vdev v).bind fun x => x.launches.find? holds).elim 0#64 fun y => BitVec.ofNat 64 (recField y.record 0x38 8)

/-- The source of half `h` (R341). -/
def TileCtl.isp (c : TileCtl) (h : Nat) : IspSrc := if h = 0 then c.ispA else c.ispB

/-- Sets the source of half `h`. -/
def Tile.setIsp (t : Tile) (h : Nat) (x : IspSrc) : Tile :=
  { t with c := if h = 0 then { t.c with ispA := x } else { t.c with ispB := x } }

/-- Writes one piece of half `h` through to its shadow (R343); a piece that meets a wait stays due, and the tile's cut waits for it (R447). A piece
that cannot be written is lost. DESIGN CHOICE, unsafe: log entry 23. -/
def Dev.shadowPiece (d : Dev) (n : Fin 128) (h : Nat) (x : Nat × Nat) : Dev :=
  match d.shadowDva n h, d.boltOf n, d.panelOf n with
  | some dva, some b, some p =>
    match d.reach b (d.placerAsker b p.vdev (d.launchTag p.vdev p.launch) p.wait) (dva + x.1) .write false with
    | (d1, .point k) => ((d1.dropLines b k x.2).backRange k x.2).copy (ispKey n (halfBase h) + x.1) k x.2
    | (d1, .wait w) => (d1.onTile n fun t => { t with shadowDue := t.shadowDue ++ [(h, x)] }).onPanel p.handle fun p => { p with wait := w }
    | (d1, _) => d1
  | _, _, _ => d

/-- Tries again to write what is due to the shadows of a panel, once its wait has ended; after a failure it is lost (R447). -/
def Dev.pumpShadows (d : Dev) (p : Panel) : Dev :=
  if !p.wait.free || p.tiles.all fun n => (d.tiles[n]).shadowDue.isEmpty then d
  else
    let one := fun (d : Dev) (n : Fin 128) =>
      let l := (d.tiles[n]).shadowDue
      let d1 := d.onTile n fun t => { t with shadowDue := [] }
      if p.wait == .failed then d1 else l.foldl (fun d y => d.shadowPiece n y.1 y.2) d1
    let d1 := p.tiles.foldl one d
    if p.tiles.all fun n => (d1.tiles[n]).shadowDue.isEmpty then d1.onPanel p.handle fun p => { p with wait := .no } else d1

/-- Writes bytes into half `h` of a tile's ISP, and into its shadow, which the first such write seeds from the half's source (R343). -/
def Dev.ispWrite (d : Dev) (n : Fin 128) (h off : Nat) (bs : List Byte) : Dev :=
  let d0 := d.write (ispKey n (halfBase h) + off) bs
  match d.shadowDva n h with
  | some dva =>
    let seed := (d.tiles[n].c.isp h).src != 2
    let first := if seed then 0 else off
    let len := if seed then halfSize else bs.length
    let d1 := (pieces (dva + first) len).foldl (fun d x => d.shadowPiece n h (x.1 - dva, x.2)) d0
    d1.onTile n fun t => t.setIsp h { src := 2, extent := halfSize, shadow := BitVec.ofNat 64 dva }
  | none => d0

/-- The idle half (R106). -/
def Tile.idleHalf (t : Tile) : Nat := 1 - t.activeHalf

/-- A write of `sti` or `ce.isp` into the half that is idle when it is performed, also where a `swapb` came between (DESIGN CHOICE: log entry 89): it
clears the fenced flag (R151). -/
def Dev.idleWrite (d : Dev) (n : Fin 128) (off : Nat) (bs : List Byte) : Dev :=
  (d.ispWrite n d.tiles[n].idleHalf off bs).onTile n fun t => { t with c := { t.c with fenced := false } }

end Sys2Proof.Machine
end

