-- ==== Sys2Proof/Machine/Timed.lean ====
section
/-! DEFINITION. The events that make up a tile cycle beside the issue of bundles: due results (R15), timed accesses (R224), landing slots
(R38), beats (R242, R246), barriers (R45, R46) and the timing fault (R43, R44). -/

namespace Sys2Proof.Machine

/-! Due results -/

/-- A destination with the two names of the staging registers made one (R95). -/
def Dest.norm (d : Dest) : Dest :=
  match d with
  | .sr n => if 0x060 ≤ n.toNat ∧ n.toNat ≤ 0x06F then .d (idx 16 (n.toNat - 0x060)) else .sr n
  | x => x

/-- The results of a list, in order, that no later one of the list overwrites (R15). -/
def lastResults : List Flight → List Flight
  | [] => []
  | f :: r =>
    let rest := lastResults r
    if f.dest == .none || r.any (fun g => g.dest.norm == f.dest.norm) then rest else f :: rest

/-- The tile registers and accumulators that a path operation writes when it is due: tn as n, zn as 8 + n. -/
def PathOp.targets (o : PathOp) : List Nat :=
  match o.kind with
  | .mld | .mldt | .mlds | .zoutv => [o.reg % 8]
  | .zld => [8 + o.reg % 4]
  | .mzero => (List.range 12).filter fun k => bit o.reg k
  | _ => []

/-- Writes the result of a path operation into register k of `targets` (R202–R206, R215, R216). -/
def Tile.pathWrite (t : Tile) (o : PathOp) (k : Nat) : Tile :=
  let r := idx 8 k
  let old := t.r.t[r]
  match o.kind with
  | .mld => (t.writeT r (o.mldResult old) o.poison).setTag r o.tag.toNat
  | .mldt => (t.writeT r (o.mldtResult old) o.poison).setTag r o.tag.toNat
  | .mlds => t.writeT r (o.mldsResult old) (o.poison || t.r.tPoison.getLsbD r.val)
  | .zoutv => (t.writeT r (o.zoutvResult old) o.poison).setTag r o.tag.toNat
  | .zld => t.writeZ (idx 4 k) o.zldResult o.poison
  | .mzero => if k < 8 then t.writeT r TReg.reset false else t.writeZ (idx 4 k) Acc.reset false
  | _ => t

/-- Writes the due results of path operations in issue order; of two results in one register the later-issued stands (R15). -/
def Tile.pathWrites (t : Tile) : List PathOp → Tile
  | [] => t
  | o :: r =>
    let live := o.targets.filter fun k => !r.any fun x => x.targets.contains k
    (live.foldl (fun t k => t.pathWrite o k) t).pathWrites r

/-- ORs the flags of a readout, under ZCTL.SAT `sat`, into its zs registers on issue + 7 (R213, R170). -/
def Tile.readoutFlags (t : Tile) (psc : Nat) (sat : Bool) : Tile :=
  t.apath.foldl (fun t o =>
    if o.issue + 7 == psc then
      let fl := (o.underSat sat).zflags
      let t1 := t.orZs o.flagsTo fl
      match o.zo with
      | some z => t1.orZs z fl
      | none => t1
    else t) t

/-- The flags of a readout that have been ORed are no longer pending (R347). -/
def PathOp.flagsDone (psc : Nat) (o : PathOp) : PathOp := if o.issue + 7 == psc then { o with zflags := 0#6, satFlags := 0#6 } else o

/-- DUE_RESULT_WRITE (R15): the results due in a tile on this cycle are written, by issue cycle and then by slot. A readout is governed by ZCTL as it
stood before the writes of the cycle (R170). -/
def execDueResultWrite (n : Fin 128) (s : State) : Result :=
  let psc := s.dev.psc n
  let t := s.dev.tiles[n]
  let sat := t.sr.zctl.getLsbD 0
  let due := sortBy Flight.order (t.flight.filter fun f => f.due == psc)
  let isDue := fun (o : PathOp) => o.due == some psc
  let paths := sortBy PathOp.issue (((t.tpath ++ t.apath).filter isDue).map fun o => o.underSat sat)
  .next (s.onDev fun d =>
    let d1 := (lastResults due).foldl (fun d f => d.writeDue n f) d
    d1.onTile n fun t =>
      let t1 := due.foldl Tile.dueStatus t
      let t2 := (t1.pathWrites paths).readoutFlags psc sat
      { t2 with flight := t2.flight.filter fun f => f.due != psc || f.act != .none
                tpath := t2.tpath.filter fun o => !isDue o
                apath := (t2.apath.filter fun o => !isDue o).map (PathOp.flagsDone psc) })

/-! Timed accesses -/

/-- The tile-local place of a timed access. -/
def timedPlace (sp : Space) (a : Nat) : Loc :=
  match sp with
  | .tsp => .tsp (a / 65536) (a % 65536)
  | _ => .vault a

/-- The address that an address word gives: tile-local, or an offset into the idle half. -/
def Space.word (s : Space) (a : Nat) : Nat := if s == .vault then 0x1000000 + a else a

/-- The 8 bytes at a tile-local place as a word. -/
def Dev.locWord (d : Dev) (n : Fin 128) (l : Loc) : W64 := BitVec.ofNat 64 (leNat (d.locBytes n l 8))

/-- The loads of this cycle for one entry (R224): a load takes its value and keeps the place of it; a read for a beat fills the beat. -/
def Dev.performRead (d : Dev) (n : Fin 128) (psc : Nat) (f : Flight) : Dev × Flight :=
  match f.act with
  | .read perf sp a dk =>
    if perf = psc then
      let l := timedPlace sp a
      let len := codeBytes dk
      let r := (d.locEcc n l len, d.locBytes n l len, d.locBad n l len)
      let f1 := { f with value := extend dk r.2.1, poison := f.poison || r.2.2, act := .none, loc := sp.word a }
      match f.dest, d.panelOf n with
      | .beat _, some p =>
        let rank := d.tiles[n].rank
        let fill := fun (b : Beat) =>
          if b.src == rank && b.issue + 2 == perf then { b with data := f1.value, poison := f1.poison } else b
        (r.1.onPanel p.handle fun p => { p with beats := p.beats.map fill }, f1)
      | _, _ => (r.1, f1)
    else (d, f)
  | _ => (d, f)

/-- Performs the writes of this cycle for one entry (R224, R237, R244). An atomic takes the word as it stands at its write as the old one, so that no
write comes between its read and its write (R231, R277, R280). DEDUCED: log entry 68. -/
def Dev.performWrite (d : Dev) (n : Fin 128) (psc : Nat) (f : Flight) : Dev × Flight :=
  match f.act with
  | .write perf sp a size v =>
    if perf = psc then
      let f1 := { f with act := .none }
      if f.pdrop then (d.onTile n Tile.dropPoisoned, f1)
      else if size = 0 then (d, f1)
      else
        match sp with
        | .isp => (d.idleWrite n a (leBytes size v.toNat), f1)
        | _ => (d.locWrite n (timedPlace sp a) (leBytes size v.toNat), f1)
    else (d, f)
  | .rmw perf sp a op v c _ =>
    if perf + 1 = psc then
      let old := d.locWord n (timedPlace sp a)
      let f1 := { f with act := .none, value := old.setWidth 1024 }
      if amoStores op old c then (d.locWrite n (timedPlace sp a) (leBytes 8 (amoNew op old v c).toNat), f1) else (d, f1)
    else (d, f)
  | _ => (d, f)

/-- The reads of the atomics of this cycle, for one entry (R224): after the writes of the cycle, since no write may come between the read and the write of
an atomic (R231, R280). DEDUCED: log entry 68. With it an acquire or release at `.dev` or `.sys` gives up the unsnooped host lines (R296). -/
def Dev.readAtomic (d : Dev) (n : Fin 128) (psc : Nat) (f : Flight) : Dev × Flight :=
  match f.act with
  | .amo perf sp a op v c ord =>
    if perf = psc then
      let l := timedPlace sp a
      let d1 := d.locEcc n l 8
      (if (ord.acq || ord.rel) && decide (3 ≤ ord.scope) then (d1.boltOf n).elim d1 d1.flushHost else d1,
       { f with value := (d.locWord n l).setWidth 1024, poison := f.poison || d.locBad n l 8, loc := sp.word a, act := .rmw perf sp a op v c ord })
    else (d, f)
  | _ => (d, f)

/-- Whether an entry has nothing left to do: its access has performed, and it writes no register and has no flag or status to set. -/
def Flight.spent (f : Flight) : Bool :=
  f.act == .none && f.flags == 0#6 && !f.pzero && match f.dest with
    | .none | .beat _ => true
    | _ => false

/-- Applies a device operation to each entry of a list in turn. -/
def overList {α : Type} (f : Dev → α → Dev × α) : List α → Dev → Dev × List α
  | [], d => (d, [])
  | x :: r, d =>
    let y := f d x
    let z := overList f r y.1
    (z.1, y.2 :: z.2)

/-- Reads the TSP source of an `sndr` on its cycle, with the scale bytes of an MXFP8 source, under the bank's format of that cycle (R247, R74,
R111). -/
def Dev.sndrRead (d : Dev) (n : Fin 128) (psc : Nat) (o : MemOp) : Dev × MemOp :=
  if o.tspRead == some psc then
    let bank := o.data2.toNat / 65536 % 16
    let off := o.data2.toNat % 65536
    let bfmt := d.tiles[n].sr.bfmt[idx 16 bank]
    let fmt := bfmtFmt bfmt
    let scale := fun i => bankKey n bfmt bank (scaleOff fmt (off + 32 * i))
    let scales := if o.rty = 3#2 then
        BitVec.ofNat 32 (sumList ((List.range 4).map fun i => (d.byte (scale i)).toNat * 256 ^ i)) else 0#32
    let bad := d.bankBad n bfmt bank off 128 || (o.rty == 3#2 && (List.range 4).any fun i => d.bad (scale i) 1)
    (d.bankEcc n bfmt bank off 128,
     { o with data := BitVec.ofNat 1024 (leNat (d.bankBytes n bfmt bank off 128)), scales := scales, srcFmt := BitVec.ofNat 4 fmt,
              poison := o.poison || bad, tspRead := none })
  else (d, o)

/-- Performs the access that a path operation has on this cycle (R198, R214), if it is of the given direction, under ZCTL.SAT `sat`. -/
def Dev.pathAccess (n : Fin 128) (psc : Nat) (reads sat : Bool) (d : Dev) (o : PathOp) : Dev × PathOp :=
  if o.accesses && o.reads == reads && decide (o.first ≤ psc) && decide (psc < o.first + o.cnt) then
    d.performPath n o (psc - o.first) sat
  else (d, o)

/-- Whether a path operation that writes no register has ended. -/
def PathOp.ended (o : PathOp) (psc : Nat) : Bool := o.due.isNone && decide (o.lastWrite ≤ psc)

/-- TIMED_ACCESS_PERFORM (R224): the timed accesses of a tile on this cycle, reads before writes. ZCTL governs a readout as it stood before the cycle
(R170). -/
def execTimedAccessPerform (n : Fin 128) (s : State) : Result :=
  let psc := s.dev.psc n
  let sat := (s.start.tiles[n]).sr.zctl.getLsbD 0
  .next (s.onDev fun d =>
    let t := d.tiles[n]
    let fr := overList (fun d f => d.performRead n psc f) t.flight d
    let ops := overList (fun d o => d.sndrRead n psc o) t.ops fr.1
    let tr := overList (Dev.pathAccess n psc true sat) t.tpath ops.1
    let ar := overList (Dev.pathAccess n psc true sat) t.apath tr.1
    let fw := overList (fun d f => d.performWrite n psc f) fr.2 ar.1
    let tw := overList (Dev.pathAccess n psc false sat) tr.2 fw.1
    let aw := overList (Dev.pathAccess n psc false sat) ar.2 tw.1
    let at_ := overList (fun d f => d.readAtomic n psc f) fw.2 aw.1
    let put := fun (t : Tile) =>
      { t with flight := at_.2.filter fun f => !f.spent
               ops := ops.2
               tpath := tw.2.filter fun o => !o.ended psc
               apath := aw.2.filter fun o => !o.ended psc }
    (at_.1.onTile n put).settleFences n)

/-! Landing slots -/

/-- A landing write: it counts as the result of the operation that asked for it (R38, R235, R236). -/
def Land.write (l : Land) (psc : Nat) (v : VReg) (poison : Bool) : Flight :=
  Flight.result l.issue l.slot psc l.dest v poison

/-- LANDING_DUE (R38): a landing slot on its due cycle. An FRZ slot without data freezes the panel before the cycle begins (R35) and is
unchanged here. -/
def execLandingDue (n : Fin 128) (ls : Fin 64) (s : State) : Result :=
  let psc := s.dev.psc n
  .next (s.onDev fun d => d.onTile n fun t =>
    let l := t.lands[ls]
    let set := fun (t : Tile) (x : LandSt) => { t with lands := t.lands.set ls { t.lands[ls] with st := x } }
    if l.due != psc then t
    else match l.st with
      | .held => set (t.push (l.write psc l.data l.poison)) .free
      | .failed => set ((t.push (l.write psc 0#1024 true)).setTstat 3) .free
      | .wait => if l.psn then set ((t.push (l.write psc 0#1024 true)).setTstat 2) .late else t
      | _ => t)

/-- Data for a landing slot (R38): WAIT becomes HELD and LATE becomes READY. -/
def Land.arrive (l : Land) (data : VReg) (poison : Bool) : Land :=
  match l.st with
  | .wait => { l with st := .held, data := data, poison := poison }
  | .late => { l with st := .ready, data := data, poison := poison }
  | _ => l

/-- The end of a request without data (R36, R38). -/
def Land.noData (l : Land) : Land :=
  match l.st with
  | .wait | .late => { l with st := .failed }
  | _ => l

/-- LANDING_ARRIVAL (R38): the answer of a performed request reaches its slot, and the request is done. -/
def execLandingArrival (n : Fin 128) (ls : Fin 64) (s : State) : Result :=
  .next (s.onDev fun d =>
    match d.tiles[n].ops.findIdx? fun o => o.stage == .performed && o.ls == some ls with
    | none => d
    | some i =>
      match d.tiles[n].ops[i]? with
      | none => d
      | some o =>
        let put := fun (l : Land) => if o.failed then l.noData else l.arrive o.data o.poison
        (d.onTile n fun t => { t with lands := t.lands.set ls (put t.lands[ls]) }).dropOp n i)

/-! Beats -/

/-- The late illegal-operand trap of the timed exchange (R246): detail 9, with the address and PSC of the send. -/
def lateBeat (p : Panel) (rank : Nat) (b : Beat) : Raise :=
  { tile := p.tile rank, cause := causeIllop, detail := 9, slot := 7, faddr := b.faddr, code := 0#17, ea := 0#64, spsc := b.issue,
    late := true }

/-- The same send: its arms share a link by R245. -/
def Beat.sameSend (a b : Beat) : Bool := a.src == b.src && a.issue == b.issue

/-- Whether a beat loses its link on this cycle to another: to a lower-ranked sender, or to an earlier send (R246). -/
def Beat.loses (b : Beat) (l : List Beat) (psc : Nat) : Bool :=
  match b.link psc with
  | none => false
  | some k => l.any fun x => x.link psc == some k && !x.sameSend b
      && (decide (x.src < b.src) || (x.src == b.src && decide (x.issue < b.issue)))

/-- Whether device coordinates lie in a valid rectangle of R350. -/
def inSelvedge (v : W64) (n : Fin 128) : Bool :=
  let x := n.val % 16
  let y := n.val / 16
  !v.getLsbD 14 || (decide (fieldOf v 0 4 ≤ x) && decide (x ≤ fieldOf v 4 4) && decide (fieldOf v 8 3 ≤ y) && decide (y ≤ fieldOf v 11 3))

/-! What a router sees of its neighbours (R10, R422) -/

/-- The torus neighbour of a tile: E, S, W, N. -/
def neighbour (n : Fin 128) (d : Fin 4) : Fin 128 :=
  let x := n.val % 16
  let y := n.val / 16
  match d with
  | 0 => tileAt (x + 1) y
  | 1 => tileAt x (y + 1)
  | 2 => tileAt (x + 15) y
  | 3 => tileAt x (y + 7)

/-- Changes what a router knows of one neighbour. -/
def Router.onNbr (r : Router) (k : Fin 4) (f : Nbr → Nbr) : Router := { r with nbr := r.nbr.set k (f r.nbr[k]) }

/-- Length of the counting window, and life of a vote, in ns (R422, R424). -/
def voteNs : Nat := 16384

/-- Adds an event to a window. -/
def noteTime (l : List Nat) (dcc : Nat) : List Nat := (l.filter fun t => decide (dcc < t + voteNs)) ++ [dcc]

/-- Whether a tile lies in the PANEL that a neighbour announced, in the layout of SVPANEL (R350, R420). One that announced no rectangle bounds
nothing. DESIGN CHOICE: log entry 82. -/
def inPanel (panel : BitVec 15) (t : Fin 128) : Bool :=
  let x := t.val % 16
  let y := t.val / 16
  !panel.getLsbD 14 || (decide (fieldOf panel 0 4 ≤ x) && decide (x ≤ fieldOf panel 4 4) && decide (fieldOf panel 8 3 ≤ y)
    && decide (y ≤ fieldOf panel 11 3))

/-- The background beats that an announced RATE allows in 64 cycles: 0 acts as 64 (R350). -/
def rateLimit (rate : Nat) : Nat := if rate = 0 then 64 else rate

/-- What one neighbour's record becomes by what is seen on its link: a span over its RATE, a malformed flit, or a panel flit that leaves its PANEL, is
counted in its window (R422); anything else is not. -/
def Nbr.see (x : Nbr) (c : Babble) (dcc : Nat) : Nbr :=
  match c with
  | .span beats => if rateLimit x.rate < beats then { x with overRate := noteTime x.overRate dcc, good := 0 } else x
  | .malformed => { x with malformed := noteTime x.malformed dcc, good := 0 }
  | .panelFlit dest => if inPanel x.panel dest then x else { x with outside := noteTime x.outside dcc, good := 0 }

/-- The babbling CAUSE that the events in a neighbour's windows amount to, with their thresholds (R422, R426). -/
def Nbr.babbles (x : Nbr) (dcc : Nat) : Option (BitVec 2) :=
  let now := fun (l : List Nat) => (l.filter fun t => decide (dcc < t + voteNs)).length
  if 4 ≤ now x.overRate then some 2#2
  else if 16 ≤ now x.malformed ∨ 4 ≤ now x.outside then some 3#2
  else none

/-- Whether panel flits that leave its PANEL amount to suspicion of a neighbour that is not suspected yet (R422). -/
def Nbr.strays (x : Nbr) (dcc : Nat) : Bool := decide (4 ≤ x.outside.length) && !x.susp && (x.babbles dcc).isSome

/-- The router next after rank `src` on the way to rank `dst` sees a panel flit of its neighbour at `src` (R422). -/
def Dev.noteFlit (d : Dev) (p : Panel) (src dst : Nat) : Dev :=
  match (p.route src dst).head? with
  | none => d
  | some r =>
    (List.finRange 4).foldl (fun d k =>
      if neighbour (p.tile r) k == p.tile src then d.onRouter (p.tile r) fun x => x.onNbr k fun y => y.see (.panelFlit (p.tile dst)) d.dcc
      else d) d

/-- The ranks that a beat goes to. -/
def Beat.ends (b : Beat) : List Nat := if b.each then b.route else b.route.getLast?.toList

/-- The beats that leave their sender on this cycle are seen by the next router (R422). -/
def Dev.noteBeats (d : Dev) (p : Panel) (l : List Beat) (psc : Nat) : Dev :=
  (l.filter fun b => (b.link psc).any fun k => k.1 == b.src).foldl (fun d b => b.ends.foldl (fun d r => d.noteFlit p b.src r) d) d

/-- Whether the router that a beat leaves on this cycle drops it (R351). -/
def Dev.selDrops (d : Dev) (p : Panel) (b : Beat) (psc : Nat) : Bool :=
  match b.link psc with
  | none => false
  | some k =>
    let r := d.routers[p.tile k.1]
    !(inSelvedge r.svbolt (p.tile k.2) && inSelvedge r.svpanel (p.tile k.2))

/-- The ranks at which a beat arrives on this cycle. -/
def Beat.ranks (b : Beat) (p : Panel) (psc : Nat) : List Nat := (List.range p.size).filter fun r => b.arrives r psc

/-- Keeps the first beat of each send. -/
def firstOfSend : List Beat → List Beat
  | [] => []
  | b :: r => b :: (firstOfSend r).filter fun x => !x.sameSend b

/-- BEAT_ARRIVAL (R242, R246, R351): the beats of a panel on one cycle. Of two beats that need one link the later loses; a router
drops a beat that leaves its selvedge; a beat that arrives unclaimed, or with another discarded at a freeze, raises the trap in its
receiver. -/
def execBeatArrival (h : Nat) (s : State) : Result :=
  .next (s.onDev fun d =>
    match d.panel h with
    | none => d
    | some p =>
      let psc := p.psc
      let lost := p.beats.filter fun b => b.loses p.beats psc
      let kept := p.beats.filter fun b => !b.loses p.beats psc
      let dropped := kept.filter fun b => d.selDrops p b psc
      let live := kept.filter fun b => !d.selDrops p b psc
      let conflicts := (firstOfSend lost).map fun b => lateBeat p b.src b
      let arrivals := live.flatMap fun b => ((b.ranks p psc).filter fun r => !b.taken.contains r || b.extra.contains r).map fun r => lateBeat p r b
      let d1 := d.onPanel h fun p => { p with beats := live.filter fun b => decide (psc < b.last) }
      let d2 := dropped.foldl (fun d b => d.countTile (p.tile ((b.link psc).elim b.src Prod.fst)) 0 1) d1
      let d3 := d2.noteBeats p live psc
      { d3 with raised := d3.raised ++ conflicts ++ arrivals })

/-! Barriers -/

/-- The mask of a group (R45); group 0 names none. -/
def Tile.groupMask (t : Tile) (g : Fin 8) : BitVec 128 := if g = 0 then 0#128 else t.sr.gm[idx 7 (g.val - 1)]

/-- The checks of R46 on a tile's own mask. -/
def Dev.badMask (d : Dev) (p : Panel) (n : Fin 128) (g : Fin 8) : Bool :=
  let m := d.tiles[n].groupMask g
  m == 0#128 || !m.getLsbD d.tiles[n].rank || decide (2 ^ p.size ≤ m.toNat)
    || p.tiles.any fun k => match d.tiles[k].c.held with
        | some x => x.group == g && x.mask != m
        | none => false

/-- BARRIER_ARRIVAL (R45, R46): a tile reaches a sync bundle; it is held from this cycle on, or raises the illegal-operand trap. Tiles that arrive on
one cycle do so in rank order, so that of two whose masks differ the higher rank traps. DESIGN CHOICE: log entry 86. -/
def execBarrierArrival (n : Fin 128) (g : Fin 8) (s : State) : Result :=
  .next (s.onDev fun d =>
    match d.panelOf n with
    | none => d
    | some p =>
      let t := d.tiles[n]
      if d.badMask p n g then
        let r : Raise := { tile := n, cause := causeIllop, detail := 4, slot := 0, faddr := t.c.pc, code := 0#17, ea := 0#64, spsc := 0,
                           late := false }
        { d with raised := d.raised ++ [r] }
      else
        d.onTile n fun t => { t with c := { t.c with held := some { group := g, mask := t.groupMask g, cycles := 1, release := none } } })

/-- BARRIER_RELEASE (R45): on the fourth cycle after the last arrival, every tile held on the group with that release issues its sync
bundle. -/
def execBarrierRelease (h : Nat) (g : Fin 8) (s : State) : Result :=
  .next (s.onDev fun d =>
    match d.panel h with
    | none => d
    | some p => p.tiles.foldl (fun d n => d.onTile n fun t =>
        match t.c.held with
        | some x => if x.group == g && x.release == some p.psc then { t with c := { t.c with held := none, passed := true } } else t
        | none => t) d)

/-! The timing fault -/

/-- The key of the header at a fetch address, past line pads (R121). -/
def headerKey (d : Dev) (key : Nat → Option Nat) : Nat → Nat → Option Nat
  | 0, _ => none
  | fuel + 1, pc =>
    match key pc with
    | none => none
    | some k => if d.word k = 0#32 then headerKey d key fuel (pc / 64 * 64 + 64) else some k

/-- Whether a tile waits in a `tkw` (R155): its next bundle holds one, with a true guard, that names a PENDING token. -/
def Dev.waitsInTkw (d : Dev) (n : Fin 128) : Bool :=
  let t := d.tiles[n]
  t.ready && t.toks.any (fun k => k.st == .pending) &&
    match headerKey d (ispAddr n t) fetchFuel t.c.pc.toNat with
    | none => false
    | some k =>
      let h := d.word k
      let w := d.word (k + 4)
      (fieldOf h 8 3 == 0 || t.c.passed) && h.getLsbD 0 && fieldOf w 26 6 == 13
        && ((fieldOf w 22 3 == 0 || t.r.p.getLsbD (fieldOf w 22 3)) != w.getLsbD 25)
        && (t.toks[idx 32 (fieldOf w 0 5)]).st == .pending

/-- The rank in which R44 raises a timing fault with these subcauses. -/
def Dev.timingRank (d : Dev) (p : Panel) (sub : BitVec 4) : Nat :=
  let first := fun (f : Fin 128 → Bool) => ((List.range p.size).find? fun r => f (p.tile r)).getD 0
  if sub.getLsbD 0 then first fun n => d.tiles[n].landFreeze p.psc
  else if sub.getLsbD 1 then first fun n => d.waitsInTkw n
  else if sub.getLsbD 2 then first fun n => d.tiles[n].c.held.any fun x => decide (p.pstall < x.cycles)
  else 0

/-- TIMING_FAULT (R43, R44): the cause is raised in the tile that R44 chooses, with the mask of its subcauses; the panel freezes for the
trap when the issue of the cycle closes. -/
def execTimingFault (h : Nat) (sub : BitVec 4) (s : State) : Result :=
  .next (s.onDev fun d =>
    match d.panel h with
    | none => d
    | some p =>
      let n := p.tile (d.timingRank p sub)
      let r : Raise := { tile := n, cause := causeTiming, detail := sub.toNat, slot := 0, faddr := d.tiles[n].c.pc, code := 0#17,
                         ea := 0#64, spsc := 0, late := false }
      { d with raised := d.raised ++ [r] })

end Sys2Proof.Machine
end

