-- ==== Sys2Proof/Machine/Perform.lean ====
section
/-! DEFINITION. Variable-latency operations at their point: global accesses at their slice (R116, R226–R239), lateral accesses at the
target vault (R228), acceptance of outbound operations (R234), reduce-at-receive (R87, R248), semaphore increments (R249), and far
messages (R252, R253, R416–R419). -/

namespace Sys2Proof.Machine

/-- The kind of access that an operation translates for. -/
def MKind.access : MKind → AccKind
  | .ldg | .pref => .read
  | .amoG => .atomic
  | _ => .write

/-- Whether a tile's variable-latency work goes on: its panel runs or is frozen, but is not being loaded, saved or restored (R34, R338). -/
def Dev.working (d : Dev) (n : Fin 128) : Bool :=
  match d.panelOf n with
  | none => false
  | some p => match p.phase with
    | .loading | .saving | .restoring => false
    | _ => true

/-- Where a tile's DVA leads, without effect on any cache: LOC and the address (R382). -/
def Dev.leadsTo (d : Dev) (n : Fin 128) (o : MemOp) : Option (BitVec 2 × Nat) :=
  (d.boltOf n).bind fun b =>
    match (d.translate b (some n) (quadOf n) (d.tileAsker n).space o.addr.toNat o.kind.access).2 with
    | .leaf lvl pte => some (BitVec.ofNat 2 (pteLoc pte), pteAddr pte + o.addr.toNat % 2 ^ levelShift lvl)
    | .fault _ _ _ => none

/-- Whether an earlier global access comes before another because both reach one location through different pages (R229, R284). -/
def Dev.aliasOf (d : Dev) (n : Fin 128) (e o : MemOp) : Bool :=
  o.kind.isGlobal && e.kind.isGlobal && decide (e.issue < o.issue) && e.stage != .performed && e.addr.toNat / 4096 != o.addr.toNat / 4096
      && decide (e.addr.toNat % 4096 < o.addr.toNat % 4096 + o.size) && decide (o.addr.toNat % 4096 < e.addr.toNat % 4096 + e.size)
      && (match d.leadsTo n e, d.leadsTo n o with
        | some x, some y => x.1 == y.1 && x.2 / 4096 == y.2 / 4096
        | _, _ => false)

/-- Whether an operation of a tile may be performed now. -/
def Dev.mayGo (d : Dev) (n : Fin 128) (o : MemOp) : Bool :=
  let t := d.tiles[n]
  d.working n && t.mayPerform o && o.wait.free && !t.ops.any (fun e => d.aliasOf n e o) && !d.postedHolds n o

/-- Operation `i` of a tile when it may be performed now. -/
def Dev.ready (d : Dev) (n : Fin 128) (i : Nat) : Option MemOp := (d.tiles[n].ops[i]?).filter fun o => d.mayGo n o

/-- The request of operation `i` has been performed, and its answer is on the way. -/
def Dev.answer (d : Dev) (n : Fin 128) (i : Nat) (o : MemOp) (data : VReg) (poison : Bool) : Dev :=
  (d.setOp n i { o with stage := .performed, data := data, poison := poison, wait := .no }).settleFences n

/-- An operation ends without effect after an unrecoverable fault (R387): a store is dropped and counted, a load or atomic leaves its
slot without data. -/
def Dev.endFailed (d : Dev) (n : Fin 128) (i : Nat) (o : MemOp) : Dev :=
  if o.ls.isSome then (d.setOp n i { o with stage := .performed, failed := true, wait := .no }).settleFences n
  else if o.kind == .pref then d.dropOp n i
  else (d.countTile n 3 1).dropOp n i

/-! Global accesses -/

/-- Whether an operation is performed at `.dev` or `.sys`. -/
def MemOp.wide (o : MemOp) : Bool := o.strong && decide (3 ≤ o.scope)

/-- A global access at the slice of its line (R116, R226, R227, R230–R232, R238, R239). A release at `.dev` or `.sys` first writes the
bolt's unsnooped host lines back, and an acquire gives them up, so that later loads miss no write that happens before them (R290, R296). -/
def Dev.performGlobal (d : Dev) (b : Fin 32) (n : Fin 128) (i : Nat) (o : MemOp) (key : Nat) : Dev :=
  let d0 := if (o.rel || o.acq) && decide (3 ≤ o.scope) then d.flushHost b else d
  let space := (d.tileAsker n).space
  match o.kind with
  | .ldg =>
    let r := d0.pointRead b key o.size o.hint (o.wide || o.past)
    r.1.answer n i o (BitVec.ofNat 1024 (leNat r.2)) (d.bad key o.size)
  | .amoG =>
    let r := d0.pointRead b key 8 0#2 o.wide
    let old : W64 := BitVec.ofNat 64 (leNat r.2)
    let new := amoNew o.amo old (o.data.setWidth 64) o.data2
    let e := if amoStores o.amo old o.data2 then (r.1.pointWrite b key (leBytes 8 new.toNat) 0#2 o.wide).ownLine b key space else r.1
    e.answer n i o (old.setWidth 1024) (d.bad key 8)
  | .zline => ((d0.pointWrite b key (leBytes 128 0) 0#2 false).ownLine b key space).dropOp n i
  | .pref => (d0.slcLoad (d0.sliceOf b key) (key / 128) o.hint).dropOp n i
  | _ => ((d0.pointWrite b key (leBytes o.size o.data.toNat) o.hint o.wide).ownLine b key space).dropOp n i

/-- GLOBAL_ACCESS_PERFORM (R116, R382, R387): the access is translated and performed, waits on a fault or a host translation, or ends. -/
def execGlobalAccessPerform (n : Fin 128) (i : Nat) (s : State) : Result :=
  .next (s.onDev fun d =>
    match d.ready n i, d.boltOf n with
    | some o, some b =>
      if o.kind.isGlobal || o.kind == .pref then
        let a := { d.tileAsker n with slot := o.ls.elim 0xff Fin.val, held := o.wait }
        match d.reach b a o.addr.toNat o.kind.access (o.kind != .pref) with
        | (d1, .point key) => d1.performGlobal b n i o key
        | (d1, .wait w) => if o.kind == .pref then d1.dropOp n i else d1.setOp n i { o with wait := w }
        | (d1, .fail) => d1.endFailed n i o
      else d
    | _, _ => d)

/-! Panel traffic in the background -/

/-- The first router that drops background traffic of a panel from one rank to another (R351). -/
def Dev.routeDrop (d : Dev) (p : Panel) (a b : Nat) : Option (Fin 128) :=
  let hops := (a :: p.route a b).zip (p.route a b)
  (hops.find? fun h =>
    let r := d.routers[p.tile h.1]
    !(inSelvedge r.svbolt (p.tile h.2) && inSelvedge r.svpanel (p.tile h.2))).map fun h => p.tile h.1

/-- A flit of a lateral access is dropped: a request ends without data, a store without effect. -/
def Dev.endLateral (d : Dev) (n : Fin 128) (i : Nat) (o : MemOp) : Dev :=
  if o.ls.isSome then (d.setOp n i { o with stage := .performed, failed := true }).settleFences n else d.dropOp n i

/-- LATERAL_ACCESS_PERFORM (R228, R230): a lateral access is performed at the target vault, which lies in the issuer's panel. An atomic that is an acquire
or a release at `.dev` or `.sys` gives up the unsnooped host lines of the bolt, written back (R287, R290, R291, R296). -/
def execLateralAccessPerform (n : Fin 128) (i : Nat) (s : State) : Result :=
  .next (s.onDev fun d =>
    match d.ready n i, d.panelOf n with
    | some o, some p =>
      match o.kind, locate p.size (o.addr.toNat % 2 ^ 32) o.size with
      | k, some (.lateral rank off) =>
        if k != .ldv && k != .stv && k != .amoV then d else
        let src := d.tiles[n].rank
        let key := vaultKey (p.tile rank) off
        let d00 := d.noteFlit p src rank
        let d0 := if k == .amoV && (o.rel || o.acq) && decide (3 ≤ o.scope) then d00.flushHost p.bolt else d00
        let e := d0.ecc (some p.bolt) key o.size
        match d.routeDrop p src rank, d.routeDrop p rank src with
        | some r, _ => (d00.countTile r 0 1).endLateral n i o
        | none, some r =>
          if k == .stv then (e.write key (leBytes o.size o.data.toNat)).dropOp n i else (d00.countTile r 0 1).endLateral n i o
        | none, none =>
          match k with
          | .ldv => e.answer n i o (BitVec.ofNat 1024 (leNat (d.bytes key o.size))) (d.bad key o.size)
          | .amoV =>
            let old := d.dword key
            let new := amoNew o.amo old (o.data.setWidth 64) o.data2
            (if amoStores o.amo old o.data2 then e.write key (leBytes 8 new.toNat) else e).answer n i o (old.setWidth 1024) (d.bad key 8)
          | _ => (e.write key (leBytes o.size o.data.toNat)).dropOp n i
      | _, _ => d
    | _, _ => d)

/-! Reduce-at-receive (R87, R248) -/

/-- A 32-bit or bf16 lane of R87. -/
def reduceFloat (f : FFmt) (isMax : Bool) (x y : Nat) : Nat :=
  let a := decodeF f x
  let b := decodeF f y
  let v := if isMax then maxVal a b else addVal .rne a b
  (roundTo f .rne false v.1).1

/-- A lane of R87 in i32. -/
def reduceInt (isMax : Bool) (x y : Nat) : Nat :=
  if isMax then (if intVal true 32 x < intVal true 32 y then y else x) else (x + y) % 2 ^ 32

/-- One block of R87: the scale and elements of both, in their formats; the result is encoded in the second's. An element beyond the range of fp32
keeps its exact value until the sum or maximum is rounded. DESIGN CHOICE: log entry 73. -/
def reduceBlock (isMax : Bool) (ea eb : BElem) (sa sb : Nat) (as bs : List Nat) : Block :=
  let xs := (as.zip bs).map fun p =>
    let a := blockVal ea sa p.1
    let b := blockVal eb sb p.2
    let v := if isMax then maxVal a b else addVal .rne a b
    fp32 (toFp32 v.1).1
  encodeBlock xs eb

/-- What an addition leaves: the 128 bytes, the four scale bytes, NaN blocks and saturated elements. -/
structure Reduced where
  /-- The data. -/
  data : VReg
  /-- The scale bytes, for MXFP8. -/
  scales : W32
  /-- NaN blocks. -/
  nan : Nat
  /-- Saturated elements. -/
  sat : Nat
  deriving DecidableEq, Repr

/-- Combines incoming data with the target's (R87, R248). -/
def reduceData (rty : BitVec 2) (isMax : Bool) (srcFmt dstFmt : Nat) (x y : VReg) (sx sy : W32) : Reduced :=
  if rty = 3#2 then
    let els := fun (v : VReg) (k : Nat) => (List.range 32).map fun j => lane 8 v (32 * k + j)
    let blk := fun k => reduceBlock isMax (blockEl srcFmt) (blockEl dstFmt) (fieldOf sx (8 * k) 8) (fieldOf sy (8 * k) 8) (els x k) (els y k)
    let l := (List.range 4).map blk
    { data := ofLanes 8 (l.flatMap fun (b : Block) => b.els)
      scales := BitVec.ofNat 32 (l.foldr (fun (b : Block) acc => b.scale + 256 * acc) 0)
      nan := (l.filter fun (b : Block) => b.nan).length
      sat := sumList (l.map fun (b : Block) => b.sat) }
  else
    let w := if rty = 2#2 then 16 else 32
    let f := fun j =>
      let a := lane w x j
      let b := lane w y j
      if rty = 0#2 then reduceInt isMax a b else reduceFloat (if rty = 1#2 then .fp32 else .bf16) isMax a b
    { data := mapLanes w f, scales := 0#32, nan := 0, sat := 0 }

/-- Adds to XRNCNT and XRSCNT (R87). -/
def Tile.countReduce (t : Tile) (nan sat : Nat) : Tile :=
  { t with sr := { t.sr with xrncnt := BitVec.ofNat 32 (satAdd t.sr.xrncnt.toNat nan)
                             xrscnt := BitVec.ofNat 32 (satAdd t.sr.xrscnt.toNat sat) } }

/-- The addition of an `sndr` at its target tile (R248, R105), or each of the reasons for which it is skipped. -/
def Dev.addAt (d : Dev) (n : Fin 128) (o : MemOp) : Dev :=
  let a := o.addr.toNat % 2 ^ 20
  let bank := a / 65536
  let off := a % 65536
  let t := d.tiles[n]
  let bfmt := t.sr.bfmt[idx 16 bank]
  let fmt := bfmtFmt bfmt
  let wrong := o.rty == 3#2 && fmt != 0xd && fmt != 0xe
  if o.poison || t.owned bank || wrong then d.onTile n fun t =>
    let t1 := if o.poison then t.dropPoisoned else t
    let t2 := if t.owned bank then t1.setTstat 5 else t1
    if wrong then t2.countReduce 4 0 else t2
  else
    let scaleKey := fun i => bankKey n bfmt bank (scaleOff fmt (off + 32 * i))
    let sy : W32 := BitVec.ofNat 32 (sumList ((List.range 4).map fun i => (d.byte (scaleKey i)).toNat * 256 ^ i))
    let y : VReg := BitVec.ofNat 1024 (leNat (d.bankBytes n bfmt bank off 128))
    let r := reduceData o.rty o.isMax o.srcFmt.toNat fmt o.data y o.scales sy
    let d1 := (d.bankEcc n bfmt bank off 128).bankWrite n bfmt bank off (leBytes 128 r.data.toNat)
    let d2 := if o.rty = 3#2 then
        (List.range 4).foldl (fun d i => d.write (scaleKey i) [BitVec.ofNat 8 (fieldOf r.scales (8 * i) 8)]) d1 else d1
    d2.onTile n fun t => t.countReduce r.nan r.sat

/-- SNDR_ADDITION (R248): the addition at the target, then its semaphore is incremented. -/
def execSndrAddition (n : Fin 128) (i : Nat) (s : State) : Result :=
  .next (s.onDev fun d =>
    match d.ready n i, d.panelOf n with
    | some o, some p =>
      if o.kind == .sndr then
        match d.routeDrop p d.tiles[n].rank o.dst with
        | some r => (d.countTile r 0 1).dropOp n i
        | none => (((d.noteFlit p d.tiles[n].rank o.dst).addAt (p.tile o.dst) o).onTile (p.tile o.dst) fun t => t.addSem o.sem 1).dropOp n i
      else d
    | _, _ => d)

/-- SEMV_INCREMENT (R249): N is added to the semaphore at the target. -/
def execSemvIncrement (n : Fin 128) (i : Nat) (s : State) : Result :=
  .next (s.onDev fun d =>
    match d.ready n i, d.panelOf n with
    | some o, some p =>
      if o.kind == .semv then
        match d.routeDrop p d.tiles[n].rank o.dst with
        | some r => (d.countTile r 0 1).dropOp n i
        | none => ((d.noteFlit p d.tiles[n].rank o.dst).onTile (p.tile o.dst) fun t => t.addSem o.sem o.n).dropOp n i
      else d
    | _, _ => d)

/-! Far messages -/

/-- Whether a bolt's SPACL lists a device and bolt (R416). -/
def Dev.aclAllows (d : Dev) (b : Fin 32) (dev bolt : Nat) : Bool :=
  (d.mc.config.spacl[b]).any fun e => e.1 == dev && e.2.getLsbD bolt

/-- An outbound message as a data flit (R417); its SEQ is the port's. -/
def Dev.farFlit (d : Dev) (n : Fin 128) (b : Fin 32) (o : MemOp) (seq : Nat) : SeamFlit where
  seq := seq
  sdev := d.mc.config.spdev
  sbolt := b.val
  stile := n.val
  sem := o.sem
  big := o.size == 128
  far := o.addr
  data := o.data

/-- Nanoseconds of one period without an acknowledgement (R418). -/
def ackPeriod : Nat := 10000

/-- Bytes 0x00–0x97 of a data flit: TYPE 0, with ACKSEQ the last SEQ that its port has received in order (R417). -/
def SeamFlit.body (f : SeamFlit) (x : SeamPort) : BitVec 1216 :=
  packFields 1216 [(0x00, 2, f.seq % 4096), (0x02, 2, (x.rxSeq + 4095) % 4096), (0x04, 1, f.sdev), (0x05, 1, f.sbolt), (0x06, 1, f.stile),
    (0x07, 1, f.sem.val + 16 * b2n f.big), (0x08, 8, f.far.toNat), (0x18, 128, f.data.toNat)]

/-- The 176 bytes of a flit: its first 152, their MAC, and the CRC (R417). -/
def flitRaw (p : Fin 8) (b : BitVec 1216) : BitVec 1408 :=
  let l : BitVec 1376 := packFields 1376 [(0x00, 0x98, b.toNat), (0x98, 16, (Config.linkMac p b).toNat)]
  packFields 1408 [(0x00, 0xac, l.toNat), (0xac, 4, (crc32c (leBytes 0xac l.toNat)).toNat)]

/-- The 176 bytes of a data flit (R417). -/
def SeamFlit.raw (f : SeamFlit) (p : Fin 8) (x : SeamPort) : BitVec 1408 := flitRaw p (f.body x)

/-- Bytes 0x00–0x97 of a flit without data (R417): TYPE 1 for an acknowledgement, 2 for a NAK, whose SEQ is the expected one (log entry 81); its ACKSEQ
is the last SEQ received in order. -/
def SeamPort.control (x : SeamPort) (dev : Nat) (nak : Bool) : BitVec 1216 :=
  packFields 1216 [(0x00, 2, if nak then 0x2000 + x.rxSeq % 4096 else 0x1000), (0x02, 2, (x.rxSeq + 4095) % 4096), (0x04, 1, dev)]

/-- A seam port takes a new data flit (R417, R418). -/
def Dev.seamSend (d : Dev) (p : Fin 8) (f : SeamFlit) : Dev :=
  { d.onSeam p fun x =>
      { x with txSeq := (x.txSeq + 1) % 4096, replay := x.replay ++ [f],
               timer := if x.replay.isEmpty then d.dcc + ackPeriod else x.timer
               silent := if x.replay.isEmpty then 0 else x.silent } with
    outs := .flit p (f.raw p d.seams[p]) :: d.outs }

/-- Whether a port can take a new data flit now: it does not retrain, and fewer than 256 flits are unacknowledged. -/
def SeamPort.takes (x : SeamPort) : Bool := decide (x.replay.length < 256) && x.retrain.isNone

/-- A far message leaves its tile: it is checked and goes to its port, or crosses the fabric, and is under way, or it is dropped and counted
(R416, R418). None while its port cannot take it. -/
def Dev.sendFar (d : Dev) (n : Fin 128) (o : MemOp) : Option (Dev × Bool) :=
  let dev := farDev o.addr
  let drop := (d.onMc fun m => { m with spdrop := satAdd m.spdrop 1 }, false)
  match d.boltOf n with
  | none => some drop
  | some b =>
    if !d.aclAllows b dev (farBolt o.addr).val then some drop
    else if dev = d.mc.config.spdev then some ({ d with far := d.far ++ [d.farFlit n b o 0] }, true)
    else match d.mc.config.sproute[idx 256 dev] with
      | none => some drop
      | some p =>
        let x := d.seams[p]
        if !x.up then some drop
        else if x.takes then some (d.seamSend p (d.farFlit n b o x.txSeq), true)
        else none

/-- The operation of a far message ends: the message is at its target, or, for another device, acknowledged, or lost (R56, R418; log entry 75).
A cut that has moved since holds it in another tile (R298). -/
def Dev.endFar (d : Dev) (f : SeamFlit) : Dev :=
  let at_ := fun (n : Fin 128) => ((d.tiles[n]).ops.findIdx? f.isOf).map fun i => (n, i)
  if f.sdev ≠ d.mc.config.spdev then d
  else match (idx 128 f.stile :: List.finRange 128).findSome? at_ with
    | some x => d.dropOp x.1 x.2
    | none => d

/-- Ends the operations of several messages. -/
def Dev.endFars (d : Dev) (l : List SeamFlit) : Dev := l.foldl Dev.endFar d

/-- Whether the target may take an outbound operation of a tile now (R234, R240, R241, R252, R416). Stores to global memory are taken as they are
performed; far messages leave in issue order, and none while a timed acquire before it, an access to its location, or an operation with the placer that
a fence orders before it, is still to be performed (R231–R233, R284). -/
def Dev.mayTake (d : Dev) (n : Fin 128) (o : MemOp) : Bool :=
  let t := d.tiles[n]
  let first := !t.ops.any fun e => t.holds e o || (e.kind == .xfar && e.entry && decide (e.issue < o.issue))
  d.working n && o.entry && o.stage == .issued && (match o.kind with
    | .stv | .semv => true
    | .sndr => o.tspRead.isNone
    | .launch | .evpost => d.mayGo n o
    | .xfar => first && !t.timedHolds o && !d.postedHolds n o && (d.sendFar n o).isSome
    | _ => false)

/-- A `launch` or `evpost` is with the placer. -/
def Dev.post (d : Dev) (n : Fin 128) (i : Nat) (o : MemOp) (p : Panel) : Dev :=
  let x : Posted := { tile := n, bolt := p.bolt, vdev := p.vdev, launch := p.launch, cut := p.cut, op := { o with entry := false, stage := .accepted } }
  ({ d with posted := d.posted ++ [x] } : Dev).dropOp n i

/-- OUTBOUND_ACCEPT (R234): the target takes an outbound operation and its entry is free. -/
def execOutboundAccept (n : Fin 128) (i : Nat) (s : State) : Result :=
  .next (s.onDev fun d =>
    match (d.tiles[n].ops[i]?).filter fun o => d.mayTake n o with
    | none => d
    | some o =>
      let taken := { o with entry := false, stage := .accepted }
      match o.kind, d.panelOf n with
      | .xfar, _ =>
        match d.sendFar n o with
        | some (d1, true) => d1.setOp n i { taken with n := n.val }
        | some (d1, false) => d1.dropOp n i
        | none => d
      | .launch, some p => d.post n i o p
      | .evpost, some p => d.post n i o p
      | _, _ => d.setOp n i taken)

/-- Whether a tile runs a cut that takes far messages (R252, R338). -/
def Dev.takesFar (d : Dev) (n : Fin 128) : Bool := d.working n

/-- A far message at its target (R252, R416, R427): written and signalled, or dropped and counted. What comes from or goes to a fenced tile is dropped
for the fence first, whatever else would drop it. DESIGN CHOICE: log entry 76. -/
def Dev.deliverFar (d : Dev) (f : SeamFlit) : Dev :=
  let b := farBolt f.far
  let n := farTile f.far
  let size := if f.big then 128 else 8
  let drop := d.count b 10 1
  if farDev f.far ≠ d.mc.config.spdev then d.onMc fun m => { m with spdrop := satAdd m.spdrop 1 }
  else if (d.routers[n]).fence != 0 then d.count b 1 1
  else if f.sdev = d.mc.config.spdev ∧ (d.routers[idx 128 f.stile]).fence != 0 then d.countTile (idx 128 f.stile) 1 1
  else if !(d.boltValid b && d.boltHasQuad b (quadOf n)) || !d.aclAllows b f.sdev f.sbolt || !d.takesFar n then drop
  else
    let put := fun (l : Loc) =>
      (d.locWrite n l (leBytes size f.data.toNat)).onTile n fun t => t.addSem f.sem 1
    match locate 0 (fieldOf f.far 0 32) size with
    | some (.tsp bank off) => if d.tiles[n].owned bank then drop else put (.tsp bank off)
    | some (.vault off) => put (.vault off)
    | _ => drop

/-- Whether two messages run from one tile to one target tile (R419). -/
def SeamFlit.sameWay (a b : SeamFlit) : Bool :=
  a.sdev == b.sdev && a.sbolt == b.sbolt && a.stile == b.stile && farTile a.far == farTile b.far && farBolt a.far == farBolt b.far

/-- XFAR_DELIVERY (R252, R419): message `i` on its way inside the device, or, counting on from these, the oldest message in the receive
buffer of a seam port, reaches its target. A message waits behind an earlier one of the same tile to the same target. -/
def execXfarDelivery (i : Nat) (s : State) : Result :=
  .next (s.onDev fun d =>
    match d.far[i]? with
    | some f =>
      if (d.far.take i).any f.sameWay then d else ({ d with far := dropAt d.far i }.deliverFar f).endFar f
    | none =>
      if i < d.far.length + 8 then
        let p := idx 8 (i - d.far.length)
        match d.seams[p].rx with
        | f :: r => (d.onSeam p fun x => { x with rx := r }).deliverFar f
        | [] => d
      else d)

/-- XRCVF_TAKE (R253): the oldest pending receive on its semaphore takes one from the count and reads its bytes. At `.dev` that acquire gives up the
unsnooped host lines of the bolt (R290, R291, R296). -/
def execXrcvfTake (n : Fin 128) (i : Nat) (s : State) : Result :=
  .next (s.onDev fun d =>
    match d.ready n i with
    | some o =>
      let t := d.tiles[n]
      let first := !(t.ops.take i).any fun e => e.kind == .xrcvf && e.stage == .issued && e.sem == o.sem
      if o.kind == .xrcvf && first && decide (1 ≤ t.sr.sem[o.sem].toNat) then
        match locate 0 o.addr.toNat o.size with
        | some l =>
          let v : VReg := BitVec.ofNat 1024 (leNat (d.locBytes n l o.size))
          let e := d.locEcc n l o.size
          let e1 := if 3 ≤ o.scope then (d.boltOf n).elim e e.flushHost else e
          (e1.onTile n fun t => t.setSem o.sem (t.sr.sem[o.sem] - 1#32)).answer n i o v (d.locBad n l o.size)
        | none => d
      else d
    | none => d)

end Sys2Proof.Machine
end

