-- ==== Sys2Proof/Machine/Engine.lean ====
section
/-! DEFINITION. The copy engine's data path (R258–R271, R80): the fields of a transfer record, its checks at start, the ranges of a
chunk, its conversion, and reading and writing tagged addresses. -/

namespace Sys2Proof.Machine

/-! The transfer record (R258) -/

/-- A field of a transfer's record. -/
def Xfer.fld (x : Xfer) (off size : Nat) : Nat := recField x.record off size

/-- SRC. -/
def Xfer.src (x : Xfer) : Nat := x.fld 0x00 8
/-- DST. -/
def Xfer.dst (x : Xfer) : Nat := x.fld 0x08 8
/-- NELEM. -/
def Xfer.nelem (x : Xfer) : Nat := x.fld 0x10 4
/-- NROW. -/
def Xfer.nrow (x : Xfer) : Nat := x.fld 0x14 4
/-- SPITCH. -/
def Xfer.spitch (x : Xfer) : Nat := x.fld 0x18 4
/-- DPITCH. -/
def Xfer.dpitch (x : Xfer) : Nat := x.fld 0x1c 4
/-- SFMT. -/
def Xfer.sfmt (x : Xfer) : Nat := x.fld 0x20 1 % 16
/-- DFMT. -/
def Xfer.dfmt (x : Xfer) : Nat := x.fld 0x20 1 / 16
/-- CTL. -/
def Xfer.ctl (x : Xfer) : Nat := x.fld 0x21 1
/-- The scope that CTL names, as a scope of MemOp. -/
def Xfer.scope (x : Xfer) : Nat := field x.ctl 4 2 + 1
/-- SAT. -/
def Xfer.sat (x : Xfer) : Bool := bit x.ctl 2
/-- RM (R65). -/
def Xfer.rm (x : Xfer) : RMode :=
  match field x.ctl 0 2 with
  | 0 => .rne
  | 1 => .rtz
  | 2 => .rdn
  | _ => .rup
/-- SHINT. -/
def Xfer.shint (x : Xfer) : BitVec 2 := BitVec.ofNat 2 (x.fld 0x22 1)
/-- DHINT. -/
def Xfer.dhint (x : Xfer) : BitVec 2 := BitVec.ofNat 2 (x.fld 0x22 1 / 4)
/-- The number of consumed tokens. -/
def Xfer.nwait (x : Xfer) : Nat := x.fld 0x23 1 % 4
/-- AUX. -/
def Xfer.aux (x : Xfer) : Nat := x.fld 0x28 8
/-- PARAM. -/
def Xfer.param (x : Xfer) : Nat := x.fld 0x30 8
/-- TAG. -/
def Xfer.tag (x : Xfer) : W64 := BitVec.ofNat 64 (x.fld 0x38 8)

/-- Whether both sides are moved as raw bytes (R260). -/
def Xfer.raw (x : Xfer) : Bool := x.sfmt == 0 || x.dfmt == 0

/-- The format in which the source is read. -/
def Xfer.sc (x : Xfer) : Nat := if x.raw then 0 else x.sfmt
/-- The format in which the destination is written. -/
def Xfer.dc (x : Xfer) : Nat := if x.raw then 0 else x.dfmt

/-- Whether the command is a packed `ce.isp` (R267). -/
def Xfer.packed (x : Xfer) : Bool := x.cmd == .isp && bit x.param 0

/-- Bytes of an index (R264). -/
def Xfer.idxBytes (x : Xfer) : Nat := 2 * 2 ^ (x.param % 4)

/-! Tagged addresses (R259) -/

/-- Whether a tagged address is tile-local. -/
def isLocal (a : Nat) : Bool := bit a 63

/-- The tile-local part. -/
def localPart (a : Nat) : Nat := field a 0 32

/-- The bank of a tagged address, when it lies in the TSP; an address with a bit set above the tile-local part lies nowhere. -/
def tspBank (a : Nat) : Option Nat :=
  if isLocal a && field a 32 31 == 0 && decide (localPart a < 0x100000) then some (localPart a / 65536) else none

/-- Whether `n` bytes at a tagged address may be addressed (R108, R113, R105). -/
def addressable (t : Tile) (size a n : Nat) : Bool :=
  if isLocal a then
    field a 32 31 == 0 && (match locate size (localPart a) n with
      | some (.tsp bank _) => !t.owned bank
      | some _ => true
      | none => false)
  else decide (a + n ≤ 2 ^ 56)

/-- Address of row r (R258). -/
def rowAddr (base pitch r : Nat) : Nat := (base + r * pitch) % 2 ^ 64

/-- Bytes of a row of c elements: a block row outside the TSP carries its scales behind the elements (R260). -/
def rowBytes (code c : Nat) (tsp : Bool) : Nat := lineBytes code c + (if codeBlock code && !tsp then c / 32 else 0)

/-! Checks at start (R259–R263, R267) -/

/-- Whether the source is addressed by row from the record: not by an index, and there is one. -/
def Xfer.srcRows (x : Xfer) : Bool := x.cmd != .gat && x.cmd != .fill
/-- Whether the destination is addressed by row from the record. -/
def Xfer.dstRows (x : Xfer) : Bool := x.cmd != .sca && x.cmd != .isp

/-- A TSP row against the sampled format of its bank (R260): its code, and for blocks its place. -/
def badTspRow (banks : Vector W32 16) (a code : Nat) (raw : Bool) (c : Nat) : Bool :=
  match tspBank a with
  | none => false
  | some bank =>
    let off := localPart a % 65536
    bfmtFmt banks[idx 16 bank] != code
      || (!raw && codeBlock code && (off % blockBytes code != 0 || decide (0xF000 < off + lineBytes code c)))

/-- Reserved fields of a record (R258). -/
def Xfer.reserved (x : Xfer) : Bool :=
  field x.ctl 6 2 != 0 || bit x.ctl 3 || x.fld 0x22 1 / 16 != 0 || x.fld 0x23 1 / 4 != 0 || x.fld 0x27 1 != 0
    || (List.range 3).any fun i => if i < x.nwait then decide (32 ≤ x.fld (0x24 + i) 1) else x.fld (0x24 + i) 1 != 0

/-- Field values that a command does not allow (R261). -/
def Xfer.badFields (x : Xfer) : Bool :=
  let noRm := x.ctl % 8 != 0
  match x.cmd with
  | .go => x.aux != 0 || x.param != 0
  | .gor =>
    x.param != 0 || noRm || !(x.sfmt == 0xa || x.sfmt == 8 || x.sfmt == 9)
      || !(x.dfmt == 1 || x.dfmt == 2 || x.dfmt == 0xb || x.dfmt == 0xc) || decide (16384 * 8 < x.nelem * codeBits x.sfmt)
  | .gat | .sca => decide (3 ≤ x.param)
  | .fill => x.src != 0 || x.sfmt != x.dfmt || codeBlock x.dfmt || x.param != 0 || noRm
  | .red =>
    let pair := match x.param % 4 with
      | 0 => x.sfmt == 6 && x.dfmt == 6
      | 1 => x.sfmt == 0xa && x.dfmt == 0xa
      | 2 => x.sfmt == 9 && x.dfmt == 9
      | _ => (x.sfmt == 0xd || x.sfmt == 0xe) && (x.dfmt == 0xd || x.dfmt == 0xe)
    x.aux != 0 || decide (8 ≤ x.param) || !pair || noRm
  | .isp =>
    let npat := field x.param 8 9
    x.sfmt != 0 || x.dfmt != 0 || noRm || field x.param 1 7 != 0 || field x.param 17 47 != 0 || decide (256 < npat)
      || x.dst % 4 != 0 || x.nelem % 4 != 0 || x.nrow != 1

/-- The format rules of R260 that concern NELEM. -/
def Xfer.badCount (x : Xfer) : Bool :=
  let side := fun (c : Nat) => (codeBlock c && x.nelem % 32 != 0) || (c == 1 && x.nelem % 2 != 0)
  x.nelem == 0 || x.nrow == 0 || decide (2 ^ 24 < x.nelem) || decide (2 ^ 24 < x.nrow) || side x.sc || side x.dc

/-- A hint on a tile-local side (R258). -/
def Xfer.badHint (x : Xfer) : Bool :=
  (isLocal x.src && x.shint != 0#2) || ((isLocal x.dst || x.cmd == .isp) && x.dhint != 0#2)

/-- BADREC at start (R261). -/
def Xfer.badRecord (x : Xfer) : Bool :=
  x.reserved || x.badFields || x.badCount || x.badHint
    || (List.range x.nrow).any fun r =>
      (x.srcRows && badTspRow x.banks (rowAddr x.src x.spitch r) x.sfmt x.raw x.nelem)
        || (x.dstRows && badTspRow x.banks (rowAddr x.dst x.dpitch r) x.dfmt x.raw x.nelem)

/-- The AUX array that a command addresses: its bytes, or none. -/
def Xfer.auxBytes (x : Xfer) : Nat :=
  match x.cmd with
  | .gor => 4 * x.nrow
  | .gat | .sca => x.idxBytes * x.nrow
  | .isp => if x.packed then 64 * field x.param 8 9 else 0
  | _ => 0

/-- BOUNDS at start (R259, R267, R105). -/
def Xfer.badBounds (x : Xfer) (t : Tile) (size : Nat) : Bool :=
  let row := fun (base pitch code r : Nat) =>
    let a := rowAddr base pitch r
    !addressable t size a (rowBytes code x.nelem (tspBank a).isSome)
  (List.range x.nrow).any (fun r =>
      (x.srcRows && row x.src x.spitch x.sc r) || (x.dstRows && row x.dst x.dpitch x.dc r))
    || (decide (0 < x.auxBytes) && !addressable t size x.aux x.auxBytes)
    || (x.cmd == .isp && (t.c.idleHeld || decide (halfSize < x.dst + (if x.packed then 0 else x.nelem))))

/-- OVERLAP at start (R262). -/
def Xfer.overlaps (x : Xfer) : Bool :=
  x.cmd == .go && isLocal x.src == isLocal x.dst &&
    let span := fun (base pitch code r : Nat) =>
      let a := rowAddr base pitch r
      (a, rowBytes code x.nelem (tspBank a).isSome)
    (List.range x.nrow).any fun r => (List.range x.nrow).any fun q =>
      let s := span x.src x.spitch x.sc r
      let e := span x.dst x.dpitch x.dc q
      decide (s.1 < e.1 + e.2) && decide (e.1 < s.1 + s.2)

/-- The status with which a transfer ends at its start, if it does (R257, R275). DESIGN CHOICE: a range out of bounds is reported before an overlap
(log entry 99). -/
def Xfer.startFail (x : Xfer) (t : Tile) (size : Nat) : Option Byte :=
  if x.badRecord then some 4#8
  else if x.badBounds t size then some 3#8
  else if x.overlaps then some 0xb#8
  else none

/-! Chunks (R269) -/

/-- Elements that always move together: a block, the two i4 elements of a byte, or one. -/
def Xfer.unit (x : Xfer) : Nat :=
  if codeBlock x.sc || codeBlock x.dc then 32 else if x.sc = 1 ∨ x.dc = 1 then 2 else 1

/-- How many elements from element j lie in the 128-byte sector in which that element begins, in whole units and at least one. -/
def sectorRun (a code j unit : Nat) : Nat :=
  let at_ := a * 8 + j * codeBits code
  Nat.max 1 ((1024 - at_ % 1024) / (unit * codeBits code)) * unit

/-- Elements of the chunk that begins at element j of a row, whose sides begin at `s` and `e`; `rest` elements are left. -/
def Xfer.run (x : Xfer) (s e j rest : Nat) : Nat :=
  let n := match x.cmd with
    | .gor => rest
    | .fill => sectorRun e x.dc j x.unit
    | .red => sectorRun e x.dc j x.unit
    | _ =>
      if x.unit = 32 then 32 else Nat.min (sectorRun s x.sc j x.unit) (sectorRun e x.dc j x.unit)
  Nat.min n rest

/-- The tagged ranges of elements j to j + m − 1 of a row and of their block scales (R74, R260). -/
def sideRanges (a code c j m : Nat) : List (Nat × Nat) :=
  let off := j * codeBits code / 8
  let els := (a + off, m * codeBits code / 8)
  if codeBlock code then
    let sc := match tspBank a with
      | some bank => 2 ^ 63 + bank * 65536 + scaleOff code (localPart a % 65536 + off)
      | none => a + lineBytes code c + j / 32
    [els, (sc, m / 32)]
  else [els]

/-! Reading and writing tagged addresses -/

/-- Cuts a range of keys at the lines of a slice. -/
def linePieces : Nat → Nat → Nat → List (Nat × Nat)
  | 0, _, _ => []
  | fuel + 1, a, n =>
    if n = 0 then []
    else
      let k := Nat.min n (128 - a % 128)
      (a, k) :: linePieces fuel (a + k) (n - k)

/-- Where a tagged range lies: a tile-local place under the transfer's own formats, or pieces of global memory; or why it lies nowhere. -/
inductive Target where
  | loc (l : Loc)
  | mem (l : List (Nat × Nat))
  | wait (w : Wait)
  | fail
  | out
  | fenced
  deriving DecidableEq, Repr

/-- Whether a tile-local place lies in a tile that is out of service (R270, R427). -/
def Dev.locFenced (d : Dev) (n : Fin 128) (l : Loc) : Bool :=
  match l with
  | .lateral r _ => (d.routers[d.rankTile n r]).fence != 0
  | _ => false

/-- Resolves a tagged range (R259, R269); `out` is a place that may not be addressed. -/
def Dev.target (d : Dev) (n : Fin 128) (b : Fin 32) (a : Asker) (acc : AccKind) (r : Nat × Nat) : Dev × Target :=
  if !addressable d.tiles[n] (d.panelSize n) r.1 r.2 then (d, .out)
  else if isLocal r.1 then
    match locate (d.panelSize n) (localPart r.1) r.2 with
    | some l => if d.locFenced n l then (d, .fenced) else (d, .loc l)
    | none => (d, .out)
  else match d.rangeKeys b a acc r.1 r.2 with
    | (d1, .keys l) => (d1, .mem l)
    | (d1, .wait w) => (d1, .wait w)
    | (d1, .fail) => (d1, .fail)

/-- Resolves ranges in turn; the first that waits, fails or lies outside decides. -/
def Dev.targets (n : Fin 128) (b : Fin 32) (a : Asker) (acc : AccKind) : List (Nat × Nat) → Dev → Dev × List Target × Option Target
  | [], d => (d, [], none)
  | r :: rest, d =>
    match d.target n b a acc r with
    | (d1, .loc l) => let y := Dev.targets n b a acc rest d1; (y.1, .loc l :: y.2.1, y.2.2)
    | (d1, .mem l) => let y := Dev.targets n b a acc rest d1; (y.1, .mem l :: y.2.1, y.2.2)
    | (d1, x) => (d1, [], some x)

/-- The format under which a chunk places a bank's bytes: the sampled one, or for a row reached by index the one in force when it was reached
(R264). -/
def Xfer.bankFmt (x : Xfer) (indexed : Bool) (bank : Nat) : W32 :=
  match indexed, x.rowAt with
  | true, some r => r.2.2
  | _, _ => x.banks[idx 16 bank]

/-- The DVA that a transfer's row in hand writes, if it writes global memory. -/
def Xfer.hostDst (x : Xfer) : Option Nat := if x.cmd == .isp || bit x.dst 63 then none else some (x.dst + x.row * x.dpitch)

/-- Reads a resolved range: its bytes, and whether some hold an uncorrectable error (R270, R430). -/
def Dev.readTarget (d : Dev) (n : Fin 128) (b : Fin 32) (fmt : Nat → W32) (hint : BitVec 2) (len : Nat) (t : Target) :
    Dev × List Byte × Bool :=
  match t with
  | .loc (.tsp bank o) =>
    (d.bankEcc n (fmt bank) bank o len, d.bankBytes n (fmt bank) bank o len, d.bankBad n (fmt bank) bank o len)
  | .loc l => (d.locEcc n l len, d.locBytes n l len, d.locBad n l len)
  | .mem l =>
    (l.flatMap fun p => linePieces (p.2 / 128 + 2) p.1 p.2).foldl (fun r p =>
      let y := r.1.pointRead b p.1 p.2 hint false
      (y.1, r.2.1 ++ y.2, r.2.2 || d.bad p.1 p.2)) (d, [], false)
  | _ => (d, [], false)

/-- Writes bytes at resolved pieces of global memory, line by line. -/
def Dev.writePieces (b : Fin 32) (space : Nat) (hint : BitVec 2) : List (Nat × Nat) → List Byte → Dev → Dev
  | [], _, d => d
  | p :: r, bs, d => Dev.writePieces b space hint r (bs.drop p.2) ((d.pointWrite b p.1 (bs.take p.2) hint false).ownLine b p.1 space)

/-- Writes a resolved range. -/
def Dev.writeTarget (d : Dev) (n : Fin 128) (b : Fin 32) (fmt : Nat → W32) (hint : BitVec 2) (t : Target) (bs : List Byte) : Dev :=
  match t with
  | .loc (.tsp bank o) => d.bankWrite n (fmt bank) bank o bs
  | .loc l => d.locWrite n l bs
  | .mem l => Dev.writePieces b (d.tileAsker n).space hint (l.flatMap fun p => linePieces (p.2 / 128 + 2) p.1 p.2) bs d
  | _ => d

/-- Reads resolved ranges; the lengths stand beside. -/
def Dev.readAll (n : Fin 128) (b : Fin 32) (fmt : Nat → W32) (hint : BitVec 2) : List (Target × Nat) → Dev → Dev × List (List Byte) × Bool
  | [], d => (d, [], false)
  | t :: r, d =>
    let x := d.readTarget n b fmt hint t.2 t.1
    let y := Dev.readAll n b fmt hint r x.1
    (y.1, x.2.1 :: y.2.1, x.2.2 || y.2.2)

/-- Writes resolved ranges. -/
def Dev.writeAll (n : Fin 128) (b : Fin 32) (fmt : Nat → W32) (hint : BitVec 2) : List (Target × List Byte) → Dev → Dev
  | [], d => d
  | t :: r, d => Dev.writeAll n b fmt hint r (d.writeTarget n b fmt hint t.1 t.2)

/-! Conversion (R72, R75, R76, R80, R262) -/

/-- Elements of a code in a run of bytes. -/
def elsOf (code n : Nat) (bs : List Byte) : List Nat :=
  let v := leNat bs
  (List.range n).map fun j => field v (codeBits code * j) (codeBits code)

/-- The bytes of elements of a code. -/
def bytesOf (code : Nat) (l : List Nat) : List Byte :=
  let w := codeBits code
  leBytes (l.length * w / 8) (l.foldr (fun x acc => x % 2 ^ w + 2 ^ w * acc) 0)

/-- Element j of a run as an exact value; blocks under their scale bytes. -/
def elVal (code : Nat) (els scales : List Nat) (j : Nat) : Val :=
  let v := els.getD j 0
  if codeBlock code then blockVal (blockEl code) (scales.getD (j / 32) 0) v else codeVal code v

/-- A value converted to a code that is no block, and whether saturation changed it (R72, R262). -/
def toCode (code : Nat) (rm : RMode) (sat : Bool) (v : Val) : Nat × Bool :=
  match elFmt code with
  | some (.flt f) =>
    let y := (roundTo f rm sat v).1
    (y, sat && y != (roundTo f rm false v).1)
  | some (.int sg w) =>
    let r := toIntFmt sg w rm v
    (r.1, !v.isNan && r.2.getLsbD 0)
  | none => (0, false)

/-- A converted run: elements, scale bytes, NaN-block events, saturated elements. -/
structure Conv where
  /-- Elements. -/
  els : List Nat
  /-- Scale bytes of a block target. -/
  scales : List Nat
  /-- NaN-block events. -/
  nan : Nat
  /-- Elements that saturation changed. -/
  sat : Nat
  deriving DecidableEq, Repr

/-- Conversion of a run of elements (R80, R262); equal formats copy. -/
def convRun (sc dc : Nat) (rm : RMode) (sat : Bool) (els scales : List Nat) : Conv :=
  if sc = dc then { els := els, scales := scales, nan := 0, sat := 0 }
  else
    let vals := (List.range els.length).map (elVal sc els scales)
    if codeBlock dc then
      let blks := (List.range (els.length / 32)).map fun k => encodeBlock ((vals.drop (32 * k)).take 32) (blockEl dc)
      { els := blks.flatMap fun (b : Block) => b.els, scales := blks.map fun (b : Block) => b.scale,
        nan := (blks.filter fun (b : Block) => b.nan).length, sat := sumList (blks.map fun (b : Block) => b.sat) }
    else
      let r := vals.map (toCode dc rm sat)
      { els := r.map Prod.fst, scales := [], nan := 0, sat := (r.filter Prod.snd).length }

/-- Reduce of a run into the destination's elements (R87, R266). -/
def redRun (x : Xfer) (els scales old oldScales : List Nat) : Conv :=
  let isMax := bit x.param 2
  match x.param % 4 with
  | 3 =>
    let blks := (List.range (els.length / 32)).map fun k =>
      reduceBlock isMax (blockEl x.sc) (blockEl x.dc) (scales.getD k 0) (oldScales.getD k 0)
        ((els.drop (32 * k)).take 32) ((old.drop (32 * k)).take 32)
    { els := blks.flatMap fun (b : Block) => b.els, scales := blks.map fun (b : Block) => b.scale,
      nan := (blks.filter fun (b : Block) => b.nan).length, sat := sumList (blks.map fun (b : Block) => b.sat) }
  | ty =>
    let f := fun (p : Nat × Nat) =>
      if ty = 0 then reduceInt isMax p.1 p.2 else reduceFloat (if ty = 1 then .fp32 else .bf16) isMax p.1 p.2
    { els := (els.zip old).map f, scales := [], nan := 0, sat := 0 }

/-- Per-row quantisation of a row (R76, R263), with the fp32 scale. -/
def gorRun (x : Xfer) (els : List Nat) : Conv × Nat :=
  let vals := els.map (codeVal x.sc)
  match elFmt x.dc with
  | some f =>
    let r := rowQuant vals f
    ({ els := r.2.1, scales := [], nan := b2n r.2.2.1, sat := r.2.2.2 }, r.1)
  | none => ({ els := [], scales := [], nan := 0, sat := 0 }, 0)

end Sys2Proof.Machine
end

