-- ==== Sys2Proof/Machine/Copy.lean ====
section
/-! DEFINITION. The copy engine's commands and its progress (R254–R278): issue, the states of tokens, the start of a transfer, its chunks,
the replay table, cancel and status. -/

namespace Sys2Proof.Machine

/-! Tokens -/

/-- Changes one token of a tile. -/
def Tile.onTok (t : Tile) (k : Fin 32) (f : Token → Token) : Tile := { t with toks := t.toks.set k (f t.toks[k]) }

/-- Changes the transfer of a token. -/
def Tile.onXfer (t : Tile) (k : Fin 32) (f : Xfer → Xfer) : Tile := t.onTok k fun x => { x with xfer := x.xfer.map f }

/-- Frees the replay entries of a token (R271). -/
def Tile.freeEntries (t : Tile) (k : Fin 32) : Tile := { t with rep := t.rep.filter fun e => e.tok != k }

/-- What a resolved production does to a transfer that waits on it (R257). -/
def Xfer.resolved (x : Xfer) (k : Fin 32) (prod : Nat) (st : TokSt) : Xfer :=
  if x.waits.contains (k, prod) then
    { x with waits := x.waits.filter (· != (k, prod)), bad := x.bad || st != .done }
  else x

/-- A token leaves PENDING (R257, R270); a transfer that is not done keeps its record for `ce.rep`. -/
def Tile.resolveTok (t : Tile) (k : Fin 32) (st : TokSt) (status : Byte) : Tile :=
  let prod := t.toks[k].prod
  let inform := fun (y : Token) => { y with xfer := y.xfer.map fun x => x.resolved k prod st }
  let t1 : Tile := { t with toks := t.toks.map inform }
  t1.onTok k fun y => { y with st := st, status := status, xfer := if st == .done then none else y.xfer }

/-- A token is produced (R256 steps 2 and 4): its status, counts and replay entries are cleared. -/
def Tile.produce (t : Tile) (k : Fin 32) (tag : W64) (x : Option Xfer) : Tile :=
  (t.freeEntries k).onTok k fun y =>
    { st := .pending, status := 0#8, bytes := 0, nanblk := 0, satcnt := 0, crc := 0#32, tag := tag, prod := y.prod + 1, xfer := x }

/-- The transfer of a token resolves: what it wrote is performed at its scope, demoted to the ceiling (R276, R223, R296). -/
def Dev.resolveXfer (d : Dev) (n : Fin 128) (k : Fin 32) (x : Xfer) (st : TokSt) (status : Byte) : Dev :=
  let s := d.demote n x.scope
  let d1 := d.onTile n fun t => t.resolveTok k st status
  if x.started then
    let d2 := d1.noteDemote n s.2
    match d2.boltOf n with
    | some b => if 3 ≤ s.1 then d2.flushHost b else d2
    | none => d2
  else d1

/-! Commands at issue (R255, R256) -/

/-- The eight staging registers from `i` on as a record (R258). -/
def stagingRecord (d : Vector W64 16) (i : Nat) : BitVec 512 :=
  packFields 512 ((List.range 8).map fun j => (8 * j, 8, d[idx 16 (i + j)].toNat))

/-- The record that a command reads, as it stands before any write of the cycle (R256). -/
def State.ceRecord (s : State) (rs : RecSrc) : BitVec 512 :=
  let d := s.start
  let t := d.tiles[s.tileNo]
  match rs with
  | .low => stagingRecord t.r.d 0
  | .high => stagingRecord t.r.d 8
  | .tsp r =>
    let a := (s.readS r).toNat
    BitVec.ofNat 512 (leNat (d.bankBytes s.tileNo (t.sr.bfmt[idx 16 (a / 65536)]) (a / 65536 % 16) (a % 65536) 64))

/-- A transfer as its command issues it. -/
def newXfer (cmd : XCmd) (r : BitVec 512) (psc : Nat) : Xfer where
  cmd := cmd
  record := r
  started := false
  waits := []
  bad := false
  banks := Vector.replicate 16 0#32
  row := 0
  elem := 0
  inPos := 0
  part := 0
  rowAt := none
  replay := false
  todo := []
  tail := none
  noMore := false
  fail := none
  wait := .no
  issue := psc

/-- The consumed tokens that a record names. -/
def Xfer.consumed (x : Xfer) : List (Fin 32) := (List.range x.nwait).map fun i => idx 32 (x.fld (0x24 + i) 1)

/-- Samples the consumed tokens (R257). -/
def Xfer.sample (x : Xfer) (t : Tile) : Xfer :=
  x.consumed.foldl (fun x k =>
    match (t.toks[k]).st with
    | .pending => { x with waits := (k, t.toks[k].prod) :: x.waits }
    | .part | .failed => { x with bad := true }
    | .free | .done => x) x

/-- The checks of an engine command (R256, R105, R47). -/
def State.chkCe (s : State) (tp : Fin 32) (rs : RecSrc) : List Chk :=
  chkOp ((s.tile.toks[tp]).st == .pending) 3 :: match rs with
    | .tsp r =>
      let a := s.readS r
      if s.poisonS r then []
      else [chkBounds (decide (2 ^ 20 ≤ a.toNat) || s.tile.owned (a.toNat / 65536)) a, chkAlign (a.toNat % 64 != 0) a]
    | _ => []

/-- The poison of the record address. -/
def State.cePoison (s : State) (rs : RecSrc) : Bool :=
  match rs with
  | .tsp r => s.poisonS r
  | _ => false

/-- An engine command with a record (R256): it produces its token with the transfer, or, on a poisoned address, a FAILED token (R41). -/
def State.ceIssue (s : State) (cmd : XCmd) (tp : Fin 32) (rs : RecSrc) : Result :=
  s.attempt (s.chkCe tp rs) fun s =>
    if s.cePoison rs then s.onTile fun t => (t.produce tp 0#64 none).resolveTok tp .failed 2#8
    else
      let x := (newXfer cmd (s.ceRecord rs) s.psc).sample s.tile
      s.onTile fun t => t.produce tp x.tag (some x)

/-- `ce.go` (R262). -/
def execCeGo (tp : Fin 32) (rs : RecSrc) (s : State) : Result := s.ceIssue .go tp rs
/-- `ce.gor` (R263). -/
def execCeGor (tp : Fin 32) (rs : RecSrc) (s : State) : Result := s.ceIssue .gor tp rs
/-- `ce.gat` (R264). -/
def execCeGat (tp : Fin 32) (rs : RecSrc) (s : State) : Result := s.ceIssue .gat tp rs
/-- `ce.sca` (R264). -/
def execCeSca (tp : Fin 32) (rs : RecSrc) (s : State) : Result := s.ceIssue .sca tp rs
/-- `ce.fill` (R265). -/
def execCeFill (tp : Fin 32) (rs : RecSrc) (s : State) : Result := s.ceIssue .fill tp rs
/-- `ce.red` (R266). -/
def execCeRed (tp : Fin 32) (rs : RecSrc) (s : State) : Result := s.ceIssue .red tp rs
/-- `ce.isp` (R267). -/
def execCeIsp (tp : Fin 32) (rs : RecSrc) (s : State) : Result := s.ceIssue .isp tp rs

/-- `ce.rep` (R272): the record, the sampled formats and the missing chunks of TS move to a new transfer. -/
def execCeRep (tp ts : Fin 32) (s : State) : Result :=
  s.attempt [chkOp ((s.tile.toks[ts]).st != .part || (s.tile.toks[tp]).st == .pending) 3] fun s =>
    let t := s.tile
    match t.toks[ts].xfer with
    | none => s
    | some x =>
      let own := (t.rep.filter fun e => e.tok == ts).map RepEnt.piece
      let y := { x with
        rowAt := none, replay := true, todo := own ++ x.tail.toList ++ x.todo, tail := none, noMore := false, fail := none, wait := .no,
          issue := s.psc }
      s.onTile fun t =>
        let t1 := t.freeEntries ts
        let t2 := if tp = ts then t1 else t1.onTok ts fun k => { k with st := .free, xfer := none }
        t2.produce tp x.tag (some y)

/-- `ce.can` (R273): every chunk is performed whole in one step, so none is in flight. -/
def execCeCan (k : Fin 32) (s : State) : Result :=
  let t := s.tile
  match (t.toks[k]).st, t.toks[k].xfer with
  | .pending, some x => .next (s.onDev fun d => (d.resolveXfer s.tileNo k x .failed 5#8).onTile s.tileNo fun t =>
      (t.freeEntries k).onTok k fun y => { y with xfer := none })
  | .part, _ => .next (s.onTile fun t =>
      (t.freeEntries k).onTok k fun y => { y with st := .failed, status := 5#8, xfer := none })
  | _, _ => .next s

/-! Status (R274) -/

/-- REPL of a token (R271). -/
def Tile.replCount (t : Tile) (k : Fin 32) : Nat :=
  (t.rep.filter fun e => e.tok == k).length + b2n ((t.toks[k].xfer.bind Xfer.tail).isSome)

/-- `ce.stat` (R274): a FREE token reads as zero. -/
def State.ceStat (s : State) (d k : Fin 32) (f : Tile → Token → Nat) : Result :=
  let t := s.start.tiles[s.tileNo]
  let x := t.toks[k]
  .next (s.putS 2 d (BitVec.ofNat 64 (if x.st == .free then 0 else f t x)) false)

/-- `ce.stat.st`. -/
def execCeStatSt (d k : Fin 32) (s : State) : Result :=
  s.ceStat d k fun t x => x.st.code + 256 * x.status.toNat + 65536 * t.replCount k
/-- `ce.stat.bytes`. -/
def execCeStatBytes (d k : Fin 32) (s : State) : Result := s.ceStat d k fun _ x => x.bytes
/-- `ce.stat.ev`. -/
def execCeStatEv (d k : Fin 32) (s : State) : Result := s.ceStat d k fun _ x => x.nanblk + 2 ^ 32 * x.satcnt
/-- `ce.stat.crc`. -/
def execCeStatCrc (d k : Fin 32) (s : State) : Result := s.ceStat d k fun _ x => x.crc.toNat
/-- `ce.stat.tag`. -/
def execCeStatTag (d k : Fin 32) (s : State) : Result := s.ceStat d k fun _ x => x.tag.toNat

/-! Start (R257) -/

/-- Whether the engine of a tile goes on: not while its panel is loaded, quiesces, is saved or restored (R278); under ELOCK only in a
debug step (R334). -/
def Dev.engineRuns (d : Dev) (n : Fin 128) : Bool :=
  match d.panelOf n with
  | none => false
  | some p => (match p.phase with
    | .running | .trap | .debug => true
    | _ => false) && (!d.tiles[n].c.dbgctl.getLsbD 0 || d.tiles[n].c.engineGo)

/-- The engine of a tile has advanced: under ELOCK a debug step lets it advance once, by a start or a chunk (R335). DESIGN CHOICE: log entry 78. -/
def Dev.engineUsed (d : Dev) (n : Fin 128) : Dev := d.onTile n fun t => { t with c := { t.c with engineGo := false } }

/-- Whether a transfer may start, or end for a consumed token that failed. -/
def Xfer.mayStart (x : Xfer) : Bool := !x.started && (x.bad || x.waits.isEmpty)

/-- TRANSFER_START (R257, R259–R262): a failed consumed token ends it, else the formats are sampled and the record checked. -/
def execTransferStart (n : Fin 128) (k : Fin 32) (s : State) : Result :=
  .next (s.onDev fun d =>
    let t := d.tiles[n]
    match (t.toks[k]).st, t.toks[k].xfer with
    | .pending, some x =>
      if d.engineRuns n && x.mayStart then
        let d1 := d.engineUsed n
        if x.bad then d1.resolveXfer n k x .failed 1#8
        else
          let y := { x with started := true, banks := t.sr.bfmt }
          match y.startFail t (d.panelSize n) with
          | some st => d1.resolveXfer n k x .failed st
          | none => d1.onTile n fun t => t.onXfer k fun _ => y
      else d
    | _, _ => d)

/-! Chunks (R269–R271) -/

/-- Why a chunk is not performed. -/
inductive Stop where
  | wait (w : Wait)
  | fail (st : Byte)
  | data
  deriving DecidableEq, Repr

/-- What an unresolved range means for its chunk (R270). -/
def Target.stop : Target → Stop
  | .wait w => .wait w
  | .out => .fail 3#8
  | .fenced => .fail 8#8
  | _ => .fail 6#8

/-- Reads tagged ranges, or says why not. -/
def Dev.readTagged (d : Dev) (n : Fin 128) (b : Fin 32) (a : Asker) (fmt : Nat → W32) (hint : BitVec 2) (l : List (Nat × Nat)) :
    Dev × List (List Byte) × Option Stop :=
  match Dev.targets n b a .read l d with
  | (d1, _, some x) => (d1, [], some x.stop)
  | (d1, ts, none) =>
    let r := Dev.readAll n b fmt hint (ts.zip (l.map Prod.snd)) d1
    (r.1, r.2.1, if r.2.2 then some .data else none)

/-- The head of a transfer's work: the run to be done next. -/
def Xfer.head (x : Xfer) : Option Piece :=
  match x.todo with
  | p :: _ => some p
  | [] => if x.row < x.nrow then some { row := x.row, first := x.elem, count := x.nelem - x.elem } else none

/-- Takes the first `m` elements off the head. -/
def Xfer.take (x : Xfer) (m : Nat) : Xfer :=
  match x.todo with
  | p :: r => { x with todo := if p.count ≤ m then r else { p with first := p.first + m, count := p.count - m } :: r }
  | [] => if x.nelem ≤ x.elem + m then { x with row := x.row + 1, elem := 0 } else { x with elem := x.elem + m }

/-- Whether every chunk of a transfer has ended. -/
def Xfer.ended (x : Xfer) : Bool := x.noMore || x.head.isNone

/-- The token of a transfer resolves once every chunk has ended (R270). -/
def Dev.settleXfer (d : Dev) (n : Fin 128) (k : Fin 32) : Dev :=
  let t := d.tiles[n]
  match t.toks[k].xfer with
  | none => d
  | some x =>
    if !x.ended then d
    else match x.fail with
      | some st => d.resolveXfer n k x .failed st
      | none =>
        if x.tail.isSome || t.rep.any (fun e => e.tok == k) then d.resolveXfer n k x .part 0#8 else d.resolveXfer n k x .done 0#8

/-- Adds a failed chunk to the replay table: it joins an adjacent entry, or takes a free place (R271). -/
def Tile.addEntry (t : Tile) (k : Fin 32) (c : Piece) : Option Tile :=
  let joins := fun (e : RepEnt) => e.tok == k && e.piece.row == c.row
    && (e.piece.first + e.piece.count == c.first || c.first + c.count == e.piece.first)
  match t.rep.find? joins with
  | some e =>
    let m : Piece := { row := c.row, first := Nat.min e.piece.first c.first, count := e.piece.count + c.count }
    some { t with rep := t.rep.map fun y => if y == e then { y with piece := m } else y }
  | none => if t.rep.length < 64 then some { t with rep := t.rep ++ [{ tok := k, piece := c }] } else none

/-- A chunk, already taken off the head, becomes a replay entry or, with a full table, the tail (R271). -/
def Tile.missChunk (t : Tile) (k : Fin 32) (x : Xfer) (c : Piece) : Tile :=
  match t.addEntry k c with
  | some t1 => t1.onXfer k fun _ => x
  | none => t.onXfer k fun _ => { x with tail := some c, noMore := true }

/-- Whether a chunk that met a wait is held in hand: it waits for a host translation or for a place among a port's requests, neither of which is a
fault; or its transfer is a replay, and it joins an open fault, waits for a place, or opens a fault at a tick after it has waited for a place
(R270, R386, R393, R398). -/
def Xfer.holds (x : Xfer) (w : Wait) (opened : Bool) : Bool :=
  match w with
  | .ats _ _ _ _ _ | .busy _ => true
  | _ => x.replay && (!opened || x.wait.since.isSome)

/-- A chunk that met a wait: an original transfer makes a replay entry, but for a host translation in progress; a replay waits, but for
a fault that it opened on first meeting it (R270, R386, R387). -/
def Tile.holdChunk (t : Tile) (k : Fin 32) (x : Xfer) (c : Piece) (w : Wait) (opened : Bool) : Tile :=
  if x.holds w opened then t.onXfer k fun _ => { x with todo := c :: x.todo, wait := w } else t.missChunk k x c

/-- The number of the next fault that a tile's bolt opens. -/
def Dev.faultMark (d : Dev) (b : Fin 32) : Nat := d.bolts[b].nextFault

/-- How a chunk ends: what it wrote, in counts and CRC register, or why it was not performed. -/
inductive ChunkEnd where
  | wrote (bytes nan sat : Nat) (data : List Byte)
  | stop (x : Stop)
  deriving DecidableEq, Repr

/-- Adds a performed chunk to the counts of its token (R262, R268, R269). -/
def Token.grow (k : Token) (isp : Bool) (bytes nan sat : Nat) (data : List Byte) : Token :=
  { k with bytes := k.bytes + bytes, nanblk := satAdd k.nanblk nan, satcnt := satAdd k.satcnt sat
           crc := if isp then BitVec.ofNat 32 (crcRun (k.crc.toNat ^^^ 0xffffffff) data ^^^ 0xffffffff) else k.crc }

/-- The end of a chunk that has been taken off the head of `x`. -/
def Dev.endChunk (d : Dev) (n : Fin 128) (k : Fin 32) (x : Xfer) (c : Piece) (opened : Bool) (e : ChunkEnd) : Dev :=
  match e with
  | .wrote bytes nan sat data =>
    (d.onTile n fun t => (t.onXfer k fun _ => { x with wait := .no }).onTok k fun y => y.grow (x.cmd == .isp) bytes nan sat data).settleXfer n k
  | .stop (.wait w) => (d.onTile n fun t => t.holdChunk k x c w opened).settleXfer n k
  | .stop (.fail st) => d.resolveXfer n k x .failed (x.fail.getD st)
  | .stop .data => (d.onTile n fun t => t.onXfer k fun _ => { x with fail := some (x.fail.getD 7#8), wait := .no }).settleXfer n k

/-- Row addresses of a chunk. -/
structure Sides where
  /-- Source row. -/
  src : Nat
  /-- Destination row. -/
  dst : Nat
  deriving DecidableEq, Repr

/-- The sides of row r, its indexed side at index v. -/
def Xfer.sides (x : Xfer) (r v : Nat) : Sides where
  src := rowAddr x.src x.spitch (if x.cmd == .gat then v else r)
  dst := rowAddr x.dst x.dpitch (if x.cmd == .sca then v else r)

/-- The address of the indexed side of row r and the format code that the record gives it. -/
def Xfer.indexed (x : Xfer) (r v : Nat) : Nat × Nat := if x.cmd == .gat then ((x.sides r v).src, x.sfmt) else ((x.sides r v).dst, x.dfmt)

/-- The rows of a chunk. A row reached by index has its index read, and its place checked under the bank format then in force, once, when it is
reached (R264). DESIGN CHOICE: for a replay, log entry 51; the index array is read with hint normal, log entry 98. -/
def Dev.chunkSides (d : Dev) (n : Fin 128) (b : Fin 32) (a : Asker) (x : Xfer) (r : Nat) : Dev × Except Stop (Xfer × Sides) :=
  if x.cmd != .gat && x.cmd != .sca then (d, .ok (x, x.sides r r))
  else match x.rowAt.filter fun y => y.1 == r with
    | some y => (d, .ok (x, x.sides r y.2.1))
    | none =>
      match d.readTagged n b a (fun k => x.banks[idx 16 k]) 0#2 [((x.aux + r * x.idxBytes) % 2 ^ 64, x.idxBytes)] with
      | (d1, _, some st) => (d1, .error st)
      | (d1, bs, none) =>
        let v := leNat bs.flatten
        let row := x.indexed r v
        let t := d1.tiles[n]
        if !addressable t (d1.panelSize n) row.1 (rowBytes (if x.raw then 0 else row.2) x.nelem (tspBank row.1).isSome) then
          (d1, .error (.fail 3#8))
        else if badTspRow t.sr.bfmt row.1 row.2 x.raw x.nelem then (d1, .error (.fail 4#8))
        else (d1, .ok ({ x with rowAt := some (r, v, (tspBank row.1).elim 0#32 fun k => t.sr.bfmt[idx 16 k]) }, x.sides r v))

/-- The elements of `m` elements' worth of bytes and of their scales. -/
def elsScales (code m : Nat) (l : List (List Byte)) : List Nat × List Nat :=
  (elsOf code m (l.headD []), ((l.drop 1).headD []).map BitVec.toNat)

/-- What a chunk writes (R262–R267): elements, scale bytes, counts, and the row scale of `ce.gor`. -/
def Xfer.convert (x : Xfer) (m : Nat) (src old : List (List Byte)) : Conv × Nat :=
  let s := elsScales x.sc m src
  match x.cmd with
  | .fill => ({ els := List.replicate m (x.aux % 2 ^ codeBits x.dc), scales := [], nan := 0, sat := 0 }, 0)
  | .red =>
    let o := elsScales x.dc m old
    (redRun x s.1 s.2 o.1 o.2, 0)
  | .gor => gorRun x s.1
  | _ => (convRun x.sc x.dc x.rm x.sat s.1 s.2, 0)

/-- Whether a `ce.fill` of zero bytes covers the whole 128-byte line at an address. -/
def Xfer.zeroes (x : Xfer) (line : Nat) : Bool :=
  x.cmd == .fill && x.aux % 2 ^ codeBits x.dc == 0 && (List.range 128).all fun i => (List.range x.nrow).any fun r =>
    let a := rowAddr x.dst x.dpitch r
    decide (a ≤ line + i) && decide (line + i < a + lineBytes x.dc x.nelem)

/-- A held line all of whose bytes are zero now is a zero line. -/
def Dev.markZero (d : Dev) (q : Fin 32) (line : Nat) : Dev :=
  let empty := fun (l : SlcLine) => l.copy.getD (d.lineBits line) == 0#1024
  d.onQuad q fun x => { x with slc := x.slc.map fun l => if l.key == line && empty l then { l with zero := true } else l }

/-- The line that a chunk of a `ce.fill` of zeros has written becomes a zero line once the fill has covered all of it (R115). -/
def Dev.zeroFill (d : Dev) (b : Fin 32) (x : Xfer) (ts : List Target) (at_ : List Nat) : Dev :=
  match ts, at_ with
  | .mem ((k, _) :: _) :: _, a :: _ => if x.zeroes (a / 128 * 128) then d.markZero (d.sliceOf b k) (k / 128) else d
  | _, _ => d

/-- Performs elements `j` to `j + m − 1` of a row whose sides are known: everything is read and every place resolved before the first
byte is written (R269). DESIGN CHOICE: the scale of `ce.gor` is written with DHINT (log entry 98), and uncorrectable data in the destination sector of a
`ce.red` is a data error (log entry 100). -/
def Dev.moveChunk (d : Dev) (n : Fin 128) (b : Fin 32) (a : Asker) (x : Xfer) (y : Sides) (r j m : Nat) : Dev × ChunkEnd :=
  let t := d.tiles[n]
  let fs := x.bankFmt (x.cmd == .gat)
  let fd := x.bankFmt (x.cmd == .sca)
  let rd := if x.cmd == .fill then (d, [], none) else d.readTagged n b a fs x.shint (sideRanges y.src x.sc x.nelem j m)
  match rd with
  | (d1, _, some st) => (d1, .stop st)
  | (d1, src, none) =>
    if x.cmd == .isp then
      if t.c.idleHeld then (d1, .stop (.fail 3#8))
      else
        let bs := src.flatten
        (d1.idleWrite n (x.dst + j) bs, .wrote bs.length 0 0 bs)
    else
      let out := sideRanges y.dst x.dc x.nelem j m
      let scale := if x.cmd == .gor then [((x.aux + 4 * r) % 2 ^ 64, 4)] else []
      match Dev.targets n b a (if x.cmd == .red then .atomic else .write) (out ++ scale) d1 with
      | (d2, _, some st) => (d2, .stop st.stop)
      | (d2, ts, none) =>
        let old := if x.cmd == .red then Dev.readAll n b fd x.dhint (ts.zip (out.map Prod.snd)) d2 else (d2, [], false)
        if old.2.2 then (old.1, .stop .data)
        else
          let c := x.convert m src old.2.1
          let els := bytesOf x.dc c.1.els
          let data := (if codeBlock x.dc then [els, c.1.scales.map (BitVec.ofNat 8)] else [els]) ++ if x.cmd == .gor then [leBytes 4 c.2] else []
          ((Dev.writeAll n b fd x.dhint (ts.zip data) old.1).zeroFill b x ts (out.map Prod.fst), .wrote els.length c.1.nan c.1.sat [])

/-- The next chunk of a transfer but a packed `ce.isp`: the rows, then the run of elements that the chunk takes (R269). -/
def Dev.rowChunk (d : Dev) (n : Fin 128) (b : Fin 32) (k : Fin 32) (a : Asker) (x : Xfer) (p : Piece) : Dev :=
  let mark := d.faultMark b
  match d.chunkSides n b a x p.row with
  | (d1, .error st) => d1.endChunk n k (x.take p.count) p (decide (mark < d1.faultMark b)) (.stop st)
  | (d1, .ok (x, y)) =>
    let m := x.run y.src y.dst p.first p.count
    let c : Piece := { p with count := m }
    let r := d1.moveChunk n b a x y p.row p.first m
    r.1.endChunk n k (x.take m) c (decide (mark < r.1.faultMark b)) r.2

/-! Packed `ce.isp` (R267, R269) -/

/-- Bits set in the low byte of a header (R118). -/
def presCount (w : Nat) : Nat := sumList ((List.range 8).map fun i => b2n (bit w i))

/-- A read of a packed expansion. Bytes with an uncorrectable error are told from others; the expansion goes on with them as they stand, for
nothing of their chunk is written (R270). DESIGN CHOICE: log entry 79; the pattern table is read with SHINT, log entry 98. -/
def Dev.packedRead (d : Dev) (n : Fin 128) (b : Fin 32) (a : Asker) (x : Xfer) (at_ len : Nat) : Dev × Except Stop (List Byte × Bool) :=
  match d.readTagged n b a (fun k => x.banks[idx 16 k]) x.shint [(at_ % 2 ^ 64, len)] with
  | (d1, bs, none) => (d1, .ok (bs.flatten, false))
  | (d1, bs, some .data) => (d1, .ok (bs.flatten, true))
  | (d1, _, some st) => (d1, .error st)

/-- Whether an entry of the pattern table breaks R267. -/
def badEntry (e : List Byte) : Bool :=
  let len := leNat (e.take 1)
  len != 4 + 4 * presCount (leNat ((e.drop 4).take 4)) || leNat ((e.drop 1).take 3) != 0 || leNat (e.drop (4 + len)) != 0

/-- An item of a packed expansion: its output, the input bytes it takes, and whether a byte it came from was uncorrectable. -/
structure Item where
  /-- Output. -/
  out : List Byte
  /-- Input bytes. -/
  taken : Nat
  /-- Data error. -/
  bad : Bool
  deriving DecidableEq, Repr

/-- BADPAT, or the data error that made the pattern look wrong. -/
def badPattern (bad : Bool) : Stop := if bad then .data else .fail 0xa#8

/-- The item at an input position; `o` is the offset in the half at which it begins. -/
def Dev.packedItem (d : Dev) (n : Fin 128) (b : Fin 32) (a : Asker) (x : Xfer) (pos o : Nat) : Dev × Except Stop Item :=
  match d.packedRead n b a x (x.src + pos) 4 with
  | (d1, .error st) => (d1, .error st)
  | (d1, .ok h) =>
    let w := leNat h.1
    if w = 0 then (d1, .ok { out := h.1 ++ List.replicate ((64 - (o + 4) % 64) % 64) 0#8, taken := 4, bad := h.2 })
    else if w / 256 = 0x80 then
      if field x.param 8 9 ≤ w % 256 then (d1, .error (badPattern h.2))
      else match d1.packedRead n b a x (x.aux + 64 * (w % 256)) 64 with
        | (d2, .error st) => (d2, .error st)
        | (d2, .ok e) =>
          if badEntry e.1 then (d2, .error (badPattern (h.2 || e.2)))
          else (d2, .ok { out := (e.1.drop 4).take (leNat (e.1.take 1)), taken := 4, bad := h.2 || e.2 })
    else
      let m := 4 * presCount w
      if x.nelem < pos + 4 + m then (d1, .error (badPattern h.2))
      else match d1.packedRead n b a x (x.src + pos + 4) m with
        | (d2, .error st) => (d2, .error st)
        | (d2, .ok r) => (d2, .ok { out := h.1 ++ r.1, taken := 4 + m, bad := h.2 || r.2 })

/-- What a packed chunk is to write: the cursor after it, its bytes, and whether one of them is uncorrectable. -/
abbrev Filled := Xfer × List Byte × Bool

/-- Expands items until a sector of the half is full or the input ends; `inPos` and `part` follow the items. -/
def Dev.packedFill (n : Fin 128) (b : Fin 32) (a : Asker) : Nat → Dev → Filled → Dev × Except Stop Filled
  | 0, d, y => (d, .ok y)
  | fuel + 1, d, (x, acc, bad) =>
    let out := x.dst + x.elem + acc.length
    let room := 128 - (x.dst + x.elem) % 128 - acc.length
    if room = 0 ∨ x.nelem ≤ x.inPos then (d, .ok (x, acc, bad))
    else match d.packedItem n b a x x.inPos (out - x.part) with
      | (d1, .error st) => (d1, .error st)
      | (d1, .ok it) =>
        let left := it.out.drop x.part
        let y := if left.length ≤ room then { x with inPos := x.inPos + it.taken, part := 0 } else { x with part := x.part + room }
        Dev.packedFill n b a fuel d1 (y, acc ++ left.take room, bad || it.bad)

/-- Checks the whole pattern table as the expansion begins, so that a bad entry ends the transfer whether or not the input names it (R267).
DESIGN CHOICE on when: log entry 79. -/
def Dev.packedTable (d : Dev) (n : Fin 128) (b : Fin 32) (a : Asker) (x : Xfer) : Dev × Except Stop Unit :=
  if x.inPos != 0 || x.part != 0 || x.auxBytes == 0 then (d, .ok ())
  else match d.packedRead n b a x x.aux x.auxBytes with
    | (d1, .error st) => (d1, .error st)
    | (d1, .ok e) =>
      if (List.range (field x.param 8 9)).any fun i => badEntry ((e.1.drop (64 * i)).take 64) then (d1, .error (badPattern e.2)) else (d1, .ok ())

/-- How a packed chunk that cannot be performed ends. A recoverable fault makes it and the rest the tail entry (R269). -/
def Dev.packedStop (d : Dev) (n : Fin 128) (k : Fin 32) (x : Xfer) (opened : Bool) (st : Stop) : Dev :=
  match st with
  | .fail s => d.resolveXfer n k x .failed (x.fail.getD s)
  | .data => d.resolveXfer n k x .failed (x.fail.getD 7#8)
  | .wait w =>
    let rest : Piece := { row := 0, first := x.elem, count := x.inPos }
    if x.holds w opened then d.onTile n fun t => t.onXfer k fun _ => { x with wait := w }
    else (d.onTile n fun t => t.onXfer k fun _ => { x with tail := some rest, noMore := true }).settleXfer n k

/-- The next chunk of a packed `ce.isp` (R267, R269): one sector of the idle half. -/
def Dev.packedChunk (d : Dev) (n : Fin 128) (b : Fin 32) (k : Fin 32) (a : Asker) (x : Xfer) : Dev :=
  let stop := fun (e : Dev) (st : Stop) => e.packedStop n k x (decide (d.faultMark b < e.faultMark b)) st
  if d.tiles[n].c.idleHeld then stop d (.fail 3#8)
  else match d.packedTable n b a x with
    | (d1, .error st) => stop d1 st
    | (d1, .ok _) =>
      match Dev.packedFill n b a 33 d1 (x, [], false) with
      | (d2, .error st) => stop d2 st
      | (d2, .ok (y, bs, bad)) =>
        let z := { y with elem := y.elem + bs.length, wait := .no, noMore := decide (y.nelem ≤ y.inPos), fail := if bad then some (y.fail.getD 7#8) else y.fail }
        if halfSize < x.dst + z.elem then stop d2 (.fail 3#8)
        else if bad then (d2.onTile n fun t => t.onXfer k fun _ => z).settleXfer n k
        else
          ((d2.idleWrite n (x.dst + x.elem) bs).onTile n fun t =>
            (t.onXfer k fun _ => z).onTok k fun w => w.grow true bs.length 0 0 bs).settleXfer n k

/-- The engine as asker for a transfer (R389). -/
def Dev.engineAsker (d : Dev) (n : Fin 128) (k : Fin 32) : Asker :=
  { d.tileAsker n with engine := true, tag := d.tiles[n].toks[k].tag, token := k.val,
                       held := ((d.tiles[n].toks[k]).xfer).elim .no Xfer.wait }

/-- Whether a chunk of a token's transfer may be performed now: an access that issued before the transfer did performs first. -/
def Dev.chunkReady (d : Dev) (n : Fin 128) (k : Fin 32) : Option Xfer :=
  let t := d.tiles[n]
  match (t.toks[k]).st, t.toks[k].xfer with
  | .pending, some x =>
    if d.engineRuns n && x.started && x.wait.free && !x.ended && !t.timedPending x.issue then some x else none
  | _, _ => none

/-- CHUNK_COMPLETE (R269, R270): the next chunk of a transfer ends. -/
def execChunkComplete (n : Fin 128) (k : Fin 32) (s : State) : Result :=
  .next (s.onDev fun d =>
    match d.chunkReady n k, d.boltOf n with
    | some x, some b =>
      let a := d.engineAsker n k
      let d1 := d.engineUsed n
      if x.packed then d1.packedChunk n b k a x
      else match x.head with
        | some p => d1.rowChunk n b k a x p
        | none => d
    | _, _ => d)

end Sys2Proof.Machine
end

