-- ==== Sys2Proof/Machine/Image.lean ====
section
/-! DEFINITION. Context images (R340–R342, R347) and the snapshot buffer (R327, R328): a tile's state as bytes, the named state of live
masks (R152), and a tile's state from such bytes. Codes and orders that the layout leaves open are the model's: log entry 24. -/

namespace Sys2Proof.Machine

/-- Place of a value in a list. -/
def codeIn {α : Type} [BEq α] (l : List α) (x : α) : Nat := l.findIdx (· == x)

/-! Live masks (R152, R340) -/

/-- A bit of the live mask. -/
def live (lm : BitVec 21) (i : Nat) : Bool := lm.getLsbD i

/-- Whether a register is named: s, va, vb, t or z state. -/
def destNamed (lm : BitVec 21) : Dest → Bool
  | .s _ => live lm 0
  | .v .a r => live lm (1 + r.val / 8)
  | .v .b r => live lm (5 + r.val / 8)
  | _ => true

/-- Poison bits kept for the named groups of `w` registers each, from mask bit `b` on. -/
def namedPoison {k : Nat} (lm : BitVec 21) (b w : Nat) (p : BitVec k) : BitVec k :=
  BitVec.ofNat k (sumList ((List.range k).map fun i => b2n (p.getLsbD i && live lm (b + i / w)) * 2 ^ i))

/-- What is left of a result whose register an image does not name: the flags that it ORs and the status that it sets, so that the registers of R95
read as without the eviction (R70, R102, R338). -/
def Flight.flagsOnly (f : Flight) : Option Flight :=
  if f.flags = 0#6 && !f.pzero then none else some { f with dest := .none }

/-- The MMAs of a tile with those whose accumulator is not named, or already reads beside, set to read the accumulator as it stands now: their
results are discarded, and only their flags are still to come (R102, R338). -/
def aloneUnits (named : Nat → Bool) (z : Vector Acc 4) (l : List UnitRec) : List UnitRec :=
  l.map fun u => if named u.zd.val || u.alone.isSome then u else { u with alone := some z[u.zd] }

/-- State as an image with these masks carries it: what is not named reads zero and unpoisoned, and results bound for it are discarded
(R52, R338). A cluster that is gated is saved as zeros (R153). -/
def Tile.named (t : Tile) (lm : BitVec 21) : Tile :=
  let r := t.r
  let keepV := fun (f : VFile) (b i : Nat) =>
    live lm (b + i / 8) && (match f with
      | .a => t.sr.awakeA.getLsbD (i / 8)
      | .b => t.sr.awakeB.getLsbD (i / 8))
  let z := fun (i : Nat) => live lm (17 + i)
  let zp : Vector Acc 4 := r.z.mapFinIdx fun i v _ => if z i then v else Acc.reset
  let tp : Vector TReg 8 := r.t.mapFinIdx fun i v _ => if live lm (9 + i) then v else TReg.reset
  let va : Vector VReg 32 := r.va.mapFinIdx fun i v _ => if keepV .a 1 i then v else 0#1024
  let vb : Vector VReg 32 := r.vb.mapFinIdx fun i v _ => if keepV .b 5 i then v else 0#1024
  let sv : Vector W64 32 := r.s.map fun v => if live lm 0 then v else 0#64
  { t with
    r := { r with s := sv, sPoison := if live lm 0 then r.sPoison else 0#32, va := va, vb := vb, vaPoison := namedPoison lm 1 8 r.vaPoison,
                  vbPoison := namedPoison lm 5 8 r.vbPoison, t := tp, tPoison := namedPoison lm 9 1 r.tPoison, z := zp,
                  zPoison := namedPoison lm 17 1 r.zPoison }
    flight := t.flight.filterMap fun f => if f.act != .none || destNamed lm f.dest then some f else f.flagsOnly
    units := aloneUnits z r.z t.units }

/-! Snapshot entries (R327, R328) -/

/-- FILE and REG of a destination. -/
def Dest.code : Dest → Nat × Nat
  | .none => (0, 0)
  | .s r => (0, r.val)
  | .k r => (1, r.val)
  | .p r => (2, r.val)
  | .v .a r => (3, r.val)
  | .v .b r => (4, r.val)
  | .m .a r => (5, r.val)
  | .m .b r => (6, r.val)
  | .d r => (7, 0x60 + r.val)
  | .sr n => (7, n.toNat)
  | .beat id => (13, id)

/-- The destination that FILE and REG name. -/
def destOf (file reg : Nat) : Dest :=
  match file with
  | 0 => .s (idx 32 reg)
  | 1 => .k (idx 16 reg)
  | 2 => .p (idx 8 reg)
  | 3 => .v .a (idx 32 reg)
  | 4 => .v .b (idx 32 reg)
  | 5 => .m .a (idx 8 reg)
  | 6 => .m .b (idx 8 reg)
  | 7 => .sr (BitVec.ofNat 10 reg)
  | 13 => .beat reg
  | _ => .none

/-- FILE of a space written. -/
def Space.code : Space → Nat
  | .tsp => 8
  | .vault => 9
  | .isp => 10

/-- A descriptor word (R328). -/
def descWord (kind file reg : Nat) (poison extra : Bool) (pdelay delay : Nat) : Nat :=
  delay % 65536 + 65536 * (pdelay % 4096) + 2 ^ 28 * b2n extra + 2 ^ 29 * b2n poison + 2 ^ 32 * (reg % 65536) + 2 ^ 48 * (file % 256)
    + 2 ^ 56 * kind

/-- The codes of the atomics, in the order of R231 and R232. -/
def amoCodes : List AmoOp := [.add, .and, .or, .xor, .max, .min, .maxn, .swap, .cas]

/-- One snapshot entry as its descriptor, address word and value. -/
structure SnapWords where
  /-- Descriptor. -/
  desc : Nat
  /-- Address word. -/
  addr : Nat
  /-- Value, 16 words. -/
  value : VReg
  deriving DecidableEq, Repr

/-- The order of an atomic as a byte of its entry's value. -/
def AmoOrd.fields (o : AmoOrd) : List (Nat × Nat × Nat) := [(17, 1, b2n o.acq + 2 * b2n o.rel + 4 * (o.scope % 8))]

/-- The order of an atomic from that byte. -/
def ordOf (b : Nat) : AmoOrd where
  acq := bit b 0
  rel := bit b 1
  scope := field b 2 3

/-- The REG field of a pending write: its size, 0 for 8 bytes. -/
def sizeReg (n : Nat) : Nat := if n = 8 then 0 else n

/-- The value of a result of which a part is kept: `old` is what its register holds. -/
def Flight.whole (f : Flight) (old : VReg) : VReg := (f.value &&& f.mask) ||| (old &&& ~~~f.mask)

/-- Words of an entry of fixed-latency work at pending PSC `psc`, whose register holds `old` (R327, R328); an emptied one reads 0. A result names the
location that it was read from, and 0 when it was computed. -/
def Flight.words (f : Flight) (psc : Nat) (rank : Nat → Nat) (old : VReg) : SnapWords :=
  let c := match f.dest with
    | .beat id => (13, rank id)
    | x => x.code
  match f.act with
  | .none => if f.dest == .none then ⟨0, 0, 0#1024⟩ else ⟨descWord 0 c.1 c.2 f.poison false 0 (f.due - psc), f.loc, f.whole old⟩
  | .read p sp a dk => ⟨descWord 1 c.1 c.2 f.poison false (p - psc) (f.due - psc), sp.word a, packFields 1024 [(19, 1, dk.toNat)]⟩
  | .write p sp a n v => ⟨descWord 2 sp.code (sizeReg n) f.pdrop false (p - psc) 0, sp.word a, v⟩
  | .amo p sp a op v x ord =>
    ⟨descWord 1 c.1 c.2 f.poison false (p - psc) (f.due - psc), sp.word a,
     packFields 1024 ([(0, 8, v.toNat), (8, 8, x.toNat), (16, 1, 1 + codeIn amoCodes op)] ++ ord.fields)⟩
  | .rmw p sp a op v x ord =>
    ⟨descWord 1 c.1 c.2 f.poison false (p + 1 - psc) (f.due - psc), sp.word a,
     packFields 1024 ([(0, 8, v.toNat), (8, 8, x.toNat), (16, 1, 1 + codeIn amoCodes op), (18, 1, 1), (24, 8, f.value.toNat)] ++ ord.fields)⟩

/-- What an entry of the snapshot buffer is: fixed-latency work, the write of a `zstat`, the TSP source of an `sndr`, a beat. -/
inductive Snap where
  | work (i : Nat)
  | status (i : Nat)
  | source (i : Nat)
  | beat (id : Nat)
  deriving DecidableEq, Repr

/-- The cycle on which a beat arrives at a rank, when it is still to come. -/
def Beat.arrival (b : Beat) (rank psc : Nat) : Option Nat :=
  if b.each then ((b.route.zipIdx.find? fun x => x.1 == rank).map fun x => b.launch + 2 * (x.2 + 1)).filter fun c => decide (psc ≤ c)
  else if (b.route.getLast?).getD b.src == rank && decide (psc ≤ b.last) then some b.last else none

/-- The beats in flight to a rank, one for each arrival cycle: that of the lowest-ranked sender (R327). -/
def Panel.inbound (p : Panel) (rank : Nat) : List Beat :=
  let l := p.beats.filter fun b => (b.arrival rank p.psc).isSome
  l.filter fun b => !l.any fun c => c.arrival rank p.psc == b.arrival rank p.psc && decide (c.src < b.src)

/-- Whether other beats share a beat's arrival cycle at a rank. -/
def Panel.shared (p : Panel) (rank : Nat) (b : Beat) : Bool :=
  b.extra.contains rank || p.beats.any fun c => c.id != b.id && c.arrival rank p.psc == b.arrival rank p.psc

/-- The entries of a tile's snapshot buffer, in issue and slot order (R327). -/
def Dev.snaps (d : Dev) (n : Fin 128) : List Snap :=
  let t := d.tiles[n]
  let work := t.flight.zipIdx.map fun x => (x.1.order, Snap.work x.2)
  let beats := (d.panelOf n).elim [] fun p => (p.inbound t.rank).map fun b => (b.issue * 8 + 7, Snap.beat b.id)
  let status := (t.tpath.zipIdx.filter fun x => x.1.kind == .zstat && x.1.done == 0).map fun x => (x.1.issue * 8 + 4, Snap.status x.2)
  let source := (t.ops.zipIdx.filter fun x => x.1.tspRead.isSome).map fun x => (x.1.issue * 8 + 7, Snap.source x.2)
  (sortBy Prod.fst (work ++ status ++ source ++ beats)).map Prod.snd |>.take 128

/-- The code that marks the TSP source of an `sndr` among pending reads. -/
def sourceCode : Nat := 15

/-- What the register holds that a result in flight goes to. -/
def Tile.held (t : Tile) (x : Dest) : VReg :=
  match x with
  | .s r => t.r.s[r].setWidth 1024
  | .k r => t.r.k[r].setWidth 1024
  | .v .a r => t.r.va[r]
  | .v .b r => t.r.vb[r]
  | .m .a r => t.r.ma[r].setWidth 1024
  | .m .b r => t.r.mb[r].setWidth 1024
  | .d r => t.r.d[r].setWidth 1024
  | _ => 0#1024

/-- The words of a snapshot entry. -/
def Dev.snapWords (d : Dev) (n : Fin 128) (x : Snap) : SnapWords :=
  let t := d.tiles[n]
  match d.panelOf n, x with
  | some p, .work i =>
    let rank := fun id => ((p.beats.find? fun b => b.id == id).bind fun b => b.route.getLast?).getD 0
    (t.flight[i]?).elim ⟨0, 0, 0#1024⟩ fun f => f.words p.psc rank (t.held f.dest)
  | some p, .status i =>
    (t.tpath[i]?).elim ⟨0, 0, 0#1024⟩ fun o =>
      ⟨descWord 2 8 16 false false (o.first - p.psc) 0, o.bank.val * 65536 + o.off, o.lines.headD 0#1024⟩
  | some p, .source i =>
    (t.ops[i]?).elim ⟨0, 0, 0#1024⟩ fun o =>
      ⟨descWord 1 13 o.dst o.poison false (o.tspRead.getD p.psc - p.psc) 0, o.data2.toNat, packFields 1024 [(19, 1, sourceCode)]⟩
  | some p, .beat id =>
    match p.beats.find? fun b => b.id == id with
    | some b =>
      if b.taken.contains t.rank then ⟨0, 0, 0#1024⟩
      else ⟨descWord 6 0 b.src b.poison (p.shared t.rank b) 0 ((b.arrival t.rank p.psc).getD 0 - p.psc), 0, b.data⟩
    | none => ⟨0, 0, 0#1024⟩
  | none, _ => ⟨0, 0, 0#1024⟩

/-- Empties a snapshot entry: its work, or its beat with those that share its arrival cycle, has no further effect (R330). -/
def Dev.dropSnap (d : Dev) (n : Fin 128) (x : Snap) : Dev :=
  let rank := d.tiles[n].rank
  match x with
  | .work i => d.onTile n fun t =>
      { t with flight := t.flight.mapIdx fun j f =>
          if j = i then { f with act := .none, dest := .none, pzero := false, pdrop := false, flags := 0#6 } else f }
  | .status i => d.onTile n fun t => { t with tpath := dropAt t.tpath i }
  | .source i => d.onTile n fun t => { t with ops := t.ops.mapIdx fun j o => if j = i then { o with tspRead := none } else o }
  | .beat id =>
    match d.panelOf n with
    | none => d
    | some p =>
      match p.beats.find? fun b => b.id == id with
      | none => d
      | some b =>
        let mark := fun (c : Beat) => if c.arrival rank p.psc == b.arrival rank p.psc then { c with taken := rank :: c.taken } else c
        d.onPanel p.handle fun p => { p with beats := p.beats.map mark }

/-- MUPOS of a unit record: the micro-step boundary at which the unit stands. It may have completed the micro-step in progress or not
(R33, R327): which is a free value, log entry 7. -/
def UnitRec.step (u : UnitRec) (psc : Nat) : Nat :=
  Nat.min 8 ((psc - u.issue) / 16 + if (psc - u.issue) % 16 = 0 then 0 else Config.pick u.issue % 2)

/-- The descriptors of entries 128–131: unit records and the two paths (R328). -/
def Dev.unitDesc (d : Dev) (n : Fin 128) (i : Nat) : Nat :=
  let t := d.tiles[n]
  let psc := d.psc n
  let path := fun (l : List PathOp) (kind : Nat) =>
    match l.find? fun o => o.kind != .zstat with
    | some o => descWord kind (if kind = 4 then 11 else 12) o.reg o.poison false 0 ((o.due.getD o.lastWrite) - psc)
    | none => 0
  if i < 2 then (t.units[i]?).elim 0 fun u => descWord 3 12 u.zd.val u.poison false 0 (u.issue + 144 - psc)
  else if i = 2 then path t.tpath 4
  else path t.apath 5

/-! Bytes of an image -/

/-- Places (offset, size, value) fields in `n` bytes. -/
def placeFields (n : Nat) (l : List (Nat × Nat × Nat)) : List Byte :=
  let m := l.foldl (fun m f => memWriteList m f.1 (leBytes f.2.1 f.2.2)) []
  (List.range n).map (memRead m)

/-- An s, k or vector file as bytes: `w` bytes each. -/
def regFields {k n : Nat} (base w : Nat) (v : Vector (BitVec k) n) : List (Nat × Nat × Nat) :=
  v.toList.zipIdx.map fun x => (base + w * x.2, w, x.1.toNat)

/-- Cycles since an operation issued, as an image holds them: at most 255 (log entry 24). -/
def MemOp.age (o : MemOp) (psc : Nat) : Nat := Nat.min 255 (psc - o.issue)

/-- Bits of QUAL: acquire, release, strong, poison, scope, and whether a fence follows the operation. -/
def MemOp.qual (o : MemOp) (fenced : Bool) : Nat :=
  b2n o.acq + 2 * b2n o.rel + 4 * b2n o.strong + 8 * b2n o.poison + 16 * (o.scope % 8) + 128 * b2n fenced

/-- The kinds of operations, in the order of their codes. -/
def kindCodes : List MKind :=
  [.ldg, .stg, .ldv, .stv, .amoG, .amoV, .zline, .launch, .evpost, .sndr, .semv, .xfar, .xrcvf, .fence, .pref]

/-- TFLAGS (R331). -/
def Tile.tflags (t : Tile) : Nat := b2n t.c.halted + 2 * b2n t.c.held.isSome + 4 * b2n t.c.fenced

/-- Codes of the landing states and token states (R101). -/
def landOf (c : Nat) : LandSt :=
  match c with
  | 1 => .wait
  | 2 => .held
  | 3 => .late
  | 4 => .ready
  | 5 => .failed
  | _ => .free

/-- A token state from its code. -/
def tokOf (c : Nat) : TokSt :=
  match c with
  | 1 => .pending
  | 2 => .done
  | 3 => .part
  | 4 => .failed
  | _ => .free

/-- Whether an operation is a request of a landing slot that is still to be performed. -/
def MemOp.asks (o : MemOp) : Bool := o.ls.isSome && o.stage != .performed

/-- Whether an operation stands among the outbound entries of an image: it holds one, or its target has accepted it and it is still to be performed. -/
def MemOp.outbound (o : MemOp) : Bool :=
  o.entry || (o.stage == .accepted && match o.kind with
    | .stg | .stv | .zline | .sndr | .semv => true
    | _ => false)

/-- The operations that an image holds, in issue order, each with whether a fence follows it before the next. -/
def imaged : List MemOp → List (MemOp × Bool)
  | [] => []
  | o :: r =>
    if o.asks || o.outbound then (o, (r.takeWhile fun x => !(x.asks || x.outbound)).any fun x => x.kind == .fence) :: imaged r
    else imaged r

/-- The answers that performed requests have under way are in their landing slots (R338). -/
def Tile.answered (t : Tile) : Tile :=
  let put := fun (t : Tile) (o : MemOp) =>
    match o.ls with
    | some j =>
      let l := t.lands[j]
      { t with lands := t.lands.set j (if o.failed then l.noData else l.arrive o.data o.poison) }
    | none => t
  let t1 := (t.ops.filter fun o => o.stage == .performed).foldl put t
  { t1 with ops := t.ops.filter fun o => o.stage != .performed }

/-- The commands, in the order of their codes. -/
def cmdCodes : List XCmd := [.go, .gor, .gat, .sca, .fill, .red, .isp]

/-- FLAGS [3:1] of a cursor: which of the record's consumed tokens have a production bound that is still to resolve (R257, R341). -/
def Xfer.boundBits (x : Xfer) : Nat :=
  sumList (x.consumed.zipIdx.map fun k => b2n (x.waits.any fun y => y.1 == k.1) * 2 ^ (1 + k.2))

/-- Fields of a cursor (R341). ROW of a packed `ce.isp` is its input position, and ELEM its output position with, from bit 17 on, the bytes of the
item in hand that it has written (R269; log entry 24). -/
def Token.cursor (k : Token) (base : Nat) : List (Nat × Nat × Nat) :=
  match k.xfer with
  | none => []
  | some x =>
    let bank := fun a => ((tspBank a).elim 0#32 fun b => x.banks[idx 16 b]).toNat
    [(base, 64, x.record.toNat), (base + 0x40, 4, bank x.src), (base + 0x44, 4, bank x.dst), (base + 0x48, 4, if x.packed then x.inPos else x.row),
     (base + 0x4c, 4, if x.packed then x.elem + 2 ^ 17 * x.part else x.elem), (base + 0x50, 8, k.bytes), (base + 0x58, 4, k.nanblk), (base + 0x5c, 4, k.satcnt),
     (base + 0x60, 4, k.crc.toNat), (base + 0x64, 4, b2n x.started + x.boundBits + 16 * codeIn cmdCodes x.cmd + 128 * b2n x.replay)]

/-- A replay entry or a tail (R341); `toRun` marks, in bit 1 of VALID, a chunk that its transfer is still to run (R278; log entry 24). -/
def pieceFields (base tok : Nat) (p : Piece) (toRun : Bool := false) : List (Nat × Nat × Nat) :=
  [(base, 1, tok), (base + 1, 1, 1 + 2 * b2n toRun), (base + 4, 4, p.row), (base + 8, 4, p.first), (base + 12, 4, p.count)]

/-- The replay entries of an image: those of the table, and the chunks that pending transfers are still to run (R278), told by the mark. -/
def Tile.replays (t : Tile) : List (RepEnt × Bool) :=
  t.rep.map (fun e => (e, false)) ++ (List.finRange 32).flatMap fun k =>
    if t.toks[k].st == .pending then ((t.toks[k].xfer).elim [] Xfer.todo).map fun c => ({ tok := k, piece := c }, true) else []

/-- A tile register as 4,352 bytes. -/
def TReg.fields (r : TReg) (base : Nat) : List (Nat × Nat × Nat) := regFields base 64 r.rows ++ [(base + 4096, 256, r.scale.toNat)]

/-- The address word of an operation: a DVA with its hint, an `sndr`'s offset, rank and scale bytes, a `semv`'s rank, or what the instruction gave. -/
def MemOp.addrWord (o : MemOp) : Nat :=
  match o.kind with
  | .ldg | .stg | .amoG | .zline => o.addr.toNat + 2 ^ 56 * o.hint.toNat
  | .sndr => o.addr.toNat % 2 ^ 21 + 2 ^ 21 * o.dst + 2 ^ 32 * o.scales.toNat
  | .semv => o.dst
  | _ => o.addr.toNat

/-- The data of an outbound entry: bytes to write, or the numbers that the operation carries. -/
def MemOp.dataBytes (o : MemOp) : VReg :=
  match o.kind with
  | .semv => packFields 1024 [(0, 1, o.n)]
  | .launch => packFields 1024 [(0, 8, o.dst)]
  | .evpost => packFields 1024 [(0, 8, o.data.toNat), (8, 8, o.data2.toNat), (16, 8, o.n), (24, 2, o.dst)]
  | _ => o.data

/-- The fields of a landing slot, its descriptor at `b` and its data at `v` (R341): `re` is its withdrawn request, with the place of that in issue
order and whether a fence follows. -/
def Land.fields (x : Land) (b v psc : Nat) (re : Option (MemOp × Bool × Nat)) : List (Nat × Nat × Nat) :=
  let c := x.dest.code
  [(b, 1, x.st.code), (b + 1, 1, b2n x.psn + 2 * b2n x.poison + 4 * b2n re.isSome), (b + 2, 1, c.1), (b + 3, 1, c.2), (b + 8, 8, x.due)]
    ++ match re with
      | some y =>
        let o := y.1
        [(b + 4, 1, 1 + codeIn kindCodes o.kind + 16 * codeIn amoCodes o.amo), (b + 5, 1, o.qual y.2.1), (v, 8, o.addrWord),
         (v + 8, 8, o.data.toNat), (v + 16, 8, o.data2.toNat), (v + 24, 1, y.2.2), (v + 25, 1, o.size), (v + 26, 1, o.sem.val),
         (v + 27, 1, o.age psc)]
      | none => [(v, 128, x.data.toNat)]

/-- The withdrawn request of a landing slot, with the place of it in issue order and whether a fence follows. -/
def Tile.reissue (t : Tile) (j : Nat) : Option (MemOp × Bool × Nat) :=
  ((imaged t.ops).zipIdx.find? fun x => x.1.1.asks && x.1.1.ls.elim false fun l => l.val == j).map fun x => (x.1.1, x.1.2, x.2)

/-- The fields of the fixed part but for its header (R341). Bit 1 of a unit record's VALID is its poison, for which R341 has no field. DESIGN CHOICE: log
entry 24. -/
def Dev.fixedFields (d : Dev) (n : Fin 128) : List (Nat × Nat × Nat) :=
  let t := (d.tiles[n]).answered
  let psc := d.psc n
  let loops := t.c.loops.reverse.zipIdx.flatMap fun x =>
    [(0x80 + 16 * x.2, 4, x.1.start.toNat), (0x84 + 16 * x.2, 4, x.1.stop.toNat), (0x88 + 16 * x.2, 4, x.1.count)]
  let isp := fun (base : Nat) (x : IspSrc) => [(base, 4, x.src.val), (base + 4, 4, x.extent), (base + 8, 8, x.shadow.toNat)]
  let state := (List.range 128).filterMap fun k =>
    if k = 0 ∨ (1 ≤ k ∧ k ≤ 4) ∨ k = 0x00A then none else (d.readSr n k).map fun v => (0x200 + 8 * k, 8, v)
  let toks := t.toks.toList.zipIdx.flatMap fun x =>
    let b := 0x600 + 16 * x.2
    [(b, 1, x.1.st.code), (b + 1, 1, x.1.status.toNat), (b + 2, 2, t.replCount (idx 32 x.2))]
  let lands := t.lands.toList.zipIdx.flatMap fun x => x.1.fields (0x800 + 16 * x.2) (0x0c00 + 128 * x.2) psc (t.reissue x.2)
  let snaps := (d.snaps n).zipIdx.flatMap fun x =>
    let w := d.snapWords n x.1
    [(0x2c00 + 16 * x.2, 8, w.desc), (0x2c08 + 16 * x.2, 8, w.addr), (0x3400 + 128 * x.2, 128, w.value.toNat)]
  let cursors := t.toks.toList.zipIdx.flatMap fun x => x.1.cursor (0x7400 + 128 * x.2)
  let reps := (t.replays.take 64).zipIdx.flatMap fun x => pieceFields (0x8400 + 16 * x.2) x.1.1.tok.val x.1.1.piece x.1.2
  let tails := t.toks.toList.zipIdx.flatMap fun x => (x.1.xfer.bind Xfer.tail).elim [] (pieceFields (0x8800 + 16 * x.2) x.2)
  let outs := (((imaged t.ops).filter fun x => x.1.outbound).take 64).zipIdx.flatMap fun x =>
    let o := x.1.1
    let b := 0x8a00 + 16 * x.2
    let age := o.age psc
    [(b, 1, 1 + codeIn kindCodes o.kind + 16 * (age / 16)), (b + 1, 1, o.sem.val + 16 * (age % 16)), (b + 2, 1, o.qual x.1.2 + b2n o.tspRead.isSome),
     (b + 3, 1, o.rty.toNat + 4 * b2n o.isMax + 8 * o.srcFmt.toNat), (b + 4, 1, o.size), (b + 8, 8, o.addrWord),
     (0x8e00 + 128 * x.2, 128, o.dataBytes.toNat)]
  let units := ((t.units.filter fun u => u.alone.isNone).take 2).zipIdx.flatMap fun x =>
    let b := 0xae00 + 8768 * x.2
    [(b, 4, x.1.word.toNat), (b + 8, 8, x.1.issue), (b + 16, 1, x.1.step psc), (b + 17, 1, 1 + 2 * b2n x.1.poison)] ++ x.1.a.fields (b + 0x40) ++ x.1.b.fields (b + 0x1140)
  regFields 0x40 4 t.r.k ++ loops ++ regFields 0xc0 4 t.r.ma ++ regFields 0xe0 4 t.r.mb
    ++ [(0x100, 4, t.c.idle), (0x104, 4, t.tflags), (0x108, 4, t.sr.latch.toNat)]
    ++ (t.sr.wakeEnd.toList.zipIdx.map fun x => (0x110 + 8 * x.2, 8, if psc < x.1 then x.1 else 0)) ++ isp 0x150 t.c.ispA ++ isp 0x160 t.c.ispB
    ++ [(0x170, 8, t.c.wlo.toNat), (0x178, 8, t.c.whi.toNat), (0x180, 4, t.c.wctl.toNat), (0x184, 4, t.c.dbgctl.toNat),
        (0x190, 4, t.r.sPoison.toNat), (0x194, 4, t.r.vaPoison.toNat), (0x198, 4, t.r.vbPoison.toNat),
        (0x19c, 4, t.r.tPoison.toNat + 256 * t.r.zPoison.toNat)]
    ++ state ++ toks ++ lands ++ snaps ++ cursors ++ reps ++ tails ++ outs ++ units

/-- Bytes of the fixed part (R339). -/
def fixedSize : Nat := 0xf400

/-- Bytes of a path part (R347). -/
def pathSize : Nat := 20864

/-- The operations with a path record, and the opcode of each. -/
def PathKind.opc : PathKind → Nat
  | .mld => 1
  | .mldt => 2
  | .mlds => 3
  | .mst => 4
  | .zout => 8
  | .zoutv => 9
  | .zld => 10
  | .zst => 11
  | .zstat => 12
  | .mzero => 5

/-- Bytes of a line as a path record holds it: a row of `mst` as its register has it, a readout row in its bank's format. -/
def PathOp.recordStep (o : PathOp) (m : Nat) : Nat × Nat :=
  match o.kind with
  | .mst => (64 * m, 64)
  | .zout => if o.cnt = 128 then (128 * m, 128) else (256 * m, 128)
  | .zoutv => (64 * m, 64)
  | .zld | .zst => (128 * m, 128)
  | _ => (sumList ((List.range m).map fun i => (o.access i).2), (o.access m).2)

/-- Where the scale bytes of an access stand in a path record. -/
def PathOp.scaleStep (o : PathOp) (m : Nat) : Nat :=
  match o.kind with
  | .zout => 256 * m + 128
  | _ => 4096 + 4 * m

/-- Whether a path record holds scale bytes. -/
def PathOp.hasScales (o : PathOp) : Bool := o.kind == .mst || o.blocks != 0

/-- Lines that a path record holds: what a load has read, the 64 rows of a register, or what is to be written. -/
def PathOp.held (o : PathOp) : Nat :=
  match o.kind with
  | .mst | .zoutv => 64
  | _ => if o.reads then o.done else o.cnt

/-- The fields of one path record (R347), a readout as ZCTL.SAT `sat` has it. -/
def pathFields (base : Nat) (l : List PathOp) (sat : Bool) : List (Nat × Nat × Nat) :=
  match l.find? fun o => o.kind != .zstat && o.kind != .mzero with
  | none => []
  | some o =>
    let scales := if o.hasScales then o.scales.zipIdx.map fun x => (base + 0x40 + o.scaleStep x.2, 4, x.1.toNat) else []
    [(base, 4, o.word.toNat), (base + 4, 2, o.imm.toNat), (base + 6, 1, 1 + 2 * b2n o.drop), (base + 7, 1, o.done), (base + 8, 8, o.issue),
     (base + 0x10, 4, o.bfmt.toNat), (base + 0x14, 4, o.tgeom.toNat), (base + 0x18, 1, (o.underSat sat).zflags.toNat)]
      ++ (o.underSat sat).lines.zipIdx.map (fun x => (base + 0x40 + (o.recordStep x.2).1, (o.recordStep x.2).2, x.1.toNat)) ++ scales

/-- Bytes of the tile-path record (R347). -/
def tpathSize : Nat := 0x1140

/-- The path part: each record stands in its own bytes. What a load of more than 34 full accesses has read beyond 4,352 bytes is kept beside the image
alone, as are the poison of an operation and the lines of a readout for the other value of ZCTL.SAT. DESIGN CHOICE: log entry 104. -/
def Tile.pathPart (t : Tile) : List Byte :=
  let sat := t.sr.zctl.getLsbD 0
  placeFields tpathSize ((pathFields 0 t.tpath sat).filter fun f => decide (f.1 + f.2.1 ≤ tpathSize)) ++ placeFields (pathSize - tpathSize) (pathFields 0 t.apath sat)

/-- Pieces of the named part in order: bit of the live mask, and the bytes (R340). -/
def Dev.namedPart (d : Dev) (n : Fin 128) (lm : BitVec 21) (bm : BitVec 16) : List Byte :=
  let t := d.tiles[n].named lm
  let part := fun (i len : Nat) (l : List (Nat × Nat × Nat)) => if live lm i then placeFields len l else []
  let cluster := fun (v : Vector VReg 32) (c : Nat) => ((v.toList.drop (8 * c)).take 8).zipIdx.map fun x => (128 * x.2, 128, x.1.toNat)
  part 0 256 (regFields 0 8 t.r.s)
    ++ (List.range 4).flatMap (fun c => part (1 + c) 1024 (cluster t.r.va c))
    ++ (List.range 4).flatMap (fun c => part (5 + c) 1024 (cluster t.r.vb c))
    ++ (List.finRange 8).flatMap (fun i => part (9 + i.val) 4352 (t.r.t[i].fields 0))
    ++ (List.finRange 4).flatMap (fun i => part (17 + i.val) 16384 (regFields 0 256 t.r.z[i]))
    ++ (List.range 16).flatMap (fun b => if bm.getLsbD b && !t.owned b then d.bytes (tspKey n (b * 65536)) 65536 else [])

/-- Bytes of the named part. -/
def namedSize (lm : BitVec 21) (bm : BitVec 16) : Nat :=
  256 * b2n (live lm 0) + 1024 * sumList ((List.range 8).map fun i => b2n (live lm (1 + i)))
    + 4352 * sumList ((List.range 8).map fun i => b2n (live lm (9 + i))) + 16384 * sumList ((List.range 4).map fun i => b2n (live lm (17 + i)))
    + 65536 * sumList ((List.range 16).map fun b => b2n (bm.getLsbD b))

/-- The banks of a mask that no preload owns. -/
def Tile.freeBanks (t : Tile) (bm : BitVec 16) : BitVec 16 := bm &&& ~~~t.sr.bown

/-- MAGIC of a context image (R342). -/
def ctxMagic : Nat := 0x5854434b

/-- A whole context image of a tile (R340, R342): fixed, named and, when `full`, path part, with its CRC. -/
def Dev.ctxImage (d : Dev) (n : Fin 128) (lm : BitVec 21) (bm : BitVec 16) (full : Bool) (spill : Nat) : List Byte :=
  let t := d.tiles[n]
  let b := t.freeBanks bm
  let named := d.namedPart n lm b
  let dn := d.onTile n fun t => t.named lm
  let p := d.panelOf n
  let header :=
    [(0x00, 4, ctxMagic), (0x04, 2, 1), (0x06, 1, t.rank), (0x07, 1, 1 + 2 * b2n (spill != 0) + 4 * b2n full), (0x08, 8, d.psc n),
     (0x10, 4, t.c.pc.toNat), (0x14, 4, lm.toNat), (0x18, 2, b.toNat), (0x1a, 1, p.elim 0 Panel.w), (0x1b, 1, p.elim 0 Panel.h),
     (0x1c, 4, named.length), (0x20, 8, t.sr.ispid.toNat), (0x28, 8, p.elim 0 fun p => p.image.toNat), (0x30, 8, spill)]
  let fixed := placeFields fixedSize (header ++ dn.fixedFields n)
  let rest := named ++ if full then t.pathPart else []
  fixed.take 0x38 ++ leBytes 4 (crc32c (fixed ++ rest)).toNat ++ fixed.drop 0x3c ++ rest

/-- A field of bytes. -/
def bytesField (l : List Byte) (off size : Nat) : Nat := leNat ((l.drop off).take size)

/-- The whole length of the image that a fixed part heads. -/
def ctxLength (h : List Byte) : Nat := fixedSize + bytesField h 0x1c 4 + if bit (bytesField h 7 1) 2 then pathSize else 0

/-- The checks of an image (R344, R346): MAGIC, VERSION, VALID, CRC, RANK and panel shape, and that NAMED fits the masks. -/
def ctxValid (l : List Byte) (rank w h : Nat) : Bool :=
  bytesField l 0 4 == ctxMagic && bytesField l 4 2 == 1 && bit (bytesField l 7 1) 0 && bytesField l 6 1 == rank
    && bytesField l 0x1a 1 == w && bytesField l 0x1b 1 == h
    && bytesField l 0x1c 4 == namedSize (BitVec.ofNat 21 (bytesField l 0x14 4)) (BitVec.ofNat 16 (bytesField l 0x18 2))
    && crc32c (l.take 0x38 ++ List.replicate 4 0#8 ++ l.drop 0x3c) == BitVec.ofNat 32 (bytesField l 0x38 4)

/-! A tile's state from an image -/

/-- A vector of registers from consecutive fields of `w` bytes. -/
def regsAt (l : List Byte) (base w k n : Nat) : Vector (BitVec k) n := Vector.ofFn fun i => BitVec.ofNat k (bytesField l (base + w * i.val) w)

/-- A tile register from 4,352 bytes. -/
def tregAt (l : List Byte) (base : Nat) : TReg where
  rows := regsAt l base 64 512 64
  scale := BitVec.ofNat 2048 (bytesField l (base + 4096) 256)

/-- The state-block value of a register. -/
def stateAt (l : List Byte) (num : Nat) : Nat := bytesField l (0x200 + 8 * num) 8

/-- The barrier hold that belongs to the bundle at RPC, from its header's SYNC (R331). -/
def Dev.holdAt (d : Dev) (n : Fin 128) (t : Tile) : Option Hold :=
  match ispAddr n t t.c.pc.toNat with
  | none => none
  | some k =>
    let g := fieldOf (d.word k) 8 3
    if g = 0 then none
    else some { group := idx 8 g, mask := t.sr.gm[idx 7 (g - 1)], cycles := 0, release := none }

/-- Cycles from the issue of a timed access to its perform cycle (R224, R244). -/
def perfAfter (sp : Space) (write : Bool) : Nat :=
  match sp, write with
  | .tsp, false => 2
  | .vault, false => 6
  | .vault, true => 7
  | _, _ => 3

/-- An entry of fixed-latency work from its words (R327). An access issued as long before its perform cycle as R224 gives; a result counts as issued
with the entry before it, on `last`. -/
def flightAt (w : SnapWords) (last psc : Nat) : Option Flight :=
  let kind := w.desc / 2 ^ 56
  let dest := destOf (field w.desc 48 8) (field w.desc 32 16)
  let poison := bit w.desc 29
  let perf := psc + field w.desc 16 12
  let due := psc + field w.desc 0 16
  let sp : Space := if w.addr < 0x1000000 then .tsp else .vault
  let at_ := if w.addr < 0x1000000 then w.addr else w.addr - 0x1000000
  let f := fun (i : Nat) => Flight.result i 0 due dest w.value poison
  match kind with
  | 0 => if w.desc = 0 then none else some { f last with loc := w.addr }
  | 1 =>
    let op := fieldOf w.value 128 8
    let dk := BitVec.ofNat 4 (fieldOf w.value 152 8)
    let word := fun (off : Nat) => BitVec.ofNat 64 (fieldOf w.value (8 * off) 64)
    let ord := ordOf (fieldOf w.value 136 8)
    let g := f (perf - perfAfter sp false)
    if dk.toNat = sourceCode then none
    else match (if op = 0 then none else amoCodes[op - 1]?) with
      | some o =>
        if fieldOf w.value 144 8 = 1 then
          some { f (perf - 1 - perfAfter sp false) with
            act := .rmw (perf - 1) sp at_ o (word 0) (word 8) ord, value := (word 24).setWidth 1024, loc := w.addr }
        else some { g with act := .amo perf sp at_ o (word 0) (word 8) ord, value := 0#1024 }
      | none => some { g with act := .read perf sp at_ dk, value := 0#1024 }
  | 2 =>
    let sp := match field w.desc 48 8 with
      | 8 => Space.tsp
      | 9 => Space.vault
      | _ => Space.isp
    let a := if sp == .vault then w.addr - 0x1000000 else w.addr
    some { Flight.result (perf - perfAfter sp true) 0 perf .none 0#1024 false with
           act := .write perf sp a (let n := field w.desc 32 16; if n = 0 then 8 else n) w.value, pdrop := poison }
  | _ => none

/-- The entries of fixed-latency work of an image, in order. -/
def flightsAt (psc : Nat) : List SnapWords → Nat → List Flight
  | [], _ => []
  | w :: r, last =>
    match flightAt w last psc with
    | some f => f :: flightsAt psc r f.issue
    | none => flightsAt psc r last

/-- The TSP sources of `sndr` among the entries of an image: rank, cycle, address, poison. -/
def sourcesAt (psc : Nat) (l : List SnapWords) : List (Nat × Nat × W64 × Bool) :=
  (l.filter fun w => w.desc / 2 ^ 56 == 1 && fieldOf w.value 152 8 == sourceCode).map fun w =>
    (field w.desc 32 16, psc + field w.desc 16 12, BitVec.ofNat 64 w.addr, bit w.desc 29)

/-- The snapshot words of an image. -/
def snapAt (l : List Byte) (i : Nat) : SnapWords :=
  ⟨bytesField l (0x2c00 + 16 * i) 8, bytesField l (0x2c08 + 16 * i) 8, BitVec.ofNat 1024 (bytesField l (0x3400 + 128 * i) 128)⟩

/-- A beat in flight to a rank of a panel, from its entry: it has launched so that its way ends on the entry's cycle; one that has still to launch comes
from a TSP bank (R242, R243). -/
def Panel.beatAt (p : Panel) (w : SnapWords) (id rank psc : Nat) : Beat where
  id := id
  src := field w.desc 32 16
  route := p.route (field w.desc 32 16) rank
  each := false
  launch := psc + field w.desc 0 16 - 2 * (p.route (field w.desc 32 16) rank).length
  issue := psc + field w.desc 0 16 - 2 * (p.route (field w.desc 32 16) rank).length - 4
  faddr := 0#32
  data := w.value
  poison := bit w.desc 29
  taken := []
  extra := if bit w.desc 28 then [rank] else []

/-- The entries of an image's replay table, each with its mark. -/
def entriesAt (l : List Byte) : List (RepEnt × Bool) :=
  (List.range 64).filterMap fun i =>
    let b := 0x8400 + 16 * i
    let valid := bytesField l (b + 1) 1
    if bit valid 0 then
      some ({ tok := idx 32 (bytesField l b 1),
              piece := { row := bytesField l (b + 4) 4, first := bytesField l (b + 8) 4, count := bytesField l (b + 12) 4 } }, bit valid 1)
    else none

/-- The chunks that the transfer of a token is still to run. -/
def todoAt (l : List Byte) (k : Fin 32) : List Piece := ((entriesAt l).filter fun x => x.2 && x.1.tok == k).map fun x => x.1.piece

/-- A token with its cursor (R341). -/
def tokenAt (l : List Byte) (k : Fin 32) (psc : Nat) : Token :=
  let b := 0x600 + 16 * k.val
  let c := 0x7400 + 128 * k.val
  let tl := 0x8800 + 16 * k.val
  let st := tokOf (bytesField l b 1)
  let record : BitVec 512 := BitVec.ofNat 512 (bytesField l c 64)
  let flags := bytesField l (c + 0x64) 4
  let x0 := newXfer ((cmdCodes[field flags 4 3]?).getD .go) record psc
  let pos := bytesField l (c + 0x4c) 4
  let s : W32 := BitVec.ofNat 32 (bytesField l (c + 0x40) 4)
  let e : W32 := BitVec.ofNat 32 (bytesField l (c + 0x44) 4)
  let banks : Vector W32 16 := Vector.ofFn fun i => if tspBank x0.dst == some i.val then e else s
  let tail : Option Piece :=
    if bytesField l (tl + 1) 1 = 1 then
      some { row := bytesField l (tl + 4) 4, first := bytesField l (tl + 8) 4, count := bytesField l (tl + 12) 4 }
    else none
  let x := { x0 with
    waits := (x0.consumed.zipIdx.filter fun y => bit flags (1 + y.2)).map fun y => (y.1, 0)
    started := bit flags 0, banks := banks, row := if x0.packed then 0 else bytesField l (c + 0x48) 4, elem := if x0.packed then pos % 2 ^ 17 else pos,
    inPos := if x0.packed then bytesField l (c + 0x48) 4 else 0, part := if x0.packed then pos / 2 ^ 17 else 0, tail := tail, noMore := tail.isSome,
    replay := bit flags 7, todo := if st == .pending then todoAt l k else [] }
  { st := st, status := BitVec.ofNat 8 (bytesField l (b + 1) 1), bytes := bytesField l (c + 0x50) 8, nanblk := bytesField l (c + 0x58) 4,
    satcnt := bytesField l (c + 0x5c) 4, crc := BitVec.ofNat 32 (bytesField l (c + 0x60) 4), tag := x0.tag, prod := 0,
    xfer := if st == .pending || st == .part then some x else none }

/-- An operation from its codes. -/
def opAt (kind qual addr size issue : Nat) : MemOp where
  kind := (kindCodes[kind]?).getD .stg
  issue := issue
  stage := .issued
  entry := false
  ls := none
  addr := BitVec.ofNat 64 addr
  size := size
  data := 0#1024
  data2 := 0#64
  scales := 0#32
  amo := .add
  acq := bit qual 0
  rel := bit qual 1
  strong := bit qual 2
  scope := field qual 4 3
  hint := 0#2
  dst := 0
  sem := 0
  n := 0
  rty := 0#2
  isMax := false
  srcFmt := 0#4
  poison := bit qual 3
  failed := false
  tspRead := none
  past := true
  wait := .no

/-- A landing slot, its descriptor at `b` and its data at `v` (R341). -/
def landAt (l : List Byte) (b v psc : Nat) : Land :=
  let re := bit (bytesField l (b + 1) 1) 2
  { st := landOf (bytesField l b 1), dest := destOf (bytesField l (b + 2) 1) (bytesField l (b + 3) 1), due := bytesField l (b + 8) 8,
    psn := bit (bytesField l (b + 1) 1) 0, data := if re then 0#1024 else BitVec.ofNat 1024 (bytesField l v 128),
    poison := bit (bytesField l (b + 1) 1) 1, issue := psc, slot := 5 }

/-- The request that a landing slot's descriptor and data give, if it is to be reissued. -/
def askAt (l : List Byte) (j : Fin 64) (b v psc : Nat) : Option MemOp :=
  let k := bytesField l (b + 4) 1
  let a := bytesField l v 8
  if !bit (bytesField l (b + 1) 1) 2 then none
  else
    let o0 := opAt (k % 16 - 1) (bytesField l (b + 5) 1) a (bytesField l (v + 25) 1) (psc - bytesField l (v + 27) 1)
    let o : MemOp := { o0 with
      ls := some j, amo := (amoCodes[k / 16]?).getD .add, data := BitVec.ofNat 1024 (bytesField l (v + 8) 8),
      data2 := BitVec.ofNat 64 (bytesField l (v + 16) 8), sem := idx 16 (bytesField l (v + 26) 1) }
    match o.kind with
    | .ldg | .amoG => some { o with addr := BitVec.ofNat 64 (a % 2 ^ 56), hint := BitVec.ofNat 2 (a / 2 ^ 56) }
    | _ => some o

/-- An outbound entry, its fields at `b` and its data at `v`. -/
def outAt (l : List Byte) (b v psc : Nat) : Option MemOp :=
  let k := bytesField l b 1
  let a := bytesField l (b + 8) 8
  let op := bytesField l (b + 3) 1
  let w := fun (i len : Nat) => bytesField l (v + i) len
  if k % 16 = 0 then none
  else
    let age := k / 16 * 16 + bytesField l (b + 1) 1 / 16
    let o0 := opAt (k % 16 - 1) (bytesField l (b + 2) 1) a (bytesField l (b + 4) 1) (psc - age)
    let o : MemOp := { o0 with
      entry := true, data := BitVec.ofNat 1024 (w 0 128), sem := idx 16 (bytesField l (b + 1) 1 % 16), rty := BitVec.ofNat 2 op, isMax := bit op 2,
      srcFmt := BitVec.ofNat 4 (op / 8) }
    match o.kind with
    | .stg | .zline => some { o with addr := BitVec.ofNat 64 (a % 2 ^ 56), hint := BitVec.ofNat 2 (a / 2 ^ 56) }
    | .sndr => some { o with addr := BitVec.ofNat 64 (a % 2 ^ 21), dst := field a 21 11, scales := BitVec.ofNat 32 (a / 2 ^ 32) }
    | .semv => some { o with addr := 0#64, dst := a, data := 0#1024, n := w 0 1 }
    | .launch => some { o with data := 0#1024, dst := w 0 8 }
    | .evpost => some { o with data := BitVec.ofNat 1024 (w 0 8), data2 := BitVec.ofNat 64 (w 8 8), n := w 16 8, dst := w 24 2 }
    | _ => some o

/-- A fence that holds everything, in the place of one that an image marks. -/
def fenceMark : MemOp := { opAt 13 0x43 0 0 0 with stage := .issued }

/-- Operations in issue order, each with whether a fence follows it, with their fences: `last` is the issue of the one before. An operation keeps its own
issue, but comes after the one before it where both are older than an image tells (log entry 24). -/
def inOrder (psc : Nat) : List (MemOp × Bool) → Nat → List MemOp
  | [], _ => []
  | x :: r, last =>
    let i := if x.1.issue + 255 ≤ psc then Nat.max x.1.issue (last + 1) else Nat.max x.1.issue last
    if x.2 then { x.1 with issue := i } :: { fenceMark with issue := i + 1 } :: inOrder psc r (i + 2)
    else { x.1 with issue := i } :: inOrder psc r i

/-- The operations whose TSP source is still to be read take the sources that an image lists, in order (R247, R327). -/
def withSources : List MemOp → List (Nat × Nat × W64 × Bool) → List MemOp
  | [], _ => []
  | o :: r, l =>
    if o.kind == .sndr && o.acq then
      match l with
      | x :: l => { o with acq := false, tspRead := some x.2.1, data2 := x.2.2.1, poison := o.poison || x.2.2.2 } :: withSources r l
      | [] => { o with acq := false } :: withSources r []
    else o :: withSources r l

/-- The operations of an image in issue order: the withdrawn requests at their places among the outbound entries, and the fences that follow them. -/
def opsAt (l : List Byte) (psc : Nat) : List MemOp :=
  let outs := (List.range 64).filterMap fun i =>
    (outAt l (0x8a00 + 16 * i) (0x8e00 + 128 * i) psc).map fun o => (o, bit (bytesField l (0x8a00 + 16 * i + 2) 1) 7)
  let asks := (List.finRange 64).filterMap fun j =>
    (askAt l j (0x800 + 16 * j.val) (0x0c00 + 128 * j.val) psc).map fun o =>
      (bytesField l (0x0c00 + 128 * j.val + 24) 1, o, bit (bytesField l (0x800 + 16 * j.val + 5) 1) 7)
  let all := (sortBy Prod.fst asks).foldl (fun acc x => acc.take x.1 ++ [x.2] ++ acc.drop x.1) outs
  withSources (inOrder psc all 0) (sourcesAt psc ((List.range 128).map (snapAt l)))

/-- A unit record (R341): its registers stand in OPWORD. -/
def unitAt (l : List Byte) (i : Nat) (tgeom : Vector W32 8) : Option UnitRec :=
  let b := 0xae00 + 8768 * i
  let valid := bytesField l (b + 17) 1
  if bit valid 0 then
    let w := bytesField l b 4
    some { word := BitVec.ofNat 32 w, issue := bytesField l (b + 8) 8, outl := field w 26 6 == 7, zd := idx 4 (field w 20 2),
           a := tregAt l (b + 0x40), b := tregAt l (b + 0x1140), ga := tgeom[idx 8 (field w 17 3)], gb := tgeom[idx 8 (field w 14 3)],
           poison := bit valid 1, alone := none }
  else none

/-- The place of a named item in the named part: the sizes of the items before it. -/
def namedOffset (lm : BitVec 21) (i : Nat) : Nat :=
  fixedSize + sumList ((List.range i).map fun j =>
    if live lm j then (if j = 0 then 256 else if j < 9 then 1024 else if j < 17 then 4352 else 16384) else 0)

/-- The register files of an image; what is not named reads zero. -/
def TileRegs.ofImage (l : List Byte) (lm : BitVec 21) : TileRegs :=
  let named := fun (i : Nat) => live lm i
  let off := namedOffset lm
  let vec := fun (b : Nat) => Vector.ofFn fun (i : Fin 32) =>
    if named (b + i.val / 8) then BitVec.ofNat 1024 (bytesField l (off (b + i.val / 8) + 128 * (i.val % 8)) 128) else 0#1024
  let pz := bytesField l 0x19c 4
  { k := regsAt l 0x40 4 32 16
    s := if named 0 then regsAt l (off 0) 8 64 32 else Vector.replicate 32 0#64
    sPoison := BitVec.ofNat 32 (bytesField l 0x190 4)
    va := vec 1
    vb := vec 5
    vaPoison := BitVec.ofNat 32 (bytesField l 0x194 4)
    vbPoison := BitVec.ofNat 32 (bytesField l 0x198 4)
    ma := regsAt l 0xc0 4 32 8
    mb := regsAt l 0xe0 4 32 8
    p := BitVec.ofNat 8 (stateAt l 0x00e)
    t := Vector.ofFn fun i => if named (9 + i.val) then tregAt l (off (9 + i.val)) else TReg.reset
    tPoison := BitVec.ofNat 8 pz
    z := Vector.ofFn fun i => if named (17 + i.val) then regsAt l (off (17 + i.val)) 256 2048 64 else Acc.reset
    zPoison := BitVec.ofNat 4 (pz / 256)
    d := Vector.ofFn fun i => BitVec.ofNat 64 (stateAt l (0x60 + i.val)) }

/-- The state registers of an image (R341), whose reserved fields stay zero (R6); what the image does not hold keeps its value. -/
def TileSr.ofImage (old : TileSr) (l : List Byte) : TileSr :=
  let w32 := fun (n : Nat) => BitVec.ofNat 32 (stateAt l n)
  { old with
    wid := BitVec.ofNat 64 (stateAt l 0x008)
    ispid := BitVec.ofNat 64 (bytesField l 0x20 8) &&& 0xffffffff00000001#64
    tstat := w32 0x010 &&& 0x3f#32
    pdcnt := w32 0x011
    xrncnt := w32 0x012
    xrscnt := w32 0x013
    fsta := w32 0x014 &&& 0x23f#32
    fstb := w32 0x015 &&& 0x23f#32
    awakeA := BitVec.ofNat 4 (stateAt l 0x016)
    awakeB := BitVec.ofNat 4 (stateAt l 0x017)
    wakeEnd := Vector.ofFn fun i => bytesField l (0x110 + 8 * i.val) 8
    zctl := w32 0x018 &&& 1#32
    bfmt := Vector.ofFn fun i => w32 (0x030 + i.val) &&& bfmtMask
    tgeom := Vector.ofFn fun i => w32 (0x040 + i.val) &&& 0xf7f3f#32
    zs := Vector.ofFn fun i => w32 (0x048 + i.val) &&& 0x33d#32
    gm := Vector.ofFn fun i => BitVec.ofNat 128 (stateAt l (0x050 + 2 * i.val) + 2 ^ 64 * stateAt l (0x051 + 2 * i.val))
    sem := Vector.ofFn fun i => w32 (0x070 + i.val)
    bown := BitVec.ofNat 16 (stateAt l 0x01a)
    latch := BitVec.ofNat 32 (bytesField l 0x108 4) }

/-- The loop stack of an image, bottom first in its bytes. -/
def loopsAt (l : List Byte) : List LoopEnt :=
  ((List.range 4).filterMap fun e =>
    let b := 0x80 + 16 * e
    let c := bytesField l (b + 8) 4
    if c = 0 then none
    else some { start := BitVec.ofNat 32 (bytesField l b 4), stop := BitVec.ofNat 32 (bytesField l (b + 4) 4), count := c }).reverse

/-- The replay table of an image, without the chunks that transfers are still to run. -/
def repAt (l : List Byte) : List RepEnt := ((entriesAt l).filter fun x => !x.2).map Prod.fst

/-- Sequencing state of an image; the halves are loaded from their sources (R343). -/
def TileCtl.ofImage (old : TileCtl) (l : List Byte) : TileCtl :=
  let flags := bytesField l 0x104 4
  let isp := fun (b : Nat) =>
    ({ src := idx 3 (bytesField l b 4), extent := bytesField l (b + 4) 4, shadow := BitVec.ofNat 64 (bytesField l (b + 8) 8) } : IspSrc)
  { old with
    pc := BitVec.ofNat 32 (bytesField l 0x10 4)
    idle := bytesField l 0x100 4
    loops := loopsAt l
    halted := bit flags 0
    held := none
    passed := false
    fenced := bit flags 2
    fenceAt := []
    acqFence := true
    stitch := none
    ispA := isp 0x150
    ispB := isp 0x160
    wlo := BitVec.ofNat 64 (bytesField l 0x170 8)
    whi := BitVec.ofNat 64 (bytesField l 0x178 8)
    wctl := BitVec.ofNat 32 (bytesField l 0x180 4) &&& 7#32
    dbgctl := BitVec.ofNat 32 (bytesField l 0x184 4) &&& 1#32 }

/-- The registers, bank and formats that the words of a path record name, with its counts (R347); its data are still to be read. -/
def pathHead (l : List Byte) (base : Nat) : Option PathOp :=
  let w := bytesField l base 4
  let bfmt : W32 := BitVec.ofNat 32 (bytesField l (base + 0x10) 4)
  let g : W32 := BitVec.ofNat 32 (bytesField l (base + 0x14) 4)
  let fmt := bfmtFmt bfmt
  let flags := bytesField l (base + 6) 1
  let o : PathOp :=
    { kind := .zst, word := BitVec.ofNat 32 w, imm := BitVec.ofNat 16 (bytesField l (base + 4) 2), issue := bytesField l (base + 8) 8, cnt := 128,
      bank := idx 16 (field w 15 4), off := bytesField l (base + 4) 2, bfmt := bfmt, tgeom := g, reg := field w 19 3, raw := bit w 14,
      tag := 0#4, src := 0#4, done := bytesField l (base + 7) 1, drop := bit flags 1, poison := false,
      zflags := BitVec.ofNat 6 (bytesField l (base + 0x18) 1), zo := none, lines := [], scales := [],
      satLines := [], satFlags := BitVec.ofNat 6 (bytesField l (base + 0x18) 1) }
  let outl : Option (Fin 4) := if bit w 8 then some (idx 4 (field w 18 2)) else none
  let load := fun (kind : PathKind) =>
    let lf := (loadFmt (if bit w 14 then some (BitVec.ofNat 4 (field w 10 4)) else none) fmt (kind == .mldt)).getD (0, 0)
    let p := { o with kind := kind, tag := BitVec.ofNat 4 lf.1, src := BitVec.ofNat 4 lf.2 }
    { p with cnt := if kind == .mldt then geomCols g * mldtPer p else geomRows g }
  if !bit flags 0 then none
  else match field w 26 6 with
    | 1 => some (load .mld)
    | 2 => some (load .mldt)
    | 3 => some { o with kind := .mlds, cnt := 2 }
    | 4 =>
      let tag := geomTag g
      let copy := bit w 14 || fmt == 0 || tag == 0
      some { o with kind := .mst, cnt := geomRows g, raw := copy, src := BitVec.ofNat 4 tag,
                    tag := BitVec.ofNat 4 (if !copy && tag == 9 && fmt == 0xA then 0xA else tag) }
    | 8 => some { o with kind := .zout, cnt := if codeBits fmt = 32 then 128 else 64, bank := idx 16 (field w 11 4), reg := field w 20 2,
                         raw := false, tag := BitVec.ofNat 4 fmt, zo := outl }
    | 9 => some { o with kind := .zoutv, cnt := 0, bank := 0, off := 0, reg := field w 12 3, raw := false, src := BitVec.ofNat 4 (field w 20 2),
                         tag := BitVec.ofNat 4 (field w 0 4), zo := outl }
    | 10 => some { o with kind := .zld, bank := idx 16 (field w 16 4), reg := field w 20 2, raw := false }
    | 11 => some { o with kind := .zst, bank := idx 16 (field w 16 4), reg := field w 20 2, raw := false }
    | _ => none

/-- A path operation from its record (R347). -/
def pathAt (l : List Byte) (base : Nat) : List PathOp :=
  match pathHead l base with
  | none => []
  | some o =>
    let line := fun (m : Nat) => BitVec.ofNat 1024 (bytesField l (base + 0x40 + (o.recordStep m).1) (o.recordStep m).2)
    let lines := (List.range o.held).map line
    [{ o with lines := lines
              satLines := if o.kind == .zout || o.kind == .zoutv then lines else []
              scales := (List.range o.held).map fun m =>
                BitVec.ofNat 32 (if o.hasScales then bytesField l (base + 0x40 + o.scaleStep m) 4 else 0) }]

/-- The tile that an image describes: `old` gives what no image holds (owner, rank, drain, TLB). -/
def Tile.ofImage (old : Tile) (l : List Byte) (psc : Nat) : Tile :=
  let lm : BitVec 21 := BitVec.ofNat 21 (bytesField l 0x14 4)
  let sr := old.sr.ofImage l
  let path := bit (bytesField l 7 1) 2
  let at_ := bytesField l 0x1c 4 + fixedSize
  let part := fun (base : Nat) => if path then pathAt l (at_ + base) else []
  let newest := ((List.range 2).filterMap fun i => unitAt l i sr.tgeom).getLast?
  { old with
    r := TileRegs.ofImage l lm
    sr := { sr with mIssue := newest.map UnitRec.issue, mOutl := newest.elim sr.mOutl UnitRec.outl, mZdst := newest.elim sr.mZdst UnitRec.zd }
    c := old.c.ofImage l
    flight := flightsAt psc ((List.range 128).map (snapAt l)) 0
    units := (List.range 2).filterMap fun i => unitAt l i sr.tgeom
    tpath := part 0
    apath := part 0x1140
    toks := Vector.ofFn fun k => tokenAt l k psc
    rep := repAt l
    lands := Vector.ofFn fun j => landAt l (0x800 + 16 * j.val) (0x0c00 + 128 * j.val) psc
    ops := opsAt l psc }

/-! The state beside an image (log entry 24) -/

/-- A tile that is reinstated waits on nothing: what waited translates again. -/
def Tile.unwait (t : Tile) : Tile :=
  let free := fun (k : Token) => { k with xfer := k.xfer.map fun x => { x with wait := .no } }
  { t with ops := t.ops.map fun o => { o with wait := .no }, toks := t.toks.map free }

/-- Whether two images agree on `n` bytes from an offset on. -/
def sameRun (a b : List Byte) (off n : Nat) : Bool := (a.drop off).take n == (b.drop off).take n

/-- Whether two full images agree on `n` bytes of their path parts. -/
def samePath (a b : List Byte) (off n : Nat) : Bool :=
  sameRun a b 0x07 1 && sameRun a b 0x1c 4 && sameRun a b (fixedSize + bytesField a 0x1c 4 + off) n

/-- Whether a result fills a beat. -/
def Flight.fillsBeat (f : Flight) : Bool :=
  match f.dest with
  | .beat _ => true
  | _ => false

/-- A tile as the bytes `l` give it by their layout, made exact: each part whose bytes are those of `image`, which was written from the tile `k`, is the
part of `k`. `own` tells whether the beats that its sends fill are the panel's. DESIGN CHOICE: log entry 24. -/
def Tile.refine (t : Tile) (l : List Byte) (k : Tile) (image : List Byte) (own : Bool) : Tile :=
  let same := sameRun l image
  let psc := same 0x08 8
  let work := psc && same 0x2c00 0x4800 && (own || !k.flight.any Flight.fillsBeat)
  let ops := psc && same 0x0800 0x2400 && same 0x2c00 0x4800 && same 0x8a00 0x2400
  let units := psc && same 0xae00 0x4480
  let status := fun (o : PathOp) => o.kind == .zstat
  let tpath := (if psc && samePath l image 0 tpathSize then k.tpath else t.tpath).filter fun o => !status o
  { t with
    flight := if work then k.flight else t.flight
    units := if units then k.units else t.units
    tpath := tpath ++ if work then k.tpath.filter status else []
    apath := if psc && samePath l image tpathSize (pathSize - tpathSize) then k.apath else t.apath
    toks := if psc && same 0x0600 0x200 && same 0x7400 0x1600 then k.toks else t.toks
    rep := if psc && same 0x0600 0x200 && same 0x7400 0x1600 then k.rep else t.rep
    lands := if ops then k.lands else t.lands
    ops := if ops then k.ops else t.ops
    sr := if units && same 0x0020 8 && same 0x0200 0x400 && same 0x0100 0x50 then { k.sr with bown := t.sr.bown } else t.sr
    c := if psc && same 0x0010 4 && same 0x0080 0x40 && same 0x0100 0x90 then { k.c with idleHeld := t.c.idleHeld } else t.c }

end Sys2Proof.Machine
end

