-- ==== Sys2Proof/Machine/Launch.lean ====
section
/-! DEFINITION. Launches, their tokens and their reports (R26–R31, R353–R364, R404–R406, R447): the fields of a launch record, gangs and
cuts, completion, event records, completion records and interrupts. -/

namespace Sys2Proof.Machine

/-! The launch record (R358) -/

/-- A field of a launch record. -/
def Launch.fld (l : Launch) (off size : Nat) : Nat := recField l.record off size

/-- IMAGE. -/
def Launch.image (l : Launch) : Nat := l.fld 0x00 8
/-- ARG. -/
def Launch.arg (l : Launch) : W64 := BitVec.ofNat 64 (l.fld 0x08 8)
/-- PW. -/
def Launch.pw (l : Launch) : Nat := l.fld 0x10 1
/-- PH. -/
def Launch.ph (l : Launch) : Nat := l.fld 0x11 1
/-- W0–W5. -/
def Launch.widths (l : Launch) : Vector Nat 6 := Vector.ofFn fun i => l.fld (0x12 + i.val) 1
/-- GANG. -/
def Launch.boundary (l : Launch) : Nat := l.fld 0x18 1
/-- REPLAYABLE. -/
def Launch.replayable (l : Launch) : Bool := bit (l.fld 0x19 1) 0
/-- CRING. -/
def Launch.cring (l : Launch) : Bool := bit (l.fld 0x19 1) 1
/-- PREISP. -/
def Launch.preisp (l : Launch) : Bool := bit (l.fld 0x19 1) 2
/-- PREDATA. -/
def Launch.predata (l : Launch) : Bool := bit (l.fld 0x19 1) 3
/-- NCUT. -/
def Launch.ncut (l : Launch) : Nat := l.fld 0x1c 4
/-- NBT. -/
def Launch.nbt (l : Launch) : Nat := l.fld 0x20 8
/-- WCRT. -/
def Launch.wcrt (l : Launch) : Nat := l.fld 0x28 4
/-- PRELEAD. -/
def Launch.prelead (l : Launch) : Nat := l.fld 0x2c 4
/-- The wait tokens. -/
def Launch.wtoks (l : Launch) : List (Fin 256) := (List.range (l.fld 0x30 1 % 8)).map fun i => idx 256 (l.fld (0x31 + i) 1)
/-- CTOK. -/
def Launch.ctok (l : Launch) : Fin 256 := idx 256 (l.fld 0x35 1)
/-- TAG. -/
def Launch.tag (l : Launch) : W64 := BitVec.ofNat 64 (l.fld 0x38 8)

/-! Gangs (R31) -/

/-- Cuts of a full gang: 2^B. -/
def Launch.gangCuts (l : Launch) : Nat := 2 ^ sumList (((l.widths.toList.drop 2).take (l.boundary - 2)))

/-- How many gangs a launch has. -/
def Launch.gangCount (l : Launch) : Nat := (l.ncut + l.gangCuts - 1) / l.gangCuts

/-- The cut indices of a gang. -/
def Launch.cutsOf (l : Launch) (g : Nat) : List Nat :=
  (List.range (Nat.min l.gangCuts (l.ncut - g * l.gangCuts))).map fun i => g * l.gangCuts + i

/-- Tiles of the largest gang. -/
def Launch.largest (l : Launch) : Nat := Nat.min l.gangCuts l.ncut * l.pw * l.ph

/-- WID of a tile (R30). -/
def Launch.wid (l : Launch) (cut x y : Nat) : W64 :=
  let w0 := l.fld 0x12 1
  let w1 := l.fld 0x13 1
  BitVec.ofNat 64 (cut * 2 ^ (w0 + w1) + y * 2 ^ w0 + x)

/-! Changing the parts of a vdev -/

/-- Changes one spool. -/
def Vdev.onSpool (v : Vdev) (s : Fin 16) (f : Spool → Spool) : Vdev := { v with spools := v.spools.set s (f v.spools[s]) }

/-- Changes one launch. -/
def Vdev.onLaunch (v : Vdev) (l : Nat) (f : Launch → Launch) : Vdev :=
  { v with launches := v.launches.map fun x => if x.num = l then f x else x }

/-- A launch of the device with its vdev. -/
def Dev.launch (d : Dev) (v l : Nat) : Option Launch := (d.vdev v).bind fun x => x.launches.find? fun y => y.num == l

/-- Changes one launch of the device. -/
def Dev.onLaunch (d : Dev) (v l : Nat) (f : Launch → Launch) : Dev := d.onVdev v fun x => x.onLaunch l f

/-- Changes one cut of a launch. -/
def Launch.onCut (l : Launch) (cut : Nat) (f : CutRec → CutRec) : Launch :=
  let cuts := fun (g : Gang) => { g with cuts := g.cuts.map fun c => if c.cut = cut then f c else c }
  { l with gangs := l.gangs.map cuts }

/-- The gang that holds a cut. -/
def Launch.gangOf (l : Launch) (cut : Nat) : Option Gang := l.gangs.find? fun g => g.cuts.any fun c => c.cut == cut

/-- A cut of a launch. -/
def Launch.cutRec (l : Launch) (cut : Nat) : Option CutRec := (l.gangOf cut).bind fun g => g.cuts.find? fun c => c.cut == cut

/-- Records the first failure of a launch (R360). -/
def Launch.failWith (l : Launch) (code detail : Nat) : Launch :=
  if fieldOf l.status 0 8 = 0 then { l with status := putField (putField l.status 0 8 code) 8 8 detail } else l

/-- Whether a gang has a placed cut. -/
def Gang.placed (g : Gang) : Bool := g.cuts.any fun c => match c.st with
  | .placed _ => true
  | _ => false

/-- Whether a cut has finished. -/
def CutRec.finished (c : CutRec) : Bool := c.st == .done

/-! Interrupts (R406) -/

/-- Sends an MSI-X message, or sets the pending bit of a masked vector. -/
def Dev.msix (d : Dev) (port : Fin 2) (fn vec : Nat) : Dev :=
  if d.ports[port].masked.contains (fn, vec) then
    d.onPort port fun p => { p with pend := if p.pend.contains (fn, vec) then p.pend else (fn, vec) :: p.pend }
  else { d with outs := .msix port fn vec :: d.outs }

/-- Sends vector `vec` of the VF that a vdev is bound to; a vdev bound to none sends nothing. -/
def Dev.msixVdev (d : Dev) (v vec : Nat) : Dev :=
  match (List.finRange 249).find? fun f => decide (0 < f.val) && d.pf.fbind[f].getLsbD 31 && fieldOf d.pf.fbind[f] 0 10 == v with
  | some f => d.msix d.pf.active f.val vec
  | none => d

/-! Event records (R364, R447) -/

/-- A 32-byte event record. -/
def eventRecord (kind code : Nat) (id payload dcc : Nat) : BitVec 256 :=
  packFields 256 [(0, 1, kind), (2, 2, code), (8, 8, id), (16, 8, payload), (24, 8, dcc)]

/-- An event record is dropped: EQDROP and VSTAT.EQOVF. -/
def Vdev.dropEvent (v : Vdev) : Vdev := { v with eqdrop := satAdd v.eqdrop 1, vstat := setBit v.vstat 2 true }

/-- Writes the event records of a vdev that are still to be written, in order, until one waits (R364, R447). -/
def Dev.flushEvents (b : Fin 32) (n : Nat) : List (BitVec 256) → Dev → Dev
  | [], d => d.onVdev n fun v => { v with events := [], waitEq := .no }
  | e :: r, d =>
    match d.vdev n with
    | none => d
    | some v =>
      let size := 2 ^ v.fld 0x28 1
      if size ≤ (v.eqtail - v.eqhead).toNat then Dev.flushEvents b n r (d.onVdev n Vdev.dropEvent)
      else match d.vWrite b (d.placerAsker b n 0#64 v.waitEq) (v.fld 0x20 8 + 32 * (v.eqtail.toNat % size)) (leBytes 32 e.toNat) with
        | (d1, .done) =>
          let d2 := d1.onVdev n fun v => { v with eqtail := v.eqtail + 1#32 }
          Dev.flushEvents b n r (if v.eqctl.getLsbD 0 then d2.msixVdev n 0 else d2)
        | (d1, .wait w) => d1.onVdev n fun v => { v with events := e :: r, waitEq := w }
        | (d1, .fail) => Dev.flushEvents b n r (d1.onVdev n Vdev.dropEvent)

/-- Writes what a vdev has to report, unless its first record waits on a fault; after a failure close that record is dropped. -/
def Dev.pumpEvents (d : Dev) (n : Nat) : Dev :=
  match d.vdev n with
  | none => d
  | some v =>
    match v.waitEq with
    | .no | .retry _ | .again | .denied _ _ _ _ => Dev.flushEvents v.bolt n v.events d
    | .failed => Dev.flushEvents v.bolt n (v.events.drop 1) (d.onVdev n fun v => { v.dropEvent with waitEq := .no })
    | _ => d

/-- Posts an event record to a vdev. -/
def Dev.postEvent (d : Dev) (n : Nat) (e : BitVec 256) : Dev :=
  (d.onVdev n fun v => { v with events := v.events ++ [e] }).pumpEvents n

/-- Posts a SUBREF event (R447). -/
def Dev.subref (d : Dev) (n reason dva spool : Nat) : Dev := d.postEvent n (eventRecord 2 reason dva spool d.dcc)

/-! Launch tokens and completion (R361, R404, R405) -/

/-- A launch token resolves; the launches that wait on this production learn of it. -/
def Vdev.resolveLtok (v : Vdev) (k : Fin 256) (st : TokSt) : Vdev :=
  let prod := v.ltoks[k].prod
  let tell := fun (l : Launch) =>
    if l.waits.contains (k, prod) then { l with waits := l.waits.filter (· != (k, prod)), depFail := l.depFail || st == .failed } else l
  let t := v.ltoks[k]
  { v with ltoks := v.ltoks.set k { t with st := st }, launches := v.launches.map tell }

/-- A completed launch resolves its token and leaves the placer. -/
def Vdev.closeLaunch (v : Vdev) (l : Launch) : Vdev :=
  let v1 := v.resolveLtok l.ctok (if fieldOf l.status 0 8 = 0 then .done else .failed)
  { v1 with launches := v1.launches.filter fun x => x.num != l.num }

/-- The completion record of a launch (R404). -/
def Launch.ringRecord (l : Launch) (seq : W32) : List Byte :=
  leBytes 32 (packFields 256 [(0, 1, 1), (1, 1, l.spoolByte.toNat), (2, 1, l.fld 0x35 1), (4, 4, l.status.toNat), (8, 8, l.tag.toNat), (16, 8, l.doneDcc),
    (24, 4, seq.toNat)]).toNat

/-- What the completion ring of a vdev does next for its oldest unreported launch: its slot is read, and, when free, written (R405). -/
def Dev.ringStep (d : Dev) (v : Vdev) (l : Launch) : Dev :=
  let b := v.bolt
  let a := d.placerAsker b v.num l.tag v.waitCr
  let slot := v.fld 0x30 8 + 32 * (v.cridx.toNat % 2 ^ v.fld 0x38 1)
  let lose := fun (d : Dev) => d.onVdev v.num fun v =>
    ({ v with eqdrop := satAdd v.eqdrop 1, crseq := v.crseq + 1#32, waitCr := .no }).closeLaunch l
  let hold := fun (d : Dev) (w : Wait) => d.onVdev v.num fun v => { v with waitCr := w }
  if v.waitCr == .failed then lose d
  else match d.vRead b a slot 1 with
  | (d1, .wait w) => hold d1 w
  | (d1, .fail) => lose d1
  | (d1, .bytes f bad) =>
    if bad then lose d1
    else if leNat f != 0 then d1.onVdev v.num fun v => { v with waitCr := .tick }
    else match d1.vWrite b a slot (l.ringRecord v.crseq) with
      | (d2, .wait w) => hold d2 w
      | (d2, .fail) => lose d2
      | (d2, .done) =>
        ((d2.flushHost b).onVdev v.num fun v => ({ v with cridx := v.cridx + 1#32, crseq := v.crseq + 1#32, waitCr := .no }).closeLaunch l).msixVdev v.num 1

/-- The oldest launch of a vdev that has completed and is still to be reported. -/
def Vdev.unreported (v : Vdev) : Option Launch := v.launches.find? fun l => l.done

/-- A launch completes with the status that it holds (R360, R361): the token's status is written, then, with CRING, its record. -/
def Dev.finishLaunch (d : Dev) (n l : Nat) : Dev :=
  let resv := d.resvs.map fun r => if r.vdev = n ∧ r.job = some l then { r with job := none, claim := [] } else r
  let d0 := { d with resvs := resv }
  match d0.launch n l with
  | none => d0
  | some x =>
    let y := { x with done := true, doneDcc := d.dcc, gangs := [], released := true }
    d0.onVdev n fun v =>
      let t := v.ltoks[y.ctok]
      let v1 := { v with
        ltoks := v.ltoks.set y.ctok { t with status := y.status }
        launches := (v.launches.filter fun z => z.num != l) ++ [y] }
      if y.cring then v1 else v1.closeLaunch y

/-- Completes a launch that fails with a code. -/
def Dev.failLaunch (d : Dev) (n l code detail : Nat) : Dev := (d.onLaunch n l fun x => x.failWith code detail).finishLaunch n l

/-- A cut has completed, which is a release at `.dev` of its writes (R294): its slots are free, a gang without unfinished cuts is gone, and with its
last gang the launch completes (R27, R354). -/
def Dev.finishCut (d : Dev) (n l cut : Nat) : Dev :=
  match (d.launch n l).bind fun x => x.cutRec cut with
  | none => d
  | some c =>
    let d1 := ((d.vdev n).elim d fun v => d.flushHost v.bolt).onVdev n fun v =>
      ({ v with slots := v.slots.filter fun k => !c.slots.contains k }).onLaunch l fun x =>
        let y := x.onCut cut fun c => { c with st := .done, saved := none, psave := none, slots := [] }
        { y with gangs := y.gangs.filter fun g => !g.cuts.all CutRec.finished }
    match d1.launch n l with
    | some x => if x.gangs.isEmpty && decide (x.gangCount ≤ x.nextGang) then d1.finishLaunch n l else d1
    | none => d1

/-- A cut completes failed. -/
def Dev.failCut (d : Dev) (n l cut code detail : Nat) : Dev := (d.onLaunch n l fun x => x.failWith code detail).finishCut n l cut

/-- What an aborted cut is replayed from (R428): its last periodic save, or nothing but its start; none when it completes failed. -/
def Dev.replayFrom (d : Dev) (n l cut : Nat) : Option (Option SavedCut) :=
  match d.vdev n, d.launch n l with
  | some v, some x =>
    (x.cutRec cut).bind fun c =>
      if 3 ≤ c.replays then none
      else match (if v.fld 0x0c 4 = 0 then none else c.psave) with
        | some y => some (some y)
        | none => if x.replayable then some none else none
  | _, _ => none

/-- An aborted cut is replayed, or completes failed with `code` (R428). A cut that starts again gives its slots back. -/
def Dev.replayCut (d : Dev) (n l cut code : Nat) : Dev :=
  match d.replayFrom n l cut, d.vdev n with
  | some src, some v =>
    let slots := if src.isSome then [] else (((d.launch n l).bind fun x => x.cutRec cut).map CutRec.slots).getD []
    let again := fun (c : CutRec) =>
      { c with st := if src.isSome then .evicted else .fresh, saved := src, replays := c.replays + 1
               slots := c.slots.filter fun k => !slots.contains k }
    (d.onVdev n fun v =>
      ({ v with slots := v.slots.filter fun k => !slots.contains k }).onLaunch l fun x =>
        { x.onCut cut again with status := setBit x.status 29 true }).count v.bolt 12 1
  | _, _ => d.failCut n l cut code 0

/-- ZS flags of a tile in the order of R360: SAT, NX, UF, OF, NV from bit 4 down. -/
def Tile.zsFlags (t : Tile) : Nat :=
  let z : W32 := t.sr.zs.foldl (· ||| ·) 0#32
  16 * b2n (z.getLsbD 5) + 8 * b2n (z.getLsbD 4) + 4 * b2n (z.getLsbD 3) + 2 * b2n (z.getLsbD 2) + b2n (z.getLsbD 0)

/-- The status bits that a tile adds to its launch (R360). -/
def Tile.cutStatus (t : Tile) : W32 := BitVec.ofNat 32 (t.zsFlags * 2 ^ 22 + fieldOf t.sr.tstat 0 6 * 2 ^ 16)

/-- The status of every tile of a panel is ORed into its launch's, when its cut ends (R56, R360). -/
def Dev.noteCut (d : Dev) (p : Panel) : Dev :=
  let st := p.tiles.foldl (fun x n => x ||| (d.tiles[n]).cutStatus) 0#32
  d.onLaunch p.vdev p.launch fun l => { l with status := l.status ||| st }

/-! Tiles and panels -/

/-- Scrubs a tile (R90): its registers, memories and work are cleared; its save window too, unless `window` keeps it or it still drains
(R338). -/
def Dev.scrubTile (d : Dev) (n : Fin 128) (window : Bool) : Dev :=
  let keep := window || (d.tiles[n]).drain.isSome
  let d1 := (d.clear (tspKey n 0) (2 ^ 20)).clear (vaultKey n 0) (if keep then programArea else 2 ^ 21)
  (d1.clear (ispKey n 0) (2 ^ 19)).onTile n fun t => { Tile.reset with owner := t.owner, tlb := t.tlb, drain := t.drain, drainWait := t.drainWait }

/-- Clears VALID of SVPANEL of a tile's router (R350). -/
def Router.noPanel (r : Router) : Router := { r with svpanel := setBit r.svpanel 14 false }

/-- A panel ends: its tiles are scrubbed and wait for the next tick of the placer to be returned (R338, R368). -/
def Dev.removePanel (d : Dev) (p : Panel) (window : Bool) : Dev :=
  let d1 := p.tiles.foldl (fun d n => (d.scrubTile n window).onRouter n Router.noPanel) d
  { d1 with panels := d1.panels.filter fun x => x.handle != p.handle, raised := [] }

/-- Scrubs what a preload holds in a tile: its banks and its half (R376). -/
def Dev.scrubPreload (d : Dev) (n : Fin 128) : Dev :=
  let t := d.tiles[n]
  let d1 := (List.range 16).foldl (fun d b => if t.owned b then d.clear (tspKey n (b * 65536)) 65536 else d) d
  let d2 := if t.c.idleHeld then d1.clear (ispKey n (halfBase t.idleHalf)) halfSize else d1
  d2.onTile n fun t => { t with sr := { t.sr with bown := 0#16 }, c := { t.c with idleHeld := false } }

/-- The preload bound to a panel is discarded (R376); a panel that was kept for it alone is returned. -/
def Dev.dropPreload (d : Dev) (p : Panel) : Dev :=
  if p.pre.isNone then d
  else
    let d1 := (p.tiles.foldl Dev.scrubPreload d).onPanel p.handle fun p => { p with pre := none }
    if p.phase == .over then d1.removePanel p false else d1

/-- Discards the preloads of a gang of launch `l` of a vdev on every panel that it is bound to. -/
def Dev.dropPreloads (d : Dev) (v l : Nat) : Dev :=
  (d.panels.filter fun p => p.vdev == v && (p.pre.elim false fun x => x.launch == l)).foldl Dev.dropPreload d

/-- Scrubs a tile but for its preloaded banks and half (R375). -/
def Dev.scrubKeep (d : Dev) (n : Fin 128) (window : Bool) : Dev :=
  let t := d.tiles[n]
  let d1 := (List.range 16).foldl (fun d b => if t.owned b then d else d.clear (tspKey n (b * 65536)) 65536) d
  let d2 := d1.clear (vaultKey n 0) (if window || t.drain.isSome then programArea else 2 ^ 21)
  let d3 := (d2.clear (ispKey n (halfBase t.activeHalf)) (2 ^ 17)).clear (ispKey n (2 ^ 18)) (2 ^ 18)
  let d4 := if t.c.idleHeld then d3 else d3.clear (ispKey n (halfBase t.idleHalf)) (2 ^ 17)
  d4.onTile n fun t =>
    { Tile.reset with owner := t.owner, rank := t.rank, tlb := t.tlb, drain := t.drain, drainWait := t.drainWait
                      sr := { TileSr.reset with bown := t.sr.bown, ispid := t.sr.ispid &&& 1#64 }
                      c := { TileCtl.reset with idleHeld := t.c.idleHeld } }

/-- The cut of a panel is over: its tiles are returned, or, with a preload bound to it, kept for that gang. -/
def Dev.leavePanel (d : Dev) (p : Panel) (window : Bool) : Dev :=
  if p.pre.isNone then d.removePanel p window
  else
    let d1 := p.tiles.foldl (fun d n => (d.scrubKeep n window).onRouter n Router.noPanel) d
    { d1.onPanel p.handle fun p => { p with phase := .over, beats := [], evict := none, save := false, saveAt := 0, frozen := 0 } with
      raised := [] }

/-- The panels of a launch's gang. -/
def Dev.gangPanels (d : Dev) (v l : Nat) (g : Option Gang) : List Panel :=
  d.panels.filter fun p => p.vdev == v && p.launch == l && (g.elim false fun g => g.cuts.any fun c => c.cut == p.cut)

/-- The gang that a panel belongs to. -/
def Dev.gangOfPanel (d : Dev) (p : Panel) : Option Gang := (d.launch p.vdev p.launch).bind fun l => l.gangOf p.cut

/-- Orders the eviction of a panel's gang (R26, R338): PSTATE's pending bit of every running cut of it; an earlier order stands. -/
def Dev.orderEvict (d : Dev) (p : Panel) (why : Why) : Dev :=
  (d.gangPanels p.vdev p.launch (d.gangOfPanel p)).foldl (fun d q =>
    d.onPanel q.handle fun x => { x with evict := some (x.evict.getD why) }) (d.onPanel p.handle fun x => { x with evict := some (x.evict.getD why) })

/-- Whether a launch waits on the completion token of another of its vdev (R376). -/
def Dev.waitsOnLaunch (d : Dev) (v l on : Nat) : Bool :=
  match d.vdev v, d.launch v l, d.launch v on with
  | some x, some a, some b => a.waits.contains (b.ctok, x.ltoks[b.ctok].prod)
  | _, _, _ => false

/-- Discards what is preloaded onto a panel, on every panel that it is bound to. -/
def Dev.dropBound (d : Dev) (p : Panel) : Dev := p.pre.elim d fun x => d.dropPreloads p.vdev x.launch

/-- The panels of a panel's gang, those that are kept for a preload among them, and the panel itself. -/
def Dev.gangWith (d : Dev) (p : Panel) : List Panel := p :: d.gangPanels p.vdev p.launch (d.gangOfPanel p)

/-- Discards what is preloaded onto a panel's gang, on every panel that it is bound to (R376). -/
def Dev.dropGang (d : Dev) (p : Panel) : Dev := (d.gangWith p).foldl Dev.dropBound d

/-- Orders a panel's gang off its tiles; a panel that is kept for a preload alone is given up (R376). -/
def Dev.vacate (d : Dev) (p : Panel) (why : Why) : Dev := if p.phase == .over then d.dropBound p else d.orderEvict p why

/-- The pending transfers of a panel end FAILED with a status (R336, R275); the chunks that they have completed stand. -/
def Dev.endXfers (d : Dev) (p : Panel) (status : Byte) : Dev :=
  p.tiles.foldl (fun d n => (List.finRange 32).foldl (fun d k =>
    match (d.tiles[n].toks[k]).st, (d.tiles[n].toks[k]).xfer with
    | .pending, some x => d.resolveXfer n k x .failed status
    | _, _ => d) d) d

/-- The status with which transfers end when their cut is aborted with a launch CODE (R275): FENCED, SECURITY, or CANCELLED. -/
def abortStatus (code : Nat) : Byte := if code = 7 then 8#8 else if code = 8 then 9#8 else 5#8

/-- Aborts a panel (R336): in-flight work is discarded, the tiles are scrubbed, and the cut completes with a code and its tiles' flags (R360), or is
replayed. The gang that is preloaded onto the panel's gang stays, unless the cut is replayed or that gang's launch waits on this one (R376). -/
def Dev.abortPanel (d : Dev) (p : Panel) (code : Nat) (replay : Bool) : Dev :=
  let again := replay && (d.replayFrom p.vdev p.launch p.cut).isSome
  let waits := (d.gangWith p).any fun q => q.pre.elim false fun x => d.waitsOnLaunch p.vdev x.launch p.launch
  let d0 := if again || waits then d.dropGang p else d
  let d1 := if again then d0 else d0.noteCut p
  let q := (d1.panel p.handle).getD p
  let d2 := (d1.endXfers q (abortStatus code)).leavePanel q false
  if replay then d2.replayCut p.vdev p.launch p.cut code else d2.failCut p.vdev p.launch p.cut code 0

end Sys2Proof.Machine
end

