-- ==== Sys2Proof/Machine/Cut.lean ====
section
/-! DEFINITION. Cuts (R25–R32, R55, R56): a loaded kernel image (R141, R142), loading a panel from it, the start of a gang's panels
together, and the completion of a cut. -/

namespace Sys2Proof.Machine

/-! Kernel images (R141, R142) -/

/-- MAGIC of a kernel image. -/
def imgMagic : Nat := 0x315a524b

/-- Bytes of an image header. -/
def imgHeader : Nat := 0xa0

/-- Reads a loaded image: its first 64 bytes give its SIZE. Bytes that are no whole header are given back as they stand. -/
def Dev.readImage (d : Dev) (b : Fin 32) (a : Asker) (dva : Nat) : Dev × Got :=
  match d.vRead b a dva 0x40 with
  | (d1, .bytes h bad) =>
    let size := bytesField h 0x38 4
    if bad || bytesField h 0 4 != imgMagic || decide (size < imgHeader) then (d1, .bytes h bad) else d1.vRead b a dva size
  | x => x

/-- A section entry. -/
structure Sect where
  /-- KIND. -/
  kind : Nat
  /-- FLAGS. -/
  flags : Nat
  /-- ADDR. -/
  addr : Nat
  /-- SIZE. -/
  size : Nat
  /-- FOFF. -/
  foff : Nat
  /-- The reserved fields are zero. -/
  clean : Bool
  deriving DecidableEq, Repr

/-- The section entries of an image. -/
def imgSects (l : List Byte) : List Sect :=
  (List.range (bytesField l 0x20 2)).map fun i =>
    let b := bytesField l 0x28 4 + 24 * i
    { kind := bytesField l b 1, flags := bytesField l (b + 1) 1, addr := bytesField l (b + 8) 4, size := bytesField l (b + 12) 4,
      foff := bytesField l (b + 16) 4, clean := bytesField l (b + 2) 2 == 0 && bytesField l (b + 20) 4 == 0 }

/-- The contents of a section. -/
def Sect.bytes (x : Sect) (l : List Byte) : List Byte := (l.drop x.foff).take x.size

/-- The start section of an image. -/
def imgStart (l : List Byte) : Option Sect := (imgSects l).find? fun x => x.kind == 0

/-- The banks that an image declares (R140). -/
def imgBanks (l : List Byte) : BitVec 16 := BitVec.ofNat 16 (bytesField l 0x06 2)

/-- Whether an image has an overlay section. -/
def imgOverlay (l : List Byte) : Bool := (imgSects l).any fun x => x.kind == 2

/-- BFMT0–BFMT15 of an image. -/
def imgBfmt (l : List Byte) : Vector W32 16 := regsAt l 0x40 4 32 16

/-- A BFMT entry with a reserved bit, or a pitch that is no multiple of its span (R109, R145). -/
def badBfmt (v : W32) : Bool := (v &&& ~~~bfmtMask) != 0#32 || bfmtPitch v % bfmtSpan v != 0

/-- A section that breaks R142. -/
def Sect.bad (x : Sect) (l : List Byte) : Bool :=
  !x.clean || decide (4 < x.kind) || decide (bytesField l 0x38 4 < x.foff + x.size)
    || (if x.kind = 2 then decide (2 ≤ x.flags) else x.flags != 0)
    || (match x.kind with
        | 0 => x.addr != 0 || decide (halfSize < x.size)
        | 1 => x.addr != 0x20000 || decide (0x4000 < x.size)
        | 2 => x.addr != 0 || decide (halfSize < x.size)
        | 3 => x.addr != 0 || decide (64 * 256 < x.size)
        | _ => decide (0x100000 < x.addr + x.size))

/-- Two TSP data sections that overlap. A section of size 0 strictly inside another one's range counts as an overlap, which the spec leaves open.
DESIGN CHOICE: log entry 80. -/
def Sect.meets (x y : Sect) : Bool := x.kind == 4 && y.kind == 4 && decide (x.addr < y.addr + y.size) && decide (y.addr < x.addr + x.size)

/-- Whether two entries of a list at different places overlap. -/
def sectsOverlap : List Sect → Bool
  | [] => false
  | x :: r => r.any x.meets || sectsOverlap r

/-- The checks of R145 on an image, by their DETAIL: 5, 6 (for a panel shape), 7. -/
def imgDetail (l : List Byte) (pw ph : Nat) : Option Nat :=
  let f := bytesField l
  let count := fun (k : Nat) => ((imgSects l).filter fun x => x.kind == k).length
  if decide (l.length < imgHeader) || f 0 4 != imgMagic || f 4 2 != 1 || f 0x24 4 != 0
      || crc32c (l.take 0x3c ++ List.replicate 4 0#8 ++ l.drop 0x40) != BitVec.ofNat 32 (f 0x3c 4)
      || f 0x11 1 != 0 || f 0x16 2 != 0 || decide (8192 < f 0x12 2) || f 0x14 2 == 0 || decide (16384 < f 0x14 2)
      || decide (f 0x10 1 < 2) || decide (6 < f 0x10 1) || (imgBfmt l).any badBfmt
      || (regsAt l 0x80 4 32 8).any fun g => (g &&& ~~~0x7f3f#32) != 0#32 then some 5
  else if f 0x08 1 != pw || f 0x09 1 != ph then some 6
  else if count 0 != 1 || decide (1 < count 1) || decide (1 < count 3) || (imgSects l).any (fun x => x.bad l) || sectsOverlap (imgSects l)
      || (List.range (f 0x22 2)).any (fun i => f (f 0x2c 4 + 16 * i + 7) 1 != 0)
      || f 0x18 4 % 4 != 0 || (imgStart l).elim true fun x => decide (x.size ≤ f 0x18 4) then some 7
  else none

/-! Loading a tile (R55) -/

/-- Writes bytes at a TSP tile-local address, bank by bank, under the formats of an image, but not into the banks of `skip`. -/
def Dev.loadData (d : Dev) (n : Fin 128) (bfmt : Vector W32 16) (skip : BitVec 16) (addr : Nat) (bs : List Byte) : Dev :=
  (List.range 16).foldl (fun d b =>
    let lo := Nat.max addr (b * 65536)
    let hi := Nat.min (addr + bs.length) (b * 65536 + 65536)
    if lo < hi && !skip.getLsbD b then d.bankWrite n bfmt[idx 16 b] b (lo - b * 65536) ((bs.drop (lo - addr)).take (hi - lo)) else d) d

/-- Loads the memories of a tile from an image: start section into half A (unless a preload holds it there), resident section, TSP data. -/
def Dev.loadMemories (d : Dev) (n : Fin 128) (l : List Byte) (skip : BitVec 16) (code : Bool) : Dev :=
  (imgSects l).foldl (fun d x =>
    match x.kind with
    | 0 => if code then d.write (ispKey n (halfBase 0)) (x.bytes l) else d
    | 1 => d.write (ispKey n (2 ^ 18)) (x.bytes l)
    | 4 => d.loadData n (imgBfmt l) skip x.addr (x.bytes l)
    | _ => d) d

/-- A tile at the start of a cut (R29, R30, R55). -/
def Tile.begin (t : Tile) (l : Launch) (img : List Byte) (p : Panel) : Tile :=
  let x := t.rank % p.w
  let y := t.rank / p.w
  let r := { TileRegs.reset with
    s := TileRegs.reset.s.set 1 l.arg, ma := Vector.replicate 8 0xffffffff#32, mb := Vector.replicate 8 0xffffffff#32 }
  let sr := { TileSr.reset with
    wid := l.wid p.cut x y, widths := l.widths, gangField := l.boundary, bfmt := imgBfmt img, tgeom := regsAt img 0x80 4 32 8 }
  let c := { TileCtl.reset with
    pc := BitVec.ofNat 32 (bytesField img 0x18 4), ispA := { src := 1, extent := (imgStart img).elim 0 Sect.size, shadow := 0#64 } }
  { Tile.reset with r := r, sr := sr, c := c, owner := t.owner, rank := t.rank, tlb := t.tlb, drain := t.drain, drainWait := t.drainWait }

/-- The preload that a loading panel carries for its own launch (R375). -/
def Panel.ownPre (p : Panel) : Option Preload := p.pre.filter fun x => x.launch == p.launch

/-- Starts a loaded panel: its tiles by R55, its counters by R32, R43 and R374. The start is an acquire at `.dev`, so the bolt gives up its unsnooped
host lines (R294, R296). -/
def Dev.beginPanel (d : Dev) (p : Panel) (v : Vdev) (l : Launch) (img : List Byte) : Dev :=
  let own := p.ownPre
  let d1 := p.tiles.foldl (fun d n =>
    (d.loadMemories n img (own.elim 0#16 Preload.banks) !(own.elim false Preload.isp)).onTile n fun t => t.begin l img p) (d.flushHost p.bolt)
  let psave := v.fld 0x0c 4
  d1.onPanel p.handle fun p =>
    { p with psc := 0, pstall := bytesField img 0x12 2, pstitch := bytesField img 0x14 2, phase := .running, frozen := 0, lastStitch := 0,
             beats := [], nextBeat := 0, save := false, saveAt := if psave = 0 then 0 else d.dcc + 1000 * psave, pre := none, wait := .no }

/-! Restoring a panel (R343, R344) -/

/-- The bytes of the context images of a panel's ranks, read from its slots (R354): for each rank the fixed part, then the rest of its
length; what lies beyond the window continues at SPILL. -/
def Dev.readCtx (d : Dev) (b : Fin 32) (a : Asker) (dva : Nat) : Dev × Got :=
  match d.vRead b a dva fixedSize with
  | (d1, .bytes h bad) =>
    let n := ctxLength h
    if bad || bytesField h 0 4 != ctxMagic || decide (2 ^ 21 < n) then (d1, .bytes h bad)
    else
      let rest := n - fixedSize
      let near := Nat.min rest (0x80000 - fixedSize)
      match d1.vRead b a (dva + fixedSize) near with
      | (d2, .bytes r1 bad1) =>
        if rest ≤ near then (d2, .bytes (h ++ r1) bad1)
        else match d2.vRead b a (bytesField h 0x30 8) (rest - near) with
          | (d3, .bytes r2 bad2) => (d3, .bytes (h ++ r1 ++ r2) (bad1 || bad2))
          | x => x
      | x => x
  | x => x

/-- The bytes that a source gives one ISP half (R341): zeros, the image's start section, or the shadow. -/
def Dev.readHalf (d : Dev) (b : Fin 32) (a : Asker) (img : List Byte) (x : IspSrc) : Dev × Got :=
  match x.src with
  | 0 => (d, .bytes [] false)
  | 1 => (d, .bytes ((imgStart img).elim [] fun s => s.bytes img) false)
  | 2 => d.vRead b a x.shadow.toNat (Nat.min x.extent halfSize)

/-- What one tile of a restored panel needs: its image's bytes and its two halves. -/
structure TileLoad where
  /-- The context image. -/
  image : List Byte
  /-- Half A. -/
  halfA : List Byte
  /-- Half B. -/
  halfB : List Byte
  deriving DecidableEq, Repr

/-- What the reads of a loading or restoring panel give: the image and the tiles' contexts, a wait, or a failure with its launch CODE and
DETAIL. -/
inductive Ready where
  | load (img : List Byte)
  | restore (img : List Byte) (l : List TileLoad)
  | wait (w : Wait)
  | refuse (code detail : Nat)
  deriving DecidableEq, Repr

/-- BADCTX (R360). -/
def badCtx : Nat := 0x0b

/-- Reads the contexts of the ranks of a panel, one after another (R344, R447). -/
def Dev.readRanks (b : Fin 32) (a : Asker) (v : Vdev) (p : Panel) (img : List Byte) : List (Nat × Nat) → Dev → Dev × Except Ready (List TileLoad)
  | [], d => (d, .ok [])
  | x :: r, d =>
    match d.readCtx b a (v.slotDva x.2) with
    | (d1, .wait w) => (d1, .error (.wait w))
    | (d1, .fail) => (d1, .error (.refuse badCtx 0))
    | (d1, .bytes l bad) =>
      if bad || !ctxValid l x.1 p.w p.h then (d1, .error (.refuse badCtx 0))
      else
        let c := TileCtl.reset.ofImage l
        match d1.readHalf b a img c.ispA with
        | (d2, .wait w) => (d2, .error (.wait w))
        | (d2, .fail) => (d2, .error (.refuse badCtx 0))
        | (d2, .bytes ha ba) =>
          match d2.readHalf b a img c.ispB with
          | (d3, .wait w) => (d3, .error (.wait w))
          | (d3, .fail) => (d3, .error (.refuse badCtx 0))
          | (d3, .bytes hb bb) =>
            if ba || bb then (d3, .error (.refuse badCtx 0))
            else match Dev.readRanks b a v p img r d3 with
              | (d4, .ok t) => (d4, .ok ({ image := l, halfA := ha, halfB := hb } :: t))
              | (d4, .error e) => (d4, .error e)

/-- Everything that a loading or restoring panel has to read. A fault while the image of a started launch is read again ends the cut
REFUSED with DETAIL 5. DESIGN CHOICE: log entry 25. -/
def Dev.readyPanel (d : Dev) (p : Panel) (v : Vdev) (l : Launch) : Dev × Ready :=
  let a := d.placerAsker p.bolt p.vdev l.tag p.wait
  let restoring := p.phase == .restoring
  let refuse := if restoring then Ready.refuse badCtx 0 else .refuse 1 5
  if p.wait == .failed then (d, refuse)
  else match d.readImage p.bolt a p.image.toNat with
    | (d1, .wait w) => (d1, .wait w)
    | (d1, .fail) => (d1, refuse)
    | (d1, .bytes img bad) =>
      if bad || (imgDetail img p.w p.h).isSome then (d1, refuse)
      else if restoring then
        match Dev.readRanks p.bolt a v p img (p.slots.zipIdx.map fun x => (x.2, x.1)) d1 with
        | (d2, .ok t) => (d2, .restore img t)
        | (d2, .error e) => (d2, e)
      else (d1, .load img)

/-- Puts the bytes of one half of a tile's ISP: a source's bytes, zeros beyond (R343). -/
def Dev.putHalf (d : Dev) (n : Fin 128) (h : Nat) (bs : List Byte) : Dev :=
  (d.clear (ispKey n (halfBase h)) halfSize).write (ispKey n (halfBase h)) bs

/-- The memories of a restored tile (R343, R344): its halves, the resident region, the banks that its context image names. -/
def Dev.restoreMemories (d : Dev) (n : Fin 128) (img : List Byte) (x : TileLoad) : Dev :=
  let d1 := ((d.putHalf n 0 x.halfA).putHalf n 1 x.halfB).write (ispKey n (2 ^ 18))
    (((imgSects img).find? fun s => s.kind == 1).elim [] fun s => s.bytes img)
  let lm : BitVec 21 := BitVec.ofNat 21 (bytesField x.image 0x14 4)
  let bm := bytesField x.image 0x18 2
  let banks := (List.range 16).filter fun b => bit bm b
  banks.zipIdx.foldl (fun d b =>
    d.write (tspKey n (b.1 * 65536)) ((x.image.drop (namedOffset lm 21 + 65536 * b.2)).take 65536)) d1

/-- The saved state of a tile on the tile that resumes it. -/
def Tile.resumed (old new : Tile) : Tile := { new with owner := old.owner, rank := old.rank, tlb := old.tlb, drain := old.drain, drainWait := old.drainWait }

/-- A tile as an image describes it, with the barrier hold that TFLAGS tells of (R331). -/
def Dev.tileOfImage (d : Dev) (n : Fin 128) (l : List Byte) (psc : Nat) : Dev :=
  let d1 := d.onTile n fun t => t.ofImage l psc
  if bit (bytesField l 0x104 4) 1 then
    let hold := d1.holdAt n d1.tiles[n]
    d1.onTile n fun t => { t with c := { t.c with held := hold } }
  else d1

/-- Restores a panel (R344). While the bytes of its images stand as they were written, the state that they were written from is
reinstated; other bytes that pass the checks are read by their layout (log entry 24). -/
def Dev.restorePanel (d : Dev) (p : Panel) (saved : Option SavedCut) (img : List Byte) (l : List TileLoad) : Dev :=
  let ranks := l.zipIdx
  let d1 := ranks.foldl (fun d x => d.restoreMemories (p.tile x.2) img x.1) (d.flushHost p.bolt)
  let head := (l.head?).elim [] TileLoad.image
  let psc := bytesField head 8 8
  let every := ((d.vdev p.vdev).elim 0 fun v => v.fld 0x0c 4) * 1000
  let saveAt := fun (left : Nat) => if every = 0 then 0 else Nat.max 1 (d.dcc + left)
  let same := saved.filter fun s => s.tiles.map SavedTile.image == l.map TileLoad.image
  match same with
  | some s =>
    let d2 := (s.tiles.zipIdx).foldl (fun d x => (d.onTile (p.tile x.2) fun t => t.resumed x.1.tile).placeFars (p.tile x.2)) d1
    d2.onPanel p.handle fun p =>
      { p with psc := s.psc, pstall := s.pstall, pstitch := s.pstitch, lastStitch := s.lastStitch, beats := s.beats, nextBeat := s.nextBeat,
               phase := .running, frozen := 0, wait := .no, saveAt := saveAt s.saveIn }
  | none =>
    let put := fun (d : Dev) (x : TileLoad × Nat) =>
      let n := p.tile x.2
      let d2 := d.tileOfImage n x.1.image psc
      match saved.bind fun s => s.tiles[x.2]? with
      | some y => (d2.onTile n fun t => (t.refine x.1.image y.tile y.image false).unwait).placeFars n
      | none => d2.placeFars n
    let beats := ranks.flatMap fun x => (List.range 128).filterMap fun i =>
      let w := snapAt x.1.image i
      if w.desc / 2 ^ 56 = 6 then some (p.beatAt w (128 * x.2 + i) x.2 psc) else none
    (ranks.foldl put d1).onPanel p.handle fun p =>
      { p with psc := psc, pstall := Nat.min (stateAt head 0x00b) 8192, pstitch := stateAt head 0x00c % 2 ^ 15, lastStitch := psc - 1, beats := beats,
               nextBeat := 128 * l.length, phase := .running, frozen := 0, wait := .no
               saveAt := saveAt ((saved.map SavedCut.saveIn).getD every) }

/-! Starting a gang (R26) -/

/-- Whether a panel waits for its start or its restore. -/
def Panel.starting (p : Panel) : Bool := p.phase == .loading || p.phase == .restoring

/-- The panels of a panel's gang that are still to start. -/
def Dev.starters (d : Dev) (p : Panel) : List Panel := (d.gangPanels p.vdev p.launch (d.gangOfPanel p)).filter Panel.starting

/-- Reads what every starting panel of a gang needs; none when one of them has to wait. -/
def Dev.readyAll (v : Vdev) (l : Launch) : List Panel → Dev → Dev × Option (List (Panel × Ready))
  | [], d => (d, some [])
  | p :: r, d =>
    match d.readyPanel p v l with
    | (d1, .wait w) => (d1.onPanel p.handle fun x => { x with wait := w }, none)
    | (d1, y) =>
      match Dev.readyAll v l r d1 with
      | (d2, some t) => (d2, some ((p, y) :: t))
      | (d2, none) => (d2, none)

/-- Starts, restores or refuses one panel. -/
def Dev.startOne (d : Dev) (v : Vdev) (l : Launch) (p : Panel) (y : Ready) : Dev :=
  match y with
  | .load img => d.beginPanel p v l img
  | .restore img t =>
    let saved := ((d.launch p.vdev p.launch).bind fun l => l.cutRec p.cut).bind CutRec.saved
    d.restorePanel p saved img t
  | .refuse code detail => (d.removePanel p false).failCut p.vdev p.launch p.cut code detail
  | .wait _ => d

/-- Whether a launch's first issue is still to come: its first gang has run nothing (R360). -/
def Gang.unstarted (g : Gang) : Bool := g.idx == 0 && g.cuts.all fun c => c.saved.isNone && c.replays == 0 && c.st != .done

/-- Whether a save window still drains to a slot of a panel that is to be restored (R338). -/
def Dev.undrained (d : Dev) (p : Panel) : Bool :=
  p.phase == .restoring && d.tiles.any fun t => t.drain.any fun x => x.1 == p.vdev && p.slots.contains x.2

/-- The starting panels of a gang issue their first bundles together (R26, R55, R344, R363): all are loaded or restored in one step, or,
while a read waits, none. LATESTART by R360. -/
def Dev.startGang (d : Dev) (p : Panel) : Dev :=
  match d.vdev p.vdev, d.launch p.vdev p.launch with
  | some v, some l =>
    let ps := d.starters p
    if ps.any fun q => decide (d.dcc < q.startAt) || !q.wait.free || d.undrained q then d
    else match Dev.readyAll v l ps d with
      | (d1, none) => d1
      | (d1, some rs) =>
        let late := l.nbt != 0 && decide (l.nbt + 1000 < d.dcc) && (d.gangOfPanel p).elim false Gang.unstarted
        let mark := fun (x : Launch) => { x with status := setBit x.status 28 true }
        let d2 := if late then d1.onLaunch p.vdev p.launch mark else d1
        rs.foldl (fun d x => d.startOne v l x.1 x.2) d2
  | _, _ => d

/-- CUT_START (R55): the panels of a loaded gang start together. -/
def execCutStart (h : Nat) (s : State) : Result :=
  .next (s.onDev fun d =>
    match d.panel h with
    | some p => if p.phase == .loading then d.startGang p else d
    | none => d)

/-- CONTEXT_RESTORE (R344): an evicted gang is restored onto its new panels and resumes. -/
def execContextRestore (h : Nat) (s : State) : Result :=
  .next (s.onDev fun d =>
    match d.panel h with
    | some p => if p.phase == .restoring then d.startGang p else d
    | none => d)

/-! Completion (R56) -/

/-- Whether nothing of a halted tile holds its cut (R56). -/
def Tile.quiet (t : Tile) (psc : Nat) : Bool :=
  t.c.halted && t.toks.all (fun k => k.st != .pending) && t.ops.isEmpty && !t.flight.any (fun f => f.act.stores) && t.units.isEmpty
    && !pathPending (t.tpath ++ t.apath) psc
    && t.lands.all fun l => l.st == .free || l.st == .ready || l.st == .failed

/-- Whether a cut has completed: nothing of it is left in its tiles or with the placers (R56). -/
def Dev.cutDone (d : Dev) (p : Panel) : Bool :=
  p.phase == .running && p.tiles.all (fun n => (d.tiles[n]).quiet p.psc)
    && !d.posted.any fun x => x.vdev == p.vdev && x.launch == p.launch && x.cut == p.cut

/-- CUT_COMPLETE (R56, R42): the status of every tile is ORed into the launch's, dropped poisoned writes are counted, and the tiles are
scrubbed; a preload bound to the panel stays (R375). -/
def execCutComplete (h : Nat) (s : State) : Result :=
  .next (s.onDev fun d =>
    match d.panel h with
    | none => d
    | some p =>
      if d.cutDone p then
        let dropped := sumList (p.tiles.map fun n => (d.tiles[n]).sr.pdcnt.toNat)
        let d1 := (d.noteCut p).count p.bolt 8 dropped
        (d1.leavePanel p false).finishCut p.vdev p.launch p.cut
      else d)

end Sys2Proof.Machine
end

