-- ==== Sys2Proof/Machine/Privileged.lean ====
section
/-! DEFINITION. Service cores (R319–R321) and the privileged operations that reach tiles and panels (R329–R336, R350–R352, R390): entry to
and return from the handler, tile state, resumption and abort, the snapshot buffer, selvedge registers and the record queues. -/

namespace Sys2Proof.Machine

/-! Entry to the handler (R321) -/

/-- The lowest event cause pending at a service core (R320, R321). -/
def Dev.svcPending (d : Dev) (q : Fin 32) : Option Nat :=
  let c := d.svcs[q]
  let bolt := fun (f : Bolt → Bool) => match d.boltOfQuad q with
    | some b => f d.bolts[b]
    | none => false
  if !c.trapq.isEmpty then some 0x10
  else if bolt fun b => !b.faultq.isEmpty then some 0x11
  else if bolt fun b => !b.plcq.isEmpty then some 0x12
  else if c.mcmsg then some 0x13
  else none

/-- Whether an event makes a service core enter its handler before its next bundle. -/
def Dev.svcEvent (d : Dev) (q : Fin 32) : Bool := (d.svcs[q]).sstat.getLsbD 0 && (d.svcPending q).isSome

/-- The next bundle of a service core, which may be in the cycles of an idle bundle that has issued (R120). -/
def Svc.nextPc (c : Svc) : W32 := if 0 < c.idle then afterIdle c.loops c.pc else c.pc

/-- SERVICE_CORE_EVENT_ENTRY (R321): with IE set and an event cause pending, the core enters its handler; SEPC is the next bundle. The
message of cause 0x13 is taken by the entry. -/
def execServiceCoreEventEntry (q : Fin 32) (s : State) : Result :=
  .next (s.onDev fun d =>
    let c := d.svcs[q]
    if c.run != .run && c.run != .wait then d
    else if d.svcEvent q then
      match d.svcPending q with
      | some cause =>
        let d1 := if cause = 0x13 then d.onSvc q fun c => { c with mcmsg := false } else d
        d1.svcEnter q cause 0 c.nextPc
      | none => d
    else d)

/-- `trpret` (R330): SSTAT.IE := 1 and a transfer to SEPC. -/
def execTrpret (s : State) : Result :=
  match s.cur with
  | .svc q =>
    let c := s.dev.svcs[q]
    .next { s with dev := s.dev.onSvc q Svc.leave, iss := { s.iss with next := c.sepc, taken := true, idle := 0 } }
  | .tile _ => .next s

/-! Which tiles and panels an operation may name (R318, R329) -/

/-- The service core that issues, in its bolt. -/
def State.svcBolt (s : State) : Option (Fin 32 × Fin 32) :=
  match s.cur with
  | .svc q => (s.dev.boltOfQuad q).map fun b => (q, b)
  | .tile _ => none

/-- An operand breaks a limit: the illegal-operand trap of the service core (R329). -/
def State.svcIllop (s : State) : Result :=
  match s.cur with
  | .svc q => .next (s.svcTrap q 2 0 s.iss.addr)
  | .tile _ => .next (s.illop 0x0f)

/-- Whether a panel is frozen for a trap or a debug halt. -/
def Panel.stopped (p : Panel) : Bool := p.phase == .trap || p.phase == .debug

/-- Whether a panel is frozen with its state in its tiles: for a trap, a debug halt or an eviction. -/
def Panel.frozenState (p : Panel) : Bool :=
  p.stopped || match p.phase with
    | .quiesce _ | .saving => true
    | _ => false

/-- A tile of the issuing core's bolt whose panel is frozen for a trap or a debug halt, by its number. -/
def State.frozenTile (s : State) (t : Nat) : Option (Fin 128) :=
  match s.svcBolt with
  | some (_, b) =>
    let n := idx 128 t
    if t < 128 && s.dev.boltOf n == some b && (s.dev.panelOf n).elim false Panel.stopped then some n else none
  | none => none

/-- A panel of the issuing core's bolt, by its handle (R365). -/
def State.namedPanel (s : State) (h : Nat) : Option Panel :=
  match s.svcBolt with
  | some (_, b) => s.dev.panels.find? fun p => p.bolt == b && p.handle % 65536 == h
  | none => none

/-! Tile state (R331) -/

/-- A field of a register of `w` bits: its `i`-th 64-bit word. -/
def wordOf {n : Nat} (v : BitVec n) (i : Nat) : W64 := BitVec.ofNat 64 (fieldOf v (64 * i) 64)

/-- Replaces the `i`-th 64-bit word. -/
def putWord {n : Nat} (v : BitVec n) (i : Nat) (x : W64) : BitVec n := putField v (64 * i) 64 x.toNat

/-- The bytes of a landing slot: its descriptor of R341, then its data. -/
def Tile.landBytes (t : Tile) (j : Fin 64) (psc : Nat) : List Byte := placeFields 144 ((t.lands[j]).fields 0 16 psc (t.reissue j.val))

/-- The words of a landing slot: its descriptor in words 0 and 1, its data from word 2 on. DESIGN CHOICE: log entry 26. -/
def Tile.landWord (t : Tile) (j : Fin 64) (i psc : Nat) : Option W64 :=
  if i < 18 then some (BitVec.ofNat 64 (bytesField (t.landBytes j psc) (8 * i) 8)) else none

/-- A tile with the request of landing slot `j` replaced in its place, added or taken out. -/
def Tile.setAsk (t : Tile) (j : Fin 64) (o : Option MemOp) : Tile :=
  let mine := fun (x : MemOp) => x.asks && x.ls == some j
  match o with
  | none => { t with ops := t.ops.filter fun x => !mine x }
  | some o =>
    if t.ops.any mine then { t with ops := t.ops.map fun x => if mine x then { o with issue := x.issue, wait := x.wait } else x }
    else { t with ops := t.ops ++ [o] }

/-- A tile with one word of a landing slot replaced (R331): the slot, and its request as the descriptor's REISSUE, KIND and QUAL and the data give it. -/
def Tile.setLandWord (t : Tile) (j : Fin 64) (i : Nat) (v : W64) (psc : Nat) : Option Tile :=
  let l := t.landBytes j psc
  let m := l.take (8 * i) ++ leBytes 8 v.toNat ++ l.drop (8 * i + 8)
  if 18 ≤ i || decide (5 < bytesField m 0 1) then none
  else
    let old := t.lands[j]
    let t1 := { t with lands := t.lands.set j { landAt m 0 16 psc with issue := old.issue, slot := old.slot } }
    some (t1.setAsk j ((askAt m j 0 16 psc).map fun o => { o with issue := psc }))

/-- The loop stack as four entries, bottom first, unused ones zero (R341). -/
def loopSlots (l : List LoopEnt) : List LoopEnt :=
  let none_ : LoopEnt := { start := 0#32, stop := 0#32, count := 0 }
  (l.reverse ++ List.replicate 4 none_).take 4

/-- The loop stack of four entries. -/
def loopsOf (l : List LoopEnt) : List LoopEnt := (l.filter fun e => e.count != 0).reverse

/-- The words of tokens (STATE, STATUS and REPL of R341) and of the loop stack. DESIGN CHOICE: log entry 26. -/
def Tile.tokWord (t : Tile) (i : Nat) : Option W64 :=
  if i < 64 then
    let k := idx 32 (i / 2)
    some (if i % 2 = 0 then BitVec.ofNat 64 ((t.toks[k]).st.code + 256 * (t.toks[k]).status.toNat + 65536 * t.replCount k) else 0#64)
  else if i < 72 then
    ((loopSlots t.c.loops)[(i - 64) / 2]?).map fun e =>
      BitVec.ofNat 64 (if i % 2 = 0 then e.start.toNat + 2 ^ 32 * e.stop.toNat else e.count)
  else none

/-- Sets a token's state and status; one that leaves PENDING for a resolved state resolves its production (R257). -/
def Tile.setTok (t : Tile) (k : Fin 32) (st : TokSt) (status : Byte) : Tile :=
  if (t.toks[k]).st == .pending && (st == .done || st == .part || st == .failed) then t.resolveTok k st status
  else t.onTok k fun y => { y with st := st, status := status, xfer := if st == .free || st == .done then none else y.xfer }

/-- A tile with one word of its tokens or loop stack replaced. -/
def Tile.setTokWord (t : Tile) (i : Nat) (v : W64) : Option Tile :=
  if i < 64 then
    if i % 2 = 1 then some t
    else if 4 < fieldOf v 0 8 then none
    else some (t.setTok (idx 32 (i / 2)) (tokOf (fieldOf v 0 8)) (BitVec.ofNat 8 (fieldOf v 8 8)))
  else if i < 72 then
    let put := fun (e : LoopEnt) =>
      if i % 2 = 0 then { e with start := BitVec.ofNat 32 (fieldOf v 0 32), stop := BitVec.ofNat 32 (fieldOf v 32 32) }
      else { e with count := fieldOf v 0 32 }
    let l := (loopSlots t.c.loops).mapIdx fun j e => if j = (i - 64) / 2 then put e else e
    some { t with c := { t.c with loops := loopsOf l } }
  else none

/-- PSTATE (R331). -/
def Panel.pstate (p : Panel) : Nat :=
  (match p.phase with
    | .trap => 1
    | .debug => 2
    | .quiesce _ | .saving | .restoring => 3
    | _ => 0) + 4 * b2n p.evict.isSome

/-- The privileged tile registers (R331). -/
def Dev.privReg (d : Dev) (n : Fin 128) (i : Nat) : Option W64 :=
  let t := d.tiles[n]
  match i with
  | 0 => some (t.c.pc.setWidth 64)
  | 1 => some (BitVec.ofNat 64 t.c.idle)
  | 2 => some (BitVec.ofNat 64 t.tflags)
  | 3 => some t.c.wlo
  | 4 => some t.c.whi
  | 5 => some (t.c.wctl.setWidth 64)
  | 6 => some (t.c.dbgctl.setWidth 64)
  | 7 => some (BitVec.ofNat 64 ((d.panelOf n).elim 0 Panel.pstate))
  | 8 =>
    let step := fun i => (t.units[i]?).elim 0 fun (u : UnitRec) => u.step (d.psc n)
    some (BitVec.ofNat 64 (step 0 + 16 * step 1))
  | _ => none

/-- A tile with a privileged register written (R331): RPC withdraws the tile from its barrier when it names another bundle, TFLAGS leaves
HELD as it is, reserved bits keep what they hold. -/
def Tile.setPriv (t : Tile) (i : Nat) (v : W64) : Option Tile :=
  let w : W32 := v.setWidth 32
  match i with
  | 0 =>
    if w.toNat % 4 != 0 then none
    else if w = t.c.pc then some t
    else some { t with c := { t.c with pc := w, held := none, passed := false } }
  | 1 => some { t with c := { t.c with idle := w.toNat } }
  | 2 => some { t with c := { t.c with halted := v.getLsbD 0, fenced := v.getLsbD 2 } }
  | 3 => some { t with c := { t.c with wlo := v } }
  | 4 => some { t with c := { t.c with whi := v } }
  | 5 => some { t with c := { t.c with wctl := w &&& 7#32 } }
  | 6 => some { t with c := { t.c with dbgctl := w &&& 1#32 } }
  | _ => none

/-- Row or scale side, and word, of a byte offset into the tile registers' space: register, row (64 for the scale side), word. -/
def tregPlace (i : Nat) : Option (Fin 8 × Nat × Nat) :=
  if i % 8 = 0 ∧ i < 8 * 0x1100 then
    let o := i % 0x1100
    some (idx 8 (i / 0x1100), if o < 4096 then (o / 64, o % 64 / 8) else (64, (o - 4096) / 8))
  else none

/-- Register, row and word of a byte offset into the accumulators' space. -/
def accPlace (i : Nat) : Option (Fin 4 × Fin 64 × Nat) :=
  if i % 8 = 0 ∧ i < 4 * 0x4000 then some (idx 4 (i / 0x4000), idx 64 (i % 0x4000 / 256), i % 256 / 8) else none

/-- The ISP offset of an index: half [18], or resident region [19], and byte offset. An index with both is refused. DESIGN CHOICE: log entry 101. -/
def ispPlace (i : Nat) : Option Nat :=
  let o := i % 2 ^ 17
  if i % 8 != 0 || decide (2 ^ 20 ≤ i) || bit i 17 then none
  else if bit i 19 then (if bit i 18 || decide (0x4000 ≤ o) then none else some (2 ^ 18 + o))
  else if o < halfSize then some (halfBase (i / 2 ^ 18) + o)
  else none

/-- The 8-byte word at SPACE and INDEX of a tile (R331), if there is one. -/
def Dev.tsRead (d : Dev) (n : Fin 128) (space i : Nat) : Option W64 :=
  let t := d.tiles[n]
  match space with
  | 0 => (d.readSr n i).map (BitVec.ofNat 64)
  | 1 => if i < 32 then some (if i = 0 then 0#64 else t.r.s[idx 32 i]) else none
  | 2 => if i < 16 then some (if i = 0 then 0#64 else (t.r.k[idx 16 i]).setWidth 64) else none
  | 3 =>
    if i = 0 then some ((setBit t.r.p 0 true).setWidth 64)
    else if i < 9 then some ((t.r.ma[idx 8 (i - 1)]).setWidth 64)
    else if i < 17 then some ((t.r.mb[idx 8 (i - 9)]).setWidth 64)
    else none
  | 4 => if i < 512 then some (wordOf (t.r.va[idx 32 (i / 16)]) (i % 16)) else none
  | 5 => if i < 512 then some (wordOf (t.r.vb[idx 32 (i / 16)]) (i % 16)) else none
  | 6 => (tregPlace i).map fun x =>
      let r := t.r.t[x.1]
      if x.2.1 < 64 then wordOf (r.rows[idx 64 x.2.1]) x.2.2 else wordOf r.scale x.2.2
  | 7 => (accPlace i).map fun x => wordOf ((t.r.z[x.1])[x.2.1]) x.2.2
  | 8 =>
    if i % 8 = 0 ∧ i < 2 ^ 20 then
      some (BitVec.ofNat 64 (leNat (d.bankBytes n (t.sr.bfmt[idx 16 (i / 65536)]) (i / 65536) (i % 65536) 8)))
    else none
  | 9 => if i % 8 = 0 ∧ i < programArea then some (d.dword (vaultKey n i)) else none
  | 10 => (ispPlace i).map fun o => d.dword (ispKey n o)
  | 11 => if i < 64 * 32 then t.landWord (idx 64 (i / 32)) (i % 32) (d.psc n) else none
  | 12 => t.tokWord i
  | 13 => d.privReg n i
  | _ => none

/-- Whether `tsw` may write a state-register number: the RW registers and the semaphores (R331). -/
def tswWritable (i : Nat) : Bool := srWritable i || (decide (0x070 ≤ i) && decide (i ≤ 0x07F))

/-- The device with the word at SPACE and INDEX of a tile written, if it may be; poison bits keep their values. -/
def Dev.tsWrite (d : Dev) (n : Fin 128) (space i : Nat) (v : W64) : Option Dev :=
  let t := d.tiles[n]
  let on := fun (f : Tile → Tile) => some (d.onTile n f)
  match space with
  | 0 =>
    if !tswWritable i then none
    else if 0x070 ≤ i then on fun t => { t with sr := { t.sr with sem := t.sr.sem.set (idx 16 (i - 0x070)) (v.setWidth 32) } }
    else some (d.writeSr n i v)
  | 1 => if i < 32 then on fun t => t.writeS (idx 32 i) v (t.r.sPoison.getLsbD i) else none
  | 2 => if i < 16 then on fun t => t.writeK (idx 16 i) (v.setWidth 32) else none
  | 3 =>
    if i = 0 then on fun t => { t with r := { t.r with p := setBit (v.setWidth 8) 0 true } }
    else if i < 9 then on fun t => t.writeM .a (idx 8 (i - 1)) (v.setWidth 32)
    else if i < 17 then on fun t => t.writeM .b (idx 8 (i - 9)) (v.setWidth 32)
    else none
  | 4 => if i < 512 then on fun t => { t with r := { t.r with va := t.r.va.set (idx 32 (i / 16)) (putWord (t.r.va[idx 32 (i / 16)]) (i % 16) v) } } else none
  | 5 => if i < 512 then on fun t => { t with r := { t.r with vb := t.r.vb.set (idx 32 (i / 16)) (putWord (t.r.vb[idx 32 (i / 16)]) (i % 16) v) } } else none
  | 6 =>
    match tregPlace i with
    | none => none
    | some x => on fun t =>
        let r := t.r.t[x.1]
        let y := if x.2.1 < 64 then { r with rows := r.rows.set (idx 64 x.2.1) (putWord (r.rows[idx 64 x.2.1]) x.2.2 v) }
          else { r with scale := putWord r.scale x.2.2 v }
        { t with r := { t.r with t := t.r.t.set x.1 y } }
  | 7 =>
    match accPlace i with
    | none => none
    | some x => on fun t =>
        let z := t.r.z[x.1]
        { t with r := { t.r with z := t.r.z.set x.1 (Vector.set z x.2.1 (putWord z[x.2.1] x.2.2 v)) } }
  | 8 =>
    if i % 8 = 0 ∧ i < 2 ^ 20 then
      some (d.bankWrite n (t.sr.bfmt[idx 16 (i / 65536)]) (i / 65536) (i % 65536) (leBytes 8 v.toNat))
    else none
  | 9 => if i % 8 = 0 ∧ i < programArea then some (d.write (vaultKey n i) (leBytes 8 v.toNat)) else none
  | 10 => (ispPlace i).map fun o => d.write (ispKey n o) (leBytes 8 v.toNat)
  | 11 =>
    if i < 64 * 32 then (t.setLandWord (idx 64 (i / 32)) (i % 32) v (d.psc n)).map fun t1 => d.onTile n fun _ => t1 else none
  | 12 => (t.setTokWord i v).map fun t1 => d.onTile n fun _ => t1
  | 13 => (t.setPriv i v).map fun t1 => d.onTile n fun _ => t1
  | _ => none

/-- The poison bit of the register that holds a word, where there is one. -/
def Tile.tsPoison (t : Tile) (space i : Nat) : Option Bool :=
  match space with
  | 1 => if i < 32 then some (decide (i ≠ 0) && t.r.sPoison.getLsbD i) else none
  | 4 => if i < 512 then some (t.r.vaPoison.getLsbD (i / 16)) else none
  | 5 => if i < 512 then some (t.r.vbPoison.getLsbD (i / 16)) else none
  | 6 => (tregPlace i).map fun x => t.r.tPoison.getLsbD x.1.val
  | 7 => (accPlace i).map fun x => t.r.zPoison.getLsbD x.1.val
  | _ => none

/-- A tile with that poison bit written; s0 stays unpoisoned. -/
def Tile.setTsPoison (t : Tile) (space i : Nat) (b : Bool) : Tile :=
  match space with
  | 1 => if i = 0 then t else { t with r := { t.r with sPoison := setBit t.r.sPoison i b } }
  | 4 => { t with r := { t.r with vaPoison := setBit t.r.vaPoison (i / 16) b } }
  | 5 => { t with r := { t.r with vbPoison := setBit t.r.vbPoison (i / 16) b } }
  | 6 => { t with r := { t.r with tPoison := setBit t.r.tPoison (i / 0x1100) b } }
  | 7 => { t with r := { t.r with zPoison := setBit t.r.zPoison (i / 0x4000) b } }
  | _ => t

/-- Tile, SPACE and INDEX of a tile-state address, when the tile may be named. -/
def State.tsa (s : State) (a : W64) : Option (Fin 128 × Nat × Nat) :=
  if fieldOf a 56 8 = 0 then (s.frozenTile (fieldOf a 48 8)).map fun n => (n, fieldOf a 40 8, fieldOf a 0 40) else none

/-- The memory word that holds SPACE and INDEX of a tile. -/
def Dev.tsKey (d : Dev) (n : Fin 128) (space i : Nat) : Option Nat :=
  match space with
  | 8 => some (bankKey n ((d.tiles[n]).sr.bfmt[idx 16 (i / 65536)]) (i / 65536) (i % 65536))
  | 9 => some (vaultKey n i)
  | 10 => (ispPlace i).map (ispKey n)
  | _ => none

/-- An access to a word of a frozen tile meets its errors; an uncorrectable one aborts the panel (R430, R428). -/
def Dev.tsMeets (d : Dev) (n : Fin 128) (k : Nat) : Dev :=
  let d1 := d.ecc (d.boltOf n) k 8
  if d.bad k 8 then (d1.panelOf n).elim d1 fun p => d1.abortPanel p 6 true else d1

/-- `tsr` (R330): one word of frozen tile state, unpoisoned but where the memory holds an uncorrectable error (R430). -/
def execTsr (d a : Fin 32) (s : State) : Result :=
  match s.tsa (s.readS a) with
  | none => s.svcIllop
  | some x =>
    match s.dev.tsRead x.1 x.2.1 x.2.2, s.dev.tsKey x.1 x.2.1 x.2.2 with
    | none, _ => s.svcIllop
    | some v, none => .next (s.putS 1 d v false)
    | some v, some k => .next ((s.onDev fun e => e.tsMeets x.1 k).putS 1 d v (s.dev.bad k 8))

/-- `tsr.p` (R330): the poison bit of the register that holds the word. -/
def execTsrP (d a : Fin 32) (s : State) : Result :=
  match (s.tsa (s.readS a)).bind fun x => (s.dev.tiles[x.1]).tsPoison x.2.1 x.2.2 with
  | some b => .next (s.putS 1 d (BitVec.ofNat 64 (b2n b)) false)
  | none => s.svcIllop

/-- `tsw` (R330): writes one word; a poisoned source writes 0. -/
def execTsw (a b : Fin 32) (s : State) : Result :=
  let v := if s.poisonS b then 0#64 else s.readS b
  match (s.tsa (s.readS a)).bind fun x => s.dev.tsWrite x.1 x.2.1 x.2.2 v with
  | some d => .next { s with dev := d }
  | none => s.svcIllop

/-- `tsw.p` (R330): writes only the poison bit. -/
def execTswP (a b : Fin 32) (s : State) : Result :=
  match s.tsa (s.readS a) with
  | none => s.svcIllop
  | some x =>
    if ((s.dev.tiles[x.1]).tsPoison x.2.1 x.2.2).isSome then
      .next (s.onDev fun d => d.onTile x.1 fun t => t.setTsPoison x.2.1 x.2.2 (!s.poisonS b && (s.readS b).getLsbD 0))
    else s.svcIllop

/-! Resumption, halt and abort (R332–R336) -/

/-- An operation on a panel that must be in a given condition. -/
def State.onNamed (s : State) (a : Fin 32) (ok : Panel → Bool) (f : Dev → Panel → Dev) : Result :=
  match s.namedPanel (s.readS a).toNat with
  | some p => if ok p then .next (s.onDev fun d => f d p) else s.svcIllop
  | none => s.svcIllop

/-- `tres.run` (R333, R334). -/
def execTresRun (a : Fin 32) (s : State) : Result := s.onNamed a Panel.stopped fun d p => (d.setElock p false).resumePanel p

/-- `tres.step` (R335): one PSC cycle, at whose end the panel returns to debug halt; the engines of its tiles may go on by one cycle. -/
def execTresStep (a : Fin 32) (s : State) : Result :=
  s.onNamed a Panel.stopped fun d p =>
    p.tiles.foldl (fun d n => d.onTile n fun t => { t with c := { t.c with engineGo := true } })
      ((d.resumePanel p).onPanel p.handle fun p => { p with stepping := true })

/-- `tres.halt` (R334): a running panel freezes at the next PSC boundary. -/
def execTresHalt (a : Fin 32) (s : State) : Result :=
  s.onNamed a (fun p => p.phase == .running) fun d p => d.onPanel p.handle fun p => { p with haltReq := true }

/-- `tres.lock` (R334): `tres.halt` with ELOCK set in every tile. -/
def execTresLock (a : Fin 32) (s : State) : Result :=
  s.onNamed a (fun p => p.phase == .running) fun d p => (d.setElock p true).onPanel p.handle fun p => { p with haltReq := true }

/-- `tabt` (R336): the cut completes with CODE ABORTED. -/
def execTabt (a : Fin 32) (s : State) : Result := s.onNamed a Panel.stopped fun d p => d.abortPanel p 6 false

/-- `tabt.replay` (R336, R428): the cut is replayed, or completes with CODE ABORTED. -/
def execTabtReplay (a : Fin 32) (s : State) : Result := s.onNamed a Panel.stopped fun d p => d.abortPanel p 6 true

/-! The snapshot buffer (R328, R330) -/

/-- The tile, entry and value word that `tsnap` names. -/
def State.snapArg (s : State) (a b : Fin 32) : Option (Fin 128 × Nat × Nat) :=
  let x := (s.readS b).toNat
  if x < 4096 && x % 256 < 132 then (s.frozenTile (s.readS a).toNat).map fun n => (n, x % 256, x / 256) else none

/-- The words of an entry 0–127; an empty one reads zero. -/
def Dev.snapEntry (d : Dev) (n : Fin 128) (i : Nat) : SnapWords :=
  match (d.snaps n)[i]? with
  | some x => d.snapWords n x
  | none => ⟨0, 0, 0#1024⟩

/-- A `tsnap` that reads one word of an entry. -/
def State.tsnap (s : State) (d a b : Fin 32) (f : Fin 128 → Nat → Nat → Nat) : Result :=
  match s.snapArg a b with
  | some x => .next (s.putS 1 d (BitVec.ofNat 64 (f x.1 x.2.1 x.2.2)) false)
  | none => s.svcIllop

/-- `tsnap.desc` (R328). -/
def execTsnapDesc (d a b : Fin 32) (s : State) : Result :=
  s.tsnap d a b fun n i _ => if i < 128 then (s.dev.snapEntry n i).desc else s.dev.unitDesc n (i - 128)

/-- `tsnap.addr` (R328); entries 128–131 have no address. -/
def execTsnapAddr (d a b : Fin 32) (s : State) : Result := s.tsnap d a b fun n i _ => if i < 128 then (s.dev.snapEntry n i).addr else 0

/-- `tsnap.val` (R328); entries 128–131 carry no value words. -/
def execTsnapVal (d a b : Fin 32) (s : State) : Result :=
  s.tsnap d a b fun n i w => if i < 128 then (wordOf (s.dev.snapEntry n i).value w).toNat else 0

/-- `tsnap.drop` (R330): empties a snapshot entry, 0–127. -/
def execTsnapDrop (a b : Fin 32) (s : State) : Result :=
  match s.snapArg a b with
  | some x =>
    if x.2.1 < 128 then
      .next (s.onDev fun d => match (d.snaps x.1)[x.2.1]? with
        | some e => d.dropSnap x.1 e
        | none => d)
    else s.svcIllop
  | none => s.svcIllop

/-! Selvedge registers (R350, R352) -/

/-- Whether a SVPANEL value lies inside SVBOLT. -/
def svInside (v bolt : W64) : Bool :=
  !bolt.getLsbD 14 || (decide (fieldOf bolt 0 4 ≤ fieldOf v 0 4) && decide (fieldOf v 4 4 ≤ fieldOf bolt 4 4)
    && decide (fieldOf bolt 8 3 ≤ fieldOf v 8 3) && decide (fieldOf v 11 3 ≤ fieldOf bolt 11 3))

/-- `selw` (R352): writes SVPANEL or SVRATE of a tile of the bolt. -/
def execSelw (a b : Fin 32) (s : State) : Result :=
  let sel := (s.readS a).toNat
  let v := s.readS b
  let reg := field sel 8 2
  let n := idx 128 (sel % 128)
  match s.svcBolt with
  | some (_, bolt) =>
    if sel % 128 + 256 * reg != sel || !(reg == 1 || reg == 2) || s.dev.boltOf n != some bolt then s.svcIllop
    else if reg = 2 then .next (s.onDev fun d => d.onRouter n fun r => { r with svrate := v.setWidth 8 })
    else if (s.dev.panelOf n).isSome || (v.getLsbD 14 && !svInside v (s.dev.routers[n]).svbolt) then s.svcIllop
    else .next (s.onDev fun d => d.onRouter n fun r => { r with svpanel := v &&& 0x7fff#64 })
  | none => s.svcIllop

/-! Record queues (R330, R390) -/

/-- Whether a fault record is stale: its generation is no longer its space's (R390). -/
def Dev.staleRecord (d : Dev) (r : BitVec 512) : Bool := recField r 0x04 4 != (d.genOf (recField r 0x20 2)).toNat

/-- Moves a record to local memory, or answers 0 for an empty queue. A local address at or above 256 KiB raises bounds, as that of a load or store does.
DESIGN CHOICE: log entry 102. -/
def State.popTo (s : State) (q : Fin 32) (dst a : Fin 32) (r : Option (BitVec 512)) (drop : Dev → Dev) : Result :=
  let at_ := (s.readS a).toNat
  if at_ % 64 != 0 then s.svcIllop
  else if 2 ^ 18 ≤ at_ then .next (s.bounds (s.readS a))
  else match r with
    | some x => .next ((s.onDev fun d => (drop d).write (svcKey q at_) (leBytes 64 x.toNat)).putS 1 dst 1#64 false)
    | none => .next ((s.onDev drop).putS 1 dst 0#64 false)

/-- `fqpop.trap` (R330). -/
def execFqpopTrap (d a : Fin 32) (s : State) : Result :=
  match s.svcBolt with
  | some (q, _) =>
    s.popTo q d a (s.dev.svcs[q]).trapq.head? fun x => x.onSvc q fun c => { c with trapq := c.trapq.drop 1 }
  | none => s.svcIllop

/-- `fqpop.fault` (R390): the oldest current record; stale ones before it are discarded and counted. -/
def execFqpopFault (d a : Fin 32) (s : State) : Result :=
  match s.svcBolt with
  | some (q, b) =>
    let l := (s.dev.bolts[b]).faultq
    let rest := l.dropWhile s.dev.staleRecord
    s.popTo q d a rest.head? fun x =>
      (x.count b 4 (l.length - rest.length)).onBolt b fun y => { y with faultq := rest.drop 1 }
  | none => s.svcIllop

/-- `fqpop.plc` (R330). -/
def execFqpopPlc (d a : Fin 32) (s : State) : Result :=
  match s.svcBolt with
  | some (q, b) => s.popTo q d a (s.dev.bolts[b]).plcq.head? fun x => x.onBolt b fun y => { y with plcq := y.plcq.drop 1 }
  | none => s.svcIllop

end Sys2Proof.Machine
end

