-- ==== Sys2Proof/Machine/Context.lean ====
section
/-! DEFINITION. Saving and loading contexts (R337–R347, R374): eviction at a panel-wide stitch point with its quiescence, save, release
and drain, the periodic stitch save, and `ctxs` and `ctxl`. -/

namespace Sys2Proof.Machine

/-- Length of a tile cycle in 1/168 ns at a clock step (R12): 0.8, 1.0, 1.2, 1.4 and 1.6 GHz. -/
def clockPeriod (step : Nat) : Nat :=
  match step with
  | 0 => 210
  | 1 => 168
  | 2 => 140
  | 3 => 120
  | _ => 105

/-! Quiescence (R338) -/

/-- EVICTION_AT_STITCH (R338 step 1): the panel freezes with pending PSC c + 1 and begins to quiesce. -/
def execEvictionAtStitch (h : Nat) (s : State) : Result :=
  .next (s.onDev fun d =>
    match d.panel h with
    | some p =>
      if p.phase == .running && p.evict.isSome then d.onPanel h fun p => { p with phase := .quiesce d.now, frozen := 0 } else d
    | none => d)

/-- A request that has been performed returns its answer; one that has not is withdrawn, to be reissued, and an outbound operation that has not
performed becomes an entry again (R338, R341). A far message that has left the tile goes its way, and still precedes what it preceded (R298). -/
def Tile.withdraw (t : Tile) : Tile :=
  let t1 := t.answered.unwait
  let back := fun (o : MemOp) => { o with stage := .issued, entry := o.entry || o.outbound }
  { t1 with ops := t1.ops.map fun o => if o.kind = .xfar ∧ o.stage = .accepted then o else back o }

/-- Whether quiescence may end: nothing is outstanding, or PSTALL tile cycles have passed (R338). -/
def Dev.quiesced (d : Dev) (p : Panel) : Bool :=
  match p.phase with
  | .quiesce since =>
    p.tiles.all (fun n => (d.tiles[n]).ops.isEmpty) || decide (since + p.pstall * clockPeriod (d.bolts[p.bolt]).clk ≤ d.now)
  | _ => false

/-- QUIESCE_END (R338 step 2): what has not been performed is withdrawn, and the save begins. -/
def execQuiesceEnd (h : Nat) (s : State) : Result :=
  .next (s.onDev fun d =>
    match d.panel h with
    | some p =>
      if d.quiesced p then
        (p.tiles.foldl (fun d n => d.onTile n Tile.withdraw) d).onPanel h fun p => { p with phase := .saving }
      else d
    | none => d)

/-! The save (R338–R341) -/

/-- Bytes of the save window (R107, R340). -/
def windowSize : Nat := 0x80000

/-- The masks of a tile at its stitch point; a halted tile has none (R53). -/
def Tile.masks (t : Tile) : BitVec 21 × BitVec 16 := if t.c.halted then (0#21, 0#16) else t.c.stitch.getD (0#21, 0#16)

/-- What an image keeps of a tile. The preload is discarded (R376), and BOWN reads on as it did, as R102 has it. DEDUCED: log entry 87. -/
def Tile.kept (t : Tile) (lm : BitVec 21) : Tile :=
  let t1 := t.named lm
  { t1 with c := { t1.c with stitch := none, idleHeld := false }, drain := none, tlb := [] }

/-- The image of a tile for a context slot of its vdev: its bytes with the DVA of its spill part, and the data they were written from. -/
def Dev.savedTile (d : Dev) (n : Fin 128) (v : Vdev) (slot : Nat) (lm : BitVec 21) (bm : BitVec 16) (full : Bool) : SavedTile :=
  let size := fixedSize + namedSize lm ((d.tiles[n]).freeBanks bm) + if full then pathSize else 0
  let spill := if windowSize < size then v.slotDva slot + windowSize else 0
  { slot := slot, tile := (d.tiles[n]).kept lm, lmask := lm, bmask := bm, full := full, image := d.ctxImage n lm bm full spill }

/-- A saved cut of a panel from its tiles' images; `saveIn` is what is left of its periodic save's interval. -/
def Panel.savedCut (p : Panel) (l : List SavedTile) (saveIn : Nat) : SavedCut where
  psc := p.psc
  pstall := p.pstall
  pstitch := p.pstitch
  lastStitch := p.lastStitch
  beats := p.beats
  nextBeat := p.nextBeat
  saveIn := saveIn
  tiles := l

/-- The images of a panel's tiles, by rank; `full` for a panel frozen for a trap or a debug halt (R347). -/
def Dev.saveImages (d : Dev) (p : Panel) (v : Vdev) (full : Bool) : List SavedTile :=
  p.slots.zipIdx.map fun x =>
    let n := p.tile x.2
    let m := if full then (BitVec.allOnes 21, BitVec.allOnes 16) else (d.tiles[n]).masks
    d.savedTile n v x.1 m.1 m.2 full

/-- Writes bytes of a panel's contexts at their DVAs, one after another; a fault holds the cut (R447), whose save is then tried again. After a failure
the rest is lost. DESIGN CHOICE, unsafe: log entry 27. -/
def Dev.writeCtx (d : Dev) (p : Panel) (l : List (Nat × List Byte)) : Dev × Option Wait :=
  if p.wait == .failed then (d, none)
  else l.foldl (fun x y =>
    if x.2.isSome then x
    else match x.1.vWrite p.bolt (x.1.placerAsker p.bolt p.vdev (d.launchTag p.vdev p.launch) p.wait) y.1 y.2 with
      | (d1, .wait w) => (d1, some w)
      | (d1, _) => (d1, none)) (d, none)

/-- The spill parts of images: each continues beyond the window at its slot's spill area (R340). -/
def spillParts (v : Vdev) (l : List SavedTile) : List (Nat × List Byte) :=
  (l.filter fun x => decide (windowSize < x.image.length)).map fun x => (v.slotDva x.slot + windowSize, x.image.drop windowSize)

/-- Whether the placer's writes of a panel's contexts may go on: no fault holds the cut, and every shadow has been written (R343, R447). -/
def Dev.ctxFree (d : Dev) (p : Panel) : Bool := p.wait.free && p.tiles.all fun n => (d.tiles[n]).shadowDue.isEmpty

/-- Writes the images into the tiles' save windows, from which they drain (R338 steps 3 and 5). -/
def Dev.writeWindows (d : Dev) (p : Panel) (l : List SavedTile) : Dev :=
  l.zipIdx.foldl (fun d x =>
    let n := p.tile x.2
    (d.write (vaultKey n programArea) (x.1.image.take windowSize)).onTile n fun t => { t with drain := some (p.vdev, x.1.slot) }) d

/-- Whether no window of a panel's tiles still drains. -/
def Dev.windowsFree (d : Dev) (p : Panel) : Bool := p.tiles.all fun n => (d.tiles[n]).drain.isNone

/-- Marks a gang that has no placed cut any more. -/
def Launch.unplace (l : Launch) : Launch :=
  let fix := fun (g : Gang) => if g.placed then g else { g with placedAt := none, backfill := false }
  { l with gangs := l.gangs.map fix }

/-- The cut of a panel is evicted with its image; the panel's tiles are released but for their windows (R338 step 4). What is preloaded
onto its gang stays after an overrun and is discarded otherwise (R376). -/
def Dev.evictCut (d : Dev) (p : Panel) (x : SavedCut) : Dev :=
  let d1 := if p.evict == some Why.overrun then d else d.dropGang p
  let q := (d1.panel p.handle).getD p
  (d1.leavePanel q true).onLaunch p.vdev p.launch fun l =>
    (l.onCut p.cut fun c => { c with st := .evicted, saved := some x }).unplace

/-- Whether a panel is saved as a full image: the part checkpoints while a trap freeze or a debug halt holds the panel (R436). -/
def Dev.savesFrozen (d : Dev) (p : Panel) : Bool := d.mc.st == .checkpoint && (p.phase == .trap || p.phase == .debug)

/-- Whether a panel may be saved now: a window that still drains keeps the save back, and so does a fault that holds the cut. -/
def Dev.maySave (d : Dev) (p : Panel) : Bool := (p.phase == .saving || d.savesFrozen p) && d.windowsFree p && d.ctxFree p

/-- Whether a tile's banks of a mask, as an image takes them, hold an uncorrectable error. -/
def Dev.banksBad (d : Dev) (n : Fin 128) (bm : BitVec 16) : Bool :=
  (List.range 16).any fun b => ((d.tiles[n]).freeBanks bm).getLsbD b && d.bad (tspKey n (b * 65536)) 65536

/-- Whether an image of a panel's tiles holds an uncorrectable error. -/
def Dev.saveBad (d : Dev) (p : Panel) (l : List SavedTile) : Bool :=
  !d.badWords.isEmpty && l.zipIdx.any fun x => d.banksBad (p.tile x.2) x.1.bmask

/-- A save that meets an uncorrectable error in a panel's state counts it and aborts the panel (R430, R428). -/
def Dev.lostState (d : Dev) (p : Panel) : Dev :=
  let d1 := p.tiles.foldl (fun d n => d.ecc (some p.bolt) (tspKey n 0) (2 ^ 20)) d
  (d1.panel p.handle).elim d1 fun q => d1.abortPanel q 6 true

/-- Running time in ns until a panel's next periodic save. -/
def Dev.saveIn (d : Dev) (p : Panel) : Nat := p.saveAt - d.dcc

/-- CONTEXT_SAVE_COMPLETE (R338 steps 3 and 4): the images stand in the save windows, and the tiles are scrubbed and released. In a checkpoint the
full image of a frozen panel goes into its slots (R436, R346, R347). -/
def execContextSaveComplete (h : Nat) (s : State) : Result :=
  .next (s.onDev fun d =>
    match d.panel h with
    | some p =>
      match d.vdev p.vdev with
      | some v =>
        let full := d.savesFrozen p
        let l := d.saveImages p v full
        if !d.maySave p then d
        else if d.saveBad p l then d.lostState p
        else
          match d.writeCtx p (if full then l.map fun x => (v.slotDva x.slot, x.image) else spillParts v l) with
          | (d1, some w) => d1.onPanel h fun p => { p with wait := w }
          | (d1, none) => (if full then d1 else d1.writeWindows p l).evictCut p (p.savedCut l (d.saveIn p))
      | none => d
    | none => d)

/-- Whether a vdev keeps the tiles of its evicted cuts: a collapsed one of class W0 (R433). -/
def Vdev.keepsTiles (v : Vdev) : Bool := v.fld 4 1 == 0 && (v.state == .collapsing || v.state == .collapsed)

/-- Whether a window that drains to a vdev may drain now: that of a collapsed vdev of class W0 keeps its context until the vdev wakes, but not in a
checkpoint (R433, R436). -/
def Dev.drains (d : Dev) (v : Nat) : Bool := d.mc.st == .checkpoint || !(d.vdev v).elim false Vdev.keepsTiles

/-- WINDOW_DRAIN_COMPLETE (R338 step 5): the window's bytes stand in the context slot, and the window is scrubbed. A fault holds the drain (R447);
after a failure the bytes are lost. DESIGN CHOICE, unsafe: log entry 27. -/
def execWindowDrainComplete (n : Fin 128) (s : State) : Result :=
  .next (s.onDev fun d =>
    match (d.tiles[n]).drain, d.boltOf n with
    | some x, some b =>
      let done := fun (d : Dev) => (d.clear (vaultKey n programArea) windowSize).onTile n fun t => { t with drain := none, drainWait := .no }
      if !d.drains x.1 then d
      else match d.vdev x.1 with
      | none => done d
      | some v =>
        let key := vaultKey n programArea
        let len := Nat.min windowSize (ctxLength (d.bytes key 64))
        let wait := (d.tiles[n]).drainWait
        if wait == .failed then done d
        else match d.vWrite b (d.placerAsker b x.1 (d.slotTag x.1 x.2) wait) (v.slotDva x.2) (d.bytes key len) with
          | (d1, .wait w) => d1.onTile n fun t => { t with drainWait := w }
          | (d1, _) => done d1
    | _, _ => d)

/-- PERIODIC_STITCH_SAVE (R374): the image of R338 is written at the stitch point and the cut goes on in place. While an earlier save
still drains, or a fault holds the cut's context, the order stands for the next stitch point. DESIGN CHOICE: log entry 27. -/
def execPeriodicStitchSave (h : Nat) (s : State) : Result :=
  .next (s.onDev fun d =>
    match d.panel h with
    | some p =>
      match d.vdev p.vdev with
      | some v =>
        if p.phase != .running || !d.windowsFree p || !d.ctxFree p then d
        else
          let quiet := p.tiles.foldl (fun d n => d.onTile n Tile.withdraw) d
          let l := quiet.saveImages p v false
          let every := 1000 * v.fld 0x0c 4
          if d.saveBad p l then d.lostState p
          else match d.writeCtx p (spillParts v l) with
          | (d1, some w) => d1.onPanel h fun p => { p with wait := w }
          | (d1, none) =>
            ((d1.writeWindows p l).onLaunch p.vdev p.launch fun x =>
              x.onCut p.cut fun c => { c with psave := some (p.savedCut l every) }).onPanel h fun p =>
                { p with save := false, saveAt := if every = 0 then 0 else d.dcc + every, wait := .no }
      | none => d
    | none => d)

/-! `ctxs` and `ctxl` (R346) -/

/-- All live bits. -/
def allLive : BitVec 21 := BitVec.allOnes 21

/-- What `ctxs` and `ctxl` do when their tile may not be named: the operation that a reset overtook ends with status 2 (R345), any other
breaks a limit. -/
def State.ctxLost (s : State) (d : Fin 32) : Result :=
  match s.cur with
  | .svc q =>
    if (s.dev.svcs[q]).plcWait != .no then .next ((s.onDev fun x => x.setSvcWait q .no).putS 1 d 2#64 false) else s.svcIllop
  | .tile _ => s.svcIllop

/-- A status of `ctxs` and `ctxl`, after which the core goes on. -/
def State.ctxStatus (s : State) (q d : Fin 32) (x : Dev) (st : W64) : Result :=
  .next (({ s with dev := x.setSvcWait q .no } : State).putS 1 d st false)

/-- The core waits for a host translation. -/
def State.ctxWait (s : State) (q : Fin 32) (x : Dev) (w : Wait) : Result := .next ({ s with dev := x.setSvcWait q w } : State).svcRetry

/-- The core as asker, with what it has waited on. -/
def State.ctxAsker (s : State) (q : Fin 32) : Asker := { svcAsker q with held := (s.dev.svcs[q]).plcWait }

/-- Keeps what the bytes that `ctxs` has written stand for, beside the bytes. -/
def Dev.keepCtx (d : Dev) (n : Fin 128) (p : Panel) (image : List Byte) : Dev :=
  { d with ctxs := { handle := p.handle, num := n, tile := (d.tiles[n]).answered, beats := (p.inbound (d.tiles[n]).rank).filter fun b => !b.taken.contains (d.tiles[n]).rank, image := image }
                     :: d.ctxs.filter fun x => x.image != image || x.num != n }

/-- What the bytes of an image stand for, if `ctxs` wrote them from this tile under this panel. -/
def Dev.keptCtx (d : Dev) (n : Fin 128) (p : Panel) (image : List Byte) : Option KeptCtx :=
  d.ctxs.find? fun x => x.handle == p.handle && x.num == n && x.image == image

/-- The kept image that a changed one was made from: that of the tile itself, or else one with the same PSC and state registers. -/
def Dev.donorCtx (d : Dev) (n : Fin 128) (p : Panel) (image : List Byte) : Option KeptCtx :=
  let like := fun (x : KeptCtx) => sameRun x.image image 0x08 8 && sameRun x.image image 0x0200 0x400
  (d.ctxs.find? fun x => x.handle == p.handle && x.num == n).orElse fun _ => d.ctxs.find? like

/-- `ctxs` (R346): the full image of a frozen tile goes to a DVA of the bolt supervisor's space. Where the tile's state holds an uncorrectable error,
its panel is aborted (R430, R428) and the bytes are not written. -/
def execCtxs (d a b : Fin 32) (s : State) : Result :=
  match s.svcBolt, s.frozenTile (s.readS a).toNat with
  | some (q, bolt), some n =>
    let dva := (s.readS b).toNat
    let image := s.dev.ctxImage n allLive (BitVec.allOnes 16) true 0
    if dva % 4096 != 0 then s.svcIllop
    else if s.dev.banksBad n (BitVec.allOnes 16) then
      s.ctxStatus q d ((s.dev.panelOf n).elim s.dev s.dev.lostState) 2#64
    else match s.dev.vWrite bolt (s.ctxAsker q) dva image false with
      | (x, .done) => s.ctxStatus q d ((x.panelOf n).elim x fun p => x.keepCtx n p image) 0#64
      | (x, .wait w) => s.ctxWait q x w
      | (x, .fail) => s.ctxStatus q d x 3#64
  | _, _ => s.ctxLost d

/-- Clears the banks of a tile that no preload owns. -/
def Dev.clearBanks (d : Dev) (n : Fin 128) : Dev :=
  (List.range 16).foldl (fun d b => if (d.tiles[n]).owned b then d else d.clear (tspKey n (b * 65536)) 65536) d

/-- The beats of a panel with those in flight to a tile replaced: the old ones go their way to other ranks only. -/
def Dev.replaceBeats (d : Dev) (n : Fin 128) (p : Panel) (l : List Beat) : Dev :=
  let rank := (d.tiles[n]).rank
  let mine := (p.inbound rank).map Beat.id
  let keep := fun (b : Beat) => if mine.contains b.id then { b with taken := rank :: b.taken } else b
  d.onPanel p.handle fun p => { p with beats := p.beats.map keep ++ l, nextBeat := p.nextBeat + 128 }

/-- Loads a tile of a frozen panel from an image whose halves have been read: everything but PSC, BOWN, its owner and its caches. What its bytes do not
tell is taken from the kept image that it was made from, where they are unchanged (log entry 24). -/
def Dev.loadCtx (d : Dev) (n : Fin 128) (p : Panel) (img : List Byte) (x : TileLoad) : Dev :=
  let t := d.tiles[n]
  let d1 := ((d.clearBanks n).restoreMemories n img x).tileOfImage n x.image p.psc
  let exact := fun (u : Tile) => (d.donorCtx n p x.image).elim u fun k => (u.refine x.image k.tile k.image (k.handle == p.handle && k.num == n)).unwait
  let d2 := (d1.onTile n fun u => { exact u with sr := { (exact u).sr with bown := t.sr.bown } }).placeFars n
  let same := fun (b : Beat) => (p.inbound t.rank).find? fun c => c.src == b.src && c.arrival t.rank p.psc == b.arrival t.rank p.psc
  let fresh := (List.range 128).filterMap fun i =>
    let w := snapAt x.image i
    let b := p.beatAt w (p.nextBeat + i) t.rank p.psc
    if w.desc / 2 ^ 56 = 6 then some ((same b).elim b fun c => { b with issue := c.issue, faddr := c.faddr }) else none
  d2.replaceBeats n p fresh

/-- Reinstates a tile of a frozen panel as it stood when `ctxs` wrote the bytes: its memories from the bytes, the rest from what they stand for. -/
def Dev.reloadCtx (d : Dev) (n : Fin 128) (p : Panel) (img : List Byte) (x : TileLoad) (k : KeptCtx) : Dev :=
  let d1 := (d.clearBanks n).restoreMemories n img x
  let put := fun (t : Tile) =>
    { t.resumed k.tile.unwait with shadowDue := t.shadowDue, sr := { k.tile.sr with bown := t.sr.bown }, c := { k.tile.c with idleHeld := t.c.idleHeld } }
  ((d1.onTile n put).placeFars n).replaceBeats n p (k.beats.mapIdx fun i b => { b with
    id := p.nextBeat + i, route := b.route.takeWhile (· != (d.tiles[n]).rank) ++ [(d.tiles[n]).rank], each := false, taken := [] })

/-- `ctxl` (R346): a full image is loaded into a tile of a frozen panel, or refused. The bytes that `ctxs` wrote of the tile reinstate it as it
stood then, those that it would write now leave it as it is, and others are read by their layout (log entry 24). -/
def execCtxl (d a b : Fin 32) (s : State) : Result :=
  match s.svcBolt, s.frozenTile (s.readS a).toNat with
  | some (q, bolt), some n =>
    let dva := (s.readS b).toNat
    match s.dev.panelOf n with
    | none => s.svcIllop
    | some p =>
      if dva % 4096 != 0 then s.svcIllop
      else match s.dev.vRead bolt (s.ctxAsker q) dva fixedSize false with
        | (x, .wait w) => s.ctxWait q x w
        | (x, .fail) => s.ctxStatus q d x 3#64
        | (x, .bytes h bad) =>
          if bad || bytesField h 0 4 != ctxMagic || decide (2 ^ 21 < ctxLength h) then s.ctxStatus q d x 1#64
          else match x.vRead bolt (s.ctxAsker q) dva (ctxLength h) false with
            | (y, .wait w) => s.ctxWait q y w
            | (y, .fail) => s.ctxStatus q d y 3#64
            | (y, .bytes l bad) =>
              if bad || !ctxValid l (s.dev.tiles[n]).rank p.w p.h || bytesField l 8 8 != p.psc then s.ctxStatus q d y 1#64
              else if l == s.dev.ctxImage n allLive (BitVec.allOnes 16) true 0 then s.ctxStatus q d y 0#64
              else
                let k := p.bolt
                let a := y.placerAsker k p.vdev (y.launchTag p.vdev p.launch) (s.dev.svcs[q]).plcWait
                let c := TileCtl.reset.ofImage l
                match y.readImage k a p.image.toNat with
                | (z, .wait w) => s.ctxWait q z w
                | (z, .fail) => s.ctxStatus q d z 3#64
                | (z, .bytes img bi) =>
                  match z.readHalf k a img c.ispA with
                  | (z1, .wait w) => s.ctxWait q z1 w
                  | (z1, .fail) => s.ctxStatus q d z1 3#64
                  | (z1, .bytes ha ba) =>
                    match z1.readHalf k a img c.ispB with
                    | (z2, .wait w) => s.ctxWait q z2 w
                    | (z2, .fail) => s.ctxStatus q d z2 3#64
                    | (z2, .bytes hb bb) =>
                      if bi || ba || bb then s.ctxStatus q d z2 1#64
                      else
                        let t : TileLoad := { image := l, halfA := ha, halfB := hb }
                        s.ctxStatus q d ((z2.keptCtx n p l).elim (z2.loadCtx n p img t) (z2.reloadCtx n p img t)) 0#64
  | _, _ => s.ctxLost d

end Sys2Proof.Machine
end

