-- ==== Sys2Proof/Machine/Translate.lean ====
section
/-! DEFINITION. How open faults close and what waits on them (R386, R387), invalidations (R391, R392), and the host's part of translation:
ATS completions, page requests and their responses, and ATS invalidations (R393–R396). -/

namespace Sys2Proof.Machine

/-- 100 ms in ns (R386, R395). -/
def faultLimit : Nat := 100000000

/-! What waits (R386, R387) -/

/-- A wait as it stands after `f`. -/
abbrev Rewait := Wait → Wait

/-- Ends the operations of a tile whose waits satisfy `hit`, as an unrecoverable fault does (R387). -/
def Dev.failOps (n : Fin 128) (hit : Wait → Bool) : Nat → Dev → Dev
  | 0, d => d
  | fuel + 1, d =>
    match (d.tiles[n]).ops.findIdx? fun o => hit o.wait with
    | none => d
    | some i =>
      match (d.tiles[n]).ops[i]? with
      | none => d
      | some o =>
        Dev.failOps n hit fuel (d.endFailed n i { o with wait := .no })

/-- Ends the transfers of a tile whose waits satisfy `hit`: FAILED with XLATE. -/
def Dev.failXfers (d : Dev) (n : Fin 128) (hit : Wait → Bool) : Dev :=
  (List.finRange 32).foldl (fun d k =>
    match (d.tiles[n].toks[k]).xfer with
    | some x => if hit x.wait then d.resolveXfer n k { x with wait := .no } .failed 6#8 else d
    | none => d) d

/-- Changes the waits of a tile's operations and transfers. -/
def Tile.rewait (t : Tile) (f : Rewait) : Tile :=
  let op := fun (o : MemOp) => { o with wait := f o.wait }
  let tok := fun (k : Token) => { k with xfer := k.xfer.map fun x => { x with wait := f x.wait } }
  { t with ops := t.ops.map op, toks := t.toks.map tok }

/-- Changes the waits of the placer's objects of a bolt, the submissions it has accepted and the windows that drain among them, of its service cores
and of the control path's command to it. -/
def Dev.rewaitPlacer (d : Dev) (b : Fin 32) (f : Rewait) : Dev :=
  let spool := fun (s : Spool) => { s with wait := f s.wait }
  let launch := fun (l : Launch) => { l with wait := f l.wait }
  let vdev := fun (v : Vdev) =>
    if v.bolt = b then
      { v with spools := v.spools.map spool, launches := v.launches.map launch, waitEq := f v.waitEq, waitCr := f v.waitCr }
    else v
  let panel := fun (p : Panel) => if p.bolt = b then { p with wait := f p.wait } else p
  let ctl := if fieldOf d.pf.cmdw 8 5 = b.val then f d.pf.cwait else d.pf.cwait
  let posted := fun (x : Posted) => if x.bolt = b then { x with op := { x.op with wait := f x.op.wait } } else x
  let d0 := (d.boltTiles b).foldl (fun d n => d.onTile n fun t => { t with drainWait := f t.drainWait }) d
  let d1 := { d0 with vdevs := d.vdevs.map vdev, panels := d.panels.map panel, posted := d.posted.map posted, pf := { d.pf with cwait := ctl } }
  (d.boltQuads b).foldl (fun d q => d.onSvc q fun c => { c with plcWait := f c.plcWait }) d1

/-- Changes every wait of a bolt. -/
def Dev.rewait (d : Dev) (b : Fin 32) (f : Rewait) : Dev :=
  ((d.boltTiles b).foldl (fun d n => d.onTile n fun t => t.rewait f) d).rewaitPlacer b f

/-- Writes the event records that were held. -/
def Dev.pumpBolt (d : Dev) (b : Fin 32) : Dev :=
  (d.vdevs.filter fun v => v.bolt == b && !v.events.isEmpty).foldl (fun d v => d.pumpEvents v.num) d

/-- The accesses of a bolt that wait so go on: they translate again. -/
def Dev.wakeWaits (d : Dev) (b : Fin 32) (hit : Wait → Bool) : Dev := (d.rewait b fun w => if hit w then .again else w).pumpBolt b

/-- The accesses of a bolt that wait so end as an unrecoverable fault ends them. -/
def Dev.failWaits (d : Dev) (b : Fin 32) (hit : Wait → Bool) : Dev :=
  let d1 := (d.boltTiles b).foldl (fun d n => (Dev.failOps n hit (d.tiles[n]).ops.length d).failXfers n hit) d
  (d1.rewaitPlacer b fun w => if hit w then .failed else w).pumpBolt b

/-- Whether a wait is on an open fault of a list. -/
def Wait.onFault (l : List OpenFault) (w : Wait) : Bool :=
  match w with
  | .fault id => l.any fun f => f.id == id
  | _ => false

/-- Closes the open faults of a bolt that `hit` names (R386), with success or failure. -/
def Dev.closeFaults (d : Dev) (b : Fin 32) (hit : OpenFault → Bool) (ok : Bool) : Dev :=
  let l := (d.bolts[b]).faults.filter hit
  let d1 := d.onBolt b fun x => { x with faults := x.faults.filter fun f => !hit f }
  if l.isEmpty then d else if ok then d1.wakeWaits b (Wait.onFault l) else d1.failWaits b (Wait.onFault l)

/-- A change of a space's generation closes the open faults of the old one with failure (R396). -/
def Dev.closeStale (d : Dev) (space : Nat) : Dev :=
  (List.finRange 32).foldl (fun d b => d.closeFaults b (fun f => f.space == space && f.gen != d.genOf space) false) d

/-! Time (R386) -/

/-- FAULT_RETRY (R386, R405): on a tick, accesses that wait for a fault place translate again, or end after 100 ms; the completion rings
that were full are read again, and what is due to shadows is written. -/
def execFaultRetry (b : Fin 32) (s : State) : Result :=
  .next (s.onDev fun d =>
    let old := fun (w : Wait) => w.since.any fun t => decide (t + faultLimit ≤ d.dcc)
    let again := fun (w : Wait) => match w with
      | .place since => .retry since
      | .tick => .no
      | w => w
    let d1 := ((d.failWaits b old).rewait b again).pumpBolt b
    (d1.panels.filter fun p => p.bolt == b).foldl Dev.pumpShadows d1)

/-- Whether a page-request entry of a fault has stood for 100 ms (R395); one of an old generation stays until its response (R396). -/
def Dev.prgOver (d : Dev) (e : PrgEnt) : Bool := decide (e.opened + faultLimit ≤ d.dcc) && e.gen == d.genOf e.space

/-- FAULT_TIMEOUT (R386, R395): a fault open for 100 ms closes with failure; its page-request entry is freed, also where the fault has closed
before. -/
def execFaultTimeout (b : Fin 32) (id : Nat) (s : State) : Result :=
  .next (s.onDev fun d =>
    let free := fun (p : HostPort) => { p with prg := p.prg.filter fun e => !(e.bolt == b && e.fault == id && d.prgOver e) }
    let d1 := { d with ports := d.ports.map free }
    match (d.bolts[b]).faults.find? fun f => f.id == id with
    | none => d1
    | some f => if d.dcc < f.opened + faultLimit then d else d1.closeFaults b (fun f => f.id == id) false)

/-! Invalidation (R391, R392) -/

/-- Bytes and fields of a `tlbi` descriptor. -/
def Dev.invalAt (d : Dev) (q : Fin 32) (a : Nat) (sub : Fin 3) : Inval :=
  let l := d.bytes (svcKey q a) 32
  { sub := sub, space := bytesField l 0 2, log2n := bytesField l 2 1, close := bit (bytesField l 3 1) 0, fail := bit (bytesField l 3 1) 1,
    gen := BitVec.ofNat 32 (bytesField l 4 4), dva := BitVec.ofNat 64 (bytesField l 8 8) }

/-- Whether a descriptor breaks R391. -/
def Dev.badInval (d : Dev) (q b : Fin 32) (a : Nat) (x : Inval) : Bool :=
  let l := d.bytes (svcKey q a) 32
  let page := x.sub.val == 0
  bytesField l 3 1 / 4 != 0 || bytesField l 16 16 != 0
    || (x.sub.val != 2 && (decide (1024 < x.space) || (d.vdev x.space).any fun v => v.bolt != b))
    || (if page then decide (18 < x.log2n) || x.dva.toNat % (4096 * 2 ^ x.log2n) != 0 else x.log2n != 0 || x.dva != 0#64)
    || (x.fail && !x.close) || (x.close && x.sub.val == 2)

/-- A `tlbi` of a SUB (R391): it reads its descriptor and starts the invalidation, or traps, or waits for one of 16 places. -/
def State.tlbi (s : State) (a : Fin 32) (sub : Fin 3) : Result :=
  match s.svcBolt with
  | none => s.svcIllop
  | some (q, b) =>
    let addr := (s.readS a).toNat
    if addr % 32 != 0 then s.svcIllop
    else if 2 ^ 18 ≤ addr then .next (s.bounds (s.readS a))
    else
      let x := s.dev.invalAt q addr sub
      if s.dev.badInval q b addr x then s.svcIllop
      else if 16 ≤ (s.dev.svcs[q]).invals.length then .next s.svcRetry
      else .next (s.onDev fun d => d.onSvc q fun c => { c with invals := c.invals ++ [x] })

/-- `tlbi.page`. -/
def execTlbiPage (a : Fin 32) (s : State) : Result := s.tlbi a 0
/-- `tlbi.pasid`. -/
def execTlbiPasid (a : Fin 32) (s : State) : Result := s.tlbi a 1
/-- `tlbi.bolt`. -/
def execTlbiBolt (a : Fin 32) (s : State) : Result := s.tlbi a 2

/-- `tlbs` (R392): waits until the core's invalidations have completed and returns how many have since its last `tlbs`. -/
def execTlbs (d : Fin 32) (s : State) : Result :=
  match s.svcBolt with
  | none => s.svcIllop
  | some (q, _) =>
    let c := s.dev.svcs[q]
    if c.invals.isEmpty then
      .next ((s.putS 1 d (BitVec.ofNat 64 c.invDone) false).onDev fun x => x.onSvc q fun c => { c with invDone := 0 })
    else .next s.svcRetry

/-- Whether an invalidation covers `n` bytes from `lo` of a space. -/
def Inval.covers (x : Inval) (space lo n : Nat) : Bool :=
  match x.sub with
  | 0 => x.space == space && decide (lo < x.dva.toNat + 4096 * 2 ^ x.log2n) && decide (x.dva.toNat < lo + n)
  | 1 => x.space == space
  | 2 => true

/-- Whether it covers a cached leaf. -/
def Inval.hitsTlb (x : Inval) (e : TlbEnt) : Bool := x.covers e.space (e.page * 2 ^ levelShift e.level) (2 ^ levelShift e.level)

/-- Whether it covers a cached entry of a walk. -/
def Inval.hitsWalk (x : Inval) (e : WalkEnt) : Bool := x.covers e.space (e.tag * 2 ^ levelShift e.level) (2 ^ levelShift e.level)

/-- Removes what an invalidation covers from the caches of a bolt. -/
def Dev.dropCached (d : Dev) (b : Fin 32) (x : Inval) : Dev :=
  let tile := fun (t : Tile) => { t with tlb := t.tlb.filter fun e => !x.hitsTlb e }
  let quad := fun (q : Quad) => { q with tlb := q.tlb.filter fun e => !x.hitsTlb e, walk := q.walk.filter fun e => !x.hitsWalk e }
  let d1 := (d.boltTiles b).foldl (fun d n => d.onTile n tile) d
  (d.boltQuads b).foldl (fun d q => d.onQuad q quad) d1

/-- INVALIDATION_COMPLETE (R392): the caches hold nothing of the range any more; CLOSE closes the device faults of its generation, and the
MIGRATE faults of the range close with success. -/
def execInvalidationComplete (q : Fin 32) (i : Nat) (s : State) : Result :=
  .next (s.onDev fun d =>
    match (d.svcs[q]).invals[i]?, d.boltOfQuad q with
    | some x, some b =>
      let d1 := (d.dropCached b x).onSvc q fun c => { c with invals := dropAt c.invals i, invDone := c.invDone + 1 }
      let within := fun (f : OpenFault) => x.covers f.space (4096 * f.page) 4096
      let device := fun (f : OpenFault) => x.close && within f && (f.kind == .notPresent || f.kind == .perm) && f.gen == x.gen
      (d1.closeFaults b device (!x.fail)).closeFaults b (fun f => within f && f.kind == .migrate) true
    | _, _ => d)

/-! The host's answers (R393–R396) -/

/-- A wait for a Translation Completion of a page of a space, once it has come: `granted` is what it grants, with whether it was refused, none that it
was discarded. An access that it grants translates again; any other meets the fault of R393. -/
def Wait.answered (port : Fin 2) (u space : Nat) (granted : Option (BitVec 2 × Bool)) (w : Wait) : Wait :=
  match w with
  | .ats p x y need since =>
    if p = port ∧ x = u ∧ y = space then
      match granted with
      | some (perm, refused) => if (perm &&& need) == need then since.elim .again .retry else .denied port u refused since
      | none => since.elim .again .retry
    else w
  | _ => w

/-- Counts a response of an old generation in the bolt of a space; one that names no bolt counts in bolt 0 (log entry 28). -/
def Dev.countStale (d : Dev) (space : Option Nat) : Dev :=
  d.count ((space.bind d.vdev).elim 0 Vdev.bolt) 5 1

/-- Every access that waits for a request's completion learns its answer. -/
def Dev.answerAts (d : Dev) (port : Fin 2) (r : AtsReq) (granted : Option (BitVec 2 × Bool)) : Dev :=
  (List.finRange 32).foldl (fun d b => (d.rewait b (Wait.answered port r.upage r.space granted)).pumpBolt b) d

/-- The ATC entries of a function and PASID that overlap a run of pages. -/
def AtcEnt.meets (e : AtcEnt) (pasid upage n : Nat) : Bool := e.pasid == pasid && decide (e.upage < upage + n) && decide (upage < e.upage + 2 ^ e.log2)

/-- ATS_TRANSLATION_COMPLETION (R393, R396): a completion of the current generation replaces the entries of its pages by its own, or, where it
grants nothing, by none, and the accesses that wait on it go
on, or meet HOSTPRQ or HOSTFAIL; one of an old generation is discarded and counted. -/
def execAtsTranslationCompletion (port : Fin 2) (i : Nat) (ans : AtsAnswer) (s : State) : Result :=
  .next (s.onDev fun d =>
    match (d.ports[port]).ats[i]? with
    | none => d
    | some r =>
      let d1 := d.onPort port fun p => { p with ats := dropAt p.ats i }
      if r.gen != d.genOf r.space then (d1.countStale (some r.space)).answerAts port r none
      else match ans with
        | .refuse => d1.answerAts port r (some (0#2, true))
        | .grant host log2 rd wr =>
          let base := r.upage / 2 ^ log2 * 2 ^ log2
          let perm : BitVec 2 := setBit (setBit 0#2 0 rd) 1 wr
          let fn := d.functionOf r.space
          let e : AtcEnt := { fn := fn, pasid := d.pasidOf r.space, gen := r.gen, space := r.space, upage := base, log2 := log2,
                              host := host / 2 ^ log2 * 2 ^ log2, perm := perm }
          let replace := fun (p : HostPort) =>
            let rest := p.atc.filter fun x => !(x.fn == fn && x.meets e.pasid base (2 ^ log2))
            { p with atc := if rd || wr then cacheAdd 8192 rest e else rest }
          (d1.onPort port replace).answerAts port r (some (perm, false)))

/-- PAGE_REQUEST_SEND (R395): a page request goes out while the host's allocation for the function allows it and its page requests have not
been stopped. -/
def execPageRequestSend (port : Fin 2) (prgi : Nat) (s : State) : Result :=
  .next (s.onDev fun d =>
    let p := d.ports[port]
    match p.prg.find? fun e => e.prgi == prgi && !e.sent with
    | none => d
    | some e =>
      let out := (p.prg.filter fun x => x.fn == e.fn && x.sent).length
      if p.prAlloc[idx 249 e.fn] ≤ out || p.priOff.contains e.fn then d
      else
        let mark := fun (x : PrgEnt) => if x.prgi == prgi then { x with sent := true } else x
        { d.onPort port fun p => { p with prg := p.prg.map mark } with outs := .pageReq port e.fn prgi e.upage (d.pasidOf e.space) e.need :: d.outs })

/-- PRG_RESPONSE (R395): the fault of the entry closes, or a response of an old generation or of no entry is dropped and counted. A response
to an entry whose fault has closed already only frees it (R414). -/
def execPrgResponse (port : Fin 2) (prgi : Nat) (code : PrgCode) (s : State) : Result :=
  .next (s.onDev fun d =>
    match (d.ports[port]).prg.find? fun e => e.prgi == prgi with
    | none => d.countStale none
    | some e =>
      let d1 := d.onPort port fun p => { p with prg := p.prg.filter fun x => x.prgi != prgi }
      if e.gen != d.genOf e.space then d1.count e.bolt 5 1
      else if !(d.bolts[e.bolt]).faults.any (fun f => f.id == e.fault) then d1
      else
        let id := fun (f : OpenFault) => f.id == e.fault
        match code with
        | .success =>
          let pasid := d.pasidOf e.space
          (d1.onPort port fun p => { p with atc := p.atc.filter fun x => !(x.fn == e.fn && x.meets pasid e.upage 1) }).closeFaults e.bolt id true
        | .invalidRequest => d1.closeFaults e.bolt id false
        | .responseFailure =>
          (d1.onPort port fun p => { p with priOff := if p.priOff.contains e.fn then p.priOff else e.fn :: p.priOff }).closeFaults e.bolt id false)

/-- PRI_ENABLE (R395): the host enables PRI for a function again. -/
def execPriEnable (port : Fin 2) (f : Fin 249) (s : State) : Result :=
  .next (s.onDev fun d => d.onPort port fun p => { p with priOff := p.priOff.filter fun x => x != f.val })

/-- Removes the ATC entries that a host invalidation names. -/
def HostPort.dropAtc (p : HostPort) (x : Nat × Nat × Nat) : HostPort := { p with atc := p.atc.filter fun e => !e.meets x.1 x.2.1 x.2.2 }

/-- ATS_INVALIDATION_REQUEST (R394): the matching entries are removed; of more than 32 requests the later ones wait their turn. -/
def execAtsInvalidationRequest (port : Fin 2) (pasid upage n : Nat) (s : State) : Result :=
  .next (s.onDev fun d => d.onPort port fun p =>
    let q := { p with hinv := p.hinv ++ [(pasid, upage, n)] }
    if p.hinv.length < 32 then q.dropAtc (pasid, upage, n) else q)

/-- ATS_INVALIDATION_COMPLETE (R394): every access through the removed entries has been performed, since translating and performing an
access are one step here; the completion is sent, and a request that waited takes the place. -/
def execAtsInvalidationComplete (port : Fin 2) (i : Nat) (s : State) : Result :=
  .next (s.onDev fun d =>
    let p := d.ports[port]
    if i < 32 && i < p.hinv.length then
      let q := { p with hinv := dropAt p.hinv i }
      let q1 := match q.hinv[31]? with
        | some x => q.dropAtc x
        | none => q
      { d.onPort port fun _ => q1 with outs := .invDone port :: d.outs }
    else d)

end Sys2Proof.Machine
end

