-- ==== Sys2Proof/Machine/PlacerCmd.lean ====
section
/-! DEFINITION. The placer's commands (R353, R356, R365, R366), given by a service core (`plc`) or by the host driver through the control
path (R403). -/

namespace Sys2Proof.Machine

/-! Who asks -/

/-- The bolt of whose placer a command asks: that of the core, or the one that CMDW names. -/
def Dev.callerBolt (d : Dev) (c : Caller) : Option (Fin 32) :=
  match c with
  | .svc q _ => d.boltOfQuad q
  | .host _ => let b := idx 32 (fieldOf d.pf.cmdw 8 5); if d.boltValid b then some b else none

/-- A command ends with STATUS and a result: in s[d] of the core, or in STAT of the control path. -/
def State.plcDone (s : State) (c : Caller) (status : Nat) (result : Nat := 0) : Result :=
  let v := status + 256 * result
  .next (s.onDev fun x => match c with
    | .svc q d => (x.setSvcWait q .no).onSvc q fun y => y.writeDest (.s d) (BitVec.ofNat 1024 v) false
    | .host _ => { x with pf := { x.pf with cstat := BitVec.ofNat 32 v, cwait := .no } })

/-- A command names an object of another bolt (R318, R365): the illegal-operand trap of the core; the control path has no trap and
answers status 2. DESIGN CHOICE: log entry 29. -/
def State.plcForeign (s : State) (c : Caller) : Result :=
  match c with
  | .svc q _ => .next (s.svcTrap q 2 0 s.iss.addr)
  | .host _ => s.plcDone c 2

/-- What a command has waited on. -/
def Dev.plcHeld (d : Dev) (c : Caller) : Wait :=
  match c with
  | .svc q _ => (d.svcs[q]).plcWait
  | .host _ => d.pf.cwait

/-- A command waits: the core holds its bundle, the control path stays BUSY (R447). -/
def State.plcWaits (s : State) (c : Caller) (d : Dev) (w : Wait) : Result :=
  match c with
  | .svc q _ => .next ({ s with dev := d.setSvcWait q w } : State).svcRetry
  | .host _ => .next { s with dev := { d with pf := { d.pf with cwait := w } } }

/-- Runs a command for its bolt; one that still waits goes on waiting. -/
def State.plcRun (s : State) (c : Caller) (f : Fin 32 → Result) : Result :=
  match s.dev.callerBolt c with
  | none => s.plcForeign c
  | some b =>
    if (s.dev.plcHeld c).free then f b
    else match c with
      | .svc _ _ => .next s.svcRetry
      | .host _ => .next s

/-- Reads the descriptor of `n` bytes of a command: at a DVA of the bolt supervisor's space (R377), or in the control path's buffer. A fault
at the DVA is the core's bounds trap (R387). -/
def State.plcDesc (s : State) (c : Caller) (b : Fin 32) (arg : W64) (n : Nat) (f : Dev → List Byte → Result) : Result :=
  match c with
  | .host _ => f s.dev ((leBytes 64 s.dev.pf.cbuf.toNat).take n)
  | .svc q _ =>
    match s.dev.vRead b { svcAsker q with held := s.dev.plcHeld c } arg.toNat n false with
    | (d, .bytes l bad) => if bad then s.plcDone c 2 else f d l
    | (d, .wait w) => s.plcWaits c d w
    | (d, .fail) => .next (({ s with dev := d } : State).svcTrap q 3 0 s.iss.addr)

/-! Vdevs (R353) -/

/-- A vdev as VCREATE makes it. -/
def Vdev.create (num : Nat) (desc : BitVec 512) (bolt : Fin 32) (dcc : Nat) : Vdev where
  num := num
  desc := desc
  bolt := bolt
  spools := Vector.replicate 16 Spool.reset
  ltoks := Vector.replicate 256 LTok.reset
  launches := []
  slots := []
  state := .active
  vstat := 0#4
  demcnt := 0
  misscnt := 0
  ovrcnt := 0
  tailcnt := 0
  eqhead := 0#32
  eqtail := 0#32
  eqctl := 0#32
  eqdrop := 0
  events := []
  cridx := 0#32
  crseq := 0#32
  idleSince := dcc
  wakeAt := none
  wakeCounted := 0
  noRoom := false
  stopped := false
  secured := []
  securedAt := 0
  waitEq := .no
  waitCr := .no
  parked := false

/-- A DVA field of a descriptor that is no multiple of its alignment, or leaves the 56 bits of a DVA. -/
def badDva (a align : Nat) : Bool := a % align != 0 || decide (2 ^ 56 ≤ a)

/-- Whether a vdev descriptor breaks R353 for a caller of bolt `b`. -/
def badVdevDesc (l : List Byte) (b : Fin 32) : Bool :=
  let f := bytesField l
  decide (1023 < f 0 2) || f 2 1 != b.val || decide (3 < f 3 1) || decide (2 < f 4 1) || decide (f 5 1 < 1) || decide (16 < f 5 1)
    || f 6 2 != 0 || decide (2 ^ 20 ≤ f 8 4) || badDva (f 0x10 8) (2 ^ 21) || f 0x18 4 == 0 || f 0x1c 4 != 0 || badDva (f 0x20 8) 4096
    || decide (f 0x28 1 < 4) || decide (16 < f 0x28 1) || f 0x29 7 != 0 || badDva (f 0x30 8) 1 || decide (f 0x38 1 < 4)
    || decide (16 < f 0x38 1) || f 0x39 7 != 0

/-- The generation of a space advances (R353, R396): GEN of its entry is written, and the open faults of the old generation close. -/
def Dev.nextGen (d : Dev) (b : Fin 32) (v : Nat) : Dev :=
  let d1 := if h : v < 1024 then { d with gens := d.gens.set v (d.gens[v] + 1#32) } else d
  (d1.writeGen b v).closeStale v

/-- PLC_VCREATE (R353, R365). -/
def execPlcVcreate (c : Caller) (arg : BitVec 64) (s : State) : Result :=
  s.plcRun c fun b => s.plcDesc c b arg 64 fun d l =>
    let s1 : State := { s with dev := d }
    let num := bytesField l 0 2
    if badVdevDesc l b then s1.plcDone c 2
    else if (d.vdev num).isSome || decide (32 ≤ (d.vdevs.filter fun v => v.bolt == b).length) then s1.plcDone c 3
    else
      let v := Vdev.create num (BitVec.ofNat 512 (leNat l)) b d.dcc
      ({ s1 with dev := ({ d with vdevs := insertBy Vdev.num v d.vdevs } : Dev).nextGen b num } : State).plcDone c 0

/-- Reports the completed launches of a vdev until one has to wait. -/
def Dev.reportAll (n : Nat) : Nat → Dev → Dev
  | 0, d => d
  | k + 1, d =>
    match d.vdev n with
    | none => d
    | some v =>
      match v.unreported with
      | some l => if v.waitCr.free then Dev.reportAll n k (d.ringStep v l) else d
      | none => d

/-- Completes every launch of a vdev that has not completed with a code. -/
def Dev.failAll (d : Dev) (n code : Nat) : Dev :=
  match d.vdev n with
  | none => d
  | some v => (v.launches.filter fun l => !l.done).foldl (fun d l => d.failLaunch n l.num code 0) d

/-- Whether a vdev has a placed or an evicted cut. -/
def Vdev.holdsCut (v : Vdev) : Bool :=
  v.launches.any fun l => l.gangs.any fun g => g.cuts.any fun c => match c.st with
    | .placed _ => true
    | .evicted => true
    | _ => false

/-! Spools (R356) -/

/-- The pointer of a bolt's ring stands at a spool whose configuration is new: the credit is its WEIGHT (R371). -/
def Dev.recredit (d : Dev) (b : Fin 32) (v : Nat) (sp : Fin 16) (weight : Nat) : Dev :=
  d.onBolt b fun x => if x.ptr = 16 * v + sp.val then { x with credit := weight } else x

/-- Whether a spool descriptor breaks R356; only RADMIT makes a spool reserved. -/
def badSpoolDesc (l : List Byte) (v : Vdev) : Bool :=
  let f := bytesField l
  decide (v.fld 5 1 ≤ f 2 1) || decide (1 < f 3 1) || (f 3 1 == 1 && f 4 1 == 0) || decide (1 < f 5 1) || f 6 2 != 0 || badDva (f 8 8) 4096
    || decide (f 0x10 1 < 4) || decide (16 < f 0x10 1) || f 0x11 15 != 0

/-- How many spools of the device are configured. -/
def Dev.spoolCount (d : Dev) : Nat := sumList (d.vdevs.map fun v => (v.spools.toList.filter fun x => x.kind != .off).length)

/-- Whether a spool has launches that have been accepted and have not completed. -/
def Vdev.spoolBusy (v : Vdev) (sp : Fin 16) : Bool := v.launches.any fun l => l.spool == sp && !l.done

/-- PLC_SPOOLSET (R356). A reservation of the spool ends with its old configuration (log entry 29). -/
def execPlcSpoolset (c : Caller) (arg : BitVec 64) (s : State) : Result :=
  s.plcRun c fun b => s.plcDesc c b arg 32 fun d l =>
    let s1 : State := { s with dev := d }
    let n := bytesField l 0 2
    match d.vdev n with
    | none => s1.plcDone c 2
    | some v =>
      let sp := idx 16 (bytesField l 2 1)
      let kind : SpKind := if bytesField l 3 1 = 1 then .best else .off
      if v.bolt != b then s1.plcForeign c
      else if badSpoolDesc l v then s1.plcDone c 2
      else if v.spoolBusy sp then s1.plcDone c 5
      else if kind != .off && (v.spools[sp]).kind == .off && decide (1024 ≤ d.spoolCount) then s1.plcDone c 3
      else
        let x : Spool := { kind := kind, weight := bytesField l 4 1, feed := bit (bytesField l 5 1) 0, base := BitVec.ofNat 64 (bytesField l 8 8),
                           log2 := bytesField l 0x10 1, head := 0#32, tail := 0#32, resv := none, wait := .no }
        let d1 := { d with resvs := d.resvs.filter fun r => !(r.vdev == n && r.spool == sp) }
        ({ s1 with dev := (d1.onVdev n fun v => v.onSpool sp fun _ => x).recredit b n sp x.weight } : State).plcDone c 0

/-! Reservations (R366) -/

/-- The clock of a bolt in MHz, by BDESC.CLK. -/
def clockMhz (step : Nat) : Nat := 800 + 200 * step

/-- CLK of a bolt's descriptor (R348). -/
def Dev.boltClk (d : Dev) (b : Fin 32) : Nat := fieldOf d.mc.bdesc[b] 28 3

/-- ε in ns of an image with EPS cycles at a clock of f MHz (R366). -/
def epsNs (eps f : Nat) : Nat := ((eps + 244) * 1000 + f - 1) / f

/-- A reservation's demand C + 2ε at a clock. -/
def Resv.demand (r : Resv) (f : Nat) : Nat := r.budget + 2 * epsNs r.eps f

/-- Σ aᵢ(Cᵢ + 2εᵢ)/Tᵢ as an exact fraction. -/
def demandSum (f : Nat) (l : List Resv) : Nat × Nat :=
  l.foldl (fun x r => (x.1 * r.period + r.area * r.demand f * x.2, x.2 * r.period)) (0, 1)

/-- The admission test of R366 for the reservations of a bolt of `tiles` tiles at a clock. -/
def admissible (tiles f : Nat) (l : List Resv) : Bool :=
  let x := demandSum f l
  l.all (fun r => decide (r.demand f ≤ r.period)) && decide (2 * x.1 ≤ tiles * x.2)

/-- The first period start at or after `now`. -/
def Resv.firstStart (anchor period now : Nat) : Nat :=
  if now ≤ anchor then anchor else anchor + (now - anchor + period - 1) / period * period

/-- Whether a reservation descriptor breaks R366, but for the objects that it names. -/
def badResvDesc (l : List Byte) (tiles : Nat) : Bool :=
  let f := bytesField l
  f 3 1 != 0 || decide (f 4 2 < 1) || decide (tiles < f 4 2) || f 6 2 != 0 || decide (f 0xc 4 < 1) || badDva (f 0x18 8) 256

/-- PLC_RADMIT (R366). A spool that still holds work is busy; a period that has begun is not taken (log entry 29). -/
def execPlcRadmit (c : Caller) (arg : BitVec 64) (s : State) : Result :=
  s.plcRun c fun b => s.plcDesc c b arg 32 fun d l =>
    let s1 : State := { s with dev := d }
    let f := bytesField l
    let tiles := (d.boltTiles b).length
    match d.vdev (f 0 2) with
    | none => s1.plcDone c 2
    | some v =>
      let sp := idx 16 (f 2 1)
      if v.bolt != b then s1.plcForeign c
      else if badResvDesc l tiles || decide (v.fld 5 1 ≤ f 2 1) || (v.spools[sp]).kind == .off then s1.plcDone c 2
      else if (v.spools[sp]).resv.isSome || v.spoolBusy sp then s1.plcDone c 5
      else
        match (List.range 64).find? fun n => (d.resv n).isNone with
        | none => s1.plcDone c 3
        | some num =>
          let held := s.dev.plcHeld c
          if held == .failed then s1.plcDone c 2
          else match d.vRead b (d.placerAsker b v.num 0#64 held) (f 0x18 8) imgHeader with
            | (d1, .wait w) => s1.plcWaits c d1 w
            | (d1, .fail) => ({ s1 with dev := d1 } : State).plcDone c 2
            | (d1, .bytes h bad) =>
              let s2 : State := { s1 with dev := d1 }
              let eps := bytesField h 0x1c 4
              let r : Resv :=
                { num := num, bolt := b, vdev := v.num, spool := sp, area := f 4 2, period := f 8 4, budget := f 0xc 4, anchor := f 0x10 8,
                  image := BitVec.ofNat 64 (f 0x18 8), eps := eps, job := none, deadline := 0, used := 0,
                  next := Resv.firstStart (f 0x10 8) (f 8 4) d1.dcc, overrun := false, missed := false, claim := [] }
              if bad || bytesField h 0 4 != imgMagic || bytesField h 4 2 != 1 || bytesField h 0x24 4 != 0 then s2.plcDone c 2
              else if bytesField h 0x14 2 + bytesField h 0x12 2 + 2 * 902 < eps then s2.plcDone c 6
              else if admissible tiles (clockMhz (d1.boltClk b)) (r :: d1.resvs.filter fun x => x.bolt == b) then
                let d2 : Dev := { d1 with resvs := insertBy Resv.num r d1.resvs }
                let set := fun (x : Spool) => { x with kind := .reserved, resv := some num }
                ({ s2 with dev := d2.onVdev v.num fun v => v.onSpool sp set } : State).plcDone c 0 num
              else s2.plcDone c 4

/-- PLC_RREMOVE (R365). -/
def execPlcRremove (c : Caller) (arg : BitVec 64) (s : State) : Result :=
  s.plcRun c fun b =>
    match s.dev.resv arg.toNat with
    | none => s.plcDone c 2
    | some r =>
      if r.bolt != b then s.plcForeign c
      else
        let set := fun (x : Spool) => { x with kind := .best, weight := 1, resv := none }
        let d : Dev := { s.dev with resvs := s.dev.resvs.filter fun x => x.num != r.num }
        ({ s with dev := (d.onVdev r.vdev fun v => v.onSpool r.spool set).recredit b r.vdev r.spool 1 } : State).plcDone c 0

/-- PLC_EVICT (R365, R338): a handle that no placed panel of the bolt has is out of range (log entry 29). -/
def execPlcEvict (c : Caller) (arg : BitVec 64) (s : State) : Result :=
  s.plcRun c fun b =>
    match s.dev.panels.find? fun p => p.bolt == b && p.handle % 65536 == arg.toNat && p.phase != .over with
    | none => s.plcDone c 2
    | some p => ({ s with dev := s.dev.orderEvict p .order } : State).plcDone c 0

/-- PLC_AGE (R365). -/
def execPlcAge (c : Caller) (arg : BitVec 64) (s : State) : Result :=
  s.plcRun c fun b =>
    if arg.toNat < 1 || 255 < arg.toNat then s.plcDone c 2
    else ({ s with dev := s.dev.onBolt b fun x => { x with agemax := arg.toNat } } : State).plcDone c 0

end Sys2Proof.Machine
end

