-- ==== Sys2Proof/Machine/Placer.lean ====
section
/-! DEFINITION. The placer (R362, R363, R367–R376): release of launches, first fit, reserved jobs, weighted round robin, backfill and
clearance, budgets and deadlines, and preloaded gangs. -/

namespace Sys2Proof.Machine

/-- A vdev whose launches are released and placed: active, or waking. -/
def Vdev.awake (v : Vdev) : Bool := v.state == .active || v.state == .waking

/-- Whether the placers accept and release (R436, R446). -/
def Dev.placing (d : Dev) : Bool := d.mc.st == .running && !d.mc.pfail

/-! Release (R28, R145, R359, R362, R367) -/

/-- Details 1 to 4 of R360. -/
def Launch.shapeDetail (l : Launch) (bw bh : Nat) : Option Nat :=
  let w := fun i => l.fld (0x12 + i) 1
  let sum := sumList ((List.range 6).map w)
  if (List.range 6).any (fun i => decide (32 < w i)) || decide (64 < sum) || decide (w 0 < clog2 l.pw) || decide (w 1 < clog2 l.ph) then some 1
  else if l.ncut = 0 || decide (2 ^ (w 2 + w 3 + w 4 + w 5) < l.ncut) then some 2
  else if bw < l.pw || bh < l.ph then some 3
  else if bw * bh < l.largest then some 4
  else none

/-- Detail 9: the job of a reservation must run its image as one gang of its area (R367). -/
def Resv.mismatch (r : Resv) (l : Launch) : Bool := r.image.toNat != l.image || decide (1 < l.gangCount) || l.largest != r.area

/-- What the release checks come to. -/
inductive Checked where
  | ok
  | refuse (detail : Nat)
  | wait (w : Wait)
  deriving DecidableEq, Repr

/-- The checks at release, lowest detail first. -/
def Dev.checkLaunch (d : Dev) (b : Fin 32) (v : Vdev) (l : Launch) : Dev × Checked :=
  match l.shapeDetail (2 * d.boltW b) (2 * d.boltH b) with
  | some k => (d, .refuse k)
  | none =>
    if l.wait == .failed then (d, .refuse 5)
    else match d.readImage b (d.placerAsker b v.num l.tag l.wait) l.image with
      | (d1, .wait w) => (d1, .wait w)
      | (d1, .fail) => (d1, .refuse 5)
      | (d1, .bytes img bad) =>
        if bad then (d1, .refuse 5)
        else match imgDetail img l.pw l.ph with
          | some k => (d1, .refuse k)
          | none =>
            let r := (v.spools[l.spool]).resv.bind d1.resv
            if v.fld 0x18 4 < l.largest then (d1, .refuse 8)
            else if r.elim false fun r => r.mismatch l then (d1, .refuse 9)
            else (d1, .ok)

/-- The oldest accepted launch of a spool that has not been released. -/
def Vdev.oldest (v : Vdev) (sp : Fin 16) : Option Launch := v.launches.find? fun l => l.spool == sp && !l.released && !l.done

/-- Releases launches of a spool in record order, at most `fuel`; `start` is the period start of the job for a reserved spool, which releases one. A launch
that is refused or ends with DEPFAIL does not use the period up: the spool's next launch is released as its job. DEDUCED: log entry 55. -/
def Dev.releaseFrom (b : Fin 32) (n : Nat) (sp : Fin 16) (start : Option (Nat × Nat)) : Nat → Dev → Dev
  | 0, d => d
  | fuel + 1, d =>
    match d.vdev n with
    | none => d
    | some v =>
      match v.oldest sp with
      | none => d
      | some l =>
        if l.depFail then Dev.releaseFrom b n sp start fuel ((d.dropPreloads n l.num).failLaunch n l.num 5 0)
        else if !l.waits.isEmpty || (l.nbt != 0 && decide (d.dcc + l.prelead < l.nbt)) || !l.wait.free then d
        else match d.checkLaunch b v l with
          | (d1, .wait w) => d1.onLaunch n l.num fun x => { x with wait := w }
          | (d1, .refuse k) => Dev.releaseFrom b n sp start fuel ((d1.dropPreloads n l.num).failLaunch n l.num 1 k)
          | (d1, .ok) =>
            let d2 := d1.onLaunch n l.num fun x => { x with released := true, wait := .no }
            match start with
            | none => Dev.releaseFrom b n sp start fuel d2
            | some (r, d0) => d2.onResv r fun r =>
                { r with job := some l.num, deadline := d0 + r.period, used := 0, overrun := false, missed := false, claim := [] }

/-- Whether a launch of a spool waits for the reading of its image. -/
def Vdev.imageWait (v : Vdev) (sp : Fin 16) : Bool := (v.oldest sp).elim false fun l => l.wait != .no

/-- Releases what a spool may release on this tick (R362). A reserved spool releases its job at the first tick of a period; a period in
which it cannot is passed (R367). -/
def Dev.releaseSpool (d : Dev) (n : Nat) (sp : Fin 16) : Dev :=
  match d.vdev n with
  | none => d
  | some v =>
    if !v.awake || !d.placing then d
    else match (v.spools[sp]).kind with
      | .off => d
      | .best => Dev.releaseFrom v.bolt n sp none v.launches.length d
      | .reserved =>
        match (v.spools[sp]).resv.bind d.resv with
        | none => d
        | some r =>
          if r.period = 0 || d.dcc < r.anchor then d
          else
            let cur := r.anchor + (d.dcc - r.anchor) / r.period * r.period
            if cur < r.next then d
            else
              let d1 := if r.job.isSome then d else Dev.releaseFrom v.bolt n sp (some (r.num, cur)) v.launches.length d
              if (d1.vdev n).elim false fun v => v.imageWait sp then d1 else d1.onResv r.num fun r => { r with next := cur + r.period }

/-- LAUNCH_RELEASE (R362). -/
def execLaunchRelease (v : Nat) (sp : Fin 16) (s : State) : Result := .next (s.onDev fun d => d.releaseSpool v sp)

/-! Gang queues (R362) -/

/-- A gang that has not been offered before. -/
def Launch.newGang (l : Launch) (g : Nat) : Gang where
  idx := g
  cuts := (l.cutsOf g).map fun c => { cut := c, st := .fresh, saved := none, psave := none, replays := 0, slots := [] }
  placedAt := none
  backfill := false
  age := 0
  clearing := false

/-- The gangs of a launch that wait for panels, the first not yet offered among them. -/
def Launch.unplacedGangs (l : Launch) : List Gang :=
  (sortBy Gang.idx l.gangs).filter (fun g => !g.placed) ++ (if l.nextGang < l.gangCount then [l.newGang l.nextGang] else [])

/-- The head gang of a spool, with its launch (R362). -/
def Vdev.headGang (v : Vdev) (sp : Fin 16) : Option (Launch × Gang) :=
  if !v.awake then none
  else v.launches.findSome? fun l =>
    if l.spool == sp && l.released && !l.done then l.unplacedGangs.head?.map fun g => (l, g) else none

/-- Records a gang among those offered. -/
def Launch.offer (l : Launch) (g : Gang) : Launch :=
  if l.gangs.any fun x => x.idx == g.idx then { l with gangs := l.gangs.map fun x => if x.idx = g.idx then g else x }
  else { l with gangs := l.gangs ++ [g], nextGang := Nat.max l.nextGang (g.idx + 1) }

/-- The cuts of a gang that have not finished, in ascending index. -/
def Gang.unfinished (g : Gang) : List CutRec := sortBy CutRec.cut (g.cuts.filter fun c => !c.finished)

/-! First fit (R369) -/

/-- The tile at a bolt coordinate. -/
def Dev.boltTile (d : Dev) (b : Fin 32) (p : Nat × Nat) : Fin 128 := tileAt (2 * d.boltX b + p.1) (2 * d.boltY b + p.2)

/-- The tiles of a w × h panel at a position. -/
def Dev.tilesAt (d : Dev) (b : Fin 32) (w h : Nat) (p : Nat × Nat) : List (Fin 128) :=
  (List.range h).flatMap fun y => (List.range w).map fun x => d.boltTile b (p.1 + x, p.2 + y)

/-- The positions of a w × h panel in row-major order. -/
def Dev.positions (d : Dev) (b : Fin 32) (w h : Nat) : List (Nat × Nat) :=
  (List.range (2 * d.boltH b + 1 - h)).flatMap fun y => (List.range (2 * d.boltW b + 1 - w)).map fun x => (x, y)

/-- Positions for `n` panels, one after another, each the first whose tiles are usable and not chosen. -/
def Dev.fitPanels (d : Dev) (b : Fin 32) (w h : Nat) (usable : Fin 128 → Bool) : Nat → List (Fin 128) → Option (List (Nat × Nat))
  | 0, _ => some []
  | n + 1, chosen =>
    match (d.positions b w h).find? fun p => (d.tilesAt b w h p).all fun t => usable t && !chosen.contains t with
    | none => none
    | some p => (d.fitPanels b w h usable n (chosen ++ d.tilesAt b w h p)).map fun r => p :: r

/-- Tiles of a gang's cuts that hold no slots yet (R354). -/
def Launch.slotsNeeded (l : Launch) (g : Gang) : Nat := ((g.unfinished.filter fun c => c.slots.isEmpty).length) * l.pw * l.ph

/-- Whether a vdev has the free slots that a gang needs; evicted cuts keep theirs. -/
def Vdev.hasSlots (v : Vdev) (l : Launch) (g : Gang) : Bool := decide (v.slots.length + l.slotsNeeded g ≤ v.fld 0x18 4)

/-- FirstFit. -/
def Dev.firstFit (d : Dev) (b : Fin 32) (v : Vdev) (l : Launch) (g : Gang) (usable : Fin 128 → Bool) : Option (List (Nat × Nat)) :=
  if v.hasSlots l g then d.fitPanels b l.pw l.ph usable g.unfinished.length [] else none

/-- The tiles that positions of a launch's shape cover. -/
def Dev.cover (d : Dev) (b : Fin 32) (l : Launch) (ps : List (Nat × Nat)) : List (Fin 128) := ps.flatMap (d.tilesAt b l.pw l.ph)

/-- Whether a tile is in service (R427). -/
def Dev.inService (d : Dev) (t : Fin 128) : Bool := (d.routers[t]).fence == 0

/-- Whether a tile is free: in service, and held by nobody. -/
def Dev.freeTile (d : Dev) (t : Fin 128) : Bool := d.inService t && d.tiles[t].owner == .free

/-- The launch that a job of a reservation runs. -/
def Resv.launchOf (r : Resv) (d : Dev) : Option Launch := r.job.bind fun l => d.launch r.vdev l

/-- The tiles that a reservation's job claims; a job whose vdev sleeps claims none (R432). -/
def Resv.claimed (r : Resv) (d : Dev) : List (Fin 128) :=
  if (d.vdev r.vdev).any Vdev.awake then (r.launchOf d).elim [] fun l => d.cover r.bolt l r.claim else []

/-- Whether a job of the bolt claims a tile. -/
def Dev.isClaimed (d : Dev) (b : Fin 32) (t : Fin 128) : Bool := d.resvs.any fun r => r.bolt == b && (r.claimed d).contains t

/-- Free tiles that no job claims. -/
def Dev.freeUnclaimed (d : Dev) (b : Fin 32) (t : Fin 128) : Bool := d.freeTile t && !d.isClaimed b t

/-- The reservation whose job a panel runs. -/
def Dev.resvOf (d : Dev) (p : Panel) : Option Resv :=
  if p.phase == .over then none else d.resvs.find? fun r => r.vdev == p.vdev && r.job == some p.launch

/-! Placing a gang (R369) -/

/-- The lowest context slots that a vdev has free. -/
def Vdev.freeSlots (v : Vdev) (n : Nat) : List Nat := ((List.range (v.slots.length + n)).filter fun k => !v.slots.contains k).take n

/-- A panel handle that no placed panel of the bolt has (R365). -/
def Dev.newHandle (d : Dev) (b : Fin 32) : Nat :=
  let n := (d.bolts[b]).handles
  let used := fun k => d.panels.any fun p => p.handle == b.val * 65536 + (n + k) % 65536
  b.val * 65536 + (n + ((List.range 130).find? fun k => !used k).getD 0) % 65536

/-- SVPANEL of a panel (R350). -/
def Panel.svpanel (p : Panel) : W64 :=
  BitVec.ofNat 64 (p.x0 + 16 * (p.x0 + p.w - 1) + 256 * p.y0 + 2048 * (p.y0 + p.h - 1) + 2 ^ 14)

/-- A panel as it is placed for a cut. -/
def Launch.panelFor (l : Launch) (c : CutRec) (b : Fin 32) (handle x0 y0 : Nat) (slots : List Nat) : Panel where
  handle := handle
  bolt := b
  x0 := x0
  y0 := y0
  w := l.pw
  h := l.ph
  psc := 0
  pstall := 0
  pstitch := 0
  phase := if c.saved.isSome then .restoring else .loading
  frozen := 0
  lastStitch := 0
  beats := []
  nextBeat := 0
  vdev := l.vdev
  launch := l.num
  cut := c.cut
  image := BitVec.ofNat 64 l.image
  slots := slots
  evict := none
  save := false
  saveAt := 0
  startAt := l.nbt
  stepping := false
  haltReq := false
  timing := false
  pre := none
  wait := .no

/-- Takes a panel's tiles for it: owner, rank, SVPANEL. -/
def Dev.takeTiles (d : Dev) (p : Panel) : Dev :=
  p.tiles.zipIdx.foldl (fun d x =>
    (d.onTile x.1 fun t => { t with owner := .panel p.handle, rank := x.2 }).onRouter x.1 fun r => { r with svpanel := p.svpanel }) d

/-- Gives a cut its context slots: those it holds, or the lowest free ones. -/
def Dev.giveSlots (d : Dev) (l : Launch) (c : CutRec) : Dev × List Nat :=
  if !c.slots.isEmpty then (d, c.slots)
  else
    let k := (d.vdev l.vdev).elim [] fun v => v.freeSlots (l.pw * l.ph)
    (d.onVdev l.vdev fun v => { v with slots := v.slots ++ k }, k)

/-- Marks a cut as placed. -/
def Dev.markPlaced (d : Dev) (l : Launch) (cut h : Nat) (slots : List Nat) : Dev :=
  d.onLaunch l.vdev l.num fun x => x.onCut cut fun c => { c with st := .placed h, slots := slots }

/-- Places one cut at a position. -/
def Dev.placeCut (d : Dev) (b : Fin 32) (l : Launch) (c : CutRec) (pos : Nat × Nat) : Dev :=
  let h := d.newHandle b
  let x := d.giveSlots l c
  let p := l.panelFor c b h (2 * d.boltX b + pos.1) (2 * d.boltY b + pos.2) x.2
  let d1 := ({ x.1 with panels := x.1.panels ++ [p] } : Dev).takeTiles p
  (d1.markPlaced l c.cut h x.2).onBolt b fun y => { y with handles := h % 65536 + 1 }

/-- A gang as it is placed now. -/
def Gang.placedNow (g : Gang) (dcc : Nat) (backfill : Bool) : Gang :=
  { g with placedAt := some dcc, backfill := backfill, age := 0, clearing := false }

/-- Places a gang: every unfinished cut takes a panel, in ascending cut index. A preload of the gang elsewhere is given up (log entry 30). -/
def Dev.placeGang (d : Dev) (b : Fin 32) (l : Launch) (g : Gang) (ps : List (Nat × Nat)) (backfill : Bool) : Dev :=
  let d0 := d.dropPreloads l.vdev l.num
  let d1 := d0.onLaunch l.vdev l.num fun x => x.offer (g.placedNow d.dcc backfill)
  (g.unfinished.zip ps).foldl (fun d x => d.placeCut b l x.1 x.2) d1

/-! Reserved jobs (R370) -/

/-- The gang of a reservation's job, while it waits for panels; not while its vdev collapses or has collapsed (R432). -/
def Resv.waiting (r : Resv) (d : Dev) : Option (Launch × Gang) :=
  if r.overrun || !(d.vdev r.vdev).any Vdev.awake then none
  else (r.launchOf d).bind fun l => if l.gangs.any Gang.placed then none else l.unplacedGangs.head?.map fun g => (l, g)

/-- Whether a job with deadline `dl` may take a tile: free, held by best-effort work or kept for a preload, or held by a job with a later
deadline. -/
def Dev.eligible (d : Dev) (dl : Nat) (t : Fin 128) : Bool :=
  d.inService t && match d.tiles[t].owner with
    | .free => true
    | .vdev _ => false
    | .panel h =>
      match d.panel h with
      | none => false
      | some p => (d.resvOf p).elim true fun r => decide (dl < r.deadline)

/-- Orders the eviction of the gangs that hold claimed tiles. -/
def Dev.clearTiles (d : Dev) (ts : List (Fin 128)) : Dev := ts.foldl (fun d t => (d.panelOf t).elim d fun p => d.vacate p .order) d

/-- Takes the turn of one job: it keeps its claim, unless a tile of it has left service (R427), or claims its first fit, and starts once its tiles are
free, and its slots (R354). `done` holds the tiles of the jobs before it. -/
def Dev.placeJob (b : Fin 32) (x : Dev × List (Fin 128)) (num : Nat) : Dev × List (Fin 128) :=
  let d := x.1
  match d.resv num with
  | none => x
  | some r =>
    match r.waiting d, d.vdev r.vdev with
    | some (l, g), some v =>
      let usable := fun t => d.eligible r.deadline t && !x.2.contains t
      let keeps := !r.claim.isEmpty && (d.cover b l r.claim).all d.inService
      match (if keeps then some r.claim else d.firstFit b v l g usable) with
      | none => (d.onResv num fun r => { r with claim := [] }, x.2)
      | some ps =>
        let ts := d.cover b l ps
        let lose := fun (y : Resv) => if y.num != num && (y.claimed d).any ts.contains then { y with claim := [] } else y
        let d1 := ({ d with resvs := d.resvs.map lose } : Dev).onResv num fun r => { r with claim := ps }
        if ts.all d1.freeTile && v.hasSlots l g then
          ((d1.placeGang b l g ps false).onResv num fun r => { r with claim := [] }, x.2 ++ ts)
        else (d1.clearTiles ts, x.2 ++ ts)
    | _, _ => x

/-- Begins the period in which an overrun job goes on (R367). -/
def Resv.resume (dcc : Nat) (r : Resv) : Resv :=
  if r.overrun && decide (r.deadline ≤ dcc + r.period) then { r with overrun := false, used := 0 } else r

/-- The reserved jobs of a bolt take their turns in deadline order, then by number (R370). -/
def Dev.placeJobs (d : Dev) (b : Fin 32) : Dev :=
  let d0 : Dev := { d with resvs := d.resvs.map (Resv.resume d.dcc) }
  let l := sortBy (fun (r : Resv) => r.deadline * 64 + r.num) (d0.resvs.filter fun r => r.bolt == b && r.job.isSome)
  (l.foldl (fun x r => Dev.placeJob b x r.num) (d0, [])).1

/-! Best-effort gangs (R371, R372) -/

/-- The ring of a bolt's best-effort spools, as 16 × vdev + spool, ascending. -/
def Dev.ring (d : Dev) (b : Fin 32) : List Nat :=
  (d.vdevs.filter fun v => v.bolt == b).flatMap fun v =>
    ((List.finRange 16).filter fun s => (v.spools[s]).kind == .best).map fun s => 16 * v.num + s.val

/-- The ring in order after a place, that place last. -/
def ringAfter (l : List Nat) (p : Nat) : List Nat := l.filter (fun x => decide (p < x)) ++ l.filter fun x => decide (x ≤ p)

/-- The head gang of a spool of the ring. -/
def Dev.headAt (d : Dev) (x : Nat) : Option (Vdev × Launch × Gang) :=
  (d.vdev (x / 16)).bind fun v => (v.headGang (idx 16 x)).map fun y => (v, y.1, y.2)

/-- WEIGHT of a spool of the ring. -/
def Dev.weightAt (d : Dev) (x : Nat) : Nat := (d.vdev (x / 16)).elim 0 fun v => (v.spools[idx 16 x]).weight

/-- Moves the pointer to a spool, with its credit. -/
def Dev.point (d : Dev) (b : Fin 32) (x : Nat) : Dev := d.onBolt b fun y => { y with ptr := x, credit := d.weightAt x }

/-- Moves the pointer to the next spool with a head gang; without one it leaves its spool all the same. -/
def Dev.movePointer (d : Dev) (b : Fin 32) : Dev :=
  let l := ringAfter (d.ring b) (d.bolts[b]).ptr
  match l.find? fun x => (d.headAt x).isSome with
  | some x => d.point b x
  | none => (l.head?).elim d fun x => d.point b x

/-- The head gang of the pointed spool. -/
def Dev.pointed (d : Dev) (b : Fin 32) : Option (Vdev × Launch × Gang) :=
  if (d.ring b).contains (d.bolts[b]).ptr then d.headAt (d.bolts[b]).ptr else none

/-- Weighted round robin (R371): places head gangs until one is blocked or there is none. -/
def Dev.placeRing (b : Fin 32) : Nat → Dev → Dev
  | 0, d => d
  | fuel + 1, d =>
    match d.pointed b with
    | none =>
      if (d.ring b).any fun x => (d.headAt x).isSome then Dev.placeRing b fuel (d.movePointer b) else d
    | some (v, l, g) =>
      match d.firstFit b v l g (d.freeUnclaimed b) with
      | none => d
      | some ps =>
        let d1 := (d.placeGang b l g ps false).onBolt b fun x => { x with credit := x.credit - 1 }
        Dev.placeRing b fuel (if (d1.bolts[b]).credit = 0 || (d1.pointed b).isNone then d1.movePointer b else d1)

/-- The shadow of a blocked gang (R372). -/
def Dev.shadow (d : Dev) (b : Fin 32) (v : Vdev) (l : Launch) (g : Gang) : List (Fin 128) :=
  let reserved := fun t => d.isClaimed b t || (d.panelOf t).elim false fun p => (d.resvOf p).isSome
  match d.firstFit b v l g fun t => d.inService t && !reserved t with
  | some ps => d.cover b l ps
  | none => ((d.firstFit b v l g d.inService).map (d.cover b l)).getD []

/-- The panels that hold a tile of a list. -/
def Dev.holders (d : Dev) (ts : List (Fin 128)) : List Panel := d.panels.filter fun p => p.tiles.any ts.contains

/-- T_ready of a shadow, when every panel in it is best-effort and declares WCRT (R372). -/
def Dev.tReady (d : Dev) (sh : List (Fin 128)) : Option Nat :=
  let l := d.holders sh
  let end_ := fun (p : Panel) =>
    if p.phase == .over || (d.resvOf p).isSome then none
    else match d.launch p.vdev p.launch, (d.gangOfPanel p).bind Gang.placedAt with
      | some x, some t => if x.wcrt = 0 then none else some (t + x.wcrt)
      | _, _ => none
  if l.isEmpty || l.any fun p => (end_ p).isNone then none else some ((l.filterMap end_).foldl Nat.max 0)

/-- Tries the head gang of one other spool as backfill. -/
def Dev.backfillOne (b : Fin 32) (sh : List (Fin 128)) (d : Dev) (x : Nat) : Dev :=
  match d.headAt x with
  | none => d
  | some (v, l, g) =>
    match d.firstFit b v l g fun t => d.freeUnclaimed b t && !sh.contains t with
    | some ps => d.placeGang b l g ps false
    | none =>
      if l.wcrt != 0 && (d.tReady sh).elim false fun t => decide (d.dcc + l.wcrt ≤ t) then
        match d.firstFit b v l g (d.freeUnclaimed b) with
        | some ps => d.placeGang b l g ps true
        | none => d
      else d

/-- Backfill around a blocked head gang that is not in clearance (R372). -/
def Dev.backfill (d : Dev) (b : Fin 32) : Dev :=
  match d.pointed b with
  | some (v, l, g) =>
    if g.clearing then d
    else
      let p := (d.bolts[b]).ptr
      ((ringAfter (d.ring b) p).filter (· != p)).foldl (Dev.backfillOne b (d.shadow b v l g)) d
  | none => d

/-- Whether FirstFit finds no placement for the next cut of a vdev that has been released (R433). -/
def Dev.lacksRoom (d : Dev) (v : Vdev) : Bool :=
  match v.launches.findSome? fun l => if l.released && !l.done && !l.gangs.any Gang.placed then l.unplacedGangs.head?.map fun g => (l, g) else none with
  | none => false
  | some (l, g) =>
    match (v.spools[l.spool]).resv.bind d.resv with
    | some r => r.claim.isEmpty && (d.firstFit v.bolt v l g (d.eligible r.deadline)).isNone
    | none => (d.firstFit v.bolt v l g (d.freeUnclaimed v.bolt)).isNone

/-- Notes for the vdevs of a bolt that wake whether their next cut lacks room, until the next tick. -/
def Dev.noteRoom (d : Dev) (b : Fin 32) : Dev :=
  let note := fun (v : Vdev) => if v.bolt = b ∧ v.wakeAt.isSome then { v with noRoom := d.lacksRoom v } else v
  { d with vdevs := d.vdevs.map note }

/-- Whether a bolt waits for a new clock (R349). -/
def Dev.clockPending (d : Dev) (b : Fin 32) : Bool := (d.bolts[b]).clk != d.boltClk b

/-- GANG_PLACE (R369–R372): reserved jobs, then best-effort gangs, then backfill. A bolt that waits for a new clock places nothing (R349). -/
def execGangPlace (b : Fin 32) (s : State) : Result :=
  .next (s.onDev fun d =>
    if !d.placing || d.clockPending b then d
    else
      let d1 := d.placeJobs b
      let fuel := 128 + 2 * (d1.ring b).length
      ((Dev.placeRing b fuel (if (d1.ring b).contains (d1.bolts[b]).ptr then d1 else d1.movePointer b)).backfill b).noteRoom b)

/-- CLEARANCE (R373): the blocked head gang of the bolt ages; at AGEMAX it enters clearance, in which every best-effort gang in its shadow is
ordered evicted. -/
def execClearance (b : Fin 32) (s : State) : Result :=
  .next (s.onDev fun d =>
    match (if d.placing && !d.clockPending b then d.pointed b else none) with
    | none => d
    | some (v, l, g) =>
      let age := g.age + 1
      let g1 := { g with age := age, clearing := g.clearing || decide ((d.bolts[b]).agemax ≤ age) }
      let d1 := d.onLaunch l.vdev l.num fun x => x.offer g1
      if g1.clearing then
        ((d1.holders (d1.shadow b v l g1)).filter fun p => (d1.resvOf p).isNone).foldl (fun d p => d.vacate p .order) d1
      else d1)

/-! Backfill, budget and deadline (R367, R372) -/

/-- Whether a gang placed as backfill has run for its WCRT. -/
def Gang.expired (g : Gang) (l : Launch) (dcc : Nat) : Bool :=
  g.backfill && (g.placedAt).elim false fun t => decide (t + l.wcrt ≤ dcc)

/-- BACKFILL_WCRT_EXPIRY (R372): the gang is ordered evicted at its next stitch point. -/
def execBackfillWcrtExpiry (v l : Nat) (s : State) : Result :=
  .next (s.onDev fun d =>
    match d.launch v l with
    | none => d
    | some x =>
      let late := x.gangs.filter fun g => g.expired x d.dcc
      let d1 := late.foldl (fun d g => match (d.gangPanels v l (some g)).head? with
        | some p => d.orderEvict p .order
        | none => d) d
      let clear := fun (g : Gang) => if g.expired x d.dcc then { g with backfill := false } else g
      d1.onLaunch v l fun y => { y with gangs := y.gangs.map clear })

/-- Whether a job has used its budget (R367). -/
def Resv.spent (r : Resv) : Bool := r.job.isSome && !r.overrun && decide (r.budget ≤ r.used)

/-- BUDGET_OVERRUN (R367): the job is ordered evicted and goes on as the job of the next period, with that period's deadline; the spool's
next launch waits for the period after. -/
def execBudgetOverrun (r : Nat) (s : State) : Result :=
  .next (s.onDev fun d =>
    match d.resv r with
    | none => d
    | some x =>
      match x.job.bind fun l => d.launch x.vdev l with
      | none => d
      | some l =>
        if !x.spent || x.period = 0 then d
        else
          let start := x.anchor + ((d.dcc - x.anchor) / x.period + 1) * x.period
          let d1 := match d.panels.find? fun p => p.vdev == l.vdev && p.launch == l.num && p.phase != .over with
            | some p => d.orderEvict p .overrun
            | none => d
          let d2 := d1.onLaunch l.vdev l.num fun y => { y with status := setBit y.status 27 true }
          let d3 := d2.onVdev l.vdev fun v => { v with ovrcnt := satAdd v.ovrcnt 1 }
          let d4 := d3.onResv r fun y => { y with overrun := true, deadline := start + y.period, next := start + y.period }
          d4.postEvent l.vdev (eventRecord 4 r l.tag.toNat (d.dcc - (x.used - x.budget)) d.dcc))

/-- Whether a job runs past its deadline, which has not been reported. -/
def Resv.late (r : Resv) (dcc : Nat) : Bool := r.job.isSome && !r.missed && decide (r.deadline ≤ dcc)

/-- DEADLINE_MISS (R367): DEADMISS, VSTAT.MISS, MISSCNT and the event, once. -/
def execDeadlineMiss (r : Nat) (s : State) : Result :=
  .next (s.onDev fun d =>
    match d.resv r with
    | none => d
    | some x =>
      match x.job.bind fun l => d.launch x.vdev l with
      | none => d
      | some l =>
        if !x.late d.dcc then d
        else
          let d1 := d.onLaunch l.vdev l.num fun y => { y with status := setBit y.status 30 true }
          let d2 := d1.onVdev l.vdev fun v => { v with misscnt := satAdd v.misscnt 1, vstat := setBit v.vstat 3 true }
          (d2.onResv r fun y => { y with missed := true }).postEvent l.vdev (eventRecord 3 r l.tag.toNat x.deadline d.dcc))

/-! Preload (R375, R376) -/

/-- The gang that may be bound next to a running gang of a spool: its head gang, or the first of the oldest launch that is still to be
released. -/
def Vdev.nextBound (v : Vdev) (sp : Fin 16) : Option (Launch × Gang) :=
  match v.headGang sp with
  | some x => some x
  | none => (v.oldest sp).map fun l => (l, l.newGang 0)

/-- Loads a gang's data into one bound tile of a running gang: its start section into the idle half, its data into the banks that the
running gang does not declare. -/
def Dev.preloadTile (d : Dev) (n : Fin 128) (img : List Byte) (isp : Bool) (banks : BitVec 16) : Dev :=
  let half := ispKey n (halfBase (d.tiles[n]).idleHalf)
  let d1 := if isp then (d.clear half halfSize).write half ((imgStart img).elim [] fun x => x.bytes img) else d
  let d2 := (List.range 16).foldl (fun d k => if banks.getLsbD k then d.clear (tspKey n (k * 65536)) 65536 else d) d1
  let d3 := (imgSects img).foldl (fun d x =>
    if x.kind = 4 then d.loadData n (imgBfmt img) (~~~banks) x.addr (x.bytes img) else d) d2
  d3.onTile n fun t => { t with sr := { t.sr with bown := t.sr.bown ||| banks }, c := { t.c with idleHeld := t.c.idleHeld || isp } }

/-- Binds one cut to one panel and loads it. -/
def Dev.bindPanel (d : Dev) (p : Panel) (l : Launch) (cut : Nat) (img : List Byte) (isp : Bool) (banks : BitVec 16) : Dev :=
  (p.tiles.foldl (fun d n => d.preloadTile n img isp banks) d).onPanel p.handle fun p =>
    { p with pre := some { launch := l.num, cut := cut, isp := isp, banks := banks } }

/-- The panels of a gang that another gang may be bound to: running, with no eviction ordered and nothing bound yet. -/
def Dev.bindable (d : Dev) (v l : Nat) (g : Gang) : Option (List Panel) :=
  let ps := sortBy Panel.cut (d.gangPanels v l (some g))
  let ok := fun (p : Panel) => p.evict.isNone && p.pre.isNone && (p.phase == .running || p.phase == .trap || p.phase == .debug)
  if ps.isEmpty || !ps.all ok then none else some ps

/-- An image that can be read now and passes its checks. -/
def Dev.imageNow (d : Dev) (b : Fin 32) (l : Launch) : Option (List Byte) :=
  let a : Asker := d.placerAsker b l.vdev l.tag
  match (d.rangeKeys b a .read l.image 0x40 false).2 with
  | .keys _ =>
    match (d.readImage b a l.image).2 with
    | .bytes img bad => if bad || (imgDetail img l.pw l.ph).isSome then none else some img
    | _ => none
  | _ => none

/-- Binds the next gang of a spool to a running gang (R375), when R375 lets it. -/
def Dev.bindNext (d : Dev) (b : Fin 32) (v : Vdev) (l : Launch) (g : Gang) : Dev :=
  match v.nextBound l.spool, d.bindable v.num l.num g with
  | some (n, gn), some ps =>
    if n.pw != l.pw || n.ph != l.ph || decide (ps.length < gn.unfinished.length) || !(n.preisp || n.predata) || gn.cuts.any (fun c => c.saved.isSome)
        || d.panels.any (fun p => p.pre.any fun x => x.launch == n.num) then d
    else match d.imageNow b l, d.imageNow b n with
      | some ri, some ni =>
        let isp := n.preisp && !imgOverlay ri
        let banks := if n.predata then imgBanks ni &&& ~~~imgBanks ri else 0#16
        (ps.zip gn.unfinished).foldl (fun d x => d.bindPanel x.1 n x.2.cut ni isp banks) d
      | _, _ => d
  | _, _ => d

/-- The placer may bind gangs to the running gangs of its bolt, which is a free choice (log entry 30). -/
def Dev.preloads (d : Dev) (b : Fin 32) : Dev :=
  let cand := (d.vdevs.filter fun v => v.bolt == b && v.awake).flatMap fun v => v.launches.flatMap fun l => l.gangs.map fun g => (v, l, g)
  cand.foldl (fun d x =>
    let d1 : Dev := { d with fresh := d.fresh + 1 }
    if Config.pick d.fresh % 2 = 0 then d1.bindNext b x.1 x.2.1 x.2.2 else d1) d

/-- The panels on which a preloaded gang is to start: all those it is bound to, when the gang before it has completed, or none. -/
def Dev.preloadPanels (d : Dev) (p : Panel) : List Panel :=
  match p.pre with
  | none => []
  | some x =>
    let l := d.panels.filter fun q => q.vdev == p.vdev && q.pre.any fun y => y.launch == x.launch
    if l.all fun q => q.phase == .over then l else []

/-- Whether no cut of a kept panel's gang runs any more. -/
def Dev.gangOver (d : Dev) (p : Panel) : Bool :=
  match d.gangOfPanel p with
  | none => true
  | some g => (d.gangPanels p.vdev p.launch (some g)).all fun q => q.phase == .over

/-- The gang bound to a panel, when its launch has been released. -/
def Dev.boundGang (d : Dev) (p : Panel) : Option (Vdev × Launch × Gang) :=
  match p.pre, d.vdev p.vdev with
  | some x, some v =>
    (d.launch p.vdev x.launch).bind fun l =>
      if l.released && !l.done && v.awake then
        (l.unplacedGangs.find? fun g => g.cuts.any fun c => c.cut == x.cut).map fun g => (v, l, g)
      else none
  | _, _ => none

/-- Whether a preloaded gang starts on the panels of `p` on this tick, whose tiles must all be in service (R427). -/
def Dev.preloadReady (d : Dev) (p : Panel) : Bool :=
  !(d.preloadPanels p).isEmpty && (d.preloadPanels p).all (fun q => q.tiles.all d.inService) && d.gangOver p && (d.boundGang p).elim false fun x =>
    x.1.hasSlots x.2.1 x.2.2 && x.2.2.unfinished.length == (d.preloadPanels p).length

/-- The preloaded half becomes half A (R375), and the other one reads as zeros (R151). -/
def Dev.halfToA (d : Dev) (n : Fin 128) : Dev :=
  let t := d.tiles[n]
  if t.c.idleHeld && t.idleHalf != 0 then (d.copy (ispKey n (halfBase 1)) (ispKey n (halfBase 0)) halfSize).clear (ispKey n (halfBase 1)) halfSize
  else d

/-- A kept panel becomes the panel of the cut bound to it. -/
def Dev.startPreload (d : Dev) (p : Panel) (l : Launch) (c : CutRec) : Dev :=
  let h := d.newHandle p.bolt
  let x := d.giveSlots l c
  let q : Panel := { l.panelFor c p.bolt h p.x0 p.y0 x.2 with pre := p.pre }
  let d1 := q.tiles.foldl Dev.halfToA { x.1 with panels := (x.1.panels.filter fun y => y.handle != p.handle) ++ [q] }
  ((d1.takeTiles q).markPlaced l c.cut h x.2).onBolt p.bolt fun y => { y with handles := h % 65536 + 1 }

/-- PRELOAD_START (R375): the gang bound to the panels of a completed gang is placed on them. -/
def execPreloadStart (h : Nat) (s : State) : Result :=
  .next (s.onDev fun d =>
    match d.panel h with
    | none => d
    | some p =>
      match d.boundGang p with
      | some (_, l, g) =>
        if d.preloadReady p && d.placing && !d.clockPending p.bolt then
          let ps := d.preloadPanels p
          let d1 := d.onLaunch l.vdev l.num fun x => x.offer (g.placedNow d.dcc false)
          let d2 := ps.foldl (fun d q =>
            match q.pre.bind fun x => g.cuts.find? fun c => c.cut == x.cut with
            | some c => d.startPreload q l c
            | none => d) d1
          d2.onResv (((d.vdev l.vdev).bind fun v => (v.spools[l.spool]).resv).getD 64) fun r => if r.job == some l.num then { r with claim := [] } else r
        else d
      | none => d)

/-! The tick (R368) -/

/-- A tile whose panel is gone is returned to its bolt, or stays with a collapsed vdev that keeps it. -/
def Dev.returnTile (d : Dev) (n : Fin 128) : Dev :=
  match d.tiles[n].owner with
  | .panel h =>
    if (d.panel h).isSome then d
    else
      let keep := (d.tiles[n].drain.bind fun x => d.vdev x.1).filter Vdev.keepsTiles
      d.onTile n fun t => { t with owner := keep.elim .free fun v => .vdev v.num, rank := 0 }
  | .vdev v =>
    if (d.vdev v).elim false Vdev.keepsTiles && (d.tiles[n].drain.any fun x => x.1 == v) then d else d.onTile n fun t => { t with owner := .free }
  | .free => d

/-- A new clock of a bolt (R349): every placed panel is ordered evicted, one kept for a preload alone is given up, and with none left the clock is in
force. -/
def Dev.settleClock (d : Dev) (b : Fin 32) : Dev :=
  if !d.clockPending b then d
  else
    let ps := d.panels.filter fun p => p.bolt == b
    if ps.isEmpty then d.onBolt b fun x => { x with clk := d.boltClk b }
    else ps.foldl (fun d p => d.vacate p .clock) d

/-- The bound of a wake class in ns (R433). -/
def wakeBound (cls : Nat) : Nat :=
  match cls with
  | 0 => 20000
  | 1 => 500000
  | _ => 15000000

/-- Whether a collapsed vdev is to wake in time for a launch with NBT (R432). -/
def Vdev.nbtDue (v : Vdev) (dcc : Nat) : Bool :=
  v.state == .collapsed && !v.parked
    && v.launches.any fun l => l.nbt != 0 && !l.done && decide (l.nbt ≤ dcc + l.prelead + wakeBound (v.fld 4 1))

/-- A collapsed vdev begins to wake in time for a launch with NBT (R432). -/
def Dev.wakeForNbt (d : Dev) (v : Vdev) : Dev :=
  if v.nbtDue d.dcc then d.onVdev v.num fun v => { v with state := .waking, idleSince := d.dcc } else d

/-- PLACER_TICK (R368): step 1 returns the tiles of panels that are gone; the other steps follow on the agenda. -/
def execPlacerTick (b : Fin 32) (s : State) : Result :=
  let d0 := (s.dev.boltTiles b).foldl Dev.returnTile s.dev
  let d1 := ((d0.vdevs.filter fun v => v.bolt == b).foldl Dev.wakeForNbt d0).settleClock b
  let d2 := if d1.placing then d1.preloads b else d1
  .next { s with dev := d2, agenda := [.tick b 0, .tick b 1, .tick b 2, .tick b 3] ++ s.agenda }

end Sys2Proof.Machine
end

