-- ==== Sys2Proof/Machine/Spools.lean ====
section
/-! DEFINITION. How work reaches the placer and is reported (R240, R241, R355–R364, R404, R405, R433, R447): tail and wake writes, launch
submissions, acceptance of records, events, completion records, and the registers of a vdev's page. -/

namespace Sys2Proof.Machine

/-! Writes to a vdev's register page (R355, R400, R436) -/

/-- A dropped host write is counted. -/
def Dev.hwdrop (d : Dev) : Dev := d.onMc fun m => { m with hwdrop := satAdd m.hwdrop 1 }

/-- Whether the checkpoint, or what follows it, keeps host writes from the register pages (R436). -/
def Dev.pagesClosed (d : Dev) : Bool := d.mc.pfail || d.mc.st == .checkpoint || d.mc.st == .retention || d.mc.st == .resuming

/-- Whether a request of the host reaches the BARs of a function: the function is enabled, and in RUN the request carries the T bit on the
TDI's stream, which is keyed and secure (R398, R412, R413). -/
def Dev.fnOpen (d : Dev) (port : Fin 2) (f : Fin 249) (tbit : Option Nat) : Bool :=
  let t := d.pf.tdis[f]
  decide (f.val ≤ (d.ports[port]).enabled) &&
    (t.st != .run || (t.port == port && tbit == some t.stream
      && (d.ports[port]).streams.any fun s => s.id == t.stream && s.active && s.secure))

/-- Answers a host request: bytes, or Unsupported Request. -/
def Dev.answerRead (d : Dev) (port : Fin 2) (x : Option (List Byte)) : Dev := { d with outs := .read port x :: d.outs }

/-- Whether a request through a BAR reaches the register page of a vdev: BAR1 of PF0 does; BAR0 of a VF as R413 has it (R399). -/
def Dev.pageOpen (d : Dev) (port : Fin 2) (v : Nat) (bar : PageBar) : Bool :=
  match bar with
  | .pf => true
  | .vf tbit => d.fnOpen port (idx 249 (d.functionOf v)) tbit

/-- A write to a vdev's register page takes effect through the active port only, and where R413 asks for the T bit, only with it. -/
def State.pageWrite (s : State) (req : PageReq) (v : Nat) (f : Dev → Dev) : Result :=
  .next (s.onDev fun d =>
    if !d.pageOpen req.port v req.bar then d.answerRead req.port none
    else if req.port != d.pf.active || d.pagesClosed then d.hwdrop else f d)

/-- A write wakes a collapsed vdev; one that comes during the collapse is acted on when it is complete (R433). -/
def Vdev.wake (v : Vdev) (dcc : Nat) : Vdev :=
  match v.state with
  | .active => v
  | .collapsing | .waking => { v with wakeAt := some (v.wakeAt.getD dcc) }
  | .collapsed => if v.parked then v else { v with state := .waking, wakeAt := some (v.wakeAt.getD dcc), wakeCounted := 0, idleSince := dcc }

/-- Records that a spool tail has been written (R432). -/
def Vdev.touched (v : Vdev) (dcc : Nat) : Vdev := { v with idleSince := dcc }

/-- Entries of a spool's ring. -/
def Spool.size (x : Spool) : Nat := 2 ^ x.log2

/-- Whether a tail write is refused (R357). A spool that is off has no ring: its tail write is refused as well (log entry 32). -/
def Spool.refusesTail (x : Spool) (tail : W32) : Bool :=
  x.kind == .off || x.feed || decide (x.size < (tail - x.head).toNat) || decide ((tail - x.head).toNat < (x.tail - x.head).toNat)

/-- A tail write on its spool: TAIL, or TAILCNT and VSTAT.TAILERR. -/
def Vdev.writeTail (v : Vdev) (sp : Fin 16) (x : W32) : Vdev :=
  if (v.spools[sp]).refusesTail x then { v with tailcnt := satAdd v.tailcnt 1, vstat := setBit v.vstat 1 true }
  else v.onSpool sp fun y => { y with tail := x }

/-- SPTAIL_WRITE (R357, R433): the write announces records, or is refused; it wakes the vdev. -/
def execSptailWrite (req : PageReq) (v : Nat) (sp : Fin 16) (x : BitVec 32) (s : State) : Result :=
  s.pageWrite req v fun d => d.onVdev v fun y => ((y.writeTail sp x).touched d.dcc).wake d.dcc

/-- WAKE_WRITE (R433): any value. -/
def execWakeWrite (req : PageReq) (v : Nat) (_ : BitVec 32) (s : State) : Result :=
  s.pageWrite req v fun d => d.onVdev v fun y => y.wake d.dcc

/-- VSTAT_WRITE (R355): a 1 clears its bit. -/
def execVstatWrite (req : PageReq) (v : Nat) (x : BitVec 32) (s : State) : Result :=
  s.pageWrite req v fun d => d.onVdev v fun y => { y with vstat := y.vstat &&& ~~~(x.extractLsb' 2 4) }

/-- A resolved launch token becomes FREE. -/
def Vdev.freeLtok (v : Vdev) (k : Fin 256) : Vdev :=
  let t := v.ltoks[k]
  if t.st == .done || t.st == .failed then { v with ltoks := v.ltoks.set k { t with st := .free } } else v

/-- LTFREE_WRITE (R355). -/
def execLtfreeWrite (req : PageReq) (v : Nat) (x : BitVec 32) (s : State) : Result :=
  s.pageWrite req v fun d => d.onVdev v fun y => y.freeLtok (idx 256 (fieldOf x 0 8))

/-! Accepted launches -/

/-- A launch with its record, as the placer accepts it. -/
def Launch.accepted (num v : Nat) (sp : Nat) (record : BitVec 1024) : Launch where
  num := num
  vdev := v
  spool := idx 16 sp
  spoolByte := if sp < 256 then BitVec.ofNat 8 sp else Config.spoolByte sp
  record := record
  waits := []
  depFail := false
  released := false
  nextGang := 0
  gangs := []
  status := 0#32
  done := false
  doneDcc := 0
  wait := .no

/-- The wait tokens as they are sampled (R361). -/
def Vdev.sampled (v : Vdev) (l : Launch) : Launch :=
  { l with waits := (l.wtoks.filter fun k => (v.ltoks[k]).st == .pending).map fun k => (k, (v.ltoks[k]).prod)
           depFail := l.wtoks.any fun k => (v.ltoks[k]).st == .failed }

/-- A launch enters the placer (R361): its wait tokens are sampled, then its completion token becomes PENDING with a clear status. -/
def Vdev.take (v : Vdev) (l : Launch) : Vdev :=
  let t := v.ltoks[l.ctok]
  { v with launches := v.launches ++ [v.sampled l]
           ltoks := v.ltoks.set l.ctok { st := .pending, status := 0#32, prod := t.prod + 1 } }

/-- A launch enters the placer of the device. -/
def Dev.takeLaunch (d : Dev) (v : Nat) (l : Launch) : Dev := { d.onVdev v fun y => y.take l with nextLaunch := d.nextLaunch + 1 }

/-- A launch completes with a code at once; its token, when PENDING for another launch, is left untouched, and a SUBREF event with a reason
and a DVA reports it (R357, R361, R447). -/
def Dev.refuseRecord (d : Dev) (v : Vdev) (sp : Nat) (record : BitVec 1024) (code reason dva : Nat) : Dev :=
  let l := Launch.accepted d.nextLaunch v.num sp record
  if (v.ltoks[l.ctok]).st == .pending then d.subref v.num reason dva sp
  else (d.takeLaunch v.num l).failLaunch v.num l.num code 0

/-! Submissions of `launch` (R240, R357) -/

/-- Accepted operation `i`, of tile `n`, when the placer may perform it: it does not wait, and no submission that reached the placer before goes to the
same spool of its vdev (R240). -/
def Dev.postedReady (d : Dev) (n : Fin 128) (i : Nat) : Option Posted :=
  (d.posted[i]?).filter fun x => x.tile == n && x.op.wait.free
    && !(x.op.kind == .launch && (d.posted.take i).any fun y => y.op.kind == .launch && y.vdev == x.vdev && y.op.dst == x.op.dst)

/-- Changes accepted operation `i`. -/
def Dev.setPosted (d : Dev) (i : Nat) (x : Posted) : Dev := { d with posted := d.posted.set i x }

/-- Accepted operation `i` has been performed; fences of its tile that waited for it alone go. -/
def Dev.dropPosted (d : Dev) (i : Nat) (x : Posted) : Dev := ({ d with posted := dropAt d.posted i } : Dev).settleFences x.tile

/-- DVA of the ring slot of an index (R357). -/
def Spool.slot (x : Spool) (i : W32) : Nat := x.base.toNat + 128 * (i.toNat % x.size)

/-- The spool that serves a submission: on, below NSPOOL, and fed by `launch`. -/
def Vdev.fed (v : Vdev) (sp : Nat) : Option Spool :=
  if sp < v.fld 5 1 then
    let x := v.spools[idx 16 sp]
    if x.kind != .off && x.feed then some x else none
  else none

/-- A submission whose record has been read goes into its ring, or completes its token, or waits. -/
def Dev.submit (d : Dev) (i : Nat) (p : Posted) (v : Vdev) : Dev :=
  let o := p.op
  let b := p.bolt
  let rec_ := o.data
  let refuse := fun (d : Dev) (code reason : Nat) => (d.refuseRecord v o.dst rec_ code reason o.addr.toNat).dropPosted i p
  match v.fed o.dst with
  | none => refuse d 2 2
  | some x =>
    if x.size ≤ (x.tail - x.head).toNat then refuse d 3 3
    else if o.wait == .failed then refuse d 0x0c 5
    else
      let tag := BitVec.ofNat 64 (recField rec_ 0x38 8)
      match d.vWrite b (d.placerAsker b v.num tag o.wait) (x.slot x.tail) (leBytes 128 rec_.toNat) with
      | (d1, .wait w) => d1.setPosted i { p with op := { o with wait := w } }
      | (d1, .fail) => refuse d1 0x0c 5
      | (d1, .done) => (d1.onVdev v.num fun y => (y.onSpool (idx 16 o.dst) fun z => { z with tail := z.tail + 1#32 }).touched d.dcc).dropPosted i p

/-- The submission that accepted operation `i` makes: the record is read, and goes into the ring slot at TAIL, or is refused. A submission that
waits keeps later ones to its spool back. -/
def Dev.launchSubmission (d : Dev) (n : Fin 128) (i : Nat) : Dev :=
  match d.postedReady n i, (d.postedReady n i).bind fun x => d.vdev x.vdev with
  | some p, some v =>
    let o := p.op
    let b := p.bolt
    if o.kind != .launch then d
    else if o.n = 1 then d.submit i p v
    else
      let d0 := d.flushHost b
      let lost := fun (d : Dev) => (d.subref v.num 4 o.addr.toNat o.dst).dropPosted i p
      if o.wait == .failed then lost d0
      else match d0.vRead b (d0.placerAsker b v.num 0#64 o.wait) o.addr.toNat 128 with
        | (d1, .wait w) => d1.setPosted i { p with op := { o with wait := w } }
        | (d1, .fail) => lost d1
        | (d1, .bytes l bad) =>
          let p1 := { p with op := { o with data := BitVec.ofNat 1024 (leNat l), n := 1, wait := .no } }
          if bad then lost d1 else (d1.setPosted i p1).submit i p1 v
  | _, _ => d

/-- LAUNCH_SUBMISSION (R240, R357, R447). -/
def execLaunchSubmission (n : Fin 128) (i : Nat) (s : State) : Result := .next (s.onDev fun d => d.launchSubmission n i)

/-! Acceptance (R357, R359, R361) -/

/-- A record that completes with MALFORMED (R359). -/
def Launch.malformed (l : Launch) : Bool :=
  let f := l.fld
  let nw := f 0x30 1
  decide (4 < nw) || (List.range 4).any (fun k => decide (nw ≤ k) && f (0x31 + k) 1 != 0) || decide (16 ≤ f 0x19 1) || f 0x1a 2 != 0
    || f 0x36 2 != 0 || f 0x40 64 != 0 || decide (l.pw < 1) || decide (16 < l.pw) || decide (l.ph < 1) || decide (8 < l.ph)
    || decide (l.boundary < 2) || decide (6 < l.boundary) || l.image % 256 != 0

/-- Launches of a spool that have been accepted and have not completed. -/
def Vdev.inHand (v : Vdev) (sp : Fin 16) : Nat := (v.launches.filter fun l => l.spool == sp && !l.done).length

/-- Whether the placer may accept the next record of a spool. -/
def Dev.mayAccept (d : Dev) (v : Vdev) (sp : Fin 16) : Bool :=
  let x := v.spools[sp]
  v.awake && !v.stopped && d.placing && x.kind != .off && x.head != x.tail && decide (v.inHand sp < 64) && x.wait.free

/-- RECORD_ACCEPT (R359, R361, R447): the record at HEAD is copied and HEAD advances. A record whose token is PENDING is not run, a malformed
one completes, one that cannot be read is passed; each is reported. -/
def execRecordAccept (v : Nat) (sp : Fin 16) (s : State) : Result :=
  .next (s.onDev fun d =>
    match d.vdev v with
    | none => d
    | some y =>
      if !d.mayAccept y sp then d
      else
        let x := y.spools[sp]
        let dva := x.slot x.head
        let pass := fun (d : Dev) => d.onVdev v fun y => y.onSpool sp fun z => { z with head := z.head + 1#32, wait := .no }
        let lost := fun (d : Dev) => (pass d).subref v 4 dva sp.val
        if x.wait == .failed then lost d
        else match d.vRead y.bolt (d.placerAsker y.bolt v 0#64 x.wait) dva 128 with
          | (d1, .wait w) => d1.onVdev v fun y => y.onSpool sp fun z => { z with wait := w }
          | (d1, .fail) => lost d1
          | (d1, .bytes l bad) =>
            if bad then lost d1
            else
              let new := Launch.accepted d1.nextLaunch v sp.val (BitVec.ofNat 1024 (leNat l))
              let d2 := pass d1
              if (y.ltoks[new.ctok]).st == .pending then d2.subref v 1 dva sp.val
              else
                let d3 := d2.takeLaunch v new
                if new.malformed then d3.failLaunch v new.num 4 0 else d3)

/-! Events and completion records (R364, R405) -/

/-- The event that accepted operation `i` posts to the queue of its vdev. -/
def Dev.deliverEvent (d : Dev) (n : Fin 128) (i : Nat) : Dev :=
  match d.postedReady n i with
  | some x =>
    let o := x.op
    if o.kind != .evpost then d
    else
      let d0 := if 3 ≤ o.scope then d.flushHost x.bolt else d
      let payload := fieldOf o.data 0 64
      (d0.postEvent x.vdev (eventRecord 1 o.dst o.data2.toNat payload o.n)).dropPosted i x
  | none => d

/-- EVPOST_DELIVER (R241, R364): once its release allows, the event record is posted. -/
def execEvpostDeliver (n : Fin 128) (i : Nat) (s : State) : Result := .next (s.onDev fun d => d.deliverEvent n i)

/-- Whether a vdev may write a completion record: what SECURITY has completed is not reported in the same nanosecond, in which a function-level reset may
still govern it (R415). DEDUCED: log entry 105. -/
def Vdev.mayReport (v : Vdev) (dcc : Nat) : Bool := v.waitCr.free && (v.secured.isEmpty || decide (v.securedAt < dcc))

/-- COMPLETION_RECORD_WRITE (R404, R405): the oldest unreported completion of a vdev is written once its slot is free, then its token
resolves and MSI-X is sent. -/
def execCompletionRecordWrite (v : Nat) (s : State) : Result :=
  .next (s.onDev fun d =>
    match d.vdev v with
    | some y =>
      match y.unreported with
      | some l => if y.mayReport d.dcc then d.ringStep y l else d
      | none => d
    | none => d)

end Sys2Proof.Machine
end

