-- ==== Sys2Proof/Machine/Collapse.lean ====
section
/-! DEFINITION. Collapse and wake of vdevs (R432, R433). -/

namespace Sys2Proof.Machine

/-- Whether a vdev is idle (R432): no cut is placed or evicted, and every accepted launch is unreleased. -/
def Vdev.idle (v : Vdev) : Bool := !v.holdsCut && v.launches.all fun l => !l.released || l.done

/-- A vdev begins to collapse: its placed cuts are ordered evicted, and the preloads bound to its panels are discarded (R432, R376). -/
def Dev.startCollapse (d : Dev) (n : Nat) : Dev :=
  let begin_ := fun (v : Vdev) =>
    if v.state == .active || v.state == .waking then { v with state := .collapsing, wakeAt := none, wakeCounted := 0 } else v
  (d.panels.filter fun p => p.vdev == n).foldl (fun d p => if p.phase == .over then d.dropPreload p else d.orderEvict p .collapse)
    (d.onVdev n begin_)

/-- Whether a vdev has been idle for its bolt's collapse delay (R432); a delay of 0 never ends. -/
def Dev.collapseDue (d : Dev) (v : Vdev) : Bool :=
  let delay := (d.mc.cdly[v.bolt]).toNat
  delay != 0 && (v.state == .active || v.state == .waking) && v.idle && decide (v.idleSince + 1000 * delay ≤ d.dcc)

/-- COLLAPSE_DELAY_EXPIRY (R432). -/
def execCollapseDelayExpiry (v : Nat) (s : State) : Result :=
  .next (s.onDev fun d =>
    match d.vdev v with
    | some y => if d.collapseDue y then d.startCollapse v else d
    | none => d)

/-- Whether a collapse is complete (R432, R433): no panel is left, and, but for class W0, every window has drained. -/
def Dev.collapseOver (d : Dev) (v : Vdev) : Bool :=
  v.state == .collapsing && d.panels.all (fun p => p.vdev != v.num)
    && (v.fld 4 1 == 0 || d.tiles.all fun t => t.drain.all fun x => x.1 != v.num)

/-- COLLAPSE_COMPLETE (R432): a wake write that came meanwhile is acted on now (R433). -/
def execCollapseComplete (v : Nat) (s : State) : Result :=
  .next (s.onDev fun d =>
    match d.vdev v with
    | some y =>
      if d.collapseOver y then
        let wakes := y.wakeAt.isSome && !y.parked
        d.onVdev v fun z => { z with state := if wakes then .waking else .collapsed, idleSince := d.dcc }
      else d
    | none => d)

/-- Whether the time that passes counts toward a wake's bound (R433): a cut of the vdev has been released, and FirstFit found it a place on the last
tick. -/
def Vdev.wakeCounts (v : Vdev) : Bool := v.wakeAt.isSome && (v.launches.any fun l => l.released && !l.done) && !v.noRoom

/-- Whether a waking vdev's next cut has issued. -/
def Dev.wakeOver (d : Dev) (v : Vdev) : Bool := v.state == .waking && d.panels.any fun p => p.vdev == v.num && p.phase == .running

/-- WAKE_COMPLETE (R433): the vdev is active; a wake beyond its bound adds 1 to WAKELATE. -/
def execWakeComplete (v : Nat) (s : State) : Result :=
  .next (s.onDev fun d =>
    match d.vdev v with
    | some y =>
      if d.wakeOver y then
        let late := y.wakeAt.isSome && decide (wakeBound (y.fld 4 1) < y.wakeCounted)
        (d.count y.bolt 11 (b2n late)).onVdev v fun z => { z with state := .active, wakeAt := none, wakeCounted := 0 }
      else d
    | none => d)

end Sys2Proof.Machine
end

