-- ==== Sys2Proof/Machine/Control.lean ====
section
/-! DEFINITION. The K slot: idle and barrier bundles, branches, loops, the instruction-half swap, stitch points, token polls, cluster
gating, halt and program traps, K arithmetic, predicates and counters (R120, R147–R160), and the return of a service core from its
handler (R330). -/

namespace Sys2Proof.Machine

/-- IDLE_BUNDLE: issues nothing for imm16 + 1 PSC cycles (R120). -/
def execIdleBundle (n : BitVec 16) (s : State) : Result := .next (s.onIss fun x => { x with idle := n.toNat })

/-- BARRIER_ONLY_BUNDLE: its part in the barrier precedes its issue; it has no operation (R119). -/
def execBarrierOnlyBundle (_ : BitVec 3) (s : State) : Result := .next s

/-- `br` (R149). -/
def execBr (off : BitVec 22) (s : State) : Result := .next (s.branch (s.target off))

/-- `jr` (R149). -/
def execJr (a : Fin 16) (off : Option (BitVec 16)) (s : State) : Result :=
  .next (s.branch (s.readK a + off.elim 0#32 fun i => i.signExtend 32))

/-- `call` (R149): writes the address after its own bundle into k15 and pops nothing. -/
def execCall (off : BitVec 22) (s : State) : Result :=
  .next ((s.putK 1 15 (s.iss.addr + BitVec.ofNat 32 s.iss.len)).goto (s.target off))

/-- `ret` (R149). -/
def execRet (s : State) : Result := .next (s.goto (s.readK 15))

/-- The loop step of `loop` and `loopi` (R147, R150). -/
def State.beginLoop (s : State) (count : Nat) (stop : W32) : Result :=
  s.attempt [chkOp (decide (0 < count) && decide (4 ≤ s.loops.length)) 0x0d] fun s =>
    if count = 0 then s.goto (s.afterEnd stop)
    else s.setLoops ({ start := s.iss.addr + BitVec.ofNat 32 s.iss.len, stop := stop, count := count } :: s.loops)

/-- `loop` (R150). -/
def execLoop (a : Fin 16) (off : BitVec 12) (s : State) : Result :=
  s.beginLoop (s.readK a).toNat (s.iss.addr + off.signExtend 32 * 4#32)

/-- `loopi` (R150). -/
def execLoopi (count : BitVec 17) (off : BitVec 16) (s : State) : Result :=
  s.beginLoop count.toNat (s.iss.addr + off.setWidth 32 * 4#32)

/-- `lbrk` (R147, R51). -/
def execLbrk (s : State) : Result :=
  s.attempt [chkOp s.loops.isEmpty 0x0d] fun s =>
    match s.loops with
    | e :: r => (s.setLoops r).goto (s.afterEnd e.stop)
    | [] => s

/-- `lnext` (R147): its LoopStep replaces the bundle's own end check. -/
def execLnext (s : State) : Result :=
  s.attempt [chkOp s.loops.isEmpty 0x0d] fun s =>
    match s.loops with
    | e :: _ =>
      let nx := loopStep s.loops e.stop (s.afterEnd e.stop)
      (s.setLoops nx.1).onIss fun x => { x with next := nx.2, taken := true }
    | [] => s

/-- The bounds check of `ifence` and `swapb` while a preload holds the idle half (R151). DEDUCED (log entry 18): no address is
concerned, so EA is 0. -/
def State.chkIdleHalf (s : State) : Chk := chkBounds s.tile.c.idleHeld 0#64

/-- `swapb` (R151, R106). -/
def execSwapb (off : BitVec 22) (s : State) : Result :=
  s.attempt [chkOp (!s.tile.c.fenced) 0x0e, s.chkIdleHalf] fun s =>
    (s.onTile fun t => { t with sr := { t.sr with ispid := t.sr.ispid ^^^ 1#64 }
                                c := { t.c with fenced := false } }).branch (s.target off)

/-- Whether a `ce.isp` of the tile still has its token PENDING (R151). -/
def Tile.ispPending (t : Tile) : Bool :=
  t.toks.any fun k => k.st == .pending && match k.xfer with
    | some x => x.cmd == .isp
    | none => false

/-- `ifence` (R151): the flag is set on cycle i + 3. -/
def execIfence (s : State) : Result :=
  s.attempt [chkOp s.tile.ispPending 0x0e, s.chkIdleHalf] fun s =>
    s.onTile fun t => { t with c := { t.c with fenceAt := t.c.fenceAt ++ [s.psc + 3] } }

/-- Whether a timed beat that a rank sent or is to receive is in flight at issue (R54, R246): on the links, or in a timed receive whose
TSP write has not performed (such a receive keeps the sender's rank as its destination). -/
def Dev.beatInFlight (d : Dev) (p : Panel) (rank : Nat) : Bool :=
  p.beats.any (fun b => b.src == rank || b.route.getLast? == some rank || (b.each && b.route.contains rank))
    || (List.range p.size).any fun k => d.tiles[p.tile k].flight.any fun f =>
        match f.act, f.dest with
        | .write _ _ _ _ _, .beat src => k == rank || src == rank
        | _, _ => false

/-- `stitch` (R152, R54, R337). -/
def execStitch (live : BitVec 21) (banks : BitVec 16) (s : State) : Result :=
  let t := s.tile
  let inFlight := match s.start.panelOf s.tileNo with
    | some p => s.start.beatInFlight p t.rank
    | none => false
  s.attempt [chkOp inFlight 0x0a, chkOp (pathPending (t.tpath ++ t.apath) s.psc) 0x0b] fun s =>
    s.onTile fun t => { t with c := { t.c with stitch := some (live, banks &&& ~~~t.sr.bown) } }

/-- The poison bit that `chkp` reads (R154). -/
def State.poisonOf (s : State) (c : PoisonClass) (r : Fin 32) : Bool :=
  match c with
  | .s => s.poisonS r
  | .va => s.poisonV .a r
  | .vb => s.poisonV .b r
  | .t => s.tile.r.tPoison.getLsbD r.val
  | .z => s.tile.r.zPoison.getLsbD r.val

/-- The cluster check of the register that `chkp` names (R154, R157). -/
def State.chkClass (s : State) (c : PoisonClass) (r : Fin 32) : Chk :=
  match c with
  | .va => s.chkV .a r
  | .vb => s.chkV .b r
  | _ => chkOp false 6

/-- `chkp` (R154). -/
def execChkp (c : PoisonClass) (r : Fin 32) (off : BitVec 12) (s : State) : Result :=
  s.attempt [s.chkClass c r] fun s =>
    if s.poisonOf c r then s.branch (s.iss.addr + off.signExtend 32 * 4#32) else s

/-- `tkw` (R155): the freeze on a PENDING token precedes its issue (`Dev.tokenFreeze`); when it issues it changes nothing. -/
def execTkw (_ : Fin 32) (s : State) : Result := .next s

/-- `tkp` (R155). -/
def State.pollToken (s : State) (p : Fin 8) (k : Fin 32) (f : TokSt → Bool) : Result := .next (s.putP 1 p (f (s.tile.toks[k]).st))

/-- `tkp.pend`. -/
def execTkpPend (p : Fin 8) (k : Fin 32) (s : State) : Result := s.pollToken p k (· == .pending)
/-- `tkp.done`. -/
def execTkpDone (p : Fin 8) (k : Fin 32) (s : State) : Result := s.pollToken p k (· == .done)
/-- `tkp.part`. -/
def execTkpPart (p : Fin 8) (k : Fin 32) (s : State) : Result := s.pollToken p k (· == .part)
/-- `tkp.fail`. -/
def execTkpFail (p : Fin 8) (k : Fin 32) (s : State) : Result := s.pollToken p k (· == .failed)
/-- `tkp.free`. -/
def execTkpFree (p : Fin 8) (k : Fin 32) (s : State) : Result := s.pollToken p k (· == .free)
/-- `tkp.res`: DONE, PARTIAL or FAILED. -/
def execTkpRes (p : Fin 8) (k : Fin 32) (s : State) : Result :=
  s.pollToken p k fun x => x == .done || x == .part || x == .failed

/-- Zeroes the eight registers of a cluster and their poison (R156). -/
def clearCluster (v : Vector VReg 32) (c : Nat) : Vector VReg 32 :=
  Vector.ofFn fun r => if r.val / 8 = c then 0#1024 else v[r]

/-- The poison bits of the registers outside a cluster. -/
def clearClusterPoison (p : BitVec 32) (c : Nat) : BitVec 32 := putField p (8 * c) 8 0

/-- One cluster of `vclust` (R156): gating loses the contents, waking zeroes them and opens the 24-cycle window. -/
def Tile.gateCluster (t : Tile) (f : VFile) (c : Nat) (en : Bool) (psc : Nat) : Tile :=
  match f with
  | .a =>
    if t.sr.awakeA.getLsbD c == en then t
    else { t with r := { t.r with va := clearCluster t.r.va c, vaPoison := clearClusterPoison t.r.vaPoison c }
                  sr := { t.sr with awakeA := setBit t.sr.awakeA c en, wakeEnd := t.sr.wakeEnd.set (idx 8 c) (if en then psc + 24 else 0) } }
  | .b =>
    if t.sr.awakeB.getLsbD c == en then t
    else { t with r := { t.r with vb := clearCluster t.r.vb c, vbPoison := clearClusterPoison t.r.vbPoison c }
                  sr := { t.sr with awakeB := setBit t.sr.awakeB c en
                                    wakeEnd := t.sr.wakeEnd.set (idx 8 (4 + c)) (if en then psc + 24 else 0) } }

/-- `vclust` (R156). -/
def execVclust (vb va : BitVec 4) (s : State) : Result :=
  .next (s.onTile fun t =>
    (List.range 4).foldl (fun t c => (t.gateCluster .a c (va.getLsbD c) s.psc).gateCluster .b c (vb.getLsbD c) s.psc) t)

/-- `halt` (R159); on a service core it waits for an event, or halts for good while event entry is disabled (R321). -/
def execHalt (s : State) : Result :=
  match s.cur with
  | .tile _ => .next (s.onTile fun t => { t with c := { t.c with halted := true } })
  | .svc q =>
    if (s.dev.svcs[q]).sstat.getLsbD 0 then .next (s.onDev fun d => d.onSvc q fun c => { c with run := .wait })
    else .next (s.onDev fun d =>
      (d.onSvc q fun c => { c with run := .dead }).logEvent 0x0b ((d.boltOfQuad q).map Fin.val) none none)

/-- `trap` and `brk`: the whole bundle issues, then the cause is taken (R159, R321, R323). -/
def State.program (s : State) (cause : Nat) (code : BitVec 17) : State :=
  match s.cur with
  | .tile _ => s.raiseLate cause code
  | .svc q =>
    let nx := s.nextAddress
    (s.setLoops nx.1).svcTrap q cause code.toNat nx.2

/-- `trap`. -/
def execTrap (code : BitVec 17) (s : State) : Result := .next (s.program causeUser code)

/-- `brk`. -/
def execBrk (code : BitVec 17) (s : State) : Result := .next (s.program causeBreak code)

/-- `kadd` (R160). -/
def execKadd (d a : Fin 16) (o : KOpd) (s : State) : Result := .next (s.putK 1 d (s.readK a + s.kopd o true))

/-- `kli` (R160). -/
def execKli (d : Fin 16) (i : BitVec 17) (s : State) : Result := .next (s.putK 1 d (i.signExtend 32))

/-- `kmov`: bits 31–0 of s[a]; a poisoned source writes 0 (R160, R41). -/
def execKmov (d : Fin 16) (a : Fin 32) (s : State) : Result :=
  .next (s.putPZ 2 (.k d) (((s.readS a).setWidth 32).setWidth 1024) (s.poisonS a))

/-- `kmov.hi`: bits 63–32. -/
def execKmovHi (d : Fin 16) (a : Fin 32) (s : State) : Result :=
  .next (s.putPZ 2 (.k d) ((s.readS a >>> 32).setWidth 1024) (s.poisonS a))

/-- `pset.and` (R160). -/
def execPsetAnd (d a b : Fin 8) (s : State) : Result := s.pOp d a b fun x y => x && y
/-- `pset.or`. -/
def execPsetOr (d a b : Fin 8) (s : State) : Result := s.pOp d a b fun x y => x || y
/-- `pset.xor`. -/
def execPsetXor (d a b : Fin 8) (s : State) : Result := s.pOp d a b fun x y => x != y
/-- `pset.andn`. -/
def execPsetAndn (d a b : Fin 8) (s : State) : Result := s.pOp d a b fun x y => x && !y
/-- `pset.orn`. -/
def execPsetOrn (d a b : Fin 8) (s : State) : Result := s.pOp d a b fun x y => x || !y
/-- `pset.eq`. -/
def execPsetEq (d : Fin 8) (a : Fin 16) (o : KOpd) (s : State) : Result := s.kCmp d a o true fun x y => x == y
/-- `pset.ne`. -/
def execPsetNe (d : Fin 8) (a : Fin 16) (o : KOpd) (s : State) : Result := s.kCmp d a o true fun x y => x != y
/-- `pset.lt`. -/
def execPsetLt (d : Fin 8) (a : Fin 16) (o : KOpd) (s : State) : Result := s.kCmp d a o true fun x y => x.slt y
/-- `pset.ltn`. -/
def execPsetLtn (d : Fin 8) (a : Fin 16) (o : KOpd) (s : State) : Result := s.kCmp d a o false fun x y => x.ult y
/-- `pset.nz`. -/
def execPsetNz (d : Fin 8) (a : Fin 16) (s : State) : Result := .next (s.putP 1 d (s.readK a != 0#32))

/-- `rdsc`: PSC at issue, bits 31–0 (R160). -/
def execRdsc (d : Fin 16) (s : State) : Result := .next (s.putK 1 d (BitVec.ofNat 32 s.psc))

/-- `rdsc.hi`. -/
def execRdscHi (d : Fin 16) (s : State) : Result := .next (s.putK 1 d (BitVec.ofNat 32 (s.psc / 2 ^ 32)))

/-- The latch of the upper DCC half (R160). -/
def State.dccLatch (s : State) : W32 :=
  match s.cur with
  | .tile _ => s.tile.sr.latch
  | .svc q => (s.dev.svcs[q]).latch

/-- Latches the upper half of DCC (R160). -/
def State.latchDcc (s : State) : State :=
  let hi := BitVec.ofNat 32 (s.dev.dcc / 2 ^ 32)
  match s.cur with
  | .tile _ => s.onTile fun t => { t with sr := { t.sr with latch := hi } }
  | .svc q => s.onDev fun d => d.onSvc q fun c => { c with latch := hi }

/-- `rddcc`: DCC bits 31–0, and the tile latches the upper half (R160). -/
def execRddcc (d : Fin 16) (s : State) : Result := .next (s.latchDcc.putK 1 d (BitVec.ofNat 32 s.dev.dcc))

/-- `rddcc.hi`: the latched half. -/
def execRddccHi (d : Fin 16) (s : State) : Result := .next (s.putK 1 d s.dccLatch)

end Sys2Proof.Machine
end

