-- ==== Sys2Proof/Machine/Host.lean ====
section
/-! DEFINITION. The host ports (R345, R398–R408, R414): registers and windows, the lease between two hosts, a function-level reset, how a
TDI leaves its locked running state, interrupts and CXL accesses. -/

namespace Sys2Proof.Machine

/-! Aborting a vdev (R345, R414) -/

/-- A window that drains to a vdev stops and is scrubbed; the context slot it was to fill is scrubbed too (R345). A page of the slot that does
not translate keeps what it holds (log entry 27). -/
def Dev.stopDrain (d : Dev) (v : Vdev) (n : Fin 128) : Dev :=
  match (d.tiles[n]).drain with
  | some x =>
    if x.1 != v.num then d
    else
      let a := d.placerAsker v.bolt v.num 0#64
      let d1 := (d.clear (vaultKey n programArea) windowSize).onTile n fun t => { t with drain := none, drainWait := .no }
      (pieces (v.slotDva x.2) (2 ^ 21)).foldl (fun d y =>
        match d.reach v.bolt a y.1 .write false with
        | (d1, .point k) => ((d1.dropLines v.bolt k y.2).backRange k y.2).clear k y.2
        | (d1, _) => d1) d1
  | none => d

/-- Every panel of a vdev is aborted at whatever stage it is: its transfers end with a status, its tiles' flags go to their launches (R360), preloads,
drains and contexts are discarded and the tiles scrubbed (R345, R376, R414). What the placer has accepted from the tiles stays (R336). -/
def Dev.clearVdev (d : Dev) (v : Vdev) (status : Byte) : Dev :=
  let mine := fun (d : Dev) => d.panels.filter fun p => p.vdev == v.num
  let d0 := (mine d).foldl (fun d p => (d.noteCut p).endXfers p status) d
  let d1 := (mine d0).foldl Dev.dropPreload d0
  let d2 := (List.finRange 128).foldl (fun d n => d.stopDrain v n) d1
  (mine d2).foldl (fun d p => d.removePanel p false) d2

/-- Every launch of a vdev completes with RESET and without a completion record (R345), those too that SECURITY has completed in the same nanosecond
(R415). -/
def Dev.resetLaunches (d : Dev) (v : Vdev) : Dev :=
  let again := if v.securedAt = d.dcc then v.secured else []
  let overtaken := fun (l : Launch) => l.done && again.contains l.ctok
  let mend := fun (y : Vdev) (k : Fin 256) =>
    { y with ltoks := y.ltoks.set k { y.ltoks[k] with status := putField (y.ltoks[k]).status 0 16 9 } }
  let close := fun (y : Vdev) (l : Launch) =>
    let l1 := if overtaken l then { l with status := putField l.status 0 16 9 } else if l.done then l else l.failWith 9 0
    let t := y.ltoks[l.ctok]
    { y with ltoks := y.ltoks.set l.ctok { t with status := l1.status } }.closeLaunch l1
  let free := fun (r : Resv) => if r.vdev = v.num then { r with job := none, claim := [] } else r
  { d with resvs := d.resvs.map free }.onVdev v.num fun y => { (v.launches.foldl close (again.foldl mend y)) with slots := [], waitCr := .no }

/-- Whether an operation of a tile is a write to host memory that has not been sent (R414). -/
def Dev.hostWrite (d : Dev) (b : Fin 32) (space : Nat) (o : MemOp) : Bool :=
  o.kind.isGlobal && o.kind.writes && o.stage != .performed && match (d.walkFresh b space o.addr.toNat).1 with
    | .leaf _ pte => pteLoc pte != 0
    | .fault _ _ _ => false

/-- Whether a token's transfer has a chunk in hand that writes host memory. -/
def Dev.chunkToHost (d : Dev) (b : Fin 32) (space : Nat) (k : Token) : Bool :=
  k.st == .pending && k.xfer.any fun x => x.started && x.hostDst.any fun a => match (d.walkFresh b space a).1 with
    | .leaf _ pte => pteLoc pte != 0
    | .fault _ _ _ => false

/-- Whether a held line has bytes that a vdev has written and that are still to go to the host. -/
def SlcLine.unsentOf (l : SlcLine) (v : Nat) : Bool := l.copy.isSome && l.written != 0#128 && l.space == some v

/-- The unsent host writes of a vdev: of its tiles' operations, of the chunks in hand of its transfers, and of the lines that slices hold (R414). -/
def Dev.hostWrites (d : Dev) (v : Vdev) : Nat :=
  sumList ((d.panels.filter fun p => p.vdev == v.num).flatMap fun p => p.tiles.map fun n =>
    ((d.tiles[n]).ops.filter (d.hostWrite v.bolt v.num)).length + ((d.tiles[n]).toks.toList.filter (d.chunkToHost v.bolt v.num)).length)
    + sumList ((d.boltQuads v.bolt).map fun q => ((d.quads[q]).slc.filter fun l => l.unsentOf v.num).length)

/-- Drops the lines of a vdev's unsent host writes. -/
def Dev.dropUnsent (d : Dev) (v : Vdev) : Dev :=
  (d.boltQuads v.bolt).foldl (fun d q => d.onQuad q fun x => { x with slc := x.slc.filter fun l => !l.unsentOf v.num }) d

/-- What befalls a vdev whose TDI leaves its locked running state (R414). The launches that so complete are noted: a function-level reset of the same
nanosecond governs them (R415). -/
def Dev.secureVdev (d : Dev) (v : Vdev) : Dev :=
  let d1 := (d.onMc fun m => { m with hwdrop := satAdd m.hwdrop (d.hostWrites v) }).dropUnsent v
  let fails := (v.launches.filter fun l => !l.done && fieldOf l.status 0 8 == 0).map Launch.ctok
  ((d1.clearVdev v 9#8).failAll v.num 8).onVdev v.num fun y =>
    { y with slots := [], stopped := true, secured := if y.securedAt = d.dcc then y.secured ++ fails else fails, securedAt := d.dcc }

/-! Bindings and TDIs (R400, R413, R414) -/

/-- The vdev bound to a function. -/
def Dev.boundTo (d : Dev) (f : Fin 249) : Option Vdev :=
  let x := d.pf.fbind[f]
  if x.getLsbD 31 then d.vdev (fieldOf x 0 10) else none

/-- Changes the PF0 registers. -/
def Dev.onPf (d : Dev) (g : Pf → Pf) : Dev := { d with pf := g d.pf }

/-- Changes one TDI. -/
def Dev.onTdi (d : Dev) (f : Fin 249) (g : Tdi → Tdi) : Dev := d.onPf fun p => { p with tdis := p.tdis.set f (g p.tdis[f]) }

/-- Changes one stream of a port. -/
def HostPort.onStream (p : HostPort) (id : Nat) (g : Stream → Stream) : HostPort :=
  { p with streams := p.streams.map fun s => if s.id = id then g s else s }

/-- Deletes the keys of a stream (R412, R414); no request with the T bit is taken on it any more. -/
def Stream.wipe (s : Stream) : Stream := { s with prog := 0#2, active := false }

/-- A TDI reaches CONFIG_UNLOCKED, and its vdev's spools accept again (R414). -/
def Dev.unlockTdi (d : Dev) (f : Fin 249) : Dev :=
  let d1 := d.onTdi f fun t => { t with st := .unlocked }
  (d1.boundTo f).elim d1 fun v => d1.onVdev v.num fun y => { y with stopped := false }

/-- A TDI leaves its state for ERROR or CONFIG_UNLOCKED; from RUN, R414 applies. -/
def Dev.leaveTdi (d : Dev) (f : Fin 249) (to_ : TdiSt) : Dev :=
  let t := d.pf.tdis[f]
  let d1 := if t.st == .run then
      let d1 := d.onPort t.port fun p => p.onStream t.stream Stream.wipe
      (d1.boundTo f).elim d1 d1.secureVdev
    else d
  if to_ == .unlocked then d1.unlockTdi f else d1.onTdi f fun t => { t with st := to_ }

/-- A change to what a TDI has frozen: refused, and from CONFIG_LOCKED or RUN the TDI moves to ERROR (R413). -/
def Dev.frozenChange (d : Dev) (f : Fin 249) : Dev :=
  match (d.pf.tdis[f]).st with
  | .locked | .run => d.leaveTdi f .error
  | _ => d

/-- Whether a TDI freezes the binding and windows of its function (R400, R401). -/
def Dev.frozenFn (d : Dev) (f : Fin 249) : Bool := (d.pf.tdis[f]).st != .unlocked

/-- The valid bits of FBIND. -/
def fbindMask : W32 := 0x800003ff#32

/-- Whether a vdev is bound to a function other than `f`. -/
def Dev.boundElsewhere (d : Dev) (f : Fin 249) (v : Nat) : Bool :=
  (List.finRange 249).any fun g => g != f && (d.pf.fbind[g]).getLsbD 31 && fieldOf d.pf.fbind[g] 0 10 == v

/-- FBIND_WRITE (R400, R413). A write with VALID clear names no vdev (log entry 33). A bound vdev that a takeover collapsed may wake again
(R408). -/
def execFbindWrite (_ : Fin 2) (f : Fin 249) (x : BitVec 32) (s : State) : Result :=
  .next (s.onDev fun d =>
    let v := fieldOf x 0 10
    if d.frozenFn f then d.frozenChange f
    else if x.getLsbD 31 && ((d.vdev v).isNone || d.boundElsewhere f v) then d
    else
      let d1 := d.onPf fun p => { p with fbind := p.fbind.set f (x &&& fbindMask) }
      if x.getLsbD 31 then d1.onVdev v fun y => { y with parked := false } else d1)

/-- The function whose TDI freezes a vdev: the one it is bound to, unless that is unlocked (R413). -/
def Dev.frozenBy (d : Dev) (n : Nat) : Option (Fin 249) := (List.finRange 249).find? fun f => d.frozenFn f && (d.boundTo f).any fun v => v.num == n

/-- PLC_VDESTROY (R365): completion records that cannot be written at once are lost with the vdev. A vdev that a TDI freezes is busy, and the TDI
moves to ERROR (R413; the status: log entry 29). -/
def execPlcVdestroy (c : Caller) (arg : BitVec 64) (s : State) : Result :=
  s.plcRun c fun b =>
    let n := arg.toNat
    match s.dev.vdev n with
    | none => s.plcDone c 2
    | some v =>
      if v.bolt != b then s.plcForeign c
      else if let some f := s.dev.frozenBy n then (s.onDev fun d => d.frozenChange f).plcDone c 5
      else if v.holdsCut then s.plcDone c 5
      else
        let d0 := (s.dev.panels.filter fun p => p.vdev == n).foldl Dev.dropPreload s.dev
        let d1 := Dev.reportAll n v.launches.length (d0.failAll n 9)
        let d2 := { d1 with vdevs := d1.vdevs.filter fun x => x.num != n, resvs := d1.resvs.filter fun r => r.vdev != n,
                              posted := d1.posted.filter fun x => x.vdev != n }
        ({ s with dev := d2 } : State).plcDone c 0

/-! Windows (R401, R402) -/

/-- VALID of a window. -/
def Window.valid (w : Window) : Bool := w.baroff.getLsbD 0

/-- First byte of a window in BAR2. -/
def Window.lo (w : Window) : Nat := fieldOf w.baroff 21 15 * 2 ^ 21

/-- Bytes of a window. -/
def Window.bytes (w : Window) : Nat := fieldOf w.attr 32 16 * 2 ^ 21

/-- BPA of a window's first byte. -/
def Window.bpa (w : Window) : Nat := fieldOf w.attr 0 17 * 2 ^ 21

/-- BOLT of a window. -/
def Window.bolt (w : Window) : Nat := fieldOf w.attr 48 8

/-- Whether two windows overlap. -/
def Window.meets (a b : Window) : Bool := decide (a.lo < b.lo + b.bytes) && decide (b.lo < a.lo + a.bytes)

/-- The windows of a function. -/
def Dev.windowsOf (d : Dev) (f : Fin 249) : List Window := (List.range 4).map fun k => d.pf.windows[idx 996 (4 * f.val + k)]

/-- Whether a window keeps VALID (R401). -/
def Dev.windowOk (d : Dev) (k : Fin 996) (w : Window) : Bool :=
  let f := k.val / 4
  let others := (List.range 4).filterMap fun j =>
    if 4 * f + j = k.val then none else some (d.pf.windows[idx 996 (4 * f + j)])
  decide (0 < w.bytes) && decide (w.lo + w.bytes ≤ 2 ^ 36) && decide (w.bolt < 32) && d.boltValid (idx 32 w.bolt)
    && decide (w.bpa + w.bytes ≤ (d.boltQuads (idx 32 w.bolt)).length * 2 ^ 33) && others.all fun o => !o.valid || !w.meets o

/-- WINDOW_DESCRIPTOR_WRITE (R401, R413). -/
def execWindowDescriptorWrite (_ : Fin 2) (w : Fin 996) (lo hi : BitVec 64) (s : State) : Result :=
  .next (s.onDev fun d =>
    let f := idx 249 (w.val / 4)
    let x : Window := { baroff := lo &&& 0x0000000fffe00003#64, attr := hi &&& 0x00ffffff0001ffff#64 }
    let y : Window := if d.windowOk w x then x else { x with baroff := setBit x.baroff 0 false }
    if d.frozenFn f then d.frozenChange f else d.onPf fun p => { p with windows := p.windows.set w y })

/-- The valid window that contains a whole access. -/
def Dev.windowAt (d : Dev) (f : Fin 249) (x n : Nat) : Option Window :=
  (d.windowsOf f).find? fun w => w.valid && decide (w.lo ≤ x) && decide (x + n ≤ w.lo + w.bytes)

/-- The memory keys of a BPA range of a bolt, line by line. -/
def Dev.bpaPieces (d : Dev) (b : Fin 32) (a n : Nat) : List (Nat × Nat) :=
  (linePieces (n / 128 + 2) a n).filterMap fun p => (d.bpaKey b p.1).map fun k => (k, p.2)

/-- Reads lines at their slices. -/
def Dev.hostRead (b : Fin 32) : List (Nat × Nat) → Dev → Dev × List Byte
  | [], d => (d, [])
  | p :: r, d =>
    let x := d.pointRead b p.1 p.2 0#2 true
    let y := Dev.hostRead b r x.1
    (y.1, x.2 ++ y.2)

/-- Writes lines at their slices. -/
def Dev.hostWriteLines (b : Fin 32) : List (Nat × Nat) → List Byte → Dev → Dev
  | [], _, d => d
  | p :: r, bs, d => Dev.hostWriteLines b r (bs.drop p.2) (d.pointWrite b p.1 (bs.take p.2) 0#2 true)

/-- HOST_WINDOW_READ (R402, R413). -/
def execHostWindowRead (port : Fin 2) (f : Fin 249) (x n : Nat) (tbit : Option Nat) (s : State) : Result :=
  .next (s.onDev fun d =>
    match (if d.fnOpen port f tbit then d.windowAt f x n else none) with
    | some w =>
      let b := idx 32 w.bolt
      let y := Dev.hostRead b (d.bpaPieces b (w.bpa + (x - w.lo)) n) d
      y.1.answerRead port (some y.2)
    | none => d.answerRead port none)

/-- HOST_WINDOW_WRITE (R402, R413). A TLP without the T bit that RUN requires is answered with Unsupported Request and writes nothing. -/
def execHostWindowWrite (port : Fin 2) (f : Fin 249) (x : Nat) (data : List (BitVec 8)) (tbit : Option Nat) (s : State) : Result :=
  .next (s.onDev fun d =>
    if !d.fnOpen port f tbit then d.answerRead port none
    else match (d.windowAt f x data.length).filter fun w => w.baroff.getLsbD 1 with
      | some w =>
        let b := idx 32 w.bolt
        Dev.hostWriteLines b (d.bpaPieces b (w.bpa + (x - w.lo)) data.length) data d
      | none => d.hwdrop)

/-- The memory keys of an access through the HDM decoders of PF0 (R402): DPA = q × 8 GiB + channel offset. -/
def HostPort.hdmKeys (p : HostPort) (hpa n : Nat) : Option (List (Nat × Nat)) :=
  match p.hdm.toList.find? fun h => decide (h.base.toNat ≤ hpa) && decide (hpa + n ≤ h.base.toNat + h.size.toNat) with
  | none => none
  | some h =>
    let a := h.dpa.toNat + (hpa - h.base.toNat)
    if a + n ≤ 2 ^ 38 then some ((linePieces (n / 128 + 2) a n).map fun x => (2 ^ 40 + x.1, x.2)) else none

/-- CXL_MEM_ACCESS (R402): a read or write of a device physical address through its slice. An access that no decoder of a CXL port takes, or to
a quad in no valid bolt, which is gated (R349), is answered as outside every window (log entry 34). -/
def execCxlMemAccess (port : Fin 2) (hpa n : Nat) (data : Option (List (BitVec 8))) (s : State) : Result :=
  .next (s.onDev fun d =>
    let p := d.ports[port]
    let len := data.elim n List.length
    match (if p.cxl then p.hdmKeys hpa len else none) with
    | some (x :: r) =>
      match d.boltOfQuad (dramQuad x.1), data with
      | some b, none =>
        let y := Dev.hostRead b (x :: r) (d.onPort port fun p => { p with held := ((x :: r).map fun z => z.1 / 128) ++ p.held })
        y.1.answerRead port (some y.2)
      | some b, some bs => Dev.hostWriteLines b (x :: r) bs d
      | none, none => d.answerRead port none
      | none, some _ => d.hwdrop
    | _ => if data.isSome then d.hwdrop else d.answerRead port none)

/-- CXL_CACHE_SNOOP (R296): the slice that holds a host line of a CXL port gives it up, or keeps it clean. -/
def execCxlCacheSnoop (port : Fin 2) (addr : Nat) (inv : Bool) (s : State) : Result :=
  .next (s.onDev fun d =>
    let line := hostKey port addr / 128
    let clean := fun (q : Quad) => { q with slc := q.slc.map fun l => if l.key = line then { l with dirty := false } else l }
    if (d.ports[port]).cxl then (List.finRange 32).foldl (fun d q => if inv then d.slcDrop q line else d.onQuad q clean) d
    else d)

/-- MSIX_VECTOR_UNMASK (R406): the pending message of the vector is sent. -/
def execMsixVectorUnmask (port : Fin 2) (f : Fin 249) (vec : Nat) (s : State) : Result :=
  .next (s.onDev fun d =>
    let p := d.ports[port]
    let other := fun (x : Nat × Nat) => x != (f.val, vec)
    let d1 := d.onPort port fun p => { p with masked := p.masked.filter other, pend := p.pend.filter other }
    if p.pend.contains (f.val, vec) && p.masked.contains (f.val, vec) then { d1 with outs := .msix port f.val vec :: d1.outs } else d1)

/-! Registers without a row of their own (R6, R355, R403, R441) -/

/-- BUSY, bit 31 of STAT. -/
def busyBit : W32 := 0x80000000#32

/-- Whether the control path runs a command. -/
def Pf.ctlBusy (p : Pf) : Bool := p.cstat.getLsbD 31

/-- Whether the mailbox runs a function. -/
def Pf.mailBusy (p : Pf) : Bool := p.mstat.getLsbD 31

/-- The MC functions that the host has (R442). -/
def hostFns : List Nat := [0x01, 0x02, 0x03, 0x04, 0x05, 0x10, 0x11, 0x12, 0x20, 0x21]

/-- A mailbox function ends: RESULT, STATUS, and PF0 vector 1 (R406, R441). -/
def Dev.mailDone (d : Dev) (status result : Nat) : Dev :=
  (d.onPf fun p => { p with mres := BitVec.ofNat 64 result, mstat := BitVec.ofNat 32 status }).msix d.pf.active 0 1

/-- CMDW of the control path (R365, R403): it starts a command, or answers status 1. -/
def Dev.writeCmd (d : Dev) (x : W64) : Dev :=
  let w : W32 := x.setWidth 32
  let known := decide (1 ≤ fieldOf w 0 8) && decide (fieldOf w 0 8 ≤ 7) && fieldOf w 13 19 == 0
  if d.pf.ctlBusy then d.hwdrop
  else d.onPf fun p => { p with cmdw := w, cstat := if known then busyBit else 1#32 }

/-- FN of the mailbox (R441): it starts a function, or answers status 1. -/
def Dev.writeFn (d : Dev) (x : W64) : Dev :=
  let d1 := d.onPf fun p => { p with mfn := x, mstat := busyBit }
  if hostFns.contains x.toNat then d1 else d1.mailDone 1 0

/-- A write to the mailbox while nothing runs there. -/
def Dev.mailWrite (d : Dev) (port : Fin 2) (f : Dev → Dev) : Dev := if port != d.pf.active || d.pf.mailBusy then d.hwdrop else f d

/-- A write to the control path. -/
def Dev.ctlWrite (d : Dev) (port : Fin 2) (f : Dev → Dev) : Dev := if port != d.pf.active then d.hwdrop else f d

/-- REGISTER_WRITE (R6): the RW fields take the value, reserved ones ignore it; an offset that is not listed ignores the write. A write to RESULT or
STAT changes nothing, and is counted where R441 counts any write. -/
def execRegisterWrite (req : PageReq) (r : HostReg) (x : BitVec 64) (s : State) : Result :=
  let port := req.port
  match r with
  | .eqHead v => s.pageWrite req v fun d => d.onVdev v fun y => { y with eqhead := x.setWidth 32 }
  | .eqCtl v => s.pageWrite req v fun d => d.onVdev v fun y => { y with eqctl := x.setWidth 32 &&& 1#32 }
  | .ctlBuf w => .next (s.onDev fun d => d.ctlWrite port fun d => d.onPf fun p => { p with cbuf := putField p.cbuf (64 * w.val) 64 x.toNat })
  | .ctlCmd => .next (s.onDev fun d => d.ctlWrite port fun d => d.writeCmd x)
  | .mailArg => .next (s.onDev fun d => d.mailWrite port fun d => d.onPf fun p => { p with marg := x })
  | .mailFn => .next (s.onDev fun d => d.mailWrite port fun d => d.writeFn x)
  | .mailBuf w => .next (s.onDev fun d => d.mailWrite port fun d =>
      d.onPf fun p => { p with mbuf := memWriteList p.mbuf (8 * w.val) (leBytes 8 x.toNat) })
  | .mailRes | .mailStat => .next (s.onDev fun d => d.mailWrite port id)
  | .other _ => .next s

/-! The lease (R407, R408) -/

/-- LEASEX_WRITE (R407): the standby port's write is ignored. -/
def execLeasexWrite (port : Fin 2) (x : BitVec 64) (s : State) : Result :=
  .next (s.onDev fun d => if port == d.pf.active then d.onPf fun p => { p with leasex := x } else d)

/-- LEASECTL_WRITE (R407): TAKEN is cleared by a 1; ARM is written through the standby port only. -/
def execLeasectlWrite (port : Fin 2) (x : BitVec 32) (s : State) : Result :=
  .next (s.onDev fun d => d.onPf fun p =>
    { p with taken := p.taken && !x.getLsbD 7, arm := if port == p.active then p.arm else x.getLsbD 4 })

/-- Whether the lease has run out with a takeover armed (R408). -/
def Dev.leaseOver (d : Dev) : Bool := d.pf.arm && decide (d.pf.leasex.toNat ≤ d.dcc)

/-- The open HOSTPRQ faults of a port close with failure and its ATC is emptied; the entries of its page-request table stay for their responses
(R395, R408). -/
def Dev.closePort (d : Dev) (port : Fin 2) : Dev :=
  let es := (d.ports[port]).prg
  let d1 := d.onPort port fun p => { p with atc := [] }
  (List.finRange 32).foldl (fun d b => d.closeFaults b (fun f => es.any fun e => e.bolt == b && e.fault == f.id) false) d1

/-- A bound vdev at a takeover (R408): where the new port has not enabled its VF, it loses the binding, collapses and stays so until it is
bound again. -/
def Dev.rebind (new : Fin 2) (d : Dev) (f : Fin 249) : Dev :=
  match d.boundTo f with
  | none => d
  | some v =>
    if f.val ≤ (d.ports[new]).enabled then d
    else
      let d1 := d.onPf fun p => { p with fbind := p.fbind.set f (setBit p.fbind[f] 31 false) }
      (d1.onVdev v.num fun y => { y with parked := true }).startCollapse v.num

/-- LEASE_TAKEOVER (R408). -/
def execLeaseTakeover (s : State) : Result :=
  .next (s.onDev fun d =>
    if !d.leaseOver then d
    else
      let old := d.pf.active
      let new : Fin 2 := if old = 0 then 1 else 0
      let d1 := d.onPf fun p => { p with active := new, arm := false, taken := true }
      (((List.finRange 249).foldl (Dev.rebind new) d1).closePort old).msix new 0 0)

/-! Function-level reset (R345, R353, R413) -/

/-- FUNCTION_LEVEL_RESET (R345, R353, R413, R415): what a VF's vdev runs is aborted at whatever stage it is, its launches complete with RESET, its
generation advances, the function's ATC entries are removed (R394), and its TDI becomes CONFIG_UNLOCKED. The vdev is that of the function of the
active port (R408). -/
def execFunctionLevelReset (port : Fin 2) (f : Fin 249) (s : State) : Result :=
  .next (s.onDev fun d =>
    let d1 := match (if port == d.pf.active then d.boundTo f else none) with
      | some v =>
        let d1 := d.clearVdev v 5#8
        let d2 := { d1 with posted := d1.posted.filter fun x => x.vdev != v.num }
        let now := (d2.vdev v.num).getD v
        ((d2.resetLaunches now).nextGen v.bolt v.num).onVdev v.num fun y => { y with stopped := false, secured := [] }
      | none => d
    let d1 := d1.onPort port fun p => { p with atc := p.atc.filter fun e => e.fn != f.val }
    if (d1.pf.tdis[f]).port == port then d1.unlockTdi f else d1)

end Sys2Proof.Machine
end

