-- ==== Sys2Proof/Machine/Security.lean ====
section
/-! DEFINITION. SPDM, IDE and TDISP (R409–R415), and the seam links (R416–R419). -/

namespace Sys2Proof.Machine

/-! SPDM (R409–R411) -/

/-- What the responder answers; the numbers are the model's names, not the wire's. -/
def spdmOk : Nat := 0
/-- ERROR InvalidRequest. -/
def spdmInvalid : Nat := 1
/-- ERROR Unspecified. -/
def spdmUnspecified : Nat := 2
/-- Any other refusal of a request; the spec names no ERROR code for it (log entry 35). -/
def spdmRefused : Nat := 3

/-- Answers an SPDM request. -/
def Dev.spdm (d : Dev) (port : Fin 2) (code : Nat) : Dev := { d with outs := .spdm port code :: d.outs }

/-- SPDM_NEGOTIATE_ALGORITHMS (R409): every item's selection must be among the requester's offers. -/
def execSpdmNegotiateAlgorithms (port : Fin 2) (o : SpdmOffer) (s : State) : Result :=
  .next (s.onDev fun d =>
    if o.hash && o.baseAsym && o.extAsym && o.dhe && o.aead && o.keySchedule then
      (d.onPort port fun p => { p with negotiated := true }).spdm port spdmOk
    else d.spdm port spdmInvalid)

/-- A signed answer (R410): it uses one leaf, which is committed first; without a leaf the request is answered with Unspecified. An unnegotiated
connection is refused, and so is a request for which there is no room. -/
def Dev.sign (d : Dev) (port : Fin 2) (room : Bool) (f : Dev → Dev) : Dev :=
  if !(d.ports[port]).negotiated then d.spdm port spdmRefused
  else if d.mc.xmssrem = 0 then d.spdm port spdmUnspecified
  else if !room then d.spdm port spdmRefused
  else (f (d.onMc fun m => { m with xmssrem := m.xmssrem - 1 })).spdm port spdmOk

/-- SPDM_CHALLENGE (R410). -/
def execSpdmChallenge (port : Fin 2) (s : State) : Result := .next (s.onDev fun d => d.sign port true id)

/-- The interface report of a VF, which its measurement block holds: BAR0 and the valid windows, each by its first byte in its BAR and its length
(R410, R413). -/
def Dev.interfaceReport (d : Dev) (port : Fin 2) (block : Nat) : Dev :=
  if 0x11 ≤ block ∧ block < 0x10 + 249 then
    let windows := (d.windowsOf (idx 249 (block - 0x10))).filter Window.valid
    { d with outs := .report port block ((0#64, 4096#64) :: windows.map fun w => (BitVec.ofNat 64 w.lo, BitVec.ofNat 64 w.bytes)) :: d.outs }
  else d

/-- SPDM_GET_MEASUREMENTS (R410): only a signed answer spends a leaf. -/
def execSpdmGetMeasurements (req : MeasReq) (s : State) : Result :=
  .next (s.onDev fun d =>
    let report := fun (d : Dev) => d.interfaceReport req.port req.block
    if req.signed then d.sign req.port true report
    else if (d.ports[req.port]).negotiated then (report d).spdm req.port spdmOk
    else d.spdm req.port spdmRefused)

/-- A new session. -/
def Session.new (id dcc : Nat) : Session where
  id := id
  last := dcc
  recs := Vector.replicate 2 0
  keys := 0

/-- SPDM_KEY_EXCHANGE (R410, R411): a port holds at most four sessions. -/
def execSpdmKeyExchange (port : Fin 2) (s : State) : Result :=
  .next (s.onDev fun d =>
    d.sign port (decide ((d.ports[port]).sessions.length < 4)) fun d => d.onPort port fun p =>
      { p with sessions := p.sessions ++ [Session.new p.nextSession d.dcc], nextSession := p.nextSession + 1 })

/-- A session of a port. -/
def HostPort.session (p : HostPort) (id : Nat) : Option Session := p.sessions.find? fun x => x.id == id

/-- Changes a session. -/
def HostPort.onSession (p : HostPort) (id : Nat) (f : Session → Session) : HostPort :=
  { p with sessions := p.sessions.map fun x => if x.id = id then f x else x }

/-- A valid secured message and its answer: each direction's key has protected one more record. -/
def Session.message (x : Session) (dcc : Nat) : Session := { x with last := dcc, recs := x.recs.map (· + 1) }

/-- Handles a secured message of a session, or refuses one of a session that is not there. -/
def Dev.secured (d : Dev) (port : Fin 2) (id : Nat) (f : Dev → Dev) : Dev :=
  if ((d.ports[port]).session id).isNone then d.spdm port spdmRefused
  else f (d.onPort port fun p => p.onSession id fun x => x.message d.dcc)

/-- SPDM_HEARTBEAT (R411). -/
def execSpdmHeartbeat (port : Fin 2) (id : Nat) (s : State) : Result :=
  .next (s.onDev fun d => d.secured port id fun d => d.spdm port spdmOk)

/-- SPDM_KEY_UPDATE (R411): new keys have protected no record. -/
def execSpdmKeyUpdate (port : Fin 2) (id : Nat) (s : State) : Result :=
  .next (s.onDev fun d => d.secured port id fun d =>
    (d.onPort port fun p => p.onSession id fun x => { x with recs := Vector.replicate 2 0, keys := x.keys + 1 }).spdm port spdmOk)

/-- Whether a session locked a TDI. -/
def Tdi.of (t : Tdi) (port : Fin 2) (id : Nat) : Bool := (t.st == .locked || t.st == .run) && t.port == port && t.session == id

/-- A session ends: its TDIs leave their states by R414, a locked one for ERROR as TDISP lays down (log entry 35). -/
def Dev.closeSession (d : Dev) (port : Fin 2) (id : Nat) : Dev :=
  let d1 := d.onPort port fun p => { p with sessions := p.sessions.filter fun x => x.id != id }
  ((List.finRange 249).filter fun f => (d.pf.tdis[f]).of port id).foldl (fun d f => d.leaveTdi f .error) d1

/-- SPDM_END_SESSION (R411). -/
def execSpdmEndSession (port : Fin 2) (id : Nat) (s : State) : Result :=
  .next (s.onDev fun d => d.secured port id fun d => (d.closeSession port id).spdm port spdmOk)

/-- Two heartbeat periods in ns. -/
def sessionSilence : Nat := 120000000000

/-- Whether a session has expired (R411). -/
def Session.expired (x : Session) (dcc : Nat) : Bool := decide (x.last + sessionSilence ≤ dcc) || x.recs.any fun n => decide (2 ^ 32 ≤ n)

/-- SESSION_EXPIRY (R411). -/
def execSessionExpiry (port : Fin 2) (id : Nat) (s : State) : Result :=
  .next (s.onDev fun d =>
    match (d.ports[port]).session id with
    | some x => if x.expired d.dcc then d.closeSession port id else d
    | none => d)

/-! IDE (R412) -/

/-- Programs one direction of a stream. -/
def HostPort.program (p : HostPort) (stream : Nat) (tx : Bool) : HostPort :=
  let dir := if tx then 0 else 1
  if p.streams.any fun s => s.id == stream then p.onStream stream fun s => { s with prog := setBit s.prog dir true }
  else { p with streams := p.streams ++ [{ id := stream, prog := setBit 0#2 dir true, active := false, secure := false }] }

/-- Whether a port has room for a stream: the link stream and 64 selective ones (R398). -/
def HostPort.streamRoom (p : HostPort) (stream : Nat) : Bool :=
  stream == 0 || (p.streams.any fun s => s.id == stream) || decide ((p.streams.filter fun s => s.id != 0).length < 64)

/-- IDE_KM_KEY_PROG (R412). -/
def execIdeKmKeyProg (port : Fin 2) (id stream : Nat) (tx : Bool) (s : State) : Result :=
  .next (s.onDev fun d => d.secured port id fun d =>
    if (d.ports[port]).streamRoom stream then (d.onPort port fun p => p.program stream tx).spdm port spdmOk else d.spdm port spdmRefused)

/-- IDE_KM_K_SET_GO (R412): refused until both directions' keys have been programmed. -/
def execIdeKmKSetGo (port : Fin 2) (id stream : Nat) (s : State) : Result :=
  .next (s.onDev fun d => d.secured port id fun d =>
    if (d.ports[port]).streams.any fun s => s.id == stream && s.prog == 3#2 then
      (d.onPort port fun p => p.onStream stream fun s => { s with active := true, secure := true }).spdm port spdmOk
    else d.spdm port spdmRefused)

/-- Whether a TDI is bound to a stream: one that is locked or runs, by the stream that locked it. -/
def Tdi.boundStream (t : Tdi) (port : Fin 2) (stream : Nat) : Bool := (t.st == .locked || t.st == .run) && t.port == port && t.stream == stream

/-- IDE_INTEGRITY_FAILURE (R412): the stream is insecure, and every TDI bound to it enters ERROR. -/
def execIdeIntegrityFailure (port : Fin 2) (stream : Nat) (s : State) : Result :=
  .next (s.onDev fun d =>
    let bound := (List.finRange 249).filter fun f => (d.pf.tdis[f]).boundStream port stream
    bound.foldl (fun d f => d.leaveTdi f .error) (d.onPort port fun p => p.onStream stream fun s => { s with secure := false }))

/-! TDISP (R413) -/

/-- LOCK_INTERFACE (R413): a VF whose vdev is bound; it binds the TDI to the stream that it names (log entry 35). -/
def execLockInterface (via : SecReq) (stream : Nat) (f : Fin 249) (s : State) : Result :=
  .next (s.onDev fun d => d.secured via.port via.session fun d =>
    if f = 0 || (d.pf.tdis[f]).st != .unlocked || (d.boundTo f).isNone then d.spdm via.port spdmRefused
    else (d.onTdi f fun t => { t with st := .locked, port := via.port, session := via.session, stream := stream }).spdm via.port spdmOk)

/-- START_INTERFACE (R413): over the selective stream that the TDI is bound to, once that is keyed, in the session that locked the TDI. -/
def execStartInterface (port : Fin 2) (id stream : Nat) (f : Fin 249) (s : State) : Result :=
  .next (s.onDev fun d => d.secured port id fun d =>
    let t := d.pf.tdis[f]
    let keyed := stream != 0 && (d.ports[port]).streams.any fun s => s.id == stream && s.active && s.secure
    if t.st == .locked && t.port == port && t.session == id && t.stream == stream && keyed then
      (d.onTdi f fun t => { t with st := .run }).spdm port spdmOk
    else d.spdm port spdmRefused)

/-- STOP_INTERFACE (R413, R414), a secured message of a session. -/
def execStopInterface (via : SecReq) (f : Fin 249) (s : State) : Result :=
  .next (s.onDev fun d => d.secured via.port via.session fun d =>
    if (d.pf.tdis[f]).port == via.port && f != 0 then (d.leaveTdi f .unlocked).spdm via.port spdmOk else d.spdm via.port spdmRefused)

/-! Seam links (R416–R418) -/

/-- Flits a receive buffer holds. -/
def rxSize : Nat := 512

/-- A field of a flit's bytes (R417). -/
def flitFld (f : FlitIn) (off n : Nat) : Nat := recField f.raw off n

/-- SEQ of a flit. -/
def flitSeq (f : FlitIn) : Nat := flitFld f 0 2 % 4096

/-- TYPE of a flit: 0 data, 1 ACK, 2 NAK, 3 idle. -/
def flitType (f : FlitIn) : Nat := field (flitFld f 0 2) 12 2

/-- ACKSEQ of a flit: the last SEQ that the sender of the flit has received in order. -/
def flitAckSeq (f : FlitIn) : Nat := flitFld f 2 2 % 4096

/-- Whether a flit passes its checks: CRC-32C over its bytes up to the CRC, and its MAC, whose failure counts as that of the CRC. -/
def flitGood (f : FlitIn) : Bool := flitFld f 0xac 4 == (crc32c (leBytes 0xac (flitFld f 0 0xac))).toNat && f.macOk

/-- The message of a data flit. -/
def flitOf (f : FlitIn) : SeamFlit where
  seq := flitSeq f
  sdev := flitFld f 4 1
  sbolt := flitFld f 5 1
  stile := flitFld f 6 1
  sem := idx 16 (flitFld f 7 1)
  big := bit (flitFld f 7 1) 4
  far := BitVec.ofNat 64 (flitFld f 8 8)
  data := BitVec.ofNat 1024 (flitFld f 0x18 128)

/-- Puts a flit on a seam link. -/
def Dev.say (d : Dev) (p : Fin 8) (raw : BitVec 1408) : Dev := { d with outs := .flit p raw :: d.outs }

/-- Answers with an acknowledgement, or a NAK of the expected SEQ, of what the port has received (R417, R418). -/
def Dev.answerFlit (d : Dev) (p : Fin 8) (nak : Bool) : Dev := d.say p (flitRaw p ((d.seams[p]).control d.mc.config.spdev nak))

/-- Frees the flits of a replay buffer up to the one with a SEQ. -/
def SeamPort.ackTo (x : SeamPort) (seq dcc : Nat) : SeamPort :=
  match x.replay.findIdx? fun f => f.seq == seq with
  | some i => { x with replay := x.replay.drop (i + 1), naks := 0, silent := 0, timer := dcc + ackPeriod }
  | none => { x with silent := 0, timer := dcc + ackPeriod }

/-- Changes a seam port; the messages that leave its replay buffer so are over for their tiles. -/
def Dev.freeing (d : Dev) (p : Fin 8) (f : SeamPort → SeamPort) : Dev :=
  let d1 := d.onSeam p f
  d1.endFars ((d.seams[p]).replay.filter fun x => !(d1.seams[p]).replay.contains x)

/-- An acknowledgement of every flit up to a SEQ (R418). -/
def Dev.acked (d : Dev) (p : Fin 8) (seq : Nat) : Dev := d.freeing p fun x => x.ackTo seq d.dcc

/-- SEAM_ACK_RECEIVE (R418). -/
def execSeamAckReceive (p : Fin 8) (seq : Nat) (s : State) : Result :=
  .next (s.onDev fun d => if (d.seams[p]).up then d.acked p seq else d)

/-- Sends the flits of a replay buffer again. -/
def Dev.resendAll (d : Dev) (p : Fin 8) : Dev := (d.seams[p]).replay.foldl (fun d f => d.say p (f.raw p d.seams[p])) d

/-- A NAK of a SEQ (R418): what lies before the expected SEQ has been received; the sender replays from it. -/
def Dev.naked (d : Dev) (p : Fin 8) (seq : Nat) : Dev :=
  let x := d.seams[p]
  if x.retrain.isSome then d
  else
    let count := fun (x : SeamPort) => if x.naks != 0 && x.nakSeq == seq then { x with naks := x.naks + 1 } else { x with naks := 1, nakSeq := seq }
    let free := fun (x : SeamPort) => { x with replay := x.replay.dropWhile fun f => f.seq != seq }
    let known := seq == x.txSeq || x.replay.any fun f => f.seq == seq
    if known then (d.freeing p fun x => count (free x)).resendAll p else d.onSeam p count

/-- SEAM_NAK_RECEIVE (R418). -/
def execSeamNakReceive (p : Fin 8) (seq : Nat) (s : State) : Result :=
  .next (s.onDev fun d => if (d.seams[p]).up then d.naked p seq else d)

/-- A data flit that has passed its checks (R416, R418): the next in order is accepted and acknowledged; a gap or a full buffer is answered with a NAK
of the expected SEQ, and a flit that has been received before only with an acknowledgement. A flit for another device is dropped and counted. -/
def Dev.dataFlit (d : Dev) (p : Fin 8) (f : SeamFlit) : Dev :=
  let x := d.seams[p]
  let ahead := (f.seq + 4096 - x.rxSeq % 4096) % 4096
  if 2048 ≤ ahead then d.answerFlit p false
  else if ahead != 0 || rxSize ≤ x.rx.length then d.answerFlit p true
  else
    let foreign := farDev f.far != d.mc.config.spdev
    let d1 := d.onSeam p fun x => { x with rxSeq := (x.rxSeq + 1) % 4096, rx := if foreign then x.rx else x.rx ++ [f] }
    (if foreign then d1.onMc fun m => { m with spdrop := satAdd m.spdrop 1 } else d1).answerFlit p false

/-- SEAM_FLIT_RECEIVE (R416–R418): a failed check is answered with a NAK of the expected SEQ. Every good flit acknowledges up to its ACKSEQ; one of
TYPE NAK names the expected SEQ in SEQ (log entry 81). -/
def execSeamFlitReceive (p : Fin 8) (fl : FlitIn) (s : State) : Result :=
  .next (s.onDev fun d =>
    let x := d.seams[p]
    if !x.up || x.retrain.isSome then d
    else if !flitGood fl then d.answerFlit p true
    else
      let d1 := if flitType fl = 1 ∨ x.replay.any (fun f => f.seq == flitAckSeq fl) then d.acked p (flitAckSeq fl) else d
      match flitType fl with
      | 0 => d1.dataFlit p (flitOf fl)
      | 2 => d1.naked p (flitSeq fl)
      | _ => d1)

/-- Whether a port's unacknowledged flits have waited a whole period. -/
def SeamPort.silentNow (x : SeamPort) (dcc : Nat) : Bool := x.up && x.retrain.isNone && !x.replay.isEmpty && decide (x.timer ≤ dcc)

/-- SEAM_ACK_TIMEOUT (R418). -/
def execSeamAckTimeout (p : Fin 8) (s : State) : Result :=
  .next (s.onDev fun d =>
    if (d.seams[p]).silentNow d.dcc then d.onSeam p fun x => { x with silent := x.silent + 1, timer := x.timer + ackPeriod } else d)

/-- Whether a link has to retrain (R418). -/
def SeamPort.broken (x : SeamPort) : Bool := x.up && x.retrain.isNone && (decide (16 ≤ x.naks) || decide (16 ≤ x.silent))

/-- Longest retraining in ns (R418). -/
def retrainLimit : Nat := 1000000

/-- LINK_RETRAIN (R418). -/
def execLinkRetrain (p : Fin 8) (s : State) : Result :=
  .next (s.onDev fun d =>
    if (d.seams[p]).broken then d.onSeam p fun x => { x with retrain := some (d.dcc + retrainLimit), naks := 0, silent := 0 } else d)

/-- RETRAIN_END (R418): the link works again and its unacknowledged flits are sent again, or the port is down and they are dropped and
counted. -/
def execRetrainEnd (p : Fin 8) (ok : Bool) (s : State) : Result :=
  .next (s.onDev fun d =>
    let x := d.seams[p]
    if x.retrain.isNone then d
    else if ok then (d.onSeam p fun x => { x with retrain := none, timer := d.dcc + ackPeriod }).resendAll p
    else
      let down := fun (x : SeamPort) => { x with retrain := none, up := false, replay := [] }
      (d.freeing p down).onMc fun m => { m with spdrop := satAdd m.spdrop x.replay.length })

end Sys2Proof.Machine
end

