-- ==== Sys2Proof/Machine/Resilience.lean ====
section
/-! DEFINITION. How routers watch their neighbours (R420–R429): tacks, suspicion, votes, fencing, appeal and reinstatement; and the patrol
scrub (R430). -/

namespace Sys2Proof.Machine

/-! Service flits (R420, R424) -/

/-- The opposite seam. -/
def opposite (d : Fin 4) : Fin 4 := d + 2

/-- Which neighbour of `s` a tile is. -/
def neighbourIndex (s n : Fin 128) : Option (Fin 4) := (List.finRange 4).find? fun d => neighbour s d == n

/-- Puts a flit on a service channel. -/
def Dev.sendFlit (d : Dev) (dest : Fin 128) (seam : Fin 4) (body : SvcBody) : Dev :=
  { d with flits := d.flits ++ [{ dest := dest, seam := seam, body := body }] }

/-- Takes the oldest flit that carries `body` to a router out of the channels. -/
def Dev.takeFlit (d : Dev) (n : Fin 128) (body : SvcBody) : Dev := { d with flits := d.flits.eraseP fun f => f.dest == n && f.body == body }

/-- Sends a flit from a router over its four seams. -/
def Dev.flood (d : Dev) (n : Fin 128) (body : SvcBody) : Dev :=
  (List.finRange 4).foldl (fun d k => d.sendFlit (neighbour n k) (opposite k) body) d

/-- Whether a router drops every flit but its own tacks: it is in probation (R429). -/
def Dev.onProbation (d : Dev) (n : Fin 128) : Bool := (d.routers[n]).fence == 2

/-- The corner tile of `s` between its neighbours `i` and `k` (R424). -/
def cornerTile (s : Fin 128) (i k : Fin 4) : Fin 128 := neighbour (neighbour s i) k

/-- Sends a vote flit from neighbour `i` of `s` to neighbour `k` through the corner tile between them, whose router passes none on in probation
(R424, R429). -/
def Dev.sendVote (d : Dev) (s : Fin 128) (i k : Fin 4) (body : SvcBody) : Dev :=
  if d.onProbation (cornerTile s i k) then d else d.sendFlit (neighbour s k) 0 body

/-- Sends a vote, a withdrawal or a reinstatement vote of a neighbour of `s` to the two neighbours of `s` that are adjacent to it (R424). A
router that is itself fenced does not vote (R425). `since` is the DCC of the suspicion. -/
def Dev.castVote (d : Dev) (n s : Fin 128) (since : Nat) (withdraw reinst : Bool) : Dev :=
  match neighbourIndex s n with
  | some i =>
    if (d.routers[n]).fence != 0 then d
    else
      let send := fun (d : Dev) (k : Fin 4) => d.sendVote s i k (.vote s n since false withdraw reinst)
      send (send d (i + 1)) (i + 3)
  | none => d

/-! Appeal (R429) -/

/-- 24 hours in ns. -/
def dayNs : Nat := 86400000000000

/-- About 30 ms in ns. -/
def selfTestNs : Nat := 30000000

/-- Self-tests that run at once. -/
def selfTests : Nat := 4

/-- Starts a self-test, or queues it behind four others. -/
def Dev.beginTest (d : Dev) (s : Fin 128) : Dev :=
  let running := ((List.finRange 128).filter fun n => (d.routers[n]).testing.isSome).length
  d.onRouter s fun r => if running < selfTests then { r with testing := some (d.dcc + selfTestNs), queued := false } else { r with queued := true }

/-- A tile's appeals within the last 24 hours. -/
def Dev.pastAppeals (d : Dev) (s : Fin 128) : List Nat := (d.routers[s]).appeals.filter fun t => decide (d.dcc < t + dayNs)

/-- Whether a tile may appeal: at most three times in 24 hours, abandoned appeals among them (R429). -/
def Dev.mayAppeal (d : Dev) (s : Fin 128) : Bool := decide ((d.pastAppeals s).length < 3)

/-- A tile appeals, if it may. -/
def Dev.startAppeal (d : Dev) (s : Fin 128) : Dev :=
  if d.mayAppeal s then (d.onRouter s fun r => { r with appeals := d.pastAppeals s ++ [d.dcc] }).beginTest s else d

/-- Starts the next appeal that waits. -/
def Dev.nextAppeal (d : Dev) : Dev :=
  match (List.finRange 128).find? fun n => (d.routers[n]).queued with
  | some n => d.beginTest n
  | none => d

/-! Fencing (R425, R427, R429) -/

/-- Writes of a tile that no target has accepted; an atomic is none. -/
def Tile.unaccepted (t : Tile) : Nat := (t.ops.filter fun o => o.stage == .issued && o.kind.writes && !o.kind.reads).length

/-- Flits under way to or from a tile: answers of performed requests, and beats. -/
def Dev.orphans (d : Dev) (s : Fin 128) : Nat :=
  let t := d.tiles[s]
  let answers := (t.ops.filter fun o => o.stage == .performed).length
  answers + (d.panelOf s).elim 0 fun p => (p.beats.filter fun b => b.src == t.rank || b.route.getLast? == some t.rank).length

/-- The panel of a fenced tile is aborted as by `tabt` SUB 1, for replay or CODE FENCED; the other cuts of its gang are evicted at their next stitch
points (R427, R428). -/
def Dev.abortFenced (d : Dev) (p : Panel) : Dev :=
  let d1 := d.vacate p .fence
  if p.phase == .over then d1 else (d1.panel p.handle).elim d1 fun q => d1.abortPanel q 7 true

/-- A tile is cut off by the first router that records its fence (R427), and its appeal starts, or, at the fourth fence within 24 hours, it is
retired (R429). -/
def Dev.cutOff (d : Dev) (s : Fin 128) : Dev :=
  let d1 := d.countTile s 1 (d.orphans s)
  let d2 := d1.countTile s 2 (d1.tiles[s]).unaccepted
  let d3 := (d2.panelOf s).elim d2 d2.abortFenced
  let d4 := if (d3.tiles[s]).drain.isSome then
      (d3.clear (vaultKey s programArea) windowSize).onTile s fun t => { t with drain := none } else d3
  let past := (d4.routers[s]).fences.filter fun t => decide (d4.dcc < t + dayNs)
  let retire := decide (3 ≤ past.length)
  let bolt := (d4.boltOf s).map Fin.val
  let d5 := (d4.onRouter s fun r => { r with fence := if retire then 3 else 1, fences := past ++ [d4.dcc], testing := none, queued := false }).logEvent
    0x01 bolt (some s.val) none
  if retire then d5.logEvent 0x03 bolt (some s.val) none
  else if d5.mc.appctl.getLsbD 0 then d5.startAppeal s else d5

/-- A router learns of a fence: it records the tile, floods the flit on, and the tile is cut off (R425, R427). -/
def Dev.learnFence (d : Dev) (n s : Fin 128) : Dev :=
  if (d.routers[n]).fmap.getLsbD s.val || d.onProbation n then d
  else
    let d1 := (d.onRouter n fun r => { r with fmap := setBit r.fmap s.val true }).flood n (.fence s)
    if (d1.routers[s]).fence = 0 then d1.cutOff s else d1

/-- Whether a router holds an unexpired vote of a kind by a voter. -/
def Router.holdsVote (r : Router) (s v : Fin 128) (reinst : Bool) (dcc : Nat) : Bool :=
  r.votes.any fun x => x.suspect == s && x.voter == v && x.reinst == reinst && decide (dcc < x.expiry)

/-- Votes against a neighbour, or for its return, that a router holds, its own included. -/
def Dev.voteCount (d : Dev) (n s : Fin 128) (reinst : Bool) : Nat :=
  let r := d.routers[n]
  let own := (List.finRange 4).any fun k => neighbour n k == s && (r.nbr[k]).susp
  ((List.finRange 4).filter fun k =>
    let v := neighbour s k
    if v = n ∧ !reinst then own else r.holdsVote s v reinst d.dcc).length

/-- A router removes a tile from its fence map and floods the flit on; the tile is scrubbed and back in service (R429). -/
def Dev.learnUnfence (d : Dev) (n s : Fin 128) : Dev :=
  if !(d.routers[n]).fmap.getLsbD s.val || d.onProbation n then d
  else
    let keep := fun (v : Vote) => v.suspect != s
    let d1 := (d.onRouter n fun r => { r with fmap := setBit r.fmap s.val false, votes := r.votes.filter keep }).flood n (.unfence s)
    if (d1.routers[s]).fence = 2 then
      (((d1.panelOf s).elim d1 d1.dropBound).scrubTile s false).onRouter s fun r => { r with fence := 0 }
    else d1

/-- A neighbour of `s` that holds three votes against it fences it; with three for its return it unfences it. -/
def Dev.countVotes (d : Dev) (n s : Fin 128) : Dev :=
  if (d.routers[n]).fence != 0 || (neighbourIndex s n).isNone then d
  else if !(d.routers[n]).fmap.getLsbD s.val then (if 3 ≤ d.voteCount n s false then d.learnFence n s else d)
  else if (d.routers[s]).fence = 2 ∧ 3 ≤ d.voteCount n s true then d.learnUnfence n s
  else d

/-! Suspicion (R421–R424) -/

/-- A suspicion raised during probation ends it, and the tile stays fenced (R429). -/
def Dev.endProbation (d : Dev) (s : Fin 128) : Dev :=
  if (d.routers[s]).fence = 2 then
    (List.finRange 4).foldl (fun d k => d.onRouter (neighbour s k) fun r => r.onNbr (opposite k) fun x => { x with probation := 0 })
      (d.onRouter s fun r => { r with fence := 1 })
  else d

/-- A router suspects its neighbour on seam `k`, unless it does already (R423), and votes (R424). -/
def Dev.suspect (d : Dev) (n : Fin 128) (k : Fin 4) (cause : BitVec 2) : Dev :=
  if ((d.routers[n]).nbr[k]).susp then d
  else
    let s := neighbour n k
    let d1 := d.onRouter n fun r => r.onNbr k fun x => { x with susp := true, cause := cause, since := d.dcc, good := 0 }
    ((d1.endProbation s).castVote n s d.dcc false false).countVotes n s

/-- A router sees something on the link from a neighbour; at a threshold suspicion is raised (R422). -/
def Dev.babble (d : Dev) (n : Fin 128) (k : Fin 4) (c : Babble) : Dev :=
  let old := (d.routers[n]).nbr[k]
  let new := old.see c d.dcc
  if new = old && (new.babbles d.dcc).isNone then d
  else
    let d1 := d.onRouter n fun r => r.onNbr k fun _ => new
    (new.babbles d.dcc).elim d1 fun cause => d1.suspect n k cause

/-- BABBLING_SUSPICION (R422): what is seen on the link from a neighbour is counted if it is a babbling event. -/
def execBabblingSuspicion (n : Fin 128) (d : Fin 4) (c : Babble) (s : State) : Result := .next (s.onDev fun x => x.babble n d c)

/-! Tacks (R420, R421, R423) -/

/-- ns between tacks. -/
def tackNs : Nat := 1024

/-- ns after which a tack counts as missed. -/
def tackLimit : Nat := 1280

/-- DIGEST of a tack: CRC-32C over its first twelve bytes and the four of a self-check result (R420). -/
def tackDigest (head : Nat) (check : W32) : Nat := (crc32c (leBytes 12 head ++ leBytes 4 check.toNat)).toNat

/-- The tack that the router of tile `n` sends (R420). -/
def Router.tack (r : Router) (n : Fin 128) (seq : Nat) : TackIn :=
  let panel : BitVec 15 := if r.svpanel.getLsbD 14 then r.svpanel.setWidth 15 else 0#15
  let flags := b2n (r.fence == 1 || r.fence == 3) + 2 * b2n (r.fence == 2)
  let head : BitVec 96 := packFields 96 [(0, 2, seq), (2, 1, n.val), (3, 1, flags), (4, 1, r.svrate.toNat), (6, 2, panel.toNat)]
  packFields 128 [(0, 12, head.toNat), (12, 4, tackDigest head.toNat r.selfCheck)]

/-- Whether the receiver's own DIGEST, with zeros for the self-check result, is that of the tack (R420). -/
def tackOk (tk : TackIn) : Bool := recField tk 12 4 == tackDigest (recField tk 0 12) 0#32

/-- SEQ of a tack. -/
def tackSeq (tk : TackIn) : Nat := recField tk 0 2

/-- FLAGS.PROBATION of a tack. -/
def tackProbation (tk : TackIn) : Bool := bit (recField tk 3 1) 1

/-- Whether a router's next tack is due. -/
def Router.tackDue (r : Router) (dcc : Nat) : Bool := r.nextTack != 0 && decide (r.nextTack ≤ dcc)

/-- TACK_SEND (R420, R424): a tack on each seam, and the votes of the suspicions held. -/
def execTackSend (n : Fin 128) (s : State) : Result :=
  .next (s.onDev fun d =>
    let r := d.routers[n]
    if !r.tackDue d.dcc then d
    else
      let seq := (r.txSeq + 1) % 65536
      let d1 := (d.onRouter n fun r => { r with txSeq := seq, nextTack := r.nextTack + tackNs }).flood n (.tack (r.tack n seq))
      (List.finRange 4).foldl (fun d k => if (r.nbr[k]).susp then d.castVote n (neighbour n k) (r.nbr[k]).since false false else d) d1)

/-- What a router notes of a valid tack with the next SEQ. -/
def Nbr.valid (x : Nbr) (tk : TackIn) (dcc : Nat) : Nbr :=
  let good := x.good + 1
  { x with seq := tackSeq tk, deadline := if x.deadline = 0 then 0 else dcc + tackLimit, misses := 0, good := good, rate := recField tk 4 1,
           panel := BitVec.ofNat 15 (recField tk 6 2),
           probation := if tackProbation tk then x.probation + 1 else 0,
           susp := x.susp && decide (good < 16), cause := if x.susp && good < 16 then x.cause else 0#2 }

/-- TACK_RECEIVE (R421–R424): a malformed tack is a babbling event; a valid one with the next SEQ counts toward the end of a suspicion, which
then is withdrawn, and toward reinstatement; one with another SEQ breaks the row. -/
def execTackReceive (n : Fin 128) (d : Fin 4) (tk : TackIn) (s : State) : Result :=
  .next (s.onDev fun x =>
    let y := x.takeFlit n (.tack tk)
    let nb := (y.routers[n]).nbr[d]
    if !tackOk tk then y.babble n d .malformed
    else if tackSeq tk != (nb.seq + 1) % 65536 then
      y.onRouter n fun r => r.onNbr d fun z => { z with seq := tackSeq tk, good := 0, probation := 0 }
    else
      let y1 := y.onRouter n fun r => r.onNbr d fun z => z.valid tk y.dcc
      if nb.susp && !((y1.routers[n]).nbr[d]).susp then y1.castVote n (neighbour n d) nb.since true false else y1)

/-- Whether a tack of a neighbour is overdue. -/
def Nbr.overdue (x : Nbr) (dcc : Nat) : Bool := x.deadline != 0 && decide (x.deadline ≤ dcc)

/-- TACK_MISS (R421): the third consecutive miss raises silent suspicion. -/
def execTackMiss (n : Fin 128) (d : Fin 4) (s : State) : Result :=
  .next (s.onDev fun x =>
    let nb := (x.routers[n]).nbr[d]
    if !nb.overdue x.dcc then x
    else
      let y := x.onRouter n fun r => r.onNbr d fun z =>
        { z with misses := z.misses + 1, seq := (z.seq + 1) % 65536, deadline := z.deadline + tackLimit, good := 0, probation := 0 }
      if 3 ≤ nb.misses + 1 then y.suspect n d 1#2 else y)

/-! Votes (R424, R425, R429) -/

/-- Records a vote with the DCC of its suspicion; it lives for another 16,384 ns. -/
def Router.record (r : Router) (s v : Fin 128) (since : Nat) (reinst : Bool) (dcc : Nat) : Router :=
  let other := fun (x : Vote) => !(x.suspect == s && x.voter == v && x.reinst == reinst)
  { r with votes := r.votes.filter other ++ [{ suspect := s, voter := v, expiry := dcc + voteNs, since := since, reinst := reinst }] }

/-- Forgets a vote that was withdrawn. -/
def Router.forget (r : Router) (s v : Fin 128) (reinst : Bool) : Router :=
  { r with votes := r.votes.filter fun x => !(x.suspect == s && x.voter == v && x.reinst == reinst) }

/-- VOTE_FLIT_RECEIVE (R424, R425): recorded or withdrawn, forwarded once to the voter's opposite when it came direct, and counted. The vote of a
voter that the router has recorded as fenced is dropped as an orphan (R427), and a router in probation drops every vote (R429). -/
def execVoteFlitReceive (n suspect : Fin 128) (voter : Voter) (relay withdraw reinst : Bool) (s : State) : Result :=
  .next (s.onDev fun d =>
    let d0 := d.takeFlit n (.vote suspect voter.tile voter.since relay withdraw reinst)
    if d0.onProbation n then d0
    else if (d0.routers[n]).fmap.getLsbD voter.tile.val then d0.countTile n 1 1
    else match neighbourIndex suspect n, neighbourIndex suspect voter.tile with
    | some j, some i =>
      let d1 := d0.onRouter n fun r => if withdraw then r.forget suspect voter.tile reinst else r.record suspect voter.tile voter.since reinst d.dcc
      let d2 := if relay || (d1.routers[n]).fence != 0 then d1
        else d1.sendVote suspect j (opposite i) (.vote suspect voter.tile voter.since true withdraw reinst)
      d2.countVotes n suspect
    | _, _ => d0)

/-- VOTE_EXPIRY (R424). -/
def execVoteExpiry (n : Fin 128) (suspect voter : Fin 128) (s : State) : Result :=
  .next (s.onDev fun d => d.onRouter n fun r =>
    { r with votes := r.votes.filter fun x => !(x.suspect == suspect && x.voter == voter && decide (x.expiry ≤ d.dcc)) })

/-- FENCE_FLIT_RECEIVE (R425). -/
def execFenceFlitReceive (n : Fin 128) (suspect : Fin 128) (s : State) : Result :=
  .next (s.onDev fun d => (d.takeFlit n (.fence suspect)).learnFence n suspect)

/-- UNFENCE_FLIT_RECEIVE (R429). -/
def execUnfenceFlitReceive (n : Fin 128) (suspect : Fin 128) (s : State) : Result :=
  .next (s.onDev fun d => (d.takeFlit n (.unfence suspect)).learnUnfence n suspect)

/-- SELFTEST_COMPLETE (R429): the tile is retired, or enters probation; the next appeal that waits starts. -/
def execSelftestComplete (n : Fin 128) (pass : Bool) (s : State) : Result :=
  .next (s.onDev fun d =>
    if (d.routers[n]).testing.isNone then d
    else
      let d1 := (d.onRouter n fun r => { r with testing := none, fence := if pass then 2 else 3 }).logEvent
        (if pass then 0x02 else 0x03) ((d.boltOf n).map Fin.val) (some n.val) none
      d1.nextAppeal)

/-- Whether a router is to cast a reinstatement vote for a neighbour: after 64 consecutive valid probation tacks (R429). -/
def Nbr.reinstates (x : Nbr) : Bool := decide (64 ≤ x.probation)

/-- REINSTATEMENT_VOTE (R429). -/
def execReinstatementVote (n : Fin 128) (d : Fin 4) (s : State) : Result :=
  .next (s.onDev fun x =>
    let sus := neighbour n d
    if !((x.routers[n]).nbr[d]).reinstates || (x.routers[n]).fence != 0 then x
    else
      let y := x.onRouter n fun r => (r.onNbr d fun z => { z with probation := 0 }).record sus n x.dcc true x.dcc
      (y.castVote n sus x.dcc false true).countVotes n sus)

/-! The patrol scrub (R430) -/

/-- The bolt of the quad that holds a key. -/
def Dev.boltOfKey (d : Dev) (k : Nat) : Option (Fin 32) :=
  match tileOfKey k with
  | some n => d.boltOf n
  | none =>
    if k < 2 ^ 40 then (if 2 ^ 31 ≤ k then d.boltOfQuad (idx 32 ((k - 2 ^ 31) / 2 ^ 18)) else none)
    else if k < 2 ^ 64 then d.boltOfQuad (dramQuad k) else none

/-- Counts an error in the bolt that holds its word, if any does. -/
def Dev.countKey (d : Dev) (word : Nat) (k : Fin 14) : Dev := (d.boltOfKey (8 * word)).elim d fun b => d.count b k 1

/-- An uncorrectable error that the scrub finds: counted, logged, and fatal to a frozen panel whose state holds it (R428, R430). -/
def Dev.foundBad (d : Dev) (word : Nat) : Dev :=
  let tile := tileOfKey (8 * word)
  let d1 := (d.countKey word 7).logEvent 0x04 ((d.boltOfKey (8 * word)).map Fin.val) (tile.map Fin.val) none
  match tile.bind d1.panelOf with
  | some p => if p.frozenState then d1.abortPanel p 6 true else d1
  | none => d1

/-- Whether the patrol scrub is due. -/
def Mc.scrubDue (m : Mc) (dcc : Nat) : Bool := m.scrubAt != 0 && decide (m.scrubAt ≤ dcc)

/-- PATROL_SCRUB (R430): every array is read; corrected words are repaired and counted. -/
def execPatrolScrub (s : State) : Result :=
  .next (s.onDev fun d =>
    if !d.mc.scrubDue d.dcc then d
    else
      let d1 := d.softWords.foldl (fun d w => d.countKey w 6) d
      let d2 := d1.badWords.foldl Dev.foundBad { d1 with softWords := [] }
      d2.onMc fun m => { m with scrubAt := d.dcc + dayNs })

end Sys2Proof.Machine
end

