-- ==== Sys2Proof/Machine/Power.lean ====
section
/-! DEFINITION. Power states, checkpoint and resume (R434–R437), time (R438), temperature (R439) and bring-up (R443, R446). -/

namespace Sys2Proof.Machine

/-! Tack timers, which run while the compute die is powered -/

/-- Arms the tack timers: each router begins at a phase of its own (log entry 7). -/
def Dev.armTacks (d : Dev) : Dev :=
  let arm := fun (d : Dev) (n : Fin 128) => d.onRouter n fun r =>
    { r with nextTack := d.dcc + 1 + Config.pick (d.fresh + n.val) % tackNs
             nbr := r.nbr.map fun x => { x with deadline := d.dcc + tackLimit, misses := 0 } }
  { (List.finRange 128).foldl arm d with fresh := d.fresh + 128 }

/-- Stops the tack timers; what is on the service channels is lost. -/
def Dev.disarmTacks (d : Dev) : Dev :=
  let off := fun (r : Router) => { r with nextTack := 0, nbr := r.nbr.map fun (x : Nbr) => { x with deadline := 0 } }
  { d with routers := d.routers.map off, flits := [] }

/-- Abandons every appeal (R429). -/
def Dev.dropAppeals (d : Dev) : Dev :=
  let off := fun (r : Router) => { r with testing := none, queued := false }
  { d with routers := d.routers.map off }

/-! The checkpoint (R436) -/

/-- What PFAIL, or a temperature of 115 °C, does to one panel: its eviction is ordered; a panel frozen for a trap or a debug halt, now or later, is
saved as it stands (`Dev.savesFrozen`). -/
def Dev.checkpointPanel (d : Dev) (p : Panel) : Dev :=
  match p.phase with
  | .over => d.dropPreload p
  | _ => d.orderEvict p .pfail

/-- The part begins its checkpoint (R436). -/
def Dev.beginCheckpoint (d : Dev) : Dev :=
  let d1 := d.dropAppeals.onMc fun m => { m with st := .checkpoint, pfailAt := d.dcc, dormantAt := none }
  d1.panels.foldl Dev.checkpointPanel d1

/-- Whether the part can begin a checkpoint. -/
def Mc.powered (m : Mc) : Bool := m.st == .running || m.st == .dormant

/-- ns for which the PFAIL input has to be low until it is taken as asserted, and high until it is taken as deasserted (R435). An assertion
is recognised at the end of its filter, well within 10 µs. DESIGN CHOICE: log entry 85. -/
def pfailLowNs : Nat := 5000

/-- See `pfailLowNs`. -/
def pfailHighNs : Nat := 1000000

/-- Whether an assertion of PFAIL is to be recognised now. -/
def Dev.pfailFalls (d : Dev) : Bool := d.mc.pfailLow && !d.mc.pfail && decide (d.mc.pfailSince + pfailLowNs ≤ d.dcc)

/-- Whether a deassertion of PFAIL is to be recognised now. -/
def Dev.pfailRises (d : Dev) : Bool := !d.mc.pfailLow && d.mc.pfail && decide (d.mc.pfailSince + pfailHighNs ≤ d.dcc)

/-- Whether PFAIL is to be acted on: it is recognised now, or it stands while the part is powered. -/
def Dev.pfailDue (d : Dev) : Bool := d.pfailFalls || (d.mc.pfail && d.mc.powered)

/-- PFAIL_ASSERT (R435, R436): logged once; a part that is powered begins its checkpoint. -/
def execPfailAssert (s : State) : Result :=
  .next (s.onDev fun d =>
    if !d.pfailDue then d
    else
      let d1 := if d.mc.pfail then d else (d.onMc fun m => { m with pfail := true }).logEvent 0x06 none none none
      if d1.mc.powered then d1.beginCheckpoint else d1)

/-- Whether a panel has not begun its save; the save of a frozen panel has begun when the writing of its slots waits. -/
def Panel.unsaved (p : Panel) : Bool := p.phase != .saving && p.phase != .over && !(p.stopped && p.wait != .no)

/-- ns from the recognition of PFAIL to the abort of panels that have not begun their save. -/
def saveLimit : Nat := 1000000

/-- Whether that abort is due. -/
def Dev.saveOverdue (d : Dev) : Bool := d.mc.st == .checkpoint && decide (d.mc.pfailAt + saveLimit ≤ d.dcc) && d.panels.any Panel.unsaved

/-- CHECKPOINT_SAVE_DEADLINE (R436, R428). -/
def execCheckpointSaveDeadline (s : State) : Result :=
  .next (s.onDev fun d => if d.saveOverdue then (d.panels.filter Panel.unsaved).foldl (fun d p => d.abortPanel p 0x0a true) d else d)

/-- Whether everything is saved and drained. -/
def Dev.checkpointDone (d : Dev) : Bool :=
  d.mc.st == .checkpoint && d.panels.isEmpty && d.far.isEmpty && d.tiles.all fun t => t.drain.isNone

/-- Writes back what a slice holds; the dirty lines of a host whose port is down are dropped and counted (R436). -/
def Dev.flushSlice (d : Dev) (q : Fin 32) : Dev :=
  let give := fun (d : Dev) (l : SlcLine) =>
    if (d.ports[hostPortOf (l.key * 128)]).up then d.writeBack l
    else if l.copy.isSome && l.written != 0#128 then d.onMc fun m => { m with hostdrop := satAdd m.hostdrop 1 } else d
  ((d.quads[q]).slc.foldl give d).onQuad q fun x => { x with slc := [] }

/-- Writes back every slice. -/
def Dev.flushAll (d : Dev) : Dev := (List.finRange 32).foldl Dev.flushSlice d

/-- CHECKPOINT_COMPLETE (R436): LPDDR 6 is in self-refresh and the marker is valid. -/
def execCheckpointComplete (s : State) : Result :=
  .next (s.onDev fun d =>
    if d.checkpointDone then
      (d.flushAll.disarmTacks).onMc fun m => { m with st := .retention, marker := true, retok := true }
    else d)

/-- PFAIL_DEASSERT (R435). -/
def execPfailDeassert (s : State) : Result :=
  .next (s.onDev fun d => if d.pfailRises then d.onMc fun m => { m with pfail := false } else d)

/-- RETOK_LOW (R435): counts from the end of the checkpoint until power returns. -/
def execRetokLow (s : State) : Result :=
  .next (s.onDev fun d => if d.mc.st == .retention then d.onMc fun m => { m with retok := false } else d)

/-! Bring-up (R446) -/

/-- Whether an image verifies: a configuration record under the configuration key in force, firmware under the update key (R443). -/
def Mc.verifies (m : Mc) (k : Fin 3) (img : List Byte) : Bool := if k = 2 then Config.configSigned m.ckey img else Config.signatureValid k img

/-- Whether the image in a kind's new slot verifies and is not too old (R443); without one the slot in force is taken as good. -/
def Mc.slotOk (m : Mc) (k : Fin 3) : Bool :=
  match m.slots[k] with
  | none => true
  | some img => m.verifies k img && (Config.updateHeader img).any fun h => h.1 == k && decide (m.svn[k].toNat ≤ h.2.1.toNat)

/-- Whether a step of bring-up succeeds. -/
def Dev.stepOk (d : Dev) (fresh k : Nat) : Bool :=
  Config.bringUpOk fresh k && (match k with
    | 1 => d.mc.slotOk 0
    | 2 => d.mc.slotOk 2
    | 6 => d.mc.slotOk 1
    | _ => true)

/-- Step 2: the configuration record of a new slot is in force, and that of the old one is kept until the boot succeeds (R443). -/
def Mc.takeConfig (m : Mc) : Mc :=
  match m.slots[(2 : Fin 3)].bind Config.configOf with
  | some c => { m with config := c, oldConfig := some (m.oldConfig.getD m.config) }
  | none => m

/-- Step 1: the MC firmware of a new slot is in force, and the old one is kept until the boot succeeds (R443). -/
def Mc.takeMcfw (m : Mc) : Mc :=
  match m.slots[(0 : Fin 3)] with
  | some f => { m with mcfw := f, oldMcfw := some (m.oldMcfw.getD m.mcfw) }
  | none => m

/-- Step 6: so is the service-core firmware. -/
def Mc.takeFirmware (m : Mc) : Mc :=
  match m.slots[(1 : Fin 3)] with
  | some f => { m with firmware := f, oldFirmware := some (m.oldFirmware.getD m.firmware) }
  | none => m

/-- Step 4: the LPDDR 6 channels are zeroed. -/
def Dev.zeroDram (d : Dev) : Dev := d.clear (2 ^ 40) (2 ^ 64 - 2 ^ 40)

/-- A tile that fails its self-test is retired: it is in no router's way any more (R446, R427). -/
def Dev.retire (d : Dev) (n : Fin 128) : Dev :=
  let mark := fun (r : Router) => { r with fmap := setBit r.fmap n.val true }
  (({ d with routers := d.routers.map mark } : Dev).onRouter n fun r => { r with fence := 3 }).logEvent 0x03 ((d.boltOf n).map Fin.val) (some n.val) none

/-- Step 5: every SRAM is initialised, and the tiles that fail are retired. -/
def Dev.initSram (d : Dev) (fresh : Nat) : Dev :=
  let quad := fun (q : Quad) => { q with slc := [], tlb := [], walk := [] }
  let d1 := { d.clear 0 (2 ^ 40) with tiles := Vector.replicate 128 Tile.reset, quads := d.quads.map quad, raised := [], flits := [] }
  ((List.finRange 128).filter (Config.tileFails fresh)).foldl Dev.retire d1

/-- SVBOLT of a bolt's tiles (R350). -/
def Dev.svboltOf (d : Dev) (b : Fin 32) : W64 :=
  let x0 := 2 * d.boltX b
  let y0 := 2 * d.boltY b
  BitVec.ofNat 64 (x0 + 16 * (x0 + 2 * d.boltW b - 1) + 256 * y0 + 2048 * (y0 + 2 * d.boltH b - 1) + 2 ^ 14)

/-- Writes SVBOLT of every tile of a bolt. -/
def Dev.writeSvbolt (d : Dev) (b : Fin 32) : Dev :=
  (d.boltTiles b).foldl (fun d n => d.onRouter n fun r => { r with svbolt := d.svboltOf b }) d

/-- Loads a service core with its firmware and starts it (R446). -/
def Dev.startSvc (d : Dev) (q : Fin 32) : Dev :=
  (d.write (svcKey q 0) (d.mc.firmware.take (2 ^ 18))).onSvc q fun _ => { Svc.reset with run := .run }

/-- Fields of a bolt descriptor that may be written (R348); the reserved ones stay zero. -/
def bdescMask : W32 := 0xf00003ff#32

/-- Step 6: BDESC (as the record gives it, or, on a resume, as it stands), SVBOLT, SVRATE, and the service cores. -/
def Dev.setBolts (d : Dev) (resume : Bool) : Dev :=
  let cfg := d.mc.config
  let mc := fun (m : Mc) =>
    if resume then m else { m with bdesc := cfg.bdesc.map (· &&& bdescMask), tsrc := cfg.tsrc, cdly := cfg.cdly, appctl := cfg.appctl }
  let d1 := (d.onMc Mc.takeFirmware).onMc mc
  let rate := fun (d : Dev) (n : Fin 128) => d.onRouter n fun r => { r with svrate := cfg.svrate[n], svpanel := 0#64 }
  let d2 := (List.finRange 128).foldl rate d1
  let bolt := fun (d : Dev) (b : Fin 32) =>
    if d.boltValid b then (d.writeSvbolt b).onBolt b fun x => { x with clk := d.boltClk b, edge := d.now, cyc := 0 } else d
  (List.finRange 32).foldl Dev.startSvc ((List.finRange 32).foldl bolt d2)

/-- Step 7: the host ports and the seam ports are trained. -/
def Dev.train (d : Dev) (fresh : Nat) : Dev :=
  let port := fun (d : Dev) (p : Fin 2) => d.onPort p fun x => { x with cxl := d.mc.config.cxl[p], up := true }
  let seam := fun (d : Dev) (p : Fin 8) => d.onSeam p fun x => { x with up := Config.bringUpOk fresh (16 + p.val) }
  (List.finRange 8).foldl seam ((List.finRange 2).foldl port d)

/-- What a step of bring-up does. -/
def Dev.bringStep (d : Dev) (fresh : Nat) (resume : Bool) (k : Nat) : Dev :=
  match k with
  | 1 => d.onMc Mc.takeMcfw
  | 2 => (d.onMc Mc.takeConfig).onPf fun p => if resume then p else { p with active := (d.mc.takeConfig).config.active }
  | 4 => d.zeroDram
  | 5 => d.initSram fresh
  | 6 => d.setBolts resume
  | 7 => d.train fresh
  | _ => d

/-- The step of bring-up that takes up a kind's slot: MC firmware 1, service-core firmware 6, configuration record 2. -/
def slotStep (k : Fin 3) : Nat :=
  match k with
  | 0 => 1
  | 1 => 6
  | 2 => 2

/-- A failed boot of the new slots that the steps `l` take up; after three the MC returns to the old one (R443). -/
def Mc.bootFailed (m : Mc) (l : List Nat) : Mc :=
  let tried := fun (k : Fin 3) => l.contains (slotStep k) && (m.slots[k]).isSome
  let bad := fun (k : Fin 3) => tried k && decide (2 ≤ m.boots[k])
  { m with boots := Vector.ofFn fun k => if bad k then 0 else if tried k then m.boots[k] + 1 else m.boots[k]
           slots := Vector.ofFn fun k => if bad k then none else m.slots[k]
           config := if bad 2 then m.oldConfig.getD m.config else m.config
           oldConfig := if bad 2 then none else m.oldConfig
           firmware := if bad 1 then m.oldFirmware.getD m.firmware else m.firmware
           oldFirmware := if bad 1 then none else m.oldFirmware
           mcfw := if bad 0 then m.oldMcfw.getD m.mcfw else m.mcfw
           oldMcfw := if bad 0 then none else m.oldMcfw }

/-- A successful boot through the steps `l` makes the new slots that they take up the active ones, with their SVN, and installs the configuration
key that a new record brings (R443). -/
def Mc.bootDone (m : Mc) (l : List Nat) : Mc :=
  let up := fun (k : Fin 3) => l.contains (slotStep k) && (m.slots[k]).isSome
  let svn := fun (k : Fin 3) => if up k then ((m.slots[k]).bind Config.updateHeader).elim m.svn[k] fun h => h.2.1 else m.svn[k]
  { m with svn := Vector.ofFn svn
           slots := Vector.ofFn fun k => if up k then none else m.slots[k]
           boots := Vector.ofFn fun k => if up k then 0 else m.boots[k]
           ckey := if up 2 then m.config.newKey.getD m.ckey else m.ckey
           oldConfig := if up 2 then none else m.oldConfig
           oldFirmware := if up 1 then none else m.oldFirmware
           oldMcfw := if up 0 then none else m.oldMcfw }

/-- Runs steps of bring-up in order, BSTEP at each holding its number; the first that fails stops the part there, with BFAIL and a log record
whose kind the spec does not give (log entry 16). -/
def Dev.bringSteps (fresh : Nat) (resume : Bool) : List Nat → Dev → Dev × Bool
  | [], d => (d, true)
  | k :: r, d =>
    let d1 := d.onMc fun m => { m with bstep := k }
    if d1.stepOk fresh k then Dev.bringSteps fresh resume r (d1.bringStep fresh resume k)
    else ((d1.onMc fun m => { m with bfail := true }).logEvent (Config.logField 0 9 fresh).toNat none none none, false)

/-- Boots through steps of bring-up, which decide what becomes of the new slots that they take up (R443). -/
def Dev.bringUp (fresh : Nat) (resume : Bool) (l : List Nat) (d : Dev) : Dev × Bool :=
  match Dev.bringSteps fresh resume l d with
  | (d1, true) => (d1.onMc fun m => m.bootDone l, true)
  | (d1, false) => (d1.onMc fun m => m.bootFailed l, false)

/-- Step 8: the part runs; the timers of tacks and of the patrol scrub start. -/
def Dev.running (d : Dev) : Dev :=
  (d.onMc fun m => { m with st := .running, bfail := false, bstep := 0, marker := false, thermal := false, dormantAt := none,
                            scrubAt := d.dcc + dayNs }).armTacks

/-- What a cold start keeps: the flash, the outside, and time. -/
def Dev.cold (d : Dev) : Dev :=
  let m := d.mc
  { Dev.reset with
    mem := d.mem, badWords := d.badWords, softWords := d.softWords, now := d.now, dcc := d.dcc, outs := d.outs, fresh := d.fresh + 64
    quads := d.quads.map fun (q : Quad) => { Quad.reset with temp := q.temp }
    mc := { Mc.reset with
      xmssrem := m.xmssrem, svn := m.svn, pwr := m.pwr, loghead := m.loghead, logtail := m.logtail, log := m.log, slots := m.slots, boots := m.boots,
      config := m.config, firmware := m.firmware, oldConfig := m.oldConfig, oldFirmware := m.oldFirmware, mcfw := m.mcfw, oldMcfw := m.oldMcfw, ckey := m.ckey, retok := m.retok
      pfail := m.pfail, pfailLow := m.pfailLow, pfailSince := m.pfailSince, avail := m.avail } }

/-- Cold start (R446). -/
def Dev.coldStart (d : Dev) : Dev :=
  let r := Dev.bringUp d.fresh false [1, 2, 3, 4, 5, 6, 7] d.cold
  if r.2 then r.1.running else r.1

/-- Cold start after a checkpoint that the retention rail did not keep: CKLOST and its log record (R437). -/
def Dev.lostStart (d : Dev) : Dev := (d.coldStart.onMc fun m => { m with cklost := true }).logEvent 0x07 none none none

/-! Resume (R437) -/

/-- The gangs of awake vdevs of a bolt that have saved cuts, in vdev, launch and gang order. -/
def Dev.savedGangs (d : Dev) (b : Fin 32) : List (Vdev × Launch × Gang) :=
  (d.vdevs.filter fun v => v.bolt == b && v.awake).flatMap fun v =>
    (v.launches.filter fun l => !l.done).flatMap fun l =>
      (sortBy Gang.idx (l.gangs.filter fun g => !g.placed && g.cuts.any fun c => c.saved.isSome)).map fun g => (v, l, g)

/-- Restores the saved cuts of a bolt on regions of their shape (R344); a gang without room waits for its turn with the placer. -/
def Dev.restoreBolt (d : Dev) (b : Fin 32) : Dev :=
  let place := fun (d : Dev) (x : Vdev × Launch × Gang) =>
    match d.vdev x.1.num, d.launch x.1.num x.2.1.num with
    | some v, some l => (d.firstFit b v l x.2.2 d.freeTile).elim d fun ps => d.placeGang b l x.2.2 ps false
    | _, _ => d
  let d1 := (d.savedGangs b).foldl place d
  (d1.panels.filter fun p => p.bolt == b).foldl (fun d p => (d.panel p.handle).elim d fun q => if q.starting then d.startGang q else d) d1

/-- Periods of a reservation that lie wholly between two DCC values. -/
def Resv.periodsIn (r : Resv) (from_ until_ : Nat) : Nat :=
  if r.period = 0 then 0 else (until_ - r.anchor) / r.period - (Nat.max from_ r.anchor - r.anchor + r.period - 1) / r.period

/-- The periods of reservations that passed since the checkpoint began count as missed (R437, R367): one miss each, and VSTAT.MISS. A job that
was in progress reports its own miss. DESIGN CHOICE: log entry 84. -/
def Dev.missPeriods (d : Dev) : Dev :=
  d.resvs.foldl (fun e r =>
    let n := r.periodsIn d.mc.pfailAt d.dcc
    if n = 0 then e
    else e.onVdev r.vdev fun v => { v with misscnt := satAdd v.misscnt n, vstat := setBit v.vstat 3 true }) d

/-- The part resumes from retention: steps 5 to 7, after 1 to 3 when the MC boots (R446), the saved cuts, step 8. -/
def Dev.resume (d : Dev) (boot : Bool) : Dev :=
  let d0 := { d.onMc fun m => { m with st := .resuming } with fresh := d.fresh + 64 }
  let r := Dev.bringUp d.fresh true ((if boot then [1, 2, 3] else []) ++ [5, 6, 7]) d0
  if r.2 then ((List.finRange 32).foldl Dev.restoreBolt r.1.missPeriods).running else r.1

/-- Whether a checkpoint can be resumed. -/
def Mc.resumable (m : Mc) : Bool := m.marker && m.retok && (m.st == .retention || m.st == .resuming)

/-- POWER_ON_RESET (R446): power-on or a device reset; with a valid checkpoint it resumes. -/
def execPowerOnReset (s : State) : Result :=
  .next { s with dev := if s.dev.mc.resumable then s.dev.resume true else if s.dev.mc.marker && !s.dev.mc.retok then s.dev.lostStart else s.dev.coldStart
                 saved := none, agenda := [] }

/-- POWER_RETURN_RESUME (R437). -/
def execPowerReturnResume (s : State) : Result :=
  .next (s.onDev fun d =>
    if d.mc.st != .retention || d.mc.pfail || d.mc.thermal then d else if d.mc.retok then d.resume false else d.lostStart)

/-! Dormancy (R434) -/

/-- Whether every vdev is collapsed and of class W2. -/
def Dev.allAsleep (d : Dev) : Bool := !d.vdevs.isEmpty && d.vdevs.all fun v => v.state == .collapsed && v.fld 4 1 == 2

/-- 100 ms in ns. -/
def dormantNs : Nat := 100000000

/-- Whether the part becomes dormant. -/
def Dev.dormancyDue (d : Dev) : Bool := d.mc.st == .running && d.allAsleep && d.mc.dormantAt.any fun t => decide (t + dormantNs ≤ d.dcc)

/-- DORMANT_ENTRY (R434): the slices are written back, and the contents of the tiles' memories are lost. No panel holds a tile then, and a scrubbed
tile's memories read zero. -/
def execDormantEntry (s : State) : Result :=
  .next (s.onDev fun d =>
    if d.dormancyDue then (d.flushAll.disarmTacks).onMc fun m => { m with st := .dormant, dormantAt := none } else d)

/-- Whether something wakes a dormant part: a vdev that wakes, or is to wake for a launch with NBT (R432), or a mailbox function. -/
def Dev.dormantCall (d : Dev) : Bool :=
  d.mc.st == .dormant && (d.pf.mailBusy || d.vdevs.any fun v => v.state == .waking || v.nbtDue d.dcc)

/-- DORMANT_WAKE (R434). -/
def execDormantWake (s : State) : Result :=
  .next (s.onDev fun d => if d.mc.st == .dormant then (d.onMc fun m => { m with st := .running }).armTacks else d)

/-! Temperature (R439) -/

/-- A temperature register in eighths of a degree. -/
def tempOf (t : W32) : Int := t.toInt

/-- THERMAL_THRESHOLD (R439): an event at 105 °C, a checkpoint at 115 °C. -/
def execThermalThreshold (q : Fin 32) (s : State) : Result :=
  .next (s.onDev fun d =>
    let t := tempOf (d.quads[q]).temp
    let d1 := if 840 ≤ t then d.logEvent 0x05 none none none else d
    if 920 ≤ t ∧ d.mc.powered then (d1.onMc fun m => { m with thermal := true }).beginCheckpoint else d1)

/-- The quads of a powered part that are too hot for it to go on (R439). -/
def Dev.hotQuads (d : Dev) : List (Fin 32) :=
  if d.mc.powered then (List.finRange 32).filter fun q => decide (920 ≤ tempOf (d.quads[q]).temp) else []

/-- Whether the part may resume from a thermal checkpoint: every quad is below 95 °C. -/
def Dev.cool (d : Dev) : Bool := d.mc.st == .retention && d.mc.thermal && !d.mc.pfail && d.quads.all fun q => decide (tempOf q.temp < 760)

/-- THERMAL_RESUME (R439, R437). -/
def execThermalResume (s : State) : Result :=
  .next (s.onDev fun d => if d.cool then (if d.mc.retok then d.resume false else d.lostStart) else d)

/-! Time (R438) -/

/-- Sets what TSYNC says of the source. -/
def Mc.setSync (m : Mc) (k : Nat) : Mc := { m with tsync := putField m.tsync 0 2 k }

/-- Whether a time source (port 0, port 1, 1PPS) is enabled by TSRC and available. -/
def Mc.sourceOn (m : Mc) (k : Fin 3) : Bool := m.avail[k] && m.tsrc.getLsbD (if k.val < 2 then 0 else 1)

/-- Whether a source is the one in use: the first in order (R438). -/
def Mc.sourceUsed (m : Mc) (k : Fin 3) : Bool := m.sourceOn k && (List.finRange 3).all fun j => decide (k ≤ j) || !m.sourceOn j

/-- Whether holdover begins: the DCC has had a source, and none is left (R438). -/
def Mc.sourceLost (m : Mc) : Bool := (fieldOf m.tsync 0 2 == 1 || fieldOf m.tsync 0 2 == 2) && !(List.finRange 3).any m.sourceOn

/-- Largest offset in ns that is slewed forward. -/
def slewLimit : Int := 1000000

/-- PTP_MESSAGE (R438): the offset is slewed, or, forward above 1 ms, removed by a step; the DCC never decreases. -/
def execPtpMessage (port : Fin 3) (off : Int) (ppb : Int) (s : State) : Result :=
  .next (s.onDev fun d =>
    if !d.mc.sourceUsed port then d
    else
      let d1 := d.onMc fun m => { (m.setSync (if port.val < 2 then 1 else 2)) with toffs := BitVec.ofInt 64 off, holdover := ppb }
      if slewLimit < off then
        let step := fun (m : Mc) => { m with slew := 0, tsync := setBit m.tsync 2 true }
        { (d1.onMc step).logEvent 0x09 none none none with dcc := d.dcc + off.toNat }
      else d1.onMc fun m => { m with slew := off })

/-- DCC_HOLDOVER_ENTRY (R438). -/
def execDccHoldoverEntry (s : State) : Result := .next (s.onDev fun d => if d.mc.sourceLost then d.onMc fun m => m.setSync 3 else d)

end Sys2Proof.Machine
end

