-- ==== Sys2Proof/Machine/Mc.lean ====
section
/-! DEFINITION. The functions and registers of the management controller (R349, R429, R440–R445), called by a service core (`mcall`) or by the host
through the mailbox. -/

namespace Sys2Proof.Machine

/-! Who calls -/

/-- A function ends: s[d] of the core receives the result; the mailbox its RESULT and STATUS, and PF0 vector 1 is sent. -/
def State.mcDone (s : State) (c : Caller) (status : Nat) (result : Nat := 0) : Result :=
  match c with
  | .svc q d => .next (s.onDev fun x => x.onSvc q fun y => y.writeDest (.s d) (BitVec.ofNat 1024 (result % 2 ^ 64)) false)
  | .host _ => .next (s.onDev fun x => x.mailDone status result)

/-- An argument that the function cannot take: STATUS of the mailbox; for a core, the illegal-operand trap (log entry 36). -/
def State.mcBad (s : State) (c : Caller) (status : Nat) : Result :=
  match c with
  | .svc q _ => .next (s.svcTrap q 2 0 s.iss.addr)
  | .host _ => s.mcDone c status

/-- Whether a caller may name a bolt: the host any, a core its own (R442). -/
def Dev.mcMayBolt (d : Dev) (c : Caller) (b : Fin 32) : Bool :=
  match c with
  | .svc q _ => d.boltOfQuad q == some b
  | .host _ => true

/-- Whether a caller may name a quad. -/
def Dev.mcMayQuad (d : Dev) (c : Caller) (k : Fin 32) : Bool :=
  match c with
  | .svc q _ => (d.boltOfQuad q).any fun b => d.boltHasQuad b k
  | .host _ => true

/-- Whether a caller may name a tile. -/
def Dev.mcMayTile (d : Dev) (c : Caller) (n : Fin 128) : Bool := d.mcMayQuad c (quadOf n)

/-- A word of the mailbox's buffer: `n` bytes from byte `o`. -/
def Pf.mailBytes (p : Pf) (o n : Nat) : List Byte := (List.range n).map fun i => memRead p.mbuf (o + i)

/-! The registers (R426, R431, R445) -/

/-- Code of MCSTATE.STATE. -/
def McSt.code : McSt → Nat
  | .bringup => 0
  | .running => 1
  | .dormant => 2
  | .checkpoint => 3
  | .retention => 4
  | .resuming => 5

/-- MCSTATE. -/
def Mc.mcstate (m : Mc) : Nat := m.st.code + 8 * b2n m.bfail + 16 * (m.bstep % 16) + 256 * b2n m.cklost

/-- TJMAX: the highest quad temperature. -/
def Dev.tjmax (d : Dev) : W32 :=
  d.quads.foldl (fun t q => if tempOf t < tempOf q.temp then q.temp else t) (d.quads[(0 : Fin 32)]).temp

/-- TFENCE of a tile. -/
def Router.tfence (r : Router) (dcc : Nat) : Nat :=
  r.fence.val + 4 * Nat.min 3 ((r.fences.filter fun t => decide (dcc < t + dayNs)).length)

/-- VOTE of a router (R426): the other three neighbours of neighbour `k` are taken in order after `k`, this router left out (log entry 37). -/
def Dev.voteReg (d : Dev) (n : Fin 128) : Nat :=
  let r := d.routers[n]
  sumList ((List.finRange 4).map fun k =>
    let s := neighbour n k
    let x := r.nbr[k]
    let others := ([k + 1, k + 2, k + 3, k] : List (Fin 4)).filter fun j => neighbour s j != n
    let held := sumList ((others.take 3).zipIdx.map fun y => b2n (r.holdsVote s (neighbour s y.1) false d.dcc) * 2 ^ y.2)
    b2n x.susp * 2 ^ k.val + x.cause.toNat * 2 ^ (4 + 2 * k.val) + held * 2 ^ (12 + 3 * k.val) + b2n (r.fmap.getLsbD s.val) * 2 ^ (28 + k.val))

/-- What an MC register number names. -/
inductive McReg where
  | plain (v : Nat)
  | ofBolt (b : Fin 32) (v : Nat)
  | ofQuad (q : Fin 32) (v : Nat)
  | ofTile (n : Fin 128) (v : Nat)
  | none
  deriving DecidableEq, Repr

/-- The MC registers that belong to no one bolt, and their values (R445). -/
def Dev.mcPlain (d : Dev) (n : Nat) : Option Nat :=
  let m := d.mc
  match n with
  | 0x000 => some (Config.mcid m.mcfw).toNat
  | 0x001 => some m.mcstate
  | 0x010 => some m.tsync.toNat
  | 0x011 => some m.toffs.toNat
  | 0x012 => some m.tsrc.toNat
  | 0x040 => some m.xmssrem
  | 0x041 => some (m.svn[(0 : Fin 3)]).toNat
  | 0x042 => some (m.svn[(1 : Fin 3)]).toNat
  | 0x043 => some (m.svn[(2 : Fin 3)]).toNat
  | 0x050 => some d.tjmax.toNat
  | 0x051 => some m.pwr.toNat
  | 0x080 => some m.loghead.toNat
  | 0x081 => some m.logtail.toNat
  | 0x090 => some m.appctl.toNat
  | 0x800 => some m.hwdrop
  | 0x801 => some m.spdrop
  | 0x802 => some m.hostdrop
  | _ => none

/-- The place of a number in a block of registers. -/
def inBlock (n lo count : Nat) : Option Nat := if lo ≤ n ∧ n < lo + count then some (n - lo) else none

/-- An error counter of a bolt by its number k; the block's other numbers read 0. -/
def Bolt.counter (b : Bolt) (k : Nat) : Nat := if h : k < 14 then b.counters[k] else 0

/-- The MC registers with their values (R431, R445). -/
def Dev.mcReg (d : Dev) (n : Nat) : McReg :=
  let f := inBlock n
  match f 0x020 32, f 0x060 32, f 0x0a0 32, f 0x100 128, f 0x200 128, f 0x400 0x400 with
  | some i, _, _, _, _, _ => .ofBolt (idx 32 i) (d.mc.bdesc[idx 32 i]).toNat
  | _, some i, _, _, _, _ => .ofQuad (idx 32 i) (d.quads[idx 32 i]).temp.toNat
  | _, _, some i, _, _, _ => .ofBolt (idx 32 i) (d.mc.cdly[idx 32 i]).toNat
  | _, _, _, some i, _, _ => .ofTile (idx 128 i) ((d.routers[idx 128 i]).tfence d.dcc)
  | _, _, _, _, some i, _ => .ofTile (idx 128 i) (d.voteReg (idx 128 i))
  | _, _, _, _, _, some i => .ofBolt (idx 32 (i / 32)) ((d.bolts[idx 32 (i / 32)]).counter (i % 32))
  | _, _, _, _, _, _ => (d.mcPlain n).elim .none .plain

/-- MC_READ (R442, R445): a core reads what lies in its bolt, and what belongs to no one bolt. -/
def execMcRead (c : Caller) (arg : BitVec 64) (s : State) : Result :=
  let d := s.dev
  match d.mcReg arg.toNat with
  | .plain v => s.mcDone c 0 v
  | .ofBolt b v => if d.mcMayBolt c b then s.mcDone c 0 v else s.mcBad c 2
  | .ofQuad q v => if d.mcMayQuad c q then s.mcDone c 0 v else s.mcBad c 2
  | .ofTile n v => if d.mcMayTile c n then s.mcDone c 0 v else s.mcBad c 2
  | .none => s.mcBad c 2

/-- The MC with an RW register written; none for any other number. -/
def Mc.write (m : Mc) (n : Nat) (v : W64) : Option Mc :=
  let w : W32 := v.setWidth 32
  if n = 0x001 then some { m with cklost := m.cklost && !v.getLsbD 8 }
  else if n = 0x012 then some { m with tsrc := w &&& 7#32 }
  else if n = 0x090 then some { m with appctl := w &&& 1#32 }
  else (inBlock n 0x0a0 32).map fun i => { m with cdly := m.cdly.set (idx 32 i) w }

/-- MC_WRITE (R442): buffer bytes 0–7 hold the value; a register that is not RW is a bad argument (log entry 36). -/
def execMcWrite (c : Caller) (arg : BitVec 64) (s : State) : Result :=
  match s.dev.mc.write arg.toNat (BitVec.ofNat 64 (leNat (s.dev.pf.mailBytes 0 8))) with
  | some m => ({ s with dev := { s.dev with mc := m } } : State).mcDone c 0
  | none => s.mcBad c 2

/-- MC_CLEAR (R431, R442). -/
def execMcClear (c : Caller) (arg : BitVec 64) (s : State) : Result :=
  let b := idx 32 arg.toNat
  if arg.toNat < 32 && s.dev.mcMayBolt c b then
    (s.onDev fun d => d.onBolt b fun x => { x with counters := Vector.replicate 14 0 }).mcDone c 0
  else s.mcBad c 2

/-- MC_FENCE (R425, R427, R442): the tile's neighbours fence it as a vote would make them. -/
def execMcFence (c : Caller) (arg : BitVec 64) (s : State) : Result :=
  let n := idx 128 arg.toNat
  if arg.toNat < 128 && s.dev.mcMayTile c n then
    (s.onDev fun d => (List.finRange 4).foldl (fun d k => d.learnFence (neighbour n k) n) d).mcDone c 0
  else s.mcBad c 2

/-- MC_LOGREAD (R440, R442): the record of an index from LOGHEAD to LOGTAIL goes into buffer bytes 0–31. -/
def execMcLogread (c : Caller) (arg : BitVec 64) (s : State) : Result :=
  let m := s.dev.mc
  let i : W32 := arg.setWidth 32
  let held := decide (arg.toNat < 2 ^ 32) && decide ((i - m.loghead).toNat < (m.logtail - m.loghead).toNat)
  match (if held then m.log.find? fun x => x.1 == i.toNat % 4096 else none) with
  | some x => (s.onDev fun d => d.onPf fun p => { p with mbuf := memWriteList p.mbuf 0 (leBytes 32 x.2.toNat) }).mcDone c 0
  | none => s.mcBad c 2

/-- MC_LOG (R440, R442): a record of kind 0x0A with the payload. -/
def execMcLog (c : Caller) (arg : BitVec 64) (s : State) : Result :=
  let bolt := match c with
    | .svc q _ => (s.dev.boltOfQuad q).map Fin.val
    | .host _ => none
  (s.onDev fun d => d.logEvent 0x0a bolt none (some arg.toNat)).mcDone c 0

/-! BOLTSET (R348, R349) -/

/-- A bolt descriptor's rectangle of quads: left, top, width, height. -/
def descRect (v : W32) : Nat × Nat × Nat × Nat := (fieldOf v 0 3, fieldOf v 3 2, fieldOf v 5 3 + 1, fieldOf v 8 2 + 1)

/-- Whether two descriptors' rectangles share a quad. -/
def descMeets (a b : W32) : Bool :=
  let x := descRect a
  let y := descRect b
  decide (x.1 < y.1 + y.2.2.1) && decide (y.1 < x.1 + x.2.2.1) && decide (x.2.1 < y.2.1 + y.2.2.2) && decide (y.2.1 < x.2.1 + x.2.2.2)

/-- Whether BOLTSET refuses a descriptor (R349). -/
def Dev.refusesBolt (d : Dev) (b : Fin 32) (v : W32) : Bool :=
  let old := d.mc.bdesc[b]
  let r := descRect v
  let valid := v.getLsbD 31
  let clk := fieldOf v 28 3
  let busy := d.vdevs.any fun x => x.bolt == b
  let moved := old.getLsbD 31 != valid || fieldOf old 0 10 != fieldOf v 0 10
  let resvs := d.resvs.filter fun x => x.bolt == b
  decide (8 < r.1 + r.2.2.1) || decide (4 < r.2.1 + r.2.2.2)
    || ((List.finRange 32).any fun o => o != b && d.boltValid o && descMeets v d.mc.bdesc[o])
    || decide (4 < clk) || (busy && moved)
    || (fieldOf old 28 3 != clk && !admissible (d.boltTiles b).length (clockMhz clk) resvs)

/-- A descriptor is written: SVBOLT of the bolt's tiles follows, and, without a vdev, its clock (R349, R350). -/
def Dev.writeBolt (d : Dev) (b : Fin 32) (v : W32) : Dev :=
  let d1 := d.onMc fun m => { m with bdesc := m.bdesc.set b v }
  let d2 := if d1.boltValid b then d1.writeSvbolt b else d1
  if d.vdevs.any fun x => x.bolt == b then d2 else d2.onBolt b fun x => { x with clk := fieldOf v 28 3 }

/-- MC_BOLTSET (R348, R349). -/
def execMcBoltset (c : Caller) (arg : BitVec 64) (s : State) : Result :=
  let b := idx 32 arg.toNat
  let v : W32 := BitVec.ofNat 32 (leNat (s.dev.pf.mailBytes 0 4)) &&& bdescMask
  if 32 ≤ arg.toNat then s.mcBad c 2
  else if s.dev.refusesBolt b v then s.mcBad c 3
  else (s.onDev fun d => d.writeBolt b v).mcDone c 0

/-- MC_COLLAPSE (R432). -/
def execMcCollapse (c : Caller) (arg : BitVec 64) (s : State) : Result :=
  if (s.dev.vdev arg.toNat).isNone then s.mcBad c 2 else (s.onDev fun d => d.startCollapse arg.toNat).mcDone c 0

/-- MC_APPEAL (R429): of a fenced tile that is not retired, whose appeal is not in hand and that may appeal again; any other is refused. -/
def execMcAppeal (c : Caller) (arg : BitVec 64) (s : State) : Result :=
  let n := idx 128 arg.toNat
  let r := s.dev.routers[n]
  if 128 ≤ arg.toNat then s.mcBad c 2
  else if r.fence != 1 || r.testing.isSome || r.queued || !s.dev.mayAppeal n then s.mcBad c 3
  else (s.onDev fun d => d.startAppeal n).mcDone c 0

/-! Updates (R442, R443) -/

/-- Bytes of the mailbox's buffer. -/
def mailSize : Nat := 4032

/-- MC_UPDSTAGE (R442): the data go to an offset of the staging area, which they may extend but not leave a gap in (log entry 38). -/
def execMcUpdstage (c : Caller) (arg : BitVec 64) (s : State) : Result :=
  let n := leNat (s.dev.pf.mailBytes 0 4)
  let at_ := arg.toNat
  if mailSize < 4 + n || s.dev.mc.stage.length < at_ then s.mcBad c 2
  else (s.onDev fun d => d.onMc fun m => { m with stage := m.stage.take at_ ++ d.pf.mailBytes 4 n }).mcDone c 0

/-- MC_UPDCOMMIT (R443): the staged image is verified, checked against its counter, and written to the inactive slot of its kind. -/
def execMcUpdcommit (c : Caller) (arg : BitVec 64) (s : State) : Result :=
  let m := s.dev.mc
  if arg != 0#64 then s.mcBad c 2
  else match Config.updateHeader m.stage with
    | none => s.mcBad c 2
    | some h =>
      if !m.verifies h.1 m.stage then s.mcBad c 4
      else if h.2.1.toNat < (m.svn[h.1]).toNat then s.mcBad c 5
      else
        let put := fun (m : Mc) => { m with slots := m.slots.set h.1 (some m.stage), boots := m.boots.set h.1 0, stage := [] }
        (s.onDev fun d => (d.onMc put).logEvent 0x08 none none none).mcDone c 0

end Sys2Proof.Machine
end

