-- ==== Sys2Proof/Machine/Scalar.lean ====
section
/-! DEFINITION. The S slot: 64-bit integer operations, compares, bit fields, the work identifier, copies into S, state registers and
staging (R161–R170). -/

namespace Sys2Proof.Machine

/-- `add` (R161). -/
def execAdd (d a : Fin 32) (o : SOpd) (s : State) : Result := s.sOp 1 d a o true fun x y => x + y
/-- `sub`. -/
def execSub (d a : Fin 32) (o : SOpd) (s : State) : Result := s.sOp 1 d a o true fun x y => x - y
/-- `mul`. -/
def execMul (d a : Fin 32) (o : SOpd) (s : State) : Result := s.sOp 3 d a o true fun x y => x * y
/-- `mulh`: the upper half of the signed product. -/
def execMulh (d a : Fin 32) (o : SOpd) (s : State) : Result := s.sOp 3 d a o true fun x y => wrap 64 (x.toInt * y.toInt / 2 ^ 64)
/-- `mulhn`: the upper half of the unsigned product. -/
def execMulhn (d a : Fin 32) (o : SOpd) (s : State) : Result :=
  s.sOp 3 d a o false fun x y => BitVec.ofNat 64 (x.toNat * y.toNat / 2 ^ 64)
/-- `div`: signed, toward zero; by zero −1, and −2^63 by −1 gives −2^63. -/
def execDiv (d a : Fin 32) (o : SOpd) (s : State) : Result :=
  s.sOp 18 d a o true fun x y => if y = 0#64 then BitVec.allOnes 64 else wrap 64 (x.toInt.tdiv y.toInt)
/-- `divn`: unsigned; by zero all ones. -/
def execDivn (d a : Fin 32) (o : SOpd) (s : State) : Result :=
  s.sOp 18 d a o false fun x y => if y = 0#64 then BitVec.allOnes 64 else BitVec.ofNat 64 (x.toNat / y.toNat)
/-- `rem`: signed, with the sign of s[a]; by zero s[a]. -/
def execRem (d a : Fin 32) (o : SOpd) (s : State) : Result :=
  s.sOp 18 d a o true fun x y => if y = 0#64 then x else wrap 64 (x.toInt.tmod y.toInt)
/-- `remn`: unsigned; by zero s[a]. -/
def execRemn (d a : Fin 32) (o : SOpd) (s : State) : Result :=
  s.sOp 18 d a o false fun x y => if y = 0#64 then x else BitVec.ofNat 64 (x.toNat % y.toNat)
/-- `and`. -/
def execAnd (d a : Fin 32) (o : SOpd) (s : State) : Result := s.sOp 1 d a o false fun x y => x &&& y
/-- `or`. -/
def execOr (d a : Fin 32) (o : SOpd) (s : State) : Result := s.sOp 1 d a o false fun x y => x ||| y
/-- `xor`. -/
def execXor (d a : Fin 32) (o : SOpd) (s : State) : Result := s.sOp 1 d a o false fun x y => x ^^^ y
/-- `andn`. -/
def execAndn (d a : Fin 32) (o : SOpd) (s : State) : Result := s.sOp 1 d a o false fun x y => x &&& ~~~y
/-- `shl`: by opb[5:0]. -/
def execShl (d a : Fin 32) (o : SOpd) (s : State) : Result := s.sOp 1 d a o false fun x y => x <<< (y.toNat % 64)
/-- `shr`. -/
def execShr (d a : Fin 32) (o : SOpd) (s : State) : Result := s.sOp 1 d a o false fun x y => x >>> (y.toNat % 64)
/-- `sra`. -/
def execSra (d a : Fin 32) (o : SOpd) (s : State) : Result := s.sOp 1 d a o false fun x y => x.sshiftRight (y.toNat % 64)
/-- `rot`: rotate left. -/
def execRot (d a : Fin 32) (o : SOpd) (s : State) : Result := s.sOp 1 d a o false fun x y => x.rotateLeft (y.toNat % 64)

/-- Leading zeros of an n-bit value. -/
def leadingZeros (n v : Nat) : Nat := if v % 2 ^ n = 0 then n else n - 1 - Nat.log2 (v % 2 ^ n)

/-- Trailing zeros, counted over the n low bits. -/
def trailingZeros : Nat → Nat → Nat
  | 0, _ => 0
  | n + 1, v => if v % 2 = 1 then 0 else trailingZeros n (v / 2) + 1

/-- Set bits among the n low ones. -/
def popCount (n v : Nat) : Nat := sumList ((List.range n).map fun i => v / 2 ^ i % 2)

/-- `clz` (R162). -/
def execClz (d a : Fin 32) (s : State) : Result := s.sUn d a fun x => BitVec.ofNat 64 (leadingZeros 64 x.toNat)
/-- `ctz`. -/
def execCtz (d a : Fin 32) (s : State) : Result := s.sUn d a fun x => BitVec.ofNat 64 (trailingZeros 64 x.toNat)
/-- `popc`. -/
def execPopc (d a : Fin 32) (s : State) : Result := s.sUn d a fun x => BitVec.ofNat 64 (popCount 64 x.toNat)
/-- `min`: signed. -/
def execMin (d a : Fin 32) (o : SOpd) (s : State) : Result := s.sOp 1 d a o true fun x y => if x.slt y then x else y
/-- `max`. -/
def execMax (d a : Fin 32) (o : SOpd) (s : State) : Result := s.sOp 1 d a o true fun x y => if x.slt y then y else x
/-- `minn`: unsigned. -/
def execMinn (d a : Fin 32) (o : SOpd) (s : State) : Result := s.sOp 1 d a o false fun x y => if x.ult y then x else y
/-- `maxn`. -/
def execMaxn (d a : Fin 32) (o : SOpd) (s : State) : Result := s.sOp 1 d a o false fun x y => if x.ult y then y else x

/-- `cmp.eq` (R163). -/
def execCmpEq (d : Fin 8) (a : Fin 32) (o : SOpd) (s : State) : Result := s.sCmp d a o true fun x y => x == y
/-- `cmp.ne`. -/
def execCmpNe (d : Fin 8) (a : Fin 32) (o : SOpd) (s : State) : Result := s.sCmp d a o true fun x y => x != y
/-- `cmp.lt`. -/
def execCmpLt (d : Fin 8) (a : Fin 32) (o : SOpd) (s : State) : Result := s.sCmp d a o true fun x y => x.slt y
/-- `cmp.ge`. -/
def execCmpGe (d : Fin 8) (a : Fin 32) (o : SOpd) (s : State) : Result := s.sCmp d a o true fun x y => !x.slt y
/-- `cmp.ltn`. -/
def execCmpLtn (d : Fin 8) (a : Fin 32) (o : SOpd) (s : State) : Result := s.sCmp d a o false fun x y => x.ult y
/-- `cmp.gen`. -/
def execCmpGen (d : Fin 8) (a : Fin 32) (o : SOpd) (s : State) : Result := s.sCmp d a o false fun x y => !x.ult y
/-- `cmp.tst`. -/
def execCmpTst (d : Fin 8) (a : Fin 32) (o : SOpd) (s : State) : Result := s.sCmp d a o false fun x y => x &&& y != 0#64

/-- `sel` (R164): both register operands are read for poison. -/
def execSel (d : Fin 32) (p : Fin 8) (a : Fin 32) (o : SOpd) (s : State) : Result :=
  .next (s.putS 1 d (if s.readP p then s.readS a else s.sopd o true) (s.poisonS a || s.sopdPoison o))

/-- `li` (R165). -/
def execLi (d : Fin 32) (i : BitVec 17) (s : State) : Result := .next (s.putS 1 d (i.signExtend 64) false)

/-- `lih` (R165): the poison of s[d] is kept. -/
def execLih (d : Fin 32) (i : BitVec 16) (s : State) : Result :=
  .next (s.putS 1 d (s.readS d * 65536#64 + i.setWidth 64) (s.poisonS d))

/-- The field that `bfx` cuts (R166): its value and its length. -/
def bitField (x c : W64) : Nat × Nat :=
  let len := fieldOf c 8 6 + 1
  (x.toNat / 2 ^ fieldOf c 0 6 % 2 ^ len, len)

/-- `bfx` (R166). -/
def execBfx (d a : Fin 32) (o : SOpd) (s : State) : Result := s.sOp 1 d a o false fun x c => BitVec.ofNat 64 (bitField x c).1

/-- `bfx.s`. -/
def execBfxS (d a : Fin 32) (o : SOpd) (s : State) : Result :=
  s.sOp 1 d a o false fun x c => wrap 64 (signed (bitField x c).2 (bitField x c).1)

/-- `bfi` (R166): reads s[d]. -/
def execBfi (d a : Fin 32) (o : SOpd) (s : State) : Result :=
  let c := s.sopd o false
  .next (s.putS 1 d (putField (s.readS d) (fieldOf c 0 6) (fieldOf c 8 6 + 1) (s.readS a).toNat)
    (s.poisonS d || s.poisonS a || s.sopdPoison o))

/-- `sext.b` (R166). -/
def execSextB (d a : Fin 32) (s : State) : Result := s.sUn d a fun x => (x.setWidth 8).signExtend 64
/-- `sext.h`. -/
def execSextH (d a : Fin 32) (s : State) : Result := s.sUn d a fun x => (x.setWidth 16).signExtend 64
/-- `sext.w`. -/
def execSextW (d a : Fin 32) (s : State) : Result := s.sUn d a fun x => (x.setWidth 32).signExtend 64
/-- `sext.bn`: zero-extends. -/
def execSextBn (d a : Fin 32) (s : State) : Result := s.sUn d a fun x => (x.setWidth 8).setWidth 64
/-- `sext.hn`. -/
def execSextHn (d a : Fin 32) (s : State) : Result := s.sUn d a fun x => (x.setWidth 16).setWidth 64
/-- `sext.wn`. -/
def execSextWn (d a : Fin 32) (s : State) : Result := s.sUn d a fun x => (x.setWidth 32).setWidth 64

/-- W0 + … + W(k−1) of the issuing tile's cut (R30). -/
def State.widOffset (s : State) (k : Nat) : Nat := sumList (s.tile.sr.widths.toList.take k)

/-- The cut index c = WID >> (W0 + W1) (R30, R167). -/
def State.widCut (s : State) : Nat := s.tile.sr.wid.toNat / 2 ^ s.widOffset 2

/-- `widf.f0` to `.f5` (R167). -/
def execWidfField (d : Fin 32) (f : Fin 6) (s : State) : Result :=
  .next (s.putS 1 d (BitVec.ofNat 64 (field s.tile.sr.wid.toNat (s.widOffset f.val) s.tile.sr.widths[f])) false)

/-- `widf.gang`: c >> B, with B = W2 + … + W(g−1) (R31, R167). -/
def execWidfGang (d : Fin 32) (s : State) : Result :=
  .next (s.putS 1 d (BitVec.ofNat 64 (s.widCut / 2 ^ (s.widOffset s.tile.sr.gangField - s.widOffset 2))) false)

/-- `widf.cut`. -/
def execWidfCut (d : Fin 32) (s : State) : Result := .next (s.putS 1 d (BitVec.ofNat 64 s.widCut) false)

/-- `smov sd, kA` (R168). -/
def execSmovK (d : Fin 32) (a : Fin 16) (s : State) : Result := .next (s.putS 2 d ((s.readK a).setWidth 64) false)

/-- A 64-bit chunk of a vector register into S (R168). -/
def State.smovV (s : State) (f : VFile) (d a : Fin 32) (c : Fin 16) : Result :=
  s.attempt [s.chkV f a] fun s => s.putS 2 d ((s.readV f a >>> (64 * c.val)).setWidth 64) (s.poisonV f a)

/-- `smov sd, vaA, #c`. -/
def execSmovVa (d a : Fin 32) (c : Fin 16) (s : State) : Result := s.smovV .a d a c
/-- `smov sd, vbA, #c`. -/
def execSmovVb (d a : Fin 32) (c : Fin 16) (s : State) : Result := s.smovV .b d a c

/-- The predicates p7 to p0 as bits (R168); p0 reads true (R90). -/
def State.predicates (s : State) : BitVec 8 :=
  match s.cur with
  | .tile n => setBit (s.dev.tiles[n]).r.p 0 true
  | .svc q => setBit (s.dev.svcs[q]).p 0 true

/-- `smov sd, pred`. -/
def execSmovPred (d : Fin 32) (s : State) : Result := .next (s.putS 2 d (s.predicates.setWidth 64) false)
/-- `smov sd, maA`. -/
def execSmovMa (d : Fin 32) (a : Fin 8) (s : State) : Result := .next (s.putS 2 d ((s.readM .a a).setWidth 64) false)
/-- `smov sd, mbA`. -/
def execSmovMb (d : Fin 32) (a : Fin 8) (s : State) : Result := .next (s.putS 2 d ((s.readM .b a).setWidth 64) false)

/-- Whether the value for a BFMT gives a pitch that is no multiple of the span (R109). -/
def bfmtBad (v : W32) : Bool := bfmtPitch v % bfmtSpan v != 0

/-- Whether an M operation issued earlier still has an access to a bank to perform on or after the cycle `due` (R199). Operations of
the cycle in hand count as well. DEDUCED: log entry 19. -/
def Tile.bankBusy (t : Tile) (bank : Nat) (due : Nat) : Bool :=
  (t.tpath ++ t.apath).any fun o => o.accesses && o.bank.val == bank && decide (due < o.first + o.cnt)

/-- `mvst` (R169, R94, R109, R199). -/
def execMvst (n : BitVec 10) (a : Fin 32) (s : State) : Result :=
  let num := n.toNat
  let v : W64 := if s.poisonS a then 0#64 else s.readS a
  match s.cur with
  | .tile _ =>
    let isBfmt := decide (0x030 ≤ num) && decide (num ≤ 0x03f)
    s.attempt [chkOp (!srWritable num) 0x0f, chkOp (isBfmt && bfmtBad (v.setWidth 32)) 0x0f,
        chkOp (isBfmt && s.tile.bankBusy (num - 0x030) (s.psc + 1)) 0x0f] fun s =>
      s.putPZ 2 (.sr n) ((s.readS a).setWidth 1024) (s.poisonS a)
  | .svc q => s.attempt [chkOp (!svcSrWritable num) 0x0f] fun s => s.onDev fun d => d.onSvc q fun c => c.writeSr num v

/-- `mvfs` (R169, R94): the value as it stands at the start of the cycle, unpoisoned. -/
def execMvfs (d : Fin 32) (n : BitVec 10) (s : State) : Result :=
  let v := match s.cur with
    | .tile t => if n = 0x00A#10 then some s.dev.dcc else s.start.readSr t n.toNat
    | .svc q => s.dev.readSvcSr q n.toNat
  s.attempt [chkOp v.isNone 0x0f] fun s => s.putS 2 d (BitVec.ofNat 64 (v.getD 0)) false

/-- A staging write (R169): `mask` gives the half. -/
def State.putStaging (s : State) (d : Fin 16) (mask value : W64) (poison : Bool) : Result :=
  .next (s.put 1 (.d d) (if poison then 0#1024 else value.setWidth 1024) false fun f =>
    { f with mask := mask.setWidth 1024, pzero := poison })

/-- `dset` (R169). -/
def execDset (d : Fin 16) (a : Fin 32) (s : State) : Result := s.putStaging d (BitVec.allOnes 64) (s.readS a) (s.poisonS a)
/-- `dset.lo`: s[a] bits 31–0 into bits 31–0. -/
def execDsetLo (d : Fin 16) (a : Fin 32) (s : State) : Result := s.putStaging d 0xffffffff#64 (s.readS a) (s.poisonS a)
/-- `dset.hi`: s[a] bits 31–0 into bits 63–32. -/
def execDsetHi (d : Fin 16) (a : Fin 32) (s : State) : Result :=
  s.putStaging d 0xffffffff00000000#64 (s.readS a <<< 32) (s.poisonS a)

end Sys2Proof.Machine
end

