-- ==== Sys2Proof/Machine/VectorFloat.lean ====
section
/-! DEFINITION. The floating-point, special-function, conversion, packing, quantisation and scaling operations of the VA and VB slots,
with the floating-point reductions (R178, R180–R187, R189, R190). -/

namespace Sys2Proof.Machine

/-- A rounded result with the flags of its exact value. -/
def rounded (z : Bool) (f : FFmt) (rm : RMode) (v : Val × Flags) : Nat × Flags :=
  let r := roundFtz z f rm false v.1
  (r.1, r.2 ||| v.2)

/-- `vfadd` (R180). -/
def execVfadd (f : VFile) (d a : Fin 32) (o : VOpd) (ft : FTy) (rm : RMode) (m : Fin 4) (s : State) : Result :=
  s.vFlt f d a o ft m false fun z x y _ => rounded z (ftyFmt ft) rm (addVal rm x y)
/-- `vfsub`. -/
def execVfsub (f : VFile) (d a : Fin 32) (o : VOpd) (ft : FTy) (rm : RMode) (m : Fin 4) (s : State) : Result :=
  s.vFlt f d a o ft m false fun z x y _ => rounded z (ftyFmt ft) rm (addVal rm x y.negate)
/-- `vfmul`. -/
def execVfmul (f : VFile) (d a : Fin 32) (o : VOpd) (ft : FTy) (rm : RMode) (m : Fin 4) (s : State) : Result :=
  s.vFlt f d a o ft m false fun z x y _ => rounded z (ftyFmt ft) rm (mulVal x y)
/-- `vffma`: reads d; one rounding. -/
def execVffma (f : VFile) (d a : Fin 32) (o : VOpd) (ft : FTy) (rm : RMode) (m : Fin 4) (s : State) : Result :=
  s.vFlt f d a o ft m true fun z x y c => rounded z (ftyFmt ft) rm (fmaVal rm x y c)
/-- `vfmin`. -/
def execVfmin (f : VFile) (d a : Fin 32) (o : VOpd) (ft : FTy) (m : Fin 4) (s : State) : Result :=
  s.vFlt f d a o ft m false fun z x y _ => rounded z (ftyFmt ft) .rne (minVal x y)
/-- `vfmax`. -/
def execVfmax (f : VFile) (d a : Fin 32) (o : VOpd) (ft : FTy) (m : Fin 4) (s : State) : Result :=
  s.vFlt f d a o ft m false fun z x y _ => rounded z (ftyFmt ft) .rne (maxVal x y)

/-- The sign operations (R181): the magnitude of x and a sign from the sign bits of x and y. -/
def State.vSign (s : State) (x : VFile) (d a : Fin 32) (o : VOpd) (ft : FTy) (m : Fin 4) (f : Bool → Bool → Bool) : Result :=
  let ff := ftyFmt ft
  let w := ff.width
  let z := s.ftz x
  let va := s.readV x a
  let vb := s.vopdF x o ff
  s.laneOp x 4 d (a :: vopdNames o) (s.poisonV x a || s.vopdPoison x o) (s.opMask x m.val) w fun j =>
    let v := ftzIn z ff (decodeF ff (lane w va j))
    if v.isNan then (ff.nan, flIf v.isSig flNV)
    else ((roundTo ff .rne false (v.withSign (f (bit (lane w va j) (w - 1)) (bit (lane w vb j) (w - 1))))).1, 0#6)

/-- `vfsgn.j`. -/
def execVfsgnJ (f : VFile) (d a : Fin 32) (o : VOpd) (ft : FTy) (m : Fin 4) (s : State) : Result :=
  s.vSign f d a o ft m fun _ y => y
/-- `vfsgn.jn`. -/
def execVfsgnJn (f : VFile) (d a : Fin 32) (o : VOpd) (ft : FTy) (m : Fin 4) (s : State) : Result :=
  s.vSign f d a o ft m fun _ y => !y
/-- `vfsgn.jx`. -/
def execVfsgnJx (f : VFile) (d a : Fin 32) (o : VOpd) (ft : FTy) (m : Fin 4) (s : State) : Result :=
  s.vSign f d a o ft m fun x y => x != y

/-- A floating-point compare (R178): `quiet` tells whether a quiet NaN raises nothing. -/
def State.vFltCmp (s : State) (x : VFile) (d : Fin 8) (a : Fin 32) (o : VOpd) (ft : FTy) (quiet : Bool) (f : Val → Val → Bool) :
    Result :=
  let ff := ftyFmt ft
  let w := ff.width
  let z := s.ftz x
  let va := s.readV x a
  let vb := s.vopdF x o ff
  s.vCmp x 4 d (a :: vopdNames o) (s.poisonV x a || s.vopdPoison x o) w fun j =>
    let u := ftzIn z ff (decodeF ff (lane w va j))
    let v := ftzIn z ff (decodeF ff (lane w vb j))
    (f u v, flIf (if quiet then u.isSig || v.isSig else u.isNan || v.isNan) flNV)

/-- `vfcmp.eq`. -/
def execVfcmpEq (f : VFile) (d : Fin 8) (a : Fin 32) (o : VOpd) (ft : FTy) (s : State) : Result :=
  s.vFltCmp f d a o ft true fun x y => x.eq y
/-- `vfcmp.ne`: true for a NaN. -/
def execVfcmpNe (f : VFile) (d : Fin 8) (a : Fin 32) (o : VOpd) (ft : FTy) (s : State) : Result :=
  s.vFltCmp f d a o ft true fun x y => !x.eq y
/-- `vfcmp.lt`. -/
def execVfcmpLt (f : VFile) (d : Fin 8) (a : Fin 32) (o : VOpd) (ft : FTy) (s : State) : Result :=
  s.vFltCmp f d a o ft false fun x y => x.lt y
/-- `vfcmp.le`. -/
def execVfcmpLe (f : VFile) (d : Fin 8) (a : Fin 32) (o : VOpd) (ft : FTy) (s : State) : Result :=
  s.vFltCmp f d a o ft false fun x y => x.lt y || x.eq y
/-- `vfcmp.un`. -/
def execVfcmpUn (f : VFile) (d : Fin 8) (a : Fin 32) (o : VOpd) (ft : FTy) (s : State) : Result :=
  s.vFltCmp f d a o ft true fun x y => x.isNan || y.isNan
/-- `vfcmp.ord`. -/
def execVfcmpOrd (f : VFile) (d : Fin 8) (a : Fin 32) (o : VOpd) (ft : FTy) (s : State) : Result :=
  s.vFltCmp f d a o ft true fun x y => !x.isNan && !y.isNan

/-- The class word of R182. -/
def classOf (f : FFmt) (v : Val) : Nat :=
  match v with
  | .nan sig => if sig then 256 else 512
  | .inf neg => if neg then 1 else 128
  | .fin neg num den e =>
    if num = 0 then (if neg then 8 else 16)
    else if floorLog2 num den e < f.emin then (if neg then 4 else 32)
    else if neg then 2 else 64

/-- `vfclass` (R182): no flag. -/
def execVfclass (f : VFile) (d a : Fin 32) (ft : FTy) (m : Fin 4) (s : State) : Result :=
  let ff := ftyFmt ft
  let z := s.ftz f
  let va := s.readV f a
  s.laneOp f 4 d [a] (s.poisonV f a) (s.opMask f m.val) ff.width fun j =>
    (classOf ff (ftzIn z ff (decodeF ff (lane ff.width va j))), 0#6)

/-- A special function on fp32 lanes (R183). -/
def State.vSfu (s : State) (x : VFile) (d a : Fin 32) (m : Fin 4) (f : Bool → Nat → Nat × Flags) : Result :=
  let z := s.ftz x
  let va := s.readV x a
  s.laneOp x 8 d [a] (s.poisonV x a) (s.opMask x m.val) 32 fun j => f z (lane 32 va j)

/-- `vexp2`. -/
def execVexp2 (f : VFile) (d a : Fin 32) (m : Fin 4) (s : State) : Result := s.vSfu f d a m sfuExp2
/-- `vlog2`. -/
def execVlog2 (f : VFile) (d a : Fin 32) (m : Fin 4) (s : State) : Result := s.vSfu f d a m sfuLog2
/-- `vrcp`. -/
def execVrcp (f : VFile) (d a : Fin 32) (m : Fin 4) (s : State) : Result := s.vSfu f d a m sfuRcp
/-- `vrsqrt`. -/
def execVrsqrt (f : VFile) (d a : Fin 32) (m : Fin 4) (s : State) : Result := s.vSfu f d a m sfuRsqrt

/-- The element format of a `vcvt` code (R184). -/
def cfmtEl : CFmt → ElF
  | .i8 => .int true 8
  | .n8 => .int false 8
  | .i16 => .int true 16
  | .n16 => .int false 16
  | .i32 => .int true 32
  | .n32 => .int false 32
  | .fp16 => .flt .fp16
  | .bf16 => .flt .bf16
  | .fp32 => .flt .fp32
  | .e4m3 => .flt .e4m3
  | .e5m2 => .flt .e5m2

/-- ORs the flags of a list of lane results. -/
def allFlags (l : List (Nat × Flags)) : Flags := l.foldl (fun a y => a ||| y.2) 0#6

/-- The bits of `n` lanes of width w from lane `first`. -/
def laneSpan (w first n : Nat) : VReg := BitVec.ofNat 1024 ((2 ^ (w * n) - 1) * 2 ^ (w * first))

/-- `vcvt` (R184): a narrowing conversion writes only its part of vd. -/
def execVcvt (f : VFile) (d a : Fin 32) (dt st : CFmt) (rm : RMode) (sat : Bool) (part : Option (BitVec 2)) (s : State) : Result :=
  let src := cfmtEl st
  let dst := cfmtEl dt
  let ws := src.width
  let wd := dst.width
  let n := 1024 / Nat.max ws wd
  let p := part.elim 0 BitVec.toNat
  let z := s.ftz f
  let va := s.readV f a
  s.attempt (s.chkVs f [d, a]) fun s =>
    let r := (List.range n).map fun k => convert z src dst rm sat (lane ws va (if ws < wd then p * n + k else k))
    let v := ofLanes wd (r.map Prod.fst)
    if wd < ws then s.putV 3 f d (v <<< (wd * (p * n))) (some (laneSpan wd (p * n) n)) (s.poisonV f a) (allFlags r)
    else s.putV 3 f d v none (s.poisonV f a) (allFlags r)

/-- KIND of `vpack`: source width and signedness, target width and signedness (R185). -/
def packKind (k : Fin 7) : Nat × Bool × Nat × Bool :=
  match k.val with
  | 0 => (32, true, 16, true)
  | 1 => (16, true, 8, true)
  | 2 => (8, true, 4, true)
  | 3 => (32, true, 16, false)
  | 4 => (16, true, 8, false)
  | 5 => (32, false, 16, false)
  | _ => (16, false, 8, false)

/-- `vpack` (R185). -/
def execVpack (f : VFile) (d a b : Fin 32) (kind : Fin 7) (sat : Bool) (s : State) : Result :=
  let k := packKind kind
  let ws := k.1
  let wd := k.2.2.1
  let l := laneCount ws
  s.attempt (s.chkVs f [d, a, b]) fun s =>
    let r := (List.range (2 * l)).map fun j =>
      let x := intVal k.2.1 ws (lane ws (s.readV f (if j < l then a else b)) (j % l))
      if sat then
        let y := satInt k.2.2.2 wd x
        (wrapNat wd y, flIf (y != x) flSAT)
      else (wrapNat wd x, 0#6)
    s.putV 3 f d (ofLanes wd (r.map Prod.fst)) none (s.poisonV f a || s.poisonV f b) (allFlags r)

/-- KIND of `vunpack`: source width, target width, sign-extended (R185). -/
def unpackKind (k : Fin 6) : Nat × Nat × Bool :=
  match k.val with
  | 0 => (16, 32, true)
  | 1 => (8, 16, true)
  | 2 => (4, 8, true)
  | 3 => (16, 32, false)
  | 4 => (8, 16, false)
  | _ => (4, 8, false)

/-- `vunpack` (R185). -/
def execVunpack (f : VFile) (d a : Fin 32) (kind : Fin 6) (hi : Bool) (s : State) : Result :=
  let k := unpackKind kind
  let va := s.readV f a
  s.attempt (s.chkVs f [d, a]) fun s =>
    let v := mapLanes k.2.1 fun j => wrapNat k.2.1 (intVal k.2.2 k.1 (lane k.1 va (b2n hi * laneCount k.2.1 + j)))
    s.putV 3 f d v none (s.poisonV f a) 0#6

/-- The 32 lanes that `vquant` encodes, after FTZ (R186). -/
def State.quantVals (s : State) (f : VFile) (a : Fin 32) : List Val :=
  (List.range 32).map fun j => ftzIn (s.ftz f) .fp32 (fp32 (lane 32 (s.readV f a) j))

/-- The block that `vquant` computes (R186); FTZ has acted on the inputs (R71). -/
def State.quantBlock (s : State) (f : VFile) (a : Fin 32) (e : BElem) : Block :=
  encodeBlock (s.quantVals f a) e

/-- The elements of that block after the flush of results (R71, R175): under FTZ a float element whose exact value lies below 2^Emin of its format
is the zero of its sign. The second part tells whether one was flushed. DEDUCED: log entry 20. -/
def State.quantEls (s : State) (f : VFile) (a : Fin 32) (e : BElem) : List Nat × Bool :=
  let b := s.quantBlock f a e
  match blockFmt e with
  | .int _ _ => (b.els, false)
  | .flt g =>
    let tiny := fun (v : Val) => s.ftz f && !b.nan && !v.isZero && decide (v.log2 - ((b.scale : Int) - 127) < g.emin)
    let l := s.quantVals f a
    ((l.zip b.els).map fun x => if tiny x.1 then g.signed x.1.neg 0 else x.2, l.any tiny)

/-- `vquant` (R186). -/
def execVquant (f : VFile) (d a : Fin 32) (e : BElem) (n : Fin 32) (s : State) : Result :=
  s.attempt (s.chkVs f [d, a]) fun s =>
    let b := s.quantBlock f a e
    let w := (blockFmt e).width
    let e := s.quantEls f a e
    let fl := flIf b.nan flNV ||| flIf (decide (0 < b.sat)) flSAT ||| flIf b.inexact flNX ||| flIf e.2 (flUF ||| flNX)
    s.putV 6 f d (ofLanes w e.1 <<< (32 * w * n.val)) (some (laneSpan w (32 * n.val) 32)) (s.poisonV f a) fl

/-- `vquant.scale` (R186). -/
def execVquantScale (f : VFile) (d a : Fin 32) (e : BElem) (n : Fin 32) (s : State) : Result :=
  s.attempt (s.chkVs f [d, a]) fun s =>
    let b := s.quantBlock f a e
    s.putV 6 f d (BitVec.ofNat 1024 (b.scale * 2 ^ (8 * n.val))) (some (laneSpan 8 n.val 1)) (s.poisonV f a) (flIf b.nan flNV)

/-- `vscale` (R187). -/
def execVscale (f : VFile) (d a : Fin 32) (o : VScale) (rm : RMode) (m : Fin 4) (s : State) : Result :=
  let z := s.ftz f
  let va := s.readV f a
  let byte := fun j => match o with
    | .reg r => lane 8 (s.readV f r) j
    | .imm e => e.toNat
  let names := match o with
    | .reg r => [a, r]
    | .imm _ => [a]
  let poison := match o with
    | .reg r => s.poisonV f a || s.poisonV f r
    | .imm _ => s.poisonV f a
  s.laneOp f 3 d names poison (s.opMask f m.val) 32 fun j =>
    let x := ftzIn z .fp32 (fp32 (lane 32 va j))
    match scaleExp (byte j) with
    | none => (FFmt.nan .fp32, flNV)
    | some k =>
      let r := roundFtz z .fp32 rm false (x.scale k)
      (r.1, r.2 ||| flIf x.isSig flNV)

/-- The enabled lanes of a register widened exactly to fp32 after FTZ; reading a signalling NaN raises NV (R189, R190, R63). -/
def State.widened (s : State) (f : VFile) (a : Fin 32) (ft : FTy) (m : Fin 4) : List (Option Val) × Flags :=
  let ff := ftyFmt ft
  let w := ff.width
  let va := s.readV f a
  let mk := s.opMask f m.val
  let l := (List.range (laneCount w)).map fun j =>
    if enabled mk w j then some (ftzIn (s.ftz f) ff (decodeF ff (lane w va j))) else none
  (l.map fun x => x.map fun v => if v.isNan then .nan false else v, flIf (l.any fun x => x.any Val.isSig) flNV)

/-- One level of the tree of R190. -/
def treeLevel (z : Bool) (rm : RMode) : List (Option Val) → List (Option Val) × Flags
  | a :: b :: r =>
    let t := treeLevel z rm r
    match a, b with
    | none, x => (x :: t.1, t.2)
    | x, none => (x :: t.1, t.2)
    | some x, some y =>
      let v := rounded z .fp32 rm (addVal rm x y)
      (some (fp32 v.1) :: t.1, t.2 ||| v.2)
  | l => (l, 0#6)

/-- The tree sum of R190, level by level. -/
def treeSum (z : Bool) (rm : RMode) : Nat → List (Option Val) → Option Val × Flags
  | 0, l => (l.head?.join, 0#6)
  | n + 1, l =>
    let t := treeLevel z rm l
    let r := treeSum z rm n t.1
    (r.1, r.2 ||| t.2)

/-- `vfredsum` (R189, R190). -/
def execVfredsum (f : VFile) (d a : Fin 32) (ft : FTy) (rm : RMode) (m : Fin 4) (s : State) : Result :=
  s.attempt (s.chkVs f [d, a]) fun s =>
    let l := s.widened f a ft m
    let r := treeSum (s.ftz f) rm (Nat.log2 l.1.length) l.1
    s.putV 8 f d (BitVec.ofNat 1024 (toFp32 (r.1.getD Val.zero)).1) none (s.poisonV f a) (r.2 ||| l.2)

/-- `vfredmax` (R189): −Inf with no lane enabled. -/
def execVfredmax (f : VFile) (d a : Fin 32) (ft : FTy) (m : Fin 4) (s : State) : Result :=
  s.attempt (s.chkVs f [d, a]) fun s =>
    let l := s.widened f a ft m
    let r := l.1.foldl (fun acc x => match x with
      | some v => (maxVal acc v).1
      | none => acc) (Val.inf true)
    s.putV 4 f d (BitVec.ofNat 1024 (toFp32 r).1) none (s.poisonV f a) l.2

end Sys2Proof.Machine
end

