-- ==== Sys2Proof/Machine/VectorInt.lean ====
section
/-! DEFINITION. The integer, logic, dot-product, compare, selection, mask and CRC operations of the VA and VB slots (R176–R179, R188,
R189, R195, R196). -/

namespace Sys2Proof.Machine

/-- `vadd` (R176). -/
def execVadd (f : VFile) (d a : Fin 32) (o : VOpd) (ty : ITy) (m : Fin 8) (s : State) : Result :=
  s.vInt f 2 d a o ty m fun x y => (x + y, 0#6)
/-- `vsub`. -/
def execVsub (f : VFile) (d a : Fin 32) (o : VOpd) (ty : ITy) (m : Fin 8) (s : State) : Result :=
  s.vInt f 2 d a o ty m fun x y => (x - y, 0#6)
/-- `vmul`. -/
def execVmul (f : VFile) (d a : Fin 32) (o : VOpd) (ty : ITy) (m : Fin 8) (s : State) : Result :=
  s.vInt f 4 d a o ty m fun x y => (x * y, 0#6)
/-- `vmulh`: the high half of the exact product. -/
def execVmulh (f : VFile) (d a : Fin 32) (o : VOpd) (ty : ITy) (m : Fin 8) (s : State) : Result :=
  s.vInt f 4 d a o ty m fun x y => (x * y / 2 ^ ityWidth ty, 0#6)
/-- `vmin`. -/
def execVmin (f : VFile) (d a : Fin 32) (o : VOpd) (ty : ITy) (m : Fin 8) (s : State) : Result :=
  s.vInt f 2 d a o ty m fun x y => (min x y, 0#6)
/-- `vmax`. -/
def execVmax (f : VFile) (d a : Fin 32) (o : VOpd) (ty : ITy) (m : Fin 8) (s : State) : Result :=
  s.vInt f 2 d a o ty m fun x y => (max x y, 0#6)
/-- `vabs`. -/
def execVabs (f : VFile) (d a : Fin 32) (ty : ITy) (m : Fin 8) (s : State) : Result :=
  s.vInt f 2 d a (.imm 0#16) ty m fun x _ => (x.natAbs, 0#6)
/-- `vneg`. -/
def execVneg (f : VFile) (d a : Fin 32) (ty : ITy) (m : Fin 8) (s : State) : Result :=
  s.vInt f 2 d a (.imm 0#16) ty m fun x _ => (-x, 0#6)
/-- `vand`. -/
def execVand (f : VFile) (d a : Fin 32) (o : VOpd) (m : Fin 8) (s : State) : Result := s.vBits f d a o 32 m fun x y => x &&& y
/-- `vor`. -/
def execVor (f : VFile) (d a : Fin 32) (o : VOpd) (m : Fin 8) (s : State) : Result := s.vBits f d a o 32 m fun x y => x ||| y
/-- `vxor`. -/
def execVxor (f : VFile) (d a : Fin 32) (o : VOpd) (m : Fin 8) (s : State) : Result := s.vBits f d a o 32 m fun x y => x ^^^ y
/-- `vnot`. -/
def execVnot (f : VFile) (d a : Fin 32) (m : Fin 8) (s : State) : Result :=
  s.vBits f d a (.imm 0#16) 32 m fun x _ => 2 ^ 32 - 1 - x
/-- `vshl`: the count is taken modulo the lane width. -/
def execVshl (f : VFile) (d a : Fin 32) (o : VOpd) (ty : ITy) (m : Fin 8) (s : State) : Result :=
  s.vBits f d a o (ityWidth ty) m fun x y => x * 2 ^ (y % ityWidth ty)
/-- `vshr`: logical. -/
def execVshr (f : VFile) (d a : Fin 32) (o : VOpd) (ty : ITy) (m : Fin 8) (s : State) : Result :=
  s.vBits f d a o (ityWidth ty) m fun x y => x / 2 ^ (y % ityWidth ty)
/-- `vsra`: arithmetic, whatever the signedness of TY. -/
def execVsra (f : VFile) (d a : Fin 32) (o : VOpd) (ty : ITy) (m : Fin 8) (s : State) : Result :=
  s.vBits f d a o (ityWidth ty) m fun x y => wrapNat (ityWidth ty) (signed (ityWidth ty) x / 2 ^ (y % ityWidth ty))

/-- A saturated lane result with SAT (R176). -/
def satLane (ty : ITy) (x : Int) : Int × Flags :=
  let y := satInt (itySigned ty) (ityWidth ty) x
  (y, flIf (y != x) flSAT)

/-- `vadds`. -/
def execVadds (f : VFile) (d a : Fin 32) (o : VOpd) (ty : ITy) (m : Fin 8) (s : State) : Result :=
  s.vInt f 2 d a o ty m fun x y => satLane ty (x + y)
/-- `vsubs`. -/
def execVsubs (f : VFile) (d a : Fin 32) (o : VOpd) (ty : ITy) (m : Fin 8) (s : State) : Result :=
  s.vInt f 2 d a o ty m fun x y => satLane ty (x - y)

/-- Signedness of operands a and b of `vdot4` (R177). -/
def signsOf : Signs → Bool × Bool
  | .ii => (true, true)
  | .ni => (false, true)
  | .nn => (false, false)

/-- A dot product of `n` parts of width w into each 32-bit lane of d (R177). -/
def State.vDot (s : State) (x : VFile) (d a b : Fin 32) (w n : Nat) (sg : Bool × Bool) (sat : Bool) (m : Fin 8) : Result :=
  let va := s.readV x a
  let vb := s.readV x b
  let vd := s.readV x d
  s.laneOp x 4 d [a, b] (s.poisonV x a || s.poisonV x b || s.poisonV x d) (s.opMask x m.val) 32 fun j =>
    let p := (List.range n).foldl (fun (acc : Int) k =>
      acc + intVal sg.1 w (lane w va (n * j + k)) * intVal sg.2 w (lane w vb (n * j + k))) 0
    let v := intVal true 32 (lane 32 vd j) + p
    if sat then
      let r := satInt true 32 v
      (wrapNat 32 r, flIf (r != v) flSAT)
    else (wrapNat 32 v, 0#6)

/-- `vdot4` (R177). -/
def execVdot4 (f : VFile) (d a b : Fin 32) (sg : Signs) (sat : Bool) (m : Fin 8) (s : State) : Result :=
  s.vDot f d a b 8 4 (signsOf sg) sat m
/-- `vdot8` (R177): signed nibbles. -/
def execVdot8 (f : VFile) (d a b : Fin 32) (sat : Bool) (m : Fin 8) (s : State) : Result := s.vDot f d a b 4 8 (true, true) sat m

/-- An integer compare (R178). -/
def State.vIntCmp (s : State) (x : VFile) (d : Fin 8) (a : Fin 32) (o : VOpd) (ty : ITy) (f : Int → Int → Bool) : Result :=
  let w := ityWidth ty
  let va := s.readV x a
  let vb := s.vopd x o w (itySigned ty)
  s.vCmp x 2 d (a :: vopdNames o) (s.poisonV x a || s.vopdPoison x o) w fun j =>
    (f (intVal (itySigned ty) w (lane w va j)) (intVal (itySigned ty) w (lane w vb j)), 0#6)

/-- `vcmp.eq`. -/
def execVcmpEq (f : VFile) (d : Fin 8) (a : Fin 32) (o : VOpd) (ty : ITy) (s : State) : Result :=
  s.vIntCmp f d a o ty fun x y => decide (x = y)
/-- `vcmp.ne`. -/
def execVcmpNe (f : VFile) (d : Fin 8) (a : Fin 32) (o : VOpd) (ty : ITy) (s : State) : Result :=
  s.vIntCmp f d a o ty fun x y => decide (x ≠ y)
/-- `vcmp.lt`. -/
def execVcmpLt (f : VFile) (d : Fin 8) (a : Fin 32) (o : VOpd) (ty : ITy) (s : State) : Result :=
  s.vIntCmp f d a o ty fun x y => decide (x < y)
/-- `vcmp.le`. -/
def execVcmpLe (f : VFile) (d : Fin 8) (a : Fin 32) (o : VOpd) (ty : ITy) (s : State) : Result :=
  s.vIntCmp f d a o ty fun x y => decide (x ≤ y)
/-- `vcmp.gt`. -/
def execVcmpGt (f : VFile) (d : Fin 8) (a : Fin 32) (o : VOpd) (ty : ITy) (s : State) : Result :=
  s.vIntCmp f d a o ty fun x y => decide (y < x)
/-- `vcmp.ge`. -/
def execVcmpGe (f : VFile) (d : Fin 8) (a : Fin 32) (o : VOpd) (ty : ITy) (s : State) : Result :=
  s.vIntCmp f d a o ty fun x y => decide (y ≤ x)

/-- `vsel` (R179): every lane is written; both sources are read. -/
def execVsel (f : VFile) (d a : Fin 32) (o : VOpd) (m : Fin 8) (s : State) : Result :=
  let va := s.readV f a
  let vb := s.vopd f o 32 true
  let mk := s.opMask f m.val
  s.laneOp f 2 d (a :: vopdNames o) (s.poisonV f a || s.vopdPoison f o) none 32 fun j =>
    (if enabled mk 32 j then lane 32 va j else lane 32 vb j, 0#6)

/-- `vfxd` (R188): digit j of each fp32 lane; a NaN or an infinity yields 0 with NV, and FTZ does not act. -/
def execVfxd (f : VFile) (d a : Fin 32) (j : Fin 9) (m : Fin 8) (s : State) : Result :=
  let va := s.readV f a
  s.laneOp f 3 d [a] (s.poisonV f a) (s.opMask f m.val) 32 fun k =>
    let x := fp32 (lane 32 va k)
    (wrapNat 32 (fxdDigit x j.val), flIf (x.isNan || x.isInf) flNV)

/-- An integer reduction: a 64-bit value at the bottom of vd and zeros above; the poison is that of the source alone (R189). -/
def State.vRed (s : State) (x : VFile) (d a : Fin 32) (ty : ITy) (m : Fin 8) (init : Int) (f : Int → Int → Int) : Result :=
  let w := ityWidth ty
  let va := s.readV x a
  s.attempt (s.chkVs x [d, a]) fun s =>
    let r := (enabledLanes (s.opMask x m.val) w).foldl (fun acc j => f acc (intVal (itySigned ty) w (lane w va j))) init
    s.putV 4 x d ((wrap 64 r).setWidth 1024) none (s.poisonV x a) 0#6

/-- The least value of a type. -/
def ityMin (ty : ITy) : Int := if itySigned ty then -(2 ^ (ityWidth ty - 1)) else 0

/-- The greatest value of a type. -/
def ityMax (ty : ITy) : Int := if itySigned ty then 2 ^ (ityWidth ty - 1) - 1 else 2 ^ ityWidth ty - 1

/-- `vredsum`. -/
def execVredsum (f : VFile) (d a : Fin 32) (ty : ITy) (m : Fin 8) (s : State) : Result := s.vRed f d a ty m 0 fun x y => x + y
/-- `vredmax`: the least value of TY with no lane enabled. -/
def execVredmax (f : VFile) (d a : Fin 32) (ty : ITy) (m : Fin 8) (s : State) : Result := s.vRed f d a ty m (ityMin ty) max
/-- `vredmin`: the greatest value of TY with no lane enabled. -/
def execVredmin (f : VFile) (d a : Fin 32) (ty : ITy) (m : Fin 8) (s : State) : Result := s.vRed f d a ty m (ityMax ty) min

/-- Operand b of `mlog` (R195). -/
def State.mopd (s : State) (x : VFile) (o : MOpd) : W32 :=
  match o with
  | .reg r => s.readM x r
  | .imm i => i.setWidth 32

/-- A mask operation of latency 1 (R195). -/
def State.mLog (s : State) (x : VFile) (d a : Fin 8) (o : MOpd) (f : W32 → W32 → W32) : Result :=
  .next (s.put 1 (.m x d) ((f (s.readM x a) (s.mopd x o)).setWidth 1024) false)

/-- `mlog.and`. -/
def execMlogAnd (f : VFile) (d a : Fin 8) (o : MOpd) (s : State) : Result := s.mLog f d a o fun x y => x &&& y
/-- `mlog.or`. -/
def execMlogOr (f : VFile) (d a : Fin 8) (o : MOpd) (s : State) : Result := s.mLog f d a o fun x y => x ||| y
/-- `mlog.xor`. -/
def execMlogXor (f : VFile) (d a : Fin 8) (o : MOpd) (s : State) : Result := s.mLog f d a o fun x y => x ^^^ y
/-- `mlog.andn`. -/
def execMlogAndn (f : VFile) (d a : Fin 8) (o : MOpd) (s : State) : Result := s.mLog f d a o fun x y => x &&& ~~~y
/-- `mlog.orn`. -/
def execMlogOrn (f : VFile) (d a : Fin 8) (o : MOpd) (s : State) : Result := s.mLog f d a o fun x y => x ||| ~~~y

/-- Set bits of a mask. -/
def maskCount (m : W32) : Nat := ((List.range 32).filter fun i => m.getLsbD i).length

/-- Index of the lowest set bit of a mask, or 32. -/
def maskFirst (m : W32) : Nat := ((List.range 32).find? fun i => m.getLsbD i).getD 32

/-- A number in lane 0 of vd, zeros above, unpoisoned (R195). -/
def State.mCount (s : State) (x : VFile) (d : Fin 32) (n : Nat) : Result :=
  s.attempt [s.chkV x d] fun s => s.putV 2 x d (BitVec.ofNat 1024 n) none false 0#6

/-- `mpop`. -/
def execMpop (f : VFile) (d : Fin 32) (a : Fin 8) (s : State) : Result := s.mCount f d (maskCount (s.readM f a))
/-- `mpop.first`. -/
def execMpopFirst (f : VFile) (d : Fin 32) (a : Fin 8) (s : State) : Result := s.mCount f d (maskFirst (s.readM f a))

/-- `vcrc` over n + 1 bytes of register b (R196). -/
def execVcrc (f : VFile) (d a b : Fin 32) (n : Fin 64) (s : State) : Result :=
  let vb := s.readV f b
  s.attempt (s.chkVs f [d, a, b]) fun s =>
    let c := crcRun (lane 32 (s.readV f a) 0) ((List.range (n.val + 1)).map fun i => BitVec.ofNat 8 (lane 8 vb i))
    s.putV 4 f d (BitVec.ofNat 1024 c) none (s.poisonV f a || s.poisonV f b) 0#6

end Sys2Proof.Machine
end

