-- ==== Sys2Proof/Machine/VectorMove.lean ====
section
/-! DEFINITION. Permutation, lane movement, moves and immediates of the VA and VB slots (R191–R194). -/

namespace Sys2Proof.Machine

/-- Lane i of the 2L lanes of two registers (R191). -/
def pairLane (w : Nat) (a b : VReg) (i : Nat) : Nat := if i < laneCount w then lane w a i else lane w b (i - laneCount w)

/-- `vperm` (R191). -/
def execVperm (f : VFile) (d a b : Fin 32) (w : Width) (m : Fin 8) (s : State) : Result :=
  let n := widthBits w
  let va := s.readV f a
  let vb := s.readV f b
  s.laneOp f 2 d [a, b] (s.poisonV f a || s.poisonV f b) (s.opMask f m.val) n fun j =>
    let i := lane n vb j
    (if i < laneCount n then lane n va i else 0, 0#6)

/-- `vbcast` (R191). -/
def execVbcast (f : VFile) (d a : Fin 32) (k : VIndex) (w : Width) (m : Fin 8) (s : State) : Result :=
  let n := widthBits w
  let i := match k with
    | .field r => r.val
    | .imm i => i.toNat
  let x := lane n (s.readV f a) i
  s.laneOp f 2 d [a] (s.poisonV f a) (s.opMask f m.val) n fun _ => (x, 0#6)

/-- `vslide` (R191). -/
def execVslide (f : VFile) (d a b : Fin 32) (n : BitVec 8) (w : Width) (m : Fin 8) (s : State) : Result :=
  let va := s.readV f a
  let vb := s.readV f b
  s.laneOp f 2 d [a, b] (s.poisonV f a || s.poisonV f b) (s.opMask f m.val) (widthBits w) fun j =>
    (pairLane (widthBits w) va vb (j + n.toNat), 0#6)

/-- `vzip` (R191). -/
def execVzip (f : VFile) (d a b : Fin 32) (hi : Bool) (w : Width) (s : State) : Result :=
  let n := widthBits w
  let va := s.readV f a
  let vb := s.readV f b
  s.laneOp f 2 d [a, b] (s.poisonV f a || s.poisonV f b) none n fun j =>
    (lane n (if j % 2 = 0 then va else vb) (b2n hi * (laneCount n / 2) + j / 2), 0#6)

/-- `vunzip` (R191). -/
def execVunzip (f : VFile) (d a b : Fin 32) (hi : Bool) (w : Width) (s : State) : Result :=
  let va := s.readV f a
  let vb := s.readV f b
  s.laneOp f 2 d [a, b] (s.poisonV f a || s.poisonV f b) none (widthBits w) fun j =>
    (pairLane (widthBits w) va vb (2 * j + b2n hi), 0#6)

/-- `vidx` (R192): unpoisoned but for the old poison of a partial write. -/
def execVidx (f : VFile) (d : Fin 32) (base : Option (BitVec 16)) (w : Width) (m : Fin 8) (s : State) : Result :=
  let n := widthBits w
  s.laneOp f 1 d [] false (s.opMask f m.val) n fun j => (wrapNat n (base.elim 0 BitVec.toInt + j), 0#6)

/-- `vmov` within a file (R193). -/
def execVmov (f : VFile) (d a : Fin 32) (s : State) : Result :=
  s.attempt (s.chkVs f [d, a]) fun s => s.putV 1 f d (s.readV f a) none (s.poisonV f a) 0#6

/-- The other vector file. -/
def otherFile : VFile → VFile
  | .a => .b
  | .b => .a

/-- `vmov` from the other file (R193). -/
def execVmovCross (f : VFile) (d a : Fin 32) (s : State) : Result :=
  s.attempt [s.chkV f d, s.chkV (otherFile f) a] fun s =>
    s.putV 2 f d (s.readV (otherFile f) a) none (s.poisonV (otherFile f) a) 0#6

/-- `vmov.w8` to `.w64` from an s register (R193). -/
def execVmovSplat (f : VFile) (d a : Fin 32) (w : Fin 4) (s : State) : Result :=
  let n := 8 * 2 ^ w.val
  let x := s.readS a
  s.attempt [s.chkV f d] fun s => s.putV 2 f d (mapLanes n fun _ => x.toNat) none (s.poisonS a) 0#6

/-- `vmov` into one 64-bit chunk (R193): the rest is kept. -/
def execVmovChunk (f : VFile) (d a : Fin 32) (c : Fin 16) (s : State) : Result :=
  let x := s.readS a
  s.attempt [s.chkV f d] fun s =>
    s.putV 2 f d (BitVec.ofNat 1024 (x.toNat * 2 ^ (64 * c.val)))
      (some (BitVec.ofNat 1024 ((2 ^ 64 - 1) * 2 ^ (64 * c.val)))) (s.poisonS a) 0#6

/-- An immediate in every lane (R194). -/
def State.vLi (s : State) (f : VFile) (d : Fin 32) (w x : Nat) : Result :=
  s.attempt [s.chkV f d] fun s => s.putV 1 f d (mapLanes w fun _ => x) none false 0#6

/-- `vli.w`. -/
def execVliW (f : VFile) (d : Fin 32) (i : BitVec 16) (s : State) : Result := s.vLi f d 32 (i.signExtend 32).toNat
/-- `vli.f`: the fp32 value of a bf16 pattern. -/
def execVliF (f : VFile) (d : Fin 32) (i : BitVec 16) (s : State) : Result := s.vLi f d 32 (i.toNat * 65536)
/-- `vli.h`. -/
def execVliH (f : VFile) (d : Fin 32) (i : BitVec 16) (s : State) : Result := s.vLi f d 16 i.toNat
/-- `vli.b`. -/
def execVliB (f : VFile) (d : Fin 32) (i : BitVec 8) (s : State) : Result := s.vLi f d 8 i.toNat

end Sys2Proof.Machine
end

