-- ==== Sys2Proof/Machine/Dispatch.lean ====
section
/-! DEFINITION. One arm per constructor of Instr. -/

namespace Sys2Proof.Machine

/-- The meaning of every operation and event. -/
def exec (i : Instr) (s : State) : Host.Outcome State Fault Refusal :=
  match i with
  | .idleBundle n => Sys2Proof.Machine.execIdleBundle n s
  | .barrierOnlyBundle g => Sys2Proof.Machine.execBarrierOnlyBundle g s
  | .br off => Sys2Proof.Machine.execBr off s
  | .jr a off => Sys2Proof.Machine.execJr a off s
  | .call off => Sys2Proof.Machine.execCall off s
  | .ret => Sys2Proof.Machine.execRet s
  | .loop a off => Sys2Proof.Machine.execLoop a off s
  | .loopi count off => Sys2Proof.Machine.execLoopi count off s
  | .lbrk => Sys2Proof.Machine.execLbrk s
  | .lnext => Sys2Proof.Machine.execLnext s
  | .swapb off => Sys2Proof.Machine.execSwapb off s
  | .ifence => Sys2Proof.Machine.execIfence s
  | .stitch live banks => Sys2Proof.Machine.execStitch live banks s
  | .chkp c r off => Sys2Proof.Machine.execChkp c r off s
  | .tkw k => Sys2Proof.Machine.execTkw k s
  | .tkpPend p k => Sys2Proof.Machine.execTkpPend p k s
  | .tkpDone p k => Sys2Proof.Machine.execTkpDone p k s
  | .tkpPart p k => Sys2Proof.Machine.execTkpPart p k s
  | .tkpFail p k => Sys2Proof.Machine.execTkpFail p k s
  | .tkpFree p k => Sys2Proof.Machine.execTkpFree p k s
  | .tkpRes p k => Sys2Proof.Machine.execTkpRes p k s
  | .vclust vb va => Sys2Proof.Machine.execVclust vb va s
  | .halt => Sys2Proof.Machine.execHalt s
  | .trap code => Sys2Proof.Machine.execTrap code s
  | .brk code => Sys2Proof.Machine.execBrk code s
  | .kadd d a o => Sys2Proof.Machine.execKadd d a o s
  | .kli d v => Sys2Proof.Machine.execKli d v s
  | .kmov d a => Sys2Proof.Machine.execKmov d a s
  | .kmovHi d a => Sys2Proof.Machine.execKmovHi d a s
  | .psetAnd d a b => Sys2Proof.Machine.execPsetAnd d a b s
  | .psetOr d a b => Sys2Proof.Machine.execPsetOr d a b s
  | .psetXor d a b => Sys2Proof.Machine.execPsetXor d a b s
  | .psetAndn d a b => Sys2Proof.Machine.execPsetAndn d a b s
  | .psetOrn d a b => Sys2Proof.Machine.execPsetOrn d a b s
  | .psetEq d a o => Sys2Proof.Machine.execPsetEq d a o s
  | .psetNe d a o => Sys2Proof.Machine.execPsetNe d a o s
  | .psetLt d a o => Sys2Proof.Machine.execPsetLt d a o s
  | .psetLtn d a o => Sys2Proof.Machine.execPsetLtn d a o s
  | .psetNz d a => Sys2Proof.Machine.execPsetNz d a s
  | .rdsc d => Sys2Proof.Machine.execRdsc d s
  | .rdscHi d => Sys2Proof.Machine.execRdscHi d s
  | .rddcc d => Sys2Proof.Machine.execRddcc d s
  | .rddccHi d => Sys2Proof.Machine.execRddccHi d s
  | .add d a o => Sys2Proof.Machine.execAdd d a o s
  | .sub d a o => Sys2Proof.Machine.execSub d a o s
  | .mul d a o => Sys2Proof.Machine.execMul d a o s
  | .mulh d a o => Sys2Proof.Machine.execMulh d a o s
  | .mulhn d a o => Sys2Proof.Machine.execMulhn d a o s
  | .div d a o => Sys2Proof.Machine.execDiv d a o s
  | .divn d a o => Sys2Proof.Machine.execDivn d a o s
  | .rem d a o => Sys2Proof.Machine.execRem d a o s
  | .remn d a o => Sys2Proof.Machine.execRemn d a o s
  | .and d a o => Sys2Proof.Machine.execAnd d a o s
  | .or d a o => Sys2Proof.Machine.execOr d a o s
  | .xor d a o => Sys2Proof.Machine.execXor d a o s
  | .andn d a o => Sys2Proof.Machine.execAndn d a o s
  | .shl d a o => Sys2Proof.Machine.execShl d a o s
  | .shr d a o => Sys2Proof.Machine.execShr d a o s
  | .sra d a o => Sys2Proof.Machine.execSra d a o s
  | .rot d a o => Sys2Proof.Machine.execRot d a o s
  | .clz d a => Sys2Proof.Machine.execClz d a s
  | .ctz d a => Sys2Proof.Machine.execCtz d a s
  | .popc d a => Sys2Proof.Machine.execPopc d a s
  | .min d a o => Sys2Proof.Machine.execMin d a o s
  | .max d a o => Sys2Proof.Machine.execMax d a o s
  | .minn d a o => Sys2Proof.Machine.execMinn d a o s
  | .maxn d a o => Sys2Proof.Machine.execMaxn d a o s
  | .cmpEq d a o => Sys2Proof.Machine.execCmpEq d a o s
  | .cmpNe d a o => Sys2Proof.Machine.execCmpNe d a o s
  | .cmpLt d a o => Sys2Proof.Machine.execCmpLt d a o s
  | .cmpGe d a o => Sys2Proof.Machine.execCmpGe d a o s
  | .cmpLtn d a o => Sys2Proof.Machine.execCmpLtn d a o s
  | .cmpGen d a o => Sys2Proof.Machine.execCmpGen d a o s
  | .cmpTst d a o => Sys2Proof.Machine.execCmpTst d a o s
  | .sel d p a o => Sys2Proof.Machine.execSel d p a o s
  | .li d v => Sys2Proof.Machine.execLi d v s
  | .lih d v => Sys2Proof.Machine.execLih d v s
  | .bfx d a o => Sys2Proof.Machine.execBfx d a o s
  | .bfxS d a o => Sys2Proof.Machine.execBfxS d a o s
  | .bfi d a o => Sys2Proof.Machine.execBfi d a o s
  | .sextB d a => Sys2Proof.Machine.execSextB d a s
  | .sextH d a => Sys2Proof.Machine.execSextH d a s
  | .sextW d a => Sys2Proof.Machine.execSextW d a s
  | .sextBn d a => Sys2Proof.Machine.execSextBn d a s
  | .sextHn d a => Sys2Proof.Machine.execSextHn d a s
  | .sextWn d a => Sys2Proof.Machine.execSextWn d a s
  | .widfField d f => Sys2Proof.Machine.execWidfField d f s
  | .widfGang d => Sys2Proof.Machine.execWidfGang d s
  | .widfCut d => Sys2Proof.Machine.execWidfCut d s
  | .smovK d a => Sys2Proof.Machine.execSmovK d a s
  | .smovVa d a c => Sys2Proof.Machine.execSmovVa d a c s
  | .smovVb d a c => Sys2Proof.Machine.execSmovVb d a c s
  | .smovPred d => Sys2Proof.Machine.execSmovPred d s
  | .smovMa d a => Sys2Proof.Machine.execSmovMa d a s
  | .smovMb d a => Sys2Proof.Machine.execSmovMb d a s
  | .mvst n a => Sys2Proof.Machine.execMvst n a s
  | .mvfs d n => Sys2Proof.Machine.execMvfs d n s
  | .dset d a => Sys2Proof.Machine.execDset d a s
  | .dsetLo d a => Sys2Proof.Machine.execDsetLo d a s
  | .dsetHi d a => Sys2Proof.Machine.execDsetHi d a s
  | .vadd f d a o ty m => Sys2Proof.Machine.execVadd f d a o ty m s
  | .vsub f d a o ty m => Sys2Proof.Machine.execVsub f d a o ty m s
  | .vmul f d a o ty m => Sys2Proof.Machine.execVmul f d a o ty m s
  | .vmulh f d a o ty m => Sys2Proof.Machine.execVmulh f d a o ty m s
  | .vmin f d a o ty m => Sys2Proof.Machine.execVmin f d a o ty m s
  | .vmax f d a o ty m => Sys2Proof.Machine.execVmax f d a o ty m s
  | .vabs f d a ty m => Sys2Proof.Machine.execVabs f d a ty m s
  | .vneg f d a ty m => Sys2Proof.Machine.execVneg f d a ty m s
  | .vand f d a o m => Sys2Proof.Machine.execVand f d a o m s
  | .vor f d a o m => Sys2Proof.Machine.execVor f d a o m s
  | .vxor f d a o m => Sys2Proof.Machine.execVxor f d a o m s
  | .vnot f d a m => Sys2Proof.Machine.execVnot f d a m s
  | .vshl f d a o ty m => Sys2Proof.Machine.execVshl f d a o ty m s
  | .vshr f d a o ty m => Sys2Proof.Machine.execVshr f d a o ty m s
  | .vsra f d a o ty m => Sys2Proof.Machine.execVsra f d a o ty m s
  | .vadds f d a o ty m => Sys2Proof.Machine.execVadds f d a o ty m s
  | .vsubs f d a o ty m => Sys2Proof.Machine.execVsubs f d a o ty m s
  | .vdot4 f d a b sg sat m => Sys2Proof.Machine.execVdot4 f d a b sg sat m s
  | .vdot8 f d a b sat m => Sys2Proof.Machine.execVdot8 f d a b sat m s
  | .vcmpEq f d a o ty => Sys2Proof.Machine.execVcmpEq f d a o ty s
  | .vcmpNe f d a o ty => Sys2Proof.Machine.execVcmpNe f d a o ty s
  | .vcmpLt f d a o ty => Sys2Proof.Machine.execVcmpLt f d a o ty s
  | .vcmpLe f d a o ty => Sys2Proof.Machine.execVcmpLe f d a o ty s
  | .vcmpGt f d a o ty => Sys2Proof.Machine.execVcmpGt f d a o ty s
  | .vcmpGe f d a o ty => Sys2Proof.Machine.execVcmpGe f d a o ty s
  | .vsel f d a o m => Sys2Proof.Machine.execVsel f d a o m s
  | .vfadd f d a o ft rm m => Sys2Proof.Machine.execVfadd f d a o ft rm m s
  | .vfsub f d a o ft rm m => Sys2Proof.Machine.execVfsub f d a o ft rm m s
  | .vfmul f d a o ft rm m => Sys2Proof.Machine.execVfmul f d a o ft rm m s
  | .vffma f d a o ft rm m => Sys2Proof.Machine.execVffma f d a o ft rm m s
  | .vfmin f d a o ft m => Sys2Proof.Machine.execVfmin f d a o ft m s
  | .vfmax f d a o ft m => Sys2Proof.Machine.execVfmax f d a o ft m s
  | .vfsgnJ f d a o ft m => Sys2Proof.Machine.execVfsgnJ f d a o ft m s
  | .vfsgnJn f d a o ft m => Sys2Proof.Machine.execVfsgnJn f d a o ft m s
  | .vfsgnJx f d a o ft m => Sys2Proof.Machine.execVfsgnJx f d a o ft m s
  | .vfcmpEq f d a o ft => Sys2Proof.Machine.execVfcmpEq f d a o ft s
  | .vfcmpNe f d a o ft => Sys2Proof.Machine.execVfcmpNe f d a o ft s
  | .vfcmpLt f d a o ft => Sys2Proof.Machine.execVfcmpLt f d a o ft s
  | .vfcmpLe f d a o ft => Sys2Proof.Machine.execVfcmpLe f d a o ft s
  | .vfcmpUn f d a o ft => Sys2Proof.Machine.execVfcmpUn f d a o ft s
  | .vfcmpOrd f d a o ft => Sys2Proof.Machine.execVfcmpOrd f d a o ft s
  | .vfclass f d a ft m => Sys2Proof.Machine.execVfclass f d a ft m s
  | .vexp2 f d a m => Sys2Proof.Machine.execVexp2 f d a m s
  | .vlog2 f d a m => Sys2Proof.Machine.execVlog2 f d a m s
  | .vrcp f d a m => Sys2Proof.Machine.execVrcp f d a m s
  | .vrsqrt f d a m => Sys2Proof.Machine.execVrsqrt f d a m s
  | .vcvt f d a dt st rm sat part => Sys2Proof.Machine.execVcvt f d a dt st rm sat part s
  | .vpack f d a b kind sat => Sys2Proof.Machine.execVpack f d a b kind sat s
  | .vunpack f d a kind hi => Sys2Proof.Machine.execVunpack f d a kind hi s
  | .vquant f d a e n => Sys2Proof.Machine.execVquant f d a e n s
  | .vquantScale f d a e n => Sys2Proof.Machine.execVquantScale f d a e n s
  | .vscale f d a o rm m => Sys2Proof.Machine.execVscale f d a o rm m s
  | .vfxd f d a j m => Sys2Proof.Machine.execVfxd f d a j m s
  | .vredsum f d a ty m => Sys2Proof.Machine.execVredsum f d a ty m s
  | .vredmax f d a ty m => Sys2Proof.Machine.execVredmax f d a ty m s
  | .vredmin f d a ty m => Sys2Proof.Machine.execVredmin f d a ty m s
  | .vfredsum f d a ft rm m => Sys2Proof.Machine.execVfredsum f d a ft rm m s
  | .vfredmax f d a ft m => Sys2Proof.Machine.execVfredmax f d a ft m s
  | .vperm f d a b w m => Sys2Proof.Machine.execVperm f d a b w m s
  | .vbcast f d a k w m => Sys2Proof.Machine.execVbcast f d a k w m s
  | .vslide f d a b n w m => Sys2Proof.Machine.execVslide f d a b n w m s
  | .vzip f d a b hi w => Sys2Proof.Machine.execVzip f d a b hi w s
  | .vunzip f d a b hi w => Sys2Proof.Machine.execVunzip f d a b hi w s
  | .vmov f d a => Sys2Proof.Machine.execVmov f d a s
  | .vmovCross f d a => Sys2Proof.Machine.execVmovCross f d a s
  | .vmovSplat f d a w => Sys2Proof.Machine.execVmovSplat f d a w s
  | .vmovChunk f d a c => Sys2Proof.Machine.execVmovChunk f d a c s
  | .vliW f d v => Sys2Proof.Machine.execVliW f d v s
  | .vliF f d v => Sys2Proof.Machine.execVliF f d v s
  | .vliH f d v => Sys2Proof.Machine.execVliH f d v s
  | .vliB f d v => Sys2Proof.Machine.execVliB f d v s
  | .vidx f d base w m => Sys2Proof.Machine.execVidx f d base w m s
  | .vcrc f d a b n => Sys2Proof.Machine.execVcrc f d a b n s
  | .mlogAnd f d a o => Sys2Proof.Machine.execMlogAnd f d a o s
  | .mlogOr f d a o => Sys2Proof.Machine.execMlogOr f d a o s
  | .mlogXor f d a o => Sys2Proof.Machine.execMlogXor f d a o s
  | .mlogAndn f d a o => Sys2Proof.Machine.execMlogAndn f d a o s
  | .mlogOrn f d a o => Sys2Proof.Machine.execMlogOrn f d a o s
  | .mpop f d a => Sys2Proof.Machine.execMpop f d a s
  | .mpopFirst f d a => Sys2Proof.Machine.execMpopFirst f d a s
  | .mld t bank off raw => Sys2Proof.Machine.execMld t bank off raw s
  | .mldt t bank off raw => Sys2Proof.Machine.execMldt t bank off raw s
  | .mlds t bank off => Sys2Proof.Machine.execMlds t bank off s
  | .mst t bank off raw => Sys2Proof.Machine.execMst t bank off raw s
  | .mzero ts zs => Sys2Proof.Machine.execMzero ts zs s
  | .mma z a b => Sys2Proof.Machine.execMma z a b s
  | .mmo z a b => Sys2Proof.Machine.execMmo z a b s
  | .mmaResultDue n => Sys2Proof.Machine.execMmaResultDue n s
  | .zout z zo tt bank off st rm sat => Sys2Proof.Machine.execZout z zo tt bank off st rm sat s
  | .zoutv z zo tt td hi st rm sat fmt => Sys2Proof.Machine.execZoutv z zo tt td hi st rm sat fmt s
  | .zld z bank off ty => Sys2Proof.Machine.execZld z bank off ty s
  | .zst z bank off => Sys2Proof.Machine.execZst z bank off s
  | .zstat bank off => Sys2Proof.Machine.execZstat bank off s
  | .zclr zs ty => Sys2Proof.Machine.execZclr zs ty s
  | .ldl d a off dk => Sys2Proof.Machine.execLdl d a off dk s
  | .stl d a off dk => Sys2Proof.Machine.execStl d a off dk s
  | .ldg d a ls l dk q => Sys2Proof.Machine.execLdg d a ls l dk q s
  | .stg d a off dk q => Sys2Proof.Machine.execStg d a off dk q s
  | .ldv d a ls l dk q => Sys2Proof.Machine.execLdv d a ls l dk q s
  | .stv d a off dk q => Sys2Proof.Machine.execStv d a off dk q s
  | .amoAdd d a ls l q => Sys2Proof.Machine.execAmoAdd d a ls l q s
  | .amoAnd d a ls l q => Sys2Proof.Machine.execAmoAnd d a ls l q s
  | .amoOr d a ls l q => Sys2Proof.Machine.execAmoOr d a ls l q s
  | .amoXor d a ls l q => Sys2Proof.Machine.execAmoXor d a ls l q s
  | .amoMax d a ls l q => Sys2Proof.Machine.execAmoMax d a ls l q s
  | .amoMin d a ls l q => Sys2Proof.Machine.execAmoMin d a ls l q s
  | .amoMaxn d a ls l q => Sys2Proof.Machine.execAmoMaxn d a ls l q s
  | .amoSwap d a ls l q => Sys2Proof.Machine.execAmoSwap d a ls l q s
  | .cas d a ls l q => Sys2Proof.Machine.execCas d a ls l q s
  | .fenceAcq x => Sys2Proof.Machine.execFenceAcq x s
  | .fenceRel x => Sys2Proof.Machine.execFenceRel x s
  | .fenceAr x => Sys2Proof.Machine.execFenceAr x s
  | .sti d a off dk => Sys2Proof.Machine.execSti d a off dk s
  | .lget ls p => Sys2Proof.Machine.execLget ls p s
  | .lwait ls => Sys2Proof.Machine.execLwait ls s
  | .zline a off => Sys2Proof.Machine.execZline a off s
  | .pref a off ef => Sys2Proof.Machine.execPref a off ef s
  | .launch a o => Sys2Proof.Machine.execLaunch a o s
  | .evpost a code => Sys2Proof.Machine.execEvpost a code s
  | .snd src dst => Sys2Proof.Machine.execSnd src dst s
  | .rcv dst src => Sys2Proof.Machine.execRcv dst src s
  | .bcst src col => Sys2Proof.Machine.execBcst src col s
  | .sndr src ta dst rty isMax sem => Sys2Proof.Machine.execSndr src ta dst rty isMax sem s
  | .semw p sem n => Sys2Proof.Machine.execSemw p sem n s
  | .semp d sem => Sys2Proof.Machine.execSemp d sem s
  | .semi sem a => Sys2Proof.Machine.execSemi sem a s
  | .semv sem dst n => Sys2Proof.Machine.execSemv sem dst n s
  | .xfar k r fa sem => Sys2Proof.Machine.execXfar k r fa sem s
  | .xrcvf d a ls l dk sem => Sys2Proof.Machine.execXrcvf d a ls l dk sem s
  | .ceGo tp rs => Sys2Proof.Machine.execCeGo tp rs s
  | .ceGor tp rs => Sys2Proof.Machine.execCeGor tp rs s
  | .ceGat tp rs => Sys2Proof.Machine.execCeGat tp rs s
  | .ceSca tp rs => Sys2Proof.Machine.execCeSca tp rs s
  | .ceFill tp rs => Sys2Proof.Machine.execCeFill tp rs s
  | .ceRed tp rs => Sys2Proof.Machine.execCeRed tp rs s
  | .ceIsp tp rs => Sys2Proof.Machine.execCeIsp tp rs s
  | .ceRep tp ts => Sys2Proof.Machine.execCeRep tp ts s
  | .ceCan k => Sys2Proof.Machine.execCeCan k s
  | .ceStatSt d k => Sys2Proof.Machine.execCeStatSt d k s
  | .ceStatBytes d k => Sys2Proof.Machine.execCeStatBytes d k s
  | .ceStatEv d k => Sys2Proof.Machine.execCeStatEv d k s
  | .ceStatCrc d k => Sys2Proof.Machine.execCeStatCrc d k s
  | .ceStatTag d k => Sys2Proof.Machine.execCeStatTag d k s
  | .transferStart n k => Sys2Proof.Machine.execTransferStart n k s
  | .chunkComplete n k => Sys2Proof.Machine.execChunkComplete n k s
  | .dueResultWrite n => Sys2Proof.Machine.execDueResultWrite n s
  | .timedAccessPerform n => Sys2Proof.Machine.execTimedAccessPerform n s
  | .landingDue n ls => Sys2Proof.Machine.execLandingDue n ls s
  | .landingArrival n ls => Sys2Proof.Machine.execLandingArrival n ls s
  | .beatArrival h => Sys2Proof.Machine.execBeatArrival h s
  | .barrierArrival n g => Sys2Proof.Machine.execBarrierArrival n g s
  | .barrierRelease h g => Sys2Proof.Machine.execBarrierRelease h g s
  | .timingFault h sub => Sys2Proof.Machine.execTimingFault h sub s
  | .globalAccessPerform n v => Sys2Proof.Machine.execGlobalAccessPerform n v s
  | .lateralAccessPerform n v => Sys2Proof.Machine.execLateralAccessPerform n v s
  | .outboundAccept n v => Sys2Proof.Machine.execOutboundAccept n v s
  | .sndrAddition n v => Sys2Proof.Machine.execSndrAddition n v s
  | .semvIncrement n v => Sys2Proof.Machine.execSemvIncrement n v s
  | .xfarDelivery v => Sys2Proof.Machine.execXfarDelivery v s
  | .xrcvfTake n v => Sys2Proof.Machine.execXrcvfTake n v s
  | .cutStart h => Sys2Proof.Machine.execCutStart h s
  | .cutComplete h => Sys2Proof.Machine.execCutComplete h s
  | .serviceCoreEventEntry q => Sys2Proof.Machine.execServiceCoreEventEntry q s
  | .tsr d a => Sys2Proof.Machine.execTsr d a s
  | .tsrP d a => Sys2Proof.Machine.execTsrP d a s
  | .tsw a b => Sys2Proof.Machine.execTsw a b s
  | .tswP a b => Sys2Proof.Machine.execTswP a b s
  | .tresRun a => Sys2Proof.Machine.execTresRun a s
  | .tresStep a => Sys2Proof.Machine.execTresStep a s
  | .tresHalt a => Sys2Proof.Machine.execTresHalt a s
  | .tresLock a => Sys2Proof.Machine.execTresLock a s
  | .tabt a => Sys2Proof.Machine.execTabt a s
  | .tabtReplay a => Sys2Proof.Machine.execTabtReplay a s
  | .tsnapDesc d a b => Sys2Proof.Machine.execTsnapDesc d a b s
  | .tsnapAddr d a b => Sys2Proof.Machine.execTsnapAddr d a b s
  | .tsnapVal d a b => Sys2Proof.Machine.execTsnapVal d a b s
  | .tsnapDrop a b => Sys2Proof.Machine.execTsnapDrop a b s
  | .selw a b => Sys2Proof.Machine.execSelw a b s
  | .tlbiPage a => Sys2Proof.Machine.execTlbiPage a s
  | .tlbiPasid a => Sys2Proof.Machine.execTlbiPasid a s
  | .tlbiBolt a => Sys2Proof.Machine.execTlbiBolt a s
  | .tlbs d => Sys2Proof.Machine.execTlbs d s
  | .ctxs d a b => Sys2Proof.Machine.execCtxs d a b s
  | .ctxl d a b => Sys2Proof.Machine.execCtxl d a b s
  | .trpret => Sys2Proof.Machine.execTrpret s
  | .fqpopTrap d a => Sys2Proof.Machine.execFqpopTrap d a s
  | .fqpopFault d a => Sys2Proof.Machine.execFqpopFault d a s
  | .fqpopPlc d a => Sys2Proof.Machine.execFqpopPlc d a s
  | .plcVcreate c arg => Sys2Proof.Machine.execPlcVcreate c arg s
  | .plcVdestroy c arg => Sys2Proof.Machine.execPlcVdestroy c arg s
  | .plcSpoolset c arg => Sys2Proof.Machine.execPlcSpoolset c arg s
  | .plcRadmit c arg => Sys2Proof.Machine.execPlcRadmit c arg s
  | .plcRremove c arg => Sys2Proof.Machine.execPlcRremove c arg s
  | .plcEvict c arg => Sys2Proof.Machine.execPlcEvict c arg s
  | .plcAge c arg => Sys2Proof.Machine.execPlcAge c arg s
  | .mcRead c arg => Sys2Proof.Machine.execMcRead c arg s
  | .mcWrite c arg => Sys2Proof.Machine.execMcWrite c arg s
  | .mcClear c arg => Sys2Proof.Machine.execMcClear c arg s
  | .mcFence c arg => Sys2Proof.Machine.execMcFence c arg s
  | .mcLogread c arg => Sys2Proof.Machine.execMcLogread c arg s
  | .mcLog c arg => Sys2Proof.Machine.execMcLog c arg s
  | .mcBoltset c arg => Sys2Proof.Machine.execMcBoltset c arg s
  | .mcCollapse c arg => Sys2Proof.Machine.execMcCollapse c arg s
  | .mcAppeal c arg => Sys2Proof.Machine.execMcAppeal c arg s
  | .mcUpdstage c arg => Sys2Proof.Machine.execMcUpdstage c arg s
  | .mcUpdcommit c arg => Sys2Proof.Machine.execMcUpdcommit c arg s
  | .placerTick b => Sys2Proof.Machine.execPlacerTick b s
  | .launchRelease v sp => Sys2Proof.Machine.execLaunchRelease v sp s
  | .gangPlace b => Sys2Proof.Machine.execGangPlace b s
  | .clearance b => Sys2Proof.Machine.execClearance b s
  | .backfillWcrtExpiry v l => Sys2Proof.Machine.execBackfillWcrtExpiry v l s
  | .budgetOverrun r => Sys2Proof.Machine.execBudgetOverrun r s
  | .deadlineMiss r => Sys2Proof.Machine.execDeadlineMiss r s
  | .preloadStart h => Sys2Proof.Machine.execPreloadStart h s
  | .evictionAtStitch h => Sys2Proof.Machine.execEvictionAtStitch h s
  | .quiesceEnd h => Sys2Proof.Machine.execQuiesceEnd h s
  | .contextSaveComplete h => Sys2Proof.Machine.execContextSaveComplete h s
  | .windowDrainComplete n => Sys2Proof.Machine.execWindowDrainComplete n s
  | .contextRestore h => Sys2Proof.Machine.execContextRestore h s
  | .periodicStitchSave h => Sys2Proof.Machine.execPeriodicStitchSave h s
  | .sptailWrite req v sp x => Sys2Proof.Machine.execSptailWrite req v sp x s
  | .launchSubmission n v => Sys2Proof.Machine.execLaunchSubmission n v s
  | .recordAccept v sp => Sys2Proof.Machine.execRecordAccept v sp s
  | .evpostDeliver n v => Sys2Proof.Machine.execEvpostDeliver n v s
  | .completionRecordWrite v => Sys2Proof.Machine.execCompletionRecordWrite v s
  | .wakeWrite req v x => Sys2Proof.Machine.execWakeWrite req v x s
  | .vstatWrite req v x => Sys2Proof.Machine.execVstatWrite req v x s
  | .ltfreeWrite req v x => Sys2Proof.Machine.execLtfreeWrite req v x s
  | .registerWrite req r x => Sys2Proof.Machine.execRegisterWrite req r x s
  | .fbindWrite port f x => Sys2Proof.Machine.execFbindWrite port f x s
  | .windowDescriptorWrite port w lo hi => Sys2Proof.Machine.execWindowDescriptorWrite port w lo hi s
  | .leasexWrite port x => Sys2Proof.Machine.execLeasexWrite port x s
  | .leasectlWrite port x => Sys2Proof.Machine.execLeasectlWrite port x s
  | .leaseTakeover => Sys2Proof.Machine.execLeaseTakeover s
  | .hostWindowRead port f x n tbit => Sys2Proof.Machine.execHostWindowRead port f x n tbit s
  | .hostWindowWrite port f x data tbit => Sys2Proof.Machine.execHostWindowWrite port f x data tbit s
  | .cxlMemAccess port hpa n data => Sys2Proof.Machine.execCxlMemAccess port hpa n data s
  | .functionLevelReset port f => Sys2Proof.Machine.execFunctionLevelReset port f s
  | .faultRetry b => Sys2Proof.Machine.execFaultRetry b s
  | .faultTimeout b id => Sys2Proof.Machine.execFaultTimeout b id s
  | .invalidationComplete q v => Sys2Proof.Machine.execInvalidationComplete q v s
  | .atsTranslationCompletion port v ans => Sys2Proof.Machine.execAtsTranslationCompletion port v ans s
  | .pageRequestSend port prgi => Sys2Proof.Machine.execPageRequestSend port prgi s
  | .prgResponse port prgi code => Sys2Proof.Machine.execPrgResponse port prgi code s
  | .atsInvalidationRequest port pasid upage n => Sys2Proof.Machine.execAtsInvalidationRequest port pasid upage n s
  | .atsInvalidationComplete port v => Sys2Proof.Machine.execAtsInvalidationComplete port v s
  | .spdmNegotiateAlgorithms port offers => Sys2Proof.Machine.execSpdmNegotiateAlgorithms port offers s
  | .spdmChallenge port => Sys2Proof.Machine.execSpdmChallenge port s
  | .spdmGetMeasurements req => Sys2Proof.Machine.execSpdmGetMeasurements req s
  | .spdmKeyExchange port => Sys2Proof.Machine.execSpdmKeyExchange port s
  | .spdmHeartbeat port id => Sys2Proof.Machine.execSpdmHeartbeat port id s
  | .spdmKeyUpdate port id => Sys2Proof.Machine.execSpdmKeyUpdate port id s
  | .spdmEndSession port id => Sys2Proof.Machine.execSpdmEndSession port id s
  | .sessionExpiry port id => Sys2Proof.Machine.execSessionExpiry port id s
  | .ideKmKeyProg port id stream tx => Sys2Proof.Machine.execIdeKmKeyProg port id stream tx s
  | .ideKmKSetGo port id stream => Sys2Proof.Machine.execIdeKmKSetGo port id stream s
  | .ideIntegrityFailure port stream => Sys2Proof.Machine.execIdeIntegrityFailure port stream s
  | .lockInterface via stream f => Sys2Proof.Machine.execLockInterface via stream f s
  | .startInterface port id stream f => Sys2Proof.Machine.execStartInterface port id stream f s
  | .stopInterface via f => Sys2Proof.Machine.execStopInterface via f s
  | .seamFlitReceive p fl => Sys2Proof.Machine.execSeamFlitReceive p fl s
  | .seamAckReceive p seq => Sys2Proof.Machine.execSeamAckReceive p seq s
  | .seamNakReceive p seq => Sys2Proof.Machine.execSeamNakReceive p seq s
  | .seamAckTimeout p => Sys2Proof.Machine.execSeamAckTimeout p s
  | .linkRetrain p => Sys2Proof.Machine.execLinkRetrain p s
  | .retrainEnd p ok => Sys2Proof.Machine.execRetrainEnd p ok s
  | .tackSend n => Sys2Proof.Machine.execTackSend n s
  | .tackReceive n d tk => Sys2Proof.Machine.execTackReceive n d tk s
  | .tackMiss n d => Sys2Proof.Machine.execTackMiss n d s
  | .babblingSuspicion n d c => Sys2Proof.Machine.execBabblingSuspicion n d c s
  | .voteFlitReceive n suspect voter relay withdraw reinst => Sys2Proof.Machine.execVoteFlitReceive n suspect voter relay withdraw reinst s
  | .voteExpiry n suspect voter => Sys2Proof.Machine.execVoteExpiry n suspect voter s
  | .fenceFlitReceive n suspect => Sys2Proof.Machine.execFenceFlitReceive n suspect s
  | .selftestComplete n pass => Sys2Proof.Machine.execSelftestComplete n pass s
  | .reinstatementVote n d => Sys2Proof.Machine.execReinstatementVote n d s
  | .unfenceFlitReceive n suspect => Sys2Proof.Machine.execUnfenceFlitReceive n suspect s
  | .patrolScrub => Sys2Proof.Machine.execPatrolScrub s
  | .pfailAssert => Sys2Proof.Machine.execPfailAssert s
  | .checkpointSaveDeadline => Sys2Proof.Machine.execCheckpointSaveDeadline s
  | .checkpointComplete => Sys2Proof.Machine.execCheckpointComplete s
  | .pfailDeassert => Sys2Proof.Machine.execPfailDeassert s
  | .retokLow => Sys2Proof.Machine.execRetokLow s
  | .powerReturnResume => Sys2Proof.Machine.execPowerReturnResume s
  | .dormantEntry => Sys2Proof.Machine.execDormantEntry s
  | .dormantWake => Sys2Proof.Machine.execDormantWake s
  | .collapseDelayExpiry v => Sys2Proof.Machine.execCollapseDelayExpiry v s
  | .collapseComplete v => Sys2Proof.Machine.execCollapseComplete v s
  | .wakeComplete v => Sys2Proof.Machine.execWakeComplete v s
  | .thermalThreshold q => Sys2Proof.Machine.execThermalThreshold q s
  | .thermalResume => Sys2Proof.Machine.execThermalResume s
  | .ptpMessage port off ppb => Sys2Proof.Machine.execPtpMessage port off ppb s
  | .powerOnReset => Sys2Proof.Machine.execPowerOnReset s
  | .dccHoldoverEntry => Sys2Proof.Machine.execDccHoldoverEntry s
  | .priEnable port f => Sys2Proof.Machine.execPriEnable port f s
  | .msixVectorUnmask port f vec => Sys2Proof.Machine.execMsixVectorUnmask port f vec s
  | .cxlCacheSnoop port addr inv => Sys2Proof.Machine.execCxlCacheSnoop port addr inv s

end Sys2Proof.Machine
end

