-- ==== Sys2Proof/Machine/Registers.lean ====
section
/-! DEFINITION. What a host reads through its BARs (R6, R355, R399–R403, R407, R413, R441): the register page of a vdev, BAR0 and BAR1 of PF0. -/

namespace Sys2Proof.Machine

/-- Code of VSTAT.STATE (R355). -/
def VState.code : VState → Nat
  | .active => 0
  | .collapsing => 1
  | .collapsed => 2
  | .waking => 3

/-- LTSTATE: the states of 16 launch tokens from `k` (R355). -/
def Vdev.ltstate (v : Vdev) (k : Nat) : Nat := sumList ((List.range 16).map fun j => (v.ltoks[idx 256 (k + j)]).st.code * 16 ^ j)

/-- The 64-bit word of a vdev's register page at an offset that is a multiple of 8 (R355). -/
def Vdev.page (v : Vdev) (gen : W32) (off : Nat) : Nat :=
  if off < 0x080 then (v.spools[idx 16 (off / 8)]).tail.toNat
  else if off < 0x100 then (v.spools[idx 16 (off / 8)]).head.toNat
  else if off < 0x160 then
    match off / 8 % 32 with
    | 1 => v.state.code + 4 * v.vstat.toNat
    | 2 => v.demcnt
    | 3 => v.misscnt
    | 4 => v.ovrcnt
    | 5 => v.tailcnt
    | 6 => gen.toNat
    | 8 => v.eqhead.toNat
    | 9 => v.eqtail.toNat
    | 10 => v.eqctl.toNat
    | 11 => v.eqdrop
    | _ => 0
  else if 0x200 ≤ off ∧ off < 0x280 then v.ltstate (2 * (off - 0x200))
  else if 0x400 ≤ off ∧ off < 0x800 then
    let k := (off - 0x400) / 4
    (v.ltoks[idx 256 k]).status.toNat + 2 ^ 32 * (v.ltoks[idx 256 (k + 1)]).status.toNat
  else 0

/-- A word of the register page of vdev number `n`; zero where there is none. -/
def Dev.vdevPage (d : Dev) (n off : Nat) : Nat := (d.vdev n).elim 0 fun v => v.page (d.gens[idx 1024 n]) off

/-- LEASECTL (R407). -/
def Pf.leasectl (p : Pf) : Nat := p.active.val + 16 * b2n p.arm + 128 * b2n p.taken

/-- The 64-bit word of BAR0 of PF0 at an offset that is a multiple of 8 (R399). -/
def Dev.pf0Word (d : Dev) (off : Nat) : Nat :=
  let p := d.pf
  let fbind := fun (k : Nat) => if k < 249 then (p.fbind[idx 249 k]).toNat else 0
  if off = 0 then karch
  else if off = 0x0100 then p.leasex.toNat
  else if off = 0x0108 then p.leasectl
  else if off = 0x1000 then p.mfn.toNat
  else if off = 0x1008 then p.marg.toNat
  else if off = 0x1010 then p.mres.toNat
  else if off = 0x1018 then p.mstat.toNat
  else if 0x1040 ≤ off ∧ off < 0x2000 then leNat (p.mailBytes (off - 0x1040) 8)
  else if 0x2000 ≤ off ∧ off < 0x23e8 then fbind ((off - 0x2000) / 4) + 2 ^ 32 * fbind ((off - 0x2000) / 4 + 1)
  else if 0x3000 ≤ off ∧ off < 0x3040 then recField p.cbuf (off - 0x3000) 8
  else if off = 0x3040 then p.cmdw.toNat
  else if off = 0x3048 then p.cstat.toNat
  else if 0x8000 ≤ off ∧ off < 0xbe40 then
    let k := (off - 0x8000) / 16
    let w := p.windows[idx 996 k]
    if off % 16 = 0 then w.baroff.toNat else w.attr.toNat
  else 0

/-- The word at an offset of BAR0 or BAR1 of a function: BAR0 of a VF is the page of its vdev, BAR1 of PF0 holds every vdev's (R399). -/
def Dev.barWord (d : Dev) (bar : Fin 2) (f : Fin 249) (off : Nat) : Nat :=
  if f = 0 then (if bar = 0 then d.pf0Word off else d.vdevPage (off / 4096) (off % 4096))
  else if bar = 0 ∧ off < 4096 ∧ (d.pf.fbind[f]).getLsbD 31 then d.vdevPage (fieldOf d.pf.fbind[f] 0 10) off
  else 0

/-- One byte of a BAR. -/
def Dev.barByte (d : Dev) (bar : Fin 2) (f : Fin 249) (off : Nat) : Byte :=
  BitVec.ofNat 8 (field (d.barWord bar f (off / 8 * 8)) (8 * (off % 8)) 8)

/-- A host reads registers (R6, R399): the bytes, or Unsupported Request for a function that is not enabled, and in RUN for a request without
the T bit (R413). -/
def Dev.barRead (d : Dev) (port : Fin 2) (bar : Fin 2) (f : Fin 249) (off n : Nat) (tbit : Option Nat) : Dev :=
  d.answerRead port (if d.fnOpen port f tbit then some ((List.range n).map fun i => d.barByte bar f (off + i)) else none)

end Sys2Proof.Machine
end

