-- ==== Sys2Proof/Machine/Inputs.lean ====
section
/-! DEFINITION. What comes from outside (R318, R398, R430, R435, R438, R439): which events of the table an outside agent causes, and what it does
besides. -/

namespace Sys2Proof.Machine

/-- The events of the table that come from outside: a host, another device, the board, or a fault of a link. -/
def fromOutside (i : Instr) : Bool :=
  match i with
  | .sptailWrite .. | .wakeWrite .. | .vstatWrite .. | .ltfreeWrite .. | .registerWrite .. | .fbindWrite .. | .windowDescriptorWrite ..
  | .leasexWrite .. | .leasectlWrite .. | .hostWindowRead .. | .hostWindowWrite .. | .cxlMemAccess .. | .functionLevelReset ..
  | .atsTranslationCompletion .. | .prgResponse .. | .atsInvalidationRequest .. | .priEnable .. | .msixVectorUnmask .. | .cxlCacheSnoop .. => true
  | .spdmNegotiateAlgorithms .. | .spdmChallenge .. | .spdmGetMeasurements .. | .spdmKeyExchange .. | .spdmHeartbeat .. | .spdmKeyUpdate ..
  | .spdmEndSession .. | .ideKmKeyProg .. | .ideKmKSetGo .. | .ideIntegrityFailure .. | .lockInterface .. | .startInterface ..
  | .stopInterface .. => true
  | .seamFlitReceive .. | .seamAckReceive .. | .seamNakReceive .. | .retrainEnd .. | .tackReceive .. | .babblingSuspicion .. => true
  | .retokLow | .powerOnReset | .ptpMessage .. => true
  | _ => false

/-- Adds a word to a list of words that hold an error. -/
def addWord (l : List Nat) (w : Nat) : List Nat := if l.contains w then l else w :: l

/-- Whether a new temperature of a quad crosses one of the thresholds of R439: 105 °C, 115 °C. -/
def crosses (old new : W32) : Bool :=
  (decide (tempOf old < 840) && decide (840 ≤ tempOf new)) || (decide (tempOf old < 920) && decide (920 ≤ tempOf new))

/-- A quad's temperature is read; one that reaches a threshold is acted on next. -/
noncomputable def State.takeTemp (s : State) (q : Fin 32) (t : W32) : State :=
  let old := (s.dev.quads[q]).temp
  let s1 := s.onDev fun d => d.onQuad q fun x => { x with temp := t }
  if crosses old t then { s1 with agenda := .ev (.thermalThreshold q) :: s1.agenda } else s1

/-- The register of a class that is poisoned. -/
def TileRegs.poisoned (x : TileRegs) (c : PoisonClass) (r : Nat) : TileRegs :=
  match c with
  | .s => { x with sPoison := setBit x.sPoison r true }
  | .va => { x with vaPoison := setBit x.vaPoison r true }
  | .vb => { x with vbPoison := setBit x.vbPoison r true }
  | .t => { x with tPoison := setBit x.tPoison (r % 8) true }
  | .z => { x with zPoison := setBit x.zPoison (r % 4) true }

/-- An uncorrectable error in a register of a tile, met at once (R430): counted and logged; the register is poisoned, and a frozen panel is aborted. DESIGN
CHOICE: log entry 83. -/
def Dev.regError (d : Dev) (n : Fin 128) (c : PoisonClass) (r : Fin 32) : Dev :=
  let d1 := ((d.boltOf n).elim d fun b => d.count b 7 1).logEvent 0x04 ((d.boltOf n).map Fin.val) (some n.val) none
  let d2 := d1.onTile n fun t => { t with r := t.r.poisoned c r.val }
  match d2.panelOf n with
  | some p => if p.frozenState then d2.abortPanel p 6 true else d2
  | none => d2

/-- Takes one input from outside that is no event of the table. -/
noncomputable def State.takeInput (s : State) (x : Input) : State :=
  match x with
  | .event _ => s
  | .hostByte p a b => s.onDev fun d => d.write (hostKey p (a % 2 ^ 64)) [b]
  | .vfs p n => s.onDev fun d => d.onPort p fun x => { x with enabled := n }
  | .mask p f v => s.onDev fun d => d.onPort p fun x => { x with masked := if x.masked.contains (f.val, v) then x.masked else (f.val, v) :: x.masked }
  | .pageAlloc p f n => s.onDev fun d => d.onPort p fun x => { x with prAlloc := x.prAlloc.set f n }
  | .hdm p i base size dpa => s.onDev fun d => d.onPort p fun x => { x with hdm := x.hdm.set i { base := base, size := size, dpa := dpa } }
  | .barRead p bar f off n tbit => s.onDev fun d => d.barRead p bar f off n tbit
  | .strike w true => s.onDev fun d => { d with softWords := addWord d.softWords w }
  | .strike w false => s.onDev fun d => { d with badWords := addWord d.badWords w }
  | .temp q t => s.takeTemp q t
  | .power mw => s.onDev fun d => d.onMc fun m => { m with pwr := mw }
  | .selfCheck n result => s.onDev fun d => d.onRouter n fun r => { r with selfCheck := result }
  | .mcMessage q => s.onDev fun d => d.onSvc q fun c => { c with mcmsg := true }
  | .pfail low => s.onDev fun d => d.onMc fun m => if m.pfailLow = low then m else { m with pfailLow := low, pfailSince := d.dcc }
  | .timeSource k up => s.onDev fun d => d.onMc fun m => { m with avail := m.avail.set k up }
  | .vfBars p f => s.onDev fun d => let _ := p; if d.frozenFn f then d.frozenChange f else d
  | .regStrike t c r true => s.onDev fun d => (d.boltOf t).elim d fun b => let _ := (c, r); d.count b 6 1
  | .regStrike t c r false => s.onDev fun d => d.regError t c r

end Sys2Proof.Machine
end

