-- ==== Sys2Proof/Machine/Events.lean ====
section
/-! DEFINITION. Which events happen next: those whose time has come, one after another, and those of variable latency that are enabled, in an
order that the spec leaves open (R34, R254, R280). -/

namespace Sys2Proof.Machine

/-! The commands that a caller may give -/

/-- The MC function that a function code names for a caller (R442). -/
noncomputable def mcOf (c : Caller) (fn : Nat) (arg : W64) : Option Instr :=
  let host := match c with
    | .host _ => true
    | .svc _ _ => false
  match fn, host with
  | 0x01, _ => some (.mcRead c arg)
  | 0x02, true => some (.mcWrite c arg)
  | 0x03, _ => some (.mcClear c arg)
  | 0x04, _ => some (.mcFence c arg)
  | 0x05, true => some (.mcLogread c arg)
  | 0x06, false => some (.mcLog c arg)
  | 0x10, true => some (.mcBoltset c arg)
  | 0x11, true => some (.mcCollapse c arg)
  | 0x12, true => some (.mcAppeal c arg)
  | 0x20, true => some (.mcUpdstage c arg)
  | 0x21, true => some (.mcUpdcommit c arg)
  | _, _ => none

/-- The placer command that a command byte names (R365). -/
noncomputable def plcOf (c : Caller) (cmd : Nat) (arg : W64) : Option Instr :=
  match cmd with
  | 0x01 => some (.plcVcreate c arg)
  | 0x02 => some (.plcVdestroy c arg)
  | 0x03 => some (.plcSpoolset c arg)
  | 0x04 => some (.plcRadmit c arg)
  | 0x05 => some (.plcRremove c arg)
  | 0x06 => some (.plcEvict c arg)
  | 0x07 => some (.plcAge c arg)
  | _ => none

/-! Events whose time has come -/

/-- An event under a condition. -/
def given (b : Bool) (i : Instr) : List Instr := if b then [i] else []

/-- Whether the compute die is powered (R434). -/
def Dev.dieOn (d : Dev) : Bool := d.mc.st == .running || d.mc.st == .checkpoint

/-- Whether the device's ports work: not in retention, and not before bring-up (R434, R446). -/
def Dev.portsOn (d : Dev) : Bool := d.dieOn || d.mc.st == .dormant

/-- What a flit does when it arrives (R420, R424, R425, R429). -/
noncomputable def SvcFlit.event (f : SvcFlit) : Instr :=
  match f.body with
  | .tack tk => .tackReceive f.dest f.seam tk
  | .vote suspect voter since relay withdraw reinst => .voteFlitReceive f.dest suspect ⟨voter, since⟩ relay withdraw reinst
  | .fence suspect => .fenceFlitReceive f.dest suspect
  | .unfence suspect => .unfenceFlitReceive f.dest suspect

/-- What is due at one router (R420, R421, R424, R429). -/
noncomputable def Dev.routerDue (d : Dev) (n : Fin 128) : List Instr :=
  let r := d.routers[n]
  given (r.tackDue d.dcc) (.tackSend n)
    ++ ((List.finRange 4).filter fun k => (r.nbr[k]).overdue d.dcc).map (fun k => Instr.tackMiss n k)
    ++ (r.votes.filter fun v => decide (v.expiry ≤ d.dcc)).map (fun v => Instr.voteExpiry n v.suspect v.voter)
    ++ ((List.finRange 4).filter fun k => (r.nbr[k]).reinstates && r.fence == 0).map (fun k => Instr.reinstatementVote n k)
    ++ ((List.finRange 4).filter fun k => (r.nbr[k]).strays d.dcc).map (fun k => Instr.babblingSuspicion n k (.span 0))
    ++ given (r.testing.any fun t => decide (t ≤ d.dcc)) (.selftestComplete n (Config.pick d.fresh % 2 == 0))

/-- What is due of power, time and temperature (R430, R434–R437, R439). -/
noncomputable def Dev.powerDue (d : Dev) : List Instr :=
  given (d.pfailDue) (.pfailAssert)
    ++ given (d.pfailRises) (.pfailDeassert)
    ++ d.hotQuads.map Instr.thermalThreshold
    ++ given (d.mc.sourceLost) (.dccHoldoverEntry)
    ++ given (d.saveOverdue) (.checkpointSaveDeadline)
    ++ given (d.checkpointDone) (.checkpointComplete)
    ++ given (d.mc.st == .retention && !d.mc.pfail && !d.mc.thermal) (.powerReturnResume)
    ++ given (d.cool) (.thermalResume)
    ++ given (d.dormancyDue) (.dormantEntry)
    ++ given (d.dormantCall) (.dormantWake)
    ++ given (d.dieOn && d.mc.scrubDue d.dcc) (.patrolScrub)

/-- How an operation of a tile is performed, if it may be now (R226–R253). -/
noncomputable def Dev.performEvents (d : Dev) (n : Fin 128) (o : MemOp) (i : Nat) : List Instr :=
  if !d.mayGo n o then [] else
    match o.kind with
    | .ldg | .stg | .amoG | .zline | .pref => [.globalAccessPerform n i]
    | .ldv | .stv | .amoV => [.lateralAccessPerform n i]
    | .sndr => [.sndrAddition n i]
    | .semv => [.semvIncrement n i]
    | .xrcvf => if 1 ≤ (d.tiles[n].sr.sem[o.sem]).toNat then [.xrcvfTake n i] else []
    | .launch | .evpost | .xfar | .fence => []

/-- The submissions and events that the placers may perform (R240, R241). -/
noncomputable def Dev.postedEvents (d : Dev) : List Instr :=
  d.posted.zipIdx.flatMap fun x =>
    given (d.postedReady x.1.tile x.2).isSome (if x.1.op.kind == .launch then .launchSubmission x.1.tile x.2 else .evpostDeliver x.1.tile x.2)

/-- The deliveries of a tile's messages on their way inside the device. -/
noncomputable def Dev.farOf (d : Dev) (n : Fin 128) : List Instr :=
  (d.far.zipIdx.filter fun x => x.1.sdev == d.mc.config.spdev && x.1.stile == n.val && !(d.far.take x.2).any x.1.sameWay).map fun x =>
    Instr.xfarDelivery x.2

/-- The submissions and events of a tile, accepted and still to perform, that timed accesses of a cycle follow, or that operations follow which these
accesses follow (R240, R284, R287). -/
noncomputable def Dev.forcedPosted (d : Dev) (n : Fin 128) (psc : Nat) : List Instr :=
  let t := d.tiles[n]
  let later := t.forced psc
  let first := fun (o : MemOp) =>
    (t.timedNow psc).any (fun f => decide (o.issue < f.issue) && (f.rel || rangesMeet f.range (o.range t) || t.fencesOff o f.issue f.writes))
      || later.any fun x => decide (o.issue < x.issue) && (x.rel || t.fencesOff o x.issue x.kind.writes || MemOp.meets t o x)
  (d.posted.zipIdx.filter fun x => (d.postedBy n).contains x.1 && first x.1.op).flatMap fun x =>
    given (d.postedReady x.1.tile x.2).isSome (if x.1.op.kind == .launch then .launchSubmission x.1.tile x.2 else .evpostDeliver x.1.tile x.2)

/-- What must happen before a panel's next cycle, because timed accesses of that cycle follow it (R229, R284, R287). What waits on a fault or on
another device does not hold a timed cycle up (R224). DESIGN CHOICE, unsafe: log entry 77. -/
noncomputable def Dev.forcedEvents (d : Dev) (p : Panel) : List Instr :=
  p.tiles.flatMap fun n =>
    let t := d.tiles[n]
    let l := t.forced p.psc
    d.forcedPosted n p.psc ++ (t.ops.zipIdx.filter fun x => l.contains x.1).flatMap fun x =>
      given (d.mayTake n x.1) (.outboundAccept n x.2) ++ d.performEvents n x.1 x.2 ++ if x.1.kind == .xfar then d.farOf n else []

/-- What a target has accepted from a quiescing panel's tiles and can perform before PSTALL ends the quiescence (R234, R338). -/
noncomputable def Dev.lastEvents (d : Dev) (p : Panel) : List Instr :=
  p.tiles.flatMap fun n => (d.tiles[n].ops.zipIdx.filter fun x => x.1.stage == .accepted).flatMap fun x => d.performEvents n x.1 x.2

/-- The transfers of a tile that start: all that they waited for has resolved (R257). -/
noncomputable def Dev.startsDue (d : Dev) (n : Fin 128) : List Instr :=
  ((List.finRange 32).filter fun k =>
    let x := d.tiles[n].toks[k]
    x.st == .pending && d.engineRuns n && x.xfer.any Xfer.mayStart).map fun k => .transferStart n k

/-- What is due of a panel: transfers that start, a cut that has completed, what its next timed accesses follow, quiescence that has ended (R56, R338). -/
noncomputable def Dev.panelDue (d : Dev) (p : Panel) : List Instr :=
  given (d.cutDone p) (.cutComplete p.handle) ++ given (d.savesFrozen p && d.maySave p) (.contextSaveComplete p.handle) ++ p.tiles.flatMap d.startsDue ++ (if p.phase == .running then d.forcedEvents p else [])
    ++ if d.quiesced p then d.lastEvents p ++ [.quiesceEnd p.handle] else []

/-- Whether a reservation's job is to be ordered evicted for its budget. -/
def Dev.spentJob (d : Dev) (r : Resv) : Bool := r.spent && r.period != 0 && (r.launchOf d).isSome

/-- Whether a reservation's job misses its deadline now. -/
def Dev.lateJob (d : Dev) (r : Resv) : Bool := r.late d.dcc && (r.launchOf d).isSome

/-- What is due of the placers (R367, R372, R432, R433). -/
noncomputable def Dev.placerDue (d : Dev) : List Instr :=
  (d.resvs.filter d.spentJob).map (fun r => Instr.budgetOverrun r.num)
    ++ (d.resvs.filter d.lateJob).map (fun r => Instr.deadlineMiss r.num)
    ++ (d.vdevs.flatMap fun v => (v.launches.filter fun l => l.gangs.any fun g => g.expired l d.dcc).map fun l => Instr.backfillWcrtExpiry v.num l.num)
    ++ (d.vdevs.filter d.collapseDue).map (fun v => Instr.collapseDelayExpiry v.num)
    ++ (d.vdevs.filter d.collapseOver).map (fun v => Instr.collapseComplete v.num)
    ++ (d.vdevs.filter d.wakeOver).map (fun v => Instr.wakeComplete v.num)

/-- The open faults of a bolt that have been open for 100 ms (R386). -/
noncomputable def Dev.faultsDue (d : Dev) (b : Fin 32) : List Instr :=
  ((d.bolts[b]).faults.filter fun f => decide (f.opened + faultLimit ≤ d.dcc)).map fun f => Instr.faultTimeout b f.id

/-- The page-request entries of a port that have stood for 100 ms with their fault closed already (R395). -/
noncomputable def Dev.entriesDue (d : Dev) (k : Fin 2) : List Instr :=
  ((d.ports[k]).prg.filter fun e => d.prgOver e && !(d.bolts[e.bolt]).faults.any fun f => f.id == e.fault).map fun e =>
    Instr.faultTimeout e.bolt e.fault

/-- What is due at the host ports (R403, R411, R441): the control path and the mailbox run what the host has started. -/
noncomputable def Dev.hostDue (d : Dev) : List Instr :=
  let p := d.pf
  let sessions := (List.finRange 2).flatMap fun (k : Fin 2) =>
    ((d.ports[k]).sessions.filter fun x => x.expired d.dcc).map fun x => Instr.sessionExpiry k x.id
  sessions
    ++ (if d.dieOn && p.ctlBusy && p.cwait.free then (plcOf (.host p.active) (fieldOf p.cmdw 0 8) (p.cbuf.setWidth 64)).toList else [])
    ++ (if d.dieOn && p.mailBusy then (mcOf (.host p.active) p.mfn.toNat p.marg).toList else [])

/-- What is due at a seam port (R418). -/
noncomputable def Dev.seamDue (d : Dev) (p : Fin 8) : List Instr :=
  let x := d.seams[p]
  given (x.broken) (.linkRetrain p) ++ given (x.silentNow d.dcc) (.seamAckTimeout p)
    ++ given (x.retrain.any fun t => decide (t ≤ d.dcc)) (.retrainEnd p false)

/-- Everything whose time has come. -/
noncomputable def Dev.due (d : Dev) : List Instr :=
  d.powerDue
    ++ (if d.portsOn then d.hostDue ++ (List.finRange 8).flatMap d.seamDue else [])
    ++ (if d.dieOn then
        d.flits.map SvcFlit.event ++ (List.finRange 128).flatMap d.routerDue ++ d.panels.flatMap d.panelDue ++ d.placerDue
          ++ (List.finRange 32).flatMap d.faultsDue ++ (List.finRange 2).flatMap d.entriesDue
      else [])

/-- An event whose time has come, if any; it happens before the clock goes on. -/
noncomputable def Dev.urgent (d : Dev) : Option Instr := d.due.head?

/-! Enabled events -/

/-- What operation `i` of a tile may do next (R226–R253). -/
noncomputable def Dev.opEvents (d : Dev) (n : Fin 128) (x : MemOp × Nat) : List Instr :=
  let o := x.1
  let i := x.2
  let arrive := match o.ls with
    | some j => if o.stage == .performed then [Instr.landingArrival n j] else []
    | none => []
  arrive ++ given (d.mayTake n o) (.outboundAccept n i) ++ d.performEvents n o i

/-- What a token's transfer may do next (R269). -/
noncomputable def Dev.tokEvents (d : Dev) (n : Fin 128) (k : Fin 32) : List Instr := given ((d.chunkReady n k).isSome) (.chunkComplete n k)

/-- What a tile of a panel may do next. -/
noncomputable def Dev.tileEnabled (d : Dev) (n : Fin 128) : List Instr :=
  d.tiles[n].ops.zipIdx.flatMap (d.opEvents n) ++ (List.finRange 32).flatMap (d.tokEvents n)

/-- Whether the starting panels of a panel's gang may be read now (R26, R363). -/
def Dev.mayBegin (d : Dev) (p : Panel) : Bool := (d.starters p).all fun q => decide (q.startAt ≤ d.dcc) && q.wait.free && !d.undrained q

/-- What a panel may do next: start, resume, end its save (R55, R338, R344), or what its tiles may do. -/
noncomputable def Dev.panelEnabled (d : Dev) (p : Panel) : List Instr :=
  given (p.phase == .loading && d.mayBegin p) (.cutStart p.handle)
    ++ given (p.phase == .restoring && d.mayBegin p) (.contextRestore p.handle)
    ++ given (d.maySave p) (.contextSaveComplete p.handle)
    ++ p.tiles.flatMap d.tileEnabled

/-- What a vdev's placer may do next for it: accept a record, write a completion record (R357, R405). -/
noncomputable def Dev.vdevEnabled (d : Dev) (v : Vdev) : List Instr :=
  ((List.finRange 16).filter fun s => d.mayAccept v s).map (fun s => Instr.recordAccept v.num s)
    ++ given (v.unreported.isSome && v.mayReport d.dcc) (.completionRecordWrite v.num)

/-- Whether a page request may go out (R395). -/
def HostPort.maySend (p : HostPort) (e : PrgEnt) : Bool :=
  !e.sent && decide ((p.prg.filter fun x => x.fn == e.fn && x.sent).length < p.prAlloc[idx 249 e.fn]) && !p.priOff.contains e.fn

/-- What a host port may do next. -/
noncomputable def Dev.portEnabled (d : Dev) (k : Fin 2) : List Instr :=
  let p := d.ports[k]
  (p.prg.filter p.maySend).map (fun e => Instr.pageRequestSend k e.prgi)
    ++ (List.range (Nat.min 32 p.hinv.length)).map (fun i => Instr.atsInvalidationComplete k i)

/-- Far messages that may arrive (R252, R419), and links whose retraining may succeed (R418). -/
noncomputable def Dev.farEnabled (d : Dev) : List Instr :=
  ((List.range d.far.length).filter fun i => (d.far[i]?).any fun f => !(d.far.take i).any f.sameWay).map (fun i => Instr.xfarDelivery i)
    ++ ((List.finRange 8).filter fun p => !(d.seams[p]).rx.isEmpty).map (fun p => Instr.xfarDelivery (d.far.length + p.val))
    ++ ((List.finRange 8).filter fun p => (d.seams[p]).retrain.isSome).map (fun p => Instr.retrainEnd p true)

/-- The variable-latency events that may happen now. -/
noncomputable def Dev.enabled (d : Dev) : List Instr :=
  if d.dieOn then
    d.panels.flatMap d.panelEnabled
      ++ ((List.finRange 128).filter fun n => (d.tiles[n]).drainWait.free && (d.tiles[n]).drain.any fun x => d.drains x.1).map (fun n => Instr.windowDrainComplete n)
      ++ (List.finRange 32).flatMap (fun q => (List.range (d.svcs[q]).invals.length).map fun i => Instr.invalidationComplete q i)
      ++ d.postedEvents ++ d.vdevs.flatMap d.vdevEnabled ++ (List.finRange 2).flatMap d.portEnabled ++ d.farEnabled
  else []

end Sys2Proof.Machine
end

