-- ==== Sys2Proof/Machine/Plan.lean ====
section
/-! DEFINITION. What happens next when the agenda is empty: bring-up, an event whose time has come, an enabled event of variable latency, or the
next clock edge of a bolt with the cycles of its panels and service cores and its placer's tick. -/

namespace Sys2Proof.Machine

/-! Service cores -/

/-- A service core's register without the agent, for planning. -/
def Svc.readS (c : Svc) (r : Fin 32) : W64 := if r = 0 then 0#64 else c.s[r]

/-- The row of the table that an operation of a service core is: `mcall` and `plc` name theirs in a register (R330, R365, R442). -/
noncomputable def Svc.rowOf (c : Svc) (q : Fin 32) (o : SlotOp) : Option Instr :=
  match o with
  | .ins i => some i
  | .mcall d x y => if (c.readS x).toNat < 256 then mcOf (.svc q d) (c.readS x).toNat (c.readS y) else none
  | .plc d x y => if (c.readS x).toNat < 256 then plcOf (.svc q d) (c.readS x).toNat (c.readS y) else none

/-- Plans one operation of a service core; a command that does not exist answers status 1, a function that does not exist traps. -/
noncomputable def State.planSvcOp (s : State) (q : Fin 32) (a : W32) (len : Nat) (o : Op) : State :=
  let c := s.dev.svcs[q]
  let add := fun (l : List Micro) (s : State) => { s with agenda := l ++ s.agenda }
  if (o.gp == 0 || c.p.getLsbD o.gp.val) == o.gn then add (bundleMicros (.svc q) a len []) s
  else match c.rowOf q o.op, o.op with
    | some i, _ => add (bundleMicros (.svc q) a len [(o.slot.val, i)]) s
    | none, .plc d _ _ =>
      add (bundleMicros (.svc q) a len []) (s.onDev fun x => x.onSvc q fun c => c.writeDest (.s d) 1#1024 false)
    | none, _ => s.onDev fun d => d.svcEnter q 2 0 a

/-- Plans the next bundle of a service core, or its entry to the handler (R319, R321). A core that waits in an operation ends it first. -/
noncomputable def State.planSvc (s : State) (q : Fin 32) : State :=
  let c := s.dev.svcs[q]
  let add := fun (l : List Micro) => { s with agenda := l ++ s.agenda }
  let event := s.dev.svcEvent q && c.plcWait == .no
  match c.run with
  | .off => s
  | .dead => s
  | .wait => if event then add [.ev (.serviceCoreEventEntry q)] else s
  | .run =>
    if event then add [.ev (.serviceCoreEventEntry q)]
    else if 0 < c.idle then
      s.onDev fun d => d.onSvc q fun c => { c with idle := c.idle - 1, pc := if c.idle = 1 then afterIdle c.loops c.pc else c.pc }
    else match s.dev.fetchSvc q with
      | .unmapped a => s.onDev fun d => d.svcEnter q 3 0 a
      | .illegal a _ => s.onDev fun d => d.svcEnter q 1 0 a
      | .bundle a len b =>
        match b with
        | .idle n => add (bundleMicros (.svc q) a len [(0, .idleBundle n)])
        | .barrier _ => s.onDev fun d => d.svcEnter q 1 0 a
        | .ops _ [] => s
        | .ops _ (o :: _) => s.planSvcOp q a len o

/-! Time (R12, R367, R432–R434, R438) -/

/-- How much of a slew happens over `ns` nanoseconds from `t`: 1 ns in each 2,000 ns, which is 500 ppm (R438). -/
def slewed (slew : Int) (t ns : Nat) : Int :=
  let k : Int := ((t + ns) / 2000 : Nat) - (t / 2000 : Nat)
  if 0 ≤ slew then min slew k else max slew (-k)

/-- The frequency correction over the same time, in holdover (R438). -/
def corrected (ppb : Int) (t ns : Nat) : Int := (((t + ns : Nat) : Int) * ppb) / 1000000000 - ((t : Nat) : Int) * ppb / 1000000000

/-- Whether the time that passes counts against a job's budget: its gang is placed and has issued (R367). -/
def Dev.jobRuns (d : Dev) (r : Resv) : Bool :=
  !r.overrun && d.panels.any fun p => p.vdev == r.vdev && r.job == some p.launch && p.phase != .loading && p.phase != .over

/-- The counts of a vdev over `ns` DCC ns: the wake bound, and the time since which it is idle. -/
def Vdev.age (v : Vdev) (ns dcc : Nat) : Vdev :=
  { v with wakeCounted := if v.wakeCounts then v.wakeCounted + ns else v.wakeCounted
           idleSince := if v.idle then v.idleSince else dcc }

/-- Lets real time pass to `t` (1/168 ns): DCC with its corrections, which never decreases (R438), and the counts that run in DCC time. -/
def Dev.passTime (d : Dev) (t : Nat) : Dev :=
  let from_ := d.now / 168
  let ns := t / 168 - from_
  let adj := slewed d.mc.slew from_ ns
  let freq := if fieldOf d.mc.tsync 0 2 = 3 then corrected d.mc.holdover from_ ns else 0
  let dcc := Nat.max d.dcc ((d.dcc : Int) + ns + adj + freq).toNat
  let passed := dcc - d.dcc
  let job := fun (r : Resv) => if d.jobRuns r then { r with used := r.used + passed } else r
  let vdev := fun (v : Vdev) => v.age passed dcc
  { d with now := t
           dcc := dcc
           resvs := d.resvs.map job
           vdevs := d.vdevs.map vdev
           mc := { d.mc with slew := d.mc.slew - adj, dormantAt := if d.mc.st == .running && d.allAsleep then some (d.mc.dormantAt.getD dcc) else none } }

/-- The bolts whose clock runs: valid bolts while the die is powered (R349, R434, R446). -/
def Dev.clocked (d : Dev) : List (Fin 32) := if d.dieOn then (List.finRange 32).filter d.boltValid else []

/-- The work of a bolt on one clock cycle: a cycle of each of its panels that run, of its service cores, and on every 1,024th cycle its
placer's tick (R32, R319, R368). -/
noncomputable def Dev.boltWork (d : Dev) (b : Fin 32) (tick : Bool) : List Micro :=
  (d.panels.filter fun p => p.bolt == b && p.phase == .running).map (fun p => .cycle p.handle)
    ++ ((d.boltQuads b).filter fun q => (d.svcs[q]).run == .run || (d.svcs[q]).run == .wait).map (fun q => .svc q)
    ++ (if tick then [.ev (.placerTick b)] else [])

/-- Whether a takeover is due before time goes on to `t`: a LEASEX write of the same nanosecond still renews the lease (R408). -/
def Dev.takeoverDue (d : Dev) (t : Nat) : Bool := d.portsOn && d.leaseOver && decide (d.now / 168 < t / 168)

/-- Goes to the next clock edge. Without a running clock one nanosecond passes, and no more than one while a takeover is armed, since each is tested for
it (R408). -/
noncomputable def State.advance (s : State) : State :=
  let d := s.dev
  let first := minBy (fun b => (d.bolts[b] : Bolt).edge) d.clocked
  let far := fun (b : Fin 32) => d.portsOn && d.pf.arm && decide (d.now / 168 + 1 < d.bolts[b].edge / 168)
  let next := first.filter fun b => !far b
  let t := next.elim ((d.now / 168 + 1) * 168) fun b => Nat.max d.now d.bolts[b].edge
  if d.takeoverDue t then { s with agenda := [.ev .leaseTakeover] }
  else match next with
  | none => s.onDev fun d => d.passTime t
  | some b =>
    let tick := d.bolts[b].cyc == 1023
    let d1 := (d.passTime t).onBolt b fun x => { x with edge := t + clockPeriod x.clk, cyc := if tick then 0 else x.cyc + 1 }
    { s with dev := d1, agenda := d1.boltWork b tick }

/-! The plan -/

/-- Plans what comes next while nothing is in hand: the choice among the enabled events and the clock is free (log entry 7). -/
noncomputable def State.plan (s : State) : State :=
  let d := s.dev
  if d.mc.st == .bringup && !d.mc.bfail then { s with agenda := [.ev .powerOnReset] }
  else match d.urgent with
    | some i => { s with agenda := [.ev i] }
    | none =>
      match d.enabled with
      | [] => s.advance
      | l =>
        let s1 := s.onDev fun d => { d with fresh := d.fresh + 1 }
        match l[Config.pick d.fresh % (l.length + 1)]? with
        | some i => { s1 with agenda := [.ev i] }
        | none => s1.advance

/-- Whether a panel is the one that stands for the bound gang that starts on it and others (R375). -/
def Dev.preloadLead (d : Dev) (p : Panel) : Bool := p.phase == .over && d.preloadReady p && (d.preloadPanels p).all fun q => decide (p.handle ≤ q.handle)

/-- The events of one step of a placer's tick (R368): releases, preloaded gangs, placement, clearance. Accesses that wait for a fault place are
tried again at the end (R386). -/
noncomputable def Dev.tickWork (d : Dev) (b : Fin 32) (stage : Fin 4) : List Instr :=
  let mine := d.vdevs.filter fun v => v.bolt == b
  match stage with
  | 0 => mine.flatMap fun v => ((List.finRange 16).filter fun s => (v.oldest s).isSome).map fun s => .launchRelease v.num s
  | 1 => (d.panels.filter fun p => p.bolt == b && d.preloadLead p).map fun p => .preloadStart p.handle
  | 2 => [.gangPlace b]
  | 3 => (if (d.pointed b).isSome then [.clearance b] else []) ++ [.faultRetry b]

/-- Expands the planning item at the head of the agenda. -/
noncomputable def State.expand (s : State) : State :=
  match s.agenda with
  | .cycle h :: r => { s with agenda := r }.planCycle h
  | .svc q :: r => { s with agenda := r }.planSvc q
  | .tick b k :: r => { s with agenda := (s.dev.tickWork b k).map Micro.ev ++ r }
  | _ => s

/-- Enters an operation of a bundle: who issues it and where (R147). -/
def State.enter (s : State) (a : Agent) (addr : W32) (len slot : Nat) (first : Bool) : State :=
  let iss := if first then Iss.start addr len else s.iss
  { s with cur := a, iss := { iss with slot := slot } }

end Sys2Proof.Machine
end

