-- ==== Sys2Proof/Machine/Run.lean ====
section
/-! DEFINITION. Running the agenda: the next item of the work in hand, or what has come from outside, or what is planned next; and the
placing of an instruction where the next step fetches. -/

namespace Sys2Proof.Machine

/-- Runs one item of the agenda. A planning item is expanded by the next step. -/
noncomputable def State.runMicro (s : State) (m : Micro) : Result :=
  match m with
  | .cycle _ | .svc _ | .tick _ _ => .next { s with agenda := m :: s.agenda }
  | .op a addr len slot first i => exec i (s.enter a addr len slot first)
  | .ev i => exec i s
  | .endBundle a addr len first => .next (if first then s.enter a addr len 0 true else { s with cur := a }).endBundle
  | .endIssue h => .next (s.endIssue h)
  | .endCycle h => .next (s.endCycle h)

/-- Runs the item at the head of the agenda. -/
noncomputable def State.runHead (s : State) : Result :=
  match s.agenda with
  | [] => .next s
  | m :: r => ({ s with agenda := r } : State).runMicro m

/-- Takes one input: an event that an outside agent causes happens, anything else that is no event of the table changes the device; an event
that no outside agent can cause is ignored. -/
noncomputable def State.runInput (s : State) (x : Input) : Result :=
  match x with
  | .event i => if fromOutside i then exec i s else .next s
  | x => .next (s.takeInput x)

/-- Whether an input may take a TDI out of its locked running state (R414). -/
def Input.leaves (x : Input) : Bool :=
  match x with
  | .event (.stopInterface ..) | .event (.spdmEndSession ..) | .event (.ideIntegrityFailure ..) | .event (.fbindWrite ..)
  | .event (.windowDescriptorWrite ..) | .vfBars .. => true
  | _ => false

/-- Whether an input is a function-level reset. -/
def Input.resets (x : Input) : Bool :=
  match x with
  | .event (.functionLevelReset ..) => true
  | _ => false

/-- The inputs of a nanosecond in the order in which they act: a function-level reset governs what would take a TDI out of its locked running state
in the same nanosecond, so it goes before it (R415). -/
def orderInputs (l : List Input) : List Input :=
  match l with
  | [] => []
  | x :: r => if x.leaves then (r.find? Input.resets).elim l fun y => y :: x :: r.eraseP Input.resets else l

/-- What the machine does next (log entries 1 and 6). -/
noncomputable def State.runNext (s : State) : Result :=
  match s.agenda, orderInputs s.inbox with
  | _ :: _, _ => s.expand.runHead
  | [], x :: r => ({ s with inbox := r } : State).runInput x
  | [], [] => s.plan.expand.runHead

/-- The panel that `placeWord` places: one tile, at tile 0. -/
def fetchPanel : Panel where
  handle := 0
  bolt := 0
  x0 := 0
  y0 := 0
  w := 1
  h := 1
  psc := 0
  pstall := 4096
  pstitch := 16384
  phase := .running
  frozen := 0
  lastStitch := 0
  beats := []
  nextBeat := 0
  vdev := 0
  launch := 0
  cut := 0
  image := 0#64
  slots := []
  evict := none
  save := false
  saveAt := 0
  startAt := 0
  stepping := false
  haltReq := false
  timing := false
  pre := none
  wait := .no

/-- `s` with an instruction's words where the next step fetches: bring-up done, bolt 0 valid over quad 0 at its first clock edge, a
1 × 1 panel running on tile 0 at fetch address 0 of the active half, and the words there with zeros above them (log entry 6). -/
def State.placeWord (s : State) (nbits w : Nat) : State :=
  let d := s.dev
  let t := d.tiles[(0 : Fin 128)]
  let v := w % 2 ^ nbits
  let key := ispKey 0 (halfBase t.activeHalf)
  let d1 := { d with mc := { d.mc with st := .running, bdesc := d.mc.bdesc.set 0 0x80000000#32 }
                     panels := [fetchPanel], raised := [] }
  let d2 := d1.onBolt 0 fun b => { b with edge := d.now, cyc := 0 }
  let d3 := d2.onTile 0 fun t =>
    { t with owner := .panel 0, c := { t.c with pc := 0#32, idle := 0, halted := false, held := none, passed := true } }
  { s with dev := d3.write key (leBytes 36 v), agenda := [], inbox := [], saved := none }

end Sys2Proof.Machine
end

