-- ==== Sys2Proof/Machine/Step.lean ====
section
/-! DEFINITION. The step. -/

namespace Sys2Proof.Machine

/-- One step of the machine: one item of the work in hand, one input, or what is planned next. -/
noncomputable def step (s : State) : Host.Outcome State Fault Refusal := s.runNext

/-- `s` with an instruction's words where the next step fetches its next instruction. -/
def State.withFetchWord (s : State) (nbits w : Nat) : State := s.placeWord nbits w

end Sys2Proof.Machine
end

