-- ==== Sys2Proof/WellFormed.lean ====
section
/-! DEFINITION. Which instructions are well formed: the operand values that some encoding of the spec admits (R119, R126 and the
reserved combinations stated with each instruction). What the binders of a constructor already say is not repeated. -/

namespace Sys2Proof

/-- Whether an instruction is well formed. An event of the table has no encoding, and every event is well formed. -/
def Instr.wellFormed : Instr → Bool
  | .idleBundle _ => true
  | .barrierOnlyBundle g => g != 0#3
  | .br _ => true
  | .jr _ _ => true
  | .call _ => true
  | .ret => true
  | .loop _ i => decide (2 ≤ i.toNat) && decide (i.toNat < 2 ^ 11)
  | .loopi _ o => decide (2 ≤ o.toNat)
  | .lbrk => true
  | .lnext => true
  | .swapb _ => true
  | .ifence => true
  | .stitch _ _ => true
  | .chkp c r _ => decide (r.val < c.size)
  | .tkw _ => true
  | .tkpPend _ _ => true
  | .tkpDone _ _ => true
  | .tkpPart _ _ => true
  | .tkpFail _ _ => true
  | .tkpFree _ _ => true
  | .tkpRes _ _ => true
  | .vclust _ _ => true
  | .halt => true
  | .trap _ => true
  | .brk _ => true
  | .kadd _ _ _ => true
  | .kli _ _ => true
  | .kmov _ _ => true
  | .kmovHi _ _ => true
  | .psetAnd _ _ _ => true
  | .psetOr _ _ _ => true
  | .psetXor _ _ _ => true
  | .psetAndn _ _ _ => true
  | .psetOrn _ _ _ => true
  | .psetEq _ _ _ => true
  | .psetNe _ _ _ => true
  | .psetLt _ _ _ => true
  | .psetLtn _ _ _ => true
  | .psetNz _ _ => true
  | .rdsc _ => true
  | .rdscHi _ => true
  | .rddcc _ => true
  | .rddccHi _ => true
  | .add _ _ _ => true
  | .sub _ _ _ => true
  | .mul _ _ _ => true
  | .mulh _ _ _ => true
  | .mulhn _ _ _ => true
  | .div _ _ _ => true
  | .divn _ _ _ => true
  | .rem _ _ _ => true
  | .remn _ _ _ => true
  | .and _ _ _ => true
  | .or _ _ _ => true
  | .xor _ _ _ => true
  | .andn _ _ _ => true
  | .shl _ _ _ => true
  | .shr _ _ _ => true
  | .sra _ _ _ => true
  | .rot _ _ _ => true
  | .clz _ _ => true
  | .ctz _ _ => true
  | .popc _ _ => true
  | .min _ _ _ => true
  | .max _ _ _ => true
  | .minn _ _ _ => true
  | .maxn _ _ _ => true
  | .cmpEq _ _ _ => true
  | .cmpNe _ _ _ => true
  | .cmpLt _ _ _ => true
  | .cmpGe _ _ _ => true
  | .cmpLtn _ _ _ => true
  | .cmpGen _ _ _ => true
  | .cmpTst _ _ _ => true
  | .sel _ _ _ _ => true
  | .li _ _ => true
  | .lih _ _ => true
  | .bfx _ _ _ => true
  | .bfxS _ _ _ => true
  | .bfi _ _ _ => true
  | .sextB _ _ => true
  | .sextH _ _ => true
  | .sextW _ _ => true
  | .sextBn _ _ => true
  | .sextHn _ _ => true
  | .sextWn _ _ => true
  | .widfField _ _ => true
  | .widfGang _ => true
  | .widfCut _ => true
  | .smovK _ _ => true
  | .smovVa _ _ _ => true
  | .smovVb _ _ _ => true
  | .smovPred _ => true
  | .smovMa _ _ => true
  | .smovMb _ _ => true
  | .mvst _ _ => true
  | .mvfs _ _ => true
  | .dset _ _ => true
  | .dsetLo _ _ => true
  | .dsetHi _ _ => true
  | .vadd _ _ _ _ _ _ => true
  | .vsub _ _ _ _ _ _ => true
  | .vmul _ _ _ _ _ _ => true
  | .vmulh _ _ _ _ _ _ => true
  | .vmin _ _ _ _ _ _ => true
  | .vmax _ _ _ _ _ _ => true
  | .vabs _ _ _ ty _ => ty.code % 2 == 0
  | .vneg _ _ _ _ _ => true
  | .vand _ _ _ _ _ => true
  | .vor _ _ _ _ _ => true
  | .vxor _ _ _ _ _ => true
  | .vnot _ _ _ _ => true
  | .vshl _ _ _ _ _ _ => true
  | .vshr _ _ _ _ _ _ => true
  | .vsra _ _ _ _ _ _ => true
  | .vadds _ _ _ _ _ _ => true
  | .vsubs _ _ _ _ _ _ => true
  | .vdot4 _ _ _ _ _ _ _ => true
  | .vdot8 _ _ _ _ _ _ => true
  | .vcmpEq _ _ _ _ _ => true
  | .vcmpNe _ _ _ _ _ => true
  | .vcmpLt _ _ _ _ _ => true
  | .vcmpLe _ _ _ _ _ => true
  | .vcmpGt _ _ _ _ _ => true
  | .vcmpGe _ _ _ _ _ => true
  | .vsel _ _ _ _ _ => true
  | .vfadd _ _ _ _ _ _ _ => true
  | .vfsub _ _ _ _ _ _ _ => true
  | .vfmul _ _ _ _ _ _ _ => true
  | .vffma _ _ _ _ _ _ _ => true
  | .vfmin _ _ _ _ _ _ => true
  | .vfmax _ _ _ _ _ _ => true
  | .vfsgnJ _ _ _ _ _ _ => true
  | .vfsgnJn _ _ _ _ _ _ => true
  | .vfsgnJx _ _ _ _ _ _ => true
  | .vfcmpEq _ _ _ _ _ => true
  | .vfcmpNe _ _ _ _ _ => true
  | .vfcmpLt _ _ _ _ _ => true
  | .vfcmpLe _ _ _ _ _ => true
  | .vfcmpUn _ _ _ _ _ => true
  | .vfcmpOrd _ _ _ _ _ => true
  | .vfclass _ _ _ _ _ => true
  | .vexp2 _ _ _ _ => true
  | .vlog2 _ _ _ _ => true
  | .vrcp _ _ _ _ => true
  | .vrsqrt _ _ _ _ => true
  | .vcvt _ _ _ dt st _ s p => !(s && dt.isInt) && decide ((p.getD 0#2).toNat < Nat.max dt.bits st.bits / Nat.min dt.bits st.bits)
  | .vpack _ _ _ _ _ _ => true
  | .vunpack _ _ _ _ _ => true
  | .vquant _ _ _ e n => decide (n.val < if e = .i4 then 8 else 4)
  | .vquantScale _ _ _ _ _ => true
  | .vscale _ _ _ _ _ _ => true
  | .vfxd _ _ _ _ _ => true
  | .vredsum _ _ _ _ _ => true
  | .vredmax _ _ _ _ _ => true
  | .vredmin _ _ _ _ _ => true
  | .vfredsum _ _ _ _ _ _ => true
  | .vfredmax _ _ _ _ _ => true
  | .vperm _ _ _ _ _ _ => true
  | .vbcast _ _ _ k x _ => match k with | .field r => decide (r.val < x.lanes) | .imm i => decide (i.toNat < x.lanes)
  | .vslide _ _ _ _ n x _ => decide (n.toNat ≤ x.lanes)
  | .vzip _ _ _ _ _ _ => true
  | .vunzip _ _ _ _ _ _ => true
  | .vmov _ _ _ => true
  | .vmovCross _ _ _ => true
  | .vmovSplat _ _ _ _ => true
  | .vmovChunk _ _ _ _ => true
  | .vliW _ _ _ => true
  | .vliF _ _ _ => true
  | .vliH _ _ _ => true
  | .vliB _ _ _ => true
  | .vidx _ _ _ _ _ => true
  | .vcrc _ _ _ _ _ => true
  | .mlogAnd _ _ _ _ => true
  | .mlogOr _ _ _ _ => true
  | .mlogXor _ _ _ _ => true
  | .mlogAndn _ _ _ _ => true
  | .mlogOrn _ _ _ _ => true
  | .mpop _ _ _ => true
  | .mpopFirst _ _ _ => true
  | .mld _ _ _ _ => true
  | .mldt _ _ _ r => decide ((r.getD 0#4).toNat < 13)
  | .mlds _ _ _ => true
  | .mst _ _ _ _ => true
  | .mzero t z => !(t == 0#8 && z == 0#4)
  | .mma _ _ _ => true
  | .mmo _ _ _ => true
  | .mmaResultDue _ => true
  | .zout z zo tt _ _ st _ _ => zo != some z && tt.isSome == (st.rs || st.cs || st.bias)
  | .zoutv z zo tt _ h st _ _ fm => zo != some z && tt.isSome == (st.rs || st.cs || st.bias) && !(h && !fm.half)
  | .zld _ _ _ _ => true
  | .zst _ _ _ => true
  | .zstat _ _ => true
  | .zclr z _ => z != 0#4
  | .ldl _ _ _ _ => true
  | .stl _ _ _ dk => dk.storable
  | .ldg _ _ _ l _ _ => l.due != 0#12
  | .stg _ _ _ dk _ => dk.storable
  | .ldv _ _ _ l _ _ => l.due != 0#12
  | .stv _ _ _ dk _ => dk.storable
  | .amoAdd _ _ _ l _ => l.due != 0#12
  | .amoAnd _ _ _ l _ => l.due != 0#12
  | .amoOr _ _ _ l _ => l.due != 0#12
  | .amoXor _ _ _ l _ => l.due != 0#12
  | .amoMax _ _ _ l _ => l.due != 0#12
  | .amoMin _ _ _ l _ => l.due != 0#12
  | .amoMaxn _ _ _ l _ => l.due != 0#12
  | .amoSwap _ _ _ l _ => l.due != 0#12
  | .cas d _ _ l _ => d.val % 2 == 0 && l.due != 0#12
  | .fenceAcq _ => true
  | .fenceRel _ => true
  | .fenceAr _ => true
  | .sti _ _ _ dk => dk.isp
  | .lget _ _ => true
  | .lwait _ => true
  | .zline _ _ => true
  | .pref _ _ _ => true
  | .launch _ _ => true
  | .evpost _ _ => true
  | .snd _ _ => true
  | .rcv _ _ => true
  | .bcst _ _ => true
  | .sndr x _ _ ty _ _ => !(ty == 3 && x.kind != 2)
  | .semw _ _ n => n != 0#8
  | .semp _ _ => true
  | .semi _ _ => true
  | .semv _ _ n => n != 0#8
  | .xfar _ _ _ _ => true
  | .xrcvf _ _ _ l _ _ => l.due != 0#12
  | .ceGo _ _ => true
  | .ceGor _ _ => true
  | .ceGat _ _ => true
  | .ceSca _ _ => true
  | .ceFill _ _ => true
  | .ceRed _ _ => true
  | .ceIsp _ _ => true
  | .ceRep _ _ => true
  | .ceCan _ => true
  | .ceStatSt _ _ => true
  | .ceStatBytes _ _ => true
  | .ceStatEv _ _ => true
  | .ceStatCrc _ _ => true
  | .ceStatTag _ _ => true
  | .transferStart _ _ => true
  | .chunkComplete _ _ => true
  | .dueResultWrite _ => true
  | .timedAccessPerform _ => true
  | .landingDue _ _ => true
  | .landingArrival _ _ => true
  | .beatArrival _ => true
  | .barrierArrival _ _ => true
  | .barrierRelease _ _ => true
  | .timingFault _ _ => true
  | .globalAccessPerform _ _ => true
  | .lateralAccessPerform _ _ => true
  | .outboundAccept _ _ => true
  | .sndrAddition _ _ => true
  | .semvIncrement _ _ => true
  | .xfarDelivery _ => true
  | .xrcvfTake _ _ => true
  | .cutStart _ => true
  | .cutComplete _ => true
  | .serviceCoreEventEntry _ => true
  | .tsr _ _ => true
  | .tsrP _ _ => true
  | .tsw _ _ => true
  | .tswP _ _ => true
  | .tresRun _ => true
  | .tresStep _ => true
  | .tresHalt _ => true
  | .tresLock _ => true
  | .tabt _ => true
  | .tabtReplay _ => true
  | .tsnapDesc _ _ _ => true
  | .tsnapAddr _ _ _ => true
  | .tsnapVal _ _ _ => true
  | .tsnapDrop _ _ => true
  | .selw _ _ => true
  | .tlbiPage _ => true
  | .tlbiPasid _ => true
  | .tlbiBolt _ => true
  | .tlbs _ => true
  | .ctxs _ _ _ => true
  | .ctxl _ _ _ => true
  | .trpret => true
  | .fqpopTrap _ _ => true
  | .fqpopFault _ _ => true
  | .fqpopPlc _ _ => true
  | .plcVcreate _ _ => true
  | .plcVdestroy _ _ => true
  | .plcSpoolset _ _ => true
  | .plcRadmit _ _ => true
  | .plcRremove _ _ => true
  | .plcEvict _ _ => true
  | .plcAge _ _ => true
  | .mcRead _ _ => true
  | .mcWrite _ _ => true
  | .mcClear _ _ => true
  | .mcFence _ _ => true
  | .mcLogread _ _ => true
  | .mcLog _ _ => true
  | .mcBoltset _ _ => true
  | .mcCollapse _ _ => true
  | .mcAppeal _ _ => true
  | .mcUpdstage _ _ => true
  | .mcUpdcommit _ _ => true
  | .placerTick _ => true
  | .launchRelease _ _ => true
  | .gangPlace _ => true
  | .clearance _ => true
  | .backfillWcrtExpiry _ _ => true
  | .budgetOverrun _ => true
  | .deadlineMiss _ => true
  | .preloadStart _ => true
  | .evictionAtStitch _ => true
  | .quiesceEnd _ => true
  | .contextSaveComplete _ => true
  | .windowDrainComplete _ => true
  | .contextRestore _ => true
  | .periodicStitchSave _ => true
  | .sptailWrite _ _ _ _ => true
  | .launchSubmission _ _ => true
  | .recordAccept _ _ => true
  | .evpostDeliver _ _ => true
  | .completionRecordWrite _ => true
  | .wakeWrite _ _ _ => true
  | .vstatWrite _ _ _ => true
  | .ltfreeWrite _ _ _ => true
  | .registerWrite _ _ _ => true
  | .fbindWrite _ _ _ => true
  | .windowDescriptorWrite _ _ _ _ => true
  | .leasexWrite _ _ => true
  | .leasectlWrite _ _ => true
  | .leaseTakeover => true
  | .hostWindowRead _ _ _ _ _ => true
  | .hostWindowWrite _ _ _ _ _ => true
  | .cxlMemAccess _ _ _ _ => true
  | .functionLevelReset _ _ => true
  | .faultRetry _ => true
  | .faultTimeout _ _ => true
  | .invalidationComplete _ _ => true
  | .atsTranslationCompletion _ _ _ => true
  | .pageRequestSend _ _ => true
  | .prgResponse _ _ _ => true
  | .atsInvalidationRequest _ _ _ _ => true
  | .atsInvalidationComplete _ _ => true
  | .spdmNegotiateAlgorithms _ _ => true
  | .spdmChallenge _ => true
  | .spdmGetMeasurements _ => true
  | .spdmKeyExchange _ => true
  | .spdmHeartbeat _ _ => true
  | .spdmKeyUpdate _ _ => true
  | .spdmEndSession _ _ => true
  | .sessionExpiry _ _ => true
  | .ideKmKeyProg _ _ _ _ => true
  | .ideKmKSetGo _ _ _ => true
  | .ideIntegrityFailure _ _ => true
  | .lockInterface _ _ _ => true
  | .startInterface _ _ _ _ => true
  | .stopInterface _ _ => true
  | .seamFlitReceive _ _ => true
  | .seamAckReceive _ _ => true
  | .seamNakReceive _ _ => true
  | .seamAckTimeout _ => true
  | .linkRetrain _ => true
  | .retrainEnd _ _ => true
  | .tackSend _ => true
  | .tackReceive _ _ _ => true
  | .tackMiss _ _ => true
  | .babblingSuspicion _ _ _ => true
  | .voteFlitReceive _ _ _ _ _ _ => true
  | .voteExpiry _ _ _ => true
  | .fenceFlitReceive _ _ => true
  | .selftestComplete _ _ => true
  | .reinstatementVote _ _ => true
  | .unfenceFlitReceive _ _ => true
  | .patrolScrub => true
  | .pfailAssert => true
  | .checkpointSaveDeadline => true
  | .checkpointComplete => true
  | .pfailDeassert => true
  | .retokLow => true
  | .powerReturnResume => true
  | .dormantEntry => true
  | .dormantWake => true
  | .collapseDelayExpiry _ => true
  | .collapseComplete _ => true
  | .wakeComplete _ => true
  | .thermalThreshold _ => true
  | .thermalResume => true
  | .ptpMessage _ _ _ => true
  | .powerOnReset => true
  | .dccHoldoverEntry => true
  | .priEnable _ _ => true
  | .msixVectorUnmask _ _ _ => true
  | .cxlCacheSnoop _ _ _ => true

end Sys2Proof
end

