-- ==== Sys2Proof/Safety.lean ====
section
/-! DEFINITION. The words in which claims are made: what every step keeps, and what an operation that issues leaves behind. -/

namespace Sys2Proof.Machine

/-- What every step keeps: the device's memory is in its canonical form, and so is that of the device as it stood at the start of the
cycle in hand. -/
def Inv (s : State) : Prop := memWf s.dev.mem = true ∧ ∀ d, s.saved = some d → memWf d.mem = true

/-- The number that a finite value stands for; a NaN or an infinity stands for none and counts as 0. -/
def Val.toRat (v : Val) : ℚ :=
  match v with
  | .fin neg num den e => (if neg then -1 else 1) * (num / den) * 2 ^ e
  | _ => 0

/-- The value of the positive pattern k of a format with its exponent unbounded above: up to `maxPat` that of R62. -/
def FFmt.value (f : FFmt) (k : Nat) : ℚ :=
  if k < 2 ^ f.man then k * 2 ^ (f.emin - f.man) else (2 ^ f.man + (k % 2 ^ f.man : Nat)) * 2 ^ ((k / 2 ^ f.man : Nat) - 1 + f.emin - f.man)

/-- No cluster of the vector registers `l` of file `f` is gated or in its wake window (R157). -/
def State.awake (s : State) (f : VFile) (l : List (Fin 32)) : Prop := ∀ r ∈ l, s.tile.clusterOff f r s.psc = false

/-- Lane j of width w of a vector register of the issuing tile (R59). -/
def State.laneOf (s : State) (f : VFile) (r : Fin 32) (w j : Nat) : BitVec w := (s.readV f r).extractLsb' (w * j) w

/-- Lane j of operand b: of a register, or the immediate extended or cut to w bits (R173). -/
def State.laneB (s : State) (f : VFile) (o : VOpd) (sgn : Bool) (w j : Nat) : BitVec w :=
  match o with
  | .reg r => s.laneOf f r w j
  | .imm i => if sgn then i.signExtend w else i.setWidth w

/-- Lane j of operand b of a floating-point operation: of a register, or the pattern that the immediate gives (R173). -/
def State.laneBF (s : State) (f : VFile) (o : VOpd) (ft : FFmt) (w j : Nat) : BitVec w :=
  match o with
  | .reg r => s.laneOf f r w j
  | .imm i => if ft = .fp32 then BitVec.ofNat w (i.toNat * 2 ^ 16) else i.setWidth w

/-- The value of a lane of a signed or unsigned type (R59). -/
def laneInt {w : Nat} (sgn : Bool) (x : BitVec w) : Int := if sgn then x.toInt else x.toNat

/-- An operation issues and queues one vector result of latency `lat`, whose enabled lanes hold `res`, with the flags of those lanes
(R172, R174, R175). -/
def LaneResult (i : Instr) (s : State) (f : VFile) (lat : Nat) (d : Fin 32) (poison : Bool) (mk : Option W32) (w : Nat)
    (res : Nat → Nat × Flags) : Prop :=
  ∃ v, exec i s = .next (s.putV lat f d v (mk.map maskBits) poison ((enabledLanes mk w).foldl (fun a j => a ||| (res j).2) 0#6))
    ∧ ∀ j < laneCount w, enabled mk w j = true → lane w v j = (res j).1 % 2 ^ w

/-- An operation issues and queues one mask result of latency `lat`: bit i is the AND of `cond` over the lanes in bits [32i+31 : 32i],
0 with TSTAT.PZERO to be set where a source is poisoned; the flags are those of every lane (R178, R41). -/
def CompareResult (i : Instr) (s : State) (f : VFile) (lat : Nat) (d : Fin 8) (poison : Bool) (w : Nat) (cond : Nat → Bool)
    (fl : Nat → Flags) : Prop :=
  ∃ m : W32, exec i s = .next (s.put lat (.m f d) (if poison then 0#1024 else m.setWidth 1024) false fun e =>
      { e with pzero := poison, flags := (List.range (laneCount w)).foldl (fun a j => a ||| fl j) 0#6 })
    ∧ ∀ k < 32, m.getLsbD k = decide (∀ j < laneCount w, w * j / 32 = k → cond j = true)

/-- The accesses of an operation of a matrix path may be made: each ends by `limit` in its bank, the bank is no preload's, no BFMT write
of the bank falls due before the last of them, and each finds the bank's port free (R16, R105, R198, R199). -/
def State.pathOk (s : State) (o : PathOp) (limit : Nat) : Prop :=
  (∀ m < o.cnt, (o.access m).1 + (o.access m).2 ≤ limit) ∧ s.tile.owned o.bank.val = false
    ∧ s.bfmtClash o.bank (o.first + o.cnt - 1) = false
    ∧ ∀ u ∈ s.tile.portUses, ∀ m < o.cnt, u.cycle = o.first + m → u.bank ≠ o.bank.val

/-- A bank offset is aligned for an operation of a matrix path: to 16 bytes, and in a block format the offset and the pitch to the bytes
of a block (R202, R214). -/
def PathOp.aligned (o : PathOp) (block : Bool) : Prop :=
  o.off % 16 = 0 ∧ (block = true → o.off % blockBytes (bfmtFmt o.bfmt) = 0 ∧ bfmtPitch o.bfmt % blockBytes (bfmtFmt o.bfmt) = 0)

/-- The watch registers of the tile let an L-slot access to `n` bytes pass (R325). -/
def State.unwatched (s : State) (ea : W64) (n : Nat) (store dva : Bool) : Prop :=
  s.tile.c.wctl.getLsbD (if store then 1 else 0) = false ∨ s.tile.c.wctl.getLsbD 2 ≠ dva
    ∨ ea.toNat + n ≤ s.tile.c.wlo.toNat ∨ s.tile.c.whi.toNat < ea.toNat

/-- A timed access to `n` bytes may be made: aligned, inside a bank or the own vault, in no bank of a preload, with the bank's port free
on each cycle psc + k for k in `at_`, and not watched (R16, R105, R108, R222, R325). -/
def State.timedOk (s : State) (ea : W64) (n : Nat) (store : Bool) (at_ : List Nat) : Prop :=
  ea.toNat % min n 16 = 0 ∧ timedLoc (s.place ea n) = true ∧ s.unwatched ea n store false
    ∧ (ea.toNat < 0x100000 → s.tile.owned (ea.toNat / 65536) = false
        ∧ ∀ u ∈ s.tile.portUses, ∀ k ∈ at_, u.cycle = s.psc + k → u.bank ≠ ea.toNat / 65536)

/-- A global access to `n` bytes may be issued: aligned, below 2^56 and not watched (R113, R222, R325). -/
def State.dvaOk (s : State) (ea : W64) (n : Nat) (store : Bool) : Prop :=
  ea.toNat % n = 0 ∧ ea.toNat < 2 ^ 56 ∧ s.unwatched ea n store true

/-- The cluster of the register that a data kind names is awake (R157). -/
def State.dkAwake (s : State) (k : DKind) (r : Fin 32) : Prop :=
  match k with
  | .va => s.awake .a [r]
  | .vb => s.awake .b [r]
  | _ => True

/-- An outbound write entry is free (R234). -/
def State.entryFree (s : State) : Prop := (s.tile.ops.filter fun o => o.entry).length < 64

/-- The state after an operation opens a landing slot in state WAIT, or FAILED when it sends no request (R36, R226). -/
def State.withSlot (s : State) (n : Fin 128) (ls : Fin 64) (l : Landing) (dest : Dest) (st : LandSt) : State :=
  let x : Land := { st := st, dest := dest, due := s.dev.psc n + l.due.toNat, psn := l.psn, data := 0#1024, poison := false,
                    issue := s.dev.psc n, slot := s.iss.slot }
  s.onDev fun d => d.onTile n fun t => { t with lands := t.lands.set ls x }

/-- The state after an operation joins the issue order of a tile's variable-latency operations (R229). -/
def State.withOp (s : State) (n : Fin 128) (o : MemOp) : State :=
  s.onDev fun d => d.onTile n fun t => { t with ops := t.ops ++ [o] }

end Sys2Proof.Machine
end

