-- ==== Sys2Proof/Certificates/Slice0/Obligations.lean ====
section
/-! DEFINITION. What this model claims of the FX-128, for the provers. -/

open Sys2Proof Sys2Proof.Machine

/-- For every well-formed instruction, of whatever slot, the words that the encoder writes for it (a one-operation bundle, an idle
bundle or a barrier-only bundle) decode to that instruction with every operand unchanged; the privileged operations decode on a
service core. (05_encoding.md (R117, R118, R123, R125, R131).) -/
def Obligations.EncodedInstructionDecodesToItself : Prop :=
  ∀ (i : Instr) (ws : List Nat), i.wellFormed = true → encode i = some ws → decodeWords i.privileged ws = some i

/-- One word or pair of words of each slot, written out from the spec's field tables, decodes to its instruction: an idle and a
barrier-only bundle, kli, add, cmp.ge with an immediate, vquant, mld, ldg with its landing parameters, ce.go, snd and the
privileged tres.run. (05_encoding.md (R117–R123), 06_isa_control_scalar.md, 07_isa_vector.md, 08_isa_matrix.md,
09_isa_memory_exchange.md, 10_isa_copy.md, 14_privilege_traps_context.md.) -/
def Obligations.SpecWordsDecode : Prop :=
  decodeTableWord 32 0x00081000 = some (.idleBundle 8#16)
    ∧ decodeTableWord 32 0x00000300 = some (.barrierOnlyBundle 3#3)
    ∧ decodeWords false [0x00000001, 0x50040064] = some (.kli 2 100#17)
    ∧ decodeWords false [0x00000002, 0x04064280] = some (.add 3 4 (.reg 5))
    ∧ decodeWords false [0x000A0802, 0x64022043] = some (.cmpGe 1 2 (.imm 10#16))
    ∧ decodeWords false [0x00000004, 0x980A6000] = some (.vquant .a 5 6 .e4m3 0)
    ∧ decodeWords false [0x00000810, 0x04000000] = some (.mld 0 0 0#16 none)
    ∧ decodeWords false [0x10280820, 0x0C083140] = some (.ldg 4 3 5 ⟨true, 40#12⟩ .i64 (.weak .normal))
    ∧ decodeWords false [0x00000040, 0x04010000] = some (.ceGo 0 (.tsp 0))
    ∧ decodeWords false [0x00000080, 0x04028000] = some (.snd (.s 5) 0)
    ∧ decodeWords true [0x00000002, 0xC8004000] = some (.tresRun 4)

/-- A header word that is not zero, whose slot words all stand in the line, and that sets a reserved bit of [15:13], or holds a non-
zero imm16 with EXT and NOPN clear, or sets EXT with no slot present, or sets NOPN together with a slot, SYNC or EXT, is an
illegal bundle reported at place 8, on a tile and on a service core. (05_encoding.md (R119, R129).) -/
def Obligations.ReservedHeadersAreIllegal : Prop :=
  ∀ (svc : Bool) (h : Nat) (rest : List Nat), h ≠ 0 → (presentSlots (h % 256)).length ≤ rest.length →
    (h / 8192 % 8 ≠ 0
      ∨ (h / 65536 % 65536 ≠ 0 ∧ h / 2048 % 2 = 0 ∧ h / 4096 % 2 = 0)
      ∨ (h % 256 = 0 ∧ h / 2048 % 2 = 1)
      ∨ (h / 4096 % 2 = 1 ∧ (h % 256 ≠ 0 ∨ h / 256 % 8 ≠ 0 ∨ h / 2048 % 2 = 1))) →
    decodeBundle svc (h :: rest) = .illegal 8

/-- (a) Where a tile's pc is aligned and mapped and the words of its line from the pc on decode to a bundle, that bundle is what the
tile fetches. (b) A tile that is ready and fetches a bundle of one operation without SYNC, whose guard is true, puts that
operation on its panel's cycle, followed by the close of the bundle. (c) A step whose work in hand begins with an operation is
exec of that operation, at that state with the operation's agent, address, length and slot entered (the model's own issue
context, log entry 1). (d) A step whose work in hand begins with an event is exec of that event. (e) The close of a bundle that
leaves no idle cycles moves a tile's pc where a taken transfer sent it; else, where no loop entry ends at the bundle, to the
address it goes on to; where the top entry ends there with more than one iteration left, to the start of the loop, the count one
less; with one left it is the close of the same bundle with the entry popped. (02_execution.md (R32, R35), 05_encoding.md (R121,
R129), 06_isa_control_scalar.md (R147).) -/
def Obligations.StepRunsTheDecodedInstruction : Prop :=
  (∀ (d : Dev) (n : Fin 128) (k len : Nat) (b : Bundle), d.tiles[n].c.pc.toNat % 4 = 0 → ispAddr n d.tiles[n] d.tiles[n].c.pc.toNat = some k →
      decodeBundle false ((List.range (Nat.min 9 ((64 - d.tiles[n].c.pc.toNat % 64) / 4))).map fun j => (d.word (k + 4 * j)).toNat)
        = .bundle len b →
      d.fetch n = .bundle d.tiles[n].c.pc len b)
  ∧ (∀ (d : Dev) (n : Fin 128) (a : W32) (len : Nat) (o : Op) (i : Instr), d.tiles[n].ready = true → d.fetch n = .bundle a len (.ops 0 [o]) →
      o.op = .ins i → d.tiles[n].guard o = true →
      d.tileMicros n = [.op (.tile n) a len o.slot.val true i, .endBundle (.tile n) a len false])
  ∧ (∀ (s : State) (a : Agent) (addr : W32) (len slot : Nat) (first : Bool) (i : Instr) (r : List Micro),
      s.agenda = .op a addr len slot first i :: r → step s = exec i (({ s with agenda := r } : State).enter a addr len slot first))
  ∧ (∀ (s : State) (i : Instr) (r : List Micro), s.agenda = .ev i :: r → step s = exec i { s with agenda := r })
  ∧ (∀ (s : State) (n : Fin 128), s.cur = .tile n → s.iss.idle = 0 →
      (let c := s.endBundle.dev.tiles[n].c
       (s.iss.taken = true → c.pc = s.iss.next ∧ c.loops = s.loops)
       ∧ (s.iss.taken = false → (∀ e, s.loops.head? = some e → e.stop ≠ s.iss.addr) → c.pc = s.iss.next ∧ c.loops = s.loops)
       ∧ (∀ e l, s.iss.taken = false → s.loops = e :: l → e.stop = s.iss.addr →
           (1 < e.count → c.pc = e.start ∧ c.loops = { e with count := e.count - 1 } :: l)
           ∧ (e.count ≤ 1 → s.endBundle = (s.setLoops l).endBundle))))

/-- (a) Where the issue of a cycle ends with one issue-class cause of a rank, no TIMING and no subcause of it, the step takes the
device back to what it was when the cycle began, with the panel frozen for the trap and, at the end of its trap queue, the
record of R326: cause, detail, FLAGS 0, tile, rank, handle, the PSC of the cycle, FADDR and RADDR the address of the bundle,
code, EA, DCC, the PSC of a send and the vdev; with 512 records the record is dropped and counted. (b) Of two such causes in one
tile the record is of the one that R324 reports: ILLB before ILLOP, BOUNDS, WATCH, then the others; then the lower slot; then
the lower detail. (c) Two tiles with one cause each leave two records in rank order with FLAGS bit 1. (d) An end-class cause is
taken at the close of the cycle: the PSC has advanced, the panel is frozen, registers and memory are as the cycle left them, and
the record has FLAGS bit 0 and as RADDR the tile's next bundle. (14_privilege_traps_context.md (R322, R323, R324, R325, R326).) -/
def Obligations.TrapsFreezeThePanelAndQueueTheirRecords : Prop :=
  (let rec_ := fun (p : Panel) (d : Dev) (x : Raise) (k : Nat) (raddr : W32) (psc flags : Nat) => (packFields 512
     [(0x00, 1, x.cause), (0x01, 1, x.detail), (0x02, 1, flags), (0x03, 1, x.tile.val), (0x04, 1, k), (0x06, 2, p.handle), (0x08, 8, psc),
      (0x10, 4, x.faddr.toNat), (0x14, 4, raddr.toNat), (0x18, 4, x.code.toNat), (0x20, 8, x.ea.toNat), (0x28, 8, d.dcc), (0x30, 8, x.spsc),
      (0x38, 2, p.vdev)] : BitVec 512)
   let only := fun (p : Panel) (x : Raise) (k : Nat) => k < p.size ∧ x.tile = p.tile k ∧ ∀ j < p.size, p.tile j = p.tile k → j = k
   let rank := fun (x : Raise) => if x.cause = 1 then 0 else if x.cause = 2 then 1 else if x.cause = 4 then 2 else if x.cause = 7 then 3 else 5
   let before := fun (x y : Raise) => rank x < rank y ∨ (rank x = rank y ∧ (x.slot < y.slot ∨ (x.slot = y.slot ∧ x.detail < y.detail)))
   let small := fun (x : Raise) => x.late = false ∧ x.cause ≠ 3 ∧ x.slot < 256 ∧ x.detail < 256
   let core := fun (p : Panel) => quadOf (p.tile 0)
   let frozen := fun (d : Dev) (h : Nat) => ({ d.onPanel h (fun p => { p with phase := .trap, timing := false }) with raised := [] } : Dev)
   (∀ (s : State) (h k : Nat) (d : Dev) (p q : Panel) (r : List Micro) (x : Raise), s.agenda = .endIssue h :: r → s.saved = some d →
      s.dev.panel h = some q → d.panel h = some p → s.dev.timingMask q = 0 → p.stepping = false → small x → only p x k →
      (s.dev.raised = [x] ∨ ∃ y, small y ∧ y.tile = x.tile ∧ before x y ∧ (s.dev.raised = [x, y] ∨ s.dev.raised = [y, x])) →
      (let R := rec_ p d x k x.faddr q.psc 0
       let e := if d.svcs[core p].trapq.length < 512 then d.onSvc (core p) (fun c => { c with trapq := c.trapq ++ [R] }) else d.count p.bolt 9 1
       step s = .next { s with agenda := r, saved := none, dev := frozen e h }))
   ∧ (∀ (s : State) (h j k : Nat) (d : Dev) (p q : Panel) (r : List Micro) (x y : Raise), s.agenda = .endIssue h :: r → s.saved = some d →
      s.dev.panel h = some q → d.panel h = some p → s.dev.timingMask q = 0 → p.stepping = false → small x → small y → only p x j → only p y k →
      j < k → (s.dev.raised = [x, y] ∨ s.dev.raised = [y, x]) → d.svcs[core p].trapq.length < 511 →
      (let e := d.onSvc (core p) fun c => { c with trapq := c.trapq ++ [rec_ p d x j x.faddr q.psc 2, rec_ p d y k y.faddr q.psc 2] }
       step s = .next { s with agenda := r, saved := none, dev := frozen e h }))
   ∧ (∀ (s : State) (h k : Nat) (p : Panel) (r : List Micro) (x : Raise), s.agenda = .endCycle h :: r → s.dev.panel h = some p →
      p.stepping = false → x.late = true → x.cause ≠ 3 → only p x k → s.dev.raised = [x] → s.dev.svcs[core p].trapq.length < 512 →
      ∃ t, step s = .next t ∧ t.agenda = r ∧ t.saved = none ∧ t.dev.raised = [] ∧ t.dev.mem = s.dev.mem
        ∧ (∀ n : Fin 128, t.dev.tiles[n].r = s.dev.tiles[n].r)
        ∧ (∃ u, t.dev.panel h = some u ∧ u.phase = .trap ∧ u.psc = p.psc + 1)
        ∧ t.dev.svcs[core p].trapq = s.dev.svcs[core p].trapq ++ [rec_ p s.dev x k s.dev.tiles[p.tile k].c.pc p.psc 1]))

/-- In every state whose memory (and that of the saved start of the cycle) is in canonical form, a step that answers a next state
answers one whose memory is in canonical form: addresses strictly rising and no byte listed that equals what an unlisted address
reads as (log entry 2). (04_registers_memory.md (R103, R107, R113).) -/
def Obligations.MemoryStaysCanonical : Prop :=
  ∀ s t : State, Inv s → step s = .next t → Inv t

/-- The state right after reset meets the invariant that every step keeps; its memory lists nothing (that bring-up leaves every
memory 0 is R446's; what memory reads as before it has run is the model's choice, log entry 2).
(18_resilience_power_management.md (R446).) -/
def Obligations.ResetMemoryIsCanonical : Prop :=
  Inv State.reset ∧ State.reset.dev.mem = []

/-- After a write of consecutive bytes from address k, each address k + i reads the i-th of them and every other address reads as
before, for every memory in canonical form. (00_scope.md (R4).) -/
def Obligations.MemoryReadsBackWhatIsWritten : Prop :=
  ∀ (m : List Host.Cell) (k j : Nat) (bs : List Byte), memWf m = true →
    memRead (memWriteList m k bs) j = if h : k ≤ j ∧ j - k < bs.length then bs[j - k]'h.2 else memRead m j

/-- A result of latency L of an operation that a tile issues on PSC cycle i becomes one more entry of the tile's work in flight, due
on cycle i + L − 1, and nothing else of the state changes; on a service core the s, k or predicate register is written at once,
with register 0 of each file discarding the write. (06_isa_control_scalar.md (R146), 14_privilege_traps_context.md (R319),
01_machine.md (R15).) -/
def Obligations.FixedLatencyResultIsQueued : Prop :=
  (∀ (s : State) (n : Fin 128) (lat : Nat) (dest : Dest) (v : VReg) (p : Bool), s.cur = .tile n →
      s.put lat dest v p =
        { s with dev := { s.dev with tiles := s.dev.tiles.set n { s.dev.tiles[n] with flight := s.dev.tiles[n].flight ++
          [{ issue := s.dev.psc n, slot := s.iss.slot, due := s.dev.psc n + lat - 1, dest := dest, value := v, mask := BitVec.allOnes 1024,
             poison := p, keepOld := false, flags := 0#6, pzero := false, pdrop := false, act := .none, loc := 0 }] } } })
  ∧ (∀ (s : State) (q : Fin 32) (lat : Nat) (r : Fin 32) (v : W64) (p : Bool), s.cur = .svc q →
      s.putS lat r v p = if r = 0 then s else
        { s with dev := { s.dev with svcs := s.dev.svcs.set q { s.dev.svcs[q] with
          s := s.dev.svcs[q].s.set r v, sPoison := setBit s.dev.svcs[q].sPoison r.val p } } })
  ∧ (∀ (s : State) (q : Fin 32) (lat : Nat) (r : Fin 16) (v : W32), s.cur = .svc q →
      s.putK lat r v = if r = 0 then s else
        { s with dev := { s.dev with svcs := s.dev.svcs.set q { s.dev.svcs[q] with k := s.dev.svcs[q].k.set r v } } })
  ∧ (∀ (s : State) (q : Fin 32) (lat : Nat) (r : Fin 8) (v : Bool), s.cur = .svc q →
      s.putP lat r v = if r = 0 then s else
        { s with dev := { s.dev with svcs := s.dev.svcs.set q { s.dev.svcs[q] with p := setBit s.dev.svcs[q].p r.val v } } })

/-- Where exactly one entry of a tile's work in flight is due on the cycle and no operation of a matrix path is, DUE_RESULT_WRITE
completes: the entry's s, k, predicate, vector, mask or staging register takes the value (in the masked bits) with its poison
(ORed with the old poison for a partial write), s0, k0 and p0 discard the write, a vector register of a gated or waking cluster
discards it, and every other register of the tile keeps its value; a state register takes the writable bits of the value and
keeps its reserved and read-only ones (PSTALL of the panel at most 8,192); a vector or mask result ORs its flags into FSTA or
FSTB of its file, and one of a poisoned source where state has no poison sets TSTAT.PZERO; every other state register of the
tile keeps its value, the entry leaves the work in flight, and memory and all other tiles are unchanged. With no result due, a
readout that issued seven cycles ago ORs its flags, those for the ZCTL.SAT then in force (the model's choice, log entry 72),
into the zs of its accumulators, and no register changes. (02_execution.md (R40, R41, R43), 04_registers_memory.md (R90, R91,
R94, R95), 06_isa_control_scalar.md (R157, R170), 07_isa_vector.md (R174), 03_numbers.md (R70), 08_isa_matrix.md (R213),
00_scope.md (R6), 01_machine.md (R15).) -/
def Obligations.DueResultIsWritten : Prop :=
  (∀ (s : State) (n : Fin 128) (f : Flight),
    (s.dev.tiles[n].flight.filter fun g => g.due == s.dev.psc n) = [f] → f.act = .none →
    (∀ o ∈ s.dev.tiles[n].tpath ++ s.dev.tiles[n].apath, o.due ≠ some (s.dev.psc n) ∧ o.issue + 7 ≠ s.dev.psc n) →
    ∃ t, exec (.dueResultWrite n) s = .next t
      ∧ t.dev.tiles[n].flight = (s.dev.tiles[n].flight.filter fun g => g.due != s.dev.psc n)
      ∧ t.dev.mem = s.dev.mem ∧ (∀ m : Fin 128, m ≠ n → t.dev.tiles[m] = s.dev.tiles[m])
      ∧ (let R := s.dev.tiles[n].r
         t.dev.tiles[n].r = match f.dest with
           | .s r => if r = 0 then R else
               { R with s := R.s.set r (f.value.setWidth 64), sPoison := setBit R.sPoison r.val (f.poison || (f.keepOld && R.sPoison.getLsbD r.val)) }
           | .k r => if r = 0 then R else { R with k := R.k.set r (f.value.setWidth 32) }
           | .p r => if r = 0 then R else { R with p := setBit R.p r.val (f.value.getLsbD 0) }
           | .v .a r => if s.dev.tiles[n].clusterOff .a r (s.dev.psc n) then R else
               { R with va := R.va.set r ((f.value &&& f.mask) ||| (R.va[r] &&& ~~~f.mask)),
                        vaPoison := setBit R.vaPoison r.val (f.poison || (f.keepOld && R.vaPoison.getLsbD r.val)) }
           | .v .b r => if s.dev.tiles[n].clusterOff .b r (s.dev.psc n) then R else
               { R with vb := R.vb.set r ((f.value &&& f.mask) ||| (R.vb[r] &&& ~~~f.mask)),
                        vbPoison := setBit R.vbPoison r.val (f.poison || (f.keepOld && R.vbPoison.getLsbD r.val)) }
           | .m .a r => { R with ma := R.ma.set r (f.value.setWidth 32) }
           | .m .b r => { R with mb := R.mb.set r (f.value.setWidth 32) }
           | .d r => { R with d := R.d.set r ((f.value.setWidth 64 &&& f.mask.setWidth 64) ||| (R.d[r] &&& ~~~f.mask.setWidth 64)) }
           | .sr num => if 0x060 ≤ num.toNat ∧ num.toNat ≤ 0x06f then { R with d := R.d.set (idx 16 (num.toNat - 0x060)) (f.value.setWidth 64) } else R
           | _ => R)
      ∧ (let R := s.dev.tiles[n].sr
         let v : W64 := f.value.setWidth 64
         let upd := fun (m old : W32) => (v.setWidth 32 &&& m) ||| (old &&& ~~~m)
         let Q := match f.dest with
           | .v .a _ | .m .a _ => { R with fsta := R.fsta ||| f.flags.setWidth 32 }
           | .v .b _ | .m .b _ => { R with fstb := R.fstb ||| f.flags.setWidth 32 }
           | .sr num =>
             let k := num.toNat
             if k = 0x00f then { R with ispid := (v &&& 0xffffffff00000000#64) ||| (R.ispid &&& 0x00000000ffffffff#64) }
             else if k = 0x014 then { R with fsta := upd 0x23f#32 R.fsta }
             else if k = 0x015 then { R with fstb := upd 0x23f#32 R.fstb }
             else if k = 0x018 then { R with zctl := upd 1#32 R.zctl }
             else if 0x030 ≤ k ∧ k ≤ 0x03f then { R with bfmt := R.bfmt.set (idx 16 (k - 0x030)) (upd 0x0fff070f#32 R.bfmt[idx 16 (k - 0x030)]) }
             else if 0x040 ≤ k ∧ k ≤ 0x047 then { R with tgeom := R.tgeom.set (idx 8 (k - 0x040)) (upd 0x7f3f#32 R.tgeom[idx 8 (k - 0x040)]) }
             else if 0x050 ≤ k ∧ k ≤ 0x05d then
               let i := idx 7 ((k - 0x050) / 2)
               { R with gm := R.gm.set i (putField R.gm[i] (64 * ((k - 0x050) % 2)) 64 v.toNat) }
             else R
           | _ => R
         t.dev.tiles[n].sr = if f.pzero then { Q with tstat := setBit R.tstat 1 true } else Q)
      ∧ t.dev.panels = (match s.dev.panelOf n with
          | some p => if f.dest = .sr 0x00b#10 then s.dev.panels.map fun q =>
              if q.handle = p.handle then { q with pstall := min (f.value.setWidth 64).toNat 8192 } else q else s.dev.panels
          | none => s.dev.panels))
  ∧ (∀ (s : State) (n : Fin 128) (o : PathOp), s.dev.tiles[n].tpath = [] → s.dev.tiles[n].apath = [o] → o.issue + 7 = s.dev.psc n →
      o.due ≠ some (s.dev.psc n) → (∀ f ∈ s.dev.tiles[n].flight, f.due ≠ s.dev.psc n) →
      ∃ t, exec (.dueResultWrite n) s = .next t ∧ t.dev.mem = s.dev.mem ∧ t.dev.tiles[n].r = s.dev.tiles[n].r
        ∧ t.dev.tiles[n].apath = [{ o with zflags := 0#6, satFlags := 0#6 }]
        ∧ (let fl := if s.dev.tiles[n].sr.zctl.getLsbD 0 = true ∧ (o.kind = .zout ∨ o.kind = .zoutv) then o.satFlags else o.zflags
           ∀ z : Fin 4, t.dev.tiles[n].sr.zs[z] = if z = (match o.kind with | .zoutv => idx 4 o.src.toNat | _ => idx 4 o.reg) ∨ o.zo = some z
             then s.dev.tiles[n].sr.zs[z] ||| (fl &&& 0x3d#6).setWidth 32 else s.dev.tiles[n].sr.zs[z]))

/-- Where two results, both for s[r] with r not 0, are due in a tile on the cycle in hand and no other is, DUE_RESULT_WRITE leaves
s[r] with the value and the poison of the one that was issued later (of two issued on one cycle, the one of the higher slot), in
whatever order the two are held. (01_machine.md (R15).) -/
def Obligations.LaterIssuedResultStands : Prop :=
  ∀ (s : State) (n : Fin 128) (f g : Flight) (r : Fin 32), r ≠ 0 →
    ((s.dev.tiles[n].flight.filter fun x => x.due == s.dev.psc n) = [f, g]
      ∨ (s.dev.tiles[n].flight.filter fun x => x.due == s.dev.psc n) = [g, f]) →
    f.dest = .s r → g.dest = .s r → g.keepOld = false → f.issue * 8 + f.slot < g.issue * 8 + g.slot →
    (∀ o ∈ s.dev.tiles[n].tpath ++ s.dev.tiles[n].apath, o.due ≠ some (s.dev.psc n) ∧ o.issue + 7 ≠ s.dev.psc n) →
    ∃ t, exec (.dueResultWrite n) s = .next t ∧ t.dev.tiles[n].r.s[r] = g.value.setWidth 64
      ∧ t.dev.tiles[n].r.sPoison.getLsbD r.val = g.poison

/-- br and jr complete with the next address at header + 4 × i22, or at k[a] plus the sign-extended imm16, and the loop entries
whose range excludes the target are popped; call does so without popping and queues the address after its own bundle for k15
with latency 1; ret goes to k15; chkp branches in the same way where the named register is poisoned and changes nothing where it
is not. Nothing else of the state changes. (06_isa_control_scalar.md (R147, R148, R149, R154), 02_execution.md (R51).) -/
def Obligations.ControlTransfersSetTheNextAddress : Prop :=
  (∀ (s : State) (off : BitVec 22), exec (.br off) s
      = .next ((s.setLoops (popOutside s.loops (s.iss.addr + off.signExtend 32 * 4#32))).goto (s.iss.addr + off.signExtend 32 * 4#32)))
  ∧ (∀ (s : State) (a : Fin 16), exec (.jr a none) s = .next ((s.setLoops (popOutside s.loops (s.readK a))).goto (s.readK a)))
  ∧ (∀ (s : State) (a : Fin 16) (i : BitVec 16), exec (.jr a (some i)) s
      = .next ((s.setLoops (popOutside s.loops (s.readK a + i.signExtend 32))).goto (s.readK a + i.signExtend 32)))
  ∧ (∀ (s : State) (off : BitVec 22), exec (.call off) s
      = .next ((s.putK 1 15 (s.iss.addr + BitVec.ofNat 32 s.iss.len)).goto (s.iss.addr + off.signExtend 32 * 4#32)))
  ∧ (∀ s : State, exec .ret s = .next (s.goto (s.readK 15)))
  ∧ (∀ (s : State) (c : PoisonClass) (r : Fin 32) (off : BitVec 12), (s.chkClass c r).bad = false →
      exec (.chkp c r off) s = .next (if s.poisonOf c r
        then (s.setLoops (popOutside s.loops (s.iss.addr + off.signExtend 32 * 4#32))).goto (s.iss.addr + off.signExtend 32 * 4#32) else s))

/-- loop and loopi with a count of 0 go to the address after their end bundle and push nothing; with a count above 0 and fewer than
four entries they push (start after the bundle, end address, count). lbrk pops the top entry and goes to the address after its
end bundle. lnext with more than one iteration left goes back to the start with the count one less; with one left it pops the
top entry and goes on as LoopStep does for the entries below: to the start of the next entry that ends at the same bundle, with
its count one less, or past that bundle where none does. A service core's loop stack acts in the same way (log entry 14). On a
tile with four entries loop and loopi with a count above 0 raise illegal-operand detail 0x0D, and so do lbrk and lnext with none
(the raised cause of a tile, no other effect). (06_isa_control_scalar.md (R147, R150), 02_execution.md (R50, R51).) -/
def Obligations.LoopsPushStepAndPop : Prop :=
  (∀ (s : State) (a : Fin 16) (off : BitVec 12), s.readK a = 0#32 →
      exec (.loop a off) s = .next (s.goto (s.afterEnd (s.iss.addr + off.signExtend 32 * 4#32))))
  ∧ (∀ (s : State) (off : BitVec 16), exec (.loopi 0#17 off) s = .next (s.goto (s.afterEnd (s.iss.addr + off.setWidth 32 * 4#32))))
  ∧ (∀ (s : State) (a : Fin 16) (off : BitVec 12), s.readK a ≠ 0#32 → s.loops.length < 4 →
      exec (.loop a off) s = .next (s.setLoops ({ start := s.iss.addr + BitVec.ofNat 32 s.iss.len,
                                                           stop := s.iss.addr + off.signExtend 32 * 4#32, count := (s.readK a).toNat } :: s.loops)))
  ∧ (∀ (s : State) (c : BitVec 17) (off : BitVec 16), c ≠ 0#17 → s.loops.length < 4 →
      exec (.loopi c off) s = .next (s.setLoops ({ start := s.iss.addr + BitVec.ofNat 32 s.iss.len,
                                                           stop := s.iss.addr + off.setWidth 32 * 4#32, count := c.toNat } :: s.loops)))
  ∧ (∀ (s : State) (e : LoopEnt) (r : List LoopEnt), s.loops = e :: r →
      exec .lbrk s = .next ((s.setLoops r).goto (s.afterEnd e.stop)))
  ∧ (∀ (s : State) (e : LoopEnt) (r : List LoopEnt), s.loops = e :: r → 1 < e.count →
      exec .lnext s = .next ((s.setLoops ({ e with count := e.count - 1 } :: r)).onIss fun x => { x with next := e.start, taken := true }))
  ∧ (∀ (s : State) (e : LoopEnt), s.loops = [e] → e.count ≤ 1 →
      exec .lnext s = .next ((s.setLoops []).onIss fun x => { x with next := s.afterEnd e.stop, taken := true }))
  ∧ (∀ (s : State) (e f : LoopEnt) (r : List LoopEnt), s.loops = e :: f :: r → e.count ≤ 1 →
      (f.stop ≠ e.stop → exec .lnext s = .next ((s.setLoops (f :: r)).onIss fun x => { x with next := s.afterEnd e.stop, taken := true }))
      ∧ (f.stop = e.stop → 1 < f.count →
          exec .lnext s = .next ((s.setLoops ({ f with count := f.count - 1 } :: r)).onIss fun x => { x with next := f.start, taken := true }))
      ∧ (f.stop = e.stop → f.count ≤ 1 → r = [] →
          exec .lnext s = .next ((s.setLoops []).onIss fun x => { x with next := s.afterEnd e.stop, taken := true })))
  ∧ (∀ (s : State) (n : Fin 128) (a : Fin 16) (off : BitVec 12), s.cur = .tile n → s.readK a ≠ 0#32 → 4 ≤ s.loops.length →
      exec (.loop a off) s = .next (s.illop 0x0d))
  ∧ (∀ (s : State) (n : Fin 128) (c : BitVec 17) (off : BitVec 16), s.cur = .tile n → c ≠ 0#17 → 4 ≤ s.loops.length →
      exec (.loopi c off) s = .next (s.illop 0x0d))
  ∧ (∀ (s : State) (n : Fin 128), s.cur = .tile n → s.loops = [] → exec .lbrk s = .next (s.illop 0x0d) ∧ exec .lnext s = .next (s.illop 0x0d))

/-- An idle bundle leaves imm16 further idle cycles; a barrier-only bundle and an issuing tkw change nothing more. ifence sets the
fenced flag for PSC i + 3, and swapb with the flag set clears it, takes the other half (ISPID bit 0) and branches, neither while
a preload holds the idle half. stitch marks the tile's point with its register mask and the mask of banks less those the engine
owns, where no timed beat or matrix path operation is in flight. A vclust that names the clusters that are awake changes
nothing. (05_encoding.md (R119, R120), 06_isa_control_scalar.md (R151, R152, R155, R156), 02_execution.md (R54),
14_privilege_traps_context.md (R337).) -/
def Obligations.BundleFormsAndMarksComplete : Prop :=
  (∀ (s : State) (n : BitVec 16), exec (.idleBundle n) s = .next { s with iss := { s.iss with idle := n.toNat } })
  ∧ (∀ (s : State) (g : BitVec 3), exec (.barrierOnlyBundle g) s = .next s)
  ∧ (∀ (s : State) (k : Fin 32), exec (.tkw k) s = .next s)
  ∧ (∀ s : State, s.tile.ispPending = false → s.tile.c.idleHeld = false →
      exec .ifence s = .next (s.onTile fun t => { t with c := { t.c with fenceAt := t.c.fenceAt ++ [s.psc + 3] } }))
  ∧ (∀ (s : State) (n : Fin 128) (off : BitVec 22), s.cur = .tile n → s.tile.c.fenced = true → s.tile.c.idleHeld = false →
      ∃ t, exec (.swapb off) s = .next t ∧ t.iss.next = s.iss.addr + off.signExtend 32 * 4#32
        ∧ t.dev.tiles[n].sr.ispid = s.dev.tiles[n].sr.ispid ^^^ 1#64 ∧ t.dev.tiles[n].c.fenced = false
        ∧ t.dev.tiles[n].c.loops = popOutside s.dev.tiles[n].c.loops (s.iss.addr + off.signExtend 32 * 4#32)
        ∧ t.dev.tiles[n].r = s.dev.tiles[n].r ∧ t.dev.mem = s.dev.mem)
  ∧ (∀ (s : State) (live : BitVec 21) (banks : BitVec 16),
      (∀ p, s.start.panelOf s.tileNo = some p → s.start.beatInFlight p s.tile.rank = false) →
      pathPending (s.tile.tpath ++ s.tile.apath) s.psc = false →
      exec (.stitch live banks) s
        = .next (s.onTile fun t => { t with c := { t.c with stitch := some (live, banks &&& ~~~s.tile.sr.bown) } }))
  ∧ (∀ (s : State) (n : Fin 128), s.cur = .tile n → exec (.vclust s.tile.sr.awakeB s.tile.sr.awakeA) s = .next s)

/-- After vclust on a tile the awake clusters are the two masks; the registers of a cluster whose state changed, a gated one too
(the model's reading, log entry 44), read 0 and are unpoisoned, and those of every other cluster keep value and poison; a
cluster of either file that it wakes takes no access before PSC i + 24; no other register, mask or staging register of the tile
and no byte of memory changes. (06_isa_control_scalar.md (R156, R157).) -/
def Obligations.GatingAClusterLosesItsContents : Prop :=
  ∀ (s : State) (n : Fin 128) (vb va : BitVec 4), s.cur = .tile n → ∃ t, exec (.vclust vb va) s = .next t
    ∧ t.dev.tiles[n].sr.awakeA = va ∧ t.dev.tiles[n].sr.awakeB = vb
    ∧ (∀ r : Fin 32, t.dev.tiles[n].r.va[r] = if va.getLsbD (r.val / 8) = s.dev.tiles[n].sr.awakeA.getLsbD (r.val / 8)
        then s.dev.tiles[n].r.va[r] else 0#1024)
    ∧ (∀ r : Fin 32, t.dev.tiles[n].r.vb[r] = if vb.getLsbD (r.val / 8) = s.dev.tiles[n].sr.awakeB.getLsbD (r.val / 8)
        then s.dev.tiles[n].r.vb[r] else 0#1024)
    ∧ (∀ r : Fin 32, va.getLsbD (r.val / 8) = true → s.dev.tiles[n].sr.awakeA.getLsbD (r.val / 8) = false →
        ∀ c < s.psc + 24, t.dev.tiles[n].clusterOff .a r c = true)
    ∧ (∀ r : Fin 32, vb.getLsbD (r.val / 8) = true → s.dev.tiles[n].sr.awakeB.getLsbD (r.val / 8) = false →
        ∀ c < s.psc + 24, t.dev.tiles[n].clusterOff .b r c = true)
    ∧ (∀ r : Fin 32, t.dev.tiles[n].r.vaPoison.getLsbD r.val
        = (decide (va.getLsbD (r.val / 8) = s.dev.tiles[n].sr.awakeA.getLsbD (r.val / 8)) && s.dev.tiles[n].r.vaPoison.getLsbD r.val))
    ∧ (∀ r : Fin 32, t.dev.tiles[n].r.vbPoison.getLsbD r.val
        = (decide (vb.getLsbD (r.val / 8) = s.dev.tiles[n].sr.awakeB.getLsbD (r.val / 8)) && s.dev.tiles[n].r.vbPoison.getLsbD r.val))
    ∧ t.dev.tiles[n].r.ma = s.dev.tiles[n].r.ma ∧ t.dev.tiles[n].r.mb = s.dev.tiles[n].r.mb ∧ t.dev.tiles[n].r.d = s.dev.tiles[n].r.d
    ∧ t.dev.tiles[n].r.s = s.dev.tiles[n].r.s ∧ t.dev.tiles[n].r.k = s.dev.tiles[n].r.k ∧ t.dev.tiles[n].r.p = s.dev.tiles[n].r.p
    ∧ t.dev.tiles[n].r.t = s.dev.tiles[n].r.t ∧ t.dev.tiles[n].r.z = s.dev.tiles[n].r.z ∧ t.dev.mem = s.dev.mem

/-- halt sets the tile's halted state, on a service core it waits for an event. trap and brk on a tile raise USER and BREAK with
their 17-bit code as end-class causes and change nothing else. On a service core with IE set they enter its handler: SEPC is the
next bundle's address, SCAUSE the cause with the code above it, IE is cleared and the pc is SVEC. So do, with SEPC the address
of the faulting bundle, an illegal bundle (cause 1), an unmapped fetch address and a local address beyond 256 KiB (cause 3), a
misaligned one and an absent state register (cause 2). With IE clear, any of these traps and halt stop the core for good and the
MC logs kind 0x0B. (06_isa_control_scalar.md (R159), 14_privilege_traps_context.md (R321, R323).) -/
def Obligations.HaltAndProgramTraps : Prop :=
  (∀ (s : State) (n : Fin 128), s.cur = .tile n → exec .halt s = .next (s.onTile fun t => { t with c := { t.c with halted := true } }))
  ∧ (∀ (s : State) (q : Fin 32), s.cur = .svc q → s.dev.svcs[q].sstat.getLsbD 0 = true →
      exec .halt s = .next (s.onDev fun d => d.onSvc q fun c => { c with run := .wait }))
  ∧ (∀ (s : State) (n : Fin 128) (code : BitVec 17), s.cur = .tile n →
      exec (.trap code) s = .next { s with dev := { s.dev with raised := s.dev.raised ++
        [{ tile := n, cause := causeUser, detail := 0, slot := s.iss.slot, faddr := s.iss.addr, code := code, ea := 0#64, spsc := 0, late := true }] } })
  ∧ (∀ (s : State) (n : Fin 128) (code : BitVec 17), s.cur = .tile n →
      exec (.brk code) s = .next { s with dev := { s.dev with raised := s.dev.raised ++
        [{ tile := n, cause := causeBreak, detail := 0, slot := s.iss.slot, faddr := s.iss.addr, code := code, ea := 0#64, spsc := 0, late := true }] } })
  ∧ (∀ (s : State) (q : Fin 32) (code : BitVec 17), s.cur = .svc q → s.loops = [] → s.iss.taken = false → s.dev.svcs[q].sstat.getLsbD 0 = true →
      ∃ t u, exec (.trap code) s = .next t ∧ exec (.brk code) s = .next u
        ∧ t.dev.svcs[q].sepc = s.iss.next ∧ t.dev.svcs[q].scause = BitVec.ofNat 32 (5 + 256 * code.toNat)
        ∧ u.dev.svcs[q].sepc = s.iss.next ∧ u.dev.svcs[q].scause = BitVec.ofNat 32 (6 + 256 * code.toNat)
        ∧ t.dev.svcs[q].sstat.getLsbD 0 = false ∧ t.dev.svcs[q].pc = s.dev.svcs[q].svec
        ∧ u.dev.svcs[q].sstat.getLsbD 0 = false ∧ u.dev.svcs[q].pc = s.dev.svcs[q].svec)
  ∧ (let dies := fun (d : Dev) (q : Fin 32) =>
       (d.onSvc q fun c => { c with run := .dead }).logEvent 0x0b ((d.boltOfQuad q).map Fin.val) none none
     let traps := fun (d : Dev) (q : Fin 32) (cause : W32) (a : W32) => if d.svcs[q].sstat.getLsbD 0 = true then d.onSvc q fun c =>
         { c with sepc := a, scause := cause, sstat := setBit c.sstat 0 false, pc := c.svec, idle := 0, run := .run }
       else dies d q
     (∀ (s : State) (q : Fin 32), s.cur = .svc q → s.dev.svcs[q].sstat.getLsbD 0 = false →
       exec .halt s = .next (s.onDev fun d => dies d q)
       ∧ ∀ code : BitVec 17, s.loops = [] → s.iss.taken = false →
           ∃ t u, exec (.trap code) s = .next t ∧ exec (.brk code) s = .next u ∧ t.dev = dies s.dev q ∧ u.dev = dies s.dev q)
     ∧ (∀ (s : State) (q : Fin 32), s.agenda = [.svc q] → s.dev.svcs[q].run = .run → s.dev.svcEvent q = false → s.dev.svcs[q].idle = 0 →
         (∀ a k, s.dev.fetchSvc q = .illegal a k → step s = .next { s with agenda := [], dev := traps s.dev q 1#32 a })
         ∧ (∀ a, s.dev.fetchSvc q = .unmapped a → step s = .next { s with agenda := [], dev := traps s.dev q 3#32 a }))
     ∧ (∀ (s : State) (q : Fin 32) (d a : Fin 32) (off : Option (BitVec 16)) (dk : DKind), s.cur = .svc q → s.poisonS a = false →
         (let ea := s.readS a + (match off with | some i => i.signExtend 64 | none => 0#64)
          let takes := fun (i : Instr) (cause : W32) => ∃ t, exec i s = .next t ∧ t.dev = traps s.dev q cause s.iss.addr
          (ea.toNat % dkBytes dk ≠ 0 → takes (.ldl d a off dk) 2#32 ∧ takes (.stl d a off dk) 2#32)
          ∧ (ea.toNat % dkBytes dk = 0 → 2 ^ 18 < ea.toNat + dkBytes dk → takes (.ldl d a off dk) 3#32 ∧ takes (.stl d a off dk) 3#32)
          ∧ ∀ n : BitVec 10, svcSrWritable n.toNat = false → takes (.mvst n a) 2#32)))

/-- Each form completes by queueing its one result: k[d] := k[a] + opb modulo 2^32, the sign-extended i17, a half of s[a] (0 with
TSTAT.PZERO to be set for a poisoned source), a half of PSC, of DCC or of the latch (rddcc also latches the upper half of DCC);
p[d] := the logic of two predicates or the comparison of k[a] with opb, signed but for ltn. tkp writes whether token k is in the
state that it names, tkp.res whether it is DONE, PARTIAL or FAILED, with latency 1. Nothing else changes.
(06_isa_control_scalar.md (R155, R160), 02_execution.md (R41).) -/
def Obligations.ControlRegisterOperations : Prop :=
  (∀ (s : State) (d a : Fin 16) (o : KOpd), exec (.kadd d a o) s = .next (s.putK 1 d (s.readK a + s.kopd o true)))
  ∧ (∀ (s : State) (d : Fin 16) (i : BitVec 17), exec (.kli d i) s = .next (s.putK 1 d (i.signExtend 32)))
  ∧ (∀ (s : State) (d : Fin 16) (a : Fin 32), exec (.kmov d a) s
      = .next (s.putPZ 2 (.k d) (((s.readS a).extractLsb' 0 32).setWidth 1024) (s.poisonS a)))
  ∧ (∀ (s : State) (d : Fin 16) (a : Fin 32), exec (.kmovHi d a) s
      = .next (s.putPZ 2 (.k d) (((s.readS a).extractLsb' 32 32).setWidth 1024) (s.poisonS a)))
  ∧ (∀ (s : State) (d a b : Fin 8), exec (.psetAnd d a b) s = .next (s.putP 1 d (s.readP a && s.readP b))
      ∧ exec (.psetOr d a b) s = .next (s.putP 1 d (s.readP a || s.readP b))
      ∧ exec (.psetXor d a b) s = .next (s.putP 1 d (s.readP a ^^ s.readP b))
      ∧ exec (.psetAndn d a b) s = .next (s.putP 1 d (s.readP a && !s.readP b))
      ∧ exec (.psetOrn d a b) s = .next (s.putP 1 d (s.readP a || !s.readP b)))
  ∧ (∀ (s : State) (d : Fin 8) (a : Fin 16) (o : KOpd),
      exec (.psetEq d a o) s = .next (s.putP 1 d (decide (s.readK a = s.kopd o true)))
      ∧ exec (.psetNe d a o) s = .next (s.putP 1 d (decide (s.readK a ≠ s.kopd o true)))
      ∧ exec (.psetLt d a o) s = .next (s.putP 1 d (decide ((s.readK a).toInt < (s.kopd o true).toInt)))
      ∧ exec (.psetLtn d a o) s = .next (s.putP 1 d (decide ((s.readK a).toNat < (s.kopd o false).toNat)))
      ∧ exec (.psetNz d a) s = .next (s.putP 1 d (decide (s.readK a ≠ 0#32))))
  ∧ (∀ (s : State) (d : Fin 16), exec (.rdsc d) s = .next (s.putK 1 d (BitVec.ofNat 32 s.psc))
      ∧ exec (.rdscHi d) s = .next (s.putK 1 d (BitVec.ofNat 32 (s.psc / 2 ^ 32)))
      ∧ exec (.rddcc d) s = .next (s.latchDcc.putK 1 d (BitVec.ofNat 32 s.dev.dcc))
      ∧ exec (.rddccHi d) s = .next (s.putK 1 d s.dccLatch)
      ∧ s.latchDcc.dccLatch = BitVec.ofNat 32 (s.dev.dcc / 2 ^ 32))
  ∧ (∀ (s : State) (p : Fin 8) (k : Fin 32),
      exec (.tkpPend p k) s = .next (s.putP 1 p (decide ((s.tile.toks[k]).st = .pending)))
      ∧ exec (.tkpDone p k) s = .next (s.putP 1 p (decide ((s.tile.toks[k]).st = .done)))
      ∧ exec (.tkpPart p k) s = .next (s.putP 1 p (decide ((s.tile.toks[k]).st = .part)))
      ∧ exec (.tkpFail p k) s = .next (s.putP 1 p (decide ((s.tile.toks[k]).st = .failed)))
      ∧ exec (.tkpFree p k) s = .next (s.putP 1 p (decide ((s.tile.toks[k]).st = .free)))
      ∧ exec (.tkpRes p k) s
        = .next (s.putP 1 p (decide ((s.tile.toks[k]).st = .done ∨ (s.tile.toks[k]).st = .part ∨ (s.tile.toks[k]).st = .failed))))

/-- add, sub, mul, mulh, mulhn, div, divn, rem, remn, and, or, xor, andn, shl, shr, sra, rot, min, max, minn and maxn complete by
queueing one result in s[d]: the exact result of the table wrapped to 64 bits, division by zero giving all ones or s[a] and the
least value over −1 wrapping, shifts by opb mod 64, with the stated latency and extension of an immediate; poison is that of
s[a] OR that of a register operand b. With pos = opb[5:0] and len = opb[13:8] + 1: every bit of the result of bfx is bit pos + k
of s[a] below len (0 beyond bit 63) and 0 above, of bfx.s a copy of bit len − 1 of that above; every bit of the result of bfi is
the bit of s[a] at k − pos inside the field and the bit of s[d] outside (its poison counts too). sext.b, .h and .w sign-extend
and .bn, .hn and .wn zero-extend; all of these have latency 1. Nothing else changes. (06_isa_control_scalar.md (R161, R162,
R166), 02_execution.md (R40).) -/
def Obligations.ScalarArithmeticResults : Prop :=
  (∀ (s : State) (d a : Fin 32) (o : SOpd),
    (let x := s.readS a
     let y := s.sopd o true
     let p := s.poisonS a || s.sopdPoison o
     exec (.add d a o) s = .next (s.putS 1 d (BitVec.ofInt 64 (x.toInt + y.toInt)) p)
     ∧ exec (.sub d a o) s = .next (s.putS 1 d (BitVec.ofInt 64 (x.toInt - y.toInt)) p)
     ∧ exec (.mul d a o) s = .next (s.putS 3 d (BitVec.ofInt 64 (x.toInt * y.toInt)) p)
     ∧ exec (.mulh d a o) s = .next (s.putS 3 d (BitVec.ofInt 64 (x.toInt * y.toInt / 2 ^ 64)) p)
     ∧ exec (.div d a o) s = .next (s.putS 18 d (if y = 0#64 then BitVec.allOnes 64 else BitVec.ofInt 64 (x.toInt.tdiv y.toInt)) p)
     ∧ exec (.rem d a o) s = .next (s.putS 18 d (if y = 0#64 then x else BitVec.ofInt 64 (x.toInt.tmod y.toInt)) p)
     ∧ exec (.min d a o) s = .next (s.putS 1 d (if x.toInt < y.toInt then x else y) p)
     ∧ exec (.max d a o) s = .next (s.putS 1 d (if x.toInt < y.toInt then y else x) p))
    ∧ (let x := s.readS a
       let y := s.sopd o false
       let p := s.poisonS a || s.sopdPoison o
       exec (.mulhn d a o) s = .next (s.putS 3 d (BitVec.ofNat 64 (x.toNat * y.toNat / 2 ^ 64)) p)
       ∧ exec (.divn d a o) s = .next (s.putS 18 d (if y = 0#64 then BitVec.allOnes 64 else BitVec.ofNat 64 (x.toNat / y.toNat)) p)
       ∧ exec (.remn d a o) s = .next (s.putS 18 d (if y = 0#64 then x else BitVec.ofNat 64 (x.toNat % y.toNat)) p)
       ∧ exec (.and d a o) s = .next (s.putS 1 d (x &&& y) p) ∧ exec (.or d a o) s = .next (s.putS 1 d (x ||| y) p)
       ∧ exec (.xor d a o) s = .next (s.putS 1 d (x ^^^ y) p) ∧ exec (.andn d a o) s = .next (s.putS 1 d (x &&& ~~~y) p)
       ∧ exec (.shl d a o) s = .next (s.putS 1 d (BitVec.ofNat 64 (x.toNat * 2 ^ (y.toNat % 64))) p)
       ∧ exec (.shr d a o) s = .next (s.putS 1 d (BitVec.ofNat 64 (x.toNat / 2 ^ (y.toNat % 64))) p)
       ∧ exec (.sra d a o) s = .next (s.putS 1 d (BitVec.ofInt 64 (x.toInt / 2 ^ (y.toNat % 64))) p)
       ∧ exec (.rot d a o) s = .next (s.putS 1 d (x <<< (y.toNat % 64) ||| x >>> (64 - y.toNat % 64)) p)
       ∧ exec (.minn d a o) s = .next (s.putS 1 d (if x.toNat < y.toNat then x else y) p)
       ∧ exec (.maxn d a o) s = .next (s.putS 1 d (if x.toNat < y.toNat then y else x) p)))
  ∧ (∀ (s : State) (d a : Fin 32) (o : SOpd),
    let c := (s.sopd o false).toNat
    let pos := c % 64
    let len := c / 256 % 64 + 1
    ∃ x y z : W64, exec (.bfx d a o) s = .next (s.putS 1 d x (s.poisonS a || s.sopdPoison o))
      ∧ exec (.bfxS d a o) s = .next (s.putS 1 d y (s.poisonS a || s.sopdPoison o))
      ∧ exec (.bfi d a o) s = .next (s.putS 1 d z (s.poisonS d || s.poisonS a || s.sopdPoison o))
      ∧ ∀ k < 64, x.getLsbD k = (decide (k < len) && (s.readS a).getLsbD (pos + k))
          ∧ y.getLsbD k = (if k < len then (s.readS a).getLsbD (pos + k) else (s.readS a).getLsbD (pos + (len - 1)))
          ∧ z.getLsbD k = (if pos ≤ k ∧ k < pos + len then (s.readS a).getLsbD (k - pos) else (s.readS d).getLsbD k))
  ∧ (∀ (s : State) (d a : Fin 32), let x := s.readS a
      exec (.sextB d a) s = .next (s.putS 1 d ((x.setWidth 8).signExtend 64) (s.poisonS a))
      ∧ exec (.sextH d a) s = .next (s.putS 1 d ((x.setWidth 16).signExtend 64) (s.poisonS a))
      ∧ exec (.sextW d a) s = .next (s.putS 1 d ((x.setWidth 32).signExtend 64) (s.poisonS a))
      ∧ exec (.sextBn d a) s = .next (s.putS 1 d (BitVec.ofNat 64 (x.toNat % 2 ^ 8)) (s.poisonS a))
      ∧ exec (.sextHn d a) s = .next (s.putS 1 d (BitVec.ofNat 64 (x.toNat % 2 ^ 16)) (s.poisonS a))
      ∧ exec (.sextWn d a) s = .next (s.putS 1 d (BitVec.ofNat 64 (x.toNat % 2 ^ 32)) (s.poisonS a)))

/-- The words of clz, ctz and popc (opcodes 0x12, 0x13, 0x14, with b = 0, sub-function 0 and IX = 0) decode to them. Each completes
by queueing one result of latency 1 in s[d] with the poison of s[a]: for clz the number c ≤ 64 with s[a] < 2^(64−c) and, unless
c = 64, bit 63 − c set; for ctz the number c ≤ 64 such that the c low bits are clear and, unless c = 64, bit c is set; for popc
the number of set bits. Nothing else changes. (R162.) -/
def Obligations.ScalarBitCounts : Prop :=
  ∀ (s : State) (d a : Fin 32), ∃ l t p : Nat,
    decodeWords false [0x2, 0x12 * 2 ^ 26 + d.val * 2 ^ 17 + a.val * 2 ^ 12] = some (.clz d a)
    ∧ decodeWords false [0x2, 0x13 * 2 ^ 26 + d.val * 2 ^ 17 + a.val * 2 ^ 12] = some (.ctz d a)
    ∧ decodeWords false [0x2, 0x14 * 2 ^ 26 + d.val * 2 ^ 17 + a.val * 2 ^ 12] = some (.popc d a) ∧
    exec (.clz d a) s = .next (s.putS 1 d (BitVec.ofNat 64 l) (s.poisonS a))
    ∧ l ≤ 64 ∧ (s.readS a).toNat < 2 ^ (64 - l) ∧ (l < 64 → (s.readS a).getLsbD (63 - l) = true)
    ∧ exec (.ctz d a) s = .next (s.putS 1 d (BitVec.ofNat 64 t) (s.poisonS a))
    ∧ t ≤ 64 ∧ (∀ j < t, (s.readS a).getLsbD j = false) ∧ (t < 64 → (s.readS a).getLsbD t = true)
    ∧ exec (.popc d a) s = .next (s.putS 1 d (BitVec.ofNat 64 p) (s.poisonS a))
    ∧ p = ((List.range 64).filter fun j => (s.readS a).getLsbD j).length
    ∧ (s.readS a = 0#64 → l = 64 ∧ t = 64)

/-- Each cmp form completes by queueing its condition for p[d] with latency 1, with the immediate extended as the table states, and
0 with TSTAT.PZERO to be set when an operand is poisoned. sel queues s[a] or opb for s[d] by p[n] read at issue, with the OR of
both operands' poison. Nothing else changes. (06_isa_control_scalar.md (R163, R164), 02_execution.md (R41).) -/
def Obligations.ScalarComparesAndSelect : Prop :=
  (∀ (s : State) (d : Fin 8) (a : Fin 32) (o : SOpd),
    (let w := fun (c : Bool) => s.putPZ 1 (.p d) (if c then 1#1024 else 0#1024) (s.poisonS a || s.sopdPoison o)
     let x := s.readS a
     let y := s.sopd o true
     let z := s.sopd o false
     exec (.cmpEq d a o) s = .next (w (decide (x = y))) ∧ exec (.cmpNe d a o) s = .next (w (decide (x ≠ y)))
     ∧ exec (.cmpLt d a o) s = .next (w (decide (x.toInt < y.toInt))) ∧ exec (.cmpGe d a o) s = .next (w (decide (y.toInt ≤ x.toInt)))
     ∧ exec (.cmpLtn d a o) s = .next (w (decide (x.toNat < z.toNat))) ∧ exec (.cmpGen d a o) s = .next (w (decide (z.toNat ≤ x.toNat)))
     ∧ exec (.cmpTst d a o) s = .next (w (decide (x &&& z ≠ 0#64)))))
  ∧ (∀ (s : State) (d : Fin 32) (p : Fin 8) (a : Fin 32) (o : SOpd),
      exec (.sel d p a o) s = .next (s.putS 1 d (if s.readP p then s.readS a else s.sopd o true) (s.poisonS a || s.sopdPoison o)))

/-- Format-C words of opcodes 0x1B and 0x1C decode to li and lih. li queues the sign-extended 17-bit value, unpoisoned; lih queues
s[d] × 2^16 + the 16-bit value modulo 2^64 with the poison of s[d] kept; both with latency 1 and no other effect. (R165.) -/
def Obligations.ScalarConstants : Prop :=
  (∀ (d : Fin 32) (v : BitVec 17), decodeWords false [0x2, 0x1B * 2 ^ 26 + d.val * 2 ^ 17 + v.toNat] = some (.li d v))
  ∧ (∀ (d : Fin 32) (v : BitVec 16), decodeWords false [0x2, 0x1C * 2 ^ 26 + d.val * 2 ^ 17 + v.toNat] = some (.lih d v))
  ∧   (∀ (s : State) (d : Fin 32) (v : BitVec 17), exec (.li d v) s = .next (s.putS 1 d (BitVec.ofInt 64 v.toInt) false))
  ∧ (∀ (s : State) (d : Fin 32) (v : BitVec 16),
      exec (.lih d v) s = .next (s.putS 1 d (BitVec.ofNat 64 ((s.readS d).toNat * 2 ^ 16 + v.toNat)) (s.poisonS d)))

/-- smov queues k[a] zero-extended, a 64-bit chunk of an awake vector register with its poison, the predicates with p0 as 1, or a
mask register, with latency 2. mvfs of a present register queues what it held at the start of the cycle (DCC: what it holds
now), unpoisoned. mvst to a writable register (for a BFMT, with a pitch that is a multiple of the span and no access of an
earlier M operation to the bank left to perform) queues the write of s[a] (0 with TSTAT.PZERO to be set for a poisoned source)
with latency 2, on a service core it writes at once, and to a register that is not writable it raises illegal-operand detail
0x0F. dset, .lo and .hi queue the whole of a staging register or one half of it with latency 1, 0 for a poisoned source. widf.f0
to .f5 queue (WID >> Σk) mod 2^Wk with Σk the sum of the widths below field k, widf.cut queues c = WID >> (W0 + W1) and
widf.gang c >> (the sum of the widths of fields 2 up to the gang's), with latency 1, unpoisoned. Nothing else changes.
(06_isa_control_scalar.md (R157, R167, R168, R169, R170), 04_registers_memory.md (R94, R95), 02_execution.md (R30, R31).) -/
def Obligations.ScalarMovesAndStateRegisters : Prop :=
  (∀ (s : State) (d : Fin 32) (a : Fin 16), exec (.smovK d a) s = .next (s.putS 2 d (BitVec.ofNat 64 (s.readK a).toNat) false))
  ∧ (∀ (s : State) (d a : Fin 32) (c : Fin 16), s.awake .a [a] →
      exec (.smovVa d a c) s = .next (s.putS 2 d ((s.readV .a a).extractLsb' (64 * c.val) 64) (s.poisonV .a a)))
  ∧ (∀ (s : State) (d a : Fin 32) (c : Fin 16), s.awake .b [a] →
      exec (.smovVb d a c) s = .next (s.putS 2 d ((s.readV .b a).extractLsb' (64 * c.val) 64) (s.poisonV .b a)))
  ∧ (∀ (s : State) (n : Fin 128) (d : Fin 32), s.cur = .tile n →
      exec (.smovPred d) s = .next (s.putS 2 d (BitVec.ofNat 64 ((s.dev.tiles[n]).r.p ||| 1#8).toNat) false))
  ∧ (∀ (s : State) (d : Fin 32) (a : Fin 8), exec (.smovMa d a) s = .next (s.putS 2 d (BitVec.ofNat 64 (s.readM .a a).toNat) false)
      ∧ exec (.smovMb d a) s = .next (s.putS 2 d (BitVec.ofNat 64 (s.readM .b a).toNat) false))
  ∧ (∀ (s : State) (t : Fin 128) (n : BitVec 10) (a : Fin 32), s.cur = .tile t → srWritable n.toNat = true →
      (0x030 ≤ n.toNat → n.toNat ≤ 0x03f → bfmtBad (if s.poisonS a then 0#32 else (s.readS a).setWidth 32) = false
        ∧ s.tile.bankBusy (n.toNat - 0x030) (s.psc + 1) = false) →
      exec (.mvst n a) s = .next (s.putPZ 2 (.sr n) ((s.readS a).setWidth 1024) (s.poisonS a)))
  ∧ (∀ (s : State) (t : Fin 128) (n : BitVec 10) (a : Fin 32), s.cur = .tile t → srWritable n.toNat = false →
      exec (.mvst n a) s = .next (s.illop 0x0f))
  ∧ (∀ (s : State) (q : Fin 32) (n : BitVec 10) (a : Fin 32), s.cur = .svc q → svcSrWritable n.toNat = true →
      exec (.mvst n a) s = .next (s.onDev fun d => d.onSvc q fun c => c.writeSr n.toNat (if s.poisonS a then 0#64 else s.readS a)))
  ∧ (∀ (s : State) (t : Fin 128) (d : Fin 32) (n : BitVec 10) (v : Nat), s.cur = .tile t → n ≠ 0x00A#10 → s.start.readSr t n.toNat = some v →
      exec (.mvfs d n) s = .next (s.putS 2 d (BitVec.ofNat 64 v) false))
  ∧ (∀ (s : State) (t : Fin 128) (d : Fin 32), s.cur = .tile t → exec (.mvfs d 0x00A#10) s = .next (s.putS 2 d (BitVec.ofNat 64 s.dev.dcc) false))
  ∧ (∀ (s : State) (d : Fin 16) (a : Fin 32),
      let w := fun (mask v : W64) => s.put 1 (.d d) (if s.poisonS a then 0#1024 else v.setWidth 1024) false fun f =>
        { f with mask := mask.setWidth 1024, pzero := s.poisonS a }
      exec (.dset d a) s = .next (w (BitVec.allOnes 64) (s.readS a))
      ∧ exec (.dsetLo d a) s = .next (w 0x00000000ffffffff#64 (s.readS a))
      ∧ exec (.dsetHi d a) s = .next (w 0xffffffff00000000#64 (s.readS a <<< 32)))
  ∧ (∀ (s : State) (d : Fin 32),
      (let wid := s.tile.sr.wid.toNat
       let W := s.tile.sr.widths.toList
       let sum := fun (l : List Nat) => l.foldr (· + ·) 0
       (∀ f : Fin 6, exec (.widfField d f) s
          = .next (s.putS 1 d (BitVec.ofNat 64 (wid / 2 ^ sum (W.take f.val) % 2 ^ s.tile.sr.widths[f])) false))
       ∧ exec (.widfCut d) s = .next (s.putS 1 d (BitVec.ofNat 64 (wid / 2 ^ sum (W.take 2))) false)
       ∧ exec (.widfGang d) s
          = .next (s.putS 1 d (BitVec.ofNat 64 (wid / 2 ^ sum (W.take 2) / 2 ^ (sum (W.take s.tile.sr.gangField) - sum (W.take 2)))) false)))

/-- With the clusters of the named registers awake, vadd, vsub, vmul, vmulh, vmin, vmax, vabs and vneg complete by queueing one
result in register d of the slot's file, with the latency of the table and the OR of the sources' poison: each enabled lane
holds the exact sum, difference, product, high half, minimum, maximum, magnitude or negation of the lanes as TY reads them,
wrapped to the lane width; disabled lanes are not written, no flag is raised and nothing else changes. (07_isa_vector.md (R171,
R172, R173, R174, R176), 03_numbers.md (R59).) -/
def Obligations.VectorIntegerResults : Prop :=
  ∀ (s : State) (f : VFile) (d a : Fin 32) (o : VOpd) (ty : ITy) (m : Fin 8), s.awake f (d :: a :: vopdNames o) →
    (let w := ityWidth ty
     let x := fun j => laneInt (itySigned ty) (s.laneOf f a w j)
     let y := fun j => laneInt (itySigned ty) (s.laneB f o (itySigned ty) w j)
     let p := s.poisonV f a || s.vopdPoison f o
     let res := fun (i : Instr) (lat : Nat) (p : Bool) (g : Nat → Int) =>
       LaneResult i s f lat d p (s.opMask f m.val) w fun j => ((BitVec.ofInt w (g j)).toNat, 0#6)
     res (.vadd f d a o ty m) 2 p (fun j => x j + y j)
     ∧ res (.vsub f d a o ty m) 2 p (fun j => x j - y j)
     ∧ res (.vmul f d a o ty m) 4 p (fun j => x j * y j)
     ∧ res (.vmulh f d a o ty m) 4 p (fun j => x j * y j / 2 ^ w)
     ∧ res (.vmin f d a o ty m) 2 p (fun j => min (x j) (y j))
     ∧ res (.vmax f d a o ty m) 2 p (fun j => max (x j) (y j))
     ∧ res (.vabs f d a ty m) 2 (s.poisonV f a) (fun j => (x j).natAbs)
     ∧ res (.vneg f d a ty m) 2 (s.poisonV f a) (fun j => -x j))

/-- With the clusters of the named registers awake, vadds and vsubs complete with each enabled lane the exact sum or difference
clamped to the range of TY and SAT raised where clamping changed it. vdot4 and vdot8 complete with each enabled 32-bit lane the
old lane of d plus the exact products of its four 8-bit parts (signed or unsigned as SGN says) or eight signed 4-bit parts,
wrapped, or clamped with SAT raised where that changed it; poison is that of a and b, and of d for the dot products, which read
it. Disabled lanes are not written and nothing else changes. (07_isa_vector.md (R172, R173, R174, R176, R177), 03_numbers.md
(R70).) -/
def Obligations.VectorSaturationAndDotProducts : Prop :=
  ∀ (s : State) (f : VFile) (d a b : Fin 32) (o : VOpd) (ty : ITy) (sg : Signs) (sat : Bool) (m : Fin 8),
    (let w := ityWidth ty
     let x := fun j => laneInt (itySigned ty) (s.laneOf f a w j)
     let y := fun j => laneInt (itySigned ty) (s.laneB f o (itySigned ty) w j)
     let lo : Int := if itySigned ty then -2 ^ (w - 1) else 0
     let hi : Int := if itySigned ty then 2 ^ (w - 1) - 1 else 2 ^ w - 1
     let cl := fun (lo hi v : Int) => max lo (min hi v)
     let res := fun (lo hi : Int) (n : Nat) (v : Int) => ((BitVec.ofInt n (cl lo hi v)).toNat, if cl lo hi v = v then 0#6 else flSAT)
     s.awake f (d :: a :: vopdNames o) →
      LaneResult (.vadds f d a o ty m) s f 2 d (s.poisonV f a || s.vopdPoison f o) (s.opMask f m.val) w (fun j => res lo hi w (x j + y j))
      ∧ LaneResult (.vsubs f d a o ty m) s f 2 d (s.poisonV f a || s.vopdPoison f o) (s.opMask f m.val) w fun j => res lo hi w (x j - y j))
    ∧ (let part := fun (w n : Nat) (sa sb : Bool) (j : Nat) => (s.laneOf f d 32 j).toInt
         + ((List.range n).map fun k => laneInt sa (s.laneOf f a w (n * j + k)) * laneInt sb (s.laneOf f b w (n * j + k))).sum
       let cl := fun (v : Int) => max (-2 ^ 31) (min (2 ^ 31 - 1) v)
       let res := fun (v : Int) => if sat then ((BitVec.ofInt 32 (cl v)).toNat, if cl v = v then 0#6 else flSAT)
         else ((BitVec.ofInt 32 v).toNat, 0#6)
       let p := s.poisonV f a || s.poisonV f b || s.poisonV f d
       s.awake f [d, a, b] →
        LaneResult (.vdot4 f d a b sg sat m) s f 4 d p (s.opMask f m.val) 32
          (fun j => res (part 8 4 (decide (sg = .ii)) (decide (sg ≠ .nn)) j))
        ∧ LaneResult (.vdot8 f d a b sat m) s f 4 d p (s.opMask f m.val) 32 (fun j => res (part 4 8 true true j)))

/-- With the clusters of the named registers awake, vand, vor, vxor and vnot complete with the bitwise result in each enabled 32-bit
lane (an immediate zero-extended to 32 bits), vshl, vshr and vsra with the lane shifted by lane j of opb modulo the width (vsra
copies the top bit, whatever the signedness of TY), and vsel with every lane written from a where the mask enables it and from
opb elsewhere; latency 2, the OR of the sources' poison, no flag, and nothing else changes. (07_isa_vector.md (R172, R173, R174,
R176, R179).) -/
def Obligations.VectorBitwiseShiftsAndSelect : Prop :=
  ∀ (s : State) (f : VFile) (d a : Fin 32) (o : VOpd) (ty : ITy) (m : Fin 8), s.awake f (d :: a :: vopdNames o) →
    (let w := ityWidth ty
     let p := s.poisonV f a || s.vopdPoison f o
     let x := fun j => s.laneOf f a w j
     let n := fun j => (s.laneB f o false w j).toNat % w
     let u := fun j => s.laneOf f a 32 j
     let v := fun j => s.laneB f o false 32 j
     let bits := fun (i : Instr) (p : Bool) (g : Nat → BitVec 32) =>
       LaneResult i s f 2 d p (s.opMask f m.val) 32 fun j => ((g j).toNat, 0#6)
     let shift := fun (i : Instr) (g : Nat → BitVec w) => LaneResult i s f 2 d p (s.opMask f m.val) w fun j => ((g j).toNat, 0#6)
     bits (.vand f d a o m) p (fun j => u j &&& v j)
     ∧ bits (.vor f d a o m) p (fun j => u j ||| v j)
     ∧ bits (.vxor f d a o m) p (fun j => u j ^^^ v j)
     ∧ bits (.vnot f d a m) (s.poisonV f a) (fun j => ~~~u j)
     ∧ shift (.vshl f d a o ty m) (fun j => x j <<< n j)
     ∧ shift (.vshr f d a o ty m) (fun j => x j >>> n j)
     ∧ shift (.vsra f d a o ty m) (fun j => (x j).sshiftRight (n j))
     ∧ LaneResult (.vsel f d a o m) s f 2 d p none 32 (fun j =>
         ((if enabled (s.opMask f m.val) 32 j then u j else s.laneB f o true 32 j).toNat, 0#6)))

/-- With the clusters of the source registers awake, each vcmp and vfcmp form completes by queueing one mask result (latency 2 and
4): bit i is the AND of the condition over the lanes in bits [32i+31 : 32i], 0 with TSTAT.PZERO to be set where a source is
poisoned. The integer forms compare the lanes as TY reads them and raise no flag; the floating-point forms compare after FTZ, a
NaN making every condition false but ne and un, and raise NV for a signalling NaN and, for lt and le, for any NaN. Nothing else
changes. (07_isa_vector.md (R173, R174, R175, R178), 04_registers_memory.md (R91), 02_execution.md (R41), 03_numbers.md (R63,
R71).) -/
def Obligations.VectorCompares : Prop :=
  ∀ (s : State) (f : VFile) (d : Fin 8) (a : Fin 32) (o : VOpd) (ty : ITy) (ft : FTy), s.awake f (a :: vopdNames o) →
    (let p := s.poisonV f a || s.vopdPoison f o
     (let x := fun j => laneInt (itySigned ty) (s.laneOf f a (ityWidth ty) j)
      let y := fun j => laneInt (itySigned ty) (s.laneB f o (itySigned ty) (ityWidth ty) j)
      let res := fun (i : Instr) (c : Nat → Bool) => CompareResult i s f 2 d p (ityWidth ty) c fun _ => 0#6
      res (.vcmpEq f d a o ty) (fun j => decide (x j = y j))
      ∧ res (.vcmpNe f d a o ty) (fun j => decide (x j ≠ y j))
      ∧ res (.vcmpLt f d a o ty) (fun j => decide (x j < y j))
      ∧ res (.vcmpLe f d a o ty) (fun j => decide (x j ≤ y j))
      ∧ res (.vcmpGt f d a o ty) (fun j => decide (x j > y j))
      ∧ res (.vcmpGe f d a o ty) (fun j => decide (x j ≥ y j)))
     ∧ (let F := ftyFmt ft
        let x := fun j => ftzIn (s.ftz f) F (decodeF F (s.laneOf f a F.width j).toNat)
        let y := fun j => ftzIn (s.ftz f) F (decodeF F (s.laneBF f o F F.width j).toNat)
        let sig := fun j => if (x j).isSig ∨ (y j).isSig then flNV else 0#6
        let any := fun j => if (x j).isNan ∨ (y j).isNan then flNV else 0#6
        let res := fun (i : Instr) (c : Nat → Bool) (fl : Nat → Flags) => CompareResult i s f 4 d p F.width c fl
        res (.vfcmpEq f d a o ft) (fun j => (x j).eq (y j)) sig
        ∧ res (.vfcmpNe f d a o ft) (fun j => !(x j).eq (y j)) sig
        ∧ res (.vfcmpLt f d a o ft) (fun j => (x j).lt (y j)) any
        ∧ res (.vfcmpLe f d a o ft) (fun j => (x j).lt (y j) || (x j).eq (y j)) any
        ∧ res (.vfcmpUn f d a o ft) (fun j => (x j).isNan || (y j).isNan) sig
        ∧ res (.vfcmpOrd f d a o ft) (fun j => !((x j).isNan || (y j).isNan)) sig))

/-- With the clusters of the named registers awake, each operation completes by queueing one result of its latency in the enabled
lanes with the OR of the sources' poison (of d too for vffma) and the flags of those lanes: vfadd, vfsub, vfmul and vffma the
one rounding, with FTZ, of the exact value of their decoded lanes; vfmin and vfmax the lesser and greater; vfsgn.j, .jn and .jx
the first operand with the sign of the second, its complement or the exclusive OR of both, and the canonical NaN with NV for a
signalling one; vfclass the class word of the lane; vexp2, vlog2, vrcp and vrsqrt the special function of the lane; vscale the
lane times 2 to the power that the scale byte gives. Nothing else changes. (07_isa_vector.md (R172, R173, R180, R181, R182,
R183, R187), 03_numbers.md (R61, R62, R63, R65, R70).) -/
def Obligations.VectorFloatResults : Prop :=
  ∀ (s : State) (f : VFile) (d a : Fin 32) (o : VOpd) (ft : FTy) (rm : RMode) (m : Fin 4) (sc : VScale),
    s.awake f (d :: a :: vopdNames o) → (∀ r, sc = .reg r → s.awake f [r]) →
    (let F := ftyFmt ft
     let z := s.ftz f
     let x := fun j => ftzIn z F (decodeF F (s.laneOf f a F.width j).toNat)
     let y := fun j => ftzIn z F (decodeF F (s.laneBF f o F F.width j).toNat)
     let c := fun j => ftzIn z F (decodeF F (s.laneOf f d F.width j).toNat)
     let sx := fun j => (s.laneOf f a F.width j).msb
     let sy := fun j => (s.laneBF f o F F.width j).msb
     let p := s.poisonV f a || s.vopdPoison f o
     let mk := s.opMask f m.val
     let res := fun (i : Instr) (p : Bool) (g : Nat → Nat × Flags) => LaneResult i s f 4 d p mk F.width g
     let rnd := fun (rm : RMode) (v : Val × Flags) => ((roundFtz z F rm false v.1).1, (roundFtz z F rm false v.1).2 ||| v.2)
     let sgn := fun (v : Val) (neg : Bool) => if v.isNan then (F.nan, if v.isSig then flNV else 0#6)
       else ((roundTo F .rne false (v.withSign neg)).1, 0#6)
     let sfu := fun (i : Instr) (g : Bool → Nat → Nat × Flags) =>
       LaneResult i s f 8 d (s.poisonV f a) mk 32 fun j => g z (s.laneOf f a 32 j).toNat
     res (.vfadd f d a o ft rm m) p (fun j => rnd rm (addVal rm (x j) (y j)))
     ∧ res (.vfsub f d a o ft rm m) p (fun j => rnd rm (addVal rm (x j) (y j).negate))
     ∧ res (.vfmul f d a o ft rm m) p (fun j => rnd rm (mulVal (x j) (y j)))
     ∧ res (.vffma f d a o ft rm m) (p || s.poisonV f d) (fun j => rnd rm (fmaVal rm (x j) (y j) (c j)))
     ∧ res (.vfmin f d a o ft m) p (fun j => rnd .rne (minVal (x j) (y j)))
     ∧ res (.vfmax f d a o ft m) p (fun j => rnd .rne (maxVal (x j) (y j)))
     ∧ res (.vfsgnJ f d a o ft m) p (fun j => sgn (x j) (sy j))
     ∧ res (.vfsgnJn f d a o ft m) p (fun j => sgn (x j) (!sy j))
     ∧ res (.vfsgnJx f d a o ft m) p (fun j => sgn (x j) (sx j != sy j))
     ∧ res (.vfclass f d a ft m) (s.poisonV f a) (fun j => (classOf F (x j), 0#6))
     ∧ sfu (.vexp2 f d a m) sfuExp2 ∧ sfu (.vlog2 f d a m) sfuLog2 ∧ sfu (.vrcp f d a m) sfuRcp ∧ sfu (.vrsqrt f d a m) sfuRsqrt
     ∧ LaneResult (.vscale f d a sc rm m) s f 3 d (s.poisonV f a || (match sc with | .reg r => s.poisonV f r | .imm _ => false)) mk 32
         (fun j => let k := match sc with | .reg r => (s.laneOf f r 8 j).toNat | .imm e => e.toNat
                   let v := ftzIn z .fp32 (decodeF .fp32 (s.laneOf f a 32 j).toNat)
                   if k = 255 then (FFmt.nan .fp32, flNV)
                   else ((roundFtz z .fp32 rm false (v.scale (k - 127))).1,
                     (roundFtz z .fp32 rm false (v.scale (k - 127))).2 ||| if v.isSig then flNV else 0#6)))

/-- For every format, mode and saturation, a nonzero finite value x rounds to a pattern k of the format (its exponent unbounded
above): under RNE no neighbour of k is nearer, and k is even on a tie; a mode toward zero takes the greatest value not above
|x|, one away from zero the least not below it. NX is raised exactly when the value differs, UF exactly when it differs and |x|
< 2^Emin; where k is beyond the largest finite pattern the result is that of R67 with OF and NX. Zeros keep their sign,
infinities and NaNs give what R66 says. Of finite operands addVal, mulVal and fmaVal give the exact sum, product and fused sum,
with no flag; a zero sum of nonzero terms is −0 under RDN and +0 otherwise, of zeros of one sign has that sign, and a product
has the exclusive OR of the signs. minVal and maxVal pick the lesser and the greater operand, −0 below +0, or NaN for any NaN
with NV only for a signalling one. A conversion from an integer clamps with SAT or rounds the integer; one from a float gives
RoundTo with NV for a signalling NaN, or the integer that the mode names of the exact value, clamped, with NX and NV, and 0 or
the extreme with NV for a NaN or an infinity. Every pattern that is not a NaN decodes to a value that rounds to the same
pattern, in every mode, with no flag; the class word of R182 follows from the exponent and mantissa fields. (03_numbers.md (R60,
R61, R62, R63, R65, R66, R67, R68, R72), 07_isa_vector.md (R180).) -/
def Obligations.RoundingIsExact : Prop :=
  (∀ (f : FFmt) (rm : RMode) (sat neg : Bool) (num den : Nat) (e : Int), 0 < num → 0 < den →
    (let x : ℚ := (num : ℚ) / den * 2 ^ e
     let V := f.value
     let inward := rm = .rtz ∨ (rm = .rdn ∧ neg = false) ∨ (rm = .rup ∧ neg = true)
     let beyond := if sat = true ∨ inward then f.signed neg f.maxPat else if f = .e4m3 then f.nan else f.signed neg f.infPat
     ∃ k : Nat,
      (rm = .rne → (|V k - x| ≤ V (k + 1) - x ∧ (|V k - x| = V (k + 1) - x → k % 2 = 0))
        ∧ ∀ j, j + 1 = k → |V k - x| ≤ x - V j ∧ (|V k - x| = x - V j → k % 2 = 0))
      ∧ (inward → V k ≤ x ∧ x < V (k + 1))
      ∧ (rm ≠ .rne → ¬ inward → x ≤ V k ∧ ∀ j, j + 1 = k → V j < x)
      ∧ (let fl := (if V k = x then 0#6 else flNX) ||| (if V k ≠ x ∧ x < 2 ^ f.emin then flUF else 0#6)
         roundTo f rm sat (.fin neg num den e) = if k ≤ f.maxPat then (f.signed neg k, fl) else (beyond, fl ||| flOF ||| flNX))))
  ∧ (∀ (f : FFmt) (rm : RMode) (sat neg sig : Bool) (den : Nat) (e : Int),
      roundTo f rm sat (.nan sig) = (f.nan, 0#6) ∧ roundTo f rm sat (.fin neg 0 den e) = (f.signed neg 0, 0#6)
      ∧ roundTo f rm sat (.inf neg) = if f = .e4m3 then (if sat then f.signed neg f.maxPat else f.nan, flNV) else (f.signed neg f.infPat, 0#6))
  ∧ (∀ (rm : RMode) (a b h : Bool) (n d m c l p : Nat) (e g q : Int), 0 < d → 0 < c → 0 < p →
    (let x := Val.fin a n d e
     let y := Val.fin b m c g
     let z := Val.fin h l p q
     let fits := fun (r : Val × Flags) (v : ℚ) (sign : Bool → Prop) =>
       ∃ s k w t, r = (.fin s k w t, 0#6) ∧ 0 < w ∧ r.1.toRat = v ∧ sign s
     fits (addVal rm x y) (x.toRat + y.toRat) (fun s =>
         (x.toRat + y.toRat = 0 → x.toRat ≠ 0 → s = decide (rm = .rdn)) ∧ (n = 0 → m = 0 → a = b → s = a))
     ∧ fits (mulVal x y) (x.toRat * y.toRat) (fun s => s = (a != b))
     ∧ fits (fmaVal rm x y z) (x.toRat * y.toRat + z.toRat) (fun s =>
         x.toRat * y.toRat + z.toRat = 0 → z.toRat ≠ 0 → s = decide (rm = .rdn))))
  ∧ (∀ (f : FFmt) (rm : RMode) (sat : Bool) (v : Nat), v < 2 ^ f.width → (decodeF f v).isNan = false →
      roundTo f rm sat (decodeF f v) = (v, 0#6))
    ∧ (∀ (f : FFmt) (v : Nat), f ≠ .e4m3 → v < 2 ^ f.width →
        classOf f (decodeF f v) =
          (let neg := v / 2 ^ (f.width - 1) = 1
           let e := v / 2 ^ f.man % 2 ^ f.ebits
           let h := v % 2 ^ f.man
           if e = 2 ^ f.ebits - 1 then (if h = 0 then (if neg then 1 else 128) else if h < 2 ^ (f.man - 1) then 256 else 512)
           else if e = 0 then (if h = 0 then (if neg then 8 else 16) else if neg then 4 else 32)
           else if neg then 2 else 64))
  ∧ (∀ x y : Val,
      ((x.isNan = true ∨ y.isNan = true) → maxVal x y = (.nan false, if x.isSig || y.isSig then flNV else 0#6)
        ∧ minVal x y = (.nan false, if x.isSig || y.isSig then flNV else 0#6))
      ∧ (x.isNan = false → y.isNan = false → ∃ g l : Val, maxVal x y = (g, 0#6) ∧ minVal x y = (l, 0#6) ∧ (g = x ∧ l = y ∨ g = y ∧ l = x)
          ∧ ((x = .inf false ∨ y = .inf false) → g = .inf false) ∧ ((x = .inf true ∨ y = .inf true) → l = .inf true)
          ∧ (∀ (a b : Bool) (n d m c : Nat) (e q : Int), 0 < d → 0 < c → x = .fin a n d e → y = .fin b m c q →
              l.toRat ≤ g.toRat ∧ (n = 0 → m = 0 → g.neg = (a && b)))))
  ∧ (∀ (z : Bool) (rm : RMode) (sat ss sd : Bool) (ws wd v : Nat) (f g : FFmt), 0 < ws → 0 < wd → wd ≤ 64 →
    (let lo : Int := if sd then -2 ^ (wd - 1) else 0
     let hi : Int := if sd then 2 ^ (wd - 1) - 1 else 2 ^ wd - 1
     let cl := fun (k : Int) => max lo (min hi k)
     let out := fun (k : Int) (fl : Flags) => ((BitVec.ofInt wd k).toNat, fl)
     let n := laneInt ss (BitVec.ofNat ws v)
     let x := ftzIn z f (decodeF f v)
     convert z (.int ss ws) (.int sd wd) rm sat v = out (cl n) (if cl n = n then 0#6 else flSAT)
     ∧ convert z (.int ss ws) (.flt g) rm sat v = roundFtz z g rm sat (.fin (decide (n < 0)) n.natAbs 1 0)
     ∧ convert z (.flt f) (.flt g) rm sat v
         = ((roundFtz z g rm sat x).1, (roundFtz z g rm sat x).2 ||| if x.isSig then flNV else 0#6)
     ∧ (x.isNan = true → convert z (.flt f) (.int sd wd) rm sat v = out 0 flNV)
     ∧ (∀ b, x = .inf b → convert z (.flt f) (.int sd wd) rm sat v = out (if b then lo else hi) flNV)
     ∧ (x.isNan = false → x.isInf = false → ∃ k : Int, convert z (.flt f) (.int sd wd) rm sat v
           = out (cl k) ((if (k : ℚ) = x.toRat then 0#6 else flNX) ||| if cl k = k then 0#6 else flNV)
         ∧ (rm = .rne → |(k : ℚ) - x.toRat| ≤ 1 / 2 ∧ (|(k : ℚ) - x.toRat| = 1 / 2 → k % 2 = 0))
         ∧ (rm = .rdn → (k : ℚ) ≤ x.toRat ∧ x.toRat < k + 1) ∧ (rm = .rup → x.toRat ≤ k ∧ (k : ℚ) - 1 < x.toRat)
         ∧ (rm = .rtz → |(k : ℚ)| ≤ |x.toRat| ∧ |x.toRat| < |(k : ℚ)| + 1 ∧ 0 ≤ k * x.toRat))))

/-- For an fp32 lane of finite nonzero value x and FTZ = 0: vrcp (|x| > 2^−128) and vrsqrt (x > 0) give a pattern whose value
differs from 1/x or x^(−1/2) by less than the step to the next pattern, and raise NX exactly when it differs; vexp2 (x < 128)
and vlog2 (x > 0) give one whose value differs from 2^x or log2 x by less than that step times 1 + 2^−32 (which neighbour is
taken is the implementation's; the model finds the two neighbours from 120 digits or more, log entry 8), and vexp2 is exact
exactly for the integers of [−149, 127], vlog2 exactly for the powers of two, where NX is clear. NaN gives the canonical NaN,
with NV for a signalling one; x ≥ 128 of vexp2 gives +Inf with OF and NX; a negative x of vlog2 or vrsqrt gives NaN with NV; |x|
≤ 2^−128 of vrcp gives the infinity of its sign with OF and NX; zeros and infinities give what R89 lists, with DZ where it says
so. (03_numbers.md (R88, R89), 07_isa_vector.md (R183).) -/
def Obligations.SpecialFunctionBounds : Prop :=
  (∀ x < 2 ^ 32, ∀ (neg : Bool) (n d : Nat) (e : Int), decodeF .fp32 x = .fin neg n d e → n ≠ 0 →
    (let X : ℝ := ((decodeF .fp32 x).toRat : ℝ)
     let V := fun (k : Nat) => ((FFmt.fp32.value k : ℚ) : ℝ)
     let gap := fun (k : Nat) => V (k + 1) - V k
     let top := FFmt.fp32.maxPat
     (X < 128 → ∃ k ≤ top, (sfuExp2 false x).1 = k ∧ abs (V k - (2 : ℝ) ^ X) < gap k * (1 + 2 ^ (-32 : ℤ))
        ∧ ((sfuExp2 false x).2.getLsbD 4 = false ↔ ∃ i : ℤ, X = i ∧ -149 ≤ i)
        ∧ ∀ i : ℤ, X = i → -149 ≤ i → V k = (2 : ℝ) ^ X)
     ∧ (0 < X → ∃ k ≤ top, ∃ b, (b = true ↔ X < 1) ∧ (sfuLog2 false x).1 = FFmt.fp32.signed b k
        ∧ abs (V k - abs (Real.logb 2 X)) < gap k * (1 + 2 ^ (-32 : ℤ))
        ∧ ((sfuLog2 false x).2.getLsbD 4 = false ↔ ∃ i : ℤ, X = 2 ^ i)
        ∧ ∀ i : ℤ, X = 2 ^ i → V k = |(i : ℝ)|)
     ∧ (2 ^ (-128 : ℤ) < |X| → ∃ k ≤ top, (sfuRcp false x).1 = FFmt.fp32.signed neg k ∧ abs (V k - |X|⁻¹) < gap k
        ∧ ((sfuRcp false x).2.getLsbD 4 = true ↔ V k ≠ |X|⁻¹))
     ∧ (0 < X → ∃ k ≤ top, (sfuRsqrt false x).1 = k ∧ abs (V k - (Real.sqrt X)⁻¹) < gap k
        ∧ ((sfuRsqrt false x).2.getLsbD 4 = true ↔ V k ≠ (Real.sqrt X)⁻¹))
     ∧ (128 ≤ X → sfuExp2 false x = (0x7f800000, flOF ||| flNX))
     ∧ (X < 0 → sfuLog2 false x = (0x7fc00000, flNV) ∧ sfuRsqrt false x = (0x7fc00000, flNV))
     ∧ (|X| ≤ 2 ^ (-128 : ℤ) → sfuRcp false x = (FFmt.fp32.signed neg 0x7f800000, flOF ||| flNX))))
  ∧ (∀ x < 2 ^ 32, ∀ sig, decodeF .fp32 x = .nan sig → ∀ g ∈ [sfuExp2, sfuLog2, sfuRcp, sfuRsqrt], ∀ z,
      g z x = (0x7fc00000, if sig then flNV else 0#6))
  ∧ ∀ z, (sfuExp2 z 0x7f800000 = (0x7f800000, 0#6) ∧ sfuExp2 z 0xff800000 = (0, 0#6)
      ∧ sfuExp2 z 0 = (0x3f800000, 0#6) ∧ sfuExp2 z 0x80000000 = (0x3f800000, 0#6))
    ∧ (sfuLog2 z 0x7f800000 = (0x7f800000, 0#6) ∧ sfuLog2 z 0xff800000 = (0x7fc00000, flNV)
      ∧ sfuLog2 z 0 = (0xff800000, flDZ) ∧ sfuLog2 z 0x80000000 = (0xff800000, flDZ))
    ∧ (sfuRcp z 0x7f800000 = (0, 0#6) ∧ sfuRcp z 0xff800000 = (0x80000000, 0#6)
      ∧ sfuRcp z 0 = (0x7f800000, flDZ) ∧ sfuRcp z 0x80000000 = (0xff800000, flDZ))
    ∧ sfuRsqrt z 0x7f800000 = (0, 0#6) ∧ sfuRsqrt z 0xff800000 = (0x7fc00000, flNV)
      ∧ sfuRsqrt z 0 = (0x7f800000, flDZ) ∧ sfuRsqrt z 0x80000000 = (0xff800000, flDZ)

/-- With the clusters of the named registers awake: vcvt completes with its destination lanes each the conversion of the source
lane, a narrowing one writing only the lanes of its part and a widening one reading them; vpack with the lanes of a then b
narrowed, wrapped or clamped with SAT; vunpack with the lanes of the low or high part of a extended; vquant with the 32 elements
of block n and vquant.scale with its one scale byte, computed from the 32 fp32 lanes of a after FTZ, which also makes a float
element whose exact value lies below 2^Emin the zero of its sign with UF and NX (log entry 20), leaving the rest of d; vfxd with
the digit j of each enabled lane, 0 with NV for a NaN or an infinity. Latency 3 (6 for vquant), poison of the sources, nothing
else changes. A block of 32 values with one not finite has scale 0xFF and zeros, one of zeros scale 0; else with k = floor(log2
of the largest magnitude) − Emax held to [−127, 127] the scale is k + 127 and each element x / 2^k rounded to nearest even,
saturating, the saturated ones counted. The digits of a finite value are those of |x| × 2^149 in base 2^31 with its sign.
(07_isa_vector.md (R171, R174, R175, R184, R185, R186, R188), 03_numbers.md (R67, R70, R72, R75, R77).) -/
def Obligations.VectorConversionsAndPacking : Prop :=
  (∀ (s : State) (f : VFile) (d a : Fin 32) (dt st : CFmt) (rm : RMode) (sat : Bool) (part : Option (BitVec 2)),
    (let ws := (cfmtEl st).width
     let wd := (cfmtEl dt).width
     let n := 1024 / max ws wd
     let k0 := (match part with | some p => p.toNat | none => 0) * n
     let r := fun k => convert (s.ftz f) (cfmtEl st) (cfmtEl dt) rm sat (s.laneOf f a ws (if ws < wd then k0 + k else k)).toNat
     s.awake f [d, a] → min ws wd * (k0 + n) ≤ 1024 →
      ∃ v, exec (.vcvt f d a dt st rm sat part) s
          = .next (s.putV 3 f d v (if wd < ws then some (laneSpan wd k0 n) else none) (s.poisonV f a)
              ((List.range n).foldl (fun fl k => fl ||| (r k).2) 0#6))
        ∧ ∀ k < n, lane wd v (if wd < ws then k0 + k else k) = (r k).1 % 2 ^ wd))
  ∧ (∀ (s : State) (f : VFile) (d a b : Fin 32) (kind : Fin 7) (sat : Bool), s.awake f [d, a, b] →
    (let ws := (packKind kind).1
     let sa := (packKind kind).2.1
     let wd := (packKind kind).2.2.1
     let sd := (packKind kind).2.2.2
     let l := 1024 / ws
     let x := fun j => if j < l then laneInt sa (s.laneOf f a ws j) else laneInt sa (s.laneOf f b ws (j - l))
     let lo : Int := if sd then -2 ^ (wd - 1) else 0
     let hi : Int := if sd then 2 ^ (wd - 1) - 1 else 2 ^ wd - 1
     let y := fun j => if sat then max lo (min hi (x j)) else x j
     ∃ v, exec (.vpack f d a b kind sat) s = .next (s.putV 3 f d v none (s.poisonV f a || s.poisonV f b)
          (if ∀ j < 2 * l, y j = x j then 0#6 else flSAT))
        ∧ ∀ j < 2 * l, lane wd v j = (BitVec.ofInt wd (y j)).toNat))
  ∧ (∀ (s : State) (f : VFile) (d a : Fin 32) (kind : Fin 6) (hi : Bool), s.awake f [d, a] →
    (let ws := (unpackKind kind).1
     let wd := (unpackKind kind).2.1
     ∃ v, exec (.vunpack f d a kind hi) s = .next (s.putV 3 f d v none (s.poisonV f a) 0#6)
        ∧ ∀ j < 1024 / wd, lane wd v j
          = (BitVec.ofInt wd (laneInt (unpackKind kind).2.2 (s.laneOf f a ws ((if hi then 1024 / wd else 0) + j)))).toNat))
  ∧ (∀ (s : State) (f : VFile) (d a : Fin 32) (e : BElem) (n : Fin 32), s.awake f [d, a] →
    (let x := fun j => ftzIn (s.ftz f) .fp32 (decodeF .fp32 (s.laneOf f a 32 j).toNat)
     let b := encodeBlock ((List.range 32).map x) e
     let w := (blockFmt e).width
     let least : Option Int := match e with | .e4m3 => some (-6) | .e5m2 => some (-14) | .i4 => none
     let tiny := fun j => s.ftz f && !b.nan && !(x j).isZero && least.any fun l => decide ((x j).log2 - ((b.scale : Int) - 127) < l)
     (32 * w * (n.val + 1) ≤ 1024 →
      ∃ v, exec (.vquant f d a e n) s = .next (s.putV 6 f d v (some (laneSpan w (32 * n.val) 32)) (s.poisonV f a)
          ((if b.nan then flNV else 0#6) ||| (if 0 < b.sat then flSAT else 0#6) ||| (if b.inexact then flNX else 0#6)
            ||| if (List.range 32).any tiny then flUF ||| flNX else 0#6))
        ∧ ∀ j (h : j < b.els.length), j < 32 → lane w v (32 * n.val + j)
            = if tiny j then (if (x j).neg then 2 ^ (w - 1) else 0) else b.els[j] % 2 ^ w)
     ∧ ∃ v, exec (.vquantScale f d a e n) s = .next (s.putV 6 f d v (some (laneSpan 8 n.val 1)) (s.poisonV f a) (if b.nan then flNV else 0#6))
        ∧ lane 8 v n.val = b.scale % 256))
  ∧ (∀ (s : State) (f : VFile) (d a : Fin 32) (j : Fin 9) (m : Fin 8), s.awake f [d, a] →
      LaneResult (.vfxd f d a j m) s f 3 d (s.poisonV f a) (s.opMask f m.val) 32 fun k =>
        let x := decodeF .fp32 (s.laneOf f a 32 k).toNat
        if x.isNan ∨ x.isInf then (0, flNV) else ((BitVec.ofInt 32 (fxdDigit x j.val)).toNat, 0#6))
  ∧ (∀ (l : List Val) (e : BElem), l.length = 32 → (∀ x ∈ l, ∀ a n d q, x = .fin a n d q → 0 < d) →
    (let b := encodeBlock l e
     let emax : Int := match e with | .e4m3 => 8 | .e5m2 => 15 | .i4 => 2
     let finite := ∀ x ∈ l, x.isNan = false ∧ x.isInf = false
     (¬ finite → b.scale = 255 ∧ b.nan = true ∧ b.els = List.replicate 32 0 ∧ b.sat = 0)
     ∧ (finite → (∀ x ∈ l, x.toRat = 0) → b.scale = 0 ∧ b.nan = false ∧ b.els = List.replicate 32 0 ∧ b.sat = 0)
     ∧ (finite → ∀ (m : ℚ) (j : Int), (∃ x ∈ l, |x.toRat| = m) → (∀ x ∈ l, |x.toRat| ≤ m) → (2 : ℚ) ^ j ≤ m → m < 2 ^ (j + 1) →
         (let k := min (max (j - emax) (-127)) 127
          (b.scale : Int) = k + 127 ∧ b.nan = false ∧ b.els.length = 32
          ∧ ((e = .e4m3 ∨ e = .e5m2) →
              (let r := fun (x : Val) => roundTo (if e = .e4m3 then .e4m3 else .e5m2) .rne true (x.scale (-k))
               b.els = l.map (fun x => (r x).1) ∧ b.sat = (l.filter fun x => (r x).2.getLsbD 2).length))
          ∧ (e = .i4 → ∃ r : Val → Int, b.els = l.map (fun x => (BitVec.ofInt 4 (max (-8) (min 7 (r x)))).toNat)
              ∧ b.sat = (l.filter fun x => decide (r x < -8 ∨ 7 < r x)).length
              ∧ ∀ x ∈ l, |(r x : ℚ) - x.toRat / 2 ^ k| ≤ 1 / 2 ∧ (|(r x : ℚ) - x.toRat / 2 ^ k| = 1 / 2 → r x % 2 = 0))))))
  ∧ (∀ v < 2 ^ 32, (decodeF .fp32 v).isNan = false → (decodeF .fp32 v).isInf = false →
    (let x := decodeF .fp32 v
     ∃ N : Nat, (N : ℚ) = |x.toRat| * 2 ^ 149 ∧ (∀ j, fxdDigit x j = (if x.toRat < 0 then -1 else 1) * ((N / 2 ^ (31 * j) % 2 ^ 31 : Nat) : Int))
       ∧ x.toRat = ((List.range 9).map fun j => (fxdDigit x j : ℚ) * 2 ^ (31 * (j : Int) - 149)).sum))

/-- With the clusters of the named registers awake, vredsum, vredmax and vredmin complete with the exact sum, the greatest or the
least of the enabled lanes of a (0 and the ends of TY's range where none is) in the low 64 bits of d and zeros above, vfredsum
with the tree sum of R190 and vfredmax with the greatest (−Inf where none is) as one fp32 lane, in each case with the poison of
a alone; the mlog forms complete with the logic of two masks or a mask and an immediate, mpop with the count of set bits and
mpop.first with the index of the lowest set bit or 32 in lane 0, unpoisoned, and vcrc with the CRC register of lane 0 of a
advanced over the first n + 1 bytes of b. Nothing else changes. The tree takes on each level the sum of two neighbours as vfadd
rounds it, or the one that is present, and the OR of the flags; the CRC takes each byte with eight shifts under the polynomial
0x82F63B78. (07_isa_vector.md (R172, R189, R190, R195, R196), 03_numbers.md (R63).) -/
def Obligations.VectorReductionsAndMasks : Prop :=
  (∀ (s : State) (f : VFile) (d a : Fin 32) (ty : ITy) (m : Fin 8), s.awake f [d, a] →
    (let w := ityWidth ty
     let xs := (enabledLanes (s.opMask f m.val) w).map fun j => laneInt (itySigned ty) (s.laneOf f a w j)
     let lo : Int := if itySigned ty then -2 ^ (w - 1) else 0
     let hi : Int := if itySigned ty then 2 ^ (w - 1) - 1 else 2 ^ w - 1
     let res := fun (v : Int) => Host.Outcome.next (s.putV 4 f d ((BitVec.ofInt 64 v).setWidth 1024) none (s.poisonV f a) 0#6)
     exec (.vredsum f d a ty m) s = res xs.sum
     ∧ (∃ v, exec (.vredmax f d a ty m) s = res v ∧ (∀ x ∈ xs, x ≤ v) ∧ (v ∈ xs ∨ (xs = [] ∧ v = lo)))
     ∧ (∃ v, exec (.vredmin f d a ty m) s = res v ∧ (∀ x ∈ xs, v ≤ x) ∧ (v ∈ xs ∨ (xs = [] ∧ v = hi)))))
  ∧ (∀ (s : State) (f : VFile) (d a : Fin 32) (ft : FTy) (rm : RMode) (m : Fin 4), s.awake f [d, a] →
    (let F := ftyFmt ft
     let xs := (List.range (1024 / F.width)).map fun j =>
       if enabled (s.opMask f m.val) F.width j then some (ftzIn (s.ftz f) F (decodeF F (s.laneOf f a F.width j).toNat)) else none
     let qs := xs.map fun x => x.map fun v => if v.isNan then Val.nan false else v
     let nv := if xs.any fun x => x.any Val.isSig then flNV else 0#6
     let t := treeSum (s.ftz f) rm (Nat.log2 (1024 / F.width)) qs
     exec (.vfredsum f d a ft rm m) s
        = .next (s.putV 8 f d (BitVec.ofNat 1024 (toFp32 (t.1.getD Val.zero)).1) none (s.poisonV f a) (t.2 ||| nv))
     ∧ exec (.vfredmax f d a ft m) s = .next (s.putV 4 f d (BitVec.ofNat 1024
          (toFp32 ((qs.filterMap id).foldl (fun x v => (maxVal x v).1) (Val.inf true))).1) none (s.poisonV f a) nv)))
  ∧ (∀ (s : State) (f : VFile) (d a : Fin 8) (o : MOpd),
    (let x := s.readM f a
     let y := match o with | .reg r => s.readM f r | .imm i => BitVec.ofNat 32 i.toNat
     let res := fun (v : W32) => Host.Outcome.next (s.put 1 (.m f d) (v.setWidth 1024) false)
     exec (.mlogAnd f d a o) s = res (x &&& y) ∧ exec (.mlogOr f d a o) s = res (x ||| y) ∧ exec (.mlogXor f d a o) s = res (x ^^^ y)
     ∧ exec (.mlogAndn f d a o) s = res (x &&& ~~~y) ∧ exec (.mlogOrn f d a o) s = res (x ||| ~~~y)))
  ∧ (∀ (s : State) (f : VFile) (d : Fin 32) (a : Fin 8), s.awake f [d] → ∃ n k : Nat,
      exec (.mpop f d a) s = .next (s.putV 2 f d (BitVec.ofNat 1024 n) none false 0#6)
      ∧ n = ((List.range 32).filter fun i => (s.readM f a).getLsbD i).length
      ∧ exec (.mpopFirst f d a) s = .next (s.putV 2 f d (BitVec.ofNat 1024 k) none false 0#6)
      ∧ k ≤ 32 ∧ (∀ i < k, (s.readM f a).getLsbD i = false) ∧ (k < 32 → (s.readM f a).getLsbD k = true))
  ∧ (∀ (s : State) (f : VFile) (d a b : Fin 32) (n : Fin 64), s.awake f [d, a, b] →
      exec (.vcrc f d a b n) s = .next (s.putV 4 f d (BitVec.ofNat 1024 (crcRun (s.laneOf f a 32 0).toNat
        ((List.range (n.val + 1)).map fun i => s.laneOf f b 8 i))) none (s.poisonV f a || s.poisonV f b) 0#6))
  ∧ (∀ (z : Bool) (rm : RMode) (n : Nat) (l : List (Option Val)), l.length = 2 ^ n →
    ∃ (node : Nat → Nat → Option Val) (fl : Nat → Nat → Flags),
      (∀ k, node 0 k = (l[k]?).join)
      ∧ (∀ i k, match node i (2 * k), node i (2 * k + 1) with
          | none, y => node (i + 1) k = y ∧ fl (i + 1) k = 0#6
          | x, none => node (i + 1) k = x ∧ fl (i + 1) k = 0#6
          | some x, some y =>
            (let v := addVal rm x y
             let r := roundFtz z .fp32 rm false v.1
             node (i + 1) k = some (decodeF .fp32 r.1) ∧ fl (i + 1) k = r.2 ||| v.2))
      ∧ treeSum z rm n l = (node n 0, (List.range n).foldl (fun a i => (List.range (2 ^ (n - 1 - i))).foldl (fun a k => a ||| fl (i + 1) k) a) 0#6))
  ∧ (let shift := fun (c : Nat) => if c % 2 = 1 then c / 2 ^^^ 0x82f63b78 else c / 2
     (∀ c, crcRun c [] = c) ∧ (∀ (c : Nat) (l : List Byte) (b : Byte), crcRun c (l ++ [b]) = shift^[8] (crcRun c l ^^^ b.toNat))
     ∧ crcRun 0xffffffff [0x31#8, 0x32#8, 0x33#8, 0x34#8, 0x35#8, 0x36#8, 0x37#8, 0x38#8, 0x39#8] = 0x1cf96d7c)

/-- With the clusters of the named registers awake, vperm, vbcast, vslide, vzip, vunzip and vidx complete with each enabled lane
taken from, or numbered by, its place as the table says (0 where vperm names no lane), vmov with the whole register of its file
or the other, vmov.w8 to .w64 with the low bits of s[a] in every lane, the chunk form with one 64-bit chunk replaced, and vli.w,
.f, .h and .b with the immediate in every lane; latencies and poison as the tables give, no flag, nothing else changes.
(07_isa_vector.md (R172, R174, R175, R191, R192, R193, R194).) -/
def Obligations.VectorMovesAndPermutes : Prop :=
  (∀ (s : State) (f : VFile) (d a b : Fin 32) (k : VIndex) (n : BitVec 8) (hi : Bool) (wd : Width) (m : Fin 8), s.awake f [d, a, b] →
    (let w := widthBits wd
     let l := 1024 / w
     let x := fun j => (s.laneOf f a w j).toNat
     let y := fun j => (s.laneOf f b w j).toNat
     let pair := fun j => if j < l then x j else y (j - l)
     let mk := s.opMask f m.val
     let p := s.poisonV f a || s.poisonV f b
     let h := if hi then 1 else 0
     LaneResult (.vperm f d a b wd m) s f 2 d p mk w (fun j => (if y j < l then x (y j) else 0, 0#6))
     ∧ LaneResult (.vbcast f d a k wd m) s f 2 d (s.poisonV f a) mk w
         (fun _ => (x (match k with | .field r => r.val | .imm i => i.toNat), 0#6))
     ∧ LaneResult (.vslide f d a b n wd m) s f 2 d p mk w (fun j => (pair (j + n.toNat), 0#6))
     ∧ LaneResult (.vzip f d a b hi wd) s f 2 d p none w
         (fun j => (if j % 2 = 0 then x (h * (l / 2) + j / 2) else y (h * (l / 2) + j / 2), 0#6))
     ∧ LaneResult (.vunzip f d a b hi wd) s f 2 d p none w (fun j => (pair (2 * j + h), 0#6))))
  ∧ (∀ (s : State) (f : VFile) (d : Fin 32) (base : Option (BitVec 16)) (wd : Width) (m : Fin 8), s.awake f [d] →
      LaneResult (.vidx f d base wd m) s f 1 d false (s.opMask f m.val) (widthBits wd) fun j =>
        ((BitVec.ofInt (widthBits wd) ((match base with | some b => b.toInt | none => 0) + j)).toNat, 0#6))
  ∧ (∀ (s : State) (f : VFile) (d a : Fin 32), s.awake f [d, a] →
      exec (.vmov f d a) s = .next (s.putV 1 f d (s.readV f a) none (s.poisonV f a) 0#6))
  ∧ (∀ (s : State) (d a : Fin 32), (s.awake .a [d] → s.awake .b [a] →
      exec (.vmovCross .a d a) s = .next (s.putV 2 .a d (s.readV .b a) none (s.poisonV .b a) 0#6))
      ∧ (s.awake .b [d] → s.awake .a [a] → exec (.vmovCross .b d a) s = .next (s.putV 2 .b d (s.readV .a a) none (s.poisonV .a a) 0#6)))
  ∧ (∀ (s : State) (f : VFile) (d a : Fin 32) (w : Fin 4) (c : Fin 16), s.awake f [d] →
      (∃ v, exec (.vmovSplat f d a w) s = .next (s.putV 2 f d v none (s.poisonS a) 0#6)
        ∧ ∀ j < 1024 / (8 * 2 ^ w.val), lane (8 * 2 ^ w.val) v j = (s.readS a).toNat % 2 ^ (8 * 2 ^ w.val))
      ∧ exec (.vmovChunk f d a c) s = .next (s.putV 2 f d ((s.readS a).setWidth 1024 <<< (64 * c.val))
          (some ((BitVec.allOnes 64).setWidth 1024 <<< (64 * c.val))) (s.poisonS a) 0#6))
  ∧ (∀ (s : State) (f : VFile) (d : Fin 32) (i : BitVec 16) (b : BitVec 8), s.awake f [d] →
    (let all := fun (x : Instr) (w : Nat) (y : BitVec w) =>
       ∃ v, exec x s = .next (s.putV 1 f d v none false 0#6) ∧ ∀ j < 1024 / w, lane w v j = y.toNat
     all (.vliW f d i) 32 (i.signExtend 32) ∧ all (.vliF f d i) 32 (i.setWidth 32 <<< 16) ∧ all (.vliH f d i) 16 i ∧ all (.vliB f d b) 8 b))

/-- Where the tile path is free, the bank's format has a tag (for a transposing load, no block format), the columns fit the tag, the
offset is aligned and the accesses may be made, mld, mldt, mlds and mst complete by putting one operation on the tile path: its
bank, offset, access count (the rows; for mldt the columns times the accesses of a source row; 2 for mlds), register, tag and
source format, and for mst the lines and scale words of the register as they stand at issue, with what each access will write:
the line itself for RAW or a raw side, else its first c elements, converted where bf16 meets an fp32 bank. A poisoned register's
store is put there to be dropped, and PDCNT and TSTAT.PDROP record it. mzero completes by putting on the path the clear of the
registers of its masks. Nothing else of the state changes. (08_isa_matrix.md (R197, R198, R199, R201, R202, R203, R204, R205,
R206), 02_execution.md (R41).) -/
def Obligations.TilePathOperationsIssue : Prop :=
  ∀ (s : State) (t : Fin 8) (bank : Fin 16) (off : BitVec 16),
    (let g := s.tile.sr.tgeom[t]
     let fmt := bfmtFmt (s.sampleBfmt bank)
     let puts := fun (u : State) (o : PathOp) => u = s.onTile fun x => { x with tpath := x.tpath ++ [o] }
     let same := fun (o : PathOp) (k : PathKind) => o.kind = k ∧ o.issue = s.psc ∧ o.bank = bank ∧ o.off = off.toNat ∧ o.reg = t.val
       ∧ o.bfmt = s.sampleBfmt bank ∧ o.tgeom = g
     (∀ raw tag src, loadFmt raw fmt false = some (tag, src) → geomCols g ≤ codeCap tag → pathBusy s.tile.tpath s.psc = false →
       ∃ o : PathOp, same o .mld ∧ o.cnt = geomRows g ∧ o.tag = BitVec.ofNat 4 tag ∧ o.src = BitVec.ofNat 4 src ∧ o.raw = raw.isSome
         ∧ (o.aligned (codeBlock fmt && raw.isNone) → s.pathOk o (if codeBlock fmt && raw.isNone then 0xF000 else 0x10000) →
             ∃ u, exec (.mld t bank off raw) s = .next u ∧ puts u o))
     ∧ (∀ raw tag src, loadFmt raw fmt true = some (tag, src) → geomCols g ≤ codeCap tag → pathBusy s.tile.tpath s.psc = false →
       ∃ o : PathOp, same o .mldt ∧ o.cnt = geomCols g * ((lineBytes src (geomRows g) + 127) / 128)
         ∧ o.tag = BitVec.ofNat 4 tag ∧ o.src = BitVec.ofNat 4 src ∧ o.raw = raw.isSome
         ∧ (o.aligned (codeBlock fmt && raw.isNone) → s.pathOk o (if codeBlock fmt && raw.isNone then 0xF000 else 0x10000) →
             ∃ u, exec (.mldt t bank off raw) s = .next u ∧ puts u o))
     ∧ (pathBusy s.tile.tpath s.psc = false →
       ∃ o : PathOp, same o .mlds ∧ o.cnt = 2
         ∧ (o.aligned false → s.pathOk o 0x10000 → ∃ u, exec (.mlds t bank off) s = .next u ∧ puts u o))
     ∧ (∀ raw, pathBusy s.tile.tpath s.psc = false → geomCols g ≤ codeCap (geomTag g) →
       (raw = true ∨ fmt = 0 ∨ geomTag g = 0 ∨ geomTag g = fmt ∨ (geomTag g = 9 ∧ fmt = 0xA)) →
       ∃ (o : PathOp) (dst : Nat), same o .mst ∧ o.cnt = geomRows g ∧ o.drop = s.tile.r.tPoison.getLsbD t.val
         ∧ dst = (if geomTag g = 9 ∧ fmt = 0xA ∧ raw = false then 0xA else geomTag g) ∧ o.tag = BitVec.ofNat 4 dst
         ∧ (o.raw = true ↔ raw = true ∨ fmt = 0 ∨ geomTag g = 0)
         ∧ (∀ m : Fin 64, o.lines.getD m.val 0#1024 = (s.tile.r.t[t].rows[m]).setWidth 1024
             ∧ o.scales.getD m.val 0#32 = (s.tile.r.t[t].scale).extractLsb' (32 * m.val) 32
             ∧ (o.raw = true → (o.out m.val).setWidth 512 = s.tile.r.t[t].rows[m])
             ∧ (o.raw = false → ∀ j < geomCols g, field (o.out m.val).toNat (codeBits dst * j) (codeBits dst)
                 = tileConv (geomTag g) dst (lineEl (geomTag g) (s.tile.r.t[t].rows[m]) j) % 2 ^ codeBits dst))
         ∧ (o.aligned (codeBlock fmt) → s.pathOk o (if codeBlock fmt && !raw then 0xF000 else 0x10000) →
             exec (.mst t bank off raw) s = .next (if o.drop then (s.onTile fun x => { x with tpath := x.tpath ++ [o] }).onTile Tile.dropPoisoned
               else s.onTile fun x => { x with tpath := x.tpath ++ [o] })))
     ∧ (∀ (ts : BitVec 8) (zs : BitVec 4), ∃ (o : PathOp) (u : State), exec (.mzero ts zs) s = .next u ∧ puts u o ∧ o.kind = .mzero
         ∧ o.due = some s.psc ∧ ∀ k, k ∈ o.targets ↔ (k < 8 ∧ ts.getLsbD k = true) ∨ (8 ≤ k ∧ k < 12 ∧ zs.getLsbD (k - 8) = true)))

/-- Where exactly one operation of the matrix paths and no other result is due in a tile on the cycle, DUE_RESULT_WRITE completes.
For mld, element j < c of line m of the register is element j of the m-th line read, converted by R79, lines that were not read
are zero, and for a block format the scale side is the scale bytes read, 0x7F beyond them, else as it was; for mldt, element k
of line j is element j of source row k; for zoutv the lines are those that it holds for the ZCTL.SAT then in force (the model's
choice, log entry 72); in each case the poison bit is the operation's and TGEOM takes its tag. For zld row i of the accumulator
is the two pieces read, with the operation's poison; for mlds the scale side is the two pieces read and lines and tag keep their
values; for mzero every register of the masks is zero and unpoisoned. Every other tile register and accumulator, every s
register and all memory keep their values. (08_isa_matrix.md (R202, R203, R204, R206, R215, R216), 03_numbers.md (R79),
04_registers_memory.md (R92, R99), 01_machine.md (R15).) -/
def Obligations.DueTileLoadsAndClearsWriteTheirRegisters : Prop :=
  ∀ (s : State) (n : Fin 128) (o : PathOp), (∀ f ∈ s.dev.tiles[n].flight, f.due ≠ s.dev.psc n) →
    ((s.dev.tiles[n].tpath ++ s.dev.tiles[n].apath).filter fun x => x.due == some (s.dev.psc n)) = [o] →
    (∀ x ∈ s.dev.tiles[n].apath, x.issue + 7 ≠ s.dev.psc n) → o.targets ≠ [] →
    ∃ t, exec (.dueResultWrite n) s = .next t ∧ t.dev.mem = s.dev.mem ∧ t.dev.tiles[n].r.s = s.dev.tiles[n].r.s
      ∧ (∀ k : Fin 8, k.val ∉ o.targets → t.dev.tiles[n].r.t[k] = s.dev.tiles[n].r.t[k]
          ∧ t.dev.tiles[n].r.tPoison.getLsbD k.val = s.dev.tiles[n].r.tPoison.getLsbD k.val)
      ∧ (∀ k : Fin 4, 8 + k.val ∉ o.targets → t.dev.tiles[n].r.z[k] = s.dev.tiles[n].r.z[k])
      ∧ (o.kind = .mld → ∀ k : Fin 8, k.val = o.reg % 8 →
          (∀ (m : Fin 64) (v : VReg), o.lines[m.val]? = some v → ∀ j < geomCols o.tgeom, codeBits o.tag.toNat * (j + 1) ≤ 512 →
            lineEl o.tag.toNat (t.dev.tiles[n].r.t[k].rows[m]) j
              = tileConv o.src.toNat o.tag.toNat (field v.toNat (codeBits o.src.toNat * j) (codeBits o.src.toNat)) % 2 ^ codeBits o.tag.toNat)
          ∧ (∀ m : Fin 64, o.lines.length ≤ m.val → t.dev.tiles[n].r.t[k].rows[m] = 0#512)
          ∧ (codeBlock o.tag.toNat = true → o.raw = false → ∀ (m : Fin 64) (b : Fin 4),
              (t.dev.tiles[n].r.t[k].scale).extractLsb' (32 * m.val + 8 * b.val) 8
                = if o.scales[m.val]?.isSome ∧ b.val < (geomCols o.tgeom + 31) / 32 then (o.scales.getD m.val 0#32).extractLsb' (8 * b.val) 8
                  else 0x7f#8)
          ∧ ((codeBlock o.tag.toNat = false ∨ o.raw = true) → t.dev.tiles[n].r.t[k].scale = s.dev.tiles[n].r.t[k].scale))
      ∧ (o.kind = .mldt → ∀ k : Fin 8, k.val = o.reg % 8 →
          (∀ (j : Fin 64), j.val < geomRows o.tgeom → ∀ i < geomCols o.tgeom, codeBits o.tag.toNat * (i + 1) ≤ 512 →
            lineEl o.tag.toNat (t.dev.tiles[n].r.t[k].rows[j]) i
              = tileConv o.src.toNat o.tag.toNat (field (o.sourceRow i) (codeBits o.src.toNat * j.val) (codeBits o.src.toNat))
                % 2 ^ codeBits o.tag.toNat)
          ∧ (∀ j : Fin 64, geomRows o.tgeom ≤ j.val → t.dev.tiles[n].r.t[k].rows[j] = 0#512)
          ∧ t.dev.tiles[n].r.t[k].scale = s.dev.tiles[n].r.t[k].scale)
      ∧ (o.kind = .zoutv → ∀ k : Fin 8, k.val = o.reg % 8 → t.dev.tiles[n].r.t[k].scale = s.dev.tiles[n].r.t[k].scale
          ∧ ∀ m : Fin 64, t.dev.tiles[n].r.t[k].rows[m]
            = ((if s.dev.tiles[n].sr.zctl.getLsbD 0 then o.satLines else o.lines).getD m.val 0#1024).setWidth 512)
      ∧ ((o.kind = .mld ∨ o.kind = .mldt ∨ o.kind = .zoutv) → ∀ k : Fin 8, k.val = o.reg % 8 →
          t.dev.tiles[n].r.tPoison.getLsbD k.val = o.poison ∧ geomTag t.dev.tiles[n].sr.tgeom[k] = o.tag.toNat
          ∧ geomCols t.dev.tiles[n].sr.tgeom[k] = geomCols s.dev.tiles[n].sr.tgeom[k])
      ∧ (o.kind = .zld → ∀ k : Fin 4, k.val = o.reg % 4 → t.dev.tiles[n].r.zPoison.getLsbD k.val = o.poison
          ∧ ∀ i : Fin 64, t.dev.tiles[n].r.z[k][i] = (o.lines.getD (2 * i.val + 1) 0#1024 ++ o.lines.getD (2 * i.val) 0#1024))
      ∧ (o.kind = .mlds → ∀ k : Fin 8, k.val = o.reg % 8 → t.dev.tiles[n].r.t[k].rows = s.dev.tiles[n].r.t[k].rows
          ∧ t.dev.tiles[n].r.t[k].scale = (o.lines.getD 1 0#1024 ++ o.lines.getD 0 0#1024) ∧ t.dev.tiles[n].sr.tgeom = s.dev.tiles[n].sr.tgeom)
      ∧ (o.kind = .mzero → (∀ k : Fin 8, k.val ∈ o.targets → t.dev.tiles[n].r.t[k] = TReg.reset ∧ t.dev.tiles[n].r.tPoison.getLsbD k.val = false)
          ∧ ∀ k : Fin 4, 8 + k.val ∈ o.targets → t.dev.tiles[n].r.z[k] = Acc.reset ∧ t.dev.tiles[n].r.zPoison.getLsbD k.val = false)

/-- Where the unit is free, the tags are a pair of R81 (both bf16 for mmo), the column counts agree and fit K and the accumulator is
untyped or of the right type, mma and mmo complete by starting an MMA on copies of both operands, setting an untyped
accumulator's type and MSTEP; no register, accumulator or byte of memory changes. On the due cycle MMA_RESULT_DUE completes:
each element (i, j) within the operands' rows is that of R82, every other element is unchanged, the poison is ORed in and the zs
register takes the OR of the flags of all elements. With integer operands the element is the old one plus the exact sum of the c
products, wrapped with OF, or clamped with OF and SAT where ZCTL.SAT is set; with float operands it is NaN, NV unless the old
element is one, the old NaN, an infinity, or the one rounding of the old element plus the exact sum of the products (its sign,
when that is zero, is log entry 22's), with the flags of the rounding and SAT where it saturates. An MMA whose accumulator an
image did not name changes no register (log entry 24). (08_isa_matrix.md (R207, R208, R209, R210), 03_numbers.md (R81, R82,
R84).) -/
def Obligations.MultiplyAccumulate : Prop :=
  (∀ (s : State) (n : Fin 128) (z : Fin 4) (a b : Fin 8) (outl : Bool) (k ty : Nat), s.cur = .tile n →
    (let T := s.dev.tiles[n]
     mmaType (geomTag T.sr.tgeom[a]) (geomTag T.sr.tgeom[b]) = some (k, ty) →
     (outl = true → geomTag T.sr.tgeom[a] = 9 ∧ geomTag T.sr.tgeom[b] = 9) →
     geomCols T.sr.tgeom[a] = geomCols T.sr.tgeom[b] → geomCols T.sr.tgeom[a] ≤ k → (zsType T.sr.zs[z] = 0 ∨ zsType T.sr.zs[z] = ty) →
     (∀ u ∈ T.units, u.issue + 128 ≤ s.dev.psc n) →
      ∃ (t : State) (u : UnitRec), (outl = false → exec (.mma z a b) s = .next t) ∧ (outl = true → exec (.mmo z a b) s = .next t)
        ∧ t.dev.tiles[n].units = T.units ++ [u] ∧ u.issue = s.dev.psc n ∧ u.zd = z ∧ u.a = T.r.t[a] ∧ u.b = T.r.t[b] ∧ u.outl = outl
        ∧ u.poison = (T.r.tPoison.getLsbD a.val || T.r.tPoison.getLsbD b.val)
        ∧ u.ga = T.sr.tgeom[a] ∧ u.gb = T.sr.tgeom[b] ∧ zsType t.dev.tiles[n].sr.zs[z] = ty
        ∧ t.dev.tiles[n].sr.mIssue = some (s.dev.psc n) ∧ t.dev.tiles[n].sr.mOutl = outl ∧ t.dev.tiles[n].sr.mZdst = z
        ∧ t.dev.tiles[n].r = T.r ∧ t.dev.mem = s.dev.mem ∧ ∀ m : Fin 128, m ≠ n → t.dev.tiles[m] = s.dev.tiles[m]))
  ∧ (∀ (s : State) (n : Fin 128) (u : UnitRec),
    (let T := s.dev.tiles[n]
     let w := codeBits (geomTag u.ga)
     (T.units.filter fun x => x.issue + 144 == s.dev.psc n) = [u] →
     (u.alone ≠ none → ∃ t, exec (.mmaResultDue n) s = .next t ∧ t.dev.mem = s.dev.mem ∧ t.dev.tiles[n].r = T.r)
     ∧ (u.alone = none → ∃ t, exec (.mmaResultDue n) s = .next t ∧ t.dev.mem = s.dev.mem
      ∧ t.dev.tiles[n].units = (T.units.filter fun x => x.issue + 144 != s.dev.psc n)
      ∧ (∀ z : Fin 4, z ≠ u.zd → t.dev.tiles[n].r.z[z] = T.r.z[z]) ∧ t.dev.tiles[n].r.t = T.r.t
      ∧ t.dev.tiles[n].r.zPoison.getLsbD u.zd.val = (u.poison || T.r.zPoison.getLsbD u.zd.val)
      ∧ ∃ el : Nat → Nat → Nat × Flags,
        (∀ i < 64, ∀ j < 64, accEl t.dev.tiles[n].r.z[u.zd] i j
          = if i < geomRows u.ga ∧ j < geomRows u.gb then (el i j).1 else accEl T.r.z[u.zd] i j)
        ∧ (∀ z : Fin 4, t.dev.tiles[n].sr.zs[z] = if z = u.zd then
            T.sr.zs[z] ||| ((List.range (geomRows u.ga)).foldl (fun fl i => (List.range (geomRows u.gb)).foldl (fun fl j =>
              fl ||| ((el i j).2 &&& 0x3d#6)) fl) 0#6).setWidth 32 else T.sr.zs[z])
        ∧ ((geomTag u.ga = 1 ∨ geomTag u.ga = 2) → geomTag u.gb = geomTag u.ga → ∀ i < geomRows u.ga, ∀ j < geomRows u.gb,
            (let v := intVal true 32 (accEl T.r.z[u.zd] i j) + ((List.range (geomCols u.ga)).map fun k =>
               intVal true w (lineEl (geomTag u.ga) (u.a.rows[idx 64 i]) k) * intVal true w (lineEl (geomTag u.gb) (u.b.rows[idx 64 j]) k)).sum
             let y := max (-2 ^ 31) (min (2 ^ 31 - 1) v)
             el i j = ((BitVec.ofInt 32 (if T.sr.zctl.getLsbD 0 then y else v)).toNat,
               if y = v then 0#6 else if T.sr.zctl.getLsbD 0 then flOF ||| flSAT else flOF)))
        ∧ (geomTag u.ga ≠ 1 → geomTag u.ga ≠ 2 → ∀ i < geomRows u.ga, ∀ j < geomRows u.gb,
            (let p := List.zipWith (fun x y => (mulVal x y).1) (operandLine u.a (geomTag u.ga) (geomCols u.ga) i)
               (operandLine u.b (geomTag u.gb) (geomCols u.ga) j)
             let oldEl := accEl T.r.z[u.zd] i j
             let old := decodeF .fp32 oldEl
             let nan := p.any Val.isNan
             let up := p.any fun x => x == .inf false
             let down := p.any fun x => x == .inf true
             let sat := T.sr.zctl.getLsbD 0
             if nan || (up && down) || (old == .inf true && up) || (old == .inf false && down) then
               el i j = (0x7fc00000, if old.isNan then 0#6 else flNV)
             else if old.isNan then el i j = (oldEl, 0#6)
             else if up then el i j = (0x7f800000, 0#6)
             else if down then el i j = (0xff800000, 0#6)
             else if old.isInf then el i j = (oldEl, 0#6)
             else ∃ v : Val, v.isNan = false ∧ v.isInf = false ∧ v.toRat = old.toRat + (p.map Val.toRat).sum
               ∧ (let y := roundTo .fp32 .rne sat v
                  el i j = (y.1, y.2 ||| if sat && y.2.getLsbD 2 then flSAT else 0#6)))))))

/-- Where the accumulator path is free, the accumulator is typed (and an outlier accumulator fp32), the format can be written, the
offset is aligned and the accesses may be made, zout completes by putting on the path the 64 rows of the readout converted to
the bank's format, element by element, and zoutv those of its half for its tile register, with the OR of the sources' poison,
the scale words of a block target and the OR of the flags of all elements (for both values of ZCTL.SAT, of which that on the
cycle of the write governs, the model's choice, log entry 72); zld and zst complete by putting on the path the 128 accesses of
the raw image, zld setting TYPE, zst with the accumulator's own bits; zstat with the four zs registers as they stand, without
needing a path; zclr by clearing the flags of the named zs registers and setting TYPE as TY says. A poisoned source's store is
to be dropped and is recorded. Nothing else changes. (08_isa_matrix.md (R197, R198, R211, R213, R214, R215, R216, R217, R218),
03_numbers.md (R86).) -/
def Obligations.AccumulatorOperations : Prop :=
  (∀ (s : State) (z : Fin 4) (zo : Option (Fin 4)) (tt : Option (Fin 8)) (bank : Fin 16) (off : BitVec 16) (st : Steps) (rm : RMode)
      (sat : Bool),
    (let row := fun (b : Bool) (i : Nat) => (s.readout z zo tt st).row (bfmtFmt (s.sampleBfmt bank)) rm (sat || b) i 0 64
     let fmt := bfmtFmt (s.sampleBfmt bank)
     let per := if codeBits fmt = 32 then 32 else 64
     pathBusy s.tile.apath s.psc = false → zsType s.tile.sr.zs[z] ≠ 0 → (∀ o, zo = some o → zsType s.tile.sr.zs[o] = 2) → fmt ≠ 0 →
     ∃ o : PathOp, o.kind = .zout ∧ o.issue = s.psc ∧ o.bank = bank ∧ o.off = off.toNat ∧ o.cnt = 64 * (64 / per)
      ∧ o.bfmt = s.sampleBfmt bank ∧ o.tag = BitVec.ofNat 4 fmt ∧ o.reg = z.val ∧ o.zo = zo ∧ o.drop = s.readoutPoison z zo tt st
      ∧ (∀ b, ∀ i < 64, ∀ j < 64,
          field ((if b then o.satLines else o.lines).getD (i * (64 / per) + j / per) 0#1024).toNat (codeBits fmt * (j % per)) (codeBits fmt)
            = (row b i).1.getD j 0 % 2 ^ codeBits fmt)
      ∧ (∀ i < 64, o.scales.getD i 0#32 = (row false i).2.1)
      ∧ (∀ b, (if b then o.satFlags else o.zflags) = (List.range 64).foldl (fun a i => a ||| (row b i).2.2) 0#6)
      ∧ (o.aligned (codeBlock fmt) → s.pathOk o (if codeBlock fmt then 0xF000 else 0x10000) →
          exec (.zout z zo tt bank off st rm sat) s
            = .next (if o.drop then (s.onTile fun x => { x with apath := x.apath ++ [o] }).onTile Tile.dropPoisoned
                else s.onTile fun x => { x with apath := x.apath ++ [o] }))))
  ∧ (∀ (s : State) (z : Fin 4) (zo : Option (Fin 4)) (tt : Option (Fin 8)) (td : Fin 8) (hi : Bool) (st : Steps) (rm : RMode) (sat : Bool)
      (fmt : VFmt),
    (let w := if fmt = .fp16 ∨ fmt = .bf16 then 32 else 64
     let h := if hi then 32 else 0
     pathBusy s.tile.apath s.psc = false → zsType s.tile.sr.zs[z] ≠ 0 → (∀ o, zo = some o → zsType s.tile.sr.zs[o] = 2) →
     ∃ o : PathOp, o.kind = .zoutv ∧ o.due = some (s.psc + 11) ∧ o.reg = td.val ∧ o.poison = s.readoutPoison z zo tt st
      ∧ o.tag = BitVec.ofNat 4 (vfmtCode fmt)
      ∧ (∀ b, ∀ i < 64, ∀ j < w,
          field ((if b then o.satLines else o.lines).getD i 0#1024).toNat (codeBits (vfmtCode fmt) * j) (codeBits (vfmtCode fmt))
            = ((s.readout z zo tt st).row (vfmtCode fmt) rm (sat || b) i h w).1.getD j 0 % 2 ^ codeBits (vfmtCode fmt))
      ∧ (∀ b, (if b then o.satFlags else o.zflags)
          = (List.range 64).foldl (fun a i => a ||| ((s.readout z zo tt st).row (vfmtCode fmt) rm (sat || b) i 0 64).2.2) 0#6)
      ∧ exec (.zoutv z zo tt td hi st rm sat fmt) s = .next (s.onTile fun x => { x with apath := x.apath ++ [o] })))
  ∧ (∀ (s : State) (z : Fin 4) (bank : Fin 16) (off : BitVec 16) (ty : Fin 3), pathBusy s.tile.apath s.psc = false → off.toNat % 128 = 0 →
      (ty.val ≠ 0 → zsType s.tile.sr.zs[z] ≠ ty.val → s.tile.mmaDue z = false) →
      ∃ o : PathOp, o.kind = .zld ∧ o.issue = s.psc ∧ o.bank = bank ∧ o.off = off.toNat ∧ o.cnt = 128 ∧ o.reg = z.val
        ∧ (s.pathOk o 0x10000 → ∃ t, exec (.zld z bank off ty) s = .next t ∧ t.dev.mem = s.dev.mem
            ∧ t.tile.apath = s.tile.apath ++ [o] ∧ t.tile.r = s.tile.r
            ∧ zsType t.tile.sr.zs[z] = if ty.val = 0 then zsType s.tile.sr.zs[z] else ty.val))
  ∧ (∀ (s : State) (z : Fin 4) (bank : Fin 16) (off : BitVec 16), pathBusy s.tile.apath s.psc = false → off.toNat % 128 = 0 →
      ∃ o : PathOp, o.kind = .zst ∧ o.issue = s.psc ∧ o.bank = bank ∧ o.off = off.toNat ∧ o.cnt = 128 ∧ o.drop = s.tile.r.zPoison.getLsbD z.val
        ∧ (∀ m < 128, o.lines.getD m 0#1024 = (s.tile.r.z[z][idx 64 (m / 2)]).extractLsb' (1024 * (m % 2)) 1024)
        ∧ (s.pathOk o 0x10000 → exec (.zst z bank off) s
            = .next (if o.drop then (s.onTile fun x => { x with apath := x.apath ++ [o] }).onTile Tile.dropPoisoned
                else s.onTile fun x => { x with apath := x.apath ++ [o] })))
  ∧ (∀ (s : State) (bank : Fin 16) (off : BitVec 16), off.toNat % 16 = 0 →
      ∃ o : PathOp, o.kind = .zstat ∧ o.issue = s.psc ∧ o.bank = bank ∧ o.off = off.toNat ∧ o.cnt = 1
        ∧ (∀ k : Fin 4, (o.lines.getD 0 0#1024).extractLsb' (32 * k.val) 32 = s.tile.sr.zs[k])
        ∧ (s.pathOk o 0x10000 → exec (.zstat bank off) s = .next (s.onTile fun x => { x with tpath := x.tpath ++ [o] })))
  ∧ (∀ (s : State) (zs : BitVec 4) (ty : BitVec 2), (ty ≠ 0#2 → ∀ z : Fin 4, zs.getLsbD z.val = true → s.tile.mmaDue z = false) →
      ∃ t, exec (.zclr zs ty) s = .next t ∧ t.dev.mem = s.dev.mem ∧ t.tile.r = s.tile.r ∧ t.tile.apath = s.tile.apath
        ∧ ∀ z : Fin 4, (zs.getLsbD z.val = false → t.tile.sr.zs[z] = s.tile.sr.zs[z])
            ∧ (zs.getLsbD z.val = true → (t.tile.sr.zs[z]).extractLsb' 0 6 = 0#6
                ∧ zsType t.tile.sr.zs[z] = if ty = 0#2 then zsType s.tile.sr.zs[z] else if ty = 3#2 then 0 else ty.toNat))

/-- Where a timed access may be made, ldl, and ldv outside the lateral windows, complete by queueing one result of latency 6 in the
TSP and 12 in the own vault that reads on PSC i + 2 or i + 6; stl and stv there by queueing the write of the register's low
bytes for PSC i + 3 or i + 7, or, for poisoned data, a write of nothing, counted by PDCNT. sti completes by queueing its write
into the idle half for PSC i + 3. A poisoned address makes a store drop with the same count at its issue, and a load of either
kind queue a poisoned result (a lateral ldv: its slot FAILED) with no check of the address (the model's choice, log entry 46;
its latency and what lies beneath the poison, log entries 96 and 4). On a service core ldl and stl read and write local memory
at once. Nothing else changes. (09_isa_memory_exchange.md (R221, R222, R224, R225, R228, R237), 04_registers_memory.md (R104,
R107, R108), 02_execution.md (R41), 14_privilege_traps_context.md (R319), 01_machine.md (R16).) -/
def Obligations.TimedLoadsAndStoresIssue : Prop :=
  (∀ (s : State) (n : Fin 128) (d a : Fin 32) (off : Option (BitVec 16)) (dk : DKind), s.cur = .tile n → s.poisonS a = false →
    s.dkAwake dk d →
    (let ea := s.readS a + (match off with | some i => i.signExtend 64 | none => 0#64)
     let tsp := ea.toNat < 0x100000
     let sp : Space := if tsp then .tsp else .vault
     let x := if tsp then ea.toNat else ea.toNat - 0x1000000
     let v := s.storeData dk d
     let push := fun (perf size : Nat) (sp : Space) (x : Nat) (v : VReg) => s.onDev fun e => e.onTile n fun t => t.push
       { Flight.result (s.dev.psc n) s.iss.slot perf .none 0#1024 false with act := .write perf sp x size v }
     (s.timedOk ea (dkBytes dk) false [2] →
       exec (.ldl d a off dk) s = .next (s.put (if tsp then 6 else 12) (dkDest dk d) 0#1024 false fun f =>
         { f with act := .read (s.dev.psc n + if tsp then 2 else 6) sp x (dkCode dk) }))
     ∧ (s.timedOk ea (dkBytes dk) true [3] →
         (let t := if v.2 then (push (s.dev.psc n + if tsp then 3 else 7) 0 sp x 0#1024).onDev fun e => e.onTile n Tile.dropPoisoned
            else push (s.dev.psc n + if tsp then 3 else 7) (dkBytes dk) sp x v.1
          exec (.stl d a off dk) s = .next t ∧ ∀ q : VOrd, exec (.stv d a off dk q) s = .next t))
     ∧ (ea.toNat % dkBytes dk = 0 → ea.toNat + dkBytes dk ≤ 0x1e000 → s.tile.c.idleHeld = false →
         exec (.sti d a off dk) s = .next (if v.2 then s.onDev fun e => e.onTile n Tile.dropPoisoned
           else push (s.dev.psc n + 3) (dkBytes dk) .isp ea.toNat v.1))))
  ∧ (∀ (s : State) (n : Fin 128) (d a : Fin 32) (ls : Fin 64) (l : Landing) (dk : DKind2) (q : VOrd), s.cur = .tile n →
    s.poisonS a = false → s.dkAwake (dk2Kind dk) d → s.timedOk (s.readS a) (dkBytes (dk2Kind dk)) false [2] →
    (let tsp := (s.readS a).toNat < 0x100000
     exec (.ldv d a ls l dk q) s = .next (s.put (if tsp then 6 else 12) (dkDest (dk2Kind dk) d) 0#1024 false fun f =>
       { f with act := .read (s.dev.psc n + if tsp then 2 else 6) (if tsp then .tsp else .vault)
                  (if tsp then (s.readS a).toNat else (s.readS a).toNat - 0x1000000) (dkCode (dk2Kind dk)) })))
  ∧ (∀ (s : State) (n : Fin 128) (d a : Fin 32) (off : Option (BitVec 16)) (dk : DKind), s.cur = .tile n → s.poisonS a = true →
      s.dkAwake dk d → exec (.stl d a off dk) s = .next (s.onDev fun e => e.onTile n Tile.dropPoisoned)
        ∧ exec (.sti d a off dk) s = .next (s.onDev fun e => e.onTile n Tile.dropPoisoned))
  ∧ (∀ (s : State) (n : Fin 128) (d a : Fin 32), s.cur = .tile n → s.poisonS a = true →
    (let queues := fun (i : Instr) (dest : Dest) (ea : W64) => ∃ t f, exec i s = .next t ∧ t.dev.mem = s.dev.mem
       ∧ t.dev.tiles[n] = { s.dev.tiles[n] with flight := s.dev.tiles[n].flight ++ [f] } ∧ f.dest = dest ∧ f.poison = true ∧ f.act = .none
       ∧ f.flags = 0#6 ∧ f.due = s.dev.psc n + if ea.toNat < 0x1000000 then 5 else 11
     (∀ (off : Option (BitVec 16)) (dk : DKind), s.dkAwake dk d →
        queues (.ldl d a off dk) (dkDest dk d) (s.readS a + (match off with | some i => i.signExtend 64 | none => 0#64)))
     ∧ (∀ (ls : Fin 64) (l : Landing) (dk : DKind2) (q : VOrd), s.dkAwake (dk2Kind dk) d →
          (lateralWindow (s.readS a) = false → queues (.ldv d a ls l dk q) (dkDest (dk2Kind dk) d) (s.readS a))
          ∧ (lateralWindow (s.readS a) = true → s.tile.lands[ls].st = .free →
              exec (.ldv d a ls l dk q) s = .next (s.withSlot n ls l (dkDest (dk2Kind dk) d) .failed)))))
  ∧ (∀ (s : State) (q : Fin 32) (d a : Fin 32) (off : Option (BitVec 16)) (dk : DKind), s.cur = .svc q → s.poisonS a = false →
      dk ≠ .va → dk ≠ .vb →
    (let ea := s.readS a + (match off with | some i => i.signExtend 64 | none => 0#64)
     ea.toNat % dkBytes dk = 0 → ea.toNat + dkBytes dk ≤ 2 ^ 18 →
      (∃ t, exec (.ldl d a off dk) s = .next t ∧ t.dev.mem = s.dev.mem
        ∧ (d ≠ 0 → t.dev.svcs[q].s[d] = (extend (dkCode dk) (s.dev.bytes (svcKey q ea.toNat) (dkBytes dk))).setWidth 64))
      ∧ (s.poisonS d = false → ∃ t, exec (.stl d a off dk) s = .next t ∧ t.dev.svcs = s.dev.svcs
          ∧ t.dev.mem = memWriteList s.dev.mem (svcKey q ea.toNat) (leBytes (dkBytes dk) (s.readS d).toNat))))

/-- (a) Where one entry of work in flight is a tile's only timed access, TIMED_ACCESS_PERFORM completes on its cycle. A store, of
whatever size, of a legal bank format leaves each byte at its place (R110) holding the register's byte and every other byte of
memory as it was, and the entry is spent. A load leaves memory as it is and its entry with the extended value of the bytes at
their places, bad words only adding poison. An atomic takes the word as the cycle leaves it on its first cycle; on the next it
takes the word in memory as the old one and writes the new one (a failed cas nothing), so that no write comes between (the
model's reading, log entry 68). A poisoned store leaves memory as it is and is counted. (b) Where one operation of a matrix path
is the only access, a reading one (mld, mldt, mlds, zld) gains the line of the bytes at the places of the cycle's access and
leaves memory as it is; a writing one (mst, zout, zst, zstat) leaves at those places the bytes of the line that it kept, a
readout that for ZCTL.SAT as it stood before the cycle (log entry 72), at the scale places of its blocks the scale bytes, and
every other byte as it was; a dropped one changes no memory. (09_isa_memory_exchange.md (R221, R224, R225, R231, R232),
04_registers_memory.md (R107, R110), 08_isa_matrix.md (R198, R202, R205, R214, R215, R216), 03_numbers.md (R74), 01_machine.md
(R16).) -/
def Obligations.TimedAccessesPerform : Prop :=
  (∀ (s : State) (n : Fin 128) (f : Flight) (a : Nat) (sp : Space), s.dev.tiles[n].flight = [f] → s.dev.tiles[n].tpath = [] →
    s.dev.tiles[n].apath = [] → (∀ o ∈ s.dev.tiles[n].ops, o.tspRead = none ∧ o.kind ≠ .fence) → (sp = .tsp ∨ sp = .vault) →
    memWf s.dev.mem = true →
    (let c := s.dev.psc n
     let bfmt := s.dev.tiles[n].sr.bfmt[idx 16 (a / 65536)]
     let place := fun i => if sp = .tsp then bankKey n bfmt (a / 65536) (a % 65536 + i) else vaultKey n (a + i)
     let key := place 0
     (∀ (size : Nat) (v : VReg), f.act = .write c sp a size v → f.pdrop = false → f.dest = .none → f.flags = 0#6 → f.pzero = false → 0 < size →
       (sp = .vault ∨ a % 16 + size ≤ 16 ∨ (bfmtBad bfmt = false ∧ a % 65536 + size ≤ 65536)) →
       ∃ t, exec (.timedAccessPerform n) s = .next t ∧ t.dev.tiles[n].flight = []
        ∧ (∀ i < size, memRead t.dev.mem (place i) = v.extractLsb' (8 * i) 8)
        ∧ (∀ k, (∀ i < size, k ≠ place i) → memRead t.dev.mem k = memRead s.dev.mem k) ∧ t.dev.tiles[n].r = s.dev.tiles[n].r)
     ∧ (∀ (size : Nat) (v : VReg), f.act = .write c sp a size v → f.pdrop = true → f.dest = .none → f.flags = 0#6 → f.pzero = false →
       ∃ t, exec (.timedAccessPerform n) s = .next t ∧ t.dev.mem = s.dev.mem ∧ t.dev.tiles[n].flight = []
         ∧ t.dev.tiles[n].sr.pdcnt = BitVec.ofNat 32 (satAdd s.dev.tiles[n].sr.pdcnt.toNat 1))
     ∧ (∀ code : BitVec 4, f.act = .read c sp a code → (∀ r, f.dest ≠ .beat r) → f.dest ≠ .none →
       ∃ t, exec (.timedAccessPerform n) s = .next t ∧ t.dev.mem = s.dev.mem ∧ t.dev.tiles[n].r = s.dev.tiles[n].r
         ∧ ∃ g, t.dev.tiles[n].flight = [g] ∧ g.value = extend code ((List.range (codeBytes code)).map fun i => s.dev.byte (place i))
            ∧ g.dest = f.dest ∧ g.due = f.due
            ∧ (f.poison = true → g.poison = true)
            ∧ ((∀ i < codeBytes code, s.dev.bad (place i) 1 = false) → g.poison = f.poison))
     ∧ (∀ (op : AmoOp) (v x : W64) (ord : AmoOrd), f.act = .amo c sp a op v x ord → a % 8 = 0 → f.dest ≠ .none → (∀ r, f.dest ≠ .beat r) →
         ∃ t g, exec (.timedAccessPerform n) s = .next t ∧ t.dev.tiles[n].flight = [g] ∧ g.value.setWidth 64 = s.dev.dword key
           ∧ ((ord.acq = false ∧ ord.rel = false ∨ ord.scope < 3) →
               t.dev.mem = s.dev.mem ∧ g.act = .rmw c sp a op v x ord))
     ∧ (∀ (p : Nat) (op : AmoOp) (v x : W64) (ord : AmoOrd), p + 1 = c → f.act = .rmw p sp a op v x ord → a % 8 = 0 →
         f.dest ≠ .none → (∀ r, f.dest ≠ .beat r) →
         (let old := s.dev.dword key
          ∃ t g, exec (.timedAccessPerform n) s = .next t ∧ t.dev.tiles[n].flight = [g] ∧ g.act = .none ∧ g.value.setWidth 64 = old
            ∧ t.dev.mem = if op = .cas ∧ old ≠ x then s.dev.mem else memWriteList s.dev.mem key (leBytes 8 (amoNew op old v x).toNat)))))
  ∧ (∀ (s : State) (n : Fin 128) (o : PathOp), s.dev.tiles[n].flight = [] → s.dev.tiles[n].tpath ++ s.dev.tiles[n].apath = [o] →
    (∀ x ∈ s.dev.tiles[n].ops, x.tspRead = none ∧ x.kind ≠ .fence) → memWf s.dev.mem = true → bfmtBad o.bfmt = false →
    o.accesses = true → o.first ≤ s.dev.psc n → s.dev.psc n < o.first + o.cnt →
    (let m := s.dev.psc n - o.first
     let off := (o.access m).1
     let len := (o.access m).2
     let place := fun i => bankKey n o.bfmt o.bank.val (off + i)
     let scale := fun b => bankKey n o.bfmt o.bank.val (scaleOff o.tag.toNat (off + b * blockBytes o.tag.toNat))
     (o.reads = true →
       ∃ t p, exec (.timedAccessPerform n) s = .next t ∧ t.dev.mem = s.dev.mem ∧ t.dev.tiles[n].r = s.dev.tiles[n].r
         ∧ t.dev.tiles[n].tpath ++ t.dev.tiles[n].apath = [p] ∧ p.kind = o.kind ∧ p.due = o.due
         ∧ p.lines = o.lines ++ [BitVec.ofNat 1024 (leNat ((List.range len).map fun i => s.dev.byte (place i)))]
         ∧ ((∀ i < len, s.dev.bad (place i) 1 = false) → (∀ b < o.blocks, s.dev.bad (scale b) 1 = false) → p.poison = o.poison))
     ∧ (o.reads = false → o.drop = true →
       ∃ t, exec (.timedAccessPerform n) s = .next t ∧ t.dev.mem = s.dev.mem ∧ t.dev.tiles[n].r = s.dev.tiles[n].r)
     ∧ (o.reads = false → o.drop = false →
       (o.blocks = 0 ∧ off + len ≤ 65536 ∨ codeBlock (bfmtFmt o.bfmt) = true ∧ codeBlock o.tag.toNat = true ∧ off + len ≤ 0xf000) →
       ∃ t, exec (.timedAccessPerform n) s = .next t ∧ t.dev.tiles[n].r = s.dev.tiles[n].r
         ∧ (∀ i < len, memRead t.dev.mem (place i)
             = ((if s.start.tiles[n].sr.zctl.getLsbD 0 = true ∧ (o.kind = .zout ∨ o.kind = .zoutv) then { o with lines := o.satLines } else o).out m).extractLsb'
                 (8 * i) 8)
         ∧ (∀ b < o.blocks, memRead t.dev.mem (scale b) = (o.scales.getD m 0#32).extractLsb' (8 * b) 8)
         ∧ (∀ k, (∀ i < len, k ≠ place i) → (∀ b < o.blocks, k ≠ scale b) → memRead t.dev.mem k = memRead s.dev.mem k))))

/-- Where the landing slot is free or an outbound entry is, the address aligned, below 2^56 (or in a lateral window) and unwatched,
and the operands unpoisoned, ldg and ldv complete by setting their slot to WAIT with its due cycle and policy and adding their
request, stg, stv and zline by adding their write with its data and entry, and pref by adding its request; the named scope is
demoted to the vdev's ceiling and the demotion recorded. A poisoned address leaves a load's slot FAILED, drops a store or zline
with PDCNT counted where an entry is free (the model's choice, log entry 88), and makes pref ask for nothing. With the address
poisoned, or as above, ldg and ldv on a slot that is not free raise illegal-operand detail 2 and have no other effect, and stg,
stv and zline with a full write buffer detail 7. Nothing else changes. (09_isa_memory_exchange.md (R220, R222, R223, R226, R227,
R228, R234, R238, R239), 02_execution.md (R36, R37, R41).) -/
def Obligations.OutboundAndLandingOperationsIssue : Prop :=
  (∀ (s : State) (n : Fin 128) (d a : Fin 32) (ls : Fin 64) (l : Landing) (dk : DKind2), s.cur = .tile n → s.dkAwake (dk2Kind dk) d →
    s.tile.lands[ls].st = .free →
    (let size := dkBytes (dk2Kind dk)
     let dest := dkDest (dk2Kind dk) d
     (∀ q : LdQual, s.poisonS a = false → s.dvaOk (s.readS a) size false →
       ∃ o : MemOp, o.kind = .ldg ∧ o.issue = s.psc ∧ o.ls = some ls ∧ o.addr = s.readS a ∧ o.size = size ∧ o.stage = .issued
         ∧ o.hint = (ldQual q).1 ∧ o.acq = (ldQual q).2.1 ∧ o.scope = min (ldQual q).2.2.1 (s.dev.ceiling n)
         ∧ exec (.ldg d a ls l dk q) s = .next (((s.withSlot n ls l dest .wait).withOp n o).onDev fun e =>
             e.noteDemote n (decide (s.dev.ceiling n < (ldQual q).2.2.1))))
     ∧ (∀ q : LdQual, s.poisonS a = true → exec (.ldg d a ls l dk q) s = .next (s.withSlot n ls l dest .failed))
     ∧ (∀ q : VOrd, s.poisonS a = false → lateralLoc (s.place (s.readS a) size) = true → (s.readS a).toNat % size = 0 →
       s.unwatched (s.readS a) size false false →
       ∃ o : MemOp, o.kind = .ldv ∧ o.issue = s.psc ∧ o.ls = some ls ∧ o.addr = s.readS a ∧ o.size = size ∧ o.stage = .issued
         ∧ o.acq = decide (q = .order) ∧ exec (.ldv d a ls l dk q) s = .next ((s.withSlot n ls l dest .wait).withOp n o))))
  ∧ (∀ (s : State) (n : Fin 128) (d a : Fin 32) (off : Option (BitVec 16)) (dk : DKind), s.cur = .tile n → s.dkAwake dk d → s.entryFree →
    (let size := dkBytes dk
     let ea := s.readS a + (match off with | some i => i.signExtend 64 | none => 0#64)
     let v := s.storeData dk d
     (∀ q : StQual, s.poisonS a = false → v.2 = false → s.dvaOk ea size true →
       ∃ o : MemOp, o.kind = .stg ∧ o.issue = s.psc ∧ o.entry = true ∧ o.addr = ea ∧ o.size = size ∧ o.data = v.1 ∧ o.stage = .issued
         ∧ o.hint = (stQual q).1 ∧ o.rel = (stQual q).2.1 ∧ o.scope = min (stQual q).2.2.1 (s.dev.ceiling n)
         ∧ exec (.stg d a off dk q) s = .next ((s.withOp n o).onDev fun e => e.noteDemote n (decide (s.dev.ceiling n < (stQual q).2.2.1))))
     ∧ (∀ q : StQual, s.poisonS a = true → exec (.stg d a off dk q) s = .next (s.onDev fun e => e.onTile n Tile.dropPoisoned))
     ∧ (∀ q : VOrd, s.poisonS a = false → v.2 = false → lateralLoc (s.place ea size) = true → ea.toNat % size = 0 →
       s.unwatched ea size true false →
       ∃ o : MemOp, o.kind = .stv ∧ o.issue = s.psc ∧ o.entry = true ∧ o.addr = ea ∧ o.size = size ∧ o.data = v.1 ∧ o.stage = .issued
         ∧ o.rel = decide (q = .order) ∧ exec (.stv d a off dk q) s = .next (s.withOp n o))))
  ∧ (∀ (s : State) (n : Fin 128) (a : Fin 32) (off : Option (BitVec 16)) (ef : Bool), s.cur = .tile n →
    (let ea := s.readS a + (match off with | some i => i.signExtend 64 | none => 0#64)
     (s.poisonS a = false → s.entryFree → s.dvaOk ea 128 true →
       ∃ o : MemOp, o.kind = .zline ∧ o.issue = s.psc ∧ o.entry = true ∧ o.addr = ea ∧ o.size = 128 ∧ o.stage = .issued
         ∧ exec (.zline a off) s = .next (s.withOp n o))
     ∧ (s.poisonS a = false → ea.toNat < 2 ^ 56 →
       ∃ o : MemOp, o.kind = .pref ∧ o.issue = s.psc ∧ o.entry = false ∧ o.addr = ea ∧ o.hint = (if ef then 3#2 else 0#2)
         ∧ exec (.pref a off ef) s = .next (s.withOp n o))
     ∧ (s.poisonS a = true → exec (.pref a off ef) s = .next s)
     ∧ (s.poisonS a = true → s.entryFree → exec (.zline a off) s = .next (s.onDev fun e => e.onTile n Tile.dropPoisoned))
     ∧ (s.poisonS a = true ∨ s.dvaOk ea 128 true → ¬ s.entryFree → exec (.zline a off) s = .next (s.raiseAt causeIllop 7 s.iss.slot 0#64))))
  ∧ (∀ (s : State) (n : Fin 128) (d a : Fin 32) (ls : Fin 64) (l : Landing) (dk : DKind2) (q : LdQual), s.cur = .tile n →
      s.dkAwake (dk2Kind dk) d → s.tile.lands[ls].st ≠ .free →
      (let size := dkBytes (dk2Kind dk)
       (s.poisonS a = true ∨ s.dvaOk (s.readS a) size false →
         exec (.ldg d a ls l dk q) s = .next (s.raiseAt causeIllop 2 s.iss.slot 0#64))
       ∧ (lateralWindow (s.readS a) = true → s.poisonS a = true ∨ (lateralLoc (s.place (s.readS a) size) = true
            ∧ (s.readS a).toNat % size = 0 ∧ s.unwatched (s.readS a) size false false) →
           ∀ o : VOrd, exec (.ldv d a ls l dk o) s = .next (s.raiseAt causeIllop 2 s.iss.slot 0#64))))
  ∧ (∀ (s : State) (n : Fin 128) (d a : Fin 32) (off : Option (BitVec 16)) (dk : DKind) (q : StQual), s.cur = .tile n →
      s.dkAwake dk d → ¬ s.entryFree →
      (let size := dkBytes dk
       let ea := s.readS a + (match off with | some i => i.signExtend 64 | none => 0#64)
       (s.poisonS a = true ∨ s.dvaOk ea size true → exec (.stg d a off dk q) s = .next (s.raiseAt causeIllop 7 s.iss.slot 0#64))
       ∧ (lateralWindow ea = true → s.poisonS a = true ∨ (lateralLoc (s.place ea size) = true ∧ ea.toNat % size = 0
            ∧ s.unwatched ea size true false) →
           ∀ o : VOrd, exec (.stv d a off dk o) s = .next (s.raiseAt causeIllop 7 s.iss.slot 0#64))))

/-- For a tile with unpoisoned operands, each amo form and cas complete: with EA[63] set and an address in the TSP or the own vault
where a timed access may be made, by queueing a timed atomic of their operation on s[d] (for cas: the compare value s[d] and the
new value s[d + 1]) for PSC i + 2 or i + 6 with latency 6 or 12; with a global DVA or an address in a lateral window and a free
slot, by setting the slot to WAIT and adding the atomic; in each case acquire and release as the qualifier says, with the scope
demoted to the ceiling and the demotion recorded. Nothing else changes. The new word of each operation is the sum, AND, OR,
exclusive OR, signed greater or lesser, unsigned greater, the operand itself, or for cas the new value where the old equals the
compare value. (09_isa_memory_exchange.md (R222, R223, R230, R231, R232), 02_execution.md (R36, R37), 11_consistency.md (R295).) -/
def Obligations.AtomicsIssue : Prop :=
  (∀ (s : State) (n : Fin 128) (d a : Fin 32) (ls : Fin 64) (l : Landing) (i : Instr) (op : AmoOp) (v x : W64) (acq rel : Bool) (scope : Nat),
    s.cur = .tile n → s.poisonS a = false → s.poisonS d = false →
    (∃ q : Option Scope, v = s.readS d ∧ x = 0#64 ∧ acq = q.isSome ∧ rel = q.isSome ∧ scope = (match q with | some y => scopeNum y | none => 0)
        ∧ ((i = .amoAdd d a ls l q ∧ op = .add) ∨ (i = .amoAnd d a ls l q ∧ op = .and) ∨ (i = .amoOr d a ls l q ∧ op = .or)
          ∨ (i = .amoXor d a ls l q ∧ op = .xor) ∨ (i = .amoMax d a ls l q ∧ op = .max) ∨ (i = .amoMin d a ls l q ∧ op = .min)
          ∨ (i = .amoMaxn d a ls l q ∧ op = .maxn) ∨ (i = .amoSwap d a ls l q ∧ op = .swap)))
      ∨ (∃ q : CasQual, i = .cas d a ls l q ∧ op = .cas ∧ v = s.readS (d + 1) ∧ x = s.readS d ∧ s.poisonS (d + 1) = false
          ∧ (acq, rel, scope) = (match q with
              | .none => (false, false, 0) | .acq y => (true, false, scopeNum y) | .rel y => (false, true, scopeNum y)
              | .ar y => (true, true, scopeNum y))) →
    (let ea := s.readS a
     let loc := ea &&& 0xffffffff#64
     let tsp := loc.toNat < 0x100000
     ((ea.getLsbD 63 = true → ea.toNat / 2 ^ 32 % 2 ^ 31 = 0 → s.timedOk loc 8 true [2, 3] →
       exec i s = .next ((s.put (if tsp then 6 else 12) (.s d) 0#1024 false fun f =>
         { f with act := .amo (s.dev.psc n + if tsp then 2 else 6) (if tsp then .tsp else .vault)
                    (if tsp then loc.toNat else loc.toNat - 0x1000000) op v x
                    { acq := acq, rel := rel, scope := min scope (s.dev.ceiling n) } }).onDev fun e =>
             e.noteDemote n (decide (s.dev.ceiling n < scope))))
      ∧ (ea.getLsbD 63 = true → ea.toNat / 2 ^ 32 % 2 ^ 31 = 0 → s.tile.lands[ls].st = .free → loc.toNat % 8 = 0 →
         lateralLoc (s.place loc 8) = true → s.unwatched loc 8 true false →
       ∃ o : MemOp, o.kind = .amoV ∧ o.issue = s.psc ∧ o.ls = some ls ∧ o.addr = loc ∧ o.size = 8 ∧ o.amo = op
         ∧ o.data.setWidth 64 = v ∧ o.data2 = x ∧ o.acq = acq ∧ o.rel = rel ∧ o.scope = min scope (s.dev.ceiling n)
         ∧ exec i s = .next (((s.withSlot n ls l (.s d) .wait).withOp n o).onDev fun e =>
             e.noteDemote n (decide (s.dev.ceiling n < scope))))
      ∧ (ea.getLsbD 63 = false → s.tile.lands[ls].st = .free → s.dvaOk ea 8 true →
       ∃ o : MemOp, o.kind = .amoG ∧ o.issue = s.psc ∧ o.ls = some ls ∧ o.addr = ea ∧ o.size = 8 ∧ o.amo = op
         ∧ o.data.setWidth 64 = v ∧ o.data2 = x ∧ o.acq = acq ∧ o.rel = rel ∧ o.scope = min scope (s.dev.ceiling n)
         ∧ exec i s = .next (((s.withSlot n ls l (.s d) .wait).withOp n o).onDev fun e =>
             e.noteDemote n (decide (s.dev.ceiling n < scope)))))))
  ∧ (∀ old v x : W64, amoNew .add old v x = BitVec.ofInt 64 (old.toInt + v.toInt) ∧ amoNew .and old v x = old &&& v
      ∧ amoNew .or old v x = old ||| v ∧ amoNew .xor old v x = old ^^^ v ∧ (amoNew .max old v x).toInt = max old.toInt v.toInt
      ∧ (amoNew .min old v x).toInt = min old.toInt v.toInt ∧ (amoNew .maxn old v x).toNat = max old.toNat v.toNat
      ∧ amoNew .swap old v x = v ∧ (old = x → amoNew .cas old v x = v) ∧ (old ≠ x → amoNew .cas old v x = old))

/-- With no earlier operation, no pending timed access and no accepted launch or evpost still to be performed, each fence completes
at once and leaves the operations and registers as they are: below .dev after demotion no byte of memory changes; at .dev or
.sys (log entry 49) the bolt's slices keep no copy of a host line, the bytes written to such copies stand in memory and every
other byte is as it was. lget on a READY or FAILED slot completes with its predicate 1 or 0 and the landing write scheduled for
PSC i + 1, on a LATE slot with predicate 0 and the slot unchanged; lwait acts in the same way without a predicate and turns a
LATE slot into a WAIT under FRZ due on i + 1. LANDING_DUE completes: a HELD slot becomes FREE with its data queued, a FAILED one
FREE with poison queued and TSTAT.LANDERR set, a WAIT under PSN LATE with poison queued and TSTAT.LATE set. LANDING_ARRIVAL
completes by giving the data of a performed request to its slot: WAIT becomes HELD and LATE becomes READY, and a failed request
makes it FAILED; the request is gone. Otherwise no register and no byte of memory changes. (09_isa_memory_exchange.md (R233,
R235, R236), 02_execution.md (R36, R38), 11_consistency.md (R284, R296).) -/
def Obligations.FencesAndLateData : Prop :=
  (∀ (s : State) (n : Fin 128) (x : Fin 5), s.cur = .tile n → s.dev.tiles[n].ops = [] → s.dev.tiles[n].timedPending s.psc = false →
    (∀ y ∈ s.dev.posted, y.tile ≠ n) →
    ∃ t u v, exec (.fenceAcq x) s = .next t ∧ exec (.fenceRel x) s = .next u ∧ exec (.fenceAr x) s = .next v
      ∧ (∀ w, (w = t ∨ w = u ∨ w = v) → w.dev.tiles[n].ops = [] ∧ w.dev.tiles[n].r = s.dev.tiles[n].r ∧ w.iss = s.iss ∧ w.agenda = s.agenda
          ∧ (min x.val (s.dev.ceiling n) < 3 → w.dev.mem = s.dev.mem)
          ∧ (∀ b, 3 ≤ min x.val (s.dev.ceiling n) → s.dev.boltOf n = some b → memWf s.dev.mem = true →
              (let held := fun (q : Fin 32) (l : SlcLine) => q ∈ s.dev.boltQuads b ∧ l ∈ s.dev.quads[q].slc ∧ l.copy.isSome = true
               (∀ q ∈ s.dev.boltQuads b, ∀ l ∈ w.dev.quads[q].slc, l.copy = none)
               ∧ (∀ q l c j, held q l → l.copy = some c → j < 128 → l.written.getLsbD j = true →
                   (∀ q2 ∈ s.dev.boltQuads b, ∀ l2 ∈ s.dev.quads[q2].slc, l2.key = l.key → q2 = q ∧ l2 = l) →
                   memRead w.dev.mem (l.key * 128 + j) = c.extractLsb' (8 * j) 8)
               ∧ (∀ k, (∀ q l j, held q l → j < 128 → l.written.getLsbD j = true → k ≠ l.key * 128 + j) →
                   memRead w.dev.mem k = memRead s.dev.mem k)))))
  ∧ (∀ (s : State) (ls : Fin 64) (p : Fin 8),
    (let l := s.tile.lands[ls]
     let y : Land := { l with st := if l.st = .ready then .held else l.st, due := s.psc + 1, issue := s.psc, slot := 5 }
     let z : Land := { l with st := .wait, psn := false, due := s.psc + 1, issue := s.psc, slot := 5 }
     let take := s.onTile fun t => { t with lands := t.lands.set ls y }
     ((s.tile.lands[ls].st = .ready ∨ s.tile.lands[ls].st = .failed) →
       exec (.lget ls p) s = .next (take.putP 1 p (decide (s.tile.lands[ls].st = .ready))) ∧ exec (.lwait ls) s = .next take)
     ∧ (s.tile.lands[ls].st = .late → exec (.lget ls p) s = .next (s.putP 1 p false)
         ∧ exec (.lwait ls) s = .next (s.onTile fun t => { t with lands := t.lands.set ls z }))))
  ∧ (∀ (s : State) (n : Fin 128) (ls : Fin 64), s.dev.tiles[n].lands[ls].due = s.dev.psc n →
    (let l := s.dev.tiles[n].lands[ls]
     let next := fun (st : LandSt) (v : VReg) (p : Bool) (bit : Option Nat) => ∃ t, exec (.landingDue n ls) s = .next t
       ∧ t.dev.tiles[n].lands = s.dev.tiles[n].lands.set ls { l with st := st }
       ∧ t.dev.tiles[n].flight = s.dev.tiles[n].flight ++ [Flight.result l.issue l.slot (s.dev.psc n) l.dest v p]
       ∧ t.dev.tiles[n].r = s.dev.tiles[n].r ∧ t.dev.mem = s.dev.mem
       ∧ t.dev.tiles[n].sr.tstat = (match bit with | some i => s.dev.tiles[n].sr.tstat ||| BitVec.ofNat 32 (2 ^ i) | none => s.dev.tiles[n].sr.tstat)
     (l.st = .held → next .free l.data l.poison none) ∧ (l.st = .failed → next .free 0#1024 true (some 3))
     ∧ (l.st = .wait → l.psn = true → next .late 0#1024 true (some 2))))
  ∧ (∀ (s : State) (n : Fin 128) (ls : Fin 64) (o : MemOp), s.dev.tiles[n].ops = [o] → o.stage = .performed → o.ls = some ls →
    (let l := s.dev.tiles[n].lands[ls]
     ∃ t, exec (.landingArrival n ls) s = .next t ∧ t.dev.tiles[n].ops = [] ∧ t.dev.mem = s.dev.mem ∧ t.dev.tiles[n].r = s.dev.tiles[n].r
       ∧ (o.failed = false → l.st = .wait → t.dev.tiles[n].lands[ls] = { l with st := .held, data := o.data, poison := o.poison })
       ∧ (o.failed = false → l.st = .late → t.dev.tiles[n].lands[ls] = { l with st := .ready, data := o.data, poison := o.poison })
       ∧ (o.failed = true → (l.st = .wait ∨ l.st = .late) → t.dev.tiles[n].lands[ls] = { l with st := .failed })))

/-- With a free outbound entry, an aligned record address below 2^56 and unpoisoned operands, launch completes by adding a release
at .dev that carries the record's address and the spool number, and evpost one at .sys or the vdev's ceiling that carries s[a],
WID, the event code and the DCC, a demotion being recorded; a poisoned operand drops either and counts it. Nothing else changes.
(09_isa_memory_exchange.md (R223, R234, R240, R241), 02_execution.md (R41).) -/
def Obligations.LaunchAndEventOperationsIssue : Prop :=
  ∀ (s : State) (n : Fin 128) (a : Fin 32), s.cur = .tile n → s.entryFree →
    (∀ o : SOpd, s.poisonS a = false → s.sopdPoison o = false → (s.readS a).toNat % 128 = 0 → (s.readS a).toNat < 2 ^ 56 →
      ∃ x : MemOp, x.kind = .launch ∧ x.issue = s.psc ∧ x.entry = true ∧ x.stage = .issued ∧ x.addr = s.readS a ∧ x.size = 128
        ∧ x.rel = true ∧ x.scope = 3 ∧ x.dst = (match o with | .reg r => (s.readS r).toNat | .imm i => i.toNat)
        ∧ exec (.launch a o) s = .next (s.withOp n x))
    ∧ (∀ code : Option (BitVec 16), s.poisonS a = false →
      ∃ x : MemOp, x.kind = .evpost ∧ x.issue = s.psc ∧ x.entry = true ∧ x.stage = .issued ∧ x.data.setWidth 64 = s.readS a
        ∧ x.data2 = s.dev.tiles[n].sr.wid ∧ x.dst = (match code with | some c => c.toNat | none => 0) ∧ x.n = s.dev.dcc
        ∧ x.rel = true ∧ x.scope = min 4 (s.dev.ceiling n)
        ∧ exec (.evpost a code) s = .next ((s.withOp n x).onDev fun e => e.noteDemote n (decide (s.dev.ceiling n < 4))))
    ∧ (s.poisonS a = true → ∀ (o : SOpd) (code : Option (BitVec 16)),
        exec (.launch a o) s = .next (s.onDev fun e => e.onTile n Tile.dropPoisoned)
        ∧ exec (.evpost a code) s = .next (s.onDev fun e => e.onTile n Tile.dropPoisoned))

/-- On a tile of a panel, snd to a rank of the panel completes with one beat along the X-then-Y route, and bcst with one for each
direction of its row or column: of a register source they launch on PSC i + 2 with its data and poison; of a TSP source,
aligned, inside a bank of no preload with a free port on i + 2, they launch on i + 4 and a read of 128 bytes is queued for i + 2
(none where bcst has no arm, the model's choice, log entry 90), which fills them with the bytes there. rcv with a beat of its
source arriving takes that beat and queues its data with latency 2, or for a TSP destination a write of 128 bytes on i + 3,
dropped for poison; with none arriving it raises illegal-operand detail 9, whatever its destination. On every cycle, where no
router drops a beat, BEAT_ARRIVAL completes: a beat that needs a link that a beat of a lower-ranked sender or of an earlier send
of its own uses on the cycle is lost, and its sender is the tile of an illegal-operand detail 9 end-class cause with the PSC of
the send; beats whose last arrival is past leave the links; and each rank at which another arrives unclaimed is the tile of such
a cause. Registers and memory keep their contents. (09_isa_memory_exchange.md (R242, R243, R244, R245, R246), 01_machine.md
(R11), 15_bolts_scheduling.md (R351).) -/
def Obligations.TimedExchange : Prop :=
  (∀ (s : State) (n : Fin 128) (p : Panel) (src : XSrc), s.cur = .tile n → s.dev.panelOf n = some p →
    (match src with
      | .s _ => True
      | .v f r => s.awake f [r]
      | .tsp bank off => off.toNat % 16 = 0 ∧ off.toNat + 128 ≤ 0x10000 ∧ s.tile.owned bank.val = false
          ∧ ∀ u ∈ s.tile.portUses, u.cycle = s.psc + 2 → u.bank ≠ bank.val) →
    (let v := match src with | .s r => ((s.readS r).setWidth 1024, s.poisonS r) | .v f r => (s.readV f r, s.poisonV f r) | .tsp _ _ => (0#1024, false)
     let lead := match src with | .tsp _ _ => 4 | _ => 2
     let is := fun (b : Beat) (route : List Nat) (each : Bool) => b.src = s.dev.tiles[n].rank ∧ b.route = route ∧ b.each = each
       ∧ b.launch = s.psc + lead ∧ b.issue = s.psc ∧ b.data = v.1 ∧ b.poison = v.2 ∧ b.faddr = s.iss.addr ∧ b.taken = [] ∧ b.extra = []
     let sent := fun (bs : List Beat) =>
       let s1 := s.onDev fun d => d.onPanel p.handle fun q => { q with beats := q.beats ++ bs, nextBeat := q.nextBeat + bs.length }
       match src with
       | .tsp bank off => if bs = [] then s1 else s1.onDev fun d => d.onTile n fun t => t.push
           { Flight.result (s.dev.psc n) s.iss.slot (s.dev.psc n + 2) (.beat p.nextBeat) 0#1024 false with
             act := .read (s.dev.psc n + 2) .tsp (bank.val * 65536 + off.toNat) 8#4 }
       | _ => s1
     (∀ dst : Fin 128, dst.val < p.w * p.h → ∃ b, is b (p.route s.dev.tiles[n].rank dst.val) false ∧ exec (.snd src dst) s = .next (sent [b]))
     ∧ (∀ col : Bool, ∃ bs : List Beat, bs.map Beat.route = p.arms s.dev.tiles[n].rank col ∧ (∀ b ∈ bs, is b b.route true)
       ∧ exec (.bcst src col) s = .next (sent bs))))
  ∧ (∀ (s : State) (n : Fin 128) (p : Panel) (f : Flight) (bank : Fin 16) (off r : Nat), s.dev.panelOf n = some p → s.dev.tiles[n].flight = [f] →
      s.dev.tiles[n].tpath = [] → s.dev.tiles[n].apath = [] → (∀ o ∈ s.dev.tiles[n].ops, o.tspRead = none ∧ o.kind ≠ .fence) →
      f.act = .read (s.dev.psc n) .tsp (bank.val * 65536 + off) 8#4 → off < 65536 → f.dest = .beat r → f.flags = 0#6 → f.pzero = false →
      (let place := fun i => bankKey n s.dev.tiles[n].sr.bfmt[bank] bank.val (off + i)
       let data : VReg := BitVec.ofNat 1024 (leNat ((List.range 128).map fun i => s.dev.byte (place i)))
       (∀ i < 128, s.dev.bad (place i) 1 = false) →
       ∃ t, exec (.timedAccessPerform n) s = .next t ∧ t.dev.mem = s.dev.mem ∧ t.dev.tiles[n].flight = []
         ∧ t.dev.panel p.handle = some { p with beats := p.beats.map fun b =>
             if b.src = s.dev.tiles[n].rank ∧ b.issue + 2 = s.dev.psc n then { b with data := data, poison := f.poison } else b }))
  ∧ (∀ (s : State) (n : Fin 128) (p : Panel) (src : Fin 128) (b : Beat), s.cur = .tile n → s.dev.panelOf n = some p →
      s.arriving src.val = some b →
    (let took := s.onDev fun d => d.onPanel p.handle fun q =>
       { q with beats := q.beats.map fun x => if x.id == b.id then { x with taken := s.dev.tiles[n].rank :: x.taken } else x }
     b.src = src.val ∧ b.arrives s.dev.tiles[n].rank p.psc = true
     ∧ (∀ r, exec (.rcv (.s r) src) s = .next (took.put 2 (.s r) ((b.data.setWidth 64).setWidth 1024) b.poison))
     ∧ (∀ f r, s.awake f [r] → exec (.rcv (.v f r) src) s = .next (took.put 2 (.v f r) b.data b.poison))
     ∧ (∀ bank off, off.toNat % 16 = 0 → off.toNat + 128 ≤ 0x10000 → s.tile.owned bank.val = false →
         (∀ u ∈ s.tile.portUses, u.cycle = s.psc + 3 → u.bank ≠ bank.val) →
         exec (.rcv (.tsp bank off) src) s = .next (took.onDev fun d => d.onTile n fun t => t.push
           { Flight.result (s.dev.psc n) s.iss.slot (s.dev.psc n + 3) (.beat src.val) 0#1024 false with
             act := .write (s.dev.psc n + 3) .tsp (bank.val * 65536 + off.toNat) 128 b.data, pdrop := b.poison }))))
  ∧ (∀ (s : State) (n : Fin 128) (src : Fin 128) (dst : XSrc), s.cur = .tile n → s.arriving src.val = none →
      (match dst with
        | .s _ => True
        | .v f r => s.awake f [r]
        | .tsp bank off => off.toNat % 16 = 0 ∧ off.toNat + 128 ≤ 0x10000 ∧ s.tile.owned bank.val = false
            ∧ ∀ u ∈ s.tile.portUses, u.cycle = s.psc + 3 → u.bank ≠ bank.val) →
      exec (.rcv dst src) s = .next (s.illop 9))
  ∧ (∀ (s : State) (h : Nat) (p : Panel), s.dev.panel h = some p → (∀ b ∈ p.beats, s.dev.selDrops p b p.psc = false) →
      (let lost := fun (b : Beat) => ∃ k, b.link p.psc = some k ∧ ∃ x ∈ p.beats, x.link p.psc = some k
         ∧ (x.src < b.src ∨ (x.src = b.src ∧ x.issue < b.issue))
       ∃ t l, exec (.beatArrival h) s = .next t ∧ t.dev.mem = s.dev.mem ∧ t.dev.tiles = s.dev.tiles
        ∧ (∃ q, t.dev.panel h = some q ∧ q = { p with beats := q.beats } ∧ ∀ b, b ∈ q.beats ↔ b ∈ p.beats ∧ ¬ lost b ∧ p.psc < b.last)
        ∧ t.dev.raised = s.dev.raised ++ l
        ∧ (∀ x ∈ l, x.cause = causeIllop ∧ x.detail = 9 ∧ x.late = true)
        ∧ (∀ b ∈ p.beats, lost b → ∃ x ∈ l, x.tile = p.tile b.src ∧ x.spsc = b.issue)
        ∧ (∀ b ∈ p.beats, ¬ lost b → ∀ r < p.size, b.arrives r p.psc = true → r ∉ b.taken →
            ∃ x ∈ l, x.tile = p.tile r ∧ x.faddr = b.faddr ∧ x.spsc = b.issue)))

/-- On a tile where no xrcvf waits on the semaphore, semw completes by taking N from a count of at least N with predicate 1, or
leaving it with predicate 0, semp by queueing the count, semi by setting it to the low word of s[a] (0 with TSTAT.PZERO for a
poisoned source). With a free outbound entry, a rank of the panel and addresses that the rules allow, sndr of a vector register
or a TSP source and semv complete by adding a release at panel scope with its target, semaphore and data (of a TSP source: with
its address, read on PSC i + 2), and xfar by adding its message; with a free landing slot and an address in the TSP or own
vault, xrcvf by setting the slot to WAIT and adding its acquire at .dev, which is demoted to a lower ceiling and the demotion
recorded (the model's reading, log entry 69). Nothing else changes. (09_isa_memory_exchange.md (R234, R247, R249, R250, R251,
R253), 02_execution.md (R36, R37, R41), 11_consistency.md (R291, R295).) -/
def Obligations.SemaphoresAndReduceIssue : Prop :=
  (∀ (s : State) (n : Fin 128) (sem : Fin 16), s.cur = .tile n →
    (∀ o ∈ s.dev.tiles[n].ops, ¬ (o.kind = .xrcvf ∧ o.stage = .issued ∧ o.sem = sem)) →
    (let v := s.dev.tiles[n].sr.sem[sem]
     let set := fun (x : W32) (u : State) => u.onDev fun d => d.onTile n fun t => { t with sr := { t.sr with sem := t.sr.sem.set sem x } }
     (∀ (p : Fin 8) (k : BitVec 8), exec (.semw p sem k) s
        = .next (if k.toNat ≤ v.toNat then (set (v - k.setWidth 32) s).putP 1 p true else s.putP 1 p false))
     ∧ (∀ d : Fin 32, exec (.semp d sem) s = .next (s.putS 2 d (v.setWidth 64) false))
     ∧ (∀ a : Fin 32, exec (.semi sem a) s = .next (if s.poisonS a
          then (set 0#32 s).onDev fun d => d.onTile n fun t => { t with sr := { t.sr with tstat := t.sr.tstat ||| 2#32 } }
          else set ((s.readS a).setWidth 32) s))))
  ∧ (∀ (s : State) (n : Fin 128) (p : Panel) (dst : Fin 128) (sem : Fin 16), s.cur = .tile n → s.dev.panelOf n = some p →
      dst.val < p.w * p.h → s.entryFree →
    (let is := fun (x : MemOp) (k : MKind) => x.kind = k ∧ x.issue = s.psc ∧ x.entry = true ∧ x.stage = .issued ∧ x.rel = true ∧ x.scope = 1
       ∧ x.dst = dst.val ∧ x.sem = sem
     (∀ k : BitVec 8, ∃ x, is x .semv ∧ x.n = k.toNat ∧ exec (.semv sem dst k) s = .next (s.withOp n x))
     ∧ (∀ (f : VFile) (r ta : Fin 32) (rty : Fin 4) (isMax : Bool), s.awake f [r] → s.poisonS ta = false → (s.readS ta).toNat % 128 = 0 →
        (s.readS ta).toNat < 2 ^ 20 → (rty = 3 → (s.readS ta).toNat % 65536 ≤ 0xef80) →
        ∃ x, is x .sndr ∧ x.addr = s.readS ta ∧ x.size = 128 ∧ x.data = s.readV f r ∧ x.poison = s.poisonV f r ∧ x.isMax = isMax
          ∧ x.rty = BitVec.ofNat 2 rty.val ∧ exec (.sndr (.v f r) ta dst rty isMax sem) s = .next (s.withOp n x))
     ∧ (∀ (r ta : Fin 32) (rty : Fin 4) (isMax : Bool),
        (let A := (s.readS r).toNat
         let T := (s.readS ta).toNat
         let fmt := bfmtFmt (s.tile.sr.bfmt[idx 16 (A / 65536)])
         s.poisonS ta = false → s.poisonS r = false → T % 128 = 0 → T < 2 ^ 20 → A % 128 = 0 → A < 2 ^ 20 →
         (rty = 3 → T % 65536 ≤ 0xef80 ∧ A % 65536 ≤ 0xef80 ∧ (fmt = 0xd ∨ fmt = 0xe)) → s.tile.owned (A / 65536) = false →
         (∀ u ∈ s.tile.portUses, u.cycle = s.psc + 2 → u.bank ≠ A / 65536) →
         ∃ x, is x .sndr ∧ x.addr = s.readS ta ∧ x.size = 128 ∧ x.data2 = s.readS r ∧ x.tspRead = some (s.psc + 2) ∧ x.poison = false
          ∧ x.isMax = isMax ∧ x.rty = BitVec.ofNat 2 rty.val ∧ exec (.sndr (.tsp r) ta dst rty isMax sem) s = .next (s.withOp n x)))))
  ∧ (∀ (s : State) (n : Fin 128) (k : Fin 3) (r fa : Fin 32) (sem : Fin 16), s.cur = .tile n → s.entryFree →
    (let dk : DKind := if k = 0 then .i64 else if k = 1 then .va else .vb
     let F := s.readS fa
     s.dkAwake dk r → s.poisonS fa = false → (s.storeData dk r).2 = false → F.toNat % 2 ^ 32 % dkBytes dk = 0 →
      F.toNat / 2 ^ 60 = 0 → F.toNat / 2 ^ 32 % 2 ^ 8 = 0 →
      ∃ x : MemOp, x.kind = .xfar ∧ x.issue = s.psc ∧ x.entry = true ∧ x.stage = .issued ∧ x.addr = F ∧ x.size = dkBytes dk
        ∧ x.data = (s.storeData dk r).1 ∧ x.sem = sem ∧ exec (.xfar k r fa sem) s = .next (s.withOp n x)))
  ∧ (∀ (s : State) (n : Fin 128) (d a : Fin 32) (ls : Fin 64) (l : Landing) (dk : DKind2) (sem : Fin 16), s.cur = .tile n →
      s.dkAwake (dk2Kind dk) d → s.lslotNames ls = false → s.dev.tiles[n].lands[ls].st = .free →
      (s.poisonS a = false → (s.readS a).toNat % min (dkBytes (dk2Kind dk)) 16 = 0 → timedLoc (s.place (s.readS a) (dkBytes (dk2Kind dk))) = true →
        ((s.readS a).toNat < 2 ^ 20 → s.tile.owned ((s.readS a).toNat / 65536) = false) →
        ∃ x : MemOp, x.kind = .xrcvf ∧ x.issue = s.psc ∧ x.ls = some ls ∧ x.addr = s.readS a ∧ x.size = dkBytes (dk2Kind dk) ∧ x.sem = sem
          ∧ x.acq = true ∧ x.stage = .issued ∧ x.scope = min 3 (s.dev.ceiling n)
          ∧ exec (.xrcvf d a ls l dk sem) s = .next (((s.withSlot n ls l (dkDest (dk2Kind dk) d) .wait).withOp n x).onDev fun e =>
              e.noteDemote n (decide (s.dev.ceiling n < 3))))
      ∧ (s.poisonS a = true → exec (.xrcvf d a ls l dk sem) s = .next (s.withSlot n ls l (dkDest (dk2Kind dk) d) .failed)))

/-- For the only variable-latency operation of a tile, where nothing holds it and no router drops its flits: LATERAL_ACCESS_PERFORM
completes by writing the store's bytes into the target vault, by giving a load the bytes there, or an atomic the old word while
the new one is written (a failed cas nothing); SNDR_ADDITION by adding 1 to the semaphore of the target and combining the data
with the 128 bytes there, as sums or maxima: i32 lanes wrapping, fp32 and bf16 lanes rounded once to nearest even, MXFP8 blocks
decoded by their scales, combined exactly and rounded to fp32 once, an element beyond the range of fp32 included (the model's
choice, log entry 73), and encoded in the target's format with its scale bytes and the counts of R87; poisoned data, a bank of a
preload or a bank of another format skip the addition with their record; SEMV_INCREMENT by adding N to the semaphore of the
target; OUTBOUND_ACCEPT by freeing the entry of a stv, semv or sndr; XRCVF_TAKE with a count of at least 1 by taking 1 from it
and giving the operation the bytes at its address, in the TSP or the vault. XFAR_DELIVERY completes by writing the oldest
message's bytes into the vault or the TSP of the tile it names and adding 1 to its semaphore, where the device number is the
device's own, the tile is in the bolt, unfenced and at work and the sender is unfenced and on the access list; the sender's
operation is then at an end (the model's choice, log entry 75). (09_isa_memory_exchange.md (R228, R230, R234, R248, R249, R252,
R253), 03_numbers.md (R87), 11_consistency.md (R284, R287).) -/
def Obligations.RemoteOperationsPerform : Prop :=
  (∀ (s : State) (n : Fin 128) (p : Panel) (o : MemOp), s.dev.tiles[n].ops = [o] → s.dev.panelOf n = some p → s.dev.ready n 0 = some o →
    memWf s.dev.mem = true →
    (∀ (rank off : Nat), (o.kind = .ldv ∨ o.kind = .stv) → locate p.size (o.addr.toNat % 2 ^ 32) o.size = some (.lateral rank off) →
      s.dev.routeDrop p s.dev.tiles[n].rank rank = none → s.dev.routeDrop p rank s.dev.tiles[n].rank = none →
      ∃ t, exec (.lateralAccessPerform n 0) s = .next t
        ∧ (o.kind = .stv → t.dev.tiles[n].ops = []
            ∧ t.dev.mem = memWriteList s.dev.mem (vaultKey (p.tile rank) off) (leBytes o.size o.data.toNat))
        ∧ (o.kind = .ldv → t.dev.mem = s.dev.mem ∧ ∃ q, t.dev.tiles[n].ops = [q] ∧ q.stage = .performed ∧ q.ls = o.ls
            ∧ q.data = BitVec.ofNat 1024 (leNat (s.dev.bytes (vaultKey (p.tile rank) off) o.size))))
    ∧ (∀ (rank off : Nat), o.kind = .amoV → locate p.size (o.addr.toNat % 2 ^ 32) o.size = some (.lateral rank off) →
      s.dev.routeDrop p s.dev.tiles[n].rank rank = none → s.dev.routeDrop p rank s.dev.tiles[n].rank = none →
      (o.scope < 3 ∨ (o.acq = false ∧ o.rel = false) ∨ ∀ q : Fin 32, ∀ l ∈ s.dev.quads[q].slc, l.copy = none) →
      (let key := vaultKey (p.tile rank) off
       let old := s.dev.dword key
       ∃ t q, exec (.lateralAccessPerform n 0) s = .next t ∧ t.dev.tiles[n].ops = [q] ∧ q.stage = .performed ∧ q.ls = o.ls
         ∧ q.data.setWidth 64 = old ∧ t.dev.mem = if o.amo = .cas ∧ old ≠ o.data2 then s.dev.mem
             else memWriteList s.dev.mem key (leBytes 8 (amoNew o.amo old (o.data.setWidth 64) o.data2).toNat)))
    ∧ (o.kind = .semv → s.dev.routeDrop p s.dev.tiles[n].rank o.dst = none → ∃ t, exec (.semvIncrement n 0) s = .next t
        ∧ t.dev.mem = s.dev.mem ∧ t.dev.tiles[n].ops = []
        ∧ t.dev.tiles[p.tile o.dst].sr.sem[o.sem]
            = BitVec.ofNat 32 (min (s.dev.tiles[p.tile o.dst].sr.sem[o.sem].toNat + o.n) 0xffffffff))
    ∧ (o.kind = .sndr → s.dev.routeDrop p s.dev.tiles[n].rank o.dst = none →
        (let m := p.tile o.dst
         let bank := o.addr.toNat % 2 ^ 20 / 65536
         let off := o.addr.toNat % 65536
         let bf := s.dev.tiles[m].sr.bfmt[idx 16 bank]
         let fmt := bfmtFmt bf
         let old : VReg := BitVec.ofNat 1024 (leNat (s.dev.bankBytes m bf bank off 128))
         let wrong := o.rty = 3#2 ∧ fmt ≠ 0xd ∧ fmt ≠ 0xe
         let owned := s.dev.tiles[m].owned bank
         let fl := fun (F : FFmt) (x y : Nat) => (roundTo F .rne false
           (if o.isMax then maxVal (decodeF F x) (decodeF F y) else addVal .rne (decodeF F x) (decodeF F y)).1).1
         let scaleKey := fun i => bankKey m bf bank (scaleOff fmt (off + 32 * i))
         let block := fun k : Nat => encodeBlock ((List.range 32).map fun j =>
           let a := blockVal (blockEl o.srcFmt.toNat) (o.scales.toNat / 2 ^ (8 * k) % 256) (lane 8 o.data (32 * k + j))
           let b := blockVal (blockEl fmt) (s.dev.byte (scaleKey k)).toNat (lane 8 old (32 * k + j))
           fp32 (toFp32 (if o.isMax then maxVal a b else addVal .rne a b).1).1) (blockEl fmt)
         ∃ (t : State) (r : VReg), exec (.sndrAddition n 0) s = .next t ∧ t.dev.tiles[n].ops = []
           ∧ t.dev.tiles[m].sr.sem[o.sem] = BitVec.ofNat 32 (min (s.dev.tiles[m].sr.sem[o.sem].toNat + 1) 0xffffffff)
           ∧ (o.poison = false → owned = false → ¬ wrong → o.rty ≠ 3#2 →
               t.dev.mem = (s.dev.bankWrite m bf bank off (leBytes 128 r.toNat)).mem
               ∧ (o.rty = 0#2 → ∀ j < 32, lane 32 r j = (if o.isMax
                    then (if intVal true 32 (lane 32 o.data j) < intVal true 32 (lane 32 old j) then lane 32 old j else lane 32 o.data j)
                    else (lane 32 o.data j + lane 32 old j) % 2 ^ 32))
               ∧ (o.rty = 1#2 → ∀ j < 32, lane 32 r j = fl .fp32 (lane 32 o.data j) (lane 32 old j) % 2 ^ 32)
               ∧ (o.rty = 2#2 → ∀ j < 64, lane 16 r j = fl .bf16 (lane 16 o.data j) (lane 16 old j) % 2 ^ 16))
           ∧ (o.poison = false → owned = false → ¬ wrong → o.rty = 3#2 →
               (∀ k < 4, ∀ j (h : j < (block k).els.length), j < 32 → lane 8 r (32 * k + j) = (block k).els[j] % 2 ^ 8)
               ∧ t.dev.mem = ((List.range 4).foldl (fun (d : Dev) k => d.write (scaleKey k) [BitVec.ofNat 8 (block k).scale])
                   (s.dev.bankWrite m bf bank off (leBytes 128 r.toNat))).mem
               ∧ t.dev.tiles[m].sr.xrncnt
                   = BitVec.ofNat 32 (satAdd s.dev.tiles[m].sr.xrncnt.toNat ((List.range 4).filter fun k => (block k).nan).length)
               ∧ t.dev.tiles[m].sr.xrscnt
                   = BitVec.ofNat 32 (satAdd s.dev.tiles[m].sr.xrscnt.toNat ((List.range 4).map fun k => (block k).sat).sum))
           ∧ (o.poison = true ∨ owned = true ∨ wrong → t.dev.mem = s.dev.mem
               ∧ (o.poison = true → t.dev.tiles[m].sr.pdcnt = BitVec.ofNat 32 (satAdd s.dev.tiles[m].sr.pdcnt.toNat 1))
               ∧ (owned = true → t.dev.tiles[m].sr.tstat.getLsbD 5 = true)
               ∧ (wrong → t.dev.tiles[m].sr.xrncnt = BitVec.ofNat 32 (satAdd s.dev.tiles[m].sr.xrncnt.toNat 4)))))
    ∧ (o.kind = .xrcvf → 1 ≤ s.dev.tiles[n].sr.sem[o.sem].toNat →
        (o.scope < 3 ∨ ∀ q : Fin 32, ∀ l ∈ s.dev.quads[q].slc, l.copy = none) →
        (let A := o.addr.toNat
         let takes := fun (l : List Byte) => ∃ t, exec (.xrcvfTake n 0) s = .next t ∧ t.dev.mem = s.dev.mem
           ∧ t.dev.tiles[n].sr.sem[o.sem] = s.dev.tiles[n].sr.sem[o.sem] - 1#32
           ∧ ∃ q, t.dev.tiles[n].ops = [q] ∧ q.stage = .performed ∧ q.ls = o.ls ∧ q.data = BitVec.ofNat 1024 (leNat l)
         (∀ a, A = 0x1000000 + a → a + o.size ≤ 0x180000 → takes (s.dev.bytes (vaultKey n a) o.size))
         ∧ (A < 2 ^ 20 → A % 65536 + o.size ≤ 65536 → takes ((List.range o.size).map fun i =>
             s.dev.byte (bankKey n s.dev.tiles[n].sr.bfmt[idx 16 (A / 65536)] (A / 65536) (A % 65536 + i)))))))
  ∧ (∀ (s : State) (n : Fin 128) (i : Nat) (o : MemOp), s.dev.tiles[n].ops[i]? = some o → s.dev.working n = true → o.entry = true →
      o.stage = .issued → (o.kind = .stv ∨ o.kind = .semv ∨ (o.kind = .sndr ∧ o.tspRead = none)) →
      exec (.outboundAccept n i) s = .next (s.onDev fun d => d.onTile n fun t =>
        { t with ops := t.ops.set i { o with entry := false, stage := .accepted } }))
  ∧ (∀ (s : State) (f : SeamFlit) (r : List SeamFlit) (o : MemOp), s.dev.far = f :: r → f.sdev = s.dev.mc.config.spdev →
      s.dev.tiles[idx 128 f.stile].ops = [o] → o.kind = .xfar → o.stage = .accepted → o.n = f.stile → o.addr = f.far → o.sem = f.sem → o.data = f.data →
      s.dev.routers[idx 128 f.stile].fence = 0#4 → fieldOf f.far 52 8 = s.dev.mc.config.spdev →
    (let b := idx 32 (fieldOf f.far 47 5)
     let n := idx 128 (fieldOf f.far 40 7)
     let size := if f.big then 128 else 8
     let a := fieldOf f.far 0 32
     s.dev.routers[n].fence = 0#4 → s.dev.boltValid b = true → s.dev.boltHasQuad b (quadOf n) = true →
      (∃ e ∈ s.dev.mc.config.spacl[b], e.1 = s.dev.mc.config.spdev ∧ e.2.getLsbD f.sbolt = true) → s.dev.working n = true →
      (let bf := s.dev.tiles[n].sr.bfmt[idx 16 (a / 65536)]
       let place := fun i => bankKey n bf (a / 65536) (a % 65536 + i)
       let ends := fun (f' : State → Prop) => ∃ t, exec (.xfarDelivery 0) s = .next t ∧ t.dev.far = r ∧ t.dev.tiles[idx 128 f.stile].ops = []
         ∧ t.dev.tiles[n].sr.sem[f.sem] = BitVec.ofNat 32 (min (s.dev.tiles[n].sr.sem[f.sem].toNat + 1) 0xffffffff) ∧ f' t
       (0x1000000 ≤ a → a + size ≤ 0x1000000 + 0x180000 → ends fun t =>
          t.dev.mem = memWriteList s.dev.mem (vaultKey n (a - 0x1000000)) (leBytes size f.data.toNat))
       ∧ (a < 2 ^ 20 → a % 65536 + size ≤ 65536 → s.dev.tiles[n].owned (a / 65536) = false → bfmtBad bf = false → memWf s.dev.mem = true → ends fun t =>
          (∀ i < size, memRead t.dev.mem (place i) = f.data.extractLsb' (8 * i) 8)
          ∧ ∀ k, (∀ i < size, k ≠ place i) → memRead t.dev.mem k = memRead s.dev.mem k))))

/-- For the only variable-latency operation of a tile, where nothing holds it: (a) with no open fault on its page, and a present,
permitted leaf found in the tile's TLB, the quad's TLB or a fresh walk, in bolt memory or, untranslated and not refused, in the
memory of a host on a CXL port, and whatever device lines the slices hold, GLOBAL_ACCESS_PERFORM completes: a store writes its
bytes at the address that the leaf and the page offset give and is gone; a load takes the bytes there and leaves memory as it
is; an atomic takes the old word and writes the new one, a failed cas nothing. (b) On a PCIe port with empty slices a load takes
the bytes there too; a store at .dev or .sys writes them, and a weak one without a hint keeps them in a line of the slice alone
(log entry 45). (c) An open fault of the page is joined before the translation (log entry 50). (d) A walk that ends in a
recoverable fault opens the fault and queues its record, and the operation waits on it; one that ends in an unrecoverable fault
ends the operation, a store without effect, a load as failed. In (c) and (d) memory is as before. What log entries 45 and 50 say
is the model's choice. (09_isa_memory_exchange.md (R226, R227, R229, R231, R232), 16_translation_faults.md (R378, R380, R382,
R383, R386, R387, R389, R393), 11_consistency.md (R296), 04_registers_memory.md (R114, R116).) -/
def Obligations.GlobalAccessesPerform : Prop :=
  ∀ (s : State) (n : Fin 128) (b : Fin 32) (p : Panel) (o : MemOp),
    s.dev.tiles[n].ops = [o] → s.dev.ready n 0 = some o → s.dev.boltOf n = some b → s.dev.panelOf n = some p →
    (o.kind = .ldg ∨ o.kind = .stg ∨ o.kind = .amoG) →
    (let d := s.dev
     let dva := o.addr.toNat
     let acc := o.kind.access
     let gen := d.genOf p.vdev
     let hit := match tlbFind d.tiles[n].tlb p.vdev gen dva with | some e => some e | none => tlbFind d.quads[quadOf n].tlb p.vdev gen dva
     let cold := hit = none ∧ d.quads[quadOf n].walk = []
     let leaf := fun (lvl : Nat) (pte : W64) => leafFault acc pte = none
       ∧ ((∃ e, hit = some e ∧ e.level = lvl ∧ e.pte = pte)
          ∨ ((cold ∨ ∃ e, hit = some e ∧ leafFault acc e.pte ≠ none) ∧ (d.walkFresh b p.vdev dva).1 = .leaf lvl pte))
     let off := fun (lvl : Nat) (pte : W64) => pteAddr pte + dva % 2 ^ levelShift lvl
     let port := fun (pte : W64) => if pteLoc pte = 1 then (0 : Fin 2) else 1
     let host := fun (lvl : Nat) (pte : W64) => pteLoc pte ≠ 0 ∧ (d.asFlags b p.vdev).getLsbD 0 = false
       ∧ Config.hostRefuses (port pte) (d.functionOf p.vdev) (d.pasidOf p.vdev) (off lvl pte) (d.sendsT p.vdev) = false
     let opened := d.openOn b p.vdev gen (dva / 4096) acc
     let next := fun (f : State → Prop) => ∃ t, exec (.globalAccessPerform n 0) s = .next t ∧ f t
     let loads := fun (t : State) (k : Nat) => t.dev.mem = d.mem ∧ ∃ q, t.dev.tiles[n].ops = [q] ∧ q.stage = .performed ∧ q.ls = o.ls
       ∧ q.data = BitVec.ofNat 1024 (leNat (d.bytes k o.size))
     let stores := fun (t : State) (k : Nat) => t.dev.tiles[n].ops = [] ∧ t.dev.mem = memWriteList d.mem k (leBytes o.size o.data.toNat)
     (∀ lvl pte k, opened = none → leaf lvl pte → (∀ q : Fin 32, ∀ l ∈ d.quads[q].slc, l.copy = none) →
        ((pteLoc pte = 0 ∧ d.bpaKey b (off lvl pte) = some k ∧ k < 2 ^ 64)
          ∨ (host lvl pte ∧ d.ports[port pte].cxl = true ∧ k = hostKey (port pte) (off lvl pte))) →
        next fun t => (o.kind = .stg → stores t k) ∧ (o.kind = .ldg → loads t k)
          ∧ (o.kind = .amoG → (let old := d.dword k
              t.dev.mem = (if o.amo = .cas ∧ old ≠ o.data2 then d.mem
                else memWriteList d.mem k (leBytes 8 (amoNew o.amo old (o.data.setWidth 64) o.data2).toNat))
              ∧ ∃ q, t.dev.tiles[n].ops = [q] ∧ q.stage = .performed ∧ q.ls = o.ls ∧ q.data.setWidth 64 = old)))
     ∧ (∀ lvl pte, opened = none → leaf lvl pte → (∀ q : Fin 32, d.quads[q].slc = []) → host lvl pte → d.ports[port pte].cxl = false →
        (let k := hostKey (port pte) (off lvl pte)
         (o.kind = .ldg → next fun t => loads t k)
         ∧ (o.kind = .stg → o.strong = true → 3 ≤ o.scope → next fun t => stores t k)
         ∧ (o.kind = .stg → o.strong = false → o.rel = false → o.acq = false → o.hint = 0#2 → next fun t => t.dev.tiles[n].ops = [] ∧ t.dev.mem = d.mem
             ∧ ∃ l, t.dev.quads[d.sliceOf b k].slc = [l] ∧ l.key = k / 128 ∧ l.copy.isSome = true ∧ l.space = some p.vdev
               ∧ l.written = BitVec.ofNat 128 ((2 ^ o.size - 1) * 2 ^ (k % 128)))))
     ∧ (∀ f, opened = some f → exec (.globalAccessPerform n 0) s = .next (s.onDev fun d => d.setOp n 0 { o with wait := .fault f.id }))
     ∧ (∀ k lvl pte, d.bolts[b].faults = [] → d.bolts[b].faultq.length < 1024 → cold →
        ((d.walkFresh b p.vdev dva).1 = .fault k lvl pte ∨ ((d.walkFresh b p.vdev dva).1 = .leaf lvl pte ∧ leafFault acc pte = some k)) →
        k ≠ .migrate → k ≠ .hostPrq → next fun t => t.dev.mem = d.mem
          ∧ (∃ r, t.dev.bolts[b].faultq = d.bolts[b].faultq ++ [r] ∧ recField r 0x00 1 = k.code ∧ recField r 0x08 8 = dva
              ∧ recField r 0x03 1 = (if k.recoverable then 1 else 0))
          ∧ (k.recoverable = true → t.dev.tiles[n].ops = [{ o with wait := .fault d.bolts[b].nextFault }]
              ∧ t.dev.bolts[b].faults = [{ id := d.bolts[b].nextFault, space := p.vdev, gen := gen, kind := k, page := dva / 4096, opened := d.dcc }])
          ∧ (k.recoverable = false → (o.kind = .stg → o.ls = none → t.dev.tiles[n].ops = [])
              ∧ (o.ls.isSome = true → t.dev.tiles[n].ops = [{ o with stage := .performed, failed := true, wait := .no }]))))

/-- In a bolt of Q quads, the address a < Q × 8 GiB lies in the memory of the quad of ordinal g mod Q in ascending quad number, at
offset (g div Q) × 4,096 + a mod 4,096 of its channel, with g = a div 4,096; no other address exists. A walk reads its table
entries, and the address-space table its roots, at such addresses alone: where the address does not exist, the entry is not read
and the walk ends malformed, with PTE 0 (the model's choice, log entry 95). (16_translation_faults.md (R378, R381, R382).) -/
def Obligations.BoltPhysicalAddresses : Prop :=
  ∀ (d : Dev) (b : Fin 32),
    (let Q := (d.boltQuads b).length
     (∀ a, a < Q * (8 * 2 ^ 30) → ∃ q, (d.boltQuads b)[a / 4096 % Q]? = some q
        ∧ d.bpaKey b a = some (2 ^ 40 + q.val * 2 ^ 33 + (a / 4096 / Q * 4096 + a % 4096)))
     ∧ (∀ a, Q * (8 * 2 ^ 30) ≤ a → d.bpaKey b a = none)
     ∧ (d.boltQuads b).Pairwise (fun x y => x.val < y.val) ∧ (∀ q, q ∈ d.boltQuads b ↔ d.boltHasQuad b q = true)
     ∧ (∀ dva n tbl, d.bpaKey b (tbl + 8 * levelIndex dva n) = none → d.walkFrom b dva (n + 1) tbl = (.fault .malformed n 0#64, []))
     ∧ (∀ space dva, d.bpaKey b (32 * space) = none → d.walkFresh b space dva = (.fault .malformed 0xff 0#64, [])))

/-- BARRIER_ARRIVAL completes: a tile whose group mask holds its own rank and only ranks of the panel, and agrees with every mask
held on the group, is held from this cycle on; otherwise it raises illegal-operand detail 4 (of tiles that arrive on one cycle
the lower rank counts as held first, the model's choice, log entry 86). The close of a cycle's issue that raised nothing sets
the release of a held tile to four cycles later exactly where every rank of its mask has halted or is held on the same group
without a release. BARRIER_RELEASE completes by letting every tile pass that is held on the group with this cycle as its
release, and no other. TIMING_FAULT completes by raising TIMING with its subcauses in one tile: for a freeze the lowest-ranked
that owns an FRZ slot in WAIT whose due cycle it is, or else that waits in tkw on a pending token; for a hold the lowest-ranked
whose hold is over the limit; for a stitch the tile of rank 0. No register and no memory changes. (02_execution.md (R43, R44,
R45, R46).) -/
def Obligations.BarriersAndTimingFaults : Prop :=
  (∀ (s : State) (n : Fin 128) (p : Panel) (g : Fin 8), s.dev.panelOf n = some p →
    (let t := s.dev.tiles[n]
     let m := if g = 0 then 0#128 else t.sr.gm[idx 7 (g.val - 1)]
     let ok := m.getLsbD t.rank = true ∧ m.toNat < 2 ^ p.size
       ∧ ∀ k ∈ p.tiles, ∀ x, s.dev.tiles[k].c.held = some x → x.group = g → x.mask = m
     (ok → exec (.barrierArrival n g) s = .next (s.onDev fun d => d.onTile n fun t =>
         { t with c := { t.c with held := some { group := g, mask := m, cycles := 1, release := none } } }))
     ∧ (¬ ok → ∃ u, exec (.barrierArrival n g) s = .next u ∧ u.dev.tiles = s.dev.tiles
         ∧ ∃ r : Raise, u.dev.raised = s.dev.raised ++ [r] ∧ r.tile = n ∧ r.cause = causeIllop ∧ r.detail = 4 ∧ r.late = false)))
  ∧ (∀ (s : State) (h : Nat) (p : Panel) (r : List Micro), s.agenda = .endIssue h :: r → s.dev.panel h = some p → s.dev.raised = [] →
      s.dev.timingMask p = 0 → p.tiles.Nodup → ∃ t, step s = .next t ∧ ∀ n ∈ p.tiles, ∀ x, s.dev.tiles[n].c.held = some x → x.release = none →
        (let all := ∀ k < p.size, x.mask.getLsbD k = true → s.dev.tiles[p.tile k].c.halted = true
           ∨ ∃ y, s.dev.tiles[p.tile k].c.held = some y ∧ y.group = x.group ∧ y.release = none
         (all → t.dev.tiles[n].c.held = some { x with release := some (p.psc + 4) }) ∧ (¬ all → t.dev.tiles[n].c.held = some x)))
  ∧ (∀ (s : State) (h : Nat) (p : Panel) (g : Fin 8), s.dev.panel h = some p → p.tiles.Nodup →
      ∃ t, exec (.barrierRelease h g) s = .next t ∧ t.dev.mem = s.dev.mem ∧ ∀ n : Fin 128,
        (∀ x, n ∈ p.tiles → s.dev.tiles[n].c.held = some x → x.group = g → x.release = some p.psc →
          t.dev.tiles[n] = { s.dev.tiles[n] with c := { s.dev.tiles[n].c with held := none, passed := true } })
        ∧ ((n ∉ p.tiles ∨ s.dev.tiles[n].c.held = none ∨ ∃ x, s.dev.tiles[n].c.held = some x ∧ (x.group ≠ g ∨ x.release ≠ some p.psc)) →
          t.dev.tiles[n] = s.dev.tiles[n]))
  ∧ (∀ (s : State) (h : Nat) (p : Panel) (sub : BitVec 4) (k : Nat), s.dev.panel h = some p → k < p.size →
      (let lowest := fun (f : Fin 128 → Prop) => f (p.tile k) ∧ ∀ j < k, ¬ f (p.tile j)
       let landing := lowest fun n => ∃ ls : Fin 64, (s.dev.tiles[n].lands[ls]).st = .wait ∧ s.dev.tiles[n].lands[ls].psn = false
         ∧ s.dev.tiles[n].lands[ls].due = p.psc
       let token := lowest fun n => s.dev.waitsInTkw n = true
       let hold := lowest fun n => ∃ x, s.dev.tiles[n].c.held = some x ∧ p.pstall < x.cycles
       (if sub.getLsbD 0 then landing else if sub.getLsbD 1 then token else if sub.getLsbD 2 then hold else k = 0) →
       ∃ t, exec (.timingFault h sub) s = .next t ∧ t.dev.tiles = s.dev.tiles ∧ t.dev.mem = s.dev.mem
        ∧ ∃ r : Raise, t.dev.raised = s.dev.raised ++ [r] ∧ r.cause = causeTiming ∧ r.detail = sub.toNat ∧ r.tile = p.tile k ∧ r.late = false))

/-- With a token that is not PENDING and, for a record in the TSP, an unpoisoned address below 2^20, a multiple of 64 and in no bank
of a preload, each command with a record completes: its token is PENDING with counts and replay entries cleared, the record's
TAG and a transfer that holds the record as read before any write of the cycle, bound to the productions of the consumed tokens
that are PENDING; a poisoned address produces a FAILED token with status 2. ce.rep of a PARTIAL token moves its record, formats
and missing chunks to the new token and frees it; ce.can ends a PENDING or PARTIAL token FAILED with status 5 and does nothing
to another; ce.stat queues the field it names with latency 2, 0 for a FREE token. Nothing else changes. (10_isa_copy.md (R255,
R256, R257, R272, R273, R274, R275), 02_execution.md (R41, R47).) -/
def Obligations.CopyCommandsIssue : Prop :=
  ∀ (s : State) (n : Fin 128), s.cur = .tile n →
    (∀ (tp : Fin 32) (rs : RecSrc), (s.dev.tiles[n].toks[tp]).st ≠ .pending →
      (let made := fun (x : Option Xfer) (tag : W64) (st : TokSt) (status : Byte) (u : Tile) =>
         { u with rep := u.rep.filter fun e => e.tok != tp,
                  toks := u.toks.set tp { st := st, status := status, bytes := 0, nanblk := 0, satcnt := 0, crc := 0#32, tag := tag,
                                          prod := u.toks[tp].prod + 1, xfer := x } }
       let does := fun (i : Instr) (c : XCmd) =>
         (∀ r, rs = .tsp r → s.poisonS r = false ∧ (s.readS r).toNat < 2 ^ 20 ∧ (s.readS r).toNat % 64 = 0
            ∧ s.dev.tiles[n].owned ((s.readS r).toNat / 65536) = false) →
           ∃ x : Xfer, exec i s = .next (s.onDev fun d => d.onTile n (made (some x) x.tag .pending 0#8))
             ∧ x.cmd = c ∧ x.started = false ∧ x.replay = false ∧ x.todo = [] ∧ x.row = 0 ∧ x.elem = 0 ∧ x.issue = s.psc
             ∧ (match rs with
                | .low => ∀ j : Fin 8, x.record.extractLsb' (64 * j.val) 64 = s.start.tiles[n].r.d[j.val]
                | .high => ∀ j : Fin 8, x.record.extractLsb' (64 * j.val) 64 = s.start.tiles[n].r.d[8 + j.val]
                | .tsp r => let a := (s.readS r).toNat
                  x.record = BitVec.ofNat 512 (leNat (s.start.bankBytes n (s.start.tiles[n].sr.bfmt[idx 16 (a / 65536)]) (a / 65536) (a % 65536) 64)))
             ∧ (∀ k p, (k, p) ∈ x.waits ↔ k ∈ x.consumed ∧ (s.dev.tiles[n].toks[k]).st = .pending ∧ p = s.dev.tiles[n].toks[k].prod)
             ∧ (x.bad = true ↔ ∃ k ∈ x.consumed, (s.dev.tiles[n].toks[k]).st = .part ∨ (s.dev.tiles[n].toks[k]).st = .failed)
       does (.ceGo tp rs) .go ∧ does (.ceGor tp rs) .gor ∧ does (.ceGat tp rs) .gat ∧ does (.ceSca tp rs) .sca ∧ does (.ceFill tp rs) .fill
         ∧ does (.ceRed tp rs) .red ∧ does (.ceIsp tp rs) .isp
         ∧ ∀ r, rs = .tsp r → s.poisonS r = true →
             ∀ i ∈ [Instr.ceGo tp rs, .ceGor tp rs, .ceGat tp rs, .ceSca tp rs, .ceFill tp rs, .ceRed tp rs, .ceIsp tp rs], ∃ t, exec i s = .next t
               ∧ (t.dev.tiles[n].toks[tp]).st = .failed ∧ t.dev.tiles[n].toks[tp].status = 2#8 ∧ t.dev.tiles[n].toks[tp].xfer = none))
    ∧ (∀ (tp ts : Fin 32) (x : Xfer), (s.dev.tiles[n].toks[ts]).st = .part → (s.dev.tiles[n].toks[tp]).st ≠ .pending →
        s.dev.tiles[n].toks[ts].xfer = some x →
        exec (.ceRep tp ts) s = .next (s.onDev fun d => d.onTile n fun u =>
          let own := (u.rep.filter fun e => e.tok == ts).map RepEnt.piece
          let y : Xfer := { x with rowAt := none, replay := true, todo := own ++ x.tail.toList ++ x.todo, tail := none, noMore := false, fail := none,
                                   wait := .no, issue := s.psc }
          let l := if tp = ts then u.toks else u.toks.set ts { u.toks[ts] with st := .free, xfer := none }
          { u with rep := u.rep.filter fun e => e.tok != ts && e.tok != tp,
                   toks := l.set tp { st := .pending, status := 0#8, bytes := 0, nanblk := 0, satcnt := 0, crc := 0#32, tag := x.tag,
                                      prod := u.toks[tp].prod + 1, xfer := some y } }))
    ∧ (∀ k : Fin 32,
        (let st := (s.dev.tiles[n].toks[k]).st
         ((st = .part ∨ st = .pending ∧ s.dev.tiles[n].toks[k].xfer.isSome) → ∃ t, exec (.ceCan k) s = .next t
            ∧ (t.dev.tiles[n].toks[k]).st = .failed ∧ t.dev.tiles[n].toks[k].status = 5#8 ∧ t.dev.tiles[n].toks[k].xfer = none
            ∧ (∀ e ∈ t.dev.tiles[n].rep, e.tok ≠ k) ∧ t.dev.tiles[n].r = s.dev.tiles[n].r ∧ t.dev.tiles[n].ops = s.dev.tiles[n].ops)
         ∧ (st ≠ .part → st ≠ .pending → exec (.ceCan k) s = .next s)))
    ∧ (∀ d k : Fin 32,
        (let u := s.start.tiles[n]
         let x := u.toks[k]
         let res := fun (i : Instr) (v : Nat) => exec i s = .next (s.putS 2 d (BitVec.ofNat 64 (if x.st = .free then 0 else v)) false)
         res (.ceStatSt d k) (x.st.code + 2 ^ 8 * x.status.toNat
             + 2 ^ 16 * ((u.rep.filter fun e => e.tok == k).length + if (x.xfer.bind Xfer.tail).isSome then 1 else 0))
           ∧ res (.ceStatBytes d k) x.bytes ∧ res (.ceStatEv d k) (x.nanblk + 2 ^ 32 * x.satcnt)
           ∧ res (.ceStatCrc d k) x.crc.toNat ∧ res (.ceStatTag d k) x.tag.toNat))

/-- With the engine of the tile running, a pending transfer whose tokens have resolved starts with the bank formats sampled, or ends
FAILED with status 1 (a consumed token failed), 4, 3 or 0x0B by its record; a raw ce.go chunk in the own vault moves the bytes
up to the next sector boundary of either side, adds them to BYTES, and ends DONE with the last one. A loading panel that alone
is ready runs from PSC 0 with its tiles in the initial state of R55. A running panel of which every tile has halted and is
quiet, with nothing of the cut with the placer, completes its cut: its panel is gone, its tiles and their TSPs are reset, PDROP
grows by their PDCNT and the launch's status by theirs. A service core with IE set enters its handler for the lowest event cause
pending, with SEPC the next bundle, also from within the cycles of an idle bundle. (10_isa_copy.md (R257, R262, R269, R270),
02_execution.md (R42, R55, R56), 14_privilege_traps_context.md (R320, R321), 15_bolts_scheduling.md (R360).) -/
def Obligations.TransfersCutsAndHandlerEntries : Prop :=
  (∀ (s : State) (n : Fin 128) (k : Fin 32) (x : Xfer), s.dev.engineRuns n = true → (s.dev.tiles[n].toks[k]).st = .pending →
    s.dev.tiles[n].toks[k].xfer = some x → x.started = false → (x.bad = true ∨ x.waits = []) →
    (let y : Xfer := { x with started := true, banks := s.dev.tiles[n].sr.bfmt }
     let fails := fun (c : Byte) => ∃ t, exec (.transferStart n k) s = .next t ∧ (t.dev.tiles[n].toks[k]).st = .failed
       ∧ t.dev.tiles[n].toks[k].status = c ∧ t.dev.mem = s.dev.mem
     (x.bad = true → fails 1#8)
     ∧ (x.bad = false → y.badRecord = true → fails 4#8)
     ∧ (x.bad = false → y.badRecord = false → y.badBounds s.dev.tiles[n] (s.dev.panelSize n) = true → fails 3#8)
     ∧ (x.bad = false → y.badRecord = false → y.badBounds s.dev.tiles[n] (s.dev.panelSize n) = false → y.overlaps = true → fails 0x0b#8)
     ∧ (x.bad = false → y.badRecord = false → y.badBounds s.dev.tiles[n] (s.dev.panelSize n) = false → y.overlaps = false →
          exec (.transferStart n k) s = .next (s.onDev fun d => d.onTile n fun u =>
            { u with c := { u.c with engineGo := false }, toks := u.toks.set k { u.toks[k] with xfer := some y } }))))
  ∧ (∀ (s : State) (n : Fin 128) (k : Fin 32) (b : Fin 32) (x : Xfer) (p : Piece) (os od : Nat), memWf s.dev.mem = true →
    s.dev.chunkReady n k = some x → s.dev.boltOf n = some b → x.cmd = .go → x.sfmt = 0 → x.dfmt = 0 → x.head = some p → 0 < p.count →
    rowAddr x.src x.spitch p.row + p.first = 2 ^ 63 + 0x1000000 + os → rowAddr x.dst x.dpitch p.row + p.first = 2 ^ 63 + 0x1000000 + od →
    (let m := min p.count (min (128 - os % 128) (128 - od % 128))
     let y := x.take m
     os + m ≤ programArea → od + m ≤ programArea → s.dev.bad (vaultKey n os) m = false → s.dev.bad (vaultKey n od) m = false → (∀ q : Fin 32, ∀ l ∈ s.dev.quads[q].slc, l.copy = none) →
       ∃ t, exec (.chunkComplete n k) s = .next t
         ∧ t.dev.bytes (vaultKey n od) m = s.dev.bytes (vaultKey n os) m
         ∧ (∀ j, (j < vaultKey n od ∨ vaultKey n od + m ≤ j) → memRead t.dev.mem j = memRead s.dev.mem j)
         ∧ t.dev.tiles[n].toks[k].bytes = s.dev.tiles[n].toks[k].bytes + m
         ∧ (y.ended = false → (t.dev.tiles[n].toks[k]).st = .pending ∧ t.dev.tiles[n].toks[k].xfer = some { y with wait := .no })
         ∧ (y.ended = true → y.fail = none → y.tail = none → (∀ e ∈ s.dev.tiles[n].rep, e.tok ≠ k) → (t.dev.tiles[n].toks[k]).st = .done)))
  ∧ (∀ (s : State) (p : Panel) (v : Vdev) (l : Launch) (d : Dev) (img : List Byte), s.dev.panel p.handle = some p → p.phase = .loading →
    s.dev.vdev p.vdev = some v → s.dev.launch p.vdev p.launch = some l →
    (∀ q ∈ s.dev.starters p, q.startAt ≤ s.dev.dcc ∧ q.wait.free = true ∧ s.dev.undrained q = false) →
    Dev.readyAll v l (s.dev.starters p) s.dev = (d, some [(p, .load img)]) →
    ∃ t, exec (.cutStart p.handle) s = .next t
      ∧ (∀ q ∈ t.dev.panels, q.handle = p.handle → q.phase = .running ∧ q.psc = 0 ∧ q.pstall = bytesField img 0x12 2
          ∧ q.pstitch = bytesField img 0x14 2 ∧ q.beats = [])
      ∧ ∀ n ∈ p.tiles, (let u := t.dev.tiles[n]
          u.r.s[1] = l.arg ∧ (∀ i : Fin 32, i.val ≠ 1 → u.r.s[i] = 0#64) ∧ (∀ i : Fin 8, u.r.ma[i] = 0xffffffff#32 ∧ u.r.mb[i] = 0xffffffff#32)
          ∧ u.r.sPoison = 0#32 ∧ u.c.pc = BitVec.ofNat 32 (bytesField img 0x18 4) ∧ u.c.halted = false ∧ u.ops = [] ∧ u.flight = []
          ∧ (∀ j : Fin 32, (u.toks[j]).st = .free) ∧ (∀ j : Fin 64, (u.lands[j]).st = .free) ∧ u.sr.bfmt = imgBfmt img
          ∧ u.sr.wid = l.wid p.cut (u.rank % p.w) (u.rank / p.w)))
  ∧ (∀ (s : State) (p : Panel), s.dev.panel p.handle = some p → p.phase = .running → p.pre = none →
    (∀ n ∈ p.tiles, (s.dev.tiles[n]).quiet p.psc = true) → (∀ q : Fin 32, ∀ l ∈ s.dev.quads[q].slc, l.copy = none) →
    (∀ y ∈ s.dev.posted, ¬ (y.vdev = p.vdev ∧ y.launch = p.launch ∧ y.cut = p.cut)) →
    ∃ t, exec (.cutComplete p.handle) s = .next t
      ∧ t.dev.panels = s.dev.panels.filter (fun q => q.handle != p.handle)
      ∧ (∀ n ∈ p.tiles, t.dev.tiles[n] = { Tile.reset with owner := (s.dev.tiles[n]).owner, tlb := (s.dev.tiles[n]).tlb, drain := (s.dev.tiles[n]).drain, drainWait := (s.dev.tiles[n]).drainWait }
          ∧ ∀ o < 2 ^ 20, t.dev.byte (tspKey n o) = 0#8)
      ∧ (∀ n, n ∉ p.tiles → t.dev.tiles[n] = s.dev.tiles[n])
      ∧ t.dev.bolts[p.bolt].counters[8] = satAdd s.dev.bolts[p.bolt].counters[8] (sumList (p.tiles.map fun n => (s.dev.tiles[n]).sr.pdcnt.toNat))
      ∧ ∀ l l', s.dev.launch p.vdev p.launch = some l → t.dev.launch p.vdev p.launch = some l' →
          l'.status = l.status ||| p.tiles.foldl (fun x n => x ||| (s.dev.tiles[n]).cutStatus) 0#32)
  ∧ (∀ (s : State) (q b : Fin 32), (s.dev.svcs[q].run = .run ∨ s.dev.svcs[q].run = .wait) → s.dev.svcs[q].sstat.getLsbD 0 = true →
    s.dev.boltOfQuad q = some b →
    (let enters := fun (cause : W32) => exec (.serviceCoreEventEntry q) s = .next (s.onDev fun d => d.onSvc q fun c =>
       { c with sepc := if 0 < c.idle then afterIdle c.loops c.pc else c.pc, scause := cause, sstat := setBit c.sstat 0 false, pc := c.svec, idle := 0, run := .run,
                mcmsg := c.mcmsg && decide (cause ≠ 0x13#32) })
     let bolt := s.dev.bolts[b]
     (s.dev.svcs[q].trapq ≠ [] → enters 0x10#32)
     ∧ (s.dev.svcs[q].trapq = [] → bolt.faultq ≠ [] → enters 0x11#32)
     ∧ (s.dev.svcs[q].trapq = [] → bolt.faultq = [] → bolt.plcq ≠ [] → enters 0x12#32)
     ∧ (s.dev.svcs[q].trapq = [] → bolt.faultq = [] → bolt.plcq = [] → s.dev.svcs[q].mcmsg = true → enters 0x13#32)))

/-- For a tile of a panel of the core's bolt frozen for a trap or debug halt, tsr queues the word at SPACE and INDEX, tsr.p the
poison bit of its register, tsw writes the word (0 from a poisoned source) and leaves poison, tsw.p writes only the poison; an s
register is SPACE 1, an SPACE above 13 is an illegal operand; a word of the TSP, vault or ISP that holds an uncorrectable error
is read poisoned and ends the panel (log entry 83). tsnap.desc, .addr and .val queue words of an entry, of which 128 to 131 have
no address and no value and take no drop (the model's choice, log entry 39), and tsnap.drop empties an entry below 128. tres.run
releases the panel and clears ELOCK, tres.step releases it for one cycle, tabt and tabt.replay end it with its tiles reset, tabt
with a failure code; the four trap on a panel that is not frozen. tres.halt and tres.lock order a running panel to halt,
tres.lock with ELOCK set, and trap on another. No register of a tile changes but by tsw and tabt, and no memory but by tsw and
tabt. (14_privilege_traps_context.md (R328, R329, R330, R331, R333, R334, R335, R336), 02_execution.md (R34),
04_registers_memory.md (R90).) -/
def Obligations.FrozenPanelOperations : Prop :=
  ∀ (s : State) (q b : Fin 32), s.cur = .svc q → s.dev.boltOfQuad q = some b →
    (let traps := fun (i : Instr) => exec i s = .next (s.svcTrap q 2 0 s.iss.addr)
     (∀ (p : Panel) (n : Fin 128) (d a c : Fin 32) (sp j : Nat), s.dev.boltOf n = some b → s.dev.panelOf n = some p →
       (p.phase = .trap ∨ p.phase = .debug) → sp < 256 → j < 2 ^ 40 → (s.readS a).toNat = n.val * 2 ^ 48 + sp * 2 ^ 40 + j →
       (let v := if s.poisonS c then 0#64 else s.readS c
        let u := s.dev.tiles[n]
        (∀ x, s.dev.tsRead n sp j = some x → s.dev.badWords = [] → s.dev.softWords = [] → exec (.tsr d a) s = .next (s.putS 1 d x false))
        ∧ (∀ x k, s.dev.tsRead n sp j = some x → s.dev.tsKey n sp j = some k → s.dev.bad k 8 = true → s.dev.panel p.handle = some p → p.pre = none →
            ∃ t, exec (.tsr d a) s = .next t ∧ t.dev.panel p.handle = none
              ∧ (d ≠ 0 → t.dev.svcs[q].s[d] = x ∧ t.dev.svcs[q].sPoison.getLsbD d.val = true))
        ∧ (∀ e, s.dev.tsWrite n sp j v = some e → exec (.tsw a c) s = .next { s with dev := e })
        ∧ (∀ e, u.tsPoison sp j = some e → exec (.tsrP d a) s = .next (s.putS 1 d (if e then 1#64 else 0#64) false)
            ∧ exec (.tswP a c) s
                = .next (s.onDev fun x => x.onTile n fun t => t.setTsPoison sp j (!s.poisonS c && (s.readS c).getLsbD 0)))
        ∧ (∀ r : Fin 32, sp = 1 → j = r.val → exec (.tsr d a) s = .next (s.putS 1 d (if r = 0 then 0#64 else u.r.s[r]) false)
            ∧ (r ≠ 0 → exec (.tsw a c) s = .next (s.onDev fun x => x.onTile n fun t => { t with r := { t.r with s := t.r.s.set r v } })))
        ∧ (14 ≤ sp → traps (.tsr d a) ∧ traps (.tsrP d a) ∧ traps (.tsw a c) ∧ traps (.tswP a c))))
     ∧ (∀ (p : Panel) (n : Fin 128) (d a c : Fin 32) (i w : Nat), s.dev.boltOf n = some b → s.dev.panelOf n = some p →
         (p.phase = .trap ∨ p.phase = .debug) → (s.readS a).toNat = n.val → (s.readS c).toNat = i + 256 * w → w < 16 →
       (let res := fun (k : Instr) (x : Nat) => exec k s = .next (s.putS 1 d (BitVec.ofNat 64 x) false)
        let e := s.dev.snapEntry n i
        (i < 128 → res (.tsnapDesc d a c) e.desc ∧ res (.tsnapAddr d a c) e.addr
            ∧ exec (.tsnapVal d a c) s = .next (s.putS 1 d (e.value.extractLsb' (64 * w) 64) false)
            ∧ (∀ j, (s.dev.snaps n)[i]? = some (.work j) → ∃ t, exec (.tsnapDrop a c) s = .next t ∧ t.dev.mem = s.dev.mem
                ∧ t.dev.tiles[n].r = s.dev.tiles[n].r ∧ (∀ f, t.dev.tiles[n].flight[j]? = some f → f.act = .none ∧ f.dest = .none)))
        ∧ (128 ≤ i → i < 132 → res (.tsnapDesc d a c) (s.dev.unitDesc n (i - 128)) ∧ res (.tsnapAddr d a c) 0 ∧ res (.tsnapVal d a c) 0
            ∧ traps (.tsnapDrop a c))
        ∧ (132 ≤ i → i < 256 → traps (.tsnapDesc d a c) ∧ traps (.tsnapAddr d a c) ∧ traps (.tsnapVal d a c) ∧ traps (.tsnapDrop a c))))
     ∧ (∀ (p : Panel) (a : Fin 32),
         s.dev.panels.find? (fun r => r.bolt == b && r.handle % 65536 == (s.readS a).toNat) = some p → s.dev.panel p.handle = some p →
       (let frees := fun (t : State) => t.dev.mem = s.dev.mem ∧ (∀ n : Fin 128, t.dev.tiles[n].r = s.dev.tiles[n].r)
          ∧ ∃ r, t.dev.panel p.handle = some r ∧ r.phase = .running ∧ r.psc = p.psc ∧ r.frozen = (if p.timing then 0 else p.frozen)
        let ends := fun (t : State) => t.dev.panels = s.dev.panels.filter (fun r => r.handle != p.handle)
          ∧ (∀ n ∈ p.tiles, t.dev.tiles[n]
              = { Tile.reset with owner := (s.dev.tiles[n]).owner, tlb := (s.dev.tiles[n]).tlb, drain := (s.dev.tiles[n]).drain, drainWait := (s.dev.tiles[n]).drainWait })
          ∧ (∀ n, n ∉ p.tiles → t.dev.tiles[n] = s.dev.tiles[n])
        ((p.phase = .trap ∨ p.phase = .debug) →
            (∃ t, exec (.tresRun a) s = .next t ∧ frees t ∧ ∀ n ∈ p.tiles, (t.dev.tiles[n]).c.dbgctl.getLsbD 0 = false)
            ∧ (∃ t, exec (.tresStep a) s = .next t ∧ frees t ∧ (t.dev.panel p.handle).any Panel.stepping = true)
            ∧ ((∀ r ∈ s.dev.gangWith p, r.pre = none) → (∃ t, exec (.tabt a) s = .next t ∧ ends t
                ∧ ∀ l l', s.dev.launch p.vdev p.launch = some l → t.dev.launch p.vdev p.launch = some l' →
                    l'.status.extractLsb' 0 8 = if l.status.extractLsb' 0 8 = 0#8 then 6#8 else l.status.extractLsb' 0 8)
              ∧ ∃ t, exec (.tabtReplay a) s = .next t ∧ ends t)
            ∧ traps (.tresHalt a) ∧ traps (.tresLock a))
        ∧ (p.phase = .running → traps (.tresRun a) ∧ traps (.tresStep a) ∧ traps (.tabt a) ∧ traps (.tabtReplay a)
            ∧ exec (.tresHalt a) s = .next (s.onDev fun x => x.onPanel p.handle fun r => { r with haltReq := true })
            ∧ ∃ t, exec (.tresLock a) s = .next t ∧ t.dev.mem = s.dev.mem ∧ (t.dev.panel p.handle).any Panel.haltReq = true
                ∧ ∀ n ∈ p.tiles, (t.dev.tiles[n]).c.dbgctl.getLsbD 0 = true))))

/-- On a service core of a bolt, selw completes by writing SVPANEL of a tile of the bolt under no panel, for a value that is not
valid or lies inside SVBOLT, or SVRATE; tlbi of a well-formed descriptor at a multiple of 32 in local memory adds it to the
invalidations in progress, and waits while 16 are; tlbs returns their number once all have completed and waits before; ctxs and
ctxl of a frozen tile at a multiple of 4096 return 0 when the image has been written or loaded, 3 where the place does not
translate, and ctxs 2, with the panel aborted, where a bank holds an uncorrectable error (log entry 83), ctxl 1 for bytes that
are no image; bytes that ctxs wrote of the tile under this panel bring its state back as it stood then, from what is kept beside
them (the model's choice, log entry 24); fqpop writes the oldest record (for faults, of a current generation, with older ones
counted as stale) to local memory and returns 1, or returns 0; trpret sets IE and goes to SEPC. (14_privilege_traps_context.md
(R319, R320, R321, R330, R346), 15_bolts_scheduling.md (R350, R352), 16_translation_faults.md (R390, R391, R392).) -/
def Obligations.ServiceCoreOperations : Prop :=
  ∀ (s : State) (q b : Fin 32), s.cur = .svc q → s.dev.boltOfQuad q = some b →
    ((∀ (n : Fin 128) (a c : Fin 32), s.dev.boltOf n = some b →
       ((s.readS a).toNat = n.val + 256 → s.dev.panelOf n = none →
          ((s.readS c).getLsbD 14 = false ∨ svInside (s.readS c) s.dev.routers[n].svbolt = true) →
          exec (.selw a c) s = .next (s.onDev fun d => d.onRouter n fun r => { r with svpanel := s.readS c &&& 0x7fff#64 }))
       ∧ ((s.readS a).toNat = n.val + 512 →
          exec (.selw a c) s = .next (s.onDev fun d => d.onRouter n fun r => { r with svrate := (s.readS c).setWidth 8 })))
     ∧ (∀ a : Fin 32, (s.readS a).toNat % 32 = 0 → (s.readS a).toNat < 2 ^ 18 →
         (let does := fun (i : Instr) (sub : Fin 3) =>
            let x := s.dev.invalAt q (s.readS a).toNat sub
            (s.dev.badInval q b (s.readS a).toNat x = true → exec i s = .next (s.svcTrap q 2 0 s.iss.addr))
            ∧ (s.dev.badInval q b (s.readS a).toNat x = false →
                (s.dev.svcs[q].invals.length < 16 →
                  exec i s = .next (s.onDev fun d => d.onSvc q fun c => { c with invals := c.invals ++ [x] }))
                ∧ (16 ≤ s.dev.svcs[q].invals.length → exec i s = .next s.svcRetry))
          does (.tlbiPage a) 0 ∧ does (.tlbiPasid a) 1 ∧ does (.tlbiBolt a) 2))
     ∧ (∀ d : Fin 32,
         (s.dev.svcs[q].invals = [] → exec (.tlbs d) s
            = .next ((s.putS 1 d (BitVec.ofNat 64 s.dev.svcs[q].invDone) false).onDev fun x => x.onSvc q fun c => { c with invDone := 0 }))
         ∧ (s.dev.svcs[q].invals ≠ [] → exec (.tlbs d) s = .next s.svcRetry))
     ∧ (∀ (p : Panel) (n : Fin 128) (d a c : Fin 32) (x : Dev), s.dev.boltOf n = some b → s.dev.panelOf n = some p →
         (p.phase = .trap ∨ p.phase = .debug) → (s.readS a).toNat = n.val → (s.readS c).toNat % 4096 = 0 →
         (let good := s.dev.banksBad n (BitVec.allOnes 16) = false
          let ends := fun (i : Instr) (y : Dev) (st : W64) => ∃ t, exec i s = .next t ∧ t.dev.mem = y.mem ∧ t.dev.tiles = y.tiles
            ∧ t.dev.svcs[q].plcWait = .no ∧ (d ≠ 0 → t.dev.svcs[q].s[d] = st)
          let image := s.dev.ctxImage n (BitVec.allOnes 21) (BitVec.allOnes 16) true 0
          (good → s.dev.vWrite b (s.ctxAsker q) (s.readS c).toNat image false = (x, .done) → ends (.ctxs d a c) x 0#64)
          ∧ (good → s.dev.vWrite b (s.ctxAsker q) (s.readS c).toNat image false = (x, .fail) → ends (.ctxs d a c) x 3#64)
          ∧ (¬ good → s.dev.panel p.handle = some p → p.pre = none → ∃ t, exec (.ctxs d a c) s = .next t ∧ t.dev.panel p.handle = none
              ∧ (d ≠ 0 → t.dev.svcs[q].s[d] = 2#64))
          ∧ (s.dev.vRead b (s.ctxAsker q) (s.readS c).toNat fixedSize false = (x, .fail) → ends (.ctxl d a c) x 3#64)
          ∧ (∀ h bad, s.dev.vRead b (s.ctxAsker q) (s.readS c).toNat fixedSize false = (x, .bytes h bad) →
              ((bad = true ∨ bytesField h 0 4 ≠ ctxMagic ∨ 2 ^ 21 < ctxLength h) → ends (.ctxl d a c) x 1#64)
              ∧ (bad = false → bytesField h 0 4 = ctxMagic → ctxLength h ≤ 2 ^ 21 →
                  ∀ y l, x.vRead b (s.ctxAsker q) (s.readS c).toNat (ctxLength h) false = (y, .bytes l false) →
                    ctxValid l s.dev.tiles[n].rank p.w p.h = true → bytesField l 8 8 = p.psc →
                    (l = image → ends (.ctxl d a c) y 0#64)
                    ∧ (l ≠ image → ∀ z1 z2 z3 img bi ha ba hb bb,
                        y.readImage p.bolt (y.placerAsker p.bolt p.vdev (y.launchTag p.vdev p.launch) s.dev.svcs[q].plcWait) p.image.toNat = (z1, .bytes img bi) →
                        z1.readHalf p.bolt (y.placerAsker p.bolt p.vdev (y.launchTag p.vdev p.launch) s.dev.svcs[q].plcWait) img (TileCtl.reset.ofImage l).ispA
                          = (z2, .bytes ha ba) →
                        z2.readHalf p.bolt (y.placerAsker p.bolt p.vdev (y.launchTag p.vdev p.launch) s.dev.svcs[q].plcWait) img (TileCtl.reset.ofImage l).ispB
                          = (z3, .bytes hb bb) →
                        bi = false → ba = false → bb = false →
                        (let x : TileLoad := { image := l, halfA := ha, halfB := hb }
                         ends (.ctxl d a c) ((z3.keptCtx n p l).elim (z3.loadCtx n p img x) fun k => z3.reloadCtx n p img x k) 0#64))))))
     ∧ (∀ d a : Fin 32, (s.readS a).toNat % 64 = 0 → (s.readS a).toNat < 2 ^ 18 →
         (let pops := fun (i : Instr) (l : List (BitVec 512)) (f : Dev → Dev) =>
            (∀ r rest, l = r :: rest → exec i s
               = .next ((s.onDev fun x => (f x).write (svcKey q (s.readS a).toNat) (leBytes 64 r.toNat)).putS 1 d 1#64 false))
            ∧ (l = [] → exec i s = .next ((s.onDev f).putS 1 d 0#64 false))
          let faults := s.dev.bolts[b].faultq
          let live := faults.dropWhile fun r => recField r 4 4 != (s.dev.genOf (recField r 0x20 2)).toNat
          pops (.fqpopTrap d a) s.dev.svcs[q].trapq (fun x => x.onSvc q fun c => { c with trapq := c.trapq.drop 1 })
          ∧ pops (.fqpopPlc d a) s.dev.bolts[b].plcq (fun x => x.onBolt b fun y => { y with plcq := y.plcq.drop 1 })
          ∧ pops (.fqpopFault d a) live (fun x => (x.count b 4 (faults.length - live.length)).onBolt b fun y =>
              { y with faultq := live.drop 1 })))
     ∧ (∃ t, exec .trpret s = .next t ∧ t.dev.mem = s.dev.mem ∧ t.dev.svcs[q].sstat = setBit s.dev.svcs[q].sstat 0 true
         ∧ t.dev.svcs[q].pc = s.dev.svcs[q].sepc ∧ t.iss.next = s.dev.svcs[q].sepc ∧ t.iss.taken = true
         ∧ t.dev.svcs[q].s = s.dev.svcs[q].s ∧ t.dev.tiles = s.dev.tiles))

/-- From a service core of the bolt or the host, a placer command with no wait pending completes with status 0 and its effect:
VCREATE of a well-formed descriptor with a free number makes an active vdev of a new generation, VDESTROY of one without placed
or evicted cuts removes it and its reservations, SPOOLSET configures an idle spool, RADMIT of an admissible reservation takes
the lowest free number and its spool, RREMOVE returns the spool, EVICT orders a placed panel evicted, AGE sets the limit; out of
range gives 2, an existing vdev 3, a held cut or a vdev that a TDI freezes (whose TDI moves to ERROR) 5, no admission 4; a spool
at the ring's pointer that is configured anew sets the credit. A controller function answers the register's value for READ, and
for the rest has its effect: WRITE of an RW register, CLEAR of a bolt's counters, FENCE, LOGREAD, LOG, BOLTSET that R349 does
not refuse, COLLAPSE, APPEAL, UPDSTAGE and UPDCOMMIT of a valid image no older than the counter. The model's choice are status 2
of RREMOVE, SPOOLSET ending a reservation, status 5 under a TDI and the first start (log entry 29) and the offset of UPDSTAGE
(log entry 38). (15_bolts_scheduling.md (R348, R349, R353, R356, R365, R366), 18_resilience_power_management.md (R425, R429,
R431, R432, R440, R442), 16_translation_faults.md (R377).) -/
def Obligations.PlacerAndControllerCommands : Prop :=
  (∀ (s : State) (c : Caller) (b : Fin 32) (arg : BitVec 64), s.dev.callerBolt c = some b → (s.dev.plcHeld c).free = true →
    (let done := fun (i : Instr) (y : Dev) (v : Nat) => ∃ t, exec i s = .next t ∧ t.dev = { y with svcs := t.dev.svcs, pf := t.dev.pf }
       ∧ (match c with
          | .svc q r => r ≠ 0 → t.dev.svcs[q].s[r] = BitVec.ofNat 64 v
          | .host _ => t.dev.pf.cstat = BitVec.ofNat 32 v)
     let reads := fun (n : Nat) (d : Dev) (l : List Byte) => match c with
       | .host _ => d = s.dev ∧ l = (leBytes 64 s.dev.pf.cbuf.toNat).take n
       | .svc q _ => s.dev.vRead b { svcAsker q with held := s.dev.plcHeld c } arg.toNat n false = (d, .bytes l false)
     (1 ≤ arg.toNat → arg.toNat ≤ 255 → done (.plcAge c arg) (s.dev.onBolt b fun x => { x with agemax := arg.toNat }) 0)
     ∧ ((arg = 0#64 ∨ 255 < arg.toNat) → done (.plcAge c arg) s.dev 2)
     ∧ (∀ p, s.dev.panels.find? (fun p => p.bolt == b && p.handle % 65536 == arg.toNat && p.phase != .over) = some p →
          done (.plcEvict c arg) (s.dev.orderEvict p .order) 0)
     ∧ (s.dev.resv arg.toNat = none → done (.plcRremove c arg) s.dev 2)
     ∧ (∀ r, s.dev.resv arg.toNat = some r → r.bolt = b → done (.plcRremove c arg)
          ((({ s.dev with resvs := s.dev.resvs.filter fun x => x.num != r.num } : Dev).onVdev r.vdev fun v =>
            v.onSpool r.spool fun x => { x with kind := .best, weight := 1, resv := none }).onBolt b fun x =>
            if x.ptr = 16 * r.vdev + r.spool.val then { x with credit := 1 } else x) 0)
     ∧ (∀ v, s.dev.vdev arg.toNat = some v → v.bolt = b →
          (∀ f, s.dev.frozenBy arg.toNat = some f → done (.plcVdestroy c arg) (s.dev.frozenChange f) 5)
          ∧ (s.dev.frozenBy arg.toNat = none → v.holdsCut = true → done (.plcVdestroy c arg) s.dev 5)
          ∧ (s.dev.frozenBy arg.toNat = none → v.holdsCut = false → ∃ y, done (.plcVdestroy c arg) y 0 ∧ y.vdev arg.toNat = none ∧ ∀ r ∈ y.resvs, r.vdev ≠ arg.toNat))
     ∧ (∀ d l, reads 64 d l →
          (badVdevDesc l b = true → done (.plcVcreate c arg) d 2)
          ∧ (badVdevDesc l b = false → (d.vdev (bytesField l 0 2)).isSome = true → done (.plcVcreate c arg) d 3)
          ∧ (badVdevDesc l b = false → d.vdev (bytesField l 0 2) = none → (d.vdevs.filter fun v => v.bolt == b).length < 32 →
              (let made := Vdev.create (bytesField l 0 2) (BitVec.ofNat 512 (leNat l)) b d.dcc
               done (.plcVcreate c arg) (({ d with vdevs := insertBy Vdev.num made d.vdevs } : Dev).nextGen b (bytesField l 0 2)) 0)))
     ∧ (∀ d l v, reads 32 d l → d.vdev (bytesField l 0 2) = some v → v.bolt = b →
          (let sp := idx 16 (bytesField l 2 1)
           (badSpoolDesc l v = true → done (.plcSpoolset c arg) d 2)
           ∧ (badSpoolDesc l v = false → v.spoolBusy sp = true → done (.plcSpoolset c arg) d 5)
           ∧ (badSpoolDesc l v = false → v.spoolBusy sp = false → d.spoolCount < 1024 →
               (let made : Spool :=
                  { kind := if bytesField l 3 1 = 1 then .best else .off, weight := bytesField l 4 1, feed := bit (bytesField l 5 1) 0,
                    base := BitVec.ofNat 64 (bytesField l 8 8), log2 := bytesField l 0x10 1, head := 0#32, tail := 0#32, resv := none,
                    wait := .no }
                let free := d.resvs.filter fun r => !(r.vdev == bytesField l 0 2 && r.spool == sp)
                done (.plcSpoolset c arg) ((({ d with resvs := free } : Dev).onVdev (bytesField l 0 2) fun v => v.onSpool sp fun _ => made).onBolt b
                  fun x => if x.ptr = 16 * bytesField l 0 2 + sp.val then { x with credit := made.weight } else x) 0))
           ∧ (badResvDesc l (d.boltTiles b).length = false → bytesField l 2 1 < v.fld 5 1 → (v.spools[sp]).kind ≠ .off →
               (v.spools[sp]).resv = none → v.spoolBusy sp = false → s.dev.plcHeld c ≠ .failed →
               (∀ num e h, (List.range 64).find? (fun n => (d.resv n).isNone) = some num →
                 d.vRead b (d.placerAsker b v.num 0#64 (s.dev.plcHeld c)) (bytesField l 0x18 8) imgHeader = (e, .bytes h false) →
                 bytesField h 0 4 = imgMagic → bytesField h 4 2 = 1 → bytesField h 0x24 4 = 0 →
                 bytesField h 0x1c 4 ≤ bytesField h 0x14 2 + bytesField h 0x12 2 + 2 * 902 →
                 (let r : Resv := { num := num, bolt := b, vdev := v.num, spool := sp, area := bytesField l 4 2, period := bytesField l 8 4,
                                    budget := bytesField l 0xc 4, anchor := bytesField l 0x10 8, image := BitVec.ofNat 64 (bytesField l 0x18 8),
                                    eps := bytesField h 0x1c 4, job := none, deadline := 0, used := 0,
                                    next := Resv.firstStart (bytesField l 0x10 8) (bytesField l 8 4) e.dcc, overrun := false, missed := false,
                                    claim := [] }
                  let fits := admissible (d.boltTiles b).length (clockMhz (e.boltClk b)) (r :: e.resvs.filter fun x => x.bolt == b)
                  (fits = false → done (.plcRadmit c arg) e 4)
                  ∧ (fits = true → done (.plcRadmit c arg) (({ e with resvs := insertBy Resv.num r e.resvs } : Dev).onVdev v.num fun v =>
                      v.onSpool sp fun x => { x with kind := .reserved, resv := some num }) (256 * num)))))))))
  ∧ (∀ (s : State) (c : Caller) (arg : BitVec 64),
    (let done := fun (i : Instr) (y : Dev) (v : Nat) => ∃ t, exec i s = .next t
       ∧ t.dev = { y with svcs := t.dev.svcs, pf := t.dev.pf, ports := t.dev.ports, outs := t.dev.outs } ∧ t.dev.pf.mbuf = y.pf.mbuf
       ∧ (match c with
          | .svc q r => r ≠ 0 → t.dev.svcs[q].s[r] = BitVec.ofNat 64 v
          | .host _ => t.dev.pf.mres = BitVec.ofNat 64 v ∧ t.dev.pf.mstat = 0#32)
     let n := arg.toNat
     let buf := s.dev.pf.mailBytes
     (∀ v, (s.dev.mcReg n = .plain v ∨ (∃ b, s.dev.mcReg n = .ofBolt b v ∧ s.dev.mcMayBolt c b = true)
          ∨ (∃ q, s.dev.mcReg n = .ofQuad q v ∧ s.dev.mcMayQuad c q = true) ∨ (∃ k, s.dev.mcReg n = .ofTile k v ∧ s.dev.mcMayTile c k = true)) →
        done (.mcRead c arg) s.dev v)
     ∧ (n = 0x012 → done (.mcWrite c arg) { s.dev with mc := { s.dev.mc with tsrc := BitVec.ofNat 32 (leNat (buf 0 8)) &&& 7#32 } } 0)
     ∧ (∀ b : Fin 32, n = 0x0a0 + b.val →
          done (.mcWrite c arg) { s.dev with mc := { s.dev.mc with cdly := s.dev.mc.cdly.set b (BitVec.ofNat 32 (leNat (buf 0 8))) } } 0)
     ∧ (∀ b : Fin 32, n = b.val → s.dev.mcMayBolt c b = true →
          done (.mcClear c arg) (s.dev.onBolt b fun x => { x with counters := Vector.replicate 14 0 }) 0)
     ∧ (∀ k : Fin 128, n = k.val →
          (s.dev.mcMayTile c k = true → done (.mcFence c arg) ((List.finRange 4).foldl (fun d j => d.learnFence (neighbour k j) k) s.dev) 0)
          ∧ (s.dev.routers[k].fence = 1 → s.dev.routers[k].testing = none → s.dev.routers[k].queued = false → s.dev.mayAppeal k = true →
              done (.mcAppeal c arg) (s.dev.startAppeal k) 0))
     ∧ (∀ x, n < 2 ^ 32 → (BitVec.ofNat 32 n - s.dev.mc.loghead).toNat < (s.dev.mc.logtail - s.dev.mc.loghead).toNat →
          s.dev.mc.log.find? (fun y => y.1 == n % 4096) = some x →
          done (.mcLogread c arg) (s.dev.onPf fun p => { p with mbuf := memWriteList p.mbuf 0 (leBytes 32 x.2.toNat) }) 0)
     ∧ (done (.mcLog c arg) (s.dev.logEvent 0x0a (match c with | .svc q _ => (s.dev.boltOfQuad q).map Fin.val | .host _ => none) none (some n)) 0)
     ∧ (∀ b : Fin 32, n = b.val → (let v := BitVec.ofNat 32 (leNat (buf 0 4)) &&& 0xf00003ff#32
          s.dev.refusesBolt b v = false → ∃ y, done (.mcBoltset c arg) y 0 ∧ y.mc = { s.dev.mc with bdesc := s.dev.mc.bdesc.set b v }
            ∧ y.mem = s.dev.mem ∧ y.tiles = s.dev.tiles ∧ y.panels = s.dev.panels))
     ∧ ((s.dev.vdev n).isSome = true → done (.mcCollapse c arg) (s.dev.startCollapse n) 0
          ∧ ((∀ p ∈ s.dev.panels, p.vdev ≠ n) → s.dev.startCollapse n = s.dev.onVdev n fun v =>
              if v.state = .active ∨ v.state = .waking then { v with state := .collapsing, wakeAt := none, wakeCounted := 0 } else v))
     ∧ (4 + leNat (buf 0 4) ≤ 4032 → n ≤ s.dev.mc.stage.length →
          done (.mcUpdstage c arg) (s.dev.onMc fun m => { m with stage := m.stage.take n ++ buf 4 (leNat (buf 0 4)) }) 0)
     ∧ (∀ h, arg = 0#64 → Config.updateHeader s.dev.mc.stage = some h → s.dev.mc.verifies h.1 s.dev.mc.stage = true →
          (s.dev.mc.svn[h.1]).toNat ≤ h.2.1.toNat →
          ∃ y, done (.mcUpdcommit c arg) y 0 ∧ y.mc.slots = s.dev.mc.slots.set h.1 (some s.dev.mc.stage) ∧ y.mc.stage = [] ∧ y.mem = s.dev.mem)))

/-- A tick puts its four steps on the agenda and frees the tiles of panels that are gone; a launch that passes the checks is
released, for a reserved spool as the job of the period; a head gang that fits takes panels at the first fit, loading, with
their tiles; a blocked one ages and in clearance has its shadow ordered evicted. An expired backfill and a job over its budget
are ordered evicted, the job with OVERRUN, its count and the deadline of the next period, a late one with DEADMISS, its count
and its event; a bound gang starts on the panels of the gang before it. A panel ordered evicted freezes at its stitch point,
withdraws what has not been performed, is saved and removed with its cut evicted (the time to its next periodic save kept), and
its windows drain to their slots; a restored gang resumes, and a periodic save leaves the cut running with its registers
unchanged. The model's choice are how a periodic save is made and timed (log entry 52), the periods after an overrun (55) and
the order before a start (56). (15_bolts_scheduling.md (R349, R362, R367, R368, R369, R371, R372, R373, R374, R375),
14_privilege_traps_context.md (R338, R344).) -/
def Obligations.PlacerAndContextEvents : Prop :=
  ∀ s : State,
    (let d := s.dev
     let next := fun (i : Instr) (f : State → Prop) => ∃ t, exec i s = .next t ∧ f t
     let panels := fun (t : State) (h : Nat) (f : Panel → Prop) => ∀ q ∈ t.dev.panels, q.handle = h → f q
     (∀ b, next (.placerTick b) (fun t => t.agenda = [.tick b 0, .tick b 1, .tick b 2, .tick b 3] ++ s.agenda)
        ∧ ((∀ v ∈ d.vdevs, v.bolt ≠ b) → d.clockPending b = false → next (.placerTick b) (fun t => t.dev.mem = d.mem
            ∧ ∀ n h, n ∈ d.boltTiles b → (d.tiles[n]).owner = .panel h → d.panel h = none → (d.tiles[n]).drain = none →
                (t.dev.tiles[n]).owner = .free)))
     ∧ (∀ v sp l e, d.vdev v.num = some v → v.awake = true → d.placing = true → v.launches = [l] → l.spool = sp → l.released = false →
          l.done = false → l.depFail = false → l.waits = [] → (l.nbt = 0 ∨ l.nbt ≤ d.dcc + l.prelead) → l.wait.free = true →
          d.checkLaunch v.bolt v l = (e, .ok) →
          ((v.spools[sp]).kind = .best → exec (.launchRelease v.num sp) s
              = .next { s with dev := e.onLaunch v.num l.num fun x => { x with released := true, wait := .no } })
          ∧ (∀ r k, (v.spools[sp]).kind = .reserved → (v.spools[sp]).resv = some k → d.resv k = some r → r.job = none → 0 < r.period →
              r.anchor ≤ d.dcc → r.next ≤ r.anchor + (d.dcc - r.anchor) / r.period * r.period →
              next (.launchRelease v.num sp) (fun t => ∀ q, t.dev.resv k = some q → q.job = some l.num ∧ q.used = 0 ∧ q.overrun = false
                ∧ q.deadline = r.anchor + (d.dcc - r.anchor) / r.period * r.period + q.period)))
     ∧ (∀ b v l g c pos, d.placing = true → d.clockPending b = false → d.resvs = [] → (∀ p ∈ d.panels, p.pre = none) →
          d.pointed b = some (v, l, g) → d.firstFit b v l g (d.freeUnclaimed b) = some [pos] → g.unfinished = [c] → c.saved = none →
          (let e := (d.placeGang b l g [pos] false).onBolt b fun x => { x with credit := x.credit - 1 }
           (∀ y ∈ e.ring b, e.headAt y = none) → next (.gangPlace b) (fun t => ∃ p ∈ t.dev.panels, p.phase = .loading ∧ p.bolt = b
             ∧ p.vdev = l.vdev ∧ p.launch = l.num ∧ p.cut = c.cut ∧ p.w = l.pw ∧ p.h = l.ph ∧ p.x0 = 2 * d.boltX b + pos.1
             ∧ p.y0 = 2 * d.boltY b + pos.2 ∧ ∀ n ∈ p.tiles, (t.dev.tiles[n]).owner = .panel p.handle)))
     ∧ (∀ b v l g, d.placing = true → d.clockPending b = false → d.pointed b = some (v, l, g) →
          (g.clearing = false → g.age + 1 < (d.bolts[b]).agemax → exec (.clearance b) s
              = .next { s with dev := d.onLaunch l.vdev l.num fun x => x.offer { g with age := g.age + 1 } })
          ∧ ((d.bolts[b]).agemax ≤ g.age + 1 → (∀ p ∈ d.panels, p.phase ≠ .over) →
              (let e := d.onLaunch l.vdev l.num fun x => x.offer { g with age := g.age + 1, clearing := true }
               next (.clearance b) (fun t => ∀ p ∈ e.holders (e.shadow b v l { g with age := g.age + 1, clearing := true }), e.resvOf p = none →
                 panels t p.handle fun q => q.evict.isSome = true))))
     ∧ (∀ v l x g p, d.launch v l = some x → g ∈ x.gangs → g.expired x d.dcc = true → (d.gangPanels v l (some g)).head? = some p →
          next (.backfillWcrtExpiry v l) (fun t => panels t p.handle fun q => q.evict.isSome = true))
     ∧ (∀ r x l, d.resv r = some x → (x.job.bind fun j => d.launch x.vdev j) = some l → 0 < x.period →
          (x.spent = true → next (.budgetOverrun r) (fun t => ∃ y : Dev, t = s.onDev (fun _ => y.postEvent l.vdev
                (eventRecord 4 r l.tag.toNat (d.dcc - (x.used - x.budget)) d.dcc))
              ∧ (∀ q, y.resv r = some q → q.overrun = true
                  ∧ q.deadline = x.anchor + ((d.dcc - x.anchor) / x.period + 1) * x.period + q.period)
              ∧ (∀ m, y.launch l.vdev l.num = some m → m.status.getLsbD 27 = true)
              ∧ ∀ p ∈ d.panels, p.vdev = l.vdev → p.launch = l.num → p.phase ≠ .over →
                  (∀ q ∈ d.panels, q.vdev = l.vdev → q.launch = l.num → q = p) → ∀ q ∈ y.panels, q.handle = p.handle → q.evict.isSome = true))
          ∧ (x.late d.dcc = true → next (.deadlineMiss r) (fun t => ∃ y : Dev, t = s.onDev (fun _ => y.postEvent l.vdev
                (eventRecord 3 r l.tag.toNat x.deadline d.dcc))
              ∧ (∀ q, y.resv r = some q → q.missed = true) ∧ (∀ m, y.launch l.vdev l.num = some m → m.status.getLsbD 30 = true)
              ∧ ∀ v w, d.vdev l.vdev = some v → y.vdev l.vdev = some w → w.misscnt = satAdd v.misscnt 1 ∧ w.vstat.getLsbD 3 = true)))
     ∧ (∀ p v l g x c, d.panel p.handle = some p → d.boundGang p = some (v, l, g) → d.preloadReady p = true → d.placing = true →
          d.clockPending p.bolt = false → d.preloadPanels p = [p] → p.pre = some x → g.cuts.find? (fun k => k.cut == x.cut) = some c →
          next (.preloadStart p.handle) (fun t => ∃ q ∈ t.dev.panels, q.launch = l.num ∧ q.cut = c.cut ∧ q.pre = some x ∧ q.x0 = p.x0
            ∧ q.y0 = p.y0 ∧ q.phase = (if c.saved.isSome then .restoring else .loading) ∧ ∀ n ∈ q.tiles, (t.dev.tiles[n]).owner = .panel q.handle))
     ∧ (∀ p, d.panel p.handle = some p →
          (p.phase = .running → p.evict.isSome = true → exec (.evictionAtStitch p.handle) s
              = .next (s.onDev fun e => e.onPanel p.handle fun q => { q with phase := .quiesce e.now, frozen := 0 }))
          ∧ (d.quiesced p = true → next (.quiesceEnd p.handle) (fun t => (panels t p.handle fun q => q.phase = .saving)
              ∧ t.dev.mem = d.mem ∧ ∀ n ∈ p.tiles, ∀ o ∈ (t.dev.tiles[n]).ops, o.stage ≠ .performed))
          ∧ (∀ v, d.vdev p.vdev = some v → d.windowsFree p = true → d.ctxFree p = true →
              (p.phase = .saving → (∀ r ∈ d.gangWith p, r.pre = none) → d.saveBad p (d.saveImages p v false) = false →
                (∀ x ∈ d.saveImages p v false, x.image.length ≤ windowSize) →
                next (.contextSaveComplete p.handle) (fun t => t.dev.panels = d.panels.filter (fun q => q.handle != p.handle)
                  ∧ (∀ n ∈ p.tiles, (t.dev.tiles[n]).r = TileRegs.reset ∧ ∀ o < 2 ^ 20, t.dev.byte (tspKey n o) = 0#8)
                  ∧ ∀ l, t.dev.launch p.vdev p.launch = some l → ∀ g ∈ l.gangs, ∀ c ∈ g.cuts, c.cut = p.cut →
                      c.st = .evicted ∧ c.saved = some (p.savedCut (d.saveImages p v false) (p.saveAt - d.dcc))))
              ∧ (p.phase = .running →
                  (let w := (p.tiles.foldl (fun d n => d.onTile n Tile.withdraw) d).saveImages p v false
                   let every := 1000 * v.fld 0x0c 4
                   d.saveBad p w = false → (∀ x ∈ w, x.image.length ≤ windowSize) → next (.periodicStitchSave p.handle) (fun t =>
                     (∀ n : Fin 128, (t.dev.tiles[n]).r = (d.tiles[n]).r) ∧ (panels t p.handle fun q => q.save = false ∧ q.saveAt = if every = 0 then 0 else d.dcc + every)
                     ∧ ∀ l, t.dev.launch p.vdev p.launch = some l → ∀ g ∈ l.gangs, ∀ c ∈ g.cuts, c.cut = p.cut → c.psave = some (p.savedCut w every)))))
          ∧ (∀ v l e img x, p.phase = .restoring → d.vdev p.vdev = some v → d.launch p.vdev p.launch = some l →
              (∀ q ∈ d.starters p, q.startAt ≤ d.dcc ∧ q.wait.free = true ∧ d.undrained q = false) →
              Dev.readyAll v l (d.starters p) d = (e, some [(p, .restore img x)]) →
              next (.contextRestore p.handle) (fun t => panels t p.handle fun q => q.phase = .running ∧ q.frozen = 0)))
     ∧ (∀ (n : Fin 128) (k j : Nat) (b : Fin 32) (v : Vdev) (e : Dev), (d.tiles[n]).drain = some (k, j) → d.boltOf n = some b →
          d.drains k = true → d.vdev k = some v →
          (d.tiles[n]).drainWait ≠ .failed → d.vWrite b (d.placerAsker b k (d.slotTag k j) (d.tiles[n]).drainWait) (v.slotDva j)
            (d.bytes (vaultKey n programArea) (min windowSize (ctxLength (d.bytes (vaultKey n programArea) 64)))) = (e, .done) →
          next (.windowDrainComplete n) (fun t => (t.dev.tiles[n]).drain = none
            ∧ ∀ o < windowSize, t.dev.byte (vaultKey n (programArea + o)) = 0#8)))

/-- A register-page write through the BAR0 of a VF whose TDI runs is answered Unsupported Request without the T bit; else, while
pages are open, a write through the active port takes effect and one through the other port is counted and dropped: SPTAIL
announces records or is refused with TAILCNT and TAILERR, WAKE wakes a collapsed vdev, VSTAT clears the bits written as 1,
LTFREE frees a resolved token. A submission whose record has been read goes into the slot at TAIL, which advances; an acceptable
record advances HEAD and enters the placer with its tokens sampled and its completion token PENDING; an accepted event is posted
with KIND 1; a completion record, where SECURITY has completed nothing in this nanosecond (log entry 105), goes into a free
slot, the index and sequence advance and the token resolves. An idle vdev collapses at its delay, the collapse completes when
nothing is placed or drains, and a wake completes with its first running panel, counted when late. The model's choice are the
refusal of a tail write to a spool that is off (log entry 32) and that a refused one starts the idle time anew (58).
(15_bolts_scheduling.md (R355, R357, R359, R361, R364), 17_host_security_links.md (R404, R405), 09_isa_memory_exchange.md (R240,
R241), 18_resilience_power_management.md (R432, R433), 00_scope.md (R6).) -/
def Obligations.RegisterPagesRecordsAndCollapse : Prop :=
  ∀ s : State,
    (let d := s.dev
     let next := fun (i : Instr) (f : State → Prop) => ∃ t, exec i s = .next t ∧ f t
     let changes := fun (i : Instr) (v : Nat) (f : Vdev → Vdev) => exec i s = .next (s.onDev fun e => e.onVdev v f)
     (∀ (port : Fin 2) (v : Nat) (y : Vdev) (sp : Fin 16) (x : BitVec 32) (bar : PageBar), d.vdev v = some y →
        (let refused := fun (i : Instr) => exec i s = .next { s with dev := { d with outs := .read port none :: d.outs } }
         d.pageOpen port v bar = false → refused (.sptailWrite ⟨port, bar⟩ v sp x) ∧ refused (.wakeWrite ⟨port, bar⟩ v x)
           ∧ refused (.vstatWrite ⟨port, bar⟩ v x) ∧ refused (.ltfreeWrite ⟨port, bar⟩ v x))
        ∧ (d.pageOpen port v bar = true → d.pagesClosed = false →
        (let drops := fun (i : Instr) => exec i s = .next (s.onDev fun e => e.onMc fun m => { m with hwdrop := satAdd m.hwdrop 1 })
         (port ≠ d.pf.active → drops (.sptailWrite ⟨port, bar⟩ v sp x) ∧ drops (.wakeWrite ⟨port, bar⟩ v x) ∧ drops (.vstatWrite ⟨port, bar⟩ v x)
            ∧ drops (.ltfreeWrite ⟨port, bar⟩ v x))
         ∧ (port = d.pf.active →
             next (.sptailWrite ⟨port, bar⟩ v sp x) (fun t => t.dev.mem = d.mem ∧ ∃ w, t.dev.vdev v = some w ∧ w.idleSince = d.dcc
               ∧ (if (y.spools[sp]).kind = .off ∨ (y.spools[sp]).feed = true ∨ 2 ^ (y.spools[sp]).log2 < (x - (y.spools[sp]).head).toNat
                      ∨ (x - (y.spools[sp]).head).toNat < ((y.spools[sp]).tail - (y.spools[sp]).head).toNat
                  then w.spools = y.spools ∧ w.tailcnt = satAdd y.tailcnt 1 ∧ w.vstat = setBit y.vstat 1 true
                  else w.spools = y.spools.set sp { y.spools[sp] with tail := x } ∧ w.tailcnt = y.tailcnt ∧ w.vstat = y.vstat))
             ∧ next (.wakeWrite ⟨port, bar⟩ v x) (fun t => t.dev.mem = d.mem ∧ ∃ w, t.dev.vdev v = some w ∧ w.spools = y.spools
               ∧ w.state = if y.state = .collapsed ∧ y.parked = false then .waking else y.state)
             ∧ changes (.vstatWrite ⟨port, bar⟩ v x) v (fun z => { z with vstat := z.vstat &&& ~~~(x.extractLsb' 2 4) })
             ∧ changes (.ltfreeWrite ⟨port, bar⟩ v x) v (fun z =>
                 let k := idx 256 (fieldOf x 0 8)
                 if (z.ltoks[k]).st = .done ∨ (z.ltoks[k]).st = .failed then { z with ltoks := z.ltoks.set k { z.ltoks[k] with st := .free } } else z)))))
     ∧ (∀ (n : Fin 128) (i : Nat) (p : Posted), d.postedReady n i = some p →
         (let o := p.op
          let b := p.bolt
         (o.kind = .evpost → exec (.evpostDeliver n i) s = .next (s.onDev fun e =>
            ((if 3 ≤ o.scope then e.flushHost b else e).postEvent p.vdev
              (eventRecord 1 o.dst o.data2.toNat (fieldOf o.data 0 64) o.n)).dropPosted i p))
         ∧ (∀ v x e1 e2 l, o.kind = .launch → d.vdev p.vdev = some v → o.n ≠ 1 → o.wait ≠ .failed →
             (d.flushHost b).vRead b ((d.flushHost b).placerAsker b v.num 0#64 o.wait) o.addr.toNat 128 = (e1, .bytes l false) →
             (let o1 : MemOp := { o with data := BitVec.ofNat 1024 (leNat l), n := 1, wait := .no }
              let p1 : Posted := { p with op := o1 }
              let e := e1.setPosted i p1
              v.fed o.dst = some x → (x.tail - x.head).toNat < x.size →
              e.vWrite b (e.placerAsker b v.num (BitVec.ofNat 64 (recField o1.data 0x38 8)) .no) (x.slot x.tail) (leBytes 128 o1.data.toNat)
                = (e2, .done) →
              exec (.launchSubmission n i) s = .next (s.onDev fun _ => (e2.onVdev v.num fun y =>
                ({ y.onSpool (idx 16 o.dst) (fun z => { z with tail := z.tail + 1#32 }) with idleSince := e.dcc } : Vdev)).dropPosted i p1)))))
     ∧ (∀ (v : Nat) (sp : Fin 16) (y w : Vdev) (e : Dev) (l : List Byte), d.vdev v = some y → d.mayAccept y sp = true →
         (y.spools[sp]).wait ≠ .failed →
         d.vRead y.bolt (d.placerAsker y.bolt v 0#64 (y.spools[sp]).wait) ((y.spools[sp]).slot (y.spools[sp]).head) 128 = (e, .bytes l false) →
         e.vdev v = some w →
         (let new := Launch.accepted e.nextLaunch v sp.val (BitVec.ofNat 1024 (leNat l))
          (y.ltoks[new.ctok]).st ≠ .pending → new.malformed = false → next (.recordAccept v sp) (fun t => ∃ u, t.dev.vdev v = some u
            ∧ u.launches = w.launches ++ [w.sampled new] ∧ (u.spools[sp]).head = (w.spools[sp]).head + 1#32
            ∧ (u.ltoks[new.ctok]).st = .pending ∧ (u.ltoks[new.ctok]).status = 0#32 ∧ t.dev.nextLaunch = e.nextLaunch + 1)))
     ∧ (∀ (v : Nat) (y w : Vdev) (l : Launch) (e1 e2 : Dev) (f : List Byte), d.vdev v = some y → y.unreported = some l → y.waitCr.free = true →
         y.waitCr ≠ .failed → (y.secured = [] ∨ y.securedAt < d.dcc) →
         (let a := d.placerAsker y.bolt y.num l.tag y.waitCr
          let slot := y.fld 0x30 8 + 32 * (y.cridx.toNat % 2 ^ y.fld 0x38 1)
          d.vRead y.bolt a slot 1 = (e1, .bytes f false) → leNat f = 0 → e1.vWrite y.bolt a slot (l.ringRecord y.crseq) = (e2, .done) →
          e2.vdev v = some w → next (.completionRecordWrite v) (fun t => ∃ u, t.dev.vdev v = some u ∧ u.cridx = w.cridx + 1#32
            ∧ u.crseq = w.crseq + 1#32 ∧ (∀ m ∈ u.launches, m.num ≠ l.num)
            ∧ (u.ltoks[l.ctok]).st = if l.status.extractLsb' 0 8 = 0#8 then .done else .failed)))
     ∧ (∀ (v : Nat) (y : Vdev), d.vdev v = some y →
         (d.collapseDue y = true → (∀ p ∈ d.panels, p.vdev ≠ v) → changes (.collapseDelayExpiry v) v (fun z =>
            if z.state = .active ∨ z.state = .waking then { z with state := .collapsing, wakeAt := none, wakeCounted := 0 } else z))
         ∧ (d.collapseOver y = true → changes (.collapseComplete v) v (fun z =>
            { z with state := if y.wakeAt.isSome ∧ y.parked = false then .waking else .collapsed, idleSince := d.dcc }))
         ∧ (d.wakeOver y = true → next (.wakeComplete v) (fun t => t.dev.mem = d.mem ∧ ∃ w, t.dev.vdev v = some w ∧ w.state = .active
             ∧ w.wakeAt = none ∧ t.dev.bolts[y.bolt].counters[11] = satAdd d.bolts[y.bolt].counters[11]
                 (if y.wakeAt.isSome ∧ wakeBound (y.fld 4 1) < y.wakeCounted then 1 else 0)))))

/-- Through the active port, EQHEAD, EQCTL and the registers of the control path and mailbox take their RW fields, CMDW starts a
known command and FN a known function or answers status 1; a write to RESULT or STAT changes nothing; while the mailbox is busy,
or through the other port, any write there is counted. FBIND binds a vdev that exists and is bound nowhere else, and a window
keeps VALID only inside its bolt and clear of the others; a locked TDI goes to ERROR instead. A window or decoder access answers
the bytes of its lines or writes them, and one that no open window takes, or a write to a window without WR, answers unsupported
or is counted. LEASEX and LEASECTL write what each port may write, an expired armed lease passes to the other port; a function-
level reset completes the launches of the bound vdev, advances its generation, removes the function's ATC entries and unlocks
the TDI; an unmasked pending vector sends its message; PRI is enabled again; a snoop takes a line or keeps it clean. The model's
choice are FBIND with VALID clear (log entry 33) and the answer where no decoder takes an access (34).
(17_host_security_links.md (R399, R400, R401, R402, R403, R406, R407, R408, R413), 14_privilege_traps_context.md (R345),
16_translation_faults.md (R395), 11_consistency.md (R296).) -/
def Obligations.HostRegistersWindowsAndResets : Prop :=
  ∀ s : State,
    (let d := s.dev
     let next := fun (i : Instr) (f : State → Prop) => ∃ t, exec i s = .next t ∧ f t
     let puts := fun (i : Instr) (f : Dev → Dev) => exec i s = .next (s.onDev f)
     let counted := fun (e : Dev) => e.onMc fun m => { m with hwdrop := satAdd m.hwdrop 1 }
     (∀ (port : Fin 2) (x : BitVec 64) (bar : PageBar), port ≠ d.pf.active →
        ∀ r ∈ [HostReg.ctlCmd, .mailArg, .mailFn, .mailRes, .mailStat], puts (.registerWrite ⟨port, bar⟩ r x) counted)
     ∧ (∀ (port : Fin 2) (x : BitVec 64) (bar : PageBar), port = d.pf.active →
        (∀ v, d.pagesClosed = false → d.pageOpen port v bar = true →
            puts (.registerWrite ⟨port, bar⟩ (.eqHead v) x) (fun e => e.onVdev v fun y => { y with eqhead := x.setWidth 32 })
            ∧ puts (.registerWrite ⟨port, bar⟩ (.eqCtl v) x) (fun e => e.onVdev v fun y => { y with eqctl := x.setWidth 32 &&& 1#32 }))
        ∧ (∀ w, puts (.registerWrite ⟨port, bar⟩ (.ctlBuf w) x) (fun e => e.onPf fun p => { p with cbuf := putField p.cbuf (64 * w.val) 64 x.toNat }))
        ∧ (d.pf.cstat.getLsbD 31 = false →
            (let known := 1 ≤ (x.extractLsb' 0 8).toNat ∧ (x.extractLsb' 0 8).toNat ≤ 7 ∧ x.extractLsb' 13 19 = 0#19
             puts (.registerWrite ⟨port, bar⟩ .ctlCmd x) (fun e => e.onPf fun p =>
               { p with cmdw := x.setWidth 32, cstat := if known then 0x80000000#32 else 1#32 })))
        ∧ (d.pf.cstat.getLsbD 31 = true → puts (.registerWrite ⟨port, bar⟩ .ctlCmd x) counted)
        ∧ (d.pf.mstat.getLsbD 31 = false → puts (.registerWrite ⟨port, bar⟩ .mailArg x) (fun e => e.onPf fun p => { p with marg := x })
            ∧ (∀ w, puts (.registerWrite ⟨port, bar⟩ (.mailBuf w) x) (fun e => e.onPf fun p =>
                { p with mbuf := memWriteList p.mbuf (8 * w.val) (leBytes 8 x.toNat) }))
            ∧ (x.toNat ∈ [0x01, 0x02, 0x03, 0x04, 0x05, 0x10, 0x11, 0x12, 0x20, 0x21] →
                puts (.registerWrite ⟨port, bar⟩ .mailFn x) (fun e => e.onPf fun p => { p with mfn := x, mstat := 0x80000000#32 }))
            ∧ (x.toNat ∉ [0x01, 0x02, 0x03, 0x04, 0x05, 0x10, 0x11, 0x12, 0x20, 0x21] →
                next (.registerWrite ⟨port, bar⟩ .mailFn x) (fun t => t.dev.pf.mstat = 1#32 ∧ t.dev.pf.mres = 0#64)))
        ∧ (d.pf.mstat.getLsbD 31 = true → ∀ r ∈ [HostReg.mailArg, .mailFn, .mailRes, .mailStat], puts (.registerWrite ⟨port, bar⟩ r x) counted)
        ∧ (d.pf.mstat.getLsbD 31 = false → exec (.registerWrite ⟨port, bar⟩ .mailRes x) s = .next s ∧ exec (.registerWrite ⟨port, bar⟩ .mailStat x) s = .next s))
     ∧ (∀ (port : Fin 2) (f : Fin 249) (x : BitVec 32),
          (let free := (d.vdev (fieldOf x 0 10)).isSome = true ∧ d.boundElsewhere f (fieldOf x 0 10) = false
           ((d.pf.tdis[f]).st = .unlocked →
             (x.getLsbD 31 = true → free → puts (.fbindWrite port f x) (fun e =>
                (e.onPf fun p => { p with fbind := p.fbind.set f (x &&& 0x800003ff#32) }).onVdev (fieldOf x 0 10) fun y => { y with parked := false }))
             ∧ (x.getLsbD 31 = true → ¬ free → exec (.fbindWrite port f x) s = .next s)
             ∧ (x.getLsbD 31 = false → puts (.fbindWrite port f x) (fun e => e.onPf fun p => { p with fbind := p.fbind.set f (x &&& 0x800003ff#32) })))
           ∧ ((d.pf.tdis[f]).st = .locked → puts (.fbindWrite port f x) (fun e => e.onTdi f fun t => { t with st := .error }))))
     ∧ (∀ (port : Fin 2) (w : Fin 996) (lo hi : BitVec 64), (d.pf.tdis[idx 249 (w.val / 4)]).st = .unlocked →
          (let x : Window := { baroff := lo &&& 0x0000000fffe00003#64, attr := hi &&& 0x00ffffff0001ffff#64 }
           let y : Window := if d.windowOk w x then x else { x with baroff := setBit x.baroff 0 false }
           puts (.windowDescriptorWrite port w lo hi) (fun e => e.onPf fun p => { p with windows := p.windows.set w y })))
     ∧ (∀ (port : Fin 2) (x : BitVec 64) (c : BitVec 32),
          puts (.leasexWrite port x) (fun e => e.onPf fun p => { p with leasex := if port = p.active then x else p.leasex })
          ∧ puts (.leasectlWrite port c) (fun e => e.onPf fun p =>
              { p with taken := p.taken && !c.getLsbD 7, arm := if port = p.active then p.arm else c.getLsbD 4 }))
     ∧ (∀ new : Fin 2, d.leaseOver = true → new ≠ d.pf.active → (d.ports[d.pf.active]).prg = [] →
          (∀ f v, d.boundTo f = some v → f.val ≤ (d.ports[new]).enabled) →
          puts .leaseTakeover (fun e => ((e.onPf fun p => { p with active := new, arm := false, taken := true }).onPort e.pf.active fun p =>
            { p with atc := [] }).msix new 0 0))
     ∧ (∀ (port : Fin 2) (f : Fin 249) (x n : Nat) (data : List (BitVec 8)) (tbit : Option Nat),
          (let answers := fun (i : Instr) (e : Dev) (l : Option (List Byte)) => exec i s = .next { s with dev := { e with outs := .read port l :: e.outs } }
           (d.fnOpen port f tbit = true →
             (∀ w, d.windowAt f x n = some w →
                (let r := Dev.hostRead (idx 32 w.bolt) (d.bpaPieces (idx 32 w.bolt) (w.bpa + (x - w.lo)) n) d
                 answers (.hostWindowRead port f x n tbit) r.1 (some r.2)))
             ∧ (d.windowAt f x n = none → answers (.hostWindowRead port f x n tbit) d none)
             ∧ (∀ w, d.windowAt f x data.length = some w → w.baroff.getLsbD 1 = true → puts (.hostWindowWrite port f x data tbit)
                  (Dev.hostWriteLines (idx 32 w.bolt) (d.bpaPieces (idx 32 w.bolt) (w.bpa + (x - w.lo)) data.length) data))
             ∧ (d.windowAt f x data.length = none → puts (.hostWindowWrite port f x data tbit) counted)
             ∧ (∀ w, d.windowAt f x data.length = some w → w.baroff.getLsbD 1 = false → puts (.hostWindowWrite port f x data tbit) counted))
           ∧ (d.fnOpen port f tbit = false → answers (.hostWindowRead port f x n tbit) d none ∧ answers (.hostWindowWrite port f x data tbit) d none)
           ∧ (∀ k r b, (d.ports[port]).cxl = true → d.boltOfQuad (dramQuad k.1) = some b →
                ((d.ports[port]).hdmKeys x n = some (k :: r) →
                  (let y := Dev.hostRead b (k :: r) (d.onPort port fun p => { p with held := ((k :: r).map fun z => z.1 / 128) ++ p.held })
                   answers (.cxlMemAccess port x n none) y.1 (some y.2)))
                ∧ ((d.ports[port]).hdmKeys x data.length = some (k :: r) →
                    puts (.cxlMemAccess port x n (some data)) (Dev.hostWriteLines b (k :: r) data)))
           ∧ ((d.ports[port]).cxl = false → answers (.cxlMemAccess port x n none) d none ∧ puts (.cxlMemAccess port x n (some data)) counted)))
     ∧ (∀ (port : Fin 2) (f : Fin 249),
          (port = d.pf.active → ∀ v, d.boundTo f = some v → (∀ p ∈ d.panels, p.vdev ≠ v.num) → (∀ n : Fin 128, (d.tiles[n]).drain = none) →
             (∀ b : Fin 32, (d.bolts[b]).faults = []) →
             next (.functionLevelReset port f) (fun t => (∀ y ∈ t.dev.ports[port].atc, y.fn ≠ f.val) ∧ (∃ w, t.dev.vdev v.num = some w ∧ w.launches = [] ∧ w.slots = [] ∧ w.stopped = false)
               ∧ (∀ h : v.num < 1024, t.dev.gens[v.num] = d.gens[v.num] + 1#32)
               ∧ ((d.pf.tdis[f]).port = port → (t.dev.pf.tdis[f]).st = .unlocked)))
          ∧ (d.boundTo f = none → (d.pf.tdis[f]).port = port →
              puts (.functionLevelReset port f) (fun e => (e.onPort port fun p => { p with atc := p.atc.filter fun y => y.fn != f.val }).onTdi f fun t =>
                { t with st := .unlocked }))
          ∧ puts (.priEnable port f) (fun e => e.onPort port fun p => { p with priOff := p.priOff.filter fun x => x != f.val })
          ∧ ∀ vec, (let p := d.ports[port]
              let open_ := fun (e : Dev) => e.onPort port fun p =>
                { p with masked := p.masked.filter (fun x => x != (f.val, vec)), pend := p.pend.filter fun x => x != (f.val, vec) }
              (((f.val, vec) ∈ p.pend ∧ (f.val, vec) ∈ p.masked) → puts (.msixVectorUnmask port f vec) (fun e =>
                { open_ e with outs := .msix port f.val vec :: (open_ e).outs }))
              ∧ ((f.val, vec) ∉ p.pend → puts (.msixVectorUnmask port f vec) open_)))
     ∧ (∀ (port : Fin 2) (a : Nat), (d.ports[port]).cxl = true →
          next (.cxlCacheSnoop port a true) (fun t => ∀ q : Fin 32, ∀ l ∈ (t.dev.quads[q]).slc, l.key ≠ hostKey port a / 128)
          ∧ next (.cxlCacheSnoop port a false) (fun t => t.dev.mem = d.mem
              ∧ ∀ q : Fin 32, ∀ l ∈ (t.dev.quads[q]).slc, l.key = hostKey port a / 128 → l.dirty = false)))

/-- On a tick, what waits for a fault place translates again. A fault open for 100 ms closes and frees its page-request entry of the
current generation. A completed invalidation leaves nothing of its range in the caches of the bolt and counts for tlbs. A
translation completion of the current generation takes its request off, replaces what the ATC holds of the pages by what it
grants, and lets what waits on it and is granted what it needs look the ATC up again, and anything else meet its fault; one of
an old generation only counts and releases. A page request goes out, with what it needs, within the allocation of a function
that has not been stopped; its response frees the entry and, where the fault is still open, closes it: a success drops what the
ATC holds of the page, a response failure stops the function's requests, and a response of an old generation or of no entry is
counted, that of no entry in bolt 0 (the model's choice, log entry 28). An invalidation of the host removes the matching entries
at once or in its turn, and its completion is sent. (16_translation_faults.md (R386, R387, R391, R392, R393, R394, R395, R396).) -/
def Obligations.FaultsInvalidationsAndHostTranslation : Prop :=
  ∀ s : State,
    (let d := s.dev
     let next := fun (i : Instr) (f : State → Prop) => ∃ t, exec i s = .next t ∧ f t
     let puts := fun (i : Instr) (f : Dev → Dev) => exec i s = .next (s.onDev f)
     let noEvents := fun (b : Fin 32) => ∀ v ∈ d.vdevs, v.bolt = b → v.events = []
     let quiet := fun (b : Fin 32) (id : Nat) => noEvents b ∧ ∀ n ∈ d.boltTiles b, (d.tiles[n]).drainWait ≠ .fault id ∧ (∀ o ∈ (d.tiles[n]).ops, o.wait ≠ .fault id)
       ∧ ∀ (k : Fin 32) (x : Xfer), ((d.tiles[n]).toks[k]).xfer = some x → x.wait ≠ .fault id
     (∀ b : Fin 32, noEvents b →
        (∀ n ∈ d.boltTiles b, (∀ o ∈ (d.tiles[n]).ops, ∀ since, o.wait.since = some since → d.dcc < since + 100000000)
          ∧ ∀ (k : Fin 32) (x : Xfer) (since : Nat), ((d.tiles[n]).toks[k]).xfer = some x → x.wait.since = some since → d.dcc < since + 100000000) →
        (∀ p ∈ d.panels, p.bolt = b → ∀ n ∈ p.tiles, (d.tiles[n]).shadowDue = []) →
        next (.faultRetry b) (fun t => t.dev.mem = d.mem ∧ ∀ n ∈ d.boltTiles b, (t.dev.tiles[n]).r = (d.tiles[n]).r
          ∧ (∀ (i : Nat) (o : MemOp) (since : Nat), (d.tiles[n]).ops[i]? = some o → o.wait = .place since → (t.dev.tiles[n]).ops[i]? = some { o with wait := .retry since })
          ∧ ∀ (i : Nat) (o : MemOp) (id : Nat), (d.tiles[n]).ops[i]? = some o → o.wait = .fault id → (t.dev.tiles[n]).ops[i]? = some o))
     ∧ (∀ (b : Fin 32) (id : Nat) (f : OpenFault), (d.bolts[b]).faults.find? (fun f => f.id == id) = some f → f.opened + 100000000 ≤ d.dcc →
          quiet b id → next (.faultTimeout b id) (fun t => t.dev.mem = d.mem ∧ t.dev.tiles = d.tiles
            ∧ (t.dev.bolts[b]).faults = (d.bolts[b]).faults.filter (fun f => !(f.id == id))
            ∧ ∀ p : Fin 2, (t.dev.ports[p]).prg = (d.ports[p]).prg.filter fun e =>
                !(e.bolt == b && e.fault == id && decide (e.opened + 100000000 ≤ d.dcc) && e.gen == d.genOf e.space)))
     ∧ (∀ (q b : Fin 32) (i : Nat) (x : Inval), (d.svcs[q]).invals[i]? = some x → d.boltOfQuad q = some b → (d.bolts[b]).faults = [] →
          next (.invalidationComplete q i) (fun t => t.dev.mem = d.mem ∧ (t.dev.svcs[q]).invals = dropAt (d.svcs[q]).invals i
            ∧ (t.dev.svcs[q]).invDone = (d.svcs[q]).invDone + 1
            ∧ (∀ n ∈ d.boltTiles b, ∀ e ∈ (t.dev.tiles[n]).tlb, x.hitsTlb e = false)
            ∧ ∀ k ∈ d.boltQuads b, (∀ e ∈ (t.dev.quads[k]).tlb, x.hitsTlb e = false) ∧ ∀ e ∈ (t.dev.quads[k]).walk, x.hitsWalk e = false))
     ∧ (∀ (port : Fin 2) (i : Nat) (r : AtsReq), (d.ports[port]).ats[i]? = some r → (∀ b, noEvents b) →
          (let frees := fun (t : State) => (t.dev.ports[port]).ats = dropAt (d.ports[port]).ats i ∧ t.dev.mem = d.mem
             ∧ ∀ n b, d.boltOf n = some b → ∀ o ∈ (t.dev.tiles[n]).ops, ∀ need since, o.wait ≠ .ats port r.upage r.space need since
           let learns := fun (t : State) (w : BitVec 2 → Option Nat → Wait) =>
             ∀ (n : Fin 128) (b : Fin 32) (j : Nat) (o : MemOp) (need : BitVec 2) (since : Option Nat),
             d.boltOf n = some b → (d.tiles[n]).ops[j]? = some o → o.wait = .ats port r.upage r.space need since →
               (t.dev.tiles[n]).ops[j]? = some { o with wait := w need since }
           let given := fun (rd wr refused : Bool) (need : BitVec 2) (since : Option Nat) =>
             if (need.getLsbD 0 → rd) ∧ (need.getLsbD 1 → wr) then since.elim Wait.again .retry else .denied port r.upage refused since
           (r.gen = d.genOf r.space →
             next (.atsTranslationCompletion port i .refuse) (fun t => frees t ∧ learns t (given false false true)
               ∧ (t.dev.ports[port]).atc = (d.ports[port]).atc)
             ∧ (∀ host log2, next (.atsTranslationCompletion port i (.grant host log2 false false)) (fun t => frees t ∧ learns t (given false false false)
                 ∧ ∀ e ∈ (t.dev.ports[port]).atc, ¬ (e.fn = d.functionOf r.space
                     ∧ e.meets (d.pasidOf r.space) (r.upage / 2 ^ log2 * 2 ^ log2) (2 ^ log2) = true)))
             ∧ ∀ host log2 rd wr, (rd = true ∨ wr = true) → next (.atsTranslationCompletion port i (.grant host log2 rd wr)) (fun t => frees t ∧ learns t (given rd wr false)
                 ∧ ∃ e ∈ (t.dev.ports[port]).atc, e.space = r.space ∧ e.gen = r.gen ∧ e.log2 = log2 ∧ e.upage = r.upage / 2 ^ log2 * 2 ^ log2
                   ∧ e.host = host / 2 ^ log2 * 2 ^ log2 ∧ e.perm.getLsbD 0 = rd ∧ e.perm.getLsbD 1 = wr))
           ∧ (r.gen ≠ d.genOf r.space → ∀ ans, next (.atsTranslationCompletion port i ans) (fun t => frees t ∧ learns t (fun _ since => since.elim .again .retry)
               ∧ (t.dev.ports[port]).atc = (d.ports[port]).atc
               ∧ ∀ v, d.vdev r.space = some v → (t.dev.bolts[v.bolt]).counters[5] = satAdd (d.bolts[v.bolt]).counters[5] 1))))
     ∧ (∀ (port : Fin 2) (prgi : Nat),
          (∀ e, (d.ports[port]).prg.find? (fun e => e.prgi == prgi && !e.sent) = some e →
             ((d.ports[port]).prg.filter fun x => x.fn == e.fn && x.sent).length < (d.ports[port]).prAlloc[idx 249 e.fn] → e.fn ∉ (d.ports[port]).priOff →
             next (.pageRequestSend port prgi) (fun t => t.dev.mem = d.mem ∧ t.dev.outs = .pageReq port e.fn prgi e.upage (d.pasidOf e.space) e.need :: d.outs
               ∧ ∀ x ∈ (t.dev.ports[port]).prg, x.prgi = prgi → x.sent = true))
          ∧ ((d.ports[port]).prg.find? (fun e => e.prgi == prgi) = none → ∀ code, puts (.prgResponse port prgi code) (fun e => e.count 0 5 1))
          ∧ (∀ e, (d.ports[port]).prg.find? (fun e => e.prgi == prgi) = some e →
              (let without := (d.ports[port]).prg.filter fun x => x.prgi != prgi
               (e.gen ≠ d.genOf e.space → ∀ code, puts (.prgResponse port prgi code) (fun y =>
                  (y.onPort port fun p => { p with prg := p.prg.filter fun x => x.prgi != prgi }).count e.bolt 5 1))
               ∧ (e.gen = d.genOf e.space → ((d.bolts[e.bolt]).faults.any fun f => f.id == e.fault) = false → ∀ code,
                  puts (.prgResponse port prgi code) (fun y => y.onPort port fun p => { p with prg := p.prg.filter fun x => x.prgi != prgi }))
               ∧ (e.gen = d.genOf e.space → ((d.bolts[e.bolt]).faults.any fun f => f.id == e.fault) = true → quiet e.bolt e.fault →
                   (let closed := fun (t : State) => (t.dev.ports[port]).prg = without ∧ t.dev.tiles = d.tiles
                      ∧ (t.dev.bolts[e.bolt]).faults = (d.bolts[e.bolt]).faults.filter (fun f => !(f.id == e.fault))
                    next (.prgResponse port prgi .success) (fun t => closed t
                      ∧ ∀ x ∈ (t.dev.ports[port]).atc, ¬ (x.fn = e.fn ∧ x.meets (d.pasidOf e.space) e.upage 1 = true))
                    ∧ next (.prgResponse port prgi .invalidRequest) closed
                    ∧ next (.prgResponse port prgi .responseFailure) (fun t => closed t ∧ e.fn ∈ (t.dev.ports[port]).priOff))))))
     ∧ (∀ (port : Fin 2) (pasid upage n i : Nat),
          ((d.ports[port]).hinv.length < 32 → puts (.atsInvalidationRequest port pasid upage n) (fun e => e.onPort port fun p =>
             { p with hinv := p.hinv ++ [(pasid, upage, n)], atc := p.atc.filter fun x => !x.meets pasid upage n }))
          ∧ (32 ≤ (d.ports[port]).hinv.length → puts (.atsInvalidationRequest port pasid upage n) (fun e => e.onPort port fun p =>
              { p with hinv := p.hinv ++ [(pasid, upage, n)] }))
          ∧ (i < 32 → i < (d.ports[port]).hinv.length → next (.atsInvalidationComplete port i) (fun t =>
              (t.dev.ports[port]).hinv = dropAt (d.ports[port]).hinv i ∧ t.dev.outs = .invDone port :: d.outs ∧ t.dev.mem = d.mem
              ∧ ∀ x, (dropAt (d.ports[port]).hinv i)[31]? = some x → ∀ e ∈ (t.dev.ports[port]).atc, e.meets x.1 x.2.1 x.2.2 = false))))

/-- A negotiation is accepted when every selection was offered. Before one, every other request is refused. After it, a challenge, a
signed measurement or a key exchange is answered with a leaf taken off those that remain, and without one with Unspecified;
unsigned measurements take none; the measurement block of a VF comes with its interface report. A key exchange opens a session,
of four at most. In a session, a heartbeat counts as a message, a key update starts the record counts afresh, an end or an
expiry removes it. A key program marks a direction of a stream for which there is room, and K_SET_GO with both directions makes
it active and secure; an integrity failure makes it insecure and brings the interfaces bound to it to ERROR. Function 0 stays
unlocked. An unlocked interface of another function with a bound vdev is locked to the stream that the request names, started
over that stream once it is keyed by the session that locked it, and stopped by a secured message. The refusal code, the
refusals before negotiation and of a fifth session, and the stream that LOCK and START name are the model's choice (log entry
35). (17_host_security_links.md (R398, R409, R410, R411, R412, R413, R414).) -/
def Obligations.SecureSessionsStreamsAndInterfaces : Prop :=
  ∀ (s : State) (port : Fin 2),
    (let d := s.dev
     let p := d.ports[port]
     let next := fun (i : Instr) (f : State → Prop) => ∃ t, exec i s = .next t ∧ f t
     let answers := fun (i : Instr) (e : Dev) (code : Nat) => exec i s = .next { s with dev := { e with outs := .spdm port code :: e.outs } }
     let spent := d.onMc fun m => { m with xmssrem := m.xmssrem - 1 }
     (∀ o : SpdmOffer, (let all := o.hash && o.baseAsym && o.extAsym && o.dhe && o.aead && o.keySchedule
        (all = true → answers (.spdmNegotiateAlgorithms port o) (d.onPort port fun p => { p with negotiated := true }) 0)
        ∧ (all = false → answers (.spdmNegotiateAlgorithms port o) d 1)))
     ∧ (p.negotiated = true → 0 < d.mc.xmssrem → answers (.spdmChallenge port) spent 0
          ∧ (∀ block, answers (.spdmGetMeasurements ⟨port, true, block⟩) (spent.interfaceReport port block) 0)
          ∧ (p.sessions.length < 4 → answers (.spdmKeyExchange port) (spent.onPort port fun p =>
              { p with sessions := p.sessions ++ [{ id := p.nextSession, last := d.dcc, recs := Vector.replicate 2 0, keys := 0 }],
                       nextSession := p.nextSession + 1 }) 0))
     ∧ (p.negotiated = true → d.mc.xmssrem = 0 → answers (.spdmChallenge port) d 2 ∧ answers (.spdmKeyExchange port) d 2
          ∧ ∀ block, answers (.spdmGetMeasurements ⟨port, true, block⟩) d 2)
     ∧ (p.negotiated = true → ∀ block, answers (.spdmGetMeasurements ⟨port, false, block⟩) (d.interfaceReport port block) 0)
     ∧ (p.negotiated = false → answers (.spdmChallenge port) d 3 ∧ answers (.spdmKeyExchange port) d 3
          ∧ ∀ signed block, answers (.spdmGetMeasurements ⟨port, signed, block⟩) d 3)
     ∧ (∀ (f : Fin 249) block, f ≠ 0 → block = 0x10 + f.val → (d.interfaceReport port block).outs = .report port block ((0#64, 4096#64)
          :: ((d.windowsOf f).filter Window.valid).map fun w => (BitVec.ofNat 64 w.lo, BitVec.ofNat 64 w.bytes)) :: d.outs)
     ∧ (∀ block, (block < 0x11 ∨ 0x109 ≤ block) → d.interfaceReport port block = d)
     ∧ (p.negotiated = true → 0 < d.mc.xmssrem → 4 ≤ p.sessions.length → answers (.spdmKeyExchange port) d 3)
     ∧ (∀ (id : Nat) (x : Session), p.sessions.find? (fun y => y.id == id) = some x →
          (let e := d.onPort port fun p => { p with sessions := p.sessions.map fun y =>
             if y.id = id then { y with last := d.dcc, recs := y.recs.map (· + 1) } else y }
           answers (.spdmHeartbeat port id) e 0
           ∧ next (.spdmKeyUpdate port id) (fun t => t.dev.outs = .spdm port 0 :: d.outs ∧ t.dev.mem = d.mem
               ∧ ∀ y ∈ (t.dev.ports[port]).sessions, y.id = id → y.last = d.dcc ∧ y.recs = Vector.replicate 2 0)
           ∧ ((∀ f : Fin 249, (d.pf.tdis[f]).of port id = false) →
               next (.spdmEndSession port id) (fun t => t.dev.outs = .spdm port 0 :: d.outs ∧ t.dev.pf = d.pf
                 ∧ (t.dev.ports[port]).sessions = p.sessions.filter fun y => y.id != id)
               ∧ ((x.last + 120000000000 ≤ d.dcc ∨ ∃ n ∈ x.recs.toList, 2 ^ 32 ≤ n) → exec (.sessionExpiry port id) s
                   = .next (s.onDev fun e => e.onPort port fun p => { p with sessions := p.sessions.filter fun y => y.id != id })))
           ∧ (∀ stream tx, (stream = 0 ∨ (∃ y ∈ p.streams, y.id = stream) ∨ (p.streams.filter fun y => y.id != 0).length < 64) →
               next (.ideKmKeyProg port id stream tx) (fun t => t.dev.outs = .spdm port 0 :: d.outs
                 ∧ ∃ y ∈ (t.dev.ports[port]).streams, y.id = stream ∧ y.prog.getLsbD (if tx then 0 else 1) = true))
           ∧ (∀ stream, (∃ y ∈ p.streams, y.id = stream ∧ y.prog = 3#2) →
               next (.ideKmKSetGo port id stream) (fun t => t.dev.outs = .spdm port 0 :: d.outs
                 ∧ ∀ y ∈ (t.dev.ports[port]).streams, y.id = stream → y.active = true ∧ y.secure = true))
           ∧ (∀ stream, (∀ y ∈ p.streams, y.id = stream → y.prog ≠ 3#2) → answers (.ideKmKSetGo port id stream) e 3)
           ∧ (∀ (stream : Nat) (f : Fin 249) (v : Vdev), f ≠ 0 → (d.pf.tdis[f]).st = .unlocked → d.boundTo f = some v →
               answers (.lockInterface ⟨port, id⟩ stream f) (e.onTdi f fun t =>
                 { t with st := .locked, port := port, session := id, stream := stream }) 0)
           ∧ (∀ stream, answers (.lockInterface ⟨port, id⟩ stream 0) e 3)
           ∧ ((d.pf.tdis[(0 : Fin 249)]).st = .unlocked → ∀ (stream : Nat) (f : Fin 249) (i : Instr),
               i = .lockInterface ⟨port, id⟩ stream f ∨ i = .startInterface port id stream f → next i (fun t => (t.dev.pf.tdis[(0 : Fin 249)]).st = .unlocked))
           ∧ (∀ (stream : Nat) (f : Fin 249), f ≠ 0 → (d.pf.tdis[f]).st = .locked → (d.pf.tdis[f]).port = port → (d.pf.tdis[f]).session = id → (d.pf.tdis[f]).stream = stream →
               ((stream ≠ 0 ∧ ∃ y ∈ p.streams, y.id = stream ∧ y.active = true ∧ y.secure = true) →
                 answers (.startInterface port id stream f) (e.onTdi f fun t => { t with st := .run }) 0)
               ∧ ((stream = 0 ∨ ∀ y ∈ p.streams, y.id = stream → ¬ (y.active = true ∧ y.secure = true)) →
                 answers (.startInterface port id stream f) e 3))
           ∧ (∀ f : Fin 249, f ≠ 0 → (d.pf.tdis[f]).port = port → next (.stopInterface ⟨port, id⟩ f) (fun t => (t.dev.pf.tdis[f]).st = .unlocked
               ∧ t.dev.outs.head? = some (.spdm port 0)))))
     ∧ (∀ id : Nat, p.sessions.find? (fun y => y.id == id) = none → answers (.spdmHeartbeat port id) d 3)
     ∧ (d.panels = [] → (∀ n : Fin 128, (d.tiles[n]).drain = none) →
          (∀ stream, next (.ideIntegrityFailure port stream) (fun t => (∀ y ∈ (t.dev.ports[port]).streams, y.id = stream → y.secure = false)
             ∧ ∀ f : Fin 249, ((d.pf.tdis[f]).st = .locked ∨ (d.pf.tdis[f]).st = .run) → (d.pf.tdis[f]).port = port →
                 (d.pf.tdis[f]).stream = stream → (t.dev.pf.tdis[f]).st = .error))))

/-- A working port accepts the next flit in order that passes its checks and acknowledges it, answers a failed check, a gap or a
full buffer with a NAK and a repeated flit with its acknowledgement; an acknowledgement, or the one that a good flit carries,
frees the replay buffer, a NAK of a known SEQ sends again from it, a silent period is counted, sixteen retrain the link, and the
retraining ends with everything sent again or the port down and its flits counted. A due router sends a tack on each seam; a
valid tack with the next SEQ clears the misses, a malformed one, a span over the announced rate or a flit outside the announced
panel is noted, the third miss raises silent suspicion, and a full window babbling suspicion, with a vote to two neighbours. A
vote is recorded and forwarded once, that of a voter recorded as fenced is dropped, a router in probation drops all, expired
votes go, a fence or unfence flit is learnt and flooded on, a self-test ends in probation or retirement, and 64 valid probation
tacks cast a reinstatement vote. The model's choice are the SEQ expected after a miss or a gap (log entry 57), how votes run
(61) and the SEQ and ACKSEQ of flits without data (81). (17_host_security_links.md (R416, R418),
18_resilience_power_management.md (R420, R421, R422, R423, R424, R425, R427, R429).) -/
def Obligations.SeamsAndRouters : Prop :=
  ∀ s : State,
    (let d := s.dev
     let next := fun (i : Instr) (f : State → Prop) => ∃ t, exec i s = .next t ∧ f t
     let puts := fun (i : Instr) (f : Dev → Dev) => exec i s = .next (s.onDev f)
     (∀ (p : Fin 8) (fl : FlitIn) (seq i : Nat), (d.seams[p]).up = true → (d.seams[p]).retrain = none →
        (let x := d.seams[p]
         let f := flitOf fl
         let ahead := (f.seq + 4096 - x.rxSeq % 4096) % 4096
         let news := flitGood fl = true ∧ flitType fl = 0 ∧ ∀ y ∈ x.replay, y.seq ≠ flitAckSeq fl
         let control := fun (y : SeamPort) (nak : Bool) => Out.flit p (flitRaw p (packFields 1216
           [(0x00, 2, if nak then 0x2000 + y.rxSeq % 4096 else 0x1000), (0x02, 2, (y.rxSeq + 4095) % 4096), (0x04, 1, d.mc.config.spdev)]))
         let tells := fun (i : Instr) (o : Out) => puts i fun e => { e with outs := o :: e.outs }
         let acks := fun (t : State) => t.dev.outs = d.outs
           ∧ t.dev.seams[p] = { x with replay := x.replay.drop (i + 1), naks := 0, silent := 0, timer := d.dcc + ackPeriod }
         let again := fun (l : List SeamFlit) (t : State) => (l.map fun f => Out.flit p (f.raw p t.dev.seams[p])).reverse
         (flitGood fl = false → tells (.seamFlitReceive p fl) (control x true))
         ∧ (news → 2048 ≤ ahead → tells (.seamFlitReceive p fl) (control x false))
         ∧ (news → ahead < 2048 → (ahead ≠ 0 ∨ 512 ≤ x.rx.length) → tells (.seamFlitReceive p fl) (control x true))
         ∧ (news → ahead = 0 → x.rx.length < 512 → next (.seamFlitReceive p fl) (fun t => t.dev.mem = d.mem
              ∧ t.dev.outs = control t.dev.seams[p] false :: d.outs ∧ (t.dev.seams[p]).rxSeq = (x.rxSeq + 1) % 4096
              ∧ (farDev f.far = d.mc.config.spdev → (t.dev.seams[p]).rx = x.rx ++ [f] ∧ t.dev.mc = d.mc)
              ∧ (farDev f.far ≠ d.mc.config.spdev → (t.dev.seams[p]).rx = x.rx ∧ t.dev.mc = { d.mc with spdrop := satAdd d.mc.spdrop 1 })))
         ∧ (x.replay.findIdx? (fun f => f.seq == seq) = some i → next (.seamAckReceive p seq) acks)
         ∧ (flitGood fl = true → flitType fl = 3 → x.replay.findIdx? (fun f => f.seq == flitAckSeq fl) = some i → next (.seamFlitReceive p fl) acks)
         ∧ ((seq = x.txSeq ∨ ∃ f ∈ x.replay, f.seq = seq) → next (.seamNakReceive p seq) (fun t =>
              (t.dev.seams[p]).replay = x.replay.dropWhile (fun f => f.seq != seq)
              ∧ t.dev.outs = again (x.replay.dropWhile fun f => f.seq != seq) t ++ d.outs
              ∧ (t.dev.seams[p]).naks = if x.naks ≠ 0 ∧ x.nakSeq = seq then x.naks + 1 else 1))
         ∧ (x.replay ≠ [] → x.timer ≤ d.dcc → puts (.seamAckTimeout p) (fun e => e.onSeam p fun y =>
              { y with silent := y.silent + 1, timer := y.timer + ackPeriod }))
         ∧ ((16 ≤ x.naks ∨ 16 ≤ x.silent) → puts (.linkRetrain p) (fun e => e.onSeam p fun y =>
              { y with retrain := some (e.dcc + 1000000), naks := 0, silent := 0 }))))
     ∧ (∀ p : Fin 8, (d.seams[p]).retrain.isSome = true →
          next (.retrainEnd p true) (fun t => (t.dev.seams[p]).retrain = none ∧ (t.dev.seams[p]).replay = (d.seams[p]).replay
            ∧ t.dev.outs = ((d.seams[p]).replay.map fun f => Out.flit p (f.raw p d.seams[p])).reverse ++ d.outs)
          ∧ next (.retrainEnd p false) (fun t => (t.dev.seams[p]).up = false ∧ (t.dev.seams[p]).replay = [] ∧ t.dev.outs = d.outs
              ∧ t.dev.mc.spdrop = satAdd d.mc.spdrop (d.seams[p]).replay.length))
     ∧ (∀ (n : Fin 128) (k : Fin 4), (∀ j : Fin 4, ((d.routers[n]).nbr[j]).susp = false) →
          (let r := d.routers[n]
           let x := r.nbr[k]
           let nbr := fun (t : State) => (t.dev.routers[n]).nbr[k]
           let suspects := fun (i : Instr) (c : BitVec 2) => (∀ m : Fin 128, (d.routers[m]).fence ≠ 2) → r.fence = 0 → (d.routers[neighbour n k]).fence = 0 → r.votes = [] →
             next i (fun t => (nbr t).susp = true ∧ (nbr t).cause = c ∧ t.dev.flits.length = d.flits.length + 2)
           (r.nextTack ≠ 0 → r.nextTack ≤ d.dcc → next (.tackSend n) (fun t => (t.dev.routers[n]).txSeq = (r.txSeq + 1) % 65536
              ∧ (t.dev.routers[n]).nextTack = r.nextTack + 1024
              ∧ t.dev.flits = d.flits ++ (List.finRange 4).map fun j =>
                  { dest := neighbour n j, seam := opposite j, body := .tack (r.tack n ((r.txSeq + 1) % 65536)) }))
           ∧ (∀ tk, tackOk tk = true →
               (tackSeq tk = (x.seq + 1) % 65536 → next (.tackReceive n k tk) (fun t => (nbr t).seq = tackSeq tk ∧ (nbr t).misses = 0
                  ∧ (nbr t).good = x.good + 1 ∧ (nbr t).rate = recField tk 4 1 ∧ (nbr t).panel = BitVec.ofNat 15 (recField tk 6 2)
                  ∧ (nbr t).susp = false))
               ∧ (tackSeq tk ≠ (x.seq + 1) % 65536 → next (.tackReceive n k tk) (fun t => (nbr t).seq = tackSeq tk ∧ (nbr t).good = 0)))
           ∧ (∀ tk, tackOk tk = false → (noteTime x.malformed d.dcc).length < 16 → x.overRate = [] → x.outside = [] →
               next (.tackReceive n k tk) (fun t => nbr t = { x with malformed := noteTime x.malformed d.dcc, good := 0 }))
           ∧ (x.deadline ≠ 0 → x.deadline ≤ d.dcc →
               (x.misses < 2 → puts (.tackMiss n k) (fun e => e.onRouter n fun y => { y with nbr := y.nbr.set k { y.nbr[k] with
                  misses := y.nbr[k].misses + 1, seq := (y.nbr[k].seq + 1) % 65536, deadline := y.nbr[k].deadline + 1280, good := 0, probation := 0 } }))
               ∧ (2 ≤ x.misses → suspects (.tackMiss n k) 1#2))
           ∧ (∀ beats, (if x.rate = 0 then 64 else x.rate) < beats →
               ((noteTime x.overRate d.dcc).length < 4 → x.malformed = [] → x.outside = [] → next (.babblingSuspicion n k (.span beats)) (fun t =>
                  nbr t = { x with overRate := noteTime x.overRate d.dcc, good := 0 } ∧ t.dev.flits = d.flits))
               ∧ (4 ≤ (noteTime x.overRate d.dcc).length → suspects (.babblingSuspicion n k (.span beats)) 2#2))
           ∧ (∀ beats, beats ≤ (if x.rate = 0 then 64 else x.rate) → x.babbles d.dcc = none → exec (.babblingSuspicion n k (.span beats)) s = .next s)
           ∧ (16 ≤ (noteTime x.malformed d.dcc).length → x.overRate = [] → suspects (.babblingSuspicion n k .malformed) 3#2)
           ∧ (∀ v : Fin 128, (inPanel x.panel v = true → x.babbles d.dcc = none → exec (.babblingSuspicion n k (.panelFlit v)) s = .next s)
               ∧ (inPanel x.panel v = false → 4 ≤ (noteTime x.outside d.dcc).length → x.overRate = [] →
                   suspects (.babblingSuspicion n k (.panelFlit v)) 3#2))
           ∧ (64 ≤ x.probation → r.fence = 0 → r.votes = [] → (∀ m : Fin 128, (d.routers[m]).fence ≠ 2) → next (.reinstatementVote n k) (fun t => (nbr t).probation = 0
                ∧ (t.dev.routers[n]).votes = [{ suspect := neighbour n k, voter := n, expiry := d.dcc + 16384, since := d.dcc, reinst := true }]
                ∧ t.dev.flits.length = d.flits.length + 2))))
     ∧ (∀ (n u v : Fin 128) (i j : Fin 4) (since : Nat) (relay reinst : Bool), (d.routers[n]).fence ≠ 2 →
          (d.routers[n]).fmap.getLsbD v.val = false → neighbourIndex u n = some i → neighbourIndex u v = some j →
          (d.routers[n]).votes = [] → (d.routers[cornerTile u i (opposite j)]).fence ≠ 2 → next (.voteFlitReceive n u ⟨v, since⟩ relay false reinst) (fun t =>
            (t.dev.routers[n]).votes = [{ suspect := u, voter := v, expiry := d.dcc + 16384, since := since, reinst := reinst }]
            ∧ t.dev.flits = (d.takeFlit n (.vote u v since relay false reinst)).flits ++
                if relay = false ∧ (d.routers[n]).fence = 0
                then [{ dest := neighbour u (opposite j), seam := 0, body := .vote u v since true false reinst }] else []))
     ∧ (∀ n u v : Fin 128, puts (.voteExpiry n u v) (fun e => e.onRouter n fun r =>
          { r with votes := r.votes.filter fun x => !(x.suspect == u && x.voter == v && decide (x.expiry ≤ e.dcc)) }))
     ∧ (∀ n u v : Fin 128, (d.routers[n]).fence ≠ 2 → (d.routers[n]).fmap.getLsbD v.val = true → ∀ since relay withdraw reinst,
          next (.voteFlitReceive n u ⟨v, since⟩ relay withdraw reinst) (fun t => t.dev.routers = d.routers
            ∧ t.dev.flits = (d.takeFlit n (.vote u v since relay withdraw reinst)).flits))
     ∧ (∀ n u : Fin 128, (d.routers[n]).fence = 2 → ∀ v since relay withdraw reinst,
          puts (.voteFlitReceive n u ⟨v, since⟩ relay withdraw reinst) (fun e => e.takeFlit n (.vote u v since relay withdraw reinst))
          ∧ puts (.fenceFlitReceive n u) (fun e => e.takeFlit n (.fence u)) ∧ puts (.unfenceFlitReceive n u) (fun e => e.takeFlit n (.unfence u)))
     ∧ (∀ n u : Fin 128, (d.routers[n]).fence ≠ 2 →
          ((d.routers[n]).fmap.getLsbD u.val = false →
            ((d.routers[u]).fence ≠ 0 → puts (.fenceFlitReceive n u) (fun e =>
               ((e.takeFlit n (.fence u)).onRouter n fun r => { r with fmap := setBit r.fmap u.val true }).flood n (.fence u)))
            ∧ ((d.routers[u]).fence = 0 → (d.tiles[u]).ops = [] → (d.tiles[u]).owner = .free → (d.tiles[u]).drain = none →
                next (.fenceFlitReceive n u) (fun t => (t.dev.routers[n]).fmap.getLsbD u.val = true
                  ∧ (t.dev.routers[u]).fence = if 3 ≤ ((d.routers[u]).fences.filter fun x => decide (d.dcc < x + 86400000000000)).length then 3 else 1)))
          ∧ ((d.routers[n]).fmap.getLsbD u.val = true →
              puts (.fenceFlitReceive n u) (fun e => e.takeFlit n (.fence u))
              ∧ ((d.routers[u]).fence = 2 → next (.unfenceFlitReceive n u) (fun t => (t.dev.routers[n]).fmap.getLsbD u.val = false
                  ∧ (t.dev.routers[u]).fence = 0)))
          ∧ ((d.routers[n]).testing.isSome = true → (∀ m : Fin 128, (d.routers[m]).queued = false) → ∀ pass,
              next (.selftestComplete n pass) (fun t => (t.dev.routers[n]).testing = none ∧ (t.dev.routers[n]).fence = if pass then 2 else 3)))
    )

/-- A due patrol scrub repairs the correctable words and is due a day later. Power failure of a powered part, recognised when its
input has been low for 5 µs, or a quad at 115 C, begins the checkpoint with every running panel ordered evicted; at the save
limit the panels that have not begun are aborted, and when all is saved and drained the slices are written back and the part is
in retention with its marker. When power returns, or every quad has cooled, a part whose retention held resumes where its steps
of bring-up succeed and stops with BFAIL where one fails, and one whose retention failed starts cold with CKLOST; a reset
without a checkpoint starts cold. Dormancy is entered and left, a quad at 105 C is logged, an offset of time is slewed or,
forward beyond 1 ms, stepped, and holdover is entered when no source is left. That the marker goes when the part runs (log entry
62) and that the DCC goes on over a reset (63) is the model's choice. (18_resilience_power_management.md (R430, R434, R435,
R436, R437, R438, R439, R446).) -/
def Obligations.PowerTimeAndTemperature : Prop :=
  ∀ s : State,
    (let d := s.dev
     let next := fun (i : Instr) (f : State → Prop) => ∃ t, exec i s = .next t ∧ f t
     let puts := fun (i : Instr) (f : Dev → Dev) => exec i s = .next (s.onDev f)
     let running := ∀ p ∈ d.panels, p.phase ≠ .trap ∧ p.phase ≠ .debug ∧ p.phase ≠ .over
     let saving := fun (t : State) => t.dev.mc.st = .checkpoint ∧ t.dev.mc.pfailAt = d.dcc ∧ t.dev.mem = d.mem
       ∧ ∀ p ∈ t.dev.panels, p.evict.isSome = true
     let ok := fun (l : List Nat) => ∀ k ∈ l, Config.bringUpOk d.fresh k = true
     (d.mc.scrubAt ≠ 0 → d.mc.scrubAt ≤ d.dcc → d.badWords = [] → next .patrolScrub (fun t => t.dev.softWords = [] ∧ t.dev.mem = d.mem
        ∧ t.dev.mc.scrubAt = d.dcc + 86400000000000))
     ∧ (running → (d.mc.st = .running ∨ d.mc.st = .dormant) →
          ((d.mc.pfailLow = true ∧ d.mc.pfail = false ∧ d.mc.pfailSince + 5000 ≤ d.dcc ∨ d.mc.pfail = true) →
             next .pfailAssert (fun t => saving t ∧ t.dev.mc.pfail = true))
          ∧ (∀ q : Fin 32, 920 ≤ tempOf (d.quads[q]).temp → next (.thermalThreshold q) (fun t => saving t ∧ t.dev.mc.thermal = true)))
     ∧ (∀ q : Fin 32, 840 ≤ tempOf (d.quads[q]).temp → tempOf (d.quads[q]).temp < 920 →
          puts (.thermalThreshold q) (fun e => e.logEvent 0x05 none none none))
     ∧ (d.mc.st = .checkpoint → d.mc.pfailAt + 1000000 ≤ d.dcc → (∃ p ∈ d.panels, p.unsaved = true) → (∀ p ∈ d.panels, p.pre = none) →
          next .checkpointSaveDeadline (fun t => ∀ p ∈ t.dev.panels, p ∈ d.panels ∧ p.unsaved = false))
     ∧ (d.checkpointDone = true → next .checkpointComplete (fun t => t.dev.mc.st = .retention ∧ t.dev.mc.marker = true ∧ t.dev.mc.retok = true
          ∧ ∀ q : Fin 32, (t.dev.quads[q]).slc = []))
     ∧ (d.dormancyDue = true → next .dormantEntry (fun t => t.dev.mc.st = .dormant ∧ ∀ q : Fin 32, (t.dev.quads[q]).slc = []))
     ∧ (d.mc.st = .dormant → next .dormantWake (fun t => t.dev.mc.st = .running ∧ t.dev.mem = d.mem))
     ∧ (d.mc.pfailLow = false → d.mc.pfail = true → d.mc.pfailSince + 1000000 ≤ d.dcc →
          puts .pfailDeassert (fun e => e.onMc fun m => { m with pfail := false }))
     ∧ (d.mc.st = .retention →
          puts .retokLow (fun e => e.onMc fun m => { m with retok := false })
          ∧ (∀ i, (i = .powerReturnResume ∧ d.mc.pfail = false ∧ d.mc.thermal = false ∨ i = .thermalResume ∧ d.cool = true) →
              (d.mc.retok = false → next i (fun t => t.dev.mc.cklost = true))
              ∧ (d.mc.retok = true →
                  (ok [5, 6, 7] → d.mc.slotOk 1 = true → next i (fun t => t.dev.mc.st = .running ∧ t.dev.mc.marker = false ∧ t.dev.mc.bfail = false))
                  ∧ (Config.bringUpOk d.fresh 5 = false → next i (fun t => t.dev.mc.bfail = true ∧ t.dev.mc.bstep = 5)))))
     ∧ (d.mc.marker = false → ok [1, 2, 3, 4, 5, 6, 7] → d.mc.slotOk 0 = true → d.mc.slotOk 2 = true → d.mc.slotOk 1 = true →
          next .powerOnReset (fun t => t.dev.mc.st = .running ∧ t.dev.panels = [] ∧ t.dev.vdevs = [] ∧ t.dev.dcc = d.dcc ∧ t.agenda = []
            ∧ ∀ k : Fin 3, t.dev.mc.slots[k] = none))
     ∧ (∀ (port : Fin 3) (off ppb : Int), d.mc.sourceUsed port = true →
          (let heard := fun (m : Mc) => { m with
             tsync := putField m.tsync 0 2 (if port.val < 2 then 1 else 2), toffs := BitVec.ofInt 64 off, holdover := ppb }
           (off ≤ 1000000 → puts (.ptpMessage port off ppb) (fun e => e.onMc fun m => { heard m with slew := off }))
           ∧ (1000000 < off → next (.ptpMessage port off ppb) (fun t => t.dev.dcc = d.dcc + off.toNat ∧ t.dev.mc.slew = 0
               ∧ t.dev.mc.tsync = setBit (heard d.mc).tsync 2 true ∧ t.dev.mem = d.mem))))
     ∧ ((fieldOf d.mc.tsync 0 2 = 1 ∨ fieldOf d.mc.tsync 0 2 = 2) → (∀ k : Fin 3, d.mc.sourceOn k = false) →
          puts .dccHoldoverEntry (fun e => e.onMc fun m => { m with tsync := putField m.tsync 0 2 3 })))
end

