-- ==== Sys2Proof/Laws/Context.lean ====
section
/-! SUPPORT. The length of a context image: its fixed part, the named state of its masks and, where it is full, the path part (R340). -/

namespace Sys2Proof.Laws
open Sys2Proof Sys2Proof.Machine

theorem placeFields_length (n : Nat) (l : List (Nat × Nat × Nat)) : (placeFields n l).length = n := by simp [placeFields]

theorem ctxImage_length (d : Dev) (n : Fin 128) (lm : BitVec 21) (bm : BitVec 16) (full : Bool) (spill : Nat) :
    (d.ctxImage n lm bm full spill).length
      = fixedSize + (d.namedPart n lm ((d.tiles[n]).freeBanks bm)).length + if full then pathSize else 0 := by
  have h (x : Nat) : (leBytes 4 x).length = 4 := by simp [leBytes]
  cases full <;>
    simp [Dev.ctxImage, Tile.pathPart, placeFields_length, h, fixedSize, pathSize, tpathSize, Nat.add_assoc] <;> omega

theorem namedPart_length (d : Dev) (n : Fin 128) (lm : BitVec 21) (bm : BitVec 16) :
    (d.namedPart n lm bm).length
      = (if live lm 0 then 256 else 0) + ((List.range 4).map fun c => if live lm (1 + c) then 1024 else 0).sum
        + ((List.range 4).map fun c => if live lm (5 + c) then 1024 else 0).sum
        + ((List.finRange 8).map fun i => if live lm (9 + i.val) then 4352 else 0).sum
        + ((List.finRange 4).map fun i => if live lm (17 + i.val) then 16384 else 0).sum
        + ((List.range 16).map fun b => if bm.getLsbD b && !((d.tiles[n]).named lm).owned b then 65536 else 0).sum := by
  simp only [Dev.namedPart, List.length_append, List.length_flatMap, apply_ite List.length, placeFields_length, Dev.bytes, List.length_map, List.length_range, List.length_nil]

end Sys2Proof.Laws
end

