-- ==== Sys2Proof/Laws/Decode.lean ====
section
/-! SUPPORT. What the decoder and the encoder do to fields, codes and one-operation bundles: the lemmas from which each instruction's
round trip follows. -/

namespace Sys2Proof

/-! Fields -/

theorem pack_lt (l : List (Nat × Nat)) : pack l < 2 ^ widthSum (l.map Prod.fst) := by
  induction l with
  | nil => simp [pack, widthSum]
  | cons p r ih =>
    obtain ⟨w, v⟩ := p
    simp only [pack, List.map_cons, widthSum, pow_add]
    have h1 : v % 2 ^ w < 2 ^ w := Nat.mod_lt _ (by positivity)
    have h2 : (v % 2 ^ w + 1) * 2 ^ widthSum (r.map Prod.fst) ≤ 2 ^ w * 2 ^ widthSum (r.map Prod.fst) := Nat.mul_le_mul_right _ h1
    nlinarith

theorem unpack_add (ws : List Nat) (x k : Nat) : unpack ws (k * 2 ^ widthSum ws + x) = unpack ws x := by
  induction ws generalizing k with
  | nil => simp [unpack]
  | cons w r ih =>
    simp only [unpack, widthSum, pow_add]
    have e : k * (2 ^ w * 2 ^ widthSum r) + x = (k * 2 ^ w) * 2 ^ widthSum r + x := by ring
    rw [e, ih, Nat.mul_comm (k * 2 ^ w), Nat.mul_add_div (by positivity), Nat.mul_comm k, Nat.mul_add_mod]

theorem unpack_pack (l : List (Nat × Nat)) : unpack (l.map Prod.fst) (pack l) = l.map fun p => p.2 % 2 ^ p.1 := by
  induction l with
  | nil => simp [unpack]
  | cons p r ih =>
    obtain ⟨w, v⟩ := p
    simp only [pack, List.map_cons, unpack]
    rw [unpack_add, ih, Nat.mul_comm, Nat.mul_add_div (by positivity), Nat.div_eq_of_lt (pack_lt r), Nat.add_zero, Nat.mod_mod]

/-- Fields put together and cut apart again at the same widths. -/
theorem unpack_pack_of {ws : List Nat} {l : List (Nat × Nat)} (h : l.map Prod.fst = ws) :
    unpack ws (pack l) = l.map fun p => p.2 % 2 ^ p.1 := h ▸ unpack_pack l

@[simp] theorem unpackA (d a b ix sub : Nat) : unpack fmtA (packA d a b ix sub) = [d % 32, a % 32, b % 32, ix % 2, sub % 64] :=
  unpack_pack [(5, d), (5, a), (5, b), (1, ix), (6, sub)]
@[simp] theorem unpackB (d a i : Nat) : unpack fmtB (packB d a i) = [d % 32, a % 32, i % 4096] :=
  unpack_pack [(5, d), (5, a), (12, i)]
@[simp] theorem unpackC (d i : Nat) : unpack fmtC (packC d i) = [d % 32, i % 131072] := unpack_pack [(5, d), (17, i)]
theorem packA_lt (d a b ix sub : Nat) : packA d a b ix sub < 2 ^ 22 := pack_lt _
theorem packB_lt (d a i : Nat) : packB d a i < 2 ^ 22 := pack_lt _
theorem packC_lt (d i : Nat) : packC d i < 2 ^ 22 := pack_lt _

/-! Codes -/

theorem fin?_val {n : Nat} (x : Fin n) : fin? n x.val = some x := by simp [fin?]
theorem fin?_mod {n m : Nat} (x : Fin n) (h : n ≤ m) : fin? n (x.val % m) = some x := by
  rw [Nat.mod_eq_of_lt (by omega)]; exact fin?_val x
@[simp] theorem fin?_128 (x : Fin 128) : fin? 128 (x.val % 128) = some x := fin?_mod x (by decide)
@[simp] theorem fin?_64 (x : Fin 64) : fin? 64 (x.val % 64) = some x := fin?_mod x (by decide)
@[simp] theorem fin?_32 (x : Fin 32) : fin? 32 (x.val % 32) = some x := fin?_mod x (by decide)
@[simp] theorem fin?_16 (x : Fin 16) : fin? 16 (x.val % 16) = some x := fin?_mod x (by decide)
@[simp] theorem fin?_16_32 (x : Fin 16) : fin? 16 (x.val % 32) = some x := fin?_mod x (by decide)
@[simp] theorem fin?_8 (x : Fin 8) : fin? 8 (x.val % 8) = some x := fin?_mod x (by decide)
@[simp] theorem fin?_8_32 (x : Fin 8) : fin? 8 (x.val % 32) = some x := fin?_mod x (by decide)
@[simp] theorem fin?_4 (x : Fin 4) : fin? 4 (x.val % 4) = some x := fin?_mod x (by decide)
@[simp] theorem fin?_3 (x : Fin 3) : fin? 3 (x.val % 4) = some x := fin?_mod x (by decide)
@[simp] theorem fin?_5 (x : Fin 5) : fin? 5 (x.val % 8) = some x := fin?_mod x (by decide)
@[simp] theorem fin?_6 (x : Fin 6) : fin? 6 (x.val % 8) = some x := fin?_mod x (by decide)
@[simp] theorem fin?_7 (x : Fin 7) : fin? 7 (x.val % 8) = some x := fin?_mod x (by decide)
@[simp] theorem fin?_9 (x : Fin 9) : fin? 9 (x.val % 32) = some x := fin?_mod x (by decide)
@[simp] theorem fin?_8_0 : fin? 8 0 = some 0 := rfl
@[simp] theorem fin?_32_0 : fin? 32 0 = some 0 := rfl

theorem mod_bv {n : Nat} (x : BitVec n) {m : Nat} (h : m = 2 ^ n) : x.toNat % m = x.toNat := by
  subst h; exact Nat.mod_eq_of_lt x.isLt

@[simp] theorem bv21_mod (x : BitVec 21) : x.toNat % 2097152 = x.toNat := mod_bv x rfl
@[simp] theorem bv17_mod (x : BitVec 17) : x.toNat % 131072 = x.toNat := mod_bv x rfl
@[simp] theorem bv16_mod (x : BitVec 16) : x.toNat % 65536 = x.toNat := mod_bv x rfl
@[simp] theorem bv12_mod (x : BitVec 12) : x.toNat % 4096 = x.toNat := mod_bv x rfl
@[simp] theorem bv10_mod (x : BitVec 10) : x.toNat % 1024 = x.toNat := mod_bv x rfl
@[simp] theorem bv8_mod (x : BitVec 8) : x.toNat % 256 = x.toNat := mod_bv x rfl
@[simp] theorem bv4_mod (x : BitVec 4) : x.toNat % 16 = x.toNat := mod_bv x rfl
@[simp] theorem bv2_mod (x : BitVec 2) : x.toNat % 4 = x.toNat := mod_bv x rfl

@[simp] theorem kOpd?_opd (o : KOpd) : kOpd? o.ext (ixOf o.ext % 2) (o.b % 32) = some o := by
  cases o with
  | reg r => simp [kOpd?, KOpd.ext, ixOf, KOpd.b]
  | imm i => simp [kOpd?, KOpd.ext, ixOf, KOpd.b]
@[simp] theorem sOpd?_opd (o : SOpd) : sOpd? o.ext (ixOf o.ext % 2) (o.b % 32) = some o := by
  cases o with
  | reg r => simp [sOpd?, SOpd.ext, ixOf, SOpd.b]
  | imm i => simp [sOpd?, SOpd.ext, ixOf, SOpd.b]
@[simp] theorem vOpd?_opd (o : VOpd) : vOpd? o.ext (ixOf o.ext % 2) (o.b % 32) = some o := by
  cases o with
  | reg r => simp [vOpd?, VOpd.ext, ixOf, VOpd.b]
  | imm i => simp [vOpd?, VOpd.ext, ixOf, VOpd.b]
@[simp] theorem mOpd?_opd (o : MOpd) : mOpd? o.ext (ixOf o.ext % 2) (o.b % 32) = some o := by
  cases o with
  | reg r => simp [mOpd?, MOpd.ext, ixOf, MOpd.b]
  | imm i => simp [mOpd?, MOpd.ext, ixOf, MOpd.b]
@[simp] theorem off?_ixOf (o : Option (BitVec 16)) : off? o (ixOf o % 2) = some o := by cases o <;> simp [off?, ixOf]
@[simp] theorem flag_unflag (b : Bool) : flag (unflag b % 2) = b := by cases b <;> rfl
@[simp] theorem landing?_ext (l : Landing) (h : l.due ≠ 0#12) : landing? (some l.ext) = some l := by
  obtain ⟨p, d⟩ := l
  have hd : d.toNat < 4096 := d.isLt
  have h0 : d.toNat ≠ 0 := fun e => h (BitVec.eq_of_toNat_eq (by simpa using e))
  cases p
  · have e : (BitVec.ofNat 16 (unflag false * 2 ^ 12 + d.toNat)).toNat = d.toNat := by simp [unflag]; omega
    simp only [landing?, Landing.ext, e]
    have h1 : d.toNat / 2 ^ 13 = 0 := by omega
    have h2 : d.toNat % 2 ^ 12 = d.toNat := by omega
    have h3 : d.toNat / 2 ^ 12 % 2 = 0 := by omega
    simp [h0, flag]; omega
  · have e : (BitVec.ofNat 16 (unflag true * 2 ^ 12 + d.toNat)).toNat = 4096 + d.toNat := by simp [unflag]; omega
    simp only [landing?, Landing.ext, e]
    have h1 : (4096 + d.toNat) / 2 ^ 13 = 0 := by omega
    have h2 : (4096 + d.toNat) % 2 ^ 12 = d.toNat := by omega
    have h3 : (4096 + d.toNat) / 2 ^ 12 % 2 = 1 := by omega
    have h4 : BitVec.ofNat 12 (4096 + d.toNat) = d := by apply BitVec.eq_of_toNat_eq; simp
    simp [h0, h4, flag]; omega

@[simp] theorem ity?_code (t : ITy) : ity? (t.code % 8) = some t := by cases t <;> rfl
@[simp] theorem fty?_code (t : FTy) : fty? (t.code % 4) = some t := by cases t <;> rfl
@[simp] theorem width?_code (t : Width) : width? (t.code % 4) = some t := by cases t <;> rfl
@[simp] theorem rmode?_code (t : RMode) : rmode? (t.code % 4) = some t := by cases t <;> rfl
@[simp] theorem signs?_code (t : Signs) : signs? (t.code % 4) = some t := by cases t <;> rfl
@[simp] theorem cfmt?_code (t : CFmt) : cfmt? (t.code % 16) = some t := by cases t <;> rfl
@[simp] theorem vfmt?_code (t : VFmt) : vfmt? (t.code % 16) = some t := by cases t <;> rfl
@[simp] theorem belem?_code (t : BElem) : belem? (t.code % 4) = some t := by cases t <;> rfl
@[simp] theorem dkind?_code (t : DKind) : dkind? (t.code % 16) = some t := by cases t <;> rfl
@[simp] theorem dkind2?_code (t : DKind2) : dkind2? (t.code % 4) = some t := by cases t <;> rfl
@[simp] theorem vord?_code (t : VOrd) : vord? (t.code % 4) = some t := by cases t <;> rfl
@[simp] theorem ldQual?_code (q : LdQual) : ldQual? (q.ord % 4) (q.sub % 4) = some q := by
  obtain h | s | s := q <;> first | (cases h <;> rfl) | (cases s <;> rfl)
@[simp] theorem stQual?_code (q : StQual) : stQual? (q.ord % 4) (q.scope % 4) (q.hint % 4) = some q := by
  obtain h | s | s := q <;> first | (cases h <;> rfl) | (cases s <;> rfl)
@[simp] theorem casQual?_code (q : CasQual) : casQual? (q.ord % 4) (q.scope % 4) = some q := by
  obtain _ | s | s | s := q <;> first | rfl | (cases s <;> rfl)
@[simp] theorem amoQual?_code (q : Option Scope) : amoQual? ((if q.isSome then 1 else 0) % 2) (arScope q % 4) = some q := by
  cases q with
  | none => rfl
  | some s => cases s <;> rfl
@[simp] theorem xsrc?_code (x : XSrc) : xsrc? x.ext (x.kind % 4) (x.reg % 32) = some x := by
  cases x with
  | s r => simp [xsrc?, XSrc.kind, XSrc.reg]
  | v f r => cases f <;> simp [xsrc?, XSrc.kind, XSrc.reg]
  | tsp b o => simp [xsrc?, XSrc.kind, XSrc.reg, XSrc.ext]
@[simp] theorem rsrc?_code (x : RSrc) : rsrc? (x.kind % 4) (x.reg % 32) = some x := by
  cases x with
  | v f r => cases f <;> simp [rsrc?, RSrc.kind, RSrc.reg]
  | tsp r => simp [rsrc?, RSrc.kind, RSrc.reg]
@[simp] theorem recSrc?_code (x : RecSrc) : recSrc? (x.code % 4) (x.reg % 32) = some x := by
  cases x <;> simp [recSrc?, RecSrc.code, RecSrc.reg]
@[simp] theorem chkp?_code (c : PoisonClass) (r : Fin 32) (h : r.val < c.size) : chkp? (c.code % 32) (r.val % 32) = some (c, r) := by
  cases c <;> simp_all [chkp?, PoisonClass.code, PoisonClass.size]
@[simp] theorem readout?_code (z : Fin 4) (zo : Option (Fin 4)) (tt : Option (Fin 8)) (st : Steps) (h1 : zo ≠ some z)
    (h2 : tt.isSome = (st.rs || st.cs || st.bias)) :
    readout? (z.val % 4) (optNat zo % 4) (optNat tt % 8) (unflag st.rs % 2) (unflag st.cs % 2) (unflag zo.isSome % 2) (unflag st.bias % 2)
      = some (zo, tt, st) := by
  obtain ⟨rs, cs, bias⟩ := st
  have hz : ∀ y : Fin 4, zo = some y → y.val ≠ z.val := fun y e k => h1 (by rw [e, Fin.ext k])
  have h0 : fin? 4 0 = some 0 := rfl
  cases zo with
  | none => cases tt <;> cases rs <;> cases cs <;> cases bias <;> simp_all [readout?, optNat, unflag, flag]
  | some y =>
    have hy := hz y rfl
    have : y.val % 4 ≠ z.val % 4 := by omega
    cases tt <;> cases rs <;> cases cs <;> cases bias <;> simp_all [readout?, optNat, unflag, flag]

/-! One-operation bundles -/

/-- The slots of a bundle with one operation. -/
theorem presentSlots_pow (s : Fin 8) : presentSlots (2 ^ s.val) = [s] := by revert s; decide

/-- A header word of one operation leads to its slot word. -/
theorem decodeBundle_one (svc : Bool) (e : SlotWord) (s : Fin 8) (hs : e.slot = s.val) (hx : svc = true → s = 0 ∨ s = 1 ∨ s = 5) (w : Nat) :
    decodeBundle svc [pack [(16, (e.ext.getD 0#16).toNat), (3, 0), (1, 0), (1, if e.ext.isSome then 1 else 0), (3, 0), (8, 2 ^ e.slot)], w]
      = match decodeSlot svc e.ext 8 s w with
        | some o => .bundle 8 (.ops 0 [o])
        | none => .illegal s.val := by
  obtain ⟨slot, opc, bits, ext⟩ := e
  simp only at hs; subst hs
  have hw : (widthSum [16,3,1,1,3,8]) = 32 := rfl
  set i := (ext.getD 0#16).toNat with hi
  have hi2 : i < 65536 := (ext.getD 0#16).isLt
  have hi3 : (if ext.isSome then 1 else 0 : Nat) = 0 → i = 0 := by cases ext <;> simp [hi]
  have hp : (2:Nat) ^ s.val < 256 ∧ 0 < (2:Nat)^s.val := by
    constructor
    · calc (2:Nat)^s.val < 2^8 := Nat.pow_lt_pow_right (by norm_num) s.isLt
        _ = 256 := by norm_num
    · positivity
  generalize hq : (2:Nat) ^ s.val = q at hp
  have hpres : presentSlots q = [s] := by rw [← hq]; exact presentSlots_pow s
  obtain ⟨xx, hxx⟩ : ∃ x : Nat, (if ext.isSome then 1 else 0 : Nat) = x := ⟨_, rfl⟩
  have hx1 : xx ≤ 1 := by subst hxx; split <;> omega
  rw [hxx] at hi3
  have H : pack [(16, i), (3, 0), (1, 0), (1, xx), (3, 0), (8, q)] = i * 65536 + xx * 2048 + q := by
    simp only [pack, List.map, widthSum]; norm_num
    rw [Nat.mod_eq_of_lt hi2, Nat.mod_eq_of_lt hp.1, Nat.mod_eq_of_lt (show xx < 2 by omega)]; omega
  simp only [hxx]
  rw [H]
  have h0 : i * 65536 + xx * 2048 + q ≠ 0 := by omega
  have h1 : (i * 65536 + xx * 2048 + q) % 256 = q := by omega
  have h2 : (i * 65536 + xx * 2048 + q) / 2 ^ 8 % 8 = 0 := by omega
  have h3 : (i * 65536 + xx * 2048 + q) / 2 ^ 11 % 2 = xx := by omega
  have h4 : (i * 65536 + xx * 2048 + q) / 2 ^ 12 % 2 = 0 := by omega
  have h5 : (i * 65536 + xx * 2048 + q) / 2 ^ 13 % 8 = 0 := by omega
  have h6 : (i * 65536 + xx * 2048 + q) / 2 ^ 16 % 2 ^ 16 = i := by omega
  have hsv : (svc = true → ¬ (s = 0 ∨ s = 1 ∨ s = 5) → False) := fun h1 h2 => h2 (hx h1)
  have hext : (if xx = 1 then some (BitVec.ofNat 16 i) else none) = ext := by
    subst hxx; cases ext <;> simp [hi]
  unfold decodeBundle
  simp only [h0, h1, h2, h3, h4, h5, h6, hpres, hext]
  have hq0 : q ≠ 0 := by omega
  have e1 : (xx = 0 && i != 0) = false := by
    rcases Nat.lt_or_ge xx 1 with h | h
    · have : xx = 0 := by omega
      simp [hi3 this]
    · have : xx ≠ 0 := by omega
      simp [this]
  simp [hq0, decodeSlots]
  clear H h0 h1 h2 h3 h4 h5 h6 hw
  generalize decodeSlot svc ext 8 s w = r
  have c1 : ¬ (xx = 0 ∧ ¬ i = 0) := fun h => h.2 (hi3 h.1)
  have c2 : ¬ (svc = true ∧ (¬ s = 0 ∧ ¬ s = 1) ∧ ¬ s = 5) := fun h => hsv h.1 (by tauto)
  simp only [c1, c2, if_false]
  cases r <;> rfl


/-- The words of a one-operation bundle. -/
def oneWords (e : SlotWord) : List Nat :=
  [pack [(16, (e.ext.getD 0#16).toNat), (3, 0), (1, 0), (1, if e.ext.isSome then 1 else 0), (3, 0), (8, 2 ^ e.slot)],
   pack [(6, e.opc), (1, 0), (3, 0), (22, e.bits)]]

theorem unpack_slotWord (opc x : Nat) (ho : opc < 64) (hx : x < 2 ^ 22) :
    unpack [6, 1, 3, 22] (pack [(6, opc), (1, 0), (3, 0), (22, x)]) = [opc, 0, 0, x] := by
  refine (unpack_pack_of (ws := [6, 1, 3, 22]) rfl).trans ?_
  simp [Nat.mod_eq_of_lt ho]; omega


end Sys2Proof
end

