-- ==== Sys2Proof/Laws/State.lean ====
section
/-! SUPPORT. What each change of a part of the device or of the state leaves in every field, so that no proof unfolds a record update. -/

namespace Sys2Proof.Machine

set_option Elab.async false

/-! `Dev.onTile` -/

@[simp] theorem Dev.onTile_mem (d : Dev) (n : Fin 128) (f : Tile → Tile) : (d.onTile n f).mem = d.mem := rfl
@[simp] theorem Dev.onTile_badWords (d : Dev) (n : Fin 128) (f : Tile → Tile) : (d.onTile n f).badWords = d.badWords := rfl
@[simp] theorem Dev.onTile_softWords (d : Dev) (n : Fin 128) (f : Tile → Tile) : (d.onTile n f).softWords = d.softWords := rfl
@[simp] theorem Dev.onTile_svcs (d : Dev) (n : Fin 128) (f : Tile → Tile) : (d.onTile n f).svcs = d.svcs := rfl
@[simp] theorem Dev.onTile_quads (d : Dev) (n : Fin 128) (f : Tile → Tile) : (d.onTile n f).quads = d.quads := rfl
@[simp] theorem Dev.onTile_routers (d : Dev) (n : Fin 128) (f : Tile → Tile) : (d.onTile n f).routers = d.routers := rfl
@[simp] theorem Dev.onTile_panels (d : Dev) (n : Fin 128) (f : Tile → Tile) : (d.onTile n f).panels = d.panels := rfl
@[simp] theorem Dev.onTile_bolts (d : Dev) (n : Fin 128) (f : Tile → Tile) : (d.onTile n f).bolts = d.bolts := rfl
@[simp] theorem Dev.onTile_vdevs (d : Dev) (n : Fin 128) (f : Tile → Tile) : (d.onTile n f).vdevs = d.vdevs := rfl
@[simp] theorem Dev.onTile_gens (d : Dev) (n : Fin 128) (f : Tile → Tile) : (d.onTile n f).gens = d.gens := rfl
@[simp] theorem Dev.onTile_resvs (d : Dev) (n : Fin 128) (f : Tile → Tile) : (d.onTile n f).resvs = d.resvs := rfl
@[simp] theorem Dev.onTile_nextLaunch (d : Dev) (n : Fin 128) (f : Tile → Tile) : (d.onTile n f).nextLaunch = d.nextLaunch := rfl
@[simp] theorem Dev.onTile_ports (d : Dev) (n : Fin 128) (f : Tile → Tile) : (d.onTile n f).ports = d.ports := rfl
@[simp] theorem Dev.onTile_pf (d : Dev) (n : Fin 128) (f : Tile → Tile) : (d.onTile n f).pf = d.pf := rfl
@[simp] theorem Dev.onTile_seams (d : Dev) (n : Fin 128) (f : Tile → Tile) : (d.onTile n f).seams = d.seams := rfl
@[simp] theorem Dev.onTile_far (d : Dev) (n : Fin 128) (f : Tile → Tile) : (d.onTile n f).far = d.far := rfl
@[simp] theorem Dev.onTile_posted (d : Dev) (n : Fin 128) (f : Tile → Tile) : (d.onTile n f).posted = d.posted := rfl
@[simp] theorem Dev.onTile_ctxs (d : Dev) (n : Fin 128) (f : Tile → Tile) : (d.onTile n f).ctxs = d.ctxs := rfl
@[simp] theorem Dev.onTile_flits (d : Dev) (n : Fin 128) (f : Tile → Tile) : (d.onTile n f).flits = d.flits := rfl
@[simp] theorem Dev.onTile_mc (d : Dev) (n : Fin 128) (f : Tile → Tile) : (d.onTile n f).mc = d.mc := rfl
@[simp] theorem Dev.onTile_now (d : Dev) (n : Fin 128) (f : Tile → Tile) : (d.onTile n f).now = d.now := rfl
@[simp] theorem Dev.onTile_dcc (d : Dev) (n : Fin 128) (f : Tile → Tile) : (d.onTile n f).dcc = d.dcc := rfl
@[simp] theorem Dev.onTile_raised (d : Dev) (n : Fin 128) (f : Tile → Tile) : (d.onTile n f).raised = d.raised := rfl
@[simp] theorem Dev.onTile_outs (d : Dev) (n : Fin 128) (f : Tile → Tile) : (d.onTile n f).outs = d.outs := rfl
@[simp] theorem Dev.onTile_fresh (d : Dev) (n : Fin 128) (f : Tile → Tile) : (d.onTile n f).fresh = d.fresh := rfl

/-! `Dev.onSvc` -/

@[simp] theorem Dev.onSvc_mem (d : Dev) (q : Fin 32) (f : Svc → Svc) : (d.onSvc q f).mem = d.mem := rfl
@[simp] theorem Dev.onSvc_badWords (d : Dev) (q : Fin 32) (f : Svc → Svc) : (d.onSvc q f).badWords = d.badWords := rfl
@[simp] theorem Dev.onSvc_softWords (d : Dev) (q : Fin 32) (f : Svc → Svc) : (d.onSvc q f).softWords = d.softWords := rfl
@[simp] theorem Dev.onSvc_tiles (d : Dev) (q : Fin 32) (f : Svc → Svc) : (d.onSvc q f).tiles = d.tiles := rfl
@[simp] theorem Dev.onSvc_quads (d : Dev) (q : Fin 32) (f : Svc → Svc) : (d.onSvc q f).quads = d.quads := rfl
@[simp] theorem Dev.onSvc_routers (d : Dev) (q : Fin 32) (f : Svc → Svc) : (d.onSvc q f).routers = d.routers := rfl
@[simp] theorem Dev.onSvc_panels (d : Dev) (q : Fin 32) (f : Svc → Svc) : (d.onSvc q f).panels = d.panels := rfl
@[simp] theorem Dev.onSvc_bolts (d : Dev) (q : Fin 32) (f : Svc → Svc) : (d.onSvc q f).bolts = d.bolts := rfl
@[simp] theorem Dev.onSvc_vdevs (d : Dev) (q : Fin 32) (f : Svc → Svc) : (d.onSvc q f).vdevs = d.vdevs := rfl
@[simp] theorem Dev.onSvc_gens (d : Dev) (q : Fin 32) (f : Svc → Svc) : (d.onSvc q f).gens = d.gens := rfl
@[simp] theorem Dev.onSvc_resvs (d : Dev) (q : Fin 32) (f : Svc → Svc) : (d.onSvc q f).resvs = d.resvs := rfl
@[simp] theorem Dev.onSvc_nextLaunch (d : Dev) (q : Fin 32) (f : Svc → Svc) : (d.onSvc q f).nextLaunch = d.nextLaunch := rfl
@[simp] theorem Dev.onSvc_ports (d : Dev) (q : Fin 32) (f : Svc → Svc) : (d.onSvc q f).ports = d.ports := rfl
@[simp] theorem Dev.onSvc_pf (d : Dev) (q : Fin 32) (f : Svc → Svc) : (d.onSvc q f).pf = d.pf := rfl
@[simp] theorem Dev.onSvc_seams (d : Dev) (q : Fin 32) (f : Svc → Svc) : (d.onSvc q f).seams = d.seams := rfl
@[simp] theorem Dev.onSvc_far (d : Dev) (q : Fin 32) (f : Svc → Svc) : (d.onSvc q f).far = d.far := rfl
@[simp] theorem Dev.onSvc_posted (d : Dev) (q : Fin 32) (f : Svc → Svc) : (d.onSvc q f).posted = d.posted := rfl
@[simp] theorem Dev.onSvc_ctxs (d : Dev) (q : Fin 32) (f : Svc → Svc) : (d.onSvc q f).ctxs = d.ctxs := rfl
@[simp] theorem Dev.onSvc_flits (d : Dev) (q : Fin 32) (f : Svc → Svc) : (d.onSvc q f).flits = d.flits := rfl
@[simp] theorem Dev.onSvc_mc (d : Dev) (q : Fin 32) (f : Svc → Svc) : (d.onSvc q f).mc = d.mc := rfl
@[simp] theorem Dev.onSvc_now (d : Dev) (q : Fin 32) (f : Svc → Svc) : (d.onSvc q f).now = d.now := rfl
@[simp] theorem Dev.onSvc_dcc (d : Dev) (q : Fin 32) (f : Svc → Svc) : (d.onSvc q f).dcc = d.dcc := rfl
@[simp] theorem Dev.onSvc_raised (d : Dev) (q : Fin 32) (f : Svc → Svc) : (d.onSvc q f).raised = d.raised := rfl
@[simp] theorem Dev.onSvc_outs (d : Dev) (q : Fin 32) (f : Svc → Svc) : (d.onSvc q f).outs = d.outs := rfl
@[simp] theorem Dev.onSvc_fresh (d : Dev) (q : Fin 32) (f : Svc → Svc) : (d.onSvc q f).fresh = d.fresh := rfl

/-! `Dev.onQuad` -/

@[simp] theorem Dev.onQuad_mem (d : Dev) (q : Fin 32) (f : Quad → Quad) : (d.onQuad q f).mem = d.mem := rfl
@[simp] theorem Dev.onQuad_badWords (d : Dev) (q : Fin 32) (f : Quad → Quad) : (d.onQuad q f).badWords = d.badWords := rfl
@[simp] theorem Dev.onQuad_softWords (d : Dev) (q : Fin 32) (f : Quad → Quad) : (d.onQuad q f).softWords = d.softWords := rfl
@[simp] theorem Dev.onQuad_tiles (d : Dev) (q : Fin 32) (f : Quad → Quad) : (d.onQuad q f).tiles = d.tiles := rfl
@[simp] theorem Dev.onQuad_svcs (d : Dev) (q : Fin 32) (f : Quad → Quad) : (d.onQuad q f).svcs = d.svcs := rfl
@[simp] theorem Dev.onQuad_routers (d : Dev) (q : Fin 32) (f : Quad → Quad) : (d.onQuad q f).routers = d.routers := rfl
@[simp] theorem Dev.onQuad_panels (d : Dev) (q : Fin 32) (f : Quad → Quad) : (d.onQuad q f).panels = d.panels := rfl
@[simp] theorem Dev.onQuad_bolts (d : Dev) (q : Fin 32) (f : Quad → Quad) : (d.onQuad q f).bolts = d.bolts := rfl
@[simp] theorem Dev.onQuad_vdevs (d : Dev) (q : Fin 32) (f : Quad → Quad) : (d.onQuad q f).vdevs = d.vdevs := rfl
@[simp] theorem Dev.onQuad_gens (d : Dev) (q : Fin 32) (f : Quad → Quad) : (d.onQuad q f).gens = d.gens := rfl
@[simp] theorem Dev.onQuad_resvs (d : Dev) (q : Fin 32) (f : Quad → Quad) : (d.onQuad q f).resvs = d.resvs := rfl
@[simp] theorem Dev.onQuad_nextLaunch (d : Dev) (q : Fin 32) (f : Quad → Quad) : (d.onQuad q f).nextLaunch = d.nextLaunch := rfl
@[simp] theorem Dev.onQuad_ports (d : Dev) (q : Fin 32) (f : Quad → Quad) : (d.onQuad q f).ports = d.ports := rfl
@[simp] theorem Dev.onQuad_pf (d : Dev) (q : Fin 32) (f : Quad → Quad) : (d.onQuad q f).pf = d.pf := rfl
@[simp] theorem Dev.onQuad_seams (d : Dev) (q : Fin 32) (f : Quad → Quad) : (d.onQuad q f).seams = d.seams := rfl
@[simp] theorem Dev.onQuad_far (d : Dev) (q : Fin 32) (f : Quad → Quad) : (d.onQuad q f).far = d.far := rfl
@[simp] theorem Dev.onQuad_posted (d : Dev) (q : Fin 32) (f : Quad → Quad) : (d.onQuad q f).posted = d.posted := rfl
@[simp] theorem Dev.onQuad_ctxs (d : Dev) (q : Fin 32) (f : Quad → Quad) : (d.onQuad q f).ctxs = d.ctxs := rfl
@[simp] theorem Dev.onQuad_flits (d : Dev) (q : Fin 32) (f : Quad → Quad) : (d.onQuad q f).flits = d.flits := rfl
@[simp] theorem Dev.onQuad_mc (d : Dev) (q : Fin 32) (f : Quad → Quad) : (d.onQuad q f).mc = d.mc := rfl
@[simp] theorem Dev.onQuad_now (d : Dev) (q : Fin 32) (f : Quad → Quad) : (d.onQuad q f).now = d.now := rfl
@[simp] theorem Dev.onQuad_dcc (d : Dev) (q : Fin 32) (f : Quad → Quad) : (d.onQuad q f).dcc = d.dcc := rfl
@[simp] theorem Dev.onQuad_raised (d : Dev) (q : Fin 32) (f : Quad → Quad) : (d.onQuad q f).raised = d.raised := rfl
@[simp] theorem Dev.onQuad_outs (d : Dev) (q : Fin 32) (f : Quad → Quad) : (d.onQuad q f).outs = d.outs := rfl
@[simp] theorem Dev.onQuad_fresh (d : Dev) (q : Fin 32) (f : Quad → Quad) : (d.onQuad q f).fresh = d.fresh := rfl

/-! `Dev.onRouter` -/

@[simp] theorem Dev.onRouter_mem (d : Dev) (n : Fin 128) (f : Router → Router) : (d.onRouter n f).mem = d.mem := rfl
@[simp] theorem Dev.onRouter_badWords (d : Dev) (n : Fin 128) (f : Router → Router) : (d.onRouter n f).badWords = d.badWords := rfl
@[simp] theorem Dev.onRouter_softWords (d : Dev) (n : Fin 128) (f : Router → Router) : (d.onRouter n f).softWords = d.softWords := rfl
@[simp] theorem Dev.onRouter_tiles (d : Dev) (n : Fin 128) (f : Router → Router) : (d.onRouter n f).tiles = d.tiles := rfl
@[simp] theorem Dev.onRouter_svcs (d : Dev) (n : Fin 128) (f : Router → Router) : (d.onRouter n f).svcs = d.svcs := rfl
@[simp] theorem Dev.onRouter_quads (d : Dev) (n : Fin 128) (f : Router → Router) : (d.onRouter n f).quads = d.quads := rfl
@[simp] theorem Dev.onRouter_panels (d : Dev) (n : Fin 128) (f : Router → Router) : (d.onRouter n f).panels = d.panels := rfl
@[simp] theorem Dev.onRouter_bolts (d : Dev) (n : Fin 128) (f : Router → Router) : (d.onRouter n f).bolts = d.bolts := rfl
@[simp] theorem Dev.onRouter_vdevs (d : Dev) (n : Fin 128) (f : Router → Router) : (d.onRouter n f).vdevs = d.vdevs := rfl
@[simp] theorem Dev.onRouter_gens (d : Dev) (n : Fin 128) (f : Router → Router) : (d.onRouter n f).gens = d.gens := rfl
@[simp] theorem Dev.onRouter_resvs (d : Dev) (n : Fin 128) (f : Router → Router) : (d.onRouter n f).resvs = d.resvs := rfl
@[simp] theorem Dev.onRouter_nextLaunch (d : Dev) (n : Fin 128) (f : Router → Router) : (d.onRouter n f).nextLaunch = d.nextLaunch := rfl
@[simp] theorem Dev.onRouter_ports (d : Dev) (n : Fin 128) (f : Router → Router) : (d.onRouter n f).ports = d.ports := rfl
@[simp] theorem Dev.onRouter_pf (d : Dev) (n : Fin 128) (f : Router → Router) : (d.onRouter n f).pf = d.pf := rfl
@[simp] theorem Dev.onRouter_seams (d : Dev) (n : Fin 128) (f : Router → Router) : (d.onRouter n f).seams = d.seams := rfl
@[simp] theorem Dev.onRouter_far (d : Dev) (n : Fin 128) (f : Router → Router) : (d.onRouter n f).far = d.far := rfl
@[simp] theorem Dev.onRouter_posted (d : Dev) (n : Fin 128) (f : Router → Router) : (d.onRouter n f).posted = d.posted := rfl
@[simp] theorem Dev.onRouter_ctxs (d : Dev) (n : Fin 128) (f : Router → Router) : (d.onRouter n f).ctxs = d.ctxs := rfl
@[simp] theorem Dev.onRouter_flits (d : Dev) (n : Fin 128) (f : Router → Router) : (d.onRouter n f).flits = d.flits := rfl
@[simp] theorem Dev.onRouter_mc (d : Dev) (n : Fin 128) (f : Router → Router) : (d.onRouter n f).mc = d.mc := rfl
@[simp] theorem Dev.onRouter_now (d : Dev) (n : Fin 128) (f : Router → Router) : (d.onRouter n f).now = d.now := rfl
@[simp] theorem Dev.onRouter_dcc (d : Dev) (n : Fin 128) (f : Router → Router) : (d.onRouter n f).dcc = d.dcc := rfl
@[simp] theorem Dev.onRouter_raised (d : Dev) (n : Fin 128) (f : Router → Router) : (d.onRouter n f).raised = d.raised := rfl
@[simp] theorem Dev.onRouter_outs (d : Dev) (n : Fin 128) (f : Router → Router) : (d.onRouter n f).outs = d.outs := rfl
@[simp] theorem Dev.onRouter_fresh (d : Dev) (n : Fin 128) (f : Router → Router) : (d.onRouter n f).fresh = d.fresh := rfl

/-! `Dev.onBolt` -/

@[simp] theorem Dev.onBolt_mem (d : Dev) (b : Fin 32) (f : Bolt → Bolt) : (d.onBolt b f).mem = d.mem := rfl
@[simp] theorem Dev.onBolt_badWords (d : Dev) (b : Fin 32) (f : Bolt → Bolt) : (d.onBolt b f).badWords = d.badWords := rfl
@[simp] theorem Dev.onBolt_softWords (d : Dev) (b : Fin 32) (f : Bolt → Bolt) : (d.onBolt b f).softWords = d.softWords := rfl
@[simp] theorem Dev.onBolt_tiles (d : Dev) (b : Fin 32) (f : Bolt → Bolt) : (d.onBolt b f).tiles = d.tiles := rfl
@[simp] theorem Dev.onBolt_svcs (d : Dev) (b : Fin 32) (f : Bolt → Bolt) : (d.onBolt b f).svcs = d.svcs := rfl
@[simp] theorem Dev.onBolt_quads (d : Dev) (b : Fin 32) (f : Bolt → Bolt) : (d.onBolt b f).quads = d.quads := rfl
@[simp] theorem Dev.onBolt_routers (d : Dev) (b : Fin 32) (f : Bolt → Bolt) : (d.onBolt b f).routers = d.routers := rfl
@[simp] theorem Dev.onBolt_panels (d : Dev) (b : Fin 32) (f : Bolt → Bolt) : (d.onBolt b f).panels = d.panels := rfl
@[simp] theorem Dev.onBolt_vdevs (d : Dev) (b : Fin 32) (f : Bolt → Bolt) : (d.onBolt b f).vdevs = d.vdevs := rfl
@[simp] theorem Dev.onBolt_gens (d : Dev) (b : Fin 32) (f : Bolt → Bolt) : (d.onBolt b f).gens = d.gens := rfl
@[simp] theorem Dev.onBolt_resvs (d : Dev) (b : Fin 32) (f : Bolt → Bolt) : (d.onBolt b f).resvs = d.resvs := rfl
@[simp] theorem Dev.onBolt_nextLaunch (d : Dev) (b : Fin 32) (f : Bolt → Bolt) : (d.onBolt b f).nextLaunch = d.nextLaunch := rfl
@[simp] theorem Dev.onBolt_ports (d : Dev) (b : Fin 32) (f : Bolt → Bolt) : (d.onBolt b f).ports = d.ports := rfl
@[simp] theorem Dev.onBolt_pf (d : Dev) (b : Fin 32) (f : Bolt → Bolt) : (d.onBolt b f).pf = d.pf := rfl
@[simp] theorem Dev.onBolt_seams (d : Dev) (b : Fin 32) (f : Bolt → Bolt) : (d.onBolt b f).seams = d.seams := rfl
@[simp] theorem Dev.onBolt_far (d : Dev) (b : Fin 32) (f : Bolt → Bolt) : (d.onBolt b f).far = d.far := rfl
@[simp] theorem Dev.onBolt_posted (d : Dev) (b : Fin 32) (f : Bolt → Bolt) : (d.onBolt b f).posted = d.posted := rfl
@[simp] theorem Dev.onBolt_ctxs (d : Dev) (b : Fin 32) (f : Bolt → Bolt) : (d.onBolt b f).ctxs = d.ctxs := rfl
@[simp] theorem Dev.onBolt_flits (d : Dev) (b : Fin 32) (f : Bolt → Bolt) : (d.onBolt b f).flits = d.flits := rfl
@[simp] theorem Dev.onBolt_mc (d : Dev) (b : Fin 32) (f : Bolt → Bolt) : (d.onBolt b f).mc = d.mc := rfl
@[simp] theorem Dev.onBolt_now (d : Dev) (b : Fin 32) (f : Bolt → Bolt) : (d.onBolt b f).now = d.now := rfl
@[simp] theorem Dev.onBolt_dcc (d : Dev) (b : Fin 32) (f : Bolt → Bolt) : (d.onBolt b f).dcc = d.dcc := rfl
@[simp] theorem Dev.onBolt_raised (d : Dev) (b : Fin 32) (f : Bolt → Bolt) : (d.onBolt b f).raised = d.raised := rfl
@[simp] theorem Dev.onBolt_outs (d : Dev) (b : Fin 32) (f : Bolt → Bolt) : (d.onBolt b f).outs = d.outs := rfl
@[simp] theorem Dev.onBolt_fresh (d : Dev) (b : Fin 32) (f : Bolt → Bolt) : (d.onBolt b f).fresh = d.fresh := rfl

/-! `Dev.onPort` -/

@[simp] theorem Dev.onPort_mem (d : Dev) (p : Fin 2) (f : HostPort → HostPort) : (d.onPort p f).mem = d.mem := rfl
@[simp] theorem Dev.onPort_badWords (d : Dev) (p : Fin 2) (f : HostPort → HostPort) : (d.onPort p f).badWords = d.badWords := rfl
@[simp] theorem Dev.onPort_softWords (d : Dev) (p : Fin 2) (f : HostPort → HostPort) : (d.onPort p f).softWords = d.softWords := rfl
@[simp] theorem Dev.onPort_tiles (d : Dev) (p : Fin 2) (f : HostPort → HostPort) : (d.onPort p f).tiles = d.tiles := rfl
@[simp] theorem Dev.onPort_svcs (d : Dev) (p : Fin 2) (f : HostPort → HostPort) : (d.onPort p f).svcs = d.svcs := rfl
@[simp] theorem Dev.onPort_quads (d : Dev) (p : Fin 2) (f : HostPort → HostPort) : (d.onPort p f).quads = d.quads := rfl
@[simp] theorem Dev.onPort_routers (d : Dev) (p : Fin 2) (f : HostPort → HostPort) : (d.onPort p f).routers = d.routers := rfl
@[simp] theorem Dev.onPort_panels (d : Dev) (p : Fin 2) (f : HostPort → HostPort) : (d.onPort p f).panels = d.panels := rfl
@[simp] theorem Dev.onPort_bolts (d : Dev) (p : Fin 2) (f : HostPort → HostPort) : (d.onPort p f).bolts = d.bolts := rfl
@[simp] theorem Dev.onPort_vdevs (d : Dev) (p : Fin 2) (f : HostPort → HostPort) : (d.onPort p f).vdevs = d.vdevs := rfl
@[simp] theorem Dev.onPort_gens (d : Dev) (p : Fin 2) (f : HostPort → HostPort) : (d.onPort p f).gens = d.gens := rfl
@[simp] theorem Dev.onPort_resvs (d : Dev) (p : Fin 2) (f : HostPort → HostPort) : (d.onPort p f).resvs = d.resvs := rfl
@[simp] theorem Dev.onPort_nextLaunch (d : Dev) (p : Fin 2) (f : HostPort → HostPort) : (d.onPort p f).nextLaunch = d.nextLaunch := rfl
@[simp] theorem Dev.onPort_pf (d : Dev) (p : Fin 2) (f : HostPort → HostPort) : (d.onPort p f).pf = d.pf := rfl
@[simp] theorem Dev.onPort_seams (d : Dev) (p : Fin 2) (f : HostPort → HostPort) : (d.onPort p f).seams = d.seams := rfl
@[simp] theorem Dev.onPort_far (d : Dev) (p : Fin 2) (f : HostPort → HostPort) : (d.onPort p f).far = d.far := rfl
@[simp] theorem Dev.onPort_posted (d : Dev) (p : Fin 2) (f : HostPort → HostPort) : (d.onPort p f).posted = d.posted := rfl
@[simp] theorem Dev.onPort_ctxs (d : Dev) (p : Fin 2) (f : HostPort → HostPort) : (d.onPort p f).ctxs = d.ctxs := rfl
@[simp] theorem Dev.onPort_flits (d : Dev) (p : Fin 2) (f : HostPort → HostPort) : (d.onPort p f).flits = d.flits := rfl
@[simp] theorem Dev.onPort_mc (d : Dev) (p : Fin 2) (f : HostPort → HostPort) : (d.onPort p f).mc = d.mc := rfl
@[simp] theorem Dev.onPort_now (d : Dev) (p : Fin 2) (f : HostPort → HostPort) : (d.onPort p f).now = d.now := rfl
@[simp] theorem Dev.onPort_dcc (d : Dev) (p : Fin 2) (f : HostPort → HostPort) : (d.onPort p f).dcc = d.dcc := rfl
@[simp] theorem Dev.onPort_raised (d : Dev) (p : Fin 2) (f : HostPort → HostPort) : (d.onPort p f).raised = d.raised := rfl
@[simp] theorem Dev.onPort_outs (d : Dev) (p : Fin 2) (f : HostPort → HostPort) : (d.onPort p f).outs = d.outs := rfl
@[simp] theorem Dev.onPort_fresh (d : Dev) (p : Fin 2) (f : HostPort → HostPort) : (d.onPort p f).fresh = d.fresh := rfl

/-! `Dev.onSeam` -/

@[simp] theorem Dev.onSeam_mem (d : Dev) (p : Fin 8) (f : SeamPort → SeamPort) : (d.onSeam p f).mem = d.mem := rfl
@[simp] theorem Dev.onSeam_badWords (d : Dev) (p : Fin 8) (f : SeamPort → SeamPort) : (d.onSeam p f).badWords = d.badWords := rfl
@[simp] theorem Dev.onSeam_softWords (d : Dev) (p : Fin 8) (f : SeamPort → SeamPort) : (d.onSeam p f).softWords = d.softWords := rfl
@[simp] theorem Dev.onSeam_tiles (d : Dev) (p : Fin 8) (f : SeamPort → SeamPort) : (d.onSeam p f).tiles = d.tiles := rfl
@[simp] theorem Dev.onSeam_svcs (d : Dev) (p : Fin 8) (f : SeamPort → SeamPort) : (d.onSeam p f).svcs = d.svcs := rfl
@[simp] theorem Dev.onSeam_quads (d : Dev) (p : Fin 8) (f : SeamPort → SeamPort) : (d.onSeam p f).quads = d.quads := rfl
@[simp] theorem Dev.onSeam_routers (d : Dev) (p : Fin 8) (f : SeamPort → SeamPort) : (d.onSeam p f).routers = d.routers := rfl
@[simp] theorem Dev.onSeam_panels (d : Dev) (p : Fin 8) (f : SeamPort → SeamPort) : (d.onSeam p f).panels = d.panels := rfl
@[simp] theorem Dev.onSeam_bolts (d : Dev) (p : Fin 8) (f : SeamPort → SeamPort) : (d.onSeam p f).bolts = d.bolts := rfl
@[simp] theorem Dev.onSeam_vdevs (d : Dev) (p : Fin 8) (f : SeamPort → SeamPort) : (d.onSeam p f).vdevs = d.vdevs := rfl
@[simp] theorem Dev.onSeam_gens (d : Dev) (p : Fin 8) (f : SeamPort → SeamPort) : (d.onSeam p f).gens = d.gens := rfl
@[simp] theorem Dev.onSeam_resvs (d : Dev) (p : Fin 8) (f : SeamPort → SeamPort) : (d.onSeam p f).resvs = d.resvs := rfl
@[simp] theorem Dev.onSeam_nextLaunch (d : Dev) (p : Fin 8) (f : SeamPort → SeamPort) : (d.onSeam p f).nextLaunch = d.nextLaunch := rfl
@[simp] theorem Dev.onSeam_ports (d : Dev) (p : Fin 8) (f : SeamPort → SeamPort) : (d.onSeam p f).ports = d.ports := rfl
@[simp] theorem Dev.onSeam_pf (d : Dev) (p : Fin 8) (f : SeamPort → SeamPort) : (d.onSeam p f).pf = d.pf := rfl
@[simp] theorem Dev.onSeam_far (d : Dev) (p : Fin 8) (f : SeamPort → SeamPort) : (d.onSeam p f).far = d.far := rfl
@[simp] theorem Dev.onSeam_posted (d : Dev) (p : Fin 8) (f : SeamPort → SeamPort) : (d.onSeam p f).posted = d.posted := rfl
@[simp] theorem Dev.onSeam_ctxs (d : Dev) (p : Fin 8) (f : SeamPort → SeamPort) : (d.onSeam p f).ctxs = d.ctxs := rfl
@[simp] theorem Dev.onSeam_flits (d : Dev) (p : Fin 8) (f : SeamPort → SeamPort) : (d.onSeam p f).flits = d.flits := rfl
@[simp] theorem Dev.onSeam_mc (d : Dev) (p : Fin 8) (f : SeamPort → SeamPort) : (d.onSeam p f).mc = d.mc := rfl
@[simp] theorem Dev.onSeam_now (d : Dev) (p : Fin 8) (f : SeamPort → SeamPort) : (d.onSeam p f).now = d.now := rfl
@[simp] theorem Dev.onSeam_dcc (d : Dev) (p : Fin 8) (f : SeamPort → SeamPort) : (d.onSeam p f).dcc = d.dcc := rfl
@[simp] theorem Dev.onSeam_raised (d : Dev) (p : Fin 8) (f : SeamPort → SeamPort) : (d.onSeam p f).raised = d.raised := rfl
@[simp] theorem Dev.onSeam_outs (d : Dev) (p : Fin 8) (f : SeamPort → SeamPort) : (d.onSeam p f).outs = d.outs := rfl
@[simp] theorem Dev.onSeam_fresh (d : Dev) (p : Fin 8) (f : SeamPort → SeamPort) : (d.onSeam p f).fresh = d.fresh := rfl

/-! `Dev.onPanel` -/

@[simp] theorem Dev.onPanel_mem (d : Dev) (h : Nat) (f : Panel → Panel) : (d.onPanel h f).mem = d.mem := rfl
@[simp] theorem Dev.onPanel_badWords (d : Dev) (h : Nat) (f : Panel → Panel) : (d.onPanel h f).badWords = d.badWords := rfl
@[simp] theorem Dev.onPanel_softWords (d : Dev) (h : Nat) (f : Panel → Panel) : (d.onPanel h f).softWords = d.softWords := rfl
@[simp] theorem Dev.onPanel_tiles (d : Dev) (h : Nat) (f : Panel → Panel) : (d.onPanel h f).tiles = d.tiles := rfl
@[simp] theorem Dev.onPanel_svcs (d : Dev) (h : Nat) (f : Panel → Panel) : (d.onPanel h f).svcs = d.svcs := rfl
@[simp] theorem Dev.onPanel_quads (d : Dev) (h : Nat) (f : Panel → Panel) : (d.onPanel h f).quads = d.quads := rfl
@[simp] theorem Dev.onPanel_routers (d : Dev) (h : Nat) (f : Panel → Panel) : (d.onPanel h f).routers = d.routers := rfl
@[simp] theorem Dev.onPanel_bolts (d : Dev) (h : Nat) (f : Panel → Panel) : (d.onPanel h f).bolts = d.bolts := rfl
@[simp] theorem Dev.onPanel_vdevs (d : Dev) (h : Nat) (f : Panel → Panel) : (d.onPanel h f).vdevs = d.vdevs := rfl
@[simp] theorem Dev.onPanel_gens (d : Dev) (h : Nat) (f : Panel → Panel) : (d.onPanel h f).gens = d.gens := rfl
@[simp] theorem Dev.onPanel_resvs (d : Dev) (h : Nat) (f : Panel → Panel) : (d.onPanel h f).resvs = d.resvs := rfl
@[simp] theorem Dev.onPanel_nextLaunch (d : Dev) (h : Nat) (f : Panel → Panel) : (d.onPanel h f).nextLaunch = d.nextLaunch := rfl
@[simp] theorem Dev.onPanel_ports (d : Dev) (h : Nat) (f : Panel → Panel) : (d.onPanel h f).ports = d.ports := rfl
@[simp] theorem Dev.onPanel_pf (d : Dev) (h : Nat) (f : Panel → Panel) : (d.onPanel h f).pf = d.pf := rfl
@[simp] theorem Dev.onPanel_seams (d : Dev) (h : Nat) (f : Panel → Panel) : (d.onPanel h f).seams = d.seams := rfl
@[simp] theorem Dev.onPanel_far (d : Dev) (h : Nat) (f : Panel → Panel) : (d.onPanel h f).far = d.far := rfl
@[simp] theorem Dev.onPanel_posted (d : Dev) (h : Nat) (f : Panel → Panel) : (d.onPanel h f).posted = d.posted := rfl
@[simp] theorem Dev.onPanel_ctxs (d : Dev) (h : Nat) (f : Panel → Panel) : (d.onPanel h f).ctxs = d.ctxs := rfl
@[simp] theorem Dev.onPanel_flits (d : Dev) (h : Nat) (f : Panel → Panel) : (d.onPanel h f).flits = d.flits := rfl
@[simp] theorem Dev.onPanel_mc (d : Dev) (h : Nat) (f : Panel → Panel) : (d.onPanel h f).mc = d.mc := rfl
@[simp] theorem Dev.onPanel_now (d : Dev) (h : Nat) (f : Panel → Panel) : (d.onPanel h f).now = d.now := rfl
@[simp] theorem Dev.onPanel_dcc (d : Dev) (h : Nat) (f : Panel → Panel) : (d.onPanel h f).dcc = d.dcc := rfl
@[simp] theorem Dev.onPanel_raised (d : Dev) (h : Nat) (f : Panel → Panel) : (d.onPanel h f).raised = d.raised := rfl
@[simp] theorem Dev.onPanel_outs (d : Dev) (h : Nat) (f : Panel → Panel) : (d.onPanel h f).outs = d.outs := rfl
@[simp] theorem Dev.onPanel_fresh (d : Dev) (h : Nat) (f : Panel → Panel) : (d.onPanel h f).fresh = d.fresh := rfl

/-! `Dev.onVdev` -/

@[simp] theorem Dev.onVdev_mem (d : Dev) (v : Nat) (f : Vdev → Vdev) : (d.onVdev v f).mem = d.mem := rfl
@[simp] theorem Dev.onVdev_badWords (d : Dev) (v : Nat) (f : Vdev → Vdev) : (d.onVdev v f).badWords = d.badWords := rfl
@[simp] theorem Dev.onVdev_softWords (d : Dev) (v : Nat) (f : Vdev → Vdev) : (d.onVdev v f).softWords = d.softWords := rfl
@[simp] theorem Dev.onVdev_tiles (d : Dev) (v : Nat) (f : Vdev → Vdev) : (d.onVdev v f).tiles = d.tiles := rfl
@[simp] theorem Dev.onVdev_svcs (d : Dev) (v : Nat) (f : Vdev → Vdev) : (d.onVdev v f).svcs = d.svcs := rfl
@[simp] theorem Dev.onVdev_quads (d : Dev) (v : Nat) (f : Vdev → Vdev) : (d.onVdev v f).quads = d.quads := rfl
@[simp] theorem Dev.onVdev_routers (d : Dev) (v : Nat) (f : Vdev → Vdev) : (d.onVdev v f).routers = d.routers := rfl
@[simp] theorem Dev.onVdev_panels (d : Dev) (v : Nat) (f : Vdev → Vdev) : (d.onVdev v f).panels = d.panels := rfl
@[simp] theorem Dev.onVdev_bolts (d : Dev) (v : Nat) (f : Vdev → Vdev) : (d.onVdev v f).bolts = d.bolts := rfl
@[simp] theorem Dev.onVdev_gens (d : Dev) (v : Nat) (f : Vdev → Vdev) : (d.onVdev v f).gens = d.gens := rfl
@[simp] theorem Dev.onVdev_resvs (d : Dev) (v : Nat) (f : Vdev → Vdev) : (d.onVdev v f).resvs = d.resvs := rfl
@[simp] theorem Dev.onVdev_nextLaunch (d : Dev) (v : Nat) (f : Vdev → Vdev) : (d.onVdev v f).nextLaunch = d.nextLaunch := rfl
@[simp] theorem Dev.onVdev_ports (d : Dev) (v : Nat) (f : Vdev → Vdev) : (d.onVdev v f).ports = d.ports := rfl
@[simp] theorem Dev.onVdev_pf (d : Dev) (v : Nat) (f : Vdev → Vdev) : (d.onVdev v f).pf = d.pf := rfl
@[simp] theorem Dev.onVdev_seams (d : Dev) (v : Nat) (f : Vdev → Vdev) : (d.onVdev v f).seams = d.seams := rfl
@[simp] theorem Dev.onVdev_far (d : Dev) (v : Nat) (f : Vdev → Vdev) : (d.onVdev v f).far = d.far := rfl
@[simp] theorem Dev.onVdev_posted (d : Dev) (v : Nat) (f : Vdev → Vdev) : (d.onVdev v f).posted = d.posted := rfl
@[simp] theorem Dev.onVdev_ctxs (d : Dev) (v : Nat) (f : Vdev → Vdev) : (d.onVdev v f).ctxs = d.ctxs := rfl
@[simp] theorem Dev.onVdev_flits (d : Dev) (v : Nat) (f : Vdev → Vdev) : (d.onVdev v f).flits = d.flits := rfl
@[simp] theorem Dev.onVdev_mc (d : Dev) (v : Nat) (f : Vdev → Vdev) : (d.onVdev v f).mc = d.mc := rfl
@[simp] theorem Dev.onVdev_now (d : Dev) (v : Nat) (f : Vdev → Vdev) : (d.onVdev v f).now = d.now := rfl
@[simp] theorem Dev.onVdev_dcc (d : Dev) (v : Nat) (f : Vdev → Vdev) : (d.onVdev v f).dcc = d.dcc := rfl
@[simp] theorem Dev.onVdev_raised (d : Dev) (v : Nat) (f : Vdev → Vdev) : (d.onVdev v f).raised = d.raised := rfl
@[simp] theorem Dev.onVdev_outs (d : Dev) (v : Nat) (f : Vdev → Vdev) : (d.onVdev v f).outs = d.outs := rfl
@[simp] theorem Dev.onVdev_fresh (d : Dev) (v : Nat) (f : Vdev → Vdev) : (d.onVdev v f).fresh = d.fresh := rfl

/-! `Dev.onResv` -/

@[simp] theorem Dev.onResv_mem (d : Dev) (r : Nat) (f : Resv → Resv) : (d.onResv r f).mem = d.mem := rfl
@[simp] theorem Dev.onResv_badWords (d : Dev) (r : Nat) (f : Resv → Resv) : (d.onResv r f).badWords = d.badWords := rfl
@[simp] theorem Dev.onResv_softWords (d : Dev) (r : Nat) (f : Resv → Resv) : (d.onResv r f).softWords = d.softWords := rfl
@[simp] theorem Dev.onResv_tiles (d : Dev) (r : Nat) (f : Resv → Resv) : (d.onResv r f).tiles = d.tiles := rfl
@[simp] theorem Dev.onResv_svcs (d : Dev) (r : Nat) (f : Resv → Resv) : (d.onResv r f).svcs = d.svcs := rfl
@[simp] theorem Dev.onResv_quads (d : Dev) (r : Nat) (f : Resv → Resv) : (d.onResv r f).quads = d.quads := rfl
@[simp] theorem Dev.onResv_routers (d : Dev) (r : Nat) (f : Resv → Resv) : (d.onResv r f).routers = d.routers := rfl
@[simp] theorem Dev.onResv_panels (d : Dev) (r : Nat) (f : Resv → Resv) : (d.onResv r f).panels = d.panels := rfl
@[simp] theorem Dev.onResv_bolts (d : Dev) (r : Nat) (f : Resv → Resv) : (d.onResv r f).bolts = d.bolts := rfl
@[simp] theorem Dev.onResv_vdevs (d : Dev) (r : Nat) (f : Resv → Resv) : (d.onResv r f).vdevs = d.vdevs := rfl
@[simp] theorem Dev.onResv_gens (d : Dev) (r : Nat) (f : Resv → Resv) : (d.onResv r f).gens = d.gens := rfl
@[simp] theorem Dev.onResv_nextLaunch (d : Dev) (r : Nat) (f : Resv → Resv) : (d.onResv r f).nextLaunch = d.nextLaunch := rfl
@[simp] theorem Dev.onResv_ports (d : Dev) (r : Nat) (f : Resv → Resv) : (d.onResv r f).ports = d.ports := rfl
@[simp] theorem Dev.onResv_pf (d : Dev) (r : Nat) (f : Resv → Resv) : (d.onResv r f).pf = d.pf := rfl
@[simp] theorem Dev.onResv_seams (d : Dev) (r : Nat) (f : Resv → Resv) : (d.onResv r f).seams = d.seams := rfl
@[simp] theorem Dev.onResv_far (d : Dev) (r : Nat) (f : Resv → Resv) : (d.onResv r f).far = d.far := rfl
@[simp] theorem Dev.onResv_posted (d : Dev) (r : Nat) (f : Resv → Resv) : (d.onResv r f).posted = d.posted := rfl
@[simp] theorem Dev.onResv_ctxs (d : Dev) (r : Nat) (f : Resv → Resv) : (d.onResv r f).ctxs = d.ctxs := rfl
@[simp] theorem Dev.onResv_flits (d : Dev) (r : Nat) (f : Resv → Resv) : (d.onResv r f).flits = d.flits := rfl
@[simp] theorem Dev.onResv_mc (d : Dev) (r : Nat) (f : Resv → Resv) : (d.onResv r f).mc = d.mc := rfl
@[simp] theorem Dev.onResv_now (d : Dev) (r : Nat) (f : Resv → Resv) : (d.onResv r f).now = d.now := rfl
@[simp] theorem Dev.onResv_dcc (d : Dev) (r : Nat) (f : Resv → Resv) : (d.onResv r f).dcc = d.dcc := rfl
@[simp] theorem Dev.onResv_raised (d : Dev) (r : Nat) (f : Resv → Resv) : (d.onResv r f).raised = d.raised := rfl
@[simp] theorem Dev.onResv_outs (d : Dev) (r : Nat) (f : Resv → Resv) : (d.onResv r f).outs = d.outs := rfl
@[simp] theorem Dev.onResv_fresh (d : Dev) (r : Nat) (f : Resv → Resv) : (d.onResv r f).fresh = d.fresh := rfl

/-! `Dev.onMc` -/

@[simp] theorem Dev.onMc_mem (d : Dev) (f : Mc → Mc) : (d.onMc f).mem = d.mem := rfl
@[simp] theorem Dev.onMc_badWords (d : Dev) (f : Mc → Mc) : (d.onMc f).badWords = d.badWords := rfl
@[simp] theorem Dev.onMc_softWords (d : Dev) (f : Mc → Mc) : (d.onMc f).softWords = d.softWords := rfl
@[simp] theorem Dev.onMc_tiles (d : Dev) (f : Mc → Mc) : (d.onMc f).tiles = d.tiles := rfl
@[simp] theorem Dev.onMc_svcs (d : Dev) (f : Mc → Mc) : (d.onMc f).svcs = d.svcs := rfl
@[simp] theorem Dev.onMc_quads (d : Dev) (f : Mc → Mc) : (d.onMc f).quads = d.quads := rfl
@[simp] theorem Dev.onMc_routers (d : Dev) (f : Mc → Mc) : (d.onMc f).routers = d.routers := rfl
@[simp] theorem Dev.onMc_panels (d : Dev) (f : Mc → Mc) : (d.onMc f).panels = d.panels := rfl
@[simp] theorem Dev.onMc_bolts (d : Dev) (f : Mc → Mc) : (d.onMc f).bolts = d.bolts := rfl
@[simp] theorem Dev.onMc_vdevs (d : Dev) (f : Mc → Mc) : (d.onMc f).vdevs = d.vdevs := rfl
@[simp] theorem Dev.onMc_gens (d : Dev) (f : Mc → Mc) : (d.onMc f).gens = d.gens := rfl
@[simp] theorem Dev.onMc_resvs (d : Dev) (f : Mc → Mc) : (d.onMc f).resvs = d.resvs := rfl
@[simp] theorem Dev.onMc_nextLaunch (d : Dev) (f : Mc → Mc) : (d.onMc f).nextLaunch = d.nextLaunch := rfl
@[simp] theorem Dev.onMc_ports (d : Dev) (f : Mc → Mc) : (d.onMc f).ports = d.ports := rfl
@[simp] theorem Dev.onMc_pf (d : Dev) (f : Mc → Mc) : (d.onMc f).pf = d.pf := rfl
@[simp] theorem Dev.onMc_seams (d : Dev) (f : Mc → Mc) : (d.onMc f).seams = d.seams := rfl
@[simp] theorem Dev.onMc_far (d : Dev) (f : Mc → Mc) : (d.onMc f).far = d.far := rfl
@[simp] theorem Dev.onMc_posted (d : Dev) (f : Mc → Mc) : (d.onMc f).posted = d.posted := rfl
@[simp] theorem Dev.onMc_ctxs (d : Dev) (f : Mc → Mc) : (d.onMc f).ctxs = d.ctxs := rfl
@[simp] theorem Dev.onMc_flits (d : Dev) (f : Mc → Mc) : (d.onMc f).flits = d.flits := rfl
@[simp] theorem Dev.onMc_now (d : Dev) (f : Mc → Mc) : (d.onMc f).now = d.now := rfl
@[simp] theorem Dev.onMc_dcc (d : Dev) (f : Mc → Mc) : (d.onMc f).dcc = d.dcc := rfl
@[simp] theorem Dev.onMc_raised (d : Dev) (f : Mc → Mc) : (d.onMc f).raised = d.raised := rfl
@[simp] theorem Dev.onMc_outs (d : Dev) (f : Mc → Mc) : (d.onMc f).outs = d.outs := rfl
@[simp] theorem Dev.onMc_fresh (d : Dev) (f : Mc → Mc) : (d.onMc f).fresh = d.fresh := rfl

/-! `Dev.write` -/

@[simp] theorem Dev.write_tiles (d : Dev) (k : Nat) (bs : List Byte) : (d.write k bs).tiles = d.tiles := rfl
@[simp] theorem Dev.write_svcs (d : Dev) (k : Nat) (bs : List Byte) : (d.write k bs).svcs = d.svcs := rfl
@[simp] theorem Dev.write_quads (d : Dev) (k : Nat) (bs : List Byte) : (d.write k bs).quads = d.quads := rfl
@[simp] theorem Dev.write_routers (d : Dev) (k : Nat) (bs : List Byte) : (d.write k bs).routers = d.routers := rfl
@[simp] theorem Dev.write_panels (d : Dev) (k : Nat) (bs : List Byte) : (d.write k bs).panels = d.panels := rfl
@[simp] theorem Dev.write_bolts (d : Dev) (k : Nat) (bs : List Byte) : (d.write k bs).bolts = d.bolts := rfl
@[simp] theorem Dev.write_vdevs (d : Dev) (k : Nat) (bs : List Byte) : (d.write k bs).vdevs = d.vdevs := rfl
@[simp] theorem Dev.write_gens (d : Dev) (k : Nat) (bs : List Byte) : (d.write k bs).gens = d.gens := rfl
@[simp] theorem Dev.write_resvs (d : Dev) (k : Nat) (bs : List Byte) : (d.write k bs).resvs = d.resvs := rfl
@[simp] theorem Dev.write_nextLaunch (d : Dev) (k : Nat) (bs : List Byte) : (d.write k bs).nextLaunch = d.nextLaunch := rfl
@[simp] theorem Dev.write_ports (d : Dev) (k : Nat) (bs : List Byte) : (d.write k bs).ports = d.ports := rfl
@[simp] theorem Dev.write_pf (d : Dev) (k : Nat) (bs : List Byte) : (d.write k bs).pf = d.pf := rfl
@[simp] theorem Dev.write_seams (d : Dev) (k : Nat) (bs : List Byte) : (d.write k bs).seams = d.seams := rfl
@[simp] theorem Dev.write_far (d : Dev) (k : Nat) (bs : List Byte) : (d.write k bs).far = d.far := rfl
@[simp] theorem Dev.write_posted (d : Dev) (k : Nat) (bs : List Byte) : (d.write k bs).posted = d.posted := rfl
@[simp] theorem Dev.write_ctxs (d : Dev) (k : Nat) (bs : List Byte) : (d.write k bs).ctxs = d.ctxs := rfl
@[simp] theorem Dev.write_flits (d : Dev) (k : Nat) (bs : List Byte) : (d.write k bs).flits = d.flits := rfl
@[simp] theorem Dev.write_mc (d : Dev) (k : Nat) (bs : List Byte) : (d.write k bs).mc = d.mc := rfl
@[simp] theorem Dev.write_now (d : Dev) (k : Nat) (bs : List Byte) : (d.write k bs).now = d.now := rfl
@[simp] theorem Dev.write_dcc (d : Dev) (k : Nat) (bs : List Byte) : (d.write k bs).dcc = d.dcc := rfl
@[simp] theorem Dev.write_raised (d : Dev) (k : Nat) (bs : List Byte) : (d.write k bs).raised = d.raised := rfl
@[simp] theorem Dev.write_outs (d : Dev) (k : Nat) (bs : List Byte) : (d.write k bs).outs = d.outs := rfl
@[simp] theorem Dev.write_fresh (d : Dev) (k : Nat) (bs : List Byte) : (d.write k bs).fresh = d.fresh := rfl

/-! `Dev.clear` -/

@[simp] theorem Dev.clear_tiles (d : Dev) (k n : Nat) : (d.clear k n).tiles = d.tiles := rfl
@[simp] theorem Dev.clear_svcs (d : Dev) (k n : Nat) : (d.clear k n).svcs = d.svcs := rfl
@[simp] theorem Dev.clear_quads (d : Dev) (k n : Nat) : (d.clear k n).quads = d.quads := rfl
@[simp] theorem Dev.clear_routers (d : Dev) (k n : Nat) : (d.clear k n).routers = d.routers := rfl
@[simp] theorem Dev.clear_panels (d : Dev) (k n : Nat) : (d.clear k n).panels = d.panels := rfl
@[simp] theorem Dev.clear_bolts (d : Dev) (k n : Nat) : (d.clear k n).bolts = d.bolts := rfl
@[simp] theorem Dev.clear_vdevs (d : Dev) (k n : Nat) : (d.clear k n).vdevs = d.vdevs := rfl
@[simp] theorem Dev.clear_gens (d : Dev) (k n : Nat) : (d.clear k n).gens = d.gens := rfl
@[simp] theorem Dev.clear_resvs (d : Dev) (k n : Nat) : (d.clear k n).resvs = d.resvs := rfl
@[simp] theorem Dev.clear_nextLaunch (d : Dev) (k n : Nat) : (d.clear k n).nextLaunch = d.nextLaunch := rfl
@[simp] theorem Dev.clear_ports (d : Dev) (k n : Nat) : (d.clear k n).ports = d.ports := rfl
@[simp] theorem Dev.clear_pf (d : Dev) (k n : Nat) : (d.clear k n).pf = d.pf := rfl
@[simp] theorem Dev.clear_seams (d : Dev) (k n : Nat) : (d.clear k n).seams = d.seams := rfl
@[simp] theorem Dev.clear_far (d : Dev) (k n : Nat) : (d.clear k n).far = d.far := rfl
@[simp] theorem Dev.clear_posted (d : Dev) (k n : Nat) : (d.clear k n).posted = d.posted := rfl
@[simp] theorem Dev.clear_ctxs (d : Dev) (k n : Nat) : (d.clear k n).ctxs = d.ctxs := rfl
@[simp] theorem Dev.clear_flits (d : Dev) (k n : Nat) : (d.clear k n).flits = d.flits := rfl
@[simp] theorem Dev.clear_mc (d : Dev) (k n : Nat) : (d.clear k n).mc = d.mc := rfl
@[simp] theorem Dev.clear_now (d : Dev) (k n : Nat) : (d.clear k n).now = d.now := rfl
@[simp] theorem Dev.clear_dcc (d : Dev) (k n : Nat) : (d.clear k n).dcc = d.dcc := rfl
@[simp] theorem Dev.clear_raised (d : Dev) (k n : Nat) : (d.clear k n).raised = d.raised := rfl
@[simp] theorem Dev.clear_outs (d : Dev) (k n : Nat) : (d.clear k n).outs = d.outs := rfl
@[simp] theorem Dev.clear_fresh (d : Dev) (k n : Nat) : (d.clear k n).fresh = d.fresh := rfl

/-! `Dev.copy` -/

@[simp] theorem Dev.copy_badWords (d : Dev) (src dst n : Nat) : (d.copy src dst n).badWords = d.badWords := rfl
@[simp] theorem Dev.copy_softWords (d : Dev) (src dst n : Nat) : (d.copy src dst n).softWords = d.softWords := rfl
@[simp] theorem Dev.copy_tiles (d : Dev) (src dst n : Nat) : (d.copy src dst n).tiles = d.tiles := rfl
@[simp] theorem Dev.copy_svcs (d : Dev) (src dst n : Nat) : (d.copy src dst n).svcs = d.svcs := rfl
@[simp] theorem Dev.copy_quads (d : Dev) (src dst n : Nat) : (d.copy src dst n).quads = d.quads := rfl
@[simp] theorem Dev.copy_routers (d : Dev) (src dst n : Nat) : (d.copy src dst n).routers = d.routers := rfl
@[simp] theorem Dev.copy_panels (d : Dev) (src dst n : Nat) : (d.copy src dst n).panels = d.panels := rfl
@[simp] theorem Dev.copy_bolts (d : Dev) (src dst n : Nat) : (d.copy src dst n).bolts = d.bolts := rfl
@[simp] theorem Dev.copy_vdevs (d : Dev) (src dst n : Nat) : (d.copy src dst n).vdevs = d.vdevs := rfl
@[simp] theorem Dev.copy_gens (d : Dev) (src dst n : Nat) : (d.copy src dst n).gens = d.gens := rfl
@[simp] theorem Dev.copy_resvs (d : Dev) (src dst n : Nat) : (d.copy src dst n).resvs = d.resvs := rfl
@[simp] theorem Dev.copy_nextLaunch (d : Dev) (src dst n : Nat) : (d.copy src dst n).nextLaunch = d.nextLaunch := rfl
@[simp] theorem Dev.copy_ports (d : Dev) (src dst n : Nat) : (d.copy src dst n).ports = d.ports := rfl
@[simp] theorem Dev.copy_pf (d : Dev) (src dst n : Nat) : (d.copy src dst n).pf = d.pf := rfl
@[simp] theorem Dev.copy_seams (d : Dev) (src dst n : Nat) : (d.copy src dst n).seams = d.seams := rfl
@[simp] theorem Dev.copy_far (d : Dev) (src dst n : Nat) : (d.copy src dst n).far = d.far := rfl
@[simp] theorem Dev.copy_posted (d : Dev) (src dst n : Nat) : (d.copy src dst n).posted = d.posted := rfl
@[simp] theorem Dev.copy_ctxs (d : Dev) (src dst n : Nat) : (d.copy src dst n).ctxs = d.ctxs := rfl
@[simp] theorem Dev.copy_flits (d : Dev) (src dst n : Nat) : (d.copy src dst n).flits = d.flits := rfl
@[simp] theorem Dev.copy_mc (d : Dev) (src dst n : Nat) : (d.copy src dst n).mc = d.mc := rfl
@[simp] theorem Dev.copy_now (d : Dev) (src dst n : Nat) : (d.copy src dst n).now = d.now := rfl
@[simp] theorem Dev.copy_dcc (d : Dev) (src dst n : Nat) : (d.copy src dst n).dcc = d.dcc := rfl
@[simp] theorem Dev.copy_raised (d : Dev) (src dst n : Nat) : (d.copy src dst n).raised = d.raised := rfl
@[simp] theorem Dev.copy_outs (d : Dev) (src dst n : Nat) : (d.copy src dst n).outs = d.outs := rfl
@[simp] theorem Dev.copy_fresh (d : Dev) (src dst n : Nat) : (d.copy src dst n).fresh = d.fresh := rfl

/-! `Dev.count` -/

@[simp] theorem Dev.count_mem (d : Dev) (b : Fin 32) (k : Fin 14) (n : Nat) : (d.count b k n).mem = d.mem := rfl
@[simp] theorem Dev.count_badWords (d : Dev) (b : Fin 32) (k : Fin 14) (n : Nat) : (d.count b k n).badWords = d.badWords := rfl
@[simp] theorem Dev.count_softWords (d : Dev) (b : Fin 32) (k : Fin 14) (n : Nat) : (d.count b k n).softWords = d.softWords := rfl
@[simp] theorem Dev.count_tiles (d : Dev) (b : Fin 32) (k : Fin 14) (n : Nat) : (d.count b k n).tiles = d.tiles := rfl
@[simp] theorem Dev.count_svcs (d : Dev) (b : Fin 32) (k : Fin 14) (n : Nat) : (d.count b k n).svcs = d.svcs := rfl
@[simp] theorem Dev.count_quads (d : Dev) (b : Fin 32) (k : Fin 14) (n : Nat) : (d.count b k n).quads = d.quads := rfl
@[simp] theorem Dev.count_routers (d : Dev) (b : Fin 32) (k : Fin 14) (n : Nat) : (d.count b k n).routers = d.routers := rfl
@[simp] theorem Dev.count_panels (d : Dev) (b : Fin 32) (k : Fin 14) (n : Nat) : (d.count b k n).panels = d.panels := rfl
@[simp] theorem Dev.count_vdevs (d : Dev) (b : Fin 32) (k : Fin 14) (n : Nat) : (d.count b k n).vdevs = d.vdevs := rfl
@[simp] theorem Dev.count_gens (d : Dev) (b : Fin 32) (k : Fin 14) (n : Nat) : (d.count b k n).gens = d.gens := rfl
@[simp] theorem Dev.count_resvs (d : Dev) (b : Fin 32) (k : Fin 14) (n : Nat) : (d.count b k n).resvs = d.resvs := rfl
@[simp] theorem Dev.count_nextLaunch (d : Dev) (b : Fin 32) (k : Fin 14) (n : Nat) : (d.count b k n).nextLaunch = d.nextLaunch := rfl
@[simp] theorem Dev.count_ports (d : Dev) (b : Fin 32) (k : Fin 14) (n : Nat) : (d.count b k n).ports = d.ports := rfl
@[simp] theorem Dev.count_pf (d : Dev) (b : Fin 32) (k : Fin 14) (n : Nat) : (d.count b k n).pf = d.pf := rfl
@[simp] theorem Dev.count_seams (d : Dev) (b : Fin 32) (k : Fin 14) (n : Nat) : (d.count b k n).seams = d.seams := rfl
@[simp] theorem Dev.count_far (d : Dev) (b : Fin 32) (k : Fin 14) (n : Nat) : (d.count b k n).far = d.far := rfl
@[simp] theorem Dev.count_posted (d : Dev) (b : Fin 32) (k : Fin 14) (n : Nat) : (d.count b k n).posted = d.posted := rfl
@[simp] theorem Dev.count_ctxs (d : Dev) (b : Fin 32) (k : Fin 14) (n : Nat) : (d.count b k n).ctxs = d.ctxs := rfl
@[simp] theorem Dev.count_flits (d : Dev) (b : Fin 32) (k : Fin 14) (n : Nat) : (d.count b k n).flits = d.flits := rfl
@[simp] theorem Dev.count_mc (d : Dev) (b : Fin 32) (k : Fin 14) (n : Nat) : (d.count b k n).mc = d.mc := rfl
@[simp] theorem Dev.count_now (d : Dev) (b : Fin 32) (k : Fin 14) (n : Nat) : (d.count b k n).now = d.now := rfl
@[simp] theorem Dev.count_dcc (d : Dev) (b : Fin 32) (k : Fin 14) (n : Nat) : (d.count b k n).dcc = d.dcc := rfl
@[simp] theorem Dev.count_raised (d : Dev) (b : Fin 32) (k : Fin 14) (n : Nat) : (d.count b k n).raised = d.raised := rfl
@[simp] theorem Dev.count_outs (d : Dev) (b : Fin 32) (k : Fin 14) (n : Nat) : (d.count b k n).outs = d.outs := rfl
@[simp] theorem Dev.count_fresh (d : Dev) (b : Fin 32) (k : Fin 14) (n : Nat) : (d.count b k n).fresh = d.fresh := rfl

/-! `Dev.logEvent` -/

@[simp] theorem Dev.logEvent_mem (d : Dev) (kind : Nat) (bolt tile data : Option Nat) : (d.logEvent kind bolt tile data).mem = d.mem := rfl
@[simp] theorem Dev.logEvent_badWords (d : Dev) (kind : Nat) (bolt tile data : Option Nat) : (d.logEvent kind bolt tile data).badWords = d.badWords := rfl
@[simp] theorem Dev.logEvent_softWords (d : Dev) (kind : Nat) (bolt tile data : Option Nat) : (d.logEvent kind bolt tile data).softWords = d.softWords := rfl
@[simp] theorem Dev.logEvent_tiles (d : Dev) (kind : Nat) (bolt tile data : Option Nat) : (d.logEvent kind bolt tile data).tiles = d.tiles := rfl
@[simp] theorem Dev.logEvent_svcs (d : Dev) (kind : Nat) (bolt tile data : Option Nat) : (d.logEvent kind bolt tile data).svcs = d.svcs := rfl
@[simp] theorem Dev.logEvent_quads (d : Dev) (kind : Nat) (bolt tile data : Option Nat) : (d.logEvent kind bolt tile data).quads = d.quads := rfl
@[simp] theorem Dev.logEvent_routers (d : Dev) (kind : Nat) (bolt tile data : Option Nat) : (d.logEvent kind bolt tile data).routers = d.routers := rfl
@[simp] theorem Dev.logEvent_panels (d : Dev) (kind : Nat) (bolt tile data : Option Nat) : (d.logEvent kind bolt tile data).panels = d.panels := rfl
@[simp] theorem Dev.logEvent_bolts (d : Dev) (kind : Nat) (bolt tile data : Option Nat) : (d.logEvent kind bolt tile data).bolts = d.bolts := rfl
@[simp] theorem Dev.logEvent_vdevs (d : Dev) (kind : Nat) (bolt tile data : Option Nat) : (d.logEvent kind bolt tile data).vdevs = d.vdevs := rfl
@[simp] theorem Dev.logEvent_gens (d : Dev) (kind : Nat) (bolt tile data : Option Nat) : (d.logEvent kind bolt tile data).gens = d.gens := rfl
@[simp] theorem Dev.logEvent_resvs (d : Dev) (kind : Nat) (bolt tile data : Option Nat) : (d.logEvent kind bolt tile data).resvs = d.resvs := rfl
@[simp] theorem Dev.logEvent_nextLaunch (d : Dev) (kind : Nat) (bolt tile data : Option Nat) : (d.logEvent kind bolt tile data).nextLaunch = d.nextLaunch := rfl
@[simp] theorem Dev.logEvent_ports (d : Dev) (kind : Nat) (bolt tile data : Option Nat) : (d.logEvent kind bolt tile data).ports = d.ports := rfl
@[simp] theorem Dev.logEvent_pf (d : Dev) (kind : Nat) (bolt tile data : Option Nat) : (d.logEvent kind bolt tile data).pf = d.pf := rfl
@[simp] theorem Dev.logEvent_seams (d : Dev) (kind : Nat) (bolt tile data : Option Nat) : (d.logEvent kind bolt tile data).seams = d.seams := rfl
@[simp] theorem Dev.logEvent_far (d : Dev) (kind : Nat) (bolt tile data : Option Nat) : (d.logEvent kind bolt tile data).far = d.far := rfl
@[simp] theorem Dev.logEvent_posted (d : Dev) (kind : Nat) (bolt tile data : Option Nat) : (d.logEvent kind bolt tile data).posted = d.posted := rfl
@[simp] theorem Dev.logEvent_ctxs (d : Dev) (kind : Nat) (bolt tile data : Option Nat) : (d.logEvent kind bolt tile data).ctxs = d.ctxs := rfl
@[simp] theorem Dev.logEvent_flits (d : Dev) (kind : Nat) (bolt tile data : Option Nat) : (d.logEvent kind bolt tile data).flits = d.flits := rfl
@[simp] theorem Dev.logEvent_now (d : Dev) (kind : Nat) (bolt tile data : Option Nat) : (d.logEvent kind bolt tile data).now = d.now := rfl
@[simp] theorem Dev.logEvent_dcc (d : Dev) (kind : Nat) (bolt tile data : Option Nat) : (d.logEvent kind bolt tile data).dcc = d.dcc := rfl
@[simp] theorem Dev.logEvent_raised (d : Dev) (kind : Nat) (bolt tile data : Option Nat) : (d.logEvent kind bolt tile data).raised = d.raised := rfl
@[simp] theorem Dev.logEvent_outs (d : Dev) (kind : Nat) (bolt tile data : Option Nat) : (d.logEvent kind bolt tile data).outs = d.outs := rfl

/-! The part changed -/

@[simp] theorem Dev.onTile_get (d : Dev) (n : Fin 128) (f : Tile → Tile) : (d.onTile n f).tiles[n] = f d.tiles[n] := by
  simp [Dev.onTile]
theorem Dev.onTile_get_ne (d : Dev) (n m : Fin 128) (f : Tile → Tile) (h : m ≠ n) : (d.onTile n f).tiles[m] = d.tiles[m] := by
  have : n.val ≠ m.val := fun e => h (Fin.ext e.symm)
  simp [Dev.onTile, this]
@[simp] theorem Dev.onSvc_get (d : Dev) (n : Fin 32) (f : Svc → Svc) : (d.onSvc n f).svcs[n] = f d.svcs[n] := by
  simp [Dev.onSvc]
theorem Dev.onSvc_get_ne (d : Dev) (n m : Fin 32) (f : Svc → Svc) (h : m ≠ n) : (d.onSvc n f).svcs[m] = d.svcs[m] := by
  have : n.val ≠ m.val := fun e => h (Fin.ext e.symm)
  simp [Dev.onSvc, this]
@[simp] theorem Dev.onQuad_get (d : Dev) (n : Fin 32) (f : Quad → Quad) : (d.onQuad n f).quads[n] = f d.quads[n] := by
  simp [Dev.onQuad]
theorem Dev.onQuad_get_ne (d : Dev) (n m : Fin 32) (f : Quad → Quad) (h : m ≠ n) : (d.onQuad n f).quads[m] = d.quads[m] := by
  have : n.val ≠ m.val := fun e => h (Fin.ext e.symm)
  simp [Dev.onQuad, this]
@[simp] theorem Dev.onRouter_get (d : Dev) (n : Fin 128) (f : Router → Router) : (d.onRouter n f).routers[n] = f d.routers[n] := by
  simp [Dev.onRouter]
theorem Dev.onRouter_get_ne (d : Dev) (n m : Fin 128) (f : Router → Router) (h : m ≠ n) : (d.onRouter n f).routers[m] = d.routers[m] := by
  have : n.val ≠ m.val := fun e => h (Fin.ext e.symm)
  simp [Dev.onRouter, this]
@[simp] theorem Dev.onBolt_get (d : Dev) (n : Fin 32) (f : Bolt → Bolt) : (d.onBolt n f).bolts[n] = f d.bolts[n] := by
  simp [Dev.onBolt]
theorem Dev.onBolt_get_ne (d : Dev) (n m : Fin 32) (f : Bolt → Bolt) (h : m ≠ n) : (d.onBolt n f).bolts[m] = d.bolts[m] := by
  have : n.val ≠ m.val := fun e => h (Fin.ext e.symm)
  simp [Dev.onBolt, this]
@[simp] theorem Dev.onPort_get (d : Dev) (n : Fin 2) (f : HostPort → HostPort) : (d.onPort n f).ports[n] = f d.ports[n] := by
  simp [Dev.onPort]
theorem Dev.onPort_get_ne (d : Dev) (n m : Fin 2) (f : HostPort → HostPort) (h : m ≠ n) : (d.onPort n f).ports[m] = d.ports[m] := by
  have : n.val ≠ m.val := fun e => h (Fin.ext e.symm)
  simp [Dev.onPort, this]
@[simp] theorem Dev.onSeam_get (d : Dev) (n : Fin 8) (f : SeamPort → SeamPort) : (d.onSeam n f).seams[n] = f d.seams[n] := by
  simp [Dev.onSeam]
theorem Dev.onSeam_get_ne (d : Dev) (n m : Fin 8) (f : SeamPort → SeamPort) (h : m ≠ n) : (d.onSeam n f).seams[m] = d.seams[m] := by
  have : n.val ≠ m.val := fun e => h (Fin.ext e.symm)
  simp [Dev.onSeam, this]

/-! A tile -/

@[simp] theorem Tile.writeS_sr (t : Tile) (r : Fin 32) (v : W64) (p : Bool) : (t.writeS r v p).sr = t.sr := by unfold Tile.writeS; split <;> rfl
@[simp] theorem Tile.writeS_c (t : Tile) (r : Fin 32) (v : W64) (p : Bool) : (t.writeS r v p).c = t.c := by unfold Tile.writeS; split <;> rfl
@[simp] theorem Tile.writeS_flight (t : Tile) (r : Fin 32) (v : W64) (p : Bool) : (t.writeS r v p).flight = t.flight := by unfold Tile.writeS; split <;> rfl
@[simp] theorem Tile.writeS_units (t : Tile) (r : Fin 32) (v : W64) (p : Bool) : (t.writeS r v p).units = t.units := by unfold Tile.writeS; split <;> rfl
@[simp] theorem Tile.writeS_tpath (t : Tile) (r : Fin 32) (v : W64) (p : Bool) : (t.writeS r v p).tpath = t.tpath := by unfold Tile.writeS; split <;> rfl
@[simp] theorem Tile.writeS_apath (t : Tile) (r : Fin 32) (v : W64) (p : Bool) : (t.writeS r v p).apath = t.apath := by unfold Tile.writeS; split <;> rfl
@[simp] theorem Tile.writeS_toks (t : Tile) (r : Fin 32) (v : W64) (p : Bool) : (t.writeS r v p).toks = t.toks := by unfold Tile.writeS; split <;> rfl
@[simp] theorem Tile.writeS_rep (t : Tile) (r : Fin 32) (v : W64) (p : Bool) : (t.writeS r v p).rep = t.rep := by unfold Tile.writeS; split <;> rfl
@[simp] theorem Tile.writeS_lands (t : Tile) (r : Fin 32) (v : W64) (p : Bool) : (t.writeS r v p).lands = t.lands := by unfold Tile.writeS; split <;> rfl
@[simp] theorem Tile.writeS_ops (t : Tile) (r : Fin 32) (v : W64) (p : Bool) : (t.writeS r v p).ops = t.ops := by unfold Tile.writeS; split <;> rfl
@[simp] theorem Tile.writeS_tlb (t : Tile) (r : Fin 32) (v : W64) (p : Bool) : (t.writeS r v p).tlb = t.tlb := by unfold Tile.writeS; split <;> rfl
@[simp] theorem Tile.writeS_owner (t : Tile) (r : Fin 32) (v : W64) (p : Bool) : (t.writeS r v p).owner = t.owner := by unfold Tile.writeS; split <;> rfl
@[simp] theorem Tile.writeS_rank (t : Tile) (r : Fin 32) (v : W64) (p : Bool) : (t.writeS r v p).rank = t.rank := by unfold Tile.writeS; split <;> rfl
@[simp] theorem Tile.writeS_drain (t : Tile) (r : Fin 32) (v : W64) (p : Bool) : (t.writeS r v p).drain = t.drain := by unfold Tile.writeS; split <;> rfl
@[simp] theorem Tile.writeK_sr (t : Tile) (r : Fin 16) (v : W32) : (t.writeK r v).sr = t.sr := by unfold Tile.writeK; split <;> rfl
@[simp] theorem Tile.writeK_c (t : Tile) (r : Fin 16) (v : W32) : (t.writeK r v).c = t.c := by unfold Tile.writeK; split <;> rfl
@[simp] theorem Tile.writeK_flight (t : Tile) (r : Fin 16) (v : W32) : (t.writeK r v).flight = t.flight := by unfold Tile.writeK; split <;> rfl
@[simp] theorem Tile.writeK_units (t : Tile) (r : Fin 16) (v : W32) : (t.writeK r v).units = t.units := by unfold Tile.writeK; split <;> rfl
@[simp] theorem Tile.writeK_tpath (t : Tile) (r : Fin 16) (v : W32) : (t.writeK r v).tpath = t.tpath := by unfold Tile.writeK; split <;> rfl
@[simp] theorem Tile.writeK_apath (t : Tile) (r : Fin 16) (v : W32) : (t.writeK r v).apath = t.apath := by unfold Tile.writeK; split <;> rfl
@[simp] theorem Tile.writeK_toks (t : Tile) (r : Fin 16) (v : W32) : (t.writeK r v).toks = t.toks := by unfold Tile.writeK; split <;> rfl
@[simp] theorem Tile.writeK_rep (t : Tile) (r : Fin 16) (v : W32) : (t.writeK r v).rep = t.rep := by unfold Tile.writeK; split <;> rfl
@[simp] theorem Tile.writeK_lands (t : Tile) (r : Fin 16) (v : W32) : (t.writeK r v).lands = t.lands := by unfold Tile.writeK; split <;> rfl
@[simp] theorem Tile.writeK_ops (t : Tile) (r : Fin 16) (v : W32) : (t.writeK r v).ops = t.ops := by unfold Tile.writeK; split <;> rfl
@[simp] theorem Tile.writeK_tlb (t : Tile) (r : Fin 16) (v : W32) : (t.writeK r v).tlb = t.tlb := by unfold Tile.writeK; split <;> rfl
@[simp] theorem Tile.writeK_owner (t : Tile) (r : Fin 16) (v : W32) : (t.writeK r v).owner = t.owner := by unfold Tile.writeK; split <;> rfl
@[simp] theorem Tile.writeK_rank (t : Tile) (r : Fin 16) (v : W32) : (t.writeK r v).rank = t.rank := by unfold Tile.writeK; split <;> rfl
@[simp] theorem Tile.writeK_drain (t : Tile) (r : Fin 16) (v : W32) : (t.writeK r v).drain = t.drain := by unfold Tile.writeK; split <;> rfl
@[simp] theorem Tile.writeP_sr (t : Tile) (r : Fin 8) (v : Bool) : (t.writeP r v).sr = t.sr := by unfold Tile.writeP; split <;> rfl
@[simp] theorem Tile.writeP_c (t : Tile) (r : Fin 8) (v : Bool) : (t.writeP r v).c = t.c := by unfold Tile.writeP; split <;> rfl
@[simp] theorem Tile.writeP_flight (t : Tile) (r : Fin 8) (v : Bool) : (t.writeP r v).flight = t.flight := by unfold Tile.writeP; split <;> rfl
@[simp] theorem Tile.writeP_units (t : Tile) (r : Fin 8) (v : Bool) : (t.writeP r v).units = t.units := by unfold Tile.writeP; split <;> rfl
@[simp] theorem Tile.writeP_tpath (t : Tile) (r : Fin 8) (v : Bool) : (t.writeP r v).tpath = t.tpath := by unfold Tile.writeP; split <;> rfl
@[simp] theorem Tile.writeP_apath (t : Tile) (r : Fin 8) (v : Bool) : (t.writeP r v).apath = t.apath := by unfold Tile.writeP; split <;> rfl
@[simp] theorem Tile.writeP_toks (t : Tile) (r : Fin 8) (v : Bool) : (t.writeP r v).toks = t.toks := by unfold Tile.writeP; split <;> rfl
@[simp] theorem Tile.writeP_rep (t : Tile) (r : Fin 8) (v : Bool) : (t.writeP r v).rep = t.rep := by unfold Tile.writeP; split <;> rfl
@[simp] theorem Tile.writeP_lands (t : Tile) (r : Fin 8) (v : Bool) : (t.writeP r v).lands = t.lands := by unfold Tile.writeP; split <;> rfl
@[simp] theorem Tile.writeP_ops (t : Tile) (r : Fin 8) (v : Bool) : (t.writeP r v).ops = t.ops := by unfold Tile.writeP; split <;> rfl
@[simp] theorem Tile.writeP_tlb (t : Tile) (r : Fin 8) (v : Bool) : (t.writeP r v).tlb = t.tlb := by unfold Tile.writeP; split <;> rfl
@[simp] theorem Tile.writeP_owner (t : Tile) (r : Fin 8) (v : Bool) : (t.writeP r v).owner = t.owner := by unfold Tile.writeP; split <;> rfl
@[simp] theorem Tile.writeP_rank (t : Tile) (r : Fin 8) (v : Bool) : (t.writeP r v).rank = t.rank := by unfold Tile.writeP; split <;> rfl
@[simp] theorem Tile.writeP_drain (t : Tile) (r : Fin 8) (v : Bool) : (t.writeP r v).drain = t.drain := by unfold Tile.writeP; split <;> rfl
@[simp] theorem Tile.writeV_sr (t : Tile) (x : VFile) (r : Fin 32) (v : VReg) (p : Bool) : (t.writeV x r v p).sr = t.sr := by unfold Tile.writeV; split <;> rfl
@[simp] theorem Tile.writeV_c (t : Tile) (x : VFile) (r : Fin 32) (v : VReg) (p : Bool) : (t.writeV x r v p).c = t.c := by unfold Tile.writeV; split <;> rfl
@[simp] theorem Tile.writeV_flight (t : Tile) (x : VFile) (r : Fin 32) (v : VReg) (p : Bool) : (t.writeV x r v p).flight = t.flight := by unfold Tile.writeV; split <;> rfl
@[simp] theorem Tile.writeV_units (t : Tile) (x : VFile) (r : Fin 32) (v : VReg) (p : Bool) : (t.writeV x r v p).units = t.units := by unfold Tile.writeV; split <;> rfl
@[simp] theorem Tile.writeV_tpath (t : Tile) (x : VFile) (r : Fin 32) (v : VReg) (p : Bool) : (t.writeV x r v p).tpath = t.tpath := by unfold Tile.writeV; split <;> rfl
@[simp] theorem Tile.writeV_apath (t : Tile) (x : VFile) (r : Fin 32) (v : VReg) (p : Bool) : (t.writeV x r v p).apath = t.apath := by unfold Tile.writeV; split <;> rfl
@[simp] theorem Tile.writeV_toks (t : Tile) (x : VFile) (r : Fin 32) (v : VReg) (p : Bool) : (t.writeV x r v p).toks = t.toks := by unfold Tile.writeV; split <;> rfl
@[simp] theorem Tile.writeV_rep (t : Tile) (x : VFile) (r : Fin 32) (v : VReg) (p : Bool) : (t.writeV x r v p).rep = t.rep := by unfold Tile.writeV; split <;> rfl
@[simp] theorem Tile.writeV_lands (t : Tile) (x : VFile) (r : Fin 32) (v : VReg) (p : Bool) : (t.writeV x r v p).lands = t.lands := by unfold Tile.writeV; split <;> rfl
@[simp] theorem Tile.writeV_ops (t : Tile) (x : VFile) (r : Fin 32) (v : VReg) (p : Bool) : (t.writeV x r v p).ops = t.ops := by unfold Tile.writeV; split <;> rfl
@[simp] theorem Tile.writeV_tlb (t : Tile) (x : VFile) (r : Fin 32) (v : VReg) (p : Bool) : (t.writeV x r v p).tlb = t.tlb := by unfold Tile.writeV; split <;> rfl
@[simp] theorem Tile.writeV_owner (t : Tile) (x : VFile) (r : Fin 32) (v : VReg) (p : Bool) : (t.writeV x r v p).owner = t.owner := by unfold Tile.writeV; split <;> rfl
@[simp] theorem Tile.writeV_rank (t : Tile) (x : VFile) (r : Fin 32) (v : VReg) (p : Bool) : (t.writeV x r v p).rank = t.rank := by unfold Tile.writeV; split <;> rfl
@[simp] theorem Tile.writeV_drain (t : Tile) (x : VFile) (r : Fin 32) (v : VReg) (p : Bool) : (t.writeV x r v p).drain = t.drain := by unfold Tile.writeV; split <;> rfl
@[simp] theorem Tile.writeM_sr (t : Tile) (x : VFile) (r : Fin 8) (v : W32) : (t.writeM x r v).sr = t.sr := by unfold Tile.writeM; split <;> rfl
@[simp] theorem Tile.writeM_c (t : Tile) (x : VFile) (r : Fin 8) (v : W32) : (t.writeM x r v).c = t.c := by unfold Tile.writeM; split <;> rfl
@[simp] theorem Tile.writeM_flight (t : Tile) (x : VFile) (r : Fin 8) (v : W32) : (t.writeM x r v).flight = t.flight := by unfold Tile.writeM; split <;> rfl
@[simp] theorem Tile.writeM_units (t : Tile) (x : VFile) (r : Fin 8) (v : W32) : (t.writeM x r v).units = t.units := by unfold Tile.writeM; split <;> rfl
@[simp] theorem Tile.writeM_tpath (t : Tile) (x : VFile) (r : Fin 8) (v : W32) : (t.writeM x r v).tpath = t.tpath := by unfold Tile.writeM; split <;> rfl
@[simp] theorem Tile.writeM_apath (t : Tile) (x : VFile) (r : Fin 8) (v : W32) : (t.writeM x r v).apath = t.apath := by unfold Tile.writeM; split <;> rfl
@[simp] theorem Tile.writeM_toks (t : Tile) (x : VFile) (r : Fin 8) (v : W32) : (t.writeM x r v).toks = t.toks := by unfold Tile.writeM; split <;> rfl
@[simp] theorem Tile.writeM_rep (t : Tile) (x : VFile) (r : Fin 8) (v : W32) : (t.writeM x r v).rep = t.rep := by unfold Tile.writeM; split <;> rfl
@[simp] theorem Tile.writeM_lands (t : Tile) (x : VFile) (r : Fin 8) (v : W32) : (t.writeM x r v).lands = t.lands := by unfold Tile.writeM; split <;> rfl
@[simp] theorem Tile.writeM_ops (t : Tile) (x : VFile) (r : Fin 8) (v : W32) : (t.writeM x r v).ops = t.ops := by unfold Tile.writeM; split <;> rfl
@[simp] theorem Tile.writeM_tlb (t : Tile) (x : VFile) (r : Fin 8) (v : W32) : (t.writeM x r v).tlb = t.tlb := by unfold Tile.writeM; split <;> rfl
@[simp] theorem Tile.writeM_owner (t : Tile) (x : VFile) (r : Fin 8) (v : W32) : (t.writeM x r v).owner = t.owner := by unfold Tile.writeM; split <;> rfl
@[simp] theorem Tile.writeM_rank (t : Tile) (x : VFile) (r : Fin 8) (v : W32) : (t.writeM x r v).rank = t.rank := by unfold Tile.writeM; split <;> rfl
@[simp] theorem Tile.writeM_drain (t : Tile) (x : VFile) (r : Fin 8) (v : W32) : (t.writeM x r v).drain = t.drain := by unfold Tile.writeM; split <;> rfl
@[simp] theorem Tile.writeT_sr (t : Tile) (r : Fin 8) (v : TReg) (p : Bool) : (t.writeT r v p).sr = t.sr := rfl
@[simp] theorem Tile.writeT_c (t : Tile) (r : Fin 8) (v : TReg) (p : Bool) : (t.writeT r v p).c = t.c := rfl
@[simp] theorem Tile.writeT_flight (t : Tile) (r : Fin 8) (v : TReg) (p : Bool) : (t.writeT r v p).flight = t.flight := rfl
@[simp] theorem Tile.writeT_units (t : Tile) (r : Fin 8) (v : TReg) (p : Bool) : (t.writeT r v p).units = t.units := rfl
@[simp] theorem Tile.writeT_tpath (t : Tile) (r : Fin 8) (v : TReg) (p : Bool) : (t.writeT r v p).tpath = t.tpath := rfl
@[simp] theorem Tile.writeT_apath (t : Tile) (r : Fin 8) (v : TReg) (p : Bool) : (t.writeT r v p).apath = t.apath := rfl
@[simp] theorem Tile.writeT_toks (t : Tile) (r : Fin 8) (v : TReg) (p : Bool) : (t.writeT r v p).toks = t.toks := rfl
@[simp] theorem Tile.writeT_rep (t : Tile) (r : Fin 8) (v : TReg) (p : Bool) : (t.writeT r v p).rep = t.rep := rfl
@[simp] theorem Tile.writeT_lands (t : Tile) (r : Fin 8) (v : TReg) (p : Bool) : (t.writeT r v p).lands = t.lands := rfl
@[simp] theorem Tile.writeT_ops (t : Tile) (r : Fin 8) (v : TReg) (p : Bool) : (t.writeT r v p).ops = t.ops := rfl
@[simp] theorem Tile.writeT_tlb (t : Tile) (r : Fin 8) (v : TReg) (p : Bool) : (t.writeT r v p).tlb = t.tlb := rfl
@[simp] theorem Tile.writeT_owner (t : Tile) (r : Fin 8) (v : TReg) (p : Bool) : (t.writeT r v p).owner = t.owner := rfl
@[simp] theorem Tile.writeT_rank (t : Tile) (r : Fin 8) (v : TReg) (p : Bool) : (t.writeT r v p).rank = t.rank := rfl
@[simp] theorem Tile.writeT_drain (t : Tile) (r : Fin 8) (v : TReg) (p : Bool) : (t.writeT r v p).drain = t.drain := rfl
@[simp] theorem Tile.writeZ_sr (t : Tile) (r : Fin 4) (v : Acc) (p : Bool) : (t.writeZ r v p).sr = t.sr := rfl
@[simp] theorem Tile.writeZ_c (t : Tile) (r : Fin 4) (v : Acc) (p : Bool) : (t.writeZ r v p).c = t.c := rfl
@[simp] theorem Tile.writeZ_flight (t : Tile) (r : Fin 4) (v : Acc) (p : Bool) : (t.writeZ r v p).flight = t.flight := rfl
@[simp] theorem Tile.writeZ_units (t : Tile) (r : Fin 4) (v : Acc) (p : Bool) : (t.writeZ r v p).units = t.units := rfl
@[simp] theorem Tile.writeZ_tpath (t : Tile) (r : Fin 4) (v : Acc) (p : Bool) : (t.writeZ r v p).tpath = t.tpath := rfl
@[simp] theorem Tile.writeZ_apath (t : Tile) (r : Fin 4) (v : Acc) (p : Bool) : (t.writeZ r v p).apath = t.apath := rfl
@[simp] theorem Tile.writeZ_toks (t : Tile) (r : Fin 4) (v : Acc) (p : Bool) : (t.writeZ r v p).toks = t.toks := rfl
@[simp] theorem Tile.writeZ_rep (t : Tile) (r : Fin 4) (v : Acc) (p : Bool) : (t.writeZ r v p).rep = t.rep := rfl
@[simp] theorem Tile.writeZ_lands (t : Tile) (r : Fin 4) (v : Acc) (p : Bool) : (t.writeZ r v p).lands = t.lands := rfl
@[simp] theorem Tile.writeZ_ops (t : Tile) (r : Fin 4) (v : Acc) (p : Bool) : (t.writeZ r v p).ops = t.ops := rfl
@[simp] theorem Tile.writeZ_tlb (t : Tile) (r : Fin 4) (v : Acc) (p : Bool) : (t.writeZ r v p).tlb = t.tlb := rfl
@[simp] theorem Tile.writeZ_owner (t : Tile) (r : Fin 4) (v : Acc) (p : Bool) : (t.writeZ r v p).owner = t.owner := rfl
@[simp] theorem Tile.writeZ_rank (t : Tile) (r : Fin 4) (v : Acc) (p : Bool) : (t.writeZ r v p).rank = t.rank := rfl
@[simp] theorem Tile.writeZ_drain (t : Tile) (r : Fin 4) (v : Acc) (p : Bool) : (t.writeZ r v p).drain = t.drain := rfl
@[simp] theorem Tile.setTstat_r (t : Tile) (i : Nat) : (t.setTstat i).r = t.r := rfl
@[simp] theorem Tile.setTstat_c (t : Tile) (i : Nat) : (t.setTstat i).c = t.c := rfl
@[simp] theorem Tile.setTstat_flight (t : Tile) (i : Nat) : (t.setTstat i).flight = t.flight := rfl
@[simp] theorem Tile.setTstat_units (t : Tile) (i : Nat) : (t.setTstat i).units = t.units := rfl
@[simp] theorem Tile.setTstat_tpath (t : Tile) (i : Nat) : (t.setTstat i).tpath = t.tpath := rfl
@[simp] theorem Tile.setTstat_apath (t : Tile) (i : Nat) : (t.setTstat i).apath = t.apath := rfl
@[simp] theorem Tile.setTstat_toks (t : Tile) (i : Nat) : (t.setTstat i).toks = t.toks := rfl
@[simp] theorem Tile.setTstat_rep (t : Tile) (i : Nat) : (t.setTstat i).rep = t.rep := rfl
@[simp] theorem Tile.setTstat_lands (t : Tile) (i : Nat) : (t.setTstat i).lands = t.lands := rfl
@[simp] theorem Tile.setTstat_ops (t : Tile) (i : Nat) : (t.setTstat i).ops = t.ops := rfl
@[simp] theorem Tile.setTstat_tlb (t : Tile) (i : Nat) : (t.setTstat i).tlb = t.tlb := rfl
@[simp] theorem Tile.setTstat_owner (t : Tile) (i : Nat) : (t.setTstat i).owner = t.owner := rfl
@[simp] theorem Tile.setTstat_rank (t : Tile) (i : Nat) : (t.setTstat i).rank = t.rank := rfl
@[simp] theorem Tile.setTstat_drain (t : Tile) (i : Nat) : (t.setTstat i).drain = t.drain := rfl
@[simp] theorem Tile.dropPoisoned_r (t : Tile) : t.dropPoisoned.r = t.r := rfl
@[simp] theorem Tile.dropPoisoned_c (t : Tile) : t.dropPoisoned.c = t.c := rfl
@[simp] theorem Tile.dropPoisoned_flight (t : Tile) : t.dropPoisoned.flight = t.flight := rfl
@[simp] theorem Tile.dropPoisoned_units (t : Tile) : t.dropPoisoned.units = t.units := rfl
@[simp] theorem Tile.dropPoisoned_tpath (t : Tile) : t.dropPoisoned.tpath = t.tpath := rfl
@[simp] theorem Tile.dropPoisoned_apath (t : Tile) : t.dropPoisoned.apath = t.apath := rfl
@[simp] theorem Tile.dropPoisoned_toks (t : Tile) : t.dropPoisoned.toks = t.toks := rfl
@[simp] theorem Tile.dropPoisoned_rep (t : Tile) : t.dropPoisoned.rep = t.rep := rfl
@[simp] theorem Tile.dropPoisoned_lands (t : Tile) : t.dropPoisoned.lands = t.lands := rfl
@[simp] theorem Tile.dropPoisoned_ops (t : Tile) : t.dropPoisoned.ops = t.ops := rfl
@[simp] theorem Tile.dropPoisoned_tlb (t : Tile) : t.dropPoisoned.tlb = t.tlb := rfl
@[simp] theorem Tile.dropPoisoned_owner (t : Tile) : t.dropPoisoned.owner = t.owner := rfl
@[simp] theorem Tile.dropPoisoned_rank (t : Tile) : t.dropPoisoned.rank = t.rank := rfl
@[simp] theorem Tile.dropPoisoned_drain (t : Tile) : t.dropPoisoned.drain = t.drain := rfl
@[simp] theorem Tile.orFlags_r (t : Tile) (x : VFile) (fl : BitVec 6) : (t.orFlags x fl).r = t.r := by unfold Tile.orFlags; split <;> rfl
@[simp] theorem Tile.orFlags_c (t : Tile) (x : VFile) (fl : BitVec 6) : (t.orFlags x fl).c = t.c := by unfold Tile.orFlags; split <;> rfl
@[simp] theorem Tile.orFlags_flight (t : Tile) (x : VFile) (fl : BitVec 6) : (t.orFlags x fl).flight = t.flight := by unfold Tile.orFlags; split <;> rfl
@[simp] theorem Tile.orFlags_units (t : Tile) (x : VFile) (fl : BitVec 6) : (t.orFlags x fl).units = t.units := by unfold Tile.orFlags; split <;> rfl
@[simp] theorem Tile.orFlags_tpath (t : Tile) (x : VFile) (fl : BitVec 6) : (t.orFlags x fl).tpath = t.tpath := by unfold Tile.orFlags; split <;> rfl
@[simp] theorem Tile.orFlags_apath (t : Tile) (x : VFile) (fl : BitVec 6) : (t.orFlags x fl).apath = t.apath := by unfold Tile.orFlags; split <;> rfl
@[simp] theorem Tile.orFlags_toks (t : Tile) (x : VFile) (fl : BitVec 6) : (t.orFlags x fl).toks = t.toks := by unfold Tile.orFlags; split <;> rfl
@[simp] theorem Tile.orFlags_rep (t : Tile) (x : VFile) (fl : BitVec 6) : (t.orFlags x fl).rep = t.rep := by unfold Tile.orFlags; split <;> rfl
@[simp] theorem Tile.orFlags_lands (t : Tile) (x : VFile) (fl : BitVec 6) : (t.orFlags x fl).lands = t.lands := by unfold Tile.orFlags; split <;> rfl
@[simp] theorem Tile.orFlags_ops (t : Tile) (x : VFile) (fl : BitVec 6) : (t.orFlags x fl).ops = t.ops := by unfold Tile.orFlags; split <;> rfl
@[simp] theorem Tile.orFlags_tlb (t : Tile) (x : VFile) (fl : BitVec 6) : (t.orFlags x fl).tlb = t.tlb := by unfold Tile.orFlags; split <;> rfl
@[simp] theorem Tile.orFlags_owner (t : Tile) (x : VFile) (fl : BitVec 6) : (t.orFlags x fl).owner = t.owner := by unfold Tile.orFlags; split <;> rfl
@[simp] theorem Tile.orFlags_rank (t : Tile) (x : VFile) (fl : BitVec 6) : (t.orFlags x fl).rank = t.rank := by unfold Tile.orFlags; split <;> rfl
@[simp] theorem Tile.orFlags_drain (t : Tile) (x : VFile) (fl : BitVec 6) : (t.orFlags x fl).drain = t.drain := by unfold Tile.orFlags; split <;> rfl
@[simp] theorem Tile.push_r (t : Tile) (f : Flight) : (t.push f).r = t.r := rfl
@[simp] theorem Tile.push_sr (t : Tile) (f : Flight) : (t.push f).sr = t.sr := rfl
@[simp] theorem Tile.push_c (t : Tile) (f : Flight) : (t.push f).c = t.c := rfl
@[simp] theorem Tile.push_units (t : Tile) (f : Flight) : (t.push f).units = t.units := rfl
@[simp] theorem Tile.push_tpath (t : Tile) (f : Flight) : (t.push f).tpath = t.tpath := rfl
@[simp] theorem Tile.push_apath (t : Tile) (f : Flight) : (t.push f).apath = t.apath := rfl
@[simp] theorem Tile.push_toks (t : Tile) (f : Flight) : (t.push f).toks = t.toks := rfl
@[simp] theorem Tile.push_rep (t : Tile) (f : Flight) : (t.push f).rep = t.rep := rfl
@[simp] theorem Tile.push_lands (t : Tile) (f : Flight) : (t.push f).lands = t.lands := rfl
@[simp] theorem Tile.push_ops (t : Tile) (f : Flight) : (t.push f).ops = t.ops := rfl
@[simp] theorem Tile.push_tlb (t : Tile) (f : Flight) : (t.push f).tlb = t.tlb := rfl
@[simp] theorem Tile.push_owner (t : Tile) (f : Flight) : (t.push f).owner = t.owner := rfl
@[simp] theorem Tile.push_rank (t : Tile) (f : Flight) : (t.push f).rank = t.rank := rfl
@[simp] theorem Tile.push_drain (t : Tile) (f : Flight) : (t.push f).drain = t.drain := rfl
@[simp] theorem Tile.push_flight (t : Tile) (f : Flight) : (t.push f).flight = t.flight ++ [f] := rfl

/-! The state -/

@[simp] theorem State.onDev_saved (s : State) (f : Dev → Dev) : (s.onDev f).saved = s.saved := rfl
@[simp] theorem State.onDev_agenda (s : State) (f : Dev → Dev) : (s.onDev f).agenda = s.agenda := rfl
@[simp] theorem State.onDev_inbox (s : State) (f : Dev → Dev) : (s.onDev f).inbox = s.inbox := rfl
@[simp] theorem State.onDev_cur (s : State) (f : Dev → Dev) : (s.onDev f).cur = s.cur := rfl
@[simp] theorem State.onDev_iss (s : State) (f : Dev → Dev) : (s.onDev f).iss = s.iss := rfl
@[simp] theorem State.onTile_saved (s : State) (f : Tile → Tile) : (s.onTile f).saved = s.saved := rfl
@[simp] theorem State.onTile_agenda (s : State) (f : Tile → Tile) : (s.onTile f).agenda = s.agenda := rfl
@[simp] theorem State.onTile_inbox (s : State) (f : Tile → Tile) : (s.onTile f).inbox = s.inbox := rfl
@[simp] theorem State.onTile_cur (s : State) (f : Tile → Tile) : (s.onTile f).cur = s.cur := rfl
@[simp] theorem State.onTile_iss (s : State) (f : Tile → Tile) : (s.onTile f).iss = s.iss := rfl
@[simp] theorem State.onIss_dev (s : State) (f : Iss → Iss) : (s.onIss f).dev = s.dev := rfl
@[simp] theorem State.onIss_saved (s : State) (f : Iss → Iss) : (s.onIss f).saved = s.saved := rfl
@[simp] theorem State.onIss_agenda (s : State) (f : Iss → Iss) : (s.onIss f).agenda = s.agenda := rfl
@[simp] theorem State.onIss_inbox (s : State) (f : Iss → Iss) : (s.onIss f).inbox = s.inbox := rfl
@[simp] theorem State.onIss_cur (s : State) (f : Iss → Iss) : (s.onIss f).cur = s.cur := rfl
@[simp] theorem State.goto_dev (s : State) (a : W32) : (s.goto a).dev = s.dev := rfl
@[simp] theorem State.goto_saved (s : State) (a : W32) : (s.goto a).saved = s.saved := rfl
@[simp] theorem State.goto_agenda (s : State) (a : W32) : (s.goto a).agenda = s.agenda := rfl
@[simp] theorem State.goto_inbox (s : State) (a : W32) : (s.goto a).inbox = s.inbox := rfl
@[simp] theorem State.goto_cur (s : State) (a : W32) : (s.goto a).cur = s.cur := rfl
@[simp] theorem State.onDev_dev (s : State) (f : Dev → Dev) : (s.onDev f).dev = f s.dev := rfl
@[simp] theorem State.onTile_dev (s : State) (f : Tile → Tile) : (s.onTile f).dev = s.dev.onTile s.tileNo f := rfl
@[simp] theorem State.onIss_iss (s : State) (f : Iss → Iss) : (s.onIss f).iss = f s.iss := rfl
@[simp] theorem State.goto_next (s : State) (a : W32) : (s.goto a).iss = { s.iss with next := a } := rfl

/-! Queueing and issuing -/

/-- Everything that queueing a result does on a tile. -/
theorem State.put_tile (s : State) {n : Fin 128} (h : s.cur = .tile n) (lat : Nat) (dest : Dest) (v : VReg) (p : Bool) (u : Flight → Flight) :
    s.put lat dest v p u = s.onDev fun d => d.onTile n fun t =>
      t.push (u (.result (s.dev.psc n) s.iss.slot (s.dev.psc n + lat - 1) dest v p)) := by
  simp [State.put, h]

/-- Everything that a result does on a service core. -/
theorem State.put_svc (s : State) {q : Fin 32} (h : s.cur = .svc q) (lat : Nat) (dest : Dest) (v : VReg) (p : Bool) (u : Flight → Flight) :
    s.put lat dest v p u = s.onDev fun d => d.onSvc q fun c => c.writeDest dest v p := by
  simp [State.put, h]

@[simp] theorem State.put_cur (s : State) (lat : Nat) (dest : Dest) (v : VReg) (p : Bool) (u : Flight → Flight) :
    (s.put lat dest v p u).cur = s.cur := by unfold State.put; split <;> simp_all
@[simp] theorem State.put_iss (s : State) (lat : Nat) (dest : Dest) (v : VReg) (p : Bool) (u : Flight → Flight) :
    (s.put lat dest v p u).iss = s.iss := by unfold State.put; split <;> rfl
@[simp] theorem State.put_saved (s : State) (lat : Nat) (dest : Dest) (v : VReg) (p : Bool) (u : Flight → Flight) :
    (s.put lat dest v p u).saved = s.saved := by unfold State.put; split <;> rfl
@[simp] theorem State.put_agenda (s : State) (lat : Nat) (dest : Dest) (v : VReg) (p : Bool) (u : Flight → Flight) :
    (s.put lat dest v p u).agenda = s.agenda := by unfold State.put; split <;> rfl
@[simp] theorem State.put_mem (s : State) (lat : Nat) (dest : Dest) (v : VReg) (p : Bool) (u : Flight → Flight) :
    (s.put lat dest v p u).dev.mem = s.dev.mem := by unfold State.put; split <;> rfl

/-- An operation whose checks all pass has its effect. -/
theorem State.attempt_ok (s : State) {l : List Chk} (go : State → State) (h : ∀ c ∈ l, c.bad = false) : s.attempt l go = .next (go s) := by
  have : l.filter Chk.bad = [] := by rw [List.filter_eq_nil_iff]; intro c hc; simp [h c hc]
  simp [State.attempt, this]

/-- An operation with a failed check raises its causes and has no effect. -/
theorem State.attempt_bad (s : State) {l : List Chk} (go : State → State) (h : ∃ c ∈ l, c.bad = true) :
    s.attempt l go = .next (s.raiseAll (l.filter Chk.bad)) := by
  have : ¬ l.filter Chk.bad = [] := by
    rw [List.filter_eq_nil_iff]; obtain ⟨c, hc, hb⟩ := h; intro k; exact k c hc hb
  simp [State.attempt, this]

/-- An operation never stops the machine. -/
theorem State.attempt_next (s : State) (l : List Chk) (go : State → State) : ∃ t, s.attempt l go = .next t := by
  unfold State.attempt; dsimp only; split <;> exact ⟨_, rfl⟩

end Sys2Proof.Machine
end

