-- ==== Sys2Proof/Laws/Lanes.lean ====
section
/-! SUPPORT. What lanes, masks and the shared vector operations leave behind, once for every vector operation. -/

set_option exponentiation.threshold 2000

namespace Sys2Proof.Machine

theorem joinLanes_lt (w : Nat) (l : List Nat) : joinLanes w l < 2 ^ (w * l.length) := by
  induction l with
  | nil => simp [joinLanes]
  | cons x r ih =>
    have h1 : x % 2 ^ w < 2 ^ w := Nat.mod_lt _ (Nat.two_pow_pos w)
    have h2 : 2 ^ w * (joinLanes w r + 1) ≤ 2 ^ w * 2 ^ (w * r.length) := Nat.mul_le_mul_left _ ih
    simp only [joinLanes, List.length_cons, Nat.mul_add, Nat.mul_one, Nat.pow_add] at *
    rw [Nat.mul_comm (2 ^ (w * r.length))]
    omega

theorem joinLanes_field (w : Nat) (l : List Nat) (j : Nat) (h : j < l.length) : field (joinLanes w l) (w * j) w = l[j] % 2 ^ w := by
  induction l generalizing j with
  | nil => simp at h
  | cons x r ih =>
    have hx : x % 2 ^ w < 2 ^ w := Nat.mod_lt _ (Nat.two_pow_pos w)
    cases j with
    | zero => simp [field, joinLanes]
    | succ j =>
      have e : joinLanes w (x :: r) / 2 ^ (w * (j + 1)) = joinLanes w r / 2 ^ (w * j) := by
        rw [Nat.mul_add, Nat.mul_one, Nat.add_comm, Nat.pow_add, ← Nat.div_div_eq_div_mul]
        simp [joinLanes, Nat.add_mul_div_left, Nat.div_eq_of_lt hx]
      simpa [field, e] using ih j (by simpa using h)

theorem lane_ofLanes (w : Nat) (l : List Nat) (h : w * l.length ≤ 1024) (j : Nat) (hj : j < l.length) :
    lane w (ofLanes w l) j = l[j] % 2 ^ w := by
  have hb : joinLanes w l < 2 ^ 1024 := Nat.lt_of_lt_of_le (joinLanes_lt w l) (Nat.pow_le_pow_right (by decide) h)
  rw [lane, ofLanes, BitVec.toNat_ofNat, Nat.mod_eq_of_lt hb, joinLanes_field w l j hj]

theorem mul_laneCount_le (w : Nat) : w * laneCount w ≤ 1024 := Nat.mul_div_le 1024 w

theorem lane_mapLanes (w : Nat) (f : Nat → Nat) (j : Nat) (hj : j < laneCount w) : lane w (mapLanes w f) j = f j % 2 ^ w := by
  rw [mapLanes, lane_ofLanes w _ (by simpa using mul_laneCount_le w) j (by simpa using hj)]
  simp

theorem lane_eq_laneOf (s : State) (f : VFile) (r : Fin 32) (w j : Nat) : lane w (s.readV f r) j = (s.laneOf f r w j).toNat := by
  simp [lane, field, State.laneOf, BitVec.extractLsb'_toNat, Nat.shiftRight_eq_div_pow]

theorem attempt_awake (s : State) (f : VFile) (l : List (Fin 32)) (h : s.awake f l) (go : State → State) :
    s.attempt (s.chkVs f l) go = .next (go s) := by
  have : (s.chkVs f l).filter Chk.bad = [] := by
    simp only [State.chkVs, List.filter_eq_nil_iff, List.mem_map]
    rintro _ ⟨r, hr, rfl⟩
    simp [State.chkV, chkOp, h r hr]
  simp [State.attempt, this]

theorem foldl_filter_or (p : Nat → Bool) (g : Nat → Flags) (l : List Nat) (a : Flags) :
    l.foldl (fun a j => a ||| (if p j then g j else 0#6)) a = (l.filter p).foldl (fun a j => a ||| g j) a := by
  induction l generalizing a with
  | nil => rfl
  | cons x r ih => by_cases h : p x <;> simp [h, ih]

/-- What a masked lane operation leaves: one vector result with the given lanes and flags. -/
theorem laneOp_result (i : Instr) (s : State) (f : VFile) (lat : Nat) (d : Fin 32) (srcs : List (Fin 32)) (p : Bool) (mk : Option W32)
    (w : Nat) (g res : Nat → Nat × Flags) (hi : exec i s = s.laneOp f lat d srcs p mk w g) (h : s.awake f (d :: srcs))
    (hr : ∀ j < laneCount w, (g j).1 % 2 ^ w = (res j).1 % 2 ^ w ∧ (g j).2 = (res j).2) : LaneResult i s f lat d p mk w res := by
  refine ⟨ofLanes w (((List.range (laneCount w)).map fun j => if enabled mk w j then g j else (0, 0#6)).map Prod.fst), ?_, ?_⟩
  · rw [hi, State.laneOp, attempt_awake _ _ _ h]
    dsimp only
    congr 2
    rw [List.foldl_map]
    have e : ∀ (l : List Nat) (a : Flags), (∀ j ∈ l, j < laneCount w) →
        l.foldl (fun a j => a ||| (if enabled mk w j then g j else (0, 0#6)).2) a
          = l.foldl (fun a j => a ||| (if enabled mk w j then (res j).2 else 0#6)) a := by
      intro l
      induction l with
      | nil => intros; rfl
      | cons x r ih =>
        intro a hl
        have hx := (hr x (hl x (by simp))).2
        simp only [List.foldl_cons]
        rw [ih _ fun j hj => hl j (by simp [hj])]
        congr 1
        split <;> simp [hx]
    rw [e _ _ (by simp), foldl_filter_or (enabled mk w) fun j => (res j).2]
    rfl
  · intro j hj he
    rw [lane_ofLanes w _ (by simpa using mul_laneCount_le w) j (by simpa using hj)]
    simp [he, (hr j hj).1]

theorem sumList_bits (c : Nat → Bool) (n k : Nat) :
    bit (sumList ((List.range n).map fun i => if c i then 2 ^ i else 0)) k = (decide (k < n) && c k) := by
  have step : ∀ n, sumList ((List.range (n + 1)).map fun i => if c i then 2 ^ i else 0)
      = sumList ((List.range n).map fun i => if c i then 2 ^ i else 0) + if c n then 2 ^ n else 0 := by
    intro n
    have app : ∀ a b : List Nat, sumList (a ++ b) = sumList a + sumList b := by
      intro a b
      induction a with
      | nil => simp [sumList]
      | cons x r ih => simp only [sumList, List.cons_append, List.foldr_cons] at *; omega
    rw [List.range_succ, List.map_append, app]
    simp [sumList]
  have lt : ∀ n, sumList ((List.range n).map fun i => if c i then 2 ^ i else 0) < 2 ^ n := by
    intro n
    induction n with
    | zero => simp [sumList]
    | succ n ih => rw [step, Nat.pow_succ]; split <;> omega
  have bt : ∀ x : Nat, bit x k = x.testBit k := by
    intro x
    rw [Nat.testBit_eq_decide_div_mod_eq]
    rfl
  rw [bt]
  induction n with
  | zero => simp [sumList]
  | succ n ih =>
    rw [step]
    by_cases hc : c n
    · simp only [hc, if_true]
      rw [Nat.add_comm]
      rcases Nat.lt_trichotomy k n with h | h | h
      · rw [Nat.testBit_two_pow_add_gt h, ih]
        simp [h, Nat.lt_succ_of_lt h]
      · subst h
        rw [Nat.testBit_two_pow_add_eq, Nat.testBit_lt_two_pow (lt k)]
        simp [hc]
      · have : 2 ^ n + sumList ((List.range n).map fun i => if c i then 2 ^ i else 0) < 2 ^ k :=
          Nat.lt_of_lt_of_le (by have := lt n; rw [Nat.pow_succ]; omega) (Nat.pow_le_pow_right (by decide) h)
        rw [Nat.testBit_lt_two_pow this]
        simp [show ¬ k < n + 1 by omega]
    · simp only [hc, Bool.false_eq_true, if_false, Nat.add_zero]
      rw [ih]
      by_cases h : k < n
      · simp [h, Nat.lt_succ_of_lt h]
      · by_cases h2 : k = n
        · subst h2; simp [hc]
        · simp [h, show ¬ k < n + 1 by omega]

/-- A sum of powers of two as a mask register. -/
theorem sumList_mask (c : Nat → Bool) (k : Nat) (hk : k < 32) :
    (BitVec.ofNat 32 (sumList ((List.range 32).map fun i => if c i then 2 ^ i else 0))).getLsbD k = c k := by
  have bt : ∀ x : Nat, x.testBit k = bit x k := by intro x; rw [Nat.testBit_eq_decide_div_mod_eq]; rfl
  rw [BitVec.getLsbD_ofNat, bt, sumList_bits]
  simp [hk]

theorem sumList_mask_wide (c : Nat → Bool) :
    BitVec.ofNat 1024 (sumList ((List.range 32).map fun i => if c i then 2 ^ i else 0))
      = (BitVec.ofNat 32 (sumList ((List.range 32).map fun i => if c i then 2 ^ i else 0))).setWidth 1024 := by
  apply BitVec.eq_of_getLsbD_eq
  intro k _
  have bt : ∀ x : Nat, x.testBit k = bit x k := by intro x; rw [Nat.testBit_eq_decide_div_mod_eq]; rfl
  rw [BitVec.getLsbD_setWidth, BitVec.getLsbD_ofNat, BitVec.getLsbD_ofNat, bt, sumList_bits]
  by_cases h : k < 32 <;> simp [h]

/-- What a compare leaves: one mask result with the AND of the condition over each mask bit's lanes. -/
theorem vCmp_result (i : Instr) (s : State) (f : VFile) (lat : Nat) (d : Fin 8) (srcs : List (Fin 32)) (p : Bool) (w : Nat)
    (g : Nat → Bool × Flags) (cond : Nat → Bool) (fl : Nat → Flags) (hi : exec i s = s.vCmp f lat d srcs p w g) (h : s.awake f srcs)
    (hr : ∀ j < laneCount w, g j = (cond j, fl j)) : CompareResult i s f lat d p w cond fl := by
  have hf : ∀ (l : List Nat) (a : Flags), (∀ j ∈ l, j < laneCount w) →
      l.foldl (fun a j => a ||| (g j).2) a = l.foldl (fun a j => a ||| fl j) a := by
    intro l
    induction l with
    | nil => intros; rfl
    | cons x r ih =>
      intro a hl
      simp only [List.foldl_cons]
      rw [ih _ fun j hj => hl j (by simp [hj]), hr x (hl x (by simp))]
  refine ⟨BitVec.ofNat 32 (sumList ((List.range 32).map fun i =>
    if (List.range (laneCount w)).all fun j => w * j / 32 != i || (((List.range (laneCount w)).map g).getD j (false, 0#6)).1
    then 2 ^ i else 0)), ?_, fun k hk => ?_⟩
  · rw [hi, State.vCmp, attempt_awake _ _ _ h]
    dsimp only
    rw [sumList_mask_wide, List.foldl_map, hf _ _ (by simp)]
  · rw [sumList_mask _ _ hk, Bool.eq_iff_iff, List.all_eq_true, decide_eq_true_iff]
    constructor
    · intro hall j hj hjk
      have := hall j (by simpa using hj)
      simpa [hjk, List.getD_eq_getElem?_getD, hj, hr j hj] using this
    · intro hall j hj
      have hj' : j < laneCount w := by simpa using hj
      by_cases hjk : w * j / 32 = k
      · simp [List.getD_eq_getElem?_getD, hj', hr j hj', hall j hj' hjk]
      · simp [hjk]

/-- The lanes of an immediate copied to every lane. -/
theorem lane_splatImm (w : Nat) (i : BitVec 16) (sgn : Bool) (j : Nat) (hj : j < laneCount w) :
    lane w (splatImm w i sgn) j = (immExt w i sgn).toNat := by
  have e : ∀ (n x : Nat), x < 2 ^ w → sumList ((List.range n).map fun k => x * 2 ^ (w * k)) = joinLanes w (List.replicate n x) := by
    intro n
    have shift : ∀ (g : Nat → Nat) (l : List Nat), sumList (l.map fun k => 2 ^ w * g k) = 2 ^ w * sumList (l.map g) := by
      intro g l
      induction l with
      | nil => simp [sumList]
      | cons x r ih => simp only [sumList, List.map_cons, List.foldr_cons, Nat.mul_add] at *; omega
    induction n with
    | zero => intros; simp [sumList, joinLanes]
    | succ n ih =>
      intro x hx
      have : (fun k => x * 2 ^ (w * k)) ∘ Nat.succ = fun k => 2 ^ w * (x * 2 ^ (w * k)) := by
        funext k
        simp only [Function.comp, Nat.succ_eq_add_one, Nat.mul_add, Nat.mul_one, Nat.pow_add]
        ring
      rw [List.range_succ_eq_map, List.map_cons, List.map_map, this]
      have h2 := shift (fun k => x * 2 ^ (w * k)) (List.range n)
      simp only [sumList, List.foldr_cons, List.replicate_succ, joinLanes] at *
      rw [h2, ih x hx, Nat.mod_eq_of_lt hx]
      simp
  have hx : (immExt w i sgn).toNat < 2 ^ w := (immExt w i sgn).isLt
  have hs : splatImm w i sgn = ofLanes w (List.replicate (laneCount w) (immExt w i sgn).toNat) := by
    simp only [splatImm, ofLanes]
    rw [← e _ _ hx]
    rfl
  rw [hs, lane_ofLanes w _ (by simpa using mul_laneCount_le w) j (by simpa using hj)]
  simp

theorem ityWidth_pos (ty : ITy) : 0 < ityWidth ty := by cases ty <;> decide

/-- Lane j of operand b, of a register or of an immediate. -/
theorem lane_vopd (s : State) (f : VFile) (o : VOpd) (w : Nat) (sgn : Bool) (j : Nat) (hj : j < laneCount w) :
    lane w (s.vopd f o w sgn) j = (s.laneB f o sgn w j).toNat := by
  cases o with
  | reg r => simp [State.vopd, State.laneB, lane_eq_laneOf]
  | imm i =>
    rw [State.vopd, lane_splatImm w i sgn j hj]
    cases sgn <;> rfl

theorem intVal_toNat {w : Nat} (hw : 0 < w) (sgn : Bool) (x : BitVec w) : intVal sgn w x.toNat = laneInt sgn x := by
  cases sgn
  · simp [intVal, laneInt]
  · have h2 : 2 ^ w = 2 * 2 ^ (w - 1) := by
      conv => lhs; rw [show w = w - 1 + 1 by omega, Nat.pow_succ]
      omega
    have hx := x.isLt
    simp only [intVal, laneInt, signed, if_true, Nat.mod_eq_of_lt hx, BitVec.toInt_eq_toNat_cond]
    by_cases h : 2 * x.toNat < 2 ^ w
    · simp [h, show ¬ 2 ^ (w - 1) ≤ x.toNat by omega]
      exact_mod_cast Nat.mod_eq_of_lt hx
    · simp [h, show 2 ^ (w - 1) ≤ x.toNat by omega]
      exact_mod_cast Nat.mod_eq_of_lt hx

theorem wrapNat_eq {w : Nat} (x : Int) : wrapNat w x = (BitVec.ofInt w x).toNat := by
  simp [wrapNat, BitVec.toNat_ofInt]

end Sys2Proof.Machine
end

