-- ==== Sys2Proof/Laws/Matrix.lean ====
section
/-! SUPPORT. What the issue checks of the matrix slot come to. -/

namespace Sys2Proof.Machine

/-- The checks of an operation's accesses all pass where `State.pathOk` holds. -/
theorem chkPath_ok (s : State) (o : PathOp) (limit : Nat) (h : s.pathOk o limit) : ∀ c ∈ s.chkPath o limit, c.bad = false := by
  obtain ⟨h1, h2, h3, h4⟩ := h
  have hout : ((List.range o.cnt).map o.access).find? (fun a => decide (limit < a.1 + a.2)) = none := by
    rw [List.find?_eq_none]
    intro a ha
    obtain ⟨m, hm, rfl⟩ := List.mem_map.1 ha
    simpa using h1 m (List.mem_range.1 hm)
  intro c hc
  simp only [State.chkPath, hout, List.mem_cons, List.not_mem_nil, or_false] at hc
  rcases hc with rfl | rfl | rfl | rfl
  · have e : (s.tile.portUses.filter fun u =>
        ((List.range o.cnt).map fun m => (o.first + m, o.bank.val)).any fun x => x.1 == u.cycle && x.2 == u.bank) = [] := by
      rw [List.filter_eq_nil_iff]
      intro u hu
      rw [List.any_eq_true]
      rintro ⟨x, hx, hb⟩
      obtain ⟨m, hm, rfl⟩ := List.mem_map.1 hx
      simp only [Bool.and_eq_true, beq_iff_eq] at hb
      revert hb
      rw [imp_false, not_and]
      exact fun hcyc hb => h4 u hu m (List.mem_range.1 hm) hcyc.symm hb.symm
    simp only [State.chkPort, e]
    rfl
  · exact h3
  · exact h2
  · rfl

/-- The alignment check passes where the offset is aligned. -/
theorem chkPathAlign_ok (o : PathOp) (block : Bool) (h : o.aligned block) : (chkPathAlign o block).bad = false := by
  obtain ⟨h1, h2⟩ := h
  cases block
  · simp [chkPathAlign, chkAlign, h1]
  · obtain ⟨a, b⟩ := h2 rfl
    simp [chkPathAlign, chkAlign, h1, a, b]

/-- An operation whose checks are those of a list and of its accesses has its effect where they pass. -/
theorem attempt_path (s : State) (o : PathOp) (limit : Nat) (l : List Chk) (go : State → State) (hl : ∀ c ∈ l, c.bad = false)
    (h : s.pathOk o limit) : s.attempt (l ++ s.chkPath o limit) go = .next (go s) := by
  apply State.attempt_ok
  intro c hc
  rcases List.mem_append.1 hc with h1 | h1
  · exact hl c h1
  · exact chkPath_ok s o limit h c h1

end Sys2Proof.Machine
end

