-- ==== Sys2Proof/Laws/Memory.lean ====
section
/-! SUPPORT. The device's one list of bytes: every memory operation keeps its canonical form, and a write is read back. -/

namespace Sys2Proof.Machine

/-- The form in words: no zero byte and addresses strictly rising. -/
theorem memWf_iff (m : List Host.Cell) : memWf m = true ↔ (∀ c ∈ m, c.2 ≠ 0#8) ∧ (m.map Prod.fst).Pairwise (· < ·) := by
  induction m with
  | nil => simp [memWf]
  | cons c r ih =>
    obtain ⟨a, b⟩ := c
    cases r with
    | nil => simp [memWf]
    | cons c2 r2 =>
      obtain ⟨c, e⟩ := c2
      simp only [memWf, Bool.and_eq_true, ih, bne_iff_ne, ne_eq, decide_eq_true_eq]
      constructor
      · rintro ⟨⟨hb, hac⟩, hz, hp⟩
        refine ⟨fun c hc => ?_, ?_⟩
        · rcases List.mem_cons.1 hc with rfl | hc
          · exact hb
          · exact hz c hc
        simp only [List.map_cons, List.pairwise_cons] at hp ⊢
        refine ⟨?_, hp⟩
        intro x hx
        rcases List.mem_cons.1 hx with rfl | hx
        · exact hac
        · exact lt_trans hac (hp.1 x hx)
      · rintro ⟨hz, hp⟩
        simp only [List.map_cons, List.pairwise_cons] at hp
        refine ⟨⟨by simpa using hz (a, b) (by simp), hp.1 c (by simp)⟩, fun x hx => hz x (List.mem_cons_of_mem _ hx), ?_⟩
        simpa using hp.2

theorem memWf_tail {c : Host.Cell} {m : List Host.Cell} (h : memWf (c :: m) = true) : memWf m = true := by
  rw [memWf_iff] at h ⊢
  exact ⟨fun x hx => h.1 x (List.mem_cons_of_mem _ hx), (List.pairwise_cons.1 h.2).2⟩

theorem memWf_head_lt {a : Nat} {b : Byte} {m : List Host.Cell} (h : memWf ((a, b) :: m) = true) : ∀ c ∈ m, a < c.1 := by
  rw [memWf_iff] at h
  exact fun c hc => (List.pairwise_cons.1 h.2).1 c.1 (List.mem_map_of_mem hc)

theorem memWf_cons {a : Nat} {b : Byte} {m : List Host.Cell} (hb : b ≠ 0#8) (hl : ∀ c ∈ m, a < c.1) (h : memWf m = true) :
    memWf ((a, b) :: m) = true := by
  rw [memWf_iff] at h ⊢
  refine ⟨fun c hc => ?_, ?_⟩
  · rcases List.mem_cons.1 hc with rfl | hc
    · exact hb
    · exact h.1 c hc
  simp only [List.map_cons, List.pairwise_cons]
  exact ⟨fun x hx => by obtain ⟨c, hc, rfl⟩ := List.mem_map.1 hx; exact hl c hc, h.2⟩

theorem memWrite_mem {m : List Host.Cell} {k : Nat} {v : Byte} {c : Host.Cell} (h : c ∈ memWrite m k v) : c ∈ m ∨ c = (k, v) := by
  induction m with
  | nil => simp only [memWrite] at h; split at h <;> simp_all
  | cons x r ih =>
    obtain ⟨a, b⟩ := x
    simp only [memWrite] at h
    split at h
    · rcases List.mem_cons.1 h with h | h
      · exact .inl (by simp [h])
      · rcases ih h with h | h
        · exact .inl (List.mem_cons_of_mem _ h)
        · exact .inr h
    · split at h <;> split at h <;> simp_all <;> tauto

/-- A write keeps the canonical form. -/
theorem memWrite_wf {m : List Host.Cell} (h : memWf m = true) (k : Nat) (v : Byte) : memWf (memWrite m k v) = true := by
  induction m with
  | nil => simp only [memWrite]; split <;> simp_all [memWf]
  | cons x r ih =>
    obtain ⟨a, b⟩ := x
    have hl := memWf_head_lt h
    have ht := memWf_tail h
    have hb : b ≠ 0#8 := ((memWf_iff _).1 h).1 (a, b) (by simp)
    simp only [memWrite]
    split
    · rename_i hak
      refine memWf_cons hb (fun c hc => ?_) (ih ht)
      rcases memWrite_mem hc with hc | rfl
      · exact hl c hc
      · exact hak
    · rename_i hak
      have htail : memWf (if a = k then r else (a, b) :: r) = true := by split <;> assumption
      split
      · exact htail
      · rename_i hv
        refine memWf_cons hv (fun c hc => ?_) htail
        split at hc
        · subst_vars; exact hl c hc
        · rcases List.mem_cons.1 hc with rfl | hc
          · simp only; omega
          · have := hl c hc; omega

/-- What a byte reads after a write of one byte. -/
theorem memRead_of_lt {m : List Host.Cell} {k : Nat} (h : ∀ c ∈ m, k < c.1) : memRead m k = 0#8 := by
  cases m with
  | nil => rfl
  | cons x r =>
    obtain ⟨a, b⟩ := x
    have : k < a := h (a, b) (by simp)
    simp [memRead, this, Nat.ne_of_lt this]

theorem memRead_memWrite {m : List Host.Cell} (h : memWf m = true) (k j : Nat) (v : Byte) :
    memRead (memWrite m k v) j = if j = k then v else memRead m j := by
  induction m with
  | nil =>
    simp only [memWrite]
    split <;> split <;> simp_all [memRead]
  | cons x r ih =>
    obtain ⟨a, b⟩ := x
    have hl := memWf_head_lt h
    have ht := memWf_tail h
    simp only [memWrite]
    split
    · rename_i hak
      simp only [memRead]
      split
      · subst_vars; simp [Nat.ne_of_lt hak]
      · split
        · rename_i h1 h2
          have : j ≠ k := by omega
          simp [this]
        · exact ih ht
    · rename_i hak
      split
      · rename_i hv
        split
        · subst_vars
          split
          · subst_vars; exact memRead_of_lt hl
          · rename_i hjk
            simp only [memRead, hjk, if_false]
            split
            · rename_i hlt; exact memRead_of_lt fun c hc => lt_trans hlt (hl c hc)
            · rfl
        · rename_i hne
          split
          · subst_vars
            have hja : j < a := by omega
            simp [memRead, hja, Nat.ne_of_lt hja]
          · rfl
      · split
        · subst_vars
          simp only [memRead]
          split
          · rfl
          · split
            · rename_i hlt; exact (memRead_of_lt fun c hc => lt_trans hlt (hl c hc)).symm ▸ rfl
            · rfl
        · rename_i hne
          simp only [memRead]
          split
          · rfl
          · split
            · rename_i h1 h2
              have h3 : j < a := by omega
              simp [h3, Nat.ne_of_lt h3]
            · rfl

theorem memWriteList_wf {m : List Host.Cell} (h : memWf m = true) (k : Nat) (bs : List Byte) : memWf (memWriteList m k bs) = true := by
  induction bs generalizing m k with
  | nil => exact h
  | cons b r ih => exact ih (memWrite_wf h k b) (k + 1)

theorem memFilter_wf {m : List Host.Cell} (h : memWf m = true) (p : Host.Cell → Bool) : memWf (m.filter p) = true := by
  rw [memWf_iff] at h ⊢
  exact ⟨fun c hc => h.1 c (List.mem_of_mem_filter hc), h.2.sublist (List.filter_sublist.map _)⟩

theorem memClear_wf {m : List Host.Cell} (h : memWf m = true) (lo n : Nat) : memWf (memClear m lo n) = true := memFilter_wf h _

theorem memFold_wf {α : Type} (f : α → Nat) (g : α → Byte) (l : List α) {m : List Host.Cell} (h : memWf m = true) :
    memWf (l.foldl (fun acc c => memWrite acc (f c) (g c)) m) = true := by
  induction l generalizing m with
  | nil => exact h
  | cons c r ih => exact ih (memWrite_wf h _ _)

theorem memCopy_wf {m : List Host.Cell} (h : memWf m = true) (src dst n : Nat) : memWf (memCopy m src dst n) = true :=
  memFold_wf _ _ _ (memClear_wf h dst n)

end Sys2Proof.Machine
end

