-- ==== Sys2Proof/Laws/PerInstr.lean ====
section
/-! SUPPORT. One lemma per constructor: an instruction with an encoding decodes to itself. -/

namespace Sys2Proof

set_option Elab.async false
set_option linter.unusedSimpArgs false

namespace Laws.RoundTrip

/-- An instruction with an encoding decodes to itself. -/
def Statement (i : Instr) : Prop := ∀ ws, i.wellFormed = true → encode i = some ws → decodeWords i.privileged ws = some i

theorem of_none {i : Instr} (h : encode i = none) : Statement i := fun ws _ e => by rw [h] at e; cases e

/-- One slot word: what remains is that its slot's decoder reads the instruction. -/
theorem of_slot {i : Instr} {e : SlotWord} (s : Fin 8) (he : encodeSlot i = some e) (hi : encode i = (encodeSlot i).map oneWords)
    (hs : e.slot = s.val) (hx : i.privileged = true → s = 1)
    (hd : i.wellFormed = true → decodeSlot i.privileged e.ext 8 s (pack [(6, e.opc), (1, 0), (3, 0), (22, e.bits)])
      = some ⟨s, false, 0, .ins i⟩) : Statement i := by
  intro ws hw hws
  rw [hi, he] at hws
  obtain rfl : oneWords e = ws := by simpa using hws
  simp only [decodeWords, oneWords]
  rw [decodeBundle_one i.privileged e s hs (fun h => Or.inr (Or.inl (hx h))), hd hw]
  rfl

theorem of_k {i : Instr} {opc bits : Nat} {ext : Option (BitVec 16)} (he : encodeSlot i = some ⟨0, opc, bits, ext⟩) (hi : encode i = (encodeSlot i).map oneWords)
    (ho : opc < 64) (hb : bits < 2 ^ 22) (hd : i.wellFormed = true → decodeK ext 8 opc bits = some i) : Statement i := by
  have hp : i.privileged = false := by simp [Instr.privileged, he]
  refine of_slot 0 he hi rfl (by simp [hp]) fun hw => ?_
  simp [hp, decodeSlot, unpack_slotWord _ _ ho hb, hd hw, flag]

theorem of_s {i : Instr} {opc bits : Nat} {ext : Option (BitVec 16)} (he : encodeSlot i = some ⟨1, opc, bits, ext⟩) (hi : encode i = (encodeSlot i).map oneWords)
    (ho : opc < 0x30) (hb : bits < 2 ^ 22) (hd : i.wellFormed = true → decodeS ext opc bits = some i) : Statement i := by
  have hp : i.privileged = false := by simp [Instr.privileged, he]; omega
  refine of_slot 1 he hi rfl (by simp [hp]) fun hw => ?_
  have h : ¬ 48 ≤ opc := by omega
  simp [hp, decodeSlot, unpack_slotWord _ _ (by omega : opc < 64) hb, hd hw, flag, h]

theorem of_priv {i : Instr} {opc bits : Nat} {ext : Option (BitVec 16)} (he : encodeSlot i = some ⟨1, opc, bits, ext⟩) (hi : encode i = (encodeSlot i).map oneWords)
    (ho : 0x30 ≤ opc ∧ opc ≤ 0x3D) (hb : bits < 2 ^ 22) (ha : svcAllowed i = true)
    (hd : i.wellFormed = true → decodePriv opc bits = some (.ins i)) : Statement i := by
  have hp : i.privileged = true := by simp [Instr.privileged, he, ho.1]
  refine of_slot 1 he hi rfl (fun _ => rfl) fun hw => ?_
  simp [hp, decodeSlot, unpack_slotWord _ _ (by omega : opc < 64) hb, hd hw, flag, ho.1, ho.2, ha]

theorem of_v {i : Instr} {opc bits : Nat} {ext : Option (BitVec 16)} (v : VFile) (he : encodeSlot i = some ⟨v.slot, opc, bits, ext⟩) (hi : encode i = (encodeSlot i).map oneWords) (ho : opc < 64) (hb : bits < 2 ^ 22)
    (hd : i.wellFormed = true → decodeV v ext opc bits = some i) : Statement i := by
  have hp : i.privileged = false := by cases v <;> simp [Instr.privileged, he, VFile.slot]
  cases v
  · refine of_slot 2 he hi rfl (by simp [hp]) fun hw => ?_
    simp [hp, decodeSlot, unpack_slotWord _ _ ho hb, hd hw, flag]
  · refine of_slot 3 he hi rfl (by simp [hp]) fun hw => ?_
    simp [hp, decodeSlot, unpack_slotWord _ _ ho hb, hd hw, flag]

theorem of_m {i : Instr} {opc bits : Nat} {ext : Option (BitVec 16)} (he : encodeSlot i = some ⟨4, opc, bits, ext⟩) (hi : encode i = (encodeSlot i).map oneWords)
    (ho : opc < 64) (hb : bits < 2 ^ 22) (hd : i.wellFormed = true → decodeM ext opc bits = some i) : Statement i := by
  have hp : i.privileged = false := by simp [Instr.privileged, he]
  refine of_slot 4 he hi rfl (by simp [hp]) fun hw => ?_
  simp [hp, decodeSlot, unpack_slotWord _ _ ho hb, hd hw, flag]

theorem of_l {i : Instr} {opc bits : Nat} {ext : Option (BitVec 16)} (he : encodeSlot i = some ⟨5, opc, bits, ext⟩) (hi : encode i = (encodeSlot i).map oneWords)
    (ho : opc < 64) (hb : bits < 2 ^ 22) (hd : i.wellFormed = true → decodeL ext opc bits = some i) : Statement i := by
  have hp : i.privileged = false := by simp [Instr.privileged, he]
  refine of_slot 5 he hi rfl (by simp [hp]) fun hw => ?_
  simp [hp, decodeSlot, unpack_slotWord _ _ ho hb, hd hw, flag]

theorem of_d {i : Instr} {opc bits : Nat} {ext : Option (BitVec 16)} (he : encodeSlot i = some ⟨6, opc, bits, ext⟩) (hi : encode i = (encodeSlot i).map oneWords)
    (ho : opc < 64) (hb : bits < 2 ^ 22) (hd : i.wellFormed = true → decodeD opc bits = some i) : Statement i := by
  have hp : i.privileged = false := by simp [Instr.privileged, he]
  refine of_slot 6 he hi rfl (by simp [hp]) fun hw => ?_
  simp [hp, decodeSlot, unpack_slotWord _ _ ho hb, hd hw, flag]

theorem of_x {i : Instr} {opc bits : Nat} {ext : Option (BitVec 16)} (he : encodeSlot i = some ⟨7, opc, bits, ext⟩) (hi : encode i = (encodeSlot i).map oneWords)
    (ho : opc < 64) (hb : bits < 2 ^ 22) (hd : i.wellFormed = true → decodeX ext opc bits = some i) : Statement i := by
  have hp : i.privileged = false := by simp [Instr.privileged, he]
  refine of_slot 7 he hi rfl (by simp [hp]) fun hw => ?_
  simp [hp, decodeSlot, unpack_slotWord _ _ ho hb, hd hw, flag]


theorem idleBundle (n : BitVec 16) : Statement (.idleBundle n) := by
  intro ws _ h
  obtain rfl : [pack [(16, n.toNat), (3, 0), (1, 1), (1, 0), (3, 0), (8, 0)]] = ws := by simpa [encode] using h
  have e : pack [(16, n.toNat), (3, 0), (1, 1), (1, 0), (3, 0), (8, 0)] = n.toNat * 65536 + 4096 := by
    simp [pack, widthSum]
  have h1 : (n.toNat * 65536 + 4096) ≠ 0 := by omega
  have h2 : (n.toNat * 65536 + 4096) % 256 = 0 := by omega
  have h3 : (n.toNat * 65536 + 4096) / 2 ^ 8 % 8 = 0 := by omega
  have h4 : (n.toNat * 65536 + 4096) / 2 ^ 11 % 2 = 0 := by omega
  have h5 : (n.toNat * 65536 + 4096) / 2 ^ 12 % 2 = 1 := by omega
  have h6 : (n.toNat * 65536 + 4096) / 2 ^ 13 % 8 = 0 := by omega
  have h7 : (n.toNat * 65536 + 4096) / 2 ^ 16 % 2 ^ 16 = n.toNat := by omega
  have h8 : presentSlots 0 = [] := rfl
  simp only [decodeWords, e, decodeBundle, h1, h2, h3, h4, h5, h6, h7, h8]
  simp
theorem barrierOnlyBundle (g : BitVec 3) : Statement (.barrierOnlyBundle g) := by
  intro ws hw h
  have hg : g ≠ 0#3 := by
    have hv : (g != 0#3) = true := hw
    simpa using hv
  obtain rfl : [pack [(16, 0), (3, 0), (1, 0), (1, 0), (3, g.toNat), (8, 0)]] = ws := by simpa [encode, hg] using h
  have hl : g.toNat < 8 := g.isLt
  have h0 : g.toNat ≠ 0 := fun e => hg (BitVec.eq_of_toNat_eq (by simpa using e))
  have e : pack [(16, 0), (3, 0), (1, 0), (1, 0), (3, g.toNat), (8, 0)] = g.toNat * 256 := by
    simp [pack, widthSum]; omega
  have h1 : g.toNat * 256 ≠ 0 := by omega
  have h2 : g.toNat * 256 % 256 = 0 := by omega
  have h3 : g.toNat * 256 / 2 ^ 8 % 8 = g.toNat := by omega
  have h4 : g.toNat * 256 / 2 ^ 11 % 2 = 0 := by omega
  have h5 : g.toNat * 256 / 2 ^ 12 % 2 = 0 := by omega
  have h6 : g.toNat * 256 / 2 ^ 13 % 8 = 0 := by omega
  have h7 : g.toNat * 256 / 2 ^ 16 % 2 ^ 16 = 0 := by omega
  have h8 : presentSlots 0 = [] := rfl
  have hp : Instr.privileged (.barrierOnlyBundle g) = false := rfl
  simp only [decodeWords, e, decodeBundle, h1, h2, h3, h4, h5, h6, h7, h8, hp]
  simp
theorem br (off : BitVec 22) : Statement (.br off) := by
  refine of_k rfl rfl (by simp) off.isLt fun hw => ?_
  simp [decodeK, unpack_pack_of]
theorem jr (a : Fin 16) (off : Option (BitVec 16)) : Statement (.jr a off) := by
  refine of_k rfl rfl (by simp) (packA_lt _ _ _ _ _) fun hw => ?_
  simp [decodeK, unpack_pack_of]
theorem call (off : BitVec 22) : Statement (.call off) := by
  refine of_k rfl rfl (by simp) off.isLt fun hw => ?_
  simp [decodeK, unpack_pack_of]
theorem ret : Statement (.ret) := by
  refine of_k rfl rfl (by simp) (by decide) fun hw => ?_
  simp [decodeK, unpack_pack_of]
theorem loop (a : Fin 16) (off : BitVec 12) : Statement (.loop a off) := by
  refine of_k rfl rfl (by simp) (packB_lt _ _ _) fun hw => ?_
  have hv : (decide (2 ≤ off.toNat) && decide (off.toNat < 2 ^ 11)) = true := hw
  simp at hv
  simp [decodeK, hv]; omega
theorem loopi (count : BitVec 17) (off : BitVec 16) : Statement (.loopi count off) := by
  refine of_k rfl rfl (by simp) (packC_lt _ _) fun hw => ?_
  have hv : (decide (2 ≤ off.toNat)) = true := hw
  simp at hv
  simp [decodeK]; omega
theorem lbrk : Statement (.lbrk) := by
  refine of_k rfl rfl (by simp) (by decide) fun hw => ?_
  simp [decodeK, unpack_pack_of]
theorem lnext : Statement (.lnext) := by
  refine of_k rfl rfl (by simp) (by decide) fun hw => ?_
  simp [decodeK, unpack_pack_of]
theorem swapb (off : BitVec 22) : Statement (.swapb off) := by
  refine of_k rfl rfl (by simp) off.isLt fun hw => ?_
  simp [decodeK, unpack_pack_of]
theorem ifence : Statement (.ifence) := by
  refine of_k rfl rfl (by simp) (by decide) fun hw => ?_
  simp [decodeK, unpack_pack_of]
theorem stitch (live : BitVec 21) (banks : BitVec 16) : Statement (.stitch live banks) := by
  refine of_k rfl rfl (by simp) (pack_lt _) fun hw => ?_
  simp [decodeK, unpack_pack_of]
theorem chkp (c : PoisonClass) (r : Fin 32) (off : BitVec 12) : Statement (.chkp c r off) := by
  refine of_k rfl rfl (by simp) (packB_lt _ _ _) fun hw => ?_
  have hv : (decide (r.val < c.size)) = true := hw
  try simp at hv
  simp [decodeK, unpack_pack_of, hv]
theorem tkw (k : Fin 32) : Statement (.tkw k) := by
  refine of_k rfl rfl (by simp) (pack_lt _) fun hw => ?_
  simp [decodeK, unpack_pack_of]
theorem tkpPend (p : Fin 8) (k : Fin 32) : Statement (.tkpPend p k) := by
  refine of_k rfl rfl (by simp) (pack_lt _) fun hw => ?_
  simp [decodeK, unpack_pack_of]
theorem tkpDone (p : Fin 8) (k : Fin 32) : Statement (.tkpDone p k) := by
  refine of_k rfl rfl (by simp) (pack_lt _) fun hw => ?_
  simp [decodeK, unpack_pack_of]
theorem tkpPart (p : Fin 8) (k : Fin 32) : Statement (.tkpPart p k) := by
  refine of_k rfl rfl (by simp) (pack_lt _) fun hw => ?_
  simp [decodeK, unpack_pack_of]
theorem tkpFail (p : Fin 8) (k : Fin 32) : Statement (.tkpFail p k) := by
  refine of_k rfl rfl (by simp) (pack_lt _) fun hw => ?_
  simp [decodeK, unpack_pack_of]
theorem tkpFree (p : Fin 8) (k : Fin 32) : Statement (.tkpFree p k) := by
  refine of_k rfl rfl (by simp) (pack_lt _) fun hw => ?_
  simp [decodeK, unpack_pack_of]
theorem tkpRes (p : Fin 8) (k : Fin 32) : Statement (.tkpRes p k) := by
  refine of_k rfl rfl (by simp) (pack_lt _) fun hw => ?_
  simp [decodeK, unpack_pack_of]
theorem vclust (vb va : BitVec 4) : Statement (.vclust vb va) := by
  refine of_k rfl rfl (by simp) (pack_lt _) fun hw => ?_
  simp [decodeK, unpack_pack_of]
theorem halt : Statement (.halt) := by
  refine of_k rfl rfl (by simp) (by decide) fun hw => ?_
  simp [decodeK, unpack_pack_of]
theorem trap (code : BitVec 17) : Statement (.trap code) := by
  refine of_k rfl rfl (by simp) (packC_lt _ _) fun hw => ?_
  simp [decodeK, unpack_pack_of]
theorem brk (code : BitVec 17) : Statement (.brk code) := by
  refine of_k rfl rfl (by simp) (packC_lt _ _) fun hw => ?_
  simp [decodeK, unpack_pack_of]
theorem kadd (d a : Fin 16) (o : KOpd) : Statement (.kadd d a o) := by
  refine of_k rfl rfl (by simp) (packA_lt _ _ _ _ _) fun hw => ?_
  simp [decodeK, unpack_pack_of]
theorem kli (d : Fin 16) (i : BitVec 17) : Statement (.kli d i) := by
  refine of_k rfl rfl (by simp) (packC_lt _ _) fun hw => ?_
  simp [decodeK, unpack_pack_of]
theorem kmov (d : Fin 16) (a : Fin 32) : Statement (.kmov d a) := by
  refine of_k rfl rfl (by simp) (packA_lt _ _ _ _ _) fun hw => ?_
  simp [decodeK, unpack_pack_of]
theorem kmovHi (d : Fin 16) (a : Fin 32) : Statement (.kmovHi d a) := by
  refine of_k rfl rfl (by simp) (packA_lt _ _ _ _ _) fun hw => ?_
  simp [decodeK, unpack_pack_of]
theorem psetAnd (d a b : Fin 8) : Statement (.psetAnd d a b) := by
  refine of_k rfl rfl (by simp) (packA_lt _ _ _ _ _) fun hw => ?_
  simp [decodeK, unpack_pack_of]
theorem psetOr (d a b : Fin 8) : Statement (.psetOr d a b) := by
  refine of_k rfl rfl (by simp) (packA_lt _ _ _ _ _) fun hw => ?_
  simp [decodeK, unpack_pack_of]
theorem psetXor (d a b : Fin 8) : Statement (.psetXor d a b) := by
  refine of_k rfl rfl (by simp) (packA_lt _ _ _ _ _) fun hw => ?_
  simp [decodeK, unpack_pack_of]
theorem psetAndn (d a b : Fin 8) : Statement (.psetAndn d a b) := by
  refine of_k rfl rfl (by simp) (packA_lt _ _ _ _ _) fun hw => ?_
  simp [decodeK, unpack_pack_of]
theorem psetOrn (d a b : Fin 8) : Statement (.psetOrn d a b) := by
  refine of_k rfl rfl (by simp) (packA_lt _ _ _ _ _) fun hw => ?_
  simp [decodeK, unpack_pack_of]
theorem psetEq (d : Fin 8) (a : Fin 16) (o : KOpd) : Statement (.psetEq d a o) := by
  refine of_k rfl rfl (by simp) (packA_lt _ _ _ _ _) fun hw => ?_
  simp [decodeK, unpack_pack_of]
theorem psetNe (d : Fin 8) (a : Fin 16) (o : KOpd) : Statement (.psetNe d a o) := by
  refine of_k rfl rfl (by simp) (packA_lt _ _ _ _ _) fun hw => ?_
  simp [decodeK, unpack_pack_of]
theorem psetLt (d : Fin 8) (a : Fin 16) (o : KOpd) : Statement (.psetLt d a o) := by
  refine of_k rfl rfl (by simp) (packA_lt _ _ _ _ _) fun hw => ?_
  simp [decodeK, unpack_pack_of]
theorem psetLtn (d : Fin 8) (a : Fin 16) (o : KOpd) : Statement (.psetLtn d a o) := by
  refine of_k rfl rfl (by simp) (packA_lt _ _ _ _ _) fun hw => ?_
  simp [decodeK, unpack_pack_of]
theorem psetNz (d : Fin 8) (a : Fin 16) : Statement (.psetNz d a) := by
  refine of_k rfl rfl (by simp) (packA_lt _ _ _ _ _) fun hw => ?_
  simp [decodeK, unpack_pack_of]
theorem rdsc (d : Fin 16) : Statement (.rdsc d) := by
  refine of_k rfl rfl (by simp) (packA_lt _ _ _ _ _) fun hw => ?_
  simp [decodeK, unpack_pack_of]
theorem rdscHi (d : Fin 16) : Statement (.rdscHi d) := by
  refine of_k rfl rfl (by simp) (packA_lt _ _ _ _ _) fun hw => ?_
  simp [decodeK, unpack_pack_of]
theorem rddcc (d : Fin 16) : Statement (.rddcc d) := by
  refine of_k rfl rfl (by simp) (packA_lt _ _ _ _ _) fun hw => ?_
  simp [decodeK, unpack_pack_of]
theorem rddccHi (d : Fin 16) : Statement (.rddccHi d) := by
  refine of_k rfl rfl (by simp) (packA_lt _ _ _ _ _) fun hw => ?_
  simp [decodeK, unpack_pack_of]
theorem add (d a : Fin 32) (o : SOpd) : Statement (.add d a o) := by
  refine of_s rfl rfl (by simp) (packA_lt _ _ _ _ _) fun hw => ?_
  simp [decodeS, sThree, sTwo, unpack_pack_of]
theorem sub (d a : Fin 32) (o : SOpd) : Statement (.sub d a o) := by
  refine of_s rfl rfl (by simp) (packA_lt _ _ _ _ _) fun hw => ?_
  simp [decodeS, sThree, sTwo, unpack_pack_of]
theorem mul (d a : Fin 32) (o : SOpd) : Statement (.mul d a o) := by
  refine of_s rfl rfl (by simp) (packA_lt _ _ _ _ _) fun hw => ?_
  simp [decodeS, sThree, sTwo, unpack_pack_of]
theorem mulh (d a : Fin 32) (o : SOpd) : Statement (.mulh d a o) := by
  refine of_s rfl rfl (by simp) (packA_lt _ _ _ _ _) fun hw => ?_
  simp [decodeS, sThree, sTwo, unpack_pack_of]
theorem mulhn (d a : Fin 32) (o : SOpd) : Statement (.mulhn d a o) := by
  refine of_s rfl rfl (by simp) (packA_lt _ _ _ _ _) fun hw => ?_
  simp [decodeS, sThree, sTwo, unpack_pack_of]
theorem div (d a : Fin 32) (o : SOpd) : Statement (.div d a o) := by
  refine of_s rfl rfl (by simp) (packA_lt _ _ _ _ _) fun hw => ?_
  simp [decodeS, sThree, sTwo, unpack_pack_of]
theorem divn (d a : Fin 32) (o : SOpd) : Statement (.divn d a o) := by
  refine of_s rfl rfl (by simp) (packA_lt _ _ _ _ _) fun hw => ?_
  simp [decodeS, sThree, sTwo, unpack_pack_of]
theorem rem (d a : Fin 32) (o : SOpd) : Statement (.rem d a o) := by
  refine of_s rfl rfl (by simp) (packA_lt _ _ _ _ _) fun hw => ?_
  simp [decodeS, sThree, sTwo, unpack_pack_of]
theorem remn (d a : Fin 32) (o : SOpd) : Statement (.remn d a o) := by
  refine of_s rfl rfl (by simp) (packA_lt _ _ _ _ _) fun hw => ?_
  simp [decodeS, sThree, sTwo, unpack_pack_of]
theorem and (d a : Fin 32) (o : SOpd) : Statement (.and d a o) := by
  refine of_s rfl rfl (by simp) (packA_lt _ _ _ _ _) fun hw => ?_
  simp [decodeS, sThree, sTwo, unpack_pack_of]
theorem or (d a : Fin 32) (o : SOpd) : Statement (.or d a o) := by
  refine of_s rfl rfl (by simp) (packA_lt _ _ _ _ _) fun hw => ?_
  simp [decodeS, sThree, sTwo, unpack_pack_of]
theorem xor (d a : Fin 32) (o : SOpd) : Statement (.xor d a o) := by
  refine of_s rfl rfl (by simp) (packA_lt _ _ _ _ _) fun hw => ?_
  simp [decodeS, sThree, sTwo, unpack_pack_of]
theorem andn (d a : Fin 32) (o : SOpd) : Statement (.andn d a o) := by
  refine of_s rfl rfl (by simp) (packA_lt _ _ _ _ _) fun hw => ?_
  simp [decodeS, sThree, sTwo, unpack_pack_of]
theorem shl (d a : Fin 32) (o : SOpd) : Statement (.shl d a o) := by
  refine of_s rfl rfl (by simp) (packA_lt _ _ _ _ _) fun hw => ?_
  simp [decodeS, sThree, sTwo, unpack_pack_of]
theorem shr (d a : Fin 32) (o : SOpd) : Statement (.shr d a o) := by
  refine of_s rfl rfl (by simp) (packA_lt _ _ _ _ _) fun hw => ?_
  simp [decodeS, sThree, sTwo, unpack_pack_of]
theorem sra (d a : Fin 32) (o : SOpd) : Statement (.sra d a o) := by
  refine of_s rfl rfl (by simp) (packA_lt _ _ _ _ _) fun hw => ?_
  simp [decodeS, sThree, sTwo, unpack_pack_of]
theorem rot (d a : Fin 32) (o : SOpd) : Statement (.rot d a o) := by
  refine of_s rfl rfl (by simp) (packA_lt _ _ _ _ _) fun hw => ?_
  simp [decodeS, sThree, sTwo, unpack_pack_of]
theorem clz (d a : Fin 32) : Statement (.clz d a) := by
  refine of_s rfl rfl (by simp) (packA_lt _ _ _ _ _) fun hw => ?_
  simp [decodeS, sThree, sTwo, unpack_pack_of]
theorem ctz (d a : Fin 32) : Statement (.ctz d a) := by
  refine of_s rfl rfl (by simp) (packA_lt _ _ _ _ _) fun hw => ?_
  simp [decodeS, sThree, sTwo, unpack_pack_of]
theorem popc (d a : Fin 32) : Statement (.popc d a) := by
  refine of_s rfl rfl (by simp) (packA_lt _ _ _ _ _) fun hw => ?_
  simp [decodeS, sThree, sTwo, unpack_pack_of]
theorem min (d a : Fin 32) (o : SOpd) : Statement (.min d a o) := by
  refine of_s rfl rfl (by simp) (packA_lt _ _ _ _ _) fun hw => ?_
  simp [decodeS, sThree, sTwo, unpack_pack_of]
theorem max (d a : Fin 32) (o : SOpd) : Statement (.max d a o) := by
  refine of_s rfl rfl (by simp) (packA_lt _ _ _ _ _) fun hw => ?_
  simp [decodeS, sThree, sTwo, unpack_pack_of]
theorem minn (d a : Fin 32) (o : SOpd) : Statement (.minn d a o) := by
  refine of_s rfl rfl (by simp) (packA_lt _ _ _ _ _) fun hw => ?_
  simp [decodeS, sThree, sTwo, unpack_pack_of]
theorem maxn (d a : Fin 32) (o : SOpd) : Statement (.maxn d a o) := by
  refine of_s rfl rfl (by simp) (packA_lt _ _ _ _ _) fun hw => ?_
  simp [decodeS, sThree, sTwo, unpack_pack_of]
theorem cmpEq (d : Fin 8) (a : Fin 32) (o : SOpd) : Statement (.cmpEq d a o) := by
  refine of_s rfl rfl (by simp) (packA_lt _ _ _ _ _) fun hw => ?_
  simp [decodeS, sThree, sTwo, unpack_pack_of]
theorem cmpNe (d : Fin 8) (a : Fin 32) (o : SOpd) : Statement (.cmpNe d a o) := by
  refine of_s rfl rfl (by simp) (packA_lt _ _ _ _ _) fun hw => ?_
  simp [decodeS, sThree, sTwo, unpack_pack_of]
theorem cmpLt (d : Fin 8) (a : Fin 32) (o : SOpd) : Statement (.cmpLt d a o) := by
  refine of_s rfl rfl (by simp) (packA_lt _ _ _ _ _) fun hw => ?_
  simp [decodeS, sThree, sTwo, unpack_pack_of]
theorem cmpGe (d : Fin 8) (a : Fin 32) (o : SOpd) : Statement (.cmpGe d a o) := by
  refine of_s rfl rfl (by simp) (packA_lt _ _ _ _ _) fun hw => ?_
  simp [decodeS, sThree, sTwo, unpack_pack_of]
theorem cmpLtn (d : Fin 8) (a : Fin 32) (o : SOpd) : Statement (.cmpLtn d a o) := by
  refine of_s rfl rfl (by simp) (packA_lt _ _ _ _ _) fun hw => ?_
  simp [decodeS, sThree, sTwo, unpack_pack_of]
theorem cmpGen (d : Fin 8) (a : Fin 32) (o : SOpd) : Statement (.cmpGen d a o) := by
  refine of_s rfl rfl (by simp) (packA_lt _ _ _ _ _) fun hw => ?_
  simp [decodeS, sThree, sTwo, unpack_pack_of]
theorem cmpTst (d : Fin 8) (a : Fin 32) (o : SOpd) : Statement (.cmpTst d a o) := by
  refine of_s rfl rfl (by simp) (packA_lt _ _ _ _ _) fun hw => ?_
  simp [decodeS, sThree, sTwo, unpack_pack_of]
theorem sel (d : Fin 32) (p : Fin 8) (a : Fin 32) (o : SOpd) : Statement (.sel d p a o) := by
  refine of_s rfl rfl (by simp) (pack_lt _) fun hw => ?_
  simp [decodeS, sThree, sTwo, unpack_pack_of]
theorem li (d : Fin 32) (i : BitVec 17) : Statement (.li d i) := by
  refine of_s rfl rfl (by simp) (packC_lt _ _) fun hw => ?_
  simp [decodeS, sThree, sTwo, unpack_pack_of]
theorem lih (d : Fin 32) (i : BitVec 16) : Statement (.lih d i) := by
  refine of_s rfl rfl (by simp) (pack_lt _) fun hw => ?_
  simp [decodeS, sThree, sTwo, unpack_pack_of]
theorem bfx (d a : Fin 32) (o : SOpd) : Statement (.bfx d a o) := by
  refine of_s rfl rfl (by simp) (packA_lt _ _ _ _ _) fun hw => ?_
  simp [decodeS, sThree, sTwo, unpack_pack_of]
theorem bfxS (d a : Fin 32) (o : SOpd) : Statement (.bfxS d a o) := by
  refine of_s rfl rfl (by simp) (packA_lt _ _ _ _ _) fun hw => ?_
  simp [decodeS, sThree, sTwo, unpack_pack_of]
theorem bfi (d a : Fin 32) (o : SOpd) : Statement (.bfi d a o) := by
  refine of_s rfl rfl (by simp) (packA_lt _ _ _ _ _) fun hw => ?_
  simp [decodeS, sThree, sTwo, unpack_pack_of]
theorem sextB (d a : Fin 32) : Statement (.sextB d a) := by
  refine of_s rfl rfl (by simp) (packA_lt _ _ _ _ _) fun hw => ?_
  simp [decodeS, sThree, sTwo, unpack_pack_of]
theorem sextH (d a : Fin 32) : Statement (.sextH d a) := by
  refine of_s rfl rfl (by simp) (packA_lt _ _ _ _ _) fun hw => ?_
  simp [decodeS, sThree, sTwo, unpack_pack_of]
theorem sextW (d a : Fin 32) : Statement (.sextW d a) := by
  refine of_s rfl rfl (by simp) (packA_lt _ _ _ _ _) fun hw => ?_
  simp [decodeS, sThree, sTwo, unpack_pack_of]
theorem sextBn (d a : Fin 32) : Statement (.sextBn d a) := by
  refine of_s rfl rfl (by simp) (packA_lt _ _ _ _ _) fun hw => ?_
  simp [decodeS, sThree, sTwo, unpack_pack_of]
theorem sextHn (d a : Fin 32) : Statement (.sextHn d a) := by
  refine of_s rfl rfl (by simp) (packA_lt _ _ _ _ _) fun hw => ?_
  simp [decodeS, sThree, sTwo, unpack_pack_of]
theorem sextWn (d a : Fin 32) : Statement (.sextWn d a) := by
  refine of_s rfl rfl (by simp) (packA_lt _ _ _ _ _) fun hw => ?_
  simp [decodeS, sThree, sTwo, unpack_pack_of]
theorem widfField (d : Fin 32) (f : Fin 6) : Statement (.widfField d f) := by
  refine of_s rfl rfl (by simp) (packA_lt _ _ _ _ _) fun hw => ?_
  fin_cases f <;> simp [decodeS, sThree, sTwo] <;> rfl
theorem widfGang (d : Fin 32) : Statement (.widfGang d) := by
  refine of_s rfl rfl (by simp) (packA_lt _ _ _ _ _) fun hw => ?_
  simp [decodeS, sThree, sTwo, unpack_pack_of]
theorem widfCut (d : Fin 32) : Statement (.widfCut d) := by
  refine of_s rfl rfl (by simp) (packA_lt _ _ _ _ _) fun hw => ?_
  simp [decodeS, sThree, sTwo, unpack_pack_of]
theorem smovK (d : Fin 32) (a : Fin 16) : Statement (.smovK d a) := by
  refine of_s rfl rfl (by simp) (packA_lt _ _ _ _ _) fun hw => ?_
  simp [decodeS, sThree, sTwo, unpack_pack_of]
theorem smovVa (d a : Fin 32) (c : Fin 16) : Statement (.smovVa d a c) := by
  refine of_s rfl rfl (by simp) (packA_lt _ _ _ _ _) fun hw => ?_
  simp [decodeS, sThree, sTwo, unpack_pack_of]
theorem smovVb (d a : Fin 32) (c : Fin 16) : Statement (.smovVb d a c) := by
  refine of_s rfl rfl (by simp) (packA_lt _ _ _ _ _) fun hw => ?_
  simp [decodeS, sThree, sTwo, unpack_pack_of]
theorem smovPred (d : Fin 32) : Statement (.smovPred d) := by
  refine of_s rfl rfl (by simp) (packA_lt _ _ _ _ _) fun hw => ?_
  simp [decodeS, sThree, sTwo, unpack_pack_of]
theorem smovMa (d : Fin 32) (a : Fin 8) : Statement (.smovMa d a) := by
  refine of_s rfl rfl (by simp) (packA_lt _ _ _ _ _) fun hw => ?_
  simp [decodeS, sThree, sTwo, unpack_pack_of]
theorem smovMb (d : Fin 32) (a : Fin 8) : Statement (.smovMb d a) := by
  refine of_s rfl rfl (by simp) (packA_lt _ _ _ _ _) fun hw => ?_
  simp [decodeS, sThree, sTwo, unpack_pack_of]
theorem mvst (n : BitVec 10) (a : Fin 32) : Statement (.mvst n a) := by
  refine of_s rfl rfl (by simp) (pack_lt _) fun hw => ?_
  simp [decodeS, sThree, sTwo, unpack_pack_of]
theorem mvfs (d : Fin 32) (n : BitVec 10) : Statement (.mvfs d n) := by
  refine of_s rfl rfl (by simp) (pack_lt _) fun hw => ?_
  simp [decodeS, sThree, sTwo, unpack_pack_of]
theorem dset (d : Fin 16) (a : Fin 32) : Statement (.dset d a) := by
  refine of_s rfl rfl (by simp) (pack_lt _) fun hw => ?_
  simp [decodeS, sThree, sTwo, unpack_pack_of]
theorem dsetLo (d : Fin 16) (a : Fin 32) : Statement (.dsetLo d a) := by
  refine of_s rfl rfl (by simp) (pack_lt _) fun hw => ?_
  simp [decodeS, sThree, sTwo, unpack_pack_of]
theorem dsetHi (d : Fin 16) (a : Fin 32) : Statement (.dsetHi d a) := by
  refine of_s rfl rfl (by simp) (pack_lt _) fun hw => ?_
  simp [decodeS, sThree, sTwo, unpack_pack_of]
theorem vadd (f : VFile) (d a : Fin 32) (o : VOpd) (ty : ITy) (m : Fin 8) : Statement (.vadd f d a o ty m) := by
  refine of_v f rfl rfl (by simp) (pack_lt _) fun hw => ?_
  simp [decodeV, vInt, vIntOne, vBits, vFlt, vFltOp, vFltOne, vSfu, unpack_pack_of]
theorem vsub (f : VFile) (d a : Fin 32) (o : VOpd) (ty : ITy) (m : Fin 8) : Statement (.vsub f d a o ty m) := by
  refine of_v f rfl rfl (by simp) (pack_lt _) fun hw => ?_
  simp [decodeV, vInt, vIntOne, vBits, vFlt, vFltOp, vFltOne, vSfu, unpack_pack_of]
theorem vmul (f : VFile) (d a : Fin 32) (o : VOpd) (ty : ITy) (m : Fin 8) : Statement (.vmul f d a o ty m) := by
  refine of_v f rfl rfl (by simp) (pack_lt _) fun hw => ?_
  simp [decodeV, vInt, vIntOne, vBits, vFlt, vFltOp, vFltOne, vSfu, unpack_pack_of]
theorem vmulh (f : VFile) (d a : Fin 32) (o : VOpd) (ty : ITy) (m : Fin 8) : Statement (.vmulh f d a o ty m) := by
  refine of_v f rfl rfl (by simp) (pack_lt _) fun hw => ?_
  simp [decodeV, vInt, vIntOne, vBits, vFlt, vFltOp, vFltOne, vSfu, unpack_pack_of]
theorem vmin (f : VFile) (d a : Fin 32) (o : VOpd) (ty : ITy) (m : Fin 8) : Statement (.vmin f d a o ty m) := by
  refine of_v f rfl rfl (by simp) (pack_lt _) fun hw => ?_
  simp [decodeV, vInt, vIntOne, vBits, vFlt, vFltOp, vFltOne, vSfu, unpack_pack_of]
theorem vmax (f : VFile) (d a : Fin 32) (o : VOpd) (ty : ITy) (m : Fin 8) : Statement (.vmax f d a o ty m) := by
  refine of_v f rfl rfl (by simp) (pack_lt _) fun hw => ?_
  simp [decodeV, vInt, vIntOne, vBits, vFlt, vFltOp, vFltOne, vSfu, unpack_pack_of]
theorem vabs (f : VFile) (d a : Fin 32) (ty : ITy) (m : Fin 8) : Statement (.vabs f d a ty m) := by
  refine of_v f rfl rfl (by simp) (pack_lt _) fun hw => ?_
  have hv : (ty.code % 2 == 0) = true := hw
  try simp at hv
  simp [decodeV, vInt, vIntOne, vBits, vFlt, vFltOp, vFltOne, vSfu, unpack_pack_of, hv]
theorem vneg (f : VFile) (d a : Fin 32) (ty : ITy) (m : Fin 8) : Statement (.vneg f d a ty m) := by
  refine of_v f rfl rfl (by simp) (pack_lt _) fun hw => ?_
  simp [decodeV, vInt, vIntOne, vBits, vFlt, vFltOp, vFltOne, vSfu, unpack_pack_of]
theorem vand (f : VFile) (d a : Fin 32) (o : VOpd) (m : Fin 8) : Statement (.vand f d a o m) := by
  refine of_v f rfl rfl (by simp) (pack_lt _) fun hw => ?_
  simp [decodeV, vInt, vIntOne, vBits, vFlt, vFltOp, vFltOne, vSfu, unpack_pack_of]
theorem vor (f : VFile) (d a : Fin 32) (o : VOpd) (m : Fin 8) : Statement (.vor f d a o m) := by
  refine of_v f rfl rfl (by simp) (pack_lt _) fun hw => ?_
  simp [decodeV, vInt, vIntOne, vBits, vFlt, vFltOp, vFltOne, vSfu, unpack_pack_of]
theorem vxor (f : VFile) (d a : Fin 32) (o : VOpd) (m : Fin 8) : Statement (.vxor f d a o m) := by
  refine of_v f rfl rfl (by simp) (pack_lt _) fun hw => ?_
  simp [decodeV, vInt, vIntOne, vBits, vFlt, vFltOp, vFltOne, vSfu, unpack_pack_of]
theorem vnot (f : VFile) (d a : Fin 32) (m : Fin 8) : Statement (.vnot f d a m) := by
  refine of_v f rfl rfl (by simp) (pack_lt _) fun hw => ?_
  simp [decodeV, vInt, vIntOne, vBits, vFlt, vFltOp, vFltOne, vSfu, unpack_pack_of]
theorem vshl (f : VFile) (d a : Fin 32) (o : VOpd) (ty : ITy) (m : Fin 8) : Statement (.vshl f d a o ty m) := by
  refine of_v f rfl rfl (by simp) (pack_lt _) fun hw => ?_
  simp [decodeV, vInt, vIntOne, vBits, vFlt, vFltOp, vFltOne, vSfu, unpack_pack_of]
theorem vshr (f : VFile) (d a : Fin 32) (o : VOpd) (ty : ITy) (m : Fin 8) : Statement (.vshr f d a o ty m) := by
  refine of_v f rfl rfl (by simp) (pack_lt _) fun hw => ?_
  simp [decodeV, vInt, vIntOne, vBits, vFlt, vFltOp, vFltOne, vSfu, unpack_pack_of]
theorem vsra (f : VFile) (d a : Fin 32) (o : VOpd) (ty : ITy) (m : Fin 8) : Statement (.vsra f d a o ty m) := by
  refine of_v f rfl rfl (by simp) (pack_lt _) fun hw => ?_
  simp [decodeV, vInt, vIntOne, vBits, vFlt, vFltOp, vFltOne, vSfu, unpack_pack_of]
theorem vadds (f : VFile) (d a : Fin 32) (o : VOpd) (ty : ITy) (m : Fin 8) : Statement (.vadds f d a o ty m) := by
  refine of_v f rfl rfl (by simp) (pack_lt _) fun hw => ?_
  simp [decodeV, vInt, vIntOne, vBits, vFlt, vFltOp, vFltOne, vSfu, unpack_pack_of]
theorem vsubs (f : VFile) (d a : Fin 32) (o : VOpd) (ty : ITy) (m : Fin 8) : Statement (.vsubs f d a o ty m) := by
  refine of_v f rfl rfl (by simp) (pack_lt _) fun hw => ?_
  simp [decodeV, vInt, vIntOne, vBits, vFlt, vFltOp, vFltOne, vSfu, unpack_pack_of]
theorem vdot4 (f : VFile) (d a b : Fin 32) (sg : Signs) (sat : Bool) (m : Fin 8) : Statement (.vdot4 f d a b sg sat m) := by
  refine of_v f rfl rfl (by simp) (pack_lt _) fun hw => ?_
  simp [decodeV, vInt, vIntOne, vBits, vFlt, vFltOp, vFltOne, vSfu, unpack_pack_of]
theorem vdot8 (f : VFile) (d a b : Fin 32) (sat : Bool) (m : Fin 8) : Statement (.vdot8 f d a b sat m) := by
  refine of_v f rfl rfl (by simp) (pack_lt _) fun hw => ?_
  simp [decodeV, vInt, vIntOne, vBits, vFlt, vFltOp, vFltOne, vSfu, unpack_pack_of]
theorem vcmpEq (f : VFile) (d : Fin 8) (a : Fin 32) (o : VOpd) (ty : ITy) : Statement (.vcmpEq f d a o ty) := by
  refine of_v f rfl rfl (by simp) (pack_lt _) fun hw => ?_
  simp [decodeV, vInt, vIntOne, vBits, vFlt, vFltOp, vFltOne, vSfu, unpack_pack_of]
theorem vcmpNe (f : VFile) (d : Fin 8) (a : Fin 32) (o : VOpd) (ty : ITy) : Statement (.vcmpNe f d a o ty) := by
  refine of_v f rfl rfl (by simp) (pack_lt _) fun hw => ?_
  simp [decodeV, vInt, vIntOne, vBits, vFlt, vFltOp, vFltOne, vSfu, unpack_pack_of]
theorem vcmpLt (f : VFile) (d : Fin 8) (a : Fin 32) (o : VOpd) (ty : ITy) : Statement (.vcmpLt f d a o ty) := by
  refine of_v f rfl rfl (by simp) (pack_lt _) fun hw => ?_
  simp [decodeV, vInt, vIntOne, vBits, vFlt, vFltOp, vFltOne, vSfu, unpack_pack_of]
theorem vcmpLe (f : VFile) (d : Fin 8) (a : Fin 32) (o : VOpd) (ty : ITy) : Statement (.vcmpLe f d a o ty) := by
  refine of_v f rfl rfl (by simp) (pack_lt _) fun hw => ?_
  simp [decodeV, vInt, vIntOne, vBits, vFlt, vFltOp, vFltOne, vSfu, unpack_pack_of]
theorem vcmpGt (f : VFile) (d : Fin 8) (a : Fin 32) (o : VOpd) (ty : ITy) : Statement (.vcmpGt f d a o ty) := by
  refine of_v f rfl rfl (by simp) (pack_lt _) fun hw => ?_
  simp [decodeV, vInt, vIntOne, vBits, vFlt, vFltOp, vFltOne, vSfu, unpack_pack_of]
theorem vcmpGe (f : VFile) (d : Fin 8) (a : Fin 32) (o : VOpd) (ty : ITy) : Statement (.vcmpGe f d a o ty) := by
  refine of_v f rfl rfl (by simp) (pack_lt _) fun hw => ?_
  simp [decodeV, vInt, vIntOne, vBits, vFlt, vFltOp, vFltOne, vSfu, unpack_pack_of]
theorem vsel (f : VFile) (d a : Fin 32) (o : VOpd) (m : Fin 8) : Statement (.vsel f d a o m) := by
  refine of_v f rfl rfl (by simp) (pack_lt _) fun hw => ?_
  simp [decodeV, vInt, vIntOne, vBits, vFlt, vFltOp, vFltOne, vSfu, unpack_pack_of]
theorem vfadd (f : VFile) (d a : Fin 32) (o : VOpd) (ft : FTy) (rm : RMode) (m : Fin 4) : Statement (.vfadd f d a o ft rm m) := by
  refine of_v f rfl rfl (by simp) (pack_lt _) fun hw => ?_
  simp [decodeV, vInt, vIntOne, vBits, vFlt, vFltOp, vFltOne, vSfu, unpack_pack_of]
theorem vfsub (f : VFile) (d a : Fin 32) (o : VOpd) (ft : FTy) (rm : RMode) (m : Fin 4) : Statement (.vfsub f d a o ft rm m) := by
  refine of_v f rfl rfl (by simp) (pack_lt _) fun hw => ?_
  simp [decodeV, vInt, vIntOne, vBits, vFlt, vFltOp, vFltOne, vSfu, unpack_pack_of]
theorem vfmul (f : VFile) (d a : Fin 32) (o : VOpd) (ft : FTy) (rm : RMode) (m : Fin 4) : Statement (.vfmul f d a o ft rm m) := by
  refine of_v f rfl rfl (by simp) (pack_lt _) fun hw => ?_
  simp [decodeV, vInt, vIntOne, vBits, vFlt, vFltOp, vFltOne, vSfu, unpack_pack_of]
theorem vffma (f : VFile) (d a : Fin 32) (o : VOpd) (ft : FTy) (rm : RMode) (m : Fin 4) : Statement (.vffma f d a o ft rm m) := by
  refine of_v f rfl rfl (by simp) (pack_lt _) fun hw => ?_
  simp [decodeV, vInt, vIntOne, vBits, vFlt, vFltOp, vFltOne, vSfu, unpack_pack_of]
theorem vfmin (f : VFile) (d a : Fin 32) (o : VOpd) (ft : FTy) (m : Fin 4) : Statement (.vfmin f d a o ft m) := by
  refine of_v f rfl rfl (by simp) (pack_lt _) fun hw => ?_
  simp [decodeV, vInt, vIntOne, vBits, vFlt, vFltOp, vFltOne, vSfu, unpack_pack_of]
theorem vfmax (f : VFile) (d a : Fin 32) (o : VOpd) (ft : FTy) (m : Fin 4) : Statement (.vfmax f d a o ft m) := by
  refine of_v f rfl rfl (by simp) (pack_lt _) fun hw => ?_
  simp [decodeV, vInt, vIntOne, vBits, vFlt, vFltOp, vFltOne, vSfu, unpack_pack_of]
theorem vfsgnJ (f : VFile) (d a : Fin 32) (o : VOpd) (ft : FTy) (m : Fin 4) : Statement (.vfsgnJ f d a o ft m) := by
  refine of_v f rfl rfl (by simp) (pack_lt _) fun hw => ?_
  simp [decodeV, vInt, vIntOne, vBits, vFlt, vFltOp, vFltOne, vSfu, unpack_pack_of]
theorem vfsgnJn (f : VFile) (d a : Fin 32) (o : VOpd) (ft : FTy) (m : Fin 4) : Statement (.vfsgnJn f d a o ft m) := by
  refine of_v f rfl rfl (by simp) (pack_lt _) fun hw => ?_
  simp [decodeV, vInt, vIntOne, vBits, vFlt, vFltOp, vFltOne, vSfu, unpack_pack_of]
theorem vfsgnJx (f : VFile) (d a : Fin 32) (o : VOpd) (ft : FTy) (m : Fin 4) : Statement (.vfsgnJx f d a o ft m) := by
  refine of_v f rfl rfl (by simp) (pack_lt _) fun hw => ?_
  simp [decodeV, vInt, vIntOne, vBits, vFlt, vFltOp, vFltOne, vSfu, unpack_pack_of]
theorem vfcmpEq (f : VFile) (d : Fin 8) (a : Fin 32) (o : VOpd) (ft : FTy) : Statement (.vfcmpEq f d a o ft) := by
  refine of_v f rfl rfl (by simp) (pack_lt _) fun hw => ?_
  simp [decodeV, vInt, vIntOne, vBits, vFlt, vFltOp, vFltOne, vSfu, unpack_pack_of]
theorem vfcmpNe (f : VFile) (d : Fin 8) (a : Fin 32) (o : VOpd) (ft : FTy) : Statement (.vfcmpNe f d a o ft) := by
  refine of_v f rfl rfl (by simp) (pack_lt _) fun hw => ?_
  simp [decodeV, vInt, vIntOne, vBits, vFlt, vFltOp, vFltOne, vSfu, unpack_pack_of]
theorem vfcmpLt (f : VFile) (d : Fin 8) (a : Fin 32) (o : VOpd) (ft : FTy) : Statement (.vfcmpLt f d a o ft) := by
  refine of_v f rfl rfl (by simp) (pack_lt _) fun hw => ?_
  simp [decodeV, vInt, vIntOne, vBits, vFlt, vFltOp, vFltOne, vSfu, unpack_pack_of]
theorem vfcmpLe (f : VFile) (d : Fin 8) (a : Fin 32) (o : VOpd) (ft : FTy) : Statement (.vfcmpLe f d a o ft) := by
  refine of_v f rfl rfl (by simp) (pack_lt _) fun hw => ?_
  simp [decodeV, vInt, vIntOne, vBits, vFlt, vFltOp, vFltOne, vSfu, unpack_pack_of]
theorem vfcmpUn (f : VFile) (d : Fin 8) (a : Fin 32) (o : VOpd) (ft : FTy) : Statement (.vfcmpUn f d a o ft) := by
  refine of_v f rfl rfl (by simp) (pack_lt _) fun hw => ?_
  simp [decodeV, vInt, vIntOne, vBits, vFlt, vFltOp, vFltOne, vSfu, unpack_pack_of]
theorem vfcmpOrd (f : VFile) (d : Fin 8) (a : Fin 32) (o : VOpd) (ft : FTy) : Statement (.vfcmpOrd f d a o ft) := by
  refine of_v f rfl rfl (by simp) (pack_lt _) fun hw => ?_
  simp [decodeV, vInt, vIntOne, vBits, vFlt, vFltOp, vFltOne, vSfu, unpack_pack_of]
theorem vfclass (f : VFile) (d a : Fin 32) (ft : FTy) (m : Fin 4) : Statement (.vfclass f d a ft m) := by
  refine of_v f rfl rfl (by simp) (pack_lt _) fun hw => ?_
  simp [decodeV, vInt, vIntOne, vBits, vFlt, vFltOp, vFltOne, vSfu, unpack_pack_of]
theorem vexp2 (f : VFile) (d a : Fin 32) (m : Fin 4) : Statement (.vexp2 f d a m) := by
  refine of_v f rfl rfl (by simp) (pack_lt _) fun hw => ?_
  simp [decodeV, vInt, vIntOne, vBits, vFlt, vFltOp, vFltOne, vSfu, unpack_pack_of]
theorem vlog2 (f : VFile) (d a : Fin 32) (m : Fin 4) : Statement (.vlog2 f d a m) := by
  refine of_v f rfl rfl (by simp) (pack_lt _) fun hw => ?_
  simp [decodeV, vInt, vIntOne, vBits, vFlt, vFltOp, vFltOne, vSfu, unpack_pack_of]
theorem vrcp (f : VFile) (d a : Fin 32) (m : Fin 4) : Statement (.vrcp f d a m) := by
  refine of_v f rfl rfl (by simp) (pack_lt _) fun hw => ?_
  simp [decodeV, vInt, vIntOne, vBits, vFlt, vFltOp, vFltOne, vSfu, unpack_pack_of]
theorem vrsqrt (f : VFile) (d a : Fin 32) (m : Fin 4) : Statement (.vrsqrt f d a m) := by
  refine of_v f rfl rfl (by simp) (pack_lt _) fun hw => ?_
  simp [decodeV, vInt, vIntOne, vBits, vFlt, vFltOp, vFltOne, vSfu, unpack_pack_of]
theorem vcvt (f : VFile) (d a : Fin 32) (dt st : CFmt) (rm : RMode) (sat : Bool) (part : Option (BitVec 2)) : Statement (.vcvt f d a dt st rm sat part) := by
  refine of_v f rfl rfl (by simp) (pack_lt _) fun hw => ?_
  have hv : (!(sat && dt.isInt) && decide ((part.getD 0#2).toNat < Nat.max dt.bits st.bits / Nat.min dt.bits st.bits)) = true := hw
  simp at hv
  have e2 : ∀ p : Option (BitVec 2), off? (p.map fun x => BitVec.setWidth 16 x) ((if p.isSome = true then 1 else 0) % 2) = some (p.map fun x => BitVec.setWidth 16 x) := by
    intro p; cases p <;> simp [off?]
  have e3 : ((part.map fun x => BitVec.setWidth 16 x).getD 0#16).toNat = (part.getD 0#2).toNat := by
    cases part <;> simp; omega
  have e4 : (part.map fun x => BitVec.setWidth 16 x).map (fun x => BitVec.setWidth 2 x) = part := by
    cases part <;> simp
  have e5 : unflag sat % 2 = 1 ↔ sat = true := by cases sat <;> simp [unflag]
  simp [decodeV, vInt, vIntOne, vBits, vFlt, vFltOp, vFltOne, vSfu, unpack_pack_of, e2, e3, e4, e5]
  refine ⟨fun h => ?_, hv.2⟩
  rcases hv.1 with h1 | h1 <;> simp_all
theorem vpack (f : VFile) (d a b : Fin 32) (kind : Fin 7) (sat : Bool) : Statement (.vpack f d a b kind sat) := by
  refine of_v f rfl rfl (by simp) (pack_lt _) fun hw => ?_
  simp [decodeV, vInt, vIntOne, vBits, vFlt, vFltOp, vFltOne, vSfu, unpack_pack_of]
theorem vunpack (f : VFile) (d a : Fin 32) (kind : Fin 6) (hi : Bool) : Statement (.vunpack f d a kind hi) := by
  refine of_v f rfl rfl (by simp) (pack_lt _) fun hw => ?_
  simp [decodeV, vInt, vIntOne, vBits, vFlt, vFltOp, vFltOne, vSfu, unpack_pack_of]
theorem vquant (f : VFile) (d a : Fin 32) (e : BElem) (n : Fin 32) : Statement (.vquant f d a e n) := by
  refine of_v f rfl rfl (by simp) (pack_lt _) fun hw => ?_
  have hv : (decide (n.val < if e = .i4 then 8 else 4)) = true := hw
  simp only [decide_eq_true_eq] at hv
  simp [decodeV, vInt, vIntOne, vBits, vFlt, vFltOp, vFltOne, vSfu, unpack_pack_of, hv]
theorem vquantScale (f : VFile) (d a : Fin 32) (e : BElem) (n : Fin 32) : Statement (.vquantScale f d a e n) := by
  refine of_v f rfl rfl (by simp) (pack_lt _) fun hw => ?_
  simp [decodeV, vInt, vIntOne, vBits, vFlt, vFltOp, vFltOne, vSfu, unpack_pack_of]
theorem vscale (f : VFile) (d a : Fin 32) (o : VScale) (rm : RMode) (m : Fin 4) : Statement (.vscale f d a o rm m) := by
  cases o with
  | reg r =>
    refine of_v f rfl rfl (by simp) (pack_lt _) fun hw => ?_
    simp [decodeV, vInt, vIntOne, vBits, vFlt, vFltOp, vFltOne, vSfu, unpack_pack_of]
  | imm i =>
    refine of_v f rfl rfl (by simp) (pack_lt _) fun hw => ?_
    have hl : i.toNat < 256 := i.isLt
    have e1 : i.toNat % 65536 = i.toNat := by omega
    simp [decodeV, vInt, vIntOne, vBits, vFlt, vFltOp, vFltOne, vSfu, unpack_pack_of, e1, hl]
theorem vfxd (f : VFile) (d a : Fin 32) (j : Fin 9) (m : Fin 8) : Statement (.vfxd f d a j m) := by
  refine of_v f rfl rfl (by simp) (pack_lt _) fun hw => ?_
  simp [decodeV, vInt, vIntOne, vBits, vFlt, vFltOp, vFltOne, vSfu, unpack_pack_of]
theorem vredsum (f : VFile) (d a : Fin 32) (ty : ITy) (m : Fin 8) : Statement (.vredsum f d a ty m) := by
  refine of_v f rfl rfl (by simp) (pack_lt _) fun hw => ?_
  simp [decodeV, vInt, vIntOne, vBits, vFlt, vFltOp, vFltOne, vSfu, unpack_pack_of]
theorem vredmax (f : VFile) (d a : Fin 32) (ty : ITy) (m : Fin 8) : Statement (.vredmax f d a ty m) := by
  refine of_v f rfl rfl (by simp) (pack_lt _) fun hw => ?_
  simp [decodeV, vInt, vIntOne, vBits, vFlt, vFltOp, vFltOne, vSfu, unpack_pack_of]
theorem vredmin (f : VFile) (d a : Fin 32) (ty : ITy) (m : Fin 8) : Statement (.vredmin f d a ty m) := by
  refine of_v f rfl rfl (by simp) (pack_lt _) fun hw => ?_
  simp [decodeV, vInt, vIntOne, vBits, vFlt, vFltOp, vFltOne, vSfu, unpack_pack_of]
theorem vfredsum (f : VFile) (d a : Fin 32) (ft : FTy) (rm : RMode) (m : Fin 4) : Statement (.vfredsum f d a ft rm m) := by
  refine of_v f rfl rfl (by simp) (pack_lt _) fun hw => ?_
  simp [decodeV, vInt, vIntOne, vBits, vFlt, vFltOp, vFltOne, vSfu, unpack_pack_of]
theorem vfredmax (f : VFile) (d a : Fin 32) (ft : FTy) (m : Fin 4) : Statement (.vfredmax f d a ft m) := by
  refine of_v f rfl rfl (by simp) (pack_lt _) fun hw => ?_
  simp [decodeV, vInt, vIntOne, vBits, vFlt, vFltOp, vFltOne, vSfu, unpack_pack_of]
theorem vperm (f : VFile) (d a b : Fin 32) (w : Width) (m : Fin 8) : Statement (.vperm f d a b w m) := by
  refine of_v f rfl rfl (by simp) (pack_lt _) fun hw => ?_
  simp [decodeV, vInt, vIntOne, vBits, vFlt, vFltOp, vFltOne, vSfu, unpack_pack_of]
theorem vbcast (f : VFile) (d a : Fin 32) (k : VIndex) (w : Width) (m : Fin 8) : Statement (.vbcast f d a k w m) := by
  cases k with
  | field r =>
    refine of_v f rfl rfl (by simp) (pack_lt _) fun hw => ?_
    have h : r.val < w.lanes := of_decide_eq_true hw
    simp [decodeV, vInt, vIntOne, vBits, vFlt, vFltOp, vFltOne, vSfu, unpack_pack_of, h]
  | imm i =>
    refine of_v f rfl rfl (by simp) (pack_lt _) fun hw => ?_
    have h : i.toNat < w.lanes := of_decide_eq_true hw
    simp [decodeV, vInt, vIntOne, vBits, vFlt, vFltOp, vFltOne, vSfu, unpack_pack_of, h]
theorem vslide (f : VFile) (d a b : Fin 32) (n : BitVec 8) (w : Width) (m : Fin 8) : Statement (.vslide f d a b n w m) := by
  refine of_v f rfl rfl (by simp) (pack_lt _) fun hw => ?_
  have hv : (decide (n.toNat ≤ w.lanes)) = true := hw
  simp at hv
  have hl : n.toNat < 256 := n.isLt
  have e1 : n.toNat % 65536 = n.toNat := by omega
  simp [decodeV, vInt, vIntOne, vBits, vFlt, vFltOp, vFltOne, vSfu, unpack_pack_of, e1, hv]
theorem vzip (f : VFile) (d a b : Fin 32) (hi : Bool) (w : Width) : Statement (.vzip f d a b hi w) := by
  refine of_v f rfl rfl (by simp) (pack_lt _) fun hw => ?_
  simp [decodeV, vInt, vIntOne, vBits, vFlt, vFltOp, vFltOne, vSfu, unpack_pack_of]
theorem vunzip (f : VFile) (d a b : Fin 32) (hi : Bool) (w : Width) : Statement (.vunzip f d a b hi w) := by
  refine of_v f rfl rfl (by simp) (pack_lt _) fun hw => ?_
  simp [decodeV, vInt, vIntOne, vBits, vFlt, vFltOp, vFltOne, vSfu, unpack_pack_of]
theorem vmov (f : VFile) (d a : Fin 32) : Statement (.vmov f d a) := by
  refine of_v f rfl rfl (by simp) (pack_lt _) fun hw => ?_
  simp [decodeV, vInt, vIntOne, vBits, vFlt, vFltOp, vFltOne, vSfu, unpack_pack_of]
theorem vmovCross (f : VFile) (d a : Fin 32) : Statement (.vmovCross f d a) := by
  refine of_v f rfl rfl (by simp) (pack_lt _) fun hw => ?_
  simp [decodeV, vInt, vIntOne, vBits, vFlt, vFltOp, vFltOne, vSfu, unpack_pack_of]
theorem vmovSplat (f : VFile) (d a : Fin 32) (w : Fin 4) : Statement (.vmovSplat f d a w) := by
  refine of_v f rfl rfl (by simp) (pack_lt _) fun hw => ?_
  simp [decodeV, vInt, vIntOne, vBits, vFlt, vFltOp, vFltOne, vSfu, unpack_pack_of]
theorem vmovChunk (f : VFile) (d a : Fin 32) (c : Fin 16) : Statement (.vmovChunk f d a c) := by
  refine of_v f rfl rfl (by simp) (pack_lt _) fun hw => ?_
  simp [decodeV, vInt, vIntOne, vBits, vFlt, vFltOp, vFltOne, vSfu, unpack_pack_of]
theorem vliW (f : VFile) (d : Fin 32) (i : BitVec 16) : Statement (.vliW f d i) := by
  refine of_v f rfl rfl (by simp) (pack_lt _) fun hw => ?_
  simp [decodeV, vInt, vIntOne, vBits, vFlt, vFltOp, vFltOne, vSfu, unpack_pack_of]
theorem vliF (f : VFile) (d : Fin 32) (i : BitVec 16) : Statement (.vliF f d i) := by
  refine of_v f rfl rfl (by simp) (pack_lt _) fun hw => ?_
  simp [decodeV, vInt, vIntOne, vBits, vFlt, vFltOp, vFltOne, vSfu, unpack_pack_of]
theorem vliH (f : VFile) (d : Fin 32) (i : BitVec 16) : Statement (.vliH f d i) := by
  refine of_v f rfl rfl (by simp) (pack_lt _) fun hw => ?_
  simp [decodeV, vInt, vIntOne, vBits, vFlt, vFltOp, vFltOne, vSfu, unpack_pack_of]
theorem vliB (f : VFile) (d : Fin 32) (i : BitVec 8) : Statement (.vliB f d i) := by
  refine of_v f rfl rfl (by simp) (pack_lt _) fun hw => ?_
  have hl : i.toNat < 256 := i.isLt
  have e1 : i.toNat % 65536 = i.toNat := by omega
  simp [decodeV, vInt, vIntOne, vBits, vFlt, vFltOp, vFltOne, vSfu, unpack_pack_of, e1, hl]
theorem vidx (f : VFile) (d : Fin 32) (base : Option (BitVec 16)) (w : Width) (m : Fin 8) : Statement (.vidx f d base w m) := by
  refine of_v f rfl rfl (by simp) (pack_lt _) fun hw => ?_
  simp [decodeV, vInt, vIntOne, vBits, vFlt, vFltOp, vFltOne, vSfu, unpack_pack_of]
theorem vcrc (f : VFile) (d a b : Fin 32) (n : Fin 64) : Statement (.vcrc f d a b n) := by
  refine of_v f rfl rfl (by simp) (packA_lt _ _ _ _ _) fun hw => ?_
  simp [decodeV, vInt, vIntOne, vBits, vFlt, vFltOp, vFltOne, vSfu, unpack_pack_of]
theorem mlogAnd (f : VFile) (d a : Fin 8) (o : MOpd) : Statement (.mlogAnd f d a o) := by
  refine of_v f rfl rfl (by simp) (pack_lt _) fun hw => ?_
  simp [decodeV, vInt, vIntOne, vBits, vFlt, vFltOp, vFltOne, vSfu, unpack_pack_of]
theorem mlogOr (f : VFile) (d a : Fin 8) (o : MOpd) : Statement (.mlogOr f d a o) := by
  refine of_v f rfl rfl (by simp) (pack_lt _) fun hw => ?_
  simp [decodeV, vInt, vIntOne, vBits, vFlt, vFltOp, vFltOne, vSfu, unpack_pack_of]
theorem mlogXor (f : VFile) (d a : Fin 8) (o : MOpd) : Statement (.mlogXor f d a o) := by
  refine of_v f rfl rfl (by simp) (pack_lt _) fun hw => ?_
  simp [decodeV, vInt, vIntOne, vBits, vFlt, vFltOp, vFltOne, vSfu, unpack_pack_of]
theorem mlogAndn (f : VFile) (d a : Fin 8) (o : MOpd) : Statement (.mlogAndn f d a o) := by
  refine of_v f rfl rfl (by simp) (pack_lt _) fun hw => ?_
  simp [decodeV, vInt, vIntOne, vBits, vFlt, vFltOp, vFltOne, vSfu, unpack_pack_of]
theorem mlogOrn (f : VFile) (d a : Fin 8) (o : MOpd) : Statement (.mlogOrn f d a o) := by
  refine of_v f rfl rfl (by simp) (pack_lt _) fun hw => ?_
  simp [decodeV, vInt, vIntOne, vBits, vFlt, vFltOp, vFltOne, vSfu, unpack_pack_of]
theorem mpop (f : VFile) (d : Fin 32) (a : Fin 8) : Statement (.mpop f d a) := by
  refine of_v f rfl rfl (by simp) (pack_lt _) fun hw => ?_
  simp [decodeV, vInt, vIntOne, vBits, vFlt, vFltOp, vFltOne, vSfu, unpack_pack_of]
theorem mpopFirst (f : VFile) (d : Fin 32) (a : Fin 8) : Statement (.mpopFirst f d a) := by
  refine of_v f rfl rfl (by simp) (pack_lt _) fun hw => ?_
  simp [decodeV, vInt, vIntOne, vBits, vFlt, vFltOp, vFltOne, vSfu, unpack_pack_of]
theorem mld (t : Fin 8) (bank : Fin 16) (off : BitVec 16) (raw : Option (BitVec 4)) : Statement (.mld t bank off raw) := by
  refine of_m rfl rfl (by simp) (pack_lt _) fun hw => ?_
  clear hw
  simp [decodeM, unpack_pack_of]
  cases raw <;> simp
theorem mldt (t : Fin 8) (bank : Fin 16) (off : BitVec 16) (raw : Option (BitVec 4)) : Statement (.mldt t bank off raw) := by
  refine of_m rfl rfl (by simp) (pack_lt _) fun hw => ?_
  have hv : (decide ((raw.getD 0#4).toNat < 13)) = true := hw
  cases raw <;> simp at hv <;> simp [decodeM, unpack_pack_of, hv]
theorem mlds (t : Fin 8) (bank : Fin 16) (off : BitVec 16) : Statement (.mlds t bank off) := by
  refine of_m rfl rfl (by simp) (pack_lt _) fun hw => ?_
  simp [decodeM, unpack_pack_of]
theorem mst (t : Fin 8) (bank : Fin 16) (off : BitVec 16) (raw : Bool) : Statement (.mst t bank off raw) := by
  refine of_m rfl rfl (by simp) (pack_lt _) fun hw => ?_
  simp [decodeM, unpack_pack_of]
theorem mzero (ts : BitVec 8) (zs : BitVec 4) : Statement (.mzero ts zs) := by
  refine of_m rfl rfl (by simp) (pack_lt _) fun hw => ?_
  have hv : (!(ts == 0#8 && zs == 0#4)) = true := hw
  simp at hv
  simp [decodeM, unpack_pack_of]
  intro h1 h2
  rcases hv with h | h
  · exact h (BitVec.eq_of_toNat_eq (by simpa using h1))
  · exact h (BitVec.eq_of_toNat_eq (by simpa using h2))
theorem mma (z : Fin 4) (a b : Fin 8) : Statement (.mma z a b) := by
  refine of_m rfl rfl (by simp) (pack_lt _) fun hw => ?_
  simp [decodeM, unpack_pack_of]
theorem mmo (z : Fin 4) (a b : Fin 8) : Statement (.mmo z a b) := by
  refine of_m rfl rfl (by simp) (pack_lt _) fun hw => ?_
  simp [decodeM, unpack_pack_of]
theorem mmaResultDue (n : Fin 128) : Statement (.mmaResultDue n) := of_none rfl
theorem zout (z : Fin 4) (zo : Option (Fin 4)) (tt : Option (Fin 8)) (bank : Fin 16) (off : BitVec 16) (st : Steps) (rm : RMode) (sat : Bool) : Statement (.zout z zo tt bank off st rm sat) := by
  refine of_m rfl rfl (by simp) (pack_lt _) fun hw => ?_
  have hv : (zo != some z && tt.isSome == (st.rs || st.cs || st.bias)) = true := hw
  try simp at hv
  simp [decodeM, unpack_pack_of, hv]
theorem zoutv (z : Fin 4) (zo : Option (Fin 4)) (tt : Option (Fin 8)) (td : Fin 8) (hi : Bool) (st : Steps) (rm : RMode) (sat : Bool) (fmt : VFmt) : Statement (.zoutv z zo tt td hi st rm sat fmt) := by
  refine of_m rfl rfl (by simp) (pack_lt _) fun hw => ?_
  have hv : (zo != some z && tt.isSome == (st.rs || st.cs || st.bias) && !(hi && !fmt.half)) = true := hw
  simp at hv
  simp [decodeM, unpack_pack_of, hv]
  have h := hv.2
  cases hi <;> simp_all [unflag]
theorem zld (z : Fin 4) (bank : Fin 16) (off : BitVec 16) (ty : Fin 3) : Statement (.zld z bank off ty) := by
  refine of_m rfl rfl (by simp) (pack_lt _) fun hw => ?_
  simp [decodeM, unpack_pack_of]
theorem zst (z : Fin 4) (bank : Fin 16) (off : BitVec 16) : Statement (.zst z bank off) := by
  refine of_m rfl rfl (by simp) (pack_lt _) fun hw => ?_
  simp [decodeM, unpack_pack_of]
theorem zstat (bank : Fin 16) (off : BitVec 16) : Statement (.zstat bank off) := by
  refine of_m rfl rfl (by simp) (pack_lt _) fun hw => ?_
  simp [decodeM, unpack_pack_of]
theorem zclr (zs : BitVec 4) (ty : BitVec 2) : Statement (.zclr zs ty) := by
  refine of_m rfl rfl (by simp) (pack_lt _) fun hw => ?_
  have hv : (zs != 0#4) = true := hw
  simp at hv
  simp [decodeM, unpack_pack_of]
  exact fun h => hv (BitVec.eq_of_toNat_eq (by simpa using h))
theorem ldl (d a : Fin 32) (off : Option (BitVec 16)) (dk : DKind) : Statement (.ldl d a off dk) := by
  refine of_l rfl rfl (by simp) (pack_lt _) fun hw => ?_
  simp [decodeL, amoOp, unpack_pack_of]
theorem stl (d a : Fin 32) (off : Option (BitVec 16)) (dk : DKind) : Statement (.stl d a off dk) := by
  refine of_l rfl rfl (by simp) (pack_lt _) fun hw => ?_
  have hv : (dk.storable) = true := hw
  simp [decodeL, amoOp, unpack_pack_of, hv]
theorem ldg (d a : Fin 32) (ls : Fin 64) (l : Landing) (dk : DKind2) (q : LdQual) : Statement (.ldg d a ls l dk q) := by
  refine of_l rfl rfl (by simp) (pack_lt _) fun hw => ?_
  have hv : (l.due != 0#12) = true := hw
  try simp at hv
  simp [decodeL, amoOp, unpack_pack_of, hv]
theorem stg (d a : Fin 32) (off : Option (BitVec 16)) (dk : DKind) (q : StQual) : Statement (.stg d a off dk q) := by
  refine of_l rfl rfl (by simp) (pack_lt _) fun hw => ?_
  have hv : (dk.storable) = true := hw
  simp [decodeL, amoOp, unpack_pack_of, hv]
theorem ldv (d a : Fin 32) (ls : Fin 64) (l : Landing) (dk : DKind2) (q : VOrd) : Statement (.ldv d a ls l dk q) := by
  refine of_l rfl rfl (by simp) (pack_lt _) fun hw => ?_
  have hv : (l.due != 0#12) = true := hw
  try simp at hv
  simp [decodeL, amoOp, unpack_pack_of, hv]
theorem stv (d a : Fin 32) (off : Option (BitVec 16)) (dk : DKind) (q : VOrd) : Statement (.stv d a off dk q) := by
  refine of_l rfl rfl (by simp) (pack_lt _) fun hw => ?_
  have hv : (dk.storable) = true := hw
  simp [decodeL, amoOp, unpack_pack_of, hv]
theorem amoAdd (d a : Fin 32) (ls : Fin 64) (l : Landing) (q : Option Scope) : Statement (.amoAdd d a ls l q) := by
  refine of_l rfl rfl (by simp) (pack_lt _) fun hw => ?_
  have hv : (l.due != 0#12) = true := hw
  try simp at hv
  simp [decodeL, amoOp, unpack_pack_of, hv]
theorem amoAnd (d a : Fin 32) (ls : Fin 64) (l : Landing) (q : Option Scope) : Statement (.amoAnd d a ls l q) := by
  refine of_l rfl rfl (by simp) (pack_lt _) fun hw => ?_
  have hv : (l.due != 0#12) = true := hw
  try simp at hv
  simp [decodeL, amoOp, unpack_pack_of, hv]
theorem amoOr (d a : Fin 32) (ls : Fin 64) (l : Landing) (q : Option Scope) : Statement (.amoOr d a ls l q) := by
  refine of_l rfl rfl (by simp) (pack_lt _) fun hw => ?_
  have hv : (l.due != 0#12) = true := hw
  try simp at hv
  simp [decodeL, amoOp, unpack_pack_of, hv]
theorem amoXor (d a : Fin 32) (ls : Fin 64) (l : Landing) (q : Option Scope) : Statement (.amoXor d a ls l q) := by
  refine of_l rfl rfl (by simp) (pack_lt _) fun hw => ?_
  have hv : (l.due != 0#12) = true := hw
  try simp at hv
  simp [decodeL, amoOp, unpack_pack_of, hv]
theorem amoMax (d a : Fin 32) (ls : Fin 64) (l : Landing) (q : Option Scope) : Statement (.amoMax d a ls l q) := by
  refine of_l rfl rfl (by simp) (pack_lt _) fun hw => ?_
  have hv : (l.due != 0#12) = true := hw
  try simp at hv
  simp [decodeL, amoOp, unpack_pack_of, hv]
theorem amoMin (d a : Fin 32) (ls : Fin 64) (l : Landing) (q : Option Scope) : Statement (.amoMin d a ls l q) := by
  refine of_l rfl rfl (by simp) (pack_lt _) fun hw => ?_
  have hv : (l.due != 0#12) = true := hw
  try simp at hv
  simp [decodeL, amoOp, unpack_pack_of, hv]
theorem amoMaxn (d a : Fin 32) (ls : Fin 64) (l : Landing) (q : Option Scope) : Statement (.amoMaxn d a ls l q) := by
  refine of_l rfl rfl (by simp) (pack_lt _) fun hw => ?_
  have hv : (l.due != 0#12) = true := hw
  try simp at hv
  simp [decodeL, amoOp, unpack_pack_of, hv]
theorem amoSwap (d a : Fin 32) (ls : Fin 64) (l : Landing) (q : Option Scope) : Statement (.amoSwap d a ls l q) := by
  refine of_l rfl rfl (by simp) (pack_lt _) fun hw => ?_
  have hv : (l.due != 0#12) = true := hw
  try simp at hv
  simp [decodeL, amoOp, unpack_pack_of, hv]
theorem cas (d a : Fin 32) (ls : Fin 64) (l : Landing) (q : CasQual) : Statement (.cas d a ls l q) := by
  refine of_l rfl rfl (by simp) (pack_lt _) fun hw => ?_
  have hv : (d.val % 2 == 0 && l.due != 0#12) = true := hw
  try simp at hv
  simp [decodeL, amoOp, unpack_pack_of, hv]
theorem fenceAcq (s : Fin 5) : Statement (.fenceAcq s) := by
  refine of_l rfl rfl (by simp) (pack_lt _) fun hw => ?_
  simp [decodeL, amoOp, unpack_pack_of]
theorem fenceRel (s : Fin 5) : Statement (.fenceRel s) := by
  refine of_l rfl rfl (by simp) (pack_lt _) fun hw => ?_
  simp [decodeL, amoOp, unpack_pack_of]
theorem fenceAr (s : Fin 5) : Statement (.fenceAr s) := by
  refine of_l rfl rfl (by simp) (pack_lt _) fun hw => ?_
  simp [decodeL, amoOp, unpack_pack_of]
theorem sti (d a : Fin 32) (off : Option (BitVec 16)) (dk : DKind) : Statement (.sti d a off dk) := by
  refine of_l rfl rfl (by simp) (pack_lt _) fun hw => ?_
  have hv : (dk.isp) = true := hw
  simp [decodeL, amoOp, unpack_pack_of, hv]
theorem lget (ls : Fin 64) (p : Fin 8) : Statement (.lget ls p) := by
  refine of_l rfl rfl (by simp) (pack_lt _) fun hw => ?_
  simp [decodeL, amoOp, unpack_pack_of]
theorem lwait (ls : Fin 64) : Statement (.lwait ls) := by
  refine of_l rfl rfl (by simp) (pack_lt _) fun hw => ?_
  simp [decodeL, amoOp, unpack_pack_of]
theorem zline (a : Fin 32) (off : Option (BitVec 16)) : Statement (.zline a off) := by
  refine of_l rfl rfl (by simp) (packA_lt _ _ _ _ _) fun hw => ?_
  simp [decodeL, amoOp, packA, unpack_pack_of]
theorem pref (a : Fin 32) (off : Option (BitVec 16)) (ef : Bool) : Statement (.pref a off ef) := by
  refine of_l rfl rfl (by simp) (pack_lt _) fun hw => ?_
  cases ef <;> simp [decodeL, amoOp, unpack_pack_of]
theorem launch (a : Fin 32) (o : SOpd) : Statement (.launch a o) := by
  refine of_l rfl rfl (by simp) (packA_lt _ _ _ _ _) fun hw => ?_
  simp [decodeL, amoOp, unpack_pack_of]
theorem evpost (a : Fin 32) (code : Option (BitVec 16)) : Statement (.evpost a code) := by
  refine of_l rfl rfl (by simp) (packA_lt _ _ _ _ _) fun hw => ?_
  simp [decodeL, amoOp, unpack_pack_of]
theorem snd (src : XSrc) (dst : Fin 128) : Statement (.snd src dst) := by
  refine of_x rfl rfl (by simp) (pack_lt _) fun hw => ?_
  simp [decodeX, unpack_pack_of]
theorem rcv (dst : XSrc) (src : Fin 128) : Statement (.rcv dst src) := by
  refine of_x rfl rfl (by simp) (pack_lt _) fun hw => ?_
  simp [decodeX, unpack_pack_of]
theorem bcst (src : XSrc) (col : Bool) : Statement (.bcst src col) := by
  refine of_x rfl rfl (by simp) (pack_lt _) fun hw => ?_
  simp [decodeX, unpack_pack_of]
theorem sndr (src : RSrc) (ta : Fin 32) (dst : Fin 128) (rty : Fin 4) (isMax : Bool) (sem : Fin 16) : Statement (.sndr src ta dst rty isMax sem) := by
  refine of_x rfl rfl (by simp) (pack_lt _) fun hw => ?_
  have hv : (!(rty == 3 && src.kind != 2)) = true := hw
  simp at hv
  have e1 : sem.val % 65536 = sem.val := by omega
  have e2 : src.kind % 4 = src.kind := by cases src with
    | v f r => cases f <;> rfl
    | tsp r => rfl
  have e4 := rsrc?_code src
  have e3 : rty.val = 3 ↔ rty = 3 := by omega
  simp [decodeX, unpack_pack_of, e1, e4, fin?_val, e3]
  rw [e2]
  exact fun h => hv.resolve_left (fun k => k h)
theorem semw (p : Fin 8) (sem : Fin 16) (n : BitVec 8) : Statement (.semw p sem n) := by
  refine of_x rfl rfl (by simp) (pack_lt _) fun hw => ?_
  have hv : (n != 0#8) = true := hw
  simp at hv
  simp [decodeX, unpack_pack_of]
  exact fun h => hv (BitVec.eq_of_toNat_eq (by simpa using h))
theorem semp (d : Fin 32) (sem : Fin 16) : Statement (.semp d sem) := by
  refine of_x rfl rfl (by simp) (pack_lt _) fun hw => ?_
  simp [decodeX, unpack_pack_of]
theorem semi (sem : Fin 16) (a : Fin 32) : Statement (.semi sem a) := by
  refine of_x rfl rfl (by simp) (pack_lt _) fun hw => ?_
  simp [decodeX, unpack_pack_of]
theorem semv (sem : Fin 16) (dst : Fin 128) (n : BitVec 8) : Statement (.semv sem dst n) := by
  refine of_x rfl rfl (by simp) (pack_lt _) fun hw => ?_
  have hv : (n != 0#8) = true := hw
  simp at hv
  simp [decodeX, unpack_pack_of]
  exact fun h => hv (BitVec.eq_of_toNat_eq (by simpa using h))
theorem xfar (k : Fin 3) (r fa : Fin 32) (sem : Fin 16) : Statement (.xfar k r fa sem) := by
  refine of_x rfl rfl (by simp) (pack_lt _) fun hw => ?_
  simp [decodeX, unpack_pack_of]
theorem xrcvf (d a : Fin 32) (ls : Fin 64) (l : Landing) (dk : DKind2) (sem : Fin 16) : Statement (.xrcvf d a ls l dk sem) := by
  refine of_x rfl rfl (by simp) (pack_lt _) fun hw => ?_
  have hv : (l.due != 0#12) = true := hw
  try simp at hv
  simp [decodeX, unpack_pack_of, hv]
theorem ceGo (tp : Fin 32) (rs : RecSrc) : Statement (.ceGo tp rs) := by
  refine of_d rfl rfl (by simp) (pack_lt _) fun hw => ?_
  simp [decodeD, ceRec, unpack_pack_of]
theorem ceGor (tp : Fin 32) (rs : RecSrc) : Statement (.ceGor tp rs) := by
  refine of_d rfl rfl (by simp) (pack_lt _) fun hw => ?_
  simp [decodeD, ceRec, unpack_pack_of]
theorem ceGat (tp : Fin 32) (rs : RecSrc) : Statement (.ceGat tp rs) := by
  refine of_d rfl rfl (by simp) (pack_lt _) fun hw => ?_
  simp [decodeD, ceRec, unpack_pack_of]
theorem ceSca (tp : Fin 32) (rs : RecSrc) : Statement (.ceSca tp rs) := by
  refine of_d rfl rfl (by simp) (pack_lt _) fun hw => ?_
  simp [decodeD, ceRec, unpack_pack_of]
theorem ceFill (tp : Fin 32) (rs : RecSrc) : Statement (.ceFill tp rs) := by
  refine of_d rfl rfl (by simp) (pack_lt _) fun hw => ?_
  simp [decodeD, ceRec, unpack_pack_of]
theorem ceRed (tp : Fin 32) (rs : RecSrc) : Statement (.ceRed tp rs) := by
  refine of_d rfl rfl (by simp) (pack_lt _) fun hw => ?_
  simp [decodeD, ceRec, unpack_pack_of]
theorem ceIsp (tp : Fin 32) (rs : RecSrc) : Statement (.ceIsp tp rs) := by
  refine of_d rfl rfl (by simp) (pack_lt _) fun hw => ?_
  simp [decodeD, ceRec, unpack_pack_of]
theorem ceRep (tp ts : Fin 32) : Statement (.ceRep tp ts) := by
  refine of_d rfl rfl (by simp) (pack_lt _) fun hw => ?_
  simp [decodeD, ceRec, unpack_pack_of]
theorem ceCan (k : Fin 32) : Statement (.ceCan k) := by
  refine of_d rfl rfl (by simp) (pack_lt _) fun hw => ?_
  simp [decodeD, ceRec, unpack_pack_of]
theorem ceStatSt (d k : Fin 32) : Statement (.ceStatSt d k) := by
  refine of_d rfl rfl (by simp) (pack_lt _) fun hw => ?_
  simp [decodeD, ceRec, unpack_pack_of]
theorem ceStatBytes (d k : Fin 32) : Statement (.ceStatBytes d k) := by
  refine of_d rfl rfl (by simp) (pack_lt _) fun hw => ?_
  simp [decodeD, ceRec, unpack_pack_of]
theorem ceStatEv (d k : Fin 32) : Statement (.ceStatEv d k) := by
  refine of_d rfl rfl (by simp) (pack_lt _) fun hw => ?_
  simp [decodeD, ceRec, unpack_pack_of]
theorem ceStatCrc (d k : Fin 32) : Statement (.ceStatCrc d k) := by
  refine of_d rfl rfl (by simp) (pack_lt _) fun hw => ?_
  simp [decodeD, ceRec, unpack_pack_of]
theorem ceStatTag (d k : Fin 32) : Statement (.ceStatTag d k) := by
  refine of_d rfl rfl (by simp) (pack_lt _) fun hw => ?_
  simp [decodeD, ceRec, unpack_pack_of]
theorem transferStart (n : Fin 128) (k : Fin 32) : Statement (.transferStart n k) := of_none rfl
theorem chunkComplete (n : Fin 128) (k : Fin 32) : Statement (.chunkComplete n k) := of_none rfl
theorem dueResultWrite (n : Fin 128) : Statement (.dueResultWrite n) := of_none rfl
theorem timedAccessPerform (n : Fin 128) : Statement (.timedAccessPerform n) := of_none rfl
theorem landingDue (n : Fin 128) (ls : Fin 64) : Statement (.landingDue n ls) := of_none rfl
theorem landingArrival (n : Fin 128) (ls : Fin 64) : Statement (.landingArrival n ls) := of_none rfl
theorem beatArrival (h : Nat) : Statement (.beatArrival h) := of_none rfl
theorem barrierArrival (n : Fin 128) (g : Fin 8) : Statement (.barrierArrival n g) := of_none rfl
theorem barrierRelease (h : Nat) (g : Fin 8) : Statement (.barrierRelease h g) := of_none rfl
theorem timingFault (h : Nat) (sub : BitVec 4) : Statement (.timingFault h sub) := of_none rfl
theorem globalAccessPerform (n : Fin 128) (i : Nat) : Statement (.globalAccessPerform n i) := of_none rfl
theorem lateralAccessPerform (n : Fin 128) (i : Nat) : Statement (.lateralAccessPerform n i) := of_none rfl
theorem outboundAccept (n : Fin 128) (i : Nat) : Statement (.outboundAccept n i) := of_none rfl
theorem sndrAddition (n : Fin 128) (i : Nat) : Statement (.sndrAddition n i) := of_none rfl
theorem semvIncrement (n : Fin 128) (i : Nat) : Statement (.semvIncrement n i) := of_none rfl
theorem xfarDelivery (i : Nat) : Statement (.xfarDelivery i) := of_none rfl
theorem xrcvfTake (n : Fin 128) (i : Nat) : Statement (.xrcvfTake n i) := of_none rfl
theorem cutStart (h : Nat) : Statement (.cutStart h) := of_none rfl
theorem cutComplete (h : Nat) : Statement (.cutComplete h) := of_none rfl
theorem serviceCoreEventEntry (q : Fin 32) : Statement (.serviceCoreEventEntry q) := of_none rfl
theorem tsr (d a : Fin 32) : Statement (.tsr d a) := by
  refine of_priv rfl rfl (by simp) (pack_lt _) rfl fun hw => ?_
  simp [decodePriv, unpack_pack_of]
theorem tsrP (d a : Fin 32) : Statement (.tsrP d a) := by
  refine of_priv rfl rfl (by simp) (pack_lt _) rfl fun hw => ?_
  simp [decodePriv, unpack_pack_of]
theorem tsw (a b : Fin 32) : Statement (.tsw a b) := by
  refine of_priv rfl rfl (by simp) (pack_lt _) rfl fun hw => ?_
  simp [decodePriv, unpack_pack_of]
theorem tswP (a b : Fin 32) : Statement (.tswP a b) := by
  refine of_priv rfl rfl (by simp) (pack_lt _) rfl fun hw => ?_
  simp [decodePriv, unpack_pack_of]
theorem tresRun (a : Fin 32) : Statement (.tresRun a) := by
  refine of_priv rfl rfl (by simp) (pack_lt _) rfl fun hw => ?_
  simp [decodePriv, unpack_pack_of]
theorem tresStep (a : Fin 32) : Statement (.tresStep a) := by
  refine of_priv rfl rfl (by simp) (pack_lt _) rfl fun hw => ?_
  simp [decodePriv, unpack_pack_of]
theorem tresHalt (a : Fin 32) : Statement (.tresHalt a) := by
  refine of_priv rfl rfl (by simp) (pack_lt _) rfl fun hw => ?_
  simp [decodePriv, unpack_pack_of]
theorem tresLock (a : Fin 32) : Statement (.tresLock a) := by
  refine of_priv rfl rfl (by simp) (pack_lt _) rfl fun hw => ?_
  simp [decodePriv, unpack_pack_of]
theorem tabt (a : Fin 32) : Statement (.tabt a) := by
  refine of_priv rfl rfl (by simp) (pack_lt _) rfl fun hw => ?_
  simp [decodePriv, unpack_pack_of]
theorem tabtReplay (a : Fin 32) : Statement (.tabtReplay a) := by
  refine of_priv rfl rfl (by simp) (pack_lt _) rfl fun hw => ?_
  simp [decodePriv, unpack_pack_of]
theorem tsnapDesc (d a b : Fin 32) : Statement (.tsnapDesc d a b) := by
  refine of_priv rfl rfl (by simp) (pack_lt _) rfl fun hw => ?_
  simp [decodePriv, unpack_pack_of]
theorem tsnapAddr (d a b : Fin 32) : Statement (.tsnapAddr d a b) := by
  refine of_priv rfl rfl (by simp) (pack_lt _) rfl fun hw => ?_
  simp [decodePriv, unpack_pack_of]
theorem tsnapVal (d a b : Fin 32) : Statement (.tsnapVal d a b) := by
  refine of_priv rfl rfl (by simp) (pack_lt _) rfl fun hw => ?_
  simp [decodePriv, unpack_pack_of]
theorem tsnapDrop (a b : Fin 32) : Statement (.tsnapDrop a b) := by
  refine of_priv rfl rfl (by simp) (pack_lt _) rfl fun hw => ?_
  simp [decodePriv, unpack_pack_of]
theorem selw (a b : Fin 32) : Statement (.selw a b) := by
  refine of_priv rfl rfl (by simp) (pack_lt _) rfl fun hw => ?_
  simp [decodePriv, unpack_pack_of]
theorem tlbiPage (a : Fin 32) : Statement (.tlbiPage a) := by
  refine of_priv rfl rfl (by simp) (pack_lt _) rfl fun hw => ?_
  simp [decodePriv, unpack_pack_of]
theorem tlbiPasid (a : Fin 32) : Statement (.tlbiPasid a) := by
  refine of_priv rfl rfl (by simp) (pack_lt _) rfl fun hw => ?_
  simp [decodePriv, unpack_pack_of]
theorem tlbiBolt (a : Fin 32) : Statement (.tlbiBolt a) := by
  refine of_priv rfl rfl (by simp) (pack_lt _) rfl fun hw => ?_
  simp [decodePriv, unpack_pack_of]
theorem tlbs (d : Fin 32) : Statement (.tlbs d) := by
  refine of_priv rfl rfl (by simp) (pack_lt _) rfl fun hw => ?_
  simp [decodePriv, unpack_pack_of]
theorem ctxs (d a b : Fin 32) : Statement (.ctxs d a b) := by
  refine of_priv rfl rfl (by simp) (pack_lt _) rfl fun hw => ?_
  simp [decodePriv, unpack_pack_of]
theorem ctxl (d a b : Fin 32) : Statement (.ctxl d a b) := by
  refine of_priv rfl rfl (by simp) (pack_lt _) rfl fun hw => ?_
  simp [decodePriv, unpack_pack_of]
theorem trpret : Statement (.trpret) := by
  refine of_priv rfl rfl (by simp) (pack_lt _) rfl fun hw => ?_
  simp [decodePriv, unpack_pack_of]
theorem fqpopTrap (d a : Fin 32) : Statement (.fqpopTrap d a) := by
  refine of_priv rfl rfl (by simp) (pack_lt _) rfl fun hw => ?_
  simp [decodePriv, unpack_pack_of]
theorem fqpopFault (d a : Fin 32) : Statement (.fqpopFault d a) := by
  refine of_priv rfl rfl (by simp) (pack_lt _) rfl fun hw => ?_
  simp [decodePriv, unpack_pack_of]
theorem fqpopPlc (d a : Fin 32) : Statement (.fqpopPlc d a) := by
  refine of_priv rfl rfl (by simp) (pack_lt _) rfl fun hw => ?_
  simp [decodePriv, unpack_pack_of]
theorem plcVcreate (c : Caller) (arg : BitVec 64) : Statement (.plcVcreate c arg) := of_none rfl
theorem plcVdestroy (c : Caller) (arg : BitVec 64) : Statement (.plcVdestroy c arg) := of_none rfl
theorem plcSpoolset (c : Caller) (arg : BitVec 64) : Statement (.plcSpoolset c arg) := of_none rfl
theorem plcRadmit (c : Caller) (arg : BitVec 64) : Statement (.plcRadmit c arg) := of_none rfl
theorem plcRremove (c : Caller) (arg : BitVec 64) : Statement (.plcRremove c arg) := of_none rfl
theorem plcEvict (c : Caller) (arg : BitVec 64) : Statement (.plcEvict c arg) := of_none rfl
theorem plcAge (c : Caller) (arg : BitVec 64) : Statement (.plcAge c arg) := of_none rfl
theorem mcRead (c : Caller) (arg : BitVec 64) : Statement (.mcRead c arg) := of_none rfl
theorem mcWrite (c : Caller) (arg : BitVec 64) : Statement (.mcWrite c arg) := of_none rfl
theorem mcClear (c : Caller) (arg : BitVec 64) : Statement (.mcClear c arg) := of_none rfl
theorem mcFence (c : Caller) (arg : BitVec 64) : Statement (.mcFence c arg) := of_none rfl
theorem mcLogread (c : Caller) (arg : BitVec 64) : Statement (.mcLogread c arg) := of_none rfl
theorem mcLog (c : Caller) (arg : BitVec 64) : Statement (.mcLog c arg) := of_none rfl
theorem mcBoltset (c : Caller) (arg : BitVec 64) : Statement (.mcBoltset c arg) := of_none rfl
theorem mcCollapse (c : Caller) (arg : BitVec 64) : Statement (.mcCollapse c arg) := of_none rfl
theorem mcAppeal (c : Caller) (arg : BitVec 64) : Statement (.mcAppeal c arg) := of_none rfl
theorem mcUpdstage (c : Caller) (arg : BitVec 64) : Statement (.mcUpdstage c arg) := of_none rfl
theorem mcUpdcommit (c : Caller) (arg : BitVec 64) : Statement (.mcUpdcommit c arg) := of_none rfl
theorem placerTick (b : Fin 32) : Statement (.placerTick b) := of_none rfl
theorem launchRelease (v : Nat) (sp : Fin 16) : Statement (.launchRelease v sp) := of_none rfl
theorem gangPlace (b : Fin 32) : Statement (.gangPlace b) := of_none rfl
theorem clearance (b : Fin 32) : Statement (.clearance b) := of_none rfl
theorem backfillWcrtExpiry (v l : Nat) : Statement (.backfillWcrtExpiry v l) := of_none rfl
theorem budgetOverrun (r : Nat) : Statement (.budgetOverrun r) := of_none rfl
theorem deadlineMiss (r : Nat) : Statement (.deadlineMiss r) := of_none rfl
theorem preloadStart (h : Nat) : Statement (.preloadStart h) := of_none rfl
theorem evictionAtStitch (h : Nat) : Statement (.evictionAtStitch h) := of_none rfl
theorem quiesceEnd (h : Nat) : Statement (.quiesceEnd h) := of_none rfl
theorem contextSaveComplete (h : Nat) : Statement (.contextSaveComplete h) := of_none rfl
theorem windowDrainComplete (n : Fin 128) : Statement (.windowDrainComplete n) := of_none rfl
theorem contextRestore (h : Nat) : Statement (.contextRestore h) := of_none rfl
theorem periodicStitchSave (h : Nat) : Statement (.periodicStitchSave h) := of_none rfl
theorem sptailWrite (req : PageReq) (v : Nat) (sp : Fin 16) (x : BitVec 32) : Statement (.sptailWrite req v sp x) := of_none rfl
theorem launchSubmission (n : Fin 128) (i : Nat) : Statement (.launchSubmission n i) := of_none rfl
theorem recordAccept (v : Nat) (sp : Fin 16) : Statement (.recordAccept v sp) := of_none rfl
theorem evpostDeliver (n : Fin 128) (i : Nat) : Statement (.evpostDeliver n i) := of_none rfl
theorem completionRecordWrite (v : Nat) : Statement (.completionRecordWrite v) := of_none rfl
theorem wakeWrite (req : PageReq) (v : Nat) (x : BitVec 32) : Statement (.wakeWrite req v x) := of_none rfl
theorem vstatWrite (req : PageReq) (v : Nat) (x : BitVec 32) : Statement (.vstatWrite req v x) := of_none rfl
theorem ltfreeWrite (req : PageReq) (v : Nat) (x : BitVec 32) : Statement (.ltfreeWrite req v x) := of_none rfl
theorem registerWrite (req : PageReq) (r : HostReg) (x : BitVec 64) : Statement (.registerWrite req r x) := of_none rfl
theorem fbindWrite (port : Fin 2) (f : Fin 249) (x : BitVec 32) : Statement (.fbindWrite port f x) := of_none rfl
theorem windowDescriptorWrite (port : Fin 2) (w : Fin 996) (lo hi : BitVec 64) : Statement (.windowDescriptorWrite port w lo hi) := of_none rfl
theorem leasexWrite (port : Fin 2) (x : BitVec 64) : Statement (.leasexWrite port x) := of_none rfl
theorem leasectlWrite (port : Fin 2) (x : BitVec 32) : Statement (.leasectlWrite port x) := of_none rfl
theorem leaseTakeover : Statement (.leaseTakeover) := of_none rfl
theorem hostWindowRead (port : Fin 2) (f : Fin 249) (x n : Nat) (tbit : Option Nat) : Statement (.hostWindowRead port f x n tbit) := of_none rfl
theorem hostWindowWrite (port : Fin 2) (f : Fin 249) (x : Nat) (data : List (BitVec 8)) (tbit : Option Nat) : Statement (.hostWindowWrite port f x data tbit) := of_none rfl
theorem cxlMemAccess (port : Fin 2) (hpa n : Nat) (data : Option (List (BitVec 8))) : Statement (.cxlMemAccess port hpa n data) := of_none rfl
theorem functionLevelReset (port : Fin 2) (f : Fin 249) : Statement (.functionLevelReset port f) := of_none rfl
theorem faultRetry (b : Fin 32) : Statement (.faultRetry b) := of_none rfl
theorem faultTimeout (b : Fin 32) (id : Nat) : Statement (.faultTimeout b id) := of_none rfl
theorem invalidationComplete (q : Fin 32) (i : Nat) : Statement (.invalidationComplete q i) := of_none rfl
theorem atsTranslationCompletion (port : Fin 2) (i : Nat) (ans : AtsAnswer) : Statement (.atsTranslationCompletion port i ans) := of_none rfl
theorem pageRequestSend (port : Fin 2) (prgi : Nat) : Statement (.pageRequestSend port prgi) := of_none rfl
theorem prgResponse (port : Fin 2) (prgi : Nat) (code : PrgCode) : Statement (.prgResponse port prgi code) := of_none rfl
theorem atsInvalidationRequest (port : Fin 2) (pasid upage n : Nat) : Statement (.atsInvalidationRequest port pasid upage n) := of_none rfl
theorem atsInvalidationComplete (port : Fin 2) (i : Nat) : Statement (.atsInvalidationComplete port i) := of_none rfl
theorem spdmNegotiateAlgorithms (port : Fin 2) (offers : SpdmOffer) : Statement (.spdmNegotiateAlgorithms port offers) := of_none rfl
theorem spdmChallenge (port : Fin 2) : Statement (.spdmChallenge port) := of_none rfl
theorem spdmGetMeasurements (req : MeasReq) : Statement (.spdmGetMeasurements req) := of_none rfl
theorem spdmKeyExchange (port : Fin 2) : Statement (.spdmKeyExchange port) := of_none rfl
theorem spdmHeartbeat (port : Fin 2) (id : Nat) : Statement (.spdmHeartbeat port id) := of_none rfl
theorem spdmKeyUpdate (port : Fin 2) (id : Nat) : Statement (.spdmKeyUpdate port id) := of_none rfl
theorem spdmEndSession (port : Fin 2) (id : Nat) : Statement (.spdmEndSession port id) := of_none rfl
theorem sessionExpiry (port : Fin 2) (id : Nat) : Statement (.sessionExpiry port id) := of_none rfl
theorem ideKmKeyProg (port : Fin 2) (id stream : Nat) (tx : Bool) : Statement (.ideKmKeyProg port id stream tx) := of_none rfl
theorem ideKmKSetGo (port : Fin 2) (id stream : Nat) : Statement (.ideKmKSetGo port id stream) := of_none rfl
theorem ideIntegrityFailure (port : Fin 2) (stream : Nat) : Statement (.ideIntegrityFailure port stream) := of_none rfl
theorem lockInterface (via : SecReq) (stream : Nat) (f : Fin 249) : Statement (.lockInterface via stream f) := of_none rfl
theorem startInterface (port : Fin 2) (id stream : Nat) (f : Fin 249) : Statement (.startInterface port id stream f) := of_none rfl
theorem stopInterface (via : SecReq) (f : Fin 249) : Statement (.stopInterface via f) := of_none rfl
theorem seamFlitReceive (p : Fin 8) (fl : FlitIn) : Statement (.seamFlitReceive p fl) := of_none rfl
theorem seamAckReceive (p : Fin 8) (seq : Nat) : Statement (.seamAckReceive p seq) := of_none rfl
theorem seamNakReceive (p : Fin 8) (seq : Nat) : Statement (.seamNakReceive p seq) := of_none rfl
theorem seamAckTimeout (p : Fin 8) : Statement (.seamAckTimeout p) := of_none rfl
theorem linkRetrain (p : Fin 8) : Statement (.linkRetrain p) := of_none rfl
theorem retrainEnd (p : Fin 8) (ok : Bool) : Statement (.retrainEnd p ok) := of_none rfl
theorem tackSend (n : Fin 128) : Statement (.tackSend n) := of_none rfl
theorem tackReceive (n : Fin 128) (d : Fin 4) (tk : TackIn) : Statement (.tackReceive n d tk) := of_none rfl
theorem tackMiss (n : Fin 128) (d : Fin 4) : Statement (.tackMiss n d) := of_none rfl
theorem babblingSuspicion (n : Fin 128) (d : Fin 4) (c : Babble) : Statement (.babblingSuspicion n d c) := of_none rfl
theorem voteFlitReceive (n suspect : Fin 128) (voter : Voter) (relay withdraw reinst : Bool) : Statement (.voteFlitReceive n suspect voter relay withdraw reinst) := of_none rfl
theorem voteExpiry (n : Fin 128) (suspect voter : Fin 128) : Statement (.voteExpiry n suspect voter) := of_none rfl
theorem fenceFlitReceive (n : Fin 128) (suspect : Fin 128) : Statement (.fenceFlitReceive n suspect) := of_none rfl
theorem selftestComplete (n : Fin 128) (pass : Bool) : Statement (.selftestComplete n pass) := of_none rfl
theorem reinstatementVote (n : Fin 128) (d : Fin 4) : Statement (.reinstatementVote n d) := of_none rfl
theorem unfenceFlitReceive (n : Fin 128) (suspect : Fin 128) : Statement (.unfenceFlitReceive n suspect) := of_none rfl
theorem patrolScrub : Statement (.patrolScrub) := of_none rfl
theorem pfailAssert : Statement (.pfailAssert) := of_none rfl
theorem checkpointSaveDeadline : Statement (.checkpointSaveDeadline) := of_none rfl
theorem checkpointComplete : Statement (.checkpointComplete) := of_none rfl
theorem pfailDeassert : Statement (.pfailDeassert) := of_none rfl
theorem retokLow : Statement (.retokLow) := of_none rfl
theorem powerReturnResume : Statement (.powerReturnResume) := of_none rfl
theorem dormantEntry : Statement (.dormantEntry) := of_none rfl
theorem dormantWake : Statement (.dormantWake) := of_none rfl
theorem collapseDelayExpiry (v : Nat) : Statement (.collapseDelayExpiry v) := of_none rfl
theorem collapseComplete (v : Nat) : Statement (.collapseComplete v) := of_none rfl
theorem wakeComplete (v : Nat) : Statement (.wakeComplete v) := of_none rfl
theorem thermalThreshold (q : Fin 32) : Statement (.thermalThreshold q) := of_none rfl
theorem thermalResume : Statement (.thermalResume) := of_none rfl
theorem ptpMessage (port : Fin 3) (off : Int) (ppb : Int) : Statement (.ptpMessage port off ppb) := of_none rfl
theorem powerOnReset : Statement (.powerOnReset) := of_none rfl
theorem dccHoldoverEntry : Statement (.dccHoldoverEntry) := of_none rfl
theorem priEnable (port : Fin 2) (f : Fin 249) : Statement (.priEnable port f) := of_none rfl
theorem msixVectorUnmask (port : Fin 2) (f : Fin 249) (vec : Nat) : Statement (.msixVectorUnmask port f vec) := of_none rfl
theorem cxlCacheSnoop (port : Fin 2) (addr : Nat) (inv : Bool) : Statement (.cxlCacheSnoop port addr inv) := of_none rfl

end Laws.RoundTrip

end Sys2Proof
end

