-- ==== Sys2Proof/Tests/Slice0.lean ====
section
/-! SUPPORT. Tests: words written out from the encoding tables, ill-formed terms, and for every statement small states that meet its
hypotheses at the ends of their ranges. -/

set_option Elab.async false
set_option maxRecDepth 8000

namespace Sys2Proof.Tests
open Sys2Proof Sys2Proof.Machine

/-! Decoding -/

/-- Words of control operations, each field placed by the tables of its section, decode to their operations. -/
theorem test_decodeControl1 :
    decodeWords false [0x00000001, 0x043FFFFC] = some (.br 4194300#22)
    ∧ decodeWords false [0x00000001, 0x08005000] = some (.jr 5 none)
    ∧ decodeWords false [0x000C0801, 0x08005040] = some (.jr 5 (some 12#16))
    ∧ decodeWords false [0x00000001, 0x0C000007] = some (.call 7#22)
    ∧ decodeWords false [0x00000001, 0x10000000] = some (.ret)
    ∧ decodeWords false [0x00000001, 0x14003005] = some (.loop 3 5#12)
    ∧ decodeWords false [0x00030801, 0x18000040] = some (.loopi 64#17 3#16)
    ∧ decodeWords false [0x00000001, 0x1C000000] = some (.lbrk)
    ∧ decodeWords false [0x00000001, 0x20000000] = some (.lnext)
    ∧ decodeWords false [0x00000001, 0x243FFFFF] = some (.swapb 4194303#22)
    ∧ decodeWords false [0x00000001, 0x28000000] = some (.ifence)
    ∧ decodeWords false [0x00030801, 0x2C020803] = some (.stitch 133123#21 3#16) := by
  decide +kernel

/-- Words of control operations, each field placed by the tables of its section, decode to their operations. -/
theorem test_decodeControl2 :
    decodeWords false [0x00000001, 0x30004FFE] = some (.chkp .s 4 4094#12)
    ∧ decodeWords false [0x00000001, 0x30083002] = some (.chkp .z 3 2#12)
    ∧ decodeWords false [0x00000001, 0x34000004] = some (.tkw 4)
    ∧ decodeWords false [0x00000001, 0x38100004] = some (.tkpPend 2 4)
    ∧ decodeWords false [0x00000001, 0x38100024] = some (.tkpDone 2 4)
    ∧ decodeWords false [0x00000001, 0x38100044] = some (.tkpPart 2 4)
    ∧ decodeWords false [0x00000001, 0x38100064] = some (.tkpFail 2 4)
    ∧ decodeWords false [0x00000001, 0x38100084] = some (.tkpFree 2 4)
    ∧ decodeWords false [0x00000001, 0x381000A4] = some (.tkpRes 2 4)
    ∧ decodeWords false [0x00000001, 0x3C0000C3] = some (.vclust 12#4 3#4)
    ∧ decodeWords false [0x00000001, 0x40000000] = some (.halt)
    ∧ decodeWords false [0x00000001, 0x4401ABCD] = some (.trap 109517#17) := by
  decide +kernel

/-- Words of control operations, each field placed by the tables of its section, decode to their operations. -/
theorem test_decodeControl3 :
    decodeWords false [0x00000001, 0x48000009] = some (.brk 9#17)
    ∧ decodeWords false [0x00000001, 0x4C064280] = some (.kadd 3 4 (.reg 5))
    ∧ decodeWords false [0x00010801, 0x4C063040] = some (.kadd 3 3 (.imm 1#16))
    ∧ decodeWords false [0x00000001, 0x50040064] = some (.kli 2 100#17)
    ∧ decodeWords false [0x00000001, 0x5409D000] = some (.kmov 4 29)
    ∧ decodeWords false [0x00000001, 0x5409D001] = some (.kmovHi 4 29)
    ∧ decodeWords false [0x00000001, 0x58061100] = some (.psetAnd 3 1 2)
    ∧ decodeWords false [0x00000001, 0x58061101] = some (.psetOr 3 1 2)
    ∧ decodeWords false [0x00000001, 0x58061102] = some (.psetXor 3 1 2)
    ∧ decodeWords false [0x00000001, 0x58061103] = some (.psetAndn 3 1 2)
    ∧ decodeWords false [0x00000001, 0x58061104] = some (.psetOrn 3 1 2)
    ∧ decodeWords false [0x00000001, 0x58064290] = some (.psetEq 3 4 (.reg 5)) := by
  decide +kernel

/-- Words of control operations, each field placed by the tables of its section, decode to their operations. -/
theorem test_decodeControl4 :
    decodeWords false [0x000A0801, 0x58064051] = some (.psetNe 3 4 (.imm 10#16))
    ∧ decodeWords false [0x00000001, 0x58064292] = some (.psetLt 3 4 (.reg 5))
    ∧ decodeWords false [0x000A0801, 0x58064053] = some (.psetLtn 3 4 (.imm 10#16))
    ∧ decodeWords false [0x00000001, 0x58064014] = some (.psetNz 3 4)
    ∧ decodeWords false [0x00000001, 0x5C080000] = some (.rdsc 4)
    ∧ decodeWords false [0x00000001, 0x5C080001] = some (.rdscHi 4)
    ∧ decodeWords false [0x00000001, 0x60080000] = some (.rddcc 4)
    ∧ decodeWords false [0x00000001, 0x60080001] = some (.rddccHi 4) := by
  decide +kernel

/-- Words of scalar operations, each field placed by the tables of its section, decode to their operations. -/
theorem test_decodeScalar1 :
    decodeWords false [0x00000002, 0x04064280] = some (.add 3 4 (.reg 5))
    ∧ decodeWords false [0xFFFB0802, 0x08064040] = some (.sub 3 4 (.imm 65531#16))
    ∧ decodeWords false [0x00000002, 0x0C064280] = some (.mul 3 4 (.reg 5))
    ∧ decodeWords false [0xFFFB0802, 0x10064040] = some (.mulh 3 4 (.imm 65531#16))
    ∧ decodeWords false [0x00000002, 0x14064280] = some (.mulhn 3 4 (.reg 5))
    ∧ decodeWords false [0xFFFB0802, 0x18064040] = some (.div 3 4 (.imm 65531#16))
    ∧ decodeWords false [0x00000002, 0x1C064280] = some (.divn 3 4 (.reg 5))
    ∧ decodeWords false [0xFFFB0802, 0x20064040] = some (.rem 3 4 (.imm 65531#16))
    ∧ decodeWords false [0x00000002, 0x24064280] = some (.remn 3 4 (.reg 5))
    ∧ decodeWords false [0xFFFB0802, 0x28064040] = some (.and 3 4 (.imm 65531#16))
    ∧ decodeWords false [0x00000002, 0x2C064280] = some (.or 3 4 (.reg 5))
    ∧ decodeWords false [0xFFFB0802, 0x30064040] = some (.xor 3 4 (.imm 65531#16)) := by
  decide +kernel

/-- Words of scalar operations, each field placed by the tables of its section, decode to their operations. -/
theorem test_decodeScalar2 :
    decodeWords false [0x00000002, 0x34064280] = some (.andn 3 4 (.reg 5))
    ∧ decodeWords false [0xFFFB0802, 0x38064040] = some (.shl 3 4 (.imm 65531#16))
    ∧ decodeWords false [0x00000002, 0x3C064280] = some (.shr 3 4 (.reg 5))
    ∧ decodeWords false [0xFFFB0802, 0x40064040] = some (.sra 3 4 (.imm 65531#16))
    ∧ decodeWords false [0x00000002, 0x44064280] = some (.rot 3 4 (.reg 5))
    ∧ decodeWords false [0x00000002, 0x54064280] = some (.min 3 4 (.reg 5))
    ∧ decodeWords false [0xFFFB0802, 0x58064040] = some (.max 3 4 (.imm 65531#16))
    ∧ decodeWords false [0x00000002, 0x5C064280] = some (.minn 3 4 (.reg 5))
    ∧ decodeWords false [0xFFFB0802, 0x60064040] = some (.maxn 3 4 (.imm 65531#16))
    ∧ decodeWords false [0x00000002, 0x4807F000] = some (.clz 3 31)
    ∧ decodeWords false [0x00000002, 0x4C07F000] = some (.ctz 3 31)
    ∧ decodeWords false [0x00000002, 0x5007F000] = some (.popc 3 31) := by
  decide +kernel

/-- Words of scalar operations, each field placed by the tables of its section, decode to their operations. -/
theorem test_decodeScalar3 :
    decodeWords false [0x00000002, 0x640E4280] = some (.cmpEq 7 4 (.reg 5))
    ∧ decodeWords false [0x00000002, 0x640E4281] = some (.cmpNe 7 4 (.reg 5))
    ∧ decodeWords false [0x00000002, 0x640E4282] = some (.cmpLt 7 4 (.reg 5))
    ∧ decodeWords false [0x000A0802, 0x64022043] = some (.cmpGe 1 2 (.imm 10#16))
    ∧ decodeWords false [0x00000002, 0x640E4284] = some (.cmpLtn 7 4 (.reg 5))
    ∧ decodeWords false [0x00000002, 0x640E4285] = some (.cmpGen 7 4 (.reg 5))
    ∧ decodeWords false [0x00000002, 0x640E4286] = some (.cmpTst 7 4 (.reg 5))
    ∧ decodeWords false [0x00000002, 0x68064286] = some (.sel 3 6 4 (.reg 5))
    ∧ decodeWords false [0x00000002, 0x6C07FFFE] = some (.li 3 131070#17)
    ∧ decodeWords false [0x00000002, 0x7006ABCD] = some (.lih 3 43981#16)
    ∧ decodeWords false [0x00000002, 0x74064280] = some (.bfx 3 4 (.reg 5))
    ∧ decodeWords false [0x07080802, 0x74064041] = some (.bfxS 3 4 (.imm 1800#16)) := by
  decide +kernel

/-- Words of scalar operations, each field placed by the tables of its section, decode to their operations. -/
theorem test_decodeScalar4 :
    decodeWords false [0x00000002, 0x78064280] = some (.bfi 3 4 (.reg 5))
    ∧ decodeWords false [0x00000002, 0x7C064000] = some (.sextB 3 4)
    ∧ decodeWords false [0x00000002, 0x7C064001] = some (.sextH 3 4)
    ∧ decodeWords false [0x00000002, 0x7C064002] = some (.sextW 3 4)
    ∧ decodeWords false [0x00000002, 0x7C064003] = some (.sextBn 3 4)
    ∧ decodeWords false [0x00000002, 0x7C064004] = some (.sextHn 3 4)
    ∧ decodeWords false [0x00000002, 0x7C064005] = some (.sextWn 3 4)
    ∧ decodeWords false [0x00000002, 0x80060002] = some (.widfField 3 2)
    ∧ decodeWords false [0x00000002, 0x80060006] = some (.widfGang 3)
    ∧ decodeWords false [0x00000002, 0x80060007] = some (.widfCut 3)
    ∧ decodeWords false [0x00000002, 0x8406F000] = some (.smovK 3 15)
    ∧ decodeWords false [0x00000002, 0x8407E481] = some (.smovVa 3 30 9) := by
  decide +kernel

/-- Words of scalar operations, each field placed by the tables of its section, decode to their operations. -/
theorem test_decodeScalar5 :
    decodeWords false [0x00000002, 0x8407E482] = some (.smovVb 3 30 9)
    ∧ decodeWords false [0x00000002, 0x84060003] = some (.smovPred 3)
    ∧ decodeWords false [0x00000002, 0x84067004] = some (.smovMa 3 7)
    ∧ decodeWords false [0x00000002, 0x84067005] = some (.smovMb 3 7)
    ∧ decodeWords false [0x00000002, 0x88004030] = some (.mvst 48#10 4)
    ∧ decodeWords false [0x00000002, 0x8C080009] = some (.mvfs 4 9#10)
    ∧ decodeWords false [0x00000002, 0x90065000] = some (.dset 3 5)
    ∧ decodeWords false [0x00000002, 0x90065001] = some (.dsetLo 3 5)
    ∧ decodeWords false [0x00000002, 0x90065002] = some (.dsetHi 3 5) := by
  decide +kernel

/-- Words of vector integer operations, each field placed by the tables of its section, decode to their operations. -/
theorem test_decodeVector1 :
    decodeWords false [0x00000004, 0x040221A8] = some (.vadd .a 1 2 (.reg 3) .i8 5)
    ∧ decodeWords false [0x00000008, 0x080221A9] = some (.vsub .b 1 2 (.reg 3) .n8 5)
    ∧ decodeWords false [0x00030804, 0x0C02206A] = some (.vmul .a 1 2 (.imm 3#16) .i16 5)
    ∧ decodeWords false [0x00000008, 0x100221AB] = some (.vmulh .b 1 2 (.reg 3) .n16 5)
    ∧ decodeWords false [0x00000004, 0x140221AC] = some (.vmin .a 1 2 (.reg 3) .i32 5)
    ∧ decodeWords false [0x00030808, 0x1802206D] = some (.vmax .b 1 2 (.imm 3#16) .n32 5)
    ∧ decodeWords false [0x00000004, 0x340221A8] = some (.vshl .a 1 2 (.reg 3) .i8 5)
    ∧ decodeWords false [0x00000008, 0x380221A9] = some (.vshr .b 1 2 (.reg 3) .n8 5)
    ∧ decodeWords false [0x00030804, 0x3C02206A] = some (.vsra .a 1 2 (.imm 3#16) .i16 5)
    ∧ decodeWords false [0x00000008, 0x480221AB] = some (.vadds .b 1 2 (.reg 3) .n16 5)
    ∧ decodeWords false [0x00000004, 0x4C0221AC] = some (.vsubs .a 1 2 (.reg 3) .i32 5)
    ∧ decodeWords false [0x00000004, 0x1C0C700C] = some (.vabs .a 6 7 .i32 1) := by
  decide +kernel

/-- Words of vector integer operations, each field placed by the tables of its section, decode to their operations. -/
theorem test_decodeVector2 :
    decodeWords false [0x00000008, 0x200C7003] = some (.vneg .b 6 7 .n16 0)
    ∧ decodeWords false [0x00000004, 0x240221A0] = some (.vand .a 1 2 (.reg 3) 4)
    ∧ decodeWords false [0x00090808, 0x28022040] = some (.vor .b 1 2 (.imm 9#16) 0)
    ∧ decodeWords false [0x00000004, 0x2C022180] = some (.vxor .a 1 2 (.reg 3) 0)
    ∧ decodeWords false [0x00000004, 0x30022038] = some (.vnot .a 1 2 7)
    ∧ decodeWords false [0x00000004, 0x5000111D] = some (.vdot4 .a 0 1 2 .ni true 3)
    ∧ decodeWords false [0x00000008, 0x54064290] = some (.vdot8 .b 3 4 5 false 2)
    ∧ decodeWords false [0x00000004, 0x40061100] = some (.vcmpEq .a 3 1 (.reg 2) .i8)
    ∧ decodeWords false [0x00000004, 0x40061109] = some (.vcmpNe .a 3 1 (.reg 2) .n8)
    ∧ decodeWords false [0x00000004, 0x40061112] = some (.vcmpLt .a 3 1 (.reg 2) .i16)
    ∧ decodeWords false [0x00000004, 0x4006111B] = some (.vcmpLe .a 3 1 (.reg 2) .n16)
    ∧ decodeWords false [0x00000004, 0x40061124] = some (.vcmpGt .a 3 1 (.reg 2) .i32) := by
  decide +kernel

/-- Words of vector integer operations, each field placed by the tables of its section, decode to their operations. -/
theorem test_decodeVector3 :
    decodeWords false [0x00000004, 0x4006112D] = some (.vcmpGe .a 3 1 (.reg 2) .n32)
    ∧ decodeWords false [0x00000004, 0x440221A0] = some (.vsel .a 1 2 (.reg 3) 4) := by
  decide +kernel

/-- Words of vector floating-point and conversion operations, each field placed by the tables of its section, decode to their operations. -/
theorem test_decodeVectorFloat1 :
    decodeWords false [0x00000004, 0x58022191] = some (.vfadd .a 1 2 (.reg 3) .fp32 .rtz 1)
    ∧ decodeWords false [0x00000004, 0x5C0221A6] = some (.vfsub .a 1 2 (.reg 3) .fp16 .rdn 2)
    ∧ decodeWords false [0x00000008, 0x600221BB] = some (.vfmul .b 1 2 (.reg 3) .bf16 .rup 3)
    ∧ decodeWords false [0x3F000808, 0x64001048] = some (.vffma .b 0 1 (.imm 16128#16) .bf16 .rne 0)
    ∧ decodeWords false [0x00000004, 0x68084280] = some (.vfmin .a 4 4 (.reg 5) .fp32 0)
    ∧ decodeWords false [0x00000004, 0x6C084284] = some (.vfmax .a 4 4 (.reg 5) .fp16 0)
    ∧ decodeWords false [0x00000004, 0x70022180] = some (.vfsgnJ .a 1 2 (.reg 3) .fp32 0)
    ∧ decodeWords false [0x00000004, 0x70022191] = some (.vfsgnJn .a 1 2 (.reg 3) .fp32 1)
    ∧ decodeWords false [0x00000004, 0x700221A2] = some (.vfsgnJx .a 1 2 (.reg 3) .fp32 2)
    ∧ decodeWords false [0x00000008, 0x74022180] = some (.vfcmpEq .b 1 2 (.reg 3) .fp32)
    ∧ decodeWords false [0x00000008, 0x7402218A] = some (.vfcmpNe .b 1 2 (.reg 3) .fp16)
    ∧ decodeWords false [0x00000008, 0x74022194] = some (.vfcmpLt .b 1 2 (.reg 3) .bf16) := by
  decide +kernel

/-- Words of vector floating-point and conversion operations, each field placed by the tables of its section, decode to their operations. -/
theorem test_decodeVectorFloat2 :
    decodeWords false [0x00000008, 0x74022198] = some (.vfcmpLe .b 1 2 (.reg 3) .fp32)
    ∧ decodeWords false [0x00000008, 0x740221A2] = some (.vfcmpUn .b 1 2 (.reg 3) .fp16)
    ∧ decodeWords false [0x00000008, 0x740221AC] = some (.vfcmpOrd .b 1 2 (.reg 3) .bf16)
    ∧ decodeWords false [0x00000004, 0x78022009] = some (.vfclass .a 1 2 .bf16 1)
    ∧ decodeWords false [0x00000004, 0x7C022001] = some (.vexp2 .a 1 2 1)
    ∧ decodeWords false [0x00000004, 0x80022001] = some (.vlog2 .a 1 2 1)
    ∧ decodeWords false [0x00000004, 0x84022001] = some (.vrcp .a 1 2 1)
    ∧ decodeWords false [0x00000004, 0x88022001] = some (.vrsqrt .a 1 2 1)
    ∧ decodeWords false [0x00010808, 0x8C088549] = some (.vcvt .b 4 8 .bf16 .fp32 .rne false (some 1#2))
    ∧ decodeWords false [0x00000004, 0x8C022D1B] = some (.vcvt .a 1 2 .e4m3 .fp32 .rtz true none)
    ∧ decodeWords false [0x00000004, 0x90022189] = some (.vpack .a 1 2 3 1 true)
    ∧ decodeWords false [0x00000008, 0x9402200A] = some (.vunpack .b 1 2 2 true) := by
  decide +kernel

/-- Words of vector floating-point and conversion operations, each field placed by the tables of its section, decode to their operations. -/
theorem test_decodeVectorFloat3 :
    decodeWords false [0x00000004, 0x980A6000] = some (.vquant .a 5 6 .e4m3 0)
    ∧ decodeWords false [0x00000004, 0x980E6020] = some (.vquantScale .a 7 6 .e4m3 0)
    ∧ decodeWords false [0x00000004, 0x980E6382] = some (.vquant .a 7 6 .i4 7)
    ∧ decodeWords false [0x00000004, 0x9C022180] = some (.vscale .a 1 2 (.reg 3) .rne 0)
    ∧ decodeWords false [0x00810804, 0x9C022052] = some (.vscale .a 1 2 (.imm 129#8) .rtz 2)
    ∧ decodeWords false [0x00000004, 0xA0081190] = some (.vfxd .a 4 1 3 2)
    ∧ decodeWords false [0x00000004, 0xA8022015] = some (.vfredsum .a 1 2 .fp16 .rtz 1)
    ∧ decodeWords false [0x00000004, 0xB4022000] = some (.vfredmax .a 1 2 .fp32 0) := by
  decide +kernel

/-- Words of vector reduction, movement and mask operations, each field placed by the tables of its section, decode to their operations. -/
theorem test_decodeVectorMove1 :
    decodeWords false [0x00000004, 0xA4022001] = some (.vredsum .a 1 2 .n8 0)
    ∧ decodeWords false [0x00000004, 0xAC02201A] = some (.vredmax .a 1 2 .i16 3)
    ∧ decodeWords false [0x00000008, 0xB002201D] = some (.vredmin .b 1 2 .n32 3)
    ∧ decodeWords false [0x00000004, 0xB8022180] = some (.vperm .a 1 2 3 .w8 0)
    ∧ decodeWords false [0x00000008, 0xBC022882] = some (.vbcast .b 1 2 (.field 17) .w32 0)
    ∧ decodeWords false [0x00640804, 0xBC022040] = some (.vbcast .a 1 2 (.imm 100#16) .w8 0)
    ∧ decodeWords false [0x00050804, 0xC00221B1] = some (.vslide .a 1 2 3 5#8 .w16 6)
    ∧ decodeWords false [0x00000004, 0xC4022184] = some (.vzip .a 1 2 3 true .w8)
    ∧ decodeWords false [0x00000008, 0xC8022182] = some (.vunzip .b 1 2 3 false .w32)
    ∧ decodeWords false [0x00000004, 0xCC022000] = some (.vmov .a 1 2)
    ∧ decodeWords false [0x00000004, 0xCC022008] = some (.vmovCross .a 1 2)
    ∧ decodeWords false [0x00000004, 0xCC025012] = some (.vmovSplat .a 1 5 2) := by
  decide +kernel

/-- Words of vector reduction, movement and mask operations, each field placed by the tables of its section, decode to their operations. -/
theorem test_decodeVectorMove2 :
    decodeWords false [0x00000004, 0xCC025598] = some (.vmovChunk .a 1 5 11)
    ∧ decodeWords false [0xFFFD0804, 0xD0020000] = some (.vliW .a 1 65533#16)
    ∧ decodeWords false [0x3EC00808, 0xD0040001] = some (.vliF .b 2 16064#16)
    ∧ decodeWords false [0x00070804, 0xD0020002] = some (.vliH .a 1 7#16)
    ∧ decodeWords false [0x007F0804, 0xD0060003] = some (.vliB .a 3 127#8)
    ∧ decodeWords false [0x00000004, 0xD4020001] = some (.vidx .a 1 none .w16 0)
    ∧ decodeWords false [0xFFE00804, 0xD4020051] = some (.vidx .a 1 (some 65504#16) .w16 2)
    ∧ decodeWords false [0x00000004, 0xD80221BF] = some (.vcrc .a 1 2 3 63)
    ∧ decodeWords false [0x00000004, 0xDC022180] = some (.mlogAnd .a 1 2 (.reg 3))
    ∧ decodeWords false [0x00000004, 0xDC022181] = some (.mlogOr .a 1 2 (.reg 3))
    ∧ decodeWords false [0x00000004, 0xDC022182] = some (.mlogXor .a 1 2 (.reg 3))
    ∧ decodeWords false [0x00000004, 0xDC022183] = some (.mlogAndn .a 1 2 (.reg 3)) := by
  decide +kernel

/-- Words of vector reduction, movement and mask operations, each field placed by the tables of its section, decode to their operations. -/
theorem test_decodeVectorMove3 :
    decodeWords false [0x00000804, 0xDC021044] = some (.mlogOrn .a 1 1 (.imm 0#16))
    ∧ decodeWords false [0x00000004, 0xE0023000] = some (.mpop .a 1 3)
    ∧ decodeWords false [0x00000004, 0xE0023001] = some (.mpopFirst .a 1 3) := by
  decide +kernel

/-- Words of matrix operations, each field placed by the tables of its section, decode to their operations. -/
theorem test_decodeMatrix1 :
    decodeWords false [0x00000810, 0x0409CC00] = some (.mld 1 3 0#16 (some 3#4))
    ∧ decodeWords false [0x02000810, 0x04088000] = some (.mld 1 1 512#16 none)
    ∧ decodeWords false [0x00400810, 0x08126400] = some (.mldt 2 4 64#16 (some 9#4))
    ∧ decodeWords false [0xF0000810, 0x0C1A8000] = some (.mlds 3 5 61440#16)
    ∧ decodeWords false [0x00000810, 0x10090000] = some (.mst 1 2 0#16 false)
    ∧ decodeWords false [0x00100810, 0x10094000] = some (.mst 1 2 16#16 true)
    ∧ decodeWords false [0x00000010, 0x14024800] = some (.mzero 9#8 2#4)
    ∧ decodeWords false [0x00000010, 0x18000000] = some (.mma 0 0 0)
    ∧ decodeWords false [0x00000010, 0x183D4000] = some (.mma 3 6 5)
    ∧ decodeWords false [0x00000010, 0x1C194000] = some (.mmo 1 4 5)
    ∧ decodeWords false [0x00000810, 0x200392B0] = some (.zout 0 none (some 7) 2 0#16 ⟨false, true, true⟩ .rtz true)
    ∧ decodeWords false [0x00000810, 0x20079300] = some (.zout 0 (some 1) (some 7) 2 0#16 ⟨false, true, false⟩ .rne false) := by
  decide +kernel

/-- Words of matrix operations, each field placed by the tables of its section, decode to their operations. -/
theorem test_decodeMatrix2 :
    decodeWords false [0x00000010, 0x2403A61B] = some (.zoutv 0 none (some 7) 2 false ⟨true, true, false⟩ .rne true .e4m3)
    ∧ decodeWords false [0x00000010, 0x2433AA09] = some (.zoutv 3 none (some 7) 2 true ⟨false, true, false⟩ .rne false .bf16)
    ∧ decodeWords false [0x00000810, 0x28268000] = some (.zld 2 6 0#16 2)
    ∧ decodeWords false [0x40000810, 0x2C260000] = some (.zst 2 6 16384#16)
    ∧ decodeWords false [0x0FF00810, 0x301C0000] = some (.zstat 7 4080#16)
    ∧ decodeWords false [0x00000010, 0x34140000] = some (.zclr 5#4 0#2)
    ∧ decodeWords false [0x00000010, 0x34090000] = some (.zclr 2#4 1#2) := by
  decide +kernel

/-- Words of memory operations, each field placed by the tables of its section, decode to their operations. -/
theorem test_decodeMemory1 :
    decodeWords false [0x00400820, 0x04083054] = some (.ldl 4 3 (some 64#16) .i32)
    ∧ decodeWords false [0x00000020, 0x04043020] = some (.ldl 2 3 none .va)
    ∧ decodeWords false [0x00020820, 0x08083048] = some (.stl 4 3 (some 2#16) .n16)
    ∧ decodeWords false [0x00800820, 0x08023064] = some (.stl 1 3 (some 128#16) .vb)
    ∧ decodeWords false [0x10280820, 0x0C083140] = some (.ldg 4 3 5 ⟨true, 40#12⟩ .i64 (.weak .normal))
    ∧ decodeWords false [0x11900820, 0x0C08306A] = some (.ldg 4 3 1 ⟨true, 400#12⟩ .va (.acq .dev))
    ∧ decodeWords false [0x012C0820, 0x0C046271] = some (.ldg 2 6 9 ⟨false, 300#12⟩ .vb (.weak .na))
    ∧ decodeWords false [0x00080820, 0x10083058] = some (.stg 4 3 (some 8#16) .i64 (.weak .normal))
    ∧ decodeWords false [0x00000020, 0x10023B20] = some (.stg 1 3 none .va (.rel .sys))
    ∧ decodeWords false [0x00780820, 0x140E20D0] = some (.ldv 7 2 3 ⟨false, 120#12⟩ .n32 .weak)
    ∧ decodeWords false [0x00000020, 0x18062820] = some (.stv 3 2 none .va .order)
    ∧ decodeWords false [0x12580820, 0x1C083080] = some (.amoAdd 4 3 2 ⟨true, 600#12⟩ none) := by
  decide +kernel

/-- Words of memory operations, each field placed by the tables of its section, decode to their operations. -/
theorem test_decodeMemory2 :
    decodeWords false [0x12580820, 0x1C08308E] = some (.amoAnd 4 3 2 ⟨true, 600#12⟩ (some .dev))
    ∧ decodeWords false [0x12580820, 0x1C083090] = some (.amoOr 4 3 2 ⟨true, 600#12⟩ none)
    ∧ decodeWords false [0x12580820, 0x1C08309E] = some (.amoXor 4 3 2 ⟨true, 600#12⟩ (some .dev))
    ∧ decodeWords false [0x12580820, 0x1C0830A0] = some (.amoMax 4 3 2 ⟨true, 600#12⟩ none)
    ∧ decodeWords false [0x12580820, 0x1C0830AE] = some (.amoMin 4 3 2 ⟨true, 600#12⟩ (some .dev))
    ∧ decodeWords false [0x12580820, 0x1C0830B0] = some (.amoMaxn 4 3 2 ⟨true, 600#12⟩ none)
    ∧ decodeWords false [0x12580820, 0x1C0830BE] = some (.amoSwap 4 3 2 ⟨true, 600#12⟩ (some .dev))
    ∧ decodeWords false [0x02580820, 0x200C30D4] = some (.cas 6 3 3 ⟨false, 600#12⟩ (.acq .bolt))
    ∧ decodeWords false [0x02580820, 0x200C30FC] = some (.cas 6 3 3 ⟨false, 600#12⟩ (.ar .sys))
    ∧ decodeWords false [0x00000020, 0x24020000] = some (.fenceAcq 1)
    ∧ decodeWords false [0x00000020, 0x24160000] = some (.fenceRel 3)
    ∧ decodeWords false [0x00000020, 0x24280000] = some (.fenceAr 4) := by
  decide +kernel

/-- Words of memory operations, each field placed by the tables of its section, decode to their operations. -/
theorem test_decodeMemory3 :
    decodeWords false [0x00080820, 0x28083058] = some (.sti 4 3 (some 8#16) .i64)
    ∧ decodeWords false [0x00000020, 0x2C052000] = some (.lget 5 1)
    ∧ decodeWords false [0x00000020, 0x30050000] = some (.lwait 5)
    ∧ decodeWords false [0x00800820, 0x34003040] = some (.zline 3 (some 128#16))
    ∧ decodeWords false [0x00000020, 0x38003003] = some (.pref 3 none true)
    ∧ decodeWords false [0x00000020, 0x3C004280] = some (.launch 4 (.reg 5))
    ∧ decodeWords false [0x00030820, 0x3C004040] = some (.launch 4 (.imm 3#16))
    ∧ decodeWords false [0x00210820, 0x40007040] = some (.evpost 7 (some 33#16)) := by
  decide +kernel

/-- Words of copy-engine operations, each field placed by the tables of its section, decode to their operations. -/
theorem test_decodeCopy1 :
    decodeWords false [0x00000040, 0x040A8000] = some (.ceGo 5 .high)
    ∧ decodeWords false [0x00000040, 0x080B2C00] = some (.ceGor 5 (.tsp 11))
    ∧ decodeWords false [0x00000040, 0x140B2C00] = some (.ceIsp 5 (.tsp 11))
    ∧ decodeWords false [0x00000040, 0x180A0000] = some (.ceFill 5 .low)
    ∧ decodeWords false [0x00000040, 0x1C0A8000] = some (.ceGat 5 .high)
    ∧ decodeWords false [0x00000040, 0x200B2C00] = some (.ceSca 5 (.tsp 11))
    ∧ decodeWords false [0x00000040, 0x240A0000] = some (.ceRed 5 .low)
    ∧ decodeWords false [0x00000040, 0x0C020000] = some (.ceRep 1 0)
    ∧ decodeWords false [0x00000040, 0x0C0C9000] = some (.ceRep 6 9)
    ∧ decodeWords false [0x00000040, 0x10060000] = some (.ceCan 3)
    ∧ decodeWords false [0x00000040, 0x28083000] = some (.ceStatSt 4 3)
    ∧ decodeWords false [0x00000040, 0x28083200] = some (.ceStatBytes 4 3) := by
  decide +kernel

/-- Words of copy-engine operations, each field placed by the tables of its section, decode to their operations. -/
theorem test_decodeCopy2 :
    decodeWords false [0x00000040, 0x28083400] = some (.ceStatEv 4 3)
    ∧ decodeWords false [0x00000040, 0x28083600] = some (.ceStatCrc 4 3)
    ∧ decodeWords false [0x00000040, 0x28083800] = some (.ceStatTag 4 3) := by
  decide +kernel

/-- Words of exchange operations, each field placed by the tables of its section, decode to their operations. -/
theorem test_decodeExchange1 :
    decodeWords false [0x00000080, 0x04120200] = some (.snd (.v .a 4) 2)
    ∧ decodeWords false [0x00000080, 0x04028000] = some (.snd (.s 5) 0)
    ∧ decodeWords false [0x01000880, 0x04310100] = some (.snd (.tsp 2 256#16) 1)
    ∧ decodeWords false [0x00000080, 0x08048100] = some (.rcv (.s 9) 1)
    ∧ decodeWords false [0x00000080, 0x08138000] = some (.rcv (.v .a 7) 0)
    ∧ decodeWords false [0x00020880, 0x0C01982A] = some (.sndr (.v .a 3) 6 5 1 false 2)
    ∧ decodeWords false [0x00000880, 0x0C23980F] = some (.sndr (.tsp 7) 6 1 3 true 0)
    ∧ decodeWords false [0x00000080, 0x10098200] = some (.semw 1 3 4#8)
    ∧ decodeWords false [0x00000080, 0x140A6000] = some (.semp 5 3)
    ∧ decodeWords false [0x00000080, 0x180CA000] = some (.semi 3 5)
    ∧ decodeWords false [0x00000080, 0x1C0C0810] = some (.semv 3 1 2#8)
    ∧ decodeWords false [0x00000080, 0x20118000] = some (.bcst (.v .a 3) false) := by
  decide +kernel

/-- Words of exchange operations, each field placed by the tables of its section, decode to their operations. -/
theorem test_decodeExchange2 :
    decodeWords false [0x00000880, 0x20314000] = some (.bcst (.tsp 2 0#16) true)
    ∧ decodeWords false [0x00000080, 0x241124C0] = some (.xfar 1 2 9 3)
    ∧ decodeWords false [0x17D00880, 0x280A81E3] = some (.xrcvf 5 8 7 ⟨true, 2000#12⟩ .va 3) := by
  decide +kernel

/-- Words of privileged operations, each field placed by the tables of its section, decode to their operations. -/
theorem test_decodePrivileged1 :
    decodeWords true [0x00000002, 0xC0064000] = some (.tsr 3 4)
    ∧ decodeWords true [0x00000002, 0xC0064001] = some (.tsrP 3 4)
    ∧ decodeWords true [0x00000002, 0xC4004280] = some (.tsw 4 5)
    ∧ decodeWords true [0x00000002, 0xC4004281] = some (.tswP 4 5)
    ∧ decodeWords true [0x00000002, 0xC8004000] = some (.tresRun 4)
    ∧ decodeWords true [0x00000002, 0xC8004001] = some (.tresStep 4)
    ∧ decodeWords true [0x00000002, 0xC8004002] = some (.tresHalt 4)
    ∧ decodeWords true [0x00000002, 0xC8004003] = some (.tresLock 4)
    ∧ decodeWords true [0x00000002, 0xCC004000] = some (.tabt 4)
    ∧ decodeWords true [0x00000002, 0xCC004001] = some (.tabtReplay 4)
    ∧ decodeWords true [0x00000002, 0xD0064280] = some (.tsnapDesc 3 4 5)
    ∧ decodeWords true [0x00000002, 0xD0064281] = some (.tsnapAddr 3 4 5) := by
  decide +kernel

/-- Words of privileged operations, each field placed by the tables of its section, decode to their operations. -/
theorem test_decodePrivileged2 :
    decodeWords true [0x00000002, 0xD0064282] = some (.tsnapVal 3 4 5)
    ∧ decodeWords true [0x00000002, 0xD0004283] = some (.tsnapDrop 4 5)
    ∧ decodeWords true [0x00000002, 0xD4004280] = some (.selw 4 5)
    ∧ decodeWords true [0x00000002, 0xD8004000] = some (.tlbiPage 4)
    ∧ decodeWords true [0x00000002, 0xD8004001] = some (.tlbiPasid 4)
    ∧ decodeWords true [0x00000002, 0xD8004002] = some (.tlbiBolt 4)
    ∧ decodeWords true [0x00000002, 0xDC080000] = some (.tlbs 4)
    ∧ decodeWords true [0x00000002, 0xE0064280] = some (.ctxs 3 4 5)
    ∧ decodeWords true [0x00000002, 0xE4064280] = some (.ctxl 3 4 5)
    ∧ decodeWords true [0x00000002, 0xE8000000] = some (.trpret)
    ∧ decodeWords true [0x00000002, 0xF404A000] = some (.fqpopTrap 2 10)
    ∧ decodeWords true [0x00000002, 0xF404A001] = some (.fqpopFault 2 10) := by
  decide +kernel

/-- Words of privileged operations, each field placed by the tables of its section, decode to their operations. -/
theorem test_decodePrivileged3 :
    decodeWords true [0x00000002, 0xF404A002] = some (.fqpopPlc 2 10) := by
  decide +kernel

/-- `mcall` and `plc` are decoded to the register numbers from which their function is read (R330). -/
theorem test_decodeCommands :
    decodeBundle true [0x00000002, 0xEC064280] = .bundle 8 (.ops 0 [⟨1, false, 0, .mcall 3 4 5⟩])
    ∧ decodeBundle true [0x00000002, 0xF0064280] = .bundle 8 (.ops 0 [⟨1, false, 0, .plc 3 4 5⟩]) := by
  decide +kernel

/-- Guards, SYNC and several slots in one bundle: `(!p1) br`, and the two-operation bundle of the vector chapter's example. -/
theorem test_decodeGuardsAndSlots :
    decodeBundle false [0x00000201, 0x067FFFFC] = .bundle 8 (.ops 2 [⟨0, true, 1, .ins (.br 4194300#22)⟩])
    ∧ decodeBundle false [0x0001080C, 0x58022191, 0x8C088549]
      = .bundle 12 (.ops 0 [⟨2, false, 0, .ins (.vfadd .a 1 2 (.reg 3) .fp32 .rtz 1)⟩,
          ⟨3, false, 0, .ins (.vcvt .b 4 8 .bf16 .fp32 .rne false (some 1#2))⟩]) := by
  decide +kernel

/-- Encodings that R129 lists raise the illegal-bundle trap, with the place it gives: header 8, line 9, or the slot. -/
theorem test_decodeIllegal :
    decodeBundle false [0x00010000] = .illegal 8 ∧ decodeBundle false [0x00000800] = .illegal 8
    ∧ decodeBundle false [0x00001001, 0] = .illegal 8 ∧ decodeBundle false [0x00002001, 0] = .illegal 8
    ∧ decodeBundle false [0x00000001] = .illegal 9
    ∧ decodeBundle false [0x00000001, 0] = .illegal 0 ∧ decodeBundle false [0x00000001, 0x64000000] = .illegal 0
    ∧ decodeBundle false [0x00000002, 0xC8004000] = .illegal 1 ∧ decodeBundle false [0x00000001, 0x42000000] = .illegal 0
    ∧ decodeBundle false [0x00000001, 0x50200000] = .illegal 0 ∧ decodeBundle false [0x00000001, 0x40000001] = .illegal 0
    ∧ decodeBundle false [0x00000002, 0x04064281] = .illegal 1 ∧ decodeBundle false [0x00000002, 0x04064040] = .illegal 1
    ∧ decodeBundle false [0x000A0802, 0x04064040] = .bundle 8 (.ops 0 [⟨1, false, 0, .ins (.add 3 4 (.imm 10#16))⟩])
    ∧ decodeBundle false [0x00000020, 0x0C083140] = .illegal 5 ∧ decodeBundle false [0x10000820, 0x0C083140] = .illegal 5
    ∧ decodeBundle false [0x30280820, 0x0C083140] = .illegal 5 ∧ decodeBundle false [0x00000010, 0x04000000] = .illegal 4
    ∧ decodeBundle false [0x00000010, 0x14000000] = .illegal 4 ∧ decodeBundle false [0x00000003, 0, 0] = .illegal 0 := by
  decide +kernel

/-! Well-formedness -/

/-- One ill-formed term for every check of `Instr.wellFormed`; each is refused. -/
theorem test_illFormedRefused :
    ([.barrierOnlyBundle 0#3, .loop 3 1#12, .loop 3 2048#12, .loopi 4 1#16, .chkp .t 8 2#12, .chkp .z 4 2#12, .vabs .a 1 2 .n8 0,
      .vcvt .a 1 2 .i8 .fp32 .rne true none, .vcvt .a 1 2 .bf16 .fp32 .rne false (some 2#2), .vquant .a 1 2 .e4m3 4, .vquant .a 1 2 .i4 8,
      .vbcast .a 1 2 (.imm 64#16) .w16 0, .vbcast .a 1 2 (.imm 32#16) .w32 0, .vslide .a 1 2 3 33#8 .w32 0, .mldt 0 0 0#16 (some 13#4),
      .mzero 0#8 0#4, .zout 1 (some 1) none 0 0#16 ⟨false, false, false⟩ .rne false, .zout 1 none (some 2) 0 0#16 ⟨false, false, false⟩ .rne false,
      .zout 1 none none 0 0#16 ⟨true, false, false⟩ .rne false, .zoutv 0 none none 1 true ⟨false, false, false⟩ .rne false .i8,
      .zoutv 0 (some 0) none 1 false ⟨false, false, false⟩ .rne false .i8, .zoutv 0 none none 1 false ⟨false, true, false⟩ .rne false .i8,
      .zclr 0#4 0#2, .stl 1 2 none .i8, .stg 1 2 none .i16 (.weak .normal), .stv 1 2 none .i32 .weak, .sti 1 2 none .n8, .ldg 1 2 3 ⟨true, 0#12⟩ .i64 (.weak .normal),
      .ldv 1 2 3 ⟨true, 0#12⟩ .i64 .weak, .amoAdd 1 2 3 ⟨true, 0#12⟩ none, .amoAnd 1 2 3 ⟨true, 0#12⟩ none, .amoOr 1 2 3 ⟨true, 0#12⟩ none,
      .amoXor 1 2 3 ⟨true, 0#12⟩ none, .amoMax 1 2 3 ⟨true, 0#12⟩ none, .amoMin 1 2 3 ⟨true, 0#12⟩ none, .amoMaxn 1 2 3 ⟨true, 0#12⟩ none,
      .amoSwap 1 2 3 ⟨true, 0#12⟩ none, .cas 2 3 4 ⟨true, 0#12⟩ .none, .cas 3 4 5 ⟨true, 9#12⟩ .none, .sndr (.v .a 1) 2 3 3 false 0,
      .semw 1 2 0#8, .semv 1 2 0#8, .xrcvf 1 2 3 ⟨true, 0#12⟩ .i64 0] : List Instr).all (fun i => i.wellFormed == false) = true := by
  decide +kernel

/-- Terms at the edge of each check are well formed. -/
theorem test_wellFormedAtTheEdge :
    ([.barrierOnlyBundle 7#3, .loop 3 2#12, .loop 3 2047#12, .loopi 4 2#16, .chkp .t 7 2#12, .vabs .a 1 2 .i8 0, .vcvt .a 1 2 .bf16 .fp32 .rne true (some 1#2),
      .vquant .a 1 2 .e4m3 3, .vquant .a 1 2 .i4 7, .vbcast .a 1 2 (.imm 63#16) .w16 0, .vslide .a 1 2 3 32#8 .w32 0, .mldt 0 0 0#16 (some 12#4),
      .zout 1 (some 0) (some 2) 0 0#16 ⟨true, false, false⟩ .rne false, .zoutv 0 none none 1 true ⟨false, false, false⟩ .rne false .bf16,
      .stl 1 2 none .n8, .sti 1 2 none .va, .ldg 1 2 3 ⟨true, 1#12⟩ .i64 (.weak .normal), .cas 30 4 5 ⟨true, 9#12⟩ .none,
      .sndr (.tsp 1) 2 3 3 false 0, .semw 1 2 255#8] : List Instr).all Instr.wellFormed = true := by
  decide +kernel

/-! Small states -/

/-- The reset state with tile 0 issuing. -/
def tile0 : State := { State.reset with cur := .tile 0 }

/-- The same with something of tile 0 changed. -/
def tileWith (f : Tile → Tile) : State := { tile0 with dev := tile0.dev.onTile 0 f }

/-- The reset state with service core 31 issuing. -/
def svc31 : State := { State.reset with cur := .svc 31 }

/-- The same with something of the core changed. -/
def svcWith (f : Svc → Svc) : State := { svc31 with dev := svc31.dev.onSvc 31 f }

/-- A result of tile 0 due on cycle 0. -/
def due0 (dest : Dest) (issue slot : Nat) (v : VReg) : Flight := { Flight.result issue slot 0 dest v false with poison := true }

/-- A path operation that ends nothing. -/
def path0 (k : PathKind) : PathOp :=
  { kind := k, word := 0#32, imm := 0#16, issue := 0, cnt := 1, bank := 0, off := 0, bfmt := 0x00030000#32, tgeom := 0x00003f3f#32, reg := 0,
    raw := false, tag := 0#4, src := 0#4, done := 0, drop := false, poison := false, zflags := 0#6, zo := none, lines := [], scales := [],
    satLines := [], satFlags := 0#6 }

/-- An operation of the issue order. -/
def op0 (k : MKind) : MemOp :=
  { kind := k, issue := 0, stage := .issued, entry := false, ls := none, addr := 0#64, size := 8, data := 0#1024, data2 := 0#64, scales := 0#32,
    amo := .add, acq := false, rel := false, strong := false, scope := 0, hint := 0#2, dst := 0, sem := 0, n := 1, rty := 0#2, isMax := false,
    srcFmt := 0#4, poison := false, failed := false, tspRead := none, wait := .no, past := false }

/-! Witnesses -/

/-! Witnesses: for each statement with hypotheses, states and operands that meet them -/

theorem test_witness_EncodedInstructionDecodesToItself :
    ∀ i ∈ ([.idleBundle 65535#16, .barrierOnlyBundle 7#3, .br 0x200000#22, .add 31 31 (.imm 0x8000#16), .vcvt .b 31 31 .i8 .fp32 .rup false (some 3#2),
        .zoutv 3 (some 0) (some 7) 7 true ⟨true, true, true⟩ .rup true .bf16, .cas 30 31 63 ⟨true, 4095#12⟩ (.ar .sys), .ceIsp 31 (.tsp 31),
        .sndr (.tsp 31) 31 127 3 true 15, .tsnapDrop 31 31] : List Instr), i.wellFormed = true ∧ (encode i).isSome = true := by
  decide +kernel

theorem test_witness_ReservedHeadersAreIllegal :
    ∀ x ∈ ([(0x2000, []), (0x8001, [0]), (0x10000, []), (0xffff0000, []), (0x1080, [0]), (0x1100, []), (0x1800, []), (0x0800, [])] : List (Nat × List Nat)),
      x.1 ≠ 0 ∧ (presentSlots (x.1 % 256)).length ≤ x.2.length
      ∧ (x.1 / 8192 % 8 ≠ 0 ∨ (x.1 / 65536 % 65536 ≠ 0 ∧ x.1 / 2048 % 2 = 0 ∧ x.1 / 4096 % 2 = 0)
        ∨ (x.1 % 256 = 0 ∧ x.1 / 2048 % 2 = 1)
        ∨ (x.1 / 4096 % 2 = 1 ∧ (x.1 % 256 ≠ 0 ∨ x.1 / 256 % 8 ≠ 0 ∨ x.1 / 2048 % 2 = 1))) := by
  decide +kernel

/-- Tile 0 with `kli k2, 100` at its pc. -/
def kliState : State := { State.reset.placeWord 64 0x5004006400000001 with cur := .tile 0 }

theorem test_witness_StepRunsTheDecodedInstruction :
    (∃ (d : Dev) (n : Fin 128) (k len : Nat) (b : Bundle), d.tiles[n].c.pc.toNat % 4 = 0 ∧ ispAddr n d.tiles[n] d.tiles[n].c.pc.toNat = some k
      ∧ decodeBundle false ((List.range (Nat.min 9 ((64 - d.tiles[n].c.pc.toNat % 64) / 4))).map fun j => (d.word (k + 4 * j)).toNat) = .bundle len b)
    ∧ (∃ (d : Dev) (n : Fin 128) (a : W32) (len : Nat) (o : Op) (i : Instr), d.tiles[n].ready = true ∧ d.fetch n = .bundle a len (.ops 0 [o])
      ∧ o.op = .ins i ∧ d.tiles[n].guard o = true)
    ∧ (∃ (s : State) (r : List Micro), s.agenda = .op (.tile 0) 0#32 8 0 true .halt :: r)
    ∧ (∃ (s : State) (r : List Micro), s.agenda = .ev .patrolScrub :: r)
    ∧ ∀ c ∈ [1, 2], ∀ z ∈ [0, 16], ∀ taken ∈ [false, true],
        (let e : LoopEnt := ⟨4#32, BitVec.ofNat 32 z, c⟩
         let s : State := { tileWith (fun t => { t with c := { t.c with loops := [e] } }) with iss := { tile0.iss with taken := taken } }
         s.cur = .tile 0 ∧ s.iss.idle = 0 ∧ s.iss.taken = taken ∧ s.loops = [e] ∧ (e.stop = s.iss.addr ↔ z = 0) ∧ (1 < e.count ↔ c = 2)) :=
  ⟨⟨kliState.dev, 0, ispKey 0 (halfBase 0), 8, .ops 0 [⟨0, false, 0, .ins (.kli 2 100#17)⟩], by decide +kernel⟩,
   ⟨kliState.dev, 0, 0#32, 8, ⟨0, false, 0, .ins (.kli 2 100#17)⟩, .kli 2 100#17, by decide +kernel⟩,
   ⟨{ tile0 with agenda := [.op (.tile 0) 0#32 8 0 true .halt] }, [], rfl⟩, ⟨{ tile0 with agenda := [.ev .patrolScrub] }, [], rfl⟩,
   by decide +kernel⟩

/-- Raises of operations of tiles 0 and 1, the second of slot 5 or of the end of the cycle. -/
def raise0 (n : Fin 128) (cause slot : Nat) (late : Bool) : Raise :=
  { tile := n, cause := cause, detail := 255, slot := slot, faddr := 16#32, code := 0#17, ea := 0#64, spsc := 0, late := late }

/-- A 2 × 1 panel that ends its issue, or its cycle, with those raises. -/
def raisedState (m : Micro) (l : List Raise) (n : Nat := 0) : State :=
  let d : Dev := { (State.reset.dev.onSvc 0 fun c => { c with trapq := List.replicate n 0#512 }) with panels := [{ fetchPanel with w := 2 }] }
  { State.reset with agenda := [m], saved := some d, dev := { d with raised := l } }

theorem test_witness_TrapsFreezeThePanelAndQueueTheirRecords :
    (∀ l ∈ [[raise0 1 1 255 false], [raise0 1 1 255 false, raise0 1 1 254 false], [raise0 1 7 0 false, raise0 1 4 255 false],
          [raise0 0 2 0 false, raise0 1 1 255 false]], ∀ n ∈ [0, 511, 512],
      let p := { fetchPanel with w := 2 }
      let s := raisedState (.endIssue 0) l n
      (s.saved.bind fun d => d.panel 0) = some p ∧ s.dev.panel 0 = some p ∧ s.dev.timingMask p = 0 ∧ p.stepping = false
        ∧ s.dev.raised = l ∧ (∀ x ∈ l, x.late = false ∧ x.cause ≠ 3 ∧ x.slot < 256 ∧ x.detail < 256)
        ∧ (∀ k < p.size, p.tile k = idx 128 k) ∧ (p.tile 0 == p.tile 1) = false ∧ p.size = 2)
    ∧ (let p := { fetchPanel with w := 2 }
       let x := raise0 1 1 0 true
       let s := raisedState (.endCycle 0) [x]
       s.dev.panel 0 = some p ∧ p.stepping = false ∧ x.late = true ∧ x.cause ≠ 3 ∧ x.tile = p.tile 1 ∧ s.dev.raised = [x]
        ∧ (s.dev.svcs[(0 : Fin 32)]).trapq.length < 512 ∧ quadOf (p.tile 0) = 0)
    ∧ (raisedState (.endIssue 0) []).agenda = .endIssue 0 :: [] ∧ (raisedState (.endCycle 0) []).agenda = .endCycle 0 :: [] := by
  refine ⟨?_, ?_, rfl, rfl⟩ <;> decide +kernel

theorem test_witness_MemoryStaysCanonical : ∃ s t : State, Inv s ∧ step s = .next t := by
  refine ⟨{ State.reset with agenda := [.ev (.barrierOnlyBundle 1#3)] }, { State.reset with agenda := [] }, ⟨by decide +kernel, fun d h => ?_⟩, by rfl⟩
  have h : State.reset.saved = some d := h
  simp [State.reset] at h

theorem test_witness_MemoryReadsBackWhatIsWritten : memWf [] = true ∧ memWf [(0, 1#8), (2, 255#8)] = true := by decide +kernel

theorem test_witness_FixedLatencyResultIsQueued : tile0.cur = .tile 0 ∧ svc31.cur = .svc 31 := ⟨rfl, rfl⟩

theorem test_witness_DueResultIsWritten :
    ∀ x ∈ ([.s 0, .s 31, .k 0, .k 15, .p 0, .p 7, .v .a 31, .v .b 0, .m .a 7, .m .b 0, .d 15, .none, .sr 0x00b#10,
        .sr 0x014#10, .sr 0x030#10, .sr 0x05d#10, .sr 0x060#10] : List Dest),
      let f := due0 x 5 3 7#1024
      let s := tileWith fun t => { t with flight := [f], tpath := [path0 .mst] }
      ((s.dev.tiles[(0 : Fin 128)]).flight.filter fun g => g.due == s.dev.psc 0) = [f] ∧ f.act = .none
        ∧ ∀ o ∈ (s.dev.tiles[(0 : Fin 128)]).tpath ++ (s.dev.tiles[(0 : Fin 128)]).apath, o.due ≠ some (s.dev.psc 0) ∧ o.issue + 7 ≠ s.dev.psc 0 := by
  decide +kernel

theorem test_witness_ReadoutFlagsArrive :
    ∀ k ∈ [PathKind.zout, .zoutv],
      let o := { path0 k with issue := 100, zflags := 63#6, zo := some 3 }
      let s : State := { tile0 with dev := { (tile0.dev.onTile 0 fun t => { t with apath := [o], owner := .panel 0 }) with panels := [{ fetchPanel with psc := 107 }] } }
      (s.dev.tiles[(0 : Fin 128)]).tpath = [] ∧ (s.dev.tiles[(0 : Fin 128)]).apath = [o] ∧ o.issue + 7 = s.dev.psc 0 ∧ o.due ≠ some (s.dev.psc 0)
        ∧ ∀ f ∈ (s.dev.tiles[(0 : Fin 128)]).flight, f.due ≠ s.dev.psc 0 := by
  decide +kernel

theorem test_witness_LaterIssuedResultStands :
    ∀ x ∈ ([false, true] : List Bool),
      let f := due0 (.s 31) 4 7 1#1024
      let g := due0 (.s 31) 5 0 2#1024
      let s := tileWith fun t => { t with flight := if x then [f, g] else [g, f] }
      ((s.dev.tiles[(0 : Fin 128)]).flight.filter fun y => y.due == s.dev.psc 0) = (if x then [f, g] else [g, f])
        ∧ g.keepOld = false ∧ f.issue * 8 + f.slot < g.issue * 8 + g.slot
        ∧ ∀ o ∈ (s.dev.tiles[(0 : Fin 128)]).tpath ++ (s.dev.tiles[(0 : Fin 128)]).apath, o.due ≠ some (s.dev.psc 0) ∧ o.issue + 7 ≠ s.dev.psc 0 := by
  decide +kernel

theorem test_witness_ControlTransfersSetTheNextAddress :
    ∀ x ∈ ([(.s, 31), (.va, 31), (.vb, 0), (.t, 7), (.z, 3)] : List (PoisonClass × Fin 32)), (tile0.chkClass x.1 x.2).bad = false := by
  decide +kernel

/-- Tile 0 with `l` as its loop stack. -/
def loopState (l : List LoopEnt) : State := tileWith fun t => { t with c := { t.c with loops := l } }

theorem test_witness_LoopsPushStepAndPop :
    let e : LoopEnt := ⟨4#32, 16#32, 2⟩
    tile0.readK 3 = 0#32 ∧ (tileWith fun t => { t with r := { t.r with k := t.r.k.set 3 1#32 } }).readK 3 ≠ 0#32
    ∧ (loopState [e, e, e]).loops.length < 4 ∧ (loopState [e, e]).loops = e :: [e] ∧ 1 < e.count
    ∧ (loopState [⟨4#32, 16#32, 1⟩]).loops = [⟨4#32, 16#32, 1⟩] ∧ (loopState [e, e, e, e]).cur = .tile 0 ∧ 4 ≤ (loopState [e, e, e, e]).loops.length
    ∧ (∀ z ∈ [16, 20], ∀ c ∈ [1, 2], let f : LoopEnt := ⟨4#32, BitVec.ofNat 32 z, c⟩
        (loopState [⟨4#32, 16#32, 1⟩, f]).loops = ⟨4#32, 16#32, 1⟩ :: f :: [] ∧ (f.stop = 16#32 ↔ z = 16) ∧ (1 < f.count ↔ c = 2))
    ∧ (let s := tileWith fun t => { t with c := { t.c with loops := [e, e, e, e] }, r := { t.r with k := t.r.k.set 3 1#32 } }
       s.cur = .tile 0 ∧ s.readK 3 ≠ 0#32 ∧ 4 ≤ s.loops.length)
    ∧ tile0.cur = .tile 0 ∧ tile0.loops = [] := by
  decide +kernel

theorem test_witness_BundleFormsAndMarksComplete :
    tile0.tile.ispPending = false ∧ tile0.tile.c.idleHeld = false
    ∧ (let s := tileWith fun t => { t with c := { t.c with fenced := true } }
       s.cur = .tile 0 ∧ s.tile.c.fenced = true ∧ s.tile.c.idleHeld = false)
    ∧ kliState.start.panelOf kliState.tileNo = some fetchPanel ∧ kliState.start.beatInFlight fetchPanel kliState.tile.rank = false
    ∧ pathPending (kliState.tile.tpath ++ kliState.tile.apath) kliState.psc = false := by
  decide +kernel

theorem test_witness_GatingAClusterLosesItsContents :
    let s := tileWith fun t => { t with sr := { t.sr with awakeA := 7#4, awakeB := 7#4 } }
    s.cur = .tile 0 ∧ (15#4).getLsbD ((31 : Fin 32).val / 8) = true ∧ (s.dev.tiles[(0 : Fin 128)]).sr.awakeA.getLsbD ((31 : Fin 32).val / 8) = false
      ∧ (s.dev.tiles[(0 : Fin 128)]).sr.awakeB.getLsbD ((31 : Fin 32).val / 8) = false := by
  decide +kernel

theorem test_witness_HaltAndProgramTraps :
    (∀ ie ∈ [0, 1], let s := svcWith fun q => { q with sstat := BitVec.ofNat 32 ie }
      tile0.cur = .tile 0 ∧ s.cur = .svc 31 ∧ ((s.dev.svcs[(31 : Fin 32)]).sstat.getLsbD 0 = true ↔ ie = 1) ∧ s.loops = [] ∧ s.iss.taken = false)
    ∧ (∀ pc ∈ [2, 0x40000],
        let s := { svcWith fun q => { q with run := .run, pc := BitVec.ofNat 32 pc } with agenda := [.svc 31] }
        s.agenda = [.svc 31] ∧ (s.dev.svcs[(31 : Fin 32)]).run = .run ∧ s.dev.svcEvent 31 = false ∧ (s.dev.svcs[(31 : Fin 32)]).idle = 0
          ∧ (pc = 2 → s.dev.fetchSvc 31 = .illegal 2#32 9) ∧ (pc = 0x40000 → s.dev.fetchSvc 31 = .unmapped 0x40000#32))
    ∧ svc31.poisonS 3 = false ∧ svcSrWritable 0 = false
    ∧ ∀ x ∈ [0x3fff9, 0x40000], (x % dkBytes .i64 ≠ 0 ↔ x = 0x3fff9) ∧ (x = 0x40000 → 2 ^ 18 < x + dkBytes .i64) := by
  decide +kernel

theorem test_witness_ScalarMovesAndStateRegisters :
    (tile0.awake .a [31] ∧ tile0.awake .b [31])
    ∧ tile0.cur = .tile 0 ∧ svc31.cur = .svc 31
    ∧ (srWritable 0x030 = true ∧ bfmtBad (if tile0.poisonS 31 then 0#32 else (tile0.readS 31).setWidth 32) = false ∧ tile0.tile.bankBusy 0 (tile0.psc + 1) = false)
    ∧ (∃ n : BitVec 10, srWritable n.toNat = true ∧ ¬ (0x030 ≤ n.toNat ∧ n.toNat ≤ 0x03f)) ∧ srWritable 0x000 = false ∧ srWritable 0x3ff = false
    ∧ (∃ n : BitVec 10, svcSrWritable n.toNat = true) ∧ (∃ v, tile0.start.readSr 0 0x009 = some v) := by
  unfold State.awake
  refine ⟨by decide +kernel, rfl, rfl, by decide +kernel, by decide +kernel, by decide +kernel, by decide +kernel, by decide +kernel, ?_⟩
  exact Option.isSome_iff_exists.mp (by decide +kernel)

/-- Every vector register is awake at reset, in both files and on both sides of every statement about the vector slots. -/
theorem test_witness_vectorStatements :
    ∀ f ∈ [VFile.a, VFile.b], ∀ d ∈ [(0 : Fin 32), 31], tile0.awake f (d :: 31 :: vopdNames (.reg 0)) ∧ tile0.awake f (d :: 31 :: vopdNames (.imm 3#16))
      ∧ tile0.awake f [d, 31, 0] ∧ tile0.awake f [d, 31] ∧ tile0.awake f [d] := by
  unfold State.awake
  decide +kernel

/-- The same with the scales of `vscale` in a register. -/
theorem test_witness_VectorFloatResults : tile0.awake .a (1 :: 2 :: vopdNames (.reg 3)) ∧ ∀ r, VScale.reg 4 = .reg r → tile0.awake .a [r] := by
  refine ⟨by unfold State.awake; decide +kernel, fun r h => ?_⟩
  cases h
  unfold State.awake
  decide +kernel

theorem test_witness_RoundingIsExact :
    (∀ x ∈ [(1, 1), (1, 3), (2 ^ 24 + 1, 2)], 0 < x.1 ∧ 0 < x.2)
    ∧ (∀ f ∈ [FFmt.fp16, .bf16, .fp32, .e4m3, .e5m2], 0 < 2 ^ f.width ∧ (decodeF f 0).isNan = false ∧ (decodeF f (2 ^ f.width - 2 ^ f.man - 1)).isNan = false)
    ∧ FFmt.e5m2 ≠ .e4m3 ∧ 255 < 2 ^ FFmt.e5m2.width
    ∧ (∀ x ∈ [Val.nan false, .nan true], x.isNan = true) ∧ (∀ x ∈ [Val.inf true, .inf false, .fin true 0 1 0, .fin false 1 1 0], x.isNan = false)
    ∧ (∀ v ∈ [0x7fc00000, 0x7f800000, 0xff800000, 0x3f800000],
        let x := ftzIn true .fp32 (decodeF .fp32 v)
        (x.isNan = true ↔ v = 0x7fc00000) ∧ (x = .inf false ↔ v = 0x7f800000) ∧ (x = .inf true ↔ v = 0xff800000)
          ∧ (x.isNan = false ∧ x.isInf = false ↔ v = 0x3f800000)) := by
  decide +kernel

theorem test_witness_SpecialFunctionBounds :
    (∀ y ∈ [(0x3f800000, (1 : ℚ)), (0x43000000, 128), (0xbf800000, -1), (0x00000001, 2 ^ (-149 : ℤ))],
      y.1 < 2 ^ 32 ∧ (decodeF .fp32 y.1).isNan = false ∧ (decodeF .fp32 y.1).isInf = false ∧ (decodeF .fp32 y.1).isZero = false
        ∧ (decodeF .fp32 y.1).toRat = y.2)
    ∧ ((1 : ℝ) < 128 ∧ (0 : ℝ) < 1 ∧ (2 : ℝ) ^ (-128 : ℤ) < |1| ∧ (128 : ℝ) ≤ 128 ∧ (-1 : ℝ) < 0 ∧ |(2 : ℝ) ^ (-149 : ℤ)| ≤ 2 ^ (-128 : ℤ))
    ∧ (∀ y ∈ [(0x7fc00000, false), (0x7f800001, true)], y.1 < 2 ^ 32 ∧ decodeF .fp32 y.1 = .nan y.2) := by
  refine ⟨by decide +kernel, by norm_num [zpow_neg], by decide +kernel⟩

theorem test_witness_VectorConversionsAndPacking :
    (∀ x ∈ ([(.i8, .fp32, 3), (.fp32, .e4m3, 3), (.fp16, .bf16, 0)] : List (CFmt × CFmt × Nat)),
      let ws := (cfmtEl x.2.1).width
      let wd := (cfmtEl x.1).width
      Nat.min ws wd * (x.2.2 * (1024 / max ws wd) + 1024 / max ws wd) ≤ 1024)
    ∧ 32 * (blockFmt .e4m3).width * ((3 : Fin 32).val + 1) ≤ 1024 ∧ 32 * (blockFmt .i4).width * ((7 : Fin 32).val + 1) ≤ 1024
    ∧ 0 < (encodeBlock ((List.range 32).map fun _ => ftzIn false .fp32 (decodeF .fp32 0x3f800000)) .e4m3).els.length
    ∧ (∀ v ∈ [0x7f800000, 0, 0x3f800000, 0x7f7fffff, 1],
        let l := List.replicate 32 (decodeF .fp32 v)
        l.length = 32 ∧ (l.all fun x => match x with | .fin _ _ d _ => decide (0 < d) | _ => true) = true ∧ ((∀ x ∈ l, x.isNan = false ∧ x.isInf = false) ↔ v ≠ 0x7f800000)
          ∧ ((∀ x ∈ l, x.toRat = 0) ↔ v = 0 ∨ v = 0x7f800000))
    ∧ (∀ y ∈ [(0x3f800000, (0 : ℤ)), (0x7f7fffff, 127), (1, -149)],
        let m := |(decodeF .fp32 y.1).toRat|
        (2 : ℚ) ^ y.2 ≤ m ∧ m < 2 ^ (y.2 + 1) ∧ y.1 < 2 ^ 32 ∧ (decodeF .fp32 y.1).isNan = false ∧ (decodeF .fp32 y.1).isInf = false) := by
  refine ⟨?_, ?_, ?_, ?_, ?_, ?_⟩ <;> decide +kernel

theorem test_witness_VectorReductionsAndMasks :
    ∀ l ∈ [[none], [some (Val.fin false 1 1 0), none], List.replicate 128 (some (Val.fin true 1 1 0))], ∃ n, l.length = 2 ^ n :=
  fun l h => by
    simp only [List.mem_cons, List.not_mem_nil, or_false] at h
    rcases h with rfl | rfl | rfl
    · exact ⟨0, by decide⟩
    · exact ⟨1, by decide⟩
    · exact ⟨7, by decide⟩

/-- Bytes and geometry of a tile-path operation issued by tile 0 at reset. -/
def mldOp (k : PathKind) (bank : Fin 16) (off cnt reg : Nat) (bf tg : W32) (tag src : BitVec 4) : PathOp :=
  { path0 k with bank := bank, off := off, cnt := cnt, reg := reg, bfmt := bf, tgeom := tg, tag := tag, src := src }

theorem test_witness_TilePathOperationsIssue :
    let s := tile0
    let e := tileWith fun t => { t with sr := { t.sr with bfmt := t.sr.bfmt.set 15 0x0003000d#32 } }
    (loadFmt none 0 false = some (0, 0) ∧ geomCols 0x00003f3f#32 ≤ codeCap 0 ∧ pathBusy s.tile.tpath s.psc = false ∧ s.tile.sr.tgeom[(7 : Fin 8)] = 0x00003f3f#32
      ∧ (let o := mldOp .mld 15 0xf000 64 7 (s.sampleBfmt 15) 0x00003f3f#32 0#4 0#4
         o.aligned false ∧ s.pathOk o 0x10000))
    ∧ (loadFmt none 0xd false = some (0xd, 0xd) ∧ bfmtFmt (e.sampleBfmt 15) = 0xd ∧ codeBlock 0xd = true
      ∧ (let o := mldOp .mld 15 0xe000 64 7 (e.sampleBfmt 15) 0x00003f3f#32 0xd#4 0xd#4
         o.aligned true ∧ e.pathOk o 0xf000))
    ∧ (loadFmt none 0 true = some (0, 0) ∧ 64 * ((lineBytes 0 64 + 127) / 128) = 64
      ∧ (let o := mldOp .mldt 0 16 64 0 (s.sampleBfmt 0) 0x00003f3f#32 0#4 0#4
         o.aligned false ∧ s.pathOk o 0x10000))
    ∧ (let o := mldOp .mlds 15 0xff00 2 7 (s.sampleBfmt 15) 0x00003f3f#32 0#4 0#4
       o.aligned false ∧ s.pathOk o 0x10000)
    ∧ (geomCols 0x00003f3f#32 ≤ codeCap (geomTag 0x00003f3f#32) ∧ geomTag 0x00003f3f#32 = 0
      ∧ (let o := mldOp .mst 0 0xf000 64 0 (s.sampleBfmt 0) 0x00003f3f#32 0#4 0#4
         o.aligned false ∧ s.pathOk o 0x10000)) := by
  refine ⟨?_, ?_, ?_, ?_, ?_⟩ <;> first | decide +kernel | (simp only [PathOp.aligned, State.pathOk]; decide +kernel)

theorem test_witness_DueTileLoadsAndClearsWriteTheirRegisters :
    (∀ k ∈ [PathKind.mld, .mldt, .mlds, .mzero],
      let o := { path0 k with issue := if k = .mzero then 100 else 95, reg := if k = .mzero then 0x401 else 7, cnt := 1, lines := [1#1024], tag := 2#4, src := 2#4 }
      let s := { tileWith (fun t => { t with tpath := [o], owner := .panel 0 }) with dev :=
        { (tileWith fun t => { t with tpath := [o], owner := .panel 0 }).dev with panels := [{ fetchPanel with psc := 100 }] } }
      (∀ f ∈ (s.dev.tiles[(0 : Fin 128)]).flight, f.due ≠ s.dev.psc 0)
      ∧ (((s.dev.tiles[(0 : Fin 128)]).tpath ++ (s.dev.tiles[(0 : Fin 128)]).apath).filter fun x => x.due == some (s.dev.psc 0)) = [o]
      ∧ (∀ x ∈ (s.dev.tiles[(0 : Fin 128)]).apath, x.issue + 7 ≠ s.dev.psc 0) ∧ o.targets ≠ [])
    ∧ (∀ k ∈ [PathKind.zoutv, .zld],
      let o := { path0 k with issue := if k = .zld then 68 else 189, reg := 7, cnt := if k = .zld then 128 else 1, lines := [1#1024], tag := 2#4, src := 2#4 }
      let s := { tileWith (fun t => { t with apath := [o], owner := .panel 0 }) with dev :=
        { (tileWith fun t => { t with apath := [o], owner := .panel 0 }).dev with panels := [{ fetchPanel with psc := 200 }] } }
      (∀ f ∈ (s.dev.tiles[(0 : Fin 128)]).flight, f.due ≠ s.dev.psc 0)
      ∧ (((s.dev.tiles[(0 : Fin 128)]).tpath ++ (s.dev.tiles[(0 : Fin 128)]).apath).filter fun x => x.due == some (s.dev.psc 0)) = [o]
      ∧ (∀ x ∈ (s.dev.tiles[(0 : Fin 128)]).apath, x.issue + 7 ≠ s.dev.psc 0) ∧ o.targets ≠ [])
    ∧ codeBlock 0xd = true ∧ codeBlock 2 = false := by
  refine ⟨?_, ?_, ?_, ?_⟩ <;> decide +kernel

/-- Tile 0 with two i8 operands and a free unit. -/
def mmaState : State := tileWith fun t => { t with sr := { t.sr with tgeom := Vector.replicate 8 0x00023f3f#32 } }

theorem test_witness_MultiplyAccumulate :
    (mmaState.cur = .tile 0 ∧ (let T := mmaState.dev.tiles[(0 : Fin 128)]
      mmaType (geomTag T.sr.tgeom[(7 : Fin 8)]) (geomTag T.sr.tgeom[(7 : Fin 8)]) = some (64, 1) ∧ geomCols T.sr.tgeom[(7 : Fin 8)] ≤ 64
      ∧ zsType T.sr.zs[(3 : Fin 4)] = 0 ∧ T.units = []))
    ∧ (let s := tileWith fun t => { t with sr := { t.sr with tgeom := Vector.replicate 8 0x00091f3f#32, zs := t.sr.zs.set 0 0x200#32 } }
       let T := s.dev.tiles[(0 : Fin 128)]
       geomTag T.sr.tgeom[(0 : Fin 8)] = 9 ∧ mmaType 9 9 = some (32, 2) ∧ geomCols T.sr.tgeom[(0 : Fin 8)] ≤ 32 ∧ zsType T.sr.zs[(0 : Fin 4)] = 2)
    ∧ (let u : UnitRec := ⟨0#32, 0, false, 3, TReg.reset, TReg.reset, 0x00023f3f#32, 0x0002003f#32, false, none⟩
       let s : State := { tile0 with dev := { (tile0.dev.onTile 0 fun t => { t with units := [u], owner := .panel 0 }) with panels := [{ fetchPanel with psc := 144 }] } }
       ((s.dev.tiles[(0 : Fin 128)]).units.filter fun x => x.issue + 144 == s.dev.psc 0) = [u] ∧ geomTag u.ga = 2 ∧ geomTag u.gb = geomTag u.ga)
    ∧ (let u : UnitRec := ⟨0#32, 0, false, 3, TReg.reset, TReg.reset, 0x00091f3f#32, 0x00091f3f#32, false, none⟩
       let s : State := { tile0 with dev := { (tile0.dev.onTile 0 fun t => { t with units := [u], owner := .panel 0 }) with panels := [{ fetchPanel with psc := 144 }] } }
       ((s.dev.tiles[(0 : Fin 128)]).units.filter fun x => x.issue + 144 == s.dev.psc 0) = [u] ∧ geomTag u.ga ≠ 1 ∧ geomTag u.ga ≠ 2 ∧ geomTag u.gb = geomTag u.ga)
    ∧ (∀ x ∈ [none, some (tile0.tile.r.z[(0 : Fin 4)])],
        let u : UnitRec := ⟨0#32, 0, false, 3, TReg.reset, TReg.reset, 0x00091f3f#32, 0x00091f3f#32, false, x⟩
        let s : State := { tile0 with dev := { (tile0.dev.onTile 0 fun t => { t with units := [u], owner := .panel 0 }) with panels := [{ fetchPanel with psc := 144 }] } }
        ((s.dev.tiles[(0 : Fin 128)]).units.filter fun y => y.issue + 144 == s.dev.psc 0).map UnitRec.alone = [x]) := by
  refine ⟨?_, ?_, ?_, ?_, ?_⟩ <;> decide +kernel

theorem test_witness_AccumulatorOperations :
    let s := tileWith fun t => { t with sr := { t.sr with zs := Vector.replicate 4 0x200#32, bfmt := t.sr.bfmt.set 2 0x0003000a#32 } }
    let e := tileWith fun t => { t with sr := { t.sr with zs := Vector.replicate 4 0x200#32, bfmt := t.sr.bfmt.set 2 0x0003000d#32 } }
    (pathBusy s.tile.apath s.psc = false ∧ zsType s.tile.sr.zs[(0 : Fin 4)] ≠ 0 ∧ zsType s.tile.sr.zs[(3 : Fin 4)] = 2 ∧ bfmtFmt (s.sampleBfmt 2) ≠ 0)
    ∧ (let o := { mldOp .zout 2 16 128 0 (s.sampleBfmt 2) 0x00003f3f#32 0xa#4 0xa#4 with zo := some 3 }
       o.aligned false ∧ s.pathOk o 0x10000)
    ∧ (let o := mldOp .zout 2 0xe000 64 0 (e.sampleBfmt 2) 0x00003f3f#32 0xd#4 0xd#4
       codeBlock (bfmtFmt (e.sampleBfmt 2)) = true ∧ o.aligned true ∧ e.pathOk o 0xf000)
    ∧ (0xc000#16).toNat % 128 = 0 ∧ s.tile.mmaDue 0 = false ∧ tile0.pathOk (mldOp .zld 15 0xc000 128 3 (tile0.sampleBfmt 15) 0x00003f3f#32 0#4 0#4) 0x10000
    ∧ tile0.pathOk (mldOp .zst 15 0xc000 128 3 (tile0.sampleBfmt 15) 0x00003f3f#32 0#4 0#4) 0x10000
    ∧ (0xfff0#16).toNat % 16 = 0 ∧ tile0.pathOk (mldOp .zstat 7 0xfff0 1 0 (tile0.sampleBfmt 7) 0x00003f3f#32 0#4 0#4) 0x10000 := by
  simp only [PathOp.aligned, State.pathOk]
  decide +kernel

/-- Tile 0 with `v` in s3, and s4 poisoned. -/
def addrState (v : W64) : State := tileWith fun t => { t with r := { t.r with s := t.r.s.set 3 v, sPoison := 16#32 } }

theorem test_witness_TimedLoadsAndStoresIssue :
    (∀ x ∈ [0, 0xffff0, 0x1000000, 0x117fff0], let v := BitVec.ofNat 64 x; (addrState v).cur = .tile 0 ∧ (addrState v).poisonS 3 = false
      ∧ (addrState v).dkAwake .i64 31 ∧ (addrState v).timedOk v 8 false [2] ∧ (addrState v).timedOk v 8 true [3])
    ∧ ((addrState 0xff80#64).dkAwake .vb 31 ∧ (addrState 0xff80#64).timedOk 0xff80#64 128 true [3] ∧ (addrState 0xff80#64).timedOk 0xff80#64 (dkBytes (dk2Kind .vb)) false [2])
    ∧ ((0x1dff8#64).toNat % dkBytes .i64 = 0 ∧ (0x1dff8#64).toNat + dkBytes .i64 ≤ 0x1e000 ∧ (addrState 0#64).tile.c.idleHeld = false)
    ∧ (∀ x ∈ [0, 0xffffff, 0x1000000, 0x40000000],
        let s := tileWith fun t => { t with r := { t.r with s := t.r.s.set 4 (BitVec.ofNat 64 x), sPoison := 16#32 } }
        s.cur = .tile 0 ∧ s.poisonS 4 = true ∧ s.dkAwake .va 31 ∧ (lateralWindow (s.readS 4) = true ↔ x = 0x40000000)
          ∧ ((s.readS 4).toNat < 0x1000000 ↔ x < 0x1000000) ∧ s.tile.lands[(63 : Fin 64)].st = .free)
    ∧ (svc31.cur = .svc 31 ∧ svc31.poisonS 3 = false ∧ DKind.i64 ≠ .va ∧ (0x3fff8#64).toNat % dkBytes .i64 = 0 ∧ (0x3fff8#64).toNat + dkBytes .i64 ≤ 2 ^ 18) := by
  refine ⟨?_, ?_, ?_, ?_, ?_⟩ <;> first | decide +kernel | (simp only [State.timedOk, State.unwatched, State.dkAwake, State.awake]; decide +kernel)

/-- Tile 0 with one timed access. -/
def timed0 (dest : Dest) (pdrop : Bool) (a : Act) : Flight := { Flight.result 0 5 4 dest 9#1024 false with act := a, pdrop := pdrop }

theorem test_witness_TimedAccessesPerform :
    (∀ a ∈ ([.write 0 .tsp 0xfff0 16 3#1024, .write 0 .vault 0x17fff8 8 3#1024] : List Act), (timed0 .none false a).act = a ∧ (timed0 .none false a).pdrop = false
      ∧ (timed0 .none true a).pdrop = true ∧ (timed0 .none true a).dest = .none)
    ∧ (let s := tileWith fun t => { t with flight := [timed0 .none false (.write 0 .tsp 0xfff0 16 3#1024)] }
       s.dev.psc 0 = 0 ∧ 0xfff0 % 16 + 16 ≤ 16 ∧ (s.dev.tiles[(0 : Fin 128)]).flight = [timed0 .none false (.write 0 .tsp 0xfff0 16 3#1024)]
       ∧ (s.dev.tiles[(0 : Fin 128)]).tpath = [] ∧ (s.dev.tiles[(0 : Fin 128)]).apath = [] ∧ (s.dev.tiles[(0 : Fin 128)]).ops = [] ∧ memWf s.dev.mem = true)
    ∧ ((timed0 (.s 31) false (.read 0 .vault 0x17fff8 6#4)).act = .read 0 .vault 0x17fff8 6#4 ∧ 0x17fff8 % 16 + codeBytes 6#4 ≤ 16)
    ∧ (bfmtBad ((tile0.dev.tiles[(0 : Fin 128)]).sr.bfmt[idx 16 (0xff80 / 65536)]) = false ∧ 0xff80 % 65536 + 128 ≤ 65536)
    ∧ (∀ ord ∈ ([⟨false, false, 4⟩, ⟨true, true, 2⟩, ⟨true, true, 3⟩] : List AmoOrd),
        ((timed0 (.s 31) false (.amo 0 .tsp 0xffff8 .add 1#64 0#64 ord)).act = .amo 0 .tsp 0xffff8 .add 1#64 0#64 ord ∧ 0xffff8 % 8 = 0)
        ∧ ((ord.acq = false ∧ ord.rel = false ∨ ord.scope < 3) ↔ ord.scope ≠ 3)
        ∧ (let s : State := { tile0 with dev := { (tile0.dev.onTile 0 fun t => { t with owner := .panel 0, flight := [timed0 (.s 31) false (.rmw 0 .tsp 8 .cas 1#64 0#64 ord)] })
             with panels := [{ fetchPanel with psc := 1 }] } }
           0 + 1 = s.dev.psc 0 ∧ s.dev.dword (bankKey 0 0#32 0 8) = 0#64))
    ∧ (∀ sp ∈ [Space.tsp, .vault], (timed0 .none false (.write 0 sp 0 8 0#1024)).flags = 0#6 ∧ (timed0 .none true (.write 0 sp 0 8 0#1024)).pzero = false)
    ∧ (∀ z ∈ [0, 1], let s : State := { tile0 with saved := some ((tile0.dev.onTile 0 fun t => { t with sr := { t.sr with zctl := BitVec.ofNat 32 z } })) }
       ((s.start.tiles[(0 : Fin 128)]).sr.zctl.getLsbD 0 = true ↔ z = 1)) := by
  refine ⟨?_, ?_, ?_, ?_, ?_, ?_, ?_⟩ <;> decide +kernel

theorem test_witness_TimedPathAccessesPerform :
    (∀ k ∈ [PathKind.mld, .mldt, .mlds, .zld, .mst, .zout, .zst, .zstat], ∀ drop ∈ [false, true], ∀ tag ∈ [2, 13],
      let o := { path0 k with drop := drop, tag := BitVec.ofNat 4 tag, src := BitVec.ofNat 4 tag, bfmt := if tag = 13 then 0x0003000d#32 else 0x00030000#32 }
      let s := tileWith fun t => { t with tpath := [o], owner := .panel 0 }
      let w : State := { s with dev := { s.dev with panels := [{ fetchPanel with psc := o.first }] } }
      (w.dev.tiles[(0 : Fin 128)]).flight = [] ∧ (w.dev.tiles[(0 : Fin 128)]).tpath ++ (w.dev.tiles[(0 : Fin 128)]).apath = [o]
        ∧ (w.dev.tiles[(0 : Fin 128)]).ops = [] ∧ memWf w.dev.mem = true ∧ bfmtBad o.bfmt = false ∧ o.accesses = true
        ∧ o.first ≤ w.dev.psc 0 ∧ w.dev.psc 0 < o.first + o.cnt
        ∧ (o.blocks = 0 ∧ (o.access 0).1 + (o.access 0).2 ≤ 65536
            ∨ codeBlock (bfmtFmt o.bfmt) = true ∧ codeBlock o.tag.toNat = true ∧ (o.access 0).1 + (o.access 0).2 ≤ 0xf000)) := by
  decide +kernel

/-- Tiles 0 and 1 in a running 2 × 1 panel, tile 0 issuing. -/
def run2 (f : Tile → Tile) : State :=
  kliState.onDev fun d => (({ d with panels := [{ fetchPanel with w := 2 }] } : Dev).onTile 0 f).onTile 1 fun t => { t with owner := .panel 0, rank := 1 }

/-- The same with `v` in s3, and s4 poisoned. -/
def run2At (v : W64) : State := run2 fun t => { t with r := { t.r with s := t.r.s.set 3 v, sPoison := 16#32 } }

theorem test_witness_OutboundAndLandingOperationsIssue :
    (∀ x ∈ [0, 0xfffffffffffff8], let v := BitVec.ofNat 64 x; (addrState v).cur = .tile 0 ∧ (addrState v).poisonS 3 = false ∧ (addrState v).dkAwake .i64 31
      ∧ (addrState v).tile.lands[(63 : Fin 64)].st = .free ∧ (addrState v).dvaOk v 8 false ∧ (addrState v).dvaOk v 8 true ∧ (addrState v).entryFree)
    ∧ ((addrState 0xffffffffffff80#64).dkAwake .vb 31 ∧ (addrState 0xffffffffffff80#64).dvaOk 0xffffffffffff80#64 128 true
      ∧ (0xffffffffffffff#64).toNat < 2 ^ 56)
    ∧ (∀ x ∈ [0x40200000, 0x4037fff8], let v := BitVec.ofNat 64 x; lateralLoc ((run2At v).place ((run2At v).readS 3) 8) = true ∧ ((run2At v).readS 3).toNat % 8 = 0
      ∧ (run2At v).cur = .tile 0 ∧ (run2At v).unwatched v 8 false false ∧ (run2At v).unwatched v 8 true false ∧ (run2At v).entryFree)
    ∧ (addrState 0#64).poisonS 4 = true
    ∧ (let s := tileWith fun t => { t with r := { t.r with sPoison := 16#32 }, lands := t.lands.set 5 { Land.reset with st := .late }, ops := List.replicate 64 { op0 .stg with entry := true } }
       s.tile.lands[(5 : Fin 64)].st ≠ .free ∧ ¬ s.entryFree ∧ s.poisonS 4 = true ∧ s.cur = .tile 0) := by
  refine ⟨?_, ?_, ?_, ?_, ?_⟩ <;> first | decide +kernel | (simp only [State.dvaOk, State.unwatched, State.dkAwake, State.awake, State.entryFree]; decide +kernel)

/-- The same panel with every outbound entry of tile 0 and its landing slot 5 taken. -/
def fullAt (v : W64) : State := run2 fun t =>
  { t with r := { t.r with s := t.r.s.set 3 v, sPoison := 16#32 }, lands := t.lands.set 5 { Land.reset with st := .held },
           ops := List.replicate 64 { op0 .stg with entry := true } }

theorem test_witness_OutboundAndLandingOperationsAreTurnedAway :
    (∀ x ∈ [0, 0xffffffffffff80], let v := BitVec.ofNat 64 x; (fullAt v).cur = .tile 0 ∧ (fullAt v).dkAwake .i64 31
      ∧ (fullAt v).tile.lands[(5 : Fin 64)].st ≠ .free ∧ (fullAt v).dvaOk ((fullAt v).readS 3) 8 false ∧ (fullAt v).dvaOk ((fullAt v).readS 3) 8 true
      ∧ (fullAt v).dvaOk ((fullAt v).readS 3) 128 true ∧ ¬ (fullAt v).entryFree)
    ∧ (∀ x ∈ [0x40200000, 0x4037fff8], let v := BitVec.ofNat 64 x
        lateralWindow ((fullAt v).readS 3) = true ∧ lateralLoc ((fullAt v).place ((fullAt v).readS 3) 8) = true ∧ ((fullAt v).readS 3).toNat % 8 = 0
        ∧ (fullAt v).unwatched ((fullAt v).readS 3) 8 false false ∧ (fullAt v).unwatched ((fullAt v).readS 3) 8 true false)
    ∧ ((addrState 0#64).poisonS 4 = true ∧ (addrState 0#64).entryFree) := by
  refine ⟨?_, ?_, ?_⟩ <;> first | decide +kernel | (simp only [State.dvaOk, State.unwatched, State.dkAwake, State.entryFree]; decide +kernel)

theorem test_witness_AtomicsIssue :
    (∀ x ∈ [0x8000000000000008, 0x800000000117fff8], let v := BitVec.ofNat 64 x; (addrState v).cur = .tile 0 ∧ (addrState v).poisonS 3 = false ∧ (addrState v).poisonS 31 = false
      ∧ v.getLsbD 63 = true ∧ v.toNat / 2 ^ 32 % 2 ^ 31 = 0 ∧ (addrState v).timedOk (v &&& 0xffffffff#64) 8 true [2, 3])
    ∧ (∃ (i : Instr) (q : Option Scope), i = .amoSwap 31 3 63 ⟨true, 4095#12⟩ q ∧ q = some .sys)
    ∧ (∃ (i : Instr) (q : CasQual), i = .cas 30 3 63 ⟨true, 4095#12⟩ q ∧ q = .ar .sys ∧ (addrState 8#64).poisonS (30 + 1) = false)
    ∧ ((8#64).getLsbD 63 = false ∧ (addrState 8#64).tile.lands[(63 : Fin 64)].st = .free ∧ (addrState 8#64).dvaOk 8#64 8 true)
    ∧ (5#64 = 5#64 ∧ 5#64 ≠ 6#64)
    ∧ (∀ x ∈ [0x8000000040200000, 0x800000004037fff8], let v := BitVec.ofNat 64 x
        (run2At v).cur = .tile 0 ∧ (run2At v).poisonS 3 = false ∧ (run2At v).poisonS 31 = false ∧ ((run2At v).readS 3).getLsbD 63 = true
        ∧ ((run2At v).readS 3).toNat / 2 ^ 32 % 2 ^ 31 = 0 ∧ (run2At v).tile.lands[(63 : Fin 64)].st = .free
        ∧ ((run2At v).readS 3 &&& 0xffffffff#64).toNat % 8 = 0 ∧ lateralLoc ((run2At v).place ((run2At v).readS 3 &&& 0xffffffff#64) 8) = true
        ∧ (run2At v).unwatched ((run2At v).readS 3 &&& 0xffffffff#64) 8 true false) := by
  refine ⟨?_, ⟨_, _, rfl, rfl⟩, ⟨_, _, rfl, rfl, by decide +kernel⟩, ?_, by decide, ?_⟩ <;> first | decide +kernel | (simp only [State.timedOk, State.dvaOk, State.unwatched]; decide +kernel)

/-- A host line that the quad of tile 0 holds, with its low byte written. -/
def heldLine : SlcLine := { key := hostKey 0 0x1000 / 128, dirty := true, zero := false, victim := false, copy := some 5#1024, written := 1#128, space := some 0 }

theorem test_witness_FencesAndLateData :
    (tile0.cur = .tile 0 ∧ (tile0.dev.tiles[(0 : Fin 128)]).ops = [] ∧ (tile0.dev.tiles[(0 : Fin 128)]).timedPending tile0.psc = false ∧ tile0.dev.posted = []
      ∧ min 2 (tile0.dev.ceiling 0) < 3)
    ∧ (let s := kliState.onDev fun d => d.onQuad 0 fun q => { q with slc := [heldLine] }
       3 ≤ min 4 (s.dev.ceiling 0) ∧ s.dev.boltOf 0 = some 0 ∧ memWf s.dev.mem = true ∧ (0 : Fin 32) ∈ s.dev.boltQuads 0 ∧ heldLine ∈ s.dev.quads[(0 : Fin 32)].slc
        ∧ heldLine.copy = some 5#1024 ∧ heldLine.written.getLsbD 0 = true
        ∧ ∀ q2 ∈ s.dev.boltQuads 0, ∀ l2 ∈ s.dev.quads[q2].slc, l2.key = heldLine.key → q2 = 0 ∧ l2 = heldLine)
    ∧ (∀ st ∈ [LandSt.ready, .failed, .late], (tileWith fun t => { t with lands := t.lands.set 63 { Land.reset with st := st } }).tile.lands[(63 : Fin 64)].st = st)
    ∧ (∀ st ∈ [LandSt.held, .failed, .wait], let s := tileWith fun t => { t with lands := t.lands.set 63 { Land.reset with st := st, psn := true } }
        ((s.dev.tiles[(0 : Fin 128)]).lands[(63 : Fin 64)]).due = s.dev.psc 0 ∧ ((s.dev.tiles[(0 : Fin 128)]).lands[(63 : Fin 64)]).st = st)
    ∧ (∀ st ∈ [LandSt.wait, .late], ∀ failed ∈ [false, true],
        let o := { op0 .ldg with stage := .performed, ls := some 63, failed := failed }
        let s := tileWith fun t => { t with lands := t.lands.set 63 { Land.reset with st := st }, ops := [o] }
        (s.dev.tiles[(0 : Fin 128)]).ops = [o] ∧ o.stage = .performed ∧ o.ls = some 63 ∧ ((s.dev.tiles[(0 : Fin 128)]).lands[(63 : Fin 64)]).st = st) := by
  refine ⟨?_, ?_, ?_, ?_, ?_⟩ <;> decide +kernel

theorem test_witness_LaunchAndEventOperationsIssue :
    (∀ x ∈ [0, 0xffffffffffff80], let v := BitVec.ofNat 64 x; (addrState v).cur = .tile 0 ∧ (addrState v).entryFree ∧ (addrState v).poisonS 3 = false
      ∧ (addrState v).sopdPoison (.reg 31) = false ∧ ((addrState v).readS 3).toNat % 128 = 0 ∧ ((addrState v).readS 3).toNat < 2 ^ 56)
    ∧ (addrState 0#64).poisonS 4 = true := by
  refine ⟨?_, ?_⟩ <;> first | decide +kernel | (simp only [State.entryFree]; decide +kernel)

/-- A beat of rank 1 that arrives at rank 0 on cycle 4. -/
def beat10 : Beat := { id := 0, src := 1, route := [0], each := false, launch := 2, issue := 0, faddr := 16#32, data := 7#1024, poison := false, taken := [], extra := [] }

/-- The 2 × 1 panel on the cycle on which the beats `l` are in flight. -/
def beatState (l : List Beat) : State := (run2 id).onDev fun d => { d with panels := [{ fetchPanel with w := 2, psc := 4, beats := l }] }

theorem test_witness_TimedExchange :
    ((run2 id).cur = .tile 0 ∧ (run2 id).dev.panelOf 0 = some { fetchPanel with w := 2 } ∧ (run2 id).awake .b [31] ∧ (1 : Fin 128).val < 2 * 1)
    ∧ ((beatState [beat10]).cur = .tile 0 ∧ (beatState [beat10]).dev.panelOf 0 = some { fetchPanel with w := 2, psc := 4, beats := [beat10] }
      ∧ (beatState [beat10]).arriving 1 = some beat10 ∧ (beatState [beat10]).awake .a [31])
    ∧ ((beatState [beat10]).dev.panel 0 = some { fetchPanel with w := 2, psc := 4, beats := [beat10] }
      ∧ (∀ b ∈ [beat10], b.loses [beat10] 4 = false ∧ (beatState [beat10]).dev.selDrops { fetchPanel with w := 2, psc := 4, beats := [beat10] } b 4 = false)
      ∧ beat10.arrives 0 4 = true ∧ 0 ∉ beat10.taken)
    ∧ (∀ off ∈ [0, 0xff80], off % 16 = 0 ∧ off + 128 ≤ 0x10000 ∧ (beatState [beat10]).tile.owned 15 = false ∧ (beatState [beat10]).tile.portUses = [])
    ∧ ((beatState []).cur = .tile 0 ∧ (beatState []).arriving 1 = none ∧ (beatState []).awake .b [31] ∧ (beatState []).tile.owned 15 = false
        ∧ (beatState []).tile.portUses = [])
    ∧ (let f : Flight := { Flight.result 0 5 2 (.beat 0) 0#1024 false with act := .read 0 .tsp (15 * 65536 + 0xff80) 8#4 }
       let s := run2 fun t => { t with flight := [f] }
       s.dev.panelOf 0 = some { fetchPanel with w := 2 } ∧ (s.dev.tiles[(0 : Fin 128)]).flight = [f] ∧ (s.dev.tiles[(0 : Fin 128)]).tpath = []
        ∧ (s.dev.tiles[(0 : Fin 128)]).apath = [] ∧ (s.dev.tiles[(0 : Fin 128)]).ops = [] ∧ s.dev.psc 0 = 0 ∧ f.act = .read 0 .tsp (15 * 65536 + 0xff80) 8#4
        ∧ f.dest = .beat 0 ∧ f.flags = 0#6 ∧ f.pzero = false
        ∧ ∀ i ∈ List.range 128, s.dev.bad (bankKey 0 ((s.dev.tiles[(0 : Fin 128)]).sr.bfmt[(15 : Fin 16)]) 15 (0xff80 + i)) 1 = false)
    ∧ (let x : Beat := { beat10 with launch := 4 }
       let y : Beat := { x with id := 1, issue := 1 }
       let p : Panel := { fetchPanel with w := 2, psc := 4, beats := [x, y] }
       (beatState [x, y]).dev.panel 0 = some p ∧ (∀ b ∈ p.beats, (beatState [x, y]).dev.selDrops p b 4 = false)
        ∧ y.link 4 = some (1, 0) ∧ x.link 4 = some (1, 0) ∧ x.src = y.src ∧ x.issue < y.issue ∧ 4 < y.last) := by
  refine ⟨?_, ?_, ?_, ?_, ?_, ?_, ?_⟩ <;> first | decide +kernel | (simp only [State.awake]; decide +kernel)

theorem test_witness_SemaphoresAndReduceIssue :
    ((addrState 0#64).cur = .tile 0 ∧ (addrState 0#64).dev.tiles[(0 : Fin 128)].ops = [])
    ∧ ((run2At 0#64).cur = .tile 0 ∧ (run2At 0#64).dev.panelOf 0 = some { fetchPanel with w := 2 } ∧ (run2At 0#64).entryFree)
    ∧ (∀ x ∈ [0, 0xfff80, 0xfef80], let v := BitVec.ofNat 64 x; (run2At v).poisonS 3 = false ∧ ((run2At v).readS 3).toNat % 128 = 0 ∧ ((run2At v).readS 3).toNat < 2 ^ 20)
    ∧ (0xfef80 % 65536 ≤ 0xef80 ∧ (run2At 0#64).awake .b [31])
    ∧ (let s := addrState 0x0fffff0001000080#64
       s.dkAwake .va 31 ∧ s.poisonS 3 = false ∧ (s.storeData .va 31).2 = false ∧ (s.readS 3).toNat % 2 ^ 32 % dkBytes .va = 0
        ∧ (s.readS 3).toNat / 2 ^ 60 = 0 ∧ (s.readS 3).toNat / 2 ^ 32 % 2 ^ 8 = 0)
    ∧ (let s := addrState 0x117ff80#64
       s.dkAwake .va 31 ∧ dk2Kind .va = .va ∧ s.lslotNames 63 = false ∧ ((s.dev.tiles[(0 : Fin 128)]).lands[(63 : Fin 64)]).st = .free ∧ s.poisonS 3 = false
        ∧ min 3 (s.dev.ceiling 0) = 3 ∧ (s.readS 3).toNat % min (dkBytes (dk2Kind .va)) 16 = 0 ∧ timedLoc (s.place (s.readS 3) (dkBytes (dk2Kind .va))) = true ∧ s.poisonS 4 = true)
    ∧ (((addrState 0xffff8#64).readS 3).toNat < 2 ^ 20 ∧ (addrState 0xffff8#64).tile.owned (((addrState 0xffff8#64).readS 3).toNat / 65536) = false)
    ∧ (∀ x ∈ [0, 0xfff80, 0xfef80], let v := BitVec.ofNat 64 x
        let s := (run2At v).onDev fun d => d.onTile 0 fun t => { t with sr := { t.sr with bfmt := t.sr.bfmt.set 15 0x0003000d#32 } }
        s.poisonS 3 = false ∧ (s.readS 3).toNat % 128 = 0 ∧ (s.readS 3).toNat < 2 ^ 20 ∧ s.tile.owned ((s.readS 3).toNat / 65536) = false
        ∧ s.tile.portUses = [] ∧ ((s.readS 3).toNat % 65536 ≤ 0xef80 ↔ x ≠ 0xfff80)
        ∧ (bfmtFmt (s.tile.sr.bfmt[idx 16 ((s.readS 3).toNat / 65536)]) = 0xd ↔ x ≠ 0)) := by
  refine ⟨?_, ?_, ?_, ?_, ?_, ?_, ?_, ?_⟩ <;> first | decide +kernel | (simp only [State.entryFree, State.dkAwake, State.awake]; decide +kernel)

/-- The 2 × 1 panel with one operation in tile 0's issue order, and a count of 1 in its semaphore 15. -/
def opState (o : MemOp) : State := run2 fun t => { t with ops := [o], sr := { t.sr with sem := t.sr.sem.set 15 1#32 } }

theorem test_witness_RemoteOperationsPerform :
    (∀ k ∈ [MKind.ldv, .stv], let o := { op0 k with addr := 0x4037fff8#64 }
      ((opState o).dev.tiles[(0 : Fin 128)]).ops = [o] ∧ (opState o).dev.panelOf 0 = some { fetchPanel with w := 2 } ∧ (opState o).dev.ready 0 0 = some o
      ∧ memWf (opState o).dev.mem = true ∧ locate 2 (o.addr.toNat % 2 ^ 32) o.size = some (.lateral 1 0x17fff8)
      ∧ (opState o).dev.routeDrop { fetchPanel with w := 2 } 0 1 = none ∧ (opState o).dev.routeDrop { fetchPanel with w := 2 } 1 0 = none)
    ∧ (∀ x ∈ [0, 1], ∀ scope ∈ [0, 3], let o := { op0 .amoV with addr := 0x4037fff8#64, amo := .cas, data2 := BitVec.ofNat 64 x, scope := scope, acq := true }
       (opState o).dev.ready 0 0 = some o ∧ locate 2 (o.addr.toNat % 2 ^ 32) o.size = some (.lateral 1 0x17fff8)
        ∧ (∀ q : Fin 32, ((opState o).dev.quads[q]).slc = []) ∧ ((opState o).dev.dword (vaultKey 1 0x17fff8) ≠ o.data2 ↔ x = 1))
    ∧ (let o := { op0 .semv with dst := 1, sem := 15 }
       (opState o).dev.ready 0 0 = some o ∧ (opState o).dev.routeDrop { fetchPanel with w := 2 } 0 o.dst = none)
    ∧ (let o := { op0 .sndr with dst := 1, addr := 0xfff80#64, size := 128 }
       (opState o).dev.ready 0 0 = some o ∧ o.rty = 0#2 ∧ ((opState o).dev.tiles[(1 : Fin 128)]).owned (o.addr.toNat % 2 ^ 20 / 65536) = false)
    ∧ (∀ rty ∈ [1, 2, 3], ∀ poison ∈ [false, true], ∀ bown ∈ [0, 0x8000], ∀ fmt ∈ [0x00030000, 0x0003000d],
       let o := { op0 .sndr with dst := 1, addr := 0xfef80#64, size := 128, rty := BitVec.ofNat 2 rty, srcFmt := 0xd#4, scales := 0x7f7f7f7f#32, poison := poison }
       let s := (opState o).onDev fun d => d.onTile 1 fun t =>
         { t with sr := { t.sr with bown := BitVec.ofNat 16 bown, bfmt := t.sr.bfmt.set 15 (BitVec.ofNat 32 fmt) } }
       s.dev.ready 0 0 = some o ∧ s.dev.routeDrop { fetchPanel with w := 2 } 0 o.dst = none ∧ o.poison = poison
        ∧ ((s.dev.tiles[(1 : Fin 128)]).owned (o.addr.toNat % 2 ^ 20 / 65536) = true ↔ bown ≠ 0)
        ∧ ((o.rty = 3#2 ∧ bfmtFmt ((s.dev.tiles[(1 : Fin 128)]).sr.bfmt[idx 16 (o.addr.toNat % 2 ^ 20 / 65536)]) ≠ 0xd
              ∧ bfmtFmt ((s.dev.tiles[(1 : Fin 128)]).sr.bfmt[idx 16 (o.addr.toNat % 2 ^ 20 / 65536)]) ≠ 0xe)
            ↔ rty = 3 ∧ fmt = 0x00030000))
    ∧ (let o := { op0 .xrcvf with addr := 0x117fff8#64, sem := 15 }
       (opState o).dev.ready 0 0 = some o ∧ 1 ≤ (((opState o).dev.tiles[(0 : Fin 128)]).sr.sem[o.sem]).toNat ∧ o.addr.toNat = 0x1000000 + 0x17fff8 ∧ 0x17fff8 + o.size ≤ 0x180000
        ∧ ∀ q : Fin 32, ((opState o).dev.quads[q]).slc = [])
    ∧ (let o := { op0 .xrcvf with addr := 0xffff8#64, sem := 15 }
       (opState o).dev.ready 0 0 = some o ∧ 1 ≤ (((opState o).dev.tiles[(0 : Fin 128)]).sr.sem[o.sem]).toNat ∧ o.addr.toNat < 2 ^ 20
        ∧ o.addr.toNat % 65536 + o.size ≤ 65536)
    ∧ (∀ k ∈ [MKind.stv, .semv, .sndr], let o := { op0 k with entry := true }
       (opState o).dev.tiles[(0 : Fin 128)].ops[0]? = some o ∧ (opState o).dev.working 0 = true ∧ o.stage = .issued ∧ o.tspRead = none)
    ∧ (∀ x ∈ [0x117fff8, 0xffff8], let f : SeamFlit := ⟨0, 0, 31, 1, 15, false, BitVec.ofNat 64 x, 9#1024⟩
       let o := { op0 .xfar with stage := .accepted, addr := BitVec.ofNat 64 x, sem := 15, data := 9#1024, n := f.stile }
       let s := (run2 id).onDev fun d => (({ d with far := [f], mc := { d.mc with config := { d.mc.config with spacl := d.mc.config.spacl.set 0 [(0, 0x80000000#32)] } } } : Dev).onTile 1 fun t =>
         { t with ops := [o] })
       s.dev.far = [f] ∧ f.sdev = s.dev.mc.config.spdev ∧ (s.dev.tiles[idx 128 f.stile]).ops = [o] ∧ o.kind = .xfar ∧ o.stage = .accepted ∧ o.addr = f.far
        ∧ o.n = f.stile ∧ o.sem = f.sem ∧ o.data = f.data ∧ (s.dev.routers[idx 128 f.stile]).fence = 0#4
        ∧ fieldOf f.far 52 8 = s.dev.mc.config.spdev ∧ (s.dev.routers[(0 : Fin 128)]).fence = 0#4 ∧ s.dev.boltValid 0 = true
        ∧ s.dev.boltHasQuad 0 (quadOf 0) = true
        ∧ (∃ e ∈ s.dev.mc.config.spacl[(0 : Fin 32)], e.1 = s.dev.mc.config.spdev ∧ e.2.getLsbD f.sbolt = true) ∧ s.dev.working 0 = true
        ∧ (x = 0x117fff8 → 0x1000000 ≤ fieldOf f.far 0 32 ∧ fieldOf f.far 0 32 + 8 ≤ 0x1000000 + 0x180000)
        ∧ (x = 0xffff8 → fieldOf f.far 0 32 < 2 ^ 20 ∧ fieldOf f.far 0 32 % 65536 + 8 ≤ 65536 ∧ (s.dev.tiles[(0 : Fin 128)]).owned 15 = false
            ∧ bfmtBad ((s.dev.tiles[(0 : Fin 128)]).sr.bfmt[(15 : Fin 16)]) = false ∧ memWf s.dev.mem = true)) := by
  refine ⟨?_, ?_, ?_, ?_, ?_, ?_, ?_, ?_, ?_⟩ <;> decide +kernel

/-- A page table of space 0 of bolt 0 that maps the first gibibyte to itself, readable and writable. -/
def pageTable : List Host.Cell :=
  [(2 ^ 40, 0x01#8), (2 ^ 40 + 1, 0x10#8), (2 ^ 40 + 0x1000, 0x01#8), (2 ^ 40 + 0x1001, 0x20#8), (2 ^ 40 + 0x2000, 0x01#8), (2 ^ 40 + 0x2001, 0x30#8),
   (2 ^ 40 + 0x3000, 0x0f#8)]

/-- The 2 × 1 panel with that page table in memory. -/
def mapped (f : Tile → Tile) : State := (run2 f).onDev fun d => { d with mem := pageTable }

theorem test_witness_GlobalAccessesPerform :
    ∀ k ∈ [MKind.ldg, .stg, .amoG],
      let o := { op0 k with addr := 0x3ffffff8#64 }
      let s := mapped fun t => { t with ops := [o] }
      ((s.dev.tiles[(0 : Fin 128)]).ops = [o] ∧ s.dev.ready 0 0 = some o ∧ s.dev.boltOf 0 = some 0 ∧ s.dev.panelOf 0 = some { fetchPanel with w := 2 }
        ∧ (s.dev.openOn 0 0 (s.dev.genOf 0) (o.addr.toNat / 4096) o.kind.access).isNone = true
        ∧ (tlbFind (s.dev.tiles[(0 : Fin 128)]).tlb 0 (s.dev.genOf 0) o.addr.toNat).isNone = true
        ∧ (tlbFind (s.dev.quads[quadOf 0]).tlb 0 (s.dev.genOf 0) o.addr.toNat).isNone = true ∧ (s.dev.quads[quadOf 0]).walk = [])
      ∧ (s.dev.walkFresh 0 0 o.addr.toNat).1 = .leaf 2 0x0f#64 ∧ leafFault o.kind.access 0x0f#64 = none ∧ pteLoc 0x0f#64 = 0
      ∧ s.dev.bpaKey 0 (pteAddr 0x0f#64 + o.addr.toNat % 2 ^ levelShift 2) = some (2 ^ 40 + 0x3ffffff8) ∧ 2 ^ 40 + 0x3ffffff8 < 2 ^ 41
      ∧ (∀ q : Fin 32, (s.dev.quads[q]).slc = [])
      ∧ (let e : TlbEnt := ⟨0, 0#32, 0, 2, 0x0f#64⟩
         let w := mapped fun t => { t with ops := [o], tlb := [e] }
         tlbFind (w.dev.tiles[(0 : Fin 128)]).tlb 0 (w.dev.genOf 0) o.addr.toNat = some e ∧ leafFault o.kind.access e.pte = none)
      ∧ (let e : TlbEnt := ⟨0, 0#32, 0, 2, 0x01#64⟩
         let w := mapped fun t => { t with ops := [o], tlb := [e] }
         tlbFind (w.dev.tiles[(0 : Fin 128)]).tlb 0 (w.dev.genOf 0) o.addr.toNat = some e ∧ leafFault o.kind.access e.pte ≠ none) := by
  decide +kernel

theorem test_witness_GlobalAccessesFault :
    ∀ k ∈ [MKind.ldg, .stg, .amoG], ∀ x ∈ [0x40000000, 0xffffffffffffe8],
      let o := { op0 k with addr := BitVec.ofNat 64 x, ls := if k = .stg then none else some 63 }
      let s := mapped fun t => { t with ops := [o] }
      let f : OpenFault := ⟨3, 0, 0#32, .notPresent, x / 4096, 0⟩
      let w := s.onDev fun d => d.onBolt 0 fun b => { b with faults := [f] }
      ((s.dev.tiles[(0 : Fin 128)]).ops = [o] ∧ s.dev.ready 0 0 = some o ∧ s.dev.boltOf 0 = some 0 ∧ s.dev.panelOf 0 = some { fetchPanel with w := 2 }
        ∧ (s.dev.bolts[(0 : Fin 32)]).faults = [] ∧ (s.dev.bolts[(0 : Fin 32)]).faultq = []
        ∧ (s.dev.tiles[(0 : Fin 128)]).tlb = [] ∧ (s.dev.quads[quadOf 0]).tlb = [] ∧ (s.dev.quads[quadOf 0]).walk = []
        ∧ (match (s.dev.walkFresh 0 0 o.addr.toNat).1 with | .fault k _ _ => k == .notPresent | .leaf _ _ => false) = true
        ∧ FKindT.notPresent.recoverable = true ∧ leafFault o.kind.access 0x01#64 = some .perm
        ∧ (let n := s.onDev fun d => { d with mem := [] }
           n.dev.ready 0 0 = some o ∧ (n.dev.walkFresh 0 0 o.addr.toNat).1 = .fault .space 0xff 0#64 ∧ FKindT.space.recoverable = false))
      ∧ (w.dev.ready 0 0 = some o ∧ w.dev.openOn 0 0 (w.dev.genOf 0) (x / 4096) o.kind.access = some f) := by
  decide +kernel

theorem test_witness_BoltPhysicalAddresses :
    (kliState.dev.boltQuads 0).length = 1 ∧ 8 * 2 ^ 30 - 1 < (kliState.dev.boltQuads 0).length * (8 * 2 ^ 30)
    ∧ (kliState.dev.boltQuads 0).length * (8 * 2 ^ 30) ≤ 8 * 2 ^ 30 ∧ kliState.dev.bpaKey 0 (2 ^ 33 + 8 * levelIndex 0 0) = none
    ∧ State.reset.dev.bpaKey 31 (32 * 5) = none := by
  decide +kernel

/-- A 2 × 1 panel whose tile k owns an FRZ slot in WAIT that is due, or is held for longer than the limit. -/
def waitAt (k : Fin 128) : State := (run2 id).onDev fun d => d.onTile k fun t => { t with lands := t.lands.set 63 { Land.reset with st := .wait } }
def lateAt (k : Fin 128) : State := (run2 id).onDev fun d => d.onTile k fun t => { t with c := { t.c with held := some ⟨7, 3#128, 4097, none⟩ } }

theorem test_witness_TimingFaultTiles :
    ∀ k ∈ [(0 : Fin 128), 1], (waitAt k).dev.panel 0 = some { fetchPanel with w := 2 } ∧ (lateAt k).dev.panel 0 = some { fetchPanel with w := 2 }
      ∧ ∀ j ∈ [(0 : Fin 128), 1],
          ((∃ ls : Fin 64, (((waitAt k).dev.tiles[j]).lands[ls]).st = .wait ∧ (((waitAt k).dev.tiles[j]).lands[ls]).psn = false
              ∧ (((waitAt k).dev.tiles[j]).lands[ls]).due = 0) ↔ j = k)
          ∧ ((((lateAt k).dev.tiles[j]).c.held.elim false fun x => decide (fetchPanel.pstall < x.cycles)) = true ↔ j = k) := by
  decide +kernel

theorem test_witness_BarriersAndTimingFaults :
    (let s := run2 fun t => { t with sr := { t.sr with gm := t.sr.gm.set 6 3#128 } }
     s.dev.panelOf 0 = some { fetchPanel with w := 2 } ∧ ((s.dev.tiles[(0 : Fin 128)]).sr.gm[(6 : Fin 7)]).getLsbD (s.dev.tiles[(0 : Fin 128)]).rank = true
      ∧ ((s.dev.tiles[(0 : Fin 128)]).sr.gm[(6 : Fin 7)]).toNat < 2 ^ 2
      ∧ (∀ k ∈ ({ fetchPanel with w := 2 } : Panel).tiles, (s.dev.tiles[k]).c.held = none))
    ∧ ((run2 id).dev.tiles[(0 : Fin 128)].sr.gm[(0 : Fin 7)]).getLsbD 0 = false
    ∧ (let s := run2 fun t => { t with c := { t.c with held := some ⟨7, 3#128, 2, some 0⟩ } }
       s.dev.panel 0 = some { fetchPanel with w := 2 } ∧ ({ fetchPanel with w := 2 } : Panel).tiles.Nodup ∧ (0 : Fin 128) ∈ ({ fetchPanel with w := 2 } : Panel).tiles
        ∧ (s.dev.tiles[(0 : Fin 128)]).c.held = some ⟨7, 3#128, 2, some 0⟩ ∧ (s.dev.tiles[(1 : Fin 128)]).c.held = none)
    ∧ (∀ last ∈ [none, some 7, some 6], let s0 := run2 fun t => { t with c := { t.c with held := some ⟨7, 3#128, 2, none⟩ } }
       let s : State := { s0.onDev (fun d => d.onTile 1 fun t => { t with c := { t.c with held := last.map fun g => ⟨g, 3#128, 2, none⟩ } }) with agenda := [.endIssue 0] }
       s.agenda = [.endIssue 0] ∧ s.dev.panel 0 = some { fetchPanel with w := 2 } ∧ s.dev.raised = [] ∧ s.dev.timingMask { fetchPanel with w := 2 } = 0
        ∧ ({ fetchPanel with w := 2 } : Panel).tiles.Nodup ∧ (0 : Fin 128) ∈ ({ fetchPanel with w := 2 } : Panel).tiles
        ∧ (s.dev.tiles[(0 : Fin 128)]).c.held = some ⟨7, 3#128, 2, none⟩ ∧ (s.dev.tiles[({ fetchPanel with w := 2 } : Panel).tile 1]).c.held = last.map fun g => ⟨g, 3#128, 2, none⟩)
    ∧ (let s := ((State.reset.placeWord 64 0x3400000400000001).onDev fun d => d.onTile 0 fun t => { t with toks := t.toks.set 4 { Token.reset with st := .pending } })
       s.dev.panel 0 = some fetchPanel ∧ s.dev.waitsInTkw 0 = true)
    ∧ 0 < ({ fetchPanel with w := 2 } : Panel).size := by
  refine ⟨?_, ?_, ?_, ?_, ?_, ?_⟩ <;> decide +kernel

/-- A transfer of `ce.go` with record `r`. -/
def xfer0 (r : BitVec 512) : Xfer :=
  { cmd := .go, record := r, started := false, waits := [], bad := false, banks := Vector.replicate 16 0#32, row := 0, elem := 0, inPos := 0,
    part := 0, rowAt := none, replay := false, todo := [], tail := none, noMore := false, fail := none, wait := .no, issue := 0 }

/-- A raw record that moves 128 bytes inside the own vault. -/
def goRecord : BitVec 512 := 0x10000008080000000010001008000000001000000#512

/-- The 2 × 1 panel, tile 0 issuing, with a token 31 of tile 0. -/
def tokState (st : TokSt) (x : Option Xfer) : State := run2 fun t => { t with toks := t.toks.set 31 { Token.reset with st := st, xfer := x } }

theorem test_witness_CopyCommandsIssue :
    ((addrState 0xfffc0#64).cur = .tile 0 ∧ ((addrState 0xfffc0#64).dev.tiles[(0 : Fin 128)].toks[(31 : Fin 32)]).st ≠ .pending
      ∧ (addrState 0xfffc0#64).poisonS 3 = false ∧ ((addrState 0xfffc0#64).readS 3).toNat < 2 ^ 20 ∧ ((addrState 0xfffc0#64).readS 3).toNat % 64 = 0
      ∧ ((addrState 0xfffc0#64).dev.tiles[(0 : Fin 128)]).owned (((addrState 0xfffc0#64).readS 3).toNat / 65536) = false ∧ (addrState 0#64).poisonS 4 = true
      ∧ ((addrState 0#64).dev.tiles[(0 : Fin 128)].toks[(31 : Fin 32)]).st ≠ .pending)
    ∧ (∀ st ∈ [TokSt.part, .pending], ((tokState st (some (xfer0 goRecord))).dev.tiles[(0 : Fin 128)].toks[(31 : Fin 32)]).st = st
      ∧ ((tokState st (some (xfer0 goRecord))).dev.tiles[(0 : Fin 128)].toks[(31 : Fin 32)]).xfer = some (xfer0 goRecord))
    ∧ ((tokState .part (some (xfer0 goRecord))).dev.tiles[(0 : Fin 128)].toks[(0 : Fin 32)]).st ≠ .pending
    ∧ (∀ st ∈ [TokSt.free, .done, .failed], ((tokState st none).dev.tiles[(0 : Fin 128)].toks[(31 : Fin 32)]).st ≠ .part
      ∧ ((tokState st none).dev.tiles[(0 : Fin 128)].toks[(31 : Fin 32)]).st ≠ .pending) := by
  refine ⟨?_, ?_, ?_, ?_⟩ <;> decide +kernel

/-- A kernel image at DVA 0x10000: one panel, ENTRY 0 and the one bundle `halt`. -/
def imageCells : List Host.Cell :=
  [(2 ^ 40 + 0x10000, 0x4b#8), (2 ^ 40 + 0x10001, 0x52#8), (2 ^ 40 + 0x10002, 0x5a#8), (2 ^ 40 + 0x10003, 0x31#8), (2 ^ 40 + 0x10004, 0x01#8),
   (2 ^ 40 + 0x10008, 0x01#8), (2 ^ 40 + 0x10009, 0x01#8), (2 ^ 40 + 0x10010, 0x02#8), (2 ^ 40 + 0x10014, 0x01#8), (2 ^ 40 + 0x10020, 0x01#8),
   (2 ^ 40 + 0x10028, 0xa0#8), (2 ^ 40 + 0x1002c, 0xb8#8), (2 ^ 40 + 0x10038, 0xc0#8), (2 ^ 40 + 0x1003c, 0xed#8), (2 ^ 40 + 0x1003d, 0xfe#8),
   (2 ^ 40 + 0x1003e, 0xd2#8), (2 ^ 40 + 0x1003f, 0x2d#8), (2 ^ 40 + 0x100ac, 0x08#8), (2 ^ 40 + 0x100b0, 0xb8#8), (2 ^ 40 + 0x100b8, 0x01#8),
   (2 ^ 40 + 0x100bf, 0x40#8)]

/-- A cut record, a gang of it and a launch of that gang. -/
def cut0 (st : CutSt) : CutRec := ⟨0, st, none, none, 0, []⟩
def gang0 (st : CutSt) : Gang := ⟨0, [cut0 st], some 0, false, 0, false⟩
def launch0 (st : CutSt) (released done : Bool) : Launch :=
  { num := 0, vdev := 0, spool := 0, spoolByte := 0#8, record := BitVec.ofNat 1024 (0x10000 + 2 ^ 128 + 2 ^ 136 + 2 ^ 224),
    waits := [], depFail := false, released := released, nextGang := 1, gangs := [gang0 st], status := 0#32, done := done, doneDcc := 0, wait := .no }

/-- A vdev with those launches. -/
def vdev0 (l : List Launch) : Vdev :=
  { num := 0, desc := 0#512, bolt := 0, spools := Vector.replicate 16 Spool.reset, ltoks := Vector.replicate 256 LTok.reset, launches := l, slots := [],
    state := .active, vstat := 0#4, demcnt := 0, misscnt := 0, ovrcnt := 0, tailcnt := 0, eqhead := 0#32, eqtail := 0#32, eqctl := 0#32, eqdrop := 0,
    events := [], cridx := 0#32, crseq := 0#32, idleSince := 0, wakeAt := none, wakeCounted := 0, stopped := false, waitEq := .no, waitCr := .no,
    parked := false, noRoom := false, secured := [], securedAt := 0 }

/-- A 1 × 1 panel of that vdev's launch in a phase. -/
def panel0 (ph : Phase) : Panel := { fetchPanel with phase := ph, image := 0x10000#64 }

/-- Bolt 0 with that panel on tile 0, the vdev and the image in mapped memory. -/
def loaded (p : Panel) (v : Vdev) (f : Tile → Tile := id) : State :=
  kliState.onDev fun d => ({ d with panels := [p], vdevs := [v], mem := pageTable ++ imageCells } : Dev).onTile 0 f

/-- Whether a gang's reads have all come in, for one panel that is to be loaded. -/
def oneLoad : Dev × Option (List (Panel × Ready)) → Option Panel
  | (_, some [(p, .load _)]) => some p
  | _ => none

theorem test_witness_TransfersCutsAndHandlerEntries :
    ((tokState .pending (some (xfer0 goRecord))).dev.engineRuns 0 = true
      ∧ (let ok := { xfer0 goRecord with started := true }
         ok.badRecord = false ∧ ok.badBounds ((tokState .free none).dev.tiles[(0 : Fin 128)]) 2 = false ∧ ok.overlaps = false)
      ∧ { xfer0 0#512 with started := true }.badRecord = true
      ∧ (let x := { xfer0 0x10000004080000000011800008000000001000000#512 with started := true }
         x.badRecord = false ∧ x.badBounds ((tokState .free none).dev.tiles[(0 : Fin 128)]) 2 = true)
      ∧ (let x := { xfer0 0x10000004080000000010000208000000001000000#512 with started := true }
         x.badRecord = false ∧ x.badBounds ((tokState .free none).dev.tiles[(0 : Fin 128)]) 2 = false ∧ x.overlaps = true))
    ∧ (let x := { xfer0 goRecord with started := true }
       let s := tokState .pending (some x)
       s.dev.chunkReady 0 31 = some x ∧ s.dev.boltOf 0 = some 0 ∧ x.cmd = .go ∧ x.sfmt = 0 ∧ x.dfmt = 0 ∧ x.head = some ⟨0, 0, 128⟩
        ∧ rowAddr x.src x.spitch 0 + 0 = 2 ^ 63 + 0x1000000 + 0 ∧ rowAddr x.dst x.dpitch 0 + 0 = 2 ^ 63 + 0x1000000 + 0x100
        ∧ (x.take 128).ended = true ∧ (x.take 127).ended = false ∧ s.dev.bad (vaultKey 0 0) 128 = false ∧ s.dev.bad (vaultKey 0 0x100) 128 = false ∧ (∀ q : Fin 32, (s.dev.quads[q]).slc = []) ∧ memWf s.dev.mem = true)
    ∧ (let p := panel0 .loading
       let l := launch0 (.placed 0) true false
       let s := loaded p (vdev0 [l])
       s.dev.panel 0 = some p ∧ s.dev.vdev 0 = some (vdev0 [l]) ∧ s.dev.launch 0 0 = some l
        ∧ (∀ q ∈ s.dev.starters p, q.startAt ≤ s.dev.dcc ∧ q.wait.free = true ∧ s.dev.undrained q = false)
        ∧ oneLoad (Dev.readyAll (vdev0 [l]) l (s.dev.starters p) s.dev) = some p)
    ∧ (let p := panel0 .running
       let s := loaded p (vdev0 []) fun t => { t with c := { t.c with halted := true } }
       s.dev.panel 0 = some p ∧ p.phase = .running ∧ p.pre = none ∧ (∀ n ∈ p.tiles, (s.dev.tiles[n]).quiet p.psc = true)
        ∧ (∀ q : Fin 32, (s.dev.quads[q]).slc = []) ∧ s.dev.posted = [])
    ∧ (let s := fun (f : Dev → Dev) => (kliState.onDev f).onDev fun d => d.onSvc 0 fun c => { c with run := .wait, sstat := 1#32 }
       ((s id).dev.svcs[(0 : Fin 32)].sstat.getLsbD 0 = true ∧ (s id).dev.boltOfQuad 0 = some 0 ∧ ((s id).dev.svcs[(0 : Fin 32)]).run = .wait)
        ∧ ((s fun d => d.onSvc 0 fun c => { c with trapq := [0#512] }).dev.svcs[(0 : Fin 32)]).trapq ≠ []
        ∧ ((s fun d => d.onBolt 0 fun b => { b with faultq := [0#512] }).dev.bolts[(0 : Fin 32)]).faultq ≠ []
        ∧ ((s fun d => d.onBolt 0 fun b => { b with plcq := [0#512] }).dev.bolts[(0 : Fin 32)]).plcq ≠ []
        ∧ ((s fun d => d.onSvc 0 fun c => { c with mcmsg := true }).dev.svcs[(0 : Fin 32)]).mcmsg = true
        ∧ ((s id).dev.svcs[(0 : Fin 32)]).trapq = [] ∧ ((s id).dev.bolts[(0 : Fin 32)]).faultq = [] ∧ ((s id).dev.bolts[(0 : Fin 32)]).plcq = []) := by
  refine ⟨?_, ?_, ?_, ?_, ?_⟩ <;> decide +kernel

/-- Service core 0 issuing with `a` in s3 and `c` in s5, over a frozen or running panel on tile 0. -/
def coreState (ph : Phase) (a c : Nat) (f : Tile → Tile := id) : State :=
  { (loaded (panel0 ph) (vdev0 []) f).onDev (fun d => d.onSvc 0 fun q => { q with s := (q.s.set 3 (BitVec.ofNat 64 a)).set 5 (BitVec.ofNat 64 c) }) with cur := .svc 0 }

theorem test_witness_FrozenPanelOperations :
    (∀ ph ∈ [Phase.trap, .debug], (coreState ph 0 0).cur = .svc 0 ∧ (coreState ph 0 0).dev.boltOfQuad 0 = some 0 ∧ (coreState ph 0 0).dev.boltOf 0 = some 0
      ∧ (coreState ph 0 0).dev.panelOf 0 = some (panel0 ph))
    ∧ ((coreState .trap 0 0).dev.badWords = [] ∧ (coreState .trap 0 0).dev.softWords = [])
    ∧ (let k := tspKey 0 0xffff8
       let s := (coreState .trap (8 * 2 ^ 40 + 0xffff8) 0).onDev fun d => { d with badWords := [k / 8] }
       (s.readS 3).toNat = 0 * 2 ^ 48 + 8 * 2 ^ 40 + 0xffff8 ∧ (s.dev.tsRead 0 8 0xffff8).isSome = true ∧ s.dev.tsKey 0 8 0xffff8 = some k
        ∧ s.dev.bad k 8 = true ∧ s.dev.panel (panel0 .trap).handle = some (panel0 .trap) ∧ (panel0 .trap).pre = none)
    ∧ (((coreState .trap (2 ^ 40 + 31) 0).readS 3).toNat = 0 * 2 ^ 48 + 1 * 2 ^ 40 + 31 ∧ ((coreState .trap (2 ^ 40 + 31) 0).dev.tsRead 0 1 31).isSome = true
      ∧ ((coreState .trap (2 ^ 40 + 31) 0).dev.tsWrite 0 1 31 5#64).isSome = true ∧ (((coreState .trap 0 0).dev.tiles[(0 : Fin 128)]).tsPoison 1 31).isSome = true
      ∧ ((coreState .trap (255 * 2 ^ 40 + 2 ^ 40 - 1) 0).readS 3).toNat = 0 * 2 ^ 48 + 255 * 2 ^ 40 + (2 ^ 40 - 1) ∧ 14 ≤ 14 ∧ 255 < 256)
    ∧ (∀ i ∈ [0, 127, 128, 131, 132, 255], ((coreState .trap 0 (i + 256 * 15)).readS 3).toNat = 0 ∧ ((coreState .trap 0 (i + 256 * 15)).readS 5).toNat = i + 256 * 15)
    ∧ (let s := coreState .trap 0 0 fun t => { t with flight := [{ Flight.result 0 1 9 (.s 4) 7#1024 false with act := .none }] }
       (s.dev.snaps 0)[0]? = some (.work 0))
    ∧ (∀ ph ∈ [Phase.trap, .running], (coreState ph 0 0).dev.panels.find? (fun r => r.bolt == 0 && r.handle % 65536 == ((coreState ph 0 0).readS 3).toNat) = some (panel0 ph)
      ∧ (coreState ph 0 0).dev.panel 0 = some (panel0 ph) ∧ (panel0 ph).pre = none
      ∧ ∀ r ∈ (coreState ph 0 0).dev.gangWith (panel0 ph), r.pre = none) := by
  refine ⟨?_, ?_, ?_, ?_, ?_, ?_, ?_⟩ <;> decide +kernel

/-- How a read of device memory ends: with bytes (1), a wait (2) or a failure (3). -/
def gotCode : Dev × Got → Nat
  | (_, .bytes _ _) => 1
  | (_, .wait _) => 2
  | (_, .fail) => 3

theorem test_witness_ServiceCoreOperations :
    ((coreState .trap 256 0x4000).cur = .svc 0 ∧ (coreState .trap 256 0x4000).dev.boltOfQuad 0 = some 0)
    ∧ (let s := { kliState.onDev (fun d => { d.onSvc 0 (fun q => { q with s := (q.s.set 3 257#64).set 5 0x4000#64 }) with panels := [] }) with cur := .svc 0 }
       s.dev.boltOf 1 = some 0 ∧ (s.readS 3).toNat = (1 : Fin 128).val + 256 ∧ s.dev.panelOf 1 = none ∧ svInside (s.readS 5) (s.dev.routers[(1 : Fin 128)]).svbolt = true)
    ∧ ((coreState .trap 512 9).readS 3).toNat = (0 : Fin 128).val + 512
    ∧ (let s := coreState .trap 0x3ffe0 0
       (s.readS 3).toNat % 32 = 0 ∧ (s.readS 3).toNat < 2 ^ 18 ∧ (s.dev.svcs[(0 : Fin 32)]).invals = [] ∧ s.dev.badInval 0 0 0x3ffe0 (s.dev.invalAt 0 0x3ffe0 2) = false
        ∧ (s.onDev fun d => d.onSvc 0 fun c => { c with invals := List.replicate 16 (s.dev.invalAt 0 0x3ffe0 2) }).dev.svcs[(0 : Fin 32)].invals ≠ []
        ∧ 16 ≤ ((s.onDev fun d => d.onSvc 0 fun c => { c with invals := List.replicate 16 (s.dev.invalAt 0 0x3ffe0 2) }).dev.svcs[(0 : Fin 32)].invals).length)
    ∧ (let s := (coreState .trap 0x20 0).onDev fun d => d.write (svcKey 0 0x20) [0xff#8, 0xff#8, 0xff#8, 0xff#8]
       s.dev.badInval 0 0 0x20 (s.dev.invalAt 0 0x20 0) = true)
    ∧ ((coreState .trap 0 0x20000).dev.banksBad 0 (BitVec.allOnes 16) = false)
    ∧ (((coreState .trap 0 0x20000).onDev fun d => { d with badWords := [tspKey 0 0xffff8 / 8] }).dev.banksBad 0 (BitVec.allOnes 16) = true
        ∧ ((coreState .trap 0 0x20000).onDev fun d => { d with badWords := [tspKey 0 0xffff8 / 8] }).dev.panel 0 = some (panel0 .trap))
    ∧ (let s := coreState .trap 0 0x20000
       let f := s.onDev fun d => d.onSvc 0 fun c => { c with plcWait := .failed }
       (s.readS 3).toNat = 0 ∧ (s.readS 5).toNat % 4096 = 0
        ∧ gotCode (f.dev.vRead 0 (f.ctxAsker 0) 0x20000 fixedSize false) = 3)
    ∧ ((coreState .trap 0x3ffc0 0).readS 3).toNat % 64 = 0 ∧ ((coreState .trap 0x3ffc0 0).readS 3).toNat < 2 ^ 18 := by
  refine ⟨?_, ?_, ?_, ?_, ?_, ?_, ?_, ?_, ?_, ?_⟩ <;> decide +kernel

/-- The frozen panel's state with the bolt supervisor's space mapped like the vdev's. -/
def superState (ph : Phase) : State :=
  (coreState ph 0 0x200000).onDev fun d => { d with mem := pageTable ++ [(2 ^ 40 + 0x8000, 0x01#8), (2 ^ 40 + 0x8001, 0x10#8)] }

/-- Whether the bytes read begin with the magic of a context image; none where nothing was read. -/
def gotMagic : Dev × Got → Option Bool
  | (_, .bytes h _) => some (bytesField h 0 4 == ctxMagic)
  | _ => none

theorem test_witness_BytesThatAreNoContextImage :
    let s := superState .trap
    (s.readS 3).toNat = 0 ∧ (s.readS 5).toNat % 4096 = 0 ∧ gotMagic (s.dev.vRead 0 (s.ctxAsker 0) (s.readS 5).toNat fixedSize false) = some false := by
  refine ⟨?_, ?_, ?_⟩ <;> decide +kernel

/-- Whether a range resolves. -/
def resolves : Dev × Keys → Bool
  | (_, .keys _) => true
  | _ => false

theorem vWrite_done {d : Dev} {b : Fin 32} {a : Asker} {dva n : Nat} {bs : List Byte} {record : Bool}
    (hk : resolves (d.rangeKeys b a .write dva n record) = true) (hn : bs.length = n) : (d.vWrite b a dva bs record).2 = .done := by
  subst hn
  unfold Dev.vWrite
  revert hk
  cases d.rangeKeys b a .write dva bs.length record with
  | mk e k => cases k <;> simp [resolves]

theorem full_image_length {d : Dev} {n : Fin 128} (h : (d.tiles[n]).sr.bown = 0#16) :
    (d.ctxImage n (BitVec.allOnes 21) (BitVec.allOnes 16) true 0).length
      = fixedSize + (256 + 4 * 1024 + 4 * 1024 + 8 * 4352 + 4 * 16384 + 16 * 65536) + pathSize := by
  have hb : (d.tiles[n]).freeBanks (BitVec.allOnes 16) = BitVec.allOnes 16 := by rw [Tile.freeBanks, h]; rfl
  have ho (k : Nat) : ((d.tiles[n]).named (BitVec.allOnes 21)).owned k = false := by
    rw [show ((d.tiles[n]).named (BitVec.allOnes 21)).owned k = (d.tiles[n]).sr.bown.getLsbD k from rfl, h]; simp
  have h2 : ((List.range 16).map fun b => if ((BitVec.allOnes 16).getLsbD b && true) = true then 65536 else 0).sum = 16 * 65536 := by
    decide +kernel
  have h3 : ((List.range 4).map fun c => if live (BitVec.allOnes 21) (1 + c) = true then 1024 else 0).sum = 4 * 1024 := by decide +kernel
  have h4 : ((List.range 4).map fun c => if live (BitVec.allOnes 21) (5 + c) = true then 1024 else 0).sum = 4 * 1024 := by decide +kernel
  have h5 : ((List.finRange 8).map fun i => if live (BitVec.allOnes 21) (9 + i.val) = true then 4352 else 0).sum = 8 * 4352 := by decide +kernel
  have h6 : ((List.finRange 4).map fun i => if live (BitVec.allOnes 21) (17 + i.val) = true then 16384 else 0).sum = 4 * 16384 := by decide +kernel
  have h1 : live (BitVec.allOnes 21) 0 = true := rfl
  rw [Laws.ctxImage_length, Laws.namedPart_length, hb, h1, h3, h4, h5, h6]
  simp only [ho, Bool.not_false, h2, if_true]

theorem test_witness_ContextImagesOfFrozenTiles :
    ((superState .trap).dev.vWrite 0 ((superState .trap).ctxAsker 0) ((superState .trap).readS 5).toNat
      ((superState .trap).dev.ctxImage 0 (BitVec.allOnes 21) (BitVec.allOnes 16) true 0) false).2 = .done :=
  vWrite_done (by decide +kernel) (full_image_length (by decide +kernel))

/-- A descriptor of a vdev with `num`, 16 spools, one context slot at DVA 0x200000, its event queue at 0x4000 and its ring at 0x5000. -/
def vdevDesc (num log2 : Nat) : BitVec 512 :=
  BitVec.ofNat 512 (num + 3 * 2 ^ 24 + 16 * 2 ^ 40 + 0x200000 * 2 ^ 128 + 2 ^ 192 + 0x4000 * 2 ^ 256 + log2 * 2 ^ 320 + 0x5000 * 2 ^ 384 + 4 * 2 ^ 448)

/-- A vdev with that descriptor and spool 15 of a kind. -/
def vdevWith (l : List Launch) (k : SpKind) : Vdev :=
  { vdev0 l with desc := vdevDesc 0 4, spools := (Vector.replicate 16 Spool.reset).set 15 { Spool.reset with kind := k, weight := 1, base := 0x6000#64, log2 := 4 } }

/-- The mapped bolt with that vdev and panel, and a command's descriptor in the control path's buffer. -/
def hostState (v : Vdev) (desc : Nat) : State :=
  (loaded (panel0 .running) v).onDev fun d => d.onPf fun p => { p with cbuf := BitVec.ofNat 512 desc }

/-- A reservation of spool 15 of vdev 0. -/
def resv0 (num : Nat) (job : Option Nat) : Resv :=
  { num := num, bolt := 0, vdev := 0, spool := 15, area := 1, period := 1000000, budget := 1000, anchor := 0, image := 0x10000#64, eps := 0, job := job,
    deadline := 0, used := 0, next := 0, overrun := false, missed := false, claim := [] }

/-- The descriptors of a spool and of a reservation. -/
def spoolDesc (log2 : Nat) : Nat := 15 * 2 ^ 16 + 2 ^ 24 + 2 ^ 32 + 2 ^ 40 + 0x6000 * 2 ^ 64 + log2 * 2 ^ 128
def resvDesc (budget : Nat) : Nat := 15 * 2 ^ 16 + 2 ^ 32 + 1000000 * 2 ^ 64 + budget * 2 ^ 96 + 0x10000 * 2 ^ 192

/-- Whether a header that was read is one and its reservation of `budget` on 128 tiles is admissible; none for no header. -/
def imageFits (r : Dev × Got) (budget : Nat) : Option Bool :=
  match r with
  | (e, .bytes h false) =>
    if bytesField h 0 4 = imgMagic ∧ bytesField h 4 2 = 1 ∧ bytesField h 0x24 4 = 0 ∧ bytesField h 0x1c 4 ≤ bytesField h 0x14 2 + bytesField h 0x12 2 + 2 * 902
    then some (admissible (e.boltTiles 0).length (clockMhz (e.boltClk 0)) [{ resv0 0 none with budget := budget, eps := bytesField h 0x1c 4 }]) else none
  | _ => none

theorem test_witness_PlacerCommands :
    (∀ c ∈ [Caller.host 0, .svc 0 31], (hostState (vdev0 []) 0).dev.callerBolt c = some 0 ∧ ((hostState (vdev0 []) 0).dev.plcHeld c).free = true)
    ∧ ((hostState (vdev0 []) 0).dev.panels.find? (fun p => p.bolt == 0 && p.handle % 65536 == (0#64).toNat && p.phase != .over) = some (panel0 .running))
    ∧ (hostState (vdev0 []) 0).dev.resv 63 = none
    ∧ (((hostState (vdev0 []) 0).onDev fun d => { d with resvs := [resv0 63 none] }).dev.resv 63 = some (resv0 63 none) ∧ (resv0 63 none).bolt = 0)
    ∧ (∀ x ∈ [(CutSt.placed 0, true), (.evicted, true), (.done, false)], let v := vdev0 [launch0 x.1 true false]
        (hostState v 0).dev.vdev 0 = some v ∧ v.bolt = 0 ∧ (hostState v 0).dev.frozenBy 0 = none ∧ v.holdsCut = x.2)
    ∧ (let s := (hostState (vdev0 []) 0).onDev fun d => (d.onPf fun p => { p with fbind := p.fbind.set 248 0x80000000#32 }).onTdi 248 fun t => { t with st := .run }
       s.dev.vdev 0 = some (vdev0 []) ∧ s.dev.frozenBy 0 = some 248)
    ∧ (∀ x ∈ [(1023, 4, false), (1023, 16, false), (0, 4, false), (1024, 4, true), (1023, 3, true), (1023, 17, true)],
        let s := hostState (vdev0 []) (vdevDesc x.1 x.2.1).toNat
        badVdevDesc ((leBytes 64 s.dev.pf.cbuf.toNat).take 64) 0 = x.2.2
          ∧ ((s.dev.vdev (bytesField ((leBytes 64 s.dev.pf.cbuf.toNat).take 64) 0 2)).isSome = true ↔ x.1 = 0)
          ∧ (s.dev.vdevs.filter fun v => v.bolt == 0).length < 32)
    ∧ (∀ x ∈ [(4, false), (16, false), (3, true), (17, true)], ∀ l ∈ [[], [{ launch0 .evicted true false with spool := 15 }]],
        let v := vdevWith l .best
        let s := hostState v (spoolDesc x.1)
        let b := (leBytes 64 s.dev.pf.cbuf.toNat).take 32
        s.dev.vdev (bytesField b 0 2) = some v ∧ badSpoolDesc b v = x.2 ∧ v.spoolBusy (idx 16 (bytesField b 2 1)) = !l.isEmpty ∧ s.dev.spoolCount < 1024)
    ∧ (∀ x ∈ [(1, true), (1000000, false)],
        let v := vdevWith [] .best
        let s := hostState v (resvDesc x.1)
        let b := (leBytes 64 s.dev.pf.cbuf.toNat).take 32
        badResvDesc b (s.dev.boltTiles 0).length = false ∧ bytesField b 2 1 < v.fld 5 1 ∧ (v.spools[idx 16 (bytesField b 2 1)]).kind ≠ .off
          ∧ (v.spools[idx 16 (bytesField b 2 1)]).resv = none ∧ v.spoolBusy (idx 16 (bytesField b 2 1)) = false ∧ s.dev.plcHeld (.host 0) ≠ .failed
          ∧ (List.range 64).find? (fun n => (s.dev.resv n).isNone) = some 0
          ∧ imageFits (s.dev.vRead 0 (s.dev.placerAsker 0 v.num 0#64 (s.dev.plcHeld (.host 0))) (bytesField b 0x18 8) imgHeader) x.1 = some x.2) := by
  refine ⟨?_, ?_, ?_, ?_, ?_, ?_, ?_, ?_, ?_⟩ <;> decide +kernel

/-- The state of kliState with the mailbox's buffer holding `m` and vdev 1023 placed nowhere. -/
def mailState (m : List Host.Cell) (f : Dev → Dev := id) : State :=
  (loaded (panel0 .running) { vdev0 [] with num := 1023 }).onDev fun d => f (d.onPf fun p => { p with mbuf := m })

theorem test_witness_ControllerFunctions :
    (let d := (mailState []).dev
     (∃ v, d.mcReg 0 = .plain v) ∧ (∃ v, d.mcReg 0x12 = .plain v) ∧ (∃ v, d.mcReg 0x020 = .ofBolt 0 v) ∧ (∃ v, d.mcReg 0x0bf = .ofBolt 31 v) ∧ (∃ v, d.mcReg 0x07f = .ofQuad 31 v)
      ∧ (∃ v, d.mcReg 0x100 = .ofTile 0 v) ∧ (∃ v, d.mcReg 0x27f = .ofTile 127 v) ∧ (∃ v, d.mcReg 0x400 = .ofBolt 0 v)
      ∧ d.mcMayBolt (.svc 0 1) 0 = true ∧ d.mcMayBolt (.host 0) 31 = true ∧ d.mcMayQuad (.svc 0 1) 0 = true ∧ d.mcMayQuad (.host 1) 31 = true
      ∧ d.mcMayTile (.svc 0 1) 0 = true ∧ d.mcMayTile (.host 0) 127 = true)
    ∧ (let d := (mailState [] fun d => { d with routers := d.routers.set 127 { d.routers[(127 : Fin 128)] with fence := 1 } }).dev
       (d.routers[(127 : Fin 128)]).fence = 1 ∧ (d.routers[(127 : Fin 128)]).testing = none ∧ (d.routers[(127 : Fin 128)]).queued = false
        ∧ d.mayAppeal 127 = true)
    ∧ (let d := (mailState [] fun d => d.onMc fun m => { m with loghead := 0xffffffff#32, logtail := 0#32, log := [(4095, 0#256)] }).dev
       0xffffffff < 2 ^ 32 ∧ (BitVec.ofNat 32 0xffffffff - d.mc.loghead).toNat < (d.mc.logtail - d.mc.loghead).toNat
        ∧ d.mc.log.find? (fun y => y.1 == 0xffffffff % 4096) = some (4095, 0#256))
    ∧ (∀ top ∈ [0x80#8, 0x00#8], let d := (mailState [(0, 0x1f#8), (3, top)]).dev
       d.refusesBolt 31 (BitVec.ofNat 32 (leNat (d.pf.mailBytes 0 4)) &&& 0xf00003ff#32) = false)
    ∧ (let d := (mailState [] fun d => { d with panels := [] }).dev
       (d.vdev 1023).isSome = true ∧ (∀ p ∈ d.panels, p.vdev ≠ 1023) ∧ ((mailState []).dev.vdev 1023).isSome = true)
    ∧ (∀ m ∈ [[], [(0, 0xbc#8), (1, 0x0f#8)]], let d := (mailState m).dev
        4 + leNat (d.pf.mailBytes 0 4) ≤ 4032 ∧ 0 ≤ d.mc.stage.length) := by
  refine ⟨⟨⟨_, rfl⟩, ⟨_, rfl⟩, ⟨_, rfl⟩, ⟨_, rfl⟩, ⟨_, rfl⟩, ⟨_, rfl⟩, ⟨_, rfl⟩, ⟨_, rfl⟩, ?_⟩, ?_, ?_, ?_, ?_, ?_⟩ <;> decide +kernel

/-- A launch of spool 15 with a number, a cut's state and flags. -/
def job (num : Nat) (st : CutSt) (released : Bool) : Launch := { launch0 st released false with num := num, spool := 15, nextGang := 1 }

/-- The mapped bolt with vdev 0, of those launches, and those panels; the ring's pointer at spool 15. -/
def placerState (k : SpKind) (l : List Launch) (p : List Panel) (f : Dev → Dev := id) : State :=
  (loaded (panel0 .running) (vdevWith l k)).onDev fun d => f (({ d with panels := p } : Dev).onBolt 0 fun b => { b with ptr := 15, credit := 1, agemax := 2 })

/-- Whether a check of a launch passes. -/
def checkOk : Dev × Checked → Bool
  | (_, .ok) => true
  | _ => false

theorem test_witness_PlacerEvents :
    (let d := (placerState .best [] [] fun d => { d with vdevs := [] }).dev
     (∀ v ∈ d.vdevs, v.bolt ≠ 0) ∧ d.clockPending 0 = false ∧ (0 : Fin 128) ∈ d.boltTiles 0 ∧ (d.tiles[(0 : Fin 128)]).owner = .panel 0 ∧ d.panel 0 = none
      ∧ (d.tiles[(0 : Fin 128)]).drain = none)
    ∧ (let l := { launch0 .fresh false false with spool := 15 }
       let d := (placerState .best [l] []).dev
       let v := vdevWith [l] .best
       d.vdev 0 = some v ∧ v.awake = true ∧ d.placing = true ∧ l.released = false ∧ l.done = false ∧ l.depFail = false ∧ l.waits = [] ∧ l.nbt = 0
        ∧ l.wait.free = true ∧ checkOk (d.checkLaunch v.bolt v l) = true ∧ (v.spools[(15 : Fin 16)]).kind = .best)
    ∧ (let l := { launch0 .fresh false false with spool := 15 }
       let v := { vdevWith [l] .best with spools := (vdevWith [l] .best).spools.set 15 { Spool.reset with kind := .reserved, resv := some 63 } }
       let r := resv0 63 none
       let d := (placerState .best [l] [] fun d => { d with vdevs := [v], resvs := [r] }).dev
       d.vdev 0 = some v ∧ v.awake = true ∧ d.placing = true ∧ checkOk (d.checkLaunch v.bolt v l) = true ∧ (v.spools[(15 : Fin 16)]).kind = .reserved
        ∧ (v.spools[(15 : Fin 16)]).resv = some 63 ∧ d.resv 63 = some r ∧ r.job = none ∧ 0 < r.period ∧ r.anchor ≤ d.dcc
        ∧ r.next ≤ r.anchor + (d.dcc - r.anchor) / r.period * r.period)
    ∧ (let l := job 0 .fresh true
       let v := vdevWith [l] .best
       let d := (placerState .best [l] []).dev
       let g := gang0 .fresh
       d.placing = true ∧ d.clockPending 0 = false ∧ d.resvs = [] ∧ d.pointed 0 = some (v, l, g)) := by
  refine ⟨?_, ?_, ?_, ?_⟩ <;> decide +kernel

/-- How many ranks' state a gang's reads give one panel that is to be restored. -/
def oneRestore : Dev × Option (List (Panel × Ready)) → Option (Panel × Nat)
  | (_, some [(p, .restore _ x)]) => some (p, x.length)
  | _ => none

theorem test_witness_PlacementAndClearance :
    (let l := job 0 .fresh true
     let v := vdevWith [l] .best
     let d := (placerState .best [l] []).dev
     let g := gang0 .fresh
     d.firstFit 0 v l g (d.freeUnclaimed 0) = some [(1, 0)] ∧ g.unfinished = [cut0 .fresh] ∧ (cut0 .fresh).saved = none
      ∧ (let e := (d.placeGang 0 l g [(1, 0)] false).onBolt 0 fun x => { x with credit := x.credit - 1 }
         ∀ y ∈ e.ring 0, e.headAt y = none))
    ∧ (∀ agemax ∈ [1, 2],
        let l := job 1 .fresh true
        let v := vdevWith [launch0 (.placed 0) true false, l] .best
        let g := gang0 .fresh
        let p := panel0 .running
        let d := (placerState .best [launch0 (.placed 0) true false, l] [p] fun d => d.onBolt 0 fun b => { b with agemax := agemax }).dev
        d.placing = true ∧ d.clockPending 0 = false ∧ d.pointed 0 = some (v, l, g) ∧ g.clearing = false ∧ (g.age + 1 < (d.bolts[(0 : Fin 32)]).agemax ↔ agemax = 2)
          ∧ ((d.bolts[(0 : Fin 32)]).agemax ≤ g.age + 1 ↔ agemax = 1) ∧ p.phase ≠ .over
          ∧ (let e := d.onLaunch l.vdev l.num fun x => x.offer { g with age := g.age + 1, clearing := true }
             e.holders (e.shadow 0 v l { g with age := g.age + 1, clearing := true }) = [p] ∧ (e.resvOf p).isNone = true)) := by
  refine ⟨?_, ?_⟩ <;> decide +kernel

theorem test_witness_BudgetsAndPreloads :
    (let g := { gang0 (.placed 0) with backfill := true }
     let x := { launch0 (.placed 0) true false with gangs := [g] }
     let p := panel0 .running
     let d := (placerState .best [x] [p]).dev
     d.launch 0 0 = some x ∧ g ∈ x.gangs ∧ g.expired x d.dcc = true ∧ (d.gangPanels 0 0 (some g)).head? = some p)
    ∧ (let l := launch0 (.placed 0) true false
       let x := { resv0 63 (some 0) with used := 1000 }
       let d := (placerState .best [l] [panel0 .running] fun d => { d with resvs := [x] }).dev
       d.resv 63 = some x ∧ (x.job.bind fun j => d.launch x.vdev j) = some l ∧ 0 < x.period ∧ x.spent = true ∧ x.late d.dcc = true)
    ∧ (let x : Preload := ⟨1, 0, false, 0#16⟩
       let p := { panel0 .over with pre := some x }
       let l := job 1 .fresh true
       let g := gang0 .fresh
       let d := (placerState .best [l] [p]).dev
       d.panel 0 = some p ∧ d.boundGang p = some (vdevWith [l] .best, l, g) ∧ d.preloadReady p = true ∧ d.placing = true ∧ d.clockPending p.bolt = false
        ∧ d.preloadPanels p = [p] ∧ p.pre = some x ∧ g.cuts.find? (fun k => k.cut == x.cut) = some (cut0 .fresh)) := by
  refine ⟨?_, ?_, ?_⟩ <;> decide +kernel

theorem test_witness_SavesAndRestores :
    (let p := { panel0 .running with evict := some .order }
     (placerState .best [] [p]).dev.panel 0 = some p ∧ p.phase = .running ∧ p.evict.isSome = true)
    ∧ (let p := panel0 (.quiesce 0)
       (placerState .best [] [p]).dev.panel 0 = some p ∧ (placerState .best [] [p]).dev.quiesced p = true)
    ∧ (∀ ph ∈ [Phase.saving, .running], let p := { panel0 ph with slots := [0] }
        let d := (placerState .best [] [p]).dev
        d.panel 0 = some p ∧ d.vdev p.vdev = some (vdevWith [] .best) ∧ d.windowsFree p = true ∧ d.ctxFree p = true ∧ (∀ r ∈ d.gangWith p, r.pre = none)
          ∧ ∀ w ∈ [d, p.tiles.foldl (fun d n => d.onTile n Tile.withdraw) d], d.saveBad p (w.saveImages p (vdevWith [] .best) false) = false)
    ∧ (let p := panel0 .restoring
       let l := launch0 (.placed 0) true false
       let d := (placerState .best [l] [p]).dev
       d.vdev 0 = some (vdevWith [l] .best) ∧ d.launch 0 0 = some l ∧ (∀ q ∈ d.starters p, q.startAt ≤ d.dcc ∧ q.wait.free = true ∧ d.undrained q = false)
        ∧ oneRestore (Dev.readyAll (vdevWith [l] .best) l (d.starters p) d) = some (p, 0)) := by
  refine ⟨?_, ?_, ?_, ?_⟩ <;> decide +kernel

theorem test_witness_ContextImagesFitTheWindow :
    ∀ ph ∈ [Phase.saving, .running], let p := { panel0 ph with slots := [0] }
      let d := (placerState .best [] [p]).dev
      ∀ w ∈ [d, p.tiles.foldl (fun d n => d.onTile n Tile.withdraw) d], ∀ x ∈ w.saveImages p (vdevWith [] .best) false, x.image.length ≤ windowSize := by
  intro ph hph p d w hw x hx
  simp only [Dev.saveImages, Dev.savedTile, p, List.zipIdx, List.map, List.mem_cons, List.not_mem_nil, or_false, Bool.false_eq_true, if_false] at hx
  subst hx
  rw [Laws.ctxImage_length]
  simp only [List.mem_cons, List.not_mem_nil, or_false] at hph hw
  rcases hph with rfl | rfl <;> rcases hw with rfl | rfl <;> decide +kernel

theorem test_witness_WindowsDrain :
    let d := (placerState .best [] [] fun d => d.onTile 0 fun t => { t with drain := some (0, 0) }).dev
    let v := vdevWith [] .best
    (d.tiles[(0 : Fin 128)]).drain = some (0, 0) ∧ d.boltOf 0 = some 0 ∧ d.drains 0 = true ∧ d.vdev 0 = some v
      ∧ (d.tiles[(0 : Fin 128)]).drainWait ≠ .failed
      ∧ (d.vWrite 0 (d.placerAsker 0 0 (d.slotTag 0 0) (d.tiles[(0 : Fin 128)]).drainWait) (v.slotDva 0)
          (d.bytes (vaultKey 0 programArea) (min windowSize (ctxLength (d.bytes (vaultKey 0 programArea) 64))))).2 = .done := by
  intro d v
  refine ⟨by decide +kernel, by decide +kernel, by decide +kernel, by decide +kernel, by decide +kernel, ?_⟩
  have hn : min windowSize (ctxLength (d.bytes (vaultKey 0 programArea) 64)) = fixedSize := by decide +kernel
  rw [hn]
  exact vWrite_done (n := fixedSize) (by decide +kernel) (by simp [Dev.bytes])

/-- A launch record at DVA 0x6000: the image's, of one cut. -/
def recordCells : List Host.Cell :=
  [(2 ^ 40 + 0x6002, 0x01#8), (2 ^ 40 + 0x6010, 0x01#8), (2 ^ 40 + 0x6011, 0x01#8), (2 ^ 40 + 0x6018, 0x02#8), (2 ^ 40 + 0x601c, 0x01#8)]

/-- The placer's bolt with that record, vdev 0 as `f` makes it and tile 0 as `g` makes it. -/
def spoolState (f : Vdev → Vdev) (g : Tile → Tile := id) (p : List Panel := [panel0 .running]) : State :=
  placerState .best [] p fun d => (({ d with mem := pageTable ++ recordCells ++ imageCells } : Dev).onVdev 0 f).onTile 0 g

/-- The vdev of that state. -/
def spoolVdev (f : Vdev → Vdev) : Vdev := f (vdevWith [] .best)

/-- Whether a submission's record is read and written to its ring. -/
def submits (d : Dev) (i : Nat) (p : Posted) (v : Vdev) (x : Spool) : Bool :=
  match (d.flushHost p.bolt).vRead p.bolt ((d.flushHost p.bolt).placerAsker p.bolt v.num 0#64 p.op.wait) p.op.addr.toNat 128 with
  | (e1, .bytes l false) =>
    let o1 : MemOp := { p.op with data := BitVec.ofNat 1024 (leNat l), n := 1, wait := .no }
    let e := e1.setPosted i { p with op := o1 }
    (e.vWrite p.bolt (e.placerAsker p.bolt v.num (BitVec.ofNat 64 (recField o1.data 0x38 8)) .no) (x.slot x.tail) (leBytes 128 o1.data.toNat)).2 == .done
  | _ => false

/-- Whether the record at a spool's head is read as one that is well formed, and its token. -/
def accepts (d : Dev) (y : Vdev) (sp : Fin 16) : Option (Fin 256) :=
  match d.vRead y.bolt (d.placerAsker y.bolt 0 0#64 (y.spools[sp]).wait) ((y.spools[sp]).slot (y.spools[sp]).head) 128 with
  | (e, .bytes l false) =>
    let new := Launch.accepted e.nextLaunch 0 sp.val (BitVec.ofNat 1024 (leNat l))
    if new.malformed = false ∧ (e.vdev 0).isSome then some new.ctok else none
  | _ => none

/-- Whether a completion record finds its slot free and is written. -/
def reports (d : Dev) (y : Vdev) (l : Launch) : Bool :=
  let a := d.placerAsker y.bolt y.num l.tag y.waitCr
  let slot := y.fld 0x30 8 + 32 * (y.cridx.toNat % 2 ^ y.fld 0x38 1)
  match d.vRead y.bolt a slot 1 with
  | (e1, .bytes f false) => leNat f == 0 && (e1.vWrite y.bolt a slot (l.ringRecord y.crseq)).2 == .done
  | _ => false

theorem test_witness_RegisterPages :
    ∀ sp ∈ [(0 : Fin 16), 15], let d := (spoolState id).dev
      d.vdev 0 = some (spoolVdev id) ∧ d.pagesClosed = false ∧ (1 : Fin 2) ≠ d.pf.active ∧ (0 : Fin 2) = d.pf.active
        ∧ (((spoolVdev id).spools[sp]).kind = .off ↔ sp = 0)
        ∧ (∀ bar ∈ [PageBar.pf, .vf none, .vf (some 1)], ∀ port ∈ [0, 1], d.pageOpen port 0 bar = true)
        ∧ (let e := (spoolState id).onDev fun d => (d.onPf fun p => { p with fbind := p.fbind.set 248 0x80000000#32 }).onPort 0 fun p => { p with enabled := 0 }
           e.dev.pageOpen 0 0 (.vf none) = false ∧ e.dev.pageOpen 0 0 .pf = true)
        ∧ ∀ x ∈ [0, 16, 17], (2 ^ 4 < (BitVec.ofNat 32 x - ((spoolVdev id).spools[(15 : Fin 16)]).head).toNat ↔ x = 17) := by
  decide +kernel

theorem test_witness_Submissions :
    (∀ k ∈ [MKind.evpost, .launch],
      let o := { op0 k with stage := .accepted, addr := 0x6000#64, dst := 15, n := 0 }
      let p : Posted := ⟨0, 0, 0, 0, 0, o⟩
      let f := fun v : Vdev => v.onSpool 15 fun x => { x with feed := true, tail := 15#32 }
      let d := ((spoolState f).onDev fun d => { d with posted := [p] }).dev
      d.postedReady 0 0 = some p ∧ p.op.kind = k
        ∧ (k = .launch → d.vdev 0 = some (spoolVdev f) ∧ o.n ≠ 1 ∧ o.wait ≠ .failed
            ∧ (∃ x, (spoolVdev f).fed o.dst = some x ∧ (x.tail - x.head).toNat < x.size ∧ submits d 0 p (spoolVdev f) x = true))) := by
  intro k hk
  simp only [List.mem_cons, List.not_mem_nil, or_false] at hk
  rcases hk with rfl | rfl
  · decide +kernel
  · refine ⟨by decide +kernel, by decide +kernel, fun _ => ⟨by decide +kernel, by decide +kernel, by decide +kernel,
      (spoolVdev fun v => v.onSpool 15 fun x => { x with feed := true, tail := 15#32 }).spools[(15 : Fin 16)], by decide +kernel, by decide +kernel, by decide +kernel⟩⟩

theorem test_witness_AcceptancesAndRecords :
    (let f := fun v : Vdev => v.onSpool 15 fun x => { x with tail := 1#32 }
     let d := (spoolState f).dev
     d.vdev 0 = some (spoolVdev f) ∧ d.mayAccept (spoolVdev f) 15 = true ∧ ((spoolVdev f).spools[(15 : Fin 16)]).wait ≠ .failed
      ∧ accepts d (spoolVdev f) 15 = some 0 ∧ ((spoolVdev f).ltoks[(0 : Fin 256)]).st ≠ .pending)
    ∧ (let l := launch0 .done true true
       let f := fun v : Vdev => { v with launches := [l], cridx := 15#32 }
       let d := (spoolState f).dev
       d.vdev 0 = some (spoolVdev f) ∧ (spoolVdev f).unreported = some l ∧ (spoolVdev f).waitCr.free = true ∧ (spoolVdev f).waitCr ≠ .failed
        ∧ (spoolVdev f).secured = [] ∧ reports d (spoolVdev f) l = true) := by
  refine ⟨?_, ?_⟩ <;> decide +kernel

theorem test_witness_CollapseAndWake :
    (let d := ((spoolState id id []).onDev fun d => { (d.onMc fun m => { m with cdly := m.cdly.set 0 1#32 }) with dcc := 1000 }).dev
     d.vdev 0 = some (spoolVdev id) ∧ d.collapseDue (spoolVdev id) = true ∧ ∀ p ∈ d.panels, p.vdev ≠ 0)
    ∧ (let f := fun v : Vdev => { v with state := .collapsing }
       let d := (spoolState f id []).dev
       d.vdev 0 = some (spoolVdev f) ∧ d.collapseOver (spoolVdev f) = true)
    ∧ (∀ c ∈ [0, 10 ^ 12], let f := fun v : Vdev => { v with state := .waking, wakeAt := some 0, wakeCounted := c }
       let d := (spoolState f).dev
       d.vdev 0 = some (spoolVdev f) ∧ d.wakeOver (spoolVdev f) = true ∧ (wakeBound ((spoolVdev f).fld 4 1) < c ↔ c ≠ 0)) := by
  refine ⟨?_, ?_, ?_⟩ <;> decide +kernel

/-- The reset state of a running part with vdev 1023 and something changed. -/
def hostDev (f : Dev → Dev) : State := (loaded (panel0 .running) { vdev0 [] with num := 1023 }).onDev fun d => f { d with panels := [] }

theorem test_witness_HostRegisters :
    (let d := (hostDev id).dev
     (0 : Fin 2) = d.pf.active ∧ d.pagesClosed = false ∧ d.pf.cstat.getLsbD 31 = false ∧ d.pf.mstat.getLsbD 31 = false)
    ∧ (∀ x ∈ [0, 1, 7, 8, 0x2001], (let v := BitVec.ofNat 64 x
        (1 ≤ (v.extractLsb' 0 8).toNat ∧ (v.extractLsb' 0 8).toNat ≤ 7 ∧ v.extractLsb' 13 19 = 0#19) ↔ x = 1 ∨ x = 7))
    ∧ (let d := (hostDev fun d => d.onPf fun p => { p with cstat := 0x80000000#32, mstat := 0x80000000#32 }).dev
       d.pf.cstat.getLsbD 31 = true ∧ d.pf.mstat.getLsbD 31 = true)
    ∧ (∀ v ∈ [1023, 0], let d := (hostDev id).dev
       let x := 0x80000000#32 ||| BitVec.ofNat 32 v
       x.getLsbD 31 = true ∧ (((d.vdev (fieldOf x 0 10)).isSome = true ∧ d.boundElsewhere 248 (fieldOf x 0 10) = false) ↔ v = 1023)
        ∧ (d.pf.tdis[(248 : Fin 249)]).st = .unlocked)
    ∧ (let d := (hostDev fun d => d.onTdi 248 fun t => { t with st := .locked }).dev
       (d.pf.tdis[(248 : Fin 249)]).st = .locked ∧ (0#32).getLsbD 31 = false)
    ∧ (let d := (hostDev fun d => { (d.onPf fun p => { p with arm := true, leasex := 5#64 }) with dcc := 5 }).dev
       d.leaseOver = true ∧ (1 : Fin 2) ≠ d.pf.active ∧ (d.ports[d.pf.active]).prg = [] ∧ (∀ f : Fin 249, d.boundTo f = none)) := by
  refine ⟨?_, ?_, ?_, ?_, ?_, ?_⟩ <;> decide +kernel

theorem test_witness_HostWindows :
    (let w : Window := ⟨0x03#64, 0x0000000100000fff#64⟩
     let d := (hostDev fun d => d.onPf fun p => { p with windows := p.windows.set 0 w }).dev
     d.fnOpen 0 0 none = true ∧ d.windowAt 0 (2 ^ 21 - 8) 8 = some w ∧ d.windowAt 0 (2 ^ 21 - 7) 8 = none ∧ w.baroff.getLsbD 1 = true
      ∧ (let r : Window := { w with baroff := 0x01#64 }
         (hostDev fun d => d.onPf fun p => { p with windows := p.windows.set 0 r }).dev.windowAt 0 (2 ^ 21 - 8) 8 = some r ∧ r.baroff.getLsbD 1 = false)
      ∧ (d.bpaPieces 0 (w.bpa + (2 ^ 21 - 8 - w.lo)) 8).length = 1)
    ∧ (hostDev fun d => d.onPort 0 fun p => { p with enabled := 0 }).dev.fnOpen 0 248 none = false
    ∧ (let d := (hostDev fun d => d.onPort 1 fun p => { p with cxl := true, hdm := p.hdm.set 0 ⟨0x1000#64, 0x200000000#64, 0#64⟩ }).dev
       (d.ports[(1 : Fin 2)]).cxl = true ∧ (d.ports[(1 : Fin 2)]).hdmKeys 0x1000 8 = some [(2 ^ 40, 8)]
        ∧ (d.ports[(1 : Fin 2)]).hdmKeys 0x200000ff8 8 = some [(2 ^ 40 + 2 ^ 33 - 8, 8)] ∧ d.boltOfQuad (dramQuad (2 ^ 40)) = some 0
        ∧ d.boltOfQuad (dramQuad (2 ^ 40 + 2 ^ 33 - 8)) = some 0 ∧ (d.ports[(0 : Fin 2)]).cxl = false)
    ∧ (let d := (hostDev fun d => d.onPf fun p => { p with fbind := p.fbind.set 248 0x800003ff#32 }).dev
       (0 : Fin 2) = d.pf.active ∧ (d.boundTo 248).isSome = true ∧ d.panels = [] ∧ (∀ n : Fin 128, (d.tiles[n]).drain = none)
        ∧ (∀ b : Fin 32, (d.bolts[b]).faults = []) ∧ d.boundTo 0 = none ∧ (d.pf.tdis[(248 : Fin 249)]).port = 0)
    ∧ (let d := (hostDev fun d => d.onPort 0 fun p => { p with pend := [(248, 3)], masked := [(248, 3)] }).dev
       (248, 3) ∈ (d.ports[(0 : Fin 2)]).pend ∧ (248, 3) ∈ (d.ports[(0 : Fin 2)]).masked ∧ (248, 4) ∉ (d.ports[(0 : Fin 2)]).pend) := by
  refine ⟨?_, ?_, ?_, ?_, ?_⟩ <;> decide +kernel

theorem test_witness_Faults :
    (let d := (run2 fun t => { t with ops := [{ op0 .ldg with wait := .place 0 }, { op0 .ldg with wait := .fault 0 }] }).dev
     (∀ v ∈ d.vdevs, v.bolt = 0 → v.events = []) ∧ (0 : Fin 128) ∈ d.boltTiles 0
      ∧ (∀ n ∈ d.boltTiles 0, (∀ o ∈ (d.tiles[n]).ops, o.wait = .place 0 ∨ o.wait = .fault 0) ∧ ∀ k : Fin 32, (((d.tiles[n]).toks[k]).xfer).isNone = true)
      ∧ (Wait.place 0).since = some 0 ∧ (Wait.fault 0).since = none ∧ d.dcc < 0 + 100000000
      ∧ (∀ p ∈ d.panels, p.bolt = 0 → ∀ n ∈ p.tiles, (d.tiles[n]).shadowDue = []))
    ∧ (let f : OpenFault := ⟨0, 0, 0#32, .notPresent, 4, 0⟩
       let d := ((run2 id).onDev fun d => { (d.onBolt 0 fun b => { b with faults := [f] }) with dcc := 100000000 }).dev
       (d.bolts[(0 : Fin 32)]).faults.find? (fun f => f.id == 0) = some f ∧ f.opened + 100000000 ≤ d.dcc ∧ d.vdevs = []
        ∧ (∀ n ∈ d.boltTiles 0, (d.tiles[n]).drainWait = .no ∧ (d.tiles[n]).ops = [] ∧ ∀ k : Fin 32, (((d.tiles[n]).toks[k]).xfer).isNone = true))
    ∧ (let x : Inval := ⟨0, 1024, 0, false, false, 0#32, 0x4000#64⟩
       let d := ((run2 id).onDev fun d => d.onSvc 0 fun c => { c with invals := [x] }).dev
       (d.svcs[(0 : Fin 32)]).invals[0]? = some x ∧ d.boltOfQuad 0 = some 0 ∧ (d.bolts[(0 : Fin 32)]).faults = []) := by
  refine ⟨?_, ?_, ?_⟩ <;> decide +kernel

/-- A page-request entry and an address translation request of vdev 1023. -/
def prg0 (sent : Bool) (gen : W32) : PrgEnt := ⟨511, 1023, gen, 0, 0, 248, 7, sent, 0, 1#2⟩
def ats0 (gen : W32) : AtsReq := ⟨1023, gen, 0x7000, 7, false, true, 0#64⟩

theorem test_witness_HostTranslation :
    (∀ g ∈ [0, 1], let r := ats0 (BitVec.ofNat 32 g)
      let o := { op0 .ldg with wait := .ats 1 7 1023 1#2 (some 0) }
      let d := (hostDev fun d => (d.onPort 1 fun p => { p with ats := [r] }).onTile 0 fun t => { t with ops := [o] }).dev
      (d.ports[(1 : Fin 2)]).ats[0]? = some r ∧ d.boltOf 0 = some 0 ∧ (d.tiles[(0 : Fin 128)]).ops[0]? = some o ∧ o.wait = .ats 1 r.upage r.space 1#2 (some 0) ∧ (∀ v ∈ d.vdevs, v.events = []) ∧ (r.gen = d.genOf r.space ↔ g = 0) ∧ (d.vdev r.space).isSome = true)
    ∧ (∀ need ∈ [0#2, 1#2, 2#2, 3#2], ∀ rd ∈ [false, true], ∀ wr ∈ [false, true],
        (((need.getLsbD 0 → rd = true) ∧ (need.getLsbD 1 → wr = true)) ↔ need = 0#2 ∨ need = 1#2 ∧ rd = true ∨ need = 2#2 ∧ wr = true ∨ rd = true ∧ wr = true))
    ∧ (let e := prg0 false 0#32
       let d := (hostDev fun d => d.onPort 1 fun p => { p with prg := [e], prAlloc := p.prAlloc.set 248 1 }).dev
       (d.ports[(1 : Fin 2)]).prg.find? (fun e => e.prgi == 511 && !e.sent) = some e
        ∧ ((d.ports[(1 : Fin 2)]).prg.filter fun x => x.fn == e.fn && x.sent).length < (d.ports[(1 : Fin 2)]).prAlloc[idx 249 e.fn] ∧ e.fn ∉ (d.ports[(1 : Fin 2)]).priOff
        ∧ (d.ports[(1 : Fin 2)]).prg.find? (fun e => e.prgi == 0) = none)
    ∧ (∀ g ∈ [0, 1], ∀ id ∈ [0, 1], let e := prg0 true (BitVec.ofNat 32 g)
       let d := (hostDev fun d => ((d.onPort 1 fun p => { p with prg := [e] }).onTile 0 Tile.withdraw).onBolt 0 fun b =>
         { b with faults := [⟨id, 1023, 0#32, .hostPrq, 7, 0⟩] }).dev
       (d.ports[(1 : Fin 2)]).prg.find? (fun e => e.prgi == 511) = some e ∧ (e.gen = d.genOf e.space ↔ g = 0) ∧ (∀ v ∈ d.vdevs, v.bolt = 0 → v.events = [])
        ∧ (((d.bolts[e.bolt]).faults.any fun f => f.id == e.fault) = true ↔ id = 0)
        ∧ (∀ n ∈ d.boltTiles 0, (d.tiles[n]).drainWait = .no ∧ (d.tiles[n]).ops = [] ∧ ∀ k : Fin 32, (((d.tiles[n]).toks[k]).xfer).isNone = true))
    ∧ (∀ n ∈ [0, 31, 32, 33], let d := (hostDev fun d => d.onPort 1 fun p => { p with hinv := List.replicate n (1, 2, 3) }).dev
       ((d.ports[(1 : Fin 2)]).hinv.length < 32 ↔ n < 32)
        ∧ (n = 33 → 31 < (d.ports[(1 : Fin 2)]).hinv.length ∧ (dropAt (d.ports[(1 : Fin 2)]).hinv 31)[31]? = some (1, 2, 3))) := by
  refine ⟨?_, ?_, ?_, ?_, ?_⟩ <;> decide +kernel

/-- A session and a stream of port 1. -/
def session0 : Session := ⟨5, 0, Vector.replicate 2 0, 0⟩
def secureState (st : Stream) (t : Tdi) : State :=
  hostDev fun d => ((d.onPort 1 fun p => { p with negotiated := true, sessions := [session0], streams := [st] }).onTdi 248 fun _ => t).onPf fun p =>
    { p with fbind := p.fbind.set 248 0x800003ff#32 }

theorem test_witness_SecureSessions :
    (let d := (secureState ⟨1, 3#2, false, false⟩ Tdi.reset).dev
     (d.ports[(1 : Fin 2)]).negotiated = true ∧ 0 < d.mc.xmssrem ∧ (d.ports[(1 : Fin 2)]).sessions.length < 4
      ∧ (d.ports[(1 : Fin 2)]).sessions.find? (fun y => y.id == 5) = some session0 ∧ (d.ports[(1 : Fin 2)]).sessions.find? (fun y => y.id == 6) = none
      ∧ (∀ f : Fin 249, (d.pf.tdis[f]).of 1 5 = false) ∧ ((d.ports[(1 : Fin 2)]).streams.filter fun y => y.id != 0).length < 64
      ∧ (∃ y ∈ (d.ports[(1 : Fin 2)]).streams, y.id = 1 ∧ y.prog = 3#2) ∧ (∀ y ∈ (d.ports[(1 : Fin 2)]).streams, y.id = 0 → y.prog ≠ 3#2)
      ∧ (d.pf.tdis[(248 : Fin 249)]).st = .unlocked ∧ (d.pf.tdis[(0 : Fin 249)]).st = .unlocked ∧ (d.boundTo 248).isSome = true ∧ (248 : Fin 249) ≠ 0
      ∧ (d.pf.tdis[(248 : Fin 249)]).port = 0 ∧ 0x108 = 0x10 + (248 : Fin 249).val ∧ d.panels = [] ∧ ∀ n : Fin 128, (d.tiles[n]).drain = none)
    ∧ (hostDev id).dev.ports[(1 : Fin 2)].negotiated = false
    ∧ (let d := ((secureState ⟨1, 3#2, true, true⟩ Tdi.reset).onDev fun d => { (d.onMc fun m => { m with xmssrem := 0 }) with dcc := 120000000000 }).dev
       d.mc.xmssrem = 0 ∧ session0.last + 120000000000 ≤ d.dcc)
    ∧ (∃ n ∈ ({ session0 with recs := Vector.replicate 2 (2 ^ 32) } : Session).recs.toList, 2 ^ 32 ≤ n)
    ∧ (let d := ((secureState ⟨1, 3#2, true, true⟩ Tdi.reset).onDev fun d => d.onPort 1 fun p => { p with sessions := List.replicate 4 session0 }).dev
       4 ≤ (d.ports[(1 : Fin 2)]).sessions.length ∧ (d.ports[(1 : Fin 2)]).negotiated = true ∧ 0 < d.mc.xmssrem)
    ∧ (∀ secure ∈ [true, false], let d := (secureState ⟨1, 3#2, true, secure⟩ { Tdi.reset with st := .locked, port := 1, session := 5, stream := 1 }).dev
       (d.pf.tdis[(248 : Fin 249)]).stream = 1 ∧ (d.pf.tdis[(248 : Fin 249)]).st = .locked ∧ (d.pf.tdis[(248 : Fin 249)]).port = 1 ∧ (d.pf.tdis[(248 : Fin 249)]).session = 5
        ∧ ((∃ y ∈ (d.ports[(1 : Fin 2)]).streams, y.id = 1 ∧ y.active = true ∧ y.secure = true) ↔ secure = true))
    ∧ (let d := (secureState ⟨1, 3#2, true, true⟩ { Tdi.reset with st := .run, port := 1, session := 5, stream := 1 }).dev
       (d.pf.tdis[(248 : Fin 249)]).st = .run ∧ (d.pf.tdis[(248 : Fin 249)]).port = 1 ∧ (d.pf.tdis[(248 : Fin 249)]).stream = 1 ∧ d.panels = []
        ∧ ∀ n : Fin 128, (d.tiles[n]).drain = none) := by
  refine ⟨?_, ?_, ?_, ?_, ?_, ?_, ?_⟩ <;> decide +kernel

/-- Seam port 7 up, with something of it changed. -/
def seamState (f : SeamPort → SeamPort) : State := hostDev fun d => d.onSeam 7 fun x => f { x with up := true }

/-- A flit that came in, and one in the replay buffer. -/
def flitIn0 (ok : Bool) (seq type ack dev : Nat) : FlitIn :=
  let b : BitVec 1376 := packFields 1376 [(0, 2, seq + 4096 * type), (2, 2, ack), (4, 1, 1), (7, 1, 0x10), (8, 8, dev * 2 ^ 52), (0x18, 1, 5)]
  { raw := packFields 1408 [(0, 0xac, b.toNat), (0xac, 4, (crc32c (leBytes 0xac b.toNat)).toNat)], macOk := ok }
def flit0 (seq : Nat) : SeamFlit := ⟨seq, 0, 0, 0, 0, true, 0#64, 0#1024⟩

theorem test_witness_Seams :
    (∀ q ∈ [(0, 0), (5, 5), (2047, 2047), (2048, 2048), (4095, 4095)],
      let d := (seamState id).dev
      (d.seams[(7 : Fin 8)]).up = true ∧ (d.seams[(7 : Fin 8)]).retrain = none
        ∧ ((flitOf (flitIn0 true q.1 0 3 0)).seq + 4096 - (d.seams[(7 : Fin 8)]).rxSeq % 4096) % 4096 = q.2
        ∧ flitGood (flitIn0 true q.1 0 3 0) = true ∧ flitType (flitIn0 true q.1 0 3 0) = 0 ∧ (d.seams[(7 : Fin 8)]).replay = []
        ∧ flitGood (flitIn0 false q.1 0 3 0) = false ∧ flitGood ⟨(flitIn0 true q.1 0 3 0).raw ^^^ 1#1408, true⟩ = false)
    ∧ (∀ n ∈ [511, 512], let d := (seamState fun x => { x with rx := List.replicate n (flit0 0) }).dev
       (512 ≤ (d.seams[(7 : Fin 8)]).rx.length ↔ n = 512))
    ∧ (∀ dev ∈ [0, 1], (farDev (flitOf (flitIn0 true 0 0 3 dev)).far = (seamState id).dev.mc.config.spdev ↔ dev = 0))
    ∧ (let x := (seamState fun x => { x with txSeq := 3, replay := [flit0 1, flit0 2], timer := 0 }).dev.seams[(7 : Fin 8)]
       x.replay.findIdx? (fun f => f.seq == 2) = some 1 ∧ (3 = x.txSeq ∧ ∃ f ∈ x.replay, f.seq = 2) ∧ x.replay ≠ []
        ∧ flitGood (flitIn0 true 0 3 2 0) = true ∧ flitType (flitIn0 true 0 3 2 0) = 3 ∧ flitAckSeq (flitIn0 true 0 3 2 0) = 2
        ∧ (∀ y ∈ x.replay, y.seq ≠ flitAckSeq (flitIn0 true 0 0 3 0))
        ∧ x.timer ≤ (seamState id).dev.dcc)
    ∧ (16 ≤ ((seamState fun x => { x with naks := 16 }).dev.seams[(7 : Fin 8)]).naks ∧ 16 ≤ ((seamState fun x => { x with silent := 16 }).dev.seams[(7 : Fin 8)]).silent)
    ∧ ((seamState fun x => { x with retrain := some 5 }).dev.seams[(7 : Fin 8)]).retrain.isSome = true := by
  refine ⟨?_, ?_, ?_, ?_, ?_, ?_⟩ <;> decide +kernel

/-- The router of tile 127 with its neighbour 3 as `f` makes it. -/
def routerState (f : Nbr → Nbr) (g : Router → Router := id) (dcc : Nat := 0) : State :=
  hostDev fun d => { (d.onRouter 127 fun r => g { r with nbr := r.nbr.set 3 (f r.nbr[(3 : Fin 4)]) }) with dcc := dcc }

/-- Whether a router may raise suspicion of its neighbour 3. -/
def maySuspect (d : Dev) : Bool :=
  (d.routers[(127 : Fin 128)]).fence == 0 && (d.routers[neighbour 127 3]).fence == 0 && (d.routers[(127 : Fin 128)]).votes == []
    && decide (∀ m : Fin 128, (d.routers[m]).fence ≠ 2)

theorem test_witness_Routers :
    (let d := (routerState id (fun r => { r with nextTack := 1024 }) 1024).dev
     (∀ j : Fin 4, ((d.routers[(127 : Fin 128)]).nbr[j]).susp = false) ∧ (d.routers[(127 : Fin 128)]).nextTack ≠ 0 ∧ (d.routers[(127 : Fin 128)]).nextTack ≤ d.dcc)
    ∧ (∀ seq ∈ [0, 65535, 65534], let d := (routerState fun x => { x with seq := 65535 }).dev
       let tk := (d.routers[(7 : Fin 128)]).tack 7 seq
       (∀ j : Fin 4, ((d.routers[(127 : Fin 128)]).nbr[j]).susp = false) ∧ tackOk tk = true ∧ tackOk (tk ^^^ 1#128) = false
        ∧ (tackSeq tk = (((d.routers[(127 : Fin 128)]).nbr[(3 : Fin 4)]).seq + 1) % 65536 ↔ seq = 0))
    ∧ (∀ m ∈ [1, 2], let d := (routerState (fun x => { x with deadline := 5, misses := m }) id 5).dev
       let x := (d.routers[(127 : Fin 128)]).nbr[(3 : Fin 4)]
       (∀ j : Fin 4, ((d.routers[(127 : Fin 128)]).nbr[j]).susp = false) ∧ x.deadline ≠ 0 ∧ x.deadline ≤ d.dcc ∧ (x.misses < 2 ↔ m = 1) ∧ maySuspect d = true)
    ∧ (∀ n ∈ [2, 3, 15], let l := List.replicate n 0
       let d := (routerState (fun x => { x with overRate := l, malformed := l, outside := l }) id 5).dev
       let x := (d.routers[(127 : Fin 128)]).nbr[(3 : Fin 4)]
       (∀ j : Fin 4, ((d.routers[(127 : Fin 128)]).nbr[j]).susp = false) ∧ ((noteTime x.overRate d.dcc).length < 4 ↔ n = 2)
        ∧ (16 ≤ (noteTime x.malformed d.dcc).length ↔ n = 15) ∧ (4 ≤ (noteTime x.outside d.dcc).length ↔ 3 ≤ n) ∧ maySuspect d = true)
    ∧ (∀ n ∈ [2, 3], ∀ rate ∈ [0, 64, 255],
       let d := (routerState (fun x => { x with rate := rate, overRate := List.replicate n 0 }) id 5).dev
       let x := (d.routers[(127 : Fin 128)]).nbr[(3 : Fin 4)]
       let limit := if x.rate = 0 then 64 else x.rate
       (∀ j : Fin 4, ((d.routers[(127 : Fin 128)]).nbr[j]).susp = false) ∧ limit < limit + 1 ∧ (limit = 255 ↔ rate = 255) ∧ (routerState fun y => { y with rate := rate }).dev.routers[(127 : Fin 128)].nbr[(3 : Fin 4)].babbles 0 = none ∧ x.malformed = [] ∧ x.outside = []
        ∧ ((noteTime x.overRate d.dcc).length < 4 ↔ n = 2) ∧ maySuspect d = true)
    ∧ (∀ n ∈ [14, 15], let d := (routerState (fun x => { x with malformed := List.replicate n 0 }) id 5).dev
       let x := (d.routers[(127 : Fin 128)]).nbr[(3 : Fin 4)]
       x.overRate = [] ∧ x.outside = [] ∧ ((noteTime x.malformed d.dcc).length < 16 ↔ n = 14) ∧ maySuspect d = true)
    ∧ (let d := (routerState (fun x => { x with panel := BitVec.ofNat 15 (0x4000 + 0x10 + 0x800), outside := List.replicate 3 0 }) id 5).dev
       let x := (d.routers[(127 : Fin 128)]).nbr[(3 : Fin 4)]
       inPanel x.panel 17 = true ∧ (routerState fun y => { y with panel := x.panel }).dev.routers[(127 : Fin 128)].nbr[(3 : Fin 4)].babbles 0 = none ∧ inPanel x.panel 127 = false ∧ 4 ≤ (noteTime x.outside d.dcc).length ∧ x.overRate = [] ∧ maySuspect d = true)
    ∧ (let d := (routerState fun x => { x with probation := 64 }).dev
       (∀ j : Fin 4, ((d.routers[(127 : Fin 128)]).nbr[j]).susp = false) ∧ 64 ≤ ((d.routers[(127 : Fin 128)]).nbr[(3 : Fin 4)]).probation ∧ maySuspect d = true)
    ∧ (neighbourIndex 0 1 = some 0 ∧ neighbourIndex 0 (neighbour 0 3) = some 3 ∧ ((routerState id).dev.routers[cornerTile 0 0 (opposite 3)]).fence ≠ 2
        ∧ (routerState id).dev.routers[(127 : Fin 128)].votes = []
        ∧ (routerState id).dev.routers[(127 : Fin 128)].fence ≠ 2 ∧ ((routerState id).dev.routers[(127 : Fin 128)].fmap.getLsbD 1) = false) := by
  refine ⟨?_, ?_, ?_, ?_, ?_, ?_, ?_, ?_, ?_⟩ <;> decide +kernel

theorem test_witness_Fences :
    (∀ f ∈ [(0 : Fin 4), 1, 2], let d := (routerState id fun r => { r with fence := f }).dev
      ((d.routers[(0 : Fin 128)]).fmap.getLsbD 127 = false) ∧ ((d.routers[(127 : Fin 128)]).fence ≠ 0 ↔ f ≠ 0) ∧ (d.tiles[(127 : Fin 128)]).ops = []
        ∧ (d.tiles[(127 : Fin 128)]).owner = .free ∧ (d.tiles[(127 : Fin 128)]).drain = none)
    ∧ (∀ n ∈ [2, 3], let d := (routerState id fun r => { r with fences := List.replicate n 0 }).dev
       (3 ≤ ((d.routers[(127 : Fin 128)]).fences.filter fun x => decide (d.dcc < x + 86400000000000)).length ↔ n = 3))
    ∧ ((routerState id fun r => { r with fence := 2 }).dev.routers[(127 : Fin 128)].fence = 2)
    ∧ (let d := (routerState id fun r => { r with fmap := setBit r.fmap 1 true }).dev
       (d.routers[(127 : Fin 128)]).fence ≠ 2 ∧ (d.routers[(127 : Fin 128)]).fmap.getLsbD (1 : Fin 128).val = true)
    ∧ (let d := ((routerState id fun r => { r with fence := 2 }).onDev fun d => d.onRouter 0 fun r => { r with fmap := setBit r.fmap 127 true }).dev
       (d.routers[(0 : Fin 128)]).fmap.getLsbD 127 = true ∧ (d.routers[(127 : Fin 128)]).fence = 2)
    ∧ (let d := (routerState id fun r => { r with testing := some 5 }).dev
       (d.routers[(127 : Fin 128)]).testing.isSome = true ∧ ∀ m : Fin 128, (d.routers[m]).queued = false) := by
  refine ⟨?_, ?_, ?_, ?_, ?_, ?_⟩ <;> decide +kernel

/-- The running bolt with the management controller changed and the panel in a phase. -/
def powerState (f : Mc → Mc) (p : List Panel) (dcc : Nat := 0) : State :=
  (loaded (panel0 .running) (vdev0 [])).onDev fun d => { (d.onMc f) with panels := p, dcc := dcc }

theorem test_witness_Power :
    (let d := ((powerState (fun m => { m with scrubAt := 5 }) [] 5).onDev fun d => { d with softWords := [7] }).dev
     d.mc.scrubAt ≠ 0 ∧ d.mc.scrubAt ≤ d.dcc ∧ d.badWords = [])
    ∧ (∀ st ∈ [McSt.running, .dormant], let d := (powerState (fun m => { m with st := st }) [panel0 .running]).dev
       (∀ p ∈ d.panels, p.phase ≠ .trap ∧ p.phase ≠ .debug ∧ p.phase ≠ .over) ∧ d.mc.st = st ∧ d.mc.pfail = false)
    ∧ (∀ low ∈ [true, false], let d := (powerState (fun m => { m with pfailLow := low, pfail := !low, pfailSince := 0 }) [panel0 .running] 1000000).dev
       (∀ p ∈ d.panels, p.phase ≠ .trap ∧ p.phase ≠ .debug ∧ p.phase ≠ .over) ∧ d.mc.st = .running
        ∧ (d.mc.pfailLow = true ∧ d.mc.pfail = false ∧ d.mc.pfailSince + 5000 ≤ d.dcc ∨ d.mc.pfail = true)
        ∧ ((d.mc.pfailLow = false ∧ d.mc.pfail = true ∧ d.mc.pfailSince + 1000000 ≤ d.dcc) ↔ low = false))
    ∧ (∀ t ∈ [839, 840, 919, 920], let d := ((powerState id []).onDev fun d => d.onQuad 31 fun q => { q with temp := BitVec.ofNat 32 t }).dev
       (840 ≤ tempOf (d.quads[(31 : Fin 32)]).temp ↔ t ≠ 839) ∧ (920 ≤ tempOf (d.quads[(31 : Fin 32)]).temp ↔ t = 920))
    ∧ (let d := (powerState (fun m => { m with st := .checkpoint }) [panel0 .running, panel0 .saving] 1000000).dev
       d.mc.st = .checkpoint ∧ d.mc.pfailAt + 1000000 ≤ d.dcc ∧ (∃ p ∈ d.panels, p.unsaved = true) ∧ ∀ p ∈ d.panels, p.pre = none)
    ∧ (powerState (fun m => { m with st := .checkpoint }) []).dev.checkpointDone = true
    ∧ (((powerState (fun m => { m with dormantAt := some 0 }) [] 100000000).onDev fun d =>
        { d with vdevs := [{ vdev0 [] with state := .collapsed, desc := BitVec.ofNat 512 (2 * 2 ^ 32) }] }).dev.dormancyDue = true)
    ∧ (powerState (fun m => { m with st := .dormant }) []).dev.mc.st = .dormant := by
  refine ⟨?_, ?_, ?_, ?_, ?_, ?_, ?_, ?_⟩ <;> decide +kernel

theorem test_witness_ResumeAndTime :
    (∀ retok ∈ [true, false], let d := (powerState (fun m => { m with st := .retention, retok := retok, marker := true }) []).dev
      d.mc.st = .retention ∧ d.mc.pfail = false ∧ d.mc.thermal = false ∧ d.mc.retok = retok ∧ d.mc.slotOk 1 = true)
    ∧ (powerState (fun m => { m with st := .retention, thermal := true }) []).dev.cool = true
    ∧ (let d := (powerState id []).dev
       d.mc.marker = false ∧ d.mc.slotOk 0 = true ∧ d.mc.slotOk 2 = true ∧ d.mc.slotOk 1 = true)
    ∧ (∀ p ∈ [(0 : Fin 3), 1, 2], let d := (powerState (fun m => { m with tsrc := 3#32, avail := Vector.ofFn fun k => decide (p ≤ k) }) []).dev
       ∀ q : Fin 3, (d.mc.sourceUsed q = true ↔ q = p))
    ∧ (∀ x ∈ [1, 2], let d := (powerState (fun m => { m with tsync := BitVec.ofNat 32 x, avail := Vector.replicate 3 false }) []).dev
       (fieldOf d.mc.tsync 0 2 = 1 ∨ fieldOf d.mc.tsync 0 2 = 2) ∧ ∀ k : Fin 3, d.mc.sourceOn k = false) := by
  refine ⟨?_, ?_, ?_, ?_, ?_⟩ <;> decide +kernel

end Sys2Proof.Tests
end

section
/-! O8: consecutive bytes that are written read back, and every other byte is unchanged. -/

namespace Sys2Proof.Machine

/-- The frame of a write of consecutive bytes: an address below the first or past the last of them. -/
theorem memRead_memWriteList_of_outside {m : List Host.Cell} (h : memWf m = true) {k j : Nat} {bs : List Byte}
    (hj : j < k ∨ k + bs.length ≤ j) : memRead (memWriteList m k bs) j = memRead m j := by
  induction bs generalizing m k with
  | nil => rfl
  | cons b r ih =>
    rw [List.length_cons] at hj
    have hne : j ≠ k := by omega
    calc memRead (memWriteList (memWrite m k b) (k + 1) r) j
        = memRead (memWrite m k b) j := ih (memWrite_wf h k b) (by omega)
      _ = memRead m j := by rw [memRead_memWrite h, if_neg hne]

/-- The bytes written after the first lie past its address, so the first stays; the others read back by induction. -/
theorem memRead_memWriteList_add {m : List Host.Cell} (h : memWf m = true) (k : Nat) {bs : List Byte} {i : Nat}
    (hi : i < bs.length) : memRead (memWriteList m k bs) (k + i) = bs[i] := by
  induction bs generalizing m k i with
  | nil => exact absurd hi (Nat.not_lt_zero i)
  | cons b r ih =>
    have hwf := memWrite_wf h k b
    cases i with
    | zero =>
      calc memRead (memWriteList (memWrite m k b) (k + 1) r) k
          = memRead (memWrite m k b) k := memRead_memWriteList_of_outside hwf (.inl k.lt_succ_self)
        _ = b := by rw [memRead_memWrite h, if_pos rfl]
    | succ i =>
      have hrest := ih hwf (k + 1) (Nat.lt_of_succ_lt_succ hi)
      rwa [Nat.add_right_comm] at hrest

end Sys2Proof.Machine

namespace Sys2Proof
open Machine

/-- Settles O8, by the read-back and the frame of a write of consecutive bytes. -/
theorem memoryReadsBackWhatIsWritten : Obligations.MemoryReadsBackWhatIsWritten := by
  intro m k j bs hwf
  split
  case isTrue h =>
    have hback := memRead_memWriteList_add hwf k h.2
    rwa [Nat.add_sub_cancel' h.1] at hback
  case isFalse h => exact memRead_memWriteList_of_outside hwf (by omega)

end Sys2Proof
end

section
/-! O11: of two results due in one s register on one cycle the later-issued one stands. -/

namespace Sys2Proof.Machine

/-! What a write leaves to be read -/

theorem getLsbD_setBit_same {n i : Nat} (hi : i < n) (v : BitVec n) (b : Bool) : (setBit v i b).getLsbD i = b := by
  have hbit : (BitVec.ofNat n (2 ^ i)).getLsbD i = true := by
    rw [BitVec.getLsbD_ofNat, Nat.testBit_two_pow_self, decide_eq_true hi, Bool.and_self]
  cases b
  · simp only [setBit, Bool.false_eq_true, if_false, BitVec.getLsbD_and, BitVec.getLsbD_not, hbit, Bool.not_true, Bool.and_false]
  · simp only [setBit, if_true, BitVec.getLsbD_or, hbit, Bool.or_true]

theorem Tile.writeS_s_same {r : Fin 32} (hr : r ≠ 0) (t : Tile) (v : W64) (p : Bool) : (t.writeS r v p).r.s[r] = v := by
  simp [Tile.writeS, hr]

theorem Tile.writeS_sPoison_same {r : Fin 32} (hr : r ≠ 0) (t : Tile) (v : W64) (p : Bool) :
    (t.writeS r v p).r.sPoison.getLsbD r.val = p := by
  rw [Tile.writeS, if_neg hr]
  exact getLsbD_setBit_same r.isLt _ _

@[simp] theorem Dev.onTile_tiles_same (d : Dev) (n : Fin 128) (f : Tile → Tile) : (d.onTile n f).tiles[n] = f d.tiles[n] := by
  simp [Dev.onTile]

/-- A due s result as a write of its tile; a full write does not keep the old poison (R40). -/
theorem Dev.writeDue_s {f : Flight} {r : Fin 32} (hdest : f.dest = .s r) (hfull : f.keepOld = false) (d : Dev) (n : Fin 128) :
    d.writeDue n f = d.onTile n fun t => t.writeS r (f.value.setWidth 64) f.poison := by
  simp [Dev.writeDue, hdest, hfull]

/-! What DUE_RESULT_WRITE leaves of the registers -/

theorem Tile.foldl_r {α : Type} {f : Tile → α → Tile} (hf : ∀ t x, (f t x).r = t.r) (l : List α) (t : Tile) :
    (l.foldl f t).r = t.r := by
  induction l generalizing t with
  | nil => rfl
  | cons x l ih => exact (ih (f t x)).trans (hf t x)

@[simp] theorem Tile.dueStatus_r (t : Tile) (f : Flight) : (t.dueStatus f).r = t.r := by
  unfold Tile.dueStatus
  cases f.dest.file <;> cases f.pzero <;> simp

@[simp] theorem Tile.orZs_r (t : Tile) (z : Fin 4) (fl : Flags) : (t.orZs z fl).r = t.r := rfl

@[simp] theorem Tile.readoutFlags_r (t : Tile) (psc : Nat) (sat : Bool) : (t.readoutFlags psc sat).r = t.r := by
  refine Tile.foldl_r (fun t o => ?_) t.apath t
  cases o.zo <;> dsimp only <;> split <;> rfl

/-- Where no operation of a matrix path is due, the registers change by the due results of the work in flight alone: status,
flags and queues are apart from them. -/
theorem exec_dueResultWrite_r {s : State} {n : Fin 128}
    (hpath : ∀ o ∈ s.dev.tiles[n].tpath ++ s.dev.tiles[n].apath, o.due ≠ some (s.dev.psc n)) :
    ∃ t, exec (.dueResultWrite n) s = .next t ∧ t.dev.tiles[n].r
      = ((lastResults (sortBy Flight.order (s.dev.tiles[n].flight.filter fun x => x.due == s.dev.psc n))).foldl
          (fun d f => d.writeDue n f) s.dev).tiles[n].r := by
  have hnone : (s.dev.tiles[n].tpath ++ s.dev.tiles[n].apath).filter (fun o => o.due == some (s.dev.psc n)) = [] :=
    List.filter_eq_nil_iff.2 fun o ho => by simpa using hpath o ho
  refine ⟨_, rfl, ?_⟩
  simp only [State.onDev_dev, Dev.onTile_tiles_same, hnone]
  simp [sortBy, Tile.pathWrites, Tile.foldl_r Tile.dueStatus_r]

/-! Two results of one register -/

theorem sortBy_pair_of_lt {α : Type} {k : α → Nat} {x y : α} {l : List α} (hl : l = [x, y] ∨ l = [y, x]) (hlt : k x < k y) :
    sortBy k l = [x, y] := by
  obtain rfl | rfl := hl
  · simp [sortBy, insertBy, hlt.le]
  · simp [sortBy, insertBy, hlt]

/-- The overwritten result leaves no trace (R15). -/
theorem lastResults_pair_of_dest_eq {f g : Flight} (hdest : f.dest = g.dest) (hreg : g.dest ≠ .none) :
    lastResults [f, g] = [g] := by
  simp [lastResults, hdest, hreg]

end Sys2Proof.Machine

namespace Sys2Proof
open Machine

/-- Settles O11: sorted by issue and slot, only the later of the two results is written, whole. -/
theorem laterIssuedResultStands : Obligations.LaterIssuedResultStands := by
  intro s n f g r hr hdue hf hg hfull hlt hpath
  obtain ⟨t, hexec, hregs⟩ := exec_dueResultWrite_r fun o ho => (hpath o ho).1
  have hsort := sortBy_pair_of_lt (k := Flight.order) hdue hlt
  have hlast : lastResults [f, g] = [g] := lastResults_pair_of_dest_eq (hf.trans hg.symm) (by simp [hg])
  have hwrite : t.dev.tiles[n].r = (s.dev.tiles[n].writeS r (g.value.setWidth 64) g.poison).r := by
    rw [hregs, hsort, hlast, List.foldl_cons, List.foldl_nil, Dev.writeDue_s hg hfull, Dev.onTile_tiles_same]
  refine ⟨t, hexec, ?_, ?_⟩
  · rw [hwrite, Tile.writeS_s_same hr]
  · rw [hwrite, Tile.writeS_sPoison_same hr]

end Sys2Proof
end

section
/-! O4: from the words at the pc to the operation that a step runs, and where the close of its bundle sends the tile. -/

namespace Sys2Proof.Machine

/-! Fetch and the work of a cycle -/

/-- Where the words from an aligned, mapped address on decode to a bundle, no pad is skipped (R121). -/
theorem fetchLoop_of_bundle {d : Dev} {svc : Bool} {key : Nat → Option Nat} {pc k len : Nat} {b : Bundle} (halign : pc % 4 = 0)
    (hkey : key pc = some k)
    (hdec : decodeBundle svc ((List.range (Nat.min 9 ((64 - pc % 64) / 4))).map fun j => (d.word (k + 4 * j)).toNat) = .bundle len b)
    {fuel : Nat} (hfuel : fuel ≠ 0) : fetchLoop d svc key fuel pc = .bundle (BitVec.ofNat 32 pc) len b := by
  obtain ⟨fuel, rfl⟩ := Nat.exists_eq_succ_of_ne_zero hfuel
  simp [fetchLoop, halign, hkey, hdec]

theorem Dev.fetch_of_bundle {d : Dev} {n : Fin 128} {k len : Nat} {b : Bundle} (halign : d.tiles[n].c.pc.toNat % 4 = 0)
    (hkey : ispAddr n d.tiles[n] d.tiles[n].c.pc.toNat = some k)
    (hdec : decodeBundle false ((List.range (Nat.min 9 ((64 - d.tiles[n].c.pc.toNat % 64) / 4))).map fun j => (d.word (k + 4 * j)).toNat)
      = .bundle len b) : d.fetch n = .bundle d.tiles[n].c.pc len b := by
  have hfetch := fetchLoop_of_bundle halign hkey hdec (fuel := fetchFuel) (by decide)
  rwa [BitVec.ofNat_toNat, BitVec.setWidth_eq] at hfetch

theorem Tile.runs_of_guard {t : Tile} {o : Op} {i : Instr} (g : Fin 8) (hop : o.op = .ins i) (hguard : t.guard o = true) :
    t.runs (.ops g [o]) = [(o.slot.val, i)] := by
  simp [Tile.runs, hop, hguard]

theorem Dev.tileMicros_of_unsynced {d : Dev} {n : Fin 128} {a : W32} {len : Nat} {l : List Op} (hready : d.tiles[n].ready = true)
    (hfetch : d.fetch n = .bundle a len (.ops 0 l)) :
    d.tileMicros n = bundleMicros (.tile n) a len (d.tiles[n].runs (.ops 0 l)) := by
  simp [-Fin.getElem_fin, Dev.tileMicros, hready, hfetch, bundleSync]

/-! The step -/

/-- With work in hand a step runs its head, unless the head is still to be planned (log entries 1 and 6). -/
theorem step_of_expanded {s : State} {m : Micro} {r : List Micro} (hagenda : s.agenda = m :: r) (hexpand : s.expand = s) :
    step s = ({ s with agenda := r } : State).runMicro m := by
  simp [step, State.runNext, State.runHead, hagenda, hexpand]

theorem step_op {s : State} {a : Agent} {addr : W32} {len slot : Nat} {first : Bool} {i : Instr} {r : List Micro}
    (hagenda : s.agenda = .op a addr len slot first i :: r) :
    step s = exec i (({ s with agenda := r } : State).enter a addr len slot first) :=
  step_of_expanded hagenda (by simp [State.expand, hagenda])

theorem step_ev {s : State} {i : Instr} {r : List Micro} (hagenda : s.agenda = .ev i :: r) :
    step s = exec i { s with agenda := r } :=
  step_of_expanded hagenda (by simp [State.expand, hagenda])

theorem step_endIssue {s : State} {h : Nat} {r : List Micro} (hagenda : s.agenda = .endIssue h :: r) :
    step s = .next (({ s with agenda := r } : State).endIssue h) :=
  step_of_expanded hagenda (by simp [State.expand, hagenda])

/-! The close of a bundle -/

theorem State.loops_setLoops (s : State) (l : List LoopEnt) : (s.setLoops l).loops = l := by
  cases hcur : s.cur with
  | tile n => simp only [State.setLoops, State.loops, hcur, State.onDev_cur, State.onDev_dev, Dev.onTile_tiles_same]
  | svc q => simp [State.setLoops, State.loops, hcur, Dev.onSvc]

theorem State.endBundle_tile_c {s : State} {n : Fin 128} (hcur : s.cur = .tile n) (hidle : s.iss.idle = 0) :
    s.endBundle.dev.tiles[n].c
      = { s.dev.tiles[n].c with loops := s.nextAddress.1, pc := s.nextAddress.2, idle := 0, passed := false } := by
  simp only [State.endBundle, State.setLoops, hcur, hidle, if_true, State.onDev_dev, Dev.onTile_tiles_same]

theorem State.nextAddress_of_taken {s : State} (htaken : s.iss.taken = true) : s.nextAddress = (s.loops, s.iss.next) := by
  simp [State.nextAddress, htaken]

theorem State.nextAddress_of_not_taken {s : State} (htaken : s.iss.taken = false) :
    s.nextAddress = loopStep s.loops s.iss.addr s.iss.next := by
  simp [State.nextAddress, htaken]

theorem loopStep_of_head_ne {l : List LoopEnt} {a : W32} (h : ∀ e, l.head? = some e → e.stop ≠ a) (next : W32) :
    loopStep l a next = (l, next) := by
  cases l with
  | nil => rfl
  | cons e r => simp [loopStep, h e rfl]

theorem loopStep_back {e : LoopEnt} {a : W32} (hstop : e.stop = a) (hcount : 1 < e.count) (r : List LoopEnt) (next : W32) :
    loopStep (e :: r) a next = ({ e with count := e.count - 1 } :: r, e.start) := by
  simp [loopStep, hstop, hcount]

theorem loopStep_pop {e : LoopEnt} {a : W32} (hstop : e.stop = a) (hcount : e.count ≤ 1) (r : List LoopEnt) (next : W32) :
    loopStep (e :: r) a next = loopStep r a next := by
  simp [loopStep, hstop, hcount.not_gt]

/-- The close replaces the loop stack, so what it held matters only through `nextAddress`. -/
theorem State.endBundle_setLoops {s : State} {n : Fin 128} (hcur : s.cur = .tile n) {l : List LoopEnt}
    (hnext : (s.setLoops l).nextAddress = s.nextAddress) : (s.setLoops l).endBundle = s.endBundle := by
  unfold State.endBundle
  rw [hnext]
  simp [State.setLoops, hcur, State.onDev, Dev.onTile]

end Sys2Proof.Machine

namespace Sys2Proof
open Machine

/-- Settles O4: each part by the lemma about the function it speaks of; the close by the cases of `loopStep`. -/
theorem stepRunsTheDecodedInstruction : Obligations.StepRunsTheDecodedInstruction := by
  refine ⟨fun d n k len b => Dev.fetch_of_bundle, fun d n a len o i hready hfetch hop hguard => ?_,
    fun s a addr len slot first i r => step_op, fun s i r => step_ev, fun s n hcur hidle => ?_⟩
  · rw [Dev.tileMicros_of_unsynced hready hfetch, Tile.runs_of_guard 0 hop hguard]
    rfl
  · simp only [State.endBundle_tile_c hcur hidle]
    refine ⟨fun htaken => ?_, fun htaken hhead => ?_, fun e l htaken hloops hstop => ⟨fun hcount => ?_, fun hcount => ?_⟩⟩
    · simp [State.nextAddress_of_taken htaken]
    · simp [State.nextAddress_of_not_taken htaken, loopStep_of_head_ne hhead]
    · simp [State.nextAddress_of_not_taken htaken, hloops, loopStep_back hstop hcount]
    · refine (State.endBundle_setLoops hcur ?_).symm
      have hiss : (s.setLoops l).iss = s.iss := by simp [State.setLoops, hcur]
      rw [State.nextAddress_of_not_taken htaken, State.nextAddress_of_not_taken (hiss ▸ htaken), State.loops_setLoops, hiss, hloops,
        loopStep_pop hstop hcount]

end Sys2Proof
end

section
/-! O10: what one due result, or a readout whose flags are due, leaves of a tile. -/

namespace Sys2Proof.Machine

theorem Dev.onTile_tiles_ne {n m : Fin 128} (hne : m ≠ n) (d : Dev) (f : Tile → Tile) :
    (d.onTile n f).tiles[m] = d.tiles[m] := by
  have hval : (n : Nat) ≠ m := fun h => hne (Fin.ext h.symm)
  simp [Dev.onTile, hval]

/-! The frame of one result -/

/-- What a due result leaves unchanged: memory, the other tiles, and what is in flight in its own. -/
structure Dev.SameButRegs (d : Dev) (n : Fin 128) (e : Dev) : Prop where
  mem : e.mem = d.mem
  tiles_ne : ∀ m : Fin 128, m ≠ n → e.tiles[m] = d.tiles[m]
  flight : e.tiles[n].flight = d.tiles[n].flight
  apath : e.tiles[n].apath = d.tiles[n].apath

theorem Dev.sameButRegs_of_tiles {d e : Dev} (n : Fin 128) (hmem : e.mem = d.mem) (htiles : e.tiles = d.tiles) :
    d.SameButRegs n e := by
  constructor <;> simp only [hmem, htiles, implies_true]

theorem Dev.sameButRegs_onTile {g : Tile → Tile} (hg : ∀ t, (g t).flight = t.flight ∧ (g t).apath = t.apath) (d : Dev) (n : Fin 128) :
    d.SameButRegs n (d.onTile n g) where
  mem := rfl
  tiles_ne _ hm := d.onTile_tiles_ne hm g
  flight := by rw [Dev.onTile_tiles_same]; exact (hg _).1
  apath := by rw [Dev.onTile_tiles_same]; exact (hg _).2

theorem Dev.writeSr_sameButRegs (d : Dev) (n : Fin 128) (num : Nat) (v : W64) : d.SameButRegs n (d.writeSr n num v) := by
  by_cases hnum : num = 0x00B
  · simp only [Dev.writeSr, hnum, if_true]
    split <;> exact Dev.sameButRegs_of_tiles n rfl rfl
  · simp only [Dev.writeSr, hnum, if_false]
    refine Dev.sameButRegs_onTile (fun t => ?_) d n
    split_ifs <;> exact ⟨rfl, rfl⟩

theorem Dev.writeDue_sameButRegs (d : Dev) (n : Fin 128) (f : Flight) : d.SameButRegs n (d.writeDue n f) := by
  unfold Dev.writeDue
  cases f.dest with
  | none => exact Dev.sameButRegs_of_tiles n rfl rfl
  | beat => exact Dev.sameButRegs_of_tiles n rfl rfl
  | v x r => exact Dev.sameButRegs_onTile (fun t => by split <;> simp) d n
  | sr num => exact d.writeSr_sameButRegs n num.toNat _
  | _ => exact Dev.sameButRegs_onTile (fun t => by simp) d n

/-! State registers -/

/-- The staging registers have state-register numbers of their own (R95). -/
theorem Dev.writeSr_staging {num : Nat} (hnum : 0x060 ≤ num ∧ num ≤ 0x06F) (d : Dev) (n : Fin 128) (v : W64) :
    d.writeSr n num v = d.onTile n fun t => { t with r := { t.r with d := t.r.d.set (idx 16 (num - 0x060)) v } } := by
  have h1 : num ≠ 0x00B ∧ num ≠ 0x00F ∧ num ≠ 0x014 ∧ num ≠ 0x015 ∧ num ≠ 0x018 := by omega
  have h2 : ¬ (0x030 ≤ num ∧ num ≤ 0x03F) ∧ ¬ (0x040 ≤ num ∧ num ≤ 0x047) ∧ ¬ (0x050 ≤ num ∧ num ≤ 0x05D) := by omega
  simp only [Dev.writeSr, h1, h2, hnum, and_self, if_false, if_true]

theorem Dev.writeSr_pstall (d : Dev) (n : Fin 128) (v : W64) : (d.writeSr n 0x00B v).tiles = d.tiles := by
  simp only [Dev.writeSr, if_true]
  split <;> rfl

/-- The state register that a number names takes the writable bits, and no other changes (R94, R95). -/
theorem Dev.writeSr_sr (d : Dev) (n : Fin 128) (num : Nat) (v : W64) :
    (d.writeSr n num v).tiles[n].sr = (let R := d.tiles[n].sr
      let w : W32 := v.setWidth 32
      if num = 0x00F then { R with ispid := blend 0xffffffff00000000#64 v R.ispid }
      else if num = 0x014 then { R with fsta := blend 0x23f#32 w R.fsta }
      else if num = 0x015 then { R with fstb := blend 0x23f#32 w R.fstb }
      else if num = 0x018 then { R with zctl := blend 1#32 w R.zctl }
      else if 0x030 ≤ num ∧ num ≤ 0x03F then
        { R with bfmt := R.bfmt.set (idx 16 (num - 0x030)) (blend bfmtMask w R.bfmt[idx 16 (num - 0x030)]) }
      else if 0x040 ≤ num ∧ num ≤ 0x047 then
        { R with tgeom := R.tgeom.set (idx 8 (num - 0x040)) (blend 0x7f3f#32 w R.tgeom[idx 8 (num - 0x040)]) }
      else if 0x050 ≤ num ∧ num ≤ 0x05D then
        let i := idx 7 ((num - 0x050) / 2)
        { R with gm := R.gm.set i (putField R.gm[i] (64 * ((num - 0x050) % 2)) 64 v.toNat) }
      else R) := by
  by_cases hp : num = 0x00B
  · subst hp
    rw [Dev.writeSr_pstall]
    rfl
  · simp only [Dev.writeSr, hp, if_false, Dev.onTile_tiles_same, apply_ite Tile.sr, ite_self]

theorem Dev.writeSr_tstat (d : Dev) (n : Fin 128) (num : Nat) (v : W64) :
    (d.writeSr n num v).tiles[n].sr.tstat = d.tiles[n].sr.tstat := by
  simp only [Dev.writeSr_sr, apply_ite TileSr.tstat, ite_self]

theorem Dev.writeSr_r_of_not_staging {num : Nat} (hnum : ¬ (0x060 ≤ num ∧ num ≤ 0x06F)) (d : Dev) (n : Fin 128) (v : W64) :
    (d.writeSr n num v).tiles[n].r = d.tiles[n].r := by
  by_cases hp : num = 0x00B
  · rw [hp, Dev.writeSr_pstall]
  · simp only [Dev.writeSr, hp, hnum, if_false, Dev.onTile_tiles_same]
    split_ifs <;> rfl

theorem Dev.writeDue_of_sr {f : Flight} {num : BitVec 10} (hdest : f.dest = .sr num) (d : Dev) (n : Fin 128) :
    d.writeDue n f = d.writeSr n num.toNat (f.value.setWidth 64) := by
  simp only [Dev.writeDue, hdest]

theorem Dev.writeDue_sr_of_not_sr {f : Flight} (hdest : ∀ num, f.dest ≠ .sr num) (d : Dev) (n : Fin 128) :
    (d.writeDue n f).tiles[n].sr = d.tiles[n].sr := by
  unfold Dev.writeDue
  cases h : f.dest with
  | none => rfl
  | beat => rfl
  | v x r => rw [Dev.onTile_tiles_same]; split <;> simp only [Tile.writeV_sr]
  | sr num => exact absurd h (hdest num)
  | d r => rw [Dev.onTile_tiles_same]
  | _ => simp only [Dev.onTile_tiles_same, Tile.writeS_sr, Tile.writeK_sr, Tile.writeP_sr, Tile.writeM_sr]

theorem Dev.writeDue_tstat (d : Dev) (n : Fin 128) (f : Flight) :
    (d.writeDue n f).tiles[n].sr.tstat = d.tiles[n].sr.tstat := by
  by_cases hdest : ∃ num, f.dest = .sr num
  · obtain ⟨num, hdest⟩ := hdest
    rw [Dev.writeDue_of_sr hdest, Dev.writeSr_tstat]
  · rw [Dev.writeDue_sr_of_not_sr (not_exists.1 hdest)]

theorem Dev.writeDue_panels_of_ne {f : Flight} (hdest : f.dest ≠ .sr 0x00B#10) (d : Dev) (n : Fin 128) :
    (d.writeDue n f).panels = d.panels := by
  unfold Dev.writeDue
  cases h : f.dest with
  | sr num =>
    have hnum : num.toNat ≠ 0x00B := fun hp => hdest (h.trans (congrArg Dest.sr (BitVec.eq_of_toNat_eq hp)))
    simp only [Dev.writeSr, hnum, if_false, Dev.onTile_panels]
  | _ => rfl

/-! The status that a result leaves -/

/-- A tile with the flags of a due result ORed into FSTA or FSTB (R70). -/
def Tile.orDueFlags (t : Tile) (f : Flight) : Tile := f.dest.file.elim t fun x => t.orFlags x f.flags

/-- Beside the flags, TSTAT.PZERO is set where a zero stands for a poisoned source (R41). -/
theorem Tile.dueStatus_sr (t : Tile) (f : Flight) : (t.dueStatus f).sr
    = if f.pzero then { (t.orDueFlags f).sr with tstat := setBit t.sr.tstat 1 true } else (t.orDueFlags f).sr := by
  unfold Tile.dueStatus Tile.orDueFlags
  cases f.dest.file with
  | none => cases f.pzero <;> rfl
  | some x => cases x <;> cases f.pzero <;> rfl

@[simp] theorem Tile.dueStatus_flight (t : Tile) (f : Flight) : (t.dueStatus f).flight = t.flight := by
  unfold Tile.dueStatus
  cases f.dest.file <;> cases f.pzero <;> simp

@[simp] theorem Tile.dueStatus_apath (t : Tile) (f : Flight) : (t.dueStatus f).apath = t.apath := by
  unfold Tile.dueStatus
  cases f.dest.file <;> cases f.pzero <;> simp

/-! DUE_RESULT_WRITE -/

/-- What DUE_RESULT_WRITE takes from the queues of a tile at the end of the cycle. -/
def Tile.dequeueDue (t : Tile) (psc : Nat) : Tile :=
  { t with flight := t.flight.filter fun f => f.due != psc || f.act != .none
           tpath := t.tpath.filter fun o => !(o.due == some psc)
           apath := (t.apath.filter fun o => !(o.due == some psc)).map (PathOp.flagsDone psc) }

/-- DUE_RESULT_WRITE of a tile of whose path operations none is due. -/
theorem exec_dueResultWrite_of_no_path_due {s : State} {n : Fin 128} {due : List Flight}
    (hpath : ∀ o ∈ s.dev.tiles[n].tpath ++ s.dev.tiles[n].apath, o.due ≠ some (s.dev.psc n))
    (hdue : sortBy Flight.order (s.dev.tiles[n].flight.filter fun f => f.due == s.dev.psc n) = due) :
    exec (.dueResultWrite n) s = .next (s.onDev fun d => ((lastResults due).foldl (fun d f => d.writeDue n f) d).onTile n fun t =>
      ((due.foldl Tile.dueStatus t).readoutFlags (s.dev.psc n) (s.dev.tiles[n].sr.zctl.getLsbD 0)).dequeueDue (s.dev.psc n)) := by
  have hnone : (s.dev.tiles[n].tpath ++ s.dev.tiles[n].apath).filter (fun o => o.due == some (s.dev.psc n)) = [] :=
    List.filter_eq_nil_iff.2 fun o ho => by simpa using hpath o ho
  subst hdue
  change execDueResultWrite n s = _
  simp only [execDueResultWrite, hnone]
  rfl

theorem Tile.readoutFlags_of_none {t : Tile} {psc : Nat} (h : ∀ o ∈ t.apath, o.issue + 7 ≠ psc) (sat : Bool) :
    t.readoutFlags psc sat = t := by
  unfold Tile.readoutFlags
  generalize t.apath = l at h
  induction l with
  | nil => rfl
  | cons o l ih =>
    obtain ⟨ho, hl⟩ := List.forall_mem_cons.1 h
    simpa [ho] using ih hl

/-- The one due result has no access left to perform, so it leaves the work in flight. -/
theorem filter_flight_of_due_singleton {l : List Flight} {f : Flight} {psc : Nat} (hdue : (l.filter fun g => g.due == psc) = [f])
    (hact : f.act = .none) : (l.filter fun g => g.due != psc || g.act != .none) = l.filter fun g => g.due != psc := by
  refine List.filter_congr fun g hg => ?_
  by_cases hg' : g.due = psc
  · have hmem : g ∈ [f] := hdue ▸ List.mem_filter.2 ⟨hg, beq_iff_eq.2 hg'⟩
    simp [List.mem_singleton.1 hmem, hact]
  · simp [hg']

theorem foldl_writeDue_lastResults_singleton (d : Dev) (n : Fin 128) (f : Flight) :
    (lastResults [f]).foldl (fun d f => d.writeDue n f) d = d.writeDue n f := by
  by_cases hdest : f.dest = .none
  · simp [lastResults, hdest, Dev.writeDue]
  · simp [lastResults, hdest]

/-- One due result and no work of the matrix paths: the result is written, its status follows, and it leaves the queue. -/
theorem exec_dueResultWrite_singleton {s : State} {n : Fin 128} {f : Flight}
    (hdue : (s.dev.tiles[n].flight.filter fun g => g.due == s.dev.psc n) = [f])
    (hpath : ∀ o ∈ s.dev.tiles[n].tpath ++ s.dev.tiles[n].apath, o.due ≠ some (s.dev.psc n) ∧ o.issue + 7 ≠ s.dev.psc n) :
    ∃ t, exec (.dueResultWrite n) s = .next t
      ∧ t.dev = (s.dev.writeDue n f).onTile n fun u => (u.dueStatus f).dequeueDue (s.dev.psc n) := by
  refine ⟨_, exec_dueResultWrite_of_no_path_due (due := [f]) (fun o ho => (hpath o ho).1) (by rw [hdue]; rfl), ?_⟩
  have hflags : ∀ o ∈ ((s.dev.writeDue n f).tiles[n].dueStatus f).apath, o.issue + 7 ≠ s.dev.psc n := by
    rw [Tile.dueStatus_apath, (s.dev.writeDue_sameButRegs n f).apath]
    exact fun o ho => (hpath o (List.mem_append_right _ ho)).2
  simp only [State.onDev_dev, foldl_writeDue_lastResults_singleton, List.foldl_cons, List.foldl_nil, Dev.onTile,
    Tile.readoutFlags_of_none hflags]

/-! Readout flags -/

theorem Tile.orZs_zs (t : Tile) (z w : Fin 4) (fl : Flags) :
    (t.orZs z fl).sr.zs[w] = if w = z then t.sr.zs[w] ||| (fl &&& 0x3d#6).setWidth 32 else t.sr.zs[w] := by
  simp only [Tile.orZs, Fin.getElem_fin, Vector.getElem_set, Fin.ext_iff]
  grind

theorem Tile.readoutFlags_singleton {t : Tile} {o : PathOp} {psc : Nat} (hapath : t.apath = [o]) (hissue : o.issue + 7 = psc)
    (sat : Bool) : t.readoutFlags psc sat = o.zo.elim (t.orZs o.flagsTo (o.underSat sat).zflags) fun z =>
      (t.orZs o.flagsTo (o.underSat sat).zflags).orZs z (o.underSat sat).zflags := by
  simp only [Tile.readoutFlags, hapath, hissue, List.foldl_cons, List.foldl_nil, beq_self_eq_true, if_true]
  cases o.zo <;> rfl

/-- A readout ORs its flags into the zs of its accumulators, once where the two are one. -/
theorem Tile.readoutFlags_singleton_zs {t : Tile} {o : PathOp} {psc : Nat} (hapath : t.apath = [o]) (hissue : o.issue + 7 = psc)
    (sat : Bool) (w : Fin 4) : (t.readoutFlags psc sat).sr.zs[w] = if w = o.flagsTo ∨ o.zo = some w
      then t.sr.zs[w] ||| ((o.underSat sat).zflags &&& 0x3d#6).setWidth 32 else t.sr.zs[w] := by
  rw [Tile.readoutFlags_singleton hapath hissue]
  cases o.zo with
  | none => simp only [Option.elim, Tile.orZs_zs, reduceCtorEq, or_false]
  | some z =>
    simp only [Option.elim, Tile.orZs_zs, Option.some.injEq]
    grind

theorem Tile.readoutFlags_singleton_apath {t : Tile} {o : PathOp} {psc : Nat} (hapath : t.apath = [o]) (hissue : o.issue + 7 = psc)
    (sat : Bool) : (t.readoutFlags psc sat).apath = [o] := by
  rw [Tile.readoutFlags_singleton hapath hissue, ← hapath]
  cases o.zo <;> rfl

theorem PathOp.underSat_zflags (o : PathOp) (sat : Bool) : (o.underSat sat).zflags
    = if sat = true ∧ (o.kind = .zout ∨ o.kind = .zoutv) then o.satFlags else o.zflags := by
  simp only [PathOp.underSat, Bool.and_eq_true, Bool.or_eq_true, beq_iff_eq]
  split <;> rfl

end Sys2Proof.Machine

namespace Sys2Proof
open Machine

/-- Settles O10: the frame of the one write, then the destination's register, the status beside it and PSTALL by the cases of the
destination; the readout by its zs registers. -/
theorem dueResultIsWritten : Obligations.DueResultIsWritten := by
  refine ⟨fun s n f hdue hact hpath => ?_, fun s n o htpath hapath hissue hodue hflight => ?_⟩
  · obtain ⟨t, hexec, hdev⟩ := exec_dueResultWrite_singleton hdue hpath
    have hframe := s.dev.writeDue_sameButRegs n f
    refine ⟨t, hexec, ?_, ?_, fun m hm => ?_, ?_, ?_, ?_⟩ <;> rw [hdev]
    · rw [Dev.onTile_tiles_same]
      simp only [Tile.dequeueDue, Tile.dueStatus_flight, hframe.flight, filter_flight_of_due_singleton hdue hact]
    · exact hframe.mem
    · exact (Dev.onTile_tiles_ne hm _ _).trans (hframe.tiles_ne m hm)
    · rw [Dev.onTile_tiles_same]
      simp only [Tile.dequeueDue, Tile.dueStatus_r]
      cases hdest : f.dest with
      | s r => simp only [Dev.writeDue, hdest, Dev.onTile_tiles_same, Tile.writeS]; split <;> rfl
      | k r => simp only [Dev.writeDue, hdest, Dev.onTile_tiles_same, Tile.writeK]; split <;> rfl
      | p r => simp only [Dev.writeDue, hdest, Dev.onTile_tiles_same, Tile.writeP]; split <;> rfl
      | v x r => cases x <;> simp only [Dev.writeDue, hdest, Dev.onTile_tiles_same, Tile.writeV] <;> split <;> rfl
      | m x r => cases x <;> simp only [Dev.writeDue, hdest, Dev.onTile_tiles_same] <;> rfl
      | d r => simp only [Dev.writeDue, hdest, Dev.onTile_tiles_same]; rfl
      | sr num =>
        rw [Dev.writeDue_of_sr hdest]
        dsimp only
        split
        case isTrue h => rw [Dev.writeSr_staging h, Dev.onTile_tiles_same]
        case isFalse h => exact Dev.writeSr_r_of_not_staging h _ _ _
      | _ => simp only [Dev.writeDue, hdest]
    · intro R v upd Q
      have hQ : ((s.dev.writeDue n f).tiles[n].orDueFlags f).sr = Q := by
        cases hdest : f.dest with
        | v x r | m x r =>
          have hsr := s.dev.writeDue_sr_of_not_sr (f := f) (by simp [hdest]) n
          cases x <;> simp only [Tile.orDueFlags, hdest, Dest.file, Option.elim, Tile.orFlags, hsr, R, Q]
        | sr num =>
          simp only [Tile.orDueFlags, hdest, Dest.file, Option.elim, Dev.writeDue_of_sr hdest, Q]
          exact s.dev.writeSr_sr n num.toNat v
        | _ =>
          have hsr := s.dev.writeDue_sr_of_not_sr (f := f) (by simp [hdest]) n
          simp only [Tile.orDueFlags, hdest, Dest.file, Option.elim, hsr, R, Q]
      rw [Dev.onTile_tiles_same]
      refine (Tile.dueStatus_sr _ f).trans ?_
      rw [Dev.writeDue_tstat, hQ]
    · rw [Dev.onTile_panels]
      by_cases hdest : f.dest = .sr 0x00B#10
      · rw [Dev.writeDue_of_sr hdest]
        cases hpanel : s.dev.panelOf n with
        | none => simp [Dev.writeSr, hpanel]
        | some p => simp [Dev.writeSr, hpanel, hdest, Dev.onPanel]
      · rw [Dev.writeDue_panels_of_ne hdest]
        cases s.dev.panelOf n with
        | none => rfl
        | some p => exact (if_neg hdest).symm
  · have hpath : ∀ x ∈ s.dev.tiles[n].tpath ++ s.dev.tiles[n].apath, x.due ≠ some (s.dev.psc n) := by
      rw [htpath, hapath]
      simpa using hodue
    have hnone : (s.dev.tiles[n].flight.filter fun f => f.due == s.dev.psc n) = [] :=
      List.filter_eq_nil_iff.2 fun f hf => by simpa using hflight f hf
    refine ⟨_, exec_dueResultWrite_of_no_path_due (due := []) hpath (by rw [hnone]; rfl), rfl, ?_, ?_, fun z => ?_⟩ <;>
      simp only [State.onDev_dev, lastResults, List.foldl_nil, Dev.onTile_tiles_same, Tile.dequeueDue]
    · rw [Tile.readoutFlags_r]
    · rw [Tile.readoutFlags_singleton_apath hapath hissue]
      simp [hodue, PathOp.flagsDone, hissue]
    · rw [Tile.readoutFlags_singleton_zs hapath hissue, PathOp.underSat_zflags]
      rfl

end Sys2Proof
end

section
/-! O48: barrier arrivals, the release that the close of an issue sets and the event that gives it, and the tile of a timing fault. -/

namespace Sys2Proof.Machine

/-! The same change to several tiles -/

theorem Dev.foldl_onTile_tiles {l : List (Fin 128)} (hnodup : l.Nodup) (f : Tile → Tile) (d : Dev) (m : Fin 128) :
    (l.foldl (fun d n => d.onTile n f) d).tiles[m] = if m ∈ l then f d.tiles[m] else d.tiles[m] := by
  induction l generalizing d with
  | nil => rfl
  | cons n l ih =>
    obtain ⟨hn, hl⟩ := List.nodup_cons.1 hnodup
    rw [List.foldl_cons, ih hl]
    by_cases hm : m = n
    · subst hm
      simp only [hn, if_false, Dev.onTile_tiles_same, List.mem_cons_self, if_true]
    · simp only [Dev.onTile_tiles_ne hm, List.mem_cons, hm, false_or]

theorem Dev.foldl_onTile_mem (l : List (Fin 128)) (f : Tile → Tile) (d : Dev) :
    (l.foldl (fun d n => d.onTile n f) d).mem = d.mem := by
  induction l generalizing d with
  | nil => rfl
  | cons n l ih => exact ih _

theorem Dev.foldl_onTile_keeps {α : Type} {view : Tile → α} {f : Tile → Tile} (hf : ∀ t, view (f t) = view t) (l : List (Fin 128))
    (d : Dev) (m : Fin 128) : view (l.foldl (fun d n => d.onTile n f) d).tiles[m] = view d.tiles[m] := by
  induction l generalizing d with
  | nil => rfl
  | cons n l ih =>
    rw [List.foldl_cons, ih]
    by_cases hm : m = n
    · subst hm
      rw [Dev.onTile_tiles_same, hf]
    · rw [Dev.onTile_tiles_ne hm]

/-! Arrival -/

/-- The masks that pass the checks of R46: one that names the tile's own rank is not zero. -/
theorem Dev.badMask_eq_false_iff {d : Dev} {p : Panel} {n : Fin 128} {g : Fin 8} : d.badMask p n g = false ↔
    (d.tiles[n].groupMask g).getLsbD d.tiles[n].rank = true ∧ (d.tiles[n].groupMask g).toNat < 2 ^ p.size
      ∧ ∀ k ∈ p.tiles, ∀ x, d.tiles[k].c.held = some x → x.group = g → x.mask = d.tiles[n].groupMask g := by
  have hzero : (d.tiles[n].groupMask g).getLsbD d.tiles[n].rank = true → d.tiles[n].groupMask g ≠ 0#128 := by
    intro hbit h
    rw [h] at hbit
    simp at hbit
  simp only [Dev.badMask, Bool.or_eq_false_iff, Bool.not_eq_false', decide_eq_false_iff_not, Nat.not_le, beq_eq_false_iff_ne,
    List.any_eq_false, Bool.not_eq_true]
  refine ⟨fun ⟨⟨⟨_, hbit⟩, hsize⟩, hmasks⟩ => ⟨hbit, hsize, fun k hk x hx hg => ?_⟩,
    fun ⟨hbit, hsize, hmasks⟩ => ⟨⟨⟨hzero hbit, hbit⟩, hsize⟩, fun k hk => ?_⟩⟩
  · have hmask := hmasks k hk
    rw [hx] at hmask
    simpa [-Fin.getElem_fin, hg] using hmask
  · cases hx : d.tiles[k].c.held with
    | none => rfl
    | some x => simpa [-Fin.getElem_fin] using hmasks k hk x hx

theorem exec_barrierArrival {s : State} {n : Fin 128} {p : Panel} (hpanel : s.dev.panelOf n = some p) (g : Fin 8) :
    exec (.barrierArrival n g) s = .next (if s.dev.badMask p n g then
        s.onDev fun d => { d with raised := d.raised ++ [
          { tile := n, cause := causeIllop, detail := 4, slot := 0, faddr := d.tiles[n].c.pc,
            code := 0#17, ea := 0#64, spsc := 0, late := false }] }
      else s.onDev fun d => d.onTile n fun t =>
        { t with c := { t.c with held := some { group := g, mask := t.groupMask g, cycles := 1, release := none } } }) := by
  change execBarrierArrival n g s = _
  simp only [execBarrierArrival, State.onDev, hpanel]
  split <;> rfl

/-! The close of the issue -/

theorem Dev.allArrived_iff {d : Dev} {p : Panel} {g : Fin 8} {mask : BitVec 128} : d.allArrived p g mask = true ↔
    ∀ k < p.size, mask.getLsbD k = true → d.tiles[p.tile k].c.halted = true
      ∨ ∃ y, d.tiles[p.tile k].c.held = some y ∧ y.group = g ∧ y.release = none := by
  simp only [Dev.allArrived, List.all_eq_true, List.mem_range, Bool.or_eq_true, Bool.not_eq_true']
  refine forall₂_congr fun k _ => ?_
  cases mask.getLsbD k <;> cases d.tiles[p.tile k].c.held <;> simp [-Fin.getElem_fin]

theorem Dev.completeBarriers_held {d : Dev} {p : Panel} (hnodup : p.tiles.Nodup) {n : Fin 128} (hn : n ∈ p.tiles) {x : Hold}
    (hheld : d.tiles[n].c.held = some x) (hrelease : x.release = none) : (d.completeBarriers p).tiles[n].c.held
      = some (if d.allArrived p x.group x.mask then { x with release := some (p.psc + 4) } else x) := by
  rw [Dev.completeBarriers, Dev.foldl_onTile_tiles hnodup, if_pos hn]
  simp only [hheld, hrelease, Option.isNone_none, Bool.true_and]
  split
  · rfl
  · exact hheld

theorem Tile.setFence_held (t : Tile) (psc : Nat) : (t.setFence psc).c.held = t.c.held := by
  unfold Tile.setFence; split <;> rfl

theorem Tile.setFence_halted (t : Tile) (psc : Nat) : (t.setFence psc).c.halted = t.c.halted := by
  unfold Tile.setFence; split <;> rfl

theorem State.endIssue_dev {s : State} {h : Nat} {p : Panel} (hpanel : s.dev.panel h = some p) (hraised : s.dev.raised = [])
    (hmask : s.dev.timingMask p = 0) : (s.endIssue h).dev
      = (p.tiles.foldl (fun d n => d.onTile n fun t => t.setFence p.psc) s.dev).completeBarriers p := by
  simp [State.endIssue, hpanel, hraised, hmask]

/-- The close of an issue that raised nothing: the fences it sets leave holds and halts, so its barriers complete as they stand. -/
theorem State.endIssue_held {s : State} {h : Nat} {p : Panel} (hpanel : s.dev.panel h = some p) (hraised : s.dev.raised = [])
    (hmask : s.dev.timingMask p = 0) (hnodup : p.tiles.Nodup) {n : Fin 128} (hn : n ∈ p.tiles) {x : Hold}
    (hheld : s.dev.tiles[n].c.held = some x) (hrelease : x.release = none) : (s.endIssue h).dev.tiles[n].c.held
      = some (if s.dev.allArrived p x.group x.mask then { x with release := some (p.psc + 4) } else x) := by
  rw [State.endIssue_dev hpanel hraised hmask]
  have hholds (m : Fin 128) : (p.tiles.foldl (fun d n => d.onTile n fun t => t.setFence p.psc) s.dev).tiles[m].c.held
      = s.dev.tiles[m].c.held := Dev.foldl_onTile_keeps (view := fun t => t.c.held) (fun t => t.setFence_held _) _ _ m
  have hhalts (m : Fin 128) : (p.tiles.foldl (fun d n => d.onTile n fun t => t.setFence p.psc) s.dev).tiles[m].c.halted
      = s.dev.tiles[m].c.halted := Dev.foldl_onTile_keeps (view := fun t => t.c.halted) (fun t => t.setFence_halted _) _ _ m
  have hall : (p.tiles.foldl (fun d n => d.onTile n fun t => t.setFence p.psc) s.dev).allArrived p x.group x.mask
      = s.dev.allArrived p x.group x.mask := by
    simp only [Dev.allArrived, hholds, hhalts]
  rw [Dev.completeBarriers_held hnodup hn ((hholds n).trans hheld) hrelease, hall]

/-! Release -/

/-- Whether a tile leaves its hold when the barrier of a group is released on a PSC cycle (R45). -/
def Tile.leavesBarrier (t : Tile) (g : Fin 8) (psc : Nat) : Prop := ∃ x, t.c.held = some x ∧ x.group = g ∧ x.release = some psc

theorem exec_barrierRelease {s : State} {h : Nat} {p : Panel} (hpanel : s.dev.panel h = some p) (hnodup : p.tiles.Nodup) (g : Fin 8) :
    ∃ t, exec (.barrierRelease h g) s = .next t ∧ t.dev.mem = s.dev.mem ∧ ∀ n : Fin 128,
      (n ∈ p.tiles → s.dev.tiles[n].leavesBarrier g p.psc →
        t.dev.tiles[n] = { s.dev.tiles[n] with c := { s.dev.tiles[n].c with held := none, passed := true } })
      ∧ (n ∉ p.tiles ∨ ¬ s.dev.tiles[n].leavesBarrier g p.psc → t.dev.tiles[n] = s.dev.tiles[n]) := by
  refine ⟨_, rfl, ?_, fun n => ?_⟩
  · simp only [State.onDev_dev, hpanel, Dev.foldl_onTile_mem]
  · simp only [State.onDev_dev, hpanel, Dev.foldl_onTile_tiles hnodup]
    refine ⟨fun hn ⟨x, hx, hgroup, hrelease⟩ => ?_, fun hstays => ?_⟩
    · simp only [hn, if_true, hx, hgroup, hrelease, beq_self_eq_true, Bool.and_self]
    · by_cases hn : n ∈ p.tiles
      · have hstays := hstays.resolve_left (not_not.2 hn)
        rw [if_pos hn]
        cases hx : s.dev.tiles[n].c.held with
        | none => rfl
        | some x =>
          have hx' : ¬ (x.group = g ∧ x.release = some p.psc) := fun h => hstays ⟨x, hx, h⟩
          simp only [Bool.and_eq_true, beq_iff_eq, hx', if_false]
      · rw [if_neg hn]

/-! The timing fault -/

/-- R44 takes the lowest rank of which a cause holds. -/
theorem find?_tile_of_lowest {p : Panel} {f : Fin 128 → Bool} {P : Fin 128 → Prop} {k : Nat} (hf : ∀ n, f n = true ↔ P n)
    (hk : k < p.size) (hlowest : P (p.tile k) ∧ ∀ j < k, ¬ P (p.tile j)) :
    ((List.range p.size).find? fun r => f (p.tile r)).getD 0 = k := by
  obtain ⟨hcause, hlow⟩ := hlowest
  have hfind : ((List.range p.size).find? fun r => f (p.tile r)) = some k :=
    List.find?_range_eq_some.2 ⟨(hf _).2 hcause, List.mem_range.2 hk, fun j hj => by simpa using mt (hf _).1 (hlow j hj)⟩
  rw [hfind, Option.getD_some]

theorem Tile.landFreeze_iff {t : Tile} {psc : Nat} : t.landFreeze psc = true ↔
    ∃ ls : Fin 64, t.lands[ls].st = .wait ∧ t.lands[ls].psn = false ∧ t.lands[ls].due = psc := by
  simp only [Tile.landFreeze, Vector.any_eq_true, Bool.and_eq_true, beq_iff_eq, Bool.not_eq_true', and_assoc]
  exact ⟨fun ⟨i, hi, h⟩ => ⟨⟨i, hi⟩, h⟩, fun ⟨ls, h⟩ => ⟨ls, ls.isLt, h⟩⟩

theorem any_cycles_gt_iff {o : Option Hold} {pstall : Nat} :
    (o.any fun x => decide (pstall < x.cycles)) = true ↔ ∃ x, o = some x ∧ pstall < x.cycles := by
  simp [Option.any_eq_true]

end Sys2Proof.Machine

namespace Sys2Proof
open Machine

/-- Settles O48: the checks of an arrival, the completion and the release of a barrier by what each leaves in a tile, and the timing
fault by the rank that it takes. -/
theorem barriersAndTimingFaults : Obligations.BarriersAndTimingFaults := by
  refine ⟨fun s n p g hpanel => ?_, fun s h p r hagenda hpanel hraised hmask hnodup => ?_, fun s h p g hpanel hnodup => ?_,
    fun s h p sub k hpanel hk => ?_⟩
  · intro t m ok
    rw [exec_barrierArrival hpanel]
    have hok : s.dev.badMask p n g = false ↔ ok := Dev.badMask_eq_false_iff
    refine ⟨fun h => ?_, fun h => ?_⟩
    · rw [hok.2 h]
      rfl
    · rw [eq_true_of_ne_false (mt hok.1 h)]
      exact ⟨_, rfl, rfl, _, rfl, rfl, rfl, rfl, rfl⟩
  · refine ⟨_, step_endIssue hagenda, fun n hn x hheld hrelease => ?_⟩
    rw [State.endIssue_held (s := { s with agenda := r }) hpanel hraised hmask hnodup hn hheld hrelease]
    refine ⟨fun hall => ?_, fun hall => ?_⟩
    · rw [if_pos (Dev.allArrived_iff.2 hall)]
    · rw [if_neg (mt Dev.allArrived_iff.1 hall)]
  · obtain ⟨t, hexec, hmem, htiles⟩ := exec_barrierRelease hpanel hnodup g
    refine ⟨t, hexec, hmem, fun n => ⟨fun x hn hx hgroup hrelease => (htiles n).1 hn ⟨x, hx, hgroup, hrelease⟩, fun hstays => ?_⟩⟩
    refine (htiles n).2 (hstays.imp_right ?_)
    rintro (hnone | ⟨x, hx, hne⟩) ⟨y, hy, hgroup, hrelease⟩
    · cases hnone.symm.trans hy
    · obtain rfl : x = y := Option.some.inj (hx.symm.trans hy)
      exact hne.elim (· hgroup) (· hrelease)
  · intro lowest landing token hold hcause
    have hrank : s.dev.timingRank p sub = k := by
      simp only [Dev.timingRank]
      split_ifs at hcause ⊢
      · exact find?_tile_of_lowest (f := fun n => s.dev.tiles[n].landFreeze p.psc) (fun n => Tile.landFreeze_iff) hk hcause
      · exact find?_tile_of_lowest (fun n => Iff.rfl) hk hcause
      · exact find?_tile_of_lowest (f := fun n => s.dev.tiles[n].c.held.any fun x => decide (p.pstall < x.cycles))
          (fun n => any_cycles_gt_iff) hk hcause
      · exact hcause.symm
    refine ⟨_, rfl, ?_⟩
    simp only [State.onDev_dev, hpanel, hrank]
    exact ⟨trivial, trivial, _, rfl, rfl, rfl, rfl, rfl⟩

end Sys2Proof
end

section
/-! O28, O29: the values of patterns, and floor(log2), division and integer rounding as statements about rationals. -/

namespace Sys2Proof.Machine

/-! The patterns of a format in order of value -/

/-- The exponent of the step from the positive pattern k of a format to the next. -/
def FFmt.stepExp (f : FFmt) (k : Nat) : Int := ((k / 2 ^ f.man - 1 : Nat) : Int) + f.emin - f.man

/-- The significand m counts units of the binade Q; one binade's upper end is the next one's lower end. -/
theorem FFmt.value_mul_add (f : FFmt) {Q m : Nat} (hlo : Q = 0 ∨ 2 ^ f.man ≤ m) (hhi : m ≤ 2 ^ (f.man + 1)) :
    f.value (Q * 2 ^ f.man + m) = m * 2 ^ (Q + f.emin - f.man) := by
  have hpos : 0 < 2 ^ f.man := by positivity
  rw [pow_succ] at hhi
  obtain hsub | hnorm | rfl : m < 2 ^ f.man ∨ (2 ^ f.man ≤ m ∧ m < 2 ^ f.man * 2) ∨ m = 2 ^ f.man * 2 := by omega
  · obtain rfl : Q = 0 := hlo.resolve_right (by omega)
    simp [FFmt.value, hsub]
  · have hk : Q * 2 ^ f.man + m = (m - 2 ^ f.man) + 2 ^ f.man * (Q + 1) := by rw [mul_add, mul_comm]; omega
    have hr : m - 2 ^ f.man < 2 ^ f.man := by omega
    have hge : ¬ Q * 2 ^ f.man + m < 2 ^ f.man := by omega
    rw [FFmt.value, if_neg hge, hk, Nat.add_mul_mod_self_left, Nat.mod_eq_of_lt hr, Nat.add_mul_div_left _ _ hpos,
      Nat.div_eq_of_lt hr, Nat.cast_sub hnorm.1]
    congr 1
    · push_cast; ring
    · push_cast; ring_nf
  · have hk : Q * 2 ^ f.man + 2 ^ f.man * 2 = 2 ^ f.man * (Q + 2) := by ring
    have hge : ¬ 2 ^ f.man * (Q + 2) < 2 ^ f.man := by nlinarith
    rw [hk, FFmt.value, if_neg hge, Nat.mul_mod_right, Nat.mul_div_cancel_left _ hpos,
      show ((Q + 2 : Nat) : Int) - 1 + f.emin - f.man = (Q + f.emin - f.man) + 1 by push_cast; ring, zpow_add_one₀ two_ne_zero]
    push_cast
    ring

/-- Every pattern as a significand in units of its step. -/
theorem FFmt.exists_significand (f : FFmt) (k : Nat) : ∃ Q m : Nat, k = Q * 2 ^ f.man + m ∧ (Q = 0 ∨ 2 ^ f.man ≤ m)
    ∧ m < 2 ^ (f.man + 1) ∧ f.stepExp k = Q + f.emin - f.man := by
  have hpos : 0 < 2 ^ f.man := by positivity
  have hdiv := Nat.div_add_mod k (2 ^ f.man)
  have hmod := Nat.mod_lt k hpos
  rw [pow_succ]
  obtain hz | hs : k / 2 ^ f.man = 0 ∨ ∃ Q, k / 2 ^ f.man = Q + 1 := by
    cases k / 2 ^ f.man <;> simp
  · rw [hz] at hdiv
    exact ⟨0, k, by simp, .inl rfl, by omega, by simp [FFmt.stepExp, hz]⟩
  · obtain ⟨Q, hQ⟩ := hs
    rw [hQ, mul_add, mul_one, mul_comm] at hdiv
    exact ⟨Q, 2 ^ f.man + k % 2 ^ f.man, by omega, .inr (by omega), by omega, by simp [FFmt.stepExp, hQ]⟩

theorem FFmt.value_succ (f : FFmt) (k : Nat) : f.value (k + 1) = f.value k + 2 ^ f.stepExp k := by
  obtain ⟨Q, m, rfl, hlo, hhi, hstep⟩ := f.exists_significand k
  rw [hstep, add_assoc, f.value_mul_add (hlo.imp_right (by omega)) hhi, f.value_mul_add hlo hhi.le]
  push_cast
  ring

theorem FFmt.value_strictMono (f : FFmt) : StrictMono f.value :=
  strictMono_nat_of_lt_succ fun k => by
    rw [f.value_succ]
    exact lt_add_of_pos_right _ (by positivity)

@[simp] theorem FFmt.value_zero (f : FFmt) : f.value 0 = 0 := by simp [FFmt.value]

theorem FFmt.stepExp_mono (f : FFmt) : Monotone f.stepExp := fun j k h => by
  have := Nat.div_le_div_right (c := 2 ^ f.man) h
  simp only [FFmt.stepExp]
  omega

theorem FFmt.emin_sub_man_le_stepExp (f : FFmt) (k : Nat) : f.emin - f.man ≤ f.stepExp k := by
  simp only [FFmt.stepExp]
  omega

/-- A pattern is a whole number of steps. -/
theorem FFmt.exists_value_eq (f : FFmt) (k : Nat) : ∃ m < 2 ^ (f.man + 1), f.value k = (m : Nat) * 2 ^ f.stepExp k := by
  obtain ⟨Q, m, rfl, hlo, hhi, hstep⟩ := f.exists_significand k
  exact ⟨m, hhi, by rw [hstep, f.value_mul_add hlo hhi.le]⟩

/-- A value that is not below 2^i has a step of at least 2^(i − M). -/
theorem FFmt.le_stepExp_of_lt_value (f : FFmt) {k : Nat} {i : Int} (h : (2 : ℚ) ^ i < f.value (k + 1)) : i - f.man ≤ f.stepExp k := by
  obtain ⟨m, hm, hv⟩ := f.exists_value_eq k
  have hm' : (m : ℚ) + 1 ≤ 2 ^ (f.man + 1 : Int) := by exact_mod_cast hm
  have hlt : (2 : ℚ) ^ i < 2 ^ (f.man + 1 + f.stepExp k) := calc
    (2 : ℚ) ^ i < (m + 1) * 2 ^ f.stepExp k := by rw [add_one_mul, ← hv, ← f.value_succ]; exact h
    _ ≤ 2 ^ (f.man + 1 : Int) * 2 ^ f.stepExp k := by gcongr
    _ = 2 ^ (f.man + 1 + f.stepExp k) := (zpow_add₀ two_ne_zero _ _).symm
  have := (zpow_lt_zpow_iff_right₀ one_lt_two).1 hlt
  omega

/-- The patterns with a zero exponent field are those below 2^Emin. -/
theorem FFmt.value_lt_emin_iff (f : FFmt) (k : Nat) : f.value k < 2 ^ f.emin ↔ k < 2 ^ f.man := by
  have h : f.value (2 ^ f.man) = 2 ^ f.emin := by
    rw [show 2 ^ f.man = 0 * 2 ^ f.man + 2 ^ f.man by ring,
      f.value_mul_add (.inl rfl) (Nat.pow_le_pow_right two_pos (Nat.le_succ _)), Nat.cast_pow, Nat.cast_ofNat, ← zpow_natCast,
      ← zpow_add₀ two_ne_zero]
    congr 1
    push_cast
    ring
  rw [← h, f.value_strictMono.lt_iff_lt]

/-! floor(log2), fractions and integer rounding -/

theorem ratio_snd_pos {den : Nat} (hden : 0 < den) (num : Nat) (e : Int) : 0 < (ratio num den e).2 := by
  unfold ratio
  split <;> positivity

theorem ratio_div (num den : Nat) (e : Int) : ((ratio num den e).1 : ℚ) / (ratio num den e).2 = num / den * 2 ^ e := by
  unfold ratio
  split
  case isTrue h =>
    obtain ⟨n, rfl⟩ := Int.eq_ofNat_of_zero_le h
    push_cast [Int.toNat_natCast, zpow_natCast]
    ring
  case isFalse h =>
    obtain ⟨n, rfl⟩ : ∃ n : Nat, e = -n := ⟨(-e).toNat, by omega⟩
    push_cast [neg_neg, Int.toNat_natCast, zpow_neg, zpow_natCast]
    rw [div_mul_eq_div_div, div_eq_mul_inv (_ / _)]

theorem cast_log2_bounds {n : Nat} (hn : 0 < n) : (2 : ℚ) ^ (Nat.log2 n : Int) ≤ n ∧ (n : ℚ) < 2 ^ (Nat.log2 n + 1 : Int) := by
  refine ⟨?_, ?_⟩
  · exact_mod_cast Nat.log2_self_le hn.ne'
  · exact_mod_cast Nat.lt_log2_self

/-- The comparison of `floorLog2`, as one of rationals. -/
theorem scaled_le_iff {num den : Nat} (hden : 0 < den) (k : Int) :
    (if 0 ≤ k then decide (den * 2 ^ k.toNat ≤ num) else decide (den ≤ num * 2 ^ (-k).toNat)) = true ↔ (2 : ℚ) ^ k ≤ num / den := by
  have hd : (0 : ℚ) < den := by exact_mod_cast hden
  rw [le_div_iff₀ hd]
  split
  case isTrue h =>
    obtain ⟨n, rfl⟩ := Int.eq_ofNat_of_zero_le h
    rw [Int.toNat_natCast, zpow_natCast, mul_comm den]
    rw [decide_eq_true_eq]
    exact_mod_cast Iff.rfl
  case isFalse h =>
    obtain ⟨n, rfl⟩ : ∃ n : Nat, k = -n := ⟨(-k).toNat, by omega⟩
    rw [neg_neg, Int.toNat_natCast, zpow_neg, zpow_natCast, inv_mul_le_iff₀ (by positivity), mul_comm (2 ^ n : ℚ)]
    rw [decide_eq_true_eq]
    exact_mod_cast Iff.rfl

/-- `floorLog2` is the binary logarithm of the library. -/
theorem floorLog2_eq_log {num den : Nat} (hnum : 0 < num) (hden : 0 < den) (e : Int) :
    floorLog2 num den e = Int.log 2 ((num : ℚ) / den * 2 ^ e) := by
  have hx : (0 : ℚ) < num / den := by positivity
  suffices h : ∀ j : Int, (2 : ℚ) ^ j ≤ num / den → (num : ℚ) / den < 2 ^ (j + 1) → j + e = Int.log 2 ((num : ℚ) / den * 2 ^ e) by
    obtain ⟨hnlo, hnhi⟩ := cast_log2_bounds hnum
    obtain ⟨hdlo, hdhi⟩ := cast_log2_bounds hden
    set k : Int := (Nat.log2 num : Int) - Nat.log2 den with hk
    have hlow : (2 : ℚ) ^ (k - 1) < num / den := by
      rw [lt_div_iff₀ (by positivity)]
      calc (2 : ℚ) ^ (k - 1) * den < 2 ^ (k - 1) * 2 ^ (Nat.log2 den + 1 : Int) := by gcongr
        _ = 2 ^ (Nat.log2 num : Int) := by rw [← zpow_add₀ two_ne_zero]; congr 1; omega
        _ ≤ num := hnlo
    have hhigh : (num : ℚ) / den < 2 ^ (k + 1) := by
      rw [div_lt_iff₀ (by positivity)]
      calc (num : ℚ) < 2 ^ (Nat.log2 num + 1 : Int) := hnhi
        _ = 2 ^ (k + 1) * 2 ^ (Nat.log2 den : Int) := by rw [← zpow_add₀ two_ne_zero]; congr 1; omega
        _ ≤ 2 ^ (k + 1) * den := by gcongr
    simp only [floorLog2, ← hk, scaled_le_iff hden]
    split
    case isTrue hc => exact h k hc hhigh
    case isFalse hc => exact h (k - 1) hlow.le (by rw [sub_add_cancel]; exact not_le.1 hc)
  intro j hlo hhi
  have hpos : (0 : ℚ) < 2 ^ e := by positivity
  have hxe : (0 : ℚ) < num / den * 2 ^ e := mul_pos hx hpos
  refine le_antisymm ?_ (Int.lt_add_one_iff.1 ?_)
  · rw [← Int.zpow_le_iff_le_log one_lt_two hxe, Nat.cast_ofNat, zpow_add₀ two_ne_zero]
    gcongr
  · rw [← Int.lt_zpow_iff_log_lt one_lt_two hxe, Nat.cast_ofNat, show j + e + 1 = (j + 1) + e by ring, zpow_add₀ two_ne_zero]
    gcongr

/-- The modes that round a magnitude toward zero under a sign. -/
abbrev Inward (rm : RMode) (neg : Bool) : Prop := rm = .rtz ∨ (rm = .rdn ∧ neg = false) ∨ (rm = .rup ∧ neg = true)

/-- The integer m is what R65 makes of a magnitude y with a sign. -/
structure RoundsMag (rm : RMode) (neg : Bool) (y : ℚ) (m : Nat) : Prop where
  nearest : rm = .rne → |m - y| ≤ 1 / 2 ∧ (|m - y| = 1 / 2 → m % 2 = 0)
  inward : Inward rm neg → m ≤ y ∧ y < m + 1
  outward : rm ≠ .rne → ¬ Inward rm neg → y ≤ m ∧ m - 1 < y

/-- Quotient and remainder as the whole part and the fraction. -/
theorem div_eq_quot_add_frac {d : Nat} (hd : 0 < d) (n : Nat) :
    ∃ t : ℚ, (n : ℚ) / d = (n / d : Nat) + t ∧ 0 ≤ t ∧ t < 1 ∧ (n % d = 0 ↔ t = 0) ∧ (2 * (n % d) = d ↔ t = 1 / 2)
      ∧ (d < 2 * (n % d) ↔ 1 / 2 < t) := by
  have hdq : (0 : ℚ) < d := by exact_mod_cast hd
  refine ⟨(n % d : Nat) / d, ?_, by positivity, ?_, ?_, ?_, ?_⟩
  · rw [div_eq_iff hdq.ne', add_mul, div_mul_cancel₀ _ hdq.ne', mul_comm]
    exact_mod_cast (Nat.div_add_mod n d).symm
  · rw [div_lt_one hdq]
    exact_mod_cast Nat.mod_lt n hd
  · rw [div_eq_zero_iff, or_iff_left hdq.ne', Nat.cast_eq_zero]
  · rw [div_eq_div_iff hdq.ne' two_ne_zero, one_mul, mul_comm]
    exact_mod_cast Iff.rfl
  · rw [div_lt_div_iff₀ two_pos hdq, one_mul, mul_comm]
    exact_mod_cast Iff.rfl

/-- Under RNE the quotient goes up past one half, and on one half where it is odd. -/
theorem roundMag_rne (neg : Bool) (n d : Nat) :
    (roundMag .rne neg n d).1 = if d < 2 * (n % d) ∨ (2 * (n % d) = d ∧ n / d % 2 = 1) then n / d + 1 else n / d := by
  simp [roundMag]

theorem roundMag_of_inward {rm : RMode} {neg : Bool} (h : Inward rm neg) (n d : Nat) : (roundMag rm neg n d).1 = n / d := by
  obtain rfl | ⟨rfl, rfl⟩ | ⟨rfl, rfl⟩ := h <;> simp [roundMag]

theorem roundMag_of_outward {rm : RMode} {neg : Bool} (hne : rm ≠ .rne) (h : ¬ Inward rm neg) (n d : Nat) :
    (roundMag rm neg n d).1 = if n % d = 0 then n / d else n / d + 1 := by
  cases rm <;> cases neg <;> simp [Inward, roundMag] at hne h ⊢

theorem roundMag_rounds (rm : RMode) (neg : Bool) {d : Nat} (hd : 0 < d) (n : Nat) :
    RoundsMag rm neg (n / d) (roundMag rm neg n d).1 := by
  obtain ⟨t, hy, ht0, ht1, hzero, htie, hpast⟩ := div_eq_quot_add_frac hd n
  rw [hy]
  refine ⟨?_, fun hin => ?_, fun hne hout => ?_⟩
  · rintro rfl
    rw [roundMag_rne]
    split
    case isTrue hup =>
      rw [hpast, htie] at hup
      have hhalf : 1 / 2 ≤ t := hup.elim le_of_lt fun h => h.1.ge
      rw [Nat.cast_succ, add_sub_add_left_eq_sub, abs_of_pos (by linarith)]
      refine ⟨by linarith, fun heq => ?_⟩
      obtain hlt | ⟨-, hodd⟩ := hup
      · linarith
      · omega
    case isFalse hdown =>
      rw [hpast, htie] at hdown
      obtain ⟨hle, hodd⟩ := not_or.1 hdown
      rw [sub_add_cancel_left, abs_neg, abs_of_nonneg ht0]
      exact ⟨not_lt.1 hle, fun heq => by have := not_and.1 hodd heq; omega⟩
  · rw [roundMag_of_inward hin]
    exact ⟨by linarith, by linarith⟩
  · rw [roundMag_of_outward hne hout]
    split
    case isTrue h =>
      have := hzero.1 h
      exact ⟨by linarith, by linarith⟩
    case isFalse h =>
      have hpos : 0 < t := lt_of_le_of_ne ht0 fun h0 => h (hzero.2 h0.symm)
      rw [Nat.cast_succ]
      exact ⟨by linarith, by linarith⟩

/-- What is rounded is a whole number exactly where nothing remains. -/
theorem roundMag_snd (rm : RMode) (neg : Bool) {d : Nat} (hd : 0 < d) (n : Nat) :
    (roundMag rm neg n d).2 = decide (((roundMag rm neg n d).1 : ℚ) ≠ n / d) := by
  have hdq : (0 : ℚ) < d := by exact_mod_cast hd
  suffices h : n % d = 0 ↔ ((roundMag rm neg n d).1 : ℚ) = n / d by
    by_cases hr : n % d = 0 <;> simp [← h, hr] <;> simp [roundMag, hr]
  refine ⟨fun hr => ?_, fun heq => ?_⟩
  · have hup : (roundMag rm neg n d).1 = n / d := by cases rm <;> simp [roundMag, hr, hd.ne]
    rw [hup, Nat.cast_div (Nat.dvd_of_mod_eq_zero hr) hdq.ne']
  · rw [eq_div_iff hdq.ne'] at heq
    have : (roundMag rm neg n d).1 * d = n := by exact_mod_cast heq
    rw [← this, Nat.mul_mod_left]

end Sys2Proof.Machine
end

section
/-! O28: what RoundTo makes of a finite value, what a pattern decodes to, and why the one undoes the other. -/

namespace Sys2Proof.Machine

/-! RoundTo -/

theorem RoundsMag.bounds {rm : RMode} {neg : Bool} {y : ℚ} {m : Nat} (h : RoundsMag rm neg y m) : y - 1 < m ∧ (m : ℚ) < y + 1 := by
  by_cases hne : rm = .rne
  · obtain ⟨hlo, hhi⟩ := abs_le.1 (h.nearest hne).1
    exact ⟨by linarith, by linarith⟩
  · by_cases hin : Inward rm neg
    · obtain ⟨hlo, hhi⟩ := h.inward hin
      exact ⟨by linarith, by linarith⟩
    · obtain ⟨hlo, hhi⟩ := h.outward hne hin
      exact ⟨by linarith, by linarith⟩

/-- The pattern k, its exponent unbounded above, is the one that a mode names for a magnitude x with a sign (R65, R66). -/
structure RoundsTo (f : FFmt) (rm : RMode) (neg : Bool) (x : ℚ) (k : Nat) : Prop where
  nearest : rm = .rne → (|f.value k - x| ≤ f.value (k + 1) - x ∧ (|f.value k - x| = f.value (k + 1) - x → k % 2 = 0))
    ∧ ∀ j, j + 1 = k → |f.value k - x| ≤ x - f.value j ∧ (|f.value k - x| = x - f.value j → k % 2 = 0)
  inward : Inward rm neg → f.value k ≤ x ∧ x < f.value (k + 1)
  outward : rm ≠ .rne → ¬ Inward rm neg → x ≤ f.value k ∧ ∀ j, j + 1 = k → f.value j < x

theorem two_dvd_two_pow_man (f : FFmt) : 2 ∣ 2 ^ f.man := by cases f <;> decide

/-- The pattern below a rounded significand m is the significand m − 1, unless m is the least of its binade. -/
theorem FFmt.value_pred_le {f : FFmt} {Q m j : Nat} (hlo : Q = 0 ∨ 2 ^ f.man ≤ m) (hhi : m ≤ 2 ^ (f.man + 1))
    (hj : j + 1 = Q * 2 ^ f.man + m) : f.value j ≤ (m - 1) * 2 ^ (Q + f.emin - f.man) ∨ (m = 2 ^ f.man ∧ Q ≠ 0) := by
  by_cases hleast : m = 2 ^ f.man ∧ Q ≠ 0
  · exact .inr hleast
  · obtain ⟨m, rfl⟩ : ∃ n, m = n + 1 := ⟨m - 1, by
      have : 0 < 2 ^ f.man := by positivity
      obtain rfl | h := hlo <;> omega⟩
    obtain rfl : j = Q * 2 ^ f.man + m := by omega
    left
    rw [f.value_mul_add (by omega) (by omega)]
    push_cast
    rw [add_sub_cancel_right]

/-- The rounded significand stays in the binade or reaches the upper end of it. -/
theorem RoundsMag.significand {f : FFmt} {rm : RMode} {neg : Bool} {y : ℚ} {Q m : Nat} (h : RoundsMag rm neg y m)
    (hlo : Q = 0 ∨ 2 ^ f.man ≤ y) (hhi : y < 2 ^ (f.man + 1)) : (Q = 0 ∨ 2 ^ f.man ≤ m) ∧ m ≤ 2 ^ (f.man + 1) := by
  obtain ⟨hmlo, hmhi⟩ := h.bounds
  refine ⟨hlo.imp_right fun hy => ?_, ?_⟩
  · have : (2 ^ f.man : ℚ) < m + 1 := by linarith
    exact Nat.lt_succ_iff.1 (by exact_mod_cast this)
  · have : (m : ℚ) < 2 ^ (f.man + 1) + 1 := by linarith
    exact Nat.lt_succ_iff.1 (by exact_mod_cast this)

theorem FFmt.add_one_mul_le_value_succ {f : FFmt} {Q m : Nat} (hlo : Q = 0 ∨ 2 ^ f.man ≤ m) (hhi : m ≤ 2 ^ (f.man + 1)) :
    (m + 1) * 2 ^ (Q + f.emin - f.man) ≤ f.value (Q * 2 ^ f.man + m + 1) := by
  have hstep : Q + f.emin - f.man ≤ f.stepExp (Q * 2 ^ f.man + m) := by
    obtain rfl | hm := hlo
    · simpa using f.emin_sub_man_le_stepExp _
    · have : Q + 1 ≤ (Q * 2 ^ f.man + m) / 2 ^ f.man := (Nat.le_div_iff_mul_le (by positivity)).2 (by rw [add_one_mul]; omega)
      simp only [FFmt.stepExp]
      omega
  rw [f.value_succ, f.value_mul_add hlo hhi, add_one_mul]
  gcongr
  exact one_le_two

/-- The pattern below a rounded one is a unit lower, or the rounded one is the least of its binade, which is not above the value. -/
theorem RoundsMag.value_pred {f : FFmt} {rm : RMode} {neg : Bool} {y : ℚ} {Q m : Nat} (h : RoundsMag rm neg y m)
    (hlo : Q = 0 ∨ 2 ^ f.man ≤ y) (hhi : y < 2 ^ (f.man + 1)) {j : Nat} (hj : j + 1 = Q * 2 ^ f.man + m) :
    f.value j ≤ (m - 1) * 2 ^ (Q + f.emin - f.man) ∨ ((m : ℚ) ≤ y ∧ f.value j < m * 2 ^ (Q + f.emin - f.man)) := by
  obtain ⟨hm1, hm2⟩ := h.significand hlo hhi
  refine (FFmt.value_pred_le hm1 hm2 hj).imp_right fun ⟨hm, hQ⟩ => ⟨?_, ?_⟩
  · have := hlo.resolve_left hQ
    rw [hm]
    exact_mod_cast this
  · rw [← f.value_mul_add hm1 hm2]
    exact f.value_strictMono (by omega)

/-- Rounding a value to the unit of its binade names a pattern: the nearest integer to y gives the nearest pattern, as the neighbours
are one unit away, or half a unit below the least of a binade, and a significand has the parity of its pattern. -/
theorem roundsTo_of_roundsMag {f : FFmt} {rm : RMode} {neg : Bool} {y : ℚ} {Q m : Nat} (hlo : Q = 0 ∨ 2 ^ f.man ≤ y)
    (hhi : y < 2 ^ (f.man + 1)) (h : RoundsMag rm neg y m) :
    RoundsTo f rm neg (y * 2 ^ (Q + f.emin - f.man)) (Q * 2 ^ f.man + m) := by
  obtain ⟨hm1, hm2⟩ := h.significand hlo hhi
  have hnext := FFmt.add_one_mul_le_value_succ hm1 hm2
  have hval := f.value_mul_add hm1 hm2
  have hprev (j : Nat) := h.value_pred hlo hhi (j := j)
  set u : ℚ := 2 ^ (Q + f.emin - f.man)
  have hupos : 0 < u := by positivity
  refine ⟨fun hne => ?_, fun hin => ?_, fun hne hout => ?_⟩
  · obtain ⟨hhalf, htie⟩ := h.nearest hne
    have heven : 1 / 2 * u ≤ |(m : ℚ) - y| * u → (Q * 2 ^ f.man + m) % 2 = 0 := fun hge => by
      have hm := htie (le_antisymm hhalf (le_of_mul_le_mul_right hge hupos))
      have hQ := Nat.mod_eq_zero_of_dvd ((two_dvd_two_pow_man f).mul_left Q)
      omega
    have hnear : |(m : ℚ) - y| * u ≤ 1 / 2 * u := by gcongr
    obtain ⟨hge, hle⟩ := abs_le.1 hhalf
    rw [hval, ← sub_mul, abs_mul, abs_of_pos hupos]
    refine ⟨⟨by nlinarith, fun he => heven (by nlinarith)⟩, fun j hj => ?_⟩
    obtain hp | ⟨hmy, hp⟩ := hprev j hj
    · exact ⟨by nlinarith, fun he => heven (by nlinarith)⟩
    · rw [abs_of_nonpos (by linarith)]
      exact ⟨by nlinarith, fun he => by nlinarith⟩
  · obtain ⟨hle, hlt⟩ := h.inward hin
    rw [hval]
    exact ⟨by gcongr, lt_of_lt_of_le (by gcongr) hnext⟩
  · obtain ⟨hle, hlt⟩ := h.outward hne hout
    rw [hval]
    refine ⟨by gcongr, fun j hj => ?_⟩
    obtain hp | ⟨hmy, hp⟩ := hprev j hj
    · exact hp.trans_lt (by gcongr)
    · exact hp.trans_le (by gcongr)

/-- The flags of a rounding to the pattern k that does not overflow (R66). -/
def roundFlags (f : FFmt) (x : ℚ) (k : Nat) : Flags :=
  (if f.value k = x then 0#6 else flNX) ||| (if f.value k ≠ x ∧ x < 2 ^ f.emin then flUF else 0#6)

@[simp] theorem roundFlags_value (f : FFmt) (k : Nat) : roundFlags f (f.value k) k = 0#6 := by simp [roundFlags]

theorem roundTo_zero (f : FFmt) (rm : RMode) (sat neg : Bool) (den : Nat) (e : Int) :
    roundTo f rm sat (.fin neg 0 den e) = (f.signed neg 0, 0#6) := by
  simp [roundTo]

/-- What R66 and R67 give for the value (−1)^neg × x that rounds to the pattern k. -/
def roundedTo (f : FFmt) (rm : RMode) (sat neg : Bool) (x : ℚ) (k : Nat) : Nat × Flags :=
  if k ≤ f.maxPat then (f.signed neg k, roundFlags f x k) else (overflowF f neg rm sat, roundFlags f x k ||| flOF ||| flNX)

/-- The binade in which R66 rounds x: that of x or, below 2^Emin, the least one. -/
theorem exists_binade (f : FFmt) {x : ℚ} (hx : 0 < x) : ∃ Q : Nat, max (Int.log 2 x) f.emin - f.man = Q + f.emin - f.man
    ∧ ∀ y, x = y * 2 ^ (Q + f.emin - f.man) → (Q = 0 ∨ 2 ^ f.man ≤ y) ∧ y < 2 ^ (f.man + 1) := by
  have hQ : max (Int.log 2 x) f.emin = ((max (Int.log 2 x) f.emin - f.emin).toNat : Int) + f.emin := by omega
  generalize (max (Int.log 2 x) f.emin - f.emin).toNat = Q at hQ
  refine ⟨Q, by rw [hQ], fun y hxy => ?_⟩
  have hu : (0 : ℚ) < 2 ^ (Q + f.emin - f.man) := by positivity
  have hscale : ∀ n : Nat, (2 : ℚ) ^ (n + (Q + f.emin - f.man) : Int) = 2 ^ n * 2 ^ (Q + f.emin - f.man) := fun n => by
    rw [zpow_add₀ two_ne_zero, zpow_natCast]
  refine ⟨or_iff_not_imp_left.2 fun hne => ?_, ?_⟩
  · have hle := (Int.zpow_le_iff_le_log one_lt_two hx (x := f.man + (Q + f.emin - f.man))).2 (by omega)
    rw [Nat.cast_ofNat, hscale, hxy] at hle
    exact le_of_mul_le_mul_right hle hu
  · have hlt := (Int.lt_zpow_iff_log_lt one_lt_two hx (x := (f.man + 1 : Nat) + (Q + f.emin - f.man))).2 (by omega)
    rw [Nat.cast_ofNat, hscale] at hlt
    exact lt_of_mul_lt_mul_right (hxy ▸ hlt) hu.le

theorem floorLog2_lt_iff {num den : Nat} (hnum : 0 < num) (hden : 0 < den) (e k : Int) :
    floorLog2 num den e < k ↔ (num : ℚ) / den * 2 ^ e < 2 ^ k := by
  rw [floorLog2_eq_log hnum hden, ← Int.lt_zpow_iff_log_lt one_lt_two (by positivity), Nat.cast_ofNat]

theorem roundTo_fin (f : FFmt) (rm : RMode) (sat neg : Bool) (num : Nat) {den : Nat} (hden : 0 < den) (e : Int) :
    ∃ k, RoundsTo f rm neg (num / den * 2 ^ e) k
      ∧ roundTo f rm sat (.fin neg num den e) = roundedTo f rm sat neg (num / den * 2 ^ e) k := by
  obtain rfl | hnum := Nat.eq_zero_or_pos num
  · have hone : 0 < f.value 1 := by rw [← f.value_zero]; exact f.value_strictMono zero_lt_one
    refine ⟨0, ⟨fun _ => ⟨?_, by simp⟩, fun _ => ?_, fun _ _ => ?_⟩, ?_⟩
    · simp [hone.le, hone.ne]
    · simp [hone]
    · simp
    · rw [roundTo_zero, roundedTo, if_pos (Nat.zero_le _)]
      simp [roundFlags]
  · have htiny := floorLog2_lt_iff hnum hden e f.emin
    have hlog := floorLog2_eq_log hnum hden e
    obtain ⟨Q, hQ, hbinade⟩ := exists_binade f (x := num / den * 2 ^ e) (by positivity)
    rw [← hlog] at hQ
    have hndpos : 0 < (ratio num den (e - (Q + f.emin - f.man))).2 := ratio_snd_pos hden num _
    have hxy := ratio_div num den (e - (Q + f.emin - f.man))
    rw [zpow_sub₀ two_ne_zero, mul_div_assoc', eq_div_iff (by positivity)] at hxy
    simp only [roundTo, if_neg hnum.ne', hQ, roundMag_snd rm neg hndpos]
    generalize ratio num den (e - (Q + f.emin - f.man)) = nd at *
    have hmag := roundMag_rounds rm neg hndpos nd.1
    generalize (roundMag rm neg nd.1 nd.2).1 = m at *
    obtain ⟨hlo, hhi⟩ := hbinade _ hxy.symm
    obtain ⟨hm1, hm2⟩ := hmag.significand hlo hhi
    refine ⟨Q * 2 ^ f.man + m, hxy ▸ roundsTo_of_roundsMag hlo hhi hmag, ?_⟩
    have hexact : f.value (Q * 2 ^ f.man + m) = num / den * 2 ^ e ↔ (m : ℚ) = nd.1 / nd.2 := by
      rw [f.value_mul_add hm1 hm2, ← hxy, mul_left_inj' (by positivity)]
    have hQnat : (Q + f.emin - f.man - (f.emin - f.man)).toNat = Q := by omega
    have hflags : flIf (decide ((m : ℚ) ≠ nd.1 / nd.2)) flNX
        ||| flIf (decide ((m : ℚ) ≠ nd.1 / nd.2) && decide (floorLog2 num den e < f.emin)) flUF
          = roundFlags f (num / den * 2 ^ e) (Q * 2 ^ f.man + m) := by
      simp only [roundFlags, flIf, hexact, htiny, ne_eq, decide_not, Bool.and_eq_true, Bool.not_eq_true', decide_eq_false_iff_not,
        decide_eq_true_eq, ite_not]
    simp only [hQnat, hflags, roundedTo]
    by_cases hover : f.maxPat < Q * 2 ^ f.man + m
    · rw [if_pos hover, if_neg (not_le.2 hover)]
    · rw [if_neg hover, if_pos (not_lt.1 hover)]

/-! Patterns are undone by rounding -/

/-- Only the pattern whose value it is, is named for a value of the format. -/
theorem RoundsTo.eq_of_value {f : FFmt} {rm : RMode} {neg : Bool} {j k : Nat} (h : RoundsTo f rm neg (f.value j) k) : k = j := by
  have hmono := f.value_strictMono
  by_cases hne : rm = .rne
  · obtain ⟨⟨habove, -⟩, hbelow⟩ := h.nearest hne
    obtain hlt | heq | hgt := lt_trichotomy k j
    · have hle := hmono.monotone (Nat.succ_le_of_lt hlt)
      have := hmono hlt
      have := (neg_le_abs _).trans habove
      linarith
    · exact heq
    · obtain ⟨i, rfl⟩ : ∃ i, k = i + 1 := ⟨k - 1, by omega⟩
      have hle := hmono.monotone (Nat.lt_succ_iff.1 hgt)
      have := hmono (Nat.lt_succ_self i)
      have := (le_abs_self _).trans (hbelow i rfl).1
      linarith
  · by_cases hin : Inward rm neg
    · obtain ⟨hle, hlt⟩ := h.inward hin
      exact le_antisymm (hmono.le_iff_le.1 hle) (Nat.lt_succ_iff.1 (hmono.lt_iff_lt.1 hlt))
    · obtain ⟨hle, hlt⟩ := h.outward hne hin
      refine le_antisymm (not_lt.1 fun hgt => ?_) (hmono.le_iff_le.1 hle)
      have := hmono.lt_iff_lt.1 (hlt (k - 1) (by omega))
      omega

/-- What rounds without loss has the pattern of its value, in every mode and with no flag. -/
theorem roundTo_of_value {f : FFmt} {k : Nat} (hk : k ≤ f.maxPat) (rm : RMode) (sat neg : Bool) {num : Nat} {e : Int}
    (hv : (num : ℚ) * 2 ^ e = f.value k) : roundTo f rm sat (.fin neg num 1 e) = (f.signed neg k, 0#6) := by
  obtain ⟨j, hj, hround⟩ := roundTo_fin f rm sat neg num one_pos e
  rw [Nat.cast_one, div_one, hv] at hj hround
  obtain rfl := hj.eq_of_value
  rw [hround, roundedTo, if_pos hk, roundFlags_value]

/-! Decoding -/

theorem bit_true_iff {v i : Nat} (hv : v < 2 ^ (i + 1)) : bit v i = true ↔ v / 2 ^ i = 1 := by
  have : v / 2 ^ i < 2 := by rwa [Nat.div_lt_iff_lt_mul (by positivity), ← pow_succ']
  rw [bit, beq_iff_eq, Nat.mod_eq_of_lt this]

theorem FFmt.width_pred (f : FFmt) : f.width - 1 = f.ebits + f.man := by rw [FFmt.width]; omega

/-- A pattern is its sign bit over its magnitude. -/
theorem FFmt.signed_bit_mod (f : FFmt) {v : Nat} (hv : v < 2 ^ f.width) :
    f.signed (bit v (f.width - 1)) (v % 2 ^ (f.width - 1)) = v := by
  have hw : f.width = f.width - 1 + 1 := by rw [f.width_pred, FFmt.width]; omega
  rw [hw] at hv
  have hbit : b2n (bit v (f.width - 1)) = v / 2 ^ (f.width - 1) := by
    have hlt : v / 2 ^ (f.width - 1) < 2 := by rwa [Nat.div_lt_iff_lt_mul (by positivity), ← pow_succ']
    rw [b2n]
    split
    case isTrue h => exact ((bit_true_iff hv).1 h).symm
    case isFalse h =>
      rw [bit_true_iff hv] at h
      generalize v / 2 ^ (f.width - 1) = b at *
      omega
  rw [FFmt.signed, hbit]
  exact Nat.mod_add_div' v _

/-- The magnitude as exponent field and mantissa field. -/
theorem FFmt.magnitude_eq_fields (f : FFmt) (v : Nat) :
    v % 2 ^ (f.width - 1) = field v f.man f.ebits * 2 ^ f.man + field v 0 f.man := by
  rw [f.width_pred, add_comm f.ebits, pow_add, Nat.mod_mul, field, field, pow_zero, Nat.div_one]
  ring

theorem field_lt (v lo n : Nat) : field v lo n < 2 ^ n := Nat.mod_lt _ (by positivity)

/-- The value of a pattern with a nonzero exponent field (R62). -/
theorem FFmt.value_of_fields (f : FFmt) {e h : Nat} (he : e ≠ 0) (hh : h < 2 ^ f.man) :
    ((2 ^ f.man + h : Nat) : ℚ) * 2 ^ ((e : Int) - f.bias - f.man) = f.value (e * 2 ^ f.man + h) := by
  obtain ⟨Q, rfl⟩ := Nat.exists_eq_succ_of_ne_zero he
  rw [Nat.succ_eq_add_one, add_one_mul, add_assoc, f.value_mul_add (.inr (Nat.le_add_right _ _)) (by rw [pow_succ]; omega)]
  congr 2
  rw [FFmt.emin]
  push_cast
  ring

theorem FFmt.fields_le_maxPat_iff {f : FFmt} (hf : f ≠ .e4m3) {e h : Nat} (hh : h < 2 ^ f.man) :
    e * 2 ^ f.man + h ≤ f.maxPat ↔ e < 2 ^ f.ebits - 1 := by
  have htop : 0 < (2 ^ f.ebits - 1) * 2 ^ f.man := by cases f <;> decide
  rw [FFmt.maxPat, if_neg hf, Nat.le_sub_one_iff_lt htop]
  constructor
  · intro hlt
    by_contra hge
    have := Nat.mul_le_mul_right (2 ^ f.man) (not_lt.1 hge)
    omega
  · intro hlt
    have := Nat.mul_le_mul_right (2 ^ f.man) (Nat.succ_le_of_lt hlt)
    rw [Nat.succ_mul] at this
    omega

/-- What a pattern decodes to, by its magnitude. -/
inductive DecodesTo (f : FFmt) (neg : Bool) (k : Nat) : Val → Prop
  | fin (num : Nat) (e : Int) (hk : k ≤ f.maxPat) (hv : (num : ℚ) * 2 ^ e = f.value k) (hnum : num < 2 ^ (f.man + 1))
      (he : f.emin - f.man ≤ e) : DecodesTo f neg k (.fin neg num 1 e)
  | inf (hf : f ≠ .e4m3) (hk : k = f.infPat) : DecodesTo f neg k (.inf neg)
  | nan (hk : f.maxPat < k) (sig : Bool) : DecodesTo f neg k (.nan sig)

theorem decodeF_decodesTo (f : FFmt) (v : Nat) : DecodesTo f (bit v (f.width - 1)) (v % 2 ^ (f.width - 1)) (decodeF f v) := by
  have hh : field v 0 f.man < 2 ^ f.man := field_lt _ _ _
  have he : field v f.man f.ebits < 2 ^ f.ebits := field_lt _ _ _
  rw [f.magnitude_eq_fields, decodeF]
  generalize field v 0 f.man = h at *
  generalize field v f.man f.ebits = e at *
  split_ifs with hzero hones hinf hnan
  · subst hzero
    rw [Nat.zero_mul, Nat.zero_add]
    refine .fin h _ ?_ ?_ (hh.trans (Nat.pow_lt_pow_right one_lt_two (Nat.lt_succ_self _))) ?_
    · have : 2 ^ f.man ≤ f.maxPat := by cases f <;> decide
      omega
    · rw [FFmt.value, if_pos hh, FFmt.emin]
    · rw [FFmt.emin]
  · rw [Bool.and_eq_true, FFmt.hasInf, bne_iff_ne, beq_iff_eq] at hones
    obtain ⟨hf, rfl⟩ := hones
    rw [hinf, Nat.add_zero]
    exact .inf hf rfl
  · rw [Bool.and_eq_true, FFmt.hasInf, bne_iff_ne, beq_iff_eq] at hones
    obtain ⟨hf, rfl⟩ := hones
    exact .nan (not_le.1 fun hle => lt_irrefl _ ((FFmt.fields_le_maxPat_iff hf hh).1 hle)) _
  · obtain ⟨rfl, rfl, rfl⟩ := hnan
    exact .nan (by decide) _
  · refine .fin _ _ ?_ (f.value_of_fields hzero hh) (by rw [pow_succ]; omega) (by rw [FFmt.emin]; omega)
    by_cases hf : f = .e4m3
    · subst hf
      simp only [true_and, FFmt.man, FFmt.ebits, FFmt.maxPat, if_pos] at *
      omega
    · rw [FFmt.fields_le_maxPat_iff hf hh]
      rw [Bool.and_eq_true, FFmt.hasInf, bne_iff_ne, beq_iff_eq, not_and] at hones
      have := hones hf
      omega

theorem roundTo_inf (f : FFmt) (rm : RMode) (sat neg : Bool) : roundTo f rm sat (.inf neg)
    = if f = .e4m3 then (if sat then f.signed neg f.maxPat else f.nan, flNV) else (f.signed neg f.infPat, 0#6) := by
  by_cases hf : f = .e4m3 <;> cases sat <;> simp [roundTo, FFmt.hasInf, hf]

/-- Decoding and rounding give a pattern back (R62, R66). -/
theorem roundTo_decodeF {f : FFmt} {v : Nat} (hv : v < 2 ^ f.width) (hnan : (decodeF f v).isNan = false) (rm : RMode) (sat : Bool) :
    roundTo f rm sat (decodeF f v) = (v, 0#6) := by
  have hpat := f.signed_bit_mod hv
  have hdec := decodeF_decodesTo f v
  generalize decodeF f v = x at *
  cases hdec with
  | fin num e hk hval => rw [roundTo_of_value hk rm sat _ hval, hpat]
  | inf hf hk => rw [roundTo_inf, if_neg hf, ← hk, hpat]
  | nan hk sig => cases hnan

/-! The class word -/

/-- The class of a finite value of the format (R182). -/
theorem classOf_fin_of_value {f : FFmt} {k num : Nat} {e : Int} (hv : (num : ℚ) * 2 ^ e = f.value k) (neg : Bool) :
    classOf f (.fin neg num 1 e)
      = if k = 0 then (if neg then 8 else 16) else if k < 2 ^ f.man then (if neg then 4 else 32) else if neg then 2 else 64 := by
  have hzero : num = 0 ↔ k = 0 := by
    rw [← f.value_strictMono.injective.eq_iff (a := k), f.value_zero, ← hv, mul_eq_zero, Nat.cast_eq_zero, or_iff_left (by positivity)]
  rw [classOf]
  by_cases hk : k = 0
  · rw [if_pos hk, if_pos (hzero.2 hk)]
  · have hnum : 0 < num := Nat.pos_of_ne_zero (mt hzero.1 hk)
    have htiny : floorLog2 num 1 e < f.emin ↔ k < 2 ^ f.man := by
      rw [floorLog2_lt_iff hnum one_pos, Nat.cast_one, div_one, hv, f.value_lt_emin_iff]
    simp only [if_neg hk, if_neg hnum.ne', htiny]

theorem classOf_decodeF {f : FFmt} (hf : f ≠ .e4m3) {v : Nat} (hv : v < 2 ^ f.width) {e h : Nat} (he : field v f.man f.ebits = e)
    (hh : field v 0 f.man = h) : classOf f (decodeF f v) =
      if e = 2 ^ f.ebits - 1 then
        (if h = 0 then (if v / 2 ^ (f.width - 1) = 1 then 1 else 128) else if h < 2 ^ (f.man - 1) then 256 else 512)
      else if e = 0 then (if h = 0 then (if v / 2 ^ (f.width - 1) = 1 then 8 else 16) else if v / 2 ^ (f.width - 1) = 1 then 4 else 32)
      else if v / 2 ^ (f.width - 1) = 1 then 2 else 64 := by
  have hlt : h < 2 ^ f.man := hh ▸ field_lt _ _ _
  have hneg : bit v (f.width - 1) = true ↔ v / 2 ^ (f.width - 1) = 1 := bit_true_iff (by
    rwa [f.width_pred, show f.ebits + f.man + 1 = f.width by rw [FFmt.width]; omega])
  have hones : 2 ^ f.ebits - 1 ≠ 0 := by cases f <;> decide
  have hinf : f.hasInf = true := by rwa [FFmt.hasInf, bne_iff_ne]
  simp only [decodeF, he, hh, hinf, Bool.true_and, beq_iff_eq, hf, false_and, if_false, ← hneg]
  by_cases hzero : e = 0
  · have hval : (h : ℚ) * 2 ^ (1 - f.bias - f.man) = f.value h := by rw [FFmt.value, if_pos hlt, FFmt.emin]
    have htop : e ≠ 2 ^ f.ebits - 1 := fun h => hones (h ▸ hzero)
    rw [if_pos hzero, classOf_fin_of_value hval, if_neg htop, if_pos hzero, if_pos hlt]
  · rw [if_neg hzero]
    by_cases htop : e = 2 ^ f.ebits - 1
    · rw [if_pos htop, if_pos htop]
      by_cases hmant : h = 0
      · rw [if_pos hmant, if_pos hmant]
        rfl
      · have hsig : bit h (f.man - 1) = true ↔ ¬ h < 2 ^ (f.man - 1) := by
          have hman : f.man = f.man - 1 + 1 := by cases f <;> rfl
          rw [hman, pow_succ] at hlt
          rw [bit_true_iff (by rwa [pow_succ]), Nat.div_eq_iff (by positivity)]
          omega
        simp only [if_neg hmant, classOf, Bool.not_eq_true', ← Bool.not_eq_true, hsig, not_not]
    · have hval := f.value_of_fields hzero hlt
      have hge : 2 ^ f.man ≤ e * 2 ^ f.man + h := by
        have := Nat.mul_le_mul_right (2 ^ f.man) (Nat.one_le_iff_ne_zero.2 hzero)
        omega
      have hpos : 0 < 2 ^ f.man := by positivity
      rw [if_neg htop, if_neg htop, classOf_fin_of_value hval, if_neg hzero, if_neg (by omega), if_neg (not_lt.2 hge)]

end Sys2Proof.Machine
end

section
/-! O28: sums, products and comparisons of finite values as those of rationals, and conversions to integers. -/

namespace Sys2Proof.Machine

/-! Exact sums and products -/

/-- A significand under a sign. -/
def signedNum (neg : Bool) (n : Nat) : Int := if neg then -n else n

theorem toRat_fin (neg : Bool) (n d : Nat) (e : Int) : (Val.fin neg n d e).toRat = signedNum neg n / d * 2 ^ e := by
  cases neg <;> simp [Val.toRat, signedNum]
  ring

/-- A signed sum over a common divisor and exponent. -/
theorem toRat_of_int (s : Int) (d : Nat) (e : Int) : (Val.fin (decide (s < 0)) s.natAbs d e).toRat = s / d * 2 ^ e := by
  rw [toRat_fin]
  congr 3
  by_cases h : s < 0
  · simp [signedNum, h, abs_of_neg h]
  · simp [signedNum, h, abs_of_nonneg (not_lt.1 h)]

/-- A value over the divisor d × c and a lower exponent. -/
theorem toRat_common {neg : Bool} {n d c : Nat} (hd : 0 < d) (hc : 0 < c) {e q : Int} (hq : q ≤ e) :
    (Val.fin neg n d e).toRat = (signedNum neg (n * c * 2 ^ (e - q).toNat) : Int) / (d * c : Nat) * 2 ^ q := by
  have hdq : (d : ℚ) ≠ 0 := by exact_mod_cast hd.ne'
  have hcq : (c : ℚ) ≠ 0 := by exact_mod_cast hc.ne'
  obtain ⟨k, rfl⟩ := Int.le.dest hq
  rw [toRat_fin, show (q + k - q : Int).toNat = k by omega, zpow_add₀ two_ne_zero, zpow_natCast]
  cases neg <;> (simp only [signedNum, if_true, Bool.false_eq_true, if_false]; push_cast; field_simp)

/-- A finite value that is the exact value v without flags, with a sign as `sign` says. -/
def Fits (r : Val × Flags) (v : ℚ) (sign : Bool → Prop) : Prop :=
  ∃ s k w t, r = (.fin s k w t, 0#6) ∧ 0 < w ∧ r.1.toRat = v ∧ sign s

/-- `addFin` with the signed sum of its terms over the common divisor and exponent. -/
theorem addFin_eq (rm : RMode) (a b : Bool) (n m d c : Nat) (e g : Int) {s : Int}
    (hs : signedNum a (n * c * 2 ^ (e - min e g).toNat) + signedNum b (m * d * 2 ^ (g - min e g).toNat) = s) :
    addFin rm a b n m d c e g
      = if n = 0 ∧ m = 0 then .fin (if a = b then a else decide (rm = .rdn)) 0 1 0
        else if s = 0 then .fin (decide (rm = .rdn)) 0 1 0 else .fin (decide (s < 0)) s.natAbs (d * c) (min e g) := by
  have hrdn : (rm == .rdn) = decide (rm = .rdn) := by cases rm <;> rfl
  subst hs
  simp only [addFin, signedNum, hrdn]
  push_cast
  rfl

@[simp] theorem toRat_zero (neg : Bool) (d : Nat) (e : Int) : (Val.fin neg 0 d e).toRat = 0 := by simp [Val.toRat]

theorem addVal_fits (rm : RMode) (a b : Bool) (n m : Nat) {d c : Nat} (hd : 0 < d) (hc : 0 < c) (e g : Int) {x y : ℚ}
    (hx : (Val.fin a n d e).toRat = x) (hy : (Val.fin b m c g).toRat = y) :
    Fits (addVal rm (.fin a n d e) (.fin b m c g)) (x + y) fun s =>
      (x + y = 0 → x ≠ 0 → s = decide (rm = .rdn)) ∧ (n = 0 → m = 0 → a = b → s = a) := by
  have hxs := (toRat_common (neg := a) (n := n) hd hc (min_le_left e g)).symm.trans hx
  have hys := (toRat_common (neg := b) (n := m) hc hd (min_le_right e g)).symm.trans hy
  rw [mul_comm c d] at hys
  have hadd := addFin_eq rm a b n m d c e g rfl
  have hsum : x + y = (signedNum a (n * c * 2 ^ (e - min e g).toNat) + signedNum b (m * d * 2 ^ (g - min e g).toNat) : Int)
      / (d * c : Nat) * 2 ^ min e g := by rw [← hxs, ← hys, ← add_mul, ← add_div, Int.cast_add]
  generalize signedNum a (n * c * 2 ^ (e - min e g).toNat) + signedNum b (m * d * 2 ^ (g - min e g).toNat) = s at hadd hsum
  have hdc : 0 < d * c := Nat.mul_pos hd hc
  have hzero : x + y = 0 ↔ s = 0 := by
    have hne : ((d * c : Nat) : ℚ) ≠ 0 := by exact_mod_cast hdc.ne'
    rw [hsum, mul_eq_zero, div_eq_zero_iff, Int.cast_eq_zero, or_iff_left hne, or_iff_left (by positivity)]
  rw [addVal, hadd]
  by_cases hnm : n = 0 ∧ m = 0
  · obtain ⟨rfl, rfl⟩ := hnm
    rw [toRat_zero] at hx hy
    subst hx hy
    exact ⟨_, _, _, _, by rw [if_pos ⟨rfl, rfl⟩], one_pos, by simp, fun _ h => absurd rfl h, fun _ _ hab => if_pos hab⟩
  · rw [if_neg hnm]
    by_cases hs : s = 0
    · rw [if_pos hs]
      exact ⟨_, _, _, _, rfl, one_pos, by rw [toRat_zero, hzero.2 hs], fun _ _ => rfl, fun hn hm => absurd ⟨hn, hm⟩ hnm⟩
    · rw [if_neg hs]
      exact ⟨_, _, _, _, rfl, hdc, by rw [toRat_of_int, hsum], fun h => absurd (hzero.1 h) hs, fun hn hm => absurd ⟨hn, hm⟩ hnm⟩

theorem mulVal_fin (a b : Bool) (n m d c : Nat) (e g : Int) :
    mulVal (.fin a n d e) (.fin b m c g) = (.fin (a != b) (n * m) (d * c) (e + g), 0#6) := rfl

theorem toRat_mul (a b : Bool) (n m d c : Nat) (e g : Int) :
    (Val.fin (a != b) (n * m) (d * c) (e + g)).toRat = (Val.fin a n d e).toRat * (Val.fin b m c g).toRat := by
  rw [toRat_fin, toRat_fin, toRat_fin, zpow_add₀ two_ne_zero]
  cases a <;> cases b <;> (simp [signedNum]; ring)

theorem mulVal_fits (a b : Bool) (n m : Nat) {d c : Nat} (hd : 0 < d) (hc : 0 < c) (e g : Int) :
    Fits (mulVal (.fin a n d e) (.fin b m c g)) ((Val.fin a n d e).toRat * (Val.fin b m c g).toRat) fun s => s = (a != b) :=
  ⟨_, _, _, _, mulVal_fin a b n m d c e g, Nat.mul_pos hd hc, toRat_mul a b n m d c e g, rfl⟩

/-- A fused sum is the sum of the exact product and the third value. -/
theorem fmaVal_fin (rm : RMode) (a b : Bool) (n m d c : Nat) (e g : Int) (z : Val) :
    fmaVal rm (.fin a n d e) (.fin b m c g) z = addVal rm (.fin (a != b) (n * m) (d * c) (e + g)) z := by
  rw [fmaVal, mulVal_fin, BitVec.zero_or]

theorem fmaVal_fits (rm : RMode) (a b h : Bool) (n m l : Nat) {d c p : Nat} (hd : 0 < d) (hc : 0 < c) (hp : 0 < p) (e g q : Int) {x y z : ℚ}
    (hx : (Val.fin a n d e).toRat = x) (hy : (Val.fin b m c g).toRat = y) (hz : (Val.fin h l p q).toRat = z) :
    Fits (fmaVal rm (.fin a n d e) (.fin b m c g) (.fin h l p q)) (x * y + z) fun s =>
      x * y + z = 0 → z ≠ 0 → s = decide (rm = .rdn) := by
  have hxy : (Val.fin (a != b) (n * m) (d * c) (e + g)).toRat = x * y := by rw [toRat_mul, hx, hy]
  rw [fmaVal_fin]
  obtain ⟨s, k, w, t, hr, hw, hv, hsign, -⟩ := addVal_fits rm (a != b) h (n * m) l (Nat.mul_pos hd hc) hp (e + g) q hxy hz
  exact ⟨s, k, w, t, hr, hw, hv, fun hsum hne => hsign hsum fun hprod => hne (by linarith)⟩

/-! The lesser and the greater value -/

theorem Val.lt_fin {a b : Bool} {n d m c : Nat} (hd : 0 < d) (hc : 0 < c) (e g : Int) :
    (Val.fin a n d e).lt (.fin b m c g) = true ↔ (Val.fin a n d e).toRat < (Val.fin b m c g).toRat := by
  have hdc : (0 : ℚ) < (d * c : Nat) := by exact_mod_cast Nat.mul_pos hd hc
  rw [toRat_common (neg := a) (n := n) hd hc (min_le_left e g), toRat_common (neg := b) (n := m) hc hd (min_le_right e g), mul_comm c d,
    mul_lt_mul_iff_left₀ (by positivity), div_lt_div_iff_of_pos_right hdc, Int.cast_lt]
  simp only [Val.lt, finLt, signedNum, decide_eq_true_eq]
  push_cast
  rfl

/-- NaN of either operand wins, with NV only for a signalling one (R180). -/
theorem minmax_nan {x y : Val} (h : x.isNan = true ∨ y.isNan = true) :
    maxVal x y = (.nan false, if x.isSig || y.isSig then flNV else 0#6)
      ∧ minVal x y = (.nan false, if x.isSig || y.isSig then flNV else 0#6) := by
  have hor : (x.isNan || y.isNan) = true := by rwa [Bool.or_eq_true]
  exact ⟨if_pos hor, if_pos hor⟩

/-- Otherwise one operand is the greater and the other the lesser, by value and, of two equal ones, by the sign of the first. -/
theorem minmax_cases {x y : Val} (hx : x.isNan = false) (hy : y.isNan = false) : ∃ g l : Val, maxVal x y = (g, 0#6) ∧ minVal x y = (l, 0#6)
    ∧ (g = y ∧ l = x ∧ (x.lt y = true ∨ (y.lt x = false ∧ x.neg = true))
      ∨ g = x ∧ l = y ∧ x.lt y = false ∧ (y.lt x = true ∨ x.neg = false)) := by
  have hor : ¬ (x.isNan || y.isNan) = true := by simp [hx, hy]
  simp only [maxVal, minVal, if_neg hor]
  by_cases hlt : x.lt y = true
  · simp [hlt]
  · by_cases hgt : y.lt x = true
    · simp [hlt, hgt]
    · cases hneg : x.neg <;> simp [hlt, hgt]

theorem Val.posInf_lt (y : Val) : (Val.inf false).lt y = false := by cases y <;> rfl

theorem Val.lt_negInf (x : Val) : x.lt (.inf true) = false := by
  cases x with
  | nan => rfl
  | inf a => cases a <;> rfl
  | fin => rfl

theorem Val.eq_posInf_of_not_lt {x : Val} (hx : x.isNan = false) (h : x.lt (.inf false) = false) : x = .inf false := by
  cases x with
  | nan => cases hx
  | inf a => cases a with
    | false => rfl
    | true => cases h
  | fin => cases h

theorem Val.eq_negInf_of_not_lt {y : Val} (hy : y.isNan = false) (h : (Val.inf true).lt y = false) : y = .inf true := by
  cases y with
  | nan => cases hy
  | inf b => cases b with
    | false => cases h
    | true => rfl
  | fin => cases h

/-! Conversions to integers -/

/-- An integer in a range. -/
theorem satInt_eq (sgn : Bool) {w : Nat} (x : Int) :
    satInt sgn w x = max (if sgn then -2 ^ (w - 1) else 0) (min (if sgn then 2 ^ (w - 1) - 1 else 2 ^ w - 1) x) := by
  have h1 : (0 : Int) < 2 ^ (w - 1) := by positivity
  have h2 : (0 : Int) < 2 ^ w := by positivity
  cases sgn
  · simp only [satInt, Bool.false_eq_true, if_false]
    omega
  · simp only [satInt, if_true]
    omega

theorem intVal_mod {w : Nat} (hw : 0 < w) (sgn : Bool) (v : Nat) : intVal sgn w v = laneInt sgn (BitVec.ofNat w v) := by
  rw [← intVal_toNat hw, BitVec.toNat_ofNat]
  simp [intVal, signed]

/-- The integer k is what a mode makes of the number x (R65). -/
structure RoundsInt (rm : RMode) (x : ℚ) (k : Int) : Prop where
  rne : rm = .rne → |(k : ℚ) - x| ≤ 1 / 2 ∧ (|(k : ℚ) - x| = 1 / 2 → k % 2 = 0)
  rdn : rm = .rdn → (k : ℚ) ≤ x ∧ x < k + 1
  rup : rm = .rup → x ≤ k ∧ (k : ℚ) - 1 < x
  rtz : rm = .rtz → |(k : ℚ)| ≤ |x| ∧ |x| < |(k : ℚ)| + 1 ∧ 0 ≤ k * x

/-- Rounding a magnitude toward zero or away from it is rounding the signed value down or up. -/
theorem RoundsMag.roundsInt {rm : RMode} {neg : Bool} {y : ℚ} {m : Nat} (hy : 0 ≤ y) (h : RoundsMag rm neg y m) :
    RoundsInt rm (if neg then -y else y) (signedNum neg m) := by
  have hcast : ((signedNum neg m : Int) : ℚ) = if neg then -(m : ℚ) else m := by cases neg <;> simp [signedNum]
  refine ⟨fun hrm => ?_, fun hrm => ?_, fun hrm => ?_, fun hrm => ?_⟩ <;> rw [hcast]
  · obtain ⟨hhalf, htie⟩ := h.nearest hrm
    have habs : |(if neg then -(m : ℚ) else m) - (if neg then -y else y)| = |m - y| := by
      cases neg
      · rfl
      · rw [if_pos rfl, if_pos rfl, neg_sub_neg, abs_sub_comm]
    rw [habs]
    refine ⟨hhalf, fun heq => ?_⟩
    have := htie heq
    rw [signedNum]
    omega
  · subst hrm
    cases neg
    · simpa using h.inward (.inr (.inl ⟨rfl, rfl⟩))
    · obtain ⟨hle, hlt⟩ := h.outward (by decide) (by simp [Inward])
      exact ⟨neg_le_neg hle, by simp only [if_true]; linarith⟩
  · subst hrm
    cases neg
    · simpa using h.outward (by decide) (by simp [Inward])
    · obtain ⟨hle, hlt⟩ := h.inward (.inr (.inr ⟨rfl, rfl⟩))
      exact ⟨neg_le_neg hle, by simp only [if_true]; linarith⟩
  · obtain ⟨hle, hlt⟩ := h.inward (.inl hrm)
    have hm : (0 : ℚ) ≤ m := by positivity
    cases neg
    · simp only [Bool.false_eq_true, if_false, abs_of_nonneg hm, abs_of_nonneg hy]
      exact ⟨hle, hlt, mul_nonneg hm hy⟩
    · simp only [if_true, abs_neg, abs_of_nonneg hm, abs_of_nonneg hy, neg_mul_neg]
      exact ⟨hle, hlt, mul_nonneg hm hy⟩

theorem roundInt_rounds (rm : RMode) (neg : Bool) (num : Nat) {den : Nat} (hden : 0 < den) (e : Int) :
    ∃ k : Int, roundInt rm neg num den e = (k, decide ((k : ℚ) ≠ (Val.fin neg num den e).toRat))
      ∧ RoundsInt rm (Val.fin neg num den e).toRat k := by
  have hnd := ratio_snd_pos hden num e
  have hx : (Val.fin neg num den e).toRat
      = if neg then -(((ratio num den e).1 : ℚ) / (ratio num den e).2) else ((ratio num den e).1 : ℚ) / (ratio num den e).2 := by
    rw [ratio_div, toRat_fin]
    cases neg <;> simp [signedNum]
    ring
  rw [hx]
  refine ⟨_, ?_, (roundMag_rounds rm neg hnd _).roundsInt (by positivity)⟩
  rw [roundInt, roundMag_snd rm neg hnd]
  cases neg <;> simp [signedNum]

/-- A conversion to an integer format from a finite value (R72). -/
theorem toIntFmt_fin (sgn : Bool) (w : Nat) (rm : RMode) (neg : Bool) (num : Nat) {den : Nat} (hden : 0 < den) (e : Int) :
    ∃ k : Int, RoundsInt rm (Val.fin neg num den e).toRat k ∧ toIntFmt sgn w rm (.fin neg num den e)
      = ((BitVec.ofInt w (satInt sgn w k)).toNat, (if (k : ℚ) = (Val.fin neg num den e).toRat then 0#6 else flNX)
          ||| if satInt sgn w k = k then 0#6 else flNV) := by
  obtain ⟨k, hk, hrounds⟩ := roundInt_rounds rm neg num hden e
  refine ⟨k, hrounds, ?_⟩
  rw [toIntFmt, hk, wrapNat_eq]
  simp [flIf]

/-- An infinity is beyond every range of at most 64 bits (R72). -/
theorem satInt_of_inf (sgn : Bool) {w : Nat} (hw : w ≤ 64) (neg : Bool) :
    satInt sgn w (if neg then -(2 ^ 64) else 2 ^ 64)
      = if neg then (if sgn then -2 ^ (w - 1) else 0) else if sgn then 2 ^ (w - 1) - 1 else 2 ^ w - 1 := by
  have h1 : (2 : Int) ^ (w - 1) ≤ 2 ^ 64 := pow_le_pow_right₀ one_le_two (by omega)
  have h2 : (2 : Int) ^ w ≤ 2 ^ 64 := pow_le_pow_right₀ one_le_two hw
  have h3 : (0 : Int) < 2 ^ (w - 1) := by positivity
  have h4 : (0 : Int) < 2 ^ w := by positivity
  rw [satInt_eq]
  cases sgn <;> cases neg <;> simp only [Bool.false_eq_true, if_false, if_true] <;> omega

/-- Every decoded finite value, read under FTZ or not, has the divisor 1. -/
theorem ftzIn_decodeF_fin {z : Bool} {f : FFmt} {v : Nat} {neg : Bool} {num den : Nat} {e : Int}
    (h : ftzIn z f (decodeF f v) = .fin neg num den e) : den = 1 := by
  have hdec := decodeF_decodesTo f v
  generalize decodeF f v = x at *
  cases hdec with
  | fin n g =>
    rw [ftzIn] at h
    split at h
    · cases h; rfl
    · cases h; rfl
  | inf => cases h
  | nan => cases h

theorem convert_flt_int_nan (z : Bool) (rm : RMode) (sat sgn : Bool) (w : Nat) (f : FFmt) (v : Nat)
    (h : (ftzIn z f (decodeF f v)).isNan = true) :
    convert z (.flt f) (.int sgn w) rm sat v = ((BitVec.ofInt w 0).toNat, flNV) := by
  rw [convert]
  generalize ftzIn z f (decodeF f v) = x at *
  cases x with
  | nan => simp [toIntFmt]
  | inf => cases h
  | fin => cases h

/-- A finite float becomes the integer that the mode names of its exact value, clamped (R72). -/
theorem convert_flt_int_fin (z : Bool) (rm : RMode) (sat sgn : Bool) (w : Nat) (f : FFmt) (v : Nat)
    (hnan : (ftzIn z f (decodeF f v)).isNan = false) (hinf : (ftzIn z f (decodeF f v)).isInf = false) :
    let x := ftzIn z f (decodeF f v)
    let lo : Int := if sgn then -2 ^ (w - 1) else 0
    let hi : Int := if sgn then 2 ^ (w - 1) - 1 else 2 ^ w - 1
    ∃ k : Int, convert z (.flt f) (.int sgn w) rm sat v = ((BitVec.ofInt w (max lo (min hi k))).toNat,
        (if (k : ℚ) = x.toRat then 0#6 else flNX) ||| if max lo (min hi k) = k then 0#6 else flNV)
      ∧ (rm = .rne → |(k : ℚ) - x.toRat| ≤ 1 / 2 ∧ (|(k : ℚ) - x.toRat| = 1 / 2 → k % 2 = 0))
      ∧ (rm = .rdn → (k : ℚ) ≤ x.toRat ∧ x.toRat < k + 1) ∧ (rm = .rup → x.toRat ≤ k ∧ (k : ℚ) - 1 < x.toRat)
      ∧ (rm = .rtz → |(k : ℚ)| ≤ |x.toRat| ∧ |x.toRat| < |(k : ℚ)| + 1 ∧ 0 ≤ k * x.toRat) := by
  have hden (neg : Bool) (num den : Nat) (e : Int) : ftzIn z f (decodeF f v) = .fin neg num den e → den = 1 := ftzIn_decodeF_fin
  rw [convert]
  generalize ftzIn z f (decodeF f v) = x at *
  cases x with
  | nan => cases hnan
  | inf => cases hinf
  | fin neg num den e =>
    obtain rfl := hden _ _ _ _ rfl
    obtain ⟨k, hk, hconv⟩ := toIntFmt_fin sgn w rm neg num one_pos e
    rw [satInt_eq] at hconv
    exact ⟨k, hconv, hk.rne, hk.rdn, hk.rup, hk.rtz⟩

/-! The obligation, part by part -/

theorem overflowF_eq (f : FFmt) (neg : Bool) (rm : RMode) (sat : Bool) :
    overflowF f neg rm sat
      = if sat = true ∨ Inward rm neg then f.signed neg f.maxPat else if f = .e4m3 then f.nan else f.signed neg f.infPat := by
  by_cases hf : f = .e4m3 <;> cases rm <;> cases neg <;> cases sat <;> simp [overflowF, Inward, FFmt.hasInf, hf]

theorem minmax_spec {x y : Val} (hx : x.isNan = false) (hy : y.isNan = false) :
    ∃ g l : Val, maxVal x y = (g, 0#6) ∧ minVal x y = (l, 0#6) ∧ (g = x ∧ l = y ∨ g = y ∧ l = x)
      ∧ ((x = .inf false ∨ y = .inf false) → g = .inf false) ∧ ((x = .inf true ∨ y = .inf true) → l = .inf true)
      ∧ ∀ (a b : Bool) (n d m c : Nat) (e q : Int), 0 < d → 0 < c → x = .fin a n d e → y = .fin b m c q →
          l.toRat ≤ g.toRat ∧ (n = 0 → m = 0 → g.neg = (a && b)) := by
  obtain ⟨g, l, hg, hl, hcases⟩ := minmax_cases hx hy
  refine ⟨g, l, hg, hl, ?_, ?_, ?_, ?_⟩
  · obtain ⟨h1, h2, -⟩ | ⟨h1, h2, -⟩ := hcases
    · exact .inr ⟨h1, h2⟩
    · exact .inl ⟨h1, h2⟩
  · obtain ⟨rfl, rfl, hlt⟩ | ⟨rfl, rfl, hlt, -⟩ := hcases
    · rintro (rfl | rfl)
      · simp [Val.posInf_lt, Val.neg] at hlt
      · rfl
    · rintro (rfl | rfl)
      · rfl
      · exact Val.eq_posInf_of_not_lt hx hlt
  · obtain ⟨rfl, rfl, hlt⟩ | ⟨rfl, rfl, hlt, -⟩ := hcases
    · rintro (rfl | rfl)
      · rfl
      · rw [Val.lt_negInf] at hlt
        exact Val.eq_negInf_of_not_lt hx (hlt.resolve_left Bool.false_ne_true).1
    · rintro (rfl | rfl)
      · exact Val.eq_negInf_of_not_lt hy hlt
      · rfl
  · rintro a b n d m c e q hd hc rfl rfl
    have hlt := Val.lt_fin (a := a) (b := b) (n := n) (m := m) hd hc e q
    have hgt := Val.lt_fin (a := b) (b := a) (n := m) (m := n) hc hd q e
    rw [← Bool.not_eq_true, ← Bool.not_eq_true, hlt, hgt, not_lt, not_lt] at hcases
    obtain ⟨rfl, rfl, hlt | ⟨hge, hneg⟩⟩ | ⟨rfl, rfl, hle, hgt | hneg⟩ := hcases
    · refine ⟨hlt.le, ?_⟩
      rintro rfl rfl
      simp at hlt
    · exact ⟨hge, fun _ _ => by rw [show a = true from hneg]; simp [Val.neg]⟩
    · refine ⟨hgt.le, ?_⟩
      rintro rfl rfl
      simp at hgt
    · exact ⟨hle, fun _ _ => by rw [show a = false from hneg]; simp [Val.neg]⟩

end Sys2Proof.Machine

namespace Sys2Proof
open Machine

/-- Settles O28: every value is rounded in the unit of its binade, where significands are patterns; sums and products are rationals
over a common divisor, and conversions round to integers. -/
theorem roundingIsExact : Obligations.RoundingIsExact := by
  refine ⟨?_, ?_, ?_, ?_, ?_, ?_, ?_⟩
  · intro f rm sat neg num den e hnum hden
    obtain ⟨k, hk, hround⟩ := roundTo_fin f rm sat neg num hden e
    refine ⟨k, hk.nearest, hk.inward, hk.outward, ?_⟩
    rw [hround, roundedTo, overflowF_eq]
    rfl
  · exact fun f rm sat neg sig den e => ⟨rfl, roundTo_zero f rm sat neg den e, roundTo_inf f rm sat neg⟩
  · intro rm a b h n d m c l p e g q hd hc hp
    exact ⟨addVal_fits rm a b n m hd hc e g rfl rfl, mulVal_fits a b n m hd hc e g, fmaVal_fits rm a b h n m l hd hc hp e g q rfl rfl rfl⟩
  · exact fun f rm sat v hv hnan => roundTo_decodeF hv hnan rm sat
  · exact fun f v hf hv => classOf_decodeF hf hv rfl (by rw [field, pow_zero, Nat.div_one])
  · exact fun x y => ⟨minmax_nan, minmax_spec⟩
  · intro z rm sat ss sd ws wd v f g hws hwd hle
    refine ⟨?_, ?_, ?_, ?_, ?_, ?_⟩
    · rw [convert, intVal_mod hws, satInt_eq, wrapNat_eq]
      simp [flIf]
    · rw [convert, intVal_mod hws, Val.ofInt]
    · rfl
    · exact convert_flt_int_nan z rm sat sd wd f v
    · intro b h
      rw [convert, h, toIntFmt, satInt_of_inf sd hle, wrapNat_eq]
    · exact convert_flt_int_fin z rm sat sd wd f v

end Sys2Proof
end

section
/-! O29: a faithful result lies beside the exact value. -/

namespace Sys2Proof.Machine

/-! Patterns as real numbers -/

/-- The value of a pattern as a real number. -/
noncomputable def FFmt.real (f : FFmt) (k : Nat) : ℝ := (f.value k : ℚ)

theorem FFmt.real_strictMono (f : FFmt) : StrictMono f.real := fun _ _ h => Rat.cast_lt.2 (f.value_strictMono h)

theorem FFmt.real_succ (f : FFmt) (k : Nat) : f.real (k + 1) = f.real k + 2 ^ f.stepExp k := by
  rw [FFmt.real, f.value_succ]
  push_cast
  rfl

/-- A value is at its greatest pattern not above it. -/
theorem FFmt.eq_of_real_between {f : FFmt} {j lo : Nat} (hlo : f.real lo ≤ f.real j) (hhi : f.real j < f.real (lo + 1)) : j = lo :=
  le_antisymm (Nat.lt_succ_iff.1 (f.real_strictMono.lt_iff_lt.1 hhi)) (f.real_strictMono.le_iff_le.1 hlo)

/-- A step is at least 2^(i − M) past the value 2^i. -/
theorem FFmt.le_step_of_lt_real {f : FFmt} {k : Nat} {i : Int} (h : (2 : ℝ) ^ i < f.real (k + 1)) :
    (2 : ℝ) ^ (i - f.man) ≤ f.real (k + 1) - f.real k := by
  have hq : (2 : ℚ) ^ i < f.value (k + 1) := by
    rw [← Rat.cast_lt (K := ℝ)]
    push_cast
    exact h
  rw [f.real_succ, add_sub_cancel_left]
  exact zpow_le_zpow_right₀ one_le_two (f.le_stepExp_of_lt_value hq)

theorem FFmt.step_mono (f : FFmt) {j k : Nat} (h : j ≤ k) : f.real (j + 1) - f.real j ≤ f.real (k + 1) - f.real k := by
  rw [f.real_succ, f.real_succ, add_sub_cancel_left, add_sub_cancel_left]
  exact zpow_le_zpow_right₀ one_le_two (f.stepExp_mono h)

/-- A neighbour of a value strictly between two patterns is less than its step away. -/
theorem FFmt.abs_real_sub_lt {f : FFmt} {lo k : Nat} (hk : k = lo ∨ k = lo + 1) {t : ℝ} (hlo : f.real lo < t) (hhi : t < f.real (lo + 1)) :
    |f.real k - t| < f.real (k + 1) - f.real k := by
  have hstep := f.step_mono (Nat.le_succ lo)
  obtain rfl | rfl := hk
  · rw [abs_of_neg (by linarith)]
    linarith
  · rw [abs_of_pos (by linarith)]
    linarith

/-- The same with the value known to a small part of the step. -/
theorem FFmt.abs_real_sub_lt_of_near {f : FFmt} {lo k : Nat} (hk : k = lo ∨ k = lo + 1) {v t δ : ℝ} (hδ : 0 ≤ δ) (hlo : f.real lo ≤ v)
    (hhi : v < f.real (lo + 1)) (hvt : |v - t| < (f.real (lo + 1) - f.real lo) * δ) :
    |f.real k - t| < (f.real (k + 1) - f.real k) * (1 + δ) := by
  have hstep : f.real (lo + 1) - f.real lo ≤ f.real (k + 1) - f.real k := f.step_mono (by omega)
  have hnear : |f.real k - v| ≤ f.real (lo + 1) - f.real lo := by
    obtain rfl | rfl := hk
    · rw [abs_of_nonpos (by linarith)]
      linarith
    · rw [abs_of_nonneg (by linarith)]
      linarith
  calc |f.real k - t| ≤ |f.real k - v| + |v - t| := abs_sub_le _ _ _
    _ < (f.real (lo + 1) - f.real lo) * (1 + δ) := by linarith
    _ ≤ (f.real (k + 1) - f.real k) * (1 + δ) := by gcongr

/-- A significand within the format's precision, from its least exponent on, makes a value of the format. -/
theorem FFmt.exists_value_of_significand (f : FFmt) (Q : Nat) {m : Nat} (hm : m < 2 ^ (f.man + 1)) :
    ∃ k, f.value k = m * 2 ^ (Q + f.emin - f.man) := by
  induction Q generalizing m with
  | zero => exact ⟨_, f.value_mul_add (.inl rfl) hm.le⟩
  | succ Q ih =>
    by_cases hnorm : 2 ^ f.man ≤ m
    · exact ⟨_, f.value_mul_add (.inr hnorm) hm.le⟩
    · obtain ⟨k, hk⟩ := ih (m := 2 * m) (by rw [pow_succ]; omega)
      refine ⟨k, hk.trans ?_⟩
      rw [show ((Q + 1 : Nat) : Int) + f.emin - f.man = (Q + f.emin - f.man) + 1 by push_cast; ring, zpow_add_one₀ two_ne_zero]
      push_cast
      ring

/-! The faithful result -/

theorem roundFlags_nx (f : FFmt) (x : ℚ) (k : Nat) : (roundFlags f x k).getLsbD 4 = decide (f.value k ≠ x) := by
  by_cases h : f.value k = x <;> by_cases ht : x < 2 ^ f.emin <;> simp [roundFlags, h, ht, flNX, flUF]

/-- The pattern of RTZ is the greatest not above the value. -/
theorem roundTo_rtz {f : FFmt} (neg : Bool) (num : Nat) {den : Nat} (hden : 0 < den) (e : Int)
    (hv : (num : ℚ) / den * 2 ^ e < f.value f.maxPat) :
    ∃ lo < f.maxPat, f.value lo ≤ num / den * 2 ^ e ∧ (num : ℚ) / den * 2 ^ e < f.value (lo + 1)
      ∧ roundTo f .rtz false (.fin neg num den e) = (f.signed neg lo, roundFlags f (num / den * 2 ^ e) lo) := by
  obtain ⟨lo, hlo, hround⟩ := roundTo_fin f .rtz false neg num hden e
  obtain ⟨hle, hlt⟩ := hlo.inward (.inl rfl)
  have htop : lo < f.maxPat := f.value_strictMono.lt_iff_lt.1 (hle.trans_lt hv)
  exact ⟨lo, htop, hle, hlt, by rw [hround, roundedTo, if_pos htop.le]⟩

/-- RNE gives one of the two neighbours. -/
theorem RoundsTo.eq_or_eq_succ {f : FFmt} {neg : Bool} {x : ℚ} {k lo : Nat} (h : RoundsTo f .rne neg x k) (hlo : f.value lo ≤ x)
    (hhi : x < f.value (lo + 1)) : k = lo ∨ k = lo + 1 := by
  obtain ⟨⟨habove, -⟩, hbelow⟩ := h.nearest rfl
  have hmono := f.value_strictMono
  have hge : lo ≤ k := not_lt.1 fun hlt => by
    have := hmono.monotone (Nat.succ_le_of_lt hlt)
    have := hmono (Nat.lt_succ_self k)
    have := (neg_le_abs _).trans habove
    linarith
  have hle : k ≤ lo + 1 := not_lt.1 fun hlt => by
    obtain ⟨j, rfl⟩ : ∃ j, k = j + 1 := ⟨k - 1, by omega⟩
    have := hmono.monotone (Nat.lt_succ_iff.1 hlt)
    have := hmono (Nat.lt_succ_self j)
    have := (le_abs_self _).trans (hbelow j rfl).1
    linarith
  omega

theorem signed_succ (f : FFmt) (neg : Bool) (k : Nat) : f.signed neg k + 1 = f.signed neg (k + 1) := by
  rw [FFmt.signed, FFmt.signed]
  omega

/-- The result is the value where that is a pattern's and known to be the exact one, and otherwise a neighbour of the value with NX
(R88). -/
theorem faithful_cases (fn : Fin 4) (x : Nat) (exact neg : Bool) (num : Nat) {den : Nat} (hden : 0 < den) (e : Int)
    (hv : (num : ℚ) / den * 2 ^ e < FFmt.value .fp32 (FFmt.maxPat .fp32)) :
    ∃ lo < FFmt.maxPat .fp32, FFmt.value .fp32 lo ≤ num / den * 2 ^ e ∧ (num : ℚ) / den * 2 ^ e < FFmt.value .fp32 (lo + 1) ∧
      ((exact = true ∧ FFmt.value .fp32 lo = num / den * 2 ^ e
          ∧ faithful fn x false exact (.fin neg num den e) = (FFmt.signed .fp32 neg lo, 0#6))
        ∨ (¬ (exact = true ∧ FFmt.value .fp32 lo = num / den * 2 ^ e)
          ∧ ∃ k fl, (k = lo ∨ k = lo + 1) ∧ faithful fn x false exact (.fin neg num den e) = (FFmt.signed .fp32 neg k, fl)
            ∧ fl.getLsbD 4 = true)) := by
  obtain ⟨lo, htop, hle, hlt, hrtz⟩ := roundTo_rtz (f := .fp32) neg num hden e hv
  refine ⟨lo, htop, hle, hlt, ?_⟩
  simp only [faithful, hrtz, roundFlags_nx, Bool.false_and, Bool.false_eq_true, if_false]
  by_cases hex : exact = true ∧ FFmt.value .fp32 lo = num / den * 2 ^ e
  · exact .inl ⟨hex.1, hex.2, by simp [hex]⟩
  · refine .inr ⟨hex, ?_⟩
    rw [if_neg (by simpa using hex)]
    split
    · obtain ⟨k, hk, hrne⟩ := roundTo_fin .fp32 .rne false neg num hden e
      have hor := hk.eq_or_eq_succ hle hlt
      have hktop : k ≤ FFmt.maxPat .fp32 := by omega
      rw [hrne, roundedTo, if_pos hktop]
      exact ⟨k, _, hor, rfl, by decide⟩
    · split
      · exact ⟨lo + 1, _, .inr rfl, by rw [signed_succ], by rw [flIf]; split <;> decide⟩
      · exact ⟨lo, _, .inl rfl, rfl, by rw [flIf]; split <;> decide⟩

/-- Where the exact value t lies between the same neighbours as the value that is rounded, the result is less than a step from t, and
NX says whether it is t; t itself results where it is a pattern's. -/
theorem faithful_between (fn : Fin 4) (x : Nat) (exact neg : Bool) (num : Nat) {den : Nat} (hden : 0 < den) (e : Int) {v t : ℝ}
    (hval : (num : ℝ) / den * 2 ^ e = v) (hv : v < FFmt.real .fp32 (FFmt.maxPat .fp32))
    (ht : ∀ lo, FFmt.real .fp32 lo ≤ v → v < FFmt.real .fp32 (lo + 1) →
      FFmt.real .fp32 lo ≤ t ∧ t < FFmt.real .fp32 (lo + 1) ∧ (FFmt.real .fp32 lo = t ↔ exact = true ∧ FFmt.real .fp32 lo = v)) :
    ∃ k ≤ FFmt.maxPat .fp32, (faithful fn x false exact (.fin neg num den e)).1 = FFmt.signed .fp32 neg k
      ∧ |FFmt.real .fp32 k - t| < FFmt.real .fp32 (k + 1) - FFmt.real .fp32 k
      ∧ ((faithful fn x false exact (.fin neg num den e)).2.getLsbD 4 = true ↔ FFmt.real .fp32 k ≠ t)
      ∧ ∀ j, FFmt.real .fp32 j = t → FFmt.real .fp32 k = t := by
  have hcast : ((num / den * 2 ^ e : ℚ) : ℝ) = v := by
    push_cast
    exact hval
  obtain ⟨lo, htop, hle, hlt, hcases⟩ := faithful_cases fn x exact neg num hden e (by rwa [← Rat.cast_lt (K := ℝ), hcast])
  rw [← Rat.cast_le (K := ℝ), hcast] at hle
  rw [← Rat.cast_lt (K := ℝ), hcast] at hlt
  have hexact : FFmt.value .fp32 lo = num / den * 2 ^ e ↔ FFmt.real .fp32 lo = v := by rw [← Rat.cast_inj (α := ℝ), hcast, FFmt.real]
  obtain ⟨htlo, hthi, heq⟩ := ht lo hle hlt
  obtain ⟨hex, hlov, hres⟩ | ⟨hnot, k, fl, hk, hres, hnx⟩ := hcases
  · have hlot := heq.2 ⟨hex, hexact.1 hlov⟩
    rw [hres]
    refine ⟨lo, htop.le, rfl, ?_, ?_, fun _ _ => hlot⟩
    · rw [hlot, sub_self, abs_zero, sub_pos]
      exact hthi
    · simp [hlot]
  · rw [hexact, ← heq] at hnot
    have hstrict := lt_of_le_of_ne htlo hnot
    rw [hres]
    refine ⟨k, by omega, rfl, FFmt.abs_real_sub_lt hk hstrict hthi, iff_of_true hnx ?_, fun j hj => ?_⟩
    · obtain rfl | rfl := hk
      · exact hstrict.ne
      · exact hthi.ne'
    · obtain rfl := FFmt.eq_of_real_between (hj ▸ htlo) (hj ▸ hthi)
      exact absurd hj hnot

/-- The result r is faithful to (−1)^neg × t: less than a step from it, with NX exactly where it differs (R88). -/
def FaithfulTo (r : Nat × Flags) (neg : Bool) (t : ℝ) : Prop :=
  ∃ k ≤ FFmt.maxPat .fp32, r.1 = FFmt.signed .fp32 neg k ∧ |FFmt.real .fp32 k - t| < FFmt.real .fp32 (k + 1) - FFmt.real .fp32 k
    ∧ (r.2.getLsbD 4 = true ↔ FFmt.real .fp32 k ≠ t)

/-- A value that is known to be exact is rounded faithfully. -/
theorem faithfulTo_of_exact (fn : Fin 4) (x : Nat) (neg : Bool) (num : Nat) {den : Nat} (hden : 0 < den) (e : Int) {v : ℝ}
    (hval : (num : ℝ) / den * 2 ^ e = v) (hv : v < FFmt.real .fp32 (FFmt.maxPat .fp32)) :
    FaithfulTo (faithful fn x false true (.fin neg num den e)) neg v := by
  obtain ⟨k, hk, hres, hgap, hnx, -⟩ := faithful_between fn x true neg num hden e hval hv fun lo hlo hhi => ⟨hlo, hhi, by simp⟩
  exact ⟨k, hk, hres, hgap, hnx⟩

/-- Where the exact value t lies near a value v that is not known to be exact, the result is little more than a step from t, and NX is
raised. -/
theorem faithful_near (fn : Fin 4) (x : Nat) (neg : Bool) (num : Nat) {den : Nat} (hden : 0 < den) (e : Int) {v t δ : ℝ}
    (hval : (num : ℝ) / den * 2 ^ e = v) (hv : v < FFmt.real .fp32 (FFmt.maxPat .fp32)) (hδ : 0 ≤ δ)
    (ht : ∀ lo, v < FFmt.real .fp32 (lo + 1) → |v - t| < (FFmt.real .fp32 (lo + 1) - FFmt.real .fp32 lo) * δ) :
    ∃ k ≤ FFmt.maxPat .fp32, (faithful fn x false false (.fin neg num den e)).1 = FFmt.signed .fp32 neg k
      ∧ |FFmt.real .fp32 k - t| < (FFmt.real .fp32 (k + 1) - FFmt.real .fp32 k) * (1 + δ)
      ∧ (faithful fn x false false (.fin neg num den e)).2.getLsbD 4 = true := by
  have hcast : ((num / den * 2 ^ e : ℚ) : ℝ) = v := by
    push_cast
    exact hval
  obtain ⟨lo, htop, hle, hlt, hcases⟩ := faithful_cases fn x false neg num hden e (by rwa [← Rat.cast_lt (K := ℝ), hcast])
  rw [← Rat.cast_le (K := ℝ), hcast] at hle
  rw [← Rat.cast_lt (K := ℝ), hcast] at hlt
  obtain ⟨hex, -⟩ | ⟨-, k, fl, hk, hres, hnx⟩ := hcases
  · exact absurd hex Bool.false_ne_true
  · rw [hres]
    exact ⟨k, by omega, rfl, FFmt.abs_real_sub_lt_of_near hk hδ hle hlt (ht lo hlt), hnx⟩

/-! Lanes of nonzero finite value -/

/-- A finite fp32 pattern: an integer of at most 24 bits times a power of two from 2^−149 on (R61, R62). -/
theorem decodeF_fp32_fin {x : Nat} {neg : Bool} {n d : Nat} {e : Int} (h : decodeF .fp32 x = .fin neg n d e) :
    d = 1 ∧ n < 2 ^ 24 ∧ -149 ≤ e := by
  have hdec := decodeF_decodesTo .fp32 x
  rw [h] at hdec
  cases hdec with
  | fin _ _ hk hv hn he => exact ⟨rfl, hn, he⟩

/-- A value as a natural number of units of a smaller power of two. -/
theorem exists_nat_mul_two_zpow (n : Nat) {e q : Int} (h : q ≤ e) : ∃ N : Nat, (n : ℝ) * 2 ^ e = N * 2 ^ q := by
  obtain ⟨j, rfl⟩ := Int.le.dest h
  refine ⟨n * 2 ^ j, ?_⟩
  rw [zpow_add₀ two_ne_zero, zpow_natCast]
  push_cast
  ring

theorem two_zpow_eq_mul_sub (c : Int) (p : Nat) : (2 : ℝ) ^ c = (2 ^ p : Nat) * 2 ^ (c - p) := by
  rw [Nat.cast_pow, Nat.cast_ofNat, ← zpow_natCast, ← zpow_add₀ two_ne_zero, add_sub_cancel]

/-- Below a power of two, a value of p bits lies a step below it. -/
theorem le_sub_of_lt_two_zpow {n p : Nat} (hn : n < 2 ^ p) (hp : 0 < p) {e c : Int} (h : (n : ℝ) * 2 ^ e < 2 ^ c) :
    (n : ℝ) * 2 ^ e ≤ 2 ^ c - 2 ^ (c - p) := by
  by_cases he : c - p ≤ e
  · obtain ⟨N, hN⟩ := exists_nat_mul_two_zpow n he
    rw [hN, two_zpow_eq_mul_sub c p] at h ⊢
    have hlt : N < 2 ^ p := by exact_mod_cast lt_of_mul_lt_mul_right h (by positivity)
    have hle : (N : ℝ) + 1 ≤ (2 ^ p : Nat) := by exact_mod_cast hlt
    nlinarith [zpow_pos (two_pos : (0 : ℝ) < 2) (c - p)]
  · have hn' : (n : ℝ) ≤ 2 ^ (p : Int) := by exact_mod_cast hn.le
    have hhalf : (2 : ℝ) ^ (c - p) ≤ 2 ^ (c - 1) := zpow_le_zpow_right₀ one_le_two (by omega)
    have hdouble : (2 : ℝ) ^ c = 2 * 2 ^ (c - 1) := by rw [← zpow_one_add₀ two_ne_zero, add_sub_cancel]
    calc (n : ℝ) * 2 ^ e ≤ 2 ^ (p : Int) * 2 ^ e := by gcongr
      _ = 2 ^ (p + e) := (zpow_add₀ two_ne_zero _ _).symm
      _ ≤ 2 ^ (c - 1) := zpow_le_zpow_right₀ one_le_two (by omega)
      _ ≤ 2 ^ c - 2 ^ (c - p) := by linarith

/-- Above a power of two, a value of p + 1 bits lies a step above it. -/
theorem add_le_of_two_zpow_lt {n p : Nat} (hn : n < 2 ^ (p + 1)) {e c : Int} (h : (2 : ℝ) ^ c < n * 2 ^ e) :
    (2 : ℝ) ^ c + 2 ^ (c - p) ≤ n * 2 ^ e := by
  have he : c - p ≤ e := by
    have hn' : (n : ℝ) ≤ 2 ^ (p + 1 : Int) := by exact_mod_cast hn.le
    have hlt : (2 : ℝ) ^ c < 2 ^ (p + 1 + e) := calc
      (2 : ℝ) ^ c < n * 2 ^ e := h
      _ ≤ 2 ^ (p + 1 : Int) * 2 ^ e := by gcongr
      _ = 2 ^ (p + 1 + e) := (zpow_add₀ two_ne_zero _ _).symm
    have := (zpow_lt_zpow_iff_right₀ one_lt_two).1 hlt
    omega
  obtain ⟨N, hN⟩ := exists_nat_mul_two_zpow n he
  rw [hN, two_zpow_eq_mul_sub c p] at h ⊢
  have hlt : 2 ^ p < N := by exact_mod_cast lt_of_mul_lt_mul_right h (by positivity)
  have hle : ((2 ^ p : Nat) : ℝ) + 1 ≤ N := by exact_mod_cast hlt
  nlinarith [zpow_pos (two_pos : (0 : ℝ) < 2) (c - p)]

theorem floorLog2_lt_iff_real {n : Nat} (hn : 0 < n) (e k : Int) : floorLog2 n 1 e < k ↔ (n : ℝ) * 2 ^ e < 2 ^ k := by
  rw [floorLog2_lt_iff hn one_pos, Nat.cast_one, div_one, ← Rat.cast_lt (K := ℝ)]
  push_cast
  rfl

theorem le_floorLog2_iff_real {n : Nat} (hn : 0 < n) (e k : Int) : k ≤ floorLog2 n 1 e ↔ (2 : ℝ) ^ k ≤ n * 2 ^ e := by
  rw [← not_lt, floorLog2_lt_iff_real hn, not_lt]

/-- A significand is a power of two exactly where the value is one. -/
theorem eq_two_pow_log2_iff {n : Nat} (hn : 0 < n) (e : Int) : n = 2 ^ Nat.log2 n ↔ ∃ i : Int, (n : ℝ) * 2 ^ e = 2 ^ i := by
  constructor
  · intro h
    refine ⟨Nat.log2 n + e, ?_⟩
    rw [zpow_add₀ two_ne_zero, zpow_natCast]
    congr 1
    exact_mod_cast h
  · rintro ⟨i, hi⟩
    have hval : (n : ℝ) = 2 ^ (i - e) := by rw [zpow_sub₀ two_ne_zero, ← hi, mul_div_cancel_right₀ _ (by positivity)]
    have hge : (2 : ℝ) ^ (0 : Int) ≤ 2 ^ (i - e) := by
      rw [← hval, zpow_zero]
      exact_mod_cast hn
    obtain ⟨k, hk⟩ := Int.eq_ofNat_of_zero_le ((zpow_le_zpow_iff_right₀ one_lt_two).1 hge)
    rw [hk, zpow_natCast] at hval
    have hnat : n = 2 ^ k := by exact_mod_cast hval
    rw [hnat, Nat.log2_two_pow]

theorem FFmt.real_maxPat_fp32 : FFmt.real .fp32 (FFmt.maxPat .fp32) = 2 ^ (128 : Int) - 2 ^ (104 : Int) := by
  have h := FFmt.value_mul_add .fp32 (Q := 253) (m := 2 ^ 24 - 1) (.inr (by decide)) (by decide)
  rw [FFmt.real, show FFmt.maxPat .fp32 = 253 * 2 ^ FFmt.man .fp32 + (2 ^ 24 - 1) from rfl, h]
  norm_num [FFmt.emin, FFmt.bias, FFmt.ebits, FFmt.man]

end Sys2Proof.Machine
end

section
/-! O29: the reciprocal, which is the quotient itself, and the reciprocal root, which lies between two neighbours in units so small that
a pattern is a whole number of them. -/

namespace Sys2Proof.Machine

@[simp] theorem ftzIn_false (f : FFmt) (v : Val) : ftzIn false f v = v := by
  cases v <;> simp [ftzIn]

/-! vrcp -/

theorem sfuRcp_of_fin {x : Nat} {neg : Bool} {n d : Nat} {e : Int} (h : decodeF .fp32 x = .fin neg n d e) (hn : n ≠ 0) :
    sfuRcp false x = if floorLog2 n 1 e < -128 ∨ (floorLog2 n 1 e = -128 ∧ n = 2 ^ Nat.log2 n)
      then (FFmt.signed .fp32 neg (FFmt.infPat .fp32), flOF ||| flNX) else faithful 2 x false true (.fin neg 1 n (-e)) := by
  simp [sfuRcp, fp32, h, hn]

/-- The range limit of `vrcp` (R89). -/
theorem rcp_overflow_iff {n : Nat} (hn : 0 < n) (e : Int) :
    (floorLog2 n 1 e < -128 ∨ (floorLog2 n 1 e = -128 ∧ n = 2 ^ Nat.log2 n)) ↔ (n : ℝ) * 2 ^ e ≤ 2 ^ (-128 : Int) := by
  have hlt := floorLog2_lt_iff_real hn e (-128)
  have hlt' := floorLog2_lt_iff_real hn e (-127)
  rw [eq_two_pow_log2_iff hn e]
  constructor
  · rintro (h | ⟨h, i, hi⟩)
    · exact (hlt.1 h).le
    · have := hlt'.1 (by omega)
      rw [hi] at this ⊢
      have := (zpow_lt_zpow_iff_right₀ (one_lt_two (α := ℝ))).1 this
      exact zpow_le_zpow_right₀ one_le_two (by omega)
  · intro h
    obtain h | h := h.lt_or_eq
    · exact .inl (hlt.2 h)
    · have hge : ¬ floorLog2 n 1 e < -128 := by rw [hlt, h]; exact lt_irrefl _
      have hle : floorLog2 n 1 e < -127 := by rw [hlt', h]; exact zpow_lt_zpow_right₀ one_lt_two (by decide)
      exact .inr ⟨by omega, _, h⟩

/-- Every reciprocal in range is below the largest value of fp32. -/
theorem inv_lt_real_maxPat {n : Nat} (hn : n < 2 ^ 24) {e : Int} (h : (2 : ℝ) ^ (-128 : Int) < n * 2 ^ e) :
    ((n : ℝ) * 2 ^ e)⁻¹ < FFmt.real .fp32 (FFmt.maxPat .fp32) := by
  have hstep := add_le_of_two_zpow_lt (p := 23) hn h
  have htop : (0 : ℝ) < 2 ^ (128 : Int) - 2 ^ (104 : Int) := by norm_num
  rw [FFmt.real_maxPat_fp32, inv_lt_comm₀ (lt_trans (by positivity) h) htop]
  refine lt_of_lt_of_le ?_ hstep
  norm_num

theorem sfuRcp_faithful {x : Nat} {neg : Bool} {n d : Nat} {e : Int} (h : decodeF .fp32 x = .fin neg n d e) (hn : n ≠ 0)
    (hx : (2 : ℝ) ^ (-128 : Int) < n * 2 ^ e) : FaithfulTo (sfuRcp false x) neg ((n : ℝ) * 2 ^ e)⁻¹ := by
  obtain ⟨-, hlt, -⟩ := decodeF_fp32_fin h
  have hpos := Nat.pos_of_ne_zero hn
  rw [sfuRcp_of_fin h hn, if_neg (by rwa [rcp_overflow_iff hpos, not_le])]
  have hval : ((1 : Nat) : ℝ) / n * 2 ^ (-e) = ((n : ℝ) * 2 ^ e)⁻¹ := by
    rw [Nat.cast_one, one_div, zpow_neg, mul_inv]
  exact faithfulTo_of_exact 2 x neg 1 hpos (-e) hval (inv_lt_real_maxPat hlt hx)

/-! vrsqrt -/

/-- The bit-by-bit root is the floor of the root. -/
theorem isqrt_spec {b n r : Nat} (hlo : r * r ≤ n) (hhi : n < (r + 2 ^ b) * (r + 2 ^ b)) :
    isqrt b n r * isqrt b n r ≤ n ∧ n < (isqrt b n r + 1) * (isqrt b n r + 1) := by
  induction b generalizing r with
  | zero => exact ⟨hlo, by simpa [isqrt] using hhi⟩
  | succ b ih =>
    rw [isqrt]
    split
    case isTrue h => exact ih h (by rwa [add_assoc, ← two_mul, ← pow_succ'])
    case isFalse h => exact ih hlo (not_le.1 h)

/-- The significand and the exponent of a value with an even exponent. -/
theorem eq_mul_sq_of_even_exponent (n : Nat) (e : Int) :
    (n : ℝ) * 2 ^ e = (if e % 2 = 0 then n else 2 * n : Nat) * (2 ^ (if e % 2 = 0 then e / 2 else (e - 1) / 2)) ^ 2 := by
  rw [← zpow_natCast, ← zpow_mul]
  split
  case isTrue h => rw [show e / 2 * (2 : Nat) = e by push_cast; omega]
  case isFalse h =>
    rw [show (e - 1) / 2 * (2 : Nat) = e - 1 by push_cast; omega, zpow_sub_one₀ two_ne_zero]
    push_cast
    ring

/-- A root of 1/X. -/
theorem inv_sqrt_eq_of_sq_mul {X y : ℝ} (hy : 0 < y) (h : y ^ 2 * X = 1) : (√X)⁻¹ = y := by
  rw [← Real.sqrt_inv, ← eq_inv_of_mul_eq_one_left h, Real.sqrt_sq hy.le]

theorem inv_sqrt_sq_mul {X : ℝ} (hX : 0 < X) : ((√X)⁻¹) ^ 2 * X = 1 := by
  rw [inv_pow, Real.sq_sqrt hX.le, inv_mul_cancel₀ hX.ne']

/-- Patterns with steps of at least u do not lie strictly between two neighbouring multiples of u. -/
theorem FFmt.real_le_of_lt_mul_succ {f : FFmt} {k r : Nat} {q : Int} (hstep : (2 : ℝ) ^ q ≤ f.real (k + 1) - f.real k) :
    (f.real k < (r + 1) * 2 ^ q → f.real k ≤ r * 2 ^ q) ∧ (r * 2 ^ q < f.real (k + 1) → (r + 1) * 2 ^ q ≤ f.real (k + 1)) := by
  obtain ⟨m, -, hm⟩ := f.exists_value_eq k
  have hk : f.real k = m * 2 ^ f.stepExp k := by
    rw [FFmt.real, hm]
    push_cast
    rfl
  have hq : q ≤ f.stepExp k := by
    rw [f.real_succ, add_sub_cancel_left] at hstep
    exact (zpow_le_zpow_iff_right₀ one_lt_two).1 hstep
  have hu : (0 : ℝ) < 2 ^ q := by positivity
  obtain ⟨N, hN⟩ := exists_nat_mul_two_zpow m hq
  obtain ⟨N', hN'⟩ := exists_nat_mul_two_zpow (m + 1) hq
  have hk' : f.real (k + 1) = N' * 2 ^ q := by
    rw [f.real_succ, hk, ← hN']
    push_cast
    ring
  rw [hk', hk, hN]
  refine ⟨fun h => ?_, fun h => ?_⟩
  · have hlt := lt_of_mul_lt_mul_right h hu.le
    have : N ≤ r := Nat.lt_succ_iff.1 (by exact_mod_cast hlt)
    gcongr
  · have hlt := lt_of_mul_lt_mul_right h hu.le
    have hle : r + 1 ≤ N' := by exact_mod_cast hlt
    have : ((r : ℝ) + 1) ≤ N' := by exact_mod_cast hle
    gcongr

theorem sfuRsqrt_of_fin {x : Nat} {n d : Nat} {e : Int} (h : decodeF .fp32 x = .fin false n d e) (hn : n ≠ 0) {m r : Nat} {g : Int}
    (hm : (if e % 2 = 0 then n else 2 * n) = m) (hg : (if e % 2 = 0 then e / 2 else (e - 1) / 2) = g) (hr : isqrt 120 (2 ^ 200 / m) 0 = r) :
    sfuRsqrt false x = if r * r * m = 2 ^ 200 then faithful 3 x false true (.fin false r 1 (-100 - g))
      else faithful 3 x false false (.fin false (2 * r + 1) 1 (-101 - g)) := by
  simp only [sfuRsqrt, fp32, h, ftzIn_false, hn, if_false, Bool.false_eq_true, hm, hg, hr]

/-- The root that `vrsqrt` computes has at least 87 bits. -/
theorem rsqrtRoot_spec {m : Nat} (hpos : 0 < m) (hlt : m < 2 ^ 25) {r : Nat} (hr : isqrt 120 (2 ^ 200 / m) 0 = r) :
    r * r * m ≤ 2 ^ 200 ∧ 2 ^ 200 < (r + 1) * (r + 1) * m ∧ 2 ^ 87 ≤ r ∧ r ≤ 2 ^ 100 := by
  have hdiv : 2 ^ 200 / m < (0 + 2 ^ 120) * (0 + 2 ^ 120) := (Nat.div_le_self _ _).trans_lt (by norm_num)
  obtain ⟨hlo, hhi⟩ := isqrt_spec (Nat.zero_le _) hdiv
  rw [hr] at hlo hhi
  rw [Nat.le_div_iff_mul_le hpos] at hlo
  rw [Nat.div_lt_iff_lt_mul hpos] at hhi
  refine ⟨hlo, hhi, ?_, ?_⟩
  · by_contra hsmall
    have hr1 : r + 1 ≤ 2 ^ 87 := by omega
    have : (r + 1) * (r + 1) * m ≤ 2 ^ 87 * 2 ^ 87 * 2 ^ 25 := by gcongr
    omega
  · by_contra hbig
    have hr1 : 2 ^ 100 + 1 ≤ r := by omega
    have : (2 ^ 100 + 1) * (2 ^ 100 + 1) * 1 ≤ r * r * m := Nat.mul_le_mul (Nat.mul_le_mul hr1 hr1) hpos
    omega

theorem sq_mul_scaled (r m : ℝ) (g : Int) : (r * 2 ^ (-100 - g)) ^ 2 * (m * (2 ^ g) ^ 2) = r * r * m / 2 ^ 200 := by
  have hg : (2 : ℝ) ^ g ≠ 0 := by positivity
  rw [zpow_sub₀ two_ne_zero, zpow_neg]
  field_simp

theorem rsqrt_lt_real_maxPat {r : Nat} (hr : r ≤ 2 ^ 100) {g : Int} (hg : -75 ≤ g) :
    ((r : ℝ) + 1) * 2 ^ (-100 - g) < FFmt.real .fp32 (FFmt.maxPat .fp32) := by
  have hr' : (r : ℝ) ≤ 2 ^ 100 := by exact_mod_cast hr
  have hg' : (2 : ℝ) ^ (-100 - g) ≤ 2 ^ (-25 : Int) := zpow_le_zpow_right₀ one_le_two (by omega)
  calc ((r : ℝ) + 1) * 2 ^ (-100 - g) ≤ (2 ^ 100 + 1) * 2 ^ (-25 : Int) := by gcongr
    _ < FFmt.real .fp32 (FFmt.maxPat .fp32) := by
      rw [FFmt.real_maxPat_fp32]
      norm_num

/-- A root of 2^200 / m that is a whole number is the reciprocal root. -/
theorem rsqrt_faithful_of_eq (x : Nat) {m r : Nat} {g : Int} (hr : r ≤ 2 ^ 100) (hg : -75 ≤ g) (heq : r * r * m = 2 ^ 200) :
    FaithfulTo (faithful 3 x false true (.fin false r 1 (-100 - g))) false (√((m : ℝ) * (2 ^ g) ^ 2))⁻¹ := by
  have hr0 : 0 < r := Nat.pos_of_ne_zero fun h => by simp [h] at heq
  have ht : (√((m : ℝ) * (2 ^ g) ^ 2))⁻¹ = r * 2 ^ (-100 - g) := by
    refine inv_sqrt_eq_of_sq_mul (by positivity) ?_
    rw [sq_mul_scaled, div_eq_one_iff_eq (by positivity)]
    exact_mod_cast heq
  have hu : (0 : ℝ) < 2 ^ (-100 - g) := by positivity
  have hlt := rsqrt_lt_real_maxPat hr hg
  rw [ht]
  exact faithfulTo_of_exact 3 x false r one_pos (-100 - g) (by simp) (by linarith)

/-- A root between r and r + 1 is the reciprocal root between the same patterns as r + 1/2, as those are multiples of the unit. -/
theorem rsqrt_faithful_of_between (x : Nat) {m r : Nat} {g : Int} (hm : 0 < m) (hr87 : 2 ^ 87 ≤ r) (hr100 : r ≤ 2 ^ 100) (hg : -75 ≤ g)
    (hlo : r * r * m < 2 ^ 200) (hhi : 2 ^ 200 < (r + 1) * (r + 1) * m) :
    FaithfulTo (faithful 3 x false false (.fin false (2 * r + 1) 1 (-101 - g))) false (√((m : ℝ) * (2 ^ g) ^ 2))⁻¹ := by
  have hX : (0 : ℝ) < m * (2 ^ g) ^ 2 := by positivity
  have hu : (0 : ℝ) < 2 ^ (-100 - g) := by positivity
  have htsq := inv_sqrt_sq_mul hX
  have htpos : 0 < (√((m : ℝ) * (2 ^ g) ^ 2))⁻¹ := by positivity
  generalize (√((m : ℝ) * (2 ^ g) ^ 2))⁻¹ = t at *
  have hrt : r * 2 ^ (-100 - g) < t := by
    refine lt_of_pow_lt_pow_left₀ 2 htpos.le (lt_of_mul_lt_mul_right ?_ hX.le)
    rw [htsq, sq_mul_scaled, div_lt_one (by positivity)]
    exact_mod_cast hlo
  have htr : t < (r + 1) * 2 ^ (-100 - g) := by
    refine lt_of_pow_lt_pow_left₀ 2 (by positivity) (lt_of_mul_lt_mul_right ?_ hX.le)
    rw [htsq, sq_mul_scaled, one_lt_div (by positivity)]
    exact_mod_cast hhi
  have hval : ((2 * r + 1 : Nat) : ℝ) / (1 : Nat) * 2 ^ (-101 - g) = (r + 1 / 2) * 2 ^ (-100 - g) := by
    rw [show -101 - g = -100 - g - 1 by ring, zpow_sub_one₀ two_ne_zero]
    push_cast
    ring
  have hbetween (lo : Nat) (hle : FFmt.real .fp32 lo ≤ (r + 1 / 2) * 2 ^ (-100 - g))
      (hlt : (r + 1 / 2) * 2 ^ (-100 - g) < FFmt.real .fp32 (lo + 1)) :
      FFmt.real .fp32 lo < t ∧ t < FFmt.real .fp32 (lo + 1) := by
    have hbig : (2 : ℝ) ^ (-77 - g) < FFmt.real .fp32 (lo + 1) := by
      have hr' : (2 : ℝ) ^ 23 ≤ r := by exact_mod_cast le_trans (by norm_num) hr87
      rw [show -77 - g = (23 : Nat) + (-100 - g) by push_cast; ring, zpow_add₀ two_ne_zero, zpow_natCast]
      exact lt_of_le_of_lt (by gcongr; linarith) hlt
    have hstep := FFmt.le_step_of_lt_real hbig
    rw [show -77 - g - (FFmt.man .fp32 : Nat) = -100 - g by simp [FFmt.man]; ring] at hstep
    obtain ⟨hbelow, habove⟩ := FFmt.real_le_of_lt_mul_succ (r := r) hstep
    exact ⟨(hbelow (by linarith)).trans_lt hrt, htr.trans_le (habove (by linarith))⟩
  have htop := rsqrt_lt_real_maxPat hr100 hg
  obtain ⟨k, hk, hres, hgap, hnx, -⟩ := faithful_between 3 x false false (2 * r + 1) one_pos (-101 - g) (t := t) hval (by linarith)
    fun lo hle hlt => ⟨(hbetween lo hle hlt).1.le, (hbetween lo hle hlt).2, iff_of_false (hbetween lo hle hlt).1.ne (by simp)⟩
  exact ⟨k, hk, hres, hgap, hnx⟩

theorem sfuRsqrt_faithful {x : Nat} {n d : Nat} {e : Int} (h : decodeF .fp32 x = .fin false n d e) (hn : n ≠ 0) :
    FaithfulTo (sfuRsqrt false x) false (√((n : ℝ) * 2 ^ e))⁻¹ := by
  obtain ⟨-, hn24, he⟩ := decodeF_fp32_fin h
  have hsplit := eq_mul_sq_of_even_exponent n e
  obtain ⟨m, hm⟩ : ∃ m, (if e % 2 = 0 then n else 2 * n) = m := ⟨_, rfl⟩
  obtain ⟨g, hg⟩ : ∃ g, (if e % 2 = 0 then e / 2 else (e - 1) / 2) = g := ⟨_, rfl⟩
  obtain ⟨r, hr⟩ : ∃ r, isqrt 120 (2 ^ 200 / m) 0 = r := ⟨_, rfl⟩
  have hm0 : 0 < m := by split at hm <;> omega
  have hm25 : m < 2 ^ 25 := by split at hm <;> omega
  have hg75 : -75 ≤ g := by split at hg <;> omega
  obtain ⟨hle, hlt, hr87, hr100⟩ := rsqrtRoot_spec hm0 hm25 hr
  rw [hsplit, sfuRsqrt_of_fin h hn hm hg hr, hm, hg]
  split
  case isTrue heq => exact rsqrt_faithful_of_eq x hr100 hg75 heq
  case isFalse hne => exact rsqrt_faithful_of_between x hm0 hr87 hr100 hg75 (lt_of_le_of_ne hle hne) hlt

end Sys2Proof.Machine
end

section
/-! O29: 2^x as the product of the roots of 2 that the bits of the fraction name, with the error that truncation leaves. -/

namespace Sys2Proof.Machine

/-- The unit of working precision of the special functions, as a real number. -/
noncomputable def sfuOne : ℝ := 2 ^ sfuBits

theorem one_le_sfuOne : 1 ≤ sfuOne := one_le_pow₀ one_le_two

theorem sfuOne_pos : 0 < sfuOne := zero_lt_one.trans_le one_le_sfuOne

theorem cast_two_pow_sfuBits : ((2 ^ sfuBits : Nat) : ℝ) = sfuOne := by
  rw [sfuOne]
  push_cast
  rfl

/-- The root is a lower bound of ρ that is at most two units too small. -/
structure RootBounds (root : Nat) (ρ : ℝ) : Prop where
  one_le : 1 ≤ ρ
  le_two : ρ ≤ 2
  unit_le : sfuOne ≤ root
  le : root ≤ ρ * sfuOne
  le_add : ρ * sfuOne ≤ root + 2

theorem rootBounds_two : RootBounds (2 ^ (sfuBits + 1)) 2 := by
  have h : ((2 ^ (sfuBits + 1) : Nat) : ℝ) = 2 * sfuOne := by rw [pow_succ', Nat.cast_mul, cast_two_pow_sfuBits, Nat.cast_ofNat]
  have hpos := sfuOne_pos
  exact ⟨one_le_two, le_rfl, by rw [h]; linarith, h.le, by rw [h]; linarith⟩

/-- Taking the root halves the relative error, and truncation adds less than one unit. -/
theorem RootBounds.sqrt {root : Nat} {ρ : ℝ} (h : RootBounds root ρ) :
    RootBounds (isqrt (sfuBits + 1) (root * 2 ^ sfuBits) 0) (√ρ) := by
  obtain ⟨hone, htwo, hunit, hle, hadd⟩ := h
  have hU := one_le_sfuOne
  have hU0 := sfuOne_pos
  have hρ : √ρ * √ρ = ρ := Real.mul_self_sqrt (by linarith)
  have hρ1 : 1 ≤ √ρ := Real.one_le_sqrt.2 hone
  have hbound : root * 2 ^ sfuBits < (0 + 2 ^ (sfuBits + 1)) * (0 + 2 ^ (sfuBits + 1)) := by
    have hreal : (root : ℝ) * sfuOne < (2 * sfuOne) * (2 * sfuOne) := by nlinarith
    rw [zero_add, pow_succ']
    rw [← cast_two_pow_sfuBits] at hreal
    exact_mod_cast hreal
  obtain ⟨hlo, hhi⟩ := isqrt_spec (Nat.zero_le _) hbound
  generalize isqrt (sfuBits + 1) (root * 2 ^ sfuBits) 0 = s at *
  have hlo' : (s : ℝ) * s ≤ root * sfuOne := by
    rw [← cast_two_pow_sfuBits]
    exact_mod_cast hlo
  have hhi' : (root : ℝ) * sfuOne + 1 ≤ (s + 1) * (s + 1) := by
    rw [← cast_two_pow_sfuBits]
    exact_mod_cast Nat.succ_le_of_lt hhi
  have hs : (0 : ℝ) ≤ s := by positivity
  have hsq : (√ρ * sfuOne) ^ 2 = ρ * sfuOne * sfuOne := by rw [mul_pow, sq (√ρ), hρ, sq, mul_assoc]
  refine ⟨hρ1, ?_, ?_, ?_, ?_⟩
  · rw [Real.sqrt_le_left (by norm_num)]
    linarith
  · rw [← cast_two_pow_sfuBits] at hunit ⊢
    have hnat : 2 ^ sfuBits ≤ root := by exact_mod_cast hunit
    have : 2 ^ sfuBits * 2 ^ sfuBits < (s + 1) * (s + 1) := (Nat.mul_le_mul_right _ hnat).trans_lt hhi
    exact_mod_cast Nat.lt_succ_iff.1 (Nat.mul_self_lt_mul_self_iff.1 this)
  · refine le_of_sq_le_sq ?_ (by positivity)
    calc (s : ℝ) ^ 2 = s * s := sq _
      _ ≤ ρ * sfuOne * sfuOne := hlo'.trans (by gcongr)
      _ = (√ρ * sfuOne) ^ 2 := hsq.symm
  · by_contra hgt
    have hw : sfuOne ≤ √ρ * sfuOne := le_mul_of_one_le_left hU0.le hρ1
    have hnext : ρ * sfuOne * sfuOne ≤ (s + 1) * (s + 1) - 1 + 2 * sfuOne := by nlinarith
    generalize √ρ * sfuOne = w at *
    nlinarith

/-- What the bits of a fraction contribute, most significant first. -/
theorem eq_bit_add_mod {n b : Nat} (h : n < 2 ^ (b + 1)) : n = (if bit n b then 2 ^ b else 0) + n % 2 ^ b := by
  have hdiv := Nat.div_add_mod n (2 ^ b)
  split
  case isTrue hb => rw [(bit_true_iff h).1 hb, mul_one] at hdiv; exact hdiv.symm
  case isFalse hb =>
    have hlt : n / 2 ^ b < 2 := by rwa [Nat.div_lt_iff_lt_mul (by positivity), ← pow_succ']
    rw [bit_true_iff h] at hb
    have hz : n / 2 ^ b = 0 := by
      generalize n / 2 ^ b = q at *
      omega
    rw [hz, mul_zero] at hdiv
    exact hdiv.symm

/-- One factor: the product is truncated to a unit, and the root was at most two units too small. -/
theorem mul_root_bounds {root acc : Nat} {ρ : ℝ} (h : RootBounds root ρ) (hacc : sfuOne ≤ acc) :
    sfuOne ≤ (acc * root / 2 ^ sfuBits : Nat) ∧ ((acc * root / 2 ^ sfuBits : Nat) : ℝ) ≤ acc * ρ
      ∧ acc * ρ ≤ (acc * root / 2 ^ sfuBits : Nat) * (1 + 5 / sfuOne) := by
  obtain ⟨hone, -, hunit, hle, hadd⟩ := h
  have hU0 := sfuOne_pos
  have hU1 := one_le_sfuOne
  have hlo : ((acc * root / 2 ^ sfuBits : Nat) : ℝ) * sfuOne ≤ acc * root := by
    rw [← cast_two_pow_sfuBits]
    exact_mod_cast Nat.div_mul_le_self _ _
  have hhi : (acc : ℝ) * root < ((acc * root / 2 ^ sfuBits : Nat) + 1) * sfuOne := by
    rw [← cast_two_pow_sfuBits, add_one_mul]
    exact_mod_cast Nat.lt_div_mul_add (Nat.two_pow_pos sfuBits)
  have hq : sfuOne ≤ (acc * root / 2 ^ sfuBits : Nat) := by
    rw [← cast_two_pow_sfuBits] at hunit hacc ⊢
    have hroot : 2 ^ sfuBits ≤ root := by exact_mod_cast hunit
    have hacc' : 2 ^ sfuBits ≤ acc := by exact_mod_cast hacc
    exact_mod_cast (Nat.le_div_iff_mul_le (Nat.two_pow_pos sfuBits)).2 (Nat.mul_le_mul hacc' hroot)
  generalize ((acc * root / 2 ^ sfuBits : Nat) : ℝ) = q at *
  have hacc0 : (0 : ℝ) ≤ acc := by positivity
  have hup : (acc : ℝ) * root ≤ acc * (ρ * sfuOne) := by gcongr
  have hdown : acc * (ρ * sfuOne) ≤ acc * (root + 2) := by gcongr
  have hacclt : (acc : ℝ) < q + 1 := by
    have : (acc : ℝ) * sfuOne ≤ acc * root := by gcongr
    exact lt_of_mul_lt_mul_right (this.trans_lt hhi) hU0.le
  refine ⟨hq, le_of_mul_le_mul_right (a := sfuOne) (by linarith) hU0, le_of_mul_le_mul_right (a := sfuOne) ?_ hU0⟩
  calc acc * ρ * sfuOne ≤ (q + 1) * sfuOne + 2 * (q + 1) := by linarith
    _ ≤ q * (sfuOne + 5) := by linarith
    _ = q * (1 + 5 / sfuOne) * sfuOne := by field_simp

theorem exp2Frac_bounds {b n root acc : Nat} {ρ : ℝ} (hn : n < 2 ^ b) (h : RootBounds root ρ) (hacc : sfuOne ≤ acc) :
    sfuOne ≤ exp2Frac b n root acc ∧ exp2Frac b n root acc ≤ acc * ρ ^ ((n : ℝ) / 2 ^ b)
      ∧ acc * ρ ^ ((n : ℝ) / 2 ^ b) ≤ exp2Frac b n root acc * (1 + 5 / sfuOne) ^ b := by
  induction b generalizing n root acc ρ with
  | zero =>
    obtain rfl : n = 0 := by simpa using hn
    simpa [exp2Frac] using hacc
  | succ b ih =>
    have hroot := h.sqrt
    have hmod : n % 2 ^ b < 2 ^ b := Nat.mod_lt _ (by positivity)
    have hρ' : 0 < √ρ := zero_lt_one.trans_le hroot.one_le
    have hsplit : ρ ^ ((n : ℝ) / 2 ^ (b + 1)) = (if bit n b then √ρ else 1) * √ρ ^ (((n % 2 ^ b : Nat) : ℝ) / 2 ^ b) := by
      have hsum : (n : ℝ) / 2 ^ b = (if bit n b then 1 else 0) + ((n % 2 ^ b : Nat) : ℝ) / 2 ^ b := by
        have hnat : (n : ℝ) = (if bit n b then 2 ^ b else 0) + ((n % 2 ^ b : Nat) : ℝ) := by exact_mod_cast eq_bit_add_mod hn
        rw [div_eq_iff (by positivity), add_mul, div_mul_cancel₀ _ (by positivity), ite_mul, one_mul, zero_mul]
        exact hnat
      have hhalf : ρ ^ ((n : ℝ) / 2 ^ (b + 1)) = √ρ ^ ((n : ℝ) / 2 ^ b) := by
        rw [Real.sqrt_eq_rpow, ← Real.rpow_mul (zero_le_one.trans h.one_le)]
        congr 1
        rw [pow_succ]
        field_simp
      rw [hhalf, hsum, Real.rpow_add hρ']
      split
      · rw [Real.rpow_one]
      · rw [Real.rpow_zero]
    have hpow : 0 < √ρ ^ (((n % 2 ^ b : Nat) : ℝ) / 2 ^ b) := Real.rpow_pos_of_pos hρ' _
    have hfac : 1 ≤ 1 + 5 / sfuOne := le_add_of_nonneg_right (by have := sfuOne_pos; positivity)
    rw [exp2Frac, hsplit]
    by_cases hbit : bit n b = true
    · obtain ⟨hacc', hle, hge⟩ := mul_root_bounds hroot hacc
      obtain ⟨h1, h2, h3⟩ := ih hmod hroot hacc'
      simp only [if_pos hbit, ← mul_assoc]
      refine ⟨h1, h2.trans (by gcongr), ?_⟩
      rw [pow_succ, ← mul_assoc]
      calc _ ≤ (acc * isqrt (sfuBits + 1) (root * 2 ^ sfuBits) 0 / 2 ^ sfuBits : Nat) * (1 + 5 / sfuOne)
            * √ρ ^ (((n % 2 ^ b : Nat) : ℝ) / 2 ^ b) := by gcongr
        _ = (acc * isqrt (sfuBits + 1) (root * 2 ^ sfuBits) 0 / 2 ^ sfuBits : Nat)
            * √ρ ^ (((n % 2 ^ b : Nat) : ℝ) / 2 ^ b) * (1 + 5 / sfuOne) := mul_right_comm _ _ _
        _ ≤ _ := by gcongr
    · obtain ⟨h1, h2, h3⟩ := ih hmod hroot hacc
      simp only [if_neg hbit, one_mul]
      exact ⟨h1, h2, h3.trans (by gcongr; exact Nat.le_succ b)⟩

/-- (1 + t)^b for a small t. -/
theorem one_add_pow_le {t : ℝ} (h0 : 0 ≤ t) (h1 : t ≤ 1) (b : Nat) : (1 + t) ^ b ≤ 1 + (2 ^ b - 1) * t := by
  induction b with
  | zero => simp
  | succ b ih =>
    have hb : (1 : ℝ) ≤ 2 ^ b := one_le_pow₀ one_le_two
    calc (1 + t) ^ (b + 1) ≤ (1 + (2 ^ b - 1) * t) * (1 + t) := by rw [pow_succ]; gcongr
      _ = 1 + 2 ^ b * t + (2 ^ b - 1) * (t * t) := by ring
      _ ≤ 1 + 2 ^ b * t + (2 ^ b - 1) * (t * 1) := by gcongr
      _ = 1 + (2 ^ (b + 1) - 1) * t := by ring

/-- The whole fraction, with the error as a part of the value. -/
theorem exp2Frac_near {b n : Nat} (hn : n < 2 ^ b) {a : ℝ}
    (ha : (exp2Frac b n (2 ^ (sfuBits + 1)) (2 ^ sfuBits) : ℝ) / sfuOne = a) :
    1 ≤ a ∧ a ≤ 2 ^ ((n : ℝ) / 2 ^ b) ∧ (2 : ℝ) ^ ((n : ℝ) / 2 ^ b) ≤ a * (1 + (2 ^ b - 1) * (5 / sfuOne)) := by
  obtain ⟨h1, h2, h3⟩ := exp2Frac_bounds (acc := 2 ^ sfuBits) hn rootBounds_two (by rw [cast_two_pow_sfuBits])
  generalize exp2Frac b n (2 ^ (sfuBits + 1)) (2 ^ sfuBits) = A at *
  have hU := sfuOne_pos
  have hsmall : 5 / sfuOne ≤ 1 := by
    rw [div_le_one hU]
    norm_num [sfuOne, sfuBits]
  rw [div_eq_iff hU.ne'] at ha
  rw [ha, cast_two_pow_sfuBits] at h2 h3
  rw [ha] at h1
  generalize (2 : ℝ) ^ ((n : ℝ) / 2 ^ b) = y at *
  have h0 : 0 ≤ a := by nlinarith
  refine ⟨by nlinarith, le_of_mul_le_mul_right (by linarith) hU, ?_⟩
  have hpow := one_add_pow_le (t := 5 / sfuOne) (by positivity) hsmall b
  refine le_trans (le_of_mul_le_mul_left (a := sfuOne) ?_ hU) (mul_le_mul_of_nonneg_left hpow h0)
  linarith

/-! vexp2 -/

theorem sfuExp2_of_fin {x : Nat} {neg : Bool} {n d : Nat} {e : Int} (h : decodeF .fp32 x = .fin neg n d e) (hn : n ≠ 0) {b f : Nat}
    {i : Int} (hb : (-e).toNat = b) (hi : signedNum neg (n * 2 ^ e.toNat) / 2 ^ b = i)
    (hf : (signedNum neg (n * 2 ^ e.toNat) % 2 ^ b).toNat = f) :
    sfuExp2 false x = if 7 ≤ floorLog2 n 1 e ∧ neg = false then (FFmt.infPat .fp32, flOF ||| flNX)
      else if 8 ≤ floorLog2 n 1 e then faithful 0 x false true (.fin false 1 1 (-400))
      else if f = 0 then faithful 0 x false true (.fin false 1 1 i)
      else faithful 0 x false false (.fin false (2 * exp2Frac b f (2 ^ (sfuBits + 1)) (2 ^ sfuBits) + 1) 1 (i - sfuBits - 1)) := by
  subst hb hi hf
  simp only [sfuExp2, fp32, h, ftzIn_false, hn, if_false, signedNum] <;> rfl

/-- The argument as its floor and a fraction of b bits. -/
theorem exp2_argument (neg : Bool) (n : Nat) (e : Int) {b f : Nat} {i : Int} (hb : (-e).toNat = b)
    (hi : signedNum neg (n * 2 ^ e.toNat) / 2 ^ b = i) (hf : (signedNum neg (n * 2 ^ e.toNat) % 2 ^ b).toNat = f) :
    (signedNum neg n : ℝ) * 2 ^ e = i + f / 2 ^ b ∧ f < 2 ^ b := by
  have hpow : (0 : Int) < 2 ^ b := by positivity
  have hdm := Int.mul_ediv_add_emod (signedNum neg (n * 2 ^ e.toNat)) (2 ^ b)
  have hlt := Int.emod_lt_of_pos (signedNum neg (n * 2 ^ e.toNat)) hpow
  have hmod : signedNum neg (n * 2 ^ e.toNat) % 2 ^ b = f := by
    rw [← hf, Int.toNat_of_nonneg (Int.emod_nonneg _ hpow.ne')]
  rw [hmod] at hdm hlt
  rw [hi] at hdm
  refine ⟨?_, by exact_mod_cast hlt⟩
  have hscale : (signedNum neg n : ℝ) * 2 ^ e * 2 ^ b = (signedNum neg (n * 2 ^ e.toNat) : Int) := by
    have he : (2 : ℝ) ^ e * 2 ^ b = 2 ^ e.toNat := by
      rw [← zpow_natCast, ← zpow_natCast, ← zpow_add₀ two_ne_zero]
      congr 1
      omega
    rw [mul_assoc, he]
    cases neg <;> simp [signedNum]
  refine mul_right_cancel₀ (b := (2 : ℝ) ^ b) (by positivity) ?_
  rw [hscale, ← hdm, add_mul, div_mul_cancel₀ _ (by positivity)]
  push_cast
  ring

theorem signed_false (f : FFmt) (k : Nat) : f.signed false k = k := by simp [FFmt.signed, b2n]

theorem exists_real_of_significand {i : Int} (hi : -149 ≤ i) {m : Nat} (hm : m < 2 ^ 24) : ∃ k, FFmt.real .fp32 k = m * 2 ^ i := by
  obtain ⟨k, hk⟩ := FFmt.exists_value_of_significand .fp32 (i + 149).toNat (m := m) hm
  refine ⟨k, ?_⟩
  rw [FFmt.real, hk, show (((i + 149).toNat : Int) + FFmt.emin .fp32 - FFmt.man .fp32 : Int) = i by
    simp only [FFmt.emin, FFmt.bias, FFmt.ebits, FFmt.man]; omega]
  push_cast
  rfl

/-- A power of two in range is the result. -/
theorem faithful_exp2_of_int (x : Nat) {i : Int} (hlo : -149 ≤ i) (hhi : i ≤ 127) :
    ∃ k ≤ FFmt.maxPat .fp32, (faithful 0 x false true (.fin false 1 1 i)).1 = k ∧ FFmt.real .fp32 k = 2 ^ i
      ∧ (faithful 0 x false true (.fin false 1 1 i)).2.getLsbD 4 = false := by
  obtain ⟨j, hj⟩ := exists_real_of_significand hlo (m := 1) (by norm_num)
  rw [Nat.cast_one, one_mul] at hj
  have htop : (2 : ℝ) ^ i < FFmt.real .fp32 (FFmt.maxPat .fp32) := by
    have : (2 : ℝ) ^ i ≤ 2 ^ (127 : Int) := zpow_le_zpow_right₀ one_le_two hhi
    rw [FFmt.real_maxPat_fp32]
    exact this.trans_lt (by norm_num)
  obtain ⟨k, hk, hres, -, hnx, heq⟩ := faithful_between 0 x true false 1 one_pos i (v := 2 ^ i) (t := 2 ^ i) (by simp) htop
    fun lo hlo hhi => ⟨hlo, hhi, by simp⟩
  have hval := heq j hj
  rw [signed_false] at hres
  exact ⟨k, hk, hres, hval, by rw [← Bool.not_eq_true, hnx, not_not]; exact hval⟩

theorem FFmt.real_zero (f : FFmt) : f.real 0 = 0 := by rw [FFmt.real, f.value_zero, Rat.cast_zero]

theorem FFmt.real_one_fp32 : FFmt.real .fp32 1 = 2 ^ (-149 : Int) := by
  have h := FFmt.real_succ .fp32 0
  rwa [FFmt.real_zero, zero_add, zero_add] at h

/-- Below the least subnormal value both neighbours are nearer than a step. -/
theorem faithful_exp2_of_tiny (x : Nat) {i : Int} (hi : i < -149) {t : ℝ} (h0 : 0 < t) (ht : t < 2 ^ (-149 : Int)) :
    ∃ k ≤ FFmt.maxPat .fp32, (faithful 0 x false true (.fin false 1 1 i)).1 = k
      ∧ |FFmt.real .fp32 k - t| < FFmt.real .fp32 (k + 1) - FFmt.real .fp32 k
      ∧ (faithful 0 x false true (.fin false 1 1 i)).2.getLsbD 4 = true := by
  have hone := FFmt.real_one_fp32
  have hzero := FFmt.real_zero .fp32
  have hv : (2 : ℝ) ^ i < FFmt.real .fp32 1 := by rw [hone]; exact zpow_lt_zpow_right₀ one_lt_two hi
  have hpos : (0 : ℝ) < 2 ^ i := by positivity
  have hbetween (lo : Nat) (hlo : FFmt.real .fp32 lo ≤ 2 ^ i) (_ : 2 ^ i < FFmt.real .fp32 (lo + 1)) :
      FFmt.real .fp32 lo ≤ t ∧ t < FFmt.real .fp32 (lo + 1)
        ∧ (FFmt.real .fp32 lo = t ↔ true = true ∧ FFmt.real .fp32 lo = 2 ^ i) := by
    obtain rfl : lo = 0 := Nat.lt_one_iff.1 ((FFmt.real_strictMono .fp32).lt_iff_lt.1 (hlo.trans_lt hv))
    rw [hzero, zero_add, hone]
    exact ⟨h0.le, ht, iff_of_false h0.ne fun h => hpos.ne h.2⟩
  obtain ⟨k, hk, hres, hgap, hnx, -⟩ := faithful_between 0 x true false 1 one_pos i (v := 2 ^ i) (by simp)
    (hv.trans ((FFmt.real_strictMono .fp32) (by decide))) hbetween
  rw [signed_false] at hres
  refine ⟨k, hk, hres, hgap, hnx.2 fun heq => ?_⟩
  obtain rfl : k = 0 := Nat.lt_one_iff.1 ((FFmt.real_strictMono .fp32).lt_iff_lt.1 (by rwa [heq, hone]))
  rw [hzero] at heq
  exact h0.ne heq

/-- Bounds of the relative error that b factors leave. -/
theorem exp2_error_small {b : Nat} (hb : b ≤ 149) : ((2 : ℝ) ^ b - 1) * (5 / sfuOne) ≤ 2 ^ (-104 : Int) := by
  have hpow : (2 : ℝ) ^ b ≤ 2 ^ 149 := pow_le_pow_right₀ one_le_two hb
  calc ((2 : ℝ) ^ b - 1) * (5 / sfuOne) ≤ 2 ^ 149 * (5 / sfuOne) :=
        mul_le_mul_of_nonneg_right ((sub_le_self _ zero_le_one).trans hpow) (div_nonneg (by norm_num) sfuOne_pos.le)
    _ ≤ 2 ^ (-104 : Int) := by norm_num [sfuOne, sfuBits]

/-- The largest value of `vexp2` on a pattern below 128 stays clear of the largest finite one. -/
theorem two_rpow_le_of_le {X : ℝ} (hX : X ≤ 128 - 2 ^ (-17 : Int)) : (2 : ℝ) ^ X ≤ 2 ^ (128 : Int) * (1 - 2 ^ (-18 : Int)) := by
  have hbern := rpow_one_add_le_one_add_mul_self (s := -1 / 2) (p := 2 ^ (-17 : Int)) (by norm_num) (by positivity) (by norm_num)
  rw [show (1 : ℝ) + -1 / 2 = 2⁻¹ by norm_num, Real.inv_rpow two_pos.le, ← Real.rpow_neg two_pos.le] at hbern
  calc (2 : ℝ) ^ X ≤ 2 ^ ((128 : Int) + -2 ^ (-17 : Int) : ℝ) := Real.rpow_le_rpow_of_exponent_le one_le_two (by push_cast; linarith)
    _ = 2 ^ (128 : Int) * 2 ^ (-2 ^ (-17 : Int) : ℝ) := by rw [Real.rpow_add two_pos, Real.rpow_intCast]
    _ ≤ 2 ^ (128 : Int) * (1 - 2 ^ (-18 : Int)) := by
      gcongr
      refine hbern.trans ?_
      norm_num

/-- The value that is rounded for 2^(i + f / 2^b): a lower bound of it in units of 2^(i − 256), and half a unit. It is at least 2^i and
very near the exact one. -/
theorem exp2_near {i : Int} {b f : Nat} (hb : b ≤ 149) (hf : f < 2 ^ b) {A : Nat}
    (hA : exp2Frac b f (2 ^ (sfuBits + 1)) (2 ^ sfuBits) = A) {v : ℝ}
    (hv : ((2 * A + 1 : Nat) : ℝ) / (1 : Nat) * 2 ^ (i - sfuBits - 1) = v) :
    2 ^ i ≤ v ∧ (2 : ℝ) ^ i ≤ 2 ^ ((i : ℝ) + f / 2 ^ b) ∧ |v - 2 ^ ((i : ℝ) + f / 2 ^ b)| ≤ 2 ^ i * 2 ^ (-100 : Int) := by
  obtain ⟨a, ha⟩ : ∃ a : ℝ, (A : ℝ) / sfuOne = a := ⟨_, rfl⟩
  rw [← hA] at ha
  obtain ⟨ha1, hay, hya⟩ := exp2Frac_near hf ha
  rw [hA] at ha
  have hU := sfuOne_pos
  have ht : (2 : ℝ) ^ ((i : ℝ) + f / 2 ^ b) = 2 ^ i * 2 ^ ((f : ℝ) / 2 ^ b) := by
    rw [Real.rpow_add two_pos, Real.rpow_intCast]
  have hva : v = 2 ^ i * (a + 1 / 2 / sfuOne) := by
    rw [← hv, zpow_sub_one₀ two_ne_zero, zpow_sub₀ two_ne_zero, zpow_natCast, ← ha, ← sfuOne]
    push_cast
    field_simp
  have hε := exp2_error_small hb
  have hδ : 1 / 2 / sfuOne ≤ 2 ^ (-104 : Int) := by norm_num [sfuOne, sfuBits]
  have hδ0 : 0 ≤ 1 / 2 / sfuOne := by positivity
  have hy2 : (2 : ℝ) ^ ((f : ℝ) / 2 ^ b) ≤ 2 := by
    refine (Real.rpow_le_rpow_of_exponent_le one_le_two ?_).trans_eq (Real.rpow_one 2)
    rw [div_le_one (by positivity)]
    exact_mod_cast hf.le
  rw [ht, hva]
  generalize (2 : ℝ) ^ ((f : ℝ) / 2 ^ b) = y at *
  generalize ((2 : ℝ) ^ b - 1) * (5 / sfuOne) = ε at *
  generalize 1 / 2 / sfuOne = δ at *
  have hi : (0 : ℝ) < 2 ^ i := by positivity
  refine ⟨le_mul_of_one_le_right hi.le (by linarith), le_mul_of_one_le_right hi.le (ha1.trans hay), ?_⟩
  have hya' : y ≤ a + 2 * 2 ^ (-104 : Int) := by nlinarith
  rw [← mul_sub, abs_mul, abs_of_pos hi]
  refine mul_le_mul_of_nonneg_left (abs_le.2 ⟨?_, ?_⟩) hi.le
  · norm_num at hya' ⊢
    linarith
  · norm_num at hδ ⊢
    linarith

/-- Between two integers the result is a neighbour of a close lower bound. -/
theorem faithful_exp2_of_frac (x : Nat) {i : Int} {b f : Nat} (hb : b ≤ 149) (hf : f < 2 ^ b)
    (htop : (i : ℝ) + f / 2 ^ b ≤ 128 - 2 ^ (-17 : Int)) {A : Nat} (hA : exp2Frac b f (2 ^ (sfuBits + 1)) (2 ^ sfuBits) = A) :
    ∃ k ≤ FFmt.maxPat .fp32, (faithful 0 x false false (.fin false (2 * A + 1) 1 (i - sfuBits - 1))).1 = k
      ∧ |FFmt.real .fp32 k - (2 : ℝ) ^ ((i : ℝ) + f / 2 ^ b)| < (FFmt.real .fp32 (k + 1) - FFmt.real .fp32 k) * (1 + 2 ^ (-32 : Int))
      ∧ (faithful 0 x false false (.fin false (2 * A + 1) 1 (i - sfuBits - 1))).2.getLsbD 4 = true := by
  obtain ⟨v, hv⟩ : ∃ v : ℝ, ((2 * A + 1 : Nat) : ℝ) / (1 : Nat) * 2 ^ (i - sfuBits - 1) = v := ⟨_, rfl⟩
  obtain ⟨hiv, hit, hnear⟩ := exp2_near hb hf hA hv
  have hlow := two_rpow_le_of_le htop
  generalize (2 : ℝ) ^ ((i : ℝ) + f / 2 ^ b) = t at *
  have hvtop : v < FFmt.real .fp32 (FFmt.maxPat .fp32) := by
    have hle := (abs_le.1 hnear).2
    rw [FFmt.real_maxPat_fp32]
    norm_num at hlow hle ⊢
    linarith
  have hstep (lo : Nat) (hlo : v < FFmt.real .fp32 (lo + 1)) :
      |v - t| < (FFmt.real .fp32 (lo + 1) - FFmt.real .fp32 lo) * 2 ^ (-32 : Int) := by
    have hgap := FFmt.le_step_of_lt_real (f := .fp32) (hiv.trans_lt hlo)
    rw [zpow_sub₀ two_ne_zero, show ((FFmt.man .fp32 : Nat) : Int) = 23 from rfl] at hgap
    calc _ ≤ 2 ^ i * 2 ^ (-100 : Int) := hnear
      _ < 2 ^ i / 2 ^ (23 : Int) * 2 ^ (-32 : Int) := by
        rw [div_mul_eq_mul_div, mul_div_assoc]
        gcongr
        norm_num
      _ ≤ _ := by gcongr
  obtain ⟨k, hk, hres, hgap, hnx⟩ := faithful_near 0 x false (2 * A + 1) one_pos (i - sfuBits - 1) (δ := 2 ^ (-32 : Int)) hv hvtop
    (by positivity) hstep
  exact ⟨k, hk, by rw [hres, signed_false], hgap, hnx⟩

theorem FFmt.step_pos (f : FFmt) (k : Nat) : 0 < f.real (k + 1) - f.real k := sub_pos.2 (f.real_strictMono (Nat.lt_succ_self k))

theorem FFmt.lt_step_mul {f : FFmt} {k : Nat} {d δ : ℝ} (hδ : 0 ≤ δ) (h : d < f.real (k + 1) - f.real k) :
    d < (f.real (k + 1) - f.real k) * (1 + δ) := by
  have := f.step_pos k
  nlinarith

/-- A pattern below 128 is at most the one before it. -/
theorem exp2_argument_le {neg : Bool} {n : Nat} (hn : n < 2 ^ 24) {e : Int} (h : (signedNum neg n : ℝ) * 2 ^ e < 128) :
    (signedNum neg n : ℝ) * 2 ^ e ≤ 128 - 2 ^ (-17 : Int) := by
  cases neg
  · have hlt : (n : ℝ) * 2 ^ e < 2 ^ (7 : Int) := by
      norm_num
      simpa [signedNum] using h
    have hle := le_sub_of_lt_two_zpow hn (by norm_num) hlt
    norm_num [signedNum] at hle ⊢
    exact hle
  · have hpos : (0 : ℝ) ≤ n * 2 ^ e := by positivity
    norm_num [signedNum]
    linarith

/-- What `vexp2` gives below its range limit (R88, R89): little more than a step from 2^X, and without NX exactly on the integers whose
power is a value of fp32. -/
def Exp2Faithful (r : Nat × Flags) (X : ℝ) : Prop :=
  ∃ k ≤ FFmt.maxPat .fp32, r.1 = k
    ∧ |FFmt.real .fp32 k - (2 : ℝ) ^ X| < (FFmt.real .fp32 (k + 1) - FFmt.real .fp32 k) * (1 + 2 ^ (-32 : Int))
    ∧ (r.2.getLsbD 4 = false ↔ ∃ i : Int, X = i ∧ -149 ≤ i) ∧ ∀ i : Int, X = i → -149 ≤ i → FFmt.real .fp32 k = (2 : ℝ) ^ X

/-- Below −149 the result does not depend on which small power of two stands for 2^X. -/
theorem exp2Faithful_of_tiny (x : Nat) {i : Int} (hi : i < -149) {X : ℝ} (hX : X < -149) :
    Exp2Faithful (faithful 0 x false true (.fin false 1 1 i)) X := by
  have ht : (2 : ℝ) ^ X < 2 ^ (-149 : Int) := by
    rw [← Real.rpow_intCast]
    exact Real.rpow_lt_rpow_of_exponent_lt one_lt_two (by push_cast; exact hX)
  obtain ⟨k, hk, hres, hgap, hnx⟩ := faithful_exp2_of_tiny x hi (Real.rpow_pos_of_pos two_pos X) ht
  have hnone (j : Int) (hj : X = j) (hge : -149 ≤ j) : False := by
    have : (-149 : ℝ) ≤ j := by exact_mod_cast hge
    linarith
  exact ⟨k, hk, hres, FFmt.lt_step_mul (by positivity) hgap, iff_of_false (by simp [hnx]) fun ⟨j, hj, hge⟩ => hnone j hj hge,
    fun j hj hge => (hnone j hj hge).elim⟩

theorem exp2Faithful_of_int (x : Nat) {i : Int} (hlo : -149 ≤ i) (hhi : i ≤ 127) :
    Exp2Faithful (faithful 0 x false true (.fin false 1 1 i)) i := by
  obtain ⟨k, hk, hres, hval, hnx⟩ := faithful_exp2_of_int x hlo hhi
  rw [← Real.rpow_intCast] at hval
  refine ⟨k, hk, hres, FFmt.lt_step_mul (by positivity) ?_, iff_of_true hnx ⟨i, rfl, hlo⟩, fun _ _ _ => hval⟩
  rw [hval, sub_self, abs_zero, ← hval]
  exact FFmt.step_pos _ k

/-- A number strictly between two neighbouring integers is none. -/
theorem ne_intCast_of_frac {i : Int} {b f : Nat} (hf0 : f ≠ 0) (hf : f < 2 ^ b) (j : Int) : (i : ℝ) + f / 2 ^ b ≠ j := by
  intro hj
  have hf1 : (f : ℝ) / 2 ^ b < 1 := by
    rw [div_lt_one (by positivity)]
    exact_mod_cast hf
  have hfpos : (0 : ℝ) < f / 2 ^ b := by
    have := Nat.pos_of_ne_zero hf0
    positivity
  have h1 : (i : ℝ) < j := by linarith
  have h2 : (j : ℝ) < (i + 1 : Int) := by push_cast; linarith
  rw [Int.cast_lt] at h1 h2
  omega

theorem sfuExp2_faithful {x : Nat} {neg : Bool} {n d : Nat} {e : Int} (h : decodeF .fp32 x = .fin neg n d e) (hn : n ≠ 0) {X : ℝ}
    (hX : (signedNum neg n : ℝ) * 2 ^ e = X) (hlt : X < 128) : Exp2Faithful (sfuExp2 false x) X := by
  obtain ⟨-, hn24, he⟩ := decodeF_fp32_fin h
  have hpos := Nat.pos_of_ne_zero hn
  obtain ⟨b, hb⟩ : ∃ b, (-e).toNat = b := ⟨_, rfl⟩
  obtain ⟨i, hi⟩ : ∃ i, signedNum neg (n * 2 ^ e.toNat) / 2 ^ b = i := ⟨_, rfl⟩
  obtain ⟨f, hf⟩ : ∃ f, (signedNum neg (n * 2 ^ e.toNat) % 2 ^ b).toNat = f := ⟨_, rfl⟩
  have hres := sfuExp2_of_fin h hn hb hi hf
  obtain ⟨harg, hf2⟩ := exp2_argument neg n e hb hi hf
  rw [hX] at harg
  have h7 : ¬ (7 ≤ floorLog2 n 1 e ∧ neg = false) := by
    rintro ⟨hge, rfl⟩
    rw [le_floorLog2_iff_real hpos] at hge
    norm_num [signedNum] at hge hX
    linarith
  rw [if_neg h7] at hres
  rw [hres]
  by_cases h8 : 8 ≤ floorLog2 n 1 e
  · rw [if_pos h8]
    refine exp2Faithful_of_tiny x (by norm_num) ?_
    have hneg : neg = true := by
      rw [← Bool.not_eq_false]
      exact fun hfalse => h7 ⟨by omega, hfalse⟩
    rw [le_floorLog2_iff_real hpos] at h8
    norm_num [signedNum, hneg] at h8 hX
    linarith
  · rw [if_neg h8]
    by_cases hf0 : f = 0
    · rw [if_pos hf0]
      rw [hf0, Nat.cast_zero, zero_div, add_zero] at harg
      by_cases hlow : -149 ≤ i
      · have hi127 : i < 128 := by
          rw [harg] at hlt
          exact_mod_cast hlt
        rw [harg]
        exact exp2Faithful_of_int x hlow (by omega)
      · refine exp2Faithful_of_tiny x (by omega) ?_
        rw [harg]
        exact_mod_cast not_le.1 hlow
    · rw [if_neg hf0]
      have htop : (i : ℝ) + f / 2 ^ b ≤ 128 - 2 ^ (-17 : Int) := by
        rw [← harg, ← hX]
        exact exp2_argument_le hn24 (hX ▸ hlt)
      obtain ⟨k, hk, hk1, hgap, hnx⟩ := faithful_exp2_of_frac x (by omega) hf2 htop rfl
      have hnone := ne_intCast_of_frac (i := i) hf0 hf2
      rw [harg]
      exact ⟨k, hk, hk1, hgap, iff_of_false (by simp [hnx]) fun ⟨j, hj, _⟩ => hnone j hj, fun j hj _ => absurd hj (hnone j)⟩

end Sys2Proof.Machine
end

section
/-! O29: the bits of log2 by repeated squaring, with the error that truncation leaves. -/

namespace Sys2Proof.Machine

/-! The bits of the logarithm -/

theorem logb_two_one_add_le {t : ℝ} (ht : 0 ≤ t) : Real.logb 2 (1 + t) ≤ 2 * t := by
  have hlog2 : 1 / 2 < Real.log 2 := lt_trans (by norm_num) Real.log_two_gt_d9
  have hlog := Real.log_le_sub_one_of_pos (show 0 < 1 + t by linarith)
  rw [Real.logb, div_le_iff₀ (by linarith)]
  nlinarith

/-- One squaring: the truncated square, halved or not, has about twice the logarithm less the bit. -/
theorem logb_square_bounds {m m' c : Nat} (hm : 0 < m) (hm' : sfuOne ≤ m') (hlo : m' * 2 ^ c * 2 ^ sfuBits ≤ m * m)
    (hhi : m * m < (m' + 1) * 2 ^ c * 2 ^ sfuBits) :
    Real.logb 2 (m' / sfuOne) + c ≤ 2 * Real.logb 2 (m / sfuOne)
      ∧ 2 * Real.logb 2 (m / sfuOne) ≤ Real.logb 2 (m' / sfuOne) + c + 2 / sfuOne := by
  have hU := sfuOne_pos
  have hm'0 : (0 : ℝ) < m' := hU.trans_le hm'
  have hm0 : (0 : ℝ) < m := by exact_mod_cast hm
  have hlo' : (m' : ℝ) * 2 ^ c * sfuOne ≤ m * m := by
    rw [← cast_two_pow_sfuBits]
    exact_mod_cast hlo
  have hhi' : (m : ℝ) * m ≤ (m' + 1) * 2 ^ c * sfuOne := by
    rw [← cast_two_pow_sfuBits]
    exact_mod_cast hhi.le
  have hdouble : 2 * Real.logb 2 (m / sfuOne) = Real.logb 2 (m * m / sfuOne / sfuOne) := by
    rw [show (m : ℝ) * m / sfuOne / sfuOne = (m / sfuOne) ^ 2 by field_simp, Real.logb_pow]
    norm_num
  have hbit : Real.logb 2 (m' / sfuOne) + c = Real.logb 2 (m' / sfuOne * 2 ^ c) := by
    rw [Real.logb_mul (by positivity) (by positivity), Real.logb_pow, Real.logb_self_eq_one one_lt_two, mul_one]
  have hnext : Real.logb 2 (m' / sfuOne * 2 ^ c * (1 + 1 / m')) ≤ Real.logb 2 (m' / sfuOne) + c + 2 / sfuOne := by
    rw [Real.logb_mul (by positivity) (by positivity), ← hbit]
    have h1 := logb_two_one_add_le (t := 1 / (m' : ℝ)) (by positivity)
    have h2 : 2 * (1 / (m' : ℝ)) ≤ 2 / sfuOne := by
      rw [mul_one_div]
      gcongr
    linarith
  rw [hdouble, hbit]
  constructor
  · refine Real.logb_le_logb_of_le one_lt_two (by positivity) ?_
    rw [le_div_iff₀ hU, le_div_iff₀ hU]
    calc (m' : ℝ) / sfuOne * 2 ^ c * sfuOne * sfuOne = m' * 2 ^ c * sfuOne := by field_simp
      _ ≤ m * m := hlo'
  · rw [← hbit]
    refine le_trans (Real.logb_le_logb_of_le one_lt_two (by positivity) ?_) hnext
    rw [div_le_iff₀ hU, div_le_iff₀ hU]
    calc (m : ℝ) * m ≤ (m' + 1) * 2 ^ c * sfuOne := hhi'
      _ = m' / sfuOne * 2 ^ c * (1 + 1 / m') * sfuOne * sfuOne := by field_simp

/-- The next term of the squaring: a value of [1, 2) and the bit that was split off. -/
theorem log2Frac_succ {m : Nat} (hlo : 2 ^ sfuBits ≤ m) (hhi : m < 2 ^ (sfuBits + 1)) : ∃ m' c : Nat,
    (∀ k acc, log2Frac (k + 1) m acc = log2Frac k m' (2 * acc + c)) ∧ 2 ^ sfuBits ≤ m' ∧ m' < 2 ^ (sfuBits + 1)
      ∧ m' * 2 ^ c * 2 ^ sfuBits ≤ m * m ∧ m * m < (m' + 1) * 2 ^ c * 2 ^ sfuBits := by
  obtain ⟨u, hu⟩ : ∃ u, 2 ^ sfuBits = u := ⟨_, rfl⟩
  have hu0 : 0 < u := hu ▸ Nat.two_pow_pos sfuBits
  have h1 := Nat.div_mul_le_self (m * m) u
  have h2 := Nat.lt_div_mul_add (a := m * m) hu0
  have hsq : u ≤ m * m / u := (Nat.le_div_iff_mul_le hu0).2 (Nat.mul_le_mul (hu ▸ hlo) (hu ▸ hlo))
  have hsq4 : m * m / u < 4 * u := by
    rw [Nat.div_lt_iff_lt_mul hu0]
    rw [pow_succ, hu] at hhi
    nlinarith
  simp only [log2Frac, pow_succ, hu]
  generalize m * m / u = q at *
  by_cases hq : u * 2 ≤ q
  · refine ⟨q / 2, 1, fun k acc => if_pos hq, by omega, by omega, ?_, ?_⟩
    · have : q / 2 * 2 ≤ q := by omega
      nlinarith
    · have : q + 1 ≤ (q / 2 + 1) * 2 := by omega
      nlinarith
  · exact ⟨q, 0, fun k acc => if_neg hq, hsq, by omega, by simpa using h1, by simpa [add_one_mul] using h2⟩

theorem logb_significand_bounds {m : Nat} (hlo : 2 ^ sfuBits ≤ m) (hhi : m < 2 ^ (sfuBits + 1)) :
    0 ≤ Real.logb 2 (m / sfuOne) ∧ Real.logb 2 (m / sfuOne) < 1 := by
  have hU := sfuOne_pos
  have hm1 : sfuOne ≤ m := by
    rw [← cast_two_pow_sfuBits]
    exact_mod_cast hlo
  have hm2 : (m : ℝ) < 2 * sfuOne := by
    rw [pow_succ'] at hhi
    rw [← cast_two_pow_sfuBits]
    exact_mod_cast hhi
  have hm0 : (0 : ℝ) < m := hU.trans_le hm1
  refine ⟨Real.logb_nonneg one_lt_two ((one_le_div hU).2 hm1), ?_⟩
  rw [Real.logb_lt_iff_lt_rpow one_lt_two (by positivity), Real.rpow_one, div_lt_iff₀ hU]
  exact hm2

/-- The bits found so far are followed by those of k times the logarithm, which truncation leaves almost a unit short at most. -/
theorem log2Frac_bounds {k m acc : Nat} (hlo : 2 ^ sfuBits ≤ m) (hhi : m < 2 ^ (sfuBits + 1)) :
    ∃ F : Nat, log2Frac k m acc = acc * 2 ^ k + F ∧ (F : ℝ) ≤ 2 ^ k * Real.logb 2 (m / sfuOne)
      ∧ 2 ^ k * Real.logb 2 (m / sfuOne) < F + 1 + 2 ^ (k + 1) / sfuOne := by
  induction k generalizing m acc with
  | zero =>
    obtain ⟨h0, h1⟩ := logb_significand_bounds hlo hhi
    have herr : 0 < 2 ^ (0 + 1) / sfuOne := by have := sfuOne_pos; positivity
    refine ⟨0, by simp [log2Frac], by simpa using h0, ?_⟩
    rw [pow_zero, one_mul, Nat.cast_zero, zero_add]
    linarith
  | succ k ih =>
    obtain ⟨m', c, hrec, hlo', hhi', hsq, hsq'⟩ := log2Frac_succ hlo hhi
    obtain ⟨F, hF, hle, hlt⟩ := ih (acc := 2 * acc + c) hlo' hhi'
    have hm' : sfuOne ≤ m' := by
      rw [← cast_two_pow_sfuBits]
      exact_mod_cast hlo'
    obtain ⟨hl1, hl2⟩ := logb_square_bounds (lt_of_lt_of_le (Nat.two_pow_pos _) hlo) hm' hsq hsq'
    have hdouble : (2 : ℝ) ^ (k + 1) * Real.logb 2 (m / sfuOne) = 2 ^ k * (2 * Real.logb 2 (m / sfuOne)) := by ring
    have herr : (2 : ℝ) ^ (k + 1 + 1) / sfuOne = 2 ^ (k + 1) / sfuOne + 2 ^ k * (2 / sfuOne) := by ring
    have hmul1 := mul_le_mul_of_nonneg_left hl1 (show (0 : ℝ) ≤ 2 ^ k by positivity)
    have hmul2 := mul_le_mul_of_nonneg_left hl2 (show (0 : ℝ) ≤ 2 ^ k by positivity)
    refine ⟨c * 2 ^ k + F, by rw [hrec, hF, pow_succ]; ring, ?_, ?_⟩
    · push_cast
      rw [hdouble]
      linarith
    · push_cast
      rw [hdouble, herr]
      linarith

/-! vlog2 -/

theorem sfuLog2_of_fin {x : Nat} {n d : Nat} {e : Int} (h : decodeF .fp32 x = .fin false n d e) (hn : n ≠ 0) {k v : Int} {m : Nat}
    (hk : floorLog2 n 1 e = k) (hm : n * 2 ^ (sfuBits - Nat.log2 n) = m) (hv : 2 * (k * 2 ^ 120 + log2Frac 120 m 0) + 1 = v) :
    sfuLog2 false x = if m = 2 ^ sfuBits then faithful 1 x false true (.fin (decide (k < 0)) k.natAbs 1 0)
      else faithful 1 x false false (.fin (decide (v < 0)) v.natAbs 1 (-121)) := by
  subst hk hm hv
  simp only [sfuLog2, fp32, h, ftzIn_false, hn, if_false, Bool.false_eq_true, Val.ofInt]

theorem floorLog2_eq_log2_add {n : Nat} (hn : 0 < n) (e : Int) : floorLog2 n 1 e = Nat.log2 n + e := by
  have hle := Nat.log2_self_le hn.ne'
  have hone : Nat.log2 1 = 0 := by decide
  simp [floorLog2, hone, hle]

/-- The significand scaled to the working precision, from 1 to 2; it is 1 for a power of two. -/
theorem log2_significand {n : Nat} (hn : 0 < n) (hn24 : n < 2 ^ 24) {m : Nat} (hm : n * 2 ^ (sfuBits - Nat.log2 n) = m) :
    2 ^ sfuBits ≤ m ∧ m < 2 ^ (sfuBits + 1) ∧ (m = 2 ^ sfuBits ↔ n = 2 ^ Nat.log2 n) ∧ (m : ℝ) / sfuOne = n / 2 ^ Nat.log2 n := by
  have hlog : Nat.log2 n < 24 := (Nat.log2_lt hn.ne').2 hn24
  have hsplit : 2 ^ sfuBits = 2 ^ Nat.log2 n * 2 ^ (sfuBits - Nat.log2 n) := by
    rw [← pow_add, Nat.add_sub_cancel' (hlog.le.trans (by decide))]
  have hpos : 0 < 2 ^ (sfuBits - Nat.log2 n) := Nat.two_pow_pos _
  have hlo := Nat.log2_self_le hn.ne'
  have hhi : n < 2 ^ Nat.log2 n * 2 := by
    rw [← pow_succ]
    exact Nat.lt_log2_self
  rw [pow_succ, ← cast_two_pow_sfuBits, hsplit, ← hm]
  refine ⟨Nat.mul_le_mul_right _ hlo, ?_, Nat.mul_left_inj hpos.ne', ?_⟩
  · rw [mul_right_comm]
    exact Nat.mul_lt_mul_of_pos_right hhi hpos
  · push_cast
    rw [mul_div_mul_right _ _ (by positivity)]

theorem logb_two_zpow (k : Int) : Real.logb 2 ((2 : ℝ) ^ k) = k := by
  rw [← Real.rpow_intCast, Real.logb_rpow two_pos (by norm_num)]

/-- The logarithm as the exponent and the logarithm of the significand. -/
theorem logb_two_eq_add {n : Nat} (hn : 0 < n) (e : Int) :
    Real.logb 2 (n * 2 ^ e) = (floorLog2 n 1 e : Int) + Real.logb 2 (n / 2 ^ Nat.log2 n) := by
  have hn' : (0 : ℝ) < n := by exact_mod_cast hn
  have hsplit : (n : ℝ) * 2 ^ e = 2 ^ (floorLog2 n 1 e) * (n / 2 ^ Nat.log2 n) := by
    rw [floorLog2_eq_log2_add hn, zpow_add₀ two_ne_zero, zpow_natCast]
    field_simp
  rw [hsplit, Real.logb_mul (by positivity) (by positivity), logb_two_zpow]

/-- What `vlog2` gives for a positive value (R88, R89): little more than a step from log2 X, and without NX exactly on the powers of two. -/
def Log2Faithful (r : Nat × Flags) (X : ℝ) : Prop :=
  ∃ k ≤ FFmt.maxPat .fp32, ∃ b, (b = true ↔ X < 1) ∧ r.1 = FFmt.signed .fp32 b k
    ∧ abs (FFmt.real .fp32 k - |Real.logb 2 X|) < (FFmt.real .fp32 (k + 1) - FFmt.real .fp32 k) * (1 + 2 ^ (-32 : Int))
    ∧ (r.2.getLsbD 4 = false ↔ ∃ i : Int, X = 2 ^ i) ∧ ∀ i : Int, X = 2 ^ i → FFmt.real .fp32 k = |(i : ℝ)|

theorem log2Faithful_of_two_zpow (x : Nat) {k : Int} (hk : k.natAbs < 2 ^ 24) :
    Log2Faithful (faithful 1 x false true (.fin (decide (k < 0)) k.natAbs 1 0)) (2 ^ k) := by
  obtain ⟨j, hj⟩ := exists_real_of_significand (i := 0) (by norm_num) hk
  rw [zpow_zero, mul_one] at hj
  have htop : ((k.natAbs : Nat) : ℝ) < FFmt.real .fp32 (FFmt.maxPat .fp32) := by
    have : ((k.natAbs : Nat) : ℝ) < 2 ^ 24 := by exact_mod_cast hk
    rw [FFmt.real_maxPat_fp32]
    exact this.trans (by norm_num)
  obtain ⟨l, hl, hres, -, hnx, heq⟩ := faithful_between 1 x true (decide (k < 0)) k.natAbs one_pos 0 (v := k.natAbs) (t := k.natAbs) (by simp)
    htop fun lo hlo hhi => ⟨hlo, hhi, by simp⟩
  have hval := heq j hj
  have habs : ((k.natAbs : Nat) : ℝ) = |(k : ℝ)| := by rw [Nat.cast_natAbs, Int.cast_abs]
  have hlog := logb_two_zpow k
  have hsign : (2 : ℝ) ^ k < 1 ↔ k < 0 := by rw [← zpow_zero (2 : ℝ), zpow_lt_zpow_iff_right₀ one_lt_two]
  refine ⟨l, hl, _, ?_, hres, FFmt.lt_step_mul (by positivity) ?_, ?_, fun i hi => ?_⟩
  · rw [hsign, decide_eq_true_eq]
  · rw [hlog, ← habs, hval, sub_self, abs_zero, ← hval]
    exact FFmt.step_pos _ l
  · rw [← Bool.not_eq_true, hnx, not_not]
    exact iff_of_true hval ⟨k, rfl⟩
  · rw [hval, habs, zpow_right_injective₀ two_pos (by norm_num) hi]

/-- The logarithm of a value of 24 bits other than 1 is not below 2^−24. -/
theorem le_abs_logb_two {n : Nat} (hn : 0 < n) (hn24 : n < 2 ^ 24) {e : Int} (hne : (n : ℝ) * 2 ^ e ≠ 1) :
    2 ^ (-24 : Int) ≤ |Real.logb 2 (n * 2 ^ e)| := by
  have hX : (0 : ℝ) < n * 2 ^ e := by positivity
  obtain hlt | hgt := lt_or_gt_of_ne hne
  · have hle := le_sub_of_lt_two_zpow (c := 0) hn24 (by norm_num) (by simpa using hlt)
    have hlog := Real.log_le_sub_one_of_pos hX
    have hlog2 : Real.log 2 < 1 := Real.log_two_lt_d9.trans (by norm_num)
    have hneg : Real.logb 2 (n * 2 ^ e) ≤ -2 ^ (-24 : Int) := by
      rw [Real.logb, div_le_iff₀ (Real.log_pos one_lt_two)]
      norm_num at hle ⊢
      linarith
    exact (le_neg_of_le_neg hneg).trans (neg_le_abs _)
  · have hge := add_le_of_two_zpow_lt (c := 0) (p := 23) hn24 (by simpa using hgt)
    have hbern := rpow_one_add_le_one_add_mul_self (s := 1) (p := 2 ^ (-23 : Int)) (by norm_num) (by positivity) (by norm_num)
    refine le_trans ?_ (le_abs_self _)
    rw [Real.le_logb_iff_rpow_le one_lt_two hX]
    calc (2 : ℝ) ^ ((2 : ℝ) ^ (-24 : Int)) ≤ 2 ^ ((2 : ℝ) ^ (-23 : Int)) :=
          Real.rpow_le_rpow_of_exponent_le one_le_two (zpow_le_zpow_right₀ one_le_two (by norm_num))
      _ ≤ 1 + 2 ^ (-23 : Int) := by
        rw [one_add_one_eq_two, mul_one] at hbern
        exact hbern
      _ ≤ n * 2 ^ e := by simpa using hge

/-- The bits of the logarithm and one half, as a real number near log2 X. -/
theorem log2_near {n : Nat} (hn : 0 < n) (hn24 : n < 2 ^ 24) (e : Int) {k v : Int} {m : Nat} (hk : floorLog2 n 1 e = k)
    (hm : n * 2 ^ (sfuBits - Nat.log2 n) = m) (hv : 2 * (k * 2 ^ 120 + log2Frac 120 m 0) + 1 = v) :
    |(v : ℝ) * 2 ^ (-121 : Int) - Real.logb 2 (n * 2 ^ e)| ≤ 2 ^ (-120 : Int)
      ∧ (k : ℝ) ≤ v * 2 ^ (-121 : Int) ∧ (v : ℝ) * 2 ^ (-121 : Int) ≤ k + 1 ∧ (v < 0 ↔ k < 0) := by
  obtain ⟨hlo, hhi, -, hfrac⟩ := log2_significand hn hn24 hm
  obtain ⟨h0, h1⟩ := logb_significand_bounds hlo hhi
  obtain ⟨F, hF, hle, hlt⟩ := log2Frac_bounds (k := 120) (acc := 0) hlo hhi
  rw [zero_mul, zero_add] at hF
  rw [hF] at hv
  rw [hfrac] at h0 h1 hle hlt
  have hsmall : (2 : ℝ) ^ (120 + 1) / sfuOne ≤ 2 ^ (-100 : Int) := by norm_num [sfuOne, sfuBits]
  have hF120 : F < 2 ^ 120 := by
    have : (F : ℝ) < 2 ^ 120 := by linarith
    exact_mod_cast this
  have hF1 : (F : ℝ) + 1 ≤ 2 ^ 120 := by exact_mod_cast hF120
  have hval : (v : ℝ) * 2 ^ (-121 : Int) = k + (2 * F + 1) / 2 ^ 121 := by
    rw [← hv]
    push_cast
    norm_num
    ring
  rw [logb_two_eq_add hn, hk, hval]
  generalize Real.logb 2 (n / 2 ^ Nat.log2 n) = l at *
  generalize (2 : ℝ) ^ (120 + 1) / sfuOne = ε at *
  refine ⟨?_, ?_, ?_, ?_⟩
  · rw [add_sub_add_left_eq_sub]
    norm_num at hle hlt hsmall ⊢
    exact abs_le.2 ⟨by linarith, by linarith⟩
  · have : (0 : ℝ) ≤ (2 * F + 1) / 2 ^ 121 := by positivity
    linarith
  · norm_num at hF1 ⊢
    linarith
  · rw [← hv]
    omega

theorem decodeF_fp32_fin_lt {x : Nat} {neg : Bool} {n d : Nat} {e : Int} (h : decodeF .fp32 x = .fin neg n d e) :
    (n : ℝ) * 2 ^ e < 2 ^ (128 : Int) := by
  have hdec := decodeF_decodesTo .fp32 x
  rw [h] at hdec
  cases hdec with
  | fin _ _ hk hv hn he =>
    have hreal : (n : ℝ) * 2 ^ e = FFmt.real .fp32 (x % 2 ^ (FFmt.width .fp32 - 1)) := by
      rw [FFmt.real, ← hv]
      push_cast
      rfl
    have htop := (FFmt.real_strictMono .fp32).monotone hk
    rw [FFmt.real_maxPat_fp32] at htop
    rw [hreal]
    exact htop.trans_lt (by norm_num)

theorem log2Faithful_of_frac (x : Nat) {n : Nat} (hn : 0 < n) (hn24 : n < 2 ^ 24) {e : Int} (hpow : n ≠ 2 ^ Nat.log2 n) {k v : Int} {m : Nat}
    (hk : floorLog2 n 1 e = k) (hk24 : k.natAbs < 2 ^ 24) (hm : n * 2 ^ (sfuBits - Nat.log2 n) = m)
    (hv : 2 * (k * 2 ^ 120 + log2Frac 120 m 0) + 1 = v) :
    Log2Faithful (faithful 1 x false false (.fin (decide (v < 0)) v.natAbs 1 (-121))) (n * 2 ^ e) := by
  obtain ⟨hnear, hvk, hvk1, hsign⟩ := log2_near hn hn24 e hk hm hv
  have hnone (i : Int) : (n : ℝ) * 2 ^ e ≠ 2 ^ i := fun hi => hpow ((eq_two_pow_log2_iff hn e).2 ⟨i, hi⟩)
  have hlarge := le_abs_logb_two hn hn24 (e := e) (by simpa using hnone 0)
  have habs : |(v : ℝ) * 2 ^ (-121 : Int)| = (v.natAbs : Nat) / (1 : Nat) * 2 ^ (-121 : Int) := by
    rw [abs_mul, Nat.cast_natAbs, Int.cast_abs, Nat.cast_one, div_one, abs_of_pos (by positivity : (0 : ℝ) < 2 ^ (-121 : Int))]
  have hnear' := (abs_abs_sub_abs_le _ _).trans hnear
  have hlow : (2 : ℝ) ^ (-25 : Int) ≤ |(v : ℝ) * 2 ^ (-121 : Int)| := by
    have hdist := (abs_le.1 hnear').1
    norm_num at hdist hlarge ⊢
    linarith
  have htop : |(v : ℝ) * 2 ^ (-121 : Int)| < FFmt.real .fp32 (FFmt.maxPat .fp32) := by
    have hk' : |(k : ℝ)| < 2 ^ 24 := by
      rw [← Int.cast_abs, ← Nat.cast_natAbs]
      exact_mod_cast hk24
    obtain ⟨hk1, hk2⟩ := abs_lt.1 hk'
    rw [FFmt.real_maxPat_fp32]
    refine lt_of_le_of_lt (b := 2 ^ 24 + 1) (abs_le.2 ⟨?_, ?_⟩) (by norm_num)
    · linarith
    · linarith
  have hstep (lo : Nat) (hlo : |(v : ℝ) * 2 ^ (-121 : Int)| < FFmt.real .fp32 (lo + 1)) :
      abs (|(v : ℝ) * 2 ^ (-121 : Int)| - |Real.logb 2 (n * 2 ^ e)|)
        < (FFmt.real .fp32 (lo + 1) - FFmt.real .fp32 lo) * 2 ^ (-32 : Int) := by
    have hgap := FFmt.le_step_of_lt_real (f := .fp32) (hlow.trans_lt hlo)
    calc _ ≤ 2 ^ (-120 : Int) := hnear'
      _ < 2 ^ (-25 - (FFmt.man .fp32 : Nat) : Int) * 2 ^ (-32 : Int) := by norm_num [FFmt.man]
      _ ≤ _ := by gcongr
  obtain ⟨l, hl, hres, hgap, hnx⟩ := faithful_near 1 x (decide (v < 0)) v.natAbs one_pos (-121) habs.symm htop (by positivity) hstep
  refine ⟨l, hl, _, ?_, hres, hgap, iff_of_false (by simp [hnx]) fun ⟨i, hi⟩ => hnone i hi, fun i hi => absurd hi (hnone i)⟩
  rw [decide_eq_true_eq, hsign, ← hk, floorLog2_lt_iff_real hn, zpow_zero]

theorem sfuLog2_faithful {x : Nat} {n d : Nat} {e : Int} (h : decodeF .fp32 x = .fin false n d e) (hn : n ≠ 0) :
    Log2Faithful (sfuLog2 false x) (n * 2 ^ e) := by
  obtain ⟨-, hn24, he⟩ := decodeF_fp32_fin h
  have hpos := Nat.pos_of_ne_zero hn
  obtain ⟨k, hk⟩ : ∃ k, floorLog2 n 1 e = k := ⟨_, rfl⟩
  obtain ⟨m, hm⟩ : ∃ m, n * 2 ^ (sfuBits - Nat.log2 n) = m := ⟨_, rfl⟩
  have hk24 : k.natAbs < 2 ^ 24 := by
    have hlow : -149 ≤ floorLog2 n 1 e := by
      rw [floorLog2_eq_log2_add hpos]
      omega
    have hhigh := (floorLog2_lt_iff_real hpos e 128).2 (decodeF_fp32_fin_lt h)
    omega
  rw [sfuLog2_of_fin h hn hk hm rfl]
  obtain ⟨-, -, hpow, -⟩ := log2_significand hpos hn24 hm
  by_cases hexact : m = 2 ^ sfuBits
  · have hX : (n : ℝ) * 2 ^ e = 2 ^ k := by
      have hn' : (n : ℝ) = 2 ^ Nat.log2 n := by exact_mod_cast hpow.1 hexact
      rw [← hk, floorLog2_eq_log2_add hpos, zpow_add₀ two_ne_zero, zpow_natCast, ← hn']
    rw [if_pos hexact, hX]
    exact log2Faithful_of_two_zpow x hk24
  · rw [if_neg hexact]
    exact log2Faithful_of_frac x hpos hn24 (mt hpow.2 hexact) hk hk24 hm rfl

end Sys2Proof.Machine
end

section
/-! O29: the special functions on every lane. -/

namespace Sys2Proof.Machine

/-! Range limits and special values -/

theorem toRat_cast (neg : Bool) (n : Nat) (e : Int) : (((Val.fin neg n 1 e).toRat : ℚ) : ℝ) = signedNum neg n * 2 ^ e := by
  rw [toRat_fin]
  push_cast
  rw [div_one]

theorem sfuExp2_overflow {x : Nat} {n d : Nat} {e : Int} (h : decodeF .fp32 x = .fin false n d e) (hn : n ≠ 0)
    (hX : 128 ≤ (n : ℝ) * 2 ^ e) : sfuExp2 false x = (0x7f800000, flOF ||| flNX) := by
  have hlog : 7 ≤ floorLog2 n 1 e := by
    rw [le_floorLog2_iff_real (Nat.pos_of_ne_zero hn)]
    norm_num
    exact hX
  rw [sfuExp2_of_fin h hn rfl rfl rfl, if_pos ⟨hlog, rfl⟩]
  rfl

theorem sfuLog2_of_neg {x : Nat} {n d : Nat} {e : Int} (h : decodeF .fp32 x = .fin true n d e) (hn : n ≠ 0) :
    sfuLog2 false x = (0x7fc00000, flNV) := by
  simp [sfuLog2, fp32, h, hn, FFmt.nan]

theorem sfuRsqrt_of_neg {x : Nat} {n d : Nat} {e : Int} (h : decodeF .fp32 x = .fin true n d e) (hn : n ≠ 0) :
    sfuRsqrt false x = (0x7fc00000, flNV) := by
  simp [sfuRsqrt, fp32, h, hn, FFmt.nan]

theorem sfuRcp_overflow {x : Nat} {neg : Bool} {n d : Nat} {e : Int} (h : decodeF .fp32 x = .fin neg n d e) (hn : n ≠ 0)
    (hX : (n : ℝ) * 2 ^ e ≤ 2 ^ (-128 : Int)) : sfuRcp false x = (FFmt.signed .fp32 neg 0x7f800000, flOF ||| flNX) := by
  rw [sfuRcp_of_fin h hn, if_pos ((rcp_overflow_iff (Nat.pos_of_ne_zero hn) e).2 hX)]
  rfl

theorem sfu_of_nan {x : Nat} {sig : Bool} (h : decodeF .fp32 x = .nan sig) {g : Bool → Nat → Nat × Flags}
    (hg : g ∈ [sfuExp2, sfuLog2, sfuRcp, sfuRsqrt]) (z : Bool) : g z x = (0x7fc00000, if sig then flNV else 0#6) := by
  simp only [List.mem_cons, List.not_mem_nil, or_false] at hg
  obtain rfl | rfl | rfl | rfl := hg <;>
    simp only [sfuExp2, sfuLog2, sfuRcp, sfuRsqrt, fp32, h, ftzIn, FFmt.nan, flIf]

end Sys2Proof.Machine

namespace Sys2Proof
open Machine

/-- Settles O29: each function is a faithful result of its exact value or of one that is close to it. -/
theorem specialFunctionBounds : Obligations.SpecialFunctionBounds := by
  refine ⟨?_, fun x _ sig h g hg z => sfu_of_nan h hg z, ?_⟩
  · intro x _ neg n d e h hn
    obtain ⟨rfl, -, -⟩ := decodeF_fp32_fin h
    have hX : (((decodeF .fp32 x).toRat : ℚ) : ℝ) = signedNum neg n * 2 ^ e := by rw [h, toRat_cast]
    have hpos : (0 : ℝ) < n * 2 ^ e := by
      have := Nat.pos_of_ne_zero hn
      positivity
    have habs : |(signedNum neg n : ℝ) * 2 ^ e| = n * 2 ^ e := by
      cases neg <;> simp [signedNum, abs_mul]
    have hfalse (h0 : (0 : ℝ) < signedNum neg n * 2 ^ e) : neg = false ∧ (signedNum neg n : ℝ) * 2 ^ e = n * 2 ^ e := by
      rw [← habs, abs_of_pos h0]
      cases neg with
      | false => exact ⟨rfl, rfl⟩
      | true => norm_num [signedNum] at h0 hpos; linarith
    have htrue (h0 : (signedNum neg n : ℝ) * 2 ^ e < 0) : neg = true := by
      cases neg with
      | false => norm_num [signedNum] at h0 hpos; linarith
      | true => rfl
    intro X V gap top
    have hXe : X = signedNum neg n * 2 ^ e := hX
    rw [hXe, habs]
    refine ⟨fun hlt => sfuExp2_faithful h hn rfl hlt, fun h0 => ?_, fun hlt => sfuRcp_faithful h hn hlt, fun h0 => ?_, fun hle => ?_,
      fun h0 => ?_, fun hle => sfuRcp_overflow h hn hle⟩
    · obtain ⟨rfl, hval⟩ := hfalse h0
      rw [hval]
      exact sfuLog2_faithful h hn
    · obtain ⟨rfl, hval⟩ := hfalse h0
      rw [hval]
      obtain ⟨k, hk, hres, hgap, hnx⟩ := sfuRsqrt_faithful h hn
      exact ⟨k, hk, by rw [hres, signed_false], hgap, hnx⟩
    · obtain ⟨rfl, hval⟩ := hfalse (by linarith)
      exact sfuExp2_overflow h hn (hval ▸ hle)
    · obtain rfl := htrue h0
      exact ⟨sfuLog2_of_neg h hn, sfuRsqrt_of_neg h hn⟩
  · decide

end Sys2Proof
end

section
/-! O6: no step takes the memory out of its canonical form. Only `Dev.write`, `Dev.clear` and `Dev.copy` change bytes, and each keeps the
form; every other function hands the memory on. So there is one lemma for each function of the model that hands a device or a state on, named
after it: `Canonical.f` of a device (or of the device of a pair), `Inv.f` of a state or of the outcome of a form that operations share,
`execI_keeps` of a meaning with branches of its own. Each goes by the branches of the function and uses the lemmas about the functions that
it calls. -/

namespace Sys2Proof.Machine

set_option Elab.async false

/-! The rules: what changes bytes, what changes no byte, and how both pass through folds, pairs and outcomes -/

/-- The device's memory is in its canonical form. -/
def Canonical (d : Dev) : Prop := memWf d.mem = true

/-- The next state, if an outcome has one, meets the invariant. -/
def Keeps (r : Result) : Prop := ∀ t, r = .next t → Inv t

theorem Canonical.write {d : Dev} (h : Canonical d) {k : Nat} {bs : List Byte} : Canonical (d.write k bs) := memWriteList_wf h k bs

theorem Canonical.clear {d : Dev} (h : Canonical d) {k n : Nat} : Canonical (d.clear k n) := memClear_wf h k n

theorem Canonical.copy {d : Dev} (h : Canonical d) {src dst n : Nat} : Canonical (d.copy src dst n) := memCopy_wf h src dst n

theorem Canonical.fst {α : Type} {p : Dev × α} {d : Dev} {a : α} (hp : Canonical p.1) (h : p = (d, a) := by assumption) :
    Canonical d := by
  subst h
  exact hp

theorem Canonical.elim {α : Type} {f : α → Dev} {d : Dev} {o : Option α} (h : Canonical d) (hf : ∀ {a}, Canonical (f a)) :
    Canonical (o.elim d f) := by
  cases o with
  | none => exact h
  | some a => exact hf

theorem Canonical.foldl {α : Type} {f : Dev → α → Dev} {d : Dev} {l : List α} (h : Canonical d)
    (hf : ∀ {d a}, Canonical d → Canonical (f d a)) : Canonical (l.foldl f d) := by
  induction l generalizing d with
  | nil => exact h
  | cons a l ih => exact ih (hf h)

theorem Inv.dev {s : State} (hs : Inv s) : Canonical s.dev := hs.1

theorem Inv.withDev {s t : State} (hs : Inv s) (ht : Canonical t.dev) (h : t.saved = s.saved := by rfl) : Inv t :=
  ⟨ht, h ▸ hs.2⟩

theorem Inv.onDev {s : State} {f : Dev → Dev} (hs : Inv s) (hf : ∀ {d}, Canonical d → Canonical (f d)) : Inv (s.onDev f) :=
  hs.withDev (hf hs.dev)

theorem Canonical.update {d e : Dev} (h : Canonical d) (he : e.mem = d.mem := by rfl) : Canonical e := by
  unfold Canonical
  rw [he]
  exact h

theorem Canonical.start {s : State} (hs : Inv s) : Canonical s.start := by
  unfold State.start
  cases hsaved : s.saved with
  | none => exact hs.dev
  | some d => exact hs.2 d hsaved

theorem Inv.next {t : State} (ht : Inv t) : Keeps (.next t) := by
  rintro _ ⟨⟩
  exact ht

theorem Inv.foldl {α : Type} {f : State → α → State} {s : State} {l : List α} (h : Inv s)
    (hf : ∀ {s a}, Inv s → Inv (f s a)) : Inv (l.foldl f s) := by
  induction l generalizing s with
  | nil => exact h
  | cons a l ih => exact ih (hf h)

theorem Canonical.onTile {d : Dev} {n : Fin 128} {f : Tile → Tile} (h : Canonical d) : Canonical (d.onTile n f) := h

theorem Canonical.onSvc {d : Dev} {q : Fin 32} {f : Svc → Svc} (h : Canonical d) : Canonical (d.onSvc q f) := h

theorem Canonical.onQuad {d : Dev} {q : Fin 32} {f : Quad → Quad} (h : Canonical d) : Canonical (d.onQuad q f) := h

theorem Canonical.onRouter {d : Dev} {n : Fin 128} {f : Router → Router} (h : Canonical d) : Canonical (d.onRouter n f) := h

theorem Canonical.onBolt {d : Dev} {b : Fin 32} {f : Bolt → Bolt} (h : Canonical d) : Canonical (d.onBolt b f) := h

theorem Canonical.onPort {d : Dev} {p : Fin 2} {f : HostPort → HostPort} (h : Canonical d) : Canonical (d.onPort p f) := h

theorem Canonical.onSeam {d : Dev} {p : Fin 8} {f : SeamPort → SeamPort} (h : Canonical d) : Canonical (d.onSeam p f) := h

theorem Canonical.onPanel {d : Dev} {n : Nat} {f : Panel → Panel} (h : Canonical d) : Canonical (d.onPanel n f) := h

theorem Canonical.onVdev {d : Dev} {v : Nat} {f : Vdev → Vdev} (h : Canonical d) : Canonical (d.onVdev v f) := h

theorem Canonical.onResv {d : Dev} {r : Nat} {f : Resv → Resv} (h : Canonical d) : Canonical (d.onResv r f) := h

theorem Canonical.onMc {d : Dev} {f : Mc → Mc} (h : Canonical d) : Canonical (d.onMc f) := h

theorem Canonical.onPf {d : Dev} {f : Pf → Pf} (h : Canonical d) : Canonical (d.onPf f) := h

theorem Canonical.count {d : Dev} {b : Fin 32} {k : Fin 14} {n : Nat} (h : Canonical d) : Canonical (d.count b k n) := h

theorem Canonical.logEvent {d : Dev} {kind : Nat} {bolt tile data : Option Nat} (h : Canonical d) :
    Canonical (d.logEvent kind bolt tile data) := h

theorem Canonical.inv {t : State} (ht : Canonical t.dev) (h : t.saved = none := by rfl) : Inv t :=
  ⟨ht, fun _ hd => nomatch h.symm.trans hd⟩

theorem Inv.onTile {s : State} {f : Tile → Tile} (hs : Inv s) : Inv (s.onTile f) := hs

theorem Inv.onIss {s : State} {f : Iss → Iss} (hs : Inv s) : Inv (s.onIss f) := hs

/-- What a cycle saves is what a trap takes the panel back to, so it has to be canonical too. -/
theorem Canonical.invSaved {d : Dev} {t : State} (hd : Canonical d) (ht : Canonical t.dev) (h : t.saved = some d := by rfl) : Inv t := by
  refine ⟨ht, fun e he => ?_⟩
  obtain rfl : d = e := Option.some.inj (h.symm.trans he)
  exact hd

theorem Canonical.foldlFst {α β : Type} {f : Dev × β → α → Dev × β} {p : Dev × β} {l : List α} (h : Canonical p.1)
    (hf : ∀ {p a}, Canonical p.1 → Canonical (f p a).1) : Canonical (l.foldl f p).1 := by
  induction l generalizing p with
  | nil => exact h
  | cons a l ih => exact ih (hf h)

/-! What operations do to a state: results, traps, steps of a panel -/

theorem Canonical.countTile {d : Dev} {t : Fin 128} {k : Fin 14} {n : Nat} (h : Canonical d) : Canonical (d.countTile t k n) := by
  unfold Dev.countTile
  split
  · exact h.count
  · exact h

theorem Canonical.ecc {d : Dev} {b : Option (Fin 32)} {k n : Nat} (h : Canonical d) : Canonical (d.ecc b k n) := by
  unfold Dev.ecc
  extract_lets hit soft bad log d1
  have hd1 : Canonical d1 := Canonical.foldl h fun h1 => h1.logEvent
  exact hd1.elim hd1.count.count

theorem Inv.put {s : State} {lat : Nat} {dest : Dest} {value : VReg} {poison : Bool} {upd : Flight → Flight} (hs : Inv s) :
    Inv (s.put lat dest value poison upd) := by
  unfold State.put
  split
  · exact hs.onDev fun h => h.onTile
  · exact hs.onDev fun h => h.onSvc

theorem Inv.putS {s : State} {lat : Nat} {r : Fin 32} {v : W64} {poison : Bool} (hs : Inv s) : Inv (s.putS lat r v poison) := hs.put

theorem Inv.putK {s : State} {lat : Nat} {r : Fin 16} {v : W32} (hs : Inv s) : Inv (s.putK lat r v) := hs.put

theorem Inv.putP {s : State} {lat : Nat} {r : Fin 8} {v : Bool} (hs : Inv s) : Inv (s.putP lat r v) := hs.put

theorem Inv.putPZ {s : State} {lat : Nat} {dest : Dest} {v : VReg} {poison : Bool} (hs : Inv s) :
    Inv (s.putPZ lat dest v poison) := hs.put

theorem Canonical.svcEnter {d : Dev} {q : Fin 32} {cause code : Nat} {epc : W32} (h : Canonical d) :
    Canonical (d.svcEnter q cause code epc) := by
  unfold Dev.svcEnter
  extract_lets
  split
  · exact h.onSvc
  · exact h.onSvc.logEvent

theorem Inv.svcTrap {s : State} {q : Fin 32} {cause code : Nat} {epc : W32} (hs : Inv s) :
    Inv (s.svcTrap q cause code epc) := hs.withDev hs.dev.svcEnter

theorem Inv.raiseAt {s : State} {cause detail slot : Nat} {ea : W64} (hs : Inv s) : Inv (s.raiseAt cause detail slot ea) := by
  unfold State.raiseAt
  split
  · exact hs.onDev fun h => h
  · exact hs.svcTrap

theorem Inv.illop {s : State} {detail : Nat} (hs : Inv s) : Inv (s.illop detail) := hs.raiseAt

theorem Inv.bounds {s : State} {ea : W64} (hs : Inv s) : Inv (s.bounds ea) := hs.raiseAt

theorem Canonical.pushTrap {d : Dev} {p : Panel} {r : BitVec 512} (h : Canonical d) : Canonical (d.pushTrap p r) := by
  unfold Dev.pushTrap
  split
  · exact h.onSvc
  · exact h.count

theorem Canonical.endStep {d : Dev} {p : Panel} (h : Canonical d) : Canonical (d.endStep p) := by
  unfold Dev.endStep
  split
  · exact Canonical.onPanel (h.foldl fun h1 => h1.onTile)
  · exact h

theorem Canonical.takeTraps {d : Dev} {h : Nat} {raised : List Raise} {psc : Nat} (hd : Canonical d) :
    Canonical (d.takeTraps h raised psc) := by
  unfold Dev.takeTraps
  split
  · exact hd
  · exact Canonical.endStep (hd.foldl fun h1 => h1.pushTrap)

theorem Canonical.setElock {d : Dev} {p : Panel} {b : Bool} (h : Canonical d) :
    Canonical (d.setElock p b) := h.foldl fun h1 => h1.onTile

theorem Canonical.freshCounts {d : Dev} {p : Panel} (h : Canonical d) :
    Canonical (d.freshCounts p) := h.onPanel.foldl fun h1 => h1.onTile

theorem Canonical.resumePanel {d : Dev} {p : Panel} (h : Canonical d) : Canonical (d.resumePanel p) := by
  unfold Dev.resumePanel
  extract_lets d1
  have hd1 : Canonical d1 := by
    unfold d1
    split
    · exact h.freshCounts
    · exact h
  exact hd1.onPanel

/-! The flow of bundles -/

theorem Inv.setLoops {s : State} {l : List LoopEnt} (hs : Inv s) : Inv (s.setLoops l) := by
  unfold State.setLoops
  split
  · exact hs.onDev fun h => h.onTile
  · exact hs.onDev fun h => h.onSvc

theorem Inv.goto {s : State} {a : W32} (hs : Inv s) : Inv (s.goto a) := hs.onIss

theorem Inv.branch {s : State} {a : W32} (hs : Inv s) : Inv (s.branch a) := hs.setLoops.goto

theorem Inv.endBundle {s : State} (hs : Inv s) : Inv s.endBundle := by
  unfold State.endBundle
  extract_lets _ s1
  split
  · exact Inv.onDev hs.setLoops fun h => h.onTile
  · exact Inv.onDev hs.setLoops fun h => h.onSvc

/-! State registers and due results -/

theorem Canonical.writeSr {d : Dev} {n : Fin 128} {num : Nat} {v : W64} (h : Canonical d) : Canonical (d.writeSr n num v) := by
  unfold Dev.writeSr
  extract_lets
  split
  · split
    · exact h.onPanel
    · exact h
  · exact h.onTile

theorem Canonical.writeDue {d : Dev} {n : Fin 128} {f : Flight} (h : Canonical d) : Canonical (d.writeDue n f) := by
  unfold Dev.writeDue
  extract_lets
  split
  · exact h
  · exact h
  · exact h.onTile
  · exact h.onTile
  · exact h.onTile
  · exact h.onTile
  · exact h.onTile
  · exact h.onTile
  · exact h.writeSr

/-! Operand checks and scalar forms -/

theorem Inv.raiseAll {s : State} {l : List Chk} (hs : Inv s) : Inv (s.raiseAll l) := by
  unfold State.raiseAll
  split
  · exact hs.foldl fun h => h.raiseAt
  · split
    · exact hs.raiseAt
    · exact hs

theorem Inv.attempt {s : State} {l : List Chk} {go : State → State} (hs : Inv s) (hgo : ∀ {s : State}, Inv s → Inv (go s)) :
    Keeps (s.attempt l go) := by
  unfold State.attempt
  extract_lets
  split
  · exact (hgo hs).next
  · exact hs.raiseAll.next

theorem Inv.raiseLate {s : State} {cause : Nat} {code : BitVec 17} (hs : Inv s) : Inv (s.raiseLate cause code) := hs.onDev fun h => h

theorem Inv.sOp {s : State} {lat : Nat} {d a : Fin 32} {o : SOpd} {sgn : Bool} {f : W64 → W64 → W64} (hs : Inv s) :
    Keeps (s.sOp lat d a o sgn f) := hs.putS.next

theorem Inv.sUn {s : State} {d a : Fin 32} {f : W64 → W64} (hs : Inv s) : Keeps (s.sUn d a f) := hs.putS.next

theorem Inv.sCmp {s : State} {d : Fin 8} {a : Fin 32} {o : SOpd} {sgn : Bool} {f : W64 → W64 → Bool} (hs : Inv s) :
    Keeps (s.sCmp d a o sgn f) := hs.putPZ.next

theorem Inv.pOp {s : State} {d a b : Fin 8} {f : Bool → Bool → Bool} (hs : Inv s) : Keeps (s.pOp d a b f) := hs.putP.next

theorem Inv.kCmp {s : State} {d : Fin 8} {a : Fin 16} {o : KOpd} {sgn : Bool} {f : W32 → W32 → Bool} (hs : Inv s) :
    Keeps (s.kCmp d a o sgn f) := hs.putP.next

/-! Vector lanes -/

theorem Inv.putV {s : State} {lat : Nat} {x : VFile} {d : Fin 32} {value : VReg} {part : Option VReg} {poison : Bool} {fl : Flags}
    (hs : Inv s) : Inv (s.putV lat x d value part poison fl) := hs.put

theorem Inv.laneOp {s : State} {x : VFile} {lat : Nat} {d : Fin 32} {srcs : List (Fin 32)} {poison : Bool} {mk : Option W32} {w : Nat}
    {f : Nat → Nat × Flags} (hs : Inv s) : Keeps (s.laneOp x lat d srcs poison mk w f) := hs.attempt fun h => h.putV

theorem Inv.vInt {s : State} {x : VFile} {lat : Nat} {d a : Fin 32} {o : VOpd} {ty : ITy} {m : Fin 8} {f : Int → Int → Int × Flags}
    (hs : Inv s) : Keeps (s.vInt x lat d a o ty m f) := by
  unfold State.vInt
  extract_lets
  exact hs.laneOp

theorem Inv.vBits {s : State} {x : VFile} {d a : Fin 32} {o : VOpd} {w : Nat} {m : Fin 8} {f : Nat → Nat → Nat} (hs : Inv s) :
    Keeps (s.vBits x d a o w m f) := by
  unfold State.vBits
  extract_lets
  exact hs.laneOp

theorem Inv.vFlt {s : State} {x : VFile} {d a : Fin 32} {o : VOpd} {ft : FTy} {m : Fin 4} {readsD : Bool}
    {f : Bool → Val → Val → Val → Nat × Flags} (hs : Inv s) : Keeps (s.vFlt x d a o ft m readsD f) := by
  unfold State.vFlt
  extract_lets
  exact hs.laneOp

theorem Inv.vCmp {s : State} {x : VFile} {lat : Nat} {d : Fin 8} {srcs : List (Fin 32)} {poison : Bool} {w : Nat}
    {f : Nat → Bool × Flags} (hs : Inv s) : Keeps (s.vCmp x lat d srcs poison w f) := hs.attempt fun h => h.put

/-! A tile cycle: what it saves, and what takes the panel back to it -/

/-- What a cycle saves is the device that it starts from. -/
theorem Inv.planCycle {s : State} {h : Nat} (hs : Inv s) : Inv (s.planCycle h) := by
  unfold State.planCycle
  extract_lets d
  split
  · exact hs
  · extract_lets _ _ _ _ d1
    have hd1 : Canonical d1 := hs.dev.foldl fun h1 => h1.onTile
    split
    · exact hs
    · split
      · exact hs.onDev fun h1 => h1.onPanel
      · split
        · exact hs
        · split
          · split
            · exact Canonical.invSaved (d := d) hs.dev hs.dev
            · exact hs.onDev fun h1 => h1.onPanel.endStep
          · exact Canonical.invSaved (d := d) hs.dev hd1

theorem Canonical.completeBarriers {d : Dev} {p : Panel} (h : Canonical d) :
    Canonical (d.completeBarriers p) := h.foldl fun h1 => h1.onTile

theorem Inv.endIssue {s : State} {h : Nat} (hs : Inv s) : Inv (s.endIssue h) := by
  unfold State.endIssue
  split
  · exact hs
  · extract_lets _ _ _ d
    split
    · exact hs
    · split
      · exact hs.withDev (Canonical.completeBarriers (hs.dev.foldl fun h1 => h1.onTile))
      · exact (Canonical.start hs).takeTraps.inv

theorem Inv.endCycle {s : State} {h : Nat} (hs : Inv s) : Inv (s.endCycle h) := by
  unfold State.endCycle
  split
  · refine Canonical.inv ?_
    exact hs.dev
  · extract_lets _ _ d1 d2 d3
    have hd2 : Canonical d2 := Canonical.endStep (Canonical.onPanel (hs.dev.foldl fun h1 => h1.onTile))
    have hd3 : Canonical d3 := by
      unfold d3
      split
      · exact hd2
      · exact hd2.takeTraps
    refine Canonical.inv ?_
    exact hd3

/-! Global memory, caches, faults and translation -/

theorem Canonical.backInvalidate {d : Dev} {line : Nat} (h : Canonical d) : Canonical (d.backInvalidate line) := by
  unfold Dev.backInvalidate
  refine h.foldl fun h1 => ?_
  extract_lets
  split <;> exact h1

theorem Canonical.backRange {d : Dev} {k n : Nat} (h : Canonical d) :
    Canonical (d.backRange k n) := h.foldl fun h1 => h1.foldl fun h2 => h2.backInvalidate

/-- The body stands in place of the name before the cases of `bpaKey`, which the kernel would otherwise run to compare the two. -/
theorem Canonical.writeGen {d : Dev} {b : Fin 32} {space : Nat} (h : Canonical d) : Canonical (d.writeGen b space) := by
  suffices ∀ f, f = Dev.writeGen → Canonical (f d b space) from this _ rfl
  delta Dev.writeGen
  rintro _ rfl
  beta_reduce
  split
  · exact h.backRange.write
  · exact h

theorem Canonical.tlbFill {d : Dev} {n : Option (Fin 128)} {q : Fin 32} {e : TlbEnt} (h : Canonical d) :
    Canonical (d.tlbFill n q e) := by
  unfold Dev.tlbFill
  extract_lets d1
  split
  · exact Canonical.onTile h
  · exact h

theorem Canonical.walkFill {d : Dev} {q : Fin 32} {space : Nat} {gen : W32} {dva : Nat} {l : List (Nat × W64)} (h : Canonical d) :
    Canonical (d.walkFill q space gen dva l) := h.onQuad

theorem Canonical.translate {d : Dev} {b : Fin 32} {n : Option (Fin 128)} {q : Fin 32} {space dva : Nat} {acc : AccKind}
    (h : Canonical d) : Canonical (d.translate b n q space dva acc).1 := by
  unfold Dev.translate
  extract_lets _ _ _ _ _ _ d1
  split
  · split
    · exact h
    · exact Canonical.tlbFill h.walkFill
  · exact h

theorem Canonical.meetFault {d : Dev} {b : Fin 32} {a : Asker} {acc : AccKind} {k : FKindT} {lvl : Nat} {pte : W64} {dva : Nat}
    {port : Fin 2} {u : Nat} (h : Canonical d) : Canonical (d.meetFault b a acc k lvl pte dva port u).1 := by
  unfold Dev.meetFault
  extract_lets _ _ queue prgi _ d1
  have hqueue : ∀ {d : Dev} {prgi : Nat}, Canonical d → Canonical (queue d prgi) := fun h1 => h1.onBolt
  have hd1 : Canonical d1 := h.onBolt
  clear_value prgi
  split
  · split
    · exact hqueue h
    · exact h
  · split
    · exact h
    · split
      · exact h
      · extract_lets d2 _ d3
        have hd2 : Canonical d2 := by
          unfold d2
          split
          · exact hd1
          · exact hqueue hd1
        split
        · exact h
        · unfold d3
          split
          · exact hd2.onPort
          · exact hd2

theorem Canonical.hostPath {d : Dev} {b : Fin 32} {port : Fin 2} {space u dva : Nat} {acc : AccKind} {pte : W64} {held : Wait}
    (h : Canonical d) : Canonical (d.hostPath b port space u dva acc pte held).1 := by
  unfold Dev.hostPath
  extract_lets _ _ _ hit asked _ _ _ _ d1
  have hd1 : Canonical d1 := by
    unfold d1
    split
    · exact h.onPort
    · exact h
  split
  · split <;> exact h
  · cases hit with
    | some e => exact h
    | none =>
      cases asked with
      | some refused => exact h
      | none =>
        dsimp only
        split
        · exact h
        · exact hd1

theorem Canonical.reach {d : Dev} {b : Fin 32} {a : Asker} {dva : Nat} {acc : AccKind} {record : Bool} (h : Canonical d) :
    Canonical (d.reach b a dva acc record).1 := by
  unfold Dev.reach
  extract_lets fault
  have hfault : ∀ {d : Dev} {k : FKindT} {lvl : Nat} {pte : W64} {port : Fin 2} {u : Nat},
      Canonical d → Canonical (fault d k lvl pte port u).1 := by
    intro e k lvl pte port u h1
    unfold fault
    split
    · exact h1
    · split <;> exact h1.meetFault.fst
  split
  · split <;> exact h
  · split
    · exact hfault h.translate.fst
    · have h1 := h.translate.fst
      extract_lets
      split
      · split
        · exact h1
        · exact hfault h1
      · split
        · exact h1.hostPath.fst
        · exact h1.hostPath.fst
        · exact hfault h1.hostPath.fst

theorem Canonical.writeBack {d : Dev} {l : SlcLine} (h : Canonical d) : Canonical (d.writeBack l) := by
  unfold Dev.writeBack
  split
  · refine h.foldl fun h1 => ?_
    split
    · exact h1.write
    · exact h1
  · exact h

theorem Canonical.slcDrop {d : Dev} {q : Fin 32} {line : Nat} (h : Canonical d) : Canonical (d.slcDrop q line) := by
  unfold Dev.slcDrop
  split
  · exact h.writeBack.onQuad
  · exact h

theorem Canonical.slcPut {d : Dev} {q : Fin 32} {l : SlcLine} (h : Canonical d) : Canonical (d.slcPut q l) := by
  unfold Dev.slcPut
  extract_lets d1
  have hd1 : Canonical d1 := by
    unfold d1
    split
    · exact h.slcDrop
    · exact h
  exact hd1.onQuad

theorem Canonical.slcLoad {d : Dev} {q : Fin 32} {line : Nat} {hint : BitVec 2} (h : Canonical d) :
    Canonical (d.slcLoad q line hint) := by
  unfold Dev.slcLoad
  split
  · exact h.slcPut
  · exact h
  · split
    · exact h
    · exact h.slcDrop
  · exact h.slcPut
  · exact h.slcPut
  · exact h.slcPut
  · exact h

theorem Canonical.pointRead {d : Dev} {b : Fin 32} {k n : Nat} {hint : BitVec 2} {strong : Bool} (h : Canonical d) :
    Canonical (d.pointRead b k n hint strong).1 := by
  unfold Dev.pointRead
  extract_lets _ _ d0 d1 d1'
  split
  · exact Canonical.slcDrop h.ecc
  · split <;> exact Canonical.slcLoad h.ecc

theorem Canonical.ownLine {d : Dev} {b : Fin 32} {k space : Nat} (h : Canonical d) : Canonical (d.ownLine b k space) := by
  unfold Dev.ownLine
  extract_lets
  split
  · exact h.onQuad
  · exact h

theorem Canonical.pointWrite {d : Dev} {b : Fin 32} {k : Nat} {bs : List Byte} {hint : BitVec 2} {through : Bool} (h : Canonical d) :
    Canonical (d.pointWrite b k bs hint through) := by
  unfold Dev.pointWrite
  extract_lets _ _ _ _ _ _ d' _ _ d1
  split
  · split
    · exact Canonical.slcPut h.backInvalidate
    · exact Canonical.write (Canonical.slcPut h.backInvalidate)
  · exact Canonical.write (Canonical.slcDrop h.backInvalidate)

theorem Canonical.flushHost {d : Dev} {b : Fin 32} (h : Canonical d) :
    Canonical (d.flushHost b) := h.foldl fun h1 => h1.foldl fun h2 => h2.slcDrop

/-! Tile scratchpads -/

theorem Canonical.bankEcc {d : Dev} {n : Fin 128} {bfmt : W32} {bank o len : Nat} (h : Canonical d) :
    Canonical (d.bankEcc n bfmt bank o len) := by
  unfold Dev.bankEcc
  split
  · exact h
  · exact h.foldl fun h1 => h1.ecc

theorem Canonical.writeBank {n : Fin 128} {bfmt : W32} {bank fuel o : Nat} {bs : List Byte} {d : Dev} (h : Canonical d) :
    Canonical (writeBank n bfmt bank fuel o bs d) := by
  induction fuel generalizing o bs d with
  | zero => exact h
  | succ fuel ih =>
    unfold Machine.writeBank
    split
    · exact h
    · exact ih h.write

theorem Canonical.bankWrite {d : Dev} {n : Fin 128} {bfmt : W32} {bank o : Nat} {bs : List Byte} (h : Canonical d) :
    Canonical (d.bankWrite n bfmt bank o bs) := h.writeBank

theorem Canonical.writeScales {d : Dev} {n : Fin 128} {o : PathOp} {at_ : Nat} {sc : W32} (h : Canonical d) :
    Canonical (d.writeScales n o at_ sc) := h.foldl fun h1 => h1.write

theorem Canonical.performPath {d : Dev} {n : Fin 128} {o : PathOp} {m : Nat} {sat : Bool} (h : Canonical d) :
    Canonical (d.performPath n o m sat).1 := by
  unfold Dev.performPath
  extract_lets _ d1 _ d2
  split
  · exact h.bankEcc
  · split
    · exact h
    · exact Canonical.writeScales h.bankWrite

/-! Order of operations -/

theorem Canonical.locEcc {d : Dev} {n : Fin 128} {l : Loc} {len : Nat} (h : Canonical d) : Canonical (d.locEcc n l len) := by
  unfold Dev.locEcc
  split
  · exact h.bankEcc
  · exact h.ecc

theorem Canonical.locWrite {d : Dev} {n : Fin 128} {l : Loc} {bs : List Byte} (h : Canonical d) : Canonical (d.locWrite n l bs) := by
  unfold Dev.locWrite
  split
  · exact h.bankWrite
  · exact h.write

theorem Canonical.placeFars {d : Dev} {n : Fin 128} (h : Canonical d) : Canonical (d.placeFars n) := h

theorem Canonical.noteDemote {d : Dev} {n : Fin 128} {yes : Bool} (h : Canonical d) : Canonical (d.noteDemote n yes) := by
  unfold Dev.noteDemote
  extract_lets d1
  split
  · split
    · exact Canonical.onVdev h
    · exact h
  · exact h

theorem Canonical.settleFences {d : Dev} {n : Fin 128} (h : Canonical d) : Canonical (d.settleFences n) := by
  unfold Dev.settleFences
  extract_lets _ _ _ _ d1
  split
  · split
    · exact Canonical.flushHost h
    · exact h
  · exact h

theorem Canonical.setOp {d : Dev} {n : Fin 128} {i : Nat} {o : MemOp} (h : Canonical d) : Canonical (d.setOp n i o) := h.onTile

theorem Canonical.dropOp {d : Dev} {n : Fin 128} {i : Nat} (h : Canonical d) : Canonical (d.dropOp n i) := h.onTile.settleFences

/-! Memory operations -/

theorem Inv.putPoisoned {s : State} {lat : Nat} {dest : Dest} (hs : Inv s) : Inv (s.putPoisoned lat dest) :=
  Inv.put (show Inv s.unstated.2 from hs)

theorem Inv.timedLoad {s : State} {ea : W64} {dest : Dest} {code : BitVec 4} (hs : Inv s) : Inv (s.timedLoad ea dest code) := hs.put

theorem Inv.timedWrite {s : State} {perf : Nat} {sp : Space} {a n : Nat} {v : VReg} (hs : Inv s) :
    Inv (s.timedWrite perf sp a n v) := hs.onTile

theorem Inv.countDrop {s : State} (hs : Inv s) : Inv s.countDrop := hs.onTile

theorem Inv.svcRetry {s : State} (hs : Inv s) : Inv s.svcRetry := hs.onIss

theorem Canonical.setSvcWait {d : Dev} {q : Fin 32} {w : Wait} (h : Canonical d) : Canonical (d.setSvcWait q w) := h.onSvc

/-- The body stands in place of the name before the cases of `reach`, as in `Canonical.writeGen`. -/
theorem Inv.svcReach {s : State} {q : Fin 32} {dva : W64} {acc : AccKind} {go : Fin 32 → Nat → State → State} (hs : Inv s)
    (hgo : ∀ {b : Fin 32} {k : Nat} {s : State}, Inv s → Inv (go b k s)) : Inv (s.svcReach q dva acc go) := by
  suffices ∀ f, f = State.svcReach → Inv (f s q dva acc go) from this _ rfl
  delta State.svcReach
  rintro _ rfl
  beta_reduce
  extract_lets +onlyGivenNames s0
  have hs0 : Canonical s0.dev := hs.dev.setSvcWait
  split
  · exact hs.svcTrap
  · split
    · exact hgo (hs.withDev hs0.reach.fst)
    · have h1 := hs0.reach.fst
      exact Inv.svcRetry (hs.withDev h1.setSvcWait)
    · exact Inv.svcTrap (hs.withDev hs0.reach.fst)

theorem Inv.svcLoad {s : State} {q : Fin 32} {dva : W64} {k : DKind} {dest : Dest} {poison : Bool} {hint : BitVec 2}
    {strong acquire : Bool} (hs : Inv s) : Inv (s.svcLoad q dva k dest poison hint strong acquire) := by
  unfold State.svcLoad
  split
  · exact hs.putPoisoned
  · refine hs.svcReach fun h => ?_
    extract_lets r
    have hr : Canonical r.1 := by
      unfold r
      refine Canonical.pointRead ?_
      split
      · exact h.dev.flushHost
      · exact h.dev
    exact Inv.put (h.withDev hr)

theorem Inv.svcStore {s : State} {q : Fin 32} {dva : W64} {bs : List Byte} {poison : Bool} {hint : BitVec 2} {through release : Bool}
    (hs : Inv s) : Inv (s.svcStore q dva bs poison hint through release) := by
  unfold State.svcStore
  split
  · exact hs
  · refine hs.svcReach fun h => ?_
    refine h.onDev fun h1 => ?_
    refine Canonical.pointWrite ?_
    split
    · exact h1.flushHost
    · exact h1

theorem Inv.openSlot {s : State} {ls : Fin 64} {l : Landing} {dest : Dest} {failed : Bool} (hs : Inv s) :
    Inv (s.openSlot ls l dest failed) := hs.onTile

theorem Inv.sendOp {s : State} {o : MemOp} (hs : Inv s) : Inv (s.sendOp o) := hs.onTile

theorem Inv.demoted {s : State} {scope : Nat} (hs : Inv s) : Inv (s.demoted scope) := hs.onDev fun h => h.noteDemote

theorem execLdl_keeps {d a : Fin 32} {off : Option (BitVec 16)} {dk : DKind} {s : State} (hs : Inv s) :
    Keeps (execLdl d a off dk s) := by
  unfold execLdl
  extract_lets
  split
  · refine hs.attempt fun h => ?_
    split
    · exact h.putPoisoned
    · exact h.timedLoad
  · refine hs.attempt fun h => ?_
    extract_lets
    split
    · exact h.putPoisoned
    · exact Inv.put (h.onDev fun h1 => h1.ecc)

theorem execStl_keeps {d a : Fin 32} {off : Option (BitVec 16)} {dk : DKind} {s : State} (hs : Inv s) :
    Keeps (execStl d a off dk s) := by
  unfold execStl
  extract_lets
  split
  · refine hs.attempt fun h => ?_
    extract_lets
    split
    · exact h.countDrop
    · split
      · exact h.timedWrite.countDrop
      · exact h.timedWrite
  · refine hs.attempt fun h => ?_
    split
    · exact h
    · exact h.onDev fun h1 => h1.write

theorem execLdg_keeps {d a : Fin 32} {ls : Fin 64} {l : Landing} {dk : DKind2} {q : LdQual} {s : State} (hs : Inv s) :
    Keeps (execLdg d a ls l dk q s) := by
  unfold execLdg
  extract_lets
  refine hs.attempt fun h => ?_
  split
  · exact h.svcLoad
  · extract_lets
    split
    · exact h.openSlot
    · exact h.openSlot.sendOp.demoted

theorem execStg_keeps {d a : Fin 32} {off : Option (BitVec 16)} {dk : DKind} {q : StQual} {s : State} (hs : Inv s) :
    Keeps (execStg d a off dk q s) := by
  unfold execStg
  extract_lets
  refine hs.attempt fun h => ?_
  split
  · exact h.svcStore
  · extract_lets
    split
    · exact h.countDrop
    · exact h.sendOp.demoted

theorem execLdv_keeps {d a : Fin 32} {ls : Fin 64} {l : Landing} {dk : DKind2} {q : VOrd} {s : State} (hs : Inv s) :
    Keeps (execLdv d a ls l dk q s) := by
  unfold execLdv
  extract_lets
  split
  · refine hs.attempt fun h => ?_
    extract_lets
    split
    · exact h.openSlot
    · exact h.openSlot.sendOp
  · refine hs.attempt fun h => ?_
    split
    · exact h.putPoisoned
    · exact h.timedLoad

theorem execStv_keeps {d a : Fin 32} {off : Option (BitVec 16)} {dk : DKind} {q : VOrd} {s : State} (hs : Inv s) :
    Keeps (execStv d a off dk q s) := by
  unfold execStv
  extract_lets
  split
  · refine hs.attempt fun h => ?_
    extract_lets
    split
    · exact h.countDrop
    · exact h.sendOp
  · refine hs.attempt fun h => ?_
    extract_lets
    split
    · exact h.countDrop
    · split
      · exact h.timedWrite.countDrop
      · exact h.timedWrite

theorem Inv.timedAmo {s : State} {ea : W64} {d : Fin 32} {op : AmoOp} {v c : W64} {ord : AmoOrd} (hs : Inv s) :
    Inv (s.timedAmo ea d op v c ord) := hs.put

theorem Inv.atomic {s : State} {op : AmoOp} {d a : Fin 32} {ls : Fin 64} {l : Landing} {v c : W64} {poison acq rel : Bool}
    {scope : Nat} (hs : Inv s) : Keeps (s.atomic op d a ls l v c poison acq rel scope) := by
  unfold State.atomic
  extract_lets _ _ _ _ _ drop
  have hdrop : ∀ {s : State}, Inv s → Inv (drop s) := by
    intro s1 h
    exact h.openSlot.countDrop
  split
  · refine hs.attempt fun h => ?_
    split
    · exact h.putPoisoned
    · refine h.svcReach fun h1 => ?_
      extract_lets d0 r _ x
      have hd0 : Canonical d0 := by
        unfold d0
        split
        · exact h1.dev.flushHost
        · exact h1.dev
      have hx : Canonical x := by
        unfold x
        split
        · exact Canonical.pointWrite hd0.pointRead
        · exact hd0.pointRead
      exact Inv.put (h1.withDev hx)
  · split
    · refine hs.attempt fun h => ?_
      extract_lets s1'
      have hs1' : Inv s1' := by
        unfold s1'
        split
        · exact h
        · exact h.timedWrite.timedWrite
      split
      · exact hs1'.putPoisoned.countDrop
      · exact h.timedAmo.demoted
    · split
      · refine hs.attempt fun h => ?_
        split
        · exact hdrop h
        · exact h.openSlot.sendOp.demoted
      · refine hs.attempt fun h => ?_
        split
        · exact hdrop h
        · exact h.openSlot.sendOp.demoted

theorem Inv.amo {s : State} {op : AmoOp} {d a : Fin 32} {ls : Fin 64} {l : Landing} {q : Option Scope} (hs : Inv s) :
    Keeps (s.amo op d a ls l q) := hs.atomic

theorem execCas_keeps {d a : Fin 32} {ls : Fin 64} {l : Landing} {q : CasQual} {s : State} (hs : Inv s) :
    Keeps (execCas d a ls l q s) := by
  unfold execCas
  extract_lets
  exact hs.atomic

theorem Inv.fence {s : State} {acq rel : Bool} {scope : Nat} (hs : Inv s) : Keeps (s.fence acq rel scope) := by
  unfold State.fence
  split
  · refine Inv.next (hs.onDev fun h => ?_)
    extract_lets e
    have he : Canonical e := by
      unfold e
      split
      · exact h.onSvc
      · exact h
    split
    · split
      · exact he.flushHost
      · exact he
    · exact he
  · extract_lets
    exact Inv.next (hs.sendOp.demoted.onTile.onDev fun h => h.settleFences)

theorem execSti_keeps {d a : Fin 32} {off : Option (BitVec 16)} {dk : DKind} {s : State} (hs : Inv s) :
    Keeps (execSti d a off dk s) := by
  unfold execSti
  extract_lets
  refine hs.attempt fun h => ?_
  split
  · exact h.countDrop
  · exact h.timedWrite

theorem Inv.takeLate {s : State} {ls : Fin 64} (hs : Inv s) : Inv (s.takeLate ls) := hs.onTile

theorem execLget_keeps {ls : Fin 64} {p : Fin 8} {s : State} (hs : Inv s) : Keeps (execLget ls p s) := by
  unfold execLget
  extract_lets
  refine hs.attempt fun h => ?_
  refine Inv.putP ?_
  split
  · exact h
  · exact h.takeLate

theorem execZline_keeps {a : Fin 32} {off : Option (BitVec 16)} {s : State} (hs : Inv s) : Keeps (execZline a off s) := by
  unfold execZline
  extract_lets
  refine hs.attempt fun h => ?_
  split
  · exact h.svcStore
  · extract_lets
    split
    · exact h.countDrop
    · exact h.sendOp

theorem execPref_keeps {a : Fin 32} {off : Option (BitVec 16)} {ef : Bool} {s : State} (hs : Inv s) :
    Keeps (execPref a off ef s) := by
  unfold execPref
  extract_lets
  refine hs.attempt fun h => ?_
  split
  · refine h.onDev fun h1 => ?_
    split
    · split
      · exact h1.reach.fst.slcLoad
      · exact h1
    · exact h1
  · extract_lets
    split
    · exact h
    · exact h.sendOp

theorem execLaunch_keeps {a : Fin 32} {o : SOpd} {s : State} (hs : Inv s) : Keeps (execLaunch a o s) := by
  unfold execLaunch
  extract_lets
  refine hs.attempt fun h => ?_
  extract_lets
  split
  · exact h.countDrop
  · exact h.sendOp

theorem execEvpost_keeps {a : Fin 32} {code : Option (BitVec 16)} {s : State} (hs : Inv s) : Keeps (execEvpost a code s) := by
  unfold execEvpost
  refine hs.attempt fun h => ?_
  extract_lets
  split
  · exact h.countDrop
  · exact h.sendOp.demoted

/-! Exchange between tiles -/

theorem Inv.sendBeats {s : State} {x : XSrc} {routes : List (List Nat)} {each : Bool} (hs : Inv s) :
    Inv (s.sendBeats x routes each) := by
  unfold State.sendBeats
  split
  · exact hs
  · extract_lets _ _ _ s1
    split
    · split
      · exact hs.onDev fun h => h.onPanel
      · exact Inv.onTile (hs.onDev fun h => h.onPanel)
    · exact hs.onDev fun h => h.onPanel

theorem execRcv_keeps {dst : XSrc} {src : Fin 128} {s : State} (hs : Inv s) : Keeps (execRcv dst src s) := by
  unfold execRcv
  extract_lets
  refine hs.attempt fun h => ?_
  split
  · extract_lets _ s1'
    split
    · exact Inv.put (h.onDev fun h1 => h1.onPanel)
    · exact Inv.put (h.onDev fun h1 => h1.onPanel)
    · exact Inv.onTile (h.onDev fun h1 => h1.onPanel)
  · exact h

theorem execSndr_keeps {src : RSrc} {ta : Fin 32} {dst : Fin 128} {rty : Fin 4} {isMax : Bool} {sem : Fin 16} {s : State}
    (hs : Inv s) : Keeps (execSndr src ta dst rty isMax sem s) := by
  unfold execSndr
  extract_lets
  split
  · exact hs.attempt fun h => h.sendOp
  · extract_lets
    exact hs.attempt fun h => h.sendOp

theorem execSemw_keeps {p : Fin 8} {sem : Fin 16} {n : BitVec 8} {s : State} (hs : Inv s) : Keeps (execSemw p sem n s) := by
  unfold execSemw
  refine hs.attempt fun h => ?_
  extract_lets
  refine Inv.putP ?_
  split
  · exact h.onTile
  · exact h

theorem execSemi_keeps {sem : Fin 16} {a : Fin 32} {s : State} (hs : Inv s) : Keeps (execSemi sem a s) := by
  unfold execSemi
  refine hs.attempt fun h => ?_
  split <;> exact h.onTile

theorem execXfar_keeps {k : Fin 3} {r fa : Fin 32} {sem : Fin 16} {s : State} (hs : Inv s) : Keeps (execXfar k r fa sem s) := by
  unfold execXfar
  extract_lets
  refine hs.attempt fun h => ?_
  extract_lets
  split
  · exact h.countDrop
  · exact h.sendOp

theorem execXrcvf_keeps {d a : Fin 32} {ls : Fin 64} {l : Landing} {dk : DKind2} {sem : Fin 16} {s : State} (hs : Inv s) :
    Keeps (execXrcvf d a ls l dk sem s) := by
  unfold execXrcvf
  extract_lets
  refine hs.attempt fun h => ?_
  extract_lets
  split
  · exact h.openSlot
  · exact h.openSlot.sendOp.demoted

/-! The matrix unit -/

theorem Inv.onTpath {s : State} {o : PathOp} (hs : Inv s) : Inv (s.onTpath o) := hs.onTile

theorem Inv.onApath {s : State} {o : PathOp} (hs : Inv s) : Inv (s.onApath o) := hs.onTile

theorem Inv.tileLoad {s : State} {kind : PathKind} {t : Fin 8} {bank : Fin 16} {off : BitVec 16} {raw : Option (BitVec 4)}
    (hs : Inv s) : Keeps (s.tileLoad kind t bank off raw) := by
  unfold State.tileLoad
  extract_lets
  exact hs.attempt fun h => h.onTpath

theorem Inv.dropIf {s : State} {poison : Bool} (hs : Inv s) : Inv (s.dropIf poison) := by
  unfold State.dropIf
  split
  · exact hs.onTile
  · exact hs

theorem execMst_keeps {t : Fin 8} {bank : Fin 16} {off : BitVec 16} {raw : Bool} {s : State} (hs : Inv s) :
    Keeps (execMst t bank off raw s) := by
  unfold execMst
  extract_lets
  exact hs.attempt fun h => h.onTpath.dropIf

theorem Inv.startMma {s : State} {outl : Bool} {z : Fin 4} {a b : Fin 8} (hs : Inv s) : Keeps (s.startMma outl z a b) := by
  unfold State.startMma
  extract_lets
  exact hs.attempt fun h => h.onTile

theorem execZout_keeps {z : Fin 4} {zo : Option (Fin 4)} {tt : Option (Fin 8)} {bank : Fin 16} {off : BitVec 16} {st : Steps}
    {rm : RMode} {sat : Bool} {s : State} (hs : Inv s) : Keeps (execZout z zo tt bank off st rm sat s) := by
  unfold execZout
  extract_lets
  exact hs.attempt fun h => h.onApath.dropIf

theorem execZoutv_keeps {z : Fin 4} {zo : Option (Fin 4)} {tt : Option (Fin 8)} {td : Fin 8} {hi : Bool} {st : Steps} {rm : RMode}
    {sat : Bool} {fmt : VFmt} {s : State} (hs : Inv s) : Keeps (execZoutv z zo tt td hi st rm sat fmt s) := by
  unfold execZoutv
  extract_lets
  exact hs.attempt fun h => h.onApath

theorem execZld_keeps {z : Fin 4} {bank : Fin 16} {off : BitVec 16} {ty : Fin 3} {s : State} (hs : Inv s) :
    Keeps (execZld z bank off ty s) := by
  unfold execZld
  extract_lets
  refine hs.attempt fun h => ?_
  extract_lets s1'
  split
  · exact h.onApath
  · exact Inv.onTile h.onApath

theorem execZst_keeps {z : Fin 4} {bank : Fin 16} {off : BitVec 16} {s : State} (hs : Inv s) : Keeps (execZst z bank off s) := by
  unfold execZst
  extract_lets
  exact hs.attempt fun h => h.onApath.dropIf

theorem execZstat_keeps {bank : Fin 16} {off : BitVec 16} {s : State} (hs : Inv s) : Keeps (execZstat bank off s) := by
  unfold execZstat
  extract_lets
  exact hs.attempt fun h => h.onTpath

/-! Accesses through address spaces -/

theorem Canonical.pieceKeys {b : Fin 32} {a : Asker} {acc : AccKind} {record : Bool} {l : List (Nat × Nat)} {d : Dev}
    (h : Canonical d) : Canonical (Dev.pieceKeys b a acc record l d).1 := by
  induction l generalizing d with
  | nil => exact h
  | cons p l ih =>
    unfold Dev.pieceKeys
    split
    · exact h.reach.fst
    · exact h.reach.fst
    · have h1 := h.reach.fst
      split
      · exact (ih h1).fst
      · exact (ih h1).fst

theorem Canonical.rangeKeys {d : Dev} {b : Fin 32} {a : Asker} {acc : AccKind} {dva n : Nat} {record : Bool} (h : Canonical d) :
    Canonical (d.rangeKeys b a acc dva n record).1 := by
  unfold Dev.rangeKeys
  split
  · exact h
  · exact h.pieceKeys

theorem Canonical.dropLines {d : Dev} {b : Fin 32} {k n : Nat} (h : Canonical d) :
    Canonical (d.dropLines b k n) := h.foldl fun h1 => h1.foldl fun h2 => h2.slcDrop

theorem Canonical.readKeys {b : Fin 32} {l : List (Nat × Nat)} {d : Dev} (h : Canonical d) : Canonical (Dev.readKeys b l d).1 := by
  induction l generalizing d with
  | nil => exact h
  | cons p l ih => exact ih h.dropLines.ecc

theorem Canonical.vRead {d : Dev} {b : Fin 32} {a : Asker} {dva n : Nat} {record : Bool} (h : Canonical d) :
    Canonical (d.vRead b a dva n record).1 := by
  unfold Dev.vRead
  split
  · exact h.rangeKeys.fst.readKeys
  · exact h.rangeKeys.fst
  · exact h.rangeKeys.fst

theorem Canonical.writeKeys {b : Fin 32} {l : List (Nat × Nat)} {bs : List Byte} {d : Dev} (h : Canonical d) :
    Canonical (Dev.writeKeys b l bs d) := by
  induction l generalizing bs d with
  | nil => exact h
  | cons p l ih => exact ih h.dropLines.backRange.write

theorem Canonical.vWrite {d : Dev} {b : Fin 32} {a : Asker} {dva : Nat} {bs : List Byte} {record : Bool} (h : Canonical d) :
    Canonical (d.vWrite b a dva bs record).1 := by
  unfold Dev.vWrite
  split
  · exact h.rangeKeys.fst.writeKeys
  · exact h.rangeKeys.fst
  · exact h.rangeKeys.fst

theorem Canonical.shadowPiece {d : Dev} {n : Fin 128} {h : Nat} {x : Nat × Nat} (hd : Canonical d) :
    Canonical (d.shadowPiece n h x) := by
  unfold Dev.shadowPiece
  split
  · split
    · exact hd.reach.fst.dropLines.backRange.copy
    · exact hd.reach.fst.onTile.onPanel
    · exact hd.reach.fst
  · exact hd

theorem Canonical.pumpShadows {d : Dev} {p : Panel} (h : Canonical d) : Canonical (d.pumpShadows p) := by
  unfold Dev.pumpShadows
  extract_lets one d1
  have hone : ∀ {d : Dev} {n : Fin 128}, Canonical d → Canonical (one d n) := by
    intro e n h1
    unfold one
    extract_lets _ d1'
    split
    · exact h1
    · exact Canonical.foldl h1 fun h2 => h2.shadowPiece
  split
  · exact h
  · split
    · exact Canonical.onPanel (h.foldl fun h1 => hone h1)
    · exact h.foldl fun h1 => hone h1

theorem Canonical.ispWrite {d : Dev} {n : Fin 128} {h off : Nat} {bs : List Byte} (hd : Canonical d) :
    Canonical (d.ispWrite n h off bs) := by
  unfold Dev.ispWrite
  extract_lets d0
  split
  · exact Canonical.foldl hd.write fun h1 => h1.shadowPiece
  · exact hd.write

theorem Canonical.idleWrite {d : Dev} {n : Fin 128} {off : Nat} {bs : List Byte} (h : Canonical d) :
    Canonical (d.idleWrite n off bs) := h.ispWrite.onTile

/-! Timed accesses -/

theorem execDueResultWrite_keeps {n : Fin 128} {s : State} (hs : Inv s) : Keeps (execDueResultWrite n s) := by
  unfold execDueResultWrite
  extract_lets
  exact Inv.next (hs.onDev fun h => h.foldl fun h1 => h1.writeDue)

theorem Canonical.performRead {d : Dev} {n : Fin 128} {psc : Nat} {f : Flight} (h : Canonical d) :
    Canonical (d.performRead n psc f).1 := by
  unfold Dev.performRead
  split
  · extract_lets _ _ r
    split
    · split <;> exact h.locEcc
    · exact h
  · exact h

theorem Canonical.performWrite {d : Dev} {n : Fin 128} {psc : Nat} {f : Flight} (h : Canonical d) :
    Canonical (d.performWrite n psc f).1 := by
  unfold Dev.performWrite
  split
  · extract_lets
    split
    · split
      · exact h
      · split
        · exact h
        · split
          · exact h.idleWrite
          · exact h.locWrite
    · exact h
  · extract_lets
    split
    · split
      · exact h.locWrite
      · exact h
    · exact h
  · exact h

theorem Canonical.readAtomic {d : Dev} {n : Fin 128} {psc : Nat} {f : Flight} (h : Canonical d) :
    Canonical (d.readAtomic n psc f).1 := by
  unfold Dev.readAtomic
  split
  · extract_lets _ d1
    split
    · split
      · exact Canonical.elim h.locEcc (Canonical.flushHost h.locEcc)
      · exact h.locEcc
    · exact h
  · exact h

theorem Canonical.overList {α : Type} {f : Dev → α → Dev × α} {l : List α} {d : Dev} (h : Canonical d)
    (hf : ∀ {d : Dev} {a : α}, Canonical d → Canonical (f d a).1) : Canonical (overList f l d).1 := by
  induction l generalizing d with
  | nil => exact h
  | cons a l ih => exact ih (hf h)

theorem Canonical.sndrRead {d : Dev} {n : Fin 128} {psc : Nat} {o : MemOp} (h : Canonical d) : Canonical (d.sndrRead n psc o).1 := by
  unfold Dev.sndrRead
  extract_lets
  split
  · exact h.bankEcc
  · exact h

theorem Canonical.pathAccess {n : Fin 128} {psc : Nat} {reads sat : Bool} {d : Dev} {o : PathOp} (h : Canonical d) :
    Canonical (Dev.pathAccess n psc reads sat d o).1 := by
  unfold Dev.pathAccess
  split
  · exact h.performPath
  · exact h

theorem execTimedAccessPerform_keeps {n : Fin 128} {s : State} (hs : Inv s) : Keeps (execTimedAccessPerform n s) := by
  unfold execTimedAccessPerform
  refine Inv.next (hs.onDev fun h => ?_)
  extract_lets _ fr ops tr ar fw tw aw at_ put
  have hfr : Canonical fr.1 := h.overList fun h1 => h1.performRead
  have hops : Canonical ops.1 := hfr.overList fun h1 => h1.sndrRead
  have htr : Canonical tr.1 := hops.overList fun h1 => h1.pathAccess
  have har : Canonical ar.1 := htr.overList fun h1 => h1.pathAccess
  have hfw : Canonical fw.1 := har.overList fun h1 => h1.performWrite
  have htw : Canonical tw.1 := hfw.overList fun h1 => h1.pathAccess
  have haw : Canonical aw.1 := htw.overList fun h1 => h1.pathAccess
  have hat : Canonical at_.1 := haw.overList fun h1 => h1.readAtomic
  exact hat.onTile.settleFences

theorem execLandingArrival_keeps {n : Fin 128} {ls : Fin 64} {s : State} (hs : Inv s) : Keeps (execLandingArrival n ls s) := by
  unfold execLandingArrival
  refine Inv.next (hs.onDev fun h => ?_)
  split
  · exact h
  · split
    · exact h
    · exact h.onTile.dropOp

theorem Canonical.noteFlit {d : Dev} {p : Panel} {src dst : Nat} (h : Canonical d) : Canonical (d.noteFlit p src dst) := by
  unfold Dev.noteFlit
  split
  · exact h
  · refine h.foldl fun h1 => ?_
    split
    · exact h1.onRouter
    · exact h1

theorem Canonical.noteBeats {d : Dev} {p : Panel} {l : List Beat} {psc : Nat} (h : Canonical d) :
    Canonical (d.noteBeats p l psc) := h.foldl fun h1 => h1.foldl fun h2 => h2.noteFlit

theorem execBeatArrival_keeps {h : Nat} {s : State} (hs : Inv s) : Keeps (execBeatArrival h s) := by
  unfold execBeatArrival
  refine Inv.next (hs.onDev fun h1 => ?_)
  split
  · exact h1
  · exact Canonical.noteBeats (h1.onPanel.foldl fun h2 => h2.countTile)

theorem execBarrierArrival_keeps {n : Fin 128} {g : Fin 8} {s : State} (hs : Inv s) : Keeps (execBarrierArrival n g s) := by
  unfold execBarrierArrival
  refine Inv.next (hs.onDev fun h => ?_)
  split
  · exact h
  · extract_lets
    split
    · exact h
    · exact h.onTile

theorem execBarrierRelease_keeps {h : Nat} {g : Fin 8} {s : State} (hs : Inv s) : Keeps (execBarrierRelease h g s) := by
  unfold execBarrierRelease
  refine Inv.next (hs.onDev fun h1 => ?_)
  split
  · exact h1
  · exact h1.foldl fun h2 => h2.onTile

theorem execTimingFault_keeps {h : Nat} {sub : BitVec 4} {s : State} (hs : Inv s) : Keeps (execTimingFault h sub s) := by
  unfold execTimingFault
  refine Inv.next (hs.onDev fun h1 => ?_)
  split <;> exact h1

/-! Outstanding operations -/

theorem Canonical.answer {d : Dev} {n : Fin 128} {i : Nat} {o : MemOp} {data : VReg} {poison : Bool} (h : Canonical d) :
    Canonical (d.answer n i o data poison) := h.setOp.settleFences

theorem Canonical.endFailed {d : Dev} {n : Fin 128} {i : Nat} {o : MemOp} (h : Canonical d) : Canonical (d.endFailed n i o) := by
  unfold Dev.endFailed
  split
  · exact h.setOp.settleFences
  · split
    · exact h.dropOp
    · exact h.countTile.dropOp

theorem Canonical.performGlobal {d : Dev} {b : Fin 32} {n : Fin 128} {i : Nat} {o : MemOp} {key : Nat} (h : Canonical d) :
    Canonical (d.performGlobal b n i o key) := by
  unfold Dev.performGlobal
  extract_lets d0 _ r r' _ _ e
  have hd0 : Canonical d0 := by
    unfold d0
    split
    · exact h.flushHost
    · exact h
  have he : Canonical e := by
    unfold e
    split
    · exact Canonical.ownLine (Canonical.pointWrite hd0.pointRead)
    · exact hd0.pointRead
  split
  · exact Canonical.answer hd0.pointRead
  · exact he.answer
  · exact hd0.pointWrite.ownLine.dropOp
  · exact hd0.slcLoad.dropOp
  · exact hd0.pointWrite.ownLine.dropOp

/-- The body stands in place of the name and a variable in that of `reach`, of which only its lemma is used: the kernel would otherwise
run it to compare cases. -/
theorem execGlobalAccessPerform_keeps {n : Fin 128} {i : Nat} {s : State} (hs : Inv s) : Keeps (execGlobalAccessPerform n i s) := by
  suffices ∀ {reach : Dev → Fin 32 → Asker → Nat → AccKind → Bool → Dev × Reach} {perform},
      (∀ {d b a dva acc record}, Canonical d → Canonical (reach d b a dva acc record).1) →
      reach = @Dev.reach → perform = execGlobalAccessPerform → Keeps (perform n i s) from this (fun h => Canonical.reach h) rfl rfl
  intro reach perform hreach hr hp
  delta execGlobalAccessPerform at hp
  rw [← hr] at hp
  subst hp
  refine Inv.next (hs.onDev fun h => ?_)
  split
  · split
    · extract_lets
      split
      · exact (hreach h).fst.performGlobal
      · have h1 := (hreach h).fst
        split
        · exact h1.dropOp
        · exact h1.setOp
      · exact (hreach h).fst.endFailed
    · exact h
  · exact h

theorem Canonical.endLateral {d : Dev} {n : Fin 128} {i : Nat} {o : MemOp} (h : Canonical d) : Canonical (d.endLateral n i o) := by
  unfold Dev.endLateral
  split
  · exact h.setOp.settleFences
  · exact h.dropOp

theorem execLateralAccessPerform_keeps {n : Fin 128} {i : Nat} {s : State} (hs : Inv s) : Keeps (execLateralAccessPerform n i s) := by
  unfold execLateralAccessPerform
  refine Inv.next (hs.onDev fun h => ?_)
  split
  · split
    · extract_lets _ _ d00 d0 e
      have hd0 : Canonical d0 := by
        unfold d0
        split
        · exact Canonical.flushHost h.noteFlit
        · exact h.noteFlit
      split
      · exact h
      · split
        · exact Canonical.endLateral (Canonical.countTile h.noteFlit)
        · split
          · exact Canonical.dropOp (Canonical.write hd0.ecc)
          · exact Canonical.endLateral (Canonical.countTile h.noteFlit)
        · split
          · exact Canonical.answer hd0.ecc
          · refine Canonical.answer ?_
            split
            · exact Canonical.write hd0.ecc
            · exact hd0.ecc
          · exact Canonical.dropOp (Canonical.write hd0.ecc)
    · exact h
  · exact h

theorem Canonical.addAt {d : Dev} {n : Fin 128} {o : MemOp} (h : Canonical d) : Canonical (d.addAt n o) := by
  unfold Dev.addAt
  extract_lets _ _ _ _ _ _ _ _ _ _ _ d1 d2
  have hd2 : Canonical d2 := by
    unfold d2
    split
    · exact Canonical.foldl h.bankEcc.bankWrite fun h1 => h1.write
    · exact h.bankEcc.bankWrite
  split
  · exact h.onTile
  · exact hd2.onTile

theorem execSndrAddition_keeps {n : Fin 128} {i : Nat} {s : State} (hs : Inv s) : Keeps (execSndrAddition n i s) := by
  unfold execSndrAddition
  refine Inv.next (hs.onDev fun h => ?_)
  split
  · split
    · split
      · exact h.countTile.dropOp
      · exact h.noteFlit.addAt.onTile.dropOp
    · exact h
  · exact h

theorem execSemvIncrement_keeps {n : Fin 128} {i : Nat} {s : State} (hs : Inv s) : Keeps (execSemvIncrement n i s) := by
  unfold execSemvIncrement
  refine Inv.next (hs.onDev fun h => ?_)
  split
  · split
    · split
      · exact h.countTile.dropOp
      · exact h.noteFlit.onTile.dropOp
    · exact h
  · exact h

theorem Canonical.seamSend {d : Dev} {p : Fin 8} {f : SeamFlit} (h : Canonical d) : Canonical (d.seamSend p f) := h

theorem Canonical.sendFar {d e : Dev} {n : Fin 128} {o : MemOp} {b : Bool} (h : Canonical d)
    (he : d.sendFar n o = some (e, b) := by assumption) : Canonical e := by
  have hall : ∀ p, d.sendFar n o = some p → Canonical p.1 := by
    unfold Dev.sendFar
    extract_lets _ drop
    have hdrop : ∀ p, some drop = some p → Canonical p.1 := by
      rintro _ ⟨⟩
      exact h
    split
    · exact hdrop
    · split
      · exact hdrop
      · split
        · rintro _ ⟨⟩
          exact h
        · split
          · exact hdrop
          · extract_lets x
            split
            · exact hdrop
            · split
              · rintro _ ⟨⟩
                exact h.seamSend
              · rintro _ ⟨⟩
  exact hall _ he

theorem Canonical.endFar {d : Dev} {f : SeamFlit} (h : Canonical d) : Canonical (d.endFar f) := by
  unfold Dev.endFar
  extract_lets
  split
  · exact h
  · split
    · exact h.dropOp
    · exact h

theorem Canonical.endFars {d : Dev} {l : List SeamFlit} (h : Canonical d) : Canonical (d.endFars l) := h.foldl fun h1 => h1.endFar

theorem Canonical.post {d : Dev} {n : Fin 128} {i : Nat} {o : MemOp} {p : Panel} (h : Canonical d) :
    Canonical (d.post n i o p) := Canonical.dropOp h

theorem execOutboundAccept_keeps {n : Fin 128} {i : Nat} {s : State} (hs : Inv s) : Keeps (execOutboundAccept n i s) := by
  unfold execOutboundAccept
  refine Inv.next (hs.onDev fun h => ?_)
  split
  · exact h
  · extract_lets
    split
    · split
      · exact h.sendFar.setOp
      · exact h.sendFar.dropOp
      · exact h
    · exact h.post
    · exact h.post
    · exact h.setOp

theorem Canonical.deliverFar {d : Dev} {f : SeamFlit} (h : Canonical d) : Canonical (d.deliverFar f) := by
  unfold Dev.deliverFar
  extract_lets _ _ _ drop put
  have hput : ∀ {l : Loc}, Canonical (put l) := by
    intro l
    exact h.locWrite.onTile
  split
  · exact h.onMc
  · split
    · exact h.count
    · split
      · exact h.countTile
      · split
        · exact h
        · split
          · split
            · exact h
            · exact hput
          · exact hput
          · exact h

theorem execXfarDelivery_keeps {i : Nat} {s : State} (hs : Inv s) : Keeps (execXfarDelivery i s) := by
  unfold execXfarDelivery
  refine Inv.next (hs.onDev fun h => ?_)
  split
  · split
    · exact h
    · exact Canonical.endFar (Canonical.deliverFar h)
  · extract_lets
    split
    · split
      · exact h.onSeam.deliverFar
      · exact h
    · exact h

theorem execXrcvfTake_keeps {n : Fin 128} {i : Nat} {s : State} (hs : Inv s) : Keeps (execXrcvfTake n i s) := by
  unfold execXrcvfTake
  refine Inv.next (hs.onDev fun h => ?_)
  split
  · extract_lets
    split
    · split
      · extract_lets _ e e1
        have he1 : Canonical e1 := by
          unfold e1
          split
          · exact Canonical.elim h.locEcc (Canonical.flushHost h.locEcc)
          · exact h.locEcc
        exact he1.onTile.answer
      · exact h
    · exact h
  · exact h

/-! Copy engine transfers: targets, reads and writes -/

theorem Canonical.target {d : Dev} {n : Fin 128} {b : Fin 32} {a : Asker} {acc : AccKind} {r : Nat × Nat} (h : Canonical d) :
    Canonical (d.target n b a acc r).1 := by
  unfold Dev.target
  split
  · exact h
  · split
    · split
      · split <;> exact h
      · exact h
    · split <;> exact h.rangeKeys.fst

theorem Canonical.targets {n : Fin 128} {b : Fin 32} {a : Asker} {acc : AccKind} {l : List (Nat × Nat)} {d : Dev} (h : Canonical d) :
    Canonical (Dev.targets n b a acc l d).1 := by
  induction l generalizing d with
  | nil => exact h
  | cons r l ih =>
    unfold Dev.targets
    split
    · exact ih h.target.fst
    · exact ih h.target.fst
    · exact h.target.fst

theorem Canonical.readTarget {d : Dev} {n : Fin 128} {b : Fin 32} {fmt : Nat → W32} {hint : BitVec 2} {len : Nat} {t : Target}
    (h : Canonical d) : Canonical (d.readTarget n b fmt hint len t).1 := by
  unfold Dev.readTarget
  split
  · exact h.bankEcc
  · exact h.locEcc
  · exact Canonical.foldlFst h fun h1 => h1.pointRead
  · exact h

theorem Canonical.writePieces {b : Fin 32} {space : Nat} {hint : BitVec 2} {l : List (Nat × Nat)} {bs : List Byte} {d : Dev}
    (h : Canonical d) : Canonical (Dev.writePieces b space hint l bs d) := by
  induction l generalizing bs d with
  | nil => exact h
  | cons p l ih => exact ih h.pointWrite.ownLine

theorem Canonical.writeTarget {d : Dev} {n : Fin 128} {b : Fin 32} {fmt : Nat → W32} {hint : BitVec 2} {t : Target} {bs : List Byte}
    (h : Canonical d) : Canonical (d.writeTarget n b fmt hint t bs) := by
  unfold Dev.writeTarget
  split
  · exact h.bankWrite
  · exact h.locWrite
  · exact h.writePieces
  · exact h

theorem Canonical.readAll {n : Fin 128} {b : Fin 32} {fmt : Nat → W32} {hint : BitVec 2} {l : List (Target × Nat)} {d : Dev}
    (h : Canonical d) : Canonical (Dev.readAll n b fmt hint l d).1 := by
  induction l generalizing d with
  | nil => exact h
  | cons t l ih => exact ih h.readTarget

theorem Canonical.writeAll {n : Fin 128} {b : Fin 32} {fmt : Nat → W32} {hint : BitVec 2} {l : List (Target × List Byte)} {d : Dev}
    (h : Canonical d) : Canonical (Dev.writeAll n b fmt hint l d) := by
  induction l generalizing d with
  | nil => exact h
  | cons t l ih => exact ih h.writeTarget

/-! Copy engine commands -/

theorem Canonical.resolveXfer {d : Dev} {n : Fin 128} {k : Fin 32} {x : Xfer} {st : TokSt} {status : Byte} (h : Canonical d) :
    Canonical (d.resolveXfer n k x st status) := by
  unfold Dev.resolveXfer
  extract_lets _ d1 d2
  split
  · split
    · split
      · exact Canonical.flushHost (Canonical.noteDemote h)
      · exact Canonical.noteDemote h
    · exact Canonical.noteDemote h
  · exact h

theorem Inv.ceIssue {s : State} {cmd : XCmd} {tp : Fin 32} {rs : RecSrc} (hs : Inv s) : Keeps (s.ceIssue cmd tp rs) := by
  unfold State.ceIssue
  refine hs.attempt fun h => ?_
  extract_lets
  split <;> exact h.onTile

theorem execCeRep_keeps {tp ts : Fin 32} {s : State} (hs : Inv s) : Keeps (execCeRep tp ts s) := by
  unfold execCeRep
  refine hs.attempt fun h => ?_
  extract_lets
  split <;> exact h

theorem execCeCan_keeps {k : Fin 32} {s : State} (hs : Inv s) : Keeps (execCeCan k s) := by
  unfold execCeCan
  extract_lets
  split
  · exact Inv.next (hs.onDev fun h => h.resolveXfer.onTile)
  · exact hs.onTile.next
  · exact hs.next

theorem Inv.ceStat {s : State} {d k : Fin 32} {f : Tile → Token → Nat} (hs : Inv s) : Keeps (s.ceStat d k f) := by
  unfold State.ceStat
  extract_lets
  exact hs.putS.next

theorem Canonical.engineUsed {d : Dev} {n : Fin 128} (h : Canonical d) : Canonical (d.engineUsed n) := h.onTile

theorem execTransferStart_keeps {n : Fin 128} {k : Fin 32} {s : State} (hs : Inv s) : Keeps (execTransferStart n k s) := by
  unfold execTransferStart
  refine Inv.next (hs.onDev fun h => ?_)
  extract_lets _ d1
  split
  · extract_lets
    split
    · split
      · exact Canonical.resolveXfer h.engineUsed
      · split
        · exact Canonical.resolveXfer h.engineUsed
        · exact Canonical.onTile h.engineUsed
    · exact h
  · exact h

theorem Canonical.readTagged {d : Dev} {n : Fin 128} {b : Fin 32} {a : Asker} {fmt : Nat → W32} {hint : BitVec 2}
    {l : List (Nat × Nat)} (h : Canonical d) : Canonical (d.readTagged n b a fmt hint l).1 := by
  unfold Dev.readTagged
  split
  · exact h.targets.fst
  · exact h.targets.fst.readAll

theorem Canonical.settleXfer {d : Dev} {n : Fin 128} {k : Fin 32} (h : Canonical d) : Canonical (d.settleXfer n k) := by
  unfold Dev.settleXfer
  extract_lets
  split
  · exact h
  · split
    · exact h
    · split
      · exact h.resolveXfer
      · split <;> exact h.resolveXfer

theorem Canonical.endChunk {d : Dev} {n : Fin 128} {k : Fin 32} {x : Xfer} {c : Piece} {opened : Bool} {e : ChunkEnd}
    (h : Canonical d) : Canonical (d.endChunk n k x c opened e) := by
  unfold Dev.endChunk
  split
  · exact h.onTile.settleXfer
  · exact h.onTile.settleXfer
  · exact h.resolveXfer
  · exact h.onTile.settleXfer

theorem Canonical.chunkSides {d : Dev} {n : Fin 128} {b : Fin 32} {a : Asker} {x : Xfer} {r : Nat} (h : Canonical d) :
    Canonical (d.chunkSides n b a x r).1 := by
  unfold Dev.chunkSides
  split
  · exact h
  · split
    · exact h
    · split
      · exact h.readTagged.fst
      · have h1 := h.readTagged.fst
        extract_lets
        split
        · split
          · exact h1
          · split <;> exact h1
        · split
          · exact h1
          · split <;> exact h1

theorem Canonical.markZero {d : Dev} {q : Fin 32} {line : Nat} (h : Canonical d) : Canonical (d.markZero q line) := h

theorem Canonical.zeroFill {d : Dev} {b : Fin 32} {x : Xfer} {ts : List Target} {at_ : List Nat} (h : Canonical d) :
    Canonical (d.zeroFill b x ts at_) := by
  unfold Dev.zeroFill
  split
  · split
    · exact h.markZero
    · exact h
  · exact h

theorem Canonical.moveChunk {d : Dev} {n : Fin 128} {b : Fin 32} {a : Asker} {x : Xfer} {y : Sides} {r j m : Nat} (h : Canonical d) :
    Canonical (d.moveChunk n b a x y r j m).1 := by
  unfold Dev.moveChunk
  extract_lets _ _ fd rd out scale
  have hrd : Canonical rd.1 := by
    unfold rd
    split
    · exact h
    · exact h.readTagged
  clear_value rd
  split
  · exact hrd
  · split
    · split
      · exact hrd
      · exact hrd.idleWrite
    · split
      · exact hrd.targets.fst
      · have h1 := hrd.targets.fst
        extract_lets old
        have hold : Canonical old.1 := by
          unfold old
          split
          · exact h1.readAll
          · exact h1
        split
        · exact hold
        · exact hold.writeAll.zeroFill

theorem Canonical.rowChunk {d : Dev} {n : Fin 128} {b k : Fin 32} {a : Asker} {x : Xfer} {p : Piece} (h : Canonical d) :
    Canonical (d.rowChunk n b k a x p) := by
  unfold Dev.rowChunk
  extract_lets
  split
  · exact h.chunkSides.fst.endChunk
  · exact h.chunkSides.fst.moveChunk.endChunk

theorem Canonical.packedRead {d : Dev} {n : Fin 128} {b : Fin 32} {a : Asker} {x : Xfer} {at_ len : Nat} (h : Canonical d) :
    Canonical (d.packedRead n b a x at_ len).1 := by
  unfold Dev.packedRead
  split <;> exact h.readTagged.fst

theorem Canonical.packedItem {d : Dev} {n : Fin 128} {b : Fin 32} {a : Asker} {x : Xfer} {pos o : Nat} (h : Canonical d) :
    Canonical (d.packedItem n b a x pos o).1 := by
  unfold Dev.packedItem
  split
  · exact h.packedRead.fst
  · have h1 := h.packedRead.fst
    extract_lets
    split
    · exact h1
    · split
      · split
        · exact h1
        · split
          · exact h1.packedRead.fst
          · split <;> exact h1.packedRead.fst
      · split
        · exact h1
        · split <;> exact h1.packedRead.fst

theorem Canonical.packedFill {n : Fin 128} {b : Fin 32} {a : Asker} {fuel : Nat} {d : Dev} {x : Filled} (h : Canonical d) :
    Canonical (Dev.packedFill n b a fuel d x).1 := by
  induction fuel generalizing d x with
  | zero => exact h
  | succ fuel ih =>
    obtain ⟨x, acc, bad⟩ := x
    unfold Dev.packedFill
    extract_lets
    split
    · exact h
    · split
      · exact h.packedItem.fst
      · exact ih h.packedItem.fst

theorem Canonical.packedTable {d : Dev} {n : Fin 128} {b : Fin 32} {a : Asker} {x : Xfer} (h : Canonical d) :
    Canonical (d.packedTable n b a x).1 := by
  unfold Dev.packedTable
  split
  · exact h
  · split
    · exact h.packedRead.fst
    · split <;> exact h.packedRead.fst

theorem Canonical.packedStop {d : Dev} {n : Fin 128} {k : Fin 32} {x : Xfer} {opened : Bool} {st : Stop} (h : Canonical d) :
    Canonical (d.packedStop n k x opened st) := by
  unfold Dev.packedStop
  split
  · exact h.resolveXfer
  · exact h.resolveXfer
  · extract_lets
    split
    · exact h.onTile
    · exact h.onTile.settleXfer

theorem Canonical.packedChunk {d : Dev} {n : Fin 128} {b k : Fin 32} {a : Asker} {x : Xfer} (h : Canonical d) :
    Canonical (d.packedChunk n b k a x) := by
  unfold Dev.packedChunk
  extract_lets stop
  have hstop : ∀ {d : Dev} {st : Stop}, Canonical d → Canonical (stop d st) := by
    intro e st h1
    exact h1.packedStop
  split
  · exact hstop h
  · split
    · exact hstop h.packedTable.fst
    · have h1 := h.packedTable.fst
      split
      · exact hstop h1.packedFill.fst
      · have h2 := h1.packedFill.fst
        extract_lets
        split
        · exact hstop h2
        · split
          · exact h2.onTile.settleXfer
          · exact h2.idleWrite.onTile.settleXfer

theorem execChunkComplete_keeps {n : Fin 128} {k : Fin 32} {s : State} (hs : Inv s) : Keeps (execChunkComplete n k s) := by
  unfold execChunkComplete
  refine Inv.next (hs.onDev fun h => ?_)
  split
  · extract_lets _ d1
    split
    · exact Canonical.packedChunk h.engineUsed
    · split
      · exact Canonical.rowChunk h.engineUsed
      · exact h
  · exact h

/-! Images and snapshots -/

theorem Canonical.dropSnap {d : Dev} {n : Fin 128} {x : Snap} (h : Canonical d) : Canonical (d.dropSnap n x) := by
  unfold Dev.dropSnap
  extract_lets
  split
  · exact h.onTile
  · exact h.onTile
  · exact h.onTile
  · split
    · exact h
    · split <;> exact h

/-! Launches, events and completion records -/

theorem Canonical.onLaunch {d : Dev} {v l : Nat} {f : Launch → Launch} (h : Canonical d) : Canonical (d.onLaunch v l f) := h.onVdev

theorem Canonical.msix {d : Dev} {port : Fin 2} {fn vec : Nat} (h : Canonical d) : Canonical (d.msix port fn vec) := by
  unfold Dev.msix
  split
  · exact h.onPort
  · exact h

theorem Canonical.msixVdev {d : Dev} {v vec : Nat} (h : Canonical d) : Canonical (d.msixVdev v vec) := by
  unfold Dev.msixVdev
  split
  · exact h.msix
  · exact h

theorem Canonical.flushEvents {b : Fin 32} {n : Nat} {l : List (BitVec 256)} {d : Dev} (h : Canonical d) :
    Canonical (Dev.flushEvents b n l d) := by
  induction l generalizing d with
  | nil => exact h.onVdev
  | cons e l ih =>
    unfold Dev.flushEvents
    split
    · exact h
    · extract_lets
      split
      · exact ih h.onVdev
      · split
        · have h1 := h.vWrite.fst
          extract_lets d2
          refine ih ?_
          split
          · exact h1.onVdev.msixVdev
          · exact h1.onVdev
        · exact h.vWrite.fst.onVdev
        · exact ih h.vWrite.fst.onVdev

theorem Canonical.pumpEvents {d : Dev} {n : Nat} (h : Canonical d) : Canonical (d.pumpEvents n) := by
  unfold Dev.pumpEvents
  split
  · exact h
  · split
    · exact h.flushEvents
    · exact h.flushEvents
    · exact h.flushEvents
    · exact h.flushEvents
    · exact h.onVdev.flushEvents
    · exact h

theorem Canonical.postEvent {d : Dev} {n : Nat} {e : BitVec 256} (h : Canonical d) :
    Canonical (d.postEvent n e) := h.onVdev.pumpEvents

theorem Canonical.subref {d : Dev} {n reason dva spool : Nat} (h : Canonical d) :
    Canonical (d.subref n reason dva spool) := h.postEvent

theorem Canonical.ringStep {d : Dev} {v : Vdev} {l : Launch} (h : Canonical d) : Canonical (d.ringStep v l) := by
  unfold Dev.ringStep
  extract_lets _ _ _ lose hold
  have hlose : ∀ {d : Dev}, Canonical d → Canonical (lose d) := by
    intro e h1
    exact h1.onVdev
  have hhold : ∀ {d : Dev} {w : Wait}, Canonical d → Canonical (hold d w) := by
    intro e w h1
    exact h1.onVdev
  split
  · exact hlose h
  · split
    · exact hhold h.vRead.fst
    · exact hlose h.vRead.fst
    · have h1 := h.vRead.fst
      split
      · exact hlose h1
      · split
        · exact h1.onVdev
        · split
          · exact hhold h1.vWrite.fst
          · exact hlose h1.vWrite.fst
          · exact h1.vWrite.fst.flushHost.onVdev.msixVdev

theorem Canonical.finishLaunch {d : Dev} {n l : Nat} (h : Canonical d) : Canonical (d.finishLaunch n l) := by
  unfold Dev.finishLaunch
  extract_lets _ d0
  split <;> exact h

theorem Canonical.failLaunch {d : Dev} {n l code detail : Nat} (h : Canonical d) :
    Canonical (d.failLaunch n l code detail) := h.onLaunch.finishLaunch

theorem Canonical.finishCut {d : Dev} {n l cut : Nat} (h : Canonical d) : Canonical (d.finishCut n l cut) := by
  unfold Dev.finishCut
  split
  · exact h
  · extract_lets d1
    split
    · split
      · exact Canonical.finishLaunch (h.elim h.flushHost)
      · exact h.elim h.flushHost
    · exact h.elim h.flushHost

theorem Canonical.failCut {d : Dev} {n l cut code detail : Nat} (h : Canonical d) :
    Canonical (d.failCut n l cut code detail) := h.onLaunch.finishCut

theorem Canonical.replayCut {d : Dev} {n l cut code : Nat} (h : Canonical d) : Canonical (d.replayCut n l cut code) := by
  unfold Dev.replayCut
  split
  · exact h
  · exact h.failCut

theorem Canonical.noteCut {d : Dev} {p : Panel} (h : Canonical d) : Canonical (d.noteCut p) := h.onLaunch

theorem Canonical.scrubTile {d : Dev} {n : Fin 128} {window : Bool} (h : Canonical d) :
    Canonical (d.scrubTile n window) := h.clear.clear.clear

theorem Canonical.removePanel {d : Dev} {p : Panel} {window : Bool} (h : Canonical d) :
    Canonical (d.removePanel p window) := h.foldl fun h1 => h1.scrubTile.onRouter

theorem Canonical.scrubPreload {d : Dev} {n : Fin 128} (h : Canonical d) : Canonical (d.scrubPreload n) := by
  unfold Dev.scrubPreload
  extract_lets _ d1 d2
  have hd1 : Canonical d1 := by
    unfold d1
    refine h.foldl fun h1 => ?_
    split
    · exact h1.clear
    · exact h1
  have hd2 : Canonical d2 := by
    unfold d2
    split
    · exact hd1.clear
    · exact hd1
  exact hd2.onTile

theorem Canonical.dropPreload {d : Dev} {p : Panel} (h : Canonical d) : Canonical (d.dropPreload p) := by
  unfold Dev.dropPreload
  extract_lets d1
  split
  · exact h
  · split
    · exact Canonical.removePanel (h.foldl fun h1 => h1.scrubPreload)
    · exact h.foldl fun h1 => h1.scrubPreload

theorem Canonical.dropPreloads {d : Dev} {v l : Nat} (h : Canonical d) :
    Canonical (d.dropPreloads v l) := h.foldl fun h1 => h1.dropPreload

theorem Canonical.scrubKeep {d : Dev} {n : Fin 128} {window : Bool} (h : Canonical d) : Canonical (d.scrubKeep n window) := by
  unfold Dev.scrubKeep
  extract_lets _ d1 d2 d3 d4
  have hd1 : Canonical d1 := by
    unfold d1
    refine h.foldl fun h1 => ?_
    split
    · exact h1
    · exact h1.clear
  have hd4 : Canonical d4 := by
    unfold d4
    split
    · exact Canonical.clear (Canonical.clear hd1.clear)
    · exact Canonical.clear (Canonical.clear (Canonical.clear hd1.clear))
  exact hd4.onTile

theorem Canonical.leavePanel {d : Dev} {p : Panel} {window : Bool} (h : Canonical d) : Canonical (d.leavePanel p window) := by
  unfold Dev.leavePanel
  extract_lets d1
  split
  · exact h.removePanel
  · exact h.foldl fun h1 => h1.scrubKeep.onRouter

theorem Canonical.orderEvict {d : Dev} {p : Panel} {why : Why} (h : Canonical d) :
    Canonical (d.orderEvict p why) := h.onPanel.foldl fun h1 => h1.onPanel

theorem Canonical.dropBound {d : Dev} {p : Panel} (h : Canonical d) : Canonical (d.dropBound p) := h.elim h.dropPreloads

theorem Canonical.dropGang {d : Dev} {p : Panel} (h : Canonical d) : Canonical (d.dropGang p) := h.foldl fun h1 => h1.dropBound

theorem Canonical.vacate {d : Dev} {p : Panel} {why : Why} (h : Canonical d) : Canonical (d.vacate p why) := by
  unfold Dev.vacate
  split
  · exact h.dropBound
  · exact h.orderEvict

theorem Canonical.endXfers {d : Dev} {p : Panel} {status : Byte} (h : Canonical d) : Canonical (d.endXfers p status) := by
  unfold Dev.endXfers
  refine h.foldl fun h1 => ?_
  refine h1.foldl fun h2 => ?_
  split
  · exact h2.resolveXfer
  · exact h2

theorem Canonical.abortPanel {d : Dev} {p : Panel} {code : Nat} {replay : Bool} (h : Canonical d) :
    Canonical (d.abortPanel p code replay) := by
  unfold Dev.abortPanel
  extract_lets _ _ d0 d1 _ d2
  have hd0 : Canonical d0 := by
    unfold d0
    split
    · exact h.dropGang
    · exact h
  have hd1 : Canonical d1 := by
    unfold d1
    split
    · exact hd0
    · exact hd0.noteCut
  split
  · exact Canonical.replayCut hd1.endXfers.leavePanel
  · exact Canonical.failCut hd1.endXfers.leavePanel

/-! Cuts: loading, leaving and restoring panels -/

theorem Canonical.readImage {d : Dev} {b : Fin 32} {a : Asker} {dva : Nat} (h : Canonical d) : Canonical (d.readImage b a dva).1 := by
  unfold Dev.readImage
  split
  · have h1 := h.vRead.fst
    extract_lets
    split
    · exact h1
    · exact h1.vRead
  · exact h.vRead

theorem Canonical.loadData {d : Dev} {n : Fin 128} {bfmt : Vector W32 16} {skip : BitVec 16} {addr : Nat} {bs : List Byte}
    (h : Canonical d) : Canonical (d.loadData n bfmt skip addr bs) := by
  unfold Dev.loadData
  refine h.foldl fun h1 => ?_
  extract_lets
  split
  · exact h1.bankWrite
  · exact h1

theorem Canonical.loadMemories {d : Dev} {n : Fin 128} {l : List Byte} {skip : BitVec 16} {code : Bool} (h : Canonical d) :
    Canonical (d.loadMemories n l skip code) := by
  unfold Dev.loadMemories
  refine h.foldl fun h1 => ?_
  split
  · split
    · exact h1.write
    · exact h1
  · exact h1.write
  · exact h1.loadData
  · exact h1

theorem Canonical.beginPanel {d : Dev} {p : Panel} {v : Vdev} {l : Launch} {img : List Byte} (h : Canonical d) :
    Canonical (d.beginPanel p v l img) := h.flushHost.foldl fun h1 => h1.loadMemories.onTile

theorem Canonical.readCtx {d : Dev} {b : Fin 32} {a : Asker} {dva : Nat} (h : Canonical d) : Canonical (d.readCtx b a dva).1 := by
  unfold Dev.readCtx
  split
  · have h1 := h.vRead.fst
    extract_lets
    split
    · exact h1
    · split
      · have h2 := h1.vRead.fst
        split
        · exact h2
        · split
          · exact h2.vRead.fst
          · exact h2.vRead
      · exact h1.vRead
  · exact h.vRead

theorem Canonical.readHalf {d : Dev} {b : Fin 32} {a : Asker} {img : List Byte} {x : IspSrc} (h : Canonical d) :
    Canonical (d.readHalf b a img x).1 := by
  unfold Dev.readHalf
  split
  · exact h
  · exact h
  · exact h.vRead

/-- The recursion's body stands in place of the name and variables in that of the two reads, as in `execGlobalAccessPerform_keeps`. -/
theorem Canonical.readRanks {b : Fin 32} {a : Asker} {v : Vdev} {p : Panel} {img : List Byte} {l : List (Nat × Nat)} {d : Dev}
    (h : Canonical d) : Canonical (Dev.readRanks b a v p img l d).1 := by
  suffices ∀ {readCtx readHalf readRanks}, (∀ {d x}, Canonical d → Canonical (readCtx d b a x).1) →
      (∀ {d x}, Canonical d → Canonical (readHalf d b a img x).1) →
      readCtx = Dev.readCtx → readHalf = Dev.readHalf → readRanks = Dev.readRanks →
      Canonical (readRanks b a v p img l d).1 from this Canonical.readCtx Canonical.readHalf rfl rfl rfl
  intro readCtx readHalf readRanks hctx hhalf hcteq hhaeq hr
  delta Dev.readRanks Dev.readRanks._f at hr
  rw [← hcteq, ← hhaeq] at hr
  subst hr
  induction l generalizing d with
  | nil => exact h
  | cons x l ih =>
    dsimp -zeta only [List.brecOn, List.brecOn.go]
    split
    · exact (hctx h).fst
    · exact (hctx h).fst
    · have h1 := (hctx h).fst
      split
      · exact h1
      · extract_lets c
        split
        · exact (hhalf h1).fst
        · exact (hhalf h1).fst
        · have h2 := (hhalf h1).fst
          split
          · exact (hhalf h2).fst
          · exact (hhalf h2).fst
          · have h3 := (hhalf h2).fst
            split
            · exact h3
            · split
              · exact (ih h3).fst
              · exact (ih h3).fst

theorem Canonical.readyPanel {d : Dev} {p : Panel} {v : Vdev} {l : Launch} (h : Canonical d) : Canonical (d.readyPanel p v l).1 := by
  unfold Dev.readyPanel
  extract_lets
  split
  · exact h
  · split
    · exact h.readImage.fst
    · exact h.readImage.fst
    · have h1 := h.readImage.fst
      split
      · exact h1
      · split
        · split <;> exact h1.readRanks.fst
        · exact h1

theorem Canonical.putHalf {d : Dev} {n : Fin 128} {h : Nat} {bs : List Byte} (hd : Canonical d) :
    Canonical (d.putHalf n h bs) := hd.clear.write

theorem Canonical.restoreMemories {d : Dev} {n : Fin 128} {img : List Byte} {x : TileLoad} (h : Canonical d) :
    Canonical (d.restoreMemories n img x) := h.putHalf.putHalf.write.foldl fun h1 => h1.write

theorem Canonical.tileOfImage {d : Dev} {n : Fin 128} {l : List Byte} {psc : Nat} (h : Canonical d) :
    Canonical (d.tileOfImage n l psc) := by
  unfold Dev.tileOfImage
  extract_lets d1
  split
  · exact Canonical.onTile h
  · exact h

theorem Canonical.restorePanel {d : Dev} {p : Panel} {saved : Option SavedCut} {img : List Byte} {l : List TileLoad}
    (h : Canonical d) : Canonical (d.restorePanel p saved img l) := by
  unfold Dev.restorePanel
  extract_lets ranks d1 _ _ _ _ same put
  have hd1 : Canonical d1 := h.flushHost.foldl fun h1 => h1.restoreMemories
  have hput : ∀ {d : Dev} {x : TileLoad × Nat}, Canonical d → Canonical (put d x) := by
    intro e x h1
    unfold put
    extract_lets _ d2
    have hd2 : Canonical d2 := h1.tileOfImage
    split
    · exact hd2.onTile.placeFars
    · exact hd2.placeFars
  cases same with
  | some s => exact Canonical.onPanel (hd1.foldl fun h1 => h1.onTile.placeFars)
  | none => exact Canonical.onPanel (hd1.foldl hput)

theorem Canonical.readyAll {v : Vdev} {l : Launch} {ps : List Panel} {d : Dev} (h : Canonical d) :
    Canonical (Dev.readyAll v l ps d).1 := by
  induction ps generalizing d with
  | nil => exact h
  | cons p ps ih =>
    unfold Dev.readyAll
    split
    · exact h.readyPanel.fst.onPanel
    · have h1 := h.readyPanel.fst
      split
      · exact (ih h1).fst
      · exact (ih h1).fst

theorem Canonical.startOne {d : Dev} {v : Vdev} {l : Launch} {p : Panel} {y : Ready} (h : Canonical d) :
    Canonical (d.startOne v l p y) := by
  unfold Dev.startOne
  split
  · exact h.beginPanel
  · exact h.restorePanel
  · exact h.removePanel.failCut
  · exact h

theorem Canonical.startGang {d : Dev} {p : Panel} (h : Canonical d) : Canonical (d.startGang p) := by
  unfold Dev.startGang
  split
  · extract_lets
    split
    · exact h
    · split
      · exact h.readyAll.fst
      · have h1 := h.readyAll.fst
        extract_lets d2
        have hd2 : Canonical d2 := by
          unfold d2
          split
          · exact h1.onLaunch
          · exact h1
        exact hd2.foldl fun h2 => h2.startOne
  · exact h

theorem execCutStart_keeps {h : Nat} {s : State} (hs : Inv s) : Keeps (execCutStart h s) := by
  unfold execCutStart
  refine Inv.next (hs.onDev fun h1 => ?_)
  split
  · split
    · exact h1.startGang
    · exact h1
  · exact h1

theorem execContextRestore_keeps {h : Nat} {s : State} (hs : Inv s) : Keeps (execContextRestore h s) := by
  unfold execContextRestore
  refine Inv.next (hs.onDev fun h1 => ?_)
  split
  · split
    · exact h1.startGang
    · exact h1
  · exact h1

theorem execCutComplete_keeps {h : Nat} {s : State} (hs : Inv s) : Keeps (execCutComplete h s) := by
  unfold execCutComplete
  refine Inv.next (hs.onDev fun hd => ?_)
  split
  · exact hd
  · extract_lets _ d1
    have hd1 : Canonical d1 := hd.noteCut.count
    split
    · exact hd1.leavePanel.finishCut
    · exact hd

/-! Service cores and privileged access -/

theorem execServiceCoreEventEntry_keeps {q : Fin 32} {s : State} (hs : Inv s) : Keeps (execServiceCoreEventEntry q s) := by
  unfold execServiceCoreEventEntry
  refine Inv.next (hs.onDev fun h => ?_)
  extract_lets
  split
  · exact h
  · split
    · split
      · extract_lets d1
        have hd1 : Canonical d1 := by
          unfold d1
          split
          · exact h.onSvc
          · exact h
        exact hd1.svcEnter
      · exact h
    · exact h

theorem execTrpret_keeps {s : State} (hs : Inv s) : Keeps (execTrpret s) := by
  unfold execTrpret
  split
  · exact Inv.next (hs.withDev hs.dev.onSvc)
  · exact hs.next

theorem Inv.svcIllop {s : State} (hs : Inv s) : Keeps s.svcIllop := by
  unfold State.svcIllop
  split
  · exact hs.svcTrap.next
  · exact hs.illop.next

/-- Of the spaces that a service core writes, only the banks and the memories of a tile hold bytes of the memory. -/
theorem Canonical.tsWrite {d e : Dev} {n : Fin 128} {space i : Nat} {v : W64} (h : Canonical d)
    (he : d.tsWrite n space i v = some e) : Canonical e := by
  revert he
  unfold Dev.tsWrite
  extract_lets t on
  have hon : ∀ {f : Tile → Tile}, on f = some e → Canonical e := by
    rintro f ⟨⟩
    exact h
  have hmap : ∀ {o : Option Tile}, (o.map fun t => d.onTile n (f := fun _ => t)) = some e → Canonical e := by
    rintro (_ | t) ⟨⟩
    exact h
  split
  · split
    · exact nofun
    · split
      · exact hon
      · rintro ⟨⟩
        exact h.writeSr
  · split
    · exact hon
    · exact nofun
  · split
    · exact hon
    · exact nofun
  · split
    · exact hon
    · split
      · exact hon
      · split
        · exact hon
        · exact nofun
  · split
    · exact hon
    · exact nofun
  · split
    · exact hon
    · exact nofun
  · split
    · exact nofun
    · exact hon
  · split
    · exact nofun
    · exact hon
  · split
    · rintro ⟨⟩
      exact h.bankWrite
    · exact nofun
  · split
    · rintro ⟨⟩
      exact h.write
    · exact nofun
  · intro he
    obtain ⟨o, _, rfl⟩ := Option.map_eq_some_iff.mp he
    exact h.write
  · split
    · exact hmap
    · exact nofun
  · exact hmap
  · exact hmap
  · exact nofun

theorem Canonical.tsMeets {d : Dev} {n : Fin 128} {k : Nat} (h : Canonical d) : Canonical (d.tsMeets n k) := by
  unfold Dev.tsMeets
  extract_lets d1
  split
  · exact Canonical.elim h.ecc (Canonical.abortPanel h.ecc)
  · exact h.ecc

theorem execTsr_keeps {d a : Fin 32} {s : State} (hs : Inv s) : Keeps (execTsr d a s) := by
  unfold execTsr
  split
  · exact hs.svcIllop
  · split
    · exact hs.svcIllop
    · exact hs.putS.next
    · exact Inv.next (Inv.putS (hs.onDev fun h => h.tsMeets))

theorem execTsrP_keeps {d a : Fin 32} {s : State} (hs : Inv s) : Keeps (execTsrP d a s) := by
  unfold execTsrP
  split
  · exact hs.putS.next
  · exact hs.svcIllop

theorem execTsw_keeps {a b : Fin 32} {s : State} (hs : Inv s) : Keeps (execTsw a b s) := by
  unfold execTsw
  extract_lets v
  split
  · next d hd =>
    obtain ⟨x, _, hx⟩ := Option.bind_eq_some_iff.mp hd
    exact Inv.next (hs.withDev (hs.dev.tsWrite hx))
  · exact hs.svcIllop

theorem execTswP_keeps {a b : Fin 32} {s : State} (hs : Inv s) : Keeps (execTswP a b s) := by
  unfold execTswP
  split
  · exact hs.svcIllop
  · split
    · exact Inv.next (hs.onDev fun h => h.onTile)
    · exact hs.svcIllop

theorem Inv.onNamed {s : State} {a : Fin 32} {ok : Panel → Bool} {f : Dev → Panel → Dev} (hs : Inv s)
    (hf : ∀ {d : Dev} {a : Panel}, Canonical d → Canonical (f d a)) : Keeps (s.onNamed a ok f) := by
  unfold State.onNamed
  split
  · split
    · exact Inv.next (hs.onDev fun h => hf h)
    · exact hs.svcIllop
  · exact hs.svcIllop

theorem Inv.tsnap {s : State} {d a b : Fin 32} {f : Fin 128 → Nat → Nat → Nat} (hs : Inv s) : Keeps (s.tsnap d a b f) := by
  unfold State.tsnap
  split
  · exact hs.putS.next
  · exact hs.svcIllop

theorem execTsnapDrop_keeps {a b : Fin 32} {s : State} (hs : Inv s) : Keeps (execTsnapDrop a b s) := by
  unfold execTsnapDrop
  split
  · split
    · refine Inv.next (hs.onDev fun h => ?_)
      split
      · exact h.dropSnap
      · exact h
    · exact hs.svcIllop
  · exact hs.svcIllop

theorem execSelw_keeps {a b : Fin 32} {s : State} (hs : Inv s) : Keeps (execSelw a b s) := by
  unfold execSelw
  extract_lets
  split
  · split
    · exact hs.svcIllop
    · split
      · exact Inv.next (hs.onDev fun h => h.onRouter)
      · split
        · exact hs.svcIllop
        · exact Inv.next (hs.onDev fun h => h.onRouter)
  · exact hs.svcIllop

theorem Inv.popTo {s : State} {q dst a : Fin 32} {r : Option (BitVec 512)} {drop : Dev → Dev} (hs : Inv s)
    (hdrop : ∀ {d : Dev}, Canonical d → Canonical (drop d)) : Keeps (s.popTo q dst a r drop) := by
  unfold State.popTo
  extract_lets
  split
  · exact hs.svcIllop
  · split
    · exact hs.bounds.next
    · split
      · exact Inv.next (Inv.putS (hs.onDev fun h => (hdrop h).write))
      · exact Inv.next (Inv.putS (hs.onDev fun h => hdrop h))

theorem execFqpopTrap_keeps {d a : Fin 32} {s : State} (hs : Inv s) : Keeps (execFqpopTrap d a s) := by
  unfold execFqpopTrap
  split
  · exact hs.popTo fun h => h.onSvc
  · exact hs.svcIllop

theorem execFqpopFault_keeps {d a : Fin 32} {s : State} (hs : Inv s) : Keeps (execFqpopFault d a s) := by
  unfold execFqpopFault
  split
  · extract_lets
    exact hs.popTo fun h => h.count.onBolt
  · exact hs.svcIllop

theorem execFqpopPlc_keeps {d a : Fin 32} {s : State} (hs : Inv s) : Keeps (execFqpopPlc d a s) := by
  unfold execFqpopPlc
  split
  · exact hs.popTo fun h => h.onBolt
  · exact hs.svcIllop

/-! Contexts -/

theorem execEvictionAtStitch_keeps {h : Nat} {s : State} (hs : Inv s) : Keeps (execEvictionAtStitch h s) := by
  unfold execEvictionAtStitch
  refine Inv.next (hs.onDev fun h1 => ?_)
  split
  · split
    · exact h1.onPanel
    · exact h1
  · exact h1

theorem execQuiesceEnd_keeps {h : Nat} {s : State} (hs : Inv s) : Keeps (execQuiesceEnd h s) := by
  unfold execQuiesceEnd
  refine Inv.next (hs.onDev fun h1 => ?_)
  split
  · split
    · exact Canonical.onPanel (h1.foldl fun h2 => h2.onTile)
    · exact h1
  · exact h1

theorem Canonical.writeCtx {d : Dev} {p : Panel} {l : List (Nat × List Byte)} (h : Canonical d) : Canonical (d.writeCtx p l).1 := by
  unfold Dev.writeCtx
  split
  · exact h
  · refine Canonical.foldlFst h fun h1 => ?_
    split
    · exact h1
    · split
      · exact h1.vWrite.fst
      · exact h1.vWrite.fst

theorem Canonical.writeWindows {d : Dev} {p : Panel} {l : List SavedTile} (h : Canonical d) :
    Canonical (d.writeWindows p l) := h.foldl fun h1 => h1.write

theorem Canonical.evictCut {d : Dev} {p : Panel} {x : SavedCut} (h : Canonical d) : Canonical (d.evictCut p x) := by
  unfold Dev.evictCut
  extract_lets d1
  have hd1 : Canonical d1 := by
    unfold d1
    split
    · exact h
    · exact h.dropGang
  exact hd1.leavePanel.onLaunch

theorem Canonical.lostState {d : Dev} {p : Panel} (h : Canonical d) :
    Canonical (d.lostState p) := Canonical.elim (h.foldl fun h1 => h1.ecc) (Canonical.abortPanel (h.foldl fun h1 => h1.ecc))

theorem execContextSaveComplete_keeps {h : Nat} {s : State} (hs : Inv s) : Keeps (execContextSaveComplete h s) := by
  unfold execContextSaveComplete
  refine Inv.next (hs.onDev fun h1 => ?_)
  split
  · split
    · extract_lets
      split
      · exact h1
      · split
        · exact h1.lostState
        · split
          · exact h1.writeCtx.fst.onPanel
          · have h2 := h1.writeCtx.fst
            refine Canonical.evictCut ?_
            split
            · exact h2
            · exact h2.writeWindows
    · exact h1
  · exact h1

theorem execWindowDrainComplete_keeps {n : Fin 128} {s : State} (hs : Inv s) : Keeps (execWindowDrainComplete n s) := by
  unfold execWindowDrainComplete
  refine Inv.next (hs.onDev fun h => ?_)
  split
  · extract_lets done
    have hdone : ∀ {d : Dev}, Canonical d → Canonical (done d) := by
      intro e h1
      exact h1.clear.onTile
    split
    · exact h
    · split
      · exact hdone h
      · split
        · exact hdone h
        · split
          · exact h.vWrite.fst.onTile
          · exact hdone h.vWrite.fst
  · exact h

theorem execPeriodicStitchSave_keeps {h : Nat} {s : State} (hs : Inv s) : Keeps (execPeriodicStitchSave h s) := by
  unfold execPeriodicStitchSave
  refine Inv.next (hs.onDev fun h1 => ?_)
  split
  · split
    · extract_lets quiet
      split
      · exact h1
      · split
        · exact h1.lostState
        · split
          · exact h1.writeCtx.fst.onPanel
          · exact h1.writeCtx.fst.writeWindows.onLaunch.onPanel
    · exact h1
  · exact h1

theorem Inv.ctxLost {s : State} {d : Fin 32} (hs : Inv s) : Keeps (s.ctxLost d) := by
  unfold State.ctxLost
  split
  · split
    · exact Inv.next (Inv.putS (hs.onDev fun h => h.setSvcWait))
    · exact hs.svcIllop
  · exact hs.svcIllop

theorem Inv.ctxStatus {s : State} {q d : Fin 32} {x : Dev} {st : W64} (hs : Inv s) (h : Canonical x) :
    Keeps (s.ctxStatus q d x st) := Inv.next (Inv.putS (hs.withDev h.setSvcWait))

theorem Inv.ctxWait {s : State} {q : Fin 32} {x : Dev} {w : Wait} (hs : Inv s) (h : Canonical x) :
    Keeps (s.ctxWait q x w) := Inv.next (Inv.svcRetry (hs.withDev h.setSvcWait))

theorem Canonical.keepCtx {d : Dev} {n : Fin 128} {p : Panel} {image : List Byte} (h : Canonical d) :
    Canonical (d.keepCtx n p image) := h

theorem execCtxs_keeps {d a b : Fin 32} {s : State} (hs : Inv s) : Keeps (execCtxs d a b s) := by
  unfold execCtxs
  split
  · extract_lets
    split
    · exact hs.svcIllop
    · split
      · exact hs.ctxStatus (hs.dev.elim hs.dev.lostState)
      · split
        · have h := hs.dev.vWrite.fst
          exact hs.ctxStatus (h.elim h.keepCtx)
        · exact hs.ctxWait hs.dev.vWrite.fst
        · exact hs.ctxStatus hs.dev.vWrite.fst
  · exact hs.ctxLost

theorem Canonical.clearBanks {d : Dev} {n : Fin 128} (h : Canonical d) : Canonical (d.clearBanks n) := by
  unfold Dev.clearBanks
  refine h.foldl fun h1 => ?_
  split
  · exact h1
  · exact h1.clear

theorem Canonical.replaceBeats {d : Dev} {n : Fin 128} {p : Panel} {l : List Beat} (h : Canonical d) :
    Canonical (d.replaceBeats n p l) := h

theorem Canonical.loadCtx {d : Dev} {n : Fin 128} {p : Panel} {img : List Byte} {x : TileLoad} (h : Canonical d) :
    Canonical (d.loadCtx n p img x) := h.clearBanks.restoreMemories.tileOfImage.onTile.placeFars.replaceBeats

theorem Canonical.reloadCtx {d : Dev} {n : Fin 128} {p : Panel} {img : List Byte} {x : TileLoad} {k : KeptCtx} (h : Canonical d) :
    Canonical (d.reloadCtx n p img x k) := h.clearBanks.restoreMemories.onTile.placeFars.replaceBeats

theorem execCtxl_keeps {d a b : Fin 32} {s : State} (hs : Inv s) : Keeps (execCtxl d a b s) := by
  unfold execCtxl
  split
  · extract_lets
    split
    · exact hs.svcIllop
    · split
      · exact hs.svcIllop
      · split
        · exact hs.ctxWait hs.dev.vRead.fst
        · exact hs.ctxStatus hs.dev.vRead.fst
        · have h := hs.dev.vRead.fst
          split
          · exact hs.ctxStatus h
          · split
            · exact hs.ctxWait h.vRead.fst
            · exact hs.ctxStatus h.vRead.fst
            · have h1 := h.vRead.fst
              extract_lets
              split
              · exact hs.ctxStatus h1
              · split
                · exact hs.ctxStatus h1
                · split
                  · exact hs.ctxWait h1.readImage.fst
                  · exact hs.ctxStatus h1.readImage.fst
                  · have h2 := h1.readImage.fst
                    split
                    · exact hs.ctxWait h2.readHalf.fst
                    · exact hs.ctxStatus h2.readHalf.fst
                    · have h3 := h2.readHalf.fst
                      split
                      · exact hs.ctxWait h3.readHalf.fst
                      · exact hs.ctxStatus h3.readHalf.fst
                      · have h4 := h3.readHalf.fst
                        extract_lets
                        split
                        · exact hs.ctxStatus h4
                        · exact hs.ctxStatus (h4.loadCtx.elim h4.reloadCtx)
  · exact hs.ctxLost

/-! Retries and translation events -/

theorem Canonical.failOps {n : Fin 128} {hit : Wait → Bool} {fuel : Nat} {d : Dev} (h : Canonical d) :
    Canonical (Dev.failOps n hit fuel d) := by
  induction fuel generalizing d with
  | zero => exact h
  | succ fuel ih =>
    unfold Dev.failOps
    split
    · exact h
    · split
      · exact h
      · exact ih h.endFailed

theorem Canonical.failXfers {d : Dev} {n : Fin 128} {hit : Wait → Bool} (h : Canonical d) : Canonical (d.failXfers n hit) := by
  unfold Dev.failXfers
  refine h.foldl fun h1 => ?_
  split
  · split
    · exact h1.resolveXfer
    · exact h1
  · exact h1

theorem Canonical.rewaitPlacer {d : Dev} {b : Fin 32} {f : Rewait} (h : Canonical d) :
    Canonical (d.rewaitPlacer b f) := Canonical.foldl (h.foldl fun h1 => h1.onTile) fun h1 => h1.onSvc

theorem Canonical.rewait {d : Dev} {b : Fin 32} {f : Rewait} (h : Canonical d) :
    Canonical (d.rewait b f) := Canonical.rewaitPlacer (h.foldl fun h1 => h1.onTile)

theorem Canonical.pumpBolt {d : Dev} {b : Fin 32} (h : Canonical d) : Canonical (d.pumpBolt b) := h.foldl fun h1 => h1.pumpEvents

theorem Canonical.wakeWaits {d : Dev} {b : Fin 32} {hit : Wait → Bool} (h : Canonical d) :
    Canonical (d.wakeWaits b hit) := h.rewait.pumpBolt

theorem Canonical.failWaits {d : Dev} {b : Fin 32} {hit : Wait → Bool} (h : Canonical d) :
    Canonical (d.failWaits b hit) := Canonical.pumpBolt (Canonical.rewaitPlacer (h.foldl fun h1 => h1.failOps.failXfers))

theorem Canonical.closeFaults {d : Dev} {b : Fin 32} {hit : OpenFault → Bool} {ok : Bool} (h : Canonical d) :
    Canonical (d.closeFaults b hit ok) := by
  unfold Dev.closeFaults
  extract_lets _ d1
  split
  · exact h
  · split
    · exact Canonical.wakeWaits h
    · exact Canonical.failWaits h

theorem Canonical.closeStale {d : Dev} {space : Nat} (h : Canonical d) :
    Canonical (d.closeStale space) := h.foldl fun h1 => h1.closeFaults

theorem execFaultTimeout_keeps {b : Fin 32} {id : Nat} {s : State} (hs : Inv s) : Keeps (execFaultTimeout b id s) := by
  unfold execFaultTimeout
  refine Inv.next (hs.onDev fun h => ?_)
  extract_lets _ d1
  split
  · exact h
  · split
    · exact h
    · exact Canonical.closeFaults h

theorem Inv.tlbi {s : State} {a : Fin 32} {sub : Fin 3} (hs : Inv s) : Keeps (s.tlbi a sub) := by
  unfold State.tlbi
  split
  · exact hs.svcIllop
  · extract_lets
    split
    · exact hs.svcIllop
    · split
      · exact hs.bounds.next
      · split
        · exact hs.svcIllop
        · split
          · exact hs.svcRetry.next
          · exact Inv.next (hs.onDev fun h => h.onSvc)

theorem execTlbs_keeps {d : Fin 32} {s : State} (hs : Inv s) : Keeps (execTlbs d s) := by
  unfold execTlbs
  split
  · exact hs.svcIllop
  · extract_lets
    split
    · exact Inv.next (hs.putS.onDev fun h => h.onSvc)
    · exact hs.svcRetry.next

theorem Canonical.dropCached {d : Dev} {b : Fin 32} {x : Inval} (h : Canonical d) :
    Canonical (d.dropCached b x) := Canonical.foldl (h.foldl fun h1 => h1.onTile) fun h1 => h1.onQuad

theorem execInvalidationComplete_keeps {q : Fin 32} {i : Nat} {s : State} (hs : Inv s) : Keeps (execInvalidationComplete q i s) := by
  unfold execInvalidationComplete
  refine Inv.next (hs.onDev fun h => ?_)
  split
  · exact h.dropCached.onSvc.closeFaults.closeFaults
  · exact h

theorem Canonical.countStale {d : Dev} {space : Option Nat} (h : Canonical d) : Canonical (d.countStale space) := h.count

theorem Canonical.answerAts {d : Dev} {port : Fin 2} {r : AtsReq} {granted : Option (BitVec 2 × Bool)} (h : Canonical d) :
    Canonical (d.answerAts port r granted) := h.foldl fun h1 => h1.rewait.pumpBolt

theorem execAtsTranslationCompletion_keeps {port : Fin 2} {i : Nat} {ans : AtsAnswer} {s : State} (hs : Inv s) :
    Keeps (execAtsTranslationCompletion port i ans s) := by
  unfold execAtsTranslationCompletion
  refine Inv.next (hs.onDev fun h => ?_)
  split
  · exact h
  · extract_lets d1
    split
    · exact Canonical.answerAts (Canonical.countStale h)
    · split
      · exact Canonical.answerAts h
      · exact Canonical.answerAts (Canonical.onPort h)

theorem execPageRequestSend_keeps {port : Fin 2} {prgi : Nat} {s : State} (hs : Inv s) : Keeps (execPageRequestSend port prgi s) := by
  unfold execPageRequestSend
  refine Inv.next (hs.onDev fun h => ?_)
  extract_lets
  split
  · exact h
  · extract_lets
    split <;> exact h

theorem execPrgResponse_keeps {port : Fin 2} {prgi : Nat} {code : PrgCode} {s : State} (hs : Inv s) :
    Keeps (execPrgResponse port prgi code s) := by
  unfold execPrgResponse
  refine Inv.next (hs.onDev fun h => ?_)
  split
  · exact h.countStale
  · extract_lets d1
    split
    · exact Canonical.count h
    · split
      · exact h
      · split
        · exact Canonical.closeFaults (Canonical.onPort h)
        · exact Canonical.closeFaults h
        · exact Canonical.closeFaults (Canonical.onPort h)

theorem execAtsInvalidationComplete_keeps {port : Fin 2} {i : Nat} {s : State} (hs : Inv s) :
    Keeps (execAtsInvalidationComplete port i s) := by
  unfold execAtsInvalidationComplete
  refine Inv.next (hs.onDev fun h => ?_)
  extract_lets
  split <;> exact h

/-! The placer's commands -/

theorem Inv.plcDone {s : State} {c : Caller} {status result : Nat} (hs : Inv s) : Keeps (s.plcDone c status result) := by
  unfold State.plcDone
  extract_lets
  refine Inv.next (hs.onDev fun h => ?_)
  split
  · exact h.setSvcWait.onSvc
  · exact h

theorem Inv.plcForeign {s : State} {c : Caller} (hs : Inv s) : Keeps (s.plcForeign c) := by
  unfold State.plcForeign
  split
  · exact hs.svcTrap.next
  · exact hs.plcDone

theorem Inv.plcWaits {s : State} {c : Caller} {d : Dev} {w : Wait} (hs : Inv s) (h : Canonical d) : Keeps (s.plcWaits c d w) := by
  unfold State.plcWaits
  split
  · exact Inv.next (Inv.svcRetry (hs.withDev h.setSvcWait))
  · exact Inv.next (hs.withDev h)

theorem Inv.plcRun {s : State} {c : Caller} {f : Fin 32 → Result} (hs : Inv s) (hf : ∀ {a : Fin 32}, Keeps (f a)) :
    Keeps (s.plcRun c f) := by
  unfold State.plcRun
  split
  · exact hs.plcForeign
  · split
    · exact hf
    · split
      · exact hs.svcRetry.next
      · exact hs.next

theorem Inv.plcDesc {s : State} {c : Caller} {b : Fin 32} {arg : W64} {n : Nat} {f : Dev → List Byte → Result} (hs : Inv s)
    (hf : ∀ {d : Dev} {a : List Byte}, Canonical d → Keeps (f d a)) : Keeps (s.plcDesc c b arg n f) := by
  unfold State.plcDesc
  split
  · exact hf hs.dev
  · extract_lets
    split
    · split
      · exact hs.plcDone
      · exact hf hs.dev.vRead.fst
    · exact hs.plcWaits hs.dev.vRead.fst
    · exact Inv.next (Inv.svcTrap (hs.withDev hs.dev.vRead.fst))

theorem Canonical.nextGen {d : Dev} {b : Fin 32} {v : Nat} (h : Canonical d) : Canonical (d.nextGen b v) := by
  unfold Dev.nextGen
  extract_lets d1
  have hd1 : Canonical d1 := by
    unfold d1
    split <;> exact h
  exact hd1.writeGen.closeStale

/-- The body stands in place of the name before the cases of the descriptor's read, as in `Canonical.writeGen`. -/
theorem execPlcVcreate_keeps {c : Caller} {arg : BitVec 64} {s : State} (hs : Inv s) : Keeps (execPlcVcreate c arg s) := by
  suffices ∀ f, f = execPlcVcreate → Keeps (f c arg s) from this _ rfl
  delta execPlcVcreate
  rintro _ rfl
  refine hs.plcRun fun {b} => ?_
  refine hs.plcDesc fun {d l} h => ?_
  extract_lets +onlyGivenNames s1 num
  have hs1 : Inv s1 := hs.withDev h
  split
  · exact hs1.plcDone
  · split
    · exact hs1.plcDone
    · refine Inv.plcDone ?_
      refine hs.withDev ?_
      dsimp only
      refine Canonical.nextGen ?_
      exact h

theorem Canonical.reportAll {n k : Nat} {d : Dev} (h : Canonical d) : Canonical (Dev.reportAll n k d) := by
  induction k generalizing d with
  | zero => exact h
  | succ k ih =>
    unfold Dev.reportAll
    split
    · exact h
    · split
      · split
        · exact ih h.ringStep
        · exact h
      · exact h

theorem Canonical.failAll {d : Dev} {n code : Nat} (h : Canonical d) : Canonical (d.failAll n code) := by
  unfold Dev.failAll
  split
  · exact h
  · exact h.foldl fun h1 => h1.failLaunch

theorem Canonical.recredit {d : Dev} {b : Fin 32} {v : Nat} {sp : Fin 16} {weight : Nat} (h : Canonical d) :
    Canonical (d.recredit b v sp weight) := h.onBolt

theorem execPlcSpoolset_keeps {c : Caller} {arg : BitVec 64} {s : State} (hs : Inv s) : Keeps (execPlcSpoolset c arg s) := by
  unfold execPlcSpoolset
  refine hs.plcRun ?_
  intro _
  refine hs.plcDesc fun h => ?_
  extract_lets s1 _ _ _ _ d1
  split
  · exact Inv.plcDone (hs.withDev h)
  · split
    · exact Inv.plcForeign (hs.withDev h)
    · split
      · exact Inv.plcDone (hs.withDev h)
      · split
        · exact Inv.plcDone (hs.withDev h)
        · split
          · exact Inv.plcDone (hs.withDev h)
          · exact Inv.plcDone (hs.withDev (Canonical.recredit (Canonical.onVdev h)))

theorem execPlcRadmit_keeps {c : Caller} {arg : BitVec 64} {s : State} (hs : Inv s) : Keeps (execPlcRadmit c arg s) := by
  unfold execPlcRadmit
  refine hs.plcRun ?_
  intro _
  refine hs.plcDesc fun h => ?_
  extract_lets s1
  split
  · exact Inv.plcDone (hs.withDev h)
  · split
    · exact Inv.plcForeign (hs.withDev h)
    · split
      · exact Inv.plcDone (hs.withDev h)
      · split
        · exact Inv.plcDone (hs.withDev h)
        · split
          · exact Inv.plcDone (hs.withDev h)
          · split
            · exact Inv.plcDone (hs.withDev h)
            · split
              · exact Inv.plcWaits (hs.withDev h) h.vRead.fst
              · exact Inv.plcDone (hs.withDev h.vRead.fst)
              · have h1 := h.vRead.fst
                extract_lets s2 _ _ d2
                split
                · exact Inv.plcDone (hs.withDev h1)
                · split
                  · exact Inv.plcDone (hs.withDev h1)
                  · split
                    · exact Inv.plcDone (hs.withDev (Canonical.onVdev h1))
                    · exact Inv.plcDone (hs.withDev h1)

theorem execPlcRremove_keeps {c : Caller} {arg : BitVec 64} {s : State} (hs : Inv s) : Keeps (execPlcRremove c arg s) := by
  unfold execPlcRremove
  refine hs.plcRun ?_
  intro _
  split
  · exact hs.plcDone
  · extract_lets _ _ d
    split
    · exact hs.plcForeign
    · exact Inv.plcDone (hs.withDev (Canonical.recredit (Canonical.onVdev hs.dev)))

theorem execPlcEvict_keeps {c : Caller} {arg : BitVec 64} {s : State} (hs : Inv s) : Keeps (execPlcEvict c arg s) := by
  unfold execPlcEvict
  refine hs.plcRun ?_
  intro _
  split
  · exact hs.plcDone
  · exact Inv.plcDone (hs.withDev hs.dev.orderEvict)

theorem execPlcAge_keeps {c : Caller} {arg : BitVec 64} {s : State} (hs : Inv s) : Keeps (execPlcAge c arg s) := by
  unfold execPlcAge
  refine hs.plcRun ?_
  intro _
  split
  · exact hs.plcDone
  · exact Inv.plcDone (hs.withDev hs.dev.onBolt)

/-! The placer -/

theorem Canonical.checkLaunch {d : Dev} {b : Fin 32} {v : Vdev} {l : Launch} (h : Canonical d) :
    Canonical (d.checkLaunch b v l).1 := by
  unfold Dev.checkLaunch
  split
  · exact h
  · split
    · exact h
    · split
      · exact h.readImage.fst
      · exact h.readImage.fst
      · have h1 := h.readImage.fst
        split
        · exact h1
        · split
          · exact h1
          · extract_lets
            split
            · exact h1
            · split <;> exact h1

theorem Canonical.releaseFrom {b : Fin 32} {n : Nat} {sp : Fin 16} {start : Option (Nat × Nat)} {fuel : Nat} {d : Dev}
    (h : Canonical d) : Canonical (Dev.releaseFrom b n sp start fuel d) := by
  induction fuel generalizing d with
  | zero => exact h
  | succ fuel ih =>
    unfold Dev.releaseFrom
    split
    · exact h
    · split
      · exact h
      · split
        · exact ih h.dropPreloads.failLaunch
        · split
          · exact h
          · split
            · exact h.checkLaunch.fst.onLaunch
            · exact ih h.checkLaunch.fst.dropPreloads.failLaunch
            · have h1 := h.checkLaunch.fst
              extract_lets d2
              split
              · exact ih h1.onLaunch
              · exact h1.onLaunch.onResv

theorem Canonical.releaseSpool {d : Dev} {n : Nat} {sp : Fin 16} (h : Canonical d) : Canonical (d.releaseSpool n sp) := by
  unfold Dev.releaseSpool
  split
  · exact h
  · split
    · exact h
    · split
      · exact h
      · exact h.releaseFrom
      · split
        · exact h
        · extract_lets _ d1
          have hd1 : Canonical d1 := by
            unfold d1
            split
            · exact h
            · exact h.releaseFrom
          split
          · exact h
          · split
            · exact h
            · split
              · exact hd1
              · exact hd1.onResv

theorem Canonical.takeTiles {d : Dev} {p : Panel} (h : Canonical d) :
    Canonical (d.takeTiles p) := h.foldl fun h1 => h1.onTile.onRouter

theorem Canonical.giveSlots {d : Dev} {l : Launch} {c : CutRec} (h : Canonical d) : Canonical (d.giveSlots l c).1 := by
  unfold Dev.giveSlots
  extract_lets
  split <;> exact h

theorem Canonical.markPlaced {d : Dev} {l : Launch} {cut h : Nat} {slots : List Nat} (hd : Canonical d) :
    Canonical (d.markPlaced l cut h slots) := hd.onLaunch

theorem Canonical.placeCut {d : Dev} {b : Fin 32} {l : Launch} {c : CutRec} {pos : Nat × Nat} (h : Canonical d) :
    Canonical (d.placeCut b l c pos) := by
  unfold Dev.placeCut
  extract_lets _ x p _ d1
  have hx : Canonical x.1 := h.giveSlots
  have hd1 : Canonical d1 := by
    refine Canonical.takeTiles ?_
    exact hx
  exact hd1.markPlaced.onBolt

theorem Canonical.placeGang {d : Dev} {b : Fin 32} {l : Launch} {g : Gang} {ps : List (Nat × Nat)} {backfill : Bool}
    (h : Canonical d) : Canonical (d.placeGang b l g ps backfill) := h.dropPreloads.onLaunch.foldl fun h1 => h1.placeCut

theorem Canonical.clearTiles {d : Dev} {ts : List (Fin 128)} (h : Canonical d) :
    Canonical (d.clearTiles ts) := h.foldl fun h1 => h1.elim h1.vacate

theorem Canonical.placeJob {b : Fin 32} {x : Dev × List (Fin 128)} {num : Nat} (hx : Canonical x.1) :
    Canonical (Dev.placeJob b x num).1 := by
  unfold Dev.placeJob
  extract_lets d
  have hd : Canonical d := hx
  split
  · exact hx
  · split
    · extract_lets usable keeps
      split
      · exact hd.onResv
      · extract_lets ts lose d1
        have hd1 : Canonical d1 := Canonical.onResv hd.update
        split
        · exact hd1.placeGang.onResv
        · exact hd1.clearTiles
    · exact hx

theorem Canonical.placeJobs {d : Dev} {b : Fin 32} (h : Canonical d) : Canonical (d.placeJobs b) := by
  unfold Dev.placeJobs
  extract_lets d0 l
  have hd0 : Canonical d0 := h.update
  exact Canonical.foldlFst hd0 fun h1 => h1.placeJob

theorem Canonical.point {d : Dev} {b : Fin 32} {x : Nat} (h : Canonical d) : Canonical (d.point b x) := h.onBolt

theorem Canonical.movePointer {d : Dev} {b : Fin 32} (h : Canonical d) : Canonical (d.movePointer b) := by
  unfold Dev.movePointer
  extract_lets
  split
  · exact h.point
  · exact h.elim h.point

theorem Canonical.placeRing {b : Fin 32} {fuel : Nat} {d : Dev} (h : Canonical d) : Canonical (Dev.placeRing b fuel d) := by
  induction fuel generalizing d with
  | zero => exact h
  | succ fuel ih =>
    unfold Dev.placeRing
    split
    · split
      · exact ih h.movePointer
      · exact h
    · split
      · exact h
      · extract_lets d1
        have hd1 : Canonical d1 := h.placeGang.onBolt
        refine ih ?_
        split
        · exact hd1.movePointer
        · exact hd1

theorem Canonical.backfillOne {b : Fin 32} {sh : List (Fin 128)} {d : Dev} {x : Nat} (h : Canonical d) :
    Canonical (Dev.backfillOne b sh d x) := by
  unfold Dev.backfillOne
  split
  · exact h
  · split
    · exact h.placeGang
    · split
      · split
        · exact h.placeGang
        · exact h
      · exact h

theorem Canonical.backfill {d : Dev} {b : Fin 32} (h : Canonical d) : Canonical (d.backfill b) := by
  unfold Dev.backfill
  split
  · extract_lets
    split
    · exact h
    · exact h.foldl fun h1 => h1.backfillOne
  · exact h

theorem Canonical.noteRoom {d : Dev} {b : Fin 32} (h : Canonical d) : Canonical (d.noteRoom b) := h

theorem execGangPlace_keeps {b : Fin 32} {s : State} (hs : Inv s) : Keeps (execGangPlace b s) := by
  unfold execGangPlace
  refine Inv.next (hs.onDev fun h => ?_)
  split
  · exact h
  · extract_lets d1 fuel
    have hd1 : Canonical d1 := h.placeJobs
    clear_value d1
    refine Canonical.noteRoom (Canonical.backfill (Canonical.placeRing ?_))
    split
    · exact hd1
    · exact hd1.movePointer

theorem execClearance_keeps {b : Fin 32} {s : State} (hs : Inv s) : Keeps (execClearance b s) := by
  unfold execClearance
  refine Inv.next (hs.onDev fun h => ?_)
  split
  · exact h
  · extract_lets _ _ d1
    split
    · exact Canonical.foldl h.onLaunch fun h1 => h1.vacate
    · exact h.onLaunch

theorem execBackfillWcrtExpiry_keeps {v l : Nat} {s : State} (hs : Inv s) : Keeps (execBackfillWcrtExpiry v l s) := by
  unfold execBackfillWcrtExpiry
  refine Inv.next (hs.onDev fun h => ?_)
  split
  · exact h
  · extract_lets _ d1
    have hd1 : Canonical d1 := by
      unfold d1
      refine h.foldl fun h1 => ?_
      split
      · exact h1.orderEvict
      · exact h1
    exact hd1.onLaunch

theorem execBudgetOverrun_keeps {r : Nat} {s : State} (hs : Inv s) : Keeps (execBudgetOverrun r s) := by
  unfold execBudgetOverrun
  refine Inv.next (hs.onDev fun h => ?_)
  split
  · exact h
  · split
    · exact h
    · split
      · exact h
      · extract_lets _ d1 d2 d3 d4
        have hd1 : Canonical d1 := by
          unfold d1
          split
          · exact h.orderEvict
          · exact h
        have hd2 : Canonical d2 := hd1.onLaunch
        have hd4 : Canonical d4 := hd2.onVdev.onResv
        exact hd4.postEvent

theorem execDeadlineMiss_keeps {r : Nat} {s : State} (hs : Inv s) : Keeps (execDeadlineMiss r s) := by
  unfold execDeadlineMiss
  refine Inv.next (hs.onDev fun h => ?_)
  split
  · exact h
  · split
    · exact h
    · split
      · exact h
      · extract_lets d1 d2
        have hd1 : Canonical d1 := h.onLaunch
        have hd2 : Canonical d2 := hd1.onVdev
        exact hd2.onResv.postEvent

theorem Canonical.preloadTile {d : Dev} {n : Fin 128} {img : List Byte} {isp : Bool} {banks : BitVec 16} (h : Canonical d) :
    Canonical (d.preloadTile n img isp banks) := by
  unfold Dev.preloadTile
  extract_lets _ d1 d2 d3
  have hd1 : Canonical d1 := by
    unfold d1
    split
    · exact h.clear.write
    · exact h
  have hd2 : Canonical d2 := by
    unfold d2
    refine hd1.foldl fun h1 => ?_
    split
    · exact h1.clear
    · exact h1
  have hd3 : Canonical d3 := by
    unfold d3
    refine hd2.foldl fun h1 => ?_
    split
    · exact h1.loadData
    · exact h1
  exact hd3.onTile

theorem Canonical.bindPanel {d : Dev} {p : Panel} {l : Launch} {cut : Nat} {img : List Byte} {isp : Bool} {banks : BitVec 16}
    (h : Canonical d) : Canonical (d.bindPanel p l cut img isp banks) := Canonical.onPanel (h.foldl fun h1 => h1.preloadTile)

theorem Canonical.bindNext {d : Dev} {b : Fin 32} {v : Vdev} {l : Launch} {g : Gang} (h : Canonical d) :
    Canonical (d.bindNext b v l g) := by
  unfold Dev.bindNext
  split
  · split
    · exact h
    · split
      · exact h.foldl fun h1 => h1.bindPanel
      · exact h
  · exact h

theorem Canonical.preloads {d : Dev} {b : Fin 32} (h : Canonical d) : Canonical (d.preloads b) := by
  unfold Dev.preloads
  extract_lets
  refine h.foldl fun h1 => ?_
  extract_lets d1'
  split
  · exact Canonical.bindNext h1
  · exact h1

theorem Canonical.halfToA {d : Dev} {n : Fin 128} (h : Canonical d) : Canonical (d.halfToA n) := by
  unfold Dev.halfToA
  extract_lets
  split
  · exact h.copy.clear
  · exact h

theorem Canonical.startPreload {d : Dev} {p : Panel} {l : Launch} {c : CutRec} (h : Canonical d) :
    Canonical (d.startPreload p l c) := by
  unfold Dev.startPreload
  extract_lets _ x _ q _ d1
  have hx : Canonical x.1 := h.giveSlots
  have hd1 : Canonical d1 := by
    refine Canonical.foldl ?_ fun h1 => h1.halfToA
    exact hx
  exact hd1.takeTiles.markPlaced.onBolt

theorem execPreloadStart_keeps {h : Nat} {s : State} (hs : Inv s) : Keeps (execPreloadStart h s) := by
  unfold execPreloadStart
  refine Inv.next (hs.onDev fun h1 => ?_)
  split
  · exact h1
  · split
    · extract_lets _ d1 d2
      have hd2 : Canonical d2 := by
        unfold d2
        refine Canonical.foldl h1.onLaunch fun h2 => ?_
        split
        · exact h2.startPreload
        · exact h2
      split
      · exact hd2.onResv
      · exact h1
    · exact h1

theorem Canonical.returnTile {d : Dev} {n : Fin 128} (h : Canonical d) : Canonical (d.returnTile n) := by
  unfold Dev.returnTile
  split
  · extract_lets
    split
    · exact h
    · exact h.onTile
  · split
    · exact h
    · exact h.onTile
  · exact h

theorem Canonical.settleClock {d : Dev} {b : Fin 32} (h : Canonical d) : Canonical (d.settleClock b) := by
  unfold Dev.settleClock
  extract_lets
  split
  · exact h
  · split
    · exact h.onBolt
    · exact h.foldl fun h1 => h1.vacate

theorem Canonical.wakeForNbt {d : Dev} {v : Vdev} (h : Canonical d) : Canonical (d.wakeForNbt v) := by
  unfold Dev.wakeForNbt
  split
  · exact h.onVdev
  · exact h

theorem execPlacerTick_keeps {b : Fin 32} {s : State} (hs : Inv s) : Keeps (execPlacerTick b s) := by
  unfold execPlacerTick
  extract_lets d0 d1 d2
  have hd2 : Canonical d2 := by
    unfold d2
    split
    · exact Canonical.preloads (Canonical.settleClock (Canonical.foldl (hs.dev.foldl fun h => h.returnTile) fun h => h.wakeForNbt))
    · exact Canonical.settleClock (Canonical.foldl (hs.dev.foldl fun h => h.returnTile) fun h => h.wakeForNbt)
  exact Inv.next (hs.withDev hd2)

/-! Spools -/

theorem Canonical.hwdrop {d : Dev} (h : Canonical d) : Canonical d.hwdrop := h.onMc

theorem Canonical.answerRead {d : Dev} {port : Fin 2} {x : Option (List Byte)} (h : Canonical d) :
    Canonical (d.answerRead port x) := h

theorem Inv.pageWrite {s : State} {req : PageReq} {v : Nat} {f : Dev → Dev} (hs : Inv s)
    (hf : ∀ {d : Dev}, Canonical d → Canonical (f d)) : Keeps (s.pageWrite req v f) := by
  unfold State.pageWrite
  refine Inv.next (hs.onDev fun h => ?_)
  split
  · exact h.answerRead
  · split
    · exact h.hwdrop
    · exact hf h

theorem Canonical.takeLaunch {d : Dev} {v : Nat} {l : Launch} (h : Canonical d) : Canonical (d.takeLaunch v l) := h

theorem Canonical.refuseRecord {d : Dev} {v : Vdev} {sp : Nat} {record : BitVec 1024} {code reason dva : Nat} (h : Canonical d) :
    Canonical (d.refuseRecord v sp record code reason dva) := by
  unfold Dev.refuseRecord
  extract_lets
  split
  · exact h.subref
  · exact h.takeLaunch.failLaunch

theorem Canonical.setPosted {d : Dev} {i : Nat} {x : Posted} (h : Canonical d) : Canonical (d.setPosted i x) := h

theorem Canonical.dropPosted {d : Dev} {i : Nat} {x : Posted} (h : Canonical d) :
    Canonical (d.dropPosted i x) := Canonical.settleFences h

theorem Canonical.submit {d : Dev} {i : Nat} {p : Posted} {v : Vdev} (h : Canonical d) : Canonical (d.submit i p v) := by
  unfold Dev.submit
  extract_lets o b record refuse tag
  have hrefuse : ∀ {d : Dev} {code reason : Nat}, Canonical d → Canonical (refuse d code reason) :=
    fun h1 => h1.refuseRecord.dropPosted
  split
  · exact hrefuse h
  · split
    · exact hrefuse h
    · split
      · exact hrefuse h
      · split
        · exact h.vWrite.fst.setPosted
        · exact hrefuse h.vWrite.fst
        · have h1 := h.vWrite.fst
          exact h1.onVdev.dropPosted

theorem Canonical.launchSubmission {d : Dev} {n : Fin 128} {i : Nat} (h : Canonical d) : Canonical (d.launchSubmission n i) := by
  unfold Dev.launchSubmission
  split
  · extract_lets o b d0 lost
    have hd0 : Canonical d0 := h.flushHost
    have hlost : ∀ {d : Dev}, Canonical d → Canonical (lost d) := fun h1 => h1.subref.dropPosted
    split
    · exact h
    · split
      · exact h.submit
      · split
        · exact hlost hd0
        · split
          · have h1 := hd0.vRead.fst
            exact h1.setPosted
          · have h1 := hd0.vRead.fst
            exact hlost h1
          · have h1 := hd0.vRead.fst
            extract_lets p1
            split
            · exact hlost h1
            · exact h1.setPosted.submit
  · exact h

theorem execRecordAccept_keeps {v : Nat} {sp : Fin 16} {s : State} (hs : Inv s) : Keeps (execRecordAccept v sp s) := by
  unfold execRecordAccept
  refine Inv.next (hs.onDev fun h => ?_)
  split
  · exact h
  · extract_lets _ _ pass lost
    have hpass : ∀ {d : Dev}, Canonical d → Canonical (pass d) := by
      intro e h1
      exact h1.onVdev
    have hlost : ∀ {d : Dev}, Canonical d → Canonical (lost d) := by
      intro e h1
      exact (hpass h1).subref
    split
    · exact h
    · split
      · exact hlost h
      · split
        · exact h.vRead.fst.onVdev
        · exact hlost h.vRead.fst
        · have h1 := h.vRead.fst
          extract_lets _ d2 d3
          split
          · exact hlost h1
          · split
            · exact Canonical.subref (hpass h1)
            · split
              · exact Canonical.failLaunch (Canonical.takeLaunch (hpass h1))
              · exact Canonical.takeLaunch (hpass h1)

theorem Canonical.deliverEvent {d : Dev} {n : Fin 128} {i : Nat} (h : Canonical d) : Canonical (d.deliverEvent n i) := by
  unfold Dev.deliverEvent
  split
  · extract_lets _ d0
    have hd0 : Canonical d0 := by
      unfold d0
      split
      · exact h.flushHost
      · exact h
    split
    · exact h
    · exact hd0.postEvent.dropPosted
  · exact h

theorem execCompletionRecordWrite_keeps {v : Nat} {s : State} (hs : Inv s) : Keeps (execCompletionRecordWrite v s) := by
  unfold execCompletionRecordWrite
  refine Inv.next (hs.onDev fun h => ?_)
  split
  · split
    · split
      · exact h.ringStep
      · exact h
    · exact h
  · exact h

/-! Collapse -/

theorem Canonical.startCollapse {d : Dev} {n : Nat} (h : Canonical d) : Canonical (d.startCollapse n) := by
  unfold Dev.startCollapse
  extract_lets
  refine h.onVdev.foldl fun h1 => ?_
  split
  · exact h1.dropPreload
  · exact h1.orderEvict

theorem execCollapseDelayExpiry_keeps {v : Nat} {s : State} (hs : Inv s) : Keeps (execCollapseDelayExpiry v s) := by
  unfold execCollapseDelayExpiry
  refine Inv.next (hs.onDev fun h => ?_)
  split
  · split
    · exact h.startCollapse
    · exact h
  · exact h

theorem execCollapseComplete_keeps {v : Nat} {s : State} (hs : Inv s) : Keeps (execCollapseComplete v s) := by
  unfold execCollapseComplete
  refine Inv.next (hs.onDev fun h => ?_)
  split
  · extract_lets
    split
    · exact h.onVdev
    · exact h
  · exact h

theorem execWakeComplete_keeps {v : Nat} {s : State} (hs : Inv s) : Keeps (execWakeComplete v s) := by
  unfold execWakeComplete
  refine Inv.next (hs.onDev fun h => ?_)
  split
  · extract_lets
    split
    · exact h.count.onVdev
    · exact h
  · exact h

/-! Control operations -/

theorem Inv.beginLoop {s : State} {count : Nat} {stop : W32} (hs : Inv s) : Keeps (s.beginLoop count stop) := by
  unfold State.beginLoop
  refine hs.attempt fun h => ?_
  split
  · exact h.goto
  · exact h.setLoops

theorem execLbrk_keeps {s : State} (hs : Inv s) : Keeps (execLbrk s) := by
  unfold execLbrk
  refine hs.attempt fun h => ?_
  split
  · exact h.setLoops.goto
  · exact h

theorem execLnext_keeps {s : State} (hs : Inv s) : Keeps (execLnext s) := by
  unfold execLnext
  refine hs.attempt fun h => ?_
  split
  · exact h.setLoops
  · exact h

theorem execStitch_keeps {live : BitVec 21} {banks : BitVec 16} {s : State} (hs : Inv s) : Keeps (execStitch live banks s) := by
  unfold execStitch
  extract_lets
  exact hs.attempt fun h => h.onTile

theorem execChkp_keeps {c : PoisonClass} {r : Fin 32} {off : BitVec 12} {s : State} (hs : Inv s) : Keeps (execChkp c r off s) := by
  unfold execChkp
  refine hs.attempt fun h => ?_
  split
  · exact h.branch
  · exact h

theorem Inv.pollToken {s : State} {p : Fin 8} {k : Fin 32} {f : TokSt → Bool} (hs : Inv s) : Keeps (s.pollToken p k f) := hs.putP.next

theorem execHalt_keeps {s : State} (hs : Inv s) : Keeps (execHalt s) := by
  unfold execHalt
  split
  · exact hs.onTile.next
  · split
    · exact Inv.next (hs.onDev fun h => h.onSvc)
    · exact Inv.next (hs.onDev fun h => h.onSvc.logEvent)

theorem Inv.program {s : State} {cause : Nat} {code : BitVec 17} (hs : Inv s) : Inv (s.program cause code) := by
  unfold State.program
  split
  · exact hs.raiseLate
  · exact hs.setLoops.svcTrap

theorem Inv.latchDcc {s : State} (hs : Inv s) : Inv s.latchDcc := by
  unfold State.latchDcc
  extract_lets
  split
  · exact hs.onTile
  · exact hs.onDev fun h => h.onSvc

/-! The host interface -/

theorem Canonical.stopDrain {d : Dev} {v : Vdev} {n : Fin 128} (h : Canonical d) : Canonical (d.stopDrain v n) := by
  unfold Dev.stopDrain
  split
  · extract_lets _ d1
    split
    · exact h
    · refine Canonical.foldl h.clear fun h1 => ?_
      split
      · exact h1.reach.fst.dropLines.backRange.clear
      · exact h1.reach.fst
  · exact h

theorem Canonical.clearVdev {d : Dev} {v : Vdev} {status : Byte} (h : Canonical d) : Canonical (d.clearVdev v status) := by
  unfold Dev.clearVdev
  extract_lets mine d0 d1 d2
  have hd0 : Canonical d0 := h.foldl fun h1 => h1.noteCut.endXfers
  have hd1 : Canonical d1 := hd0.foldl fun h1 => h1.dropPreload
  have hd2 : Canonical d2 := hd1.foldl fun h1 => h1.stopDrain
  exact hd2.foldl fun h1 => h1.removePanel

theorem Canonical.resetLaunches {d : Dev} {v : Vdev} (h : Canonical d) : Canonical (d.resetLaunches v) := h

theorem Canonical.dropUnsent {d : Dev} {v : Vdev} (h : Canonical d) : Canonical (d.dropUnsent v) := h.foldl fun h1 => h1.onQuad

theorem Canonical.secureVdev {d : Dev} {v : Vdev} (h : Canonical d) : Canonical (d.secureVdev v) := by
  unfold Dev.secureVdev
  extract_lets d1 fails
  have hd1 : Canonical d1 := h.onMc.dropUnsent
  exact hd1.clearVdev.failAll.onVdev

theorem Canonical.onTdi {d : Dev} {f : Fin 249} {g : Tdi → Tdi} (h : Canonical d) : Canonical (d.onTdi f g) := h.onPf

theorem Canonical.unlockTdi {d : Dev} {f : Fin 249} (h : Canonical d) : Canonical (d.unlockTdi f) := h.onTdi.elim h.onTdi.onVdev

theorem Canonical.leaveTdi {d : Dev} {f : Fin 249} {to_ : TdiSt} (h : Canonical d) : Canonical (d.leaveTdi f to_) := by
  unfold Dev.leaveTdi
  extract_lets _ d1 d1'
  have hd1' : Canonical d1' := by
    unfold d1'
    split
    · exact Canonical.elim h (Canonical.secureVdev h)
    · exact h
  split
  · exact hd1'.unlockTdi
  · exact hd1'.onTdi

theorem Canonical.frozenChange {d : Dev} {f : Fin 249} (h : Canonical d) : Canonical (d.frozenChange f) := by
  unfold Dev.frozenChange
  split
  · exact h.leaveTdi
  · exact h.leaveTdi
  · exact h

theorem execFbindWrite_keeps {x : Fin 2} {f : Fin 249} {x1 : BitVec 32} {s : State} (hs : Inv s) :
    Keeps (execFbindWrite x f x1 s) := by
  unfold execFbindWrite
  refine Inv.next (hs.onDev fun h => ?_)
  extract_lets _ d1
  split
  · exact h.frozenChange
  · split
    · exact h
    · split
      · exact Canonical.onVdev h
      · exact h

theorem execPlcVdestroy_keeps {c : Caller} {arg : BitVec 64} {s : State} (hs : Inv s) : Keeps (execPlcVdestroy c arg s) := by
  unfold execPlcVdestroy
  refine hs.plcRun ?_
  intro _
  extract_lets _ d0
  split
  · exact hs.plcDone
  · split
    · exact hs.plcForeign
    · split
      · exact Inv.plcDone (hs.onDev fun h => h.frozenChange)
      · extract_lets d1 d2
        split
        · exact hs.plcDone
        · exact Inv.plcDone (hs.withDev (Canonical.reportAll (Canonical.failAll (hs.dev.foldl fun h => h.dropPreload))))

theorem execWindowDescriptorWrite_keeps {x : Fin 2} {w : Fin 996} {lo hi : BitVec 64} {s : State} (hs : Inv s) :
    Keeps (execWindowDescriptorWrite x w lo hi s) := by
  unfold execWindowDescriptorWrite
  refine Inv.next (hs.onDev fun h => ?_)
  extract_lets
  split
  · exact h.frozenChange
  · exact h.onPf

theorem Canonical.hostRead {b : Fin 32} {l : List (Nat × Nat)} {d : Dev} (h : Canonical d) : Canonical (Dev.hostRead b l d).1 := by
  induction l generalizing d with
  | nil => exact h
  | cons p l ih => exact ih h.pointRead

theorem Canonical.hostWriteLines {b : Fin 32} {l : List (Nat × Nat)} {bs : List Byte} {d : Dev} (h : Canonical d) :
    Canonical (Dev.hostWriteLines b l bs d) := by
  induction l generalizing bs d with
  | nil => exact h
  | cons p l ih => exact ih h.pointWrite

theorem execHostWindowRead_keeps {port : Fin 2} {f : Fin 249} {x n : Nat} {tbit : Option Nat} {s : State} (hs : Inv s) :
    Keeps (execHostWindowRead port f x n tbit s) := by
  unfold execHostWindowRead
  refine Inv.next (hs.onDev fun h => ?_)
  split
  · exact h.hostRead.answerRead
  · exact h.answerRead

theorem execHostWindowWrite_keeps {port : Fin 2} {f : Fin 249} {x : Nat} {data : List (BitVec 8)} {tbit : Option Nat} {s : State}
    (hs : Inv s) : Keeps (execHostWindowWrite port f x data tbit s) := by
  unfold execHostWindowWrite
  refine Inv.next (hs.onDev fun h => ?_)
  split
  · exact h.answerRead
  · split
    · exact h.hostWriteLines
    · exact h.hwdrop

theorem execCxlMemAccess_keeps {port : Fin 2} {hpa n : Nat} {data : Option (List (BitVec 8))} {s : State} (hs : Inv s) :
    Keeps (execCxlMemAccess port hpa n data s) := by
  unfold execCxlMemAccess
  refine Inv.next (hs.onDev fun h => ?_)
  extract_lets
  split
  · split
    · exact h.onPort.hostRead.answerRead
    · exact h.hostWriteLines
    · exact h.answerRead
    · exact h.hwdrop
  · split
    · exact h.hwdrop
    · exact h.answerRead

theorem execCxlCacheSnoop_keeps {port : Fin 2} {addr : Nat} {inv : Bool} {s : State} (hs : Inv s) :
    Keeps (execCxlCacheSnoop port addr inv s) := by
  unfold execCxlCacheSnoop
  refine Inv.next (hs.onDev fun h => ?_)
  extract_lets
  split
  · refine h.foldl fun h1 => ?_
    split
    · exact h1.slcDrop
    · exact h1.onQuad
  · exact h

theorem execMsixVectorUnmask_keeps {port : Fin 2} {f : Fin 249} {vec : Nat} {s : State} (hs : Inv s) :
    Keeps (execMsixVectorUnmask port f vec s) := by
  unfold execMsixVectorUnmask
  refine Inv.next (hs.onDev fun h => ?_)
  extract_lets _ _ d1
  split <;> exact h

theorem Canonical.mailDone {d : Dev} {status result : Nat} (h : Canonical d) : Canonical (d.mailDone status result) := h.onPf.msix

theorem Canonical.writeCmd {d : Dev} {x : W64} (h : Canonical d) : Canonical (d.writeCmd x) := by
  unfold Dev.writeCmd
  extract_lets
  split
  · exact h.hwdrop
  · exact h.onPf

theorem Canonical.writeFn {d : Dev} {x : W64} (h : Canonical d) : Canonical (d.writeFn x) := by
  unfold Dev.writeFn
  extract_lets d1
  split
  · exact h
  · exact Canonical.mailDone h

theorem Canonical.mailWrite {d : Dev} {port : Fin 2} {f : Dev → Dev} (h : Canonical d)
    (hf : ∀ {d : Dev}, Canonical d → Canonical (f d)) : Canonical (d.mailWrite port f) := by
  unfold Dev.mailWrite
  split
  · exact h.hwdrop
  · exact hf h

theorem Canonical.ctlWrite {d : Dev} {port : Fin 2} {f : Dev → Dev} (h : Canonical d)
    (hf : ∀ {d : Dev}, Canonical d → Canonical (f d)) : Canonical (d.ctlWrite port f) := by
  unfold Dev.ctlWrite
  split
  · exact h.hwdrop
  · exact hf h

theorem execRegisterWrite_keeps {req : PageReq} {r : HostReg} {x : BitVec 64} {s : State} (hs : Inv s) :
    Keeps (execRegisterWrite req r x s) := by
  unfold execRegisterWrite
  extract_lets
  split
  · exact hs.pageWrite fun h => h.onVdev
  · exact hs.pageWrite fun h => h.onVdev
  · exact Inv.next (hs.onDev fun h => h.ctlWrite fun h1 => h1.onPf)
  · exact Inv.next (hs.onDev fun h => h.ctlWrite fun h1 => h1.writeCmd)
  · exact Inv.next (hs.onDev fun h => h.mailWrite fun h1 => h1.onPf)
  · exact Inv.next (hs.onDev fun h => h.mailWrite fun h1 => h1.writeFn)
  · exact Inv.next (hs.onDev fun h => h.mailWrite fun h1 => h1.onPf)
  · exact Inv.next (hs.onDev fun h => h.mailWrite fun h1 => h1)
  · exact Inv.next (hs.onDev fun h => h.mailWrite fun h1 => h1)
  · exact hs.next

theorem execLeasexWrite_keeps {port : Fin 2} {x : BitVec 64} {s : State} (hs : Inv s) : Keeps (execLeasexWrite port x s) := by
  unfold execLeasexWrite
  refine Inv.next (hs.onDev fun h => ?_)
  split
  · exact h.onPf
  · exact h

theorem Canonical.closePort {d : Dev} {port : Fin 2} (h : Canonical d) :
    Canonical (d.closePort port) := h.onPort.foldl fun h1 => h1.closeFaults

theorem Canonical.rebind {new : Fin 2} {d : Dev} {f : Fin 249} (h : Canonical d) : Canonical (Dev.rebind new d f) := by
  unfold Dev.rebind
  split
  · exact h
  · extract_lets d1
    split
    · exact h
    · exact Canonical.startCollapse (Canonical.onVdev h)

theorem execLeaseTakeover_keeps {s : State} (hs : Inv s) : Keeps (execLeaseTakeover s) := by
  unfold execLeaseTakeover
  refine Inv.next (hs.onDev fun h => ?_)
  extract_lets _ _ d1
  split
  · exact h
  · exact Canonical.msix (Canonical.closePort (Canonical.foldl h fun h1 => h1.rebind))

theorem execFunctionLevelReset_keeps {port : Fin 2} {f : Fin 249} {s : State} (hs : Inv s) :
    Keeps (execFunctionLevelReset port f s) := by
  unfold execFunctionLevelReset
  refine Inv.next (hs.onDev fun h => ?_)
  extract_lets d1 d2
  have hd1 : Canonical d1 := by
    unfold d1
    split
    · extract_lets e1 e2 now
      have he1 : Canonical e1 := h.clearVdev
      clear_value e1
      have he2 : Canonical e2 := he1
      exact he2.resetLaunches.nextGen.onVdev
    · exact h
  have hd2 : Canonical d2 := hd1.onPort
  clear_value d2
  split
  · exact hd2.unlockTdi
  · exact hd2

/-! Security -/

theorem Canonical.spdm {d : Dev} {port : Fin 2} {code : Nat} (h : Canonical d) : Canonical (d.spdm port code) := h

theorem execSpdmNegotiateAlgorithms_keeps {port : Fin 2} {o : SpdmOffer} {s : State} (hs : Inv s) :
    Keeps (execSpdmNegotiateAlgorithms port o s) := by
  unfold execSpdmNegotiateAlgorithms
  refine Inv.next (hs.onDev fun h => ?_)
  split
  · exact h.onPort.spdm
  · exact h.spdm

theorem Canonical.sign {d : Dev} {port : Fin 2} {room : Bool} {f : Dev → Dev} (h : Canonical d)
    (hf : ∀ {d : Dev}, Canonical d → Canonical (f d)) : Canonical (d.sign port room f) := by
  unfold Dev.sign
  split
  · exact h.spdm
  · split
    · exact h.spdm
    · split
      · exact h.spdm
      · exact (hf h.onMc).spdm

theorem Canonical.interfaceReport {d : Dev} {port : Fin 2} {block : Nat} (h : Canonical d) :
    Canonical (d.interfaceReport port block) := by
  unfold Dev.interfaceReport
  extract_lets
  split <;> exact h

theorem execSpdmGetMeasurements_keeps {req : MeasReq} {s : State} (hs : Inv s) : Keeps (execSpdmGetMeasurements req s) := by
  unfold execSpdmGetMeasurements
  refine Inv.next (hs.onDev fun h => ?_)
  extract_lets report
  have hreport : ∀ {d : Dev}, Canonical d → Canonical (report d) := by
    intro e h1
    exact h1.interfaceReport
  split
  · exact h.sign fun h1 => hreport h1
  · split
    · exact (hreport h).spdm
    · exact h.spdm

theorem Canonical.secured {d : Dev} {port : Fin 2} {id : Nat} {f : Dev → Dev} (h : Canonical d)
    (hf : ∀ {d : Dev}, Canonical d → Canonical (f d)) : Canonical (d.secured port id f) := by
  unfold Dev.secured
  split
  · exact h.spdm
  · exact hf h.onPort

theorem Canonical.closeSession {d : Dev} {port : Fin 2} {id : Nat} (h : Canonical d) :
    Canonical (d.closeSession port id) := h.onPort.foldl fun h1 => h1.leaveTdi

theorem execSessionExpiry_keeps {port : Fin 2} {id : Nat} {s : State} (hs : Inv s) : Keeps (execSessionExpiry port id s) := by
  unfold execSessionExpiry
  refine Inv.next (hs.onDev fun h => ?_)
  split
  · split
    · exact h.closeSession
    · exact h
  · exact h

theorem execIdeKmKeyProg_keeps {port : Fin 2} {id stream : Nat} {tx : Bool} {s : State} (hs : Inv s) :
    Keeps (execIdeKmKeyProg port id stream tx s) := by
  unfold execIdeKmKeyProg
  refine Inv.next (hs.onDev fun h => ?_)
  refine h.secured fun h1 => ?_
  split
  · exact h1.onPort.spdm
  · exact h1.spdm

theorem execIdeKmKSetGo_keeps {port : Fin 2} {id stream : Nat} {s : State} (hs : Inv s) :
    Keeps (execIdeKmKSetGo port id stream s) := by
  unfold execIdeKmKSetGo
  refine Inv.next (hs.onDev fun h => ?_)
  refine h.secured fun h1 => ?_
  split
  · exact h1.onPort.spdm
  · exact h1.spdm

theorem execLockInterface_keeps {via : SecReq} {stream : Nat} {f : Fin 249} {s : State} (hs : Inv s) :
    Keeps (execLockInterface via stream f s) := by
  unfold execLockInterface
  refine Inv.next (hs.onDev fun h => h.secured fun h1 => ?_)
  split
  · exact h1.spdm
  · refine Canonical.spdm ?_
    exact h1.onTdi

theorem execStartInterface_keeps {port : Fin 2} {id stream : Nat} {f : Fin 249} {s : State} (hs : Inv s) :
    Keeps (execStartInterface port id stream f s) := by
  unfold execStartInterface
  refine Inv.next (hs.onDev fun h => h.secured fun h1 => ?_)
  extract_lets t keyed
  split
  · refine Canonical.spdm ?_
    exact h1.onTdi
  · exact h1.spdm

theorem execStopInterface_keeps {via : SecReq} {f : Fin 249} {s : State} (hs : Inv s) : Keeps (execStopInterface via f s) := by
  unfold execStopInterface
  refine Inv.next (hs.onDev fun h => ?_)
  refine h.secured fun h1 => ?_
  split
  · exact h1.leaveTdi.spdm
  · exact h1.spdm

theorem Canonical.say {d : Dev} {p : Fin 8} {raw : BitVec 1408} (h : Canonical d) : Canonical (d.say p raw) := h

theorem Canonical.answerFlit {d : Dev} {p : Fin 8} {nak : Bool} (h : Canonical d) : Canonical (d.answerFlit p nak) := h.say

theorem Canonical.freeing {d : Dev} {p : Fin 8} {f : SeamPort → SeamPort} (h : Canonical d) :
    Canonical (d.freeing p f) := h.onSeam.endFars

theorem Canonical.acked {d : Dev} {p : Fin 8} {seq : Nat} (h : Canonical d) : Canonical (d.acked p seq) := h.freeing

theorem execSeamAckReceive_keeps {p : Fin 8} {seq : Nat} {s : State} (hs : Inv s) : Keeps (execSeamAckReceive p seq s) := by
  unfold execSeamAckReceive
  refine Inv.next (hs.onDev fun h => ?_)
  split
  · exact h.acked
  · exact h

theorem Canonical.resendAll {d : Dev} {p : Fin 8} (h : Canonical d) : Canonical (d.resendAll p) := h.foldl fun h1 => h1.say

theorem Canonical.naked {d : Dev} {p : Fin 8} {seq : Nat} (h : Canonical d) : Canonical (d.naked p seq) := by
  unfold Dev.naked
  extract_lets
  split
  · exact h
  · split
    · exact h.freeing.resendAll
    · exact h.onSeam

theorem execSeamNakReceive_keeps {p : Fin 8} {seq : Nat} {s : State} (hs : Inv s) : Keeps (execSeamNakReceive p seq s) := by
  unfold execSeamNakReceive
  refine Inv.next (hs.onDev fun h => ?_)
  split
  · exact h.naked
  · exact h

theorem Canonical.dataFlit {d : Dev} {p : Fin 8} {f : SeamFlit} (h : Canonical d) : Canonical (d.dataFlit p f) := by
  unfold Dev.dataFlit
  extract_lets x ahead foreign d1
  have hd1 : Canonical d1 := h.onSeam
  split
  · exact h.answerFlit
  · split
    · exact h.answerFlit
    · refine Canonical.answerFlit ?_
      split
      · exact hd1.onMc
      · exact hd1

theorem execSeamFlitReceive_keeps {p : Fin 8} {fl : FlitIn} {s : State} (hs : Inv s) : Keeps (execSeamFlitReceive p fl s) := by
  unfold execSeamFlitReceive
  refine Inv.next (hs.onDev fun h => ?_)
  extract_lets _ d1
  have hd1 : Canonical d1 := by
    unfold d1
    split
    · exact h.acked
    · exact h
  split
  · exact h
  · split
    · exact h.answerFlit
    · split
      · exact hd1.dataFlit
      · exact hd1.naked
      · exact hd1

theorem execSeamAckTimeout_keeps {p : Fin 8} {s : State} (hs : Inv s) : Keeps (execSeamAckTimeout p s) := by
  unfold execSeamAckTimeout
  refine Inv.next (hs.onDev fun h => ?_)
  split
  · exact h.onSeam
  · exact h

theorem execLinkRetrain_keeps {p : Fin 8} {s : State} (hs : Inv s) : Keeps (execLinkRetrain p s) := by
  unfold execLinkRetrain
  refine Inv.next (hs.onDev fun h => ?_)
  split
  · exact h.onSeam
  · exact h

theorem execRetrainEnd_keeps {p : Fin 8} {ok : Bool} {s : State} (hs : Inv s) : Keeps (execRetrainEnd p ok s) := by
  unfold execRetrainEnd
  refine Inv.next (hs.onDev fun h => ?_)
  extract_lets
  split
  · exact h
  · split
    · exact h.onSeam.resendAll
    · exact h.freeing.onMc

/-! Resilience -/

theorem Canonical.sendFlit {d : Dev} {dest : Fin 128} {seam : Fin 4} {body : SvcBody} (h : Canonical d) :
    Canonical (d.sendFlit dest seam body) := h

theorem Canonical.takeFlit {d : Dev} {n : Fin 128} {body : SvcBody} (h : Canonical d) : Canonical (d.takeFlit n body) := h

theorem Canonical.flood {d : Dev} {n : Fin 128} {body : SvcBody} (h : Canonical d) :
    Canonical (d.flood n body) := h.foldl fun h1 => h1.sendFlit

theorem Canonical.sendVote {d : Dev} {s : Fin 128} {i k : Fin 4} {body : SvcBody} (h : Canonical d) :
    Canonical (d.sendVote s i k body) := by
  unfold Dev.sendVote
  split
  · exact h
  · exact h.sendFlit

theorem Canonical.castVote {d : Dev} {n s : Fin 128} {since : Nat} {withdraw reinst : Bool} (h : Canonical d) :
    Canonical (d.castVote n s since withdraw reinst) := by
  unfold Dev.castVote
  split
  · extract_lets send
    have hsend : ∀ {d : Dev} {k : Fin 4}, Canonical d → Canonical (send d k) := by
      intro e k h1
      exact h1.sendVote
    split
    · exact h
    · exact hsend (hsend h)
  · exact h

theorem Canonical.beginTest {d : Dev} {s : Fin 128} (h : Canonical d) : Canonical (d.beginTest s) := h

theorem Canonical.startAppeal {d : Dev} {s : Fin 128} (h : Canonical d) : Canonical (d.startAppeal s) := by
  unfold Dev.startAppeal
  split
  · exact h.onRouter.beginTest
  · exact h

theorem Canonical.nextAppeal {d : Dev} (h : Canonical d) : Canonical d.nextAppeal := by
  unfold Dev.nextAppeal
  split
  · exact h.beginTest
  · exact h

theorem Canonical.abortFenced {d : Dev} {p : Panel} (h : Canonical d) : Canonical (d.abortFenced p) := by
  unfold Dev.abortFenced
  extract_lets d1
  split
  · exact h.vacate
  · exact Canonical.elim h.vacate (Canonical.abortPanel h.vacate)

theorem Canonical.cutOff {d : Dev} {s : Fin 128} (h : Canonical d) : Canonical (d.cutOff s) := by
  unfold Dev.cutOff
  extract_lets d1 d2 d3 d4 _ _ _ d5
  have hd1 : Canonical d1 := h.countTile
  have hd2 : Canonical d2 := hd1.countTile
  have hd3 : Canonical d3 := hd2.elim hd2.abortFenced
  have hd4 : Canonical d4 := by
    unfold d4
    split
    · exact hd3.clear.onTile
    · exact hd3
  have hd5 : Canonical d5 := hd4.onRouter.logEvent
  split
  · exact hd5.logEvent
  · split
    · exact hd5.startAppeal
    · exact hd5

theorem Canonical.learnFence {d : Dev} {n s : Fin 128} (h : Canonical d) : Canonical (d.learnFence n s) := by
  unfold Dev.learnFence
  extract_lets d1
  split
  · exact h
  · split
    · exact Canonical.cutOff h.onRouter.flood
    · exact h.onRouter.flood

theorem Canonical.learnUnfence {d : Dev} {n s : Fin 128} (h : Canonical d) : Canonical (d.learnUnfence n s) := by
  unfold Dev.learnUnfence
  extract_lets _ d1
  split
  · exact h
  · split
    · exact Canonical.onRouter (Canonical.scrubTile (Canonical.elim h.onRouter.flood (Canonical.dropBound h.onRouter.flood)))
    · exact h.onRouter.flood

theorem Canonical.countVotes {d : Dev} {n s : Fin 128} (h : Canonical d) : Canonical (d.countVotes n s) := by
  unfold Dev.countVotes
  split
  · exact h
  · split
    · split
      · exact h.learnFence
      · exact h
    · split
      · exact h.learnUnfence
      · exact h

theorem Canonical.endProbation {d : Dev} {s : Fin 128} (h : Canonical d) : Canonical (d.endProbation s) := by
  unfold Dev.endProbation
  split
  · exact h.onRouter.foldl fun h1 => h1.onRouter
  · exact h

theorem Canonical.suspect {d : Dev} {n : Fin 128} {k : Fin 4} {cause : BitVec 2} (h : Canonical d) :
    Canonical (d.suspect n k cause) := by
  unfold Dev.suspect
  extract_lets _ d1
  split
  · exact h
  · exact Canonical.countVotes (Canonical.castVote (Canonical.endProbation h))

theorem Canonical.babble {d : Dev} {n : Fin 128} {k : Fin 4} {c : Babble} (h : Canonical d) : Canonical (d.babble n k c) := by
  unfold Dev.babble
  extract_lets _ _ d1
  split
  · exact h
  · exact Canonical.elim h (Canonical.suspect h)

theorem execTackSend_keeps {n : Fin 128} {s : State} (hs : Inv s) : Keeps (execTackSend n s) := by
  unfold execTackSend
  refine Inv.next (hs.onDev fun h => ?_)
  extract_lets _ _ d1
  split
  · exact h
  · refine Canonical.foldl h.onRouter.flood fun h1 => ?_
    split
    · exact h1.castVote
    · exact h1

theorem execTackReceive_keeps {n : Fin 128} {d : Fin 4} {tk : TackIn} {s : State} (hs : Inv s) :
    Keeps (execTackReceive n d tk s) := by
  unfold execTackReceive
  refine Inv.next (hs.onDev fun h => ?_)
  extract_lets y _ y1
  have hy : Canonical y := h.takeFlit
  have hy1 : Canonical y1 := hy.onRouter
  split
  · exact hy.babble
  · split
    · exact hy.onRouter
    · split
      · exact hy1.castVote
      · exact hy1

theorem execTackMiss_keeps {n : Fin 128} {d : Fin 4} {s : State} (hs : Inv s) : Keeps (execTackMiss n d s) := by
  unfold execTackMiss
  refine Inv.next (hs.onDev fun h => ?_)
  extract_lets _ y
  split
  · exact h
  · split
    · exact Canonical.suspect h
    · exact h

theorem execVoteFlitReceive_keeps {n suspect : Fin 128} {voter : Voter} {relay withdraw reinst : Bool} {s : State} (hs : Inv s) :
    Keeps (execVoteFlitReceive n suspect voter relay withdraw reinst s) := by
  unfold execVoteFlitReceive
  refine Inv.next (hs.onDev fun h => ?_)
  extract_lets d0 d1
  have hd0 : Canonical d0 := h.takeFlit
  have hd1 : Canonical d1 := hd0.onRouter
  split
  · exact hd0
  · split
    · exact hd0.countTile
    · split
      · extract_lets d2
        have hd2 : Canonical d2 := by
          unfold d2
          split
          · exact hd1
          · exact hd1.sendVote
        exact hd2.countVotes
      · exact hd0

theorem execSelftestComplete_keeps {n : Fin 128} {pass : Bool} {s : State} (hs : Inv s) : Keeps (execSelftestComplete n pass s) := by
  unfold execSelftestComplete
  refine Inv.next (hs.onDev fun h => ?_)
  extract_lets d1
  split
  · exact h
  · exact Canonical.nextAppeal h

theorem execReinstatementVote_keeps {n : Fin 128} {d : Fin 4} {s : State} (hs : Inv s) : Keeps (execReinstatementVote n d s) := by
  unfold execReinstatementVote
  refine Inv.next (hs.onDev fun h => ?_)
  extract_lets _ y
  split
  · exact h
  · exact Canonical.countVotes (Canonical.castVote h)

theorem Canonical.countKey {d : Dev} {word : Nat} {k : Fin 14} (h : Canonical d) : Canonical (d.countKey word k) := h.elim h.count

theorem Canonical.foundBad {d : Dev} {word : Nat} (h : Canonical d) : Canonical (d.foundBad word) := by
  unfold Dev.foundBad
  extract_lets _ d1
  split
  · split
    · exact Canonical.abortPanel h.countKey
    · exact h.countKey
  · exact h.countKey

theorem execPatrolScrub_keeps {s : State} (hs : Inv s) : Keeps (execPatrolScrub s) := by
  unfold execPatrolScrub
  refine Inv.next (hs.onDev fun h => ?_)
  extract_lets d1 d2
  split
  · exact h
  · exact Canonical.onMc (Canonical.foldl (h.foldl fun h1 => h1.countKey) fun h1 => h1.foundBad)

/-! Power -/

theorem Canonical.armTacks {d : Dev} (h : Canonical d) : Canonical d.armTacks := by
  unfold Dev.armTacks
  extract_lets arm e
  have harm : ∀ {d : Dev} {n : Fin 128}, Canonical d → Canonical (arm d n) := fun h1 => h1.onRouter
  have he : Canonical e := h.foldl harm
  clear_value e
  exact he.update

theorem Canonical.disarmTacks {d : Dev} (h : Canonical d) : Canonical d.disarmTacks := h

theorem Canonical.dropAppeals {d : Dev} (h : Canonical d) : Canonical d.dropAppeals := h

theorem Canonical.checkpointPanel {d : Dev} {p : Panel} (h : Canonical d) : Canonical (d.checkpointPanel p) := by
  unfold Dev.checkpointPanel
  split
  · exact h.dropPreload
  · exact h.orderEvict

theorem Canonical.beginCheckpoint {d : Dev} (h : Canonical d) :
    Canonical d.beginCheckpoint := h.dropAppeals.onMc.foldl fun h1 => h1.checkpointPanel

theorem execPfailAssert_keeps {s : State} (hs : Inv s) : Keeps (execPfailAssert s) := by
  unfold execPfailAssert
  refine Inv.next (hs.onDev fun h => ?_)
  extract_lets d1
  have hd1 : Canonical d1 := by
    unfold d1
    split
    · exact h
    · exact h.onMc.logEvent
  split
  · exact h
  · split
    · exact hd1.beginCheckpoint
    · exact hd1

theorem execCheckpointSaveDeadline_keeps {s : State} (hs : Inv s) : Keeps (execCheckpointSaveDeadline s) := by
  unfold execCheckpointSaveDeadline
  refine Inv.next (hs.onDev fun h => ?_)
  split
  · exact h.foldl fun h1 => h1.abortPanel
  · exact h

theorem Canonical.flushSlice {d : Dev} {q : Fin 32} (h : Canonical d) : Canonical (d.flushSlice q) := by
  unfold Dev.flushSlice
  extract_lets give
  have hgive : ∀ {d : Dev} {l : SlcLine}, Canonical d → Canonical (give d l) := by
    intro e l h1
    unfold give
    split
    · exact h1.writeBack
    · split
      · exact h1.onMc
      · exact h1
  exact Canonical.onQuad (h.foldl fun h1 => hgive h1)

theorem Canonical.flushAll {d : Dev} (h : Canonical d) : Canonical d.flushAll := h.foldl fun h1 => h1.flushSlice

theorem execCheckpointComplete_keeps {s : State} (hs : Inv s) : Keeps (execCheckpointComplete s) := by
  unfold execCheckpointComplete
  refine Inv.next (hs.onDev fun h => ?_)
  split
  · exact h.flushAll.disarmTacks.onMc
  · exact h

theorem execPfailDeassert_keeps {s : State} (hs : Inv s) : Keeps (execPfailDeassert s) := by
  unfold execPfailDeassert
  refine Inv.next (hs.onDev fun h => ?_)
  split
  · exact h.onMc
  · exact h

theorem execRetokLow_keeps {s : State} (hs : Inv s) : Keeps (execRetokLow s) := by
  unfold execRetokLow
  refine Inv.next (hs.onDev fun h => ?_)
  split
  · exact h.onMc
  · exact h

theorem Canonical.zeroDram {d : Dev} (h : Canonical d) : Canonical d.zeroDram := h.clear

theorem Canonical.retire {d : Dev} {n : Fin 128} (h : Canonical d) : Canonical (d.retire n) := h

theorem Canonical.initSram {d : Dev} {fresh : Nat} (h : Canonical d) :
    Canonical (d.initSram fresh) := Canonical.foldl h.clear fun h1 => h1.retire

theorem Canonical.writeSvbolt {d : Dev} {b : Fin 32} (h : Canonical d) : Canonical (d.writeSvbolt b) := h.foldl fun h1 => h1.onRouter

theorem Canonical.startSvc {d : Dev} {q : Fin 32} (h : Canonical d) : Canonical (d.startSvc q) := h.write.onSvc

theorem Canonical.setBolts {d : Dev} {resume : Bool} (h : Canonical d) : Canonical (d.setBolts resume) := by
  unfold Dev.setBolts
  extract_lets _ _ d1 rate d2 bolt
  have hrate : ∀ {d : Dev} {n : Fin 128}, Canonical d → Canonical (rate d n) := by
    intro e n h1
    exact h1.onRouter
  have hbolt : ∀ {d : Dev} {b : Fin 32}, Canonical d → Canonical (bolt d b) := by
    intro e b h1
    unfold bolt
    split
    · exact h1.writeSvbolt.onBolt
    · exact h1
  exact Canonical.foldl (Canonical.foldl (Canonical.foldl h fun h1 => hrate h1) fun h1 => hbolt h1) fun h1 => h1.startSvc

theorem Canonical.train {d : Dev} {fresh : Nat} (h : Canonical d) :
    Canonical (d.train fresh) := Canonical.foldl (h.foldl fun h1 => h1.onPort) fun h1 => h1.onSeam

theorem Canonical.bringStep {d : Dev} {fresh : Nat} {resume : Bool} {k : Nat} (h : Canonical d) :
    Canonical (d.bringStep fresh resume k) := by
  unfold Dev.bringStep
  split
  · exact h.onMc
  · exact h.onMc.onPf
  · exact h.zeroDram
  · exact h.initSram
  · exact h.setBolts
  · exact h.train
  · exact h

theorem Canonical.bringSteps {fresh : Nat} {resume : Bool} {l : List Nat} {d : Dev} (h : Canonical d) :
    Canonical (Dev.bringSteps fresh resume l d).1 := by
  induction l generalizing d with
  | nil => exact h
  | cons k l ih =>
    unfold Dev.bringSteps
    extract_lets d1
    have hd1 : Canonical d1 := h.onMc
    split
    · exact ih hd1.bringStep
    · exact hd1.onMc.logEvent

theorem Canonical.bringUp {fresh : Nat} {resume : Bool} {l : List Nat} {d : Dev} (h : Canonical d) :
    Canonical (Dev.bringUp fresh resume l d).1 := by
  have h1 := h.bringSteps (fresh := fresh) (resume := resume) (l := l)
  unfold Dev.bringUp
  split
  · exact h1.fst.onMc
  · exact h1.fst.onMc

theorem Canonical.running {d : Dev} (h : Canonical d) : Canonical d.running := h.onMc.armTacks

theorem Canonical.cold {d : Dev} (h : Canonical d) : Canonical d.cold := h

theorem Canonical.coldStart {d : Dev} (h : Canonical d) : Canonical d.coldStart := by
  unfold Dev.coldStart
  extract_lets r
  split
  · exact Canonical.running h.cold.bringUp
  · exact h.cold.bringUp

theorem Canonical.lostStart {d : Dev} (h : Canonical d) : Canonical d.lostStart := h.coldStart.onMc.logEvent

theorem Canonical.restoreBolt {d : Dev} {b : Fin 32} (h : Canonical d) : Canonical (d.restoreBolt b) := by
  unfold Dev.restoreBolt
  extract_lets place d1
  have hplace : ∀ {d : Dev} {x : Vdev × Launch × Gang}, Canonical d → Canonical (place d x) := by
    intro e x h1
    unfold place
    split
    · exact h1.elim h1.placeGang
    · exact h1
  refine Canonical.foldl (h.foldl fun h1 => hplace h1) fun h1 => ?_
  refine h1.elim ?_
  intro _
  split
  · exact h1.startGang
  · exact h1

theorem Canonical.missPeriods {d : Dev} (h : Canonical d) : Canonical d.missPeriods := by
  unfold Dev.missPeriods
  refine h.foldl fun h1 => ?_
  extract_lets
  split
  · exact h1
  · exact h1.onVdev

theorem Canonical.resume {d : Dev} {boot : Bool} (h : Canonical d) : Canonical (d.resume boot) := by
  unfold Dev.resume
  extract_lets _ d0 r
  split
  · exact Canonical.running (Canonical.foldl (Canonical.missPeriods (Canonical.bringUp h)) fun h1 => h1.restoreBolt)
  · exact Canonical.bringUp h

theorem execPowerOnReset_keeps {s : State} (hs : Inv s) : Keeps (execPowerOnReset s) := by
  unfold execPowerOnReset
  refine Inv.next (Canonical.inv ?_)
  split
  · exact hs.dev.resume
  · split
    · exact hs.dev.lostStart
    · exact hs.dev.coldStart

theorem execPowerReturnResume_keeps {s : State} (hs : Inv s) : Keeps (execPowerReturnResume s) := by
  unfold execPowerReturnResume
  refine Inv.next (hs.onDev fun h => ?_)
  split
  · exact h
  · split
    · exact h.resume
    · exact h.lostStart

theorem execDormantEntry_keeps {s : State} (hs : Inv s) : Keeps (execDormantEntry s) := by
  unfold execDormantEntry
  refine Inv.next (hs.onDev fun h => ?_)
  split
  · exact h.flushAll.disarmTacks.onMc
  · exact h

theorem execDormantWake_keeps {s : State} (hs : Inv s) : Keeps (execDormantWake s) := by
  unfold execDormantWake
  refine Inv.next (hs.onDev fun h => ?_)
  split
  · exact h.onMc.armTacks
  · exact h

theorem execThermalThreshold_keeps {q : Fin 32} {s : State} (hs : Inv s) : Keeps (execThermalThreshold q s) := by
  unfold execThermalThreshold
  refine Inv.next (hs.onDev fun h => ?_)
  extract_lets _ d1
  have hd1 : Canonical d1 := by
    unfold d1
    split
    · exact h.logEvent
    · exact h
  split
  · exact hd1.onMc.beginCheckpoint
  · exact hd1

theorem execThermalResume_keeps {s : State} (hs : Inv s) : Keeps (execThermalResume s) := by
  unfold execThermalResume
  refine Inv.next (hs.onDev fun h => ?_)
  split
  · split
    · exact h.resume
    · exact h.lostStart
  · exact h

theorem execPtpMessage_keeps {port : Fin 3} {off ppb : Int} {s : State} (hs : Inv s) : Keeps (execPtpMessage port off ppb s) := by
  unfold execPtpMessage
  refine Inv.next (hs.onDev fun h => ?_)
  extract_lets d1 step e
  have hd1 : Canonical d1 := h.onMc
  have he : Canonical e := hd1.onMc.logEvent
  split
  · exact h
  · split
    · exact he
    · exact hd1.onMc

theorem execDccHoldoverEntry_keeps {s : State} (hs : Inv s) : Keeps (execDccHoldoverEntry s) := by
  unfold execDccHoldoverEntry
  refine Inv.next (hs.onDev fun h => ?_)
  split
  · exact h.onMc
  · exact h

/-! The management controller's functions -/

theorem Inv.mcDone {s : State} {c : Caller} {status result : Nat} (hs : Inv s) : Keeps (s.mcDone c status result) := by
  unfold State.mcDone
  split
  · exact Inv.next (hs.onDev fun h => h.onSvc)
  · exact Inv.next (hs.onDev fun h => h.mailDone)

theorem Inv.mcBad {s : State} {c : Caller} {status : Nat} (hs : Inv s) : Keeps (s.mcBad c status) := by
  unfold State.mcBad
  split
  · exact hs.svcTrap.next
  · exact hs.mcDone

theorem execMcRead_keeps {c : Caller} {arg : BitVec 64} {s : State} (hs : Inv s) : Keeps (execMcRead c arg s) := by
  unfold execMcRead
  extract_lets d
  split
  · exact hs.mcDone
  · split
    · exact hs.mcDone
    · exact hs.mcBad
  · split
    · exact hs.mcDone
    · exact hs.mcBad
  · split
    · exact hs.mcDone
    · exact hs.mcBad
  · exact hs.mcBad

theorem execMcWrite_keeps {c : Caller} {arg : BitVec 64} {s : State} (hs : Inv s) : Keeps (execMcWrite c arg s) := by
  unfold execMcWrite
  split
  · exact Inv.mcDone (hs.withDev hs.dev)
  · exact hs.mcBad

theorem execMcClear_keeps {c : Caller} {arg : BitVec 64} {s : State} (hs : Inv s) : Keeps (execMcClear c arg s) := by
  unfold execMcClear
  extract_lets
  split
  · exact Inv.mcDone (hs.onDev fun h => h.onBolt)
  · exact hs.mcBad

theorem execMcFence_keeps {c : Caller} {arg : BitVec 64} {s : State} (hs : Inv s) : Keeps (execMcFence c arg s) := by
  unfold execMcFence
  extract_lets
  split
  · exact Inv.mcDone (hs.onDev fun h => h.foldl fun h1 => h1.learnFence)
  · exact hs.mcBad

theorem execMcLogread_keeps {c : Caller} {arg : BitVec 64} {s : State} (hs : Inv s) : Keeps (execMcLogread c arg s) := by
  unfold execMcLogread
  extract_lets
  split
  · exact Inv.mcDone (hs.onDev fun h => h.onPf)
  · exact hs.mcBad

theorem Canonical.writeBolt {d : Dev} {b : Fin 32} {v : W32} (h : Canonical d) : Canonical (d.writeBolt b v) := by
  unfold Dev.writeBolt
  extract_lets d1 d2
  have hd2 : Canonical d2 := by
    unfold d2
    split
    · exact Canonical.writeSvbolt h
    · exact h
  split
  · exact hd2
  · exact hd2.onBolt

theorem execMcBoltset_keeps {c : Caller} {arg : BitVec 64} {s : State} (hs : Inv s) : Keeps (execMcBoltset c arg s) := by
  unfold execMcBoltset
  extract_lets
  split
  · exact hs.mcBad
  · split
    · exact hs.mcBad
    · exact Inv.mcDone (hs.onDev fun h => h.writeBolt)

theorem execMcCollapse_keeps {c : Caller} {arg : BitVec 64} {s : State} (hs : Inv s) : Keeps (execMcCollapse c arg s) := by
  unfold execMcCollapse
  split
  · exact hs.mcBad
  · exact Inv.mcDone (hs.onDev fun h => h.startCollapse)

theorem execMcAppeal_keeps {c : Caller} {arg : BitVec 64} {s : State} (hs : Inv s) : Keeps (execMcAppeal c arg s) := by
  unfold execMcAppeal
  extract_lets
  split
  · exact hs.mcBad
  · split
    · exact hs.mcBad
    · exact Inv.mcDone (hs.onDev fun h => h.startAppeal)

theorem execMcUpdstage_keeps {c : Caller} {arg : BitVec 64} {s : State} (hs : Inv s) : Keeps (execMcUpdstage c arg s) := by
  unfold execMcUpdstage
  extract_lets
  split
  · exact hs.mcBad
  · exact Inv.mcDone (hs.onDev fun h => h.onMc)

theorem execMcUpdcommit_keeps {c : Caller} {arg : BitVec 64} {s : State} (hs : Inv s) : Keeps (execMcUpdcommit c arg s) := by
  unfold execMcUpdcommit
  extract_lets
  split
  · exact hs.mcBad
  · split
    · exact hs.mcBad
    · extract_lets
      split
      · exact hs.mcBad
      · split
        · exact hs.mcBad
        · exact Inv.mcDone (hs.onDev fun h => h.onMc.logEvent)

/-! Scalar moves -/

theorem Inv.smovV {s : State} {f : VFile} {d a : Fin 32} {c : Fin 16} (hs : Inv s) :
    Keeps (s.smovV f d a c) := hs.attempt fun h => h.putS

theorem execMvst_keeps {n : BitVec 10} {a : Fin 32} {s : State} (hs : Inv s) : Keeps (execMvst n a s) := by
  unfold execMvst
  extract_lets
  split
  · exact hs.attempt fun h => h.putPZ
  · exact hs.attempt fun h => h.onDev fun h1 => h1.onSvc

theorem Inv.putStaging {s : State} {d : Fin 16} {mask value : W64} {poison : Bool} (hs : Inv s) :
    Keeps (s.putStaging d mask value poison) := hs.put.next

/-! Vector floating point -/

theorem Inv.vSign {s : State} {x : VFile} {d a : Fin 32} {o : VOpd} {ft : FTy} {m : Fin 4} {f : Bool → Bool → Bool} (hs : Inv s) :
    Keeps (s.vSign x d a o ft m f) := by
  unfold State.vSign
  extract_lets
  exact hs.laneOp

theorem Inv.vFltCmp {s : State} {x : VFile} {d : Fin 8} {a : Fin 32} {o : VOpd} {ft : FTy} {quiet : Bool} {f : Val → Val → Bool}
    (hs : Inv s) : Keeps (s.vFltCmp x d a o ft quiet f) := by
  unfold State.vFltCmp
  extract_lets
  exact hs.vCmp

theorem execVfclass_keeps {f : VFile} {d a : Fin 32} {ft : FTy} {m : Fin 4} {s : State} (hs : Inv s) :
    Keeps (execVfclass f d a ft m s) := by
  unfold execVfclass
  extract_lets
  exact hs.laneOp

theorem Inv.vSfu {s : State} {x : VFile} {d a : Fin 32} {m : Fin 4} {f : Bool → Nat → Nat × Flags} (hs : Inv s) :
    Keeps (s.vSfu x d a m f) := by
  unfold State.vSfu
  extract_lets
  exact hs.laneOp

theorem execVcvt_keeps {f : VFile} {d a : Fin 32} {dt st : CFmt} {rm : RMode} {sat : Bool} {part : Option (BitVec 2)} {s : State}
    (hs : Inv s) : Keeps (execVcvt f d a dt st rm sat part s) := by
  unfold execVcvt
  extract_lets
  refine hs.attempt fun h => ?_
  split <;> exact h.putV

theorem execVpack_keeps {f : VFile} {d a b : Fin 32} {kind : Fin 7} {sat : Bool} {s : State} (hs : Inv s) :
    Keeps (execVpack f d a b kind sat s) := by
  unfold execVpack
  extract_lets
  exact hs.attempt fun h => h.putV

theorem execVunpack_keeps {f : VFile} {d a : Fin 32} {kind : Fin 6} {hi : Bool} {s : State} (hs : Inv s) :
    Keeps (execVunpack f d a kind hi s) := by
  unfold execVunpack
  extract_lets
  exact hs.attempt fun h => h.putV

theorem execVscale_keeps {f : VFile} {d a : Fin 32} {o : VScale} {rm : RMode} {m : Fin 4} {s : State} (hs : Inv s) :
    Keeps (execVscale f d a o rm m s) := by
  unfold execVscale
  extract_lets
  exact hs.laneOp

/-! Vector integer operations -/

theorem Inv.vDot {s : State} {x : VFile} {d a b : Fin 32} {w n : Nat} {sg : Bool × Bool} {sat : Bool} {m : Fin 8} (hs : Inv s) :
    Keeps (s.vDot x d a b w n sg sat m) := by
  unfold State.vDot
  extract_lets
  exact hs.laneOp

theorem Inv.vIntCmp {s : State} {x : VFile} {d : Fin 8} {a : Fin 32} {o : VOpd} {ty : ITy} {f : Int → Int → Bool} (hs : Inv s) :
    Keeps (s.vIntCmp x d a o ty f) := by
  unfold State.vIntCmp
  extract_lets
  exact hs.vCmp

theorem execVsel_keeps {f : VFile} {d a : Fin 32} {o : VOpd} {m : Fin 8} {s : State} (hs : Inv s) : Keeps (execVsel f d a o m s) := by
  unfold execVsel
  extract_lets
  exact hs.laneOp

theorem Inv.vRed {s : State} {x : VFile} {d a : Fin 32} {ty : ITy} {m : Fin 8} {init : Int} {f : Int → Int → Int} (hs : Inv s) :
    Keeps (s.vRed x d a ty m init f) := by
  unfold State.vRed
  extract_lets
  exact hs.attempt fun h => h.putV

theorem Inv.mLog {s : State} {x : VFile} {d a : Fin 8} {o : MOpd} {f : W32 → W32 → W32} (hs : Inv s) :
    Keeps (s.mLog x d a o f) := hs.put.next

theorem Inv.mCount {s : State} {x : VFile} {d : Fin 32} {n : Nat} (hs : Inv s) : Keeps (s.mCount x d n) := hs.attempt fun h => h.putV

/-! Vector moves -/

theorem execVperm_keeps {f : VFile} {d a b : Fin 32} {w : Width} {m : Fin 8} {s : State} (hs : Inv s) :
    Keeps (execVperm f d a b w m s) := by
  unfold execVperm
  extract_lets
  exact hs.laneOp

theorem execVbcast_keeps {f : VFile} {d a : Fin 32} {k : VIndex} {w : Width} {m : Fin 8} {s : State} (hs : Inv s) :
    Keeps (execVbcast f d a k w m s) := by
  unfold execVbcast
  extract_lets
  exact hs.laneOp

theorem execVslide_keeps {f : VFile} {d a b : Fin 32} {n : BitVec 8} {w : Width} {m : Fin 8} {s : State} (hs : Inv s) :
    Keeps (execVslide f d a b n w m s) := by
  unfold execVslide
  extract_lets
  exact hs.laneOp

theorem execVzip_keeps {f : VFile} {d a b : Fin 32} {hi : Bool} {w : Width} {s : State} (hs : Inv s) :
    Keeps (execVzip f d a b hi w s) := by
  unfold execVzip
  extract_lets
  exact hs.laneOp

theorem execVunzip_keeps {f : VFile} {d a b : Fin 32} {hi : Bool} {w : Width} {s : State} (hs : Inv s) :
    Keeps (execVunzip f d a b hi w s) := by
  unfold execVunzip
  extract_lets
  exact hs.laneOp

theorem execVmovSplat_keeps {f : VFile} {d a : Fin 32} {w : Fin 4} {s : State} (hs : Inv s) : Keeps (execVmovSplat f d a w s) := by
  unfold execVmovSplat
  extract_lets
  exact hs.attempt fun h => h.putV

theorem Inv.vLi {s : State} {f : VFile} {d : Fin 32} {w x : Nat} (hs : Inv s) : Keeps (s.vLi f d w x) := hs.attempt fun h => h.putV

/-! Register windows -/

theorem Canonical.barRead {d : Dev} {port bar : Fin 2} {f : Fin 249} {off n : Nat} {tbit : Option Nat} (h : Canonical d) :
    Canonical (d.barRead port bar f off n tbit) := h.answerRead

/-! Inputs from outside -/

theorem Inv.takeTemp {s : State} {q : Fin 32} {t : W32} (hs : Inv s) : Inv (s.takeTemp q t) := by
  unfold State.takeTemp
  extract_lets _ s1
  split <;> exact hs.onDev fun h => h.onQuad

theorem Canonical.regError {d : Dev} {n : Fin 128} {c : PoisonClass} {r : Fin 32} (h : Canonical d) :
    Canonical (d.regError n c r) := by
  unfold Dev.regError
  extract_lets d1 d2
  split
  · split
    · exact Canonical.abortPanel (h.elim h.count)
    · exact h.elim h.count
  · exact h.elim h.count

theorem Inv.takeInput {s : State} {x : Input} (hs : Inv s) : Inv (s.takeInput x) := by
  unfold State.takeInput
  split
  · exact hs
  · exact hs.onDev fun h => h.write
  · exact hs.onDev fun h => h.onPort
  · exact hs.onDev fun h => h.onPort
  · exact hs.onDev fun h => h.onPort
  · exact hs.onDev fun h => h.onPort
  · exact hs.onDev fun h => h.barRead
  · exact hs.onDev fun h => h
  · exact hs.onDev fun h => h
  · exact hs.takeTemp
  · exact hs.onDev fun h => h.onMc
  · exact hs.onDev fun h => h.onRouter
  · exact hs.onDev fun h => h.onSvc
  · exact hs.onDev fun h => h.onMc
  · exact hs.onDev fun h => h.onMc
  · refine hs.onDev fun h => ?_
    extract_lets
    split
    · exact h.frozenChange
    · exact h
  · exact hs.onDev fun h => h.elim h
  · exact hs.onDev fun h => h.regError

/-! The plan -/

theorem Inv.planSvcOp {s : State} {q : Fin 32} {a : W32} {len : Nat} {o : Op} (hs : Inv s) : Inv (s.planSvcOp q a len o) := by
  unfold State.planSvcOp
  extract_lets _ add
  have hadd : ∀ {l : List Micro} {s : State}, Inv s → Inv (add l s) := by
    intro l s1 h
    exact h
  split
  · exact hadd hs
  · split
    · exact hadd hs
    · exact hadd (hs.onDev fun h => h.onSvc)
    · exact hs.onDev fun h => h.svcEnter

theorem Inv.planSvc {s : State} {q : Fin 32} (hs : Inv s) : Inv (s.planSvc q) := by
  unfold State.planSvc
  extract_lets _ add
  have hadd : ∀ {l : List Micro}, Inv (add l) := by
    intro l
    exact hs
  split
  · exact hs
  · exact hs
  · split
    · exact hadd
    · exact hs
  · split
    · exact hadd
    · split
      · exact hs.onDev fun h => h.onSvc
      · split
        · exact hs.onDev fun h => h.svcEnter
        · exact hs.onDev fun h => h.svcEnter
        · split
          · exact hadd
          · exact hs.onDev fun h => h.svcEnter
          · exact hs
          · exact hs.planSvcOp

theorem Canonical.passTime {d : Dev} {t : Nat} (h : Canonical d) : Canonical (d.passTime t) := h

theorem Inv.advance {s : State} (hs : Inv s) : Inv s.advance := by
  unfold State.advance
  extract_lets d first far next t
  split
  · exact hs
  · cases next with
    | none => exact hs.onDev fun h => h.passTime
    | some b =>
      have hd : Canonical (d.passTime t) := hs.dev.passTime
      exact hs.withDev hd.onBolt

theorem Inv.plan {s : State} (hs : Inv s) : Inv s.plan := by
  unfold State.plan
  extract_lets d s1
  split
  · exact hs
  · split
    · exact hs
    · split
      · exact hs.advance
      · split
        · exact hs.onDev fun h => h
        · exact Inv.advance (hs.onDev fun h => h)

theorem Inv.expand {s : State} (hs : Inv s) : Inv s.expand := by
  unfold State.expand
  split
  · exact Inv.planCycle hs
  · exact Inv.planSvc hs
  · exact hs
  · exact hs

theorem Inv.enter {s : State} {a : Agent} {addr : W32} {len slot : Nat} {first : Bool} (hs : Inv s) :
    Inv (s.enter a addr len slot first) := hs

/-! Running the agenda -/

/-- Every meaning keeps the invariant: those of one form by the lemma about that form. -/
theorem exec_keeps {i : Instr} {s : State} (hs : Inv s) : Keeps (exec i s) := by
  unfold exec
  cases i with
  | idleBundle => exact hs.onIss.next
  | barrierOnlyBundle | tkw => exact hs.next
  | br | jr => exact hs.branch.next
  | call => exact hs.putK.goto.next
  | ret => exact hs.goto.next
  | loop | loopi => exact hs.beginLoop
  | lbrk => exact execLbrk_keeps hs
  | lnext => exact execLnext_keeps hs
  | swapb => exact hs.attempt fun h => h.onTile.branch
  | ifence | zclr => exact hs.attempt fun h => h.onTile
  | stitch => exact execStitch_keeps hs
  | chkp => exact execChkp_keeps hs
  | tkpPend | tkpDone | tkpPart | tkpFail | tkpFree | tkpRes => exact hs.pollToken
  | vclust => exact hs.onTile.next
  | halt => exact execHalt_keeps hs
  | trap | brk => exact hs.program.next
  | kadd | kli | rdsc | rdscHi | rddccHi => exact hs.putK.next
  | kmov | kmovHi => exact hs.putPZ.next
  | psetAnd | psetOr | psetXor | psetAndn | psetOrn => exact hs.pOp
  | psetEq | psetNe | psetLt | psetLtn => exact hs.kCmp
  | psetNz => exact hs.putP.next
  | rddcc => exact hs.latchDcc.putK.next
  | add | sub | mul | mulh | mulhn | div | divn | rem | remn | and | or | xor | andn | shl | shr | sra | rot | min | max | minn | maxn
  | bfx | bfxS => exact hs.sOp
  | clz | ctz | popc | sextB | sextH | sextW | sextBn | sextHn | sextWn => exact hs.sUn
  | cmpEq | cmpNe | cmpLt | cmpGe | cmpLtn | cmpGen | cmpTst => exact hs.sCmp
  | sel | li | lih | bfi | widfField | widfGang | widfCut | smovK | smovPred | smovMa | smovMb => exact hs.putS.next
  | smovVa | smovVb => exact hs.smovV
  | mvst => exact execMvst_keeps hs
  | mvfs | semp => exact hs.attempt fun h => h.putS
  | dset | dsetLo | dsetHi => exact hs.putStaging
  | vadd | vsub | vmul | vmulh | vmin | vmax | vabs | vneg | vadds | vsubs => exact hs.vInt
  | vand | vor | vxor | vnot | vshl | vshr | vsra => exact hs.vBits
  | vdot4 | vdot8 => exact hs.vDot
  | vcmpEq | vcmpNe | vcmpLt | vcmpLe | vcmpGt | vcmpGe => exact hs.vIntCmp
  | vsel => exact execVsel_keeps hs
  | vfadd | vfsub | vfmul | vffma | vfmin | vfmax => exact hs.vFlt
  | vfsgnJ | vfsgnJn | vfsgnJx => exact hs.vSign
  | vfcmpEq | vfcmpNe | vfcmpLt | vfcmpLe | vfcmpUn | vfcmpOrd => exact hs.vFltCmp
  | vfclass => exact execVfclass_keeps hs
  | vexp2 | vlog2 | vrcp | vrsqrt => exact hs.vSfu
  | vcvt => exact execVcvt_keeps hs
  | vpack => exact execVpack_keeps hs
  | vunpack => exact execVunpack_keeps hs
  | vquant | vquantScale | vfredsum | vfredmax | vmov | vmovCross | vmovChunk | vcrc => exact hs.attempt fun h => h.putV
  | vscale => exact execVscale_keeps hs
  | vfxd | vidx => exact hs.laneOp
  | vredsum | vredmax | vredmin => exact hs.vRed
  | vperm => exact execVperm_keeps hs
  | vbcast => exact execVbcast_keeps hs
  | vslide => exact execVslide_keeps hs
  | vzip => exact execVzip_keeps hs
  | vunzip => exact execVunzip_keeps hs
  | vmovSplat => exact execVmovSplat_keeps hs
  | vliW | vliF | vliH | vliB => exact hs.vLi
  | mlogAnd | mlogOr | mlogXor | mlogAndn | mlogOrn => exact hs.mLog
  | mpop | mpopFirst => exact hs.mCount
  | mld | mldt => exact hs.tileLoad
  | mlds => exact hs.attempt fun h => h.onTpath
  | mst => exact execMst_keeps hs
  | mzero => exact hs.onTpath.next
  | mma | mmo => exact hs.startMma
  | mmaResultDue | landingDue => exact Inv.next (hs.onDev fun h => h.onTile)
  | zout => exact execZout_keeps hs
  | zoutv => exact execZoutv_keeps hs
  | zld => exact execZld_keeps hs
  | zst => exact execZst_keeps hs
  | zstat => exact execZstat_keeps hs
  | ldl => exact execLdl_keeps hs
  | stl => exact execStl_keeps hs
  | ldg => exact execLdg_keeps hs
  | stg => exact execStg_keeps hs
  | ldv => exact execLdv_keeps hs
  | stv => exact execStv_keeps hs
  | amoAdd | amoAnd | amoOr | amoXor | amoMax | amoMin | amoMaxn | amoSwap => exact hs.amo
  | cas => exact execCas_keeps hs
  | fenceAcq | fenceRel | fenceAr => exact hs.fence
  | sti => exact execSti_keeps hs
  | lget => exact execLget_keeps hs
  | lwait => exact hs.attempt fun h => h.takeLate
  | zline => exact execZline_keeps hs
  | pref => exact execPref_keeps hs
  | launch => exact execLaunch_keeps hs
  | evpost => exact execEvpost_keeps hs
  | snd | bcst => exact hs.attempt fun h => h.sendBeats
  | rcv => exact execRcv_keeps hs
  | sndr => exact execSndr_keeps hs
  | semw => exact execSemw_keeps hs
  | semi => exact execSemi_keeps hs
  | semv => exact hs.attempt fun h => h.sendOp
  | xfar => exact execXfar_keeps hs
  | xrcvf => exact execXrcvf_keeps hs
  | ceGo | ceGor | ceGat | ceSca | ceFill | ceRed | ceIsp => exact hs.ceIssue
  | ceRep => exact execCeRep_keeps hs
  | ceCan => exact execCeCan_keeps hs
  | ceStatSt | ceStatBytes | ceStatEv | ceStatCrc | ceStatTag => exact hs.ceStat
  | transferStart => exact execTransferStart_keeps hs
  | chunkComplete => exact execChunkComplete_keeps hs
  | dueResultWrite => exact execDueResultWrite_keeps hs
  | timedAccessPerform => exact execTimedAccessPerform_keeps hs
  | landingArrival => exact execLandingArrival_keeps hs
  | beatArrival => exact execBeatArrival_keeps hs
  | barrierArrival => exact execBarrierArrival_keeps hs
  | barrierRelease => exact execBarrierRelease_keeps hs
  | timingFault => exact execTimingFault_keeps hs
  | globalAccessPerform => exact execGlobalAccessPerform_keeps hs
  | lateralAccessPerform => exact execLateralAccessPerform_keeps hs
  | outboundAccept => exact execOutboundAccept_keeps hs
  | sndrAddition => exact execSndrAddition_keeps hs
  | semvIncrement => exact execSemvIncrement_keeps hs
  | xfarDelivery => exact execXfarDelivery_keeps hs
  | xrcvfTake => exact execXrcvfTake_keeps hs
  | cutStart => exact execCutStart_keeps hs
  | cutComplete => exact execCutComplete_keeps hs
  | serviceCoreEventEntry => exact execServiceCoreEventEntry_keeps hs
  | tsr => exact execTsr_keeps hs
  | tsrP => exact execTsrP_keeps hs
  | tsw => exact execTsw_keeps hs
  | tswP => exact execTswP_keeps hs
  | tresRun => exact hs.onNamed fun h => h.setElock.resumePanel
  | tresStep => exact hs.onNamed fun h => h.resumePanel.onPanel.foldl fun h1 => h1.onTile
  | tresHalt => exact hs.onNamed fun h => h.onPanel
  | tresLock => exact hs.onNamed fun h => h.setElock.onPanel
  | tabt | tabtReplay => exact hs.onNamed fun h => h.abortPanel
  | tsnapDesc | tsnapAddr | tsnapVal => exact hs.tsnap
  | tsnapDrop => exact execTsnapDrop_keeps hs
  | selw => exact execSelw_keeps hs
  | tlbiPage | tlbiPasid | tlbiBolt => exact hs.tlbi
  | tlbs => exact execTlbs_keeps hs
  | ctxs => exact execCtxs_keeps hs
  | ctxl => exact execCtxl_keeps hs
  | trpret => exact execTrpret_keeps hs
  | fqpopTrap => exact execFqpopTrap_keeps hs
  | fqpopFault => exact execFqpopFault_keeps hs
  | fqpopPlc => exact execFqpopPlc_keeps hs
  | plcVcreate => exact execPlcVcreate_keeps hs
  | plcVdestroy => exact execPlcVdestroy_keeps hs
  | plcSpoolset => exact execPlcSpoolset_keeps hs
  | plcRadmit => exact execPlcRadmit_keeps hs
  | plcRremove => exact execPlcRremove_keeps hs
  | plcEvict => exact execPlcEvict_keeps hs
  | plcAge => exact execPlcAge_keeps hs
  | mcRead => exact execMcRead_keeps hs
  | mcWrite => exact execMcWrite_keeps hs
  | mcClear => exact execMcClear_keeps hs
  | mcFence => exact execMcFence_keeps hs
  | mcLogread => exact execMcLogread_keeps hs
  | mcLog => exact Inv.mcDone (hs.onDev fun h => h.logEvent)
  | mcBoltset => exact execMcBoltset_keeps hs
  | mcCollapse => exact execMcCollapse_keeps hs
  | mcAppeal => exact execMcAppeal_keeps hs
  | mcUpdstage => exact execMcUpdstage_keeps hs
  | mcUpdcommit => exact execMcUpdcommit_keeps hs
  | placerTick => exact execPlacerTick_keeps hs
  | launchRelease => exact Inv.next (hs.onDev fun h => h.releaseSpool)
  | gangPlace => exact execGangPlace_keeps hs
  | clearance => exact execClearance_keeps hs
  | backfillWcrtExpiry => exact execBackfillWcrtExpiry_keeps hs
  | budgetOverrun => exact execBudgetOverrun_keeps hs
  | deadlineMiss => exact execDeadlineMiss_keeps hs
  | preloadStart => exact execPreloadStart_keeps hs
  | evictionAtStitch => exact execEvictionAtStitch_keeps hs
  | quiesceEnd => exact execQuiesceEnd_keeps hs
  | contextSaveComplete => exact execContextSaveComplete_keeps hs
  | windowDrainComplete => exact execWindowDrainComplete_keeps hs
  | contextRestore => exact execContextRestore_keeps hs
  | periodicStitchSave => exact execPeriodicStitchSave_keeps hs
  | sptailWrite | wakeWrite | vstatWrite | ltfreeWrite => exact hs.pageWrite fun h => h.onVdev
  | launchSubmission => exact Inv.next (hs.onDev fun h => h.launchSubmission)
  | recordAccept => exact execRecordAccept_keeps hs
  | evpostDeliver => exact Inv.next (hs.onDev fun h => h.deliverEvent)
  | completionRecordWrite => exact execCompletionRecordWrite_keeps hs
  | registerWrite => exact execRegisterWrite_keeps hs
  | fbindWrite => exact execFbindWrite_keeps hs
  | windowDescriptorWrite => exact execWindowDescriptorWrite_keeps hs
  | leasexWrite => exact execLeasexWrite_keeps hs
  | leasectlWrite => exact Inv.next (hs.onDev fun h => h.onPf)
  | leaseTakeover => exact execLeaseTakeover_keeps hs
  | hostWindowRead => exact execHostWindowRead_keeps hs
  | hostWindowWrite => exact execHostWindowWrite_keeps hs
  | cxlMemAccess => exact execCxlMemAccess_keeps hs
  | functionLevelReset => exact execFunctionLevelReset_keeps hs
  | faultRetry => exact Inv.next (hs.onDev fun h => h.failWaits.rewait.pumpBolt.foldl fun h1 => h1.pumpShadows)
  | faultTimeout => exact execFaultTimeout_keeps hs
  | invalidationComplete => exact execInvalidationComplete_keeps hs
  | atsTranslationCompletion => exact execAtsTranslationCompletion_keeps hs
  | pageRequestSend => exact execPageRequestSend_keeps hs
  | prgResponse => exact execPrgResponse_keeps hs
  | atsInvalidationRequest | priEnable => exact Inv.next (hs.onDev fun h => h.onPort)
  | atsInvalidationComplete => exact execAtsInvalidationComplete_keeps hs
  | spdmNegotiateAlgorithms => exact execSpdmNegotiateAlgorithms_keeps hs
  | spdmChallenge => exact Inv.next (hs.onDev fun h => h.sign fun h1 => h1)
  | spdmGetMeasurements => exact execSpdmGetMeasurements_keeps hs
  | spdmKeyExchange => exact Inv.next (hs.onDev fun h => h.sign fun h1 => h1.onPort)
  | spdmHeartbeat => exact Inv.next (hs.onDev fun h => h.secured fun h1 => h1.spdm)
  | spdmKeyUpdate => exact Inv.next (hs.onDev fun h => h.secured fun h1 => h1.onPort.spdm)
  | spdmEndSession => exact Inv.next (hs.onDev fun h => h.secured fun h1 => h1.closeSession.spdm)
  | sessionExpiry => exact execSessionExpiry_keeps hs
  | ideKmKeyProg => exact execIdeKmKeyProg_keeps hs
  | ideKmKSetGo => exact execIdeKmKSetGo_keeps hs
  | ideIntegrityFailure => exact Inv.next (hs.onDev fun h => h.onPort.foldl fun h1 => h1.leaveTdi)
  | lockInterface => exact execLockInterface_keeps hs
  | startInterface => exact execStartInterface_keeps hs
  | stopInterface => exact execStopInterface_keeps hs
  | seamFlitReceive => exact execSeamFlitReceive_keeps hs
  | seamAckReceive => exact execSeamAckReceive_keeps hs
  | seamNakReceive => exact execSeamNakReceive_keeps hs
  | seamAckTimeout => exact execSeamAckTimeout_keeps hs
  | linkRetrain => exact execLinkRetrain_keeps hs
  | retrainEnd => exact execRetrainEnd_keeps hs
  | tackSend => exact execTackSend_keeps hs
  | tackReceive => exact execTackReceive_keeps hs
  | tackMiss => exact execTackMiss_keeps hs
  | babblingSuspicion => exact Inv.next (hs.onDev fun h => h.babble)
  | voteFlitReceive => exact execVoteFlitReceive_keeps hs
  | voteExpiry => exact Inv.next (hs.onDev fun h => h.onRouter)
  | fenceFlitReceive => exact Inv.next (hs.onDev fun h => h.takeFlit.learnFence)
  | selftestComplete => exact execSelftestComplete_keeps hs
  | reinstatementVote => exact execReinstatementVote_keeps hs
  | unfenceFlitReceive => exact Inv.next (hs.onDev fun h => h.takeFlit.learnUnfence)
  | patrolScrub => exact execPatrolScrub_keeps hs
  | pfailAssert => exact execPfailAssert_keeps hs
  | checkpointSaveDeadline => exact execCheckpointSaveDeadline_keeps hs
  | checkpointComplete => exact execCheckpointComplete_keeps hs
  | pfailDeassert => exact execPfailDeassert_keeps hs
  | retokLow => exact execRetokLow_keeps hs
  | powerReturnResume => exact execPowerReturnResume_keeps hs
  | dormantEntry => exact execDormantEntry_keeps hs
  | dormantWake => exact execDormantWake_keeps hs
  | collapseDelayExpiry => exact execCollapseDelayExpiry_keeps hs
  | collapseComplete => exact execCollapseComplete_keeps hs
  | wakeComplete => exact execWakeComplete_keeps hs
  | thermalThreshold => exact execThermalThreshold_keeps hs
  | thermalResume => exact execThermalResume_keeps hs
  | ptpMessage => exact execPtpMessage_keeps hs
  | powerOnReset => exact execPowerOnReset_keeps hs
  | dccHoldoverEntry => exact execDccHoldoverEntry_keeps hs
  | msixVectorUnmask => exact execMsixVectorUnmask_keeps hs
  | cxlCacheSnoop => exact execCxlCacheSnoop_keeps hs

theorem Inv.runMicro {s : State} {m : Micro} (hs : Inv s) : Keeps (s.runMicro m) := by
  unfold State.runMicro
  split
  · exact Inv.next hs
  · exact Inv.next hs
  · exact Inv.next hs
  · exact exec_keeps hs.enter
  · exact exec_keeps hs
  · refine Inv.next (Inv.endBundle ?_)
    split
    · exact hs.enter
    · exact hs
  · exact hs.endIssue.next
  · exact hs.endCycle.next

theorem Inv.runHead {s : State} (hs : Inv s) : Keeps s.runHead := by
  unfold State.runHead
  split
  · exact hs.next
  · exact Inv.runMicro hs

theorem Inv.runInput {s : State} {x : Input} (hs : Inv s) : Keeps (s.runInput x) := by
  unfold State.runInput
  split
  · split
    · exact exec_keeps hs
    · exact hs.next
  · exact hs.takeInput.next

theorem Inv.runNext {s : State} (hs : Inv s) : Keeps s.runNext := by
  unfold State.runNext
  split
  · exact hs.expand.runHead
  · exact Inv.runInput hs
  · exact hs.plan.expand.runHead

end Sys2Proof.Machine

namespace Sys2Proof

open Machine

/-- Settles O6: the step runs an agenda item, an input or what is planned, and each keeps the invariant. -/
theorem memoryStaysCanonical : Obligations.MemoryStaysCanonical := by
  intro s t hs ht
  exact Inv.runNext hs t ht

end Sys2Proof
end

section
/-! O1 and O2: what the encoder writes for a well-formed instruction decodes to it, by the round trip of each constructor. -/

namespace Sys2Proof

open Laws

/-- Arm by arm the round trip of the constructor (`Laws.RoundTrip`); an event has no encoding, so nothing is left to decode. -/
theorem encode_roundTrip (i : Instr) : RoundTrip.Statement i := by
  cases i with
  -- the bundles without a slot word
  | idleBundle => apply RoundTrip.idleBundle
  | barrierOnlyBundle => apply RoundTrip.barrierOnlyBundle
  -- the K slot
  | br => apply RoundTrip.br | jr => apply RoundTrip.jr | call => apply RoundTrip.call | ret => apply RoundTrip.ret
  | loop => apply RoundTrip.loop | loopi => apply RoundTrip.loopi | lbrk => apply RoundTrip.lbrk | lnext => apply RoundTrip.lnext
  | swapb => apply RoundTrip.swapb | ifence => apply RoundTrip.ifence | stitch => apply RoundTrip.stitch | chkp => apply RoundTrip.chkp
  | tkw => apply RoundTrip.tkw | tkpPend => apply RoundTrip.tkpPend | tkpDone => apply RoundTrip.tkpDone
  | tkpPart => apply RoundTrip.tkpPart | tkpFail => apply RoundTrip.tkpFail | tkpFree => apply RoundTrip.tkpFree
  | tkpRes => apply RoundTrip.tkpRes | vclust => apply RoundTrip.vclust | halt => apply RoundTrip.halt | trap => apply RoundTrip.trap
  | brk => apply RoundTrip.brk | kadd => apply RoundTrip.kadd | kli => apply RoundTrip.kli | kmov => apply RoundTrip.kmov
  | kmovHi => apply RoundTrip.kmovHi | psetAnd => apply RoundTrip.psetAnd | psetOr => apply RoundTrip.psetOr
  | psetXor => apply RoundTrip.psetXor | psetAndn => apply RoundTrip.psetAndn | psetOrn => apply RoundTrip.psetOrn
  | psetEq => apply RoundTrip.psetEq | psetNe => apply RoundTrip.psetNe | psetLt => apply RoundTrip.psetLt
  | psetLtn => apply RoundTrip.psetLtn | psetNz => apply RoundTrip.psetNz | rdsc => apply RoundTrip.rdsc
  | rdscHi => apply RoundTrip.rdscHi | rddcc => apply RoundTrip.rddcc | rddccHi => apply RoundTrip.rddccHi
  -- the S slot
  | add => apply RoundTrip.add | sub => apply RoundTrip.sub | mul => apply RoundTrip.mul | mulh => apply RoundTrip.mulh
  | mulhn => apply RoundTrip.mulhn | div => apply RoundTrip.div | divn => apply RoundTrip.divn | rem => apply RoundTrip.rem
  | remn => apply RoundTrip.remn | and => apply RoundTrip.and | or => apply RoundTrip.or | xor => apply RoundTrip.xor
  | andn => apply RoundTrip.andn | shl => apply RoundTrip.shl | shr => apply RoundTrip.shr | sra => apply RoundTrip.sra
  | rot => apply RoundTrip.rot | clz => apply RoundTrip.clz | ctz => apply RoundTrip.ctz | popc => apply RoundTrip.popc
  | min => apply RoundTrip.min | max => apply RoundTrip.max | minn => apply RoundTrip.minn | maxn => apply RoundTrip.maxn
  | cmpEq => apply RoundTrip.cmpEq | cmpNe => apply RoundTrip.cmpNe | cmpLt => apply RoundTrip.cmpLt | cmpGe => apply RoundTrip.cmpGe
  | cmpLtn => apply RoundTrip.cmpLtn | cmpGen => apply RoundTrip.cmpGen | cmpTst => apply RoundTrip.cmpTst | sel => apply RoundTrip.sel
  | li => apply RoundTrip.li | lih => apply RoundTrip.lih | bfx => apply RoundTrip.bfx | bfxS => apply RoundTrip.bfxS
  | bfi => apply RoundTrip.bfi | sextB => apply RoundTrip.sextB | sextH => apply RoundTrip.sextH | sextW => apply RoundTrip.sextW
  | sextBn => apply RoundTrip.sextBn | sextHn => apply RoundTrip.sextHn | sextWn => apply RoundTrip.sextWn
  | widfField => apply RoundTrip.widfField | widfGang => apply RoundTrip.widfGang | widfCut => apply RoundTrip.widfCut
  | smovK => apply RoundTrip.smovK | smovVa => apply RoundTrip.smovVa | smovVb => apply RoundTrip.smovVb
  | smovPred => apply RoundTrip.smovPred | smovMa => apply RoundTrip.smovMa | smovMb => apply RoundTrip.smovMb
  | mvst => apply RoundTrip.mvst | mvfs => apply RoundTrip.mvfs | dset => apply RoundTrip.dset | dsetLo => apply RoundTrip.dsetLo
  | dsetHi => apply RoundTrip.dsetHi
  -- the privileged operations of the S slot
  | tsr => apply RoundTrip.tsr | tsrP => apply RoundTrip.tsrP | tsw => apply RoundTrip.tsw | tswP => apply RoundTrip.tswP
  | tresRun => apply RoundTrip.tresRun | tresStep => apply RoundTrip.tresStep | tresHalt => apply RoundTrip.tresHalt
  | tresLock => apply RoundTrip.tresLock | tabt => apply RoundTrip.tabt | tabtReplay => apply RoundTrip.tabtReplay
  | tsnapDesc => apply RoundTrip.tsnapDesc | tsnapAddr => apply RoundTrip.tsnapAddr | tsnapVal => apply RoundTrip.tsnapVal
  | tsnapDrop => apply RoundTrip.tsnapDrop | selw => apply RoundTrip.selw | tlbiPage => apply RoundTrip.tlbiPage
  | tlbiPasid => apply RoundTrip.tlbiPasid | tlbiBolt => apply RoundTrip.tlbiBolt | tlbs => apply RoundTrip.tlbs
  | ctxs => apply RoundTrip.ctxs | ctxl => apply RoundTrip.ctxl | trpret => apply RoundTrip.trpret
  | fqpopTrap => apply RoundTrip.fqpopTrap | fqpopFault => apply RoundTrip.fqpopFault | fqpopPlc => apply RoundTrip.fqpopPlc
  -- the vector slots
  | vadd => apply RoundTrip.vadd | vsub => apply RoundTrip.vsub | vmul => apply RoundTrip.vmul | vmulh => apply RoundTrip.vmulh
  | vmin => apply RoundTrip.vmin | vmax => apply RoundTrip.vmax | vshl => apply RoundTrip.vshl | vshr => apply RoundTrip.vshr
  | vsra => apply RoundTrip.vsra | vadds => apply RoundTrip.vadds | vsubs => apply RoundTrip.vsubs | vabs => apply RoundTrip.vabs
  | vneg => apply RoundTrip.vneg | vredsum => apply RoundTrip.vredsum | vredmax => apply RoundTrip.vredmax
  | vredmin => apply RoundTrip.vredmin | vand => apply RoundTrip.vand | vor => apply RoundTrip.vor | vxor => apply RoundTrip.vxor
  | vsel => apply RoundTrip.vsel | vnot => apply RoundTrip.vnot | vcmpEq => apply RoundTrip.vcmpEq | vcmpNe => apply RoundTrip.vcmpNe
  | vcmpLt => apply RoundTrip.vcmpLt | vcmpLe => apply RoundTrip.vcmpLe | vcmpGt => apply RoundTrip.vcmpGt
  | vcmpGe => apply RoundTrip.vcmpGe | vdot4 => apply RoundTrip.vdot4 | vdot8 => apply RoundTrip.vdot8 | vfadd => apply RoundTrip.vfadd
  | vfsub => apply RoundTrip.vfsub | vfmul => apply RoundTrip.vfmul | vffma => apply RoundTrip.vffma | vfmin => apply RoundTrip.vfmin
  | vfmax => apply RoundTrip.vfmax | vfsgnJ => apply RoundTrip.vfsgnJ | vfsgnJn => apply RoundTrip.vfsgnJn
  | vfsgnJx => apply RoundTrip.vfsgnJx | vfcmpEq => apply RoundTrip.vfcmpEq | vfcmpNe => apply RoundTrip.vfcmpNe
  | vfcmpLt => apply RoundTrip.vfcmpLt | vfcmpLe => apply RoundTrip.vfcmpLe | vfcmpUn => apply RoundTrip.vfcmpUn
  | vfcmpOrd => apply RoundTrip.vfcmpOrd | vfclass => apply RoundTrip.vfclass | vfredmax => apply RoundTrip.vfredmax
  | vfredsum => apply RoundTrip.vfredsum | vexp2 => apply RoundTrip.vexp2 | vlog2 => apply RoundTrip.vlog2 | vrcp => apply RoundTrip.vrcp
  | vrsqrt => apply RoundTrip.vrsqrt | vcvt => apply RoundTrip.vcvt | vpack => apply RoundTrip.vpack | vunpack => apply RoundTrip.vunpack
  | vquant => apply RoundTrip.vquant | vquantScale => apply RoundTrip.vquantScale | vscale => apply RoundTrip.vscale
  | vfxd => apply RoundTrip.vfxd | vperm => apply RoundTrip.vperm | vbcast => apply RoundTrip.vbcast | vslide => apply RoundTrip.vslide
  | vzip => apply RoundTrip.vzip | vunzip => apply RoundTrip.vunzip | vmov => apply RoundTrip.vmov
  | vmovCross => apply RoundTrip.vmovCross | vmovSplat => apply RoundTrip.vmovSplat | vmovChunk => apply RoundTrip.vmovChunk
  | vliW => apply RoundTrip.vliW | vliF => apply RoundTrip.vliF | vliH => apply RoundTrip.vliH | vliB => apply RoundTrip.vliB
  | vidx => apply RoundTrip.vidx | vcrc => apply RoundTrip.vcrc | mlogAnd => apply RoundTrip.mlogAnd | mlogOr => apply RoundTrip.mlogOr
  | mlogXor => apply RoundTrip.mlogXor | mlogAndn => apply RoundTrip.mlogAndn | mlogOrn => apply RoundTrip.mlogOrn
  | mpop => apply RoundTrip.mpop | mpopFirst => apply RoundTrip.mpopFirst
  -- the M slot
  | mld => apply RoundTrip.mld | mldt => apply RoundTrip.mldt | mlds => apply RoundTrip.mlds | mst => apply RoundTrip.mst
  | mzero => apply RoundTrip.mzero | mma => apply RoundTrip.mma | mmo => apply RoundTrip.mmo | zout => apply RoundTrip.zout
  | zoutv => apply RoundTrip.zoutv | zld => apply RoundTrip.zld | zst => apply RoundTrip.zst | zstat => apply RoundTrip.zstat
  | zclr => apply RoundTrip.zclr
  -- the L slot
  | ldl => apply RoundTrip.ldl | stl => apply RoundTrip.stl | sti => apply RoundTrip.sti | ldg => apply RoundTrip.ldg
  | stg => apply RoundTrip.stg | ldv => apply RoundTrip.ldv | stv => apply RoundTrip.stv | amoAdd => apply RoundTrip.amoAdd
  | amoAnd => apply RoundTrip.amoAnd | amoOr => apply RoundTrip.amoOr | amoXor => apply RoundTrip.amoXor
  | amoMax => apply RoundTrip.amoMax | amoMin => apply RoundTrip.amoMin | amoMaxn => apply RoundTrip.amoMaxn
  | amoSwap => apply RoundTrip.amoSwap | cas => apply RoundTrip.cas | fenceAcq => apply RoundTrip.fenceAcq
  | fenceRel => apply RoundTrip.fenceRel | fenceAr => apply RoundTrip.fenceAr | lget => apply RoundTrip.lget
  | lwait => apply RoundTrip.lwait | zline => apply RoundTrip.zline | pref => apply RoundTrip.pref | launch => apply RoundTrip.launch
  | evpost => apply RoundTrip.evpost
  -- the D slot
  | ceGo => apply RoundTrip.ceGo | ceGor => apply RoundTrip.ceGor | ceIsp => apply RoundTrip.ceIsp | ceFill => apply RoundTrip.ceFill
  | ceGat => apply RoundTrip.ceGat | ceSca => apply RoundTrip.ceSca | ceRed => apply RoundTrip.ceRed | ceRep => apply RoundTrip.ceRep
  | ceCan => apply RoundTrip.ceCan | ceStatSt => apply RoundTrip.ceStatSt | ceStatBytes => apply RoundTrip.ceStatBytes
  | ceStatEv => apply RoundTrip.ceStatEv | ceStatCrc => apply RoundTrip.ceStatCrc | ceStatTag => apply RoundTrip.ceStatTag
  -- the X slot
  | snd => apply RoundTrip.snd | rcv => apply RoundTrip.rcv | sndr => apply RoundTrip.sndr | semw => apply RoundTrip.semw
  | semp => apply RoundTrip.semp | semi => apply RoundTrip.semi | semv => apply RoundTrip.semv | bcst => apply RoundTrip.bcst
  | xfar => apply RoundTrip.xfar | xrcvf => apply RoundTrip.xrcvf
  -- the events
  | _ => exact RoundTrip.of_none rfl

theorem decodeWords_of_encode {i : Instr} {ws : List Nat} {svc : Bool} (hsvc : i.privileged = svc) (hwf : i.wellFormed = true)
    (hencode : encode i = some ws) : decodeWords svc ws = some i := by
  subst hsvc
  exact encode_roundTrip i ws hwf hencode

/-- Settles O1, by the round trip of every constructor. -/
theorem encodedInstructionDecodesToItself : Obligations.EncodedInstructionDecodesToItself :=
  fun _ _ hwf hencode => decodeWords_of_encode rfl hwf hencode

/-- Settles O2: the bundles without a slot word are read by evaluation; every other pair of words is what the encoder writes for its
instruction, so it decodes by the round trip. -/
theorem specWordsDecode : Obligations.SpecWordsDecode := by
  refine ⟨by rfl, by rfl, ?kli, ?add, ?cmpGe, ?vquant, ?mld, ?ldg, ?ceGo, ?snd, ?tresRun⟩
  all_goals exact decodeWords_of_encode rfl rfl rfl

end Sys2Proof
end

section
/-! O3: a header with a reserved bit, an imm16 without EXT, EXT without a slot or NOPN with anything else is illegal at place 8. -/

namespace Sys2Proof

section
variable {svc : Bool} {h : Nat} {rest : List Nat}

theorem decodeBundle_of_reserved_bit (hne : h ≠ 0) (hlen : (presentSlots (h % 256)).length ≤ rest.length)
    (hres : h / 8192 % 8 ≠ 0) : decodeBundle svc (h :: rest) = .illegal 8 := by
  simp [decodeBundle, hne, Nat.not_lt.mpr hlen, hres]

theorem decodeBundle_of_nopn_with_other (hne : h ≠ 0) (hlen : (presentSlots (h % 256)).length ≤ rest.length)
    (hnopn : h / 4096 % 2 = 1) (hother : h % 256 ≠ 0 ∨ h / 256 % 8 ≠ 0 ∨ h / 2048 % 2 = 1) :
    decodeBundle svc (h :: rest) = .illegal 8 := by
  by_cases hres : h / 8192 % 8 = 0
  · have hform : ¬ ((h % 256 = 0 ∧ h / 256 % 8 = 0) ∧ h / 2048 % 2 = 0) := by omega
    simp [decodeBundle, hne, Nat.not_lt.mpr hlen, hres, hnopn, hform]
  · exact decodeBundle_of_reserved_bit hne hlen hres

theorem decodeBundle_of_imm_without_ext (hne : h ≠ 0) (hlen : (presentSlots (h % 256)).length ≤ rest.length)
    (himm : h / 65536 % 65536 ≠ 0) (hext : h / 2048 % 2 = 0) (hnopn : h / 4096 % 2 = 0) :
    decodeBundle svc (h :: rest) = .illegal 8 := by
  by_cases hres : h / 8192 % 8 = 0
  · simp [decodeBundle, hne, Nat.not_lt.mpr hlen, hres, hnopn, hext, himm]
  · exact decodeBundle_of_reserved_bit hne hlen hres

theorem decodeBundle_of_ext_without_slot (hne : h ≠ 0) (hpres : h % 256 = 0) (hext : h / 2048 % 2 = 1) :
    decodeBundle svc (h :: rest) = .illegal 8 := by
  have hslots : presentSlots 0 = [] := rfl
  have hlen : (presentSlots (h % 256)).length ≤ rest.length := by simp [hpres, hslots]
  by_cases hres : h / 8192 % 8 = 0
  · by_cases hnopn : h / 4096 % 2 = 1
    · exact decodeBundle_of_nopn_with_other hne hlen hnopn (.inr (.inr hext))
    · simp [decodeBundle, hne, hres, hnopn, hext, hpres, hslots]
  · exact decodeBundle_of_reserved_bit hne hlen hres

end

/-- Settles O3, one lemma for each of the four header faults. -/
theorem reservedHeadersAreIllegal : Obligations.ReservedHeadersAreIllegal := by
  intro svc h rest hne hlen hfault
  obtain hres | ⟨himm, hext, hnopn⟩ | ⟨hpres, hext⟩ | ⟨hnopn, hother⟩ := hfault
  · exact decodeBundle_of_reserved_bit hne hlen hres
  · exact decodeBundle_of_imm_without_ext hne hlen himm hext hnopn
  · exact decodeBundle_of_ext_without_slot hne hpres hext
  · exact decodeBundle_of_nopn_with_other hne hlen hnopn hother

end Sys2Proof
end

section
/-! O14: the effects of the bundle forms, `ifence`, `swapb` and `stitch` where their checks pass, and of a `vclust` that changes no cluster. -/

namespace Sys2Proof.Machine

theorem State.attempt_pair_ok (s : State) {a b : Chk} (go : State → State) (ha : a.bad = false) (hb : b.bad = false) :
    s.attempt [a, b] go = .next (go s) :=
  s.attempt_ok go (by simp [ha, hb])

theorem exec_ifence_of_ready {s : State} (hisp : s.tile.ispPending = false) (hheld : s.tile.c.idleHeld = false) :
    exec .ifence s = .next (s.onTile fun t => { t with c := { t.c with fenceAt := t.c.fenceAt ++ [s.psc + 3] } }) := by
  change execIfence s = _
  exact s.attempt_pair_ok _ hisp hheld

theorem exec_swapb_of_fenced {s : State} (hfenced : s.tile.c.fenced = true) (hheld : s.tile.c.idleHeld = false) (off : BitVec 22) :
    exec (.swapb off) s = .next ((s.onTile fun t => { t with sr := { t.sr with ispid := t.sr.ispid ^^^ 1#64 }
                                                             c := { t.c with fenced := false } }).branch (s.target off)) := by
  change execSwapb off s = _
  have hflag : (!s.tile.c.fenced) = false := by rw [hfenced]; rfl
  exact s.attempt_pair_ok _ hflag hheld

theorem exec_stitch_of_quiet {s : State}
    (hbeats : ∀ p, s.start.panelOf s.tileNo = some p → s.start.beatInFlight p s.tile.rank = false)
    (hpaths : pathPending (s.tile.tpath ++ s.tile.apath) s.psc = false) (live : BitVec 21) (banks : BitVec 16) :
    exec (.stitch live banks) s
      = .next (s.onTile fun t => { t with c := { t.c with stitch := some (live, banks &&& ~~~s.tile.sr.bown) } }) := by
  change execStitch live banks s = _
  unfold execStitch
  refine s.attempt_pair_ok _ ?_ hpaths
  cases hpanel : s.start.panelOf s.tileNo with
  | none => rfl
  | some p => exact hbeats p hpanel

theorem State.onTile_branch_dev {s : State} {n : Fin 128} (hcur : s.cur = .tile n) (f : Tile → Tile) (a : W32) :
    ((s.onTile f).branch a).dev
      = (s.dev.onTile n f).onTile n fun t => { t with c := { t.c with loops := popOutside t.c.loops a } } := by
  simp only [State.branch, State.goto_dev, State.setLoops, State.loops, State.onTile_cur, hcur, State.onDev_dev, State.onTile_dev,
    State.tileNo]
  rfl

theorem Dev.onTile_of_fixed {d : Dev} {n : Fin 128} {f : Tile → Tile} (hf : f d.tiles[n] = d.tiles[n]) : d.onTile n f = d := by
  rw [Dev.onTile, hf, Fin.getElem_fin, Vector.set_getElem_self]

theorem State.onTile_of_fixed {s : State} {f : Tile → Tile} (hf : f s.tile = s.tile) : s.onTile f = s := by
  rw [State.onTile, State.onDev, Dev.onTile_of_fixed hf]

theorem Tile.gateCluster_a_awakeA (t : Tile) (c psc : Nat) : t.gateCluster .a c (t.sr.awakeA.getLsbD c) psc = t := by
  simp [Tile.gateCluster]

theorem Tile.gateCluster_b_awakeB (t : Tile) (c psc : Nat) : t.gateCluster .b c (t.sr.awakeB.getLsbD c) psc = t := by
  simp [Tile.gateCluster]

theorem exec_vclust_awake (s : State) : exec (.vclust s.tile.sr.awakeB s.tile.sr.awakeA) s = .next s := by
  refine congrArg Host.Outcome.next (State.onTile_of_fixed (List.foldl_fixed' (fun c => ?_) _))
  rw [Tile.gateCluster_a_awakeA, Tile.gateCluster_b_awakeB]

end Sys2Proof.Machine

namespace Sys2Proof

open Machine

/-- Settles O14: `swapb` changes its tile, then branches within it; the other clauses are the effects above. -/
theorem bundleFormsAndMarksComplete : Obligations.BundleFormsAndMarksComplete := by
  refine ⟨fun _ _ => rfl, fun _ _ => rfl, fun _ _ => rfl, fun s hisp hheld => exec_ifence_of_ready hisp hheld, ?swapb,
    fun s live banks hbeats hpaths => exec_stitch_of_quiet hbeats hpaths live banks, fun s _ _ => exec_vclust_awake s⟩
  intro s n off hcur hfenced hheld
  refine ⟨_, exec_swapb_of_fenced hfenced hheld off, rfl, ?_⟩
  rw [State.onTile_branch_dev hcur, Dev.onTile_tiles_same, Dev.onTile_tiles_same]
  exact ⟨rfl, rfl, rfl, rfl, rfl⟩

end Sys2Proof
end

section
/-! O9: where a result of fixed latency goes, on a tile and on a service core. -/

namespace Sys2Proof.Machine

theorem Dev.onSvc_of_fixed {d : Dev} {q : Fin 32} {f : Svc → Svc} (hf : f d.svcs[q] = d.svcs[q]) : d.onSvc q f = d := by
  rw [Dev.onSvc, hf, Fin.getElem_fin, Vector.set_getElem_self]

theorem State.onSvc_of_fixed {s : State} {q : Fin 32} {f : Svc → Svc} (hf : f s.dev.svcs[q] = s.dev.svcs[q]) :
    (s.onDev fun d => d.onSvc q f) = s := by
  rw [State.onDev, Dev.onSvc_of_fixed hf]

theorem State.onSvc_ite (s : State) (q : Fin 32) (discards : Prop) [Decidable discards] (f : Svc → Svc) :
    (s.onDev fun d => d.onSvc q fun c => if discards then c else f c) = if discards then s else s.onDev fun d => d.onSvc q f := by
  split
  · exact State.onSvc_of_fixed rfl
  · rfl

section
variable {s : State} {q : Fin 32} (hcur : s.cur = .svc q) (lat : Nat)
include hcur

theorem State.putS_svc (r : Fin 32) (v : W64) (p : Bool) : s.putS lat r v p = if r = 0 then s else
    s.onDev fun d => d.onSvc q fun c => { c with s := c.s.set r v, sPoison := setBit c.sPoison r.val p } := by
  rw [State.putS, s.put_svc hcur, ← s.onSvc_ite]
  simp only [Svc.writeDest, BitVec.setWidth_setWidth_of_le v (show 64 ≤ 1024 by decide), BitVec.setWidth_eq]

theorem State.putK_svc (r : Fin 16) (v : W32) : s.putK lat r v = if r = 0 then s else
    s.onDev fun d => d.onSvc q fun c => { c with k := c.k.set r v } := by
  rw [State.putK, s.put_svc hcur, ← s.onSvc_ite]
  simp only [Svc.writeDest, BitVec.setWidth_setWidth_of_le v (show 32 ≤ 1024 by decide), BitVec.setWidth_eq]

theorem State.putP_svc (r : Fin 8) (v : Bool) : s.putP lat r v = if r = 0 then s else
    s.onDev fun d => d.onSvc q fun c => { c with p := setBit c.p r.val v } := by
  have hbit : (if v then 1#1024 else 0#1024).getLsbD 0 = v := by cases v <;> simp
  rw [State.putP, s.put_svc hcur, ← s.onSvc_ite]
  simp only [Svc.writeDest, hbit]

end

end Sys2Proof.Machine

namespace Sys2Proof
open Machine

/-- Settles O9: the entry that `put` queues on a tile, and what each kind of result writes on a service core. -/
theorem fixedLatencyResultIsQueued : Obligations.FixedLatencyResultIsQueued :=
  ⟨fun s _ lat dest v p hcur => s.put_tile hcur lat dest v p id, fun _ _ lat r v p hcur => State.putS_svc hcur lat r v p,
    fun _ _ lat r v hcur => State.putK_svc hcur lat r v, fun _ _ lat r v hcur => State.putP_svc hcur lat r v⟩

end Sys2Proof
end

section
/-! O12: the address that a branch, a call, a return or `chkp` sends its bundle to. -/

namespace Sys2Proof.Machine

theorem State.attempt_singleton_ok (s : State) {c : Chk} (go : State → State) (hc : c.bad = false) : s.attempt [c] go = .next (go s) :=
  s.attempt_ok go (List.forall_mem_singleton.2 hc)

theorem exec_br (s : State) (off : BitVec 22) : exec (.br off) s = .next (s.branch (s.target off)) := rfl

theorem exec_jr (s : State) (a : Fin 16) (off : Option (BitVec 16)) :
    exec (.jr a off) s = .next (s.branch (s.readK a + off.elim 0#32 fun i => i.signExtend 32)) := rfl

theorem exec_call (s : State) (off : BitVec 22) :
    exec (.call off) s = .next ((s.putK 1 15 (s.iss.addr + BitVec.ofNat 32 s.iss.len)).goto (s.target off)) := rfl

theorem exec_chkp_of_awake {s : State} {c : PoisonClass} {r : Fin 32} (hawake : (s.chkClass c r).bad = false) (off : BitVec 12) :
    exec (.chkp c r off) s = .next (if s.poisonOf c r then s.branch (s.iss.addr + off.signExtend 32 * 4#32) else s) :=
  s.attempt_singleton_ok _ hawake

end Sys2Proof.Machine

namespace Sys2Proof
open Machine

/-- Settles O12, each transfer by its one equation. -/
theorem controlTransfersSetTheNextAddress : Obligations.ControlTransfersSetTheNextAddress := by
  refine ⟨fun s off => exec_br s off, fun s a => ?_, fun s a i => exec_jr s a (some i), fun s off => exec_call s off, fun s => rfl,
    fun s c r off hawake => exec_chkp_of_awake hawake off⟩
  rw [exec_jr, Option.elim, BitVec.add_zero]
  rfl

end Sys2Proof
end

section
/-! O13: the loop stack under `loop`, `loopi`, `lbrk` and `lnext`. -/

namespace Sys2Proof.Machine

/-- One failed check raises its own cause, on a tile and on a service core alike. -/
theorem State.attempt_singleton_bad (s : State) {c : Chk} (go : State → State) (hc : c.bad = true) :
    s.attempt [c] go = .next (s.raiseAt c.cause c.detail (c.slot.getD s.iss.slot) c.ea) := by
  rw [s.attempt_bad go ⟨c, List.mem_singleton_self c, hc⟩, List.filter_cons_of_pos hc, List.filter_nil]
  unfold State.raiseAll
  cases s.cur <;> rfl

theorem State.attempt_chkOp_bad (s : State) {bad : Bool} (go : State → State) (hbad : bad = true) (detail : Nat) :
    s.attempt [chkOp bad detail] go = .next (s.illop detail) :=
  s.attempt_singleton_bad go hbad

/-! `loop` and `loopi` -/

/-- The entry that a loop of the bundle in hand pushes: it starts after that bundle (R150). -/
def State.loopEntry (s : State) (count : Nat) (stop : W32) : LoopEnt where
  start := s.iss.addr + BitVec.ofNat 32 s.iss.len
  stop := stop
  count := count

theorem State.beginLoop_zero (s : State) (stop : W32) : s.beginLoop 0 stop = .next (s.goto (s.afterEnd stop)) :=
  s.attempt_singleton_ok _ rfl

theorem State.beginLoop_of_room {s : State} {count : Nat} (hcount : count ≠ 0) (hroom : s.loops.length < 4) (stop : W32) :
    s.beginLoop count stop = .next (s.setLoops (s.loopEntry count stop :: s.loops)) := by
  have hok : (chkOp (decide (0 < count) && decide (4 ≤ s.loops.length)) 0x0d).bad = false := by simp [chkOp, hroom]
  rw [State.beginLoop, s.attempt_singleton_ok _ hok, if_neg hcount]
  rfl

theorem State.beginLoop_of_full {s : State} {count : Nat} (hcount : count ≠ 0) (hfull : 4 ≤ s.loops.length) (stop : W32) :
    s.beginLoop count stop = .next (s.illop 0x0d) :=
  s.attempt_chkOp_bad _ (by simp [Nat.pos_of_ne_zero hcount, hfull]) 0x0d

/-! `lbrk` and `lnext` -/

theorem exec_lbrk_of_loops {s : State} {e : LoopEnt} {r : List LoopEnt} (hloops : s.loops = e :: r) :
    exec .lbrk s = .next ((s.setLoops r).goto (s.afterEnd e.stop)) := by
  change execLbrk s = _
  rw [execLbrk, s.attempt_singleton_ok _ (by simp [chkOp, hloops])]
  simp only [hloops]

theorem exec_lnext_of_loops {s : State} {e : LoopEnt} {r l : List LoopEnt} {next : W32} (hloops : s.loops = e :: r)
    (hstep : loopStep (e :: r) e.stop (s.afterEnd e.stop) = (l, next)) :
    exec .lnext s = .next ((s.setLoops l).onIss fun x => { x with next := next, taken := true }) := by
  change execLnext s = _
  rw [execLnext, s.attempt_singleton_ok _ (by simp [chkOp, hloops])]
  simp only [hloops, hstep]

theorem exec_lbrk_of_no_loop {s : State} (hloops : s.loops = []) : exec .lbrk s = .next (s.illop 0x0d) := by
  change execLbrk s = _
  have hempty : s.loops.isEmpty = true := List.isEmpty_iff.2 hloops
  exact s.attempt_chkOp_bad _ hempty 0x0d

theorem exec_lnext_of_no_loop {s : State} (hloops : s.loops = []) : exec .lnext s = .next (s.illop 0x0d) := by
  change execLnext s = _
  have hempty : s.loops.isEmpty = true := List.isEmpty_iff.2 hloops
  exact s.attempt_chkOp_bad _ hempty 0x0d

end Sys2Proof.Machine

namespace Sys2Proof
open Machine

/-- Settles O13: the pushes by the cases of `beginLoop`, and `lnext` by those of `loopStep`, from the top entry down. -/
theorem loopsPushStepAndPop : Obligations.LoopsPushStepAndPop := by
  refine ⟨fun s a off hk => ?_, fun s off => s.beginLoop_zero _,
    fun s a off hk hroom => State.beginLoop_of_room (BitVec.toNat_ne.1 hk) hroom _,
    fun s c off hc hroom => State.beginLoop_of_room (BitVec.toNat_ne.1 hc) hroom _, fun s e r => exec_lbrk_of_loops,
    fun s e r hloops hcount => exec_lnext_of_loops hloops (loopStep_back rfl hcount r _),
    fun s e hloops hcount => exec_lnext_of_loops hloops (loopStep_pop rfl hcount [] _),
    fun s e f r hloops hcount => ⟨fun hstop => ?below, fun hstop hmore => ?back, fun hstop hlast hnil => ?past⟩,
    fun s n a off hcur hk hfull => State.beginLoop_of_full (BitVec.toNat_ne.1 hk) hfull _,
    fun s n c off hcur hc hfull => State.beginLoop_of_full (BitVec.toNat_ne.1 hc) hfull _,
    fun s n hcur hloops => ⟨exec_lbrk_of_no_loop hloops, exec_lnext_of_no_loop hloops⟩⟩
  · change s.beginLoop (s.readK a).toNat _ = _
    rw [hk]
    exact s.beginLoop_zero _
  case below =>
    refine exec_lnext_of_loops hloops ((loopStep_pop rfl hcount (f :: r) _).trans (loopStep_of_head_ne ?_ _))
    rintro _ ⟨⟩
    exact hstop
  case back => exact exec_lnext_of_loops hloops ((loopStep_pop rfl hcount (f :: r) _).trans (loopStep_back hstop hmore r _))
  case past =>
    subst hnil
    exact exec_lnext_of_loops hloops ((loopStep_pop rfl hcount [f] _).trans (loopStep_pop hstop hlast [] _))

end Sys2Proof
end

section
/-! O16: `halt`, `trap` and `brk`, the traps of a service core's own, and the core that stops for good. -/

namespace Sys2Proof.Machine

theorem Dev.svcEnter_of_enabled {d : Dev} {q : Fin 32} (hie : d.svcs[q].sstat.getLsbD 0 = true) (cause code : Nat) (epc : W32) :
    d.svcEnter q cause code epc = d.onSvc q fun c =>
      { c with sepc := epc, scause := BitVec.ofNat 32 (cause + 256 * code), sstat := setBit c.sstat 0 false, pc := c.svec,
               idle := 0, run := .run } :=
  if_pos hie

theorem Dev.svcEnter_of_disabled {d : Dev} {q : Fin 32} (hie : d.svcs[q].sstat.getLsbD 0 = false) (cause code : Nat) (epc : W32) :
    d.svcEnter q cause code epc
      = (d.onSvc q fun c => { c with run := .dead }).logEvent 0x0b ((d.boltOfQuad q).map Fin.val) none none :=
  if_neg (by rw [hie]; exact Bool.false_ne_true)

@[simp] theorem Dev.onSvc_svcs_same (d : Dev) (q : Fin 32) (f : Svc → Svc) : (d.onSvc q f).svcs[q] = f d.svcs[q] := by
  simp [Dev.onSvc]

/-! `halt`, `trap` and `brk` -/

theorem exec_halt_tile {s : State} {n : Fin 128} (hcur : s.cur = .tile n) :
    exec .halt s = .next (s.onTile fun t => { t with c := { t.c with halted := true } }) := by
  change execHalt s = _
  simp only [execHalt, hcur]

theorem exec_halt_svc {s : State} {q : Fin 32} (hcur : s.cur = .svc q) :
    exec .halt s = if s.dev.svcs[q].sstat.getLsbD 0 then .next (s.onDev fun d => d.onSvc q fun c => { c with run := .wait })
      else .next (s.onDev fun d =>
        (d.onSvc q fun c => { c with run := .dead }).logEvent 0x0b ((d.boltOfQuad q).map Fin.val) none none) := by
  change execHalt s = _
  simp only [execHalt, hcur]

/-- What `trap` and `brk` raise in a tile: an end-class cause with its code (R323). -/
def State.programRaise (s : State) (n : Fin 128) (cause : Nat) (code : BitVec 17) : Raise where
  tile := n
  cause := cause
  detail := 0
  slot := s.iss.slot
  faddr := s.iss.addr
  code := code
  ea := 0#64
  spsc := 0
  late := true

theorem State.program_tile {s : State} {n : Fin 128} (hcur : s.cur = .tile n) (cause : Nat) (code : BitVec 17) :
    s.program cause code = { s with dev := { s.dev with raised := s.dev.raised ++ [s.programRaise n cause code] } } := by
  simp only [State.program, State.raiseLate, State.tileNo, State.onDev, State.programRaise, hcur]

/-- Outside a loop the bundle's next address is the one it was sent to, and the loop stack stays as it is. -/
theorem State.program_svc {s : State} {q : Fin 32} (hcur : s.cur = .svc q) (hloops : s.loops = []) (htaken : s.iss.taken = false)
    (cause : Nat) (code : BitVec 17) : s.program cause code = s.svcTrap q cause code.toNat s.iss.next := by
  have hnext : s.nextAddress = ([], s.iss.next) := by rw [State.nextAddress_of_not_taken htaken, hloops]; rfl
  have hkept : s.setLoops [] = s := by
    have hsvc : s.dev.svcs[q].loops = [] := by simpa only [State.loops, hcur] using hloops
    simp only [State.setLoops, hcur]
    exact State.onSvc_of_fixed (by rw [← hsvc])
  simp only [State.program, hcur, hnext, hkept]

theorem State.svcTrap_dev (s : State) (q : Fin 32) (cause code : Nat) (epc : W32) :
    (s.svcTrap q cause code epc).dev = s.dev.svcEnter q cause code epc := rfl

/-! Traps of a service core's own -/

theorem State.illop_svc_dev {s : State} {q : Fin 32} (hcur : s.cur = .svc q) (detail : Nat) :
    (s.illop detail).dev = s.dev.svcEnter q 2 0 s.iss.addr := by
  simp only [State.illop, State.raiseAt, hcur, State.svcTrap_dev]
  rfl

theorem State.misaligned_svc_dev {s : State} {q : Fin 32} (hcur : s.cur = .svc q) (ea : W64) :
    (s.misaligned ea).dev = s.dev.svcEnter q 2 0 s.iss.addr := by
  simp only [State.misaligned, State.raiseAt, hcur, State.svcTrap_dev]
  rfl

theorem State.bounds_svc_dev {s : State} {q : Fin 32} (hcur : s.cur = .svc q) (ea : W64) :
    (s.bounds ea).dev = s.dev.svcEnter q 3 0 s.iss.addr := by
  simp only [State.bounds, State.raiseAt, hcur, State.svcTrap_dev]
  rfl

/-- The checks of an access of a service core to its local memory (R319). -/
def localChecks (ea : W64) (n : Nat) : List Chk := [chkAlign (ea.toNat % n != 0) ea, chkBounds (decide (2 ^ 18 < ea.toNat + n)) ea]

/-- A misaligned local address is reported as such, also where it lies beyond the memory (R324). -/
theorem exec_local_of_misaligned {s : State} {q : Fin 32} (hcur : s.cur = .svc q) {i : Instr} {ea : W64} {n : Nat}
    (hi : ∃ go, exec i s = s.attempt (localChecks ea n) go) (halign : ea.toNat % n ≠ 0) :
    ∃ t, exec i s = .next t ∧ t.dev = s.dev.svcEnter q 2 0 s.iss.addr := by
  obtain ⟨go, hi⟩ := hi
  have hbad : (chkAlign (ea.toNat % n != 0) ea).bad = true := bne_iff_ne.2 halign
  refine ⟨s.misaligned ea, ?_, State.misaligned_svc_dev hcur ea⟩
  rw [hi, localChecks, s.attempt_bad go ⟨_, List.mem_cons_self, hbad⟩, List.filter_cons_of_pos hbad]
  by_cases hbeyond : 2 ^ 18 < ea.toNat + n
  · simp only [chkBounds, hbeyond, decide_true, List.filter_cons_of_pos, List.filter_nil, State.raiseAll, hcur]
    rfl
  · simp only [chkBounds, hbeyond, decide_false, Bool.false_eq_true, not_false_eq_true, List.filter_cons_of_neg, List.filter_nil,
      State.raiseAll, hcur]
    rfl

theorem exec_local_of_beyond {s : State} {q : Fin 32} (hcur : s.cur = .svc q) {i : Instr} {ea : W64} {n : Nat}
    (hi : ∃ go, exec i s = s.attempt (localChecks ea n) go) (halign : ea.toNat % n = 0) (hbeyond : 2 ^ 18 < ea.toNat + n) :
    ∃ t, exec i s = .next t ∧ t.dev = s.dev.svcEnter q 3 0 s.iss.addr := by
  obtain ⟨go, hi⟩ := hi
  have hbad : (chkBounds (decide (2 ^ 18 < ea.toNat + n)) ea).bad = true := decide_eq_true hbeyond
  have hok : ¬ (chkAlign (ea.toNat % n != 0) ea).bad = true := by simp [chkAlign, halign]
  refine ⟨s.bounds ea, ?_, State.bounds_svc_dev hcur ea⟩
  rw [hi, localChecks, s.attempt_bad go ⟨_, List.mem_cons_of_mem _ List.mem_cons_self, hbad⟩, List.filter_cons_of_neg hok,
    List.filter_cons_of_pos hbad, List.filter_nil, State.raiseAll, hcur]
  rfl

theorem exec_ldl_svc {s : State} {q : Fin 32} (hcur : s.cur = .svc q) {a : Fin 32} (hpoison : s.poisonS a = false) (d : Fin 32)
    (off : Option (BitVec 16)) (dk : DKind) : ∃ go, exec (.ldl d a off dk) s = s.attempt (localChecks (s.ea a off) (dkBytes dk)) go := by
  change ∃ go, execLdl d a off dk s = _
  simp only [execLdl, hcur, hpoison, Bool.false_eq_true, if_false]
  exact ⟨_, rfl⟩

theorem exec_stl_svc {s : State} {q : Fin 32} (hcur : s.cur = .svc q) {a : Fin 32} (hpoison : s.poisonS a = false) (d : Fin 32)
    (off : Option (BitVec 16)) (dk : DKind) : ∃ go, exec (.stl d a off dk) s = s.attempt (localChecks (s.ea a off) (dkBytes dk)) go := by
  change ∃ go, execStl d a off dk s = _
  simp only [execStl, hcur, hpoison, Bool.false_eq_true, if_false]
  exact ⟨_, rfl⟩

theorem exec_mvst_svc_readOnly {s : State} {q : Fin 32} (hcur : s.cur = .svc q) {n : BitVec 10} (hn : svcSrWritable n.toNat = false)
    (a : Fin 32) : exec (.mvst n a) s = .next (s.illop 0x0f) := by
  change execMvst n a s = _
  simp only [execMvst, hcur]
  exact s.attempt_chkOp_bad _ (by rw [hn]; rfl) 0x0f

/-! Fetch -/

/-- A running core that no event, idle cycle or bundle keeps from it takes the trap that its fetch raises. -/
theorem step_svc_of_trap {s : State} {q : Fin 32} (hagenda : s.agenda = [.svc q]) (hrun : s.dev.svcs[q].run = .run)
    (hevent : s.dev.svcEvent q = false) (hidle : s.dev.svcs[q].idle = 0) {d : Dev}
    (hfetch : (∃ a k, s.dev.fetchSvc q = .illegal a k ∧ d = s.dev.svcEnter q 1 0 a)
      ∨ ∃ a, s.dev.fetchSvc q = .unmapped a ∧ d = s.dev.svcEnter q 3 0 a) :
    step s = .next { s with agenda := [], dev := d } := by
  have hplan : ({ s with agenda := [] } : State).planSvc q = { s with agenda := [], dev := d } := by
    obtain ⟨a, k, hfetch, rfl⟩ | ⟨a, hfetch, rfl⟩ := hfetch
    all_goals
      simp only [State.planSvc, hrun, hevent, hidle, hfetch, Bool.false_and, Bool.false_eq_true, if_false, Nat.lt_irrefl]
      rfl
  simp only [step, State.runNext, hagenda, State.expand, hplan, State.runHead]

end Sys2Proof.Machine

namespace Sys2Proof
open Machine

/-- Settles O16: what a tile raises, what a service core's handler is entered with, and each trap of its own by its cause. -/
theorem haltAndProgramTraps : Obligations.HaltAndProgramTraps := by
  refine ⟨fun s n => exec_halt_tile, fun s q hcur hie => ?haltWait, fun s n code hcur => congrArg _ (State.program_tile hcur _ code),
    fun s n code hcur => congrArg _ (State.program_tile hcur _ code), fun s q code hcur hloops htaken hie => ?enter, ?own⟩
  case haltWait => rw [exec_halt_svc hcur, if_pos hie]
  case enter =>
    refine ⟨_, _, rfl, rfl, ?_⟩
    have hbit : (setBit s.dev.svcs[q].sstat 0 false).getLsbD 0 = false := getLsbD_setBit_same (by decide) _ _
    simp only [State.program_svc hcur hloops htaken, State.svcTrap_dev, Dev.svcEnter_of_enabled hie, Dev.onSvc_svcs_same, hbit,
      causeUser, causeBreak, and_self]
  case own =>
    refine ⟨fun s q hcur hie => ⟨?haltDead, fun code hloops htaken => ⟨_, _, rfl, rfl, ?_, ?_⟩⟩,
      fun s q hagenda hrun hevent hidle => ⟨fun a k hfetch => ?illegal, fun a hfetch => ?unmapped⟩,
      fun s q d a off dk hcur hpoison => ?access⟩
    case haltDead => rw [exec_halt_svc hcur, if_neg (by rw [hie]; exact Bool.false_ne_true)]
    · rw [State.program_svc hcur hloops htaken, State.svcTrap_dev, Dev.svcEnter_of_disabled hie]
    · rw [State.program_svc hcur hloops htaken, State.svcTrap_dev, Dev.svcEnter_of_disabled hie]
    case illegal => exact step_svc_of_trap hagenda hrun hevent hidle (.inl ⟨a, k, hfetch, rfl⟩)
    case unmapped => exact step_svc_of_trap hagenda hrun hevent hidle (.inr ⟨a, hfetch, rfl⟩)
    case access =>
      intro ea
      have hea : ea = s.ea a off := by cases off <;> rfl
      clear_value ea
      subst hea
      have hldl := exec_ldl_svc hcur hpoison d off dk
      have hstl := exec_stl_svc hcur hpoison d off dk
      exact ⟨fun halign => ⟨exec_local_of_misaligned hcur hldl halign, exec_local_of_misaligned hcur hstl halign⟩,
        fun halign hbeyond => ⟨exec_local_of_beyond hcur hldl halign hbeyond, exec_local_of_beyond hcur hstl halign hbeyond⟩,
        fun n hn => ⟨_, exec_mvst_svc_readOnly hcur hn a, State.illop_svc_dev hcur _⟩⟩

end Sys2Proof
end

section
/-! O17, O20: the K and S operations that queue one result of what they read. -/

namespace Sys2Proof.Machine

theorem bne_eq_decide_ne {α : Type} [DecidableEq α] (x y : α) : (x != y) = decide (x ≠ y) := by
  rw [decide_not]
  rfl

/-! Values -/

theorem setWidth_shiftRight_32 (x : W64) : (x >>> 32).setWidth 1024 = (x.extractLsb' 32 32).setWidth 1024 := by
  refine BitVec.eq_of_toNat_eq ?_
  simp only [BitVec.toNat_setWidth, BitVec.toNat_ushiftRight, BitVec.extractLsb'_toNat, Nat.shiftRight_eq_div_pow]
  have hx := x.isLt
  omega

theorem TokSt.resolved_eq_decide (x : TokSt) :
    (x == .done || x == .part || x == .failed) = decide (x = .done ∨ x = .part ∨ x = .failed) := by
  cases x <;> rfl

theorem not_slt_eq_decide_le {n : Nat} (x y : BitVec n) : (!x.slt y) = decide (y.toInt ≤ x.toInt) := by
  rw [BitVec.slt_eq_decide, ← decide_not]
  exact decide_eq_decide.2 Int.not_lt

theorem not_ult_eq_decide_le {n : Nat} (x y : BitVec n) : (!x.ult y) = decide (y.toNat ≤ x.toNat) := by
  rw [BitVec.ult_eq_decide, ← decide_not]
  exact decide_eq_decide.2 Nat.not_lt

theorem State.dccLatch_latchDcc (s : State) : s.latchDcc.dccLatch = BitVec.ofNat 32 (s.dev.dcc / 2 ^ 32) := by
  cases hcur : s.cur with
  | tile n =>
    simp only [State.latchDcc, State.dccLatch, State.tile, State.tileNo, hcur, State.onTile_cur, State.onTile_dev, Dev.onTile_tiles_same]
  | svc q => simp only [State.latchDcc, State.dccLatch, hcur, State.onDev_cur, State.onDev_dev, Dev.onSvc_svcs_same]

end Sys2Proof.Machine

namespace Sys2Proof
open Machine

/-- Settles O17. Most forms queue the value as the statement writes it; the others are the equations of values above. -/
theorem controlRegisterOperations : Obligations.ControlRegisterOperations := by
  refine ⟨fun s d a o => rfl, fun s d i => rfl, fun s d a => rfl, fun s d a => ?kmovHi, fun s d a b => ⟨rfl, rfl, rfl, rfl, rfl⟩,
    fun s d a o => ⟨rfl, ?psetNe, rfl, rfl, ?psetNz⟩, fun s d => ⟨rfl, rfl, rfl, rfl, s.dccLatch_latchDcc⟩,
    fun s p k => ⟨rfl, rfl, rfl, rfl, rfl, ?tkpRes⟩⟩
  case kmovHi =>
    change execKmovHi d a s = _
    rw [execKmovHi, setWidth_shiftRight_32]
  case psetNe =>
    change s.kCmp d a o true (fun x y => x != y) = _
    rw [State.kCmp, bne_eq_decide_ne]
  case psetNz =>
    change execPsetNz d a s = _
    rw [execPsetNz, bne_eq_decide_ne]
  case tkpRes =>
    change s.pollToken p k (fun x => x == .done || x == .part || x == .failed) = _
    rw [State.pollToken, TokSt.resolved_eq_decide]

/-- Settles O20: each compare by its condition as a decision; `sel` is written as it stands. -/
theorem scalarComparesAndSelect : Obligations.ScalarComparesAndSelect := by
  refine ⟨fun s d a o => ⟨rfl, ?ne, rfl, ?ge, rfl, ?gen, ?tst⟩, fun s d p a o => rfl⟩
  case ne =>
    change s.sCmp d a o true (fun x y => x != y) = _
    rw [State.sCmp, bne_eq_decide_ne]
  case ge =>
    change s.sCmp d a o true (fun x y => !x.slt y) = _
    rw [State.sCmp, not_slt_eq_decide_le]
  case gen =>
    change s.sCmp d a o false (fun x y => !x.ult y) = _
    rw [State.sCmp, not_ult_eq_decide_le]
  case tst =>
    change s.sCmp d a o false (fun x y => x &&& y != 0#64) = _
    rw [State.sCmp, bne_eq_decide_ne]

end Sys2Proof
end

section
/-! O21: `li` and `lih`, with their words. -/

namespace Sys2Proof.Machine

theorem lih_value (x : W64) (v : BitVec 16) : x * 65536#64 + v.setWidth 64 = BitVec.ofNat 64 (x.toNat * 2 ^ 16 + v.toNat) := by
  refine BitVec.eq_of_toNat_eq ?_
  have hv := v.isLt
  simp only [BitVec.toNat_add, BitVec.toNat_mul, BitVec.toNat_setWidth, BitVec.toNat_ofNat]
  omega

end Sys2Proof.Machine

namespace Sys2Proof
open Machine

/-- The words of an operation of the S slot without imm16 (R117, R118), as numbers. -/
theorem decodeWords_sSlot {i : Instr} {opc bits : Nat} (hencode : encode i = (encodeSlot i).map oneWords)
    (hslot : encodeSlot i = some ⟨1, opc, bits, none⟩) (hopc : opc < 0x30) (hbits : bits < 2 ^ 22) (hwf : i.wellFormed = true) :
    decodeWords false [0x2, opc * 2 ^ 26 + bits] = some i := by
  have hordinary : i.privileged = false := by
    simp [Instr.privileged, hslot]
    omega
  refine decodeWords_of_encode hordinary hwf ?_
  rw [hencode, hslot, Option.map_some, oneWords]
  simp [pack, widthSum]
  omega

theorem packA_sUn (d a : Fin 32) : packA d.val a.val 0 0 0 = d.val * 2 ^ 17 + a.val * 2 ^ 12 := by
  simp [packA, pack, widthSum]
  omega

theorem packC_li (d : Fin 32) (v : BitVec 17) : packC d.val v.toNat = d.val * 2 ^ 17 + v.toNat := by
  simp [packC, pack, widthSum]

theorem pack_lih (d : Fin 32) (v : BitVec 16) : pack [(5, d.val), (1, 0), (16, v.toNat)] = d.val * 2 ^ 17 + v.toNat := by
  simp [pack, widthSum]

/-- Settles O21: the words are those that the encoder writes. -/
theorem scalarConstants : Obligations.ScalarConstants := by
  refine ⟨fun d v => ?liWord, fun d v => ?lihWord, fun s d v => rfl, fun s d v => ?lih⟩
  case liWord =>
    have h := decodeWords_sSlot (i := .li d v) rfl rfl (by decide) (packC_lt _ _) rfl
    rwa [packC_li, ← Nat.add_assoc] at h
  case lihWord =>
    have h := decodeWords_sSlot (i := .lih d v) rfl rfl (by decide) (pack_lt _) rfl
    rwa [pack_lih, ← Nat.add_assoc] at h
  case lih =>
    change execLih d v s = _
    rw [execLih, lih_value]

end Sys2Proof
end

section
/-! O19: leading zeros, trailing zeros and set bits of a number. -/

namespace Sys2Proof.Machine

/-! Leading zeros -/

theorem leadingZeros_zero (n : Nat) : leadingZeros n 0 = n := by simp [leadingZeros]

/-- Below 2^n the leading zeros stand above bit floor(log2 v). -/
theorem leadingZeros_of_pos {n v : Nat} (hv : v ≠ 0) (hlt : v < 2 ^ n) : leadingZeros n v + v.log2 + 1 = n := by
  have hlog : v.log2 < n := (Nat.log2_lt hv).2 hlt
  rw [leadingZeros, Nat.mod_eq_of_lt hlt, if_neg hv]
  omega

theorem leadingZeros_le (n v : Nat) : leadingZeros n v ≤ n := by
  unfold leadingZeros
  split <;> omega

theorem lt_two_pow_sub_leadingZeros {n v : Nat} (hlt : v < 2 ^ n) : v < 2 ^ (n - leadingZeros n v) := by
  by_cases hv : v = 0
  · rw [hv]
    exact Nat.two_pow_pos _
  · have hsum := leadingZeros_of_pos hv hlt
    rw [show n - leadingZeros n v = v.log2 + 1 by omega]
    exact Nat.lt_log2_self

theorem testBit_sub_leadingZeros {n v : Nat} (hlt : v < 2 ^ n) (hl : leadingZeros n v < n) :
    v.testBit (n - 1 - leadingZeros n v) = true := by
  have hv : v ≠ 0 := by
    rintro rfl
    rw [leadingZeros_zero] at hl
    exact hl.false
  have hsum := leadingZeros_of_pos hv hlt
  rw [show n - 1 - leadingZeros n v = v.log2 by omega]
  exact Nat.testBit_log2 hv

/-! Trailing zeros -/

theorem trailingZeros_le (n v : Nat) : trailingZeros n v ≤ n := by
  induction n generalizing v with
  | zero => exact le_rfl
  | succ n ih =>
    rw [trailingZeros]
    split
    · exact Nat.zero_le _
    · exact Nat.succ_le_succ (ih _)

theorem trailingZeros_zero (n : Nat) : trailingZeros n 0 = n := by
  induction n with
  | zero => rfl
  | succ n ih => simp [trailingZeros, ih]

theorem testBit_of_lt_trailingZeros {n v j : Nat} (hj : j < trailingZeros n v) : v.testBit j = false := by
  induction n generalizing v j with
  | zero => exact absurd hj (Nat.not_lt_zero j)
  | succ n ih =>
    rw [trailingZeros] at hj
    split at hj
    case isTrue => exact absurd hj (Nat.not_lt_zero j)
    case isFalse heven =>
      cases j with
      | zero => simp [Nat.testBit_zero, heven]
      | succ j =>
        rw [Nat.testBit_succ]
        exact ih (Nat.lt_of_succ_lt_succ hj)

theorem testBit_trailingZeros {n v : Nat} (ht : trailingZeros n v < n) : v.testBit (trailingZeros n v) = true := by
  induction n generalizing v with
  | zero => exact absurd ht (Nat.not_lt_zero _)
  | succ n ih =>
    rw [trailingZeros] at ht ⊢
    split
    case isTrue hodd => simp [Nat.testBit_zero, hodd]
    case isFalse heven =>
      rw [if_neg heven] at ht
      rw [Nat.testBit_succ]
      exact ih (Nat.lt_of_succ_lt_succ ht)

/-! Set bits -/

theorem sumList_bits_eq_length_filter (v : Nat) (l : List Nat) :
    sumList (l.map fun i => v / 2 ^ i % 2) = (l.filter fun j => v.testBit j).length := by
  induction l with
  | nil => rfl
  | cons i l ih =>
    have hbit : v / 2 ^ i % 2 = (v.testBit i).toNat := by rw [Nat.toNat_testBit]
    rw [List.map_cons, List.filter_cons, hbit]
    change (v.testBit i).toNat + sumList _ = _
    rw [ih]
    cases v.testBit i <;> simp [Nat.add_comm]

end Sys2Proof.Machine

namespace Sys2Proof
open Machine

/-- Settles O19: the words are those that the encoder writes, and the counts are those of s[a] as a number below 2^64. -/
theorem scalarBitCounts : Obligations.ScalarBitCounts := by
  intro s d a
  have hlt : (s.readS a).toNat < 2 ^ 64 := (s.readS a).isLt
  have hword {i : Instr} {opc : Nat} (hencode : encode i = (encodeSlot i).map oneWords)
      (hslot : encodeSlot i = some ⟨1, opc, packA d.val a.val 0 0 0, none⟩) (hopc : opc < 0x30) (hwf : i.wellFormed = true) :
      decodeWords false [0x2, opc * 2 ^ 26 + d.val * 2 ^ 17 + a.val * 2 ^ 12] = some i := by
    have h := decodeWords_sSlot hencode hslot hopc (packA_lt _ _ _ _ _) hwf
    rwa [packA_sUn, ← Nat.add_assoc] at h
  refine ⟨leadingZeros 64 (s.readS a).toNat, trailingZeros 64 (s.readS a).toNat, popCount 64 (s.readS a).toNat,
    hword rfl rfl (by decide) rfl, hword rfl rfl (by decide) rfl, hword rfl rfl (by decide) rfl,
    rfl, leadingZeros_le _ _, lt_two_pow_sub_leadingZeros hlt, testBit_sub_leadingZeros hlt,
    rfl, trailingZeros_le _ _, fun j => testBit_of_lt_trailingZeros, testBit_trailingZeros,
    rfl, sumList_bits_eq_length_filter _ _, fun hzero => ?_⟩
  rw [hzero]
  exact ⟨leadingZeros_zero 64, trailingZeros_zero 64⟩

end Sys2Proof
end

section
/-! O18: the S operations of two and three operands as arithmetic on what their sources stand for, and the bit fields bit by bit. -/

namespace Sys2Proof.Machine

/-! Arithmetic and shifts as wrapped exact results -/

theorem add_eq_ofInt {n : Nat} (x y : BitVec n) : x + y = BitVec.ofInt n (x.toInt + y.toInt) := by
  rw [BitVec.ofInt_add, BitVec.ofInt_toInt, BitVec.ofInt_toInt]

theorem sub_eq_ofInt {n : Nat} (x y : BitVec n) : x - y = BitVec.ofInt n (x.toInt - y.toInt) := by
  refine BitVec.eq_of_toInt_eq ?_
  rw [BitVec.toInt_sub, BitVec.toInt_ofInt]

theorem mul_eq_ofInt {n : Nat} (x y : BitVec n) : x * y = BitVec.ofInt n (x.toInt * y.toInt) := by
  rw [BitVec.ofInt_mul, BitVec.ofInt_toInt, BitVec.ofInt_toInt]

theorem shiftLeft_eq_ofNat {n : Nat} (x : BitVec n) (k : Nat) : x <<< k = BitVec.ofNat n (x.toNat * 2 ^ k) := by
  refine BitVec.eq_of_toNat_eq ?_
  rw [BitVec.toNat_shiftLeft, BitVec.toNat_ofNat, Nat.shiftLeft_eq]

theorem ushiftRight_eq_ofNat {n : Nat} (x : BitVec n) (k : Nat) : x >>> k = BitVec.ofNat n (x.toNat / 2 ^ k) := by
  rw [← Nat.shiftRight_eq_div_pow, ← BitVec.toNat_ushiftRight, BitVec.ofNat_toNat, BitVec.setWidth_eq]

theorem sshiftRight_eq_ofInt {n : Nat} (x : BitVec n) (k : Nat) : x.sshiftRight k = BitVec.ofInt n (x.toInt / 2 ^ k) := by
  rw [BitVec.sshiftRight, Int.shiftRight_eq_div_pow]
  norm_cast

theorem ite_slt {α : Type} {n : Nat} (x y : BitVec n) (a b : α) :
    (if x.slt y then a else b) = if x.toInt < y.toInt then a else b := by
  simp only [BitVec.slt_eq_decide, decide_eq_true_eq]

theorem ite_ult {α : Type} {n : Nat} (x y : BitVec n) (a b : α) :
    (if x.ult y then a else b) = if x.toNat < y.toNat then a else b := by
  simp only [BitVec.ult_eq_decide, decide_eq_true_eq]

theorem setWidth_setWidth_eq_ofNat_mod (x : W64) (k : Nat) : (x.setWidth k).setWidth 64 = BitVec.ofNat 64 (x.toNat % 2 ^ k) := by
  refine BitVec.eq_of_toNat_eq ?_
  rw [BitVec.toNat_setWidth, BitVec.toNat_setWidth, BitVec.toNat_ofNat]

/-! Bits of fields -/

theorem testBit_field (v lo w k : Nat) : (field v lo w).testBit k = (decide (k < w) && v.testBit (lo + k)) := by
  rw [field, Nat.testBit_mod_two_pow, ← Nat.shiftRight_eq_div_pow, Nat.testBit_shiftRight]

theorem getLsbD_putField {n : Nat} (v : BitVec n) (lo w x : Nat) {k : Nat} (hk : k < n) :
    (putField v lo w x).getLsbD k = if lo ≤ k ∧ k < lo + w then x.testBit (k - lo) else v.getLsbD k := by
  have hmask : ((2 ^ w - 1) * 2 ^ lo).testBit k = decide (lo ≤ k ∧ k < lo + w) := by
    rw [Nat.testBit_mul_two_pow, Nat.testBit_two_pow_sub_one]
    by_cases hlo : lo ≤ k <;> simp [hlo, Nat.sub_lt_iff_lt_add, Nat.add_comm w lo]
  have hval : (x % 2 ^ w * 2 ^ lo).testBit k = (decide (lo ≤ k ∧ k < lo + w) && x.testBit (k - lo)) := by
    rw [Nat.testBit_mul_two_pow, Nat.testBit_mod_two_pow]
    by_cases hlo : lo ≤ k <;> simp [hlo, Nat.sub_lt_iff_lt_add, Nat.add_comm w lo]
  simp only [putField, blend, BitVec.getLsbD_or, BitVec.getLsbD_and, BitVec.getLsbD_not, BitVec.getLsbD_ofNat, hmask, hval, hk]
  by_cases h : lo ≤ k ∧ k < lo + w <;> simp [h]

/-- The sign of a field continues its top bit. -/
theorem getLsbD_wrap_signed {n v k : Nat} (hn : 0 < n) (hv : v < 2 ^ n) (hk : k < 64) :
    (wrap 64 (signed n v)).getLsbD k = v.testBit (if k < n then k else n - 1) := by
  have hsigned : signed n v = (BitVec.ofNat n v).toInt := by
    have h := intVal_toNat hn true (BitVec.ofNat n v)
    rwa [BitVec.toNat_ofNat, Nat.mod_eq_of_lt hv] at h
  have hbit (j : Nat) (hj : j < n) : (BitVec.ofNat n v).getLsbD j = v.testBit j := by
    rw [BitVec.getLsbD_ofNat, decide_eq_true hj, Bool.true_and]
  rw [wrap, hsigned, ← BitVec.signExtend, BitVec.getLsbD_signExtend, BitVec.msb_eq_getLsbD_last, decide_eq_true hk, Bool.true_and]
  split
  case isTrue h => exact hbit k h
  case isFalse h => exact hbit (n - 1) (by omega)

/-! The shared operation that each form is -/

section
variable (s : State) (d a : Fin 32) (o : SOpd)

theorem exec_add : exec (.add d a o) s = s.sOp 1 d a o true fun x y => x + y := rfl
theorem exec_sub : exec (.sub d a o) s = s.sOp 1 d a o true fun x y => x - y := rfl
theorem exec_mul : exec (.mul d a o) s = s.sOp 3 d a o true fun x y => x * y := rfl
theorem exec_min : exec (.min d a o) s = s.sOp 1 d a o true fun x y => if x.slt y then x else y := rfl
theorem exec_max : exec (.max d a o) s = s.sOp 1 d a o true fun x y => if x.slt y then y else x := rfl
theorem exec_shl : exec (.shl d a o) s = s.sOp 1 d a o false fun x y => x <<< (y.toNat % 64) := rfl
theorem exec_shr : exec (.shr d a o) s = s.sOp 1 d a o false fun x y => x >>> (y.toNat % 64) := rfl
theorem exec_sra : exec (.sra d a o) s = s.sOp 1 d a o false fun x y => x.sshiftRight (y.toNat % 64) := rfl
theorem exec_rot : exec (.rot d a o) s = s.sOp 1 d a o false fun x y => x.rotateLeft (y.toNat % 64) := rfl
theorem exec_minn : exec (.minn d a o) s = s.sOp 1 d a o false fun x y => if x.ult y then x else y := rfl
theorem exec_maxn : exec (.maxn d a o) s = s.sOp 1 d a o false fun x y => if x.ult y then y else x := rfl
theorem exec_sextBn : exec (.sextBn d a) s = s.sUn d a fun x => (x.setWidth 8).setWidth 64 := rfl
theorem exec_sextHn : exec (.sextHn d a) s = s.sUn d a fun x => (x.setWidth 16).setWidth 64 := rfl
theorem exec_sextWn : exec (.sextWn d a) s = s.sUn d a fun x => (x.setWidth 32).setWidth 64 := rfl
theorem exec_bfx : exec (.bfx d a o) s = s.sOp 1 d a o false fun x c => BitVec.ofNat 64 (bitField x c).1 := rfl
theorem exec_bfxS : exec (.bfxS d a o) s = s.sOp 1 d a o false fun x c => wrap 64 (signed (bitField x c).2 (bitField x c).1) := rfl
theorem exec_bfi : exec (.bfi d a o) s = .next (s.putS 1 d
    (putField (s.readS d) (fieldOf (s.sopd o false) 0 6) (fieldOf (s.sopd o false) 8 6 + 1) (s.readS a).toNat)
    (s.poisonS d || s.poisonS a || s.sopdPoison o)) := rfl

end

/-! Bit fields -/

section
variable (x c : W64) {k : Nat}

theorem fieldOf_pos : fieldOf c 0 6 = c.toNat % 64 := by
  rw [fieldOf, field, pow_zero, Nat.div_one]
  rfl

theorem bitField_eq : bitField x c = (field x.toNat (c.toNat % 64) (c.toNat / 256 % 64 + 1), c.toNat / 256 % 64 + 1) := by
  rw [bitField, fieldOf_pos]
  rfl

theorem getLsbD_bitField (hk : k < 64) : (BitVec.ofNat 64 (bitField x c).1).getLsbD k
    = (decide (k < c.toNat / 256 % 64 + 1) && x.getLsbD (c.toNat % 64 + k)) := by
  rw [bitField_eq, BitVec.getLsbD_ofNat, testBit_field, decide_eq_true hk, Bool.true_and]
  rfl

theorem getLsbD_bitField_signed (hk : k < 64) : (wrap 64 (signed (bitField x c).2 (bitField x c).1)).getLsbD k
    = if k < c.toNat / 256 % 64 + 1 then x.getLsbD (c.toNat % 64 + k) else x.getLsbD (c.toNat % 64 + (c.toNat / 256 % 64 + 1 - 1)) := by
  rw [bitField_eq]
  dsimp only
  rw [getLsbD_wrap_signed (Nat.succ_pos _) (field_lt _ _ _) hk, testBit_field]
  split
  case isTrue h => rw [decide_eq_true h]; rfl
  case isFalse h => rw [decide_eq_true (by omega)]; rfl

end

end Sys2Proof.Machine

namespace Sys2Proof
open Machine

/-- Settles O18: wrapped results by the arithmetic of words, bit fields bit by bit; the other forms are written as they stand. -/
theorem scalarArithmeticResults : Obligations.ScalarArithmeticResults := by
  refine ⟨fun s d a o => ⟨⟨?add, ?sub, ?mul, rfl, rfl, rfl, ?min, ?max⟩,
      rfl, rfl, rfl, rfl, rfl, rfl, rfl, ?shl, ?shr, ?sra, ?rot, ?minn, ?maxn⟩,
    fun s d a o => ?fields, fun s d a => ⟨rfl, rfl, rfl, ?bn, ?hn, ?wn⟩⟩
  case add => rw [exec_add, State.sOp, add_eq_ofInt]
  case sub => rw [exec_sub, State.sOp, sub_eq_ofInt]
  case mul => rw [exec_mul, State.sOp, mul_eq_ofInt]
  case min => rw [exec_min, State.sOp, ite_slt]
  case max => rw [exec_max, State.sOp, ite_slt]
  case shl => rw [exec_shl, State.sOp, shiftLeft_eq_ofNat]
  case shr => rw [exec_shr, State.sOp, ushiftRight_eq_ofNat]
  case sra => rw [exec_sra, State.sOp, sshiftRight_eq_ofInt]
  case rot => rw [exec_rot, State.sOp, BitVec.rotateLeft_def, Nat.mod_mod]
  case minn => rw [exec_minn, State.sOp, ite_ult]
  case maxn => rw [exec_maxn, State.sOp, ite_ult]
  case bn => rw [exec_sextBn, State.sUn, setWidth_setWidth_eq_ofNat_mod]
  case hn => rw [exec_sextHn, State.sUn, setWidth_setWidth_eq_ofNat_mod]
  case wn => rw [exec_sextWn, State.sUn, setWidth_setWidth_eq_ofNat_mod]
  case fields =>
    refine ⟨_, _, _, exec_bfx s d a o, exec_bfxS s d a o, exec_bfi s d a o, fun k hk => ?_⟩
    refine ⟨getLsbD_bitField _ _ hk, getLsbD_bitField_signed _ _ hk, ?_⟩
    rw [getLsbD_putField _ _ _ _ hk, fieldOf_pos]
    rfl

end Sys2Proof
end

section
/-! O15: what `vclust` leaves of a vector register, seen together with the state of its cluster, and of everything else. -/

namespace Sys2Proof.Machine

theorem getLsbD_setBit_ne {n i j : Nat} (hij : i ≠ j) (v : BitVec n) (b : Bool) : (setBit v i b).getLsbD j = v.getLsbD j := by
  have hbit : (BitVec.ofNat n (2 ^ i)).getLsbD j = false := by
    rw [BitVec.getLsbD_ofNat, Nat.testBit_two_pow_of_ne hij, Bool.and_false]
  cases b
  · have hlt : v.getLsbD j = true → j < n := BitVec.lt_of_getLsbD
    simp only [setBit, Bool.false_eq_true, if_false, BitVec.getLsbD_and, BitVec.getLsbD_not, hbit, Bool.not_false, Bool.and_true]
    cases h : v.getLsbD j <;> simp [hlt, h]
  · simp only [setBit, if_true, BitVec.getLsbD_or, hbit, Bool.or_false]

/-! A register with its cluster -/

/-- A vector register with its poison and the state of its cluster. -/
structure RegView where
  awake : Bool
  wakeEnd : Nat
  value : VReg
  poison : Bool

/-- The AWAKE mask of a file (R156). -/
def Tile.awakeMask (t : Tile) (f : VFile) : BitVec 4 :=
  match f with
  | .a => t.sr.awakeA
  | .b => t.sr.awakeB

/-- Where the wake window of a cluster stands among the eight (R156). -/
def wakeIdx (f : VFile) (c : Nat) : Fin 8 :=
  match f with
  | .a => idx 8 c
  | .b => idx 8 (4 + c)

theorem wakeIdx_a_val {c : Nat} (hc : c < 4) : (wakeIdx .a c).val = c := Nat.mod_eq_of_lt (by omega)

theorem wakeIdx_b_val {c : Nat} (hc : c < 4) : (wakeIdx .b c).val = 4 + c := Nat.mod_eq_of_lt (by omega)

/-- No two clusters share a wake window. -/
theorem eq_of_wakeIdx_val_eq {f g : VFile} {c j : Nat} (hc : c < 4) (hj : j < 4) (h : (wakeIdx f c).val = (wakeIdx g j).val) :
    f = g ∧ c = j := by
  cases f with
  | a =>
    rw [wakeIdx_a_val hc] at h
    cases g with
    | a => exact ⟨rfl, h.trans (wakeIdx_a_val hj)⟩
    | b =>
      rw [wakeIdx_b_val hj] at h
      omega
  | b =>
    rw [wakeIdx_b_val hc] at h
    cases g with
    | a =>
      rw [wakeIdx_a_val hj] at h
      omega
    | b => exact ⟨rfl, Nat.add_left_cancel (h.trans (wakeIdx_b_val hj))⟩

/-- A register of a tile, seen with its cluster. -/
def Tile.regView (t : Tile) (f : VFile) (r : Fin 32) : RegView where
  awake := (t.awakeMask f).getLsbD (r.val / 8)
  wakeEnd := t.sr.wakeEnd[wakeIdx f (r.val / 8)]
  value := t.vec f r
  poison := t.vecPoison f r

theorem Tile.clusterOff_eq_regView (t : Tile) (f : VFile) (r : Fin 32) (psc : Nat) :
    t.clusterOff f r psc = (!(t.regView f r).awake || decide (psc < (t.regView f r).wakeEnd)) := by
  cases f <;> rfl

/-- What gating or waking its cluster makes of a register (R156): nothing where the cluster is already in that state. -/
def RegView.gate (v : RegView) (en : Bool) (psc : Nat) : RegView :=
  if v.awake == en then v else { awake := en, wakeEnd := if en then psc + 24 else 0, value := 0#1024, poison := false }

section
variable (v : RegView) (en : Bool) (psc : Nat)

theorem RegView.gate_awake : (v.gate en psc).awake = en := by
  unfold RegView.gate
  split
  case isTrue h => exact beq_iff_eq.1 h
  case isFalse => rfl

theorem RegView.gate_value : (v.gate en psc).value = if en = v.awake then v.value else 0#1024 := by
  simp only [RegView.gate, beq_iff_eq, eq_comm (a := en)]
  split <;> rfl

theorem RegView.gate_poison : (v.gate en psc).poison = (decide (en = v.awake) && v.poison) := by
  simp only [RegView.gate, beq_iff_eq, eq_comm (a := en)]
  split <;> simp_all

theorem RegView.gate_wakeEnd {v : RegView} (hold : v.awake = false) (psc : Nat) : (v.gate true psc).wakeEnd = psc + 24 := by
  rw [RegView.gate, hold]
  rfl

end

/-! One cluster of a file -/

theorem clearCluster_getElem (v : Vector VReg 32) (c : Nat) (r : Fin 32) :
    (clearCluster v c)[r] = if r.val / 8 = c then 0#1024 else v[r] := by
  simp [clearCluster]

theorem getLsbD_clearClusterPoison (p : BitVec 32) (c : Nat) (r : Fin 32) :
    (clearClusterPoison p c).getLsbD r.val = (decide (r.val / 8 ≠ c) && p.getLsbD r.val) := by
  rw [clearClusterPoison, getLsbD_putField p _ _ _ r.isLt, Nat.zero_testBit]
  by_cases h : r.val / 8 = c
  · rw [if_pos (by omega)]
    simp [h]
  · rw [if_neg (by omega)]
    simp [h]

theorem Tile.gateCluster_of_eq {t : Tile} {f : VFile} {c : Nat} {en : Bool} (h : (t.awakeMask f).getLsbD c = en) (psc : Nat) :
    t.gateCluster f c en psc = t := by
  cases f with
  | a => exact if_pos (beq_iff_eq.2 h)
  | b => exact if_pos (beq_iff_eq.2 h)

section
variable {t : Tile} {c : Nat} {en : Bool} (psc : Nat)

theorem Tile.gateCluster_a_of_ne (hne : (t.awakeMask .a).getLsbD c ≠ en) : t.gateCluster .a c en psc =
    { t with r := { t.r with va := clearCluster t.r.va c, vaPoison := clearClusterPoison t.r.vaPoison c }
             sr := { t.sr with awakeA := setBit t.sr.awakeA c en, wakeEnd := t.sr.wakeEnd.set (idx 8 c) (if en then psc + 24 else 0) } } :=
  if_neg fun h => hne (beq_iff_eq.1 h)

theorem Tile.gateCluster_b_of_ne (hne : (t.awakeMask .b).getLsbD c ≠ en) : t.gateCluster .b c en psc =
    { t with r := { t.r with vb := clearCluster t.r.vb c, vbPoison := clearClusterPoison t.r.vbPoison c }
             sr := { t.sr with awakeB := setBit t.sr.awakeB c en
                               wakeEnd := t.sr.wakeEnd.set (idx 8 (4 + c)) (if en then psc + 24 else 0) } } :=
  if_neg fun h => hne (beq_iff_eq.1 h)

variable {f : VFile} (hne : (t.awakeMask f).getLsbD c ≠ en)
include hne

theorem Tile.gateCluster_wakeEnd :
    (t.gateCluster f c en psc).sr.wakeEnd = t.sr.wakeEnd.set (wakeIdx f c) (if en then psc + 24 else 0) := by
  cases f with
  | a => rw [Tile.gateCluster_a_of_ne psc hne]; rfl
  | b => rw [Tile.gateCluster_b_of_ne psc hne]; rfl

theorem Tile.gateCluster_awakeMask_same : (t.gateCluster f c en psc).awakeMask f = setBit (t.awakeMask f) c en := by
  cases f with
  | a => rw [Tile.gateCluster_a_of_ne psc hne]; rfl
  | b => rw [Tile.gateCluster_b_of_ne psc hne]; rfl

theorem Tile.gateCluster_vec_same (r : Fin 32) :
    (t.gateCluster f c en psc).vec f r = if r.val / 8 = c then 0#1024 else t.vec f r := by
  cases f with
  | a => rw [Tile.gateCluster_a_of_ne psc hne]; exact clearCluster_getElem _ c r
  | b => rw [Tile.gateCluster_b_of_ne psc hne]; exact clearCluster_getElem _ c r

theorem Tile.gateCluster_vecPoison_same (r : Fin 32) :
    (t.gateCluster f c en psc).vecPoison f r = (decide (r.val / 8 ≠ c) && t.vecPoison f r) := by
  cases f with
  | a => rw [Tile.gateCluster_a_of_ne psc hne]; exact getLsbD_clearClusterPoison _ c r
  | b => rw [Tile.gateCluster_b_of_ne psc hne]; exact getLsbD_clearClusterPoison _ c r

theorem Tile.gateCluster_other_file {g : VFile} (hfg : f ≠ g) : (t.gateCluster f c en psc).awakeMask g = t.awakeMask g
    ∧ (∀ r, (t.gateCluster f c en psc).vec g r = t.vec g r) ∧ ∀ r, (t.gateCluster f c en psc).vecPoison g r = t.vecPoison g r := by
  cases f with
  | a =>
    cases g with
    | a => exact absurd rfl hfg
    | b => simp only [Tile.gateCluster_a_of_ne psc hne, Tile.awakeMask, Tile.vec, Tile.vecPoison, implies_true, and_self]
  | b =>
    cases g with
    | a => simp only [Tile.gateCluster_b_of_ne psc hne, Tile.awakeMask, Tile.vec, Tile.vecPoison, implies_true, and_self]
    | b => exact absurd rfl hfg

end

section
variable (t : Tile) {f g : VFile} {c : Nat} (hc : c < 4) (r : Fin 32) (en : Bool) (psc : Nat)
include hc

theorem Tile.gateCluster_regView_same (hr : r.val / 8 = c) : (t.gateCluster f c en psc).regView f r = (t.regView f r).gate en psc := by
  by_cases hen : (t.awakeMask f).getLsbD c = en
  · rw [Tile.gateCluster_of_eq hen, RegView.gate, if_pos]
    rw [← hen, ← hr]
    exact beq_self_eq_true _
  · subst hr
    simp [Tile.regView, RegView.gate, hen, Tile.gateCluster_awakeMask_same psc hen, Tile.gateCluster_wakeEnd psc hen,
      Tile.gateCluster_vec_same psc hen, Tile.gateCluster_vecPoison_same psc hen, getLsbD_setBit_same hc]

theorem Tile.gateCluster_regView_other (hr : ¬ (f = g ∧ c = r.val / 8)) :
    (t.gateCluster f c en psc).regView g r = t.regView g r := by
  by_cases hen : (t.awakeMask f).getLsbD c = en
  · rw [Tile.gateCluster_of_eq hen]
  have hidx : ¬ (wakeIdx f c).val = (wakeIdx g (r.val / 8)).val := fun h => hr (eq_of_wakeIdx_val_eq hc (by omega) h)
  have hwake : (t.gateCluster f c en psc).sr.wakeEnd[wakeIdx g (r.val / 8)] = t.sr.wakeEnd[wakeIdx g (r.val / 8)] := by
    simp [Tile.gateCluster_wakeEnd psc hen, hidx]
  by_cases hfg : f = g
  · subst hfg
    have hcr : c ≠ r.val / 8 := fun h => hr ⟨rfl, h⟩
    simp [Tile.regView, Tile.gateCluster_awakeMask_same psc hen, hwake, getLsbD_setBit_ne hcr,
      Tile.gateCluster_vec_same psc hen, Tile.gateCluster_vecPoison_same psc hen, hcr.symm]
  · obtain ⟨hmask, hvec, hpoison⟩ := Tile.gateCluster_other_file psc hen hfg
    simp [Tile.regView, hmask, hvec, hpoison, hwake]

end

/-! All clusters -/

/-- One round of `vclust`: a cluster of each file (R156). -/
def Tile.gatePair (vb va : BitVec 4) (psc : Nat) (t : Tile) (c : Nat) : Tile :=
  (t.gateCluster .a c (va.getLsbD c) psc).gateCluster .b c (vb.getLsbD c) psc

/-- The mask that `vclust` gives a file. -/
def clustMask (vb va : BitVec 4) (f : VFile) : BitVec 4 :=
  match f with
  | .a => va
  | .b => vb

theorem Tile.gatePair_regView {c : Nat} (hc : c < 4) (vb va : BitVec 4) (psc : Nat) (t : Tile) (f : VFile) (r : Fin 32) :
    (t.gatePair vb va psc c).regView f r
      = if c = r.val / 8 then (t.regView f r).gate ((clustMask vb va f).getLsbD c) psc else t.regView f r := by
  split
  case isTrue h =>
    cases f with
    | a => rw [Tile.gatePair, Tile.gateCluster_regView_other _ hc r _ _ (by simp), Tile.gateCluster_regView_same _ hc r _ _ h.symm]; rfl
    | b => rw [Tile.gatePair, Tile.gateCluster_regView_same _ hc r _ _ h.symm, Tile.gateCluster_regView_other _ hc r _ _ (by simp)]; rfl
  case isFalse h =>
    have hne (g : VFile) : ¬ (g = f ∧ c = r.val / 8) := fun hg => h hg.2
    rw [Tile.gatePair, Tile.gateCluster_regView_other _ hc r _ _ (hne .b), Tile.gateCluster_regView_other _ hc r _ _ (hne .a)]

/-- Only the round of its own cluster changes a register. -/
theorem Tile.foldl_gatePair_regView (vb va : BitVec 4) (psc : Nat) (f : VFile) (r : Fin 32) {l : List Nat} (hnodup : l.Nodup)
    (hl : ∀ c ∈ l, c < 4) (t : Tile) : (l.foldl (Tile.gatePair vb va psc) t).regView f r
      = if r.val / 8 ∈ l then (t.regView f r).gate ((clustMask vb va f).getLsbD (r.val / 8)) psc else t.regView f r := by
  induction l generalizing t with
  | nil => rfl
  | cons c l ih =>
    obtain ⟨hnot, hnodup⟩ := List.nodup_cons.1 hnodup
    obtain ⟨hc, hl⟩ := List.forall_mem_cons.1 hl
    rw [List.foldl_cons, ih hnodup hl, Tile.gatePair_regView hc]
    by_cases h : c = r.val / 8
    · subst h
      simp [hnot]
    · simp [h, Ne.symm h]

theorem exec_vclust (s : State) (vb va : BitVec 4) :
    exec (.vclust vb va) s = .next (s.onTile fun t => (List.range 4).foldl (Tile.gatePair vb va s.psc) t) := rfl

theorem Tile.vclust_regView (vb va : BitVec 4) (psc : Nat) (t : Tile) (f : VFile) (r : Fin 32) :
    ((List.range 4).foldl (Tile.gatePair vb va psc) t).regView f r
      = (t.regView f r).gate ((clustMask vb va f).getLsbD (r.val / 8)) psc := by
  rw [Tile.foldl_gatePair_regView vb va psc f r List.nodup_range (fun c => List.mem_range.1), if_pos (List.mem_range.2 (by omega))]

theorem Tile.vclust_awakeMask (vb va : BitVec 4) (psc : Nat) (t : Tile) (f : VFile) :
    ((List.range 4).foldl (Tile.gatePair vb va psc) t).awakeMask f = clustMask vb va f := by
  refine BitVec.eq_of_getLsbD_eq fun c hc => ?_
  have h := congrArg RegView.awake (t.vclust_regView vb va psc f ⟨8 * c, by omega⟩)
  rw [RegView.gate_awake] at h
  simpa [Tile.regView] using h

/-! The registers that are no vector registers -/

/-- Registers with the vector registers and their poison taken from others. -/
def TileRegs.withVectorsOf (R Q : TileRegs) : TileRegs := { R with va := Q.va, vb := Q.vb, vaPoison := Q.vaPoison, vbPoison := Q.vbPoison }

theorem Tile.gateCluster_otherRegs (t : Tile) (f : VFile) (c : Nat) (en : Bool) (psc : Nat) (Q : TileRegs) :
    (t.gateCluster f c en psc).r.withVectorsOf Q = t.r.withVectorsOf Q := by
  by_cases hen : (t.awakeMask f).getLsbD c = en
  · rw [Tile.gateCluster_of_eq hen]
  · cases f with
    | a => simp only [Tile.gateCluster_a_of_ne psc hen, TileRegs.withVectorsOf]
    | b => simp only [Tile.gateCluster_b_of_ne psc hen, TileRegs.withVectorsOf]

theorem Tile.vclust_otherRegs (vb va : BitVec 4) (psc : Nat) (t : Tile) (Q : TileRegs) :
    ((List.range 4).foldl (Tile.gatePair vb va psc) t).r.withVectorsOf Q = t.r.withVectorsOf Q :=
  List.foldlRecOn (motive := fun u : Tile => u.r.withVectorsOf Q = t.r.withVectorsOf Q) _ _ rfl fun u hu c _ => by
    rw [Tile.gatePair, Tile.gateCluster_otherRegs, Tile.gateCluster_otherRegs, hu]

end Sys2Proof.Machine

namespace Sys2Proof
open Machine

/-- Settles O15: a register's value, poison and cluster are those of its view; the rest of the registers is untouched. -/
theorem gatingAClusterLosesItsContents : Obligations.GatingAClusterLosesItsContents := by
  intro s n vb va hcur
  obtain ⟨t, hexec, htile, hmem⟩ : ∃ t, exec (.vclust vb va) s = .next t
      ∧ t.dev.tiles[n] = (List.range 4).foldl (Tile.gatePair vb va s.psc) s.dev.tiles[n] ∧ t.dev.mem = s.dev.mem := by
    refine ⟨_, exec_vclust s vb va, ?_, rfl⟩
    rw [State.onTile_dev, State.tileNo, hcur, Dev.onTile_tiles_same]
  have hview := s.dev.tiles[n].vclust_regView vb va s.psc
  have hmask := s.dev.tiles[n].vclust_awakeMask vb va s.psc
  have hrest := s.dev.tiles[n].vclust_otherRegs vb va s.psc s.dev.tiles[n].r
  rw [← htile] at hview hmask hrest
  have hwaking (f : VFile) (r : Fin 32) (hen : (clustMask vb va f).getLsbD (r.val / 8) = true)
      (hold : (s.dev.tiles[n].awakeMask f).getLsbD (r.val / 8) = false) : ∀ c < s.psc + 24, t.dev.tiles[n].clusterOff f r c = true := by
    intro c hc
    rw [Tile.clusterOff_eq_regView, hview, hen, RegView.gate_wakeEnd hold, decide_eq_true hc, Bool.or_true]
  exact ⟨t, hexec, hmask .a, hmask .b,
    fun r => (congrArg RegView.value (hview .a r)).trans (RegView.gate_value _ _ _),
    fun r => (congrArg RegView.value (hview .b r)).trans (RegView.gate_value _ _ _),
    hwaking .a, hwaking .b,
    fun r => (congrArg RegView.poison (hview .a r)).trans (RegView.gate_poison _ _ _),
    fun r => (congrArg RegView.poison (hview .b r)).trans (RegView.gate_poison _ _ _),
    (congrArg TileRegs.ma hrest :), (congrArg TileRegs.mb hrest :), (congrArg TileRegs.d hrest :), (congrArg TileRegs.s hrest :),
    (congrArg TileRegs.k hrest :), (congrArg TileRegs.p hrest :), (congrArg TileRegs.t hrest :), (congrArg TileRegs.z hrest :), hmem⟩

end Sys2Proof
end

section
/-! O22: copies into S, state registers, staging registers and fields of WID. -/

namespace Sys2Proof.Machine

/-! Copies into S -/

theorem setWidth_ushiftRight_eq_extractLsb' {n : Nat} (x : BitVec n) (lo w : Nat) : (x >>> lo).setWidth w = x.extractLsb' lo w := by
  refine BitVec.eq_of_toNat_eq ?_
  rw [BitVec.toNat_setWidth, BitVec.toNat_ushiftRight, BitVec.extractLsb'_toNat]

theorem State.smovV_of_awake {s : State} {f : VFile} {a : Fin 32} (hawake : s.awake f [a]) (d : Fin 32) (c : Fin 16) :
    s.smovV f d a c = .next (s.putS 2 d ((s.readV f a).extractLsb' (64 * c.val) 64) (s.poisonV f a)) := by
  have hok : (s.chkV f a).bad = false := hawake a (List.mem_singleton_self a)
  rw [State.smovV, s.attempt_singleton_ok _ hok, setWidth_ushiftRight_eq_extractLsb']

theorem exec_smovK (s : State) (d : Fin 32) (a : Fin 16) : exec (.smovK d a) s = .next (s.putS 2 d ((s.readK a).setWidth 64) false) := rfl

theorem exec_smovPred (s : State) (d : Fin 32) : exec (.smovPred d) s = .next (s.putS 2 d (s.predicates.setWidth 64) false) := rfl

theorem exec_smovMa (s : State) (d : Fin 32) (a : Fin 8) : exec (.smovMa d a) s = .next (s.putS 2 d ((s.readM .a a).setWidth 64) false) :=
  rfl

theorem exec_smovMb (s : State) (d : Fin 32) (a : Fin 8) : exec (.smovMb d a) s = .next (s.putS 2 d ((s.readM .b a).setWidth 64) false) :=
  rfl

/-- p0 reads true (R90, R168). -/
theorem State.predicates_tile {s : State} {n : Fin 128} (hcur : s.cur = .tile n) : s.predicates = s.dev.tiles[n].r.p ||| 1#8 := by
  simp only [State.predicates, hcur]
  rfl

/-! State registers -/

/-- The value of a write to a BFMT that `mvst` checks (R109): a poisoned source writes 0 (R41). -/
def State.bfmtWritten (s : State) (a : Fin 32) : W32 := if s.poisonS a then 0#32 else (s.readS a).setWidth 32

/-- The checks of `mvst` on a tile (R94, R109, R199). -/
theorem exec_mvst_tile {s : State} {t : Fin 128} (hcur : s.cur = .tile t) (n : BitVec 10) (a : Fin 32) :
    exec (.mvst n a) s = s.attempt
      [chkOp (!srWritable n.toNat) 0x0f,
       chkOp (decide (0x030 ≤ n.toNat) && decide (n.toNat ≤ 0x03F) && bfmtBad (s.bfmtWritten a)) 0x0f,
       chkOp (decide (0x030 ≤ n.toNat) && decide (n.toNat ≤ 0x03F) && s.tile.bankBusy (n.toNat - 0x030) (s.psc + 1)) 0x0f]
      fun s => s.putPZ 2 (.sr n) ((s.readS a).setWidth 1024) (s.poisonS a) := by
  have hvalue : (if s.poisonS a then 0#64 else s.readS a).setWidth 32 = s.bfmtWritten a := by
    rw [State.bfmtWritten, apply_ite (BitVec.setWidth 32)]
    rfl
  change execMvst n a s = _
  simp only [execMvst, hcur, hvalue]

theorem exec_mvst_tile_of_writable {s : State} {t : Fin 128} (hcur : s.cur = .tile t) {n : BitVec 10} {a : Fin 32}
    (hwritable : srWritable n.toNat = true) (hbfmt : 0x030 ≤ n.toNat → n.toNat ≤ 0x03F →
      bfmtBad (s.bfmtWritten a) = false ∧ s.tile.bankBusy (n.toNat - 0x030) (s.psc + 1) = false) :
    exec (.mvst n a) s = .next (s.putPZ 2 (.sr n) ((s.readS a).setWidth 1024) (s.poisonS a)) := by
  rw [exec_mvst_tile hcur]
  refine s.attempt_ok _ ?_
  by_cases hnum : 0x030 ≤ n.toNat ∧ n.toNat ≤ 0x03F
  · obtain ⟨hpitch, hbank⟩ := hbfmt hnum.1 hnum.2
    simp [chkOp, hwritable, hpitch, hbank]
  · have hnum' : (decide (0x030 ≤ n.toNat) && decide (n.toNat ≤ 0x03F)) = false := by simpa using hnum
    simp [chkOp, hwritable, hnum']

/-- A BFMT is writable, so a register that is not fails no other check. -/
theorem exec_mvst_tile_of_readOnly {s : State} {t : Fin 128} (hcur : s.cur = .tile t) {n : BitVec 10} {a : Fin 32}
    (hreadOnly : srWritable n.toNat = false) : exec (.mvst n a) s = .next (s.illop 0x0f) := by
  have hnum : (decide (0x030 ≤ n.toNat) && decide (n.toNat ≤ 0x03F)) = false := by
    simp only [srWritable, Bool.or_eq_false_iff] at hreadOnly
    tauto
  rw [exec_mvst_tile hcur, hreadOnly, hnum, s.attempt_bad _ ⟨_, List.mem_cons_self, rfl⟩]
  simp only [chkOp, List.filter, Bool.not_false, Bool.false_and, State.raiseAll, hcur]
  rfl

theorem exec_mvst_svc_of_writable {s : State} {q : Fin 32} (hcur : s.cur = .svc q) {n : BitVec 10}
    (hwritable : svcSrWritable n.toNat = true) (a : Fin 32) : exec (.mvst n a) s
      = .next (s.onDev fun d => d.onSvc q fun c => c.writeSr n.toNat (if s.poisonS a then 0#64 else s.readS a)) := by
  change execMvst n a s = _
  simp only [execMvst, hcur]
  exact s.attempt_singleton_ok _ (by rw [hwritable]; rfl)

theorem exec_mvfs_tile {s : State} {t : Fin 128} (hcur : s.cur = .tile t) {n : BitVec 10} {v : Nat}
    (hvalue : (if n = 0x00A#10 then some s.dev.dcc else s.start.readSr t n.toNat) = some v) (d : Fin 32) :
    exec (.mvfs d n) s = .next (s.putS 2 d (BitVec.ofNat 64 v) false) := by
  change execMvfs d n s = _
  simp only [execMvfs, hcur, hvalue]
  exact s.attempt_singleton_ok _ rfl

end Sys2Proof.Machine

namespace Sys2Proof
open Machine

/-- Settles O22: copies by the value that they cut out, state registers by the checks that `mvst` and `mvfs` make; the staging
registers and the fields of WID are written as they stand. -/
theorem scalarMovesAndStateRegisters : Obligations.ScalarMovesAndStateRegisters := by
  refine ⟨fun s d a => ?smovK, fun s d a c hawake => State.smovV_of_awake hawake d c,
    fun s d a c hawake => State.smovV_of_awake hawake d c,
    fun s n d hcur => ?smovPred, fun s d a => ⟨?smovMa, ?smovMb⟩,
    fun s t n a hcur hwritable hbfmt => exec_mvst_tile_of_writable hcur hwritable hbfmt,
    fun s t n a hcur hreadOnly => exec_mvst_tile_of_readOnly hcur hreadOnly,
    fun s q n a hcur hwritable => exec_mvst_svc_of_writable hcur hwritable a,
    fun s t d n v hcur hn hvalue => exec_mvfs_tile hcur (by rw [if_neg hn, hvalue]) d,
    fun s t d hcur => exec_mvfs_tile hcur rfl d,
    fun s d a => ⟨rfl, rfl, rfl⟩, fun s d => ⟨fun f => rfl, rfl, rfl⟩⟩
  case smovK => rw [exec_smovK, BitVec.ofNat_toNat]
  case smovPred => rw [exec_smovPred, State.predicates_tile hcur, BitVec.ofNat_toNat]
  case smovMa => rw [exec_smovMa, BitVec.ofNat_toNat]
  case smovMb => rw [exec_smovMb, BitVec.ofNat_toNat]

end Sys2Proof
end

section
/-! O23, O24, O25: vector operations on integer and bit lanes as the lane result of their shared operation. -/

namespace Sys2Proof.Machine

theorem State.awake.mono {s : State} {f : VFile} {l l' : List (Fin 32)} (h : s.awake f l) (hl : l' ⊆ l) : s.awake f l' :=
  fun r hr => h r (hl hr)

theorem State.awake.append {s : State} {f : VFile} {l l' : List (Fin 32)} (h : s.awake f l) (h' : s.awake f l') : s.awake f (l ++ l') :=
  fun r hr => (List.mem_append.1 hr).elim (h r) (h' r)

/-- The checks of a register and of no operand b are among those of a register and an operand b. -/
theorem State.awake.unary {s : State} {f : VFile} {d a : Fin 32} {l : List (Fin 32)} (h : s.awake f (d :: a :: l)) : s.awake f [d, a] :=
  h.mono (by simp)

/-! Lanes as integers -/

/-- Lane j of a register as TY reads it (R171). -/
def State.intLane (s : State) (f : VFile) (r : Fin 32) (ty : ITy) (j : Nat) : Int := laneInt (itySigned ty) (s.laneOf f r (ityWidth ty) j)

/-- Lane j of operand b as TY reads it (R173). -/
def State.intLaneB (s : State) (f : VFile) (o : VOpd) (ty : ITy) (j : Nat) : Int :=
  laneInt (itySigned ty) (s.laneB f o (itySigned ty) (ityWidth ty) j)

theorem intVal_lane (s : State) (f : VFile) (r : Fin 32) {w : Nat} (hw : 0 < w) (sgn : Bool) (j : Nat) :
    intVal sgn w (lane w (s.readV f r) j) = laneInt sgn (s.laneOf f r w j) := by
  rw [lane_eq_laneOf, intVal_toNat hw]

theorem intVal_lane_readV (s : State) (f : VFile) (r : Fin 32) (ty : ITy) (j : Nat) :
    intVal (itySigned ty) (ityWidth ty) (lane (ityWidth ty) (s.readV f r) j) = s.intLane f r ty j :=
  intVal_lane s f r (ityWidth_pos ty) _ j

theorem intVal_lane_vopd (s : State) (f : VFile) (o : VOpd) (ty : ITy) {j : Nat} (hj : j < laneCount (ityWidth ty)) :
    intVal (itySigned ty) (ityWidth ty) (lane (ityWidth ty) (s.vopd f o (ityWidth ty) (itySigned ty)) j) = s.intLaneB f o ty j := by
  rw [lane_vopd s f o _ _ j hj, intVal_toNat (ityWidth_pos ty), State.intLaneB]

theorem flIf_bne (x y : Int) (fl : Flags) : flIf (x != y) fl = if x = y then 0#6 else fl := by
  by_cases h : x = y <;> simp [flIf, h]

/-! Integer lane operations -/

section
variable {s : State} {f : VFile} {lat : Nat} {d a b : Fin 32} {o : VOpd} {ty : ITy} {m : Fin 8} {i : Instr}

/-- What an integer operation on two lanes leaves (R176). -/
theorem vInt_result {g : Int → Int → Int × Flags} (hi : exec i s = s.vInt f lat d a o ty m g) (h : s.awake f (d :: a :: vopdNames o)) :
    LaneResult i s f lat d (s.poisonV f a || s.vopdPoison f o) (s.opMask f m.val) (ityWidth ty) fun j =>
      ((BitVec.ofInt (ityWidth ty) (g (s.intLane f a ty j) (s.intLaneB f o ty j)).1).toNat,
       (g (s.intLane f a ty j) (s.intLaneB f o ty j)).2) := by
  refine laneOp_result _ _ _ _ _ _ _ _ _ _ _ hi h fun j hj => ?_
  dsimp only
  rw [intVal_lane_readV, intVal_lane_vopd _ _ _ _ hj, wrapNat_eq]
  exact ⟨rfl, rfl⟩

/-- What an integer operation on one lane leaves. -/
theorem vInt_unary_result {g : Int → Int} (hi : exec i s = s.vInt f lat d a (.imm 0#16) ty m fun x _ => (g x, 0#6))
    (h : s.awake f [d, a]) :
    LaneResult i s f lat d (s.poisonV f a) (s.opMask f m.val) (ityWidth ty) fun j =>
      ((BitVec.ofInt (ityWidth ty) (g (s.intLane f a ty j))).toNat, 0#6) := by
  have hres := vInt_result hi h
  rwa [State.vopdPoison, Bool.or_false] at hres

/-- What a saturating operation on two lanes leaves: the value clamped to the range of TY, with SAT where that changes it (R176). -/
theorem vInt_sat_result {g : Int → Int → Int} (hi : exec i s = s.vInt f lat d a o ty m fun x y => satLane ty (g x y))
    (h : s.awake f (d :: a :: vopdNames o)) :
    LaneResult i s f lat d (s.poisonV f a || s.vopdPoison f o) (s.opMask f m.val) (ityWidth ty) fun j =>
      let v := g (s.intLane f a ty j) (s.intLaneB f o ty j)
      let c := max (if itySigned ty then -2 ^ (ityWidth ty - 1) else 0)
        (min (if itySigned ty then 2 ^ (ityWidth ty - 1) - 1 else 2 ^ ityWidth ty - 1) v)
      ((BitVec.ofInt (ityWidth ty) c).toNat, if c = v then 0#6 else flSAT) := by
  have hres := vInt_result hi h
  simpa only [satLane, satInt_eq, flIf_bne] using hres

/-- The dot product of the parts of two 32-bit lanes, added to the old lane of d (R177). -/
def State.dotSum (s : State) (f : VFile) (d a b : Fin 32) (w n : Nat) (sa sb : Bool) (j : Nat) : Int :=
  (s.laneOf f d 32 j).toInt
    + ((List.range n).map fun k => laneInt sa (s.laneOf f a w (n * j + k)) * laneInt sb (s.laneOf f b w (n * j + k))).sum

theorem vDot_result {w n : Nat} {sa sb sat : Bool} (hw : 0 < w) (hi : exec i s = s.vDot f d a b w n (sa, sb) sat m)
    (h : s.awake f [d, a, b]) :
    LaneResult i s f 4 d (s.poisonV f a || s.poisonV f b || s.poisonV f d) (s.opMask f m.val) 32 fun j =>
      let v := s.dotSum f d a b w n sa sb j
      let c := max (-2 ^ 31) (min (2 ^ 31 - 1) v)
      if sat then ((BitVec.ofInt 32 c).toNat, if c = v then 0#6 else flSAT) else ((BitVec.ofInt 32 v).toNat, 0#6) := by
  refine laneOp_result _ _ _ _ _ _ _ _ _ _ _ hi h fun j _ => ?_
  have hsum : intVal true 32 (lane 32 (s.readV f d) j)
      + (List.range n).foldl (fun (acc : Int) k => acc + intVal sa w (lane w (s.readV f a) (n * j + k))
        * intVal sb w (lane w (s.readV f b) (n * j + k))) 0 = s.dotSum f d a b w n sa sb j := by
    simp only [intVal_lane s f _ hw, intVal_lane s f d (w := 32) (by decide), State.dotSum, List.sum_eq_foldl, List.foldl_map]
    rfl
  simp only [hsum, satInt_eq, wrapNat_eq, flIf_bne]
  cases sat <;> exact ⟨rfl, rfl⟩

end

section
variable (s : State) (f : VFile) (d a b : Fin 32) (o : VOpd) (ty : ITy) (m : Fin 8)

theorem exec_vadd : exec (.vadd f d a o ty m) s = s.vInt f 2 d a o ty m fun x y => (x + y, 0#6) := rfl
theorem exec_vsub : exec (.vsub f d a o ty m) s = s.vInt f 2 d a o ty m fun x y => (x - y, 0#6) := rfl
theorem exec_vmul : exec (.vmul f d a o ty m) s = s.vInt f 4 d a o ty m fun x y => (x * y, 0#6) := rfl
theorem exec_vmulh : exec (.vmulh f d a o ty m) s = s.vInt f 4 d a o ty m fun x y => (x * y / 2 ^ ityWidth ty, 0#6) := rfl
theorem exec_vmin : exec (.vmin f d a o ty m) s = s.vInt f 2 d a o ty m fun x y => (min x y, 0#6) := rfl
theorem exec_vmax : exec (.vmax f d a o ty m) s = s.vInt f 2 d a o ty m fun x y => (max x y, 0#6) := rfl
theorem exec_vabs : exec (.vabs f d a ty m) s = s.vInt f 2 d a (.imm 0#16) ty m fun x _ => (x.natAbs, 0#6) := rfl
theorem exec_vneg : exec (.vneg f d a ty m) s = s.vInt f 2 d a (.imm 0#16) ty m fun x _ => (-x, 0#6) := rfl
theorem exec_vadds : exec (.vadds f d a o ty m) s = s.vInt f 2 d a o ty m fun x y => satLane ty (x + y) := rfl
theorem exec_vsubs : exec (.vsubs f d a o ty m) s = s.vInt f 2 d a o ty m fun x y => satLane ty (x - y) := rfl
theorem exec_vdot8 (sat : Bool) : exec (.vdot8 f d a b sat m) s = s.vDot f d a b 4 8 (true, true) sat m := rfl

theorem exec_vdot4 (sg : Signs) (sat : Bool) :
    exec (.vdot4 f d a b sg sat m) s = s.vDot f d a b 8 4 (decide (sg = .ii), decide (sg ≠ .nn)) sat m := by
  cases sg <;> rfl

end

/-! Bitwise operations, shifts and selection -/

section
variable {s : State} {f : VFile} {d a : Fin 32} {o : VOpd} {m : Fin 8} {i : Instr} {w : Nat}

/-- What an operation on two lane patterns leaves, the operand b zero-extended (R173, R176). -/
theorem vBits_result {g : Nat → Nat → Nat} {r : BitVec w → BitVec w → BitVec w} (hi : exec i s = s.vBits f d a o w m g)
    (h : s.awake f (d :: a :: vopdNames o)) (hr : ∀ x y : BitVec w, g x.toNat y.toNat % 2 ^ w = (r x y).toNat) :
    LaneResult i s f 2 d (s.poisonV f a || s.vopdPoison f o) (s.opMask f m.val) w fun j =>
      ((r (s.laneOf f a w j) (s.laneB f o false w j)).toNat, 0#6) := by
  refine laneOp_result _ _ _ _ _ _ _ _ _ _ _ hi h fun j hj => ?_
  dsimp only
  rw [lane_eq_laneOf, lane_vopd s f o w false j hj, hr, Nat.mod_eq_of_lt (BitVec.isLt _)]
  exact ⟨rfl, rfl⟩

/-- What an operation on one lane pattern leaves. -/
theorem vBits_unary_result {g : Nat → Nat} {r : BitVec w → BitVec w} (hi : exec i s = s.vBits f d a (.imm 0#16) w m fun x _ => g x)
    (h : s.awake f [d, a]) (hr : ∀ x : BitVec w, g x.toNat % 2 ^ w = (r x).toNat) :
    LaneResult i s f 2 d (s.poisonV f a) (s.opMask f m.val) w fun j => ((r (s.laneOf f a w j)).toNat, 0#6) := by
  have hres := vBits_result (r := fun x _ => r x) hi h fun x _ => hr x
  rwa [State.vopdPoison, Bool.or_false] at hres

end

section
variable (s : State) (f : VFile) (d a : Fin 32) (o : VOpd) (ty : ITy) (m : Fin 8)

theorem exec_vand : exec (.vand f d a o m) s = s.vBits f d a o 32 m fun x y => x &&& y := rfl
theorem exec_vor : exec (.vor f d a o m) s = s.vBits f d a o 32 m fun x y => x ||| y := rfl
theorem exec_vxor : exec (.vxor f d a o m) s = s.vBits f d a o 32 m fun x y => x ^^^ y := rfl
theorem exec_vnot : exec (.vnot f d a m) s = s.vBits f d a (.imm 0#16) 32 m fun x _ => 2 ^ 32 - 1 - x := rfl
theorem exec_vshl : exec (.vshl f d a o ty m) s = s.vBits f d a o (ityWidth ty) m fun x y => x * 2 ^ (y % ityWidth ty) := rfl
theorem exec_vshr : exec (.vshr f d a o ty m) s = s.vBits f d a o (ityWidth ty) m fun x y => x / 2 ^ (y % ityWidth ty) := rfl

theorem exec_vsra : exec (.vsra f d a o ty m) s
    = s.vBits f d a o (ityWidth ty) m fun x y => wrapNat (ityWidth ty) (signed (ityWidth ty) x / 2 ^ (y % ityWidth ty)) := rfl

theorem exec_vsel : exec (.vsel f d a o m) s
    = s.laneOp f 2 d (a :: vopdNames o) (s.poisonV f a || s.vopdPoison f o) none 32 fun j =>
        (if enabled (s.opMask f m.val) 32 j then lane 32 (s.readV f a) j else lane 32 (s.vopd f o 32 true) j, 0#6) := rfl

end

section
variable {w : Nat} (x y : BitVec w)

theorem mod_two_pow_of_toNat_eq {n : Nat} (h : x.toNat = n) : n % 2 ^ w = x.toNat := by rw [← h, Nat.mod_eq_of_lt x.isLt]

theorem mul_two_pow_mod (n : Nat) : x.toNat * 2 ^ n % 2 ^ w = (x <<< n).toNat := by rw [BitVec.toNat_shiftLeft, Nat.shiftLeft_eq]

theorem div_two_pow_mod (n : Nat) : x.toNat / 2 ^ n % 2 ^ w = (x >>> n).toNat := by
  exact mod_two_pow_of_toNat_eq _ (by rw [BitVec.toNat_ushiftRight, Nat.shiftRight_eq_div_pow])

theorem signed_div_two_pow_mod (hw : 0 < w) (n : Nat) : wrapNat w (signed w x.toNat / 2 ^ n) % 2 ^ w = (x.sshiftRight n).toNat := by
  have hsigned : signed w x.toNat = x.toInt := intVal_toNat hw true x
  exact mod_two_pow_of_toNat_eq _ (by rw [hsigned, wrapNat_eq, sshiftRight_eq_ofInt])

end

end Sys2Proof.Machine

namespace Sys2Proof
open Machine

/-- Settles O23, each operation as the integer lane operation that it is. -/
theorem vectorIntegerResults : Obligations.VectorIntegerResults := by
  intro s f d a o ty m h
  exact ⟨(vInt_result (exec_vadd ..) h :), (vInt_result (exec_vsub ..) h :), (vInt_result (exec_vmul ..) h :),
    (vInt_result (exec_vmulh ..) h :), (vInt_result (exec_vmin ..) h :), (vInt_result (exec_vmax ..) h :),
    (vInt_unary_result (exec_vabs ..) h.unary :), (vInt_unary_result (exec_vneg ..) h.unary :)⟩

/-- Settles O24: the clamped sums are those of `satLane`, and the dot products add up in `dotSum`. -/
theorem vectorSaturationAndDotProducts : Obligations.VectorSaturationAndDotProducts := by
  intro s f d a b o ty sg sat m
  exact ⟨fun h => ⟨(vInt_sat_result (exec_vadds ..) h :), (vInt_sat_result (exec_vsubs ..) h :)⟩,
    fun h => ⟨(vDot_result (by decide) (exec_vdot4 ..) h :), (vDot_result (by decide) (exec_vdot8 ..) h :)⟩⟩

/-- Settles O25: the operations on patterns by the words that they compute, `vsel` lane by lane. -/
theorem vectorBitwiseShiftsAndSelect : Obligations.VectorBitwiseShiftsAndSelect := by
  intro s f d a o ty m h
  refine ⟨vBits_result (exec_vand ..) h ?and, vBits_result (exec_vor ..) h ?or, vBits_result (exec_vxor ..) h ?xor,
    vBits_unary_result (exec_vnot ..) h.unary ?not,
    vBits_result (r := fun x y => x <<< (y.toNat % ityWidth ty)) (exec_vshl ..) h ?shl,
    vBits_result (r := fun x y => x >>> (y.toNat % ityWidth ty)) (exec_vshr ..) h ?shr,
    vBits_result (r := fun x y => x.sshiftRight (y.toNat % ityWidth ty)) (exec_vsra ..) h ?sra,
    laneOp_result _ _ _ _ _ _ _ _ _ _ _ (exec_vsel ..) h ?sel⟩
  case and => exact fun x y => mod_two_pow_of_toNat_eq _ (BitVec.toNat_and x y)
  case or => exact fun x y => mod_two_pow_of_toNat_eq _ (BitVec.toNat_or x y)
  case xor => exact fun x y => mod_two_pow_of_toNat_eq _ (BitVec.toNat_xor x y)
  case not => exact fun x => mod_two_pow_of_toNat_eq _ BitVec.toNat_not
  case shl => exact fun x y => mul_two_pow_mod x _
  case shr => exact fun x y => div_two_pow_mod x _
  case sra => exact fun x y => signed_div_two_pow_mod x (ityWidth_pos ty) _
  case sel =>
    intro j hj
    dsimp only
    rw [lane_eq_laneOf, lane_vopd s f o 32 true j hj, ← apply_ite BitVec.toNat]
    exact ⟨rfl, rfl⟩

end Sys2Proof
end

section
/-! O26: the vector compares, and the lanes of floating-point operations. -/

namespace Sys2Proof.Machine

/-! Integer compares -/

section
variable {s : State} {f : VFile} {d : Fin 8} {a : Fin 32} {o : VOpd} {ty : ITy} {i : Instr}

/-- What an integer compare leaves (R178). -/
theorem vIntCmp_result {g : Int → Int → Bool} (hi : exec i s = s.vIntCmp f d a o ty g) (h : s.awake f (a :: vopdNames o)) :
    CompareResult i s f 2 d (s.poisonV f a || s.vopdPoison f o) (ityWidth ty)
      (fun j => g (s.intLane f a ty j) (s.intLaneB f o ty j)) fun _ => 0#6 := by
  refine vCmp_result _ _ _ _ _ _ _ _ _ _ _ hi h fun j hj => ?_
  rw [intVal_lane_readV, intVal_lane_vopd _ _ _ _ hj]

end

section
variable (s : State) (f : VFile) (d : Fin 8) (a : Fin 32) (o : VOpd) (ty : ITy)

theorem exec_vcmpEq : exec (.vcmpEq f d a o ty) s = s.vIntCmp f d a o ty fun x y => decide (x = y) := rfl
theorem exec_vcmpNe : exec (.vcmpNe f d a o ty) s = s.vIntCmp f d a o ty fun x y => decide (x ≠ y) := rfl
theorem exec_vcmpLt : exec (.vcmpLt f d a o ty) s = s.vIntCmp f d a o ty fun x y => decide (x < y) := rfl
theorem exec_vcmpLe : exec (.vcmpLe f d a o ty) s = s.vIntCmp f d a o ty fun x y => decide (x ≤ y) := rfl
theorem exec_vcmpGt : exec (.vcmpGt f d a o ty) s = s.vIntCmp f d a o ty fun x y => decide (y < x) := rfl
theorem exec_vcmpGe : exec (.vcmpGe f d a o ty) s = s.vIntCmp f d a o ty fun x y => decide (y ≤ x) := rfl

end

/-! Lanes as floating-point values -/

/-- Lane j of a register of a format, after FTZ (R71, R180). -/
def State.fltLane (s : State) (f : VFile) (r : Fin 32) (F : FFmt) (j : Nat) : Val :=
  ftzIn (s.ftz f) F (decodeF F (s.laneOf f r F.width j).toNat)

/-- Lane j of a floating-point operand b, after FTZ (R71, R173). -/
def State.fltLaneB (s : State) (f : VFile) (o : VOpd) (F : FFmt) (j : Nat) : Val :=
  ftzIn (s.ftz f) F (decodeF F (s.laneBF f o F F.width j).toNat)

theorem testBit_lane (w : Nat) (v : VReg) (j k : Nat) : (lane w v j).testBit k = (decide (k < w) && v.getLsbD (w * j + k)) :=
  testBit_field _ _ _ _

theorem getLsbD_splatImm_zeroExt (i : BitVec 16) {j k : Nat} (hj : j < laneCount 32) (hk : k < 32) :
    (splatImm 32 i false).getLsbD (32 * j + k) = i.getLsbD k := by
  have h := testBit_lane 32 (splatImm 32 i false) j k
  rw [lane_splatImm 32 i false j hj, decide_eq_true hk, Bool.true_and, BitVec.testBit_toNat] at h
  rw [← h, immExt, if_neg Bool.false_ne_true, BitVec.getLsbD_setWidth, decide_eq_true hk, Bool.true_and]

/-- A bf16 immediate widened to fp32 in every lane: its bits are the upper half, and the lane below shifts zeros in (R173). -/
theorem lane_splatImm_shiftLeft (i : BitVec 16) {j : Nat} (hj : j < laneCount 32) :
    lane 32 (splatImm 32 i false <<< 16) j = (BitVec.ofNat 32 (i.toNat * 2 ^ 16)).toNat := by
  have hj32 : j < 32 := hj
  refine Nat.eq_of_testBit_eq fun k => ?_
  rw [testBit_lane, BitVec.testBit_toNat, BitVec.getLsbD_ofNat, Nat.testBit_mul_two_pow, BitVec.testBit_toNat, BitVec.getLsbD_shiftLeft]
  by_cases hk : k < 32
  · rw [decide_eq_true hk, decide_eq_true (show 32 * j + k < 1024 by omega)]
    by_cases hlow : 16 ≤ k
    · have hbit := getLsbD_splatImm_zeroExt i hj (show k - 16 < 32 by omega)
      rw [← Nat.add_sub_assoc hlow] at hbit
      simp [hbit, hlow, show 16 ≤ 32 * j + k by omega]
    · cases j with
      | zero => simp [hlow]
      | succ j =>
        have hbit := getLsbD_splatImm_zeroExt i (show j < laneCount 32 by exact Nat.lt_of_succ_lt hj) (show k + 16 < 32 by omega)
        rw [show 32 * j + (k + 16) = 32 * (j + 1) + k - 16 by omega, i.getLsbD_of_ge _ (by omega)] at hbit
        simp [hbit, hlow]
  · simp [hk]

/-- Lane j of operand b of a floating-point operation, of a register or of an immediate. -/
theorem lane_vopdF (s : State) (f : VFile) (o : VOpd) (ft : FTy) {j : Nat} (hj : j < laneCount (ftyFmt ft).width) :
    lane (ftyFmt ft).width (s.vopdF f o (ftyFmt ft)) j = (s.laneBF f o (ftyFmt ft) (ftyFmt ft).width j).toNat := by
  cases o with
  | reg r => exact lane_eq_laneOf s f r _ j
  | imm i =>
    cases ft with
    | fp32 => exact lane_splatImm_shiftLeft i hj
    | fp16 => exact lane_splatImm 16 i false j hj
    | bf16 => exact lane_splatImm 16 i false j hj

theorem ftzIn_decodeF_lane (s : State) (f : VFile) (r : Fin 32) (F : FFmt) (j : Nat) :
    ftzIn (s.ftz f) F (decodeF F (lane F.width (s.readV f r) j)) = s.fltLane f r F j := by
  rw [lane_eq_laneOf, State.fltLane]

theorem ftzIn_decodeF_lane_vopdF (s : State) (f : VFile) (o : VOpd) (ft : FTy) {j : Nat} (hj : j < laneCount (ftyFmt ft).width) :
    ftzIn (s.ftz f) (ftyFmt ft) (decodeF (ftyFmt ft) (lane (ftyFmt ft).width (s.vopdF f o (ftyFmt ft)) j))
      = s.fltLaneB f o (ftyFmt ft) j := by
  rw [lane_vopdF s f o ft hj, State.fltLaneB]

/-! Floating-point compares -/

theorem flIf_or (a b : Bool) (fl : Flags) : flIf (a || b) fl = if a = true ∨ b = true then fl else 0#6 := by simp [flIf]

section
variable {s : State} {f : VFile} {d : Fin 8} {a : Fin 32} {o : VOpd} {ft : FTy} {i : Instr} {g : Val → Val → Bool}

/-- What a floating-point compare that a quiet NaN does not disturb leaves (R178). -/
theorem vFltCmp_quiet_result (hi : exec i s = s.vFltCmp f d a o ft true g) (h : s.awake f (a :: vopdNames o)) :
    CompareResult i s f 4 d (s.poisonV f a || s.vopdPoison f o) (ftyFmt ft).width
      (fun j => g (s.fltLane f a (ftyFmt ft) j) (s.fltLaneB f o (ftyFmt ft) j))
      fun j => if (s.fltLane f a (ftyFmt ft) j).isSig ∨ (s.fltLaneB f o (ftyFmt ft) j).isSig then flNV else 0#6 := by
  refine vCmp_result _ _ _ _ _ _ _ _ _ _ _ hi h fun j hj => ?_
  rw [ftzIn_decodeF_lane, ftzIn_decodeF_lane_vopdF s f o ft hj]
  exact congrArg (Prod.mk _) (flIf_or ..)

/-- What an ordered compare, for which any NaN is invalid, leaves (R178). -/
theorem vFltCmp_ordered_result (hi : exec i s = s.vFltCmp f d a o ft false g) (h : s.awake f (a :: vopdNames o)) :
    CompareResult i s f 4 d (s.poisonV f a || s.vopdPoison f o) (ftyFmt ft).width
      (fun j => g (s.fltLane f a (ftyFmt ft) j) (s.fltLaneB f o (ftyFmt ft) j))
      fun j => if (s.fltLane f a (ftyFmt ft) j).isNan ∨ (s.fltLaneB f o (ftyFmt ft) j).isNan then flNV else 0#6 := by
  refine vCmp_result _ _ _ _ _ _ _ _ _ _ _ hi h fun j hj => ?_
  rw [ftzIn_decodeF_lane, ftzIn_decodeF_lane_vopdF s f o ft hj]
  exact congrArg (Prod.mk _) (flIf_or ..)

end

section
variable (s : State) (f : VFile) (d : Fin 8) (a : Fin 32) (o : VOpd) (ft : FTy)

theorem exec_vfcmpEq : exec (.vfcmpEq f d a o ft) s = s.vFltCmp f d a o ft true fun x y => x.eq y := rfl
theorem exec_vfcmpNe : exec (.vfcmpNe f d a o ft) s = s.vFltCmp f d a o ft true fun x y => !x.eq y := rfl
theorem exec_vfcmpLt : exec (.vfcmpLt f d a o ft) s = s.vFltCmp f d a o ft false fun x y => x.lt y := rfl
theorem exec_vfcmpLe : exec (.vfcmpLe f d a o ft) s = s.vFltCmp f d a o ft false fun x y => x.lt y || x.eq y := rfl
theorem exec_vfcmpUn : exec (.vfcmpUn f d a o ft) s = s.vFltCmp f d a o ft true fun x y => x.isNan || y.isNan := rfl

theorem exec_vfcmpOrd : exec (.vfcmpOrd f d a o ft) s = s.vFltCmp f d a o ft true fun x y => !(x.isNan || y.isNan) := by
  simp only [Bool.not_or]
  rfl

end

end Sys2Proof.Machine

namespace Sys2Proof
open Machine

/-- Settles O26, each compare by its condition on the lanes as TY or the format reads them. -/
theorem vectorCompares : Obligations.VectorCompares := by
  intro s f d a o ty ft h
  exact ⟨⟨(vIntCmp_result (exec_vcmpEq ..) h :), (vIntCmp_result (exec_vcmpNe ..) h :), (vIntCmp_result (exec_vcmpLt ..) h :),
      (vIntCmp_result (exec_vcmpLe ..) h :), (vIntCmp_result (exec_vcmpGt ..) h :), (vIntCmp_result (exec_vcmpGe ..) h :)⟩,
    (vFltCmp_quiet_result (exec_vfcmpEq ..) h :), (vFltCmp_quiet_result (exec_vfcmpNe ..) h :),
    (vFltCmp_ordered_result (exec_vfcmpLt ..) h :), (vFltCmp_ordered_result (exec_vfcmpLe ..) h :),
    (vFltCmp_quiet_result (exec_vfcmpUn ..) h :), (vFltCmp_quiet_result (exec_vfcmpOrd ..) h :)⟩

end Sys2Proof
end

section
/-! O27: the floating-point lane operations as the lane result of their shared operation. -/

namespace Sys2Proof.Machine

section
variable {s : State} {f : VFile} {d a : Fin 32} {o : VOpd} {ft : FTy} {m : Fin 4} {i : Instr}

/-- What an operation on two lanes of a format leaves (R180). -/
theorem vFlt_result {g : Bool → Val → Val → Nat × Flags} (hi : exec i s = s.vFlt f d a o ft m false fun z x y _ => g z x y)
    (h : s.awake f (d :: a :: vopdNames o)) :
    LaneResult i s f 4 d (s.poisonV f a || s.vopdPoison f o) (s.opMask f m.val) (ftyFmt ft).width fun j =>
      g (s.ftz f) (s.fltLane f a (ftyFmt ft) j) (s.fltLaneB f o (ftyFmt ft) j) := by
  simp only [State.vFlt, Bool.false_and, Bool.or_false] at hi
  refine laneOp_result _ _ _ _ _ _ _ _ _ _ _ hi h fun j hj => ?_
  rw [ftzIn_decodeF_lane, ftzIn_decodeF_lane_vopdF s f o ft hj]
  exact ⟨rfl, rfl⟩

/-- What an operation that also reads the old lane of d leaves (R180). -/
theorem vFlt_readsD_result {g : Bool → Val → Val → Val → Nat × Flags} (hi : exec i s = s.vFlt f d a o ft m true g)
    (h : s.awake f (d :: a :: vopdNames o)) :
    LaneResult i s f 4 d (s.poisonV f a || s.vopdPoison f o || s.poisonV f d) (s.opMask f m.val) (ftyFmt ft).width fun j =>
      g (s.ftz f) (s.fltLane f a (ftyFmt ft) j) (s.fltLaneB f o (ftyFmt ft) j) (s.fltLane f d (ftyFmt ft) j) := by
  refine laneOp_result _ _ _ _ _ _ _ _ _ _ _ hi h fun j hj => ?_
  dsimp only
  rw [ftzIn_decodeF_lane, ftzIn_decodeF_lane, ftzIn_decodeF_lane_vopdF s f o ft hj]
  exact ⟨rfl, rfl⟩

theorem bit_toNat_eq_msb {w : Nat} (x : BitVec w) : bit x.toNat (w - 1) = x.msb := by
  rw [BitVec.msb_eq_getLsbD_last, ← BitVec.testBit_toNat, Nat.testBit_eq_decide_div_mod_eq]
  rfl

/-- What a sign operation leaves (R181). -/
theorem vSign_result {g : Bool → Bool → Bool} (hi : exec i s = s.vSign f d a o ft m g) (h : s.awake f (d :: a :: vopdNames o)) :
    LaneResult i s f 4 d (s.poisonV f a || s.vopdPoison f o) (s.opMask f m.val) (ftyFmt ft).width fun j =>
      let F := ftyFmt ft
      let v := s.fltLane f a F j
      if v.isNan then (F.nan, if v.isSig then flNV else 0#6)
      else ((roundTo F .rne false (v.withSign (g (s.laneOf f a F.width j).msb (s.laneBF f o F F.width j).msb))).1, 0#6) := by
  refine laneOp_result _ _ _ _ _ _ _ _ _ _ _ hi h fun j hj => ?_
  rw [ftzIn_decodeF_lane, lane_eq_laneOf, lane_vopdF s f o ft hj, bit_toNat_eq_msb, bit_toNat_eq_msb]
  exact ⟨rfl, rfl⟩

/-- What a special function of an fp32 lane leaves (R183). -/
theorem vSfu_result {g : Bool → Nat → Nat × Flags} (hi : exec i s = s.vSfu f d a m g) (h : s.awake f [d, a]) :
    LaneResult i s f 8 d (s.poisonV f a) (s.opMask f m.val) 32 fun j => g (s.ftz f) (s.laneOf f a 32 j).toNat := by
  refine laneOp_result _ _ _ _ _ _ _ _ _ _ _ hi h fun j _ => ?_
  rw [lane_eq_laneOf]
  exact ⟨rfl, rfl⟩

theorem vfclass_result (h : s.awake f [d, a]) :
    LaneResult (.vfclass f d a ft m) s f 4 d (s.poisonV f a) (s.opMask f m.val) (ftyFmt ft).width fun j =>
      (classOf (ftyFmt ft) (s.fltLane f a (ftyFmt ft) j), 0#6) := by
  refine laneOp_result _ _ _ _ _ _ _ _ _ _ _ rfl h fun j _ => ?_
  rw [ftzIn_decodeF_lane]
  exact ⟨rfl, rfl⟩

/-! Scaling -/

/-- One lane of `vscale`: the value times 2 to the power of the scale byte, NaN under the byte 255 (R187). -/
def scaledLane (z : Bool) (rm : RMode) (v : Val) (b : Nat) : Nat × Flags :=
  match scaleExp b with
  | none => (FFmt.nan .fp32, flNV)
  | some k => ((roundFtz z .fp32 rm false (v.scale k)).1, (roundFtz z .fp32 rm false (v.scale k)).2 ||| flIf v.isSig flNV)

theorem scaledLane_eq (z : Bool) (rm : RMode) (v : Val) {b : Nat} (hb : b < 256) :
    scaledLane z rm v b = if (b : Int) = 255 then (FFmt.nan .fp32, flNV)
      else ((roundFtz z .fp32 rm false (v.scale (b - 127))).1,
        (roundFtz z .fp32 rm false (v.scale (b - 127))).2 ||| if v.isSig then flNV else 0#6) := by
  rw [scaledLane, scaleExp, Nat.mod_eq_of_lt hb]
  by_cases hk : b = 255
  · rw [if_pos hk, if_pos (by exact_mod_cast hk)]
  · rw [if_neg hk, if_neg (by exact_mod_cast hk), flIf]

theorem exec_vscale_reg (s : State) (f : VFile) (d a r : Fin 32) (rm : RMode) (m : Fin 4) :
    exec (.vscale f d a (.reg r) rm m) s = s.laneOp f 3 d [a, r] (s.poisonV f a || s.poisonV f r) (s.opMask f m.val) 32 fun j =>
      scaledLane (s.ftz f) rm (s.fltLane f a .fp32 j) (s.laneOf f r 8 j).toNat := by
  simp only [State.fltLane, ← lane_eq_laneOf]
  rfl

theorem exec_vscale_imm (s : State) (f : VFile) (d a : Fin 32) (e : BitVec 8) (rm : RMode) (m : Fin 4) :
    exec (.vscale f d a (.imm e) rm m) s = s.laneOp f 3 d [a] (s.poisonV f a) (s.opMask f m.val) 32 fun j =>
      scaledLane (s.ftz f) rm (s.fltLane f a .fp32 j) e.toNat := by
  simp only [State.fltLane, ← lane_eq_laneOf]
  rfl

/-- What `vscale` leaves, its scale bytes given as numbers. -/
theorem vscale_result {names : List (Fin 32)} {p : Bool} {mk : Option W32} {z : Bool} {rm : RMode} {v : Nat → Val}
    {byte : Nat → BitVec 8}
    (hi : exec i s = s.laneOp f 3 d names p mk 32 fun j => scaledLane z rm (v j) (byte j).toNat) (h : s.awake f (d :: names)) :
    LaneResult i s f 3 d p mk 32 fun j =>
      if ((byte j).toNat : Int) = 255 then (FFmt.nan .fp32, flNV)
      else ((roundFtz z .fp32 rm false ((v j).scale ((byte j).toNat - 127))).1,
        (roundFtz z .fp32 rm false ((v j).scale ((byte j).toNat - 127))).2 ||| if (v j).isSig then flNV else 0#6) := by
  refine laneOp_result _ _ _ _ _ _ _ _ _ _ _ hi h fun j _ => ?_
  rw [scaledLane_eq _ _ _ (byte j).isLt]
  exact ⟨rfl, rfl⟩

end

/-! The shared operation that each form is -/

section
variable (s : State) (f : VFile) (d a : Fin 32) (o : VOpd) (ft : FTy) (rm : RMode) (m : Fin 4)

theorem exec_vfadd : exec (.vfadd f d a o ft rm m) s = s.vFlt f d a o ft m false fun z x y _ =>
    rounded z (ftyFmt ft) rm (addVal rm x y) := rfl
theorem exec_vfsub : exec (.vfsub f d a o ft rm m) s = s.vFlt f d a o ft m false fun z x y _ =>
    rounded z (ftyFmt ft) rm (addVal rm x y.negate) := rfl
theorem exec_vfmul : exec (.vfmul f d a o ft rm m) s = s.vFlt f d a o ft m false fun z x y _ =>
    rounded z (ftyFmt ft) rm (mulVal x y) := rfl
theorem exec_vffma : exec (.vffma f d a o ft rm m) s = s.vFlt f d a o ft m true fun z x y c =>
    rounded z (ftyFmt ft) rm (fmaVal rm x y c) := rfl
theorem exec_vfmin : exec (.vfmin f d a o ft m) s = s.vFlt f d a o ft m false fun z x y _ =>
    rounded z (ftyFmt ft) .rne (minVal x y) := rfl
theorem exec_vfmax : exec (.vfmax f d a o ft m) s = s.vFlt f d a o ft m false fun z x y _ =>
    rounded z (ftyFmt ft) .rne (maxVal x y) := rfl
theorem exec_vfsgnJ : exec (.vfsgnJ f d a o ft m) s = s.vSign f d a o ft m fun _ y => y := rfl
theorem exec_vfsgnJn : exec (.vfsgnJn f d a o ft m) s = s.vSign f d a o ft m fun _ y => !y := rfl
theorem exec_vfsgnJx : exec (.vfsgnJx f d a o ft m) s = s.vSign f d a o ft m fun x y => x != y := rfl
theorem exec_vexp2 : exec (.vexp2 f d a m) s = s.vSfu f d a m sfuExp2 := rfl
theorem exec_vlog2 : exec (.vlog2 f d a m) s = s.vSfu f d a m sfuLog2 := rfl
theorem exec_vrcp : exec (.vrcp f d a m) s = s.vSfu f d a m sfuRcp := rfl
theorem exec_vrsqrt : exec (.vrsqrt f d a m) s = s.vSfu f d a m sfuRsqrt := rfl

end

end Sys2Proof.Machine

namespace Sys2Proof
open Machine

/-- Settles O27, each operation by the shared operation that it is; `vfclass` and `vscale` lane by lane. -/
theorem vectorFloatResults : Obligations.VectorFloatResults := by
  intro s f d a o ft rm m sc h hsc
  refine ⟨(vFlt_result (exec_vfadd ..) h :), (vFlt_result (exec_vfsub ..) h :), (vFlt_result (exec_vfmul ..) h :),
    (vFlt_readsD_result (exec_vffma ..) h :), (vFlt_result (exec_vfmin ..) h :), (vFlt_result (exec_vfmax ..) h :),
    (vSign_result (exec_vfsgnJ ..) h :), (vSign_result (exec_vfsgnJn ..) h :), (vSign_result (exec_vfsgnJx ..) h :),
    vfclass_result h.unary, (vSfu_result (exec_vexp2 ..) h.unary :), (vSfu_result (exec_vlog2 ..) h.unary :),
    (vSfu_result (exec_vrcp ..) h.unary :), (vSfu_result (exec_vrsqrt ..) h.unary :), ?scale⟩
  cases sc with
  | reg r =>
    have hr : s.awake f [d, a, r] := h.unary.append (hsc r rfl)
    exact vscale_result (byte := fun j => s.laneOf f r 8 j) (exec_vscale_reg ..) hr
  | imm e =>
    rw [Bool.or_false]
    exact vscale_result (byte := fun _ => e) (exec_vscale_imm ..) h.unary

end Sys2Proof
end

section
/-! O32: permutes, slides, zips, moves and immediates. -/

namespace Sys2Proof.Machine

/-! Lanes taken from other places -/

section
variable {s : State} {f : VFile} {d a b : Fin 32} {w : Width} {m : Fin 8}

theorem vperm_result (h : s.awake f [d, a, b]) :
    LaneResult (.vperm f d a b w m) s f 2 d (s.poisonV f a || s.poisonV f b) (s.opMask f m.val) (widthBits w) fun j =>
      (if (s.laneOf f b (widthBits w) j).toNat < 1024 / widthBits w
        then (s.laneOf f a (widthBits w) (s.laneOf f b (widthBits w) j).toNat).toNat else 0, 0#6) := by
  simp only [← lane_eq_laneOf]
  exact laneOp_result _ _ _ _ _ _ _ _ _ _ _ rfl h fun _ _ => ⟨rfl, rfl⟩

theorem vbcast_result {k : VIndex} (h : s.awake f [d, a]) :
    LaneResult (.vbcast f d a k w m) s f 2 d (s.poisonV f a) (s.opMask f m.val) (widthBits w) fun _ =>
      ((s.laneOf f a (widthBits w) (match k with | .field r => r.val | .imm i => i.toNat)).toNat, 0#6) := by
  simp only [← lane_eq_laneOf]
  exact laneOp_result _ _ _ _ _ _ _ _ _ _ _ rfl h fun _ _ => ⟨rfl, rfl⟩

/-- Place j of two registers, one after the other (R191). -/
theorem pairLane_readV (s : State) (f : VFile) (a b : Fin 32) (w j : Nat) : pairLane w (s.readV f a) (s.readV f b) j
    = if j < 1024 / w then (s.laneOf f a w j).toNat else (s.laneOf f b w (j - 1024 / w)).toNat := by
  rw [← lane_eq_laneOf, ← lane_eq_laneOf]
  rfl

theorem vslide_result {n : BitVec 8} (h : s.awake f [d, a, b]) :
    LaneResult (.vslide f d a b n w m) s f 2 d (s.poisonV f a || s.poisonV f b) (s.opMask f m.val) (widthBits w) fun j =>
      (pairLane (widthBits w) (s.readV f a) (s.readV f b) (j + n.toNat), 0#6) :=
  laneOp_result _ _ _ _ _ _ _ _ _ _ _ rfl h fun _ _ => ⟨rfl, rfl⟩

theorem vzip_result {hi : Bool} (h : s.awake f [d, a, b]) :
    LaneResult (.vzip f d a b hi w) s f 2 d (s.poisonV f a || s.poisonV f b) none (widthBits w) fun j =>
      (if j % 2 = 0 then (s.laneOf f a (widthBits w) ((if hi then 1 else 0) * (1024 / widthBits w / 2) + j / 2)).toNat
        else (s.laneOf f b (widthBits w) ((if hi then 1 else 0) * (1024 / widthBits w / 2) + j / 2)).toNat, 0#6) := by
  simp only [← lane_eq_laneOf]
  refine laneOp_result _ _ _ _ _ _ _ _ _ _ _ rfl h fun j _ => ?_
  dsimp only
  rw [apply_ite fun v => lane (widthBits w) v (b2n hi * (laneCount (widthBits w) / 2) + j / 2)]
  exact ⟨rfl, rfl⟩

theorem vunzip_result {hi : Bool} (h : s.awake f [d, a, b]) :
    LaneResult (.vunzip f d a b hi w) s f 2 d (s.poisonV f a || s.poisonV f b) none (widthBits w) fun j =>
      (pairLane (widthBits w) (s.readV f a) (s.readV f b) (2 * j + if hi then 1 else 0), 0#6) :=
  laneOp_result _ _ _ _ _ _ _ _ _ _ _ rfl h fun _ _ => ⟨rfl, rfl⟩

theorem vidx_result {base : Option (BitVec 16)} (h : s.awake f [d]) :
    LaneResult (.vidx f d base w m) s f 1 d false (s.opMask f m.val) (widthBits w) fun j =>
      ((BitVec.ofInt (widthBits w) ((match base with | some b => b.toInt | none => 0) + j)).toNat, 0#6) := by
  refine laneOp_result _ _ _ _ _ _ _ _ _ _ _ rfl h fun j _ => ?_
  dsimp only
  rw [wrapNat_eq]
  cases base <;> exact ⟨rfl, rfl⟩

end

/-! Whole registers and one value in every lane -/

section
variable (s : State) (f : VFile) (d a : Fin 32) (i : BitVec 16) (b : BitVec 8)

theorem exec_vmov : exec (.vmov f d a) s
    = s.attempt (s.chkVs f [d, a]) fun s => s.putV 1 f d (s.readV f a) none (s.poisonV f a) 0#6 := rfl

theorem exec_vmovCross : exec (.vmovCross f d a) s = s.attempt [s.chkV f d, s.chkV (otherFile f) a] fun s =>
    s.putV 2 f d (s.readV (otherFile f) a) none (s.poisonV (otherFile f) a) 0#6 := rfl

theorem exec_vmovSplat (w : Fin 4) : exec (.vmovSplat f d a w) s = s.attempt [s.chkV f d] fun u =>
    u.putV 2 f d (mapLanes (8 * 2 ^ w.val) fun _ => (s.readS a).toNat) none (u.poisonS a) 0#6 := rfl

theorem exec_vmovChunk (c : Fin 16) : exec (.vmovChunk f d a c) s = s.attempt [s.chkV f d] fun u =>
    u.putV 2 f d (BitVec.ofNat 1024 ((s.readS a).toNat * 2 ^ (64 * c.val)))
      (some (BitVec.ofNat 1024 ((2 ^ 64 - 1) * 2 ^ (64 * c.val)))) (u.poisonS a) 0#6 := rfl

theorem exec_vliW : exec (.vliW f d i) s = s.vLi f d 32 (i.signExtend 32).toNat := rfl
theorem exec_vliF : exec (.vliF f d i) s = s.vLi f d 32 (i.toNat * 65536) := rfl
theorem exec_vliH : exec (.vliH f d i) s = s.vLi f d 16 i.toNat := rfl
theorem exec_vliB : exec (.vliB f d b) s = s.vLi f d 8 b.toNat := rfl

end

section
variable {s : State} {f : VFile} {d a : Fin 32}

theorem chkV_ok (h : s.awake f [d]) : (s.chkV f d).bad = false := h d (List.mem_singleton_self d)

theorem exec_vmov_of_awake (h : s.awake f [d, a]) :
    exec (.vmov f d a) s = .next (s.putV 1 f d (s.readV f a) none (s.poisonV f a) 0#6) :=
  (exec_vmov ..).trans (attempt_awake s f [d, a] h _)

theorem exec_vmovCross_of_awake (hd : s.awake f [d]) (ha : s.awake (otherFile f) [a]) : exec (.vmovCross f d a) s
    = .next (s.putV 2 f d (s.readV (otherFile f) a) none (s.poisonV (otherFile f) a) 0#6) :=
  (exec_vmovCross ..).trans (s.attempt_pair_ok _ (chkV_ok hd) (chkV_ok ha))

theorem exec_vmovSplat_of_awake (h : s.awake f [d]) (w : Fin 4) : exec (.vmovSplat f d a w) s
    = .next (s.putV 2 f d (mapLanes (8 * 2 ^ w.val) fun _ => (s.readS a).toNat) none (s.poisonS a) 0#6) :=
  (exec_vmovSplat ..).trans (s.attempt_singleton_ok _ (chkV_ok h))

theorem ofNat_mul_two_pow (n x k : Nat) : BitVec.ofNat n (x * 2 ^ k) = BitVec.ofNat n x <<< k := by
  refine BitVec.eq_of_toNat_eq ?_
  rw [BitVec.toNat_shiftLeft, BitVec.toNat_ofNat, BitVec.toNat_ofNat, Nat.shiftLeft_eq, Nat.mod_mul_mod]

theorem exec_vmovChunk_of_awake (h : s.awake f [d]) (c : Fin 16) : exec (.vmovChunk f d a c) s
    = .next (s.putV 2 f d ((s.readS a).setWidth 1024 <<< (64 * c.val))
        (some ((BitVec.allOnes 64).setWidth 1024 <<< (64 * c.val))) (s.poisonS a) 0#6) := by
  rw [← BitVec.ofNat_toNat, ← BitVec.ofNat_toNat, ← ofNat_mul_two_pow, ← ofNat_mul_two_pow, BitVec.toNat_allOnes]
  exact (exec_vmovChunk ..).trans (s.attempt_singleton_ok _ (chkV_ok h))

/-- What an immediate of w bits in every lane leaves (R194). -/
theorem vLi_result {i : Instr} {w x : Nat} {y : BitVec w} (hi : exec i s = s.vLi f d w x) (h : s.awake f [d]) (hx : x = y.toNat) :
    ∃ v, exec i s = .next (s.putV 1 f d v none false 0#6) ∧ ∀ j < 1024 / w, lane w v j = y.toNat := by
  refine ⟨mapLanes w fun _ => x, hi.trans (s.attempt_singleton_ok _ (chkV_ok h)), fun j hj => ?_⟩
  rw [lane_mapLanes _ _ j hj, hx, Nat.mod_eq_of_lt y.isLt]

end

end Sys2Proof.Machine

namespace Sys2Proof
open Machine

/-- Settles O32, each operation by the place or the value that its lanes are taken from. -/
theorem vectorMovesAndPermutes : Obligations.VectorMovesAndPermutes := by
  refine ⟨fun s f d a b k n hi wd m h => ⟨vperm_result h, vbcast_result h.unary, ?slide, vzip_result h, ?unzip⟩,
    fun s f d base wd m h => vidx_result h, fun s f d a h => exec_vmov_of_awake h,
    fun s d a => ⟨fun h h' => exec_vmovCross_of_awake h h', fun h h' => exec_vmovCross_of_awake h h'⟩,
    fun s f d a w c h => ⟨⟨_, exec_vmovSplat_of_awake h w, fun j hj => lane_mapLanes _ _ j hj⟩, exec_vmovChunk_of_awake h c⟩,
    fun s f d i b h => ⟨vLi_result (exec_vliW ..) h rfl, vLi_result (exec_vliF ..) h ?bf16, vLi_result (exec_vliH ..) h rfl,
      vLi_result (exec_vliB ..) h rfl⟩⟩
  case slide =>
    simp only [← pairLane_readV]
    exact vslide_result h
  case unzip =>
    simp only [← pairLane_readV]
    exact vunzip_result h
  case bf16 =>
    rw [BitVec.toNat_shiftLeft, BitVec.toNat_setWidth]
    omega

end Sys2Proof
end

section
/-! O31: reductions, masks and vcrc. -/

namespace Sys2Proof.Machine

/-! Integer reductions -/

/-- The enabled lanes of a register as TY reads them (R189). -/
def State.redLanes (s : State) (f : VFile) (a : Fin 32) (ty : ITy) (m : Fin 8) : List Int :=
  (enabledLanes (s.opMask f m.val) (ityWidth ty)).map (s.intLane f a ty)

theorem vRed_of_awake {s : State} {f : VFile} {d a : Fin 32} (h : s.awake f [d, a]) (ty : ITy) (m : Fin 8) (init : Int)
    (g : Int → Int → Int) :
    s.vRed f d a ty m init g = .next (s.putV 4 f d ((BitVec.ofInt 64 ((s.redLanes f a ty m).foldl g init)).setWidth 1024) none
      (s.poisonV f a) 0#6) := by
  rw [State.vRed, attempt_awake s f _ h, State.redLanes, List.foldl_map]
  simp only [intVal_lane_readV]
  rfl

theorem foldl_max_spec {α : Type} [LinearOrder α] {l : List α} {lo : α} (hlo : ∀ x ∈ l, lo ≤ x) :
    (∀ x ∈ l, x ≤ l.foldl max lo) ∧ (l.foldl max lo ∈ l ∨ (l = [] ∧ l.foldl max lo = lo)) := by
  cases l with
  | nil => simp
  | cons x r =>
    rw [List.foldl_cons, max_eq_right (hlo x List.mem_cons_self)]
    obtain ⟨hmem, hge⟩ := List.max?_eq_some_iff.1 (List.max?_cons' (x := x) (xs := r))
    exact ⟨hge, .inl hmem⟩

theorem foldl_min_spec {α : Type} [LinearOrder α] {l : List α} {hi : α} (hhi : ∀ x ∈ l, x ≤ hi) :
    (∀ x ∈ l, l.foldl min hi ≤ x) ∧ (l.foldl min hi ∈ l ∨ (l = [] ∧ l.foldl min hi = hi)) := by
  cases l with
  | nil => simp
  | cons x r =>
    rw [List.foldl_cons, min_eq_right (hhi x List.mem_cons_self)]
    obtain ⟨hmem, hle⟩ := List.min?_eq_some_iff.1 (List.min?_cons' (x := x) (xs := r))
    exact ⟨hle, .inl hmem⟩

theorem laneInt_bounds {w : Nat} (sgn : Bool) (x : BitVec w) :
    (if sgn then -2 ^ (w - 1) else 0) ≤ laneInt sgn x ∧ laneInt sgn x ≤ if sgn then 2 ^ (w - 1) - 1 else 2 ^ w - 1 := by
  cases sgn
  · have hlt : (x.toNat : Int) < 2 ^ w := by exact_mod_cast x.isLt
    simp only [laneInt, Bool.false_eq_true, if_false]
    omega
  · have hlo := BitVec.le_toInt x
    have hhi := BitVec.toInt_lt (x := x)
    simp only [laneInt, if_true]
    omega

theorem redLanes_bounds (s : State) (f : VFile) (a : Fin 32) (ty : ITy) (m : Fin 8) :
    ∀ x ∈ s.redLanes f a ty m, ityMin ty ≤ x ∧ x ≤ ityMax ty := by
  intro x hx
  obtain ⟨j, -, rfl⟩ := List.mem_map.1 hx
  exact laneInt_bounds _ _

/-! Floating-point reductions -/

/-- The lanes of a register after FTZ, those that the mask leaves out as none (R189, R190). -/
def State.maskedLanes (s : State) (f : VFile) (a : Fin 32) (ft : FTy) (m : Fin 4) : List (Option Val) :=
  (List.range (1024 / (ftyFmt ft).width)).map fun j =>
    if enabled (s.opMask f m.val) (ftyFmt ft).width j then some (s.fltLane f a (ftyFmt ft) j) else none

theorem widened_eq (s : State) (f : VFile) (a : Fin 32) (ft : FTy) (m : Fin 4) : s.widened f a ft m
    = ((s.maskedLanes f a ft m).map fun x => x.map fun v => if v.isNan then .nan false else v,
       if (s.maskedLanes f a ft m).any fun x => x.any Val.isSig then flNV else 0#6) := by
  simp only [State.widened, ftzIn_decodeF_lane]
  rfl

theorem exec_vfredsum_of_awake {s : State} {f : VFile} {d a : Fin 32} (h : s.awake f [d, a]) (ft : FTy) (rm : RMode) (m : Fin 4) :
    exec (.vfredsum f d a ft rm m) s =
      (let l := s.widened f a ft m
       let t := treeSum (s.ftz f) rm (Nat.log2 (1024 / (ftyFmt ft).width)) l.1
       .next (s.putV 8 f d (BitVec.ofNat 1024 (toFp32 (t.1.getD Val.zero)).1) none (s.poisonV f a) (t.2 ||| l.2))) := by
  change execVfredsum f d a ft rm m s = _
  rw [execVfredsum, attempt_awake s f _ h]
  simp [widened_eq, State.maskedLanes]

theorem foldl_maxVal_eq (l : List (Option Val)) (v : Val) :
    l.foldl (fun acc x => match x with | some y => (maxVal acc y).1 | none => acc) v
      = (l.filterMap id).foldl (fun x y => (maxVal x y).1) v := by
  induction l generalizing v with
  | nil => rfl
  | cons x r ih => cases x <;> exact ih _

theorem exec_vfredmax_of_awake {s : State} {f : VFile} {d a : Fin 32} (h : s.awake f [d, a]) (ft : FTy) (m : Fin 4) :
    exec (.vfredmax f d a ft m) s =
      (let l := s.widened f a ft m
       .next (s.putV 4 f d (BitVec.ofNat 1024 (toFp32 ((l.1.filterMap id).foldl (fun x v => (maxVal x v).1) (Val.inf true))).1) none
        (s.poisonV f a) l.2)) := by
  change execVfredmax f d a ft m s = _
  rw [execVfredmax, attempt_awake s f _ h]
  exact congrArg (fun v => Host.Outcome.next (s.putV 4 f d (BitVec.ofNat 1024 (toFp32 v).1) none (s.poisonV f a) (s.widened f a ft m).2))
    (foldl_maxVal_eq _ _)

/-! Masks -/

theorem exec_mpop_of_awake {s : State} {f : VFile} {d : Fin 32} (h : s.awake f [d]) (a : Fin 8) :
    exec (.mpop f d a) s = .next (s.putV 2 f d (BitVec.ofNat 1024 (maskCount (s.readM f a))) none false 0#6) := by
  change s.mCount f d _ = _
  exact s.attempt_singleton_ok _ (chkV_ok h)

theorem exec_mpopFirst_of_awake {s : State} {f : VFile} {d : Fin 32} (h : s.awake f [d]) (a : Fin 8) :
    exec (.mpopFirst f d a) s = .next (s.putV 2 f d (BitVec.ofNat 1024 (maskFirst (s.readM f a))) none false 0#6) := by
  change s.mCount f d _ = _
  exact s.attempt_singleton_ok _ (chkV_ok h)

/-- The lowest set bit, or 32 (R195). -/
theorem maskFirst_spec (x : W32) : maskFirst x ≤ 32 ∧ (∀ i < maskFirst x, x.getLsbD i = false)
    ∧ (maskFirst x < 32 → x.getLsbD (maskFirst x) = true) := by
  rw [maskFirst]
  cases hfind : (List.range 32).find? fun i => x.getLsbD i with
  | none =>
    have hclear := List.find?_range_eq_none.1 hfind
    exact ⟨le_rfl, fun i hi => by simpa using hclear i hi, fun hlt => absurd hlt (lt_irrefl 32)⟩
  | some k =>
    obtain ⟨hk, hmem, hbelow⟩ := List.find?_range_eq_some.1 hfind
    exact ⟨(List.mem_range.1 hmem).le, fun i hi => by simpa using hbelow i hi, fun _ => hk⟩

/-! The CRC -/

theorem exec_vcrc_of_awake {s : State} {f : VFile} {d a b : Fin 32} (h : s.awake f [d, a, b]) (n : Fin 64) :
    exec (.vcrc f d a b n) s = .next (s.putV 4 f d (BitVec.ofNat 1024 (crcRun (s.laneOf f a 32 0).toNat
        ((List.range (n.val + 1)).map fun i => s.laneOf f b 8 i))) none (s.poisonV f a || s.poisonV f b) 0#6) := by
  change execVcrc f d a b n s = _
  rw [execVcrc, attempt_awake s f _ h]
  simp only [lane_eq_laneOf, BitVec.ofNat_toNat, BitVec.setWidth_eq]

theorem crcRun_append (c : Nat) (l : List Byte) (b : Byte) : crcRun c (l ++ [b]) = crcBit^[8] (crcRun c l ^^^ b.toNat) := by
  rw [crcRun, List.foldl_append]
  rfl

/-- The published check value of CRC-32C, before the final inversion (R196). -/
theorem crcRun_checkValue : crcRun 0xffffffff [0x31#8, 0x32#8, 0x33#8, 0x34#8, 0x35#8, 0x36#8, 0x37#8, 0x38#8, 0x39#8] = 0x1cf96d7c := by
  simp [crcRun, crcByte, crcBit, List.range_succ]

/-! The tree of R190 -/

/-- The OR of the first n flags. -/
def orAll (g : Nat → Flags) (n : Nat) : Flags := (List.range n).foldl (fun a k => a ||| g k) 0#6

theorem foldl_or_range (g : Nat → Flags) (n : Nat) (c : Flags) : (List.range n).foldl (fun a k => a ||| g k) c = c ||| orAll g n := by
  rw [orAll]
  generalize List.range n = l
  induction l generalizing c with
  | nil => simp
  | cons x r ih => rw [List.foldl_cons, List.foldl_cons, ih, ih (0#6 ||| g x), BitVec.zero_or, BitVec.or_assoc]

theorem orAll_succ (g : Nat → Flags) (n : Nat) : orAll g (n + 1) = g 0 ||| orAll (fun k => g (k + 1)) n := by
  rw [orAll, List.range_succ_eq_map, List.foldl_cons, List.foldl_map, BitVec.zero_or]
  exact foldl_or_range _ _ _

theorem orAll_eq_zero {g : Nat → Flags} (hg : ∀ k, g k = 0#6) (n : Nat) : orAll g n = 0#6 := by
  induction n generalizing g with
  | zero => rfl
  | succ n ih => rw [orAll_succ, hg, ih fun k => hg (k + 1), BitVec.or_zero]

/-- Two neighbours of a level joined: their sum as `vfadd` rounds it, or the one that is present. -/
def treeJoin (z : Bool) (rm : RMode) : Option Val → Option Val → Option Val × Flags
  | none, y => (y, 0#6)
  | x, none => (x, 0#6)
  | some x, some y => (some (fp32 (rounded z .fp32 rm (addVal rm x y)).1), (rounded z .fp32 rm (addVal rm x y)).2)

/-- Place k of level i over a list, none beyond its end. -/
def treeNode (z : Bool) (rm : RMode) (l : List (Option Val)) : Nat → Nat → Option Val
  | 0, k => l[k]?.join
  | i + 1, k => (treeJoin z rm (treeNode z rm l i (2 * k)) (treeNode z rm l i (2 * k + 1))).1

/-- The flags of place k of level i. -/
def treeFlags (z : Bool) (rm : RMode) (l : List (Option Val)) : Nat → Nat → Flags
  | 0, _ => 0#6
  | i + 1, k => (treeJoin z rm (treeNode z rm l i (2 * k)) (treeNode z rm l i (2 * k + 1))).2

section
variable (z : Bool) (rm : RMode)

theorem treeLevel_cons (a b : Option Val) (r : List (Option Val)) : treeLevel z rm (a :: b :: r)
    = ((treeJoin z rm a b).1 :: (treeLevel z rm r).1, (treeLevel z rm r).2 ||| (treeJoin z rm a b).2) := by
  cases a <;> cases b <;> simp [treeLevel, treeJoin]

theorem treeJoin_none_right (x : Option Val) : treeJoin z rm x none = (x, 0#6) := by cases x <;> rfl

/-- Place k of the next level joins the places 2k and 2k + 1. -/
theorem treeLevel_getElem : ∀ (l : List (Option Val)) (k : Nat),
    (treeLevel z rm l).1[k]?.join = (treeJoin z rm l[2 * k]?.join l[2 * k + 1]?.join).1
  | [], _ => rfl
  | [x], 0 => by rw [List.getElem?_eq_none (i := 2 * 0 + 1) (by simp)]; exact (congrArg Prod.fst (treeJoin_none_right z rm x)).symm
  | [_], _ + 1 => rfl
  | _ :: _ :: r, k => by
    rw [treeLevel_cons]
    cases k with
    | zero => rfl
    | succ k => exact treeLevel_getElem r k

theorem treeLevel_length : ∀ {l : List (Option Val)} {n : Nat}, l.length ≤ 2 * n → (treeLevel z rm l).1.length ≤ n
  | [], _, _ => Nat.zero_le _
  | [_], n, hl => by
    change 1 ≤ 2 * n at hl
    change 1 ≤ n
    omega
  | _ :: _ :: _, 0, hl => by simp at hl
  | _ :: _ :: r, n + 1, hl => by
    rw [treeLevel_cons, List.length_cons]
    exact Nat.succ_le_succ (treeLevel_length (by simp only [List.length_cons] at hl; omega))

/-- The flags of a level are those of its joined pairs. -/
theorem treeLevel_snd : ∀ {l : List (Option Val)} {n : Nat}, l.length ≤ 2 * n →
    (treeLevel z rm l).2 = orAll (fun k => (treeJoin z rm l[2 * k]?.join l[2 * k + 1]?.join).2) n
  | [], n, _ => (orAll_eq_zero (fun _ => rfl) n).symm
  | [x], n, _ => (orAll_eq_zero (fun k => congrArg Prod.snd (treeJoin_none_right z rm ([x][2 * k]?.join))) n).symm
  | _ :: _ :: _, 0, hl => by simp at hl
  | _ :: _ :: r, n + 1, hl => by
    rw [treeLevel_cons, orAll_succ, BitVec.or_comm, treeLevel_snd (l := r) (n := n)
      (by simp only [List.length_cons] at hl; omega)]
    rfl

variable (l : List (Option Val))

/-- Level i + 1 of a list is level i of its first level. -/
theorem treeNode_treeLevel (i k : Nat) : treeNode z rm (treeLevel z rm l).1 i k = treeNode z rm l (i + 1) k := by
  induction i generalizing k with
  | zero => exact treeLevel_getElem z rm l k
  | succ i ih => rw [treeNode, ih, ih]; rfl

theorem treeFlags_treeLevel (i k : Nat) : treeFlags z rm (treeLevel z rm l).1 (i + 1) k = treeFlags z rm l (i + 2) k := by
  rw [treeFlags, treeNode_treeLevel, treeNode_treeLevel]
  rfl

/-- The flags of `n` levels, the first with `2 ^ (n − 1)` places. -/
def treeFlagsBelow (n : Nat) : Flags := orAll (fun i => orAll (treeFlags z rm l (i + 1)) (2 ^ (n - 1 - i))) n

theorem foldl_treeFlags (n : Nat) : (List.range n).foldl (fun a i => (List.range (2 ^ (n - 1 - i))).foldl
    (fun a k => a ||| treeFlags z rm l (i + 1) k) a) 0#6 = treeFlagsBelow z rm l n := by
  simp only [foldl_or_range, BitVec.zero_or]
  rfl

theorem treeFlagsBelow_succ {l : List (Option Val)} {n : Nat} (hl : l.length ≤ 2 ^ (n + 1)) :
    treeFlagsBelow z rm l (n + 1) = treeFlagsBelow z rm (treeLevel z rm l).1 n ||| (treeLevel z rm l).2 := by
  have hexp (i : Nat) : n + 1 - 1 - (i + 1) = n - 1 - i := by omega
  have hfirst : (treeLevel z rm l).2 = orAll (treeFlags z rm l 1) (2 ^ n) := treeLevel_snd z rm (by rwa [← pow_succ'])
  have hrest : (fun i => orAll (treeFlags z rm (treeLevel z rm l).1 (i + 1)) (2 ^ (n - 1 - i)))
      = fun i => orAll (treeFlags z rm l (i + 1 + 1)) (2 ^ (n + 1 - 1 - (i + 1))) := by
    funext i
    rw [hexp, funext (treeFlags_treeLevel z rm l i)]
  rw [treeFlagsBelow, treeFlagsBelow, orAll_succ, hfirst, hrest, BitVec.or_comm]
  rfl

theorem treeSum_eq {n : Nat} {l : List (Option Val)} (hl : l.length ≤ 2 ^ n) :
    treeSum z rm n l = (treeNode z rm l n 0, treeFlagsBelow z rm l n) := by
  induction n generalizing l with
  | zero => rw [treeSum, treeNode, List.head?_eq_getElem?]; rfl
  | succ n ih =>
    rw [treeSum, ih (treeLevel_length z rm (by rwa [← pow_succ'])), treeNode_treeLevel, treeFlagsBelow_succ z rm hl]

/-- What a join does to two places (R190). -/
theorem treeJoin_some (x y : Val) : treeJoin z rm (some x) (some y)
    = (some (decodeF .fp32 (roundFtz z .fp32 rm false (addVal rm x y).1).1),
       (roundFtz z .fp32 rm false (addVal rm x y).1).2 ||| (addVal rm x y).2) := rfl

end

/-! The shared operation that each form is -/

section
variable (s : State) (f : VFile) (d a : Fin 32) (ty : ITy) (m : Fin 8)

theorem exec_vredsum : exec (.vredsum f d a ty m) s = s.vRed f d a ty m 0 fun x y => x + y := rfl
theorem exec_vredmax : exec (.vredmax f d a ty m) s = s.vRed f d a ty m (ityMin ty) max := rfl
theorem exec_vredmin : exec (.vredmin f d a ty m) s = s.vRed f d a ty m (ityMax ty) min := rfl

end

section
variable (s : State) (f : VFile) (d a : Fin 8) (o : MOpd)

/-- `mlog` with an immediate, which is zero-extended (R195). -/
theorem mLog_imm (i : BitVec 16) (g : W32 → W32 → W32) : s.mLog f d a (.imm i) g
    = .next (s.put 1 (.m f d) ((g (s.readM f a) (BitVec.ofNat 32 i.toNat)).setWidth 1024) false) := by
  rw [State.mLog, State.mopd, BitVec.ofNat_toNat]

theorem exec_mlogAnd : exec (.mlogAnd f d a o) s = s.mLog f d a o fun x y => x &&& y := rfl
theorem exec_mlogOr : exec (.mlogOr f d a o) s = s.mLog f d a o fun x y => x ||| y := rfl
theorem exec_mlogXor : exec (.mlogXor f d a o) s = s.mLog f d a o fun x y => x ^^^ y := rfl
theorem exec_mlogAndn : exec (.mlogAndn f d a o) s = s.mLog f d a o fun x y => x &&& ~~~y := rfl
theorem exec_mlogOrn : exec (.mlogOrn f d a o) s = s.mLog f d a o fun x y => x ||| ~~~y := rfl

end

end Sys2Proof.Machine

namespace Sys2Proof
open Machine

/-- Settles O31: reductions as folds over the enabled lanes, the tree by its levels, the CRC by its bytes. -/
theorem vectorReductionsAndMasks : Obligations.VectorReductionsAndMasks := by
  refine ⟨fun s f d a ty m h => ⟨?sum, ⟨_, (exec_vredmax ..).trans (vRed_of_awake h ..), ?max⟩,
      ⟨_, (exec_vredmin ..).trans (vRed_of_awake h ..), ?min⟩⟩,
    fun s f d a ft rm m h => ⟨?fsum, ?fmax⟩, fun s f d a o => ?mlog,
    fun s f d a h => ⟨_, _, exec_mpop_of_awake h a, rfl, exec_mpopFirst_of_awake h a, maskFirst_spec _⟩,
    fun s f d a b n h => exec_vcrc_of_awake h n,
    fun z rm n l hl => ⟨treeNode z rm l, treeFlags z rm l, fun k => rfl, fun i k => ?join, ?tree⟩,
    fun c => rfl, crcRun_append, crcRun_checkValue⟩
  case sum => rw [exec_vredsum, vRed_of_awake h, ← List.sum_eq_foldl]; rfl
  case max => exact foldl_max_spec fun x hx => (redLanes_bounds s f a ty m x hx).1
  case min => exact foldl_min_spec fun x hx => (redLanes_bounds s f a ty m x hx).2
  case fsum => rw [exec_vfredsum_of_awake h, widened_eq]; rfl
  case fmax => rw [exec_vfredmax_of_awake h, widened_eq]; rfl
  case mlog =>
    cases o with
    | reg r => exact ⟨rfl, rfl, rfl, rfl, rfl⟩
    | imm i => exact ⟨(exec_mlogAnd ..).trans (mLog_imm ..), (exec_mlogOr ..).trans (mLog_imm ..), (exec_mlogXor ..).trans (mLog_imm ..),
        (exec_mlogAndn ..).trans (mLog_imm ..), (exec_mlogOrn ..).trans (mLog_imm ..)⟩
  case join =>
    rw [treeNode, treeFlags]
    generalize treeNode z rm l i (2 * k) = x
    generalize treeNode z rm l i (2 * k + 1) = y
    cases x with
    | none => exact ⟨rfl, rfl⟩
    | some x => cases y <;> exact ⟨rfl, rfl⟩
  case tree => rw [foldl_treeFlags, treeSum_eq z rm hl.le]

end Sys2Proof
end

section
/-! O30: conversions and packing, lane by lane. -/

namespace Sys2Proof.Machine

/-! Lanes moved to a part of the register -/

theorem lane_shiftLeft (w : Nat) (v : VReg) {a j : Nat} (h : w * (a + j + 1) ≤ 1024) : lane w (v <<< (w * a)) (a + j) = lane w v j := by
  refine Nat.eq_of_testBit_eq fun k => ?_
  rw [testBit_lane, testBit_lane, BitVec.getLsbD_shiftLeft]
  by_cases hk : k < w
  · have hidx : w * (a + j) + k - w * a = w * j + k := by rw [mul_add]; omega
    have hlt : w * (a + j) + k < 1024 := by rw [mul_add, mul_one] at h; omega
    have hge : ¬ w * (a + j) + k < w * a := by rw [mul_add]; omega
    simp [hidx, hlt, hge]
  · simp [hk]

theorem lane_ofLanes_shiftLeft {w a j : Nat} {l : List Nat} (hj : j < l.length) (h : w * (a + l.length) ≤ 1024) :
    lane w (ofLanes w l <<< (w * a)) (a + j) = l[j] % 2 ^ w := by
  have hle : w * l.length ≤ w * (a + l.length) := Nat.mul_le_mul_left w (Nat.le_add_left _ _)
  have hj1 : w * (a + j + 1) ≤ w * (a + l.length) := Nat.mul_le_mul_left w (by omega)
  rw [lane_shiftLeft w _ (hj1.trans h), lane_ofLanes w l (hle.trans h) j hj]

/-! vcvt -/

section
variable {s : State} {f : VFile} {d a b : Fin 32}

/-- The conversion of source lane k, or of lane k0 + k where the conversion widens (R184). -/
def State.cvtLane (s : State) (f : VFile) (a : Fin 32) (dt st : CFmt) (rm : RMode) (sat : Bool) (k0 k : Nat) : Nat × Flags :=
  convert (s.ftz f) (cfmtEl st) (cfmtEl dt) rm sat
    (s.laneOf f a (cfmtEl st).width (if (cfmtEl st).width < (cfmtEl dt).width then k0 + k else k)).toNat

theorem exec_vcvt_of_awake (h : s.awake f [d, a]) {dt st : CFmt} (rm : RMode) (sat : Bool) {part : Option (BitVec 2)} {k0 n : Nat}
    (hn : n = 1024 / max (cfmtEl st).width (cfmtEl dt).width) (hk0 : k0 = part.elim 0 BitVec.toNat * n) :
    exec (.vcvt f d a dt st rm sat part) s
      = (let wd := (cfmtEl dt).width
         let narrows := wd < (cfmtEl st).width
         let v := ofLanes wd ((List.range n).map fun k => (s.cvtLane f a dt st rm sat k0 k).1)
         .next (s.putV 3 f d (if narrows then v <<< (wd * k0) else v) (if narrows then some (laneSpan wd k0 n) else none)
           (s.poisonV f a) ((List.range n).foldl (fun fl k => fl ||| (s.cvtLane f a dt st rm sat k0 k).2) 0#6))) := by
  subst hn hk0
  change execVcvt f d a dt st rm sat part s = _
  rw [execVcvt, attempt_awake s f _ h]
  simp only [lane_eq_laneOf, allFlags, List.foldl_map, List.map_map]
  split <;> rfl

theorem vcvt_result (h : s.awake f [d, a]) {dt st : CFmt} (rm : RMode) (sat : Bool) {part : Option (BitVec 2)} {k0 n : Nat}
    (hn : n = 1024 / max (cfmtEl st).width (cfmtEl dt).width) (hk0 : k0 = part.elim 0 BitVec.toNat * n)
    (hfit : min (cfmtEl st).width (cfmtEl dt).width * (k0 + n) ≤ 1024) :
    ∃ v, exec (.vcvt f d a dt st rm sat part) s
        = .next (s.putV 3 f d v (if (cfmtEl dt).width < (cfmtEl st).width then some (laneSpan (cfmtEl dt).width k0 n) else none)
            (s.poisonV f a) ((List.range n).foldl (fun fl k => fl ||| (s.cvtLane f a dt st rm sat k0 k).2) 0#6))
      ∧ ∀ k < n, lane (cfmtEl dt).width v (if (cfmtEl dt).width < (cfmtEl st).width then k0 + k else k)
          = (s.cvtLane f a dt st rm sat k0 k).1 % 2 ^ (cfmtEl dt).width := by
  refine ⟨_, exec_vcvt_of_awake h rm sat hn hk0, fun k hk => ?_⟩
  split
  case isTrue hlt =>
    rw [min_eq_right hlt.le] at hfit
    rw [lane_ofLanes_shiftLeft (by simpa using hk) (by simpa using hfit), List.getElem_map, List.getElem_range]
  case isFalse hge =>
    rw [max_eq_right (not_lt.1 hge)] at hn
    rw [lane_ofLanes _ _ (by simpa [hn] using Nat.mul_div_le 1024 _) k (by simpa using hk), List.getElem_map, List.getElem_range]

/-! vpack and vunpack -/

theorem packKind_widths : ∀ k : Fin 7, (packKind k).1 = 2 * (packKind k).2.2.1 ∧ 0 < (packKind k).2.2.1 := by decide

/-- Lane j of a register or, beyond its lanes, of the one after it, as KIND reads it (R185). -/
def State.packSource (s : State) (f : VFile) (a b : Fin 32) (kind : Fin 7) (j : Nat) : Int :=
  if j < laneCount (packKind kind).1 then laneInt (packKind kind).2.1 (s.laneOf f a (packKind kind).1 j)
  else laneInt (packKind kind).2.1 (s.laneOf f b (packKind kind).1 (j - laneCount (packKind kind).1))

/-- The value that `vpack` writes for x (R185). -/
def packValue (kind : Fin 7) (sat : Bool) (x : Int) : Int :=
  if sat then
    max (if (packKind kind).2.2.2 then -2 ^ ((packKind kind).2.2.1 - 1) else 0)
      (min (if (packKind kind).2.2.2 then 2 ^ ((packKind kind).2.2.1 - 1) - 1 else 2 ^ (packKind kind).2.2.1 - 1) x)
  else x

theorem orAll_ite (c : Nat → Prop) [DecidablePred c] (fl : Flags) (n : Nat) [Decidable (∀ j < n, c j)] :
    orAll (fun j => if c j then 0#6 else fl) n = if ∀ j < n, c j then 0#6 else fl := by
  induction n generalizing c with
  | zero => simp [orAll]
  | succ n ih =>
    rw [orAll_succ, ih fun k => c (k + 1)]
    simp only [Nat.forall_lt_succ_left]
    by_cases hrest : ∀ k < n, c (k + 1)
    · simp only [eq_true hrest, and_true, if_true, BitVec.or_zero]
    · simp only [eq_false hrest, and_false, if_false]
      split <;> simp

theorem intVal_packSource (s : State) (f : VFile) (a b : Fin 32) (kind : Fin 7) {j : Nat} (hj : j < 2 * laneCount (packKind kind).1) :
    intVal (packKind kind).2.1 (packKind kind).1 (lane (packKind kind).1 (s.readV f (if j < laneCount (packKind kind).1 then a else b))
      (j % laneCount (packKind kind).1)) = s.packSource f a b kind j := by
  obtain ⟨hw, hpos⟩ := packKind_widths kind
  rw [intVal_lane _ _ _ (by omega), State.packSource]
  split
  case isTrue hlt => rw [Nat.mod_eq_of_lt hlt]
  case isFalse hge => rw [Nat.mod_eq_sub_mod (not_lt.1 hge), Nat.mod_eq_of_lt (by omega)]

/-- One lane of `vpack` with its flag (R185). -/
def State.packLane (s : State) (f : VFile) (a b : Fin 32) (kind : Fin 7) (sat : Bool) (j : Nat) : Nat × Flags :=
  let x := s.packSource f a b kind j
  let y := packValue kind sat x
  ((BitVec.ofInt (packKind kind).2.2.1 y).toNat, if y = x then 0#6 else flSAT)

theorem exec_vpack_of_awake (h : s.awake f [d, a, b]) (kind : Fin 7) (sat : Bool) :
    exec (.vpack f d a b kind sat) s = .next (s.putV 3 f d
      (ofLanes (packKind kind).2.2.1 (((List.range (2 * laneCount (packKind kind).1)).map (s.packLane f a b kind sat)).map Prod.fst)) none
      (s.poisonV f a || s.poisonV f b) (allFlags ((List.range (2 * laneCount (packKind kind).1)).map (s.packLane f a b kind sat)))) := by
  change execVpack f d a b kind sat s = _
  rw [execVpack, attempt_awake s f _ h]
  dsimp only
  rw [List.map_congr_left (g := s.packLane f a b kind sat)]
  intro j hj
  rw [intVal_packSource s f a b kind (List.mem_range.1 hj), State.packLane, packValue]
  simp only [satInt_eq, wrapNat_eq, flIf_bne]
  cases sat
  · simp
  · rfl

theorem allFlags_packLane (s : State) (f : VFile) (a b : Fin 32) (kind : Fin 7) (sat : Bool) (n : Nat) :
    allFlags ((List.range n).map (s.packLane f a b kind sat))
      = if ∀ j < n, packValue kind sat (s.packSource f a b kind j) = s.packSource f a b kind j then 0#6 else flSAT := by
  rw [allFlags, List.foldl_map, ← orAll_ite]
  rfl

theorem vpack_result (h : s.awake f [d, a, b]) (kind : Fin 7) (sat : Bool) :
    ∃ v, exec (.vpack f d a b kind sat) s = .next (s.putV 3 f d v none (s.poisonV f a || s.poisonV f b)
        (if ∀ j < 2 * laneCount (packKind kind).1, packValue kind sat (s.packSource f a b kind j) = s.packSource f a b kind j
          then 0#6 else flSAT))
      ∧ ∀ j < 2 * laneCount (packKind kind).1, lane (packKind kind).2.2.1 v j
          = (BitVec.ofInt (packKind kind).2.2.1 (packValue kind sat (s.packSource f a b kind j))).toNat := by
  rw [exec_vpack_of_awake h, allFlags_packLane]
  refine ⟨_, rfl, fun j hj => ?_⟩
  obtain ⟨hw, hpos⟩ := packKind_widths kind
  have hfit : (packKind kind).2.2.1 * (2 * laneCount (packKind kind).1) ≤ 1024 := by
    rw [← mul_assoc, mul_comm (packKind kind).2.2.1, ← hw]
    exact mul_laneCount_le _
  rw [lane_ofLanes _ _ (by simpa using hfit) j (by simpa using hj), List.getElem_map, List.getElem_map, List.getElem_range]
  exact Nat.mod_eq_of_lt (BitVec.isLt _)

theorem unpackKind_width_pos : ∀ k : Fin 6, 0 < (unpackKind k).1 := by decide

theorem exec_vunpack (s : State) (f : VFile) (d a : Fin 32) (kind : Fin 6) (hi : Bool) : exec (.vunpack f d a kind hi) s
    = s.attempt (s.chkVs f [d, a]) fun u => u.putV 3 f d
      (mapLanes (unpackKind kind).2.1 fun j => wrapNat (unpackKind kind).2.1 (intVal (unpackKind kind).2.2 (unpackKind kind).1
        (lane (unpackKind kind).1 (s.readV f a) (b2n hi * laneCount (unpackKind kind).2.1 + j)))) none (u.poisonV f a) 0#6 := rfl

theorem vunpack_result (h : s.awake f [d, a]) (kind : Fin 6) (hi : Bool) :
    ∃ v, exec (.vunpack f d a kind hi) s = .next (s.putV 3 f d v none (s.poisonV f a) 0#6)
      ∧ ∀ j < 1024 / (unpackKind kind).2.1, lane (unpackKind kind).2.1 v j
          = (BitVec.ofInt (unpackKind kind).2.1 (laneInt (unpackKind kind).2.2
              (s.laneOf f a (unpackKind kind).1 ((if hi then 1024 / (unpackKind kind).2.1 else 0) + j)))).toNat := by
  have hpart : b2n hi * laneCount (unpackKind kind).2.1 = if hi then 1024 / (unpackKind kind).2.1 else 0 := by
    cases hi <;> simp [b2n, laneCount]
  refine ⟨_, (exec_vunpack ..).trans (attempt_awake s f _ h _), fun j hj => ?_⟩
  rw [lane_mapLanes _ _ j hj, hpart, intVal_lane _ _ _ (unpackKind_width_pos kind), wrapNat_eq, Nat.mod_eq_of_lt (BitVec.isLt _)]

/-! vfxd -/

theorem vfxd_result (h : s.awake f [d, a]) (j : Fin 9) (m : Fin 8) :
    LaneResult (.vfxd f d a j m) s f 3 d (s.poisonV f a) (s.opMask f m.val) 32 fun k =>
      let x := decodeF .fp32 (s.laneOf f a 32 k).toNat
      if x.isNan ∨ x.isInf then (0, flNV) else ((BitVec.ofInt 32 (fxdDigit x j.val)).toNat, 0#6) := by
  refine laneOp_result _ _ _ _ _ _ _ _ _ _ _ rfl h fun k _ => ?_
  dsimp only [fp32]
  rw [lane_eq_laneOf, wrapNat_eq]
  generalize decodeF .fp32 (s.laneOf f a 32 k).toNat = x
  cases x <;> exact ⟨rfl, rfl⟩

end

end Sys2Proof.Machine
end

section
/-! O30: `vquant` and `vquant.scale`, whose block is that of R75. -/

namespace Sys2Proof.Machine

theorem encodeBlock_length (l : List Val) (e : BElem) : (encodeBlock l e).els.length = l.length := by
  simp only [encodeBlock]
  split_ifs <;> simp

section
variable (s : State) (f : VFile) (a : Fin 32) (e : BElem)

theorem quantVals_eq : s.quantVals f a = (List.range 32).map (s.fltLane f a .fp32) := by
  simp only [State.quantVals, lane_eq_laneOf]
  rfl

/-- The block of the 32 fp32 lanes of a register (R186). -/
def State.laneBlock : Block := encodeBlock ((List.range 32).map (s.fltLane f a .fp32)) e

theorem quantBlock_eq : s.quantBlock f a e = s.laneBlock f a e := by rw [State.quantBlock, quantVals_eq, State.laneBlock]

theorem laneBlock_length : (s.laneBlock f a e).els.length = 32 := by
  rw [State.laneBlock, encodeBlock_length, List.length_map, List.length_range]

/-- Emin of a float element (R61). -/
def blockLeast : BElem → Option Int
  | .e4m3 => some (-6)
  | .e5m2 => some (-14)
  | .i4 => none

/-- Element j is flushed: FTZ is on and its exact value lies below 2^Emin (R71). -/
def State.quantTiny (j : Nat) : Bool :=
  s.ftz f && !(s.laneBlock f a e).nan && !(s.fltLane f a .fp32 j).isZero
    && (blockLeast e).any fun l => decide ((s.fltLane f a .fp32 j).log2 - (((s.laneBlock f a e).scale : Int) - 127) < l)

/-- The flags of `vquant` (R186): NV for a block that is not finite, SAT for a saturated element, NX for an inexact one, UF and NX for a
flushed one. -/
def State.quantFlags : Flags :=
  flIf (s.laneBlock f a e).nan flNV ||| (if 0 < (s.laneBlock f a e).sat then flSAT else 0#6) ||| flIf (s.laneBlock f a e).inexact flNX
    ||| flIf ((List.range 32).any (s.quantTiny f a e)) (flUF ||| flNX)

/-- Element j as it is written: the zero of its sign where it is flushed (R71). -/
def State.quantEl (j : Nat) : Nat :=
  if s.quantTiny f a e j then (if (s.fltLane f a .fp32 j).neg then 2 ^ ((blockFmt e).width - 1) else 0)
  else (s.laneBlock f a e).els.getD j 0

theorem laneBlock_els : (s.laneBlock f a e).els = (List.range 32).map fun j => (s.laneBlock f a e).els.getD j 0 := by
  refine List.ext_getElem (by simp [laneBlock_length]) fun j hj _ => ?_
  rw [List.getElem_map, List.getElem_range, List.getD_eq_getElem _ _ hj]

theorem quantEls_of_float {g : FFmt} (hfmt : blockFmt e = .flt g) (hleast : blockLeast e = some g.emin) :
    s.quantEls f a e = ((List.range 32).map (s.quantEl f a e), (List.range 32).any (s.quantTiny f a e)) := by
  have htiny (j : Nat) : (s.ftz f && !(s.laneBlock f a e).nan && !(s.fltLane f a .fp32 j).isZero
      && decide ((s.fltLane f a .fp32 j).log2 - (((s.laneBlock f a e).scale : Int) - 127) < g.emin)) = s.quantTiny f a e j := by
    rw [State.quantTiny, hleast, Option.any_some]
  have hel (j : Nat) : (if s.quantTiny f a e j then g.signed (s.fltLane f a .fp32 j).neg 0 else (s.laneBlock f a e).els.getD j 0)
      = s.quantEl f a e j := by
    rw [State.quantEl, hfmt]
    simp [FFmt.signed, b2n, ElF.width]
  simp only [State.quantEls, hfmt, quantBlock_eq, quantVals_eq, List.any_map]
  refine Prod.ext ?_ ?_
  · dsimp only
    conv_lhs => rw [laneBlock_els s f a e, List.zip_map', List.map_map]
    exact List.map_congr_left fun j _ => by rw [← hel, ← htiny]; rfl
  · exact congrArg ((List.range 32).any) (funext htiny)

theorem quantEls_eq : s.quantEls f a e = ((List.range 32).map (s.quantEl f a e), (List.range 32).any (s.quantTiny f a e)) := by
  cases e with
  | e4m3 => exact quantEls_of_float s f a _ (g := .e4m3) rfl rfl
  | e5m2 => exact quantEls_of_float s f a _ (g := .e5m2) rfl rfl
  | i4 =>
    have htiny : s.quantTiny f a .i4 = fun _ => false := by funext j; simp [State.quantTiny, blockLeast]
    have hel : s.quantEl f a .i4 = fun j => (s.laneBlock f a .i4).els.getD j 0 := by funext j; simp [State.quantEl, htiny]
    rw [hel, ← laneBlock_els, htiny, State.quantEls, quantBlock_eq]
    rfl

end

section
variable {s : State} {f : VFile} {d a : Fin 32} {e : BElem}

theorem flIf_decide (p : Prop) [Decidable p] (fl : Flags) : flIf (decide p) fl = if p then fl else 0#6 := by
  simp only [flIf, decide_eq_true_eq]

theorem exec_vquant_of_awake (h : s.awake f [d, a]) (n : Fin 32) : exec (.vquant f d a e n) s
    = .next (s.putV 6 f d (ofLanes (blockFmt e).width ((List.range 32).map (s.quantEl f a e)) <<< ((blockFmt e).width * (32 * n.val)))
        (some (laneSpan (blockFmt e).width (32 * n.val) 32)) (s.poisonV f a) (s.quantFlags f a e)) := by
  change execVquant f d a e n s = _
  rw [execVquant, attempt_awake s f _ h]
  simp only [quantBlock_eq, quantEls_eq, State.quantFlags, flIf_decide, mul_comm 32 (blockFmt e).width, mul_assoc]

theorem vquant_result (h : s.awake f [d, a]) (n : Fin 32) (hfit : 32 * (blockFmt e).width * (n.val + 1) ≤ 1024) :
    ∃ v, exec (.vquant f d a e n) s = .next (s.putV 6 f d v (some (laneSpan (blockFmt e).width (32 * n.val) 32)) (s.poisonV f a)
        (s.quantFlags f a e))
      ∧ ∀ j < 32, lane (blockFmt e).width v (32 * n.val + j) = s.quantEl f a e j % 2 ^ (blockFmt e).width := by
  refine ⟨_, exec_vquant_of_awake h n, fun j hj => ?_⟩
  have hfit' : (blockFmt e).width * (32 * n.val + 32) ≤ 1024 := by
    rw [show (blockFmt e).width * (32 * n.val + 32) = 32 * (blockFmt e).width * (n.val + 1) by ring]
    exact hfit
  rw [lane_ofLanes_shiftLeft (by simpa using hj) (by simpa using hfit'), List.getElem_map, List.getElem_range]

theorem blockFmt_width_pos : 0 < (blockFmt e).width := by cases e <;> decide

theorem quantEl_mod {j : Nat} (hj : j < (s.laneBlock f a e).els.length) : s.quantEl f a e j % 2 ^ (blockFmt e).width
    = if s.quantTiny f a e j then (if (s.fltLane f a .fp32 j).neg then 2 ^ ((blockFmt e).width - 1) else 0)
      else (s.laneBlock f a e).els[j] % 2 ^ (blockFmt e).width := by
  have hlt : 2 ^ ((blockFmt e).width - 1) < 2 ^ (blockFmt e).width := Nat.pow_lt_pow_right one_lt_two (Nat.sub_one_lt blockFmt_width_pos.ne')
  rw [State.quantEl, List.getD_eq_getElem _ _ hj, apply_ite (· % 2 ^ (blockFmt e).width), apply_ite (· % 2 ^ (blockFmt e).width),
    Nat.mod_eq_of_lt hlt, Nat.zero_mod]

theorem lane_ofNat_zero {w : Nat} (hw : w ≤ 1024) (x : Nat) : lane w (BitVec.ofNat 1024 x) 0 = x % 2 ^ w := by
  refine Nat.eq_of_testBit_eq fun k => ?_
  rw [testBit_lane, BitVec.getLsbD_ofNat, Nat.testBit_mod_two_pow]
  by_cases hk : k < w
  · simp [show k < 1024 by omega]
  · simp [hk]

theorem exec_vquantScale_of_awake (h : s.awake f [d, a]) (n : Fin 32) : exec (.vquantScale f d a e n) s
    = .next (s.putV 6 f d (BitVec.ofNat 1024 (s.laneBlock f a e).scale <<< (8 * n.val)) (some (laneSpan 8 n.val 1)) (s.poisonV f a)
        (flIf (s.laneBlock f a e).nan flNV)) := by
  change execVquantScale f d a e n s = _
  rw [execVquantScale, attempt_awake s f _ h]
  simp only [quantBlock_eq, ofNat_mul_two_pow]

theorem vquantScale_result (h : s.awake f [d, a]) (n : Fin 32) :
    ∃ v, exec (.vquantScale f d a e n) s = .next (s.putV 6 f d v (some (laneSpan 8 n.val 1)) (s.poisonV f a)
        (flIf (s.laneBlock f a e).nan flNV))
      ∧ lane 8 v n.val = (s.laneBlock f a e).scale % 256 := by
  exact ⟨_, exec_vquantScale_of_awake h n,
    (lane_shiftLeft 8 _ (a := n.val) (j := 0) (by omega)).trans (lane_ofNat_zero (by decide) _)⟩

end

end Sys2Proof.Machine
end

section
/-! O30: the block of R75 and the digits of R77 as statements about rationals. -/

namespace Sys2Proof.Machine

/-! The largest magnitude -/

/-- A finite value with a positive divisor. -/
def Val.IsFin (v : Val) : Prop := ∃ a n d q, v = .fin a n d q ∧ 0 < d

theorem isFin_of_not_special {v : Val} (hv : v.isNan = false ∧ v.isInf = false) (hden : ∀ a n d q, v = .fin a n d q → 0 < d) :
    v.IsFin := by
  obtain ⟨hnan, hinf⟩ := hv
  cases v with
  | nan => cases hnan
  | inf => cases hinf
  | fin a n d q => exact ⟨a, n, d, q, rfl, hden _ _ _ _ rfl⟩

theorem abs_toRat_fin (a : Bool) (n d : Nat) (q : Int) : |(Val.fin a n d q).toRat| = n / d * 2 ^ q := by
  have hpos : (0 : ℚ) ≤ n / d * 2 ^ q := by positivity
  cases a <;> simp [Val.toRat, abs_of_nonneg hpos]

theorem toRat_withSign_false {v : Val} (hv : v.IsFin) : (v.withSign false).IsFin ∧ (v.withSign false).toRat = |v.toRat| := by
  obtain ⟨a, n, d, q, rfl, hd⟩ := hv
  refine ⟨⟨false, n, d, q, rfl, hd⟩, ?_⟩
  rw [abs_toRat_fin]
  simp [Val.withSign, Val.toRat]

theorem lt_iff_toRat_lt {x y : Val} (hx : x.IsFin) (hy : y.IsFin) : x.lt y = true ↔ x.toRat < y.toRat := by
  obtain ⟨a, n, d, e, rfl, hd⟩ := hx
  obtain ⟨b, m, c, g, rfl, hc⟩ := hy
  exact Val.lt_fin hd hc e g

/-- One step of `maxMag`. -/
def greaterMag (m x : Val) : Val := if m.lt (x.withSign false) then x.withSign false else m

theorem greaterMag_spec {m x : Val} (hm : m.IsFin) (hx : x.IsFin) :
    (greaterMag m x).IsFin ∧ (greaterMag m x).toRat = max m.toRat |x.toRat| := by
  obtain ⟨hfin, habs⟩ := toRat_withSign_false hx
  have hlt := lt_iff_toRat_lt hm hfin
  rw [habs] at hlt
  rw [greaterMag]
  split
  case isTrue h => exact ⟨hfin, by rw [habs, max_eq_right (hlt.1 h).le]⟩
  case isFalse h => exact ⟨hm, by rw [max_eq_left (not_lt.1 (mt hlt.2 h))]⟩

theorem foldl_greaterMag {l : List Val} (hl : ∀ x ∈ l, x.IsFin) {m : Val} (hm : m.IsFin) :
    (l.foldl greaterMag m).IsFin ∧ (l.foldl greaterMag m).toRat = (l.map fun x => |x.toRat|).foldl max m.toRat := by
  induction l generalizing m with
  | nil => exact ⟨hm, rfl⟩
  | cons x r ih =>
    obtain ⟨hfin, hval⟩ := greaterMag_spec hm (hl x List.mem_cons_self)
    obtain ⟨hfin', hval'⟩ := ih (fun y hy => hl y (List.mem_cons_of_mem x hy)) hfin
    exact ⟨hfin', by rw [List.foldl_cons, hval', hval, List.map_cons, List.foldl_cons]⟩

theorem maxMag_isFin {l : List Val} (hl : ∀ x ∈ l, x.IsFin) : (maxMag l).IsFin :=
  (foldl_greaterMag hl ⟨false, 0, 1, 0, rfl, one_pos⟩).1

/-- `maxMag` is the largest magnitude, 0 at least. -/
theorem maxMag_toRat {l : List Val} (hl : ∀ x ∈ l, x.IsFin) : (maxMag l).toRat = (l.map fun x => |x.toRat|).foldl max 0 := by
  have h := (foldl_greaterMag hl (m := Val.zero) ⟨false, 0, 1, 0, rfl, one_pos⟩).2
  rwa [Val.zero, toRat_zero] at h

theorem maxMag_toRat_of_greatest {l : List Val} (hl : ∀ x ∈ l, x.IsFin) {m : ℚ} (hmem : ∃ x ∈ l, |x.toRat| = m)
    (hge : ∀ x ∈ l, |x.toRat| ≤ m) : (maxMag l).toRat = m := by
  obtain ⟨x, hx, rfl⟩ := hmem
  rw [maxMag_toRat hl]
  obtain ⟨hle, hin⟩ := foldl_max_spec (l := l.map fun x => |x.toRat|) (lo := 0) (List.forall_mem_map.2 fun y _ => abs_nonneg _)
  rw [List.forall_mem_map] at hle
  refine le_antisymm ?_ (hle x hx)
  obtain hin | ⟨hnil, -⟩ := hin
  · obtain ⟨y, hy, heq⟩ := List.mem_map.1 hin
    exact heq ▸ hge y hy
  · rw [List.map_eq_nil_iff.1 hnil] at hx
    cases hx

theorem isZero_iff_toRat {v : Val} (hv : v.IsFin) : v.isZero = true ↔ v.toRat = 0 := by
  obtain ⟨a, n, d, q, rfl, hd⟩ := hv
  have hd' : (d : ℚ) ≠ 0 := by exact_mod_cast hd.ne'
  rw [toRat_fin]
  cases a <;> simp [Val.isZero, signedNum, hd', zpow_ne_zero]

/-- floor(log2) of a nonzero value by the binade of its magnitude. -/
theorem log2_eq_of_bounds {v : Val} (hv : v.IsFin) {j : Int} (hlo : (2 : ℚ) ^ j ≤ |v.toRat|) (hhi : |v.toRat| < 2 ^ (j + 1)) :
    v.log2 = j := by
  obtain ⟨a, n, d, q, rfl, hd⟩ := hv
  rw [abs_toRat_fin] at hlo hhi
  have hn : 0 < n := by
    refine Nat.pos_of_ne_zero fun h0 => ?_
    rw [h0, Nat.cast_zero, zero_div, zero_mul] at hlo
    exact absurd hlo (not_le.2 (by positivity))
  have hbelow := (floorLog2_lt_iff hn hd q (j + 1)).2 hhi
  have hnotbelow := mt (floorLog2_lt_iff hn hd q j).1 (not_lt.2 hlo)
  rw [Val.log2]
  omega

/-! The block -/

theorem toRat_scale (v : Val) (k : Int) : (v.scale (-k)).toRat = v.toRat / 2 ^ k := by
  cases v with
  | nan => simp [Val.scale, Val.toRat]
  | inf => simp [Val.scale, Val.toRat]
  | fin a n d q =>
    rw [Val.scale, toRat_fin, toRat_fin, ← sub_eq_add_neg, zpow_sub₀ two_ne_zero]
    ring

theorem encodeBlock_of_special {l : List Val} (e : BElem) (h : l.any (fun x => x.isNan || x.isInf) = true) :
    encodeBlock l e = { scale := 0xff, els := List.replicate l.length 0, nan := true, sat := 0, inexact := false } := by
  rw [encodeBlock, if_pos h, List.map_const']

theorem encodeBlock_of_zero {l : List Val} (e : BElem) (h : l.any (fun x => x.isNan || x.isInf) = false)
    (hzero : (maxMag l).isZero = true) :
    encodeBlock l e = { scale := 0, els := List.replicate l.length 0, nan := false, sat := 0, inexact := false } := by
  rw [encodeBlock, if_neg (by rw [h]; decide), if_pos hzero, List.map_const']

/-- The exponent of a block (R75). -/
def blockExp (l : List Val) (e : BElem) : Int := min (max ((maxMag l).log2 - blockEmax e) (-127)) 127

theorem encodeBlock_of_nonzero {l : List Val} (e : BElem) (h : l.any (fun x => x.isNan || x.isInf) = false)
    (hzero : (maxMag l).isZero = false) :
    encodeBlock l e =
      { scale := (blockExp l e + 127).toNat
        els := l.map fun x => (encodeEl e (x.scale (-blockExp l e))).1
        nan := false
        sat := (l.filter fun x => (encodeEl e (x.scale (-blockExp l e))).2.1).length
        inexact := l.any fun x => (encodeEl e (x.scale (-blockExp l e))).2.2 } := by
  simp only [encodeBlock, h, hzero, Bool.false_eq_true, if_false, List.map_map, List.filter_map, List.length_map, List.any_map]
  rfl

theorem any_special_eq_false_iff {l : List Val} :
    l.any (fun x => x.isNan || x.isInf) = false ↔ ∀ x ∈ l, x.isNan = false ∧ x.isInf = false := by
  simp only [List.any_eq_false, Bool.not_eq_true, Bool.or_eq_false_iff]

/-- The integer that a signed 4-bit element holds before it is clamped (R75). -/
def blockInt : Val → Int
  | .fin neg num den e => (roundInt .rne neg num den e).1
  | _ => 0

theorem encodeEl_i4 {v : Val} (hv : v.IsFin) : (encodeEl .i4 v).1 = (BitVec.ofInt 4 (max (-8) (min 7 (blockInt v)))).toNat
    ∧ (encodeEl .i4 v).2.1 = decide (blockInt v < -8 ∨ 7 < blockInt v) := by
  obtain ⟨a, n, d, q, rfl, -⟩ := hv
  have hclamp (x : Int) : satInt true 4 x = max (-8) (min 7 x) := satInt_eq true x
  have hint : (roundInt .rne a n d q).1 = blockInt (.fin a n d q) := rfl
  simp only [encodeEl, hclamp, wrapNat_eq, hint, true_and]
  rw [Bool.eq_iff_iff, bne_iff_ne, decide_eq_true_eq]
  omega

theorem blockInt_rounds {v : Val} (hv : v.IsFin) : RoundsInt .rne v.toRat (blockInt v) := by
  obtain ⟨a, n, d, q, rfl, hd⟩ := hv
  obtain ⟨k, hk, hround⟩ := roundInt_rounds .rne a n hd q
  rwa [blockInt, hk]

theorem Val.IsFin.scale {v : Val} (hv : v.IsFin) (k : Int) : (v.scale k).IsFin := by
  obtain ⟨a, n, d, q, rfl, hd⟩ := hv
  exact ⟨a, n, d, q + k, rfl, hd⟩

theorem encodeEl_float {e : BElem} (he : e = .e4m3 ∨ e = .e5m2) (v : Val) :
    (encodeEl e v).1 = (roundTo (if e = .e4m3 then .e4m3 else .e5m2) .rne true v).1
      ∧ (encodeEl e v).2.1 = (roundTo (if e = .e4m3 then .e4m3 else .e5m2) .rne true v).2.getLsbD 2 := by
  obtain rfl | rfl := he <;> exact ⟨rfl, rfl⟩

section
variable {l : List Val} (hfin : ∀ x ∈ l, x.IsFin) {m : ℚ} {j : Int} (hmem : ∃ x ∈ l, |x.toRat| = m)
  (hge : ∀ x ∈ l, |x.toRat| ≤ m) (hlo : (2 : ℚ) ^ j ≤ m) (hhi : m < 2 ^ (j + 1))
include hfin hmem hge hlo

theorem maxMag_not_isZero : (maxMag l).isZero = false := by
  have hpos : (0 : ℚ) < m := lt_of_lt_of_le (by positivity) hlo
  rw [← Bool.not_eq_true, isZero_iff_toRat (maxMag_isFin hfin), maxMag_toRat_of_greatest hfin hmem hge]
  exact hpos.ne'

include hhi

/-- The exponent of a block is that of its largest magnitude less Emax, held to the range of the scale (R75). -/
theorem blockExp_eq (e : BElem) : blockExp l e = min (max (j - blockEmax e) (-127)) 127 := by
  have hmax := maxMag_toRat_of_greatest hfin hmem hge
  have hpos : (0 : ℚ) < m := lt_of_lt_of_le (by positivity) hlo
  rw [blockExp, log2_eq_of_bounds (maxMag_isFin hfin) (by rwa [hmax, abs_of_pos hpos]) (by rwa [hmax, abs_of_pos hpos])]

end

theorem maxMag_isZero_of_zeros {l : List Val} (hne : l ≠ []) (hfin : ∀ x ∈ l, x.IsFin) (hzero : ∀ x ∈ l, x.toRat = 0) :
    (maxMag l).isZero = true := by
  obtain ⟨x, hx⟩ := List.exists_mem_of_ne_nil l hne
  rw [isZero_iff_toRat (maxMag_isFin hfin)]
  exact maxMag_toRat_of_greatest hfin ⟨x, hx, by rw [hzero x hx, abs_zero]⟩ fun y hy => by rw [hzero y hy, abs_zero]

theorem encodeBlock_scale {l : List Val} {e : BElem} (h : l.any (fun x => x.isNan || x.isInf) = false)
    (hzero : (maxMag l).isZero = false) : ((encodeBlock l e).scale : Int) = blockExp l e + 127 ∧ (encodeBlock l e).nan = false := by
  rw [encodeBlock_of_nonzero e h hzero, blockExp]
  exact ⟨by dsimp only; omega, rfl⟩

/-- The elements of a float format (R75). -/
theorem encodeBlock_float {l : List Val} {e : BElem} (he : e = .e4m3 ∨ e = .e5m2)
    (h : l.any (fun x => x.isNan || x.isInf) = false) (hzero : (maxMag l).isZero = false) :
    let r := fun (x : Val) => roundTo (if e = .e4m3 then .e4m3 else .e5m2) .rne true (x.scale (-blockExp l e))
    (encodeBlock l e).els = l.map (fun x => (r x).1) ∧ (encodeBlock l e).sat = (l.filter fun x => (r x).2.getLsbD 2).length := by
  simp only [encodeBlock_of_nonzero e h hzero, (encodeEl_float he _).1, (encodeEl_float he _).2, and_self]

/-- The elements of the integer format: x / 2^k rounded to nearest even, and clamped (R75). -/
theorem encodeBlock_i4 {l : List Val} (hfin : ∀ x ∈ l, x.IsFin) (h : l.any (fun x => x.isNan || x.isInf) = false)
    (hzero : (maxMag l).isZero = false) :
    ∃ r : Val → Int, (encodeBlock l .i4).els = l.map (fun x => (BitVec.ofInt 4 (max (-8) (min 7 (r x)))).toNat)
      ∧ (encodeBlock l .i4).sat = (l.filter fun x => decide (r x < -8 ∨ 7 < r x)).length
      ∧ ∀ x ∈ l, |(r x : ℚ) - x.toRat / 2 ^ blockExp l .i4| ≤ 1 / 2
        ∧ (|(r x : ℚ) - x.toRat / 2 ^ blockExp l .i4| = 1 / 2 → r x % 2 = 0) := by
  have hscaled (x : Val) (hx : x ∈ l) : (x.scale (-blockExp l .i4)).IsFin := (hfin x hx).scale _
  rw [encodeBlock_of_nonzero _ h hzero]
  refine ⟨fun x => blockInt (x.scale (-blockExp l .i4)), List.map_congr_left fun x hx => (encodeEl_i4 (hscaled x hx)).1,
    congrArg List.length (List.filter_congr fun x hx => (encodeEl_i4 (hscaled x hx)).2), fun x hx => ?_⟩
  rw [← toRat_scale]
  exact (blockInt_rounds (hscaled x hx)).rne rfl

/-! The digits -/

theorem value_fp32_lt {k : Nat} (hk : k ≤ FFmt.maxPat .fp32) : FFmt.value .fp32 k < 2 ^ 128 := by
  have htop : FFmt.value .fp32 (FFmt.maxPat .fp32) = (2 ^ 24 - 1 : Nat) * 2 ^ (104 : Int) :=
    FFmt.value_mul_add .fp32 (Q := 253) (m := 2 ^ 24 - 1) (.inr (by decide)) (by decide)
  refine (FFmt.value_strictMono .fp32).monotone hk |>.trans_lt ?_
  rw [htop]
  norm_num

/-- A finite fp32 value as a signed number of units of 2^−149, which fits nine digits of 31 bits (R77). -/
theorem decodeF_fp32_units {v : Nat} (hnan : (decodeF .fp32 v).isNan = false) (hinf : (decodeF .fp32 v).isInf = false) :
    ∃ neg num, ∃ e : Int, decodeF .fp32 v = .fin neg num 1 e ∧ ((num * 2 ^ (e + 149).toNat : Nat) : ℚ) = num * 2 ^ e * 2 ^ 149
      ∧ num * 2 ^ (e + 149).toNat < 2 ^ (31 * 9) := by
  have hdec := decodeF_decodesTo .fp32 v
  generalize decodeF .fp32 v = x at *
  cases hdec with
  | inf => cases hinf
  | nan => cases hnan
  | fin num e hk hv hnum he =>
    have hunits : ((num * 2 ^ (e + 149).toNat : Nat) : ℚ) = num * 2 ^ e * 2 ^ 149 := by
      have he' : ((e + 149).toNat : Int) = e + 149 := Int.toNat_of_nonneg (by
        change (-149 : Int) ≤ e at he
        omega)
      push_cast
      rw [mul_assoc, ← zpow_natCast, he', zpow_add₀ two_ne_zero]
      norm_num
    refine ⟨_, num, e, rfl, hunits, ?_⟩
    have hlt : ((num * 2 ^ (e + 149).toNat : Nat) : ℚ) < (2 ^ (31 * 9) : Nat) := by
      have hvalue := value_fp32_lt hk
      rw [hunits, hv, Nat.cast_pow, Nat.cast_ofNat]
      calc FFmt.value .fp32 (v % 2 ^ (FFmt.width .fp32 - 1)) * 2 ^ 149 < 2 ^ 128 * 2 ^ 149 := by gcongr
        _ ≤ 2 ^ (31 * 9) := by rw [← pow_add]; exact pow_le_pow_right₀ one_le_two (by decide)
    exact Nat.cast_lt.1 hlt

/-- The base-2^31 digits of a number below 2^(31 m) add up to it. -/
theorem sum_digits (N m : Nat) :
    ((List.range m).map fun j => ((N / 2 ^ (31 * j) % 2 ^ 31 : Nat) : ℚ) * 2 ^ (31 * j)).sum = ((N % 2 ^ (31 * m) : Nat) : ℚ) := by
  induction m with
  | zero => simp [Nat.mod_one]
  | succ m ih =>
    rw [List.range_succ, List.map_append, List.sum_append, ih, mul_add, pow_add, mul_one, Nat.mod_mul, List.map_singleton, List.sum_singleton,
      Nat.cast_add, Nat.cast_mul, Nat.cast_pow, Nat.cast_ofNat, mul_comm (2 ^ (31 * m) : ℚ)]

theorem fxdDigit_fin (neg : Bool) (num : Nat) (e : Int) (j : Nat) :
    fxdDigit (.fin neg num 1 e) j = signedNum neg (num * 2 ^ (e + 149).toNat / 2 ^ (31 * j) % 2 ^ 31) := rfl

/-- The sign that every digit carries (R77). -/
theorem signedNum_eq_ite (neg : Bool) {x n : Nat} {e : Int} (hn : x = 0 → n = 0) :
    signedNum neg n = (if (Val.fin neg x 1 e).toRat < 0 then -1 else 1) * (n : Int) := by
  obtain rfl | hx := Nat.eq_zero_or_pos x
  · rw [hn rfl]
    cases neg <;> simp [signedNum]
  · have hpos : (0 : ℚ) < x * 2 ^ e := by positivity
    rw [toRat_fin]
    cases neg
    · simp [signedNum, hpos.le]
    · simp [signedNum, hpos]

/-- The digits of a finite fp32 value are those of its magnitude in units of 2^−149, each with its sign (R77). -/
theorem fxdDigit_spec {v : Nat} (hnan : (decodeF .fp32 v).isNan = false) (hinf : (decodeF .fp32 v).isInf = false) :
    let x := decodeF .fp32 v
    ∃ N : Nat, (N : ℚ) = |x.toRat| * 2 ^ 149
      ∧ (∀ j, fxdDigit x j = (if x.toRat < 0 then -1 else 1) * ((N / 2 ^ (31 * j) % 2 ^ 31 : Nat) : Int))
      ∧ x.toRat = ((List.range 9).map fun j => (fxdDigit x j : ℚ) * 2 ^ (31 * (j : Int) - 149)).sum := by
  obtain ⟨neg, num, e, hx, hunits, hlt⟩ := decodeF_fp32_units hnan hinf
  rw [hx]
  intro x
  have hmag : |x.toRat| = num * 2 ^ e := by rw [abs_toRat_fin, Nat.cast_one, div_one]
  have hdigit (j : Nat) : fxdDigit x j
      = (if x.toRat < 0 then -1 else 1) * ((num * 2 ^ (e + 149).toNat / 2 ^ (31 * j) % 2 ^ 31 : Nat) : Int) := by
    rw [fxdDigit_fin]
    exact signedNum_eq_ite neg fun h0 => by rw [h0, Nat.zero_mul, Nat.zero_div, Nat.zero_mod]
  refine ⟨num * 2 ^ (e + 149).toNat, by rw [hmag, hunits], hdigit, ?_⟩
  have hterm (j : Nat) : (fxdDigit x j : ℚ) * 2 ^ (31 * (j : Int) - 149) = ((if x.toRat < 0 then -1 else 1) * 2 ^ (-149 : Int))
      * (((num * 2 ^ (e + 149).toNat / 2 ^ (31 * j) % 2 ^ 31 : Nat) : ℚ) * 2 ^ (31 * j)) := by
    have hpow : (2 : ℚ) ^ (31 * (j : Int)) = 2 ^ (31 * j) := by exact_mod_cast zpow_natCast (2 : ℚ) (31 * j)
    rw [hdigit, sub_eq_add_neg, zpow_add₀ two_ne_zero, hpow, Int.cast_mul, Int.cast_natCast, Int.cast_ite, Int.cast_neg, Int.cast_one]
    ring
  simp only [hterm, List.sum_map_mul_left]
  rw [sum_digits, Nat.mod_eq_of_lt hlt, hunits, ← hmag]
  have hunit : (2 : ℚ) ^ (-149 : Int) * 2 ^ 149 = 1 := by norm_num
  split
  case isTrue hneg => rw [abs_of_neg hneg]; linear_combination -x.toRat * hunit
  case isFalse hpos => rw [abs_of_nonneg (not_lt.1 hpos)]; linear_combination -x.toRat * hunit

end Sys2Proof.Machine

namespace Sys2Proof
open Machine

/-- Settles O30: each conversion lane by lane; the block by its largest magnitude, and the digits by the units of 2^−149. -/
theorem vectorConversionsAndPacking : Obligations.VectorConversionsAndPacking := by
  refine ⟨fun s f d a dt st rm sat part => ?vcvt, fun s f d a b kind sat h => vpack_result h kind sat,
    fun s f d a kind hi h => vunpack_result h kind hi, fun s f d a e n h => ?vquant,
    fun s f d a j m h => vfxd_result h j m, fun l e hlen hden => ⟨?special, ?zeros, ?block⟩,
    fun v _ hnan hinf => fxdDigit_spec hnan hinf⟩
  case vcvt =>
    intro ws wd n k0 r h hfit
    exact vcvt_result h rm sat rfl (by cases part <;> rfl) hfit
  case vquant =>
    intro x b w least tiny
    have htiny : tiny = s.quantTiny f a e := by funext j; cases e <;> rfl
    refine ⟨fun hfit => ?_, vquantScale_result h n⟩
    obtain ⟨v, hexec, hlanes⟩ := vquant_result h n hfit
    rw [htiny]
    exact ⟨v, hexec, fun j hels hj => (hlanes j hj).trans (quantEl_mod hels)⟩
  case special =>
    intro hnot
    rw [encodeBlock_of_special e (Bool.of_not_eq_false (mt any_special_eq_false_iff.1 hnot)), hlen]
    exact ⟨rfl, rfl, rfl, rfl⟩
  case zeros =>
    intro hfinite hzero
    have hfin (x : Val) (hx : x ∈ l) : x.IsFin := isFin_of_not_special (hfinite x hx) (hden x hx)
    have hne : l ≠ [] := by rintro rfl; cases hlen
    rw [encodeBlock_of_zero e (any_special_eq_false_iff.2 hfinite) (maxMag_isZero_of_zeros hne hfin hzero), hlen]
    exact ⟨rfl, rfl, rfl, rfl⟩
  case block =>
    intro hfinite m j hmem hge hlo hhi
    have hfin (x : Val) (hx : x ∈ l) : x.IsFin := isFin_of_not_special (hfinite x hx) (hden x hx)
    have hany := any_special_eq_false_iff.2 hfinite
    have hzero := maxMag_not_isZero hfin hmem hge hlo
    intro k
    have hk : k = blockExp l e := by
      rw [blockExp_eq hfin hmem hge hlo hhi]
      cases e <;> rfl
    rw [hk]
    obtain ⟨hscale, hnan⟩ := encodeBlock_scale hany hzero
    refine ⟨hscale, hnan, (encodeBlock_length l e).trans hlen, fun he => encodeBlock_float he hany hzero, ?_⟩
    rintro rfl
    exact encodeBlock_i4 hfin hany hzero

end Sys2Proof
end

section
/-! O33, O34, O36: fields of joined elements, of registers and of words in which a field was replaced. -/

namespace Sys2Proof.Machine

theorem idx_val {n : Nat} [NeZero n] (k : Fin n) : idx n k.val = k := Fin.ofNat_val_eq_self k

theorem idx_of_val_eq {n : Nat} [NeZero n] {k : Fin n} {x : Nat} (h : k.val = x) : idx n x = k := h ▸ idx_val k

/-! Fields -/

theorem testBit_fieldOf {m : Nat} (v : BitVec m) (lo n k : Nat) :
    (fieldOf v lo n).testBit k = (decide (k < n) && v.getLsbD (lo + k)) := testBit_field _ _ _ _

theorem fieldOf_lt {m : Nat} (v : BitVec m) (lo n : Nat) : fieldOf v lo n < 2 ^ n := field_lt _ _ _

/-- A word holds every field that ends within it. -/
theorem field_ofNat {m lo n : Nat} (h : lo + n ≤ m) (v : Nat) : field (BitVec.ofNat m v).toNat lo n = field v lo n := by
  refine Nat.eq_of_testBit_eq fun k => ?_
  rw [testBit_field, testBit_field, BitVec.toNat_ofNat, Nat.testBit_mod_two_pow]
  by_cases hk : k < n
  · simp [show lo + k < m by omega]
  · simp [hk]

theorem field_setWidth {a b : Nat} (h : a ≤ b) (v : BitVec a) (lo n : Nat) : field (v.setWidth b).toNat lo n = field v.toNat lo n := by
  rw [BitVec.toNat_setWidth_of_le h]

theorem extractLsb'_eq_ofNat_fieldOf {m : Nat} (v : BitVec m) (lo n : Nat) : v.extractLsb' lo n = BitVec.ofNat n (fieldOf v lo n) := by
  refine BitVec.eq_of_toNat_eq ?_
  rw [BitVec.extractLsb'_toNat, BitVec.toNat_ofNat, Nat.mod_eq_of_lt (fieldOf_lt _ _ _), Nat.shiftRight_eq_div_pow]
  rfl

theorem fieldOf_putField_same {m lo n : Nat} (h : lo + n ≤ m) (v : BitVec m) (x : Nat) : fieldOf (putField v lo n x) lo n = x % 2 ^ n := by
  refine Nat.eq_of_testBit_eq fun k => ?_
  rw [testBit_fieldOf, Nat.testBit_mod_two_pow]
  by_cases hk : k < n
  · rw [getLsbD_putField _ _ _ _ (by omega), if_pos (by omega), Nat.add_sub_cancel_left]
  · simp [hk]

theorem fieldOf_putField_of_disjoint {m lo n lo' n' : Nat} (h : lo' + n' ≤ m) (hd : lo + n ≤ lo' ∨ lo' + n' ≤ lo) (v : BitVec m) (x : Nat) :
    fieldOf (putField v lo n x) lo' n' = fieldOf v lo' n' := by
  refine Nat.eq_of_testBit_eq fun k => ?_
  rw [testBit_fieldOf, testBit_fieldOf]
  by_cases hk : k < n'
  · rw [getLsbD_putField _ _ _ _ (by omega), if_neg (by omega)]
  · simp [hk]

/-! Elements side by side -/

theorem foldr_eq_joinLanes (w : Nat) (l : List Nat) : l.foldr (fun x acc => x % 2 ^ w + 2 ^ w * acc) 0 = joinLanes w l := by
  induction l with
  | nil => rfl
  | cons x r ih => rw [List.foldr_cons, ih, joinLanes]

/-- Beyond the last element there are zeros. -/
theorem joinLanes_field_getD (w : Nat) (l : List Nat) (j : Nat) : field (joinLanes w l) (w * j) w = l.getD j 0 % 2 ^ w := by
  by_cases hj : j < l.length
  · rw [joinLanes_field w l j hj, List.getD_eq_getElem _ _ hj]
  · have hlt : joinLanes w l < 2 ^ (w * j) :=
      (joinLanes_lt w l).trans_le (Nat.pow_le_pow_right two_pos (Nat.mul_le_mul_left w (not_lt.1 hj)))
    rw [List.getD_eq_default _ _ (not_lt.1 hj), field, Nat.div_eq_of_lt hlt]

theorem field_ofNat_joinLanes {m w j : Nat} (h : w * (j + 1) ≤ m) (l : List Nat) :
    field (BitVec.ofNat m (joinLanes w l)).toNat (w * j) w = l.getD j 0 % 2 ^ w := by
  rw [field_ofNat (by rwa [Nat.mul_succ] at h), joinLanes_field_getD]

theorem getD_map_range {α : Type} {n j : Nat} (h : j < n) (f : Nat → α) (d : α) : ((List.range n).map f).getD j d = f j := by
  simp [List.getD_eq_getElem?_getD, h]

end Sys2Proof.Machine
end

section
/-! O33: the operation that each tile load, tile store or clear puts on the tile path. -/

namespace Sys2Proof.Machine

theorem codeBits_mul_le_of_le_codeCap {c n : Nat} (h : n ≤ codeCap c) : codeBits c * n ≤ 512 :=
  (Nat.mul_le_mul_left _ h).trans (Nat.mul_div_le 512 (codeBits c))

theorem geomTag_lt (g : W32) : geomTag g < 16 := fieldOf_lt g 16 4

theorem toNat_ofNat_geomTag (g : W32) : (BitVec.ofNat 4 (geomTag g)).toNat = geomTag g := by
  rw [BitVec.toNat_ofNat, Nat.mod_eq_of_lt (geomTag_lt g)]

section
variable (s : State) (t : Fin 8) (bank : Fin 16) (off : BitVec 16)

theorem State.pathOp_tgeom (kind : PathKind) (cnt : Nat) (o : Nat) : (s.pathOp kind cnt bank o t.val).tgeom = s.tile.sr.tgeom[t] := by
  simp only [State.pathOp, idx_val]

/-! Loads -/

/-- Accesses of a load: its rows, or for `mldt` its columns times the accesses of a source row (R202, R203). -/
def loadCnt (kind : PathKind) (g : W32) (src : Nat) : Nat :=
  if kind = .mldt then geomCols g * ((lineBytes src (geomRows g) + 127) / 128) else geomRows g

/-- The operation of a `mld` or `mldt` that finds tag and source format (R202, R203). -/
def State.loadOp (kind : PathKind) (raw : Option (BitVec 4)) (tag src : Nat) : PathOp :=
  { s.pathOp kind (loadCnt kind s.tile.sr.tgeom[t] src) bank off.toNat t.val with
    raw := raw.isSome, tag := BitVec.ofNat 4 tag, src := BitVec.ofNat 4 src }

variable {s t bank off}

theorem tileLoad_next {kind : PathKind} (hkind : kind = .mld ∨ kind = .mldt) {raw : Option (BitVec 4)} {tag src : Nat}
    (hfmt : loadFmt raw (bfmtFmt (s.sampleBfmt bank)) (kind == .mldt) = some (tag, src))
    (hcols : geomCols s.tile.sr.tgeom[t] ≤ codeCap tag) (hfree : pathBusy s.tile.tpath s.psc = false)
    (halign : (s.loadOp t bank off kind raw tag src).aligned (codeBlock (bfmtFmt (s.sampleBfmt bank)) && raw.isNone))
    (hok : s.pathOk (s.loadOp t bank off kind raw tag src) (areaEnd (codeBlock (bfmtFmt (s.sampleBfmt bank)) && raw.isNone))) :
    s.tileLoad kind t bank off raw = .next (s.onTpath (s.loadOp t bank off kind raw tag src)) := by
  have hattempt : s.tileLoad kind t bank off raw
      = s.attempt ([s.chkTpath, chkOp false 0x0c, chkOp (decide (codeCap tag < geomCols s.tile.sr.tgeom[t])) 0x0c,
          chkPathAlign (s.loadOp t bank off kind raw tag src) (codeBlock (bfmtFmt (s.sampleBfmt bank)) && raw.isNone)]
        ++ s.chkPath (s.loadOp t bank off kind raw tag src) (areaEnd (codeBlock (bfmtFmt (s.sampleBfmt bank)) && raw.isNone)))
        fun u => u.onTpath (s.loadOp t bank off kind raw tag src) := by
    obtain rfl | rfl := hkind <;> (unfold State.tileLoad; simp only [hfmt]; rfl)
  rw [hattempt]
  refine attempt_path s _ _ _ _ (fun c hc => ?_) hok
  simp only [List.mem_cons, List.not_mem_nil, or_false] at hc
  obtain rfl | rfl | rfl | rfl := hc
  · exact hfree
  · rfl
  · exact decide_eq_false (not_lt.2 hcols)
  · exact chkPathAlign_ok _ _ halign

theorem execMlds_next (hfree : pathBusy s.tile.tpath s.psc = false) (halign : (s.pathOp .mlds 2 bank off.toNat t.val).aligned false)
    (hok : s.pathOk (s.pathOp .mlds 2 bank off.toNat t.val) 0x10000) :
    execMlds t bank off s = .next (s.onTpath (s.pathOp .mlds 2 bank off.toNat t.val)) := by
  have hattempt : execMlds t bank off s = s.attempt ([s.chkTpath, chkPathAlign (s.pathOp .mlds 2 bank off.toNat t.val) false]
      ++ s.chkPath (s.pathOp .mlds 2 bank off.toNat t.val) 0x10000) fun u => u.onTpath (s.pathOp .mlds 2 bank off.toNat t.val) := rfl
  rw [hattempt]
  refine attempt_path s _ _ _ _ (fun c hc => ?_) hok
  simp only [List.mem_cons, List.not_mem_nil, or_false] at hc
  obtain rfl | rfl := hc
  · exact hfree
  · exact chkPathAlign_ok _ _ halign

/-! The store -/

/-- A store copies the bytes of its lines: RAW, or a side without a format (R205). -/
def storeCopies (raw : Bool) (fmt tag : Nat) : Bool := raw || fmt == 0 || tag == 0

/-- The format in which a store writes its elements (R205). -/
def storeTag (raw : Bool) (fmt tag : Nat) : Nat := if !storeCopies raw fmt tag && tag == 9 && fmt == 0xA then 0xA else tag

/-- The tag and the bank's format are neither equal nor converted (R205). -/
def storeMisfit (raw : Bool) (fmt tag : Nat) : Bool := !storeCopies raw fmt tag && tag != fmt && !(tag == 9 && fmt == 0xA)

theorem storeMisfit_eq_false {raw : Bool} {fmt tag : Nat} (h : raw = true ∨ fmt = 0 ∨ tag = 0 ∨ tag = fmt ∨ (tag = 9 ∧ fmt = 0xA)) :
    storeMisfit raw fmt tag = false := by
  obtain rfl | rfl | rfl | rfl | ⟨rfl, rfl⟩ := h <;> simp [storeMisfit, storeCopies]

theorem storeCopies_iff {raw : Bool} {fmt tag : Nat} : storeCopies raw fmt tag = true ↔ raw = true ∨ fmt = 0 ∨ tag = 0 := by
  simp [storeCopies, or_assoc]

theorem storeTag_eq (raw : Bool) (fmt tag : Nat) : storeTag raw fmt tag = if tag = 9 ∧ fmt = 0xA ∧ raw = false then 0xA else tag := by
  by_cases h : tag = 9 ∧ fmt = 0xA
  · obtain ⟨rfl, rfl⟩ := h
    cases raw <;> rfl
  · have hold : ¬ (tag = 9 ∧ fmt = 0xA ∧ raw = false) := fun hc => h ⟨hc.1, hc.2.1⟩
    rw [storeTag, if_neg hold, if_neg]
    simp only [Bool.and_eq_true, beq_iff_eq, not_and]
    exact fun ht hf => h ⟨ht.2, hf⟩

theorem storeTag_lt {raw : Bool} {fmt : Nat} (g : W32) : storeTag raw fmt (geomTag g) < 16 := by
  rw [storeTag]
  split
  · decide
  · exact geomTag_lt g

/-- The elements of a line fit in an access: a bf16 line that is stored as fp32 doubles. -/
theorem codeBits_storeTag_mul_le {raw : Bool} {fmt tag n : Nat} (h : n ≤ codeCap tag) : codeBits (storeTag raw fmt tag) * n ≤ 1024 := by
  have hline := codeBits_mul_le_of_le_codeCap h
  rw [storeTag_eq]
  split
  case isTrue hconv =>
    obtain ⟨rfl, -, -⟩ := hconv
    rw [show codeBits 9 = 16 from rfl] at hline
    rw [show codeBits 0xA = 32 from rfl]
    omega
  case isFalse => omega

variable (s t bank off)

/-- The operation of `mst`, with the register's lines and scale words as they stand (R205). -/
def State.mstOp (raw : Bool) : PathOp :=
  let fmt := bfmtFmt (s.sampleBfmt bank)
  let tag := geomTag s.tile.sr.tgeom[t]
  { s.pathOp .mst (geomRows s.tile.sr.tgeom[t]) bank off.toNat t.val with
    raw := storeCopies raw fmt tag, tag := BitVec.ofNat 4 (storeTag raw fmt tag), src := BitVec.ofNat 4 tag
    drop := s.tile.r.tPoison.getLsbD t.val
    lines := s.tile.r.t[t].rows.toList.map fun x => x.setWidth 1024
    scales := (List.range 64).map fun m => BitVec.ofNat 32 (fieldOf s.tile.r.t[t].scale (32 * m) 32) }

variable {s t bank off}

theorem execMst_next {raw : Bool} (hfree : pathBusy s.tile.tpath s.psc = false)
    (hcols : geomCols s.tile.sr.tgeom[t] ≤ codeCap (geomTag s.tile.sr.tgeom[t]))
    (hfmt : raw = true ∨ bfmtFmt (s.sampleBfmt bank) = 0 ∨ geomTag s.tile.sr.tgeom[t] = 0
      ∨ geomTag s.tile.sr.tgeom[t] = bfmtFmt (s.sampleBfmt bank) ∨ (geomTag s.tile.sr.tgeom[t] = 9 ∧ bfmtFmt (s.sampleBfmt bank) = 0xA))
    (halign : (s.mstOp t bank off raw).aligned (codeBlock (bfmtFmt (s.sampleBfmt bank))))
    (hok : s.pathOk (s.mstOp t bank off raw) (areaEnd (codeBlock (bfmtFmt (s.sampleBfmt bank)) && !raw))) :
    execMst t bank off raw s = .next ((s.onTpath (s.mstOp t bank off raw)).dropIf (s.tile.r.tPoison.getLsbD t.val)) := by
  have hattempt : execMst t bank off raw s = s.attempt ([s.chkTpath,
        chkOp (storeMisfit raw (bfmtFmt (s.sampleBfmt bank)) (geomTag s.tile.sr.tgeom[t])) 0x0c,
        chkOp (decide (codeCap (geomTag s.tile.sr.tgeom[t]) < geomCols s.tile.sr.tgeom[t])) 0x0c,
        chkPathAlign (s.mstOp t bank off raw) (codeBlock (bfmtFmt (s.sampleBfmt bank)))]
      ++ s.chkPath (s.mstOp t bank off raw) (areaEnd (codeBlock (bfmtFmt (s.sampleBfmt bank)) && !raw)))
      fun u => (u.onTpath (s.mstOp t bank off raw)).dropIf (s.tile.r.tPoison.getLsbD t.val) := rfl
  rw [hattempt]
  refine attempt_path s _ _ _ _ (fun c hc => ?_) hok
  simp only [List.mem_cons, List.not_mem_nil, or_false] at hc
  obtain rfl | rfl | rfl | rfl := hc
  · exact hfree
  · exact storeMisfit_eq_false hfmt
  · exact decide_eq_false (not_lt.2 hcols)
  · exact chkPathAlign_ok _ _ halign

theorem PathOp.out_of_raw {o : PathOp} (h : o.raw = true) (m : Nat) : o.out m = o.lines.getD m 0#1024 := by
  simp [PathOp.out, h]

/-- Element j of what a converting store writes. -/
theorem PathOp.field_out {o : PathOp} (hkind : o.kind = .mst) (hraw : o.raw = false) (m : Nat) {j : Nat} (hj : j < geomCols o.tgeom)
    (hw : codeBits o.tag.toNat * (j + 1) ≤ 1024) :
    field (o.out m).toNat (codeBits o.tag.toNat * j) (codeBits o.tag.toNat)
      = tileConv o.src.toNat o.tag.toNat (field (o.lines.getD m 0#1024).toNat (codeBits o.src.toNat * j) (codeBits o.src.toNat))
        % 2 ^ codeBits o.tag.toNat := by
  have hjoin := foldr_eq_joinLanes (codeBits o.tag.toNat) ((List.range (geomCols o.tgeom)).map fun j =>
    tileConv o.src.toNat o.tag.toNat (field (o.lines.getD m 0#1024).toNat (codeBits o.src.toNat * j) (codeBits o.src.toNat)))
  rw [List.foldr_map] at hjoin
  simp only [PathOp.out, hkind, hraw, beq_self_eq_true, Bool.not_false, Bool.and_self, if_true]
  rw [hjoin, field_ofNat_joinLanes hw, getD_map_range hj]

theorem mstOp_lines (raw : Bool) (m : Fin 64) :
    (s.mstOp t bank off raw).lines.getD m.val 0#1024 = (s.tile.r.t[t].rows[m]).setWidth 1024 := by
  simp [State.mstOp, List.getD_eq_getElem?_getD]

theorem mstOp_scales (raw : Bool) (m : Fin 64) :
    (s.mstOp t bank off raw).scales.getD m.val 0#32 = (s.tile.r.t[t].scale).extractLsb' (32 * m.val) 32 := by
  rw [extractLsb'_eq_ofNat_fieldOf]
  exact getD_map_range m.isLt (fun m => BitVec.ofNat 32 (fieldOf s.tile.r.t[t].scale (32 * m) 32)) _

theorem mstOp_out_of_raw {raw : Bool} (h : (s.mstOp t bank off raw).raw = true) (m : Fin 64) :
    ((s.mstOp t bank off raw).out m.val).setWidth 512 = s.tile.r.t[t].rows[m] := by
  rw [PathOp.out_of_raw h, mstOp_lines, BitVec.setWidth_setWidth_of_le _ (by decide), BitVec.setWidth_eq]

theorem mstOp_out_field {raw : Bool} (h : (s.mstOp t bank off raw).raw = false) (m : Fin 64) {dst : Nat}
    (hdst : dst = storeTag raw (bfmtFmt (s.sampleBfmt bank)) (geomTag s.tile.sr.tgeom[t]))
    (hcols : geomCols s.tile.sr.tgeom[t] ≤ codeCap (geomTag s.tile.sr.tgeom[t])) {j : Nat} (hj : j < geomCols s.tile.sr.tgeom[t]) :
    field ((s.mstOp t bank off raw).out m.val).toNat (codeBits dst * j) (codeBits dst)
      = tileConv (geomTag s.tile.sr.tgeom[t]) dst (lineEl (geomTag s.tile.sr.tgeom[t]) (s.tile.r.t[t].rows[m]) j) % 2 ^ codeBits dst := by
  have hgeom : (s.mstOp t bank off raw).tgeom = s.tile.sr.tgeom[t] := s.pathOp_tgeom t bank .mst (geomRows s.tile.sr.tgeom[t]) off.toNat
  have htag : (s.mstOp t bank off raw).tag.toNat = dst := by
    rw [hdst]
    exact (BitVec.toNat_ofNat _ _).trans (Nat.mod_eq_of_lt (storeTag_lt _))
  have hsrc : (s.mstOp t bank off raw).src.toNat = geomTag s.tile.sr.tgeom[t] := toNat_ofNat_geomTag _
  have hw : codeBits dst * (j + 1) ≤ 1024 :=
    (Nat.mul_le_mul_left _ hj).trans (hdst ▸ codeBits_storeTag_mul_le hcols)
  have hfield := PathOp.field_out (o := s.mstOp t bank off raw) rfl h m.val (hgeom ▸ hj) (htag ▸ hw)
  rwa [htag, hsrc, mstOp_lines, field_setWidth (by decide)] at hfield

/-! The clear -/

/-- The operation of `mzero`, which holds both masks (R206). -/
def State.mzeroOp (s : State) (ts : BitVec 8) (zs : BitVec 4) : PathOp :=
  { s.pathOp .mzero 0 0 0 0 with reg := ts.toNat + 256 * zs.toNat }

theorem bit_eq_testBit (x k : Nat) : bit x k = x.testBit k := by
  rw [Nat.testBit_eq_decide_div_mod_eq]
  rfl

theorem mem_mzeroOp_targets (ts : BitVec 8) (zs : BitVec 4) (k : Nat) : k ∈ (s.mzeroOp ts zs).targets
    ↔ (k < 8 ∧ ts.getLsbD k = true) ∨ (8 ≤ k ∧ k < 12 ∧ zs.getLsbD (k - 8) = true) := by
  have hbit : bit (ts.toNat + 256 * zs.toNat) k = if k < 8 then ts.getLsbD k else zs.getLsbD (k - 8) := by
    rw [bit_eq_testBit, Nat.add_comm, show 256 = 2 ^ 8 from rfl, Nat.testBit_two_pow_mul_add _ ts.isLt]
    rfl
  change k ∈ (List.range 12).filter (fun k => bit (ts.toNat + 256 * zs.toNat) k) ↔ _
  rw [List.mem_filter, List.mem_range, hbit]
  by_cases hk : k < 8
  · simp only [hk, if_true]
    grind
  · simp only [hk, if_false]
    grind

end

end Sys2Proof.Machine

namespace Sys2Proof
open Machine

/-- Settles O33: each operation as its definition gives it, its checks passed by the hypotheses, and what a store is to write by the
fields of its line. -/
theorem tilePathOperationsIssue : Obligations.TilePathOperationsIssue := by
  intro s t bank off g fmt puts same
  have hsame (kind : PathKind) (cnt : Nat) : same (s.pathOp kind cnt bank off.toNat t.val) kind :=
    ⟨rfl, rfl, rfl, rfl, rfl, rfl, s.pathOp_tgeom t bank kind cnt _⟩
  refine ⟨fun raw tag src hfmt hcols hfree => ?_, fun raw tag src hfmt hcols hfree => ?_, fun hfree => ?_, fun raw hfree hcols hfmt => ?_,
    fun ts zs => ?_⟩
  · exact ⟨s.loadOp t bank off .mld raw tag src, hsame .mld (loadCnt .mld g src), rfl, rfl, rfl, rfl, fun halign hok =>
      ⟨_, tileLoad_next (.inl rfl) hfmt hcols hfree halign hok, rfl⟩⟩
  · exact ⟨s.loadOp t bank off .mldt raw tag src, hsame .mldt (loadCnt .mldt g src), rfl, rfl, rfl, rfl, fun halign hok =>
      ⟨_, tileLoad_next (.inr rfl) hfmt hcols hfree halign hok, rfl⟩⟩
  · exact ⟨_, hsame .mlds 2, rfl, fun halign hok => ⟨_, execMlds_next hfree halign hok, rfl⟩⟩
  · refine ⟨s.mstOp t bank off raw, _, hsame .mst (geomRows g), rfl, rfl, storeTag_eq raw fmt (geomTag g), rfl, storeCopies_iff, fun m => ?_,
      fun halign hok => execMst_next hfree hcols hfmt halign hok⟩
    exact ⟨mstOp_lines raw m, mstOp_scales raw m, fun h => mstOp_out_of_raw h m, fun h j hj => mstOp_out_field h m rfl hcols hj⟩
  · exact ⟨s.mzeroOp ts zs, _, rfl, rfl, rfl, rfl, mem_mzeroOp_targets ts zs⟩

end Sys2Proof
end

section
/-! O36: the operation that each readout, raw save or restore and `zstat` leaves on its path, and what `zld` and `zclr` make of the zs
registers. -/

namespace Sys2Proof.Machine

/-! Words in vectors and lists -/

theorem getElem_set_fin {α : Type} {n : Nat} (v : Vector α n) (i j : Fin n) (x : α) :
    (v.set i x)[j] = if j = i then x else v[j] := by
  simp only [Fin.getElem_fin, Vector.getElem_set, Fin.ext_iff, eq_comm]

theorem foldl_keeps {α β γ : Type} {view : α → β} {f : α → γ → α} {l : List γ} (hf : ∀ x ∈ l, ∀ t, view (f t x) = view t) (t : α) :
    view (l.foldl f t) = view t := by
  induction l generalizing t with
  | nil => rfl
  | cons x l ih =>
    obtain ⟨hx, hl⟩ := List.forall_mem_cons.1 hf
    exact (ih hl (f t x)).trans (hx t)

/-- Elements within the width are joined as they are. -/
theorem foldr_eq_joinLanes_of_lt {w : Nat} {l : List Nat} (h : ∀ x ∈ l, x < 2 ^ w) :
    l.foldr (fun x acc => x + 2 ^ w * acc) 0 = joinLanes w l := by
  induction l with
  | nil => rfl
  | cons x r ih =>
    obtain ⟨hx, hr⟩ := List.forall_mem_cons.1 h
    rw [List.foldr_cons, ih hr, joinLanes, Nat.mod_eq_of_lt hx]

theorem getElem?_flatMap_pair {α β : Type} (g h : α → β) (l : List α) (i : Nat) :
    (l.flatMap fun x => [g x, h x])[2 * i]? = l[i]?.map g ∧ (l.flatMap fun x => [g x, h x])[2 * i + 1]? = l[i]?.map h := by
  induction l generalizing i with
  | nil => simp
  | cons x l ih =>
    cases i with
    | zero => simp
    | succ i => simpa [Nat.mul_succ] using ih i

@[simp] theorem State.onTile_tile (s : State) (f : Tile → Tile) : (s.onTile f).tile = f s.tile :=
  Dev.onTile_tiles_same _ _ _

/-! The lines of a readout -/

theorem codeBits_cases (c : Nat) : codeBits c = 32 ∨ codeBits c * 64 ≤ 1024 := by
  unfold codeBits
  split <;> decide

/-- The 128-byte units of a readout's rows: one for a row, or two where an element takes 32 bits (R214). -/
def readoutUnits (w : Nat) (rows : List (List Nat × W32 × Flags)) : List VReg :=
  if w == 32 then rows.flatMap fun r => [ofLanes w (r.1.take 32), ofLanes w (r.1.drop 32)] else rows.map fun r => ofLanes w r.1

/-- Elements in a unit of a readout. -/
def unitLen (w : Nat) : Nat := if w = 32 then 32 else 64

theorem field_ofLanes {w j : Nat} (h : w * (j + 1) ≤ 1024) (l : List Nat) : field (ofLanes w l).toNat (w * j) w = l.getD j 0 % 2 ^ w :=
  field_ofNat_joinLanes h l

/-- Element j of row i stands in the unit and at the place that the format gives it. -/
theorem field_readoutUnits {w : Nat} (hw : w = 32 ∨ w * 64 ≤ 1024) (row : Nat → List Nat × W32 × Flags) {i j : Nat} (hi : i < 64)
    (hj : j < 64) : field ((readoutUnits w ((List.range 64).map row)).getD (i * (64 / unitLen w) + j / unitLen w) 0#1024).toNat
        (w * (j % unitLen w)) w = (row i).1.getD j 0 % 2 ^ w := by
  by_cases h32 : w = 32
  · subst h32
    have hpair := getElem?_flatMap_pair (fun r : List Nat × W32 × Flags => ofLanes 32 (r.1.take 32)) (fun r => ofLanes 32 (r.1.drop 32))
      ((List.range 64).map row) i
    have hrow : ((List.range 64).map row)[i]? = some (row i) := by simp [hi]
    rw [hrow] at hpair
    obtain ⟨hlow, hhigh⟩ := hpair
    have hunit : (readoutUnits 32 ((List.range 64).map row)).getD (i * 2 + j / 32) 0#1024
        = if j < 32 then ofLanes 32 ((row i).1.take 32) else ofLanes 32 ((row i).1.drop 32) := by
      rw [List.getD_eq_getElem?_getD, Nat.mul_comm]
      by_cases hlt : j < 32
      · rw [if_pos hlt, Nat.div_eq_of_lt hlt]
        exact congrArg (Option.getD · _) hlow
      · rw [if_neg hlt, show j / 32 = 1 by omega]
        exact congrArg (Option.getD · _) hhigh
    change field ((readoutUnits 32 ((List.range 64).map row)).getD (i * 2 + j / 32) 0#1024).toNat (32 * (j % 32)) 32 = _
    rw [hunit]
    by_cases hlt : j < 32
    · rw [if_pos hlt, Nat.mod_eq_of_lt hlt, field_ofLanes (by omega)]
      simp [List.getD_eq_getElem?_getD, hlt]
    · rw [if_neg hlt, field_ofLanes (by omega)]
      simp [List.getD_eq_getElem?_getD, List.getElem?_drop, show 32 + j % 32 = j by omega]
  · have hwide : w * (j + 1) ≤ 1024 := (Nat.mul_le_mul_left w hj).trans (hw.resolve_left h32)
    rw [readoutUnits, if_neg (by simpa using h32), unitLen, if_neg h32, List.map_map, Nat.div_self (by decide), Nat.mul_one,
      Nat.div_eq_of_lt hj, Nat.add_zero, Nat.mod_eq_of_lt hj, getD_map_range hi]
    exact field_ofLanes hwide _

/-- The OR of the flags of a readout's rows. -/
def rowsFlags (rows : List (List Nat × W32 × Flags)) : Flags := rows.foldl (fun a r => a ||| r.2.2) 0#6

theorem rowsFlags_map (row : Nat → List Nat × W32 × Flags) :
    rowsFlags ((List.range 64).map row) = (List.range 64).foldl (fun a i => a ||| (row i).2.2) 0#6 := List.foldl_map

/-! The readouts -/

section
variable (s : State) (z : Fin 4) (zo : Option (Fin 4)) (tt : Option (Fin 8)) (bank : Fin 16) (off : BitVec 16) (st : Steps) (rm : RMode)

/-- The checks of R213 pass. -/
theorem chkReadout_ok {s : State} {z : Fin 4} {zo : Option (Fin 4)} (hfree : pathBusy s.tile.apath s.psc = false)
    (htyped : zsType s.tile.sr.zs[z] ≠ 0) (hout : ∀ o, zo = some o → zsType s.tile.sr.zs[o] = 2) :
    ∀ c ∈ s.chkReadout z zo, c.bad = false := by
  intro c hc
  simp only [State.chkReadout, List.mem_cons, List.not_mem_nil, or_false] at hc
  obtain rfl | rfl | rfl := hc
  · exact hfree
  · exact beq_eq_false_iff_ne.2 htyped
  · cases zo with
    | none => rfl
    | some o => simpa [chkOp] using hout o rfl

/-- Row i of what a `zout` writes. -/
def State.zoutRow (sat : Bool) (i : Nat) : List Nat × W32 × Flags :=
  (s.readout z zo tt st).row (bfmtFmt (s.sampleBfmt bank)) rm sat i 0 64

/-- What a `zout` sets of its operation before it reads the accumulator. -/
def State.zoutHead : PathOp :=
  { s.pathOp .zout (if codeBits (bfmtFmt (s.sampleBfmt bank)) == 32 then 128 else 64) bank off.toNat z.val with
    tag := BitVec.ofNat 4 (bfmtFmt (s.sampleBfmt bank)), drop := s.readoutPoison z zo tt st, zo := zo }

/-- The operation of a `zout`, with its rows and flags for both values of ZCTL.SAT (log entry 72). -/
def State.zoutOp (sat : Bool) : PathOp :=
  let w := codeBits (bfmtFmt (s.sampleBfmt bank))
  let rows := fun sat => (List.range 64).map (s.zoutRow z zo tt bank st rm sat)
  { s.zoutHead z zo tt bank off st with
    lines := readoutUnits w (rows sat), satLines := readoutUnits w (rows true), scales := (rows sat).map fun r => r.2.1
    zflags := rowsFlags (rows sat), satFlags := rowsFlags (rows true) }

variable {s z zo tt bank off st rm}

theorem execZout_next {sat : Bool} (hfree : pathBusy s.tile.apath s.psc = false) (htyped : zsType s.tile.sr.zs[z] ≠ 0)
    (hout : ∀ o, zo = some o → zsType s.tile.sr.zs[o] = 2) (hfmt : bfmtFmt (s.sampleBfmt bank) ≠ 0)
    (halign : (s.zoutOp z zo tt bank off st rm sat).aligned (codeBlock (bfmtFmt (s.sampleBfmt bank))))
    (hok : s.pathOk (s.zoutOp z zo tt bank off st rm sat) (areaEnd (codeBlock (bfmtFmt (s.sampleBfmt bank))))) :
    execZout z zo tt bank off st rm sat s
      = .next ((s.onApath (s.zoutOp z zo tt bank off st rm sat)).dropIf (s.readoutPoison z zo tt st)) := by
  unfold execZout
  simp only [foldr_eq_joinLanes]
  refine (attempt_path s (s.zoutHead z zo tt bank off st) _ (s.chkReadout z zo ++ [chkOp (bfmtFmt (s.sampleBfmt bank) == 0) 0x0c,
    chkPathAlign (s.zoutHead z zo tt bank off st) (codeBlock (bfmtFmt (s.sampleBfmt bank)))]) _ (fun c hc => ?_) hok).trans rfl
  obtain hc | hc := List.mem_append.1 hc
  · exact chkReadout_ok hfree htyped hout c hc
  · simp only [List.mem_cons, List.not_mem_nil, or_false] at hc
    obtain rfl | rfl := hc
    · exact beq_eq_false_iff_ne.2 hfmt
    · exact chkPathAlign_ok _ _ halign

theorem zoutOp_cnt (sat : Bool) : (s.zoutOp z zo tt bank off st rm sat).cnt = 64 * (64 / unitLen (codeBits (bfmtFmt (s.sampleBfmt bank)))) := by
  change (if codeBits (bfmtFmt (s.sampleBfmt bank)) == 32 then 128 else 64) = _
  rw [unitLen]
  by_cases h : codeBits (bfmtFmt (s.sampleBfmt bank)) = 32 <;> simp [h]

theorem field_zoutOp_lines (sat b : Bool) {i j : Nat} (hi : i < 64) (hj : j < 64) :
    field ((if b then (s.zoutOp z zo tt bank off st rm sat).satLines else (s.zoutOp z zo tt bank off st rm sat).lines).getD
        (i * (64 / unitLen (codeBits (bfmtFmt (s.sampleBfmt bank)))) + j / unitLen (codeBits (bfmtFmt (s.sampleBfmt bank)))) 0#1024).toNat
        (codeBits (bfmtFmt (s.sampleBfmt bank)) * (j % unitLen (codeBits (bfmtFmt (s.sampleBfmt bank)))))
        (codeBits (bfmtFmt (s.sampleBfmt bank)))
      = (s.zoutRow z zo tt bank st rm (sat || b) i).1.getD j 0 % 2 ^ codeBits (bfmtFmt (s.sampleBfmt bank)) := by
  cases b
  · rw [Bool.or_false]
    exact field_readoutUnits (codeBits_cases _) _ hi hj
  · rw [Bool.or_true]
    exact field_readoutUnits (codeBits_cases _) _ hi hj

theorem zoutOp_flags (sat b : Bool) :
    (if b then (s.zoutOp z zo tt bank off st rm sat).satFlags else (s.zoutOp z zo tt bank off st rm sat).zflags)
      = (List.range 64).foldl (fun a i => a ||| (s.zoutRow z zo tt bank st rm (sat || b) i).2.2) 0#6 := by
  cases b
  · rw [Bool.or_false]
    exact rowsFlags_map _
  · rw [Bool.or_true]
    exact rowsFlags_map _

theorem zoutOp_scales (sat : Bool) {i : Nat} (hi : i < 64) :
    (s.zoutOp z zo tt bank off st rm sat).scales.getD i 0#32 = (s.zoutRow z zo tt bank st rm sat i).2.1 := by
  change (((List.range 64).map (s.zoutRow z zo tt bank st rm sat)).map fun r => r.2.1).getD i 0#32 = _
  rw [List.map_map, getD_map_range hi]
  rfl

/-! `zoutv` -/

/-- Columns of the half that a `zoutv` takes (R213). -/
def halfLen (fmt : VFmt) : Nat := if codeBits (vfmtCode fmt) = 16 then 32 else 64

theorem halfLen_eq (fmt : VFmt) : halfLen fmt = if fmt = .fp16 ∨ fmt = .bf16 then 32 else 64 := by cases fmt <;> rfl

theorem codeBits_vfmtCode_mul_halfLen (fmt : VFmt) : codeBits (vfmtCode fmt) * halfLen fmt ≤ 512 := by cases fmt <;> decide

theorem field_lineOf {c j : Nat} (h : codeBits c * (j + 1) ≤ 512) (l : List Nat) :
    field (lineOf c l).toNat (codeBits c * j) (codeBits c) = l.getD j 0 % 2 ^ codeBits c := by
  rw [lineOf, foldr_eq_joinLanes]
  exact field_ofNat_joinLanes h l

variable (s z zo tt st rm) (td : Fin 8) (hi : Bool) (fmt : VFmt)

/-- The lines of a `zoutv`, its half of each row (R213, R215). -/
def State.zoutvLines (sat : Bool) : List VReg :=
  (List.range 64).map fun i =>
    (lineOf (vfmtCode fmt) ((s.readout z zo tt st).row (vfmtCode fmt) rm sat i (b2n hi * 32) (halfLen fmt)).1).setWidth 1024

/-- The flags of a `zoutv`, those of every element of the accumulator (R213). -/
def State.zoutvFlags (sat : Bool) : Flags :=
  ((List.range 64).map fun i => ((s.readout z zo tt st).row (vfmtCode fmt) rm sat i 0 64).2.2).foldl (· ||| ·) (0#6 : Flags)

/-- The operation of a `zoutv`, with its lines and flags for both values of ZCTL.SAT (log entry 72). -/
def State.zoutvOp (sat : Bool) : PathOp :=
  { s.pathOp .zoutv 0 0 0 td.val with
    tag := BitVec.ofNat 4 (vfmtCode fmt), zo := zo, poison := s.readoutPoison z zo tt st, src := BitVec.ofNat 4 z.val
    lines := s.zoutvLines z zo tt st rm hi fmt sat, satLines := s.zoutvLines z zo tt st rm hi fmt true
    zflags := s.zoutvFlags z zo tt st rm fmt sat, satFlags := s.zoutvFlags z zo tt st rm fmt true }

variable {s z zo tt st rm td hi fmt}

theorem execZoutv_next {sat : Bool} (hfree : pathBusy s.tile.apath s.psc = false) (htyped : zsType s.tile.sr.zs[z] ≠ 0)
    (hout : ∀ o, zo = some o → zsType s.tile.sr.zs[o] = 2) :
    execZoutv z zo tt td hi st rm sat fmt s = .next (s.onApath (s.zoutvOp z zo tt st rm td hi fmt sat)) := by
  unfold execZoutv
  exact s.attempt_ok _ (chkReadout_ok hfree htyped hout)

theorem field_zoutvOp_lines (sat b : Bool) {i j : Nat} (hi' : i < 64) (hj : j < halfLen fmt) :
    field ((if b then (s.zoutvOp z zo tt st rm td hi fmt sat).satLines else (s.zoutvOp z zo tt st rm td hi fmt sat).lines).getD i 0#1024).toNat
        (codeBits (vfmtCode fmt) * j) (codeBits (vfmtCode fmt))
      = ((s.readout z zo tt st).row (vfmtCode fmt) rm (sat || b) i (if hi then 32 else 0) (halfLen fmt)).1.getD j 0
        % 2 ^ codeBits (vfmtCode fmt) := by
  have hwide : codeBits (vfmtCode fmt) * (j + 1) ≤ 512 := (Nat.mul_le_mul_left _ hj).trans (codeBits_vfmtCode_mul_halfLen fmt)
  have hhalf : b2n hi * 32 = if hi then 32 else 0 := by cases hi <;> rfl
  have hline (sat : Bool) : field ((s.zoutvLines z zo tt st rm hi fmt sat).getD i 0#1024).toNat (codeBits (vfmtCode fmt) * j)
      (codeBits (vfmtCode fmt)) = ((s.readout z zo tt st).row (vfmtCode fmt) rm sat i (if hi then 32 else 0) (halfLen fmt)).1.getD j 0
        % 2 ^ codeBits (vfmtCode fmt) := by
    rw [State.zoutvLines, getD_map_range hi', field_setWidth (by decide), field_lineOf hwide, hhalf]
  cases b
  · rw [Bool.or_false]
    exact hline sat
  · rw [Bool.or_true]
    exact hline true

theorem zoutvOp_flags (sat b : Bool) :
    (if b then (s.zoutvOp z zo tt st rm td hi fmt sat).satFlags else (s.zoutvOp z zo tt st rm td hi fmt sat).zflags)
      = (List.range 64).foldl (fun a i => a ||| ((s.readout z zo tt st).row (vfmtCode fmt) rm (sat || b) i 0 64).2.2) 0#6 := by
  cases b
  · rw [Bool.or_false]
    exact List.foldl_map
  · rw [Bool.or_true]
    exact List.foldl_map

end

/-! Raw restore and save, status -/

section
variable {s : State} {z : Fin 4} {bank : Fin 16} {off : BitVec 16}

theorem zsType_setZsType (t : Tile) (z w : Fin 4) (ty : Nat) :
    zsType (t.setZsType z ty).sr.zs[w] = if w = z then ty % 4 else zsType t.sr.zs[w] := by
  rw [Tile.setZsType, getElem_set_fin]
  split
  case isTrue h => exact fieldOf_putField_same (by decide) _ _
  case isFalse => rfl

/-- The state that a `zld` leaves: its operation on the path, and TYPE set where it names one (R216). -/
def State.afterZld (s : State) (z : Fin 4) (bank : Fin 16) (off : BitVec 16) (ty : Fin 3) : State :=
  if ty.val = 0 then s.onApath (s.pathOp .zld 128 bank off.toNat z.val)
  else (s.onApath (s.pathOp .zld 128 bank off.toNat z.val)).onTile fun t => t.setZsType z ty.val

theorem chkRaw_ok {o : PathOp} (h : o.off % 128 = 0) : (chkRaw o).bad = false := by simp [chkRaw, chkAlign, h]

theorem execZld_next {ty : Fin 3} (hfree : pathBusy s.tile.apath s.psc = false) (halign : off.toNat % 128 = 0)
    (hdue : ty.val ≠ 0 → zsType s.tile.sr.zs[z] ≠ ty.val → s.tile.mmaDue z = false)
    (hok : s.pathOk (s.pathOp .zld 128 bank off.toNat z.val) 0x10000) :
    execZld z bank off ty s = .next (s.afterZld z bank off ty) := by
  have hattempt : execZld z bank off ty s = s.attempt ([s.chkApath, chkRaw (s.pathOp .zld 128 bank off.toNat z.val),
        chkOp ((ty.val != 0 && zsType s.tile.sr.zs[z] != ty.val) && s.tile.mmaDue z) 0x0c]
      ++ s.chkPath (s.pathOp .zld 128 bank off.toNat z.val) 0x10000) fun u =>
        if ty.val = 0 then u.onApath (s.pathOp .zld 128 bank off.toNat z.val)
        else (u.onApath (s.pathOp .zld 128 bank off.toNat z.val)).onTile fun t => t.setZsType z ty.val := rfl
  rw [hattempt]
  refine attempt_path s _ _ _ _ (fun c hc => ?_) hok
  simp only [List.mem_cons, List.not_mem_nil, or_false] at hc
  obtain rfl | rfl | rfl := hc
  · exact hfree
  · exact chkRaw_ok halign
  · by_cases hty : ty.val ≠ 0 ∧ zsType s.tile.sr.zs[z] ≠ ty.val
    · simp only [chkOp, hdue hty.1 hty.2, Bool.and_false]
    · have hkeeps : (ty.val != 0 && zsType s.tile.sr.zs[z] != ty.val) = false := by
        rwa [← Bool.not_eq_true, Bool.and_eq_true, bne_iff_ne, bne_iff_ne]
      simp only [chkOp, hkeeps, Bool.false_and]

theorem afterZld_spec (ty : Fin 3) : (s.afterZld z bank off ty).dev.mem = s.dev.mem
    ∧ (s.afterZld z bank off ty).tile.apath = s.tile.apath ++ [s.pathOp .zld 128 bank off.toNat z.val]
    ∧ (s.afterZld z bank off ty).tile.r = s.tile.r
    ∧ zsType (s.afterZld z bank off ty).tile.sr.zs[z] = if ty.val = 0 then zsType s.tile.sr.zs[z] else ty.val := by
  rw [State.afterZld]
  split
  case isTrue => simp [State.onApath]
  case isFalse =>
    refine ⟨rfl, ?_, ?_, ?_⟩
    · simp [State.onApath, Tile.setZsType]
    · simp [State.onApath, Tile.setZsType]
    · simp only [State.onTile_tile, zsType_setZsType, if_true]
      exact Nat.mod_eq_of_lt (by omega)

variable (s z bank off)

/-- The operation of a `zst`, with the accumulator's bits as they stand (R216). -/
def State.zstOp : PathOp :=
  { s.pathOp .zst 128 bank off.toNat z.val with
    drop := s.tile.r.zPoison.getLsbD z.val
    lines := (List.range 128).map fun m => (s.tile.r.z[z][idx 64 (m / 2)] >>> (1024 * (m % 2))).setWidth 1024 }

/-- The operation of a `zstat`, with the four zs registers as they stand (R217). -/
def State.zstatOp : PathOp :=
  { s.pathOp .zstat 1 bank off.toNat 0 with
    lines := [BitVec.ofNat 1024 ((List.range 4).foldr (fun i acc => (s.tile.sr.zs[idx 4 i]).toNat + 2 ^ 32 * acc) 0)] }

variable {s z bank off}

theorem execZst_next (hfree : pathBusy s.tile.apath s.psc = false) (halign : off.toNat % 128 = 0)
    (hok : s.pathOk (s.zstOp z bank off) 0x10000) :
    execZst z bank off s = .next ((s.onApath (s.zstOp z bank off)).dropIf (s.tile.r.zPoison.getLsbD z.val)) := by
  have hattempt : execZst z bank off s = s.attempt ([s.chkApath, chkRaw (s.zstOp z bank off)] ++ s.chkPath (s.zstOp z bank off) 0x10000)
      fun u => (u.onApath (s.zstOp z bank off)).dropIf (s.tile.r.zPoison.getLsbD z.val) := rfl
  rw [hattempt]
  refine attempt_path s _ _ _ _ (fun c hc => ?_) hok
  simp only [List.mem_cons, List.not_mem_nil, or_false] at hc
  obtain rfl | rfl := hc
  · exact hfree
  · exact chkRaw_ok halign

theorem zstOp_lines {m : Nat} (hm : m < 128) :
    (s.zstOp z bank off).lines.getD m 0#1024 = (s.tile.r.z[z][idx 64 (m / 2)]).extractLsb' (1024 * (m % 2)) 1024 := by
  rw [← setWidth_ushiftRight_eq_extractLsb']
  exact getD_map_range hm (fun m => (s.tile.r.z[z][idx 64 (m / 2)] >>> (1024 * (m % 2))).setWidth 1024) _

theorem execZstat_next (halign : off.toNat % 16 = 0) (hok : s.pathOk (s.zstatOp bank off) 0x10000) :
    execZstat bank off s = .next (s.onTpath (s.zstatOp bank off)) := by
  have hattempt : execZstat bank off s = s.attempt ([chkPathAlign (s.zstatOp bank off) false] ++ s.chkPath (s.zstatOp bank off) 0x10000)
      fun u => u.onTpath (s.zstatOp bank off) := rfl
  rw [hattempt]
  refine attempt_path s _ _ _ _ (List.forall_mem_singleton.2 ?_) hok
  exact chkPathAlign_ok _ _ ⟨halign, fun h => absurd h Bool.false_ne_true⟩

/-- The status line holds the zs registers side by side. -/
theorem zstatOp_line (k : Fin 4) : ((s.zstatOp bank off).lines.getD 0 0#1024).extractLsb' (32 * k.val) 32 = s.tile.sr.zs[k] := by
  have hjoin := foldr_eq_joinLanes_of_lt (w := 32) (l := (List.range 4).map fun i => (s.tile.sr.zs[idx 4 i]).toNat)
    (List.forall_mem_map.2 fun i _ => BitVec.isLt _)
  rw [List.foldr_map] at hjoin
  change (BitVec.ofNat 1024 ((List.range 4).foldr (fun i acc => (s.tile.sr.zs[idx 4 i]).toNat + 2 ^ 32 * acc) 0)).extractLsb' _ _ = _
  rw [hjoin, extractLsb'_eq_ofNat_fieldOf, fieldOf, field_ofNat_joinLanes (by omega), getD_map_range k.isLt,
    Nat.mod_eq_of_lt (BitVec.isLt _), BitVec.ofNat_toNat, BitVec.setWidth_eq]
  simp only [idx_val]

end

/-! `zclr` -/

/-- What a `zclr` makes of a zs register that it names: no flags, and TYPE as TY says (R218). -/
def clearedZs (ty : BitVec 2) (v : W32) : W32 :=
  if ty = 0#2 then putField v 0 6 0 else putField (putField v 0 6 0) 8 2 (if ty = 3#2 then 0 else ty.toNat)

/-- One register of a `zclr`. -/
def Tile.clearZs (ty : BitVec 2) (t : Tile) (z : Fin 4) : Tile :=
  let t1 := { t with sr := { t.sr with zs := t.sr.zs.set z (putField t.sr.zs[z] 0 6 0) } }
  if ty = 0#2 then t1 else t1.setZsType z (if ty = 3#2 then 0 else ty.toNat)

theorem clearedZs_flags (ty : BitVec 2) (v : W32) : (clearedZs ty v).extractLsb' 0 6 = 0#6 := by
  have hclear : fieldOf (putField v 0 6 0) 0 6 = 0 := fieldOf_putField_same (by decide) _ _
  rw [extractLsb'_eq_ofNat_fieldOf, clearedZs]
  split
  · rw [hclear]
  · rw [fieldOf_putField_of_disjoint (by decide) (by decide), hclear]

theorem clearedZs_type (ty : BitVec 2) (v : W32) :
    zsType (clearedZs ty v) = if ty = 0#2 then zsType v else if ty = 3#2 then 0 else ty.toNat := by
  rw [clearedZs]
  split
  · exact fieldOf_putField_of_disjoint (by decide) (by decide) _ _
  · rw [zsType, fieldOf_putField_same (by decide)]
    split
    · rfl
    · exact Nat.mod_eq_of_lt ty.isLt

theorem Tile.clearZs_zs (ty : BitVec 2) (t : Tile) (z w : Fin 4) :
    (t.clearZs ty z).sr.zs[w] = if w = z then clearedZs ty t.sr.zs[w] else t.sr.zs[w] := by
  simp only [Tile.clearZs, clearedZs]
  split
  · simp only [getElem_set_fin]
    split <;> simp_all
  · simp only [Tile.setZsType, getElem_set_fin]
    split <;> simp_all

theorem Tile.foldl_clearZs_zs (ty : BitVec 2) {l : List (Fin 4)} (hl : l.Nodup) (t : Tile) (w : Fin 4) :
    (l.foldl (Tile.clearZs ty) t).sr.zs[w] = if w ∈ l then clearedZs ty t.sr.zs[w] else t.sr.zs[w] := by
  induction l generalizing t with
  | nil => rfl
  | cons z l ih =>
    obtain ⟨hz, hl⟩ := List.nodup_cons.1 hl
    rw [List.foldl_cons, ih hl, Tile.clearZs_zs]
    by_cases hw : w = z
    · subst hw
      simp [hz]
    · simp [hw]

/-- The zs registers that a `zclr` names. -/
def namedZs (zs : BitVec 4) : List (Fin 4) := (List.finRange 4).filter fun z => zs.getLsbD z.val

theorem namedZs_nodup (zs : BitVec 4) : (namedZs zs).Nodup := (List.nodup_finRange 4).filter _

theorem execZclr_next {s : State} {zs : BitVec 4} {ty : BitVec 2}
    (hdue : ty ≠ 0#2 → ∀ z : Fin 4, zs.getLsbD z.val = true → s.tile.mmaDue z = false) :
    execZclr zs ty s = .next (s.onTile fun t => (namedZs zs).foldl (Tile.clearZs ty) t) := by
  unfold execZclr
  refine s.attempt_singleton_ok _ ?_
  by_cases hty : ty = 0#2
  · simp [chkOp, hty]
  · simpa [chkOp, hty] using hdue hty

end Sys2Proof.Machine

namespace Sys2Proof
open Machine

/-- Settles O36: each operation as its definition gives it, its checks passed by the hypotheses; the readouts by the fields of their
lines, `zclr` by the zs registers after the fold over those that it names. -/
theorem accumulatorOperations : Obligations.AccumulatorOperations := by
  refine ⟨?_, ?_, fun s z bank off ty hfree halign hdue => ?_, fun s z bank off hfree halign => ?_, fun s bank off halign => ?_,
    fun s zs ty hdue => ?_⟩
  · intro s z zo tt bank off st rm sat row fmt per hfree htyped hout hfmt
    have hsat : sat = (sat || false) := (Bool.or_false sat).symm
    exact ⟨s.zoutOp z zo tt bank off st rm sat, rfl, rfl, rfl, rfl, zoutOp_cnt sat, rfl, rfl, rfl, rfl, rfl,
      fun b i hi j hj => field_zoutOp_lines sat b hi hj, fun i hi => (zoutOp_scales sat hi).trans (congrArg (fun b => (s.zoutRow z zo tt bank st rm b i).2.1) hsat),
      zoutOp_flags sat,
      fun halign hok => execZout_next hfree htyped hout hfmt halign hok⟩
  · intro s z zo tt td hi st rm sat fmt w h hfree htyped hout
    refine ⟨s.zoutvOp z zo tt st rm td hi fmt sat, rfl, rfl, rfl, rfl, rfl, fun b i hi' j hj => ?_, zoutvOp_flags sat,
      execZoutv_next hfree htyped hout⟩
    have hw : w = halfLen fmt := (halfLen_eq fmt).symm
    rw [hw] at hj ⊢
    exact field_zoutvOp_lines sat b hi' hj
  · exact ⟨s.pathOp .zld 128 bank off.toNat z.val, rfl, rfl, rfl, rfl, rfl, rfl,
      fun hok => ⟨_, execZld_next hfree halign hdue hok, afterZld_spec ty⟩⟩
  · exact ⟨s.zstOp z bank off, rfl, rfl, rfl, rfl, rfl, rfl, fun m hm => zstOp_lines hm, execZst_next hfree halign⟩
  · exact ⟨s.zstatOp bank off, rfl, rfl, rfl, rfl, rfl, zstatOp_line, execZstat_next halign⟩
  · refine ⟨_, execZclr_next hdue, rfl, ?_, ?_, fun z => ?_⟩
    · rw [State.onTile_tile]
      exact Tile.foldl_r (fun t z => by unfold Tile.clearZs; split <;> rfl) _ _
    · rw [State.onTile_tile]
      exact foldl_keeps (view := Tile.apath) (fun z _ t => by unfold Tile.clearZs; split <;> rfl) _
    · have hmem : z ∈ namedZs zs ↔ zs.getLsbD z.val = true := by simp [namedZs]
      rw [State.onTile_tile, Tile.foldl_clearZs_zs ty (namedZs_nodup zs)]
      refine ⟨fun h => if_neg fun hz => Bool.false_ne_true (h.symm.trans (hmem.1 hz)), fun h => ?_⟩
      rw [if_pos (hmem.2 h)]
      exact ⟨clearedZs_flags ty _, clearedZs_type ty _⟩

end Sys2Proof
end

section
/-! O34: what the one due operation of the matrix paths leaves in the registers of its tile. -/

namespace Sys2Proof.Machine

/-! DUE_RESULT_WRITE with one operation -/

/-- The tile after the one due operation of its paths has written its registers. -/
def Tile.landed (t : Tile) (o : PathOp) : Tile := o.targets.foldl (fun t k => t.pathWrite o k) t

theorem Tile.pathWrites_singleton (t : Tile) (o : PathOp) : t.pathWrites [o] = t.landed o := by
  simp [Tile.pathWrites, Tile.landed]

theorem Tile.pathWrite_apath (t : Tile) (o : PathOp) (k : Nat) : (t.pathWrite o k).apath = t.apath := by
  cases hkind : o.kind <;> simp only [Tile.pathWrite, hkind] <;> first | rfl | (split <;> rfl)

theorem Tile.pathWrite_s (t : Tile) (o : PathOp) (k : Nat) : (t.pathWrite o k).r.s = t.r.s := by
  cases hkind : o.kind <;> simp only [Tile.pathWrite, hkind] <;> first | rfl | (split <;> rfl)

theorem Tile.landed_apath (t : Tile) (o : PathOp) : (t.landed o).apath = t.apath :=
  foldl_keeps (view := Tile.apath) (fun k _ t => t.pathWrite_apath o k) t

theorem Tile.landed_s (t : Tile) (o : PathOp) : (t.landed o).r.s = t.r.s :=
  foldl_keeps (view := fun t : Tile => t.r.s) (fun k _ t => t.pathWrite_s o k) t

theorem exec_dueResultWrite_of_one_path {s : State} {n : Fin 128} {o : PathOp}
    (hflight : ∀ f ∈ s.dev.tiles[n].flight, f.due ≠ s.dev.psc n)
    (hdue : ((s.dev.tiles[n].tpath ++ s.dev.tiles[n].apath).filter fun x => x.due == some (s.dev.psc n)) = [o])
    (hread : ∀ x ∈ s.dev.tiles[n].apath, x.issue + 7 ≠ s.dev.psc n) :
    ∃ t, exec (.dueResultWrite n) s = .next t ∧ t.dev.mem = s.dev.mem ∧ t.dev.tiles[n]
      = (s.dev.tiles[n].landed (o.underSat (s.dev.tiles[n].sr.zctl.getLsbD 0))).dequeueDue (s.dev.psc n) := by
  have hnone : (s.dev.tiles[n].flight.filter fun f => f.due == s.dev.psc n) = [] :=
    List.filter_eq_nil_iff.2 fun f hf => by simpa using hflight f hf
  refine ⟨_, rfl, ?_, ?_⟩ <;>
    simp only [State.onDev_dev, hnone, hdue, sortBy, insertBy, List.map_cons, List.map_nil, List.foldl_cons, List.foldl_nil, lastResults]
  · rfl
  · rw [Dev.onTile_tiles_same, Tile.pathWrites_singleton, Tile.readoutFlags_of_none (by rwa [Tile.landed_apath])]
    rfl

section
variable (o : PathOp) (sat : Bool)

theorem PathOp.underSat_of_not_readout {o : PathOp} (h : o.kind ≠ .zout ∧ o.kind ≠ .zoutv) : o.underSat sat = o := by
  simp [PathOp.underSat, h]

@[simp] theorem PathOp.underSat_kind : (o.underSat sat).kind = o.kind := by unfold PathOp.underSat; split <;> rfl
@[simp] theorem PathOp.underSat_reg : (o.underSat sat).reg = o.reg := by unfold PathOp.underSat; split <;> rfl
@[simp] theorem PathOp.underSat_tag : (o.underSat sat).tag = o.tag := by unfold PathOp.underSat; split <;> rfl
@[simp] theorem PathOp.underSat_poison : (o.underSat sat).poison = o.poison := by unfold PathOp.underSat; split <;> rfl

@[simp] theorem PathOp.underSat_targets : (o.underSat sat).targets = o.targets := by
  simp only [PathOp.targets, PathOp.underSat_kind, PathOp.underSat_reg]

theorem PathOp.underSat_lines_of_zoutv {o : PathOp} (h : o.kind = .zoutv) :
    (o.underSat sat).lines = if sat then o.satLines else o.lines := by
  cases sat <;> simp [PathOp.underSat, h]

end

/-! Writes of matrix registers -/

section
variable (t : Tile)

theorem Tile.writeT_t (r k : Fin 8) (v : TReg) (p : Bool) : (t.writeT r v p).r.t[k] = if k = r then v else t.r.t[k] :=
  getElem_set_fin _ _ _ _

theorem getLsbD_setBit {n : Nat} (v : BitVec n) (i j : Fin n) (b : Bool) :
    (setBit v i.val b).getLsbD j.val = if j = i then b else v.getLsbD j.val := by
  by_cases h : j = i
  · rw [if_pos h, h, getLsbD_setBit_same i.isLt]
  · rw [if_neg h, getLsbD_setBit_ne fun hv => h (Fin.ext hv.symm)]

theorem Tile.writeT_tPoison (r k : Fin 8) (v : TReg) (p : Bool) :
    (t.writeT r v p).r.tPoison.getLsbD k.val = if k = r then p else t.r.tPoison.getLsbD k.val :=
  getLsbD_setBit _ _ _ _

theorem Tile.writeZ_z (r k : Fin 4) (v : Acc) (p : Bool) : (t.writeZ r v p).r.z[k] = if k = r then v else t.r.z[k] :=
  getElem_set_fin _ _ _ _

theorem Tile.writeZ_zPoison (r k : Fin 4) (v : Acc) (p : Bool) :
    (t.writeZ r v p).r.zPoison.getLsbD k.val = if k = r then p else t.r.zPoison.getLsbD k.val :=
  getLsbD_setBit _ _ _ _

theorem Tile.setTag_tgeom (r : Fin 8) (tag : Nat) : (t.setTag r tag).sr.tgeom[r] = putField t.sr.tgeom[r] 16 4 tag := by
  rw [Tile.setTag, getElem_set_fin, if_pos rfl]

/-- A tile register as a result leaves it, with its poison and its tag. -/
def Tile.writeTagged (r : Fin 8) (v : TReg) (p : Bool) (tag : BitVec 4) : Tile := (t.writeT r v p).setTag r tag.toNat

theorem Tile.writeTagged_spec (r : Fin 8) (v : TReg) (p : Bool) (tag : BitVec 4) :
    (t.writeTagged r v p tag).r.t[r] = v ∧ (t.writeTagged r v p tag).r.tPoison.getLsbD r.val = p
      ∧ geomTag (t.writeTagged r v p tag).sr.tgeom[r] = tag.toNat
      ∧ geomCols (t.writeTagged r v p tag).sr.tgeom[r] = geomCols t.sr.tgeom[r] := by
  refine ⟨(t.writeT_t r r v p).trans (if_pos rfl), (t.writeT_tPoison r r v p).trans (if_pos rfl), ?_, ?_⟩ <;>
    rw [Tile.writeTagged, Tile.setTag_tgeom]
  · exact (fieldOf_putField_same (by decide) _ _).trans (Nat.mod_eq_of_lt tag.isLt)
  · exact congrArg (· + 1) (fieldOf_putField_of_disjoint (by decide) (by decide) _ _)

end

/-! The registers that an operation writes -/

section
variable {t : Tile} {o : PathOp}

/-- What a write at one of its targets can do: of the numbers below 8 it writes the tile register, of 8 to 11 the accumulator. -/
theorem Tile.pathWrite_r {x : Nat} (hx : x ∈ o.targets) (t : Tile) :
    (x < 8 ∧ ∃ v p, (t.pathWrite o x).r = (t.writeT (idx 8 x) v p).r)
      ∨ (8 ≤ x ∧ x < 12 ∧ ∃ v p, (t.pathWrite o x).r = (t.writeZ (idx 4 x) v p).r) := by
  cases hkind : o.kind with
  | mst | zout | zst | zstat => simp [PathOp.targets, hkind] at hx
  | mld | mldt | mlds | zoutv =>
    simp only [PathOp.targets, hkind, List.mem_singleton] at hx
    exact .inl ⟨by omega, _, _, by simp only [Tile.pathWrite, hkind]; rfl⟩
  | zld =>
    simp only [PathOp.targets, hkind, List.mem_singleton] at hx
    exact .inr ⟨by omega, by omega, _, _, by simp only [Tile.pathWrite, hkind]; rfl⟩
  | mzero =>
    simp only [PathOp.targets, hkind, List.mem_filter, List.mem_range] at hx
    by_cases hlt : x < 8
    · exact .inl ⟨hlt, _, _, by simp only [Tile.pathWrite, hkind, hlt, if_true]; rfl⟩
    · exact .inr ⟨by omega, hx.1, _, _, by simp only [Tile.pathWrite, hkind, hlt, if_false]; rfl⟩

/-- Tile register k with its poison. -/
def Tile.tView (k : Fin 8) (t : Tile) : TReg × Bool := (t.r.t[k], t.r.tPoison.getLsbD k.val)

/-- Accumulator k with its poison. -/
def Tile.zView (k : Fin 4) (t : Tile) : Acc × Bool := (t.r.z[k], t.r.zPoison.getLsbD k.val)

theorem Tile.tView_writeT (t : Tile) (r k : Fin 8) (v : TReg) (p : Bool) : (t.writeT r v p).tView k = if k = r then (v, p) else t.tView k := by
  simp only [Tile.tView, Tile.writeT_t, Tile.writeT_tPoison]
  split <;> rfl

theorem Tile.zView_writeZ (t : Tile) (r k : Fin 4) (v : Acc) (p : Bool) : (t.writeZ r v p).zView k = if k = r then (v, p) else t.zView k := by
  simp only [Tile.zView, Tile.writeZ_z, Tile.writeZ_zPoison]
  split <;> rfl

theorem Tile.tView_of_r {t u : Tile} (h : t.r = u.r) (k : Fin 8) : t.tView k = u.tView k := by simp only [Tile.tView, h]

theorem Tile.zView_of_r {t u : Tile} (h : t.r = u.r) (k : Fin 4) : t.zView k = u.zView k := by simp only [Tile.zView, h]

theorem eq_idx_8_iff {x : Nat} (hx : x < 8) (k : Fin 8) : k = idx 8 x ↔ k.val = x := by
  rw [Fin.ext_iff, idx, Fin.val_ofNat, Nat.mod_eq_of_lt hx]

theorem eq_idx_4_iff {x : Nat} (hlo : 8 ≤ x) (hhi : x < 12) (k : Fin 4) : k = idx 4 x ↔ 8 + k.val = x := by
  rw [Fin.ext_iff, idx, Fin.val_ofNat]
  omega

theorem Tile.pathWrite_tView_of_ne {k : Fin 8} {x : Nat} (hx : x ∈ o.targets) (hne : k.val ≠ x) (t : Tile) :
    (t.pathWrite o x).tView k = t.tView k := by
  obtain ⟨hlt, v, p, hr⟩ | ⟨-, -, v, p, hr⟩ := Tile.pathWrite_r hx t
  · rw [Tile.tView_of_r hr, Tile.tView_writeT, if_neg (mt (eq_idx_8_iff hlt k).1 hne)]
  · exact Tile.tView_of_r hr k

theorem Tile.pathWrite_zView_of_ne {k : Fin 4} {x : Nat} (hx : x ∈ o.targets) (hne : 8 + k.val ≠ x) (t : Tile) :
    (t.pathWrite o x).zView k = t.zView k := by
  obtain ⟨-, v, p, hr⟩ | ⟨hlo, hhi, v, p, hr⟩ := Tile.pathWrite_r hx t
  · exact Tile.zView_of_r hr k
  · rw [Tile.zView_of_r hr, Tile.zView_writeZ, if_neg (mt (eq_idx_4_iff hlo hhi k).1 hne)]

theorem Tile.landed_tView_of_not_mem {k : Fin 8} (hk : k.val ∉ o.targets) (t : Tile) : (t.landed o).tView k = t.tView k :=
  foldl_keeps (fun _ hx u => u.pathWrite_tView_of_ne hx fun h => hk (h ▸ hx)) t

theorem Tile.landed_zView_of_not_mem {k : Fin 4} (hk : 8 + k.val ∉ o.targets) (t : Tile) : (t.landed o).zView k = t.zView k :=
  foldl_keeps (fun _ hx u => u.pathWrite_zView_of_ne hx fun h => hk (h ▸ hx)) t

/-- The one register of a load or of a `zoutv` into a tile register. -/
theorem Tile.landed_of_targets_singleton {x : Nat} (h : o.targets = [x]) (t : Tile) : t.landed o = t.pathWrite o x := by
  rw [Tile.landed, h, List.foldl_cons, List.foldl_nil]

/-! Clears -/

/-- What is set once and then kept, is set at the end. -/
theorem foldl_set {α β γ : Type} {view : α → β} {f : α → γ → α} {c : β} {x : γ} {l : List γ} (hx : x ∈ l)
    (hset : ∀ t, view (f t x) = c) (hkeep : ∀ y ∈ l, y ≠ x → ∀ t, view (f t y) = view t) (t : α) : view (l.foldl f t) = c := by
  induction l generalizing t with
  | nil => cases hx
  | cons y l ih =>
    obtain ⟨hy, hl⟩ := List.forall_mem_cons.1 hkeep
    by_cases hmem : x ∈ l
    · exact ih hmem hl _
    · obtain rfl : x = y := (List.mem_cons.1 hx).resolve_right hmem
      exact (foldl_keeps (fun z hz => hl z hz fun h => hmem (h ▸ hz)) _).trans (hset t)

theorem Tile.landed_mzero_tView (hkind : o.kind = .mzero) {k : Fin 8} (hk : k.val ∈ o.targets) (t : Tile) :
    (t.landed o).tView k = (TReg.reset, false) := by
  refine foldl_set hk (fun u => ?_) (fun x hx hne u => u.pathWrite_tView_of_ne hx hne.symm) t
  simp only [Tile.pathWrite, hkind, k.isLt, if_true]
  rw [Tile.tView_writeT, if_pos (idx_val k).symm]

theorem Tile.landed_mzero_zView (hkind : o.kind = .mzero) {k : Fin 4} (hk : 8 + k.val ∈ o.targets) (t : Tile) :
    (t.landed o).zView k = (Acc.reset, false) := by
  refine foldl_set hk (fun u => ?_) (fun x hx hne u => u.pathWrite_zView_of_ne hx hne.symm) t
  simp only [Tile.pathWrite, hkind, show ¬ 8 + k.val < 8 by omega, if_false]
  rw [Tile.zView_writeZ, if_pos ((eq_idx_4_iff (by omega) (by omega) k).2 rfl)]

/-! Loads into a tile register -/

theorem Tile.landed_mld (hkind : o.kind = .mld) {k : Fin 8} (hk : k.val = o.reg % 8) (t : Tile) :
    t.landed o = t.writeTagged k (o.mldResult t.r.t[k]) o.poison o.tag := by
  have htargets : o.targets = [o.reg % 8] := by simp only [PathOp.targets, hkind]
  rw [Tile.landed_of_targets_singleton htargets]
  simp only [Tile.pathWrite, hkind, idx_of_val_eq hk]
  rfl

theorem Tile.landed_mldt (hkind : o.kind = .mldt) {k : Fin 8} (hk : k.val = o.reg % 8) (t : Tile) :
    t.landed o = t.writeTagged k (o.mldtResult t.r.t[k]) o.poison o.tag := by
  have htargets : o.targets = [o.reg % 8] := by simp only [PathOp.targets, hkind]
  rw [Tile.landed_of_targets_singleton htargets]
  simp only [Tile.pathWrite, hkind, idx_of_val_eq hk]
  rfl

theorem Tile.landed_zoutv (hkind : o.kind = .zoutv) {k : Fin 8} (hk : k.val = o.reg % 8) (t : Tile) :
    t.landed o = t.writeTagged k (o.zoutvResult t.r.t[k]) o.poison o.tag := by
  have htargets : o.targets = [o.reg % 8] := by simp only [PathOp.targets, hkind]
  rw [Tile.landed_of_targets_singleton htargets]
  simp only [Tile.pathWrite, hkind, idx_of_val_eq hk]
  rfl

theorem Tile.landed_mlds (hkind : o.kind = .mlds) {k : Fin 8} (hk : k.val = o.reg % 8) (t : Tile) :
    t.landed o = t.writeT k (o.mldsResult t.r.t[k]) (o.poison || t.r.tPoison.getLsbD k.val) := by
  have htargets : o.targets = [o.reg % 8] := by simp only [PathOp.targets, hkind]
  rw [Tile.landed_of_targets_singleton htargets]
  simp only [Tile.pathWrite, hkind, idx_of_val_eq hk]

theorem Tile.landed_zld (hkind : o.kind = .zld) {k : Fin 4} (hk : k.val = o.reg % 4) (t : Tile) :
    t.landed o = t.writeZ k o.zldResult o.poison := by
  have htargets : o.targets = [8 + o.reg % 4] := by simp only [PathOp.targets, hkind]
  have hidx : k = idx 4 (8 + o.reg % 4) := (eq_idx_4_iff (by omega) (by omega) k).2 (by omega)
  rw [Tile.landed_of_targets_singleton htargets]
  simp only [Tile.pathWrite, hkind, ← hidx]

/-- Every result but that of `mlds` and the clears takes the operation's poison and tag with it (R15, R92, R99). -/
theorem Tile.landed_tagged (hkind : o.kind = .mld ∨ o.kind = .mldt ∨ o.kind = .zoutv) {k : Fin 8} (hk : k.val = o.reg % 8) (t : Tile) :
    ∃ v, t.landed o = t.writeTagged k v o.poison o.tag := by
  obtain h | h | h := hkind
  · exact ⟨_, Tile.landed_mld h hk t⟩
  · exact ⟨_, Tile.landed_mldt h hk t⟩
  · exact ⟨_, Tile.landed_zoutv h hk t⟩

end

/-! The values -/

theorem append_eq_ofNat {w : Nat} (hi lo : BitVec w) : hi ++ lo = BitVec.ofNat (w + w) (lo.toNat + 2 ^ w * hi.toNat) := by
  have hlt : lo.toNat + 2 ^ w * hi.toNat < 2 ^ (w + w) := by
    have hmul : 2 ^ w * (hi.toNat + 1) ≤ 2 ^ w * 2 ^ w := Nat.mul_le_mul_left _ hi.isLt
    have hlo := lo.isLt
    rw [pow_add]
    rw [Nat.mul_succ] at hmul
    omega
  refine BitVec.eq_of_toNat_eq ?_
  rw [BitVec.toNat_append, BitVec.toNat_ofNat, Nat.mod_eq_of_lt hlt, ← Nat.shiftLeft_add_eq_or_of_lt lo.isLt, Nat.shiftLeft_eq, Nat.mul_comm,
    Nat.add_comm]

theorem append_units (hi lo : VReg) : BitVec.ofNat 2048 (lo.toNat + 2 ^ 1024 * hi.toNat) = hi ++ lo := (append_eq_ofNat hi lo).symm

section
variable {o : PathOp} {old : TReg}

/-- A line of a result, its elements converted from source lines. -/
theorem lineEl_lineOf {c n j : Nat} (f : Nat → Nat) (hj : j < n) (hw : codeBits c * (j + 1) ≤ 512) :
    lineEl c (lineOf c ((List.range n).map f)) j = f j % 2 ^ codeBits c := by
  rw [lineEl, field_lineOf hw, getD_map_range hj]

theorem mldResult_line {m : Fin 64} {v : VReg} (hline : o.lines[m.val]? = some v) {j : Nat} (hj : j < geomCols o.tgeom)
    (hw : codeBits o.tag.toNat * (j + 1) ≤ 512) :
    lineEl o.tag.toNat ((o.mldResult old).rows[m]) j
      = tileConv o.src.toNat o.tag.toNat (field v.toNat (codeBits o.src.toNat * j) (codeBits o.src.toNat)) % 2 ^ codeBits o.tag.toNat := by
  simp only [PathOp.mldResult, Fin.getElem_fin, Vector.getElem_ofFn, hline]
  exact lineEl_lineOf _ hj hw

theorem mldResult_line_unread {m : Fin 64} (hm : o.lines.length ≤ m.val) : (o.mldResult old).rows[m] = 0#512 := by
  have hline : o.lines[m.val]? = none := List.getElem?_eq_none hm
  simp only [PathOp.mldResult, Fin.getElem_fin, Vector.getElem_ofFn, hline]

/-- Byte k of the scale side that a `mld` from a block format writes (R202). -/
def PathOp.scaleRead (o : PathOp) (k : Nat) : Nat :=
  match o.scales[k / 4]? with
  | some w => if k % 4 < o.blocks then fieldOf w (8 * (k % 4)) 8 else 0x7f
  | none => 0x7f

theorem PathOp.scaleRead_lt (o : PathOp) (k : Nat) : o.scaleRead k < 2 ^ 8 := by
  unfold PathOp.scaleRead
  split
  · split
    · exact fieldOf_lt _ _ _
    · decide
  · decide

theorem mldResult_scale : (o.mldResult old).scale = if codeBlock o.tag.toNat && !o.raw
    then BitVec.ofNat 2048 ((List.range 256).foldr (fun k acc => o.scaleRead k + 256 * acc) 0) else old.scale := rfl

theorem mldResult_scale_byte (hkind : o.kind = .mld) (hblock : codeBlock o.tag.toNat = true) (hraw : o.raw = false) (m : Fin 64) (b : Fin 4) :
    ((o.mldResult old).scale).extractLsb' (32 * m.val + 8 * b.val) 8
      = if o.scales[m.val]?.isSome ∧ b.val < (geomCols o.tgeom + 31) / 32 then (o.scales.getD m.val 0#32).extractLsb' (8 * b.val) 8
        else 0x7f#8 := by
  have hjoin : (List.range 256).foldr (fun k acc => o.scaleRead k + 256 * acc) 0 = joinLanes 8 ((List.range 256).map o.scaleRead) := by
    rw [← foldr_eq_joinLanes_of_lt (List.forall_mem_map.2 fun k _ => o.scaleRead_lt k), List.foldr_map]
    rfl
  have hblocks : o.blocks = (geomCols o.tgeom + 31) / 32 := by simp [PathOp.blocks, hkind, hblock, hraw]
  have hbyte : ((o.mldResult old).scale).extractLsb' (32 * m.val + 8 * b.val) 8 = BitVec.ofNat 8 (o.scaleRead (4 * m.val + b.val)) := by
    rw [mldResult_scale, hblock, hraw, Bool.not_false, Bool.and_self, if_pos rfl, hjoin,
      extractLsb'_eq_ofNat_fieldOf, fieldOf, show 32 * m.val + 8 * b.val = 8 * (4 * m.val + b.val) by ring,
      field_ofNat_joinLanes (by omega), getD_map_range (by omega), Nat.mod_eq_of_lt (o.scaleRead_lt _)]
  rw [hbyte, PathOp.scaleRead, show (4 * m.val + b.val) / 4 = m.val by omega, show (4 * m.val + b.val) % 4 = b.val by omega, hblocks]
  cases hscale : o.scales[m.val]? with
  | none => simp
  | some w =>
    simp only [Option.isSome_some, true_and, List.getD_eq_getElem?_getD, hscale, Option.getD_some, extractLsb'_eq_ofNat_fieldOf]
    split <;> rfl

theorem mldResult_scale_kept (h : codeBlock o.tag.toNat = false ∨ o.raw = true) : (o.mldResult old).scale = old.scale := by
  rw [mldResult_scale, if_neg]
  obtain h | h := h <;> simp [h]

theorem mldtResult_line {j : Fin 64} (hrow : j.val < geomRows o.tgeom) {i : Nat} (hi : i < geomCols o.tgeom)
    (hw : codeBits o.tag.toNat * (i + 1) ≤ 512) :
    lineEl o.tag.toNat ((o.mldtResult old).rows[j]) i
      = tileConv o.src.toNat o.tag.toNat (field (o.sourceRow i) (codeBits o.src.toNat * j.val) (codeBits o.src.toNat))
        % 2 ^ codeBits o.tag.toNat := by
  simp only [PathOp.mldtResult, Fin.getElem_fin, Vector.getElem_ofFn, hrow, if_true]
  exact lineEl_lineOf _ hi hw

theorem mldtResult_line_beyond {j : Fin 64} (hrow : geomRows o.tgeom ≤ j.val) : (o.mldtResult old).rows[j] = 0#512 := by
  simp only [PathOp.mldtResult, Fin.getElem_fin, Vector.getElem_ofFn, not_lt.2 hrow, if_false]

theorem mldtResult_scale : (o.mldtResult old).scale = old.scale := by simp only [PathOp.mldtResult]

theorem zoutvResult_scale : (o.zoutvResult old).scale = old.scale := by simp only [PathOp.zoutvResult]

theorem mldsResult_rows : (o.mldsResult old).rows = old.rows := by simp only [PathOp.mldsResult]

theorem zoutvResult_line (m : Fin 64) : (o.zoutvResult old).rows[m] = (o.lines.getD m.val 0#1024).setWidth 512 := by
  simp only [PathOp.zoutvResult, Fin.getElem_fin, Vector.getElem_ofFn]

theorem mldsResult_scale : (o.mldsResult old).scale = (o.lines.getD 1 0#1024 ++ o.lines.getD 0 0#1024) :=
  append_units _ _

theorem zldResult_line (i : Fin 64) : o.zldResult[i] = (o.lines.getD (2 * i.val + 1) 0#1024 ++ o.lines.getD (2 * i.val) 0#1024) := by
  simp only [PathOp.zldResult, Fin.getElem_fin, Vector.getElem_ofFn]
  exact append_units _ _

end

end Sys2Proof.Machine

namespace Sys2Proof
open Machine

/-- Settles O34: the registers after the event are those that the one operation has written, and its kind says which and with what. -/
theorem dueTileLoadsAndClearsWriteTheirRegisters : Obligations.DueTileLoadsAndClearsWriteTheirRegisters := by
  intro s n o hflight hdue hread _
  obtain ⟨t, hexec, hmem, htile⟩ := exec_dueResultWrite_of_one_path hflight hdue hread
  refine ⟨t, hexec, hmem, ?_⟩
  generalize s.dev.tiles[n] = T at *
  generalize t.dev.tiles[n] = U at *
  generalize T.sr.zctl.getLsbD 0 = sat at *
  subst htile
  dsimp only [Tile.dequeueDue]
  have hself (h : o.kind ≠ .zout ∧ o.kind ≠ .zoutv) : o.underSat sat = o := PathOp.underSat_of_not_readout sat h
  refine ⟨Tile.landed_s _ _, fun k hk => ?_, fun k hk => ?_, fun hkind k hk => ?_, fun hkind k hk => ?_, fun hkind k hk => ?_,
    fun hkind k hk => ?_, fun hkind k hk => ?_, fun hkind k hk => ?_, fun hkind => ⟨fun k hk => ?_, fun k hk => ?_⟩⟩
  · exact Prod.mk.inj (Tile.landed_tView_of_not_mem (by rwa [PathOp.underSat_targets]) T)
  · exact (Prod.mk.inj (Tile.landed_zView_of_not_mem (by rwa [PathOp.underSat_targets]) T)).1
  · rw [hself (by simp [hkind]), Tile.landed_mld hkind hk, (T.writeTagged_spec k _ _ _).1]
    exact ⟨fun m v hline j hj hw => mldResult_line hline hj hw, fun m hm => mldResult_line_unread hm,
      fun hblock hraw m b => mldResult_scale_byte hkind hblock hraw m b, mldResult_scale_kept⟩
  · rw [hself (by simp [hkind]), Tile.landed_mldt hkind hk, (T.writeTagged_spec k _ _ _).1]
    exact ⟨fun j hj i hi hw => mldtResult_line hj hi hw, fun j hj => mldtResult_line_beyond hj, mldtResult_scale⟩
  · rw [Tile.landed_zoutv (by rwa [PathOp.underSat_kind]) (by rwa [PathOp.underSat_reg]), (T.writeTagged_spec k _ _ _).1]
    refine ⟨zoutvResult_scale, fun m => ?_⟩
    rw [zoutvResult_line, PathOp.underSat_lines_of_zoutv sat hkind]
  · obtain ⟨v, hv⟩ := Tile.landed_tagged (o := o.underSat sat) (by rwa [PathOp.underSat_kind]) (by rwa [PathOp.underSat_reg]) T
    obtain ⟨-, hpoison, htag, hcols⟩ := T.writeTagged_spec k v o.poison o.tag
    rw [hv, PathOp.underSat_poison, PathOp.underSat_tag]
    exact ⟨hpoison, htag, hcols⟩
  · obtain ⟨hz, hpoison⟩ := Prod.mk.inj ((T.zView_writeZ k k o.zldResult o.poison).trans (if_pos rfl))
    rw [hself (by simp [hkind]), Tile.landed_zld hkind hk, hz]
    exact ⟨hpoison, zldResult_line⟩
  · rw [hself (by simp [hkind]), Tile.landed_mlds hkind hk, Tile.writeT_t, if_pos rfl]
    exact ⟨mldsResult_rows, mldsResult_scale, rfl⟩
  · rw [hself (by simp [hkind])]
    exact Prod.mk.inj (Tile.landed_mzero_tView hkind hk T)
  · rw [hself (by simp [hkind])]
    exact Prod.mk.inj (Tile.landed_mzero_zView hkind hk T)

end Sys2Proof
end

section
/-! O35: the start of an MMA, and the accumulator and zs register that its result leaves. -/

namespace Sys2Proof.Machine

/-! Start -/

theorem mmaType_snd_lt {a b k ty : Nat} (h : mmaType a b = some (k, ty)) : ty < 4 := by
  unfold mmaType at h
  split_ifs at h <;> simp only [Option.some.injEq, Prod.mk.injEq] at h <;> omega

/-- The unit that an MMA takes, with copies of both operands (R208). -/
def State.mmaUnit (s : State) (outl : Bool) (z : Fin 4) (a b : Fin 8) : UnitRec where
  word := s.slotWord.1
  issue := s.psc
  outl := outl
  zd := z
  a := s.tile.r.t[a]
  b := s.tile.r.t[b]
  ga := s.tile.sr.tgeom[a]
  gb := s.tile.sr.tgeom[b]
  poison := s.tile.r.tPoison.getLsbD a.val || s.tile.r.tPoison.getLsbD b.val
  alone := none

/-- A tile in which an MMA has started: an untyped accumulator takes the type, and MSTEP is set (R207, R209). -/
def Tile.withUnit (t : Tile) (u : UnitRec) (ty : Nat) : Tile :=
  let t1 := if zsType t.sr.zs[u.zd] = 0 then t.setZsType u.zd ty else t
  { t1 with units := t1.units ++ [u], sr := { t1.sr with mIssue := some u.issue, mOutl := u.outl, mZdst := u.zd } }

section
variable {s : State} {z : Fin 4} {a b : Fin 8} {outl : Bool} {k ty : Nat}

theorem startMma_next (htype : mmaType (geomTag s.tile.sr.tgeom[a]) (geomTag s.tile.sr.tgeom[b]) = some (k, ty))
    (houtl : outl = true → geomTag s.tile.sr.tgeom[a] = 9 ∧ geomTag s.tile.sr.tgeom[b] = 9)
    (hcols : geomCols s.tile.sr.tgeom[a] = geomCols s.tile.sr.tgeom[b]) (hk : geomCols s.tile.sr.tgeom[a] ≤ k)
    (hz : zsType s.tile.sr.zs[z] = 0 ∨ zsType s.tile.sr.zs[z] = ty) (hfree : ∀ u ∈ s.tile.units, u.issue + 128 ≤ s.psc) :
    s.startMma outl z a b = .next (s.onTile fun t => t.withUnit (s.mmaUnit outl z a b) ty) := by
  have hpair : (if outl && !(geomTag s.tile.sr.tgeom[a] == 9 && geomTag s.tile.sr.tgeom[b] == 9) then none
      else mmaType (geomTag s.tile.sr.tgeom[a]) (geomTag s.tile.sr.tgeom[b])) = some (k, ty) := by
    rw [htype, if_neg]
    cases houtl' : outl
    · simp
    · obtain ⟨ha, hb⟩ := houtl houtl'
      simp [-Fin.getElem_fin, ha, hb]
  have hbusy : (s.tile.units.any fun u => decide (s.psc < u.issue + 128)) = false :=
    List.any_eq_false.2 fun u hu => by simpa using hfree u hu
  unfold State.startMma
  simp only [hpair]
  refine (s.attempt_ok _ fun c hc => ?_).trans rfl
  simp only [List.mem_cons, List.not_mem_nil, or_false] at hc
  obtain rfl | rfl | rfl | rfl := hc
  · exact hbusy
  · rfl
  · have hwide : ¬ k < geomCols s.tile.sr.tgeom[b] := not_lt.2 (hcols ▸ hk)
    simp [chkOp, -Fin.getElem_fin, hcols, hwide]
  · obtain hz | hz := hz <;> simp [chkOp, -Fin.getElem_fin, hz]

end

theorem Tile.withUnit_spec (t : Tile) (u : UnitRec) {ty : Nat} (hty : ty < 4) (hz : zsType t.sr.zs[u.zd] = 0 ∨ zsType t.sr.zs[u.zd] = ty) :
    (t.withUnit u ty).r = t.r ∧ (t.withUnit u ty).units = t.units ++ [u] ∧ zsType (t.withUnit u ty).sr.zs[u.zd] = ty := by
  unfold Tile.withUnit
  split
  case isTrue =>
    exact ⟨rfl, rfl, (zsType_setZsType t u.zd u.zd ty).trans ((if_pos rfl).trans (Nat.mod_eq_of_lt hty))⟩
  case isFalse h => exact ⟨rfl, rfl, hz.resolve_left h⟩

/-! The result as a matrix of elements -/

/-- Element (i, j) of the result within the operands' rows (R82). -/
def UnitRec.element (u : UnitRec) (old : Acc) (sat : Bool) (i j : Nat) : Nat × Flags :=
  let x := operandLine u.a (geomTag u.ga) (geomCols u.ga) i
  let y := operandLine u.b (geomTag u.gb) (geomCols u.ga) j
  if geomTag u.ga == 1 || geomTag u.ga == 2 then mmaInt (accEl old i j) x y sat else mmaFloat (accEl old i j) x y sat

/-- Element (i, j) of the result: the old one beyond the operands' rows. -/
def UnitRec.elementOr (u : UnitRec) (old : Acc) (sat : Bool) (i j : Nat) : Nat × Flags :=
  if i < geomRows u.ga ∧ j < geomRows u.gb then u.element old sat i j else (accEl old i j, 0#6)

theorem accEl_lt (z : Acc) (i j : Nat) : accEl z i j < 2 ^ 32 := fieldOf_lt _ _ _

theorem geomRows_le (g : W32) : geomRows g ≤ 64 := fieldOf_lt g 0 6

section
variable (u : UnitRec) (old : Acc) (sat : Bool)

/-- The rows of `UnitRec.result`. -/
def UnitRec.rows : List (List (Nat × Flags)) := (List.range 64).map fun i => (List.range 64).map (u.elementOr old sat i)

theorem UnitRec.result_eq : u.result old sat
    = (Vector.ofFn fun (i : Fin 64) => BitVec.ofNat 2048 ((((u.rows old sat).getD i.val []).map Prod.fst).foldr (fun x acc => x + 2 ^ 32 * acc) 0),
       (u.rows old sat).foldl (fun fl r => r.foldl (fun fl x => fl ||| x.2) fl) 0#6) := by
  refine congrArg (fun rows : List (List (Nat × Flags)) => ((Vector.ofFn fun (i : Fin 64) =>
    BitVec.ofNat 2048 (((rows.getD i.val []).map Prod.fst).foldr (fun x acc => x + 2 ^ 32 * acc) 0) : Acc),
    rows.foldl (fun fl r => r.foldl (fun fl x => fl ||| x.2) fl) 0#6)) (List.map_congr_left fun i _ => ?_)
  by_cases hi : i < geomRows u.ga
  · rw [List.getElem?_map, List.getElem?_range hi]
    refine List.map_congr_left fun j _ => ?_
    by_cases hj : j < geomRows u.gb
    · rw [List.getElem?_map, List.getElem?_range hj, UnitRec.elementOr, if_pos ⟨hi, hj⟩]
      rfl
    · rw [List.getElem?_eq_none (by simpa using hj), UnitRec.elementOr, if_neg fun h => hj h.2]
  · rw [List.getElem?_eq_none (by simpa using hi)]
    refine List.map_congr_left fun j _ => ?_
    rw [UnitRec.elementOr, if_neg fun h => hi h.1]

end



/-! Flags -/

theorem getLsbD_orAll (g : Nat → Flags) (n k : Nat) : (orAll g n).getLsbD k = true ↔ ∃ i < n, (g i).getLsbD k = true := by
  induction n with
  | zero => simp [orAll]
  | succ n ih =>
    have hlast : orAll g (n + 1) = orAll g n ||| g n := by simp [orAll, List.range_succ]
    rw [hlast, BitVec.getLsbD_or, Bool.or_eq_true, ih, Nat.exists_lt_succ_right]

/-- The masked OR over an n by n matrix of flags that are zero outside its first R rows and C columns. -/
theorem orAll_window {n R C : Nat} (hR : R ≤ n) (hC : C ≤ n) (f : Nat → Nat → Flags) (m : Flags) :
    orAll (fun i => orAll (fun j => if i < R ∧ j < C then f i j else 0#6) n) n &&& m = orAll (fun i => orAll (fun j => f i j &&& m) C) R := by
  refine BitVec.eq_of_getLsbD_eq fun k _ => Bool.eq_iff_iff.2 ?_
  rw [BitVec.getLsbD_and, Bool.and_eq_true]
  simp only [getLsbD_orAll, BitVec.getLsbD_and, Bool.and_eq_true]
  constructor
  · rintro ⟨⟨i, -, j, -, hbit⟩, hm⟩
    split at hbit
    case isTrue h => exact ⟨i, h.1, j, h.2, hbit, hm⟩
    case isFalse => simp at hbit
  · rintro ⟨i, hi, j, hj, hbit, hm⟩
    exact ⟨⟨i, hi.trans_le hR, j, hj.trans_le hC, by rwa [if_pos ⟨hi, hj⟩]⟩, hm⟩

/-! The range of an element -/

theorem FFmt.signed_lt (f : FFmt) (neg : Bool) {mag : Nat} (h : mag < 2 ^ (f.width - 1)) : f.signed neg mag < 2 ^ f.width := by
  have hw : 2 ^ f.width = 2 ^ (f.width - 1) * 2 := by rw [← pow_succ]; congr 1; cases f <;> rfl
  cases neg <;> simp [FFmt.signed, b2n] <;> omega

theorem FFmt.maxPat_lt (f : FFmt) : f.maxPat < 2 ^ (f.width - 1) := by cases f <;> decide

theorem FFmt.infPat_lt (f : FFmt) : f.infPat < 2 ^ (f.width - 1) := by cases f <;> decide

theorem FFmt.nan_lt (f : FFmt) : f.nan < 2 ^ f.width := by cases f <;> decide

theorem overflowF_lt (f : FFmt) (neg : Bool) (rm : RMode) (sat : Bool) : overflowF f neg rm sat < 2 ^ f.width := by
  unfold overflowF
  extract_lets inf
  split_ifs
  · exact f.signed_lt neg f.maxPat_lt
  · exact f.signed_lt neg f.infPat_lt
  · exact f.nan_lt

theorem roundTo_lt (f : FFmt) (rm : RMode) (sat : Bool) (v : Val) : (roundTo f rm sat v).1 < 2 ^ f.width := by
  cases v with
  | nan => exact f.nan_lt
  | inf neg =>
    rw [roundTo]
    split_ifs
    · exact f.signed_lt neg f.infPat_lt
    · exact f.signed_lt neg f.maxPat_lt
    · exact f.nan_lt
  | fin neg num den e =>
    rw [roundTo]
    split_ifs with hzero
    · exact f.signed_lt neg (by positivity)
    · dsimp only
      split_ifs with hbig
      · exact overflowF_lt f neg rm sat
      · exact f.signed_lt neg ((not_lt.1 hbig).trans_lt f.maxPat_lt)

theorem mmaInt_lt (old : Nat) (x y : List Val) (sat : Bool) : (mmaInt old x y sat).1 < 2 ^ 32 := by
  simp only [mmaInt, wrapNat_eq]
  split_ifs <;> exact BitVec.isLt _

theorem mmaFloat_lt {old : Nat} (hold : old < 2 ^ 32) (x y : List Val) (sat : Bool) : (mmaFloat old x y sat).1 < 2 ^ 32 := by
  rw [mmaFloat]
  dsimp only
  split_ifs
  · exact FFmt.nan_lt .fp32
  · exact hold
  · exact (FFmt.infPat_lt .fp32).trans (by decide)
  · exact FFmt.signed_lt .fp32 true (FFmt.infPat_lt .fp32)
  · exact hold
  · exact roundTo_lt .fp32 _ _ _

section
variable (u : UnitRec) (old : Acc) (sat : Bool)

theorem UnitRec.elementOr_lt (i j : Nat) : (u.elementOr old sat i j).1 < 2 ^ 32 := by
  rw [UnitRec.elementOr, UnitRec.element]
  split_ifs
  · exact mmaInt_lt _ _ _ _
  · exact mmaFloat_lt (accEl_lt old i j) _ _ _
  · exact accEl_lt old i j

/-- The elements of the accumulator that an MMA leaves. -/
theorem UnitRec.accEl_result {i j : Nat} (hi : i < 64) (hj : j < 64) : accEl (u.result old sat).1 i j
    = if i < geomRows u.ga ∧ j < geomRows u.gb then (u.element old sat i j).1 else accEl old i j := by
  have hlt : ∀ x ∈ ((List.range 64).map (u.elementOr old sat i)).map Prod.fst, x < 2 ^ 32 := by
    simp only [List.mem_map]
    rintro _ ⟨_, ⟨k, -, rfl⟩, rfl⟩
    exact u.elementOr_lt old sat i k
  have hidx : (idx 64 i).val = i := Nat.mod_eq_of_lt hi
  have hrow : (u.result old sat).1[idx 64 i]
      = BitVec.ofNat 2048 (joinLanes 32 (((List.range 64).map (u.elementOr old sat i)).map Prod.fst)) := by
    rw [UnitRec.result_eq, Fin.getElem_fin, Vector.getElem_ofFn, ← foldr_eq_joinLanes_of_lt hlt, hidx, UnitRec.rows, getD_map_range hi]
  have hel := field_ofNat_joinLanes (m := 2048) (w := 32) (j := j) (by omega) (((List.range 64).map (u.elementOr old sat i)).map Prod.fst)
  rw [List.map_map, getD_map_range hj, Function.comp_apply, Nat.mod_eq_of_lt (u.elementOr_lt old sat i j), ← List.map_map] at hel
  rw [accEl, hrow]
  refine Eq.trans hel ?_
  rw [UnitRec.elementOr]
  split <;> rfl

theorem UnitRec.result_flags : (u.result old sat).2 &&& 0x3d#6
    = (List.range (geomRows u.ga)).foldl (fun fl i => (List.range (geomRows u.gb)).foldl (fun fl j =>
        fl ||| ((u.element old sat i j).2 &&& 0x3d#6)) fl) 0#6 := by
  have hel (i j : Nat) : (u.elementOr old sat i j).2
      = if i < geomRows u.ga ∧ j < geomRows u.gb then (u.element old sat i j).2 else 0#6 := by
    rw [UnitRec.elementOr]
    split <;> rfl
  simp only [UnitRec.result_eq, UnitRec.rows, List.foldl_map, foldl_or_range, BitVec.zero_or, hel]
  exact orAll_window (geomRows_le u.ga) (geomRows_le u.gb) (fun i j => (u.element old sat i j).2) 0x3d#6

end

end Sys2Proof.Machine
end

section
/-! O35: an integer element is the wrapped or clamped sum, a float element the rounding of an exact sum. -/

namespace Sys2Proof.Machine

/-! Integer elements -/

theorem operandLine_int {tag : Nat} (h : tag = 1 ∨ tag = 2) (r : TReg) (c m : Nat) : operandLine r tag c m
    = (List.range c).map fun k => .ofInt (intVal true (codeBits tag) (lineEl tag (r.rows[idx 64 m]) k)) := by
  obtain rfl | rfl := h <;> rfl

theorem ofInt_product (x y : Int) :
    (if decide (x < 0) = decide (y < 0) then (x.natAbs * y.natAbs : Int) else -(x.natAbs * y.natAbs : Int)) = x * y := by
  obtain hx | hx := lt_or_ge x 0 <;> obtain hy | hy := lt_or_ge y 0 <;>
    simp [hx, hy, not_lt.2, abs_of_neg, abs_of_nonneg]

theorem dotInt_map (f g : Nat → Int) (l : List Nat) (acc : Int) :
    dotInt (l.map fun k => .ofInt (f k)) (l.map fun k => .ofInt (g k)) acc = acc + (l.map fun k => f k * g k).sum := by
  induction l generalizing acc with
  | nil => simp [dotInt]
  | cons k r ih =>
    rw [List.map_cons, List.map_cons, Val.ofInt, Val.ofInt, dotInt, ih, List.map_cons, List.sum_cons, ofInt_product, add_assoc]

theorem mmaInt_eq (old : Nat) (x y : List Val) (sat : Bool) {v z : Int} (hv : intVal true 32 old + dotInt x y 0 = v)
    (hz : max (-2 ^ 31) (min (2 ^ 31 - 1) v) = z) : mmaInt old x y sat
      = ((BitVec.ofInt 32 (if sat then z else v)).toNat, if z = v then 0#6 else if sat then flOF ||| flSAT else flOF) := by
  have hsat : satInt true 32 v = z := (satInt_eq true v).trans hz
  simp only [mmaInt, hv, hsat, wrapNat_eq]
  split_ifs with h <;> simp [h]

/-! Finite values have positive divisors -/

/-- The divisor of a finite value. -/
def Val.den : Val → Nat
  | .fin _ _ d _ => d
  | _ => 1

theorem decodeF_den (f : FFmt) (v : Nat) : (decodeF f v).den = 1 := by
  have hdec := decodeF_decodesTo f v
  generalize decodeF f v = x at hdec
  cases hdec <;> rfl

theorem ElF.decode_den (f : ElF) (v : Nat) : (f.decode v).den = 1 := by
  cases f with
  | int => rfl
  | flt f => exact decodeF_den f v

theorem Val.scale_den (x : Val) (k : Int) : (x.scale k).den = x.den := by cases x <;> rfl

theorem codeVal_den (c v : Nat) : (codeVal c v).den = 1 := by
  unfold codeVal
  split
  · exact ElF.decode_den _ v
  · rfl

theorem blockVal_den (el : BElem) (scale v : Nat) : (blockVal el scale v).den = 1 := by
  unfold blockVal
  split
  · rfl
  · rw [Val.scale_den, ElF.decode_den]

theorem operandLine_den {r : TReg} {tag c m : Nat} {x : Val} (hx : x ∈ operandLine r tag c m) : x.den = 1 := by
  obtain ⟨k, -, rfl⟩ := List.mem_map.1 hx
  dsimp only
  split_ifs
  · exact blockVal_den _ _ _
  · exact codeVal_den _ _

theorem mulVal_den {x y : Val} (hx : 0 < x.den) (hy : 0 < y.den) : 0 < (mulVal x y).1.den := by
  cases x with
  | nan => exact one_pos
  | inf =>
    cases y with
    | nan => exact one_pos
    | inf => exact one_pos
    | fin => rw [mulVal]; split_ifs <;> exact one_pos
  | fin a n d e =>
    cases y with
    | nan => exact one_pos
    | inf => rw [mulVal]; split_ifs <;> exact one_pos
    | fin b m c g => exact Nat.mul_pos hx hy

/-! The sum of the products -/

/-- The exact products of two lists of values. -/
def products (as bs : List Val) : List Val := List.zipWith (fun x y => (mulVal x y).1) as bs

theorem addVal_isFin {x y : Val} (hx : x.IsFin) (hy : y.IsFin) :
    (addVal .rne x y).1.IsFin ∧ (addVal .rne x y).1.toRat = x.toRat + y.toRat := by
  obtain ⟨a, n, d, e, rfl, hd⟩ := hx
  obtain ⟨b, m, c, g, rfl, hc⟩ := hy
  obtain ⟨s, k, w, t, hr, hw, hv, -⟩ := addVal_fits .rne a b n m hd hc e g rfl rfl
  exact ⟨⟨s, k, w, t, by rw [hr], hw⟩, hv⟩

/-- One step of `productSum`. -/
def addProduct (p : Val) (acc : Bool × Bool × Bool × Val) : Bool × Bool × Bool × Val :=
  (acc.1 || p.isNan, acc.2.1 || p == .inf false, acc.2.2.1 || p == .inf true, if p.isNan || p.isInf then acc.2.2.2 else (addVal .rne acc.2.2.2 p).1)

theorem productSum_cons (a b : Val) (as bs : List Val) (acc : Bool × Bool × Bool × Val) :
    productSum (a :: as) (b :: bs) acc = productSum as bs (addProduct (mulVal a b).1 acc) := by
  rw [productSum]
  congr 1
  generalize (mulVal a b).1 = p
  obtain ⟨n, pi, ni, v⟩ := acc
  cases p with
  | nan => simp [addProduct, Val.isNan]
  | inf neg => cases neg <;> simp [addProduct, Val.isNan, Val.isInf]
  | fin => simp [addProduct, Val.isNan, Val.isInf]

/-- Adding a product keeps the sum finite and exact; a NaN or an infinity adds nothing to it. -/
theorem addProduct_sum {p : Val} (hp : 0 < p.den) {n pi ni : Bool} {v : Val} (hv : v.IsFin) :
    ∃ v', addProduct p (n, pi, ni, v) = (n || p.isNan, pi || p == .inf false, ni || p == .inf true, v') ∧ v'.IsFin
      ∧ v'.toRat = v.toRat + p.toRat := by
  refine ⟨_, rfl, ?_⟩
  cases p with
  | nan => exact ⟨hv, (add_zero _).symm⟩
  | inf => exact ⟨hv, (add_zero _).symm⟩
  | fin a k d e => exact addVal_isFin hv ⟨a, k, d, e, rfl, hp⟩

theorem productSum_eq {as bs : List Val} (ha : ∀ x ∈ as, 0 < x.den) (hb : ∀ y ∈ bs, 0 < y.den) (n pi ni : Bool) {v : Val}
    (hv : v.IsFin) : ∃ v', v'.IsFin ∧ v'.toRat = v.toRat + ((products as bs).map Val.toRat).sum ∧ productSum as bs (n, pi, ni, v)
      = (n || (products as bs).any Val.isNan, pi || (products as bs).any (fun x => x == .inf false),
         ni || (products as bs).any (fun x => x == .inf true), v') := by
  induction as generalizing bs n pi ni v with
  | nil => exact ⟨v, hv, by simp [products], by simp [products, productSum]⟩
  | cons a as ih =>
    cases bs with
    | nil => exact ⟨v, hv, by simp [products], by simp [products, productSum]⟩
    | cons b bs =>
      rw [List.forall_mem_cons] at ha hb
      obtain ⟨v1, hstep, hfin1, hrat1⟩ := addProduct_sum (mulVal_den ha.1 hb.1) (n := n) (pi := pi) (ni := ni) hv
      obtain ⟨v2, hfin2, hrat2, hsum⟩ := ih ha.2 hb.2 (n || (mulVal a b).1.isNan) (pi || (mulVal a b).1 == .inf false)
        (ni || (mulVal a b).1 == .inf true) hfin1
      have hcons : products (a :: as) (b :: bs) = (mulVal a b).1 :: products as bs := rfl
      refine ⟨v2, hfin2, ?_, ?_⟩
      · rw [hcons, hrat2, hrat1, List.map_cons, List.sum_cons, add_assoc]
      · rw [productSum_cons, hstep, hsum, hcons]
        simp only [List.any_cons, Bool.or_assoc]

/-! Float elements -/

/-- The value from which the sum of an element starts: the old element where it is finite. -/
def sumStart (o : Val) : Val :=
  match o with
  | .fin _ _ _ _ => o
  | _ => Val.zero

theorem sumStart_isFin {o : Val} (ho : 0 < o.den) : (sumStart o).IsFin := by
  cases o with
  | nan => exact ⟨false, 0, 1, 0, rfl, one_pos⟩
  | inf => exact ⟨false, 0, 1, 0, rfl, one_pos⟩
  | fin a n d e => exact ⟨a, n, d, e, rfl, ho⟩

theorem sumStart_of_fin {o : Val} (hnan : o.isNan = false) (hinf : o.isInf = false) : sumStart o = o := by
  cases o with
  | nan => cases hnan
  | inf => cases hinf
  | fin => rfl

/-- Infinities of both signs among the old element and the products, the latter not of both signs (R82). -/
theorem opposite_infinities (o : Val) (up down : Bool) : (up && down || o.isInf && (up || down) && o.neg != down)
    = (up && down || o == .inf true && up || o == .inf false && down) := by
  cases o with
  | nan => cases up <;> cases down <;> rfl
  | inf s => cases s <;> cases up <;> cases down <;> rfl
  | fin => cases up <;> cases down <;> rfl

/-- An element with an fp32 accumulator (R82), from what the products hold and the rounded sum. -/
def floatEl (old : Nat) (o : Val) (nan up down : Bool) (y : Nat × Flags) : Nat × Flags :=
  if nan || (up && down) || (o == .inf true && up) || (o == .inf false && down) then (0x7fc00000, if o.isNan then 0#6 else flNV)
  else if o.isNan then (old, 0#6)
  else if up then (0x7f800000, 0#6)
  else if down then (0xff800000, 0#6)
  else if o.isInf then (old, 0#6)
  else y

/-- The rounded sum of an element, with SAT where it saturates. -/
def roundedSum (sat : Bool) (v : Val) : Nat × Flags :=
  let y := roundTo .fp32 .rne sat v
  (y.1, y.2 ||| if sat && y.2.getLsbD 2 then flSAT else 0#6)

/-- An element is the rounded sum of a finite exact value. -/
def IsRoundedSum (sat : Bool) (q : ℚ) (x : Nat × Flags) : Prop :=
  ∃ v : Val, v.isNan = false ∧ v.isInf = false ∧ v.toRat = q ∧ x = roundedSum sat v

theorem mmaFloat_of_sum {old : Nat} {as bs : List Val} {nan up down : Bool} {v : Val} (sat : Bool)
    (h : productSum as bs (false, false, false, sumStart (fp32 old)) = (nan, up, down, v)) :
    mmaFloat old as bs sat = floatEl old (fp32 old) nan up down (roundedSum sat v) := by
  unfold mmaFloat
  extract_lets o r n pi ni y
  have hr : r = (nan, up, down, v) := h
  have hn : n = nan := congrArg (fun r => r.1) hr
  have hpi : pi = up := congrArg (fun r => r.2.1) hr
  have hni : ni = down := congrArg (fun r => r.2.2.1) hr
  have hy : y = roundTo .fp32 .rne sat v := congrArg (fun r => roundTo .fp32 .rne sat r.2.2.2) hr
  have hnv : flIf (!o.isNan) flNV = if o.isNan then 0#6 else flNV := by cases o.isNan <;> rfl
  have hinvalid : (nan || (up && down) || (o.isInf && (up || down) && o.neg != down))
      = (nan || (up && down) || (o == .inf true && up) || (o == .inf false && down)) := by
    rw [Bool.or_assoc, opposite_infinities]
    simp only [Bool.or_assoc]
  rw [hn, hpi, hni, hinvalid, hnv, hy]
  rfl

theorem floatEl_spec (old : Nat) (o : Val) (nan up down : Bool) {y : Nat × Flags} {P : Nat × Flags → Prop}
    (hy : o.isNan = false → o.isInf = false → P y) :
    if nan || (up && down) || (o == .inf true && up) || (o == .inf false && down) then
      floatEl old o nan up down y = (0x7fc00000, if o.isNan then 0#6 else flNV)
    else if o.isNan then floatEl old o nan up down y = (old, 0#6)
    else if up then floatEl old o nan up down y = (0x7f800000, 0#6)
    else if down then floatEl old o nan up down y = (0xff800000, 0#6)
    else if o.isInf then floatEl old o nan up down y = (old, 0#6)
    else P (floatEl old o nan up down y) := by
  rw [floatEl]
  by_cases hinvalid : (nan || (up && down) || (o == .inf true && up) || (o == .inf false && down)) = true
  · rw [if_pos hinvalid, if_pos hinvalid]
  · rw [if_neg hinvalid, if_neg hinvalid]
    split_ifs with hnan hup hdown hinf
    · rfl
    · rfl
    · rfl
    · rfl
    · exact hy (Bool.eq_false_iff.2 hnan) (Bool.eq_false_iff.2 hinf)

/-- The rounded sum is that of a finite value: the old element plus the exact sum of the products. -/
theorem mmaFloat_eq {old : Nat} {as bs : List Val} (sat : Bool) (ha : ∀ x ∈ as, 0 < x.den) (hb : ∀ y ∈ bs, 0 < y.den) :
    ∃ v : Val, v.IsFin ∧ v.toRat = (sumStart (fp32 old)).toRat + ((products as bs).map Val.toRat).sum
      ∧ mmaFloat old as bs sat = floatEl old (fp32 old) ((products as bs).any Val.isNan) ((products as bs).any fun x => x == .inf false)
          ((products as bs).any fun x => x == .inf true) (roundedSum sat v) := by
  have hstart : (sumStart (fp32 old)).IsFin := sumStart_isFin (by rw [fp32, decodeF_den]; exact one_pos)
  obtain ⟨v, hfin, hrat, hsum⟩ := productSum_eq ha hb false false false hstart
  exact ⟨v, hfin, hrat, mmaFloat_of_sum sat hsum⟩

end Sys2Proof.Machine
end

section
/-! O35: the cycle on which the result is due, and the statement. -/

namespace Sys2Proof.Machine

/-! The cycle on which a result is due -/

section
variable {s : State} {n : Fin 128} {u : UnitRec}

theorem find?_due {l : List UnitRec} {psc : Nat} (hdue : (l.filter fun x => x.issue + 144 == psc) = [u]) :
    (l.find? fun x => x.issue + 144 == psc) = some u := by
  rw [← List.head?_filter, hdue, List.head?_cons]

theorem mmaResultDue_of_alone {z : Acc} (hdue : (s.dev.tiles[n].units.filter fun x => x.issue + 144 == s.dev.psc n) = [u])
    (halone : u.alone = some z) : ∃ t, exec (.mmaResultDue n) s = .next t ∧ t.dev.mem = s.dev.mem ∧ t.dev.tiles[n].r = s.dev.tiles[n].r := by
  refine ⟨_, rfl, rfl, ?_⟩
  rw [State.onDev_dev, Dev.onTile_tiles_same, find?_due hdue]
  simp only [halone, Tile.orZs_r]

theorem mmaResultDue_of_not_alone (hdue : (s.dev.tiles[n].units.filter fun x => x.issue + 144 == s.dev.psc n) = [u])
    (halone : u.alone = none) : ∃ t, exec (.mmaResultDue n) s = .next t ∧ t.dev.mem = s.dev.mem
      ∧ t.dev.tiles[n] =
        { ((s.dev.tiles[n].writeZ u.zd (u.result s.dev.tiles[n].r.z[u.zd] (s.dev.tiles[n].sr.zctl.getLsbD 0)).1
            (u.poison || s.dev.tiles[n].r.zPoison.getLsbD u.zd.val)).orZs u.zd
              (u.result s.dev.tiles[n].r.z[u.zd] (s.dev.tiles[n].sr.zctl.getLsbD 0)).2) with
          units := s.dev.tiles[n].units.filter fun x => x.issue + 144 != s.dev.psc n } := by
  refine ⟨_, rfl, rfl, ?_⟩
  rw [State.onDev_dev, Dev.onTile_tiles_same, find?_due hdue]
  simp only [halone]

end

/-- The elements of `UnitRec.element` with integer operands of one type. -/
theorem UnitRec.element_int {u : UnitRec} (htag : geomTag u.ga = 1 ∨ geomTag u.ga = 2) (hb : geomTag u.gb = geomTag u.ga) (old : Acc)
    (sat : Bool) (i j : Nat) {v y : Int}
    (hv : intVal true 32 (accEl old i j) + ((List.range (geomCols u.ga)).map fun k =>
      intVal true (codeBits (geomTag u.ga)) (lineEl (geomTag u.ga) (u.a.rows[idx 64 i]) k)
        * intVal true (codeBits (geomTag u.ga)) (lineEl (geomTag u.gb) (u.b.rows[idx 64 j]) k)).sum = v)
    (hy : max (-2 ^ 31) (min (2 ^ 31 - 1) v) = y) : u.element old sat i j
      = ((BitVec.ofInt 32 (if sat then y else v)).toNat, if y = v then 0#6 else if sat then flOF ||| flSAT else flOF) := by
  have hint : (geomTag u.ga == 1 || geomTag u.ga == 2) = true := by rcases htag with h | h <;> rw [h] <;> rfl
  rw [UnitRec.element, if_pos hint, operandLine_int htag, operandLine_int (hb ▸ htag)]
  refine mmaInt_eq _ _ _ _ ?_ hy
  rw [dotInt_map, zero_add, ← hv, hb]

theorem UnitRec.element_float {u : UnitRec} (h1 : geomTag u.ga ≠ 1) (h2 : geomTag u.ga ≠ 2) (old : Acc) (sat : Bool) (i j : Nat) :
    u.element old sat i j = mmaFloat (accEl old i j) (operandLine u.a (geomTag u.ga) (geomCols u.ga) i)
      (operandLine u.b (geomTag u.gb) (geomCols u.ga) j) sat :=
  if_neg (by simp [h1, h2])

end Sys2Proof.Machine

namespace Sys2Proof
open Machine

/-- Settles O35: the start adds one unit with copies of its operands; the result is the matrix of the elements of R82, whose integer sum
is a fold over the products and whose float sum keeps a finite exact value beside the marks of NaN and the infinities. -/
theorem multiplyAccumulate : Obligations.MultiplyAccumulate := by
  unfold Obligations.MultiplyAccumulate
  constructor
  · intro s n z a b outl k ty hcur T htype houtl hcols hk hz hfree
    obtain rfl : s.tileNo = n := by rw [State.tileNo, hcur]
    have hnext := startMma_next htype houtl hcols hk hz hfree
    obtain ⟨hr, hunits, htyp⟩ := T.withUnit_spec (s.mmaUnit outl z a b) (mmaType_snd_lt htype) hz
    have htile : (s.onTile fun t => t.withUnit (s.mmaUnit outl z a b) ty).dev.tiles[s.tileNo] = T.withUnit (s.mmaUnit outl z a b) ty :=
      State.onTile_tile _ _
    refine ⟨s.onTile fun t => t.withUnit (s.mmaUnit outl z a b) ty, s.mmaUnit outl z a b, ?_, ?_, ?_⟩
    · rintro rfl
      exact hnext
    · rintro rfl
      exact hnext
    · rw [htile]
      exact ⟨hunits, rfl, rfl, rfl, rfl, rfl, rfl, rfl, rfl, htyp, rfl, rfl, rfl, hr, rfl, fun m hm => Dev.onTile_tiles_ne hm _ _⟩
  · intro s n u T w hdue
    constructor
    · intro halone
      obtain ⟨z, hz⟩ := Option.ne_none_iff_exists'.1 halone
      exact mmaResultDue_of_alone hdue hz
    · intro halone
      obtain ⟨t, hexec, hmem, htile⟩ := mmaResultDue_of_not_alone hdue halone
      refine ⟨t, hexec, hmem, ?_⟩
      rw [htile]
      refine ⟨rfl, fun z hz => ?_, rfl, ?_, u.element T.r.z[u.zd] (T.sr.zctl.getLsbD 0), fun i hi j hj => ?_, fun z => ?_, ?_, ?_⟩
      · exact (T.writeZ_z _ _ _ _).trans (if_neg hz)
      · exact (T.writeZ_zPoison _ _ _ _).trans (if_pos rfl)
      · refine Eq.trans ?_ (u.accEl_result T.r.z[u.zd] (T.sr.zctl.getLsbD 0) hi hj)
        exact congrArg (fun acc => accEl acc i j) ((T.writeZ_z _ _ _ _).trans (if_pos rfl))
      · rw [← UnitRec.result_flags]
        refine (Tile.orZs_zs _ _ _ _).trans ?_
        split
        case isTrue h => subst h; rfl
        case isFalse => rfl
      · intro htag hb i _ j _ v y
        exact UnitRec.element_int htag hb _ _ i j rfl rfl
      · intro h1 h2 i _ j _
        rw [UnitRec.element_float h1 h2]
        obtain ⟨v, ⟨a, m, d, e, rfl, -⟩, hrat, hel⟩ := mmaFloat_eq (T.sr.zctl.getLsbD 0)
          (fun x hx => (operandLine_den hx).symm ▸ one_pos) (fun y hy => (operandLine_den hy).symm ▸ one_pos)
        rw [hel]
        refine floatEl_spec _ _ _ _ _ (P := IsRoundedSum _ _) fun hnan hinf => ?_
        exact ⟨_, rfl, rfl, sumStart_of_fin hnan hinf ▸ hrat, rfl⟩

end Sys2Proof
end

section
/-! O37, O39, O40, O42, O44: the checks of the L and X slots pass where the words of the claims say so. -/

namespace Sys2Proof.Machine

theorem State.tileNo_of_cur {s : State} {n : Fin 128} (hcur : s.cur = .tile n) : s.tileNo = n := by rw [State.tileNo, hcur]

theorem Chk.all_append {l l' : List Chk} (h : ∀ c ∈ l, c.bad = false) (h' : ∀ c ∈ l', c.bad = false) : ∀ c ∈ l ++ l', c.bad = false :=
  List.forall_mem_append.2 ⟨h, h'⟩

theorem Chk.all_cons {c : Chk} {l : List Chk} (h : c.bad = false) (h' : ∀ c ∈ l, c.bad = false) : ∀ x ∈ c :: l, x.bad = false :=
  List.forall_mem_cons.2 ⟨h, h'⟩

theorem Chk.all_nil : ∀ c ∈ ([] : List Chk), c.bad = false := List.forall_mem_nil _

theorem chkAlign_ok {x n : Nat} (h : x % n = 0) (ea : W64) : (chkAlign (x % n != 0) ea).bad = false := by
  rw [h]
  rfl

theorem dkBytes_pos (k : DKind) : 0 < dkBytes k := by cases k <;> decide

section
variable {s : State}

theorem State.onlyTile_of_cur {n : Fin 128} (hcur : s.cur = .tile n) (l : List Chk) : s.onlyTile l = l := by
  rw [State.onlyTile, State.isSvc, hcur]
  rfl

theorem State.chkDk_ok {k : DKind} {d : Fin 32} (h : s.dkAwake k d) : ∀ c ∈ s.chkDk k d, c.bad = false := by
  cases k
  case va => exact Chk.all_cons (h d List.mem_cons_self) Chk.all_nil
  case vb => exact Chk.all_cons (h d List.mem_cons_self) Chk.all_nil
  all_goals exact Chk.all_nil

theorem State.chkWatchAt_ok {ea : W64} {n : Nat} (hn : 0 < n) {store dva : Bool} (h : s.unwatched ea n store dva) (rep : W64) :
    (s.chkWatchAt ea n store dva rep).bad = false := by
  change (_ && _ && decide _ && decide _) = false
  obtain h | h | h | h := h
  · rw [h]
    rfl
  · have : (s.tile.c.wctl.getLsbD 2 == dva) = false := beq_eq_false_iff_ne.2 h
    rw [this, Bool.and_false]
    rfl
  · have : ¬ s.tile.c.wlo.toNat ≤ ea.toNat + n - 1 := by omega
    simp [this]
  · have : ¬ ea.toNat ≤ s.tile.c.whi.toNat := by omega
    simp [this]

theorem State.chkPort_ok {l : List (Nat × Nat)} (h : ∀ u ∈ s.tile.portUses, ∀ x ∈ l, u.cycle = x.1 → u.bank ≠ x.2) :
    (s.chkPort l).bad = false := by
  have hnil : (s.tile.portUses.filter fun u => l.any fun x => x.1 == u.cycle && x.2 == u.bank) = [] := by
    refine List.filter_eq_nil_iff.2 fun u hu hany => ?_
    obtain ⟨x, hx, hmeets⟩ := List.any_eq_true.1 hany
    simp only [Bool.and_eq_true, beq_iff_eq] at hmeets
    exact h u hu x hx hmeets.1.symm hmeets.2.symm
  change (!(s.tile.portUses.filter fun u => l.any fun x => x.1 == u.cycle && x.2 == u.bank).isEmpty) = false
  rw [hnil]
  rfl

theorem State.chkSlot_ok {ls : Fin 64} (h : s.tile.lands[ls].st = .free) : (s.chkSlot ls).bad = false := by
  change (s.tile.lands[ls].st != .free) = false
  rw [h]
  rfl

theorem State.chkOut_ok (h : s.entryFree) : s.chkOut.bad = false := decide_eq_false (not_le.2 h)

end

/-- The place of a tile-local address, by the window that the address lies in (R107, R108). -/
theorem locate_cases (size a n : Nat) : locate size a n = none
    ∨ (a < 0x100000 ∧ locate size a n = some (.tsp (a / 0x10000) (a % 0x10000)))
    ∨ (0x1000000 ≤ a ∧ a + n ≤ 0x1000000 + programArea ∧ locate size a n = some (.vault (a - 0x1000000)))
    ∨ (0x40000000 ≤ a ∧ a < 0x50000000 ∧ locate size a n = some (.lateral (field a 21 7) (field a 0 21))) := by
  unfold locate
  dsimp only
  split
  case isTrue htsp => split <;> simp [htsp]
  case isFalse =>
    split
    case isTrue hvault => simp [hvault]
    case isFalse =>
      split
      case isTrue hlateral => split <;> simp [hlateral]
      case isFalse => exact .inl rfl

theorem timedLoc_locate {size a n : Nat} (h : timedLoc (locate size a n) = true) :
    (a < 0x100000 ∧ locate size a n = some (.tsp (a / 0x10000) (a % 0x10000)))
      ∨ (0x1000000 ≤ a ∧ a + n ≤ 0x1000000 + programArea ∧ locate size a n = some (.vault (a - 0x1000000))) := by
  obtain hnone | htsp | hvault | ⟨-, -, hlateral⟩ := locate_cases size a n
  · rw [hnone] at h
    exact absurd h Bool.false_ne_true
  · exact .inl htsp
  · exact .inr hvault
  · rw [hlateral] at h
    exact absurd h Bool.false_ne_true

/-- A place in a lateral window has its address in that window (R107). -/
theorem lateralWindow_of_lateralLoc {size n : Nat} {ea : W64} (h : lateralLoc (locate size ea.toNat n) = true) :
    lateralWindow ea = true := by
  obtain hnone | ⟨-, htsp⟩ | ⟨-, -, hvault⟩ | ⟨hlo, hhi, -⟩ := locate_cases size ea.toNat n
  · rw [hnone] at h
    exact absurd h Bool.false_ne_true
  · rw [htsp] at h
    exact absurd h Bool.false_ne_true
  · rw [hvault] at h
    exact absurd h Bool.false_ne_true
  · exact Bool.and_eq_true_iff.2 ⟨decide_eq_true hlo, decide_eq_true hhi⟩

theorem lateralWindow_of_timedLoc {size n : Nat} {ea : W64} (h : timedLoc (locate size ea.toNat n) = true) : lateralWindow ea = false := by
  have hlt : ¬ 0x40000000 ≤ ea.toNat := by
    obtain ⟨hlt, -⟩ | ⟨-, hle, -⟩ := timedLoc_locate h
    · omega
    · unfold programArea at hle
      omega
  rw [lateralWindow, decide_eq_false hlt, Bool.false_and]

/-- A timed address lies below the vault just where it lies in the TSP. -/
theorem lt_vault_iff_lt_tsp {size a n : Nat} (h : timedLoc (locate size a n) = true) : a < 0x1000000 ↔ a < 0x100000 := by
  obtain ⟨hlt, -⟩ | ⟨hle, -⟩ := timedLoc_locate h <;> omega

section
variable {s : State}

theorem State.chkTimed_ok {ea : W64} {n : Nat} (hn : 0 < n) {store : Bool} {at_ : List Nat} (h : s.timedOk ea n store at_) (rep : W64) :
    ∀ c ∈ s.chkTimed ea n store at_ rep, c.bad = false := by
  obtain ⟨halign, hloc, hwatch, hbank⟩ := h
  have hbounds : (chkBounds (!timedLoc (s.place ea n)) rep).bad = false := by rw [hloc]; rfl
  have hfirst : ∀ c ∈ [chkAlign (ea.toNat % Nat.min n 16 != 0) rep, chkBounds (!timedLoc (s.place ea n)) rep], c.bad = false :=
    Chk.all_cons (chkAlign_ok halign _) (Chk.all_cons hbounds Chk.all_nil)
  have hlast : ∀ c ∈ if timedLoc (s.place ea n) then [s.chkWatchAt ea n store false rep] else [], c.bad = false := by
    rw [if_pos hloc]
    exact Chk.all_cons (State.chkWatchAt_ok hn hwatch rep) Chk.all_nil
  refine Chk.all_append (Chk.all_append hfirst ?_) hlast
  obtain ⟨htsp, hplace⟩ | ⟨-, -, hplace⟩ := timedLoc_locate hloc
  · obtain ⟨howned, hport⟩ := hbank htsp
    rw [State.place, hplace, if_pos rfl]
    refine Chk.all_cons howned (Chk.all_cons (State.chkPort_ok fun u hu x hx => ?_) Chk.all_nil)
    obtain ⟨k, hk, rfl⟩ := List.mem_map.1 hx
    exact hport u hu k hk
  · rw [State.place, hplace, if_neg Bool.false_ne_true]
    exact Chk.all_nil

theorem State.chkDva_ok {n : Fin 128} (hcur : s.cur = .tile n) {ea : W64} {k : Nat} (hk : 0 < k) {store : Bool}
    (h : s.dvaOk ea k store) : ∀ c ∈ s.chkDva ea k store, c.bad = false := by
  obtain ⟨halign, hbound, hwatch⟩ := h
  rw [State.chkDva, State.onlyTile_of_cur hcur]
  exact Chk.all_cons (chkAlign_ok halign _) (Chk.all_cons (decide_eq_false (by omega))
    (Chk.all_cons (State.chkWatchAt_ok hk hwatch _) Chk.all_nil))

theorem State.chkLateral_ok {ea : W64} {n : Nat} (hn : 0 < n) {store : Bool} (hloc : lateralLoc (s.place ea n) = true)
    (halign : ea.toNat % n = 0) (hwatch : s.unwatched ea n store false) (rep : W64) :
    ∀ c ∈ s.chkLateral ea n store rep, c.bad = false := by
  rw [State.chkLateral, hloc]
  exact Chk.all_cons (chkAlign_ok halign _) (Chk.all_cons rfl (Chk.all_cons (State.chkWatchAt_ok hn hwatch _) Chk.all_nil))

end

end Sys2Proof.Machine
end

section
/-! O37, O38, O43, O45, O46: accounting for memory errors changes the error counters, the event log and the list of corrected words alone. -/

namespace Sys2Proof.Machine

/-- `e` is `d` but for what accounting for memory errors changes: corrected words, error counters and the event log (R430, R440). -/
def Dev.Counted (d e : Dev) : Prop :=
  e = { d with softWords := e.softWords, bolts := e.bolts, fresh := e.fresh,
               mc := { d.mc with log := e.mc.log, logtail := e.mc.logtail, loghead := e.mc.loghead } }
    ∧ ∀ b : Fin 32, e.bolts[b] = { d.bolts[b] with counters := e.bolts[b].counters }

namespace Dev.Counted

theorem refl (d : Dev) : d.Counted d := ⟨rfl, fun _ => rfl⟩

theorem trans {d e f : Dev} (h : d.Counted e) (h' : e.Counted f) : d.Counted f := by
  obtain ⟨he, hb⟩ := h
  obtain ⟨hf, hb'⟩ := h'
  refine ⟨?_, fun b => ?_⟩
  · rw [hf, he]
  · rw [hb' b, hb b]

section
variable {d e : Dev} (h : d.Counted e)
include h

theorem mem : e.mem = d.mem := by rw [h.1]
theorem badWords : e.badWords = d.badWords := by rw [h.1]
theorem tiles : e.tiles = d.tiles := by rw [h.1]
theorem svcs : e.svcs = d.svcs := by rw [h.1]
theorem quads : e.quads = d.quads := by rw [h.1]
theorem panels : e.panels = d.panels := by rw [h.1]
theorem vdevs : e.vdevs = d.vdevs := by rw [h.1]
theorem bdesc : e.mc.bdesc = d.mc.bdesc := by rw [h.1]

end

theorem foldl {α : Type} {f : Dev → α → Dev} (hf : ∀ (d : Dev) x, d.Counted (f d x)) (l : List α) (d : Dev) : d.Counted (l.foldl f d) := by
  induction l generalizing d with
  | nil => exact refl d
  | cons x l ih => exact (hf d x).trans (ih (f d x))

end Dev.Counted

theorem Dev.logEvent_counted (d : Dev) (kind : Nat) (bolt tile : Option Nat) (data : Option Nat) : d.Counted (d.logEvent kind bolt tile data) :=
  ⟨rfl, fun _ => rfl⟩

theorem Dev.count_counted (d : Dev) (b : Fin 32) (k : Fin 14) (n : Nat) : d.Counted (d.count b k n) := by
  refine ⟨rfl, fun c => ?_⟩
  by_cases h : b = c
  · subst h
    simp [Dev.count, Dev.onBolt]
  · have : (d.count b k n).bolts[c] = d.bolts[c] := by simp [Dev.count, Dev.onBolt, Fin.val_ne_of_ne h]
    rw [this]

theorem Dev.ecc_counted (d : Dev) (b : Option (Fin 32)) (k n : Nat) : d.Counted (d.ecc b k n) := by
  have hlog (l : List Nat) (e : Dev) : e.Counted (l.foldl
      (fun d _ => d.logEvent 0x04 (b.map Fin.val) ((tileOfKey k).map Fin.val) none) e) :=
    Dev.Counted.foldl (fun d _ => d.logEvent_counted _ _ _ _) l e
  have hsoft (l : List Nat) : d.Counted { d with softWords := l } := ⟨rfl, fun _ => rfl⟩
  unfold Dev.ecc
  cases b with
  | none => exact (hsoft _).trans (hlog _ _)
  | some b => exact (((hsoft _).trans (hlog _ _)).trans (Dev.count_counted ..)).trans (Dev.count_counted ..)

theorem Dev.bankEcc_counted (d : Dev) (n : Fin 128) (bfmt : W32) (bank o len : Nat) : d.Counted (d.bankEcc n bfmt bank o len) := by
  unfold Dev.bankEcc
  split
  · exact .refl d
  · exact Dev.Counted.foldl (fun d _ => d.ecc_counted _ _ _) _ d

theorem Dev.locEcc_counted (d : Dev) (n : Fin 128) (l : Loc) (len : Nat) : d.Counted (d.locEcc n l len) := by
  cases l with
  | tsp b o => exact d.bankEcc_counted n _ b o len
  | vault o => exact d.ecc_counted _ _ _
  | lateral r o => exact d.ecc_counted _ _ _

end Sys2Proof.Machine
end

section
/-! O37: timed loads and stores on a tile, `sti`, poisoned addresses, and the local accesses of a service core. -/

namespace Sys2Proof.Machine

/-! Where a timed access goes -/

section
variable {s : State} {ea : W64} {k : Nat} (h : timedLoc (s.place ea k) = true)
include h

theorem spaceOf_of_timed : spaceOf ea.toNat = if ea.toNat < 0x100000 then .tsp else .vault :=
  if_congr (lt_vault_iff_lt_tsp h) rfl rfl

theorem spaceAddr_of_timed : spaceAddr ea.toNat = if ea.toNat < 0x100000 then ea.toNat else ea.toNat - 0x1000000 :=
  if_congr (lt_vault_iff_lt_tsp h) rfl rfl

theorem readAfter_of_timed : readAfter ea.toNat = if ea.toNat < 0x100000 then 2 else 6 := if_congr (lt_vault_iff_lt_tsp h) rfl rfl

theorem loadLatency_of_timed : loadLatency ea.toNat = if ea.toNat < 0x100000 then 6 else 12 := if_congr (lt_vault_iff_lt_tsp h) rfl rfl

theorem readAfter_succ_of_timed : readAfter ea.toNat + 1 = if ea.toNat < 0x100000 then 3 else 7 := by
  rw [readAfter_of_timed h]
  exact apply_ite (· + 1) _ _ _

end

/-! Tiles -/

/-- The state after a timed store of a register with its poison bit (R225). -/
def State.timedStore (s : State) (ea : W64) (n : Nat) (v : VReg × Bool) : State :=
  let perf := s.psc + readAfter ea.toNat + 1
  if v.2 then (s.timedWrite perf (spaceOf ea.toNat) (spaceAddr ea.toNat) 0 0#1024).countDrop
  else s.timedWrite perf (spaceOf ea.toNat) (spaceAddr ea.toNat) n v.1

section
variable {s : State} {n : Fin 128} {d a : Fin 32} {ls : Fin 64} {l : Landing} {off : Option (BitVec 16)} {dk : DKind} {dk2 : DKind2} {q : VOrd}

theorem exec_stv_of_timed (hpa : s.poisonS a = false) (hdk : s.dkAwake dk d) (h : s.timedOk (s.ea a off) (dkBytes dk) true [3]) :
    exec (.stv d a off dk q) s = .next (s.timedStore (s.ea a off) (dkBytes dk) (s.storeData dk d)) := by
  have hwindow : lateralWindow (s.ea a off) = false := lateralWindow_of_timedLoc h.2.1
  change execStv d a off dk q s = _
  rw [execStv, if_neg (by rw [hwindow]; exact Bool.false_ne_true), hpa]
  exact s.attempt_ok _ (Chk.all_append (State.chkDk_ok hdk) (State.chkTimed_ok (dkBytes_pos dk) h _))

theorem exec_ldv_of_timed (hpa : s.poisonS a = false) (hdk : s.dkAwake (dk2Kind dk2) d)
    (h : s.timedOk (s.readS a) (dkBytes (dk2Kind dk2)) false [2]) :
    exec (.ldv d a ls l dk2 q) s = .next (s.timedLoad (s.readS a) (dkDest (dk2Kind dk2) d) (dkCode (dk2Kind dk2))) := by
  have hwindow : lateralWindow (s.readS a) = false := lateralWindow_of_timedLoc h.2.1
  change execLdv d a ls l dk2 q s = _
  rw [execLdv, if_neg (by rw [hwindow]; exact Bool.false_ne_true), hpa]
  exact s.attempt_ok _ (Chk.all_append (State.chkDk_ok hdk) (State.chkTimed_ok (dkBytes_pos _) h _))

theorem exec_ldv_of_poisoned (hwindow : lateralWindow (s.readS a) = false) (hpa : s.poisonS a = true) (hdk : s.dkAwake (dk2Kind dk2) d) :
    exec (.ldv d a ls l dk2 q) s = .next (s.putPoisoned (loadLatency (s.readS a).toNat) (dkDest (dk2Kind dk2) d)) := by
  change execLdv d a ls l dk2 q s = _
  rw [execLdv, if_neg (by rw [hwindow]; exact Bool.false_ne_true), hpa]
  exact s.attempt_ok _ (Chk.all_append (State.chkDk_ok hdk) Chk.all_nil)

theorem exec_sti (hpa : s.poisonS a = false) (hdk : s.dkAwake dk d) (halign : (s.ea a off).toNat % dkBytes dk = 0)
    (hend : (s.ea a off).toNat + dkBytes dk ≤ halfSize) (hidle : s.tile.c.idleHeld = false) :
    exec (.sti d a off dk) s = .next (if (s.storeData dk d).2 then s.countDrop
      else s.timedWrite (s.psc + 3) .isp (s.ea a off).toNat (dkBytes dk) (s.storeData dk d).1) := by
  change execSti d a off dk s = _
  rw [execSti, hpa]
  refine s.attempt_ok _ (Chk.all_append (State.chkDk_ok hdk) (Chk.all_cons (chkAlign_ok halign _) (Chk.all_cons ?_ Chk.all_nil)))
  change (decide _ || _) = false
  rw [hidle, decide_eq_false (not_lt.2 hend)]
  rfl

theorem exec_sti_of_poisoned (hpa : s.poisonS a = true) (hdk : s.dkAwake dk d) : exec (.sti d a off dk) s = .next s.countDrop := by
  change execSti d a off dk s = _
  rw [execSti, hpa]
  exact s.attempt_ok _ (Chk.all_append (State.chkDk_ok hdk) Chk.all_nil)

variable (hcur : s.cur = .tile n)
include hcur

theorem execLdl_tile : execLdl d a off dk s
    = s.attempt (s.chkDk dk d ++ if s.poisonS a then [] else s.chkTimed (s.ea a off) (dkBytes dk) false [2]) fun u =>
        if s.poisonS a then u.putPoisoned (loadLatency (s.ea a off).toNat) (dkDest dk d)
        else u.timedLoad (s.ea a off) (dkDest dk d) (dkCode dk) := by
  rw [execLdl, hcur]

theorem execStl_tile : execStl d a off dk s
    = s.attempt (s.chkDk dk d ++ if s.poisonS a then [] else s.chkTimed (s.ea a off) (dkBytes dk) true [3]) fun u =>
        if s.poisonS a then u.countDrop else u.timedStore (s.ea a off) (dkBytes dk) (s.storeData dk d) := by
  rw [execStl, hcur]
  rfl

theorem exec_ldl_of_timed (hpa : s.poisonS a = false) (hdk : s.dkAwake dk d) (h : s.timedOk (s.ea a off) (dkBytes dk) false [2]) :
    exec (.ldl d a off dk) s = .next (s.timedLoad (s.ea a off) (dkDest dk d) (dkCode dk)) := by
  refine (execLdl_tile hcur).trans ?_
  rw [hpa]
  exact s.attempt_ok _ (Chk.all_append (State.chkDk_ok hdk) (State.chkTimed_ok (dkBytes_pos dk) h _))

theorem exec_stl_of_timed (hpa : s.poisonS a = false) (hdk : s.dkAwake dk d) (h : s.timedOk (s.ea a off) (dkBytes dk) true [3]) :
    exec (.stl d a off dk) s = .next (s.timedStore (s.ea a off) (dkBytes dk) (s.storeData dk d)) := by
  refine (execStl_tile hcur).trans ?_
  rw [hpa]
  exact s.attempt_ok _ (Chk.all_append (State.chkDk_ok hdk) (State.chkTimed_ok (dkBytes_pos dk) h _))

theorem exec_ldl_of_poisoned (hpa : s.poisonS a = true) (hdk : s.dkAwake dk d) :
    exec (.ldl d a off dk) s = .next (s.putPoisoned (loadLatency (s.ea a off).toNat) (dkDest dk d)) := by
  refine (execLdl_tile hcur).trans ?_
  rw [hpa]
  exact s.attempt_ok _ (Chk.all_append (State.chkDk_ok hdk) Chk.all_nil)

theorem exec_stl_of_poisoned (hpa : s.poisonS a = true) (hdk : s.dkAwake dk d) : exec (.stl d a off dk) s = .next s.countDrop := by
  refine (execStl_tile hcur).trans ?_
  rw [hpa]
  exact s.attempt_ok _ (Chk.all_append (State.chkDk_ok hdk) Chk.all_nil)

/-- A lateral load of a poisoned address sends no request (R41, R228). -/
theorem exec_ldv_lateral_of_poisoned (hwindow : lateralWindow (s.readS a) = true) (hpa : s.poisonS a = true)
    (hdk : s.dkAwake (dk2Kind dk2) d) (hfree : s.tile.lands[ls].st = .free) :
    exec (.ldv d a ls l dk2 q) s = .next (s.withSlot n ls l (dkDest (dk2Kind dk2) d) .failed) := by
  obtain rfl := State.tileNo_of_cur hcur
  change execLdv d a ls l dk2 q s = _
  rw [execLdv, if_pos hwindow, hpa]
  exact s.attempt_ok _ (Chk.all_append (Chk.all_append (State.chkDk_ok hdk) (Chk.all_cons (State.chkSlot_ok hfree) Chk.all_nil)) Chk.all_nil)

end

/-! What is queued -/

section
variable {s : State} {ea : W64} {k : Nat} (h : timedLoc (s.place ea k) = true)
include h

theorem State.timedLoad_of_timed (dest : Dest) (code : BitVec 4) : s.timedLoad ea dest code
    = s.put (if ea.toNat < 0x100000 then 6 else 12) dest 0#1024 false fun f =>
        { f with act := .read (s.psc + if ea.toNat < 0x100000 then 2 else 6) (if ea.toNat < 0x100000 then .tsp else .vault)
                          (if ea.toNat < 0x100000 then ea.toNat else ea.toNat - 0x1000000) code } := by
  simp only [State.timedLoad, loadLatency_of_timed h, readAfter_of_timed h, spaceOf_of_timed h, spaceAddr_of_timed h]

theorem State.timedStore_of_timed (n : Nat) (v : VReg × Bool) :
    let perf := s.psc + if ea.toNat < 0x100000 then 3 else 7
    let sp := if ea.toNat < 0x100000 then .tsp else .vault
    let x := if ea.toNat < 0x100000 then ea.toNat else ea.toNat - 0x1000000
    s.timedStore ea n v = if v.2 then (s.timedWrite perf sp x 0 0#1024).countDrop else s.timedWrite perf sp x n v.1 := by
  simp only [State.timedStore, Nat.add_assoc, readAfter_succ_of_timed h, spaceOf_of_timed h, spaceAddr_of_timed h]

end

/-- A poisoned result is one entry without an access, whose value is a free one (R41, log entry 4). -/
theorem State.putPoisoned_tile {s : State} (hcur : s.cur = .tile s.tileNo) (lat : Nat) (dest : Dest) :
    s.putPoisoned lat dest = (s.onDev fun d => { d with fresh := d.fresh + 1 }).onDev fun d => d.onTile s.tileNo fun t =>
      t.push (.result (s.dev.psc s.tileNo) s.iss.slot (s.dev.psc s.tileNo + lat - 1) dest (Config.poisonData s.dev.fresh) true) :=
  State.put_tile s.unstated.2 hcur lat dest _ _ _

theorem loadLatency_sub_one (a x : Nat) : x + loadLatency a - 1 = x + if a < 0x1000000 then 5 else 11 := by
  unfold loadLatency
  split <;> rfl

/-! Service cores -/

section
variable {s : State} {q : Fin 32} (hcur : s.cur = .svc q) {d a : Fin 32} {off : Option (BitVec 16)} {dk : DKind} (hpa : s.poisonS a = false)
  (halign : (s.ea a off).toNat % dkBytes dk = 0) (hend : (s.ea a off).toNat + dkBytes dk ≤ 2 ^ 18)
include hcur hpa halign hend

theorem exec_ldl_of_svc : exec (.ldl d a off dk) s
    = .next ((s.onDev fun e => e.ecc (e.boltOfQuad q) (svcKey q (s.ea a off).toNat) (dkBytes dk)).put 1 (dkDest dk d)
        (extend (dkCode dk) (s.dev.bytes (svcKey q (s.ea a off).toNat) (dkBytes dk)))
        (s.dev.bad (svcKey q (s.ea a off).toNat) (dkBytes dk))) := by
  change execLdl d a off dk s = _
  rw [execLdl, hcur, hpa]
  exact s.attempt_ok _ (Chk.all_cons (chkAlign_ok halign _) (Chk.all_cons (decide_eq_false (not_lt.2 hend)) Chk.all_nil))

theorem exec_stl_of_svc (hpd : (s.storeData dk d).2 = false) : exec (.stl d a off dk) s
    = .next (s.onDev fun e => e.write (svcKey q (s.ea a off).toNat) (leBytes (dkBytes dk) (s.storeData dk d).1.toNat)) := by
  change execStl d a off dk s = _
  rw [execStl, hcur, hpa, hpd]
  exact s.attempt_ok _ (Chk.all_cons (chkAlign_ok halign _) (Chk.all_cons (decide_eq_false (not_lt.2 hend)) Chk.all_nil))

end

theorem State.put_s_svc {s : State} {q : Fin 32} (hcur : s.cur = .svc q) (lat : Nat) {r : Fin 32} (hr : r ≠ 0) (v : VReg) (p : Bool) :
    (s.put lat (.s r) v p).dev.svcs[q].s[r] = v.setWidth 64 := by
  rw [State.put_svc _ hcur]
  simp [Dev.onSvc, Svc.writeDest, hr]

section
variable {dk : DKind} (hva : dk ≠ .va) (hvb : dk ≠ .vb)
include hva hvb

theorem dkDest_of_scalar (d : Fin 32) : dkDest dk d = .s d := by
  cases dk with
  | va => exact absurd rfl hva
  | vb => exact absurd rfl hvb
  | _ => rfl

theorem State.storeData_of_scalar (s : State) (d : Fin 32) : s.storeData dk d = ((s.readS d).setWidth 1024, s.poisonS d) := by
  cases dk with
  | va => exact absurd rfl hva
  | vb => exact absurd rfl hvb
  | _ => rfl

end

end Sys2Proof.Machine

namespace Sys2Proof
open Machine

/-- Settles O37: each operation's checks pass or are not made, and what it queues is what its definition gives for the space of the
address. -/
theorem timedLoadsAndStoresIssue : Obligations.TimedLoadsAndStoresIssue := by
  refine ⟨fun s n d a off dk hcur hpa hdk => ?tile, fun s n d a ls l dk q hcur hpa hdk hok => ?ldv,
    fun s n d a off dk hcur hpa hdk => ?dropped, fun s n d a hcur hpa => ?poisoned, fun s q d a off dk hcur hpa hva hvb => ?svc⟩
  case tile =>
    obtain rfl := State.tileNo_of_cur hcur
    intro ea tsp sp x v push
    have hea : ea = s.ea a off := by cases off <;> rfl
    clear_value ea
    subst hea
    refine ⟨fun hok => ?_, fun hok => ?_, fun halign hend hidle => exec_sti hpa hdk halign hend hidle⟩
    · rw [exec_ldl_of_timed hcur hpa hdk hok, State.timedLoad_of_timed hok.2.1]
      rfl
    · have hstore := State.timedStore_of_timed hok.2.1 (dkBytes dk) v
      exact ⟨(exec_stl_of_timed hcur hpa hdk hok).trans (congrArg _ hstore),
        fun q => (exec_stv_of_timed hpa hdk hok).trans (congrArg _ hstore)⟩
  case ldv =>
    obtain rfl := State.tileNo_of_cur hcur
    exact (exec_ldv_of_timed hpa hdk hok).trans (congrArg _ (State.timedLoad_of_timed hok.2.1 _ _))
  case dropped =>
    obtain rfl := State.tileNo_of_cur hcur
    exact ⟨exec_stl_of_poisoned hcur hpa hdk, exec_sti_of_poisoned hpa hdk⟩
  case poisoned =>
    obtain rfl := State.tileNo_of_cur hcur
    intro queues
    have hqueues {i : Instr} {dest : Dest} {ea : W64} (hi : exec i s = .next (s.putPoisoned (loadLatency ea.toNat) dest)) :
        queues i dest ea := by
      rw [State.putPoisoned_tile hcur] at hi
      exact ⟨_, _, hi, rfl, Dev.onTile_tiles_same .., rfl, rfl, rfl, rfl, loadLatency_sub_one ..⟩
    refine ⟨fun off dk hdk => hqueues ?_, fun ls l dk q hdk => ⟨fun hwindow => hqueues ?_, fun hwindow hfree => ?_⟩⟩
    · rw [exec_ldl_of_poisoned hcur hpa hdk]
      cases off <;> rfl
    · exact exec_ldv_of_poisoned hwindow hpa hdk
    · exact exec_ldv_lateral_of_poisoned hcur hwindow hpa hdk hfree
  case svc =>
    intro ea halign hend
    have hea : ea = s.ea a off := by cases off <;> rfl
    clear_value ea
    subst hea
    refine ⟨?_, fun hpd => ?_⟩
    · refine ⟨_, exec_ldl_of_svc hcur hpa halign hend, ?_, ?_⟩
      · rw [State.put_mem]
        exact (Dev.ecc_counted ..).mem
      · intro hd
        rw [dkDest_of_scalar hva hvb]
        exact State.put_s_svc (s := s.onDev _) hcur 1 hd _ _
    · have hdata := State.storeData_of_scalar hva hvb s d
      refine ⟨_, exec_stl_of_svc hcur hpa halign hend (by rw [hdata]; exact hpd), rfl, ?_⟩
      rw [hdata, ← BitVec.toNat_setWidth_of_le (b := s.readS d) (show 64 ≤ 1024 by decide)]
      rfl

end Sys2Proof
end

section
/-! O39, O40, O42, O44: an operation of the issuing tile as its checks and what it leaves where they pass, and the scope that it is
demoted to. -/

namespace Sys2Proof.Machine

/-! Checks and effect -/

/-- An operation makes the checks `l` and leaves `t` where all of them pass. -/
def State.Issues (s : State) (i : Instr) (l : List Chk) (t : State) : Prop := ∃ go : State → State, exec i s = s.attempt l go ∧ go s = t

namespace State.Issues
variable {s : State} {i : Instr} {l : List Chk} {t : State}

theorem ok (h : s.Issues i l t) (hl : ∀ c ∈ l, c.bad = false) : exec i s = .next t := by
  obtain ⟨go, hi, rfl⟩ := h
  rw [hi, s.attempt_ok go hl]

/-- The one check that fails raises its cause, and the operation has no other effect (R324). -/
theorem one_bad {n : Fin 128} (hcur : s.cur = .tile n) {l' : List Chk} {c : Chk} (h : s.Issues i (l ++ c :: l') t)
    (hl : ∀ c ∈ l, c.bad = false) (hl' : ∀ c ∈ l', c.bad = false) (hc : c.bad = true) :
    exec i s = .next (s.raiseAt c.cause c.detail (c.slot.getD s.iss.slot) c.ea) := by
  have hfilter : (l ++ c :: l').filter Chk.bad = [c] := by
    rw [List.filter_append, List.filter_eq_nil_iff.2 fun c hm => by simp [hl c hm], List.filter_cons_of_pos hc,
      List.filter_eq_nil_iff.2 fun c hm => by simp [hl' c hm]]
    rfl
  obtain ⟨go, hi, -⟩ := h
  rw [hi, s.attempt_bad go ⟨c, by simp, hc⟩, hfilter, State.raiseAll, hcur]
  rfl

end State.Issues

/-- Checks that are made of an unpoisoned operand alone. -/
theorem Chk.all_unpoisoned {p : Bool} {l : List Chk} (h : p = true ∨ ∀ c ∈ l, c.bad = false) :
    ∀ c ∈ if p then [] else l, c.bad = false := by
  cases p with
  | true => exact Chk.all_nil
  | false => exact h.resolve_left Bool.false_ne_true

theorem State.chkSlot_bad {s : State} {ls : Fin 64} (h : s.tile.lands[ls].st ≠ .free) : (s.chkSlot ls).bad = true := bne_iff_ne.2 h

theorem State.chkOut_bad {s : State} (h : ¬ s.entryFree) : s.chkOut.bad = true := decide_eq_true (not_lt.1 h)

/-! Scopes -/

theorem Dev.demote_fst (d : Dev) (n : Fin 128) (scope : Nat) : (d.demote n scope).1 = min scope (d.ceiling n) := by
  unfold Dev.demote
  dsimp only
  split <;> omega

theorem Dev.demote_snd (d : Dev) (n : Fin 128) (scope : Nat) : (d.demote n scope).2 = decide (d.ceiling n < scope) := by
  unfold Dev.demote
  dsimp only
  split
  · exact (decide_eq_true ‹_›).symm
  · exact (decide_eq_false ‹_›).symm

theorem State.atScope_eq (s : State) (scope : Nat) : s.atScope scope = min scope (s.dev.ceiling s.tileNo) := Dev.demote_fst ..

/-- The panel of a tile is that of its owner, which most changes to a tile leave. -/
theorem Dev.panelOf_onTile {d : Dev} {n : Fin 128} {f : Tile → Tile} (hf : (f d.tiles[n]).owner = d.tiles[n].owner) (m : Fin 128) :
    (d.onTile n f).panelOf m = d.panelOf m := by
  have howner : (d.onTile n f).tiles[m].owner = d.tiles[m].owner := by
    by_cases h : m = n
    · subst h
      rw [Dev.onTile_tiles_same, hf]
    · rw [Dev.onTile_tiles_ne h]
  unfold Dev.panelOf
  rw [howner]
  rfl

theorem Dev.psc_onTile {d : Dev} {n : Fin 128} {f : Tile → Tile} (hf : (f d.tiles[n]).owner = d.tiles[n].owner) (m : Fin 128) :
    (d.onTile n f).psc m = d.psc m := by
  rw [Dev.psc, Dev.panelOf_onTile hf, Dev.psc]

theorem Dev.ceiling_onTile {d : Dev} {n : Fin 128} {f : Tile → Tile} (hf : (f d.tiles[n]).owner = d.tiles[n].owner) (m : Fin 128) :
    (d.onTile n f).ceiling m = d.ceiling m := by
  rw [Dev.ceiling, Dev.panelOf_onTile hf, Dev.ceiling]
  rfl

/-- A demotion is recorded against the ceiling of the tile's vdev, which opening a slot and adding an operation leave (R223). -/
theorem State.demoted_of_ceiling {s u : State} (hno : u.tileNo = s.tileNo) (hceil : u.dev.ceiling s.tileNo = s.dev.ceiling s.tileNo)
    (scope : Nat) :
    u.demoted scope = u.onDev fun e => e.noteDemote s.tileNo (decide (s.dev.ceiling s.tileNo < scope)) := by
  rw [State.demoted, hno]
  change { u with dev := u.dev.noteDemote s.tileNo (u.dev.demote s.tileNo scope).2 } = _
  rw [Dev.demote_snd, hceil]
  rfl

theorem State.demoted_sendOp (s : State) (o : MemOp) (scope : Nat) : (s.sendOp o).demoted scope
    = (s.withOp s.tileNo o).onDev fun e => e.noteDemote s.tileNo (decide (s.dev.ceiling s.tileNo < scope)) :=
  State.demoted_of_ceiling (s := s) (u := s.sendOp o) rfl (Dev.ceiling_onTile rfl _) scope

theorem State.demoted_openSlot_sendOp (s : State) (ls : Fin 64) (l : Landing) (dest : Dest) (o : MemOp) (scope : Nat) :
    ((s.openSlot ls l dest false).sendOp o).demoted scope
      = ((s.withSlot s.tileNo ls l dest .wait).withOp s.tileNo o).onDev fun e =>
          e.noteDemote s.tileNo (decide (s.dev.ceiling s.tileNo < scope)) := by
  refine State.demoted_of_ceiling (s := s) (u := (s.openSlot ls l dest false).sendOp o) rfl ?_ scope
  exact (Dev.ceiling_onTile rfl _).trans (Dev.ceiling_onTile rfl _)

end Sys2Proof.Machine
end

section
/-! O39: loads and stores of global memory and of lateral windows, `zline` and `pref`. -/

namespace Sys2Proof.Machine

section
variable {s : State} {n : Fin 128} (hcur : s.cur = .tile n) (d a : Fin 32) (ls : Fin 64) (l : Landing) (off : Option (BitVec 16))
  (dk : DKind) (dk2 : DKind2)

/-- The request of an `ldg` (R226). -/
def State.ldgOp (s : State) (a : Fin 32) (ls : Fin 64) (dk2 : DKind2) (q : LdQual) : MemOp :=
  { s.memOp .ldg (s.readS a) (dkBytes (dk2Kind dk2)) with
    ls := some ls, hint := (ldQual q).1, acq := (ldQual q).2.1, scope := s.atScope (ldQual q).2.2.1, strong := (ldQual q).2.2.2 }

/-- The write of an `stg` (R227). -/
def State.stgOp (s : State) (d a : Fin 32) (off : Option (BitVec 16)) (dk : DKind) (q : StQual) : MemOp :=
  { s.memOp .stg (s.ea a off) (dkBytes dk) with
    entry := true, data := (s.storeData dk d).1, hint := (stQual q).1, rel := (stQual q).2.1, scope := s.atScope (stQual q).2.2.1,
    strong := (stQual q).2.2.2 }

include hcur

theorem exec_ldg_issues (q : LdQual) : s.Issues (.ldg d a ls l dk2 q)
    (s.chkDk (dk2Kind dk2) d ++ s.chkSlot ls :: if s.poisonS a then [] else s.chkDva (s.readS a) (dkBytes (dk2Kind dk2)) false)
    (if s.poisonS a then s.withSlot n ls l (dkDest (dk2Kind dk2) d) .failed
      else ((s.withSlot n ls l (dkDest (dk2Kind dk2) d) .wait).withOp n (s.ldgOp a ls dk2 q)).onDev fun e =>
        e.noteDemote n (decide (s.dev.ceiling n < (ldQual q).2.2.1))) := by
  obtain rfl := State.tileNo_of_cur hcur
  refine ⟨?go, ?hi, ?ht⟩
  case hi =>
    change execLdg d a ls l dk2 q s = _
    rw [execLdg, State.onlyTile_of_cur hcur, List.append_assoc]
    rfl
  case ht =>
    dsimp only
    rw [hcur]
    exact if_congr Iff.rfl rfl (State.demoted_openSlot_sendOp ..)

theorem exec_stg_issues (q : StQual) : s.Issues (.stg d a off dk q)
    (s.chkDk dk d ++ s.chkOut :: if s.poisonS a then [] else s.chkDva (s.ea a off) (dkBytes dk) true)
    (if s.poisonS a || (s.storeData dk d).2 then s.onDev fun e => e.onTile n Tile.dropPoisoned
      else (s.withOp n (s.stgOp d a off dk q)).onDev fun e => e.noteDemote n (decide (s.dev.ceiling n < (stQual q).2.2.1))) := by
  obtain rfl := State.tileNo_of_cur hcur
  refine ⟨?go, ?hi, ?ht⟩
  case hi =>
    change execStg d a off dk q s = _
    rw [execStg, State.onlyTile_of_cur hcur, List.append_assoc]
    rfl
  case ht =>
    dsimp only
    rw [hcur]
    exact if_congr Iff.rfl rfl (State.demoted_sendOp ..)

/-- The request of a lateral `ldv` (R228). -/
def State.ldvOp (s : State) (a : Fin 32) (ls : Fin 64) (dk2 : DKind2) (q : VOrd) : MemOp :=
  { s.memOp .ldv (s.readS a) (dkBytes (dk2Kind dk2)) with ls := some ls, acq := q == .order, strong := q != .weak, scope := 1 }

/-- The write of a lateral `stv` (R228). -/
def State.stvOp (s : State) (d a : Fin 32) (off : Option (BitVec 16)) (dk : DKind) (q : VOrd) : MemOp :=
  { s.memOp .stv (s.ea a off) (dkBytes dk) with
    entry := true, data := (s.storeData dk d).1, rel := q == .order, strong := q != .weak, scope := 1 }

theorem exec_ldv_issues (q : VOrd) (hwindow : lateralWindow (s.readS a) = true) : s.Issues (.ldv d a ls l dk2 q)
    (s.chkDk (dk2Kind dk2) d ++ s.chkSlot ls :: if s.poisonS a then [] else s.chkLateral (s.readS a) (dkBytes (dk2Kind dk2)) false)
    (if s.poisonS a then s.withSlot n ls l (dkDest (dk2Kind dk2) d) .failed
      else (s.withSlot n ls l (dkDest (dk2Kind dk2) d) .wait).withOp n (s.ldvOp a ls dk2 q)) := by
  obtain rfl := State.tileNo_of_cur hcur
  refine ⟨?go, ?hi, ?ht⟩
  case hi =>
    change execLdv d a ls l dk2 q s = _
    rw [execLdv, if_pos hwindow, List.append_assoc]
    rfl
  case ht => rfl

theorem exec_stv_issues (q : VOrd) (hwindow : lateralWindow (s.ea a off) = true) : s.Issues (.stv d a off dk q)
    (s.chkDk dk d ++ s.chkOut :: if s.poisonS a then [] else s.chkLateral (s.ea a off) (dkBytes dk) true)
    (if s.poisonS a || (s.storeData dk d).2 then s.onDev fun e => e.onTile n Tile.dropPoisoned
      else s.withOp n (s.stvOp d a off dk q)) := by
  obtain rfl := State.tileNo_of_cur hcur
  refine ⟨?go, ?hi, ?ht⟩
  case hi =>
    change execStv d a off dk q s = _
    rw [execStv, if_pos hwindow, List.append_assoc]
    rfl
  case ht => rfl

/-- The write of a `zline` (R238). -/
def State.zlineOp (s : State) (a : Fin 32) (off : Option (BitVec 16)) : MemOp := { s.memOp .zline (s.ea a off) 128 with entry := true }

/-- The request of a `pref` (R239). -/
def State.prefOp (s : State) (a : Fin 32) (off : Option (BitVec 16)) (ef : Bool) : MemOp :=
  { s.memOp .pref (s.ea a off) 1 with hint := if ef then 3#2 else 0#2 }

theorem exec_zline_issues : s.Issues (.zline a off) (s.chkOut :: if s.poisonS a then [] else s.chkDva (s.ea a off) 128 true)
    (if s.poisonS a then s.onDev fun e => e.onTile n Tile.dropPoisoned
      else s.withOp n (s.zlineOp a off)) := by
  obtain rfl := State.tileNo_of_cur hcur
  refine ⟨?go, ?hi, ?ht⟩
  case hi =>
    change execZline a off s = _
    rw [execZline, State.onlyTile_of_cur hcur]
    rfl
  case ht =>
    dsimp only
    rw [hcur]
    rfl

theorem exec_pref_issues (ef : Bool) : s.Issues (.pref a off ef)
    (if s.poisonS a then [] else [chkBounds (decide (2 ^ 56 ≤ (s.ea a off).toNat)) (s.ea a off)])
    (if s.poisonS a then s else s.withOp n (s.prefOp a off ef)) := by
  obtain rfl := State.tileNo_of_cur hcur
  refine ⟨?go, ?hi, ?ht⟩
  case hi =>
    change execPref a off ef s = _
    rw [execPref]
  case ht =>
    dsimp only
    rw [hcur]
    rfl

end

end Sys2Proof.Machine

namespace Sys2Proof
open Machine

/-- Settles O39: the checks of each operation pass, or all but that of the landing slot or of the outbound entry, and what it leaves is
what its definition gives. -/
theorem outboundAndLandingOperationsIssue : Obligations.OutboundAndLandingOperationsIssue := by
  refine ⟨fun s n d a ls l dk hcur hdk hfree => ?loads, fun s n d a off dk hcur hdk hentry => ?stores, fun s n a off ef hcur => ?lines,
    fun s n d a ls l dk q hcur hdk hbusy => ?busy, fun s n d a off dk q hcur hdk hfull => ?full⟩
  case loads =>
    obtain rfl := State.tileNo_of_cur hcur
    have hdkok := State.chkDk_ok hdk
    have hslot := State.chkSlot_ok hfree
    refine ⟨fun q hpa hok => ⟨s.ldgOp a ls dk q, rfl, rfl, rfl, rfl, rfl, rfl, rfl, rfl, s.atScope_eq _, ?_⟩, fun q hpa => ?_,
      fun q hpa hloc halign hwatch => ⟨s.ldvOp a ls dk q, rfl, rfl, rfl, rfl, rfl, rfl, by cases q <;> rfl, ?_⟩⟩
    · have h := (exec_ldg_issues hcur d a ls l dk q).ok (Chk.all_append hdkok (Chk.all_cons hslot
        (Chk.all_unpoisoned (.inr (State.chkDva_ok hcur (dkBytes_pos _) hok)))))
      rwa [hpa] at h
    · have h := (exec_ldg_issues hcur d a ls l dk q).ok (Chk.all_append hdkok (Chk.all_cons hslot (Chk.all_unpoisoned (.inl hpa))))
      rwa [hpa] at h
    · have h := (exec_ldv_issues hcur d a ls l dk q (lateralWindow_of_lateralLoc hloc)).ok (Chk.all_append hdkok (Chk.all_cons hslot
        (Chk.all_unpoisoned (.inr (State.chkLateral_ok (dkBytes_pos _) hloc halign hwatch _)))))
      rwa [hpa] at h
  case stores =>
    obtain rfl := State.tileNo_of_cur hcur
    have hdkok := State.chkDk_ok hdk
    have hout := State.chkOut_ok hentry
    intro size ea v
    have hea : ea = s.ea a off := by cases off <;> rfl
    clear_value ea
    subst hea
    refine ⟨fun q hpa hpd hok => ⟨s.stgOp d a off dk q, rfl, rfl, rfl, rfl, rfl, rfl, rfl, rfl, rfl, s.atScope_eq _, ?_⟩, fun q hpa => ?_,
      fun q hpa hpd hloc halign hwatch => ⟨s.stvOp d a off dk q, rfl, rfl, rfl, rfl, rfl, rfl, rfl, by cases q <;> rfl, ?_⟩⟩
    · have h := (exec_stg_issues hcur d a off dk q).ok (Chk.all_append hdkok (Chk.all_cons hout
        (Chk.all_unpoisoned (.inr (State.chkDva_ok hcur (dkBytes_pos _) hok)))))
      rwa [hpa, hpd] at h
    · have h := (exec_stg_issues hcur d a off dk q).ok (Chk.all_append hdkok (Chk.all_cons hout (Chk.all_unpoisoned (.inl hpa))))
      rwa [hpa] at h
    · have h := (exec_stv_issues hcur d a off dk q (lateralWindow_of_lateralLoc hloc)).ok (Chk.all_append hdkok (Chk.all_cons hout
        (Chk.all_unpoisoned (.inr (State.chkLateral_ok (dkBytes_pos _) hloc halign hwatch _)))))
      rwa [hpa, hpd] at h
  case lines =>
    obtain rfl := State.tileNo_of_cur hcur
    intro ea
    have hea : ea = s.ea a off := by cases off <;> rfl
    clear_value ea
    subst hea
    have hzline := exec_zline_issues hcur a off
    have hpref := exec_pref_issues hcur a off ef
    refine ⟨fun hpa hentry hok => ⟨s.zlineOp a off, rfl, rfl, rfl, rfl, rfl, rfl, ?_⟩, fun hpa hlt => ⟨s.prefOp a off ef, rfl, rfl, rfl, rfl, rfl, ?_⟩, fun hpa => ?_,
      fun hpa hentry => ?_, fun hok hfull => ?_⟩
    · have h := hzline.ok (Chk.all_cons (State.chkOut_ok hentry) (Chk.all_unpoisoned (.inr (State.chkDva_ok hcur (by decide) hok))))
      rwa [hpa] at h
    · have h := hpref.ok (Chk.all_unpoisoned (.inr (Chk.all_cons (decide_eq_false (not_le.2 hlt)) Chk.all_nil)))
      rwa [hpa] at h
    · have h := hpref.ok (Chk.all_unpoisoned (.inl hpa))
      rwa [hpa] at h
    · have h := hzline.ok (Chk.all_cons (State.chkOut_ok hentry) (Chk.all_unpoisoned (.inl hpa)))
      rwa [hpa] at h
    · exact State.Issues.one_bad hcur (l := []) hzline Chk.all_nil
        (Chk.all_unpoisoned (hok.imp_right (State.chkDva_ok hcur (by decide)))) (State.chkOut_bad hfull)
  case busy =>
    obtain rfl := State.tileNo_of_cur hcur
    have hdkok := State.chkDk_ok hdk
    have hslot := State.chkSlot_bad hbusy
    refine ⟨fun hok => ?_, fun hwindow hok o => ?_⟩
    · exact State.Issues.one_bad hcur (exec_ldg_issues hcur d a ls l dk q) hdkok
        (Chk.all_unpoisoned (hok.imp_right (State.chkDva_ok hcur (dkBytes_pos _)))) hslot
    · exact State.Issues.one_bad hcur (exec_ldv_issues hcur d a ls l dk o hwindow) hdkok
        (Chk.all_unpoisoned (hok.imp_right fun ⟨hloc, halign, hwatch⟩ =>
          State.chkLateral_ok (dkBytes_pos _) hloc halign hwatch _)) hslot
  case full =>
    obtain rfl := State.tileNo_of_cur hcur
    have hdkok := State.chkDk_ok hdk
    have hout := State.chkOut_bad hfull
    intro size ea
    have hea : ea = s.ea a off := by cases off <;> rfl
    clear_value ea
    subst hea
    refine ⟨fun hok => ?_, fun hwindow hok o => ?_⟩
    · exact State.Issues.one_bad hcur (exec_stg_issues hcur d a off dk q) hdkok
        (Chk.all_unpoisoned (hok.imp_right (State.chkDva_ok hcur (dkBytes_pos _)))) hout
    · exact State.Issues.one_bad hcur (exec_stv_issues hcur d a off dk o hwindow) hdkok
        (Chk.all_unpoisoned (hok.imp_right fun ⟨hloc, halign, hwatch⟩ =>
          State.chkLateral_ok (dkBytes_pos _) hloc halign hwatch _)) hout

end Sys2Proof
end

section
/-! O42: `launch` and `evpost`. -/

namespace Sys2Proof.Machine

section
variable {s : State} {n : Fin 128} (hcur : s.cur = .tile n) (a : Fin 32)

/-- The release of a `launch` that names a spool by a register or an immediate (R240). -/
def State.launchOp (s : State) (a : Fin 32) (o : SOpd) : MemOp :=
  { s.memOp .launch (s.readS a) 128 with
    entry := true, dst := (match o with | .reg r => (s.readS r).toNat | .imm i => i.toNat), rel := true, scope := 3 }

/-- The release of an `evpost` (R241). -/
def State.evpostOp (s : State) (a : Fin 32) (code : Option (BitVec 16)) : MemOp :=
  { s.memOp .evpost 0#64 0 with
    entry := true, data := (s.readS a).setWidth 1024, data2 := s.tile.sr.wid, dst := code.elim 0 BitVec.toNat, n := s.dev.dcc,
    rel := true, scope := s.atScope 4 }

include hcur

theorem exec_launch_issues (o : SOpd) : s.Issues (.launch a o)
    (s.chkOut :: if s.poisonS a then [] else
      [chkAlign ((s.readS a).toNat % 128 != 0) (s.readS a), chkBounds (decide (2 ^ 56 ≤ (s.readS a).toNat)) (s.readS a)])
    (if s.poisonS a || s.sopdPoison o then s.onDev fun e => e.onTile n Tile.dropPoisoned else s.withOp n (s.launchOp a o)) := by
  obtain rfl := State.tileNo_of_cur hcur
  refine ⟨?go, ?hi, ?ht⟩
  case hi =>
    change execLaunch a o s = _
    unfold execLaunch
    rfl
  case ht => cases o <;> rfl

theorem exec_evpost_issues (code : Option (BitVec 16)) : s.Issues (.evpost a code) [s.chkOut]
    (if s.poisonS a then s.onDev fun e => e.onTile n Tile.dropPoisoned
      else (s.withOp n (s.evpostOp a code)).onDev fun e => e.noteDemote n (decide (s.dev.ceiling n < 4))) := by
  obtain rfl := State.tileNo_of_cur hcur
  refine ⟨?go, ?hi, ?ht⟩
  case hi =>
    change execEvpost a code s = _
    rw [execEvpost]
  case ht => exact if_congr Iff.rfl rfl (State.demoted_sendOp ..)

end

end Sys2Proof.Machine

namespace Sys2Proof
open Machine

/-- Settles O42: the checks pass, and both leave the release that their definitions give, or for a poisoned operand its count. -/
theorem launchAndEventOperationsIssue : Obligations.LaunchAndEventOperationsIssue := by
  intro s n a hcur hentry
  obtain rfl := State.tileNo_of_cur hcur
  have hout := State.chkOut_ok hentry
  refine ⟨fun o hpa hpo halign hlt => ⟨s.launchOp a o, rfl, rfl, rfl, rfl, rfl, rfl, rfl, rfl, by cases o <;> rfl, ?_⟩,
    fun code hpa => ⟨s.evpostOp a code, rfl, rfl, rfl, rfl, ?_, rfl, by cases code <;> rfl, rfl, rfl, s.atScope_eq 4, ?_⟩,
    fun hpa o code => ⟨?_, ?_⟩⟩
  · have h := (exec_launch_issues hcur a o).ok (Chk.all_cons hout (Chk.all_unpoisoned (.inr (Chk.all_cons (chkAlign_ok halign _)
      (Chk.all_cons (decide_eq_false (not_le.2 hlt)) Chk.all_nil)))))
    rwa [hpa, hpo] at h
  · exact BitVec.setWidth_setWidth_of_le _ (by decide)
  · have h := (exec_evpost_issues hcur a code).ok (Chk.all_cons hout Chk.all_nil)
    rwa [hpa] at h
  · have h := (exec_launch_issues hcur a o).ok (Chk.all_cons hout (Chk.all_unpoisoned (.inl hpa)))
    rwa [hpa] at h
  · have h := (exec_evpost_issues hcur a code).ok (Chk.all_cons hout Chk.all_nil)
    rwa [hpa] at h

end Sys2Proof
end

section
/-! O40: `amo` and `cas` in their timed, lateral and global forms, and the new words of the operations. -/

namespace Sys2Proof.Machine

/-! The shared operation that each form is -/

section
variable (s : State) (d a : Fin 32) (ls : Fin 64) (l : Landing) (q : Option Scope)

theorem exec_amoAdd : exec (.amoAdd d a ls l q) s = s.amo .add d a ls l q := rfl
theorem exec_amoAnd : exec (.amoAnd d a ls l q) s = s.amo .and d a ls l q := rfl
theorem exec_amoOr : exec (.amoOr d a ls l q) s = s.amo .or d a ls l q := rfl
theorem exec_amoXor : exec (.amoXor d a ls l q) s = s.amo .xor d a ls l q := rfl
theorem exec_amoMax : exec (.amoMax d a ls l q) s = s.amo .max d a ls l q := rfl
theorem exec_amoMin : exec (.amoMin d a ls l q) s = s.amo .min d a ls l q := rfl
theorem exec_amoMaxn : exec (.amoMaxn d a ls l q) s = s.amo .maxn d a ls l q := rfl
theorem exec_amoSwap : exec (.amoSwap d a ls l q) s = s.amo .swap d a ls l q := rfl

theorem State.amo_of_unpoisoned {s : State} {d : Fin 32} (hpd : s.poisonS d = false) (op : AmoOp) :
    s.amo op d a ls l q = s.atomic op d a ls l (s.readS d) 0#64 false q.isSome q.isSome (q.elim 0 scopeNum) := by
  rw [State.amo, hpd]

/-- What a qualifier of `cas` names: acquire, release and scope (R232). -/
def casOrd : CasQual → Bool × Bool × Nat
  | .none => (false, false, 0)
  | .acq y => (true, false, scopeNum y)
  | .rel y => (false, true, scopeNum y)
  | .ar y => (true, true, scopeNum y)

theorem exec_cas_of_unpoisoned {s : State} {d : Fin 32} (q : CasQual) (hp : (s.poisonS d || s.poisonS (d + 1)) = false) :
    exec (.cas d a ls l q) s
      = s.atomic .cas d a ls l (s.readS (d + 1)) (s.readS d) false (casOrd q).1 (casOrd q).2.1 (casOrd q).2.2 := by
  change execCas d a ls l q s = _
  unfold execCas
  dsimp only
  rw [hp]
  cases q <;> rfl

end

/-! The three forms -/

section
variable {s : State} {n : Fin 128} (hcur : s.cur = .tile n) {op : AmoOp} {d a : Fin 32} {ls : Fin 64} {l : Landing} {v c : W64}
  {acq rel : Bool} {scope : Nat} (hpa : s.poisonS a = false)

/-- The request of an atomic in its lateral or global form (R230). -/
def State.amoOp (s : State) (kind : MKind) (addr : W64) (ls : Fin 64) (op : AmoOp) (v c : W64) (acq rel : Bool) (scope : Nat) : MemOp :=
  { s.memOp kind addr 8 with
    ls := some ls, amo := op, data := v.setWidth 1024, data2 := c, acq := acq, rel := rel, strong := acq || rel, scope := s.atScope scope }

/-- The word address of the local forms: the low half of EA (R230). -/
def amoLoc (ea : W64) : W64 := ea &&& 0xffffffff#64

include hcur hpa

theorem State.atomic_timed (hlocal : (s.readS a).getLsbD 63 = true) (hfield : fieldOf (s.readS a) 32 31 = 0)
    (h : s.timedOk (amoLoc (s.readS a)) 8 true [2, 3]) :
    s.atomic op d a ls l v c false acq rel scope = .next
      ((s.timedAmo (amoLoc (s.readS a)) d op v c { acq := acq, rel := rel, scope := s.atScope scope }).demoted scope) := by
  have hwindow : lateralWindow (s.readS a &&& 0xffffffff#64) = false := lateralWindow_of_timedLoc h.2.1
  simp only [State.atomic, hcur, hlocal, hfield, hwindow, hpa]
  exact (if_pos rfl).trans (s.attempt_ok _ (State.chkTimed_ok (by decide) h _))

theorem State.atomic_lateral (hlocal : (s.readS a).getLsbD 63 = true) (hfield : fieldOf (s.readS a) 32 31 = 0)
    (hfree : s.tile.lands[ls].st = .free) (halign : (amoLoc (s.readS a)).toNat % 8 = 0)
    (hloc : lateralLoc (s.place (amoLoc (s.readS a)) 8) = true) (hwatch : s.unwatched (amoLoc (s.readS a)) 8 true false) :
    s.atomic op d a ls l v c false acq rel scope = .next
      (((s.openSlot ls l (.s d) false).sendOp (s.amoOp .amoV (amoLoc (s.readS a)) ls op v c acq rel scope)).demoted scope) := by
  have hwindow : lateralWindow (s.readS a &&& 0xffffffff#64) = true := lateralWindow_of_lateralLoc hloc
  simp only [State.atomic, hcur, hlocal, hfield, hwindow, hpa]
  exact (if_neg Bool.false_ne_true).trans ((if_pos trivial).trans
    (s.attempt_ok _ (Chk.all_cons (State.chkSlot_ok hfree) (State.chkLateral_ok (by decide) hloc halign hwatch _))))

theorem State.atomic_global (hglobal : (s.readS a).getLsbD 63 = false) (hfree : s.tile.lands[ls].st = .free)
    (h : s.dvaOk (s.readS a) 8 true) :
    s.atomic op d a ls l v c false acq rel scope = .next
      (((s.openSlot ls l (.s d) false).sendOp (s.amoOp .amoG (s.readS a) ls op v c acq rel scope)).demoted scope) := by
  simp only [State.atomic, hcur, hglobal, hpa]
  exact (if_neg Bool.false_ne_true).trans ((if_neg Bool.false_ne_true).trans
    (s.attempt_ok _ (Chk.all_cons (State.chkSlot_ok hfree) (State.chkDva_ok hcur (by decide) h))))

omit hpa in
theorem State.timedAmo_demoted {ea : W64} {k : Nat} (h : timedLoc (s.place ea k) = true) (ord : AmoOrd) :
    (s.timedAmo ea d op v c ord).demoted scope
      = (s.put (if ea.toNat < 0x100000 then 6 else 12) (.s d) 0#1024 false fun f =>
          { f with act := .amo (s.dev.psc n + if ea.toNat < 0x100000 then 2 else 6) (if ea.toNat < 0x100000 then .tsp else .vault)
                            (if ea.toNat < 0x100000 then ea.toNat else ea.toNat - 0x1000000) op v c ord }).onDev fun e =>
              e.noteDemote n (decide (s.dev.ceiling n < scope)) := by
  obtain rfl := State.tileNo_of_cur hcur
  have hput : s.timedAmo ea d op v c ord = s.put (if ea.toNat < 0x100000 then 6 else 12) (.s d) 0#1024 false fun f =>
      { f with act := .amo (s.dev.psc s.tileNo + if ea.toNat < 0x100000 then 2 else 6) (if ea.toNat < 0x100000 then .tsp else .vault)
                        (if ea.toNat < 0x100000 then ea.toNat else ea.toNat - 0x1000000) op v c ord } := by
    simp only [State.timedAmo, loadLatency_of_timed h, readAfter_of_timed h, spaceOf_of_timed h, spaceAddr_of_timed h, State.psc]
  rw [hput]
  refine State.demoted_of_ceiling (State.tileNo_of_cur ((State.put_cur ..).trans hcur)) ?_ scope
  rw [State.put_tile _ hcur]
  exact Dev.ceiling_onTile rfl _

end

/-! The new word -/

section
variable (old v x : W64)

theorem amoNew_add : amoNew .add old v x = BitVec.ofInt 64 (old.toInt + v.toInt) := by
  rw [BitVec.ofInt_add, BitVec.ofInt_toInt, BitVec.ofInt_toInt]
  rfl

theorem toInt_amoNew_max : (amoNew .max old v x).toInt = max old.toInt v.toInt := by
  simp only [amoNew, BitVec.slt, decide_eq_true_eq]
  split <;> omega

theorem toInt_amoNew_min : (amoNew .min old v x).toInt = min old.toInt v.toInt := by
  simp only [amoNew, BitVec.slt, decide_eq_true_eq]
  split <;> omega

theorem toNat_amoNew_maxn : (amoNew .maxn old v x).toNat = max old.toNat v.toNat := by
  simp only [amoNew, BitVec.ult, decide_eq_true_eq]
  split <;> omega

end

end Sys2Proof.Machine

namespace Sys2Proof
open Machine

/-- Settles O40: every form is the one shared operation, whose form the address chooses; the new words by the order on integers. -/
theorem atomicsIssue : Obligations.AtomicsIssue := by
  refine ⟨fun s n d a ls l i op v x acq rel scope hcur hpa hpd hi => ?_, fun old v x => ⟨amoNew_add old v x, rfl, rfl, rfl,
    toInt_amoNew_max old v x, toInt_amoNew_min old v x, toNat_amoNew_maxn old v x, rfl, fun h => if_pos h, fun h => if_neg h⟩⟩
  have hexec : exec i s = s.atomic op d a ls l v x false acq rel scope := by
    obtain ⟨q, rfl, rfl, rfl, rfl, hscope, hi⟩ | ⟨q, rfl, rfl, rfl, rfl, hpe, hq⟩ := hi
    · have hamo := State.amo_of_unpoisoned a ls l q hpd
      obtain rfl : scope = q.elim 0 scopeNum := hscope.trans (by cases q <;> rfl)
      obtain ⟨rfl, rfl⟩ | ⟨rfl, rfl⟩ | ⟨rfl, rfl⟩ | ⟨rfl, rfl⟩ | ⟨rfl, rfl⟩ | ⟨rfl, rfl⟩ | ⟨rfl, rfl⟩ | ⟨rfl, rfl⟩ := hi <;> exact hamo _
    · have hp : (s.poisonS d || s.poisonS (d + 1)) = false := by rw [hpd, hpe, Bool.or_false]
      have hcas := exec_cas_of_unpoisoned a ls l q hp
      cases q <;> (obtain ⟨rfl, rfl, rfl⟩ := hq; exact hcas)
  intro ea loc tsp
  obtain rfl := State.tileNo_of_cur hcur
  refine ⟨fun hlocal hfield hok => ?_, fun hlocal hfield hfree halign hloc hwatch => ?_, fun hglobal hfree hok => ?_⟩
  · rw [hexec, State.atomic_timed hcur hpa hlocal hfield hok, State.timedAmo_demoted (ea := amoLoc (s.readS a)) hcur hok.2.1,
      State.atScope_eq]
    rfl
  · refine ⟨s.amoOp .amoV (amoLoc (s.readS a)) ls op v x acq rel scope, rfl, rfl, rfl, rfl, rfl, rfl,
      BitVec.setWidth_setWidth_of_le v (by decide), rfl, rfl, rfl, s.atScope_eq scope, ?_⟩
    rw [hexec, State.atomic_lateral hcur hpa hlocal hfield hfree halign hloc hwatch, State.demoted_openSlot_sendOp]
  · refine ⟨s.amoOp .amoG (s.readS a) ls op v x acq rel scope, rfl, rfl, rfl, rfl, rfl, rfl,
      BitVec.setWidth_setWidth_of_le v (by decide), rfl, rfl, rfl, s.atScope_eq scope, ?_⟩
    rw [hexec, State.atomic_global hcur hpa hglobal hfree hok, State.demoted_openSlot_sendOp]

end Sys2Proof
end

section
/-! O44: semaphores, `sndr`, `semv`, `xfar` and `xrcvf` at issue. -/

namespace Sys2Proof.Machine

theorem Dev.onTile_onTile (d : Dev) (n : Fin 128) (f g : Tile → Tile) : (d.onTile n f).onTile n g = d.onTile n fun t => g (f t) := by
  simp [Dev.onTile]

theorem fieldOf_zero {m : Nat} (v : BitVec m) (w : Nat) : fieldOf v 0 w = v.toNat % 2 ^ w := by
  rw [fieldOf, field, pow_zero, Nat.div_one]

/-! Semaphores -/

theorem Tile.semAwaited_eq_false {t : Tile} {sem : Fin 16} (h : ∀ o ∈ t.ops, ¬ (o.kind = .xrcvf ∧ o.stage = .issued ∧ o.sem = sem)) :
    t.semAwaited sem = false := by
  refine List.any_eq_false.2 fun o ho hany => h o ho ?_
  simpa only [Bool.and_eq_true, beq_iff_eq, and_assoc] using hany

section
variable {s : State} {sem : Fin 16} (h : s.tile.semAwaited sem = false)
include h

theorem exec_semw_of_free (p : Fin 8) (k : BitVec 8) : exec (.semw p sem k) s
    = .next ((if decide (k.toNat ≤ (s.tile.sr.sem[sem]).toNat) then s.onTile fun t => t.setSem sem (s.tile.sr.sem[sem] - k.setWidth 32)
        else s).putP 1 p (decide (k.toNat ≤ (s.tile.sr.sem[sem]).toNat))) := by
  change execSemw p sem k s = _
  rw [execSemw]
  exact s.attempt_singleton_ok _ h

theorem exec_semp_of_free (d : Fin 32) : exec (.semp d sem) s = .next (s.putS 2 d (s.tile.sr.sem[sem].setWidth 64) false) := by
  change execSemp d sem s = _
  rw [execSemp]
  exact s.attempt_singleton_ok _ h

theorem exec_semi_of_free (a : Fin 32) : exec (.semi sem a) s = .next (if s.poisonS a
    then s.onTile fun t => (t.setSem sem 0#32).setTstat 1 else s.onTile fun t => t.setSem sem ((s.readS a).setWidth 32)) := by
  change execSemi sem a s = _
  rw [execSemi]
  exact s.attempt_singleton_ok _ h

end

/-! Operations that take an outbound entry -/

theorem Dev.panelSize_of_panelOf {d : Dev} {n : Fin 128} {p : Panel} (h : d.panelOf n = some p) : d.panelSize n = p.w * p.h := by
  rw [Dev.panelSize, h]
  rfl

theorem chkReduce_ok {a : W64} {mx : Bool} (halign : a.toNat % 128 = 0) (hlt : a.toNat < 2 ^ 20)
    (hmx : mx = true → a.toNat % 65536 ≤ 0xef80) : ∀ c ∈ chkReduce a mx, c.bad = false := by
  refine Chk.all_cons (chkAlign_ok halign _) (Chk.all_cons ?_ Chk.all_nil)
  change (decide _ || (mx && decide _)) = false
  rw [decide_eq_false (not_le.2 hlt), Bool.false_or]
  cases mx with
  | false => rfl
  | true => exact decide_eq_false (not_lt.2 (hmx rfl))

section
variable {s : State} {n : Fin 128} (hcur : s.cur = .tile n)

/-- The release of a `semv` (R249). -/
def State.semvOp (s : State) (sem : Fin 16) (dst : Fin 128) (k : BitVec 8) : MemOp :=
  { s.memOp .semv 0#64 0 with entry := true, rel := true, scope := 1, dst := dst.val, sem := sem, n := k.toNat }

/-- The release of a `sndr` before its data (R247). -/
def State.sndrOp (s : State) (ta : Fin 32) (dst : Fin 128) (rty : Fin 4) (isMax : Bool) (sem : Fin 16) : MemOp :=
  { s.memOp .sndr (s.readS ta) 128 with
    entry := true, rel := true, scope := 1, dst := dst.val, sem := sem, rty := BitVec.ofNat 2 rty.val, isMax := isMax }

/-- The message of an `xfar` (R251). -/
def State.xfarOp (s : State) (dk : DKind) (r fa : Fin 32) (sem : Fin 16) : MemOp :=
  { s.memOp .xfar (s.readS fa) (dkBytes dk) with
    entry := true, data := (s.storeData dk r).1, sem := sem, dst := s.dev.farRank s.tileNo (s.readS fa) }

/-- The acquire of an `xrcvf` (R253). -/
def State.xrcvfOp (s : State) (a : Fin 32) (ls : Fin 64) (dk : DKind2) (sem : Fin 16) : MemOp :=
  { s.memOp .xrcvf (s.readS a) (dkBytes (dk2Kind dk)) with ls := some ls, sem := sem, acq := true, scope := s.atScope 3 }

/-- The checks of the rank and the outbound entry of an operation to another tile (R247, R249). -/
def State.chkTarget (s : State) (dst : Fin 128) : List Chk := [chkOp (decide (s.dev.panelSize s.tileNo ≤ dst.val)) 0x0f, s.chkOut]

theorem State.chkTarget_ok {p : Panel} (hpanel : s.dev.panelOf s.tileNo = some p) {dst : Fin 128} (hdst : dst.val < p.w * p.h)
    (hentry : s.entryFree) : ∀ c ∈ s.chkTarget dst, c.bad = false :=
  Chk.all_cons (decide_eq_false (by rw [Dev.panelSize_of_panelOf hpanel]; omega)) (Chk.all_cons (State.chkOut_ok hentry) Chk.all_nil)

/-- The checks of a TSP source of `sndr`, for an unpoisoned address (R16, R105, R247). -/
def State.chkReduceSource (s : State) (A : W64) (mx : Bool) : List Chk :=
  [chkOp (mx && bfmtFmt s.tile.sr.bfmt[idx 16 (A.toNat / 65536)] != 0xd && bfmtFmt s.tile.sr.bfmt[idx 16 (A.toNat / 65536)] != 0xe) 0x0c,
    chkBounds (s.tile.owned (idx 16 (A.toNat / 65536)).val) A]
  ++ (if A.toNat < 2 ^ 20 then [s.chkPort [(s.psc + 2, (idx 16 (A.toNat / 65536)).val)]] else []) ++ chkReduce A mx

theorem State.chkReduceSource_ok {A : W64} {mx : Bool} (halign : A.toNat % 128 = 0) (hlt : A.toNat < 2 ^ 20)
    (hmx : mx = true → A.toNat % 65536 ≤ 0xef80 ∧ (bfmtFmt s.tile.sr.bfmt[idx 16 (A.toNat / 65536)] = 0xd
      ∨ bfmtFmt s.tile.sr.bfmt[idx 16 (A.toNat / 65536)] = 0xe))
    (howned : s.tile.owned (A.toNat / 65536) = false) (hport : ∀ u ∈ s.tile.portUses, u.cycle = s.psc + 2 → u.bank ≠ A.toNat / 65536) :
    ∀ c ∈ s.chkReduceSource A mx, c.bad = false := by
  have hbank : (idx 16 (A.toNat / 65536)).val = A.toNat / 65536 := Nat.mod_eq_of_lt (by omega)
  have hfmt : (mx && bfmtFmt s.tile.sr.bfmt[idx 16 (A.toNat / 65536)] != 0xd
      && bfmtFmt s.tile.sr.bfmt[idx 16 (A.toNat / 65536)] != 0xe) = false := by
    cases mx with
    | false => rfl
    | true =>
      obtain ⟨-, h | h⟩ := hmx rfl
      · rw [h]
        rfl
      · rw [h]
        rfl
  refine Chk.all_append (Chk.all_append (Chk.all_cons hfmt (Chk.all_cons ?_ Chk.all_nil)) ?_)
    (chkReduce_ok halign hlt fun h => (hmx h).1)
  · rw [hbank]
    exact howned
  · rw [if_pos hlt, hbank]
    refine Chk.all_cons (State.chkPort_ok fun u hu x hx => ?_) Chk.all_nil
    obtain rfl := List.mem_singleton.1 hx
    exact hport u hu

include hcur

theorem exec_semv_issues (sem : Fin 16) (dst : Fin 128) (k : BitVec 8) :
    s.Issues (.semv sem dst k) (s.chkTarget dst) (s.withOp n (s.semvOp sem dst k)) := by
  obtain rfl := State.tileNo_of_cur hcur
  refine ⟨?go, ?hi, ?ht⟩
  case hi =>
    change execSemv sem dst k s = _
    unfold execSemv
    rfl
  case ht => rfl

theorem exec_sndr_v_issues (f : VFile) (r ta : Fin 32) (dst : Fin 128) (rty : Fin 4) (isMax : Bool) (sem : Fin 16) :
    s.Issues (.sndr (.v f r) ta dst rty isMax sem)
      (s.chkV f r :: (s.chkTarget dst ++ if s.poisonS ta then [] else chkReduce (s.readS ta) (decide (rty = 3))))
      (s.withOp n { s.sndrOp ta dst rty isMax sem with data := s.readV f r, poison := s.poisonS ta || s.poisonV f r }) := by
  obtain rfl := State.tileNo_of_cur hcur
  refine ⟨?go, ?hi, ?ht⟩
  case hi =>
    change execSndr (.v f r) ta dst rty isMax sem s = _
    unfold execSndr
    rfl
  case ht => rfl

theorem exec_sndr_tsp_issues (r ta : Fin 32) (dst : Fin 128) (rty : Fin 4) (isMax : Bool) (sem : Fin 16) :
    s.Issues (.sndr (.tsp r) ta dst rty isMax sem)
      ((s.chkTarget dst ++ if s.poisonS ta then [] else chkReduce (s.readS ta) (decide (rty = 3)))
        ++ if s.poisonS r then [] else s.chkReduceSource (s.readS r) (decide (rty = 3)))
      (s.withOp n { s.sndrOp ta dst rty isMax sem with
        data2 := s.readS r, tspRead := if s.poisonS r then none else some (s.psc + 2), poison := s.poisonS ta || s.poisonS r }) := by
  obtain rfl := State.tileNo_of_cur hcur
  refine ⟨?go, ?hi, ?ht⟩
  case hi =>
    change execSndr (.tsp r) ta dst rty isMax sem s = _
    unfold execSndr
    rfl
  case ht => rfl

theorem exec_xfar_issues {k : Fin 3} {dk : DKind} (hdk : dk = if k = 0 then .i64 else if k = 1 then .va else .vb) (r fa : Fin 32) (sem : Fin 16) :
    s.Issues (.xfar k r fa sem) (s.chkDk dk r ++ [s.chkOut] ++ if s.poisonS fa then [] else
        [chkAlign (fieldOf (s.readS fa) 0 32 % dkBytes dk != 0) (s.readS fa),
         chkBounds (fieldOf (s.readS fa) 60 4 != 0 || fieldOf (s.readS fa) 32 8 != 0) (s.readS fa)])
      (if s.poisonS fa || (s.storeData dk r).2 then s.countDrop else s.withOp n (s.xfarOp dk r fa sem)) := by
  obtain rfl := State.tileNo_of_cur hcur
  subst hdk
  refine ⟨?go, ?hi, ?ht⟩
  case hi =>
    change execXfar k r fa sem s = _
    unfold execXfar
    rfl
  case ht => rfl

theorem exec_xrcvf_issues (d a : Fin 32) (ls : Fin 64) (l : Landing) (dk : DKind2) (sem : Fin 16) :
    s.Issues (.xrcvf d a ls l dk sem)
      (s.chkDk (dk2Kind dk) d ++ [{ chkOp (s.lslotNames ls) 2 with slot := some 5 },
          chkOp (!s.lslotNames ls && s.tile.lands[ls].st != .free) 2]
        ++ if s.poisonS a then [] else [chkAlign ((s.readS a).toNat % Nat.min (dkBytes (dk2Kind dk)) 16 != 0) (s.readS a),
          chkBounds (!timedLoc (s.place (s.readS a) (dkBytes (dk2Kind dk)))
            || (decide ((s.readS a).toNat < 2 ^ 20) && s.tile.owned ((s.readS a).toNat / 65536))) (s.readS a)])
      (if s.poisonS a then s.withSlot n ls l (dkDest (dk2Kind dk) d) .failed
        else ((s.withSlot n ls l (dkDest (dk2Kind dk) d) .wait).withOp n (s.xrcvfOp a ls dk sem)).onDev fun e =>
          e.noteDemote n (decide (s.dev.ceiling n < 3))) := by
  obtain rfl := State.tileNo_of_cur hcur
  refine ⟨?go, ?hi, ?ht⟩
  case hi =>
    change execXrcvf d a ls l dk sem s = _
    rw [execXrcvf]
  case ht => exact if_congr Iff.rfl rfl (State.demoted_openSlot_sendOp ..)

end

end Sys2Proof.Machine

namespace Sys2Proof
open Machine

/-- Settles O44: semaphores by the one check that they make, the others by their checks and the operation that they add. -/
theorem semaphoresAndReduceIssue : Obligations.SemaphoresAndReduceIssue := by
  refine ⟨fun s n sem hcur hfree => ?semaphores, fun s n p dst sem hcur hpanel hdst hentry => ?reduce,
    fun s n k r fa sem hcur hentry => ?far, fun s n d a ls l dk sem hcur hdk hname hslot => ?wait⟩
  case semaphores =>
    obtain rfl := State.tileNo_of_cur hcur
    have hfree := Tile.semAwaited_eq_false hfree
    refine ⟨fun p k => ?_, fun d => exec_semp_of_free hfree d, fun a => ?_⟩
    · rw [exec_semw_of_free hfree]
      by_cases hle : k.toNat ≤ (s.tile.sr.sem[sem]).toNat
      · rw [decide_eq_true hle]
        exact congrArg _ (if_pos hle).symm
      · rw [decide_eq_false hle]
        exact congrArg _ (if_neg hle).symm
    · rw [exec_semi_of_free hfree]
      refine congrArg _ (if_congr Iff.rfl ?_ rfl)
      exact congrArg (fun d => { s with dev := d })
        (Dev.onTile_onTile s.dev s.tileNo (fun t => t.setSem sem 0#32) fun t => t.setTstat 1).symm
  case reduce =>
    obtain rfl := State.tileNo_of_cur hcur
    have htarget := State.chkTarget_ok hpanel hdst hentry
    intro is
    refine ⟨fun k => ⟨s.semvOp sem dst k, ⟨rfl, rfl, rfl, rfl, rfl, rfl, rfl, rfl⟩, rfl, (exec_semv_issues hcur sem dst k).ok htarget⟩,
      fun f r ta rty isMax hawake hpt halign hlt hmx => ?_, fun r ta rty isMax => ?_⟩
    · refine ⟨_, ⟨rfl, rfl, rfl, rfl, rfl, rfl, rfl, rfl⟩, rfl, rfl, rfl, ?_, rfl, rfl,
        (exec_sndr_v_issues hcur f r ta dst rty isMax sem).ok ?_⟩
      · exact (congrArg (· || s.poisonV f r) hpt)
      · exact Chk.all_cons (hawake r List.mem_cons_self) (Chk.all_append htarget
          (Chk.all_unpoisoned (.inr (chkReduce_ok halign hlt fun h => hmx (of_decide_eq_true h)))))
    · intro A T fmt hpt hpr hT hTlt hA hAlt hmx howned hport
      refine ⟨_, ⟨rfl, rfl, rfl, rfl, rfl, rfl, rfl, rfl⟩, rfl, rfl, rfl, ?_, ?_, rfl, rfl,
        (exec_sndr_tsp_issues hcur r ta dst rty isMax sem).ok ?_⟩
      · exact if_neg (by rw [hpr]; exact Bool.false_ne_true)
      · change (s.poisonS ta || s.poisonS r) = false
        rw [hpt, hpr]
        rfl
      · refine Chk.all_append (Chk.all_append htarget (Chk.all_unpoisoned (.inr (chkReduce_ok hT hTlt fun h => ?_))))
          (Chk.all_unpoisoned (.inr (State.chkReduceSource_ok hA hAlt (fun h => ?_) howned hport)))
        · exact (hmx (of_decide_eq_true h)).1
        · exact (hmx (of_decide_eq_true h)).2
  case far =>
    obtain rfl := State.tileNo_of_cur hcur
    intro dk F hdk hpf hpd halign hdev htile
    have h := (exec_xfar_issues hcur (k := k) rfl r fa sem).ok (Chk.all_append (Chk.all_append (State.chkDk_ok hdk)
      (Chk.all_cons (State.chkOut_ok hentry) Chk.all_nil)) (Chk.all_unpoisoned (.inr (Chk.all_cons ?_ (Chk.all_cons ?_ Chk.all_nil)))))
    · rw [hpf, hpd] at h
      exact ⟨s.xfarOp dk r fa sem, rfl, rfl, rfl, rfl, rfl, rfl, rfl, rfl, h⟩
    · exact chkAlign_ok (by rw [fieldOf_zero]; exact halign) _
    · have htop : fieldOf (s.readS fa) 60 4 = 0 := congrArg (· % 2 ^ 4) hdev
      have htile : fieldOf (s.readS fa) 32 8 = 0 := htile
      change (_ != 0 || _ != 0) = false
      rw [htop, htile]
      rfl
  case wait =>
    obtain rfl := State.tileNo_of_cur hcur
    have hissues := exec_xrcvf_issues hcur d a ls l dk sem
    have hown : ∀ c ∈ [{ chkOp (s.lslotNames ls) 2 with slot := some 5 }, chkOp (!s.lslotNames ls && s.tile.lands[ls].st != .free) 2],
        c.bad = false := by
      rw [hname]
      exact Chk.all_cons rfl (Chk.all_cons (State.chkSlot_ok hslot) Chk.all_nil)
    have hfirst := Chk.all_append (State.chkDk_ok hdk) hown
    refine ⟨fun hpa halign hloc howned => ⟨s.xrcvfOp a ls dk sem, rfl, rfl, rfl, rfl, rfl, rfl, rfl, rfl, s.atScope_eq 3, ?_⟩, fun hpa => ?_⟩
    · have hbounds : (!timedLoc (s.place (s.readS a) (dkBytes (dk2Kind dk)))
          || (decide ((s.readS a).toNat < 2 ^ 20) && s.tile.owned ((s.readS a).toNat / 65536))) = false := by
        rw [hloc, Bool.not_true, Bool.false_or, Bool.and_eq_false_imp]
        exact fun h => howned (of_decide_eq_true h)
      have h := hissues.ok (Chk.all_append hfirst (Chk.all_unpoisoned (.inr (Chk.all_cons (chkAlign_ok halign _)
        (Chk.all_cons hbounds Chk.all_nil)))))
      rwa [hpa] at h
    · have h := hissues.ok (Chk.all_append hfirst (Chk.all_unpoisoned (.inl hpa)))
      rwa [hpa] at h

end Sys2Proof
end

section
/-! O41, O45, O46: the host lines that a release at `.dev` or `.sys` gives up, and the memory that their write-back leaves (R296). -/

namespace Sys2Proof.Machine

/-! The write-back of one line -/

/-- A change of memory alone, and of which of its words hold errors. -/
def Dev.MemOnly (d e : Dev) : Prop := e = { d with mem := e.mem, badWords := e.badWords, softWords := e.softWords }

theorem Dev.MemOnly.refl (d : Dev) : d.MemOnly d := rfl

theorem Dev.MemOnly.trans {d e f : Dev} (h : d.MemOnly e) (h' : e.MemOnly f) : d.MemOnly f := by
  unfold Dev.MemOnly at h h' ⊢
  rw [h', h]

theorem Dev.write_memOnly (d : Dev) (k : Nat) (bs : List Byte) : d.MemOnly (d.write k bs) := rfl

theorem Dev.foldl_memOnly {α : Type} {f : Dev → α → Dev} (hf : ∀ (d : Dev) x, d.MemOnly (f d x)) (l : List α) (d : Dev) :
    d.MemOnly (l.foldl f d) := by
  induction l generalizing d with
  | nil => exact .refl d
  | cons x l ih => exact (hf d x).trans (ih (f d x))

/-- One byte is written, where a condition holds, at each place of a list of places. -/
def Dev.writeEach (d : Dev) (p : Nat → Bool) (key : Nat → Nat) (val : Nat → Byte) (l : List Nat) : Dev :=
  l.foldl (fun d i => if p i then d.write (key i) [val i] else d) d

section
variable {p : Nat → Bool} {key : Nat → Nat} {val : Nat → Byte}

theorem Dev.writeEach_cons (d : Dev) (i : Nat) (l : List Nat) :
    d.writeEach p key val (i :: l) = (if p i then d.write (key i) [val i] else d).writeEach p key val l := rfl

theorem Dev.ite_write_wf {d : Dev} (h : memWf d.mem = true) (i : Nat) :
    memWf (if p i then d.write (key i) [val i] else d).mem = true := by
  split
  · exact memWrite_wf h _ _
  · exact h

theorem Dev.memRead_ite_write_of_ne {d : Dev} (h : memWf d.mem = true) {i k : Nat} (hk : p i = true → k ≠ key i) :
    memRead (if p i then d.write (key i) [val i] else d).mem k = memRead d.mem k := by
  split
  · exact (memRead_memWrite h _ _ _).trans (if_neg (hk ‹_›))
  · rfl

theorem Dev.writeEach_wf {d : Dev} (h : memWf d.mem = true) (l : List Nat) : memWf (d.writeEach p key val l).mem = true := by
  induction l generalizing d with
  | nil => exact h
  | cons i l ih => exact ih (Dev.ite_write_wf h i)

theorem Dev.writeEach_memOnly (d : Dev) (l : List Nat) : d.MemOnly (d.writeEach p key val l) := by
  refine Dev.foldl_memOnly (fun d i => ?_) l d
  split
  · exact d.write_memOnly _ _
  · exact .refl d

theorem Dev.memRead_writeEach_of_ne {d : Dev} (h : memWf d.mem = true) {l : List Nat} {k : Nat}
    (hk : ∀ i ∈ l, p i = true → k ≠ key i) : memRead (d.writeEach p key val l).mem k = memRead d.mem k := by
  induction l generalizing d with
  | nil => rfl
  | cons i l ih =>
    obtain ⟨hi, hl⟩ := List.forall_mem_cons.1 hk
    exact (ih (Dev.ite_write_wf h i) hl).trans (Dev.memRead_ite_write_of_ne h hi)

/-- The last write of a place stands, and the places of other members differ. -/
theorem Dev.memRead_writeEach {d : Dev} (h : memWf d.mem = true) {l : List Nat} {j : Nat} (hj : j ∈ l) (hp : p j = true)
    (hinj : ∀ i ∈ l, key i = key j → i = j) : memRead (d.writeEach p key val l).mem (key j) = val j := by
  induction l generalizing d with
  | nil => exact absurd hj List.not_mem_nil
  | cons i l ih =>
    obtain ⟨hi, hl⟩ := List.forall_mem_cons.1 hinj
    rw [Dev.writeEach_cons]
    by_cases hmem : j ∈ l
    · exact ih (Dev.ite_write_wf h i) hmem hl
    · obtain rfl : j = i := (List.mem_cons.1 hj).resolve_right hmem
      have hlater : ∀ x ∈ l, p x = true → key j ≠ key x := fun x hx _ hkey => hmem (hl x hx hkey.symm ▸ hx)
      rw [Dev.memRead_writeEach_of_ne (Dev.ite_write_wf h j) hlater, if_pos hp]
      exact (memRead_memWrite h _ _ _).trans (if_pos rfl)

end

/-- The bytes of a line that a write-back stores: those that have been written since the line was filled. -/
def SlcLine.pending (l : SlcLine) (k : Nat) : Prop := l.copy.isSome = true ∧ ∃ j < 128, l.written.getLsbD j = true ∧ k = l.key * 128 + j

theorem Dev.writeBack_of_copy {l : SlcLine} {c : VReg} (hc : l.copy = some c) (d : Dev) : d.writeBack l
    = d.writeEach (fun i => l.written.getLsbD i) (fun i => l.key * 128 + i) (fun i => BitVec.ofNat 8 (fieldOf c (8 * i) 8)) (List.range 128) := by
  rw [Dev.writeBack, hc]
  rfl

theorem Dev.writeBack_of_none {l : SlcLine} (hc : l.copy = none) (d : Dev) : d.writeBack l = d := by rw [Dev.writeBack, hc]

theorem Dev.writeBack_memOnly (d : Dev) (l : SlcLine) : d.MemOnly (d.writeBack l) := by
  cases hc : l.copy with
  | none => rw [Dev.writeBack_of_none hc]; exact .refl d
  | some c => rw [Dev.writeBack_of_copy hc]; exact d.writeEach_memOnly _

theorem Dev.memRead_writeBack_of_not_pending {d : Dev} (h : memWf d.mem = true) {l : SlcLine} {k : Nat} (hk : ¬ l.pending k) :
    memRead (d.writeBack l).mem k = memRead d.mem k := by
  cases hc : l.copy with
  | none => rw [Dev.writeBack_of_none hc]
  | some c =>
    rw [Dev.writeBack_of_copy hc]
    exact Dev.memRead_writeEach_of_ne h fun i hi hw hkey => hk ⟨by rw [hc]; rfl, i, List.mem_range.1 hi, hw, hkey⟩

theorem Dev.memRead_writeBack {d : Dev} (h : memWf d.mem = true) {l : SlcLine} {c : VReg} (hc : l.copy = some c) {j : Nat} (hj : j < 128)
    (hw : l.written.getLsbD j = true) : memRead (d.writeBack l).mem (l.key * 128 + j) = c.extractLsb' (8 * j) 8 := by
  rw [Dev.writeBack_of_copy hc, extractLsb'_eq_ofNat_fieldOf]
  exact Dev.memRead_writeEach (key := fun i => l.key * 128 + i) h (List.mem_range.2 hj) hw fun i _ hkey => by omega

/-! Giving up lines -/

/-- The slices of `e` hold lines of the slices of `d` alone. -/
def Dev.LinesFrom (d e : Dev) : Prop := ∀ q : Fin 32, ∀ l ∈ e.quads[q].slc, l ∈ d.quads[q].slc

theorem Quad.line_spec {x : Quad} {key : Nat} {l : SlcLine} (h : x.line key = some l) : l ∈ x.slc ∧ l.key = key :=
  ⟨List.mem_of_find?_eq_some h, by simpa using List.find?_some h⟩

theorem Quad.line_of_mem {x : Quad} {l : SlcLine} (h : l ∈ x.slc) : ∃ l', x.line l.key = some l' := by
  cases hline : x.line l.key with
  | some l' => exact ⟨l', rfl⟩
  | none => exact absurd (beq_self_eq_true l.key) (List.find?_eq_none.1 hline l h)

section
variable {d : Dev} {q : Fin 32} {key : Nat}

theorem Dev.slcDrop_of_line {l : SlcLine} (h : d.quads[q].line key = some l) :
    d.slcDrop q key = (d.writeBack l).onQuad q fun x => { x with slc := x.slc.filter fun l => l.key != key } := by
  rw [Dev.slcDrop, h]

theorem Dev.slcDrop_of_none (h : d.quads[q].line key = none) : d.slcDrop q key = d := by rw [Dev.slcDrop, h]

/-- A dropped line's key is held no more; the other lines stay. -/
theorem Dev.mem_slc_slcDrop {q' : Fin 32} {l : SlcLine} :
    l ∈ (d.slcDrop q key).quads[q'].slc ↔ l ∈ d.quads[q'].slc ∧ ¬ (q' = q ∧ l.key = key) := by
  cases hline : d.quads[q].line key with
  | none =>
    rw [Dev.slcDrop_of_none hline]
    refine ⟨fun h => ⟨h, ?_⟩, fun h => h.1⟩
    rintro ⟨rfl, rfl⟩
    obtain ⟨l', hl'⟩ := Quad.line_of_mem h
    exact absurd (hline.symm.trans hl') nofun
  | some x =>
    have hquads : (d.writeBack x).quads = d.quads := by rw [d.writeBack_memOnly x]
    rw [Dev.slcDrop_of_line hline]
    by_cases hq : q' = q
    · subst hq
      simp [Dev.onQuad, hquads]
    · simp [Dev.onQuad, hquads, hq, Ne.symm (Fin.val_ne_of_ne hq)]

/-- Everything but memory and the slices is as before. -/
theorem Dev.slcDrop_eq (d : Dev) (q : Fin 32) (key : Nat) : d.slcDrop q key = { d with
    mem := (d.slcDrop q key).mem, badWords := (d.slcDrop q key).badWords, softWords := (d.slcDrop q key).softWords,
    quads := (d.slcDrop q key).quads } := by
  cases hline : d.quads[q].line key with
  | none => rw [Dev.slcDrop_of_none hline]
  | some x =>
    rw [Dev.slcDrop_of_line hline, d.writeBack_memOnly x]
    rfl

end

/-! Giving up the host lines of a bolt -/

/-- What one quad's slice does in a release: it gives up each line of which it holds a copy. -/
def Dev.flushQuad (d : Dev) (q : Fin 32) : Dev := (d.quads[q].slc.filter fun l => l.copy.isSome).foldl (fun d l => d.slcDrop q l.key) d

theorem Dev.flushHost_eq_foldl (d : Dev) (b : Fin 32) : d.flushHost b = (d.boltQuads b).foldl Dev.flushQuad d := rfl

/-- What giving up any line of a bolt's slices keeps, a release keeps. -/
theorem Dev.flushHost_keeps {P : Dev → Prop} {d : Dev} {b : Fin 32} (h : P d)
    (hstep : ∀ e, P e → ∀ q ∈ d.boltQuads b, ∀ key, P (e.slcDrop q key)) : P (d.flushHost b) :=
  List.foldlRecOn _ _ h fun _ he q hq => List.foldlRecOn _ _ he fun e he l _ => hstep e he q hq l.key

theorem Dev.flushQuad_linesFrom (d : Dev) (q : Fin 32) : d.LinesFrom (d.flushQuad q) :=
  List.foldlRecOn (motive := d.LinesFrom) _ _ (fun _ _ h => h) fun _ he _ _ q' x hx => he q' x (Dev.mem_slc_slcDrop.1 hx).1

theorem Dev.foldl_flushQuad_linesFrom (d : Dev) (l : List (Fin 32)) : d.LinesFrom (l.foldl Dev.flushQuad d) :=
  List.foldlRecOn (motive := d.LinesFrom) _ _ (fun _ _ h => h) fun e he q _ q' x hx => he q' x (Dev.flushQuad_linesFrom e q q' x hx)

theorem Dev.flushHost_linesFrom (d : Dev) (b : Fin 32) : d.LinesFrom (d.flushHost b) := d.foldl_flushQuad_linesFrom _

theorem Dev.mem_slc_foldl_slcDrop {d : Dev} {q : Fin 32} {ls : List SlcLine} {l : SlcLine}
    (h : l ∈ (ls.foldl (fun d l => d.slcDrop q l.key) d).quads[q].slc) : l ∈ d.quads[q].slc ∧ l ∉ ls := by
  induction ls generalizing d with
  | nil => exact ⟨h, List.not_mem_nil⟩
  | cons x ls ih =>
    obtain ⟨hmem, hrest⟩ := ih h
    obtain ⟨hmem, hkey⟩ := Dev.mem_slc_slcDrop.1 hmem
    exact ⟨hmem, fun hx => (List.mem_cons.1 hx).elim (fun hx => hkey ⟨rfl, hx ▸ rfl⟩) hrest⟩

theorem Dev.flushQuad_copy {d : Dev} {q : Fin 32} {l : SlcLine} (h : l ∈ (d.flushQuad q).quads[q].slc) : l.copy = none := by
  obtain ⟨hmem, hheld⟩ := Dev.mem_slc_foldl_slcDrop h
  exact Option.not_isSome_iff_eq_none.1 fun hsome => hheld (List.mem_filter.2 ⟨hmem, hsome⟩)

/-- No slice of the bolt keeps a copy. -/
theorem Dev.flushHost_copy {d : Dev} {b q : Fin 32} (hq : q ∈ d.boltQuads b) {l : SlcLine} (hl : l ∈ (d.flushHost b).quads[q].slc) :
    l.copy = none := by
  have hfold (qs : List (Fin 32)) : ∀ e : Dev, q ∈ qs → l ∈ (qs.foldl Dev.flushQuad e).quads[q].slc → l.copy = none := by
    induction qs with
    | nil => exact fun _ h => absurd h List.not_mem_nil
    | cons x qs ih =>
      intro e hmem hl
      obtain rfl | hmem := List.mem_cons.1 hmem
      · exact Dev.flushQuad_copy ((e.flushQuad q).foldl_flushQuad_linesFrom qs q l hl)
      · exact ih _ hmem hl
  exact hfold _ d hq hl

/-- Where no slice holds a copy, there is nothing to give up. -/
theorem Dev.flushHost_of_no_copies {d : Dev} {b : Fin 32} (h : ∀ q : Fin 32, ∀ l ∈ d.quads[q].slc, l.copy = none) : d.flushHost b = d := by
  have hquad (q : Fin 32) : d.flushQuad q = d := by
    have hnone : (d.quads[q].slc.filter fun l => l.copy.isSome) = [] :=
      List.filter_eq_nil_iff.2 fun l hl => by rw [h q l hl]; exact Bool.false_ne_true
    rw [Dev.flushQuad, hnone]
    rfl
  exact List.foldlRecOn (motive := (· = d)) _ _ rfl fun e he q _ => he ▸ hquad q

theorem Dev.flushHost_eq (d : Dev) (b : Fin 32) : d.flushHost b = { d with
    mem := (d.flushHost b).mem, badWords := (d.flushHost b).badWords, softWords := (d.flushHost b).softWords,
    quads := (d.flushHost b).quads } := by
  refine Dev.flushHost_keeps (P := fun e => e = { d with
    mem := e.mem, badWords := e.badWords, softWords := e.softWords, quads := e.quads }) rfl fun e he q _ key => ?_
  rw [e.slcDrop_eq q key]
  rw [he]

section
variable {d : Dev} {b : Fin 32} (hwf : memWf d.mem = true)
include hwf

omit hwf in
/-- Giving up a line writes its pending bytes alone, and the line was held before. -/
theorem Dev.memRead_slcDrop_of_not_pending {e : Dev} (he : memWf e.mem = true) (hlines : d.LinesFrom e) {q : Fin 32} {key k : Nat}
    (hk : ∀ l ∈ d.quads[q].slc, l.key = key → ¬ l.pending k) : memRead (e.slcDrop q key).mem k = memRead e.mem k := by
  cases hline : e.quads[q].line key with
  | none => rw [Dev.slcDrop_of_none hline]
  | some l =>
    obtain ⟨hmem, hkey⟩ := Quad.line_spec hline
    rw [Dev.slcDrop_of_line hline]
    exact Dev.memRead_writeBack_of_not_pending he (hk l (hlines q l hmem) hkey)

/-- Memory keeps the bytes that no copy of the bolt's slices holds newly written (R296). -/
theorem Dev.memRead_flushHost_of_not_pending {k : Nat} (hk : ∀ q ∈ d.boltQuads b, ∀ l ∈ d.quads[q].slc, ¬ l.pending k) :
    memRead (d.flushHost b).mem k = memRead d.mem k := by
  refine (Dev.flushHost_keeps (P := fun e => memWf e.mem = true ∧ d.LinesFrom e ∧ memRead e.mem k = memRead d.mem k)
    ⟨hwf, fun _ _ h => h, rfl⟩ fun e he q hq key => ?_).2.2
  obtain ⟨he, hlines, hread⟩ := he
  exact ⟨Canonical.slcDrop he, fun q' l hl => hlines q' l (Dev.mem_slc_slcDrop.1 hl).1,
    (Dev.memRead_slcDrop_of_not_pending he hlines fun l hl _ => hk q hq l hl).trans hread⟩

/-- The newly written bytes of a copy stand in memory, where no other line of the bolt's slices has its number (R296). -/
theorem Dev.memRead_flushHost {q : Fin 32} (hq : q ∈ d.boltQuads b) {l : SlcLine} (hl : l ∈ d.quads[q].slc) {c : VReg}
    (hc : l.copy = some c) {j : Nat} (hj : j < 128) (hw : l.written.getLsbD j = true)
    (halone : ∀ q2 ∈ d.boltQuads b, ∀ l2 ∈ d.quads[q2].slc, l2.key = l.key → q2 = q ∧ l2 = l) :
    memRead (d.flushHost b).mem (l.key * 128 + j) = c.extractLsb' (8 * j) 8 := by
  have hkeeps := Dev.flushHost_keeps (b := b) (P := fun e => memWf e.mem = true ∧ d.LinesFrom e
    ∧ (l ∈ e.quads[q].slc ∨ memRead e.mem (l.key * 128 + j) = c.extractLsb' (8 * j) 8)) (d := d)
    ⟨hwf, fun _ _ h => h, .inl hl⟩ fun e he q' hq' key => ?_
  · obtain ⟨-, -, hheld | hread⟩ := hkeeps
    · exact absurd (hc.symm.trans (Dev.flushHost_copy hq hheld)) nofun
    · exact hread
  · obtain ⟨he, hlines, hstate⟩ := he
    refine ⟨Canonical.slcDrop he, fun q' l hl => hlines q' l (Dev.mem_slc_slcDrop.1 hl).1, ?_⟩
    by_cases hkey : key = l.key
    · subst hkey
      cases hline : e.quads[q'].line l.key with
      | none => rwa [Dev.slcDrop_of_none hline]
      | some x =>
        obtain ⟨hmem, hxkey⟩ := Quad.line_spec hline
        obtain ⟨rfl, rfl⟩ := halone q' hq' x (hlines q' x hmem) hxkey
        rw [Dev.slcDrop_of_line hline]
        exact .inr (Dev.memRead_writeBack he hc hj hw)
    · refine hstate.imp (fun hheld => Dev.mem_slc_slcDrop.2 ⟨hheld, fun h => hkey h.2.symm⟩) fun hread => ?_
      refine (Dev.memRead_slcDrop_of_not_pending he hlines fun x _ hxkey hpending => ?_).trans hread
      obtain ⟨-, i, hi, -, haddr⟩ := hpending
      omega

end

end Sys2Proof.Machine
end

section
/-! O38, O41, O43, O45, O46: the fences of a tile, when an operation leaves its issue order (R233). -/

namespace Sys2Proof.Machine

/-- Without a fence in the issue order nothing settles. -/
theorem Dev.settleFences_of_no_fence {d : Dev} {n : Fin 128} (h : ∀ o ∈ d.tiles[n].ops, o.kind ≠ .fence) : d.settleFences n = d := by
  have hkind : ∀ o ∈ d.tiles[n].ops, (o.kind == MKind.fence) = false := fun o ho => beq_eq_false_iff_ne.2 (h o ho)
  unfold Dev.settleFences
  dsimp only
  rw [List.any_eq_false.2 fun o ho => by simp [hkind o ho], Dev.onTile_of_fixed]
  · cases d.boltOf n <;> rfl
  · rw [List.filter_eq_self.2 fun o ho => by simp [hkind o ho]]

/-- A tile whose issue order is empty. -/
def Tile.noOps (t : Tile) : Tile := { t with ops := [] }

/-- Dropping the one operation of a tile leaves its issue order empty, and no fence to settle. -/
theorem Dev.dropOp_of_single {d : Dev} {n : Fin 128} {o : MemOp} (hops : d.tiles[n].ops = [o]) : d.dropOp n 0 = d.onTile n Tile.noOps := by
  have hdrop : (d.onTile n fun t => { t with ops := dropAt t.ops 0 }) = d.onTile n Tile.noOps := by
    rw [Dev.onTile, hops]
    rfl
  rw [Dev.dropOp, hdrop, Dev.settleFences_of_no_fence]
  rw [Dev.onTile_tiles_same]
  exact fun o ho => absurd ho List.not_mem_nil

theorem Tile.loadsPending_of_timedPending {t : Tile} {c : Nat} (h : t.timedPending c = false) : t.loadsPending c = false := by
  simp only [Tile.timedPending, Bool.or_eq_false_iff, List.any_eq_false, Bool.and_eq_true, not_and] at h
  obtain ⟨⟨hflight, hpath⟩, -⟩ := h
  simp only [Tile.loadsPending, Bool.or_eq_false_iff, List.any_eq_false, Bool.and_eq_true, not_and]
  refine ⟨fun f hf hloads => hflight f hf ?_, fun o ho ⟨⟨hacc, _⟩, hleft⟩ => hpath o ho ⟨hacc, hleft⟩⟩
  cases hact : f.act <;> simp_all [Act.loads]

theorem Tile.fenceWaits_alone {t : Tile} {o : MemOp} (hops : t.ops = [o]) (hkind : o.kind = .fence)
    (htimed : t.timedPending o.issue = false) : t.fenceWaits o = (false, false) := by
  simp [Tile.fenceWaits, hops, hkind, htimed, Tile.loadsPending_of_timedPending htimed]

theorem Dev.onTile_congr {d : Dev} {n : Fin 128} {f g : Tile → Tile} (h : f d.tiles[n] = g d.tiles[n]) : d.onTile n f = d.onTile n g := by
  rw [Dev.onTile, h, Dev.onTile]

/-- A fence with nothing before it leaves the issue order, and one at `.dev` or `.sys` gives up the host lines of the bolt
(R233, R296). -/
theorem Dev.settleFences_of_fence {d : Dev} {n : Fin 128} {o : MemOp} (hops : d.tiles[n].ops = [o]) (hkind : o.kind = .fence)
    (htimed : d.tiles[n].timedPending o.issue = false) (hposted : ∀ y ∈ d.posted, y.tile ≠ n) :
    d.settleFences n = (d.boltOf n).elim (d.onTile n Tile.noOps) fun b =>
      if 3 ≤ o.scope then (d.onTile n Tile.noOps).flushHost b else d.onTile n Tile.noOps := by
  have hby : d.postedBy n = [] := List.filter_eq_nil_iff.2 fun y hy => by simp [hposted y hy]
  have hwaits := Tile.fenceWaits_alone hops hkind htimed
  unfold Dev.settleFences
  dsimp only
  rw [Dev.onTile_congr (g := Tile.noOps)]
  · simp only [hops, hby, hwaits, hkind, List.any_cons, List.any_nil, Bool.and_false, Bool.not_false, beq_self_eq_true, Bool.and_self,
      Bool.true_and, Bool.or_false, decide_eq_true_eq]
    cases d.boltOf n <;> rfl
  · rw [hops, Tile.noOps]
    simp only [hby, hwaits, hkind, List.filter_cons, beq_self_eq_true, Bool.not_false, Bool.and_self, List.any_nil, Bool.and_false, Bool.not_true,
      Bool.false_eq_true, if_false, List.filter_nil]

end Sys2Proof.Machine
end

section
/-! O41: fences, late data and landing slots. -/

namespace Sys2Proof.Machine

/-! What a fence changes before it settles -/

/-- The device `e` is `d` with the fence `o` alone in the issue order of tile `n`, but for the record of a demotion and the tile's note
of its acquires. -/
structure Dev.FenceSent (d e : Dev) (n : Fin 128) (o : MemOp) : Prop where
  mem : e.mem = d.mem
  quads : e.quads = d.quads
  mc : e.mc = d.mc
  posted : e.posted = d.posted
  tile : e.tiles[n] = { d.tiles[n] with ops := [o], sr := e.tiles[n].sr, c := e.tiles[n].c }

theorem Dev.noteDemote_fenceSent {d : Dev} {n : Fin 128} {o : MemOp} (hops : d.tiles[n].ops = [o]) (yes : Bool) :
    d.FenceSent (d.noteDemote n yes) n o := by
  cases yes with
  | false => exact ⟨rfl, rfl, rfl, rfl, by rw [← hops]; rfl⟩
  | true =>
    have hset : ({ d.tiles[n] with ops := [o], sr := (d.tiles[n].setTstat 4).sr, c := (d.tiles[n].setTstat 4).c } : Tile)
        = d.tiles[n].setTstat 4 := by rw [← hops]; rfl
    unfold Dev.noteDemote
    simp only [if_true]
    cases d.panelOf n with
    | none => exact ⟨rfl, rfl, rfl, rfl, by simp only [Dev.onTile_tiles_same, hset]⟩
    | some p => exact ⟨rfl, rfl, rfl, rfl, by simp only [Dev.onVdev_tiles, Dev.onTile_tiles_same, hset]⟩

theorem Dev.boltHasQuad_of_mc {d e : Dev} (h : e.mc = d.mc) (b : Fin 32) : e.boltHasQuad b = d.boltHasQuad b := by
  unfold Dev.boltHasQuad Dev.boltValid Dev.boltW Dev.boltX Dev.boltH Dev.boltY
  rw [h]

theorem Dev.boltQuads_of_mc {d e : Dev} (h : e.mc = d.mc) (b : Fin 32) : e.boltQuads b = d.boltQuads b := by
  rw [Dev.boltQuads, Dev.boltHasQuad_of_mc h, Dev.boltQuads]

theorem Dev.boltOf_of_mc {d e : Dev} (h : e.mc = d.mc) (n : Fin 128) : e.boltOf n = d.boltOf n := by
  simp only [Dev.boltOf, Dev.boltOfQuad, Dev.boltHasQuad_of_mc h]

theorem Tile.timedPending_with_op {t : Tile} (hops : t.ops = []) (o : MemOp) (sr : TileSr) (c : TileCtl) :
    ({ t with ops := [o], sr := sr, c := c } : Tile).timedPending o.issue = t.timedPending o.issue := by
  simp [Tile.timedPending, hops]

/-- What is left where nothing is before a fence of scope `x`: the operations and registers as they were, and memory and the host lines of
the bolt by the scope after demotion (R233, R296). -/
def Dev.Fenced (d e : Dev) (n : Fin 128) (x : Nat) : Prop :=
  e.tiles[n].ops = [] ∧ e.tiles[n].r = d.tiles[n].r ∧ (x < 3 → e.mem = d.mem)
    ∧ ∀ b, 3 ≤ x → d.boltOf n = some b → memWf d.mem = true →
      (∀ q ∈ d.boltQuads b, ∀ l ∈ e.quads[q].slc, l.copy = none)
      ∧ (∀ q ∈ d.boltQuads b, ∀ l ∈ d.quads[q].slc, ∀ c j, l.copy = some c → j < 128 → l.written.getLsbD j = true →
          (∀ q2 ∈ d.boltQuads b, ∀ l2 ∈ d.quads[q2].slc, l2.key = l.key → q2 = q ∧ l2 = l) →
          memRead e.mem (l.key * 128 + j) = c.extractLsb' (8 * j) 8)
      ∧ ∀ k, (∀ q ∈ d.boltQuads b, ∀ l ∈ d.quads[q].slc, ¬ l.pending k) → memRead e.mem k = memRead d.mem k

theorem Dev.FenceSent.settle {d e : Dev} {n : Fin 128} {o : MemOp} (h : d.FenceSent e n o) (hops : d.tiles[n].ops = [])
    (hkind : o.kind = .fence) (htimed : d.tiles[n].timedPending o.issue = false) (hposted : ∀ y ∈ d.posted, y.tile ≠ n) :
    d.Fenced (e.settleFences n) n o.scope := by
  obtain ⟨hmem, hquads, hmc, hpost, htile⟩ := h
  have hquads' : (e.onTile n Tile.noOps).quads = d.quads := hquads
  have hcore : (e.onTile n Tile.noOps).tiles[n].ops = [] ∧ (e.onTile n Tile.noOps).tiles[n].r = d.tiles[n].r := by
    rw [Dev.onTile_tiles_same, htile]
    exact ⟨rfl, rfl⟩
  obtain ⟨hops', hr⟩ := hcore
  have hbolt := Dev.boltOf_of_mc hmc n
  rw [Dev.settleFences_of_fence (o := o) (by rw [htile]) hkind
    (by rw [htile]; exact (Tile.timedPending_with_op hops o _ _).trans htimed) (by rwa [hpost]), hbolt]
  by_cases hx : 3 ≤ o.scope
  · cases hb : d.boltOf n with
    | none => exact ⟨hops', hr, fun h => absurd hx (by omega), fun b _ hsome => by rw [hb] at hsome; contradiction⟩
    | some b =>
      simp only [Option.elim_some, if_pos hx]
      have hq : (e.onTile n Tile.noOps).boltQuads b = d.boltQuads b := Dev.boltQuads_of_mc (e := e.onTile n Tile.noOps) hmc b
      have htiles : ((e.onTile n Tile.noOps).flushHost b).tiles = (e.onTile n Tile.noOps).tiles := by rw [Dev.flushHost_eq]
      refine ⟨htiles ▸ hops', htiles ▸ hr, fun h => absurd hx (by omega), fun b' _ hsome hwf => ?_⟩
      obtain rfl : b = b' := Option.some.inj (hb.symm.trans hsome)
      have hwf' : memWf (e.onTile n Tile.noOps).mem = true := by rw [Dev.onTile_mem, hmem]; exact hwf
      refine ⟨fun q hqb l hl => Dev.flushHost_copy (hq ▸ hqb) hl, fun q hqb l hl c j hc hj hw halone => ?_, fun k hk => ?_⟩
      · exact Dev.memRead_flushHost hwf' (hq ▸ hqb) (hquads' ▸ hl) hc hj hw (by rw [hq, hquads']; exact halone)
      · rw [Dev.memRead_flushHost_of_not_pending hwf' (by rw [hq, hquads']; exact hk), Dev.onTile_mem, hmem]
  · have hno : ((d.boltOf n).elim (e.onTile n Tile.noOps) fun b =>
        if 3 ≤ o.scope then (e.onTile n Tile.noOps).flushHost b else e.onTile n Tile.noOps) = e.onTile n Tile.noOps := by
      cases d.boltOf n <;> simp [hx]
    rw [hno]
    exact ⟨hops', hr, fun _ => hmem, fun b h => absurd h hx⟩

theorem Dev.FenceSent.mark {d e : Dev} {n : Fin 128} {o : MemOp} (h : d.FenceSent e n o) {f : Tile → Tile}
    (hf : f e.tiles[n] = { e.tiles[n] with c := (f e.tiles[n]).c }) : d.FenceSent (e.onTile n f) n o := by
  obtain ⟨hmem, hquads, hmc, hpost, htile⟩ := h
  refine ⟨hmem, hquads, hmc, hpost, ?_⟩
  simp only [Dev.onTile_tiles_same]
  rw [hf, htile]

/-- The fence of the issuing tile, as it stands in the issue order. -/
def State.fenceOp (s : State) (acq rel : Bool) (scope : Nat) : MemOp :=
  { s.memOp .fence 0#64 0 with acq := acq, rel := rel, scope := s.atScope scope }

theorem State.demoted_sendOp_fenceSent {s : State} {n : Fin 128} (hno : s.tileNo = n) (hops : s.dev.tiles[n].ops = []) (o : MemOp)
    (scope : Nat) : s.dev.FenceSent ((s.sendOp o).demoted scope).dev n o := by
  subst hno
  have htile : (s.sendOp o).dev.tiles[s.tileNo] = { s.dev.tiles[s.tileNo] with ops := [o] } := by
    refine (Dev.onTile_tiles_same ..).trans ?_
    simp only [hops, List.nil_append]
  obtain ⟨hmem, hquads, hmc, hpost, hnote⟩ := Dev.noteDemote_fenceSent (d := (s.sendOp o).dev) (n := s.tileNo) (o := o) (by rw [htile])
    ((s.sendOp o).dev.demote s.tileNo scope).2
  exact ⟨hmem, hquads, hmc, hpost, hnote.trans (by rw [htile]; rfl)⟩

/-- The note that a fence makes of its acquire at `.dev` or `.sys`. -/
def Tile.markAcq (yes : Bool) (t : Tile) : Tile := if yes then { t with c := { t.c with acqFence := true } } else t

theorem State.fence_of_tile {s : State} {n : Fin 128} (hcur : s.cur = .tile n) (acq rel : Bool) (scope : Nat) : s.fence acq rel scope
    = .next { s with dev := (((s.sendOp (s.fenceOp acq rel scope)).demoted scope).dev.onTile n
        (Tile.markAcq (acq && decide (3 ≤ s.atScope scope)))).settleFences n } := by
  obtain ⟨dev, saved, agenda, inbox, cur, iss⟩ := s
  obtain rfl : cur = .tile n := hcur
  rfl

theorem State.fence_of_alone {s : State} {n : Fin 128} (hcur : s.cur = .tile n) (hops : s.dev.tiles[n].ops = [])
    (htimed : s.dev.tiles[n].timedPending s.psc = false) (hposted : ∀ y ∈ s.dev.posted, y.tile ≠ n) (acq rel : Bool) (scope : Nat) :
    ∃ e, s.fence acq rel scope = .next { s with dev := e } ∧ s.dev.Fenced e n (min scope (s.dev.ceiling n)) := by
  have hno := State.tileNo_of_cur hcur
  have hscope : (s.fenceOp acq rel scope).scope = min scope (s.dev.ceiling n) := (State.atScope_eq s scope).trans (by rw [hno])
  have hsent := State.demoted_sendOp_fenceSent hno hops (s.fenceOp acq rel scope) scope
  rw [State.fence_of_tile hcur, ← hscope]
  refine ⟨_, rfl, (hsent.mark ?_).settle hops rfl htimed hposted⟩
  unfold Tile.markAcq
  split <;> rfl

/-! Late data and landing slots -/

theorem execLget_eq {s : State} (ls : Fin 64) (p : Fin 8) (h : lateState s.tile.lands[ls].st = true) : exec (.lget ls p) s
    = .next ((if s.tile.lands[ls].st == .late then s else s.takeLate ls).putP 1 p (s.tile.lands[ls].st == .ready)) := by
  change execLget ls p s = _
  rw [execLget]
  exact s.attempt_singleton_ok _ (congrArg not h)

theorem execLwait_eq {s : State} (ls : Fin 64) (h : lateState s.tile.lands[ls].st = true) : exec (.lwait ls) s = .next (s.takeLate ls) := by
  change execLwait ls s = _
  rw [execLwait]
  exact s.attempt_singleton_ok _ (congrArg not h)

theorem State.onTile_congr {s : State} {f g : Tile → Tile} (h : f s.tile = g s.tile) : s.onTile f = s.onTile g :=
  congrArg (fun d => { s with dev := d }) (Dev.onTile_congr h)

/-- A tile with one landing slot changed. -/
def Tile.setLand (t : Tile) (ls : Fin 64) (l : Land) : Tile := { t with lands := t.lands.set ls l }

/-- Late data or a failure is taken for the next cycle (R235, R236). -/
theorem State.takeLate_of_data {s : State} {ls : Fin 64} (hst : s.tile.lands[ls].st = .ready ∨ s.tile.lands[ls].st = .failed) :
    s.takeLate ls = s.onTile fun t => t.setLand ls { s.tile.lands[ls] with
      st := if s.tile.lands[ls].st = .ready then .held else s.tile.lands[ls].st, due := s.psc + 1, issue := s.psc, slot := 5 } := by
  refine State.onTile_congr ?_
  rcases hst with hst | hst <;> simp only [hst] <;> rfl

/-- A late slot without its data waits for it from the next cycle on (R236). -/
theorem State.takeLate_of_late {s : State} {ls : Fin 64} (hst : s.tile.lands[ls].st = .late) : s.takeLate ls = s.onTile fun t =>
    t.setLand ls { s.tile.lands[ls] with st := .wait, psn := false, due := s.psc + 1, issue := s.psc, slot := 5 } := by
  refine State.onTile_congr ?_
  simp only [hst]
  rfl

@[simp] theorem Tile.setLand_lands_same (t : Tile) (ls : Fin 64) (l : Land) : (t.setLand ls l).lands[ls] = l := Vector.getElem_set_self ..

/-- LANDING_DUE (R38) changes its tile alone, by the state of the slot. -/
theorem exec_landingDue {s : State} {n : Fin 128} {ls : Fin 64} {t : Tile} {l : Land} (ht : s.dev.tiles[n] = t) (hl : t.lands[ls] = l)
    (hdue : l.due = s.dev.psc n) :
    ∃ u, exec (.landingDue n ls) s = .next u ∧ u.dev.mem = s.dev.mem
      ∧ (l.st = .held → u.dev.tiles[n] = (t.push (l.write (s.dev.psc n) l.data l.poison)).setLand ls { l with st := .free })
      ∧ (l.st = .failed → u.dev.tiles[n] = ((t.push (l.write (s.dev.psc n) 0#1024 true)).setTstat 3).setLand ls { l with st := .free })
      ∧ (l.st = .wait → l.psn = true →
          u.dev.tiles[n] = ((t.push (l.write (s.dev.psc n) 0#1024 true)).setTstat 2).setLand ls { l with st := .late }) := by
  subst hl ht
  refine ⟨_, rfl, rfl, fun hst => (Dev.onTile_tiles_same ..).trans ?_, fun hst => (Dev.onTile_tiles_same ..).trans ?_,
    fun hst hpsn => (Dev.onTile_tiles_same ..).trans ?_⟩
  · simp only [hdue, hst, bne_self_eq_false, Bool.false_eq_true, if_false]
    rw [← hdue]
    rfl
  · simp only [hdue, hst, bne_self_eq_false, Bool.false_eq_true, if_false]
    rw [← hdue]
    rfl
  · simp only [hdue, hst, bne_self_eq_false, Bool.false_eq_true, if_false]
    rw [if_pos hpsn, ← hdue]
    rfl

@[simp] theorem Tile.noOps_lands (t : Tile) : t.noOps.lands = t.lands := rfl

/-- The slot of the one operation, which has been performed, takes its data or its failure, and the operation is gone (R38). -/
theorem exec_landingArrival_of_single {s : State} {n : Fin 128} {o : MemOp} {ls : Fin 64} (hops : s.dev.tiles[n].ops = [o])
    (hstage : o.stage = .performed) (hls : o.ls = some ls) :
    ∃ u, exec (.landingArrival n ls) s = .next u ∧ u.dev.mem = s.dev.mem
      ∧ u.dev.tiles[n] = (s.dev.tiles[n].setLand ls (if o.failed then s.dev.tiles[n].lands[ls].noData
          else s.dev.tiles[n].lands[ls].arrive o.data o.poison)).noOps := by
  have hfind : s.dev.tiles[n].ops.findIdx? (fun o => o.stage == .performed && o.ls == some ls) = some 0 := by
    rw [hops]
    simp [hstage, hls]
  have hget : s.dev.tiles[n].ops[0]? = some o := by rw [hops]; rfl
  have hdrop := Dev.dropOp_of_single (d := s.dev.onTile n fun t => t.setLand ls (if o.failed then t.lands[ls].noData
    else t.lands[ls].arrive o.data o.poison)) (n := n) (o := o) (by rw [Dev.onTile_tiles_same]; exact hops)
  change ∃ u, execLandingArrival n ls s = _ ∧ _
  rw [execLandingArrival, State.onDev, hfind]
  simp only [hget]
  have hmem := congrArg Dev.mem hdrop
  refine ⟨_, rfl, hmem, (congrArg (fun d : Dev => d.tiles[n]) hdrop).trans ?_⟩
  rw [Dev.onTile_tiles_same, Dev.onTile_tiles_same]

end Sys2Proof.Machine

namespace Sys2Proof
open Machine

/-- Settles O41: fences by the issue order that they leave and the host lines that they give up, lget and lwait by the slot that they
take, LANDING_DUE and LANDING_ARRIVAL by the slot's state. -/
theorem fencesAndLateData : Obligations.FencesAndLateData := by
  unfold Obligations.FencesAndLateData
  refine ⟨fun s n x hcur hops htimed hposted => ?fence, fun s ls => ?late, fun s n ls hdue => ?due, fun s n ls o hops hstage hls => ?arrival⟩
  case fence =>
    obtain ⟨t, ht, hft⟩ := State.fence_of_alone hcur hops htimed hposted true false x.val
    obtain ⟨u, hu, hfu⟩ := State.fence_of_alone hcur hops htimed hposted false true x.val
    obtain ⟨v, hv, hfv⟩ := State.fence_of_alone hcur hops htimed hposted true true x.val
    refine ⟨_, _, _, ht, hu, hv, ?_⟩
    intro w hw
    obtain ⟨e, rfl, hops', hr, hlow, hhigh⟩ : ∃ e, w = { s with dev := e } ∧ s.dev.Fenced e n (min x.val (s.dev.ceiling n)) := by
      rcases hw with rfl | rfl | rfl
      exacts [⟨t, rfl, hft⟩, ⟨u, rfl, hfu⟩, ⟨v, rfl, hfv⟩]
    refine ⟨hops', hr, rfl, rfl, hlow, fun b hx hb hwf => ?_⟩
    obtain ⟨hnone, hwritten, hrest⟩ := hhigh b hx hb hwf
    refine ⟨hnone, fun q l c j hheld hc hj hw halone => ?_, fun k hk => hrest k fun q hq l hl ⟨hsome, j, hj, hw, hkey⟩ => ?_⟩
    · obtain ⟨hq, hl, -⟩ := hheld
      exact hwritten q hq l hl c j hc hj hw halone
    · exact hk q l j ⟨hq, hl, hsome⟩ hj hw hkey
  case late =>
    refine fun p => ⟨fun hst => ?_, fun hst => ?_⟩
    · have hlate : lateState s.tile.lands[ls].st = true := by rcases hst with h | h <;> rw [h] <;> rfl
      rw [execLget_eq ls p hlate, execLwait_eq ls hlate, State.takeLate_of_data hst]
      rcases hst with h | h <;> rw [h] <;> exact ⟨rfl, rfl⟩
    · have hlate : lateState s.tile.lands[ls].st = true := by rw [hst]; rfl
      rw [execLget_eq ls p hlate, execLwait_eq ls hlate, State.takeLate_of_late hst, hst]
      exact ⟨rfl, rfl⟩
  case due =>
    obtain ⟨u, hexec, hmem, hheld, hfailed, hwait⟩ := exec_landingDue rfl rfl hdue
    refine ⟨fun hst => ⟨u, hexec, ?_⟩, fun hst => ⟨u, hexec, ?_⟩, fun hst hpsn => ⟨u, hexec, ?_⟩⟩
    · rw [hheld hst]
      exact ⟨rfl, rfl, rfl, hmem, rfl⟩
    · rw [hfailed hst]
      exact ⟨rfl, rfl, rfl, hmem, rfl⟩
    · rw [hwait hst hpsn]
      exact ⟨rfl, rfl, rfl, hmem, rfl⟩
  case arrival =>
    obtain ⟨u, hexec, hmem, htile⟩ := exec_landingArrival_of_single hops hstage hls
    refine ⟨u, hexec, ?_⟩
    rw [htile]
    refine ⟨rfl, hmem, rfl, fun hf hst => ?_, fun hf hst => ?_, fun hf hst => ?_⟩
    · rw [Tile.noOps_lands, Tile.setLand_lands_same, hf]
      simp only [Land.arrive, hst, Bool.false_eq_true, if_false]
    · rw [Tile.noOps_lands, Tile.setLand_lands_same, hf]
      simp only [Land.arrive, hst, Bool.false_eq_true, if_false]
    · rw [Tile.noOps_lands, Tile.setLand_lands_same, hf, if_pos rfl, Land.noData]
      rcases hst with hst | hst <;> rw [hst]

end Sys2Proof
end

section
/-! O38, O43, O45, O46: the places of the bytes of a bank and of a vault, and what a write of bytes leaves at them (R107, R110). -/

namespace Sys2Proof.Machine

/-! Little-endian bytes -/

@[simp] theorem length_leBytes (n v : Nat) : (leBytes n v).length = n := by
  induction n generalizing v with
  | zero => rfl
  | succ n ih => exact congrArg Nat.succ (ih _)

theorem getElem_leBytes {n v i : Nat} (h : i < (leBytes n v).length) : (leBytes n v)[i] = BitVec.ofNat 8 (v / 256 ^ i) := by
  induction n generalizing v i with
  | zero => exact absurd h (Nat.not_lt_zero i)
  | succ n ih =>
    cases i with
    | zero => simp [leBytes]
    | succ i =>
      refine (ih _).trans ?_
      rw [Nat.div_div_eq_div_mul, pow_succ']

/-- Byte i of a value is its bits from 8 i on. -/
theorem getElem_leBytes_toNat {w n i : Nat} (v : BitVec w) (h : i < (leBytes n v.toNat).length) :
    (leBytes n v.toNat)[i] = v.extractLsb' (8 * i) 8 := by
  rw [getElem_leBytes, BitVec.extractLsb', Nat.shiftRight_eq_div_pow, pow_mul]
  rfl

/-! A write of bytes to places -/

/-- Memory `m'` holds the bytes at their places, and every other byte as `m` does. -/
def Wrote (m m' : List Host.Cell) (place : Nat → Nat) (bs : List Byte) : Prop :=
  (∀ i, ∀ h : i < bs.length, memRead m' (place i) = bs[i]) ∧ ∀ k, (∀ i < bs.length, k ≠ place i) → memRead m' k = memRead m k

theorem Wrote.of_memWriteList {m : List Host.Cell} (h : memWf m = true) (k : Nat) (bs : List Byte) :
    Wrote m (memWriteList m k bs) (fun i => k + i) bs := by
  refine ⟨fun i hi => memRead_memWriteList_add h k hi, fun j hj => memRead_memWriteList_of_outside h ?_⟩
  by_contra hin
  exact hj (j - k) (by omega) (show j = k + (j - k) by omega)

theorem Wrote.congr {m m' : List Host.Cell} {place place' : Nat → Nat} {bs : List Byte} (h : Wrote m m' place bs)
    (hplace : ∀ i < bs.length, place i = place' i) : Wrote m m' place' bs := by
  obtain ⟨hat, hframe⟩ := h
  exact ⟨fun i hi => hplace i hi ▸ hat i hi, fun k hk => hframe k fun i hi => hplace i hi ▸ hk i hi⟩

/-- Two writes to places that differ make one. -/
theorem Wrote.append {m m' m'' : List Host.Cell} {place : Nat → Nat} {bs bs' : List Byte} (h : Wrote m m' place bs)
    (h' : Wrote m' m'' (fun i => place (bs.length + i)) bs')
    (hne : ∀ i < bs.length, ∀ j < bs'.length, place i ≠ place (bs.length + j)) : Wrote m m'' place (bs ++ bs') := by
  obtain ⟨hat, hframe⟩ := h
  obtain ⟨hat', hframe'⟩ := h'
  constructor
  · intro i hi
    by_cases hlow : i < bs.length
    · rw [List.getElem_append_left hlow, hframe' _ (hne i hlow), hat i hlow]
    · rw [List.length_append] at hi
      obtain ⟨j, rfl⟩ : ∃ j, i = bs.length + j := ⟨i - bs.length, by omega⟩
      rw [hat' j (by omega), List.getElem_append_right (by omega)]
      simp only [Nat.add_sub_cancel_left]
  · intro k hk
    rw [List.length_append] at hk
    exact (hframe' k fun j hj => hk _ (by omega)).trans (hframe k fun i hi => hk i (by omega))

/-! The swizzle (R110) -/

theorem bfmtPitch_pos (f : W32) : 0 < bfmtPitch f := Nat.mul_pos (Nat.succ_pos _) (by decide)

theorem physOffset_of_scale {f : W32} {o : Nat} (hf : codeBlock (bfmtFmt f) = true) (ho : 0xF000 ≤ o) : physOffset f o = o :=
  if_pos (by simp [hf, ho])

/-- The granule at which the swizzle puts granule q of rows of `c` granules, in spans of 2 ^ k (R110). -/
def swizzle (c k q : Nat) : Nat := c * (q / c) + 2 ^ k * (q % c / 2 ^ k) + (q % c % 2 ^ k ^^^ q / c % 2 ^ k)

theorem physOffset_eq {f : W32} {o : Nat} (ho : ¬ (codeBlock (bfmtFmt f) = true ∧ 0xF000 ≤ o)) :
    physOffset f o = 16 * swizzle (fieldOf f 16 12 + 1) (fieldOf f 8 3) (o / 16) + o % 16 := by
  have hrow : o / bfmtPitch f = o / 16 / (fieldOf f 16 12 + 1) := by rw [bfmtPitch, mul_comm, Nat.div_div_eq_div_mul]
  have hcol : o % bfmtPitch f = 16 * (o / 16 % (fieldOf f 16 12 + 1)) + o % 16 := by
    rw [bfmtPitch, mul_comm, Nat.mod_mul, add_comm]
  have hspan : bfmtSpan f / 16 = 2 ^ fieldOf f 8 3 := Nat.mul_div_cancel_left _ (by decide)
  unfold physOffset swizzle
  rw [if_neg (by simpa using ho)]
  simp only [hrow, hcol, hspan]
  generalize o / 16 / (fieldOf f 16 12 + 1) = row
  generalize o / 16 % (fieldOf f 16 12 + 1) = c
  have hmod : (16 * c + o % 16) % bfmtSpan f = 16 * (c % 2 ^ fieldOf f 8 3) + o % 16 := by
    rw [bfmtSpan, Nat.mod_mul, Nat.mul_add_div (by decide), Nat.mod_div_self, add_zero]
    omega
  have hdiv : c = 2 ^ fieldOf f 8 3 * (c / 2 ^ fieldOf f 8 3) + c % 2 ^ fieldOf f 8 3 := (Nat.div_add_mod ..).symm
  rw [hmod, bfmtPitch]
  have hg : (16 * (c % 2 ^ fieldOf f 8 3) + o % 16) / 16 = c % 2 ^ fieldOf f 8 3 := by omega
  rw [hg]
  generalize c % 2 ^ fieldOf f 8 3 ^^^ row % 2 ^ fieldOf f 8 3 = x
  have hrowmul : row * ((fieldOf f 16 12 + 1) * 16) = 16 * ((fieldOf f 16 12 + 1) * row) := by ring
  omega

/-- The bytes of one granule stay together. -/
theorem physOffset_add {f : W32} {o i : Nat} (h : o % 16 + i < 16) : physOffset f (o + i) = physOffset f o + i := by
  by_cases ho : codeBlock (bfmtFmt f) = true ∧ 0xF000 ≤ o
  · obtain ⟨hf, ho⟩ := ho
    rw [physOffset_of_scale hf ho, physOffset_of_scale hf (by omega)]
  · rw [physOffset_eq ho, physOffset_eq fun h => ho ⟨h.1, by omega⟩, show (o + i) / 16 = o / 16 by omega]
    omega

/-- With rows of whole spans the swizzle permutes the granules of a span. -/
theorem swizzle_of_dvd {c k : Nat} (h : 2 ^ k ∣ c) (q : Nat) : swizzle c k q = 2 ^ k * (q / 2 ^ k) + (q % 2 ^ k ^^^ q / c % 2 ^ k) := by
  obtain ⟨t, rfl⟩ := h
  have hq : q / 2 ^ k = t * (q / (2 ^ k * t)) + q % (2 ^ k * t) / 2 ^ k := by
    rw [Nat.mod_mul_right_div_self, ← Nat.div_div_eq_div_mul, Nat.div_add_mod]
  rw [swizzle, Nat.mod_mul_right_mod, hq, mul_add, mul_assoc]

theorem swizzle_div {c k : Nat} (h : 2 ^ k ∣ c) (q : Nat) : swizzle c k q / 2 ^ k = q / 2 ^ k := by
  have hlt : q % 2 ^ k ^^^ q / c % 2 ^ k < 2 ^ k := Nat.xor_lt_two_pow (Nat.mod_lt _ (by positivity)) (Nat.mod_lt _ (by positivity))
  rw [swizzle_of_dvd h, Nat.mul_add_div (by positivity), Nat.div_eq_of_lt hlt, add_zero]

theorem swizzle_inj {c k : Nat} (h : 2 ^ k ∣ c) {q q' : Nat} (heq : swizzle c k q = swizzle c k q') : q = q' := by
  have hspan : q / 2 ^ k = q' / 2 ^ k := by rw [← swizzle_div h q, heq, swizzle_div h q']
  have hrow : q / c = q' / c := by
    obtain ⟨t, rfl⟩ := h
    rw [← Nat.div_div_eq_div_mul, hspan, Nat.div_div_eq_div_mul]
  rw [swizzle_of_dvd h, swizzle_of_dvd h, hspan, hrow] at heq
  have hmod : q % 2 ^ k = q' % 2 ^ k := Nat.xor_left_inj.1 (Nat.add_left_cancel heq)
  rw [← Nat.div_add_mod q (2 ^ k), hspan, hmod, Nat.div_add_mod]

theorem pow_dvd_of_legal {f : W32} (hf : bfmtBad f = false) : 2 ^ fieldOf f 8 3 ∣ fieldOf f 16 12 + 1 := by
  have hzero : bfmtPitch f % bfmtSpan f = 0 := by simpa [bfmtBad] using hf
  refine Nat.dvd_of_mul_dvd_mul_left (k := 16) (by decide) ?_
  rw [mul_comm 16 (_ + 1)]
  exact Nat.dvd_of_mod_eq_zero hzero

/-- Below the scale area of a block format the swizzle stays below it. -/
theorem physOffset_lt_scale {f : W32} (hf : bfmtBad f = false) {o : Nat} (ho : o < 0xF000) : physOffset f o < 0xF000 := by
  have hk : fieldOf f 8 3 < 8 := fieldOf_lt ..
  have hspan : 2 ^ fieldOf f 8 3 ∣ 3840 := (Nat.pow_dvd_pow 2 (Nat.le_of_lt_succ hk)).trans (by decide)
  have hlt : swizzle (fieldOf f 16 12 + 1) (fieldOf f 8 3) (o / 16) < 3840 := by
    obtain ⟨t, ht⟩ := hspan
    have hdiv : o / 16 / 2 ^ fieldOf f 8 3 < t := Nat.div_lt_of_lt_mul (by omega)
    rw [← swizzle_div (pow_dvd_of_legal hf)] at hdiv
    rw [ht]
    exact (Nat.div_lt_iff_lt_mul (by positivity)).1 hdiv |>.trans_eq (mul_comm ..)
  rw [physOffset_eq fun h => absurd h.2 (not_le.2 ho)]
  omega

theorem physOffset_inj {f : W32} (hf : bfmtBad f = false) {o o' : Nat} (h : physOffset f o = physOffset f o') : o = o' := by
  by_cases hb : codeBlock (bfmtFmt f) = true ∧ 0xF000 ≤ o
  · by_cases hb' : codeBlock (bfmtFmt f) = true ∧ 0xF000 ≤ o'
    · rwa [physOffset_of_scale hb.1 hb.2, physOffset_of_scale hb'.1 hb'.2] at h
    · have hlt := physOffset_lt_scale hf (not_le.1 fun hle => hb' ⟨hb.1, hle⟩)
      rw [physOffset_of_scale hb.1 hb.2] at h
      omega
  · by_cases hb' : codeBlock (bfmtFmt f) = true ∧ 0xF000 ≤ o'
    · have hlt := physOffset_lt_scale hf (not_le.1 fun hle => hb ⟨hb'.1, hle⟩)
      rw [physOffset_of_scale hb'.1 hb'.2] at h
      omega
    · rw [physOffset_eq hb, physOffset_eq hb'] at h
      have hq := swizzle_inj (pow_dvd_of_legal hf) (q := o / 16) (q' := o' / 16) (by omega)
      omega

theorem bankKey_add {n : Fin 128} {f : W32} {bank o i : Nat} (h : o % 16 + i < 16) : bankKey n f bank (o + i) = bankKey n f bank o + i := by
  rw [bankKey, physOffset_add h, bankKey, tspKey, tspKey]
  omega

theorem bankKey_inj {n : Fin 128} {f : W32} (hf : bfmtBad f = false) {bank o o' : Nat} (h : bankKey n f bank o = bankKey n f bank o') :
    o = o' := by
  refine physOffset_inj hf ?_
  rw [bankKey, bankKey, tspKey, tspKey] at h
  omega

/-! Writes to a bank -/

theorem writeBank_memOnly (n : Fin 128) (f : W32) (bank fuel o : Nat) (bs : List Byte) (d : Dev) :
    d.MemOnly (writeBank n f bank fuel o bs d) := by
  induction fuel generalizing o bs d with
  | zero => exact .refl d
  | succ fuel ih =>
    unfold writeBank
    split
    · exact .refl d
    · exact (d.write_memOnly _ _).trans (ih ..)

theorem Dev.bankWrite_memOnly (d : Dev) (n : Fin 128) (f : W32) (bank o : Nat) (bs : List Byte) : d.MemOnly (d.bankWrite n f bank o bs) :=
  writeBank_memOnly ..

theorem writeBank_wrote {n : Fin 128} {f : W32} {bank : Nat} {fuel o : Nat} {bs : List Byte} {d : Dev} (hwf : memWf d.mem = true)
    (hfuel : bs.length ≤ 16 * fuel - o % 16)
    (hinj : ∀ i < bs.length, ∀ j < bs.length, bankKey n f bank (o + i) = bankKey n f bank (o + j) → i = j) :
    Wrote d.mem (writeBank n f bank fuel o bs d).mem (fun i => bankKey n f bank (o + i)) bs := by
  induction fuel generalizing o bs d with
  | zero =>
    obtain rfl : bs = [] := List.eq_nil_of_length_eq_zero (by omega)
    exact ⟨fun i hi => absurd hi (Nat.not_lt_zero i), fun _ _ => rfl⟩
  | succ fuel ih =>
    unfold writeBank
    split
    case isTrue hnil =>
      obtain rfl : bs = [] := List.isEmpty_iff.1 hnil
      exact ⟨fun i hi => absurd hi (Nat.not_lt_zero i), fun _ _ => rfl⟩
    case isFalse hbs =>
      have hlen : bs.length = (bs.take (16 - o % 16)).length + (bs.drop (16 - o % 16)).length := by
        rw [← List.length_append, List.take_append_drop]
      have htake : (bs.take (16 - o % 16)).length = min (16 - o % 16) bs.length := List.length_take
      have hfirst := (Wrote.of_memWriteList hwf (bankKey n f bank o) (bs.take (16 - o % 16))).congr fun i hi =>
        (bankKey_add (n := n) (f := f) (bank := bank) (o := o) (i := i) (by omega)).symm
      have hrest := ih (o := o + (16 - o % 16)) (bs := bs.drop (16 - o % 16)) (d := d.write (bankKey n f bank o) (bs.take (16 - o % 16)))
        (memWriteList_wf hwf _ _) (by omega) fun i hi j hj hkey => by
          have := hinj (16 - o % 16 + i) (by omega) (16 - o % 16 + j) (by omega) (by rwa [← Nat.add_assoc, ← Nat.add_assoc])
          omega
      have hboth := Wrote.append (place := fun i => bankKey n f bank (o + i)) hfirst (hrest.congr fun i hi => ?_) fun i hi j hj hkey => ?_
      · rwa [List.take_append_drop] at hboth
      · rw [show o + (16 - o % 16) + i = o + ((bs.take (16 - o % 16)).length + i) by omega]
      · have := hinj i (by omega) _ (by omega) hkey
        omega

/-- A write within one granule is a write of consecutive bytes. -/
theorem Dev.bankWrite_of_granule (d : Dev) (n : Fin 128) (f : W32) (bank : Nat) {o : Nat} {bs : List Byte} (hpos : bs ≠ [])
    (h : o % 16 + bs.length ≤ 16) : d.bankWrite n f bank o bs = d.write (bankKey n f bank o) bs := by
  have hlen : bs.isEmpty = false := by simpa using hpos
  rw [Dev.bankWrite, writeBank, hlen, if_neg Bool.false_ne_true]
  dsimp only
  rw [List.take_of_length_le (by omega), List.drop_eq_nil_of_le (by omega),
    writeBank]
  rfl

theorem Dev.bankWrite_wrote {d : Dev} (hwf : memWf d.mem = true) {n : Fin 128} {f : W32} {bank o : Nat} {bs : List Byte}
    (h : o % 16 + bs.length ≤ 16 ∨ bfmtBad f = false) :
    Wrote d.mem (d.bankWrite n f bank o bs).mem (fun i => bankKey n f bank (o + i)) bs := by
  refine writeBank_wrote hwf (by omega) fun i hi j hj hkey => ?_
  obtain h | h := h
  · rw [bankKey_add (by omega), bankKey_add (by omega)] at hkey
    omega
  · have := bankKey_inj h hkey
    omega

/-! Bytes at a tile-local place -/

/-- The key of byte i from a tile-local place on (R107, R110). -/
def Dev.locPlace (d : Dev) (n : Fin 128) (l : Loc) (i : Nat) : Nat :=
  match l with
  | .tsp b o => bankKey n (d.tiles[n].sr.bfmt[idx 16 b]) b (o + i)
  | .vault o => vaultKey n o + i
  | .lateral r o => vaultKey (d.rankTile n r) o + i

theorem Dev.locPlace_zero (d : Dev) (n : Fin 128) (l : Loc) : d.locPlace n l 0 = d.locKey n l := by cases l <;> rfl

/-- Where the bytes from a place on lie within one granule, or stand in a bank of a legal format, no two share a place. -/
def Dev.LocFits (d : Dev) (n : Fin 128) (l : Loc) (len : Nat) : Prop :=
  match l with
  | .tsp b o => o % 16 + len ≤ 16 ∨ bfmtBad (d.tiles[n].sr.bfmt[idx 16 b]) = false
  | _ => True

theorem Dev.locBytes_eq (d : Dev) (n : Fin 128) (l : Loc) (len : Nat) :
    d.locBytes n l len = (List.range len).map fun i => d.byte (d.locPlace n l i) := by cases l <;> rfl

theorem Dev.bad_of_bytes {d : Dev} {k len : Nat} (hlen : 0 < len) (h : ∀ i < len, d.bad (k + i) 1 = false) : d.bad k len = false := by
  refine List.any_eq_false.2 fun w hw hin => ?_
  simp only [Bool.and_eq_true, decide_eq_true_eq] at hin
  obtain ⟨hlo, hhi⟩ := hin
  have hbyte := h (w * 8 - k) (by omega)
  have := List.any_eq_false.1 hbyte w hw
  simp only [Bool.and_eq_true, decide_eq_true_eq] at this
  omega

theorem Dev.locBad_of_bytes {d : Dev} {n : Fin 128} {l : Loc} {len : Nat} (hlen : 0 < len)
    (h : ∀ i < len, d.bad (d.locPlace n l i) 1 = false) :
    d.locBad n l len = false := by
  cases l with
  | tsp b o => exact List.any_eq_false.2 fun i hi => ne_true_of_eq_false (h i (List.mem_range.1 hi))
  | vault o => exact Dev.bad_of_bytes hlen h
  | lateral r o => exact Dev.bad_of_bytes hlen h

theorem Dev.locWrite_memOnly (d : Dev) (n : Fin 128) (l : Loc) (bs : List Byte) : d.MemOnly (d.locWrite n l bs) := by
  cases l with
  | tsp b o => exact d.bankWrite_memOnly ..
  | vault o => exact d.write_memOnly ..
  | lateral r o => exact d.write_memOnly ..

theorem Dev.locWrite_wrote {d : Dev} (hwf : memWf d.mem = true) {n : Fin 128} {l : Loc} {bs : List Byte} (h : d.LocFits n l bs.length) :
    Wrote d.mem (d.locWrite n l bs).mem (d.locPlace n l) bs := by
  cases l with
  | tsp b o => exact Dev.bankWrite_wrote hwf h
  | vault o => exact Wrote.of_memWriteList hwf ..
  | lateral r o => exact Wrote.of_memWriteList hwf ..

/-- An aligned word lies in one granule: its bytes are consecutive. -/
theorem Dev.locPlace_word (d : Dev) (n : Fin 128) {sp : Space} {a i : Nat} (ha : a % 8 = 0) (hi : i < 8) :
    d.locPlace n (timedPlace sp a) i = d.locKey n (timedPlace sp a) + i := by
  cases sp
  case tsp => exact bankKey_add (by omega)
  case vault => rfl
  case isp => rfl

theorem Dev.locWord_eq (d : Dev) (n : Fin 128) {sp : Space} {a : Nat} (ha : a % 8 = 0) :
    d.locWord n (timedPlace sp a) = d.dword (d.locKey n (timedPlace sp a)) := by
  rw [Dev.locWord, Dev.locBytes_eq, Dev.dword, Dev.bytes, List.map_congr_left fun i hi => by
    rw [d.locPlace_word n ha (List.mem_range.1 hi)]]

/-- An aligned word is written as consecutive bytes. -/
theorem Dev.locWrite_word (d : Dev) (n : Fin 128) {sp : Space} {a : Nat} (ha : a % 8 = 0) (v : Nat) :
    d.locWrite n (timedPlace sp a) (leBytes 8 v) = d.write (d.locKey n (timedPlace sp a)) (leBytes 8 v) := by
  cases sp
  case tsp => exact d.bankWrite_of_granule n _ _ (by simp [leBytes]) (by rw [length_leBytes]; omega)
  case vault => rfl
  case isp => rfl

end Sys2Proof.Machine
end

section
/-! O38, O43: TIMED_ACCESS_PERFORM (R224) where one entry, or one operation of a matrix path, is a tile's only timed access. -/

namespace Sys2Proof.Machine

theorem overList_singleton {α : Type} (f : Dev → α → Dev × α) (x : α) (d : Dev) : overList f [x] d = ((f d x).1, [(f d x).2]) := rfl

theorem overList_of_fixed {α : Type} {f : Dev → α → Dev × α} {d : Dev} {l : List α} (h : ∀ x ∈ l, f d x = (d, x)) :
    overList f l d = (d, l) := by
  induction l with
  | nil => rfl
  | cons x l ih =>
    obtain ⟨hx, hl⟩ := List.forall_mem_cons.1 h
    rw [overList, hx, ih hl]

theorem Dev.sndrRead_of_none (d : Dev) (n : Fin 128) (psc : Nat) {o : MemOp} (h : o.tspRead = none) : d.sndrRead n psc o = (d, o) := by
  rw [Dev.sndrRead, h]
  rfl

/-- The tile as TIMED_ACCESS_PERFORM leaves it, its issue order apart. -/
def Tile.withWork (t : Tile) (flight : List Flight) (ops : List MemOp) (tpath apath : List PathOp) : Tile :=
  { t with flight := flight, ops := ops, tpath := tpath, apath := apath }

theorem Dev.settleFences_withWork {d : Dev} {n : Fin 128} {flight : List Flight} {ops : List MemOp} {tpath apath : List PathOp}
    (h : ∀ o ∈ ops, o.kind ≠ .fence) : (d.onTile n fun t => t.withWork flight ops tpath apath).settleFences n
      = d.onTile n fun t => t.withWork flight ops tpath apath := by
  refine Dev.settleFences_of_no_fence ?_
  rw [Dev.onTile_tiles_same]
  exact h

section
variable {s : State} {n : Fin 128} (hops : ∀ o ∈ s.dev.tiles[n].ops, o.tspRead = none ∧ o.kind ≠ .fence)
include hops

/-- One entry of work in flight: its read, its write and the read of its atomic, one after another. -/
theorem exec_timed_of_flight {f : Flight} (hflight : s.dev.tiles[n].flight = [f]) (htpath : s.dev.tiles[n].tpath = [])
    (hapath : s.dev.tiles[n].apath = []) {r w a : Dev × Flight} (hr : s.dev.performRead n (s.dev.psc n) f = r)
    (hw : r.1.performWrite n (s.dev.psc n) r.2 = w) (ha : w.1.readAtomic n (s.dev.psc n) w.2 = a) :
    exec (.timedAccessPerform n) s = .next (s.onDev fun _ => a.1.onTile n fun t =>
      t.withWork ([a.2].filter fun f => !f.spent) s.dev.tiles[n].ops [] []) := by
  subst hr hw ha
  change execTimedAccessPerform n s = _
  have hfixed (e : Dev) : overList (fun d o => d.sndrRead n (s.dev.psc n) o) s.dev.tiles[n].ops e = (e, s.dev.tiles[n].ops) :=
    overList_of_fixed fun o ho => e.sndrRead_of_none n _ (hops o ho).1
  rw [execTimedAccessPerform, State.onDev]
  simp only [hflight, htpath, hapath, hfixed]
  exact congrArg (fun d => Host.Outcome.next (s.onDev fun _ => d)) (Dev.settleFences_withWork fun o ho => (hops o ho).2)

/-- One operation of a matrix path: its read, then its write, in the path where it stands. -/
theorem exec_timed_of_path {o : PathOp} {sat : Bool} (hsat : sat = s.start.tiles[n].sr.zctl.getLsbD 0) (hflight : s.dev.tiles[n].flight = [])
    (hpath : s.dev.tiles[n].tpath ++ s.dev.tiles[n].apath = [o]) {r w : Dev × PathOp}
    (hr : Dev.pathAccess n (s.dev.psc n) true sat s.dev o = r) (hw : Dev.pathAccess n (s.dev.psc n) false sat r.1 r.2 = w) :
    ∃ tpath apath, tpath ++ apath = [w.2].filter (fun o => !o.ended (s.dev.psc n))
      ∧ exec (.timedAccessPerform n) s
        = .next (s.onDev fun _ => w.1.onTile n fun t => t.withWork [] s.dev.tiles[n].ops tpath apath) := by
  subst hr hw hsat
  have hfixed (e : Dev) : overList (fun d o => d.sndrRead n (s.dev.psc n) o) s.dev.tiles[n].ops e = (e, s.dev.tiles[n].ops) :=
    overList_of_fixed fun o ho => e.sndrRead_of_none n _ (hops o ho).1
  obtain ⟨htpath, hapath⟩ | ⟨htpath, hapath⟩ := List.append_eq_singleton_iff.1 hpath
  · refine ⟨[], _, rfl, ?_⟩
    change execTimedAccessPerform n s = _
    rw [execTimedAccessPerform, State.onDev]
    simp only [hflight, htpath, hapath, hfixed]
    exact congrArg (fun d => Host.Outcome.next (s.onDev fun _ => d)) (Dev.settleFences_withWork fun o ho => (hops o ho).2)
  · refine ⟨_, [], List.append_nil _, ?_⟩
    change execTimedAccessPerform n s = _
    rw [execTimedAccessPerform, State.onDev]
    simp only [hflight, htpath, hapath, hfixed]
    exact congrArg (fun d => Host.Outcome.next (s.onDev fun _ => d)) (Dev.settleFences_withWork fun o ho => (hops o ho).2)

end

end Sys2Proof.Machine
end

section
/-! O43: the issue of `snd`, `bcst` and `rcv` (R242–R246). -/

namespace Sys2Proof.Machine

/-- A timed exchange operand that the rules allow, for an access `k` cycles after issue (R16, R105, R108, R157). -/
def State.xOk (s : State) (x : XSrc) (k : Nat) : Prop :=
  match x with
  | .s _ => True
  | .v f r => s.awake f [r]
  | .tsp bank off => off.toNat % 16 = 0 ∧ off.toNat + 128 ≤ 0x10000 ∧ s.tile.owned bank.val = false
      ∧ ∀ u ∈ s.tile.portUses, u.cycle = s.psc + k → u.bank ≠ bank.val

theorem State.chkX_ok {s : State} {x : XSrc} {k : Nat} (h : s.xOk x k) : ∀ c ∈ s.chkX x k, c.bad = false := by
  cases x with
  | s r => exact Chk.all_nil
  | v f r => exact Chk.all_cons (h r List.mem_cons_self) Chk.all_nil
  | tsp bank off =>
    obtain ⟨halign, hlen, howned, hport⟩ := h
    have hbounds : (s.tile.owned bank.val || decide (0x10000 < off.toNat + 128)) = false := by
      rw [howned, Bool.false_or]
      exact decide_eq_false (not_lt.2 hlen)
    refine Chk.all_cons (chkAlign_ok halign _) (Chk.all_cons (State.chkPort_ok fun u hu x hx => ?_) (Chk.all_cons hbounds Chk.all_nil))
    obtain rfl := List.mem_singleton.1 hx
    exact hport u hu

/-! Sends -/

/-- How long after its issue a send launches: of a TSP source, after its read (R242, R243). -/
def sendLead : XSrc → Nat
  | .tsp _ _ => 4
  | _ => 2

/-- The beats that a send puts on the links, one for each route (R242, R243, R245). -/
def State.beatsOf (s : State) (p : Panel) (x : XSrc) (routes : List (List Nat)) (each : Bool) : List Beat :=
  routes.zipIdx.map fun r =>
    { id := p.nextBeat + r.2, src := s.tile.rank, route := r.1, each := each,
      launch := s.psc + sendLead x, issue := s.psc,
      faddr := s.iss.addr, data := (s.sendData x).1, poison := (s.sendData x).2, taken := [], extra := [] }

/-- The state with these beats on the links, and the read that fills them where the source is in the TSP. -/
def State.sentBeats (s : State) (p : Panel) (x : XSrc) (bs : List Beat) : State :=
  let s1 := s.onDev fun d => d.onPanel p.handle fun q => { q with beats := q.beats ++ bs, nextBeat := q.nextBeat + bs.length }
  match x with
  | .tsp bank off => if bs = [] then s1 else s1.onTile fun t => t.push
      { Flight.result s.psc s.iss.slot (s.psc + 2) (.beat p.nextBeat) 0#1024 false with
        act := .read (s.psc + 2) .tsp (bank.val * 65536 + off.toNat) 8#4 }
  | _ => s1

theorem State.sendBeats_eq {s : State} {p : Panel} (hpanel : s.dev.panelOf s.tileNo = some p) (x : XSrc) (routes : List (List Nat))
    (each : Bool) : s.sendBeats x routes each = s.sentBeats p x (s.beatsOf p x routes each) := by
  unfold State.sendBeats
  rw [hpanel]
  cases x with
  | s r => rfl
  | v f r => rfl
  | tsp bank off => exact ite_congr (propext List.isEmpty_iff) (fun _ => rfl) fun _ => rfl

theorem State.map_route_beatsOf (s : State) (p : Panel) (x : XSrc) (routes : List (List Nat)) (each : Bool) :
    (s.beatsOf p x routes each).map Beat.route = routes := by
  unfold State.beatsOf
  rw [List.map_map]
  exact List.zipIdx_map_fst ..

section
variable {s : State} {p : Panel} (hpanel : s.dev.panelOf s.tileNo = some p)
include hpanel

theorem exec_snd_of_ok {src : XSrc} {dst : Fin 128} (hsrc : s.xOk src 2) (hdst : dst.val < p.w * p.h) :
    exec (.snd src dst) s = .next (s.sentBeats p src (s.beatsOf p src [p.route s.tile.rank dst.val] false)) := by
  have hrank : ¬ s.dev.panelSize s.tileNo ≤ dst.val := by
    rw [Dev.panelSize_of_panelOf hpanel]
    omega
  change execSnd src dst s = _
  rw [execSnd, s.attempt_ok _ (Chk.all_cons (decide_eq_false hrank) (State.chkX_ok hsrc)), hpanel]
  exact congrArg Host.Outcome.next (State.sendBeats_eq hpanel ..)

theorem exec_bcst_of_ok {src : XSrc} (col : Bool) (hsrc : s.xOk src 2) :
    exec (.bcst src col) s = .next (s.sentBeats p src (s.beatsOf p src (p.arms s.tile.rank col) true)) := by
  change execBcst src col s = _
  rw [execBcst, s.attempt_ok _ (State.chkX_ok hsrc), hpanel]
  exact congrArg Host.Outcome.next (State.sendBeats_eq hpanel ..)

end

/-! Receives -/

/-- The state in which a rank has taken a beat. -/
def State.tookBeat (s : State) (p : Panel) (b : Beat) : State :=
  s.onDev fun d => d.onPanel p.handle fun q =>
    { q with beats := q.beats.map fun x => if x.id == b.id then { x with taken := s.tile.rank :: x.taken } else x }

/-- What `rcv` does with the beat that it takes (R244). -/
def State.received (s : State) (u : State) (b : Beat) (src : Fin 128) (dst : XSrc) : State :=
  match dst with
  | .s r => u.put 2 (.s r) ((b.data.setWidth 64).setWidth 1024) b.poison
  | .v f r => u.put 2 (.v f r) b.data b.poison
  | .tsp bank off => u.onTile fun t => t.push
      { Flight.result s.psc s.iss.slot (s.psc + 3) (.beat src.val) 0#1024 false with
        act := .write (s.psc + 3) .tsp (bank.val * 65536 + off.toNat) 128 b.data, pdrop := b.poison }

theorem exec_rcv_of_arriving {s : State} {p : Panel} (hpanel : s.dev.panelOf s.tileNo = some p) {src : Fin 128} {b : Beat} {dst : XSrc}
    (harr : s.arriving src.val = some b) (hdst : s.xOk dst 3) :
    exec (.rcv dst src) s = .next (s.received (s.tookBeat p b) b src dst) := by
  change execRcv dst src s = _
  rw [execRcv, s.attempt_ok _ (Chk.all_cons (by rw [harr]; rfl) (State.chkX_ok hdst)), harr, hpanel]
  cases dst <;> rfl

theorem exec_rcv_of_none {s : State} {n : Fin 128} (hcur : s.cur = .tile n) {src : Fin 128} {dst : XSrc}
    (harr : s.arriving src.val = none) (hdst : s.xOk dst 3) : exec (.rcv dst src) s = .next (s.illop 9) := by
  have hissues : ∃ t, s.Issues (.rcv dst src) ([] ++ chkOp (s.arriving src.val).isNone 9 :: s.chkX dst 3) t := by
    refine ⟨_, ?go, ?hi, rfl⟩
    case hi =>
      change execRcv dst src s = _
      unfold execRcv
      rfl
  obtain ⟨t, hissues⟩ := hissues
  rw [hissues.one_bad hcur Chk.all_nil (State.chkX_ok hdst) (by rw [harr]; rfl)]
  rfl

/-- The beat that arrives is one of the sender's, on this cycle (R244). -/
theorem State.arriving_spec {s : State} {p : Panel} (hpanel : s.dev.panelOf s.tileNo = some p) {src : Nat} {b : Beat}
    (h : s.arriving src = some b) : b.src = src ∧ b.arrives s.tile.rank p.psc = true := by
  rw [State.arriving, hpanel] at h
  have := List.find?_some h
  simp only [Bool.and_eq_true, beq_iff_eq] at this
  exact this.1

end Sys2Proof.Machine
end

section
/-! O43, O45: what a router sees of its neighbours' flits changes the routers alone (R422), and one panel changes (R242). -/

namespace Sys2Proof.Machine

/-- `e` is `d` but for what routers know. -/
def Dev.RoutersOnly (d e : Dev) : Prop := e = { d with routers := e.routers }

theorem Dev.RoutersOnly.refl (d : Dev) : d.RoutersOnly d := rfl

theorem Dev.RoutersOnly.trans {d e f : Dev} (h : d.RoutersOnly e) (h' : e.RoutersOnly f) : d.RoutersOnly f := by
  unfold Dev.RoutersOnly at *
  rw [h', h]

theorem Dev.foldl_routersOnly {α : Type} {f : Dev → α → Dev} (hf : ∀ (d : Dev) x, d.RoutersOnly (f d x)) (l : List α) (d : Dev) :
    d.RoutersOnly (l.foldl f d) := by
  induction l generalizing d with
  | nil => exact .refl d
  | cons x l ih => exact (hf d x).trans (ih (f d x))

theorem Dev.noteFlit_routersOnly (d : Dev) (p : Panel) (src dst : Nat) : d.RoutersOnly (d.noteFlit p src dst) := by
  unfold Dev.noteFlit
  split
  · exact .refl d
  · refine Dev.foldl_routersOnly (fun d k => ?_) _ d
    split
    · rfl
    · exact .refl d

theorem Dev.noteBeats_routersOnly (d : Dev) (p : Panel) (l : List Beat) (psc : Nat) : d.RoutersOnly (d.noteBeats p l psc) :=
  Dev.foldl_routersOnly (fun d _ => Dev.foldl_routersOnly (fun d _ => d.noteFlit_routersOnly ..) _ d) _ d

/-! One panel -/

theorem Dev.handle_of_panel {d : Dev} {h : Nat} {p : Panel} (hp : d.panel h = some p) : p.handle = h := by
  have := List.find?_some hp
  simpa using this

theorem Dev.panel_of_panelOf {d : Dev} {n : Fin 128} {p : Panel} (hp : d.panelOf n = some p) : d.panel p.handle = some p := by
  unfold Dev.panelOf at hp
  split at hp
  · rwa [Dev.handle_of_panel hp]
  · contradiction

theorem Dev.panel_onPanel_same {d : Dev} {h : Nat} {p : Panel} (hp : d.panel h = some p) {f : Panel → Panel}
    (hf : ∀ q, (f q).handle = q.handle) : (d.onPanel h f).panel h = some (f p) := by
  have hphandle := Dev.handle_of_panel hp
  unfold Dev.panel at hp
  have hcomp : ((fun q : Panel => decide (q.handle = h)) ∘ fun q => if q.handle = h then f q else q) = fun q => decide (q.handle = h) := by
    funext q
    by_cases hq : q.handle = h
    · simp [hq, hf]
    · simp [hq]
  rw [Dev.onPanel, Dev.panel, List.find?_map, hcomp, hp, Option.map_some, if_pos hphandle]

end Sys2Proof.Machine
end

section
/-! O43: the read that fills a beat (R243), and the beats of a panel on one cycle (R242, R246). -/

namespace Sys2Proof.Machine

/-! A read for a beat -/

/-- The beat of a send from the TSP takes the bytes that the read finds (R243). -/
def Beat.fill (rank perf : Nat) (v : VReg) (poison : Bool) (b : Beat) : Beat :=
  if b.src = rank ∧ b.issue + 2 = perf then { b with data := v, poison := poison } else b

/-- An entry with the value that its load takes (R224). -/
def Flight.loaded (f : Flight) (d : Dev) (n : Fin 128) (sp : Space) (a : Nat) (code : BitVec 4) : Flight :=
  { f with value := extend code (d.locBytes n (timedPlace sp a) (codeBytes code)),
           poison := f.poison || d.locBad n (timedPlace sp a) (codeBytes code), act := .none, loc := sp.word a }

theorem Dev.performRead_of_beat {d : Dev} {n : Fin 128} {p : Panel} {f : Flight} {psc a r : Nat} {sp : Space} {code : BitVec 4}
    (hpanel : d.panelOf n = some p) (hact : f.act = .read psc sp a code) (hdest : f.dest = .beat r) :
    d.performRead n psc f = ((d.locEcc n (timedPlace sp a) (codeBytes code)).onPanel p.handle fun q =>
      { q with beats := q.beats.map (Beat.fill d.tiles[n].rank psc (f.loaded d n sp a code).value (f.loaded d n sp a code).poison) },
      f.loaded d n sp a code) := by
  have hfill : (fun b : Beat => if (b.src == d.tiles[n].rank && b.issue + 2 == psc) = true
      then { b with data := (f.loaded d n sp a code).value, poison := (f.loaded d n sp a code).poison } else b)
      = Beat.fill d.tiles[n].rank psc (f.loaded d n sp a code).value (f.loaded d n sp a code).poison := by
    funext b
    rw [Beat.fill]
    simp only [Bool.and_eq_true, beq_iff_eq]
  rw [← hfill]
  unfold Dev.performRead
  simp only [hact, hdest, hpanel, if_true]
  rw [← hdest]
  rfl

theorem exec_timed_of_beat_read {s : State} {n : Fin 128} {p : Panel} {f : Flight} {a r : Nat} {sp : Space} {code : BitVec 4} (hpanel : s.dev.panelOf n = some p)
    (hops : ∀ o ∈ s.dev.tiles[n].ops, o.tspRead = none ∧ o.kind ≠ .fence)
    (hflight : s.dev.tiles[n].flight = [f]) (htpath : s.dev.tiles[n].tpath = []) (hapath : s.dev.tiles[n].apath = [])
    (hact : f.act = .read (s.dev.psc n) sp a code) (hdest : f.dest = .beat r) (hflags : f.flags = 0#6) (hpzero : f.pzero = false) :
    ∃ t, exec (.timedAccessPerform n) s = .next t ∧ t.dev.mem = s.dev.mem ∧ t.dev.tiles[n].flight = []
      ∧ t.dev.panel p.handle = some { p with beats := p.beats.map (Beat.fill s.dev.tiles[n].rank (s.dev.psc n)
          (extend code (s.dev.locBytes n (timedPlace sp a) (codeBytes code))) (f.poison || s.dev.locBad n (timedPlace sp a) (codeBytes code))) } := by
  have hread := Dev.performRead_of_beat hpanel hact hdest
  refine ⟨_, exec_timed_of_flight hops hflight htpath hapath hread rfl rfl, ?_⟩
  have hcount := s.dev.locEcc_counted n (timedPlace sp a) (codeBytes code)
  have hspent : (f.loaded s.dev n sp a code).spent = true := by
    simp only [Flight.spent, Flight.loaded, hflags, hpzero, hdest]
    rfl
  have hpanel' : (s.dev.locEcc n (timedPlace sp a) (codeBytes code)).panel p.handle = some p := by
    rw [Dev.panel, hcount.panels]
    exact Dev.panel_of_panelOf hpanel
  refine ⟨hcount.mem, ?_, Dev.panel_onPanel_same hpanel' fun q => rfl⟩
  refine (congrArg Tile.flight (Dev.onTile_tiles_same ..)).trans ?_
  change [f.loaded s.dev n sp a code].filter (fun f => !f.spent) = []
  simp [hspent]

/-! The beats of a cycle -/

theorem firstOfSend_covers {l : List Beat} {b : Beat} (h : b ∈ l) : ∃ x ∈ firstOfSend l, x.src = b.src ∧ x.issue = b.issue := by
  induction l with
  | nil => exact absurd h List.not_mem_nil
  | cons y l ih =>
    obtain rfl | h := List.mem_cons.1 h
    · exact ⟨b, List.mem_cons_self, rfl, rfl⟩
    · obtain ⟨x, hx, hsrc, hissue⟩ := ih h
      by_cases hsame : x.sameSend y = true
      · simp only [Beat.sameSend, Bool.and_eq_true, beq_iff_eq] at hsame
        obtain ⟨hs, hi⟩ := hsame
        exact ⟨y, List.mem_cons_self, hs ▸ hsrc, hi ▸ hissue⟩
      · exact ⟨x, List.mem_cons_of_mem _ (List.mem_filter.2 ⟨hx, by simpa using hsame⟩), hsrc, hissue⟩

/-- Whether a beat loses its link on a cycle: to a lower-ranked sender, or to an earlier send of its own (R246). -/
def Beat.Lost (b : Beat) (l : List Beat) (psc : Nat) : Prop :=
  ∃ k, b.link psc = some k ∧ ∃ x ∈ l, x.link psc = some k ∧ (x.src < b.src ∨ (x.src = b.src ∧ x.issue < b.issue))

theorem Beat.loses_iff {b : Beat} {l : List Beat} {psc : Nat} : b.loses l psc = true ↔ b.Lost l psc := by
  unfold Beat.loses Beat.Lost
  cases b.link psc with
  | none => simp
  | some k =>
    simp only [Beat.sameSend, List.any_eq_true, Bool.and_eq_true, Bool.or_eq_true, Bool.not_eq_true', Bool.and_eq_false_iff, beq_iff_eq,
      beq_eq_false_iff_ne, decide_eq_true_eq, Option.some.injEq, exists_eq_left']
    refine exists_congr fun x => and_congr_right fun _ => ?_
    rw [and_assoc]
    refine and_congr_right fun _ => ⟨And.right, fun h => ⟨?_, h⟩⟩
    obtain h | ⟨-, h⟩ := h <;> omega

/-- The beats that stay on the links after a cycle: they lose no link, and their last arrival is to come. -/
def Panel.staying (p : Panel) : List Beat := (p.beats.filter fun b => !b.loses p.beats p.psc).filter fun b => decide (p.psc < b.last)

theorem Panel.mem_staying {p : Panel} {b : Beat} : b ∈ p.staying ↔ b ∈ p.beats ∧ ¬ b.Lost p.beats p.psc ∧ p.psc < b.last := by
  simp only [Panel.staying, List.mem_filter, Bool.not_eq_true', ← Bool.not_eq_true, Beat.loses_iff, decide_eq_true_eq, and_assoc]

/-- The traps of the beats that lose their links, one for each send (R246). -/
def Panel.conflicts (p : Panel) : List Raise := (firstOfSend (p.beats.filter fun b => b.loses p.beats p.psc)).map fun b => lateBeat p b.src b

/-- The traps of the beats that arrive unclaimed, or with others that a freeze discards (R246). -/
def Panel.unclaimed (p : Panel) : List Raise := (p.beats.filter fun b => !b.loses p.beats p.psc).flatMap fun b =>
  ((b.ranks p p.psc).filter fun r => !b.taken.contains r || b.extra.contains r).map fun r => lateBeat p r b

theorem exec_beatArrival_of_no_drops {s : State} {h : Nat} {p : Panel} (hp : s.dev.panel h = some p)
    (hdrops : ∀ b ∈ p.beats, s.dev.selDrops p b p.psc = false) :
    ∃ e, exec (.beatArrival h) s = .next (s.onDev fun _ => e)
      ∧ e = { s.dev.onPanel h fun q => { q with beats := p.staying } with
          routers := e.routers, raised := s.dev.raised ++ p.conflicts ++ p.unclaimed } := by
  have hkept : ∀ b ∈ p.beats.filter fun b => !b.loses p.beats p.psc, s.dev.selDrops p b p.psc = false := fun b hb =>
    hdrops b (List.mem_filter.1 hb).1
  have hdropped : ((p.beats.filter fun b => !b.loses p.beats p.psc).filter fun b => s.dev.selDrops p b p.psc) = [] :=
    List.filter_eq_nil_iff.2 fun b hb => by simp [hkept b hb]
  have hlive : ((p.beats.filter fun b => !b.loses p.beats p.psc).filter fun b => !s.dev.selDrops p b p.psc)
      = p.beats.filter fun b => !b.loses p.beats p.psc := List.filter_eq_self.2 fun b hb => by simp [hkept b hb]
  change ∃ e, execBeatArrival h s = _ ∧ _
  unfold execBeatArrival State.onDev
  simp only [hp, hdropped, hlive, List.foldl_nil]
  refine ⟨_, rfl, ?_⟩
  rw [Dev.noteBeats_routersOnly]
  rfl

end Sys2Proof.Machine
end

section
/-! O43: the timed exchange. -/

namespace Sys2Proof.Machine

theorem codeBytes_beat : codeBytes 8#4 = 128 := rfl

/-- The places of a read of whole lines of a bank (R110). -/
theorem Dev.locPlace_bank (d : Dev) (n : Fin 128) (bank : Fin 16) {off : Nat} (hoff : off < 65536) (i : Nat) :
    d.locPlace n (timedPlace .tsp (bank.val * 65536 + off)) i = bankKey n d.tiles[n].sr.bfmt[bank] bank.val (off + i) := by
  have hbank : (bank.val * 65536 + off) / 65536 = bank.val := by omega
  have hmod : (bank.val * 65536 + off) % 65536 = off := by omega
  have hidx : idx 16 bank.val = bank := Fin.ext (Nat.mod_eq_of_lt bank.isLt)
  simp only [Dev.locPlace, timedPlace, hbank, hmod, hidx]

end Sys2Proof.Machine

namespace Sys2Proof
open Machine

/-- Settles O43: sends and receives by their checks and the beats that they leave, the read that fills a beat by the one timed access of
the tile, and BEAT_ARRIVAL by the beats that lose their link and those that arrive unclaimed. -/
theorem timedExchange : Obligations.TimedExchange := by
  unfold Obligations.TimedExchange
  refine ⟨fun s n p src hcur hpanel hsrc => ?send, fun s n p f bank off r hpanel hflight htpath hapath hops hact hoff hdest hflags hpzero => ?fill,
    fun s n p src b hcur hpanel harr => ?receive, fun s n src dst hcur harr hdst => ?unclaimed, fun s h p hp hdrops => ?arrival⟩
  case send =>
    obtain rfl := State.tileNo_of_cur hcur
    have hok : s.xOk src 2 := by cases src <;> exact hsrc
    refine ⟨fun dst hdst => ?_, fun col => ?_⟩
    · have hexec := exec_snd_of_ok hpanel hok hdst
      cases src <;> exact ⟨_, ⟨rfl, rfl, rfl, rfl, rfl, rfl, rfl, rfl, rfl, rfl⟩, hexec⟩
    · have hexec := exec_bcst_of_ok hpanel col hok
      refine ⟨s.beatsOf p src (p.arms s.tile.rank col) true, s.map_route_beatsOf .., fun b hb => ?_, ?_⟩
      · obtain ⟨x, -, rfl⟩ := List.mem_map.1 hb
        cases src <;> exact ⟨rfl, rfl, rfl, rfl, rfl, rfl, rfl, rfl, rfl, rfl⟩
      · cases src <;> exact hexec
  case fill =>
    intro place data hgood
    have hplace (i : Nat) : s.dev.locPlace n (timedPlace .tsp (bank.val * 65536 + off)) i = place i := s.dev.locPlace_bank n bank hoff i
    obtain ⟨t, hexec, hmem, hnil, hbeats⟩ := exec_timed_of_beat_read hpanel hops hflight htpath hapath hact hdest hflags hpzero
    refine ⟨t, hexec, hmem, hnil, ?_⟩
    have hbad : s.dev.locBad n (timedPlace .tsp (bank.val * 65536 + off)) 128 = false :=
      Dev.locBad_of_bytes (by decide) fun i hi => hplace i ▸ hgood i hi
    have hbytes : s.dev.locBytes n (timedPlace .tsp (bank.val * 65536 + off)) 128 = (List.range 128).map fun i => s.dev.byte (place i) := by
      simp only [Dev.locBytes_eq, hplace]
    rw [codeBytes_beat, hbad, hbytes, Bool.or_false] at hbeats
    exact hbeats
  case receive =>
    obtain rfl := State.tileNo_of_cur hcur
    obtain ⟨hbsrc, harrives⟩ := State.arriving_spec hpanel harr
    refine ⟨hbsrc, harrives, fun r => ?_, fun f r hawake => ?_, fun bank off halign hlen howned hport => ?_⟩
    · exact exec_rcv_of_arriving (dst := .s r) hpanel harr trivial
    · exact exec_rcv_of_arriving (dst := .v f r) hpanel harr hawake
    · exact exec_rcv_of_arriving (dst := .tsp bank off) hpanel harr ⟨halign, hlen, howned, hport⟩
  case unclaimed =>
    exact exec_rcv_of_none hcur harr (by cases dst <;> exact hdst)
  case arrival =>
    obtain ⟨e, hexec, he⟩ := exec_beatArrival_of_no_drops hp hdrops
    refine ⟨_, p.conflicts ++ p.unclaimed, hexec, ?_, ?_, ?_, ?_, fun x hx => ?_, fun b hb hlost => ?_, fun b hb hkept r hr harr htaken => ?_⟩
    · change e.mem = _
      rw [he]
      rfl
    · change e.tiles = _
      rw [he]
      rfl
    · refine ⟨{ p with beats := p.staying }, ?_, rfl, fun b => Panel.mem_staying⟩
      change e.panel h = _
      rw [he]
      exact Dev.panel_onPanel_same hp fun q => rfl
    · change e.raised = _
      rw [he, List.append_assoc]
    · obtain hx | hx := List.mem_append.1 hx
      · obtain ⟨b, -, rfl⟩ := List.mem_map.1 hx
        exact ⟨rfl, rfl, rfl⟩
      · obtain ⟨b, -, hx⟩ := List.mem_flatMap.1 hx
        obtain ⟨r, -, rfl⟩ := List.mem_map.1 hx
        exact ⟨rfl, rfl, rfl⟩
    · have hb' : b ∈ p.beats.filter fun b => b.loses p.beats p.psc := List.mem_filter.2 ⟨hb, Beat.loses_iff.2 hlost⟩
      obtain ⟨x, hx, hsrc, hissue⟩ := firstOfSend_covers hb'
      exact ⟨lateBeat p x.src x, List.mem_append_left _ (List.mem_map_of_mem hx), congrArg p.tile hsrc, hissue⟩
    · have hb' : b ∈ p.beats.filter fun b => !b.loses p.beats p.psc := List.mem_filter.2 ⟨hb, by
        rw [Bool.not_eq_true', ← Bool.not_eq_true, Beat.loses_iff]
        exact hkept⟩
      have hr' : r ∈ (b.ranks p p.psc).filter fun r => !b.taken.contains r || b.extra.contains r :=
        List.mem_filter.2 ⟨List.mem_filter.2 ⟨List.mem_range.2 hr, harr⟩, by simp [htaken]⟩
      exact ⟨lateBeat p r b, List.mem_append_right _ (List.mem_flatMap.2 ⟨b, hb', List.mem_map_of_mem hr'⟩), rfl, rfl, rfl⟩

end Sys2Proof
end

section
/-! O38: the one entry of work in flight of a tile performs its access (R224, R231). -/

namespace Sys2Proof.Machine

theorem Dev.MemOnly.tiles {d e : Dev} (h : d.MemOnly e) : e.tiles = d.tiles := by rw [h]

/-- The place of byte i of a timed access in the TSP or the vault (R107, R110). -/
theorem Dev.locPlace_timed (d : Dev) (n : Fin 128) {sp : Space} (hsp : sp = .tsp ∨ sp = .vault) (a i : Nat) :
    d.locPlace n (timedPlace sp a) i = if sp = .tsp then bankKey n d.tiles[n].sr.bfmt[idx 16 (a / 65536)] (a / 65536) (a % 65536 + i)
      else vaultKey n (a + i) := by
  obtain rfl | rfl := hsp
  · rfl
  · exact Nat.add_assoc ..

theorem setWidth_word (v : W64) : (v.setWidth 1024).setWidth 64 = v := BitVec.setWidth_setWidth_of_le _ (by decide)

/-- An atomic writes but where a compare fails (R232). -/
theorem amoStores_iff {op : AmoOp} {old c : W64} : amoStores op old c = true ↔ ¬ (op = .cas ∧ old ≠ c) := by
  simp only [amoStores, Bool.or_eq_true, bne_iff_ne, beq_iff_eq, not_and, not_not]
  tauto

theorem codeBytes_pos (c : BitVec 4) : 0 < codeBytes c := by
  unfold codeBytes
  split_ifs <;> decide

/-- An entry whose access is done stays where it writes a register. -/
theorem Flight.spent_of_register {f : Flight} (hnone : f.dest ≠ .none) (hbeat : ∀ r, f.dest ≠ .beat r) : f.spent = false := by
  unfold Flight.spent
  cases hdest : f.dest
  case none => exact absurd hdest hnone
  case beat r => exact absurd hdest (hbeat r)
  all_goals exact Bool.and_false _

theorem Flight.filter_of_register {f g : Flight} (hdest : g.dest = f.dest) (hnone : f.dest ≠ .none) (hbeat : ∀ r, f.dest ≠ .beat r) :
    [g].filter (fun f => !f.spent) = [g] :=
  List.filter_cons_of_pos (by rw [Flight.spent_of_register (hdest ▸ hnone) (hdest ▸ hbeat)]; rfl)

theorem Flight.spent_of_none {f : Flight} (hact : f.act = .none) (hdest : f.dest = .none) (hflags : f.flags = 0#6) (hpzero : f.pzero = false) :
    f.spent = true := by
  unfold Flight.spent
  rw [hact, hdest, hflags, hpzero]
  rfl

theorem Flight.filter_of_none {f : Flight} (hact : f.act = .none) (hdest : f.dest = .none) (hflags : f.flags = 0#6) (hpzero : f.pzero = false) :
    [f].filter (fun f => !f.spent) = [] := List.filter_cons_of_neg (by rw [Flight.spent_of_none hact hdest hflags hpzero]; decide)

section
variable {d : Dev} {n : Fin 128} {f : Flight} {psc a : Nat} {sp : Space}

theorem Dev.performRead_of_not_load {x : Act} (hact : f.act = x) (hx : ∀ perf sp a code, x ≠ .read perf sp a code) :
    d.performRead n psc f = (d, f) := by
  subst hact
  unfold Dev.performRead
  split
  case h_1 h => exact (hx _ _ _ _ h).elim
  case h_2 => rfl

theorem Dev.performWrite_of_amo {op : AmoOp} {v c : W64} {ord : AmoOrd} (hact : f.act = .amo psc sp a op v c ord) :
    d.performWrite n psc f = (d, f) := by
  unfold Dev.performWrite
  simp only [hact]

theorem Dev.performRead_of_register {code : BitVec 4} (hact : f.act = .read psc sp a code) (hbeat : ∀ r, f.dest ≠ .beat r) :
    d.performRead n psc f = (d.locEcc n (timedPlace sp a) (codeBytes code), f.loaded d n sp a code) := by
  unfold Dev.performRead
  simp only [hact, if_true]
  split
  case h_1 r p hdest hpanel => exact absurd hdest (hbeat r)
  case h_2 => rfl

theorem Dev.performWrite_of_store {size : Nat} {v : VReg} (hact : f.act = .write psc sp a size v) (hdrop : f.pdrop = false) (hsize : 0 < size)
    (hsp : sp = .tsp ∨ sp = .vault) :
    d.performWrite n psc f = (d.locWrite n (timedPlace sp a) (leBytes size v.toNat), { f with act := .none }) := by
  unfold Dev.performWrite
  simp only [hact, hdrop, if_true, Bool.false_eq_true, if_false, Nat.ne_of_gt hsize]
  obtain rfl | rfl := hsp <;> rfl

theorem Dev.performWrite_of_poisoned {size : Nat} {v : VReg} (hact : f.act = .write psc sp a size v) (hdrop : f.pdrop = true) :
    d.performWrite n psc f = (d.onTile n Tile.dropPoisoned, { f with act := .none }) := by
  unfold Dev.performWrite
  simp only [hact, hdrop, if_true]

/-- The write of an atomic takes the word in memory as the old one (R231). -/
theorem Dev.performWrite_of_rmw {p : Nat} {op : AmoOp} {v c : W64} {ord : AmoOrd} (hact : f.act = .rmw p sp a op v c ord) (hp : p + 1 = psc)
    (ha : a % 8 = 0) : d.performWrite n psc f
      = (if op = .cas ∧ d.dword (d.locKey n (timedPlace sp a)) ≠ c then d
          else d.write (d.locKey n (timedPlace sp a)) (leBytes 8 (amoNew op (d.dword (d.locKey n (timedPlace sp a))) v c).toNat),
        { f with act := .none, value := (d.dword (d.locKey n (timedPlace sp a))).setWidth 1024 }) := by
  unfold Dev.performWrite
  simp only [hact, hp, if_true, d.locWord_eq n ha, d.locWrite_word n ha]
  generalize d.dword (d.locKey n (timedPlace sp a)) = old
  by_cases h : op = .cas ∧ old ≠ c
  · rw [if_pos h, if_neg (by rw [amoStores_iff]; exact not_not.2 h)]
  · rw [if_neg h, if_pos (amoStores_iff.2 h)]

theorem Dev.readAtomic_of_done (hact : f.act = .none) : d.readAtomic n psc f = (d, f) := by
  unfold Dev.readAtomic
  simp only [hact]

theorem Dev.performWrite_of_done (hact : f.act = .none) : d.performWrite n psc f = (d, f) := by
  unfold Dev.performWrite
  simp only [hact]

theorem Dev.readAtomic_of_amo {op : AmoOp} {v c : W64} {ord : AmoOrd} (hact : f.act = .amo psc sp a op v c ord) :
    d.readAtomic n psc f
      = (if (ord.acq || ord.rel) && decide (3 ≤ ord.scope) then
          ((d.locEcc n (timedPlace sp a) 8).boltOf n).elim (d.locEcc n (timedPlace sp a) 8) (d.locEcc n (timedPlace sp a) 8).flushHost
          else d.locEcc n (timedPlace sp a) 8,
        { f with value := (d.locWord n (timedPlace sp a)).setWidth 1024, poison := f.poison || d.locBad n (timedPlace sp a) 8,
                 loc := sp.word a, act := .rmw psc sp a op v c ord }) := by
  unfold Dev.readAtomic
  simp only [hact, if_true]

end

/-- What TIMED_ACCESS_PERFORM leaves in memory and in the tile of the one entry. -/
theorem timed_of_flight {s : State} {n : Fin 128} {f : Flight} (hflight : s.dev.tiles[n].flight = [f]) (htpath : s.dev.tiles[n].tpath = [])
    (hapath : s.dev.tiles[n].apath = []) (hops : ∀ o ∈ s.dev.tiles[n].ops, o.tspRead = none ∧ o.kind ≠ .fence) {d1 d2 d3 : Dev} {f1 f2 f3 : Flight}
    (hr : s.dev.performRead n (s.dev.psc n) f = (d1, f1)) (hw : d1.performWrite n (s.dev.psc n) f1 = (d2, f2))
    (ha : d2.readAtomic n (s.dev.psc n) f2 = (d3, f3)) :
    ∃ t, exec (.timedAccessPerform n) s = .next t ∧ t.dev.mem = d3.mem
      ∧ t.dev.tiles[n].flight = ([f3].filter fun f => !f.spent) ∧ t.dev.tiles[n].r = d3.tiles[n].r
      ∧ t.dev.tiles[n].sr = d3.tiles[n].sr := by
  have htile := Dev.onTile_tiles_same d3 n fun t => t.withWork ([f3].filter fun f => !f.spent) s.dev.tiles[n].ops [] []
  have hregs := congrArg Tile.r htile
  have hsr := congrArg Tile.sr htile
  exact ⟨_, exec_timed_of_flight hops hflight htpath hapath hr hw ha, rfl, congrArg Tile.flight htile, hregs, hsr⟩

/-! The accesses of the one entry of work in flight, at the places of their bytes -/

section
variable {s : State} {n : Fin 128} {f : Flight} {a : Nat} {sp : Space} {place : Nat → Nat}
  (hplace : ∀ i, s.dev.locPlace n (timedPlace sp a) i = place i) (hflight : s.dev.tiles[n].flight = [f])
  (htpath : s.dev.tiles[n].tpath = []) (hapath : s.dev.tiles[n].apath = [])
  (hops : ∀ o ∈ s.dev.tiles[n].ops, o.tspRead = none ∧ o.kind ≠ .fence)
include hflight htpath hapath hops

theorem timed_poisoned {size : Nat} {v : VReg} (hact : f.act = .write (s.dev.psc n) sp a size v) (hdrop : f.pdrop = true)
    (hdest : f.dest = .none) (hflags : f.flags = 0#6) (hpzero : f.pzero = false) :
    ∃ t, exec (.timedAccessPerform n) s = .next t ∧ t.dev.mem = s.dev.mem ∧ t.dev.tiles[n].flight = []
      ∧ t.dev.tiles[n].sr.pdcnt = BitVec.ofNat 32 (satAdd s.dev.tiles[n].sr.pdcnt.toNat 1) := by
  obtain ⟨t, hexec, hmem, hwork, hr, hsr⟩ := timed_of_flight hflight htpath hapath hops (Dev.performRead_of_not_load hact nofun)
    (Dev.performWrite_of_poisoned hact hdrop) (Dev.readAtomic_of_done rfl)
  refine ⟨t, hexec, hmem, hwork.trans (Flight.filter_of_none rfl hdest hflags hpzero), ?_⟩
  rw [hsr]
  exact congrArg (fun t => t.sr.pdcnt) (Dev.onTile_tiles_same ..)

include hplace

theorem timed_store (hsp : sp = .tsp ∨ sp = .vault) (hwf : memWf s.dev.mem = true) {size : Nat} {v : VReg}
    (hact : f.act = .write (s.dev.psc n) sp a size v) (hdrop : f.pdrop = false) (hdest : f.dest = .none) (hflags : f.flags = 0#6)
    (hpzero : f.pzero = false) (hsize : 0 < size) (hfits : s.dev.LocFits n (timedPlace sp a) size) :
    ∃ t, exec (.timedAccessPerform n) s = .next t ∧ t.dev.tiles[n].flight = []
      ∧ (∀ i < size, memRead t.dev.mem (place i) = v.extractLsb' (8 * i) 8)
      ∧ (∀ k, (∀ i < size, k ≠ place i) → memRead t.dev.mem k = memRead s.dev.mem k) ∧ t.dev.tiles[n].r = s.dev.tiles[n].r := by
  obtain ⟨t, hexec, hmem, hwork, hr, hsr⟩ := timed_of_flight hflight htpath hapath hops (Dev.performRead_of_not_load hact nofun)
    (Dev.performWrite_of_store hact hdrop hsize hsp) (Dev.readAtomic_of_done rfl)
  have hlen := length_leBytes size v.toNat
  obtain ⟨hat, hframe⟩ := (Dev.locWrite_wrote hwf (bs := leBytes size v.toNat) (by rwa [hlen])).congr fun i _ => hplace i
  rw [hlen] at hframe
  refine ⟨t, hexec, hwork.trans (Flight.filter_of_none rfl hdest hflags hpzero), fun i hi => ?_, fun k hk => ?_, hr.trans ?_⟩
  · have hi' : i < (leBytes size v.toNat).length := by rwa [hlen]
    exact (congrArg (memRead · _) hmem).trans ((hat i hi').trans (getElem_leBytes_toNat v hi'))
  · exact (congrArg (memRead · k) hmem).trans (hframe k hk)
  · exact congrArg (fun l => Tile.r l[n]) (s.dev.locWrite_memOnly n (timedPlace sp a) (leBytes size v.toNat)).tiles

theorem timed_load {code : BitVec 4} (hact : f.act = .read (s.dev.psc n) sp a code) (hbeat : ∀ r, f.dest ≠ .beat r) (hnone : f.dest ≠ .none) :
    ∃ t, exec (.timedAccessPerform n) s = .next t ∧ t.dev.mem = s.dev.mem ∧ t.dev.tiles[n].r = s.dev.tiles[n].r
      ∧ ∃ g, t.dev.tiles[n].flight = [g] ∧ g.value = extend code ((List.range (codeBytes code)).map fun i => s.dev.byte (place i))
        ∧ g.dest = f.dest ∧ g.due = f.due ∧ (f.poison = true → g.poison = true)
        ∧ ((∀ i < codeBytes code, s.dev.bad (place i) 1 = false) → g.poison = f.poison) := by
  obtain ⟨t, hexec, hmem, hwork, hr, hsr⟩ := timed_of_flight hflight htpath hapath hops (Dev.performRead_of_register hact hbeat)
    (Dev.performWrite_of_done rfl) (Dev.readAtomic_of_done rfl)
  have hcount := s.dev.locEcc_counted n (timedPlace sp a) (codeBytes code)
  refine ⟨t, hexec, hmem.trans hcount.mem, hr.trans (congrArg (fun l => Tile.r l[n]) hcount.tiles), f.loaded s.dev n sp a code,
    hwork.trans (Flight.filter_of_register rfl hnone hbeat), ?_, rfl, rfl, fun hp => ?_, fun hgood => ?_⟩
  · rw [Flight.loaded, Dev.locBytes_eq]
    exact congrArg (extend code) (List.map_congr_left fun i _ => congrArg s.dev.byte (hplace i))
  · rw [Flight.loaded, hp]
    rfl
  · have hbad : s.dev.locBad n (timedPlace sp a) (codeBytes code) = false :=
      Dev.locBad_of_bytes (codeBytes_pos code) fun i hi => hplace i ▸ hgood i hi
    rw [Flight.loaded, hbad]
    exact Bool.or_false _

/-- The first cycle of an atomic takes the word (R231). -/
theorem timed_amo {op : AmoOp} {v x : W64} {ord : AmoOrd} (hact : f.act = .amo (s.dev.psc n) sp a op v x ord) (halign : a % 8 = 0)
    (hnone : f.dest ≠ .none) (hbeat : ∀ r, f.dest ≠ .beat r) :
    ∃ t g, exec (.timedAccessPerform n) s = .next t ∧ t.dev.tiles[n].flight = [g] ∧ g.value.setWidth 64 = s.dev.dword (place 0)
      ∧ ((ord.acq = false ∧ ord.rel = false ∨ ord.scope < 3) →
        t.dev.mem = s.dev.mem ∧ g.act = .rmw (s.dev.psc n) sp a op v x ord) := by
  obtain ⟨t, hexec, hmem, hwork, hr, hsr⟩ := timed_of_flight hflight htpath hapath hops (Dev.performRead_of_not_load hact nofun)
    (Dev.performWrite_of_amo hact) (Dev.readAtomic_of_amo hact)
  have hkey := (s.dev.locPlace_zero n (timedPlace sp a)).symm.trans (hplace 0)
  refine ⟨t, _, hexec, hwork.trans (Flight.filter_of_register rfl hnone hbeat), ?_, fun hord => ⟨?_, rfl⟩⟩
  · exact (setWidth_word _).trans ((s.dev.locWord_eq n halign).trans (congrArg s.dev.dword hkey))
  · have hno : ((ord.acq || ord.rel) && decide (3 ≤ ord.scope)) = false := by
      obtain ⟨hacq, hrel⟩ | hscope := hord
      · rw [hacq, hrel]
        rfl
      · rw [decide_eq_false (not_le.2 hscope), Bool.and_false]
    rw [hmem, hno, if_neg Bool.false_ne_true]
    exact (s.dev.locEcc_counted n (timedPlace sp a) 8).mem

/-- Its second cycle writes the new word (R231). -/
theorem timed_rmw {p : Nat} {op : AmoOp} {v x : W64} {ord : AmoOrd} (hp : p + 1 = s.dev.psc n) (hact : f.act = .rmw p sp a op v x ord)
    (halign : a % 8 = 0) (hnone : f.dest ≠ .none) (hbeat : ∀ r, f.dest ≠ .beat r) :
    ∃ t g, exec (.timedAccessPerform n) s = .next t ∧ t.dev.tiles[n].flight = [g] ∧ g.act = .none
      ∧ g.value.setWidth 64 = s.dev.dword (place 0)
      ∧ t.dev.mem = if op = .cas ∧ s.dev.dword (place 0) ≠ x then s.dev.mem
          else memWriteList s.dev.mem (place 0) (leBytes 8 (amoNew op (s.dev.dword (place 0)) v x).toNat) := by
  obtain ⟨t, hexec, hmem, hwork, hr, hsr⟩ := timed_of_flight hflight htpath hapath hops (Dev.performRead_of_not_load hact nofun)
    (Dev.performWrite_of_rmw hact hp halign) (Dev.readAtomic_of_done rfl)
  rw [(s.dev.locPlace_zero n (timedPlace sp a)).symm.trans (hplace 0)] at hmem hwork
  exact ⟨t, _, hexec, hwork.trans (Flight.filter_of_register rfl hnone hbeat), rfl, setWidth_word _, hmem.trans (apply_ite Dev.mem ..)⟩

end

/-- The bytes of a store of the statement keep to their place, as a write there asks. -/
theorem Dev.locFits_timed (d : Dev) (n : Fin 128) {sp : Space} (hsp : sp = .tsp ∨ sp = .vault) {a size : Nat}
    (hfits : sp = .vault ∨ a % 16 + size ≤ 16
      ∨ (bfmtBad d.tiles[n].sr.bfmt[idx 16 (a / 65536)] = false ∧ a % 65536 + size ≤ 65536)) : d.LocFits n (timedPlace sp a) size := by
  obtain rfl | rfl := hsp
  · obtain h | h | ⟨hlegal, -⟩ := hfits
    · exact absurd h (by decide)
    · exact .inl (by omega)
    · exact .inr hlegal
  · trivial

end Sys2Proof.Machine
end

section
/-! O38: the one operation of a matrix path of a tile performs its access (R198, R202, R214). -/

namespace Sys2Proof.Machine

section
variable {d : Dev} {n : Fin 128} {o : PathOp} {psc m : Nat} {sat : Bool}

theorem Dev.pathAccess_of_now {reads : Bool} (hacc : o.accesses = true) (hreads : o.reads = reads) (hfirst : o.first ≤ psc)
    (hlast : psc < o.first + o.cnt) : Dev.pathAccess n psc reads sat d o = d.performPath n o (psc - o.first) sat :=
  if_pos (by simp [hacc, hreads, hfirst, hlast])

theorem Dev.pathAccess_of_other {reads : Bool} (hreads : o.reads = !reads) : Dev.pathAccess n psc reads sat d o = (d, o) :=
  if_neg (by cases reads <;> simp [hreads])

/-- An operation with its access m performed. -/
def PathOp.past (o : PathOp) (m : Nat) : PathOp := { o with done := m + 1 }

/-- A reading operation with the line and the scales that its access m finds. -/
def PathOp.gained (o : PathOp) (d : Dev) (n : Fin 128) (m : Nat) : PathOp :=
  { o with done := m + 1,
           lines := o.lines ++ [BitVec.ofNat 1024 (leNat (d.bankBytes n o.bfmt o.bank.val (o.access m).1 (o.access m).2))],
           scales := o.scales ++ [d.readScales n o (o.access m).1],
           poison := o.poison || d.bankBad n o.bfmt o.bank.val (o.access m).1 (o.access m).2 || d.badScales n o (o.access m).1 }

theorem Dev.performPath_of_read (hreads : o.reads = true) :
    d.performPath n o m sat = (d.bankEcc n o.bfmt o.bank.val (o.access m).1 (o.access m).2, o.gained d n m) :=
  if_pos hreads

theorem Dev.performPath_of_drop (hreads : o.reads = false) (hdrop : o.drop = true) : d.performPath n o m sat = (d, o.past m) :=
  (if_neg (ne_true_of_eq_false hreads)).trans (if_pos hdrop)

theorem Dev.performPath_of_write (hreads : o.reads = false) (hdrop : o.drop = false) : d.performPath n o m sat
    = ((d.bankWrite n o.bfmt o.bank.val (o.access m).1 (leBytes (o.access m).2 ((o.underSat sat).out m).toNat)).writeScales n o
        (o.access m).1 (o.scales.getD m 0#32), o.past m) :=
  (if_neg (ne_true_of_eq_false hreads)).trans (if_neg (ne_true_of_eq_false hdrop))

end

/-- A reading operation stays until its result is written. -/
theorem PathOp.ended_of_reads {o : PathOp} (h : o.reads = true) (psc : Nat) : o.ended psc = false := by
  have hdue : o.due.isNone = false := by
    unfold PathOp.reads at h
    unfold PathOp.due
    cases hkind : o.kind <;> simp_all
  rw [PathOp.ended, hdue, Bool.false_and]

/-- What a readout writes depends on ZCTL.SAT by its lines alone (R170). -/
theorem PathOp.out_underSat (o : PathOp) (sat : Bool) (m : Nat) : (o.underSat sat).out m
    = (if sat = true ∧ (o.kind = .zout ∨ o.kind = .zoutv) then { o with lines := o.satLines } else o).out m := by
  unfold PathOp.underSat
  simp only [Bool.and_eq_true, Bool.or_eq_true, beq_iff_eq]
  split <;> rfl

/-! Scale bytes -/

theorem scaleOff_add (c o b : Nat) : scaleOff c (o + b * blockBytes c) = scaleOff c o + b := by
  have hpos : 0 < blockBytes c := by unfold blockBytes; split <;> decide
  rw [scaleOff, Nat.add_mul_div_right _ _ hpos, scaleOff, Nat.add_assoc]

/-- The key of the scale byte of block b of an access (R74). -/
def PathOp.scaleKey (o : PathOp) (n : Fin 128) (at_ b : Nat) : Nat :=
  bankKey n o.bfmt o.bank.val (scaleOff o.tag.toNat (at_ + b * blockBytes o.tag.toNat))

theorem PathOp.scaleKey_inj {o : PathOp} (hlegal : bfmtBad o.bfmt = false) {n : Fin 128} {at_ b c : Nat}
    (h : o.scaleKey n at_ b = o.scaleKey n at_ c) : b = c := by
  have := bankKey_inj hlegal h
  rw [scaleOff_add, scaleOff_add] at this
  omega

theorem PathOp.scaleKey_ne {o : PathOp} (hlegal : bfmtBad o.bfmt = false) {n : Fin 128} {at_ b i : Nat} (hi : i < 0xF000) :
    bankKey n o.bfmt o.bank.val i ≠ o.scaleKey n at_ b := by
  intro h
  have hscale : 0xF000 ≤ scaleOff o.tag.toNat (at_ + b * blockBytes o.tag.toNat) := Nat.le_add_right ..
  have := bankKey_inj hlegal h
  omega

theorem Dev.writeScales_eq (d : Dev) (n : Fin 128) (o : PathOp) (at_ : Nat) (sc : W32) : d.writeScales n o at_ sc
    = d.writeEach (fun _ => true) (o.scaleKey n at_) (fun b => BitVec.ofNat 8 (fieldOf sc (8 * b) 8)) (List.range o.blocks) := rfl

theorem Dev.memRead_writeScales {d : Dev} (hwf : memWf d.mem = true) {n : Fin 128} {o : PathOp} (hlegal : bfmtBad o.bfmt = false) {at_ b : Nat}
    (sc : W32) (hb : b < o.blocks) : memRead (d.writeScales n o at_ sc).mem (o.scaleKey n at_ b) = sc.extractLsb' (8 * b) 8 := by
  rw [Dev.writeScales_eq, Dev.memRead_writeEach hwf (List.mem_range.2 hb) rfl fun c _ h => PathOp.scaleKey_inj hlegal h,
    extractLsb'_eq_ofNat_fieldOf]

theorem Dev.memRead_writeScales_of_ne {d : Dev} (hwf : memWf d.mem = true) {n : Fin 128} {o : PathOp} {at_ k : Nat} (sc : W32)
    (hk : ∀ b < o.blocks, k ≠ o.scaleKey n at_ b) : memRead (d.writeScales n o at_ sc).mem k = memRead d.mem k := by
  rw [Dev.writeScales_eq, Dev.memRead_writeEach_of_ne hwf fun b hb _ => hk b (List.mem_range.1 hb)]

/-- What TIMED_ACCESS_PERFORM leaves in memory and in the tile of the one path operation. -/
theorem timed_of_path {s : State} {n : Fin 128} {o : PathOp} (hflight : s.dev.tiles[n].flight = [])
    (hpath : s.dev.tiles[n].tpath ++ s.dev.tiles[n].apath = [o]) (hops : ∀ x ∈ s.dev.tiles[n].ops, x.tspRead = none ∧ x.kind ≠ .fence)
    {d1 d2 : Dev} {o1 o2 : PathOp}
    (hr : Dev.pathAccess n (s.dev.psc n) true (s.start.tiles[n].sr.zctl.getLsbD 0) s.dev o = (d1, o1))
    (hw : Dev.pathAccess n (s.dev.psc n) false (s.start.tiles[n].sr.zctl.getLsbD 0) d1 o1 = (d2, o2)) :
    ∃ t, exec (.timedAccessPerform n) s = .next t ∧ t.dev.mem = d2.mem ∧ t.dev.tiles[n].r = d2.tiles[n].r
      ∧ t.dev.tiles[n].tpath ++ t.dev.tiles[n].apath = [o2].filter fun o => !o.ended (s.dev.psc n) := by
  obtain ⟨tpath, apath, hleft, hexec⟩ := exec_timed_of_path hops rfl hflight hpath hr hw
  have htile := Dev.onTile_tiles_same d2 n fun t => t.withWork [] s.dev.tiles[n].ops tpath apath
  have hregs := congrArg Tile.r htile
  have hpaths := congrArg (fun t => t.tpath ++ t.apath) htile
  exact ⟨_, hexec, rfl, hregs, hpaths.trans hleft⟩

section
variable {s : State} {n : Fin 128} {o : PathOp} (hflight : s.dev.tiles[n].flight = [])
  (hpath : s.dev.tiles[n].tpath ++ s.dev.tiles[n].apath = [o]) (hops : ∀ x ∈ s.dev.tiles[n].ops, x.tspRead = none ∧ x.kind ≠ .fence)
  (hacc : o.accesses = true) (hfirst : o.first ≤ s.dev.psc n) (hlast : s.dev.psc n < o.first + o.cnt)
include hflight hpath hops hacc hfirst hlast

theorem timed_of_path_read (hreads : o.reads = true) :
    ∃ t, exec (.timedAccessPerform n) s = .next t ∧ t.dev.mem = s.dev.mem ∧ t.dev.tiles[n].r = s.dev.tiles[n].r
      ∧ t.dev.tiles[n].tpath ++ t.dev.tiles[n].apath = [o.gained s.dev n (s.dev.psc n - o.first)] := by
  obtain ⟨t, hexec, hmem, hr, hleft⟩ := timed_of_path hflight hpath hops
    ((Dev.pathAccess_of_now hacc hreads hfirst hlast).trans (Dev.performPath_of_read hreads)) (Dev.pathAccess_of_other hreads)
  have hcount := s.dev.bankEcc_counted n o.bfmt o.bank.val (o.access (s.dev.psc n - o.first)).1 (o.access (s.dev.psc n - o.first)).2
  have hended : (o.gained s.dev n (s.dev.psc n - o.first)).ended (s.dev.psc n) = false := PathOp.ended_of_reads hreads _
  refine ⟨t, hexec, hmem.trans hcount.mem, hr.trans (congrArg (fun l => Tile.r l[n]) hcount.tiles), hleft.trans ?_⟩
  exact List.filter_cons_of_pos (by rw [hended]; rfl)

theorem timed_of_path_drop (hreads : o.reads = false) (hdrop : o.drop = true) :
    ∃ t, exec (.timedAccessPerform n) s = .next t ∧ t.dev.mem = s.dev.mem ∧ t.dev.tiles[n].r = s.dev.tiles[n].r := by
  obtain ⟨t, hexec, hmem, hr, -⟩ := timed_of_path hflight hpath hops (Dev.pathAccess_of_other hreads)
    ((Dev.pathAccess_of_now hacc hreads hfirst hlast).trans (Dev.performPath_of_drop hreads hdrop))
  exact ⟨t, hexec, hmem, hr⟩

theorem timed_of_path_write (hreads : o.reads = false) (hdrop : o.drop = false) (hwf : memWf s.dev.mem = true)
    (hlegal : bfmtBad o.bfmt = false) {m : Nat} (hm : m = s.dev.psc n - o.first)
    (hfits : o.blocks = 0 ∨ (o.access m).1 + (o.access m).2 ≤ 0xf000) {sat : Bool} (hsat : sat = s.start.tiles[n].sr.zctl.getLsbD 0) :
    ∃ t, exec (.timedAccessPerform n) s = .next t ∧ t.dev.tiles[n].r = s.dev.tiles[n].r
      ∧ (∀ i < (o.access m).2, memRead t.dev.mem (bankKey n o.bfmt o.bank.val ((o.access m).1 + i))
          = ((o.underSat sat).out m).extractLsb' (8 * i) 8)
      ∧ (∀ b < o.blocks, memRead t.dev.mem (o.scaleKey n (o.access m).1 b) = (o.scales.getD m 0#32).extractLsb' (8 * b) 8)
      ∧ ∀ k, (∀ i < (o.access m).2, k ≠ bankKey n o.bfmt o.bank.val ((o.access m).1 + i))
          → (∀ b < o.blocks, k ≠ o.scaleKey n (o.access m).1 b) → memRead t.dev.mem k = memRead s.dev.mem k := by
  subst hm hsat
  obtain ⟨t, hexec, hmem, hr, -⟩ := timed_of_path hflight hpath hops (Dev.pathAccess_of_other hreads)
    ((Dev.pathAccess_of_now hacc hreads hfirst hlast).trans (Dev.performPath_of_write hreads hdrop))
  generalize s.start.tiles[n].sr.zctl.getLsbD 0 = sat at hmem hr ⊢
  generalize s.dev.psc n - o.first = m at hmem hr hfits ⊢
  generalize hbs : leBytes (o.access m).2 ((o.underSat sat).out m).toNat = bs at hmem hr
  have hlen : bs.length = (o.access m).2 := by rw [← hbs, length_leBytes]
  obtain ⟨hat, hframe⟩ := Dev.bankWrite_wrote hwf (n := n) (f := o.bfmt) (bank := o.bank.val) (o := (o.access m).1) (bs := bs) (.inr hlegal)
  rw [hlen] at hframe
  have hwf' : memWf (s.dev.bankWrite n o.bfmt o.bank.val (o.access m).1 bs).mem = true := Canonical.bankWrite hwf
  refine ⟨t, hexec, ?_, fun i hi => ?_, fun b hb => ?_, fun k hk hscale => ?_⟩
  · rw [hr, Dev.writeScales_eq, (Dev.writeEach_memOnly _ _).tiles, (Dev.bankWrite_memOnly ..).tiles]
  · have hdisjoint : ∀ b < o.blocks, bankKey n o.bfmt o.bank.val ((o.access m).1 + i) ≠ o.scaleKey n (o.access m).1 b := fun b hb =>
      PathOp.scaleKey_ne hlegal (by omega)
    have hi' : i < bs.length := by omega
    rw [hmem, Dev.memRead_writeScales_of_ne hwf' _ hdisjoint, hat i hi']
    subst hbs
    exact getElem_leBytes_toNat _ _
  · rw [hmem, Dev.memRead_writeScales hwf' hlegal _ hb]
  · rw [hmem, Dev.memRead_writeScales_of_ne hwf' _ hscale, hframe k hk]

end

end Sys2Proof.Machine

namespace Sys2Proof
open Machine

/-- Settles O38: each access by what it leaves in memory and in its entry, at the places that the swizzle gives the bytes. -/
theorem timedAccessesPerform : Obligations.TimedAccessesPerform := by
  unfold Obligations.TimedAccessesPerform
  refine ⟨fun s n f a sp hflight htpath hapath hops hsp hwf => ?flight, fun s n o hflight hpath hops hwf hlegal hacc hfirst hlast => ?path⟩
  case flight =>
    have hplace := s.dev.locPlace_timed n hsp a
    exact ⟨fun size v hact hdrop hdest hflags hpzero hsize hfits =>
        timed_store hplace hflight htpath hapath hops hsp hwf hact hdrop hdest hflags hpzero hsize (s.dev.locFits_timed n hsp hfits),
      fun size v => timed_poisoned hflight htpath hapath hops,
      fun code => timed_load hplace hflight htpath hapath hops,
      fun op v x ord => timed_amo hplace hflight htpath hapath hops,
      fun p op v x ord => timed_rmw hplace hflight htpath hapath hops⟩
  case path =>
    refine ⟨fun hreads => ?_, fun hreads hdrop => timed_of_path_drop hflight hpath hops hacc hfirst hlast hreads hdrop, fun hreads hdrop hfits => ?_⟩
    · obtain ⟨t, hexec, hmem, hr, hleft⟩ := timed_of_path_read hflight hpath hops hacc hfirst hlast hreads
      refine ⟨t, _, hexec, hmem, hr, hleft, rfl, rfl, rfl, fun hgood hscales => ?_⟩
      have hbad : s.dev.bankBad n o.bfmt o.bank.val (o.access (s.dev.psc n - o.first)).1 (o.access (s.dev.psc n - o.first)).2 = false :=
        List.any_eq_false.2 fun i hi => ne_true_of_eq_false (hgood i (List.mem_range.1 hi))
      have hbadScales : s.dev.badScales n o (o.access (s.dev.psc n - o.first)).1 = false :=
        List.any_eq_false.2 fun b hb => ne_true_of_eq_false (hscales b (List.mem_range.1 hb))
      rw [PathOp.gained, hbad, hbadScales, Bool.or_false, Bool.or_false]
    · have hfits' : o.blocks = 0 ∨ (o.access (s.dev.psc n - o.first)).1 + (o.access (s.dev.psc n - o.first)).2 ≤ 0xf000 := by
        obtain ⟨hblocks, -⟩ | ⟨-, -, hend⟩ := hfits
        · exact .inl hblocks
        · exact .inr hend
      obtain ⟨t, hexec, hr, hat, hscale, hframe⟩ := timed_of_path_write hflight hpath hops hacc hfirst hlast hreads hdrop hwf hlegal rfl
        hfits' rfl
      exact ⟨t, hexec, hr, fun i hi => by rw [hat i hi, PathOp.out_underSat], hscale, hframe⟩

end Sys2Proof
end

section
/-! O45, O46: the one variable-latency operation of a tile is answered or leaves (R229, R284), and lateral accesses (R228, R230). -/

namespace Sys2Proof.Machine

theorem Dev.RoutersOnly.mem {d e : Dev} (h : d.RoutersOnly e) : e.mem = d.mem := by rw [h]
theorem Dev.RoutersOnly.tiles {d e : Dev} (h : d.RoutersOnly e) : e.tiles = d.tiles := by rw [h]
theorem Dev.RoutersOnly.quads {d e : Dev} (h : d.RoutersOnly e) : e.quads = d.quads := by rw [h]

/-- A tile with its issue order changed. -/
def Tile.withOps (t : Tile) (l : List MemOp) : Tile := { t with ops := l }

/-- A request that has been performed, with its answer (R36). -/
def MemOp.answered (o : MemOp) (data : VReg) (poison : Bool) : MemOp :=
  { o with stage := .performed, data := data, poison := poison, wait := .no }

theorem Dev.setOp_of_single {d : Dev} {n : Fin 128} {o : MemOp} (hops : d.tiles[n].ops = [o]) (x : MemOp) :
    d.setOp n 0 x = d.onTile n fun t => t.withOps [x] := by
  refine Dev.onTile_congr ?_
  rw [hops]
  rfl

theorem Dev.answer_of_single {d : Dev} {n : Fin 128} {o : MemOp} (hops : d.tiles[n].ops = [o]) (hkind : o.kind ≠ .fence) (data : VReg)
    (poison : Bool) : d.answer n 0 o data poison = d.onTile n fun t => t.withOps [o.answered data poison] := by
  rw [Dev.answer, Dev.setOp_of_single hops, Dev.settleFences_of_no_fence]
  · rfl
  · rw [Dev.onTile_tiles_same]
    exact fun x hx => List.mem_singleton.1 hx ▸ hkind

/-- The write of an atomic that finds the word `old` (R231). -/
def Dev.writeAtomic (d : Dev) (o : MemOp) (key : Nat) (old : W64) : Dev :=
  if amoStores o.amo old o.data2 then d.write key (leBytes 8 (amoNew o.amo old (o.data.setWidth 64) o.data2).toNat) else d

theorem Dev.writeAtomic_memOnly (d : Dev) (o : MemOp) (key : Nat) (old : W64) : d.MemOnly (d.writeAtomic o key old) := by
  unfold Dev.writeAtomic
  split
  · exact d.write_memOnly _ _
  · exact .refl d

theorem Dev.mem_writeAtomic (d : Dev) (o : MemOp) (key : Nat) (old : W64) : (d.writeAtomic o key old).mem
    = if o.amo = .cas ∧ old ≠ o.data2 then d.mem
      else memWriteList d.mem key (leBytes 8 (amoNew o.amo old (o.data.setWidth 64) o.data2).toNat) := by
  unfold Dev.writeAtomic
  by_cases h : o.amo = .cas ∧ old ≠ o.data2
  · rw [if_pos h, if_neg (by rw [amoStores_iff]; exact not_not.2 h)]
  · rw [if_neg h, if_pos (amoStores_iff.2 h)]
    rfl

section
variable {s : State} {n : Fin 128} {p : Panel} {o : MemOp} {rank off : Nat} (hpanel : s.dev.panelOf n = some p)
  (hready : s.dev.ready n 0 = some o) (hloc : locate p.size (o.addr.toNat % 2 ^ 32) o.size = some (.lateral rank off))
  (hgo : s.dev.routeDrop p s.dev.tiles[n].rank rank = none) (hback : s.dev.routeDrop p rank s.dev.tiles[n].rank = none)

/-- The device after the request's flit has been seen and the errors that the access meets are counted. -/
def Dev.lateralSeen (d : Dev) (n : Fin 128) (p : Panel) (rank key size : Nat) : Dev :=
  (d.noteFlit p d.tiles[n].rank rank).ecc (some p.bolt) key size

theorem Dev.mem_lateralSeen (d : Dev) (n : Fin 128) (p : Panel) (rank key size : Nat) : (d.lateralSeen n p rank key size).mem = d.mem :=
  (Dev.ecc_counted ..).mem.trans (d.noteFlit_routersOnly ..).mem

theorem Dev.tiles_lateralSeen (d : Dev) (n : Fin 128) (p : Panel) (rank key size : Nat) : (d.lateralSeen n p rank key size).tiles = d.tiles :=
  (Dev.ecc_counted ..).tiles.trans (d.noteFlit_routersOnly ..).tiles

include hpanel hready hloc hgo hback

theorem exec_lateral_stv (hkind : o.kind = .stv) : exec (.lateralAccessPerform n 0) s = .next (s.onDev fun d =>
    ((d.lateralSeen n p rank (vaultKey (p.tile rank) off) o.size).write (vaultKey (p.tile rank) off)
      (leBytes o.size o.data.toNat)).dropOp n 0) := by
  change execLateralAccessPerform n 0 s = _
  unfold execLateralAccessPerform State.onDev
  simp only [hready, hpanel, hkind, hloc, hgo, hback]
  rfl

theorem exec_lateral_ldv (hkind : o.kind = .ldv) : exec (.lateralAccessPerform n 0) s = .next (s.onDev fun d =>
    (d.lateralSeen n p rank (vaultKey (p.tile rank) off) o.size).answer n 0 o
      (BitVec.ofNat 1024 (leNat (d.bytes (vaultKey (p.tile rank) off) o.size))) (d.bad (vaultKey (p.tile rank) off) o.size)) := by
  change execLateralAccessPerform n 0 s = _
  unfold execLateralAccessPerform State.onDev
  simp only [hready, hpanel, hkind, hloc, hgo, hback]
  rfl

theorem exec_lateral_amo (hkind : o.kind = .amoV)
    (hlines : o.scope < 3 ∨ (o.acq = false ∧ o.rel = false) ∨ ∀ q : Fin 32, ∀ l ∈ s.dev.quads[q].slc, l.copy = none) :
    exec (.lateralAccessPerform n 0) s = .next (s.onDev fun d =>
      ((d.lateralSeen n p rank (vaultKey (p.tile rank) off) o.size).writeAtomic o (vaultKey (p.tile rank) off)
        (d.dword (vaultKey (p.tile rank) off))).answer n 0 o
          ((d.dword (vaultKey (p.tile rank) off)).setWidth 1024) (d.bad (vaultKey (p.tile rank) off) 8)) := by
  have hflush : (if (MKind.amoV == MKind.amoV && (o.rel || o.acq) && decide (3 ≤ o.scope)) = true
      then (s.dev.noteFlit p s.dev.tiles[n].rank rank).flushHost p.bolt else s.dev.noteFlit p s.dev.tiles[n].rank rank)
      = s.dev.noteFlit p s.dev.tiles[n].rank rank := by
    obtain hscope | ⟨hacq, hrel⟩ | hnone := hlines
    · rw [decide_eq_false (not_le.2 hscope), Bool.and_false, if_neg Bool.false_ne_true]
    · rw [hacq, hrel]
      rfl
    · rw [Dev.flushHost_of_no_copies, ite_self]
      rwa [(s.dev.noteFlit_routersOnly ..).quads]
  change execLateralAccessPerform n 0 s = _
  unfold execLateralAccessPerform State.onDev
  simp only [hready, hpanel, hkind, hloc, hgo, hback, hflush]
  rfl

end

end Sys2Proof.Machine
end

section
/-! O45: what an addition leaves at its target (R87, R248). -/

namespace Sys2Proof.Machine

/-! Lanes -/

theorem lane_lt (w : Nat) (v : VReg) (j : Nat) : lane w v j < 2 ^ w := field_lt ..

section
variable {rty : BitVec 2} {isMax : Bool} {srcFmt dstFmt : Nat} {x y : VReg} {sx sy : W32}

theorem lane_reduceData_int {j : Nat} (hj : j < 32) : lane 32 (reduceData 0#2 isMax srcFmt dstFmt x y sx sy).data j
    = if isMax then (if intVal true 32 (lane 32 x j) < intVal true 32 (lane 32 y j) then lane 32 y j else lane 32 x j)
      else (lane 32 x j + lane 32 y j) % 2 ^ 32 := by
  have hx := lane_lt 32 x j
  have hy := lane_lt 32 y j
  refine (lane_mapLanes 32 _ j hj).trans ?_
  simp only [if_true, show ((0#2 : BitVec 2) = 2#2) = False by decide, if_false, reduceInt]
  refine Nat.mod_eq_of_lt ?_
  split_ifs
  · exact hy
  · exact hx
  · exact Nat.mod_lt _ (by decide)

/-- A float lane of an addition: the exact sum or maximum, rounded once (R87). -/
theorem lane_reduceData_fp32 {j : Nat} (hj : j < 32) : lane 32 (reduceData 1#2 isMax srcFmt dstFmt x y sx sy).data j
    = (roundTo .fp32 .rne false (if isMax then maxVal (decodeF .fp32 (lane 32 x j)) (decodeF .fp32 (lane 32 y j))
        else addVal .rne (decodeF .fp32 (lane 32 x j)) (decodeF .fp32 (lane 32 y j))).1).1 % 2 ^ 32 :=
  lane_mapLanes 32 _ j hj

theorem lane_reduceData_bf16 {j : Nat} (hj : j < 64) : lane 16 (reduceData 2#2 isMax srcFmt dstFmt x y sx sy).data j
    = (roundTo .bf16 .rne false (if isMax then maxVal (decodeF .bf16 (lane 16 x j)) (decodeF .bf16 (lane 16 y j))
        else addVal .rne (decodeF .bf16 (lane 16 x j)) (decodeF .bf16 (lane 16 y j))).1).1 % 2 ^ 16 :=
  lane_mapLanes 16 _ j hj

end

/-! Blocks -/

/-- Element j of list k, where the lists before it have w elements each. -/
theorem getElem?_flatMap_range {α : Type} {f : Nat → List α} {w n : Nat} (hf : ∀ k < n, (f k).length = w) {k j : Nat} (hk : k < n) (hj : j < w) :
    ((List.range n).flatMap f)[w * k + j]? = (f k)[j]? := by
  have hlen (m : Nat) (hm : m ≤ n) : ((List.range m).flatMap f).length = w * m := by
    rw [List.length_flatMap, List.map_congr_left fun i hi => hf i (by have := List.mem_range.1 hi; omega)]
    simp [mul_comm]
  induction n with
  | zero => exact absurd hk (Nat.not_lt_zero k)
  | succ n ih =>
    have hn := hlen n n.le_succ
    rw [List.range_succ, List.flatMap_append, List.flatMap_singleton]
    by_cases hkn : k < n
    · have hle : w * (k + 1) ≤ w * n := Nat.mul_le_mul_left w hkn
      rw [List.getElem?_append_left (by rw [hn]; rw [Nat.mul_succ] at hle; omega)]
      exact ih (fun i hi => hf i (by omega)) hkn fun m hm => hlen m (by omega)
    · obtain rfl : k = n := by omega
      rw [List.getElem?_append_right (by omega), hn, Nat.add_sub_cancel_left]

/-- One block of the combination of two registers of MXFP8 (R87). -/
def combineBlock (isMax : Bool) (srcFmt dstFmt : Nat) (x y : VReg) (sx sy k : Nat) : Block :=
  encodeBlock ((List.range 32).map fun j =>
    fp32 (toFp32 (if isMax then maxVal (blockVal (blockEl srcFmt) sx (lane 8 x (32 * k + j))) (blockVal (blockEl dstFmt) sy (lane 8 y (32 * k + j)))
      else addVal .rne (blockVal (blockEl srcFmt) sx (lane 8 x (32 * k + j))) (blockVal (blockEl dstFmt) sy (lane 8 y (32 * k + j)))).1).1)
    (blockEl dstFmt)

theorem length_combineBlock (isMax : Bool) (srcFmt dstFmt : Nat) (x y : VReg) (sx sy k : Nat) :
    (combineBlock isMax srcFmt dstFmt x y sx sy k).els.length = 32 := by
  rw [combineBlock, encodeBlock_length, List.length_map, List.length_range]

theorem encodeBlock_scale_lt (l : List Val) (e : BElem) : (encodeBlock l e).scale < 256 := by
  unfold encodeBlock
  dsimp only
  split_ifs
  · exact (by decide : 0xff < 256)
  · exact (by decide : 0 < 256)
  · change Int.toNat _ < 256
    omega

theorem fieldOf_joinLanes {l : List Nat} (hlen : l.length = 4) {k : Nat} (hk : k < l.length) :
    fieldOf (BitVec.ofNat 32 (joinLanes 8 l)) (8 * k) 8 = l[k] % 2 ^ 8 := by
  have hlt : joinLanes 8 l < 2 ^ 32 := (joinLanes_lt 8 l).trans_eq (by rw [hlen])
  rw [fieldOf, BitVec.toNat_ofNat, Nat.mod_eq_of_lt hlt, joinLanes_field 8 l k hk]

theorem foldr_bytes_eq_joinLanes {α : Type} (l : List α) {g : α → Nat} (hg : ∀ x ∈ l, g x < 256) :
    l.foldr (fun x acc => g x + 256 * acc) 0 = joinLanes 8 (l.map g) := by
  induction l with
  | nil => rfl
  | cons x l ih =>
    obtain ⟨hx, hl⟩ := List.forall_mem_cons.1 hg
    rw [List.foldr_cons, ih hl, List.map_cons, joinLanes, show g x % 2 ^ 8 = g x from Nat.mod_eq_of_lt hx]
    rfl

theorem sumList_map_mul (c : Nat) (l : List Nat) (f : Nat → Nat) : sumList (l.map fun i => c * f i) = c * sumList (l.map f) := by
  induction l with
  | nil => rfl
  | cons x l ih => exact (congrArg (c * f x + ·) ih).trans (mul_add ..).symm

theorem sumList_bytes_eq_joinLanes (n : Nat) (f : Nat → Byte) :
    sumList ((List.range n).map fun i => (f i).toNat * 256 ^ i) = joinLanes 8 ((List.range n).map fun i => (f i).toNat) := by
  induction n generalizing f with
  | zero => rfl
  | succ n ih =>
    have hrest := sumList_map_mul 256 (List.range n) fun i => (f (i + 1)).toNat * 256 ^ i
    rw [ih fun i => f (i + 1)] at hrest
    have hstep : (fun i => (f (i + 1)).toNat * 256 ^ (i + 1)) = fun i => 256 * ((f (i + 1)).toNat * 256 ^ i) := by
      funext i
      ring
    rw [List.range_succ_eq_map, List.map_cons, List.map_cons, List.map_map, List.map_map, joinLanes, Nat.mod_eq_of_lt (f 0).isLt]
    change (f 0).toNat * 256 ^ 0 + sumList ((List.range n).map fun i => (f (i + 1)).toNat * 256 ^ (i + 1)) = _
    rw [hstep, hrest, pow_zero, mul_one]
    rfl

/-- The scale bytes of four blocks, packed and taken apart again. -/
theorem fieldOf_packed_bytes (f : Nat → Byte) {k : Nat} (hk : k < 4) :
    fieldOf (BitVec.ofNat 32 (sumList ((List.range 4).map fun i => (f i).toNat * 256 ^ i))) (8 * k) 8 = (f k).toNat := by
  rw [sumList_bytes_eq_joinLanes, fieldOf_joinLanes (by simp) (by simpa using hk), List.getElem_map, List.getElem_range]
  exact Nat.mod_eq_of_lt (f k).isLt

/-! The combination of blocks -/

section
variable {isMax : Bool} {srcFmt dstFmt : Nat} {x y : VReg} {sx sy : W32}

/-- Block k of an addition of MXFP8 data. -/
def blockOf (isMax : Bool) (srcFmt dstFmt : Nat) (x y : VReg) (sx sy : W32) (k : Nat) : Block :=
  combineBlock isMax srcFmt dstFmt x y (fieldOf sx (8 * k) 8) (fieldOf sy (8 * k) 8) k

theorem reduceBlock_eq (k : Nat) : reduceBlock isMax (blockEl srcFmt) (blockEl dstFmt) (fieldOf sx (8 * k) 8) (fieldOf sy (8 * k) 8)
    ((List.range 32).map fun j => lane 8 x (32 * k + j)) ((List.range 32).map fun j => lane 8 y (32 * k + j))
    = blockOf isMax srcFmt dstFmt x y sx sy k := by
  rw [reduceBlock, List.zip_map', List.map_map]
  rfl

theorem reduceData_mx : reduceData 3#2 isMax srcFmt dstFmt x y sx sy =
    { data := ofLanes 8 ((List.range 4).flatMap fun k => (blockOf isMax srcFmt dstFmt x y sx sy k).els),
      scales := BitVec.ofNat 32 (joinLanes 8 ((List.range 4).map fun k => (blockOf isMax srcFmt dstFmt x y sx sy k).scale)),
      nan := ((List.range 4).filter fun k => (blockOf isMax srcFmt dstFmt x y sx sy k).nan).length,
      sat := ((List.range 4).map fun k => (blockOf isMax srcFmt dstFmt x y sx sy k).sat).sum } := by
  have hblocks : ((List.range 4).map fun k => reduceBlock isMax (blockEl srcFmt) (blockEl dstFmt) (fieldOf sx (8 * k) 8) (fieldOf sy (8 * k) 8)
      ((List.range 32).map fun j => lane 8 x (32 * k + j)) ((List.range 32).map fun j => lane 8 y (32 * k + j)))
      = (List.range 4).map (blockOf isMax srcFmt dstFmt x y sx sy) := List.map_congr_left fun k _ => reduceBlock_eq k
  have hscales := foldr_bytes_eq_joinLanes ((List.range 4).map (blockOf isMax srcFmt dstFmt x y sx sy)) (g := Block.scale) fun b hb => by
    obtain ⟨k, -, rfl⟩ := List.mem_map.1 hb
    exact encodeBlock_scale_lt ..
  unfold reduceData
  rw [if_pos rfl]
  simp only [hblocks, hscales, List.flatMap_map, List.map_map, List.filter_map, List.length_map]
  rfl

theorem lane_reduceData_mx {k j : Nat} (hk : k < 4) (hj : j < 32) (h : j < (blockOf isMax srcFmt dstFmt x y sx sy k).els.length) :
    lane 8 (reduceData 3#2 isMax srcFmt dstFmt x y sx sy).data (32 * k + j) = (blockOf isMax srcFmt dstFmt x y sx sy k).els[j] % 2 ^ 8 := by
  have hels (i : Nat) (_ : i < 4) : (blockOf isMax srcFmt dstFmt x y sx sy i).els.length = 32 := length_combineBlock ..
  have hlen : ((List.range 4).flatMap fun k => (blockOf isMax srcFmt dstFmt x y sx sy k).els).length = 128 := by
    rw [List.length_flatMap, List.map_congr_left fun i hi => hels i (List.mem_range.1 hi)]
    rfl
  have hget := getElem?_flatMap_range hels hk hj
  rw [List.getElem?_eq_getElem h, List.getElem?_eq_getElem (by omega), Option.some.injEq] at hget
  rw [reduceData_mx, lane_ofLanes 8 _ (by omega) _ (by omega), hget]

theorem scale_reduceData_mx {k : Nat} (hk : k < 4) : fieldOf (reduceData 3#2 isMax srcFmt dstFmt x y sx sy).scales (8 * k) 8
    = (blockOf isMax srcFmt dstFmt x y sx sy k).scale := by
  rw [reduceData_mx, fieldOf_joinLanes (by simp) (by simpa using hk), List.getElem_map, List.getElem_range]
  exact Nat.mod_eq_of_lt (encodeBlock_scale_lt ..)

end

end Sys2Proof.Machine
end

section
/-! O45: the addition of an `sndr` at its target, and the increment of a semaphore there (R248, R249, R250). -/

namespace Sys2Proof.Machine

/-- What a change of one tile leaves in each tile, it leaves in the device. -/
theorem Dev.onTile_tiles_of_kept {α : Type} {g : Tile → α} {f : Tile → Tile} (hf : ∀ t, g (f t) = g t) (d : Dev) (n m : Fin 128) :
    g (d.onTile n f).tiles[m] = g d.tiles[m] := by
  by_cases h : m = n
  · subst h
    rw [Dev.onTile_tiles_same, hf]
  · rw [Dev.onTile_tiles_ne h]

theorem Tile.addSem_sem_same (t : Tile) (sem : Fin 16) (k : Nat) :
    (t.addSem sem k).sr.sem[sem] = BitVec.ofNat 32 (min (t.sr.sem[sem].toNat + k) 0xffffffff) := Vector.getElem_set_self ..

/-- A write to a bank leaves in memory what depends on memory alone. -/
theorem Dev.mem_bankWrite_congr {d e : Dev} (h : d.mem = e.mem) (n : Fin 128) (f : W32) (bank o : Nat) (bs : List Byte) :
    (d.bankWrite n f bank o bs).mem = (e.bankWrite n f bank o bs).mem := by
  unfold Dev.bankWrite
  generalize bs.length / 16 + 2 = fuel
  induction fuel generalizing o bs d e with
  | zero => exact h
  | succ fuel ih =>
    unfold writeBank
    split
    · exact h
    · exact ih (congrArg (memWriteList · _ _) h) ..

theorem Dev.mem_foldl_write_congr {d e : Dev} (h : d.mem = e.mem) (key : Nat → Nat) (v : Nat → List Byte) (l : List Nat) :
    (l.foldl (fun (d : Dev) i => d.write (key i) (v i)) d).mem = (l.foldl (fun (d : Dev) i => d.write (key i) (v i)) e).mem := by
  induction l generalizing d e with
  | nil => exact h
  | cons i l ih => exact ih (congrArg (memWriteList · _ _) h)

theorem Dev.byte_congr {d e : Dev} (hmem : e.mem = d.mem) (hbad : e.badWords = d.badWords) (k : Nat) : e.byte k = d.byte k := by
  rw [Dev.byte, hmem, hbad, Dev.byte]

/-! The addition -/

section
variable (d : Dev) (m : Fin 128) (o : MemOp)

/-- The bank of the target of an addition (R248). -/
def MemOp.sumBank (o : MemOp) : Nat := o.addr.toNat % 2 ^ 20 / 65536

/-- The offset in that bank. -/
def MemOp.sumOff (o : MemOp) : Nat := o.addr.toNat % 2 ^ 20 % 65536

/-- The format of that bank. -/
def Dev.sumBfmt : W32 := d.tiles[m].sr.bfmt[idx 16 o.sumBank]

/-- An addition of MXFP8 data to a bank of another format (R248). -/
def Dev.sumWrong : Bool := o.rty == 3#2 && bfmtFmt (d.sumBfmt m o) != 0xd && bfmtFmt (d.sumBfmt m o) != 0xe

/-- The target's 128 bytes. -/
def Dev.sumOld : VReg := BitVec.ofNat 1024 (leNat (d.bankBytes m (d.sumBfmt m o) o.sumBank o.sumOff 128))

/-- The key of the scale byte of block k of the target. -/
def Dev.sumScaleKey (k : Nat) : Nat := bankKey m (d.sumBfmt m o) o.sumBank (scaleOff (bfmtFmt (d.sumBfmt m o)) (o.sumOff + 32 * k))

/-- What the addition leaves (R87). -/
def Dev.sumResult : Reduced :=
  reduceData o.rty o.isMax o.srcFmt.toNat (bfmtFmt (d.sumBfmt m o)) o.data (d.sumOld m o) o.scales
    (BitVec.ofNat 32 (sumList ((List.range 4).map fun i => (d.byte (d.sumScaleKey m o i)).toNat * 256 ^ i)))

/-- The device with the result written: the data, and the scale bytes of MXFP8 data. -/
def Dev.sumWritten : Dev :=
  let d1 := (d.bankEcc m (d.sumBfmt m o) o.sumBank o.sumOff 128).bankWrite m (d.sumBfmt m o) o.sumBank o.sumOff
    (leBytes 128 (d.sumResult m o).data.toNat)
  if o.rty = 3#2 then (List.range 4).foldl (fun (e : Dev) k =>
    e.write (d.sumScaleKey m o k) [BitVec.ofNat 8 (fieldOf (d.sumResult m o).scales (8 * k) 8)]) d1 else d1

/-- The records of an addition that is skipped (R41, R105, R248). -/
def Tile.skipSum (poison owned wrong : Bool) (t : Tile) : Tile :=
  let t1 := if poison then t.dropPoisoned else t
  let t2 := if owned then t1.setTstat 5 else t1
  if wrong then t2.countReduce 4 0 else t2

theorem MemOp.sumOff_eq : o.sumOff = o.addr.toNat % 65536 := Nat.mod_mod_of_dvd _ (by decide)

variable {d m o}

theorem Dev.addAt_of_skip (h : (o.poison || d.tiles[m].owned o.sumBank || d.sumWrong m o) = true) :
    d.addAt m o = d.onTile m (Tile.skipSum o.poison (d.tiles[m].owned o.sumBank) (d.sumWrong m o)) :=
  (if_pos h).trans (Dev.onTile_congr rfl)

theorem Dev.addAt_of_add (h : (o.poison || d.tiles[m].owned o.sumBank || d.sumWrong m o) = false) :
    d.addAt m o = (d.sumWritten m o).onTile m fun t => t.countReduce (d.sumResult m o).nan (d.sumResult m o).sat :=
  if_neg (ne_true_of_eq_false h)

theorem Dev.tiles_sumWritten (d : Dev) (m : Fin 128) (o : MemOp) : (d.sumWritten m o).tiles = d.tiles := by
  have hbase := (Dev.bankWrite_memOnly (d.bankEcc m (d.sumBfmt m o) o.sumBank o.sumOff 128) m (d.sumBfmt m o) o.sumBank o.sumOff
    (leBytes 128 (d.sumResult m o).data.toNat)).tiles.trans (Dev.bankEcc_counted ..).tiles
  unfold Dev.sumWritten
  split
  · exact ((Dev.foldl_memOnly (fun d k => d.write_memOnly _ _) _ _).tiles).trans hbase
  · exact hbase

/-- The records of an addition that is skipped, in the tile's registers. -/
theorem Tile.skipSum_sr (t : Tile) (poison owned wrong : Bool) :
    (poison = true → (t.skipSum poison owned wrong).sr.pdcnt = BitVec.ofNat 32 (satAdd t.sr.pdcnt.toNat 1))
    ∧ (owned = true → (t.skipSum poison owned wrong).sr.tstat.getLsbD 5 = true)
    ∧ (wrong = true → (t.skipSum poison owned wrong).sr.xrncnt = BitVec.ofNat 32 (satAdd t.sr.xrncnt.toNat 4)) := by
  unfold Tile.skipSum
  refine ⟨?_, ?_, ?_⟩
  · rintro rfl
    cases owned <;> cases wrong <;> rfl
  · rintro rfl
    have hbit (u : Tile) : (u.setTstat 5).sr.tstat.getLsbD 5 = true := getLsbD_setBit_same (by decide) _ _
    cases wrong <;> exact hbit _
  · rintro rfl
    cases owned <;> cases poison <;> rfl

theorem Tile.skipSum_kept (t : Tile) (poison owned wrong : Bool) :
    (t.skipSum poison owned wrong).ops = t.ops ∧ (t.skipSum poison owned wrong).sr.sem = t.sr.sem := by
  unfold Tile.skipSum
  cases poison <;> cases owned <;> cases wrong <;> exact ⟨rfl, rfl⟩

/-- An addition changes its target tile's state registers alone, its semaphores apart. -/
theorem Dev.addAt_tiles (d : Dev) (m : Fin 128) (o : MemOp) : ∃ f : Tile → Tile, (d.addAt m o).tiles = (d.onTile m f).tiles
    ∧ (∀ t, (f t).ops = t.ops) ∧ ∀ t, (f t).sr.sem = t.sr.sem := by
  cases h : (o.poison || d.tiles[m].owned o.sumBank || d.sumWrong m o) with
  | true => exact ⟨_, by rw [Dev.addAt_of_skip h], fun t => (t.skipSum_kept ..).1, fun t => (t.skipSum_kept ..).2⟩
  | false =>
    refine ⟨fun t => t.countReduce (d.sumResult m o).nan (d.sumResult m o).sat, ?_, fun t => rfl, fun t => rfl⟩
    rw [Dev.addAt_of_add h, Dev.onTile, Dev.onTile, Dev.tiles_sumWritten]

/-- What an addition leaves in memory (R248). -/
theorem Dev.mem_addAt (d : Dev) (m : Fin 128) (o : MemOp) :
    (d.addAt m o).mem = if o.poison || d.tiles[m].owned o.sumBank || d.sumWrong m o then d.mem else
      if o.rty = 3#2 then ((List.range 4).foldl (fun (e : Dev) k =>
          e.write (d.sumScaleKey m o k) [BitVec.ofNat 8 (fieldOf (d.sumResult m o).scales (8 * k) 8)])
        (d.bankWrite m (d.sumBfmt m o) o.sumBank o.sumOff (leBytes 128 (d.sumResult m o).data.toNat))).mem
      else (d.bankWrite m (d.sumBfmt m o) o.sumBank o.sumOff (leBytes 128 (d.sumResult m o).data.toNat)).mem := by
  have hbase := Dev.mem_bankWrite_congr (Dev.bankEcc_counted d m (d.sumBfmt m o) o.sumBank o.sumOff 128).mem m (d.sumBfmt m o) o.sumBank
    o.sumOff (leBytes 128 (d.sumResult m o).data.toNat)
  cases h : (o.poison || d.tiles[m].owned o.sumBank || d.sumWrong m o) with
  | true =>
    rw [Dev.addAt_of_skip h]
    rfl
  | false =>
    rw [Dev.addAt_of_add h, Dev.onTile_mem, Dev.sumWritten, if_neg Bool.false_ne_true]
    split
    · exact Dev.mem_foldl_write_congr hbase _ _ _
    · exact hbase

/-- The registers of the target after an addition, skipped or made. -/
theorem Dev.addAt_target (d : Dev) (m : Fin 128) (o : MemOp) :
    (d.addAt m o).tiles[m] = if o.poison || d.tiles[m].owned o.sumBank || d.sumWrong m o
      then d.tiles[m].skipSum o.poison (d.tiles[m].owned o.sumBank) (d.sumWrong m o)
      else d.tiles[m].countReduce (d.sumResult m o).nan (d.sumResult m o).sat := by
  cases h : (o.poison || d.tiles[m].owned o.sumBank || d.sumWrong m o) with
  | true => rw [Dev.addAt_of_skip h, Dev.onTile_tiles_same, if_pos rfl]
  | false => rw [Dev.addAt_of_add h, Dev.onTile_tiles_same, Dev.tiles_sumWritten, if_neg Bool.false_ne_true]

end

/-- What routers know does not bear on an addition. -/
theorem Dev.RoutersOnly.addAt {d e : Dev} (h : d.RoutersOnly e) (m : Fin 128) (o : MemOp) :
    (e.addAt m o).mem = (d.addAt m o).mem ∧ (e.addAt m o).tiles[m] = (d.addAt m o).tiles[m] := by
  obtain ⟨R, rfl⟩ : ∃ R, e = { d with routers := R } := ⟨_, h⟩
  have hwrite := Dev.mem_bankWrite_congr (d := { d with routers := R }) (e := d) rfl m (d.sumBfmt m o) o.sumBank o.sumOff
    (leBytes 128 (d.sumResult m o).data.toNat)
  refine ⟨?_, ?_⟩
  · rw [Dev.mem_addAt, Dev.mem_addAt]
    refine if_congr Iff.rfl rfl (if_congr Iff.rfl ?_ hwrite)
    exact Dev.mem_foldl_write_congr hwrite _ _ _
  · rw [Dev.addAt_target, Dev.addAt_target]
    rfl

/-! The events -/

section
variable {s : State} {n : Fin 128} {p : Panel} {o : MemOp} (hops : s.dev.tiles[n].ops = [o]) (hpanel : s.dev.panelOf n = some p)
  (hready : s.dev.ready n 0 = some o) (hdrop : s.dev.routeDrop p s.dev.tiles[n].rank o.dst = none)
include hops hpanel hready hdrop

theorem exec_semvIncrement_of_ready (hkind : o.kind = .semv) : ∃ t, exec (.semvIncrement n 0) s = .next t ∧ t.dev.mem = s.dev.mem
    ∧ t.dev.tiles[n].ops = [] ∧ t.dev.tiles[p.tile o.dst].sr = (s.dev.tiles[p.tile o.dst].addSem o.sem o.n).sr := by
  have htiles := (s.dev.noteFlit_routersOnly p s.dev.tiles[n].rank o.dst).tiles
  have hops' : ((s.dev.noteFlit p s.dev.tiles[n].rank o.dst).onTile (p.tile o.dst) fun t => t.addSem o.sem o.n).tiles[n].ops = [o] := by
    rw [Dev.onTile_tiles_of_kept (g := Tile.ops) (f := fun t => t.addSem o.sem o.n) fun _ => rfl, htiles, hops]
  have hexec : exec (.semvIncrement n 0) s = .next (s.onDev fun d =>
      ((d.noteFlit p d.tiles[n].rank o.dst).onTile (p.tile o.dst) fun t => t.addSem o.sem o.n).dropOp n 0) := by
    change execSemvIncrement n 0 s = _
    unfold execSemvIncrement State.onDev
    simp only [hready, hpanel, hkind, hdrop]
    rfl
  have hleft := Dev.dropOp_of_single hops'
  have hmem := congrArg Dev.mem hleft
  have hmine := congrArg (fun d : Dev => d.tiles[n].ops) hleft
  have htarget := congrArg (fun d : Dev => d.tiles[p.tile o.dst].sr) hleft
  refine ⟨_, hexec, hmem.trans (s.dev.noteFlit_routersOnly ..).mem, hmine.trans (congrArg Tile.ops (Dev.onTile_tiles_same ..)), htarget.trans ?_⟩
  rw [Dev.onTile_tiles_of_kept (g := Tile.sr) (f := Tile.noOps) fun _ => rfl, Dev.onTile_tiles_same, htiles]

theorem exec_sndrAddition_of_ready (hkind : o.kind = .sndr) : ∃ t, exec (.sndrAddition n 0) s = .next t
    ∧ t.dev.mem = (s.dev.addAt (p.tile o.dst) o).mem ∧ t.dev.tiles[n].ops = []
    ∧ t.dev.tiles[p.tile o.dst].sr = ((s.dev.addAt (p.tile o.dst) o).tiles[p.tile o.dst].addSem o.sem 1).sr := by
  have hrouters := s.dev.noteFlit_routersOnly p s.dev.tiles[n].rank o.dst
  obtain ⟨hmem, htarget⟩ := hrouters.addAt (p.tile o.dst) o
  obtain ⟨f, htiles, hfops, -⟩ := (s.dev.noteFlit p s.dev.tiles[n].rank o.dst).addAt_tiles (p.tile o.dst) o
  have hops' : (((s.dev.noteFlit p s.dev.tiles[n].rank o.dst).addAt (p.tile o.dst) o).onTile (p.tile o.dst) fun t =>
      t.addSem o.sem 1).tiles[n].ops = [o] := by
    rw [Dev.onTile_tiles_of_kept (g := Tile.ops) (f := fun t => t.addSem o.sem 1) fun _ => rfl, htiles,
      Dev.onTile_tiles_of_kept (g := Tile.ops) hfops, hrouters.tiles, hops]
  have hexec : exec (.sndrAddition n 0) s = .next (s.onDev fun d =>
      (((d.noteFlit p d.tiles[n].rank o.dst).addAt (p.tile o.dst) o).onTile (p.tile o.dst) fun t => t.addSem o.sem 1).dropOp n 0) := by
    change execSndrAddition n 0 s = _
    unfold execSndrAddition State.onDev
    simp only [hready, hpanel, hkind, hdrop]
    rfl
  have hleft := Dev.dropOp_of_single hops'
  have hmem' := congrArg Dev.mem hleft
  have hmine := congrArg (fun d : Dev => d.tiles[n].ops) hleft
  have htarget' := congrArg (fun d : Dev => d.tiles[p.tile o.dst].sr) hleft
  refine ⟨_, hexec, hmem'.trans hmem, hmine.trans (congrArg Tile.ops (Dev.onTile_tiles_same ..)), htarget'.trans ?_⟩
  rw [Dev.onTile_tiles_of_kept (g := Tile.sr) (f := Tile.noOps) fun _ => rfl, Dev.onTile_tiles_same, htarget]

end

end Sys2Proof.Machine
end

section
/-! O45: SNDR_ADDITION in the words of the claim (R87, R248). -/

namespace Sys2Proof.Machine

theorem Dev.sumWrong_iff {d : Dev} {m : Fin 128} {o : MemOp} : d.sumWrong m o = true
    ↔ o.rty = 3#2 ∧ bfmtFmt (d.sumBfmt m o) ≠ 0xd ∧ bfmtFmt (d.sumBfmt m o) ≠ 0xe := by
  simp only [Dev.sumWrong, Bool.and_eq_true, beq_iff_eq, bne_iff_ne, and_assoc]

/-- An addition leaves the semaphores of its target. -/
theorem Dev.addAt_sem (d : Dev) (m : Fin 128) (o : MemOp) : (d.addAt m o).tiles[m].sr.sem = d.tiles[m].sr.sem := by
  obtain ⟨f, htiles, -, hsem⟩ := d.addAt_tiles m o
  rw [htiles, Dev.onTile_tiles_same, hsem]

/-- Block k of the addition at a target (R87). -/
def Dev.sumBlock (d : Dev) (m : Fin 128) (o : MemOp) (k : Nat) : Block :=
  combineBlock o.isMax o.srcFmt.toNat (bfmtFmt (d.sumBfmt m o)) o.data (d.sumOld m o) (o.scales.toNat / 2 ^ (8 * k) % 256)
    (d.byte (d.sumScaleKey m o k)).toNat k

section
variable {d : Dev} {m : Fin 128} {o : MemOp} (hrty : o.rty = 3#2)
include hrty

theorem Dev.sumResult_mx : d.sumResult m o = reduceData 3#2 o.isMax o.srcFmt.toNat (bfmtFmt (d.sumBfmt m o)) o.data (d.sumOld m o) o.scales
    (BitVec.ofNat 32 (sumList ((List.range 4).map fun i => (d.byte (d.sumScaleKey m o i)).toNat * 256 ^ i))) := by
  rw [Dev.sumResult, hrty]

omit hrty in
theorem Dev.sumBlock_eq {k : Nat} (hk : k < 4) : d.sumBlock m o k = blockOf o.isMax o.srcFmt.toNat (bfmtFmt (d.sumBfmt m o)) o.data (d.sumOld m o)
    o.scales (BitVec.ofNat 32 (sumList ((List.range 4).map fun i => (d.byte (d.sumScaleKey m o i)).toNat * 256 ^ i))) k := by
  rw [blockOf, fieldOf_packed_bytes (fun i => d.byte (d.sumScaleKey m o i)) hk]
  rfl

theorem Dev.lane_sumResult {k j : Nat} (hk : k < 4) (hj : j < 32) (h : j < (d.sumBlock m o k).els.length) :
    lane 8 (d.sumResult m o).data (32 * k + j) = (d.sumBlock m o k).els[j] % 2 ^ 8 := by
  revert h
  rw [Dev.sumResult_mx hrty, Dev.sumBlock_eq hk]
  exact lane_reduceData_mx hk hj

theorem Dev.scale_sumResult {k : Nat} (hk : k < 4) : fieldOf (d.sumResult m o).scales (8 * k) 8 = (d.sumBlock m o k).scale := by
  rw [Dev.sumResult_mx hrty, Dev.sumBlock_eq hk, scale_reduceData_mx hk]

theorem Dev.nan_sumResult : (d.sumResult m o).nan = ((List.range 4).filter fun k => (d.sumBlock m o k).nan).length := by
  rw [Dev.sumResult_mx hrty, reduceData_mx]
  exact congrArg List.length (List.filter_congr fun k hk => by rw [Dev.sumBlock_eq (List.mem_range.1 hk)])

theorem Dev.sat_sumResult : (d.sumResult m o).sat = ((List.range 4).map fun k => (d.sumBlock m o k).sat).sum := by
  rw [Dev.sumResult_mx hrty, reduceData_mx]
  exact congrArg List.sum (List.map_congr_left fun k hk => by rw [Dev.sumBlock_eq (List.mem_range.1 hk)])

end

/-- Lanes of an addition that is not of MXFP8 data, by its type (R87). -/
theorem Dev.lanes_sumResult (d : Dev) (m : Fin 128) (o : MemOp) :
    (o.rty = 0#2 → ∀ j < 32, lane 32 (d.sumResult m o).data j = if o.isMax
        then (if intVal true 32 (lane 32 o.data j) < intVal true 32 (lane 32 (d.sumOld m o) j) then lane 32 (d.sumOld m o) j else lane 32 o.data j)
        else (lane 32 o.data j + lane 32 (d.sumOld m o) j) % 2 ^ 32)
    ∧ (o.rty = 1#2 → ∀ j < 32, lane 32 (d.sumResult m o).data j = (roundTo .fp32 .rne false (if o.isMax
        then maxVal (decodeF .fp32 (lane 32 o.data j)) (decodeF .fp32 (lane 32 (d.sumOld m o) j))
        else addVal .rne (decodeF .fp32 (lane 32 o.data j)) (decodeF .fp32 (lane 32 (d.sumOld m o) j))).1).1 % 2 ^ 32)
    ∧ (o.rty = 2#2 → ∀ j < 64, lane 16 (d.sumResult m o).data j = (roundTo .bf16 .rne false (if o.isMax
        then maxVal (decodeF .bf16 (lane 16 o.data j)) (decodeF .bf16 (lane 16 (d.sumOld m o) j))
        else addVal .rne (decodeF .bf16 (lane 16 o.data j)) (decodeF .bf16 (lane 16 (d.sumOld m o) j))).1).1 % 2 ^ 16) := by
  refine ⟨fun h j hj => ?_, fun h j hj => ?_, fun h j hj => ?_⟩
  · rw [Dev.sumResult, h, lane_reduceData_int hj]
  · rw [Dev.sumResult, h, lane_reduceData_fp32 hj]
  · rw [Dev.sumResult, h, lane_reduceData_bf16 hj]

section
variable {d : Dev} {m : Fin 128} {o : MemOp}

theorem Dev.sum_made (hpoison : o.poison = false) (howned : d.tiles[m].owned o.sumBank = false) (hwrong : d.sumWrong m o = false) :
    (o.poison || d.tiles[m].owned o.sumBank || d.sumWrong m o) = false := by
  rw [hpoison, howned, hwrong]
  rfl

theorem Dev.addAt_plain (hmade : (o.poison || d.tiles[m].owned o.sumBank || d.sumWrong m o) = false) (hrty : o.rty ≠ 3#2) :
    (d.addAt m o).mem = (d.bankWrite m (d.sumBfmt m o) o.sumBank o.sumOff (leBytes 128 (d.sumResult m o).data.toNat)).mem := by
  rw [Dev.mem_addAt, hmade, if_neg Bool.false_ne_true, if_neg hrty]

theorem Dev.addAt_mx (hmade : (o.poison || d.tiles[m].owned o.sumBank || d.sumWrong m o) = false) (hrty : o.rty = 3#2) :
    (d.addAt m o).mem = ((List.range 4).foldl (fun (e : Dev) k => e.write (d.sumScaleKey m o k) [BitVec.ofNat 8 (d.sumBlock m o k).scale])
        (d.bankWrite m (d.sumBfmt m o) o.sumBank o.sumOff (leBytes 128 (d.sumResult m o).data.toNat))).mem
    ∧ (d.addAt m o).tiles[m].sr.xrncnt
        = BitVec.ofNat 32 (satAdd d.tiles[m].sr.xrncnt.toNat ((List.range 4).filter fun k => (d.sumBlock m o k).nan).length)
    ∧ (d.addAt m o).tiles[m].sr.xrscnt
        = BitVec.ofNat 32 (satAdd d.tiles[m].sr.xrscnt.toNat ((List.range 4).map fun k => (d.sumBlock m o k).sat).sum) := by
  refine ⟨?_, ?_, ?_⟩
  · rw [Dev.mem_addAt, hmade, if_neg Bool.false_ne_true, if_pos hrty]
    exact congrArg Dev.mem (List.foldl_ext _ _ _ fun e k hk => by rw [Dev.scale_sumResult hrty (List.mem_range.1 hk)])
  · rw [Dev.addAt_target, hmade, if_neg Bool.false_ne_true, ← Dev.nan_sumResult hrty]
    rfl
  · rw [Dev.addAt_target, hmade, if_neg Bool.false_ne_true, ← Dev.sat_sumResult hrty]
    rfl

theorem Dev.addAt_skipped (hskip : (o.poison || d.tiles[m].owned o.sumBank || d.sumWrong m o) = true) :
    (d.addAt m o).mem = d.mem
    ∧ (o.poison = true → (d.addAt m o).tiles[m].sr.pdcnt = BitVec.ofNat 32 (satAdd d.tiles[m].sr.pdcnt.toNat 1))
    ∧ (d.tiles[m].owned o.sumBank = true → (d.addAt m o).tiles[m].sr.tstat.getLsbD 5 = true)
    ∧ (d.sumWrong m o = true → (d.addAt m o).tiles[m].sr.xrncnt = BitVec.ofNat 32 (satAdd d.tiles[m].sr.xrncnt.toNat 4)) := by
  rw [Dev.mem_addAt, Dev.addAt_target, if_pos hskip, if_pos hskip]
  exact ⟨rfl, d.tiles[m].skipSum_sr ..⟩

end

end Sys2Proof.Machine
end

section
/-! O45: `xrcvf`, the acceptance of outbound operations and the delivery of far messages (R234, R252, R253). -/

namespace Sys2Proof.Machine

theorem locate_tsp {size a k : Nat} (ha : a < 2 ^ 20) (hk : a % 65536 + k ≤ 65536) : locate size a k = some (.tsp (a / 65536) (a % 65536)) := by
  unfold locate
  exact (if_pos ha).trans (if_pos hk)

theorem locate_vault {size a k : Nat} (ha : 0x1000000 ≤ a) (hk : a + k ≤ 0x1000000 + 0x180000) :
    locate size a k = some (.vault (a - 0x1000000)) := by
  unfold locate
  rw [if_neg (by omega)]
  exact if_pos ⟨ha, hk⟩

/-! XRCVF_TAKE -/

theorem exec_xrcvfTake_of_ready {s : State} {n : Fin 128} {o : MemOp} (hops : s.dev.tiles[n].ops = [o]) (hready : s.dev.ready n 0 = some o)
    (hkind : o.kind = .xrcvf) (hcount : 1 ≤ s.dev.tiles[n].sr.sem[o.sem].toNat)
    (hlines : o.scope < 3 ∨ ∀ q : Fin 32, ∀ l ∈ s.dev.quads[q].slc, l.copy = none) {l : Loc} (hloc : locate 0 o.addr.toNat o.size = some l) :
    ∃ t, exec (.xrcvfTake n 0) s = .next t ∧ t.dev.mem = s.dev.mem
      ∧ t.dev.tiles[n].sr.sem[o.sem] = s.dev.tiles[n].sr.sem[o.sem] - 1#32
      ∧ ∃ q, t.dev.tiles[n].ops = [q] ∧ q.stage = .performed ∧ q.ls = o.ls
        ∧ q.data = BitVec.ofNat 1024 (leNat (s.dev.locBytes n l o.size)) := by
  have hecc := s.dev.locEcc_counted n l o.size
  have hflush : (if 3 ≤ o.scope then (s.dev.boltOf n).elim (s.dev.locEcc n l o.size) (s.dev.locEcc n l o.size).flushHost
      else s.dev.locEcc n l o.size) = s.dev.locEcc n l o.size := by
    obtain hscope | hnone := hlines
    · rw [if_neg (not_le.2 hscope)]
    · have hkept (b : Fin 32) : (s.dev.locEcc n l o.size).flushHost b = s.dev.locEcc n l o.size :=
        Dev.flushHost_of_no_copies (by rwa [hecc.quads])
      cases s.dev.boltOf n with
      | none => exact ite_self _
      | some b => exact (congrArg (ite _ · _) (hkept b)).trans (ite_self _)
  have hexec : exec (.xrcvfTake n 0) s = .next (s.onDev fun d => ((d.locEcc n l o.size).onTile n fun t =>
      t.setSem o.sem (t.sr.sem[o.sem] - 1#32)).answer n 0 o (BitVec.ofNat 1024 (leNat (d.locBytes n l o.size))) (d.locBad n l o.size)) := by
    change execXrcvfTake n 0 s = _
    unfold execXrcvfTake State.onDev
    simp only [hready, hkind, hloc, hcount, hflush]
    rfl
  have hops' : ((s.dev.locEcc n l o.size).onTile n fun t => t.setSem o.sem (t.sr.sem[o.sem] - 1#32)).tiles[n].ops = [o] := by
    rw [Dev.onTile_tiles_same, hecc.tiles]
    exact hops
  have hleft := Dev.answer_of_single hops' (by rw [hkind]; decide) (BitVec.ofNat 1024 (leNat (s.dev.locBytes n l o.size)))
    (s.dev.locBad n l o.size)
  have hmem := congrArg Dev.mem hleft
  have htile := (congrArg (fun d : Dev => d.tiles[n]) hleft).trans (Dev.onTile_tiles_same ..)
  have hmine := congrArg Tile.ops htile
  have hsem := congrArg (fun t : Tile => t.sr.sem[o.sem]) htile
  refine ⟨_, hexec, hmem.trans hecc.mem, hsem.trans ?_, _, hmine, rfl, rfl, rfl⟩
  rw [Dev.onTile_tiles_same, hecc.tiles]
  exact Vector.getElem_set_self ..

/-! OUTBOUND_ACCEPT -/

theorem exec_outboundAccept_of_taken {s : State} {n : Fin 128} {i : Nat} {o : MemOp} (hget : s.dev.tiles[n].ops[i]? = some o)
    (hwork : s.dev.working n = true) (hentry : o.entry = true) (hstage : o.stage = .issued)
    (hkind : o.kind = .stv ∨ o.kind = .semv ∨ (o.kind = .sndr ∧ o.tspRead = none)) : exec (.outboundAccept n i) s
    = .next (s.onDev fun d => d.setOp n i { o with entry := false, stage := .accepted }) := by
  have htake : s.dev.mayTake n o = true := by
    unfold Dev.mayTake
    simp only [hwork, hentry, hstage]
    obtain h | h | ⟨h, hread⟩ := hkind
    · rw [h]
      rfl
    · rw [h]
      rfl
    · rw [h, hread]
      rfl
  have hfound : (s.dev.tiles[n].ops[i]?).filter (fun o => s.dev.mayTake n o) = some o := by rw [hget, Option.filter_some, if_pos htake]
  change execOutboundAccept n i s = _
  unfold execOutboundAccept State.onDev
  simp only [hfound]
  obtain h | h | ⟨h, -⟩ := hkind
  · simp only [h]
  · simp only [h]
  · simp only [h]

/-! XFAR_DELIVERY -/

/-- A router out of every fence (R445). -/
theorem fence_eq_zero : ∀ x : Fin 4, x = 0#4 → x = 0 := by decide

/-- A far message that its target takes (R252, R416). -/
structure Dev.TakesMessage (d : Dev) (f : SeamFlit) : Prop where
  dev : farDev f.far = d.mc.config.spdev
  fence : d.routers[farTile f.far].fence = 0
  senderFence : d.routers[idx 128 f.stile].fence = 0
  valid : d.boltValid (farBolt f.far) = true
  quad : d.boltHasQuad (farBolt f.far) (quadOf (farTile f.far)) = true
  acl : d.aclAllows (farBolt f.far) f.sdev f.sbolt = true
  working : d.working (farTile f.far) = true

/-- Bytes of a far message. -/
def SeamFlit.bytes (f : SeamFlit) : List Byte := leBytes (if f.big then 128 else 8) f.data.toNat

theorem Dev.deliverFar_of_takes {d : Dev} {f : SeamFlit} (h : d.TakesMessage f) {l : Loc}
    (hloc : locate 0 (fieldOf f.far 0 32) (if f.big then 128 else 8) = some l)
    (hfree : (∃ off, l = .vault off) ∨ ∃ bank off, l = .tsp bank off ∧ d.tiles[farTile f.far].owned bank = false) :
    d.deliverFar f = (d.locWrite (farTile f.far) l f.bytes).onTile (farTile f.far) fun t => t.addSem f.sem 1 := by
  obtain ⟨hdev, hfence, hsender, hvalid, hquad, hacl, hwork⟩ := h
  unfold Dev.deliverFar
  simp only [hdev, hfence, hsender, hvalid, hquad, hacl, Dev.takesFar, hwork, hloc, ne_eq, not_true_eq_false, if_false, bne_self_eq_false,
    Bool.false_eq_true, and_false, Bool.and_self, Bool.not_true, Bool.or_self]
  obtain ⟨off, rfl⟩ | ⟨bank, off, rfl, howned⟩ := hfree
  · rfl
  · simp only [howned, Bool.false_eq_true, if_false]
    rfl

/-- The sender's operation, alone in its tile's issue order, ends (log entry 75). -/
theorem Dev.endFar_of_single {d : Dev} {f : SeamFlit} {o : MemOp} (hdev : f.sdev = d.mc.config.spdev)
    (hops : d.tiles[idx 128 f.stile].ops = [o]) (hof : f.isOf o = true) : d.endFar f = d.onTile (idx 128 f.stile) Tile.noOps := by
  have hfind : (d.tiles[idx 128 f.stile].ops.findIdx? f.isOf).map (fun i => (idx 128 f.stile, i)) = some (idx 128 f.stile, 0) := by
    rw [hops, List.findIdx?_cons, hof]
    rfl
  unfold Dev.endFar
  rw [if_neg (not_not.2 hdev), List.findSome?_cons, hfind]
  exact Dev.dropOp_of_single hops

end Sys2Proof.Machine
end

section
/-! O45: remote operations. -/

namespace Sys2Proof.Machine

theorem Dev.mem_locWrite_congr {d e : Dev} (hmem : d.mem = e.mem) (htiles : d.tiles = e.tiles) {n : Fin 128} {l : Loc}
    (hl : ∀ rank off, l ≠ .lateral rank off) (bs : List Byte) : (d.locWrite n l bs).mem = (e.locWrite n l bs).mem := by
  cases l with
  | tsp b o =>
    rw [Dev.locWrite, Dev.locWrite, htiles]
    exact Dev.mem_bankWrite_congr hmem ..
  | vault o => exact congrArg (memWriteList · _ _) hmem
  | lateral rank off => exact absurd rfl (hl rank off)

theorem exec_xfarDelivery_of_takes {s : State} {f : SeamFlit} {r : List SeamFlit} {o : MemOp} (hfar : s.dev.far = f :: r)
    (hdev : f.sdev = s.dev.mc.config.spdev) (hops : s.dev.tiles[idx 128 f.stile].ops = [o]) (hof : f.isOf o = true)
    (htakes : s.dev.TakesMessage f) {l : Loc} (hloc : locate 0 (fieldOf f.far 0 32) (if f.big then 128 else 8) = some l)
    (hfree : (∃ off, l = .vault off) ∨ ∃ bank off, l = .tsp bank off ∧ s.dev.tiles[farTile f.far].owned bank = false) :
    ∃ t, exec (.xfarDelivery 0) s = .next t ∧ t.dev.far = r ∧ t.dev.tiles[idx 128 f.stile].ops = []
      ∧ t.dev.tiles[farTile f.far].sr.sem[f.sem]
          = BitVec.ofNat 32 (min (s.dev.tiles[farTile f.far].sr.sem[f.sem].toNat + 1) 0xffffffff)
      ∧ t.dev.mem = (s.dev.locWrite (farTile f.far) l f.bytes).mem := by
  obtain ⟨hd, hfence, hsender, hvalid, hquad, hacl, hwork⟩ := htakes
  have hdeliver := Dev.deliverFar_of_takes (d := { s.dev with far := r }) (f := f) ⟨hd, hfence, hsender, hvalid, hquad, hacl, hwork⟩ hloc hfree
  have honly := ({ s.dev with far := r } : Dev).locWrite_memOnly (farTile f.far) l f.bytes
  have htiles : (({ s.dev with far := r } : Dev).locWrite (farTile f.far) l f.bytes).tiles = s.dev.tiles := honly.tiles
  have hops' : ((({ s.dev with far := r } : Dev).locWrite (farTile f.far) l f.bytes).onTile (farTile f.far) fun t =>
      t.addSem f.sem 1).tiles[idx 128 f.stile].ops = [o] := by
    rw [Dev.onTile_tiles_of_kept (g := Tile.ops) (f := fun t => t.addSem f.sem 1) fun _ => rfl, htiles, hops]
  have hmc : (({ s.dev with far := r } : Dev).locWrite (farTile f.far) l f.bytes).mc = s.dev.mc := by rw [honly]
  have hend := Dev.endFar_of_single (f := f) (hdev.trans (congrArg (fun m => m.config.spdev) hmc).symm) hops' hof
  have hexec : exec (.xfarDelivery 0) s = .next (s.onDev fun d => (({ d with far := r } : Dev).deliverFar f).endFar f) := by
    change execXfarDelivery 0 s = _
    unfold execXfarDelivery State.onDev
    simp only [hfar]
    rfl
  have hleft := (congrArg (fun d : Dev => d.endFar f) hdeliver).trans hend
  have hfar' := congrArg Dev.far hleft
  have hmine := congrArg (fun d : Dev => d.tiles[idx 128 f.stile].ops) hleft
  have hsem := congrArg (fun d : Dev => d.tiles[farTile f.far].sr.sem[f.sem]) hleft
  have hmem := congrArg Dev.mem hleft
  have hl : ∀ rank off, l ≠ .lateral rank off := by
    obtain ⟨off, rfl⟩ | ⟨bank, off, rfl, -⟩ := hfree <;> exact nofun
  refine ⟨_, hexec, hfar'.trans ?_, hmine.trans (congrArg Tile.ops (Dev.onTile_tiles_same ..)), hsem.trans ?_, hmem.trans ?_⟩
  · exact congrArg Dev.far honly
  · rw [Dev.onTile_tiles_of_kept (g := fun t => t.sr.sem[f.sem]) (f := Tile.noOps) fun _ => rfl, Dev.onTile_tiles_same, htiles]
    exact Tile.addSem_sem_same ..
  · exact Dev.mem_locWrite_congr (d := { s.dev with far := r }) (e := s.dev) rfl rfl hl f.bytes

/-! Lateral accesses -/

section
variable {s : State} {n : Fin 128} {p : Panel} {o : MemOp} {rank off : Nat} (hops : s.dev.tiles[n].ops = [o]) (hpanel : s.dev.panelOf n = some p)
  (hready : s.dev.ready n 0 = some o) (hloc : locate p.size (o.addr.toNat % 2 ^ 32) o.size = some (.lateral rank off))
  (hgo : s.dev.routeDrop p s.dev.tiles[n].rank rank = none) (hback : s.dev.routeDrop p rank s.dev.tiles[n].rank = none)
include hops hpanel hready hloc hgo hback

theorem lateral_store (hkind : o.kind = .stv) : ∃ t, exec (.lateralAccessPerform n 0) s = .next t ∧ t.dev.tiles[n].ops = []
    ∧ t.dev.mem = memWriteList s.dev.mem (vaultKey (p.tile rank) off) (leBytes o.size o.data.toNat) := by
  have hseen := s.dev.mem_lateralSeen n p rank (vaultKey (p.tile rank) off) o.size
  have hops' : ((s.dev.lateralSeen n p rank (vaultKey (p.tile rank) off) o.size).write (vaultKey (p.tile rank) off)
      (leBytes o.size o.data.toNat)).tiles[n].ops = [o] := (congrArg (fun l => Tile.ops l[n]) (s.dev.tiles_lateralSeen ..)).trans hops
  have hleft := Dev.dropOp_of_single hops'
  have hmine := congrArg (fun d : Dev => d.tiles[n].ops) hleft
  have hmem := congrArg Dev.mem hleft
  exact ⟨_, exec_lateral_stv hpanel hready hloc hgo hback hkind, hmine.trans (congrArg Tile.ops (Dev.onTile_tiles_same ..)),
    hmem.trans (congrArg (memWriteList · _ _) hseen)⟩

theorem lateral_load (hkind : o.kind = .ldv) : ∃ t, exec (.lateralAccessPerform n 0) s = .next t ∧ t.dev.mem = s.dev.mem
    ∧ ∃ q, t.dev.tiles[n].ops = [q] ∧ q.stage = .performed ∧ q.ls = o.ls
      ∧ q.data = BitVec.ofNat 1024 (leNat (s.dev.bytes (vaultKey (p.tile rank) off) o.size)) := by
  have hops' : (s.dev.lateralSeen n p rank (vaultKey (p.tile rank) off) o.size).tiles[n].ops = [o] :=
    (congrArg (fun l => Tile.ops l[n]) (s.dev.tiles_lateralSeen ..)).trans hops
  have hleft := Dev.answer_of_single hops' (by rw [hkind]; decide) (BitVec.ofNat 1024 (leNat (s.dev.bytes (vaultKey (p.tile rank) off) o.size)))
    (s.dev.bad (vaultKey (p.tile rank) off) o.size)
  have hmine := congrArg (fun d : Dev => d.tiles[n].ops) hleft
  have hmem := congrArg Dev.mem hleft
  exact ⟨_, exec_lateral_ldv hpanel hready hloc hgo hback hkind, hmem.trans (s.dev.mem_lateralSeen ..), _,
    hmine.trans (congrArg Tile.ops (Dev.onTile_tiles_same ..)), rfl, rfl, rfl⟩

theorem lateral_atomic (hkind : o.kind = .amoV)
    (hlines : o.scope < 3 ∨ (o.acq = false ∧ o.rel = false) ∨ ∀ q : Fin 32, ∀ l ∈ s.dev.quads[q].slc, l.copy = none) :
    ∃ t q, exec (.lateralAccessPerform n 0) s = .next t ∧ t.dev.tiles[n].ops = [q] ∧ q.stage = .performed ∧ q.ls = o.ls
      ∧ q.data.setWidth 64 = s.dev.dword (vaultKey (p.tile rank) off)
      ∧ t.dev.mem = if o.amo = .cas ∧ s.dev.dword (vaultKey (p.tile rank) off) ≠ o.data2 then s.dev.mem
          else memWriteList s.dev.mem (vaultKey (p.tile rank) off)
            (leBytes 8 (amoNew o.amo (s.dev.dword (vaultKey (p.tile rank) off)) (o.data.setWidth 64) o.data2).toNat) := by
  have hexec := exec_lateral_amo hpanel hready hloc hgo hback hkind hlines
  have hops' : ((s.dev.lateralSeen n p rank (vaultKey (p.tile rank) off) o.size).writeAtomic o (vaultKey (p.tile rank) off)
      (s.dev.dword (vaultKey (p.tile rank) off))).tiles[n].ops = [o] := by
    rw [(Dev.writeAtomic_memOnly ..).tiles, Dev.tiles_lateralSeen]
    exact hops
  have hleft := Dev.answer_of_single hops' (by rw [hkind]; decide) ((s.dev.dword (vaultKey (p.tile rank) off)).setWidth 1024)
    (s.dev.bad (vaultKey (p.tile rank) off) 8)
  have hmine := congrArg (fun d : Dev => d.tiles[n].ops) hleft
  have hmem := congrArg Dev.mem hleft
  refine ⟨_, _, hexec, hmine.trans (congrArg Tile.ops (Dev.onTile_tiles_same ..)), rfl, rfl, setWidth_word _, hmem.trans ?_⟩
  rw [Dev.onTile_mem, Dev.mem_writeAtomic, Dev.mem_lateralSeen]

end

end Sys2Proof.Machine

namespace Sys2Proof
open Machine

/-- Settles O45: each event by the equation of its branch that the hypotheses choose, with the addition of an `sndr` by the lanes and
blocks of its result. -/
theorem remoteOperationsPerform : Obligations.RemoteOperationsPerform := by
  unfold Obligations.RemoteOperationsPerform
  refine ⟨fun s n p o hops hpanel hready hwf => ⟨fun rank off hkind hloc hgo hback => ?lateral, fun rank off hkind hloc hgo hback hlines => ?atomic,
    fun hkind hdrop => ?semv, fun hkind hdrop => ?sndr, fun hkind hcount hlines => ?xrcvf⟩,
    fun s n i o hget hwork hentry hstage hkind => ?accept, fun s f r o hfar hdev hops hkind hstage hn haddr hsem hdata hsender hfardev => ?xfar⟩
  case lateral =>
    obtain hkind | hkind := hkind
    · obtain ⟨t, hexec, hmem, hdone⟩ := lateral_load hops hpanel hready hloc hgo hback hkind
      exact ⟨t, hexec, fun h => by rw [hkind] at h; contradiction, fun _ => ⟨hmem, hdone⟩⟩
    · obtain ⟨t, hexec, hleft, hmem⟩ := lateral_store hops hpanel hready hloc hgo hback hkind
      exact ⟨t, hexec, fun _ => ⟨hleft, hmem⟩, fun h => by rw [hkind] at h; contradiction⟩
  case atomic => exact lateral_atomic hops hpanel hready hloc hgo hback hkind hlines
  case semv =>
    obtain ⟨t, hexec, hmem, hleft, hsr⟩ := exec_semvIncrement_of_ready hops hpanel hready hdrop hkind
    exact ⟨t, hexec, hmem, hleft, (congrArg (fun r => r.sem[o.sem]) hsr).trans (Tile.addSem_sem_same ..)⟩
  case sndr =>
    intro m bank off bf fmt old wrong owned fl scaleKey block
    have hoff : off = o.sumOff := o.sumOff_eq.symm
    clear_value off
    subst hoff
    obtain ⟨t, hexec, hmem, hleft, hsr⟩ := exec_sndrAddition_of_ready hops hpanel hready hdrop hkind
    refine ⟨t, (s.dev.sumResult m o).data, hexec, hleft, ?_, fun hpoison howned hwrong hrty => ?_, fun hpoison howned hwrong hrty => ?_, fun hskip => ?_⟩
    · rw [hsr, Tile.addSem_sem_same, Dev.addAt_sem]
    · have hmade := Dev.sum_made hpoison howned (Bool.eq_false_iff.2 (mt Dev.sumWrong_iff.1 hwrong))
      obtain ⟨hint, hfp32, hbf16⟩ := s.dev.lanes_sumResult m o
      exact ⟨hmem.trans (Dev.addAt_plain hmade hrty), hint, hfp32, hbf16⟩
    · have hmade := Dev.sum_made hpoison howned (Bool.eq_false_iff.2 (mt Dev.sumWrong_iff.1 hwrong))
      obtain ⟨hwrite, hnan, hsat⟩ := Dev.addAt_mx hmade hrty
      exact ⟨fun k hk j h hj => Dev.lane_sumResult hrty hk hj h, hmem.trans hwrite, (congrArg TileSr.xrncnt hsr).trans hnan,
        (congrArg TileSr.xrscnt hsr).trans hsat⟩
    · have hany : (o.poison || s.dev.tiles[m].owned o.sumBank || s.dev.sumWrong m o) = true := by
        simp only [Bool.or_eq_true, or_assoc]
        exact hskip.imp_right (Or.imp_right Dev.sumWrong_iff.2)
      obtain ⟨hkept, hpdcnt, htstat, hxrncnt⟩ := Dev.addAt_skipped hany
      exact ⟨hmem.trans hkept, fun h => (congrArg TileSr.pdcnt hsr).trans (hpdcnt h),
        fun h => (congrArg (fun r => r.tstat.getLsbD 5) hsr).trans (htstat h),
        fun h => (congrArg TileSr.xrncnt hsr).trans (hxrncnt (Dev.sumWrong_iff.2 h))⟩
  case xrcvf =>
    refine ⟨fun a hA hsize => ?_, fun hA hsize => ?_⟩
    · have hloc := locate_vault (size := 0) (a := o.addr.toNat) (k := o.size) (by omega) (by omega)
      rw [hA, Nat.add_sub_cancel_left, ← hA] at hloc
      exact exec_xrcvfTake_of_ready hops hready hkind hcount hlines hloc
    · exact exec_xrcvfTake_of_ready hops hready hkind hcount hlines (locate_tsp hA hsize)
  case accept => exact exec_outboundAccept_of_taken hget hwork hentry hstage hkind
  case xfar =>
    intro b n size a hfence hvalid hquad hacl hwork
    have hof : f.isOf o = true := by simp [SeamFlit.isOf, hkind, hstage, hn, haddr, hsem, hdata]
    have htakes : s.dev.TakesMessage f := by
      refine ⟨hfardev, fence_eq_zero _ hfence, fence_eq_zero _ hsender, hvalid, hquad, List.any_eq_true.2 ?_, hwork⟩
      obtain ⟨e, he, hedev, hebolt⟩ := hacl
      exact ⟨e, he, by simp [hedev, hdev, hebolt]⟩
    refine ⟨fun hlo hhi => ?_, fun hlo hhi howned hlegal hwf => ?_⟩
    · obtain ⟨t, hexec, hleft, hmine, hsem', hmem⟩ := exec_xfarDelivery_of_takes hfar hdev hops hof htakes (locate_vault hlo hhi)
        (.inl ⟨_, rfl⟩)
      exact ⟨t, hexec, hleft, hmine, hsem', hmem⟩
    · obtain ⟨t, hexec, hleft, hmine, hsem', hmem⟩ := exec_xfarDelivery_of_takes hfar hdev hops hof htakes (locate_tsp hlo hhi)
        (.inr ⟨_, _, rfl, howned⟩)
      have hlen : f.bytes.length = size := length_leBytes ..
      obtain ⟨hat, hframe⟩ := Dev.locWrite_wrote (n := farTile f.far) (l := .tsp (a / 65536) (a % 65536)) (bs := f.bytes) hwf (.inr hlegal)
      rw [← hmem] at hat hframe
      refine ⟨t, hexec, hleft, hmine, hsem', fun i hi => ?_, fun k hk => hframe k (hlen ▸ hk)⟩
      have hi' : i < f.bytes.length := by omega
      exact (hat i hi').trans (getElem_leBytes_toNat _ hi')

end Sys2Proof
end
